-- ==== Sys2Proof/Word.lean ====
section
/-! DEFINITION. The words of the Lummezel L9 and the one keyed-list type that every sparse store of the model uses. -/

namespace Sys2Proof

/-- One byte of memory or of a typed buffer. -/
abbrev Byte := BitVec 8

/-- A 32-bit register value: one lane of a vector register, or a scalar register (R68). -/
abbrev Word := BitVec 32

/-- A 64-bit value: an instruction word (R140), an address (R86), a pair (R68). -/
abbrev DWord := BitVec 64

/-- One bit per lane of a warp, lane 0 in bit 0. -/
abbrev Lanes := BitVec 32

/-- Data by key, kept as a list of pairs whose keys rise strictly. -/
abbrev KMap (V : Type) := List (Nat × V)

end Sys2Proof
end

