-- ==== Sys2Proof/Syntax.lean ====
section
/-! DEFINITION. The instructions of LZA 2.3 and the steps of the part: one constructor of `Instr` for every row of
the table of operations and events. An instruction carries its guard and its operands as the assembly writes them
(R162, R218, R245, R273, R288); a step that no instruction word starts carries the place where it comes about. -/

namespace Sys2Proof

/-- The floating types, in the order of op[1:0] (R151). -/
inductive FTy where
  | f32 | f16 | bf16 | f64
  deriving DecidableEq, Repr

/-- The integer types, in the order of their codes (R151). -/
inductive ITy where
  | n8 | i8 | n16 | i16 | n32 | i32 | n64 | i64
  deriving DecidableEq, Repr

/-- A type of a conversion (R185). -/
inductive Ty where
  | int (t : ITy)
  | flt (f : FTy)
  deriving DecidableEq, Repr

/-- The rounding codes of R70. -/
inductive Rm where
  | rne | rtz | rdn | rup | dyn
  deriving DecidableEq, Repr

/-- The conditions of R151. -/
inductive CC where
  | eq | ne | lt | le | gt | ge | uno | ord
  deriving DecidableEq, Repr

/-- What an 11-bit operand code names (R146). -/
inductive Opnd where
  /-- Codes 0 to 1535: a vector register. -/
  | v (n : Nat)
  /-- Codes 1536 to 1599: an inline constant. -/
  | k (n : Nat)
  /-- Codes 1600 to 1855: a scalar register. -/
  | s (n : Nat)
  /-- Codes 1856 to 1879: a predicate register. -/
  | p (n : Nat)
  /-- Codes 1880 to 1887: an identity of R23. -/
  | ident (n : Nat)
  /-- Codes 1888 to 2047: accepted by no field. -/
  | reserved (n : Nat)
  deriving DecidableEq, Repr

/-- A guard: no predicate, or `p(n)`, negated or not (R141, R145). -/
structure Guard where
  pred : Option Nat
  neg : Bool
  deriving DecidableEq, Repr

/-- Scopes, narrowest first (R114, R151). -/
inductive Scope where
  | core | die | device | system
  deriving DecidableEq, Repr

/-- Memory orders (R151). -/
inductive Order where
  | relaxed | acq | rel | ar
  deriving DecidableEq, Repr

/-- Element kinds of loads (R157). -/
inductive LdKind where
  | n8 | i8 | n16 | i16 | w32 | w64
  deriving DecidableEq, Repr

/-- Widths of stores (R157). -/
inductive StWidth where
  | w8 | w16 | w32 | w64
  deriving DecidableEq, Repr

/-- The typed buffers (R15, R156). -/
inductive Buf where
  | abuf | wbuf | cbuf
  deriving DecidableEq, Repr

/-- Service class qualifier and last-use mark (R156). -/
structure Qual where
  cls : Nat
  lu : Bool
  deriving DecidableEq, Repr

/-- Atomic operations (R226). -/
inductive AOp where
  | add | min | max | and | or | xor | xchg | cas
  deriving DecidableEq, Repr

/-- Atomic kinds (R151). -/
inductive AKind where
  | n32 | i32 | n64 | i64 | f32
  deriving DecidableEq, Repr

/-- The frame of a class-3 command: wait mask, slot to set, barrier to arrive on (R143, R245). -/
structure CmdFrame where
  wm : BitVec 16
  ss : Option Nat
  bar : Option Nat
  deriving DecidableEq, Repr

/-- Set representations, in the order of their codes (R110). -/
inductive Rep where
  | sorted | bitmap | runs | hash
  deriving DecidableEq, Repr

/-- How the host names an agent in `RESUME` (R315). -/
inductive AgentName where
  | byPlace (core part slot : Nat)
  | byIdentity (gang widx tser : Nat)
  deriving DecidableEq, Repr

/-- An access that arrives over Strelzor Link (R356). -/
inductive PeerAcc where
  | read (width : Nat)
  | write (bytes : List Byte)
  | atomic (op : AOp) (kind : AKind) (x y : DWord)
  deriving DecidableEq, Repr

/-- The SRAMs whose marks reach no access (R362): the instruction cache of a partition, numbered with its core, the TLB of a
core and of a die, the queues of a die, the save partition of a die, the translation cache, any other by its counter. -/
inductive Sram where
  | icache (core part : Nat)
  | coreTlb (core : Nat)
  | dieTlb (die : Nat)
  | queue (die : Nat)
  | savePartition (die : Nat)
  | translation
  | other (unit : Nat)
  deriving DecidableEq, Repr

/-- A firmware image as it is presented at device reset (R359): its bytes, the signature over their SHA-512 digest, and the
key to verify it against. -/
structure FwImage where
  code : List Byte
  sig : List Byte
  key : List Byte
  deriving DecidableEq, Repr

/-- Where a soft error strikes (R362): a granule of device memory, of an L2 line, of an L1 line of a core, of a typed buffer of
a gang or of a core's converted ways, one lane of a vector register or a scalar register of an agent, in its register file or
in its saved record, or a granule of another SRAM. -/
inductive ErrSite where
  | memory (granule : Nat)
  | l2 (granule : Nat)
  | l1 (core granule : Nat)
  | buffer (gang pos : Nat) (buf : Buf) (granule : Nat)
  | ways (core granule : Nat)
  | vector (agent reg lane : Nat)
  | scalar (agent reg : Nat)
  | sram (unit : Sram) (granule : Nat)
  deriving DecidableEq, Repr

/-- The instructions and the steps of the part. -/
inductive Instr where
  -- class 0: floating point (R167 to R171, R179 to R187)
  | vaddF (g : Guard) (f : FTy) (rm : Rm) (d a b : Opnd)
  | vsubF (g : Guard) (f : FTy) (rm : Rm) (d a b : Opnd)
  | vmulF (g : Guard) (f : FTy) (rm : Rm) (d a b : Opnd)
  | vfmaF (g : Guard) (f : FTy) (rm : Rm) (d a b c : Opnd)
  | vminF (g : Guard) (f : FTy) (d a b : Opnd)
  | vmaxF (g : Guard) (f : FTy) (d a b : Opnd)
  | vaddminF (g : Guard) (f : FTy) (rm : Rm) (d a b c : Opnd)
  | vmaxaddF (g : Guard) (f : FTy) (rm : Rm) (d a b c : Opnd)
  | vcmpF (g : Guard) (f : FTy) (cc : CC) (d a b : Opnd)
  | vrndi (g : Guard) (f : FTy) (rm : Rm) (d a : Opnd)
  | vldexp (g : Guard) (f : FTy) (rm : Rm) (d a b : Opnd)
  | vgetexp (g : Guard) (f : FTy) (d a : Opnd)
  | vnegF (g : Guard) (f : FTy) (d a : Opnd)
  | vabsF (g : Guard) (f : FTy) (d a : Opnd)
  | vrcp (g : Guard) (rm : Rm) (d a : Opnd)
  | vrsqrt (g : Guard) (rm : Rm) (d a : Opnd)
  | vfexp2 (g : Guard) (rm : Rm) (d a : Opnd)
  | vlog2 (g : Guard) (rm : Rm) (d a : Opnd)
  | vcvt (g : Guard) (td ts : Ty) (rm : Rm) (d a : Opnd)
  | vdp4F16 (g : Guard) (rm : Rm) (d a b c : Opnd)
  | vdp4Bf16 (g : Guard) (rm : Rm) (d a b c : Opnd)
  | vdp4I8 (g : Guard) (d a b c : Opnd)
  | vcbxCb3 (g : Guard) (d a b c : Opnd)
  | vcbxCb4 (g : Guard) (d a b c : Opnd)
  -- class 0: integer and bit operations (R172 to R178)
  | vaddT (g : Guard) (t : ITy) (d a b : Opnd)
  | vsubT (g : Guard) (t : ITy) (d a b : Opnd)
  | vmulT (g : Guard) (t : ITy) (d a b : Opnd)
  | vmulhi (g : Guard) (t : ITy) (d a b : Opnd)
  | vmad (g : Guard) (t : ITy) (d a b c : Opnd)
  | vminT (g : Guard) (t : ITy) (d a b : Opnd)
  | vmaxT (g : Guard) (t : ITy) (d a b : Opnd)
  | vabsT (g : Guard) (t : ITy) (d a : Opnd)
  | vnegT (g : Guard) (t : ITy) (d a : Opnd)
  | vaddminT (g : Guard) (t : ITy) (d a b c : Opnd)
  | vmaxaddT (g : Guard) (t : ITy) (d a b c : Opnd)
  | vcmpT (g : Guard) (t : ITy) (cc : CC) (d a b : Opnd)
  | vand (g : Guard) (t : ITy) (d a b : Opnd)
  | vor (g : Guard) (t : ITy) (d a b : Opnd)
  | vxor (g : Guard) (t : ITy) (d a b : Opnd)
  | vnot (g : Guard) (t : ITy) (d a : Opnd)
  | vshl (g : Guard) (t : ITy) (d a b : Opnd)
  | vshr (g : Guard) (t : ITy) (d a b : Opnd)
  | vpopc (g : Guard) (t : ITy) (d a : Opnd)
  | vclz (g : Guard) (t : ITy) (d a : Opnd)
  | vbfe (g : Guard) (t : ITy) (d a b c : Opnd)
  | vbfi (g : Guard) (t : ITy) (d a b c : Opnd)
  | vsel (g : Guard) (t : ITy) (d a b c : Opnd)
  | vmov (g : Guard) (t : ITy) (d a : Opnd)
  -- class 0: lane movement, reductions, packs (R190 to R196)
  | vshup (g : Guard) (t : ITy) (d a b c : Opnd)
  | vshdn (g : Guard) (t : ITy) (d a b c : Opnd)
  | vperm (g : Guard) (t : ITy) (d a b : Opnd)
  | vbcast (g : Guard) (t : ITy) (d a b : Opnd)
  | vredaddF (g : Guard) (f : FTy) (rm : Rm) (d a : Opnd)
  | vscanIncF (g : Guard) (f : FTy) (rm : Rm) (d a : Opnd)
  | vscanExcF (g : Guard) (f : FTy) (rm : Rm) (d a : Opnd)
  | vredaddT (g : Guard) (t : ITy) (d a : Opnd)
  | vscanIncT (g : Guard) (t : ITy) (d a : Opnd)
  | vscanExcT (g : Guard) (t : ITy) (d a : Opnd)
  | vpack (g : Guard) (t : ITy) (d a b c : Opnd)
  | vunpack (g : Guard) (t : ITy) (d a b c : Opnd)
  -- class 1: scalar (R197, R198)
  | saddF (g : Guard) (f : FTy) (rm : Rm) (d a b : Opnd)
  | ssubF (g : Guard) (f : FTy) (rm : Rm) (d a b : Opnd)
  | smulF (g : Guard) (f : FTy) (rm : Rm) (d a b : Opnd)
  | sfma (g : Guard) (f : FTy) (rm : Rm) (d a b c : Opnd)
  | sminF (g : Guard) (f : FTy) (d a b : Opnd)
  | smaxF (g : Guard) (f : FTy) (d a b : Opnd)
  | scmpF (g : Guard) (f : FTy) (cc : CC) (d a b : Opnd)
  | scvt (g : Guard) (td ts : Ty) (rm : Rm) (d a : Opnd)
  | saddT (g : Guard) (t : ITy) (d a b : Opnd)
  | ssubT (g : Guard) (t : ITy) (d a b : Opnd)
  | smulT (g : Guard) (t : ITy) (d a b : Opnd)
  | smulhi (g : Guard) (t : ITy) (d a b : Opnd)
  | smad (g : Guard) (t : ITy) (d a b c : Opnd)
  | sminT (g : Guard) (t : ITy) (d a b : Opnd)
  | smaxT (g : Guard) (t : ITy) (d a b : Opnd)
  | sabs (g : Guard) (t : ITy) (d a : Opnd)
  | sneg (g : Guard) (t : ITy) (d a : Opnd)
  | scmpT (g : Guard) (t : ITy) (cc : CC) (d a b : Opnd)
  | sand (g : Guard) (t : ITy) (d a b : Opnd)
  | sor (g : Guard) (t : ITy) (d a b : Opnd)
  | sxor (g : Guard) (t : ITy) (d a b : Opnd)
  | snot (g : Guard) (t : ITy) (d a : Opnd)
  | sshl (g : Guard) (t : ITy) (d a b : Opnd)
  | sshr (g : Guard) (t : ITy) (d a b : Opnd)
  | spopc (g : Guard) (t : ITy) (d a : Opnd)
  | sclz (g : Guard) (t : ITy) (d a : Opnd)
  | sbfe (g : Guard) (t : ITy) (d a b c : Opnd)
  | sbfi (g : Guard) (t : ITy) (d a b c : Opnd)
  | ssel (g : Guard) (t : ITy) (d a b c : Opnd)
  | smov (g : Guard) (t : ITy) (d a : Opnd)
  | lget (g : Guard) (t : ITy) (d a b : Opnd)
  | lput (g : Guard) (t : ITy) (d a b : Opnd)
  -- class 1: system registers and control (R199 to R217)
  | srd (g : Guard) (reg : Nat) (d : Opnd)
  | swr (g : Guard) (reg : Nat) (a : Opnd)
  | bra (g : Guard) (off : Int)
  | braAny (g : Guard) (a : Opnd) (off : Int)
  | braAll (g : Guard) (a : Opnd) (off : Int)
  | braNone (g : Guard) (a : Opnd) (off : Int)
  | braZ (g : Guard) (a : Opnd) (off : Int)
  | braNz (g : Guard) (a : Opnd) (off : Int)
  | jmp (g : Guard) (a : Opnd)
  | brx (g : Guard) (a : Opnd) (off : Int)
  | callDirect (g : Guard) (nsave : Nat) (target cont : Int)
  | callRegister (g : Guard) (nsave : Nat) (a : Opnd) (cont : Int)
  | ret (g : Guard)
  | exit (g : Guard)
  | park (g : Guard) (line bar tmo : Bool) (a : Opnd) (b : Nat) (c : Opnd)
  | yield (g : Guard)
  | grow (g : Guard) (n : Nat)
  | shrink (g : Guard) (n : Nat)
  | taskPush (g : Guard) (prio : Nat) (a : Opnd)
  | nop (g : Guard)
  -- class 6: long immediates (R201)
  | sli (g : Guard) (d : Opnd) (imm : Word)
  | sli64 (g : Guard) (d : Opnd) (imm : DWord)
  | vli (g : Guard) (d : Opnd) (imm : Word)
  -- class 2: memory (R222 to R244)
  | ld (g : Guard) (k : LdKind) (o : Order) (sc : Scope) (d a : Opnd) (q : Qual) (off : Int)
  | st (g : Guard) (w : StWidth) (o : Order) (sc : Scope) (d a : Opnd) (q : Qual) (off : Int)
  | gath (g : Guard) (k : LdKind) (d a b : Opnd) (off : Int)
  | scat (g : Guard) (w : StWidth) (d a b : Opnd) (off : Int)
  | ldb (g : Guard) (k : LdKind) (buf : Buf) (d a : Opnd) (off : Int)
  | stb (g : Guard) (w : StWidth) (buf : Buf) (d a : Opnd) (off : Int)
  | atom (g : Guard) (op : AOp) (k : AKind) (o : Order) (sc : Scope) (d a b : Opnd)
  | red (g : Guard) (op : AOp) (k : AKind) (o : Order) (sc : Scope) (a b : Opnd)
  | redRet (g : Guard) (op : AOp) (k : AKind) (o : Order) (sc : Scope) (d a b : Opnd)
  | fence (g : Guard) (o : Order) (sc : Scope)
  | pref (g : Guard) (a : Opnd) (q : Qual) (off : Int)
  | ipref (g : Guard) (a : Opnd) (off : Int)
  | copyAbuf (g : Guard) (q : Qual) (d a b c : Opnd)
  | copyWbuf (g : Guard) (q : Qual) (d a b c : Opnd)
  | copyOut (g : Guard) (cbuf : Bool) (q : Qual) (d a b c : Opnd)
  | copyMc (g : Guard) (q : Qual) (d a b c : Opnd)
  | copyQ (g : Guard) (q : Qual) (d a b c : Opnd)
  | toolXpose (g : Guard) (buf : Buf) (d a b c : Opnd)
  | toolCvt (g : Guard) (buf : Buf) (d a b c : Opnd)
  | toolQuant (g : Guard) (buf : Buf) (d a b c : Opnd)
  | toolZero (g : Guard) (buf : Buf) (d a b c : Opnd)
  | toolRsum (g : Guard) (buf : Buf) (d a b c : Opnd)
  | chaseLink (g : Guard) (d a b c : Opnd)
  | chaseIndex (g : Guard) (d a b c : Opnd)
  | chaseSample (g : Guard) (d a b c : Opnd)
  | l1cfg (g : Guard) (n : Nat)
  | l1cfgQ (g : Guard) (d : Opnd)
  | waitc (g : Guard) (ld st tl : Nat)
  | cinvD (g : Guard)
  | cinvI (g : Guard)
  | cflush (g : Guard) (a b : Opnd)
  -- class 3: matrix and chain (R245 to R272)
  | tbind (g : Guard) (th : Nat) (d : Opnd)
  | ldst (g : Guard) (arr : Nat) (f : CmdFrame) (d : Opnd)
  | cbtload (g : Guard) (tbl : Nat) (f : CmdFrame) (d : Opnd)
  | mswap (g : Guard) (arr : Nat) (f : CmdFrame)
  | mstream (g : Guard) (arr : Nat) (f : CmdFrame) (d : Opnd)
  | mop (g : Guard) (f : CmdFrame) (d : Opnd)
  | mzero (g : Guard) (f : CmdFrame) (d : Opnd)
  | chainCfg (g : Guard) (f : CmdFrame) (d : Opnd)
  | chainStep (g : Guard) (f : CmdFrame) (d : Opnd)
  | chainRun (g : Guard) (f : CmdFrame) (d : Opnd)
  | bdSet (g : Guard) (n : Nat) (d : Opnd)
  | bdGet (g : Guard) (n : Nat) (d : Opnd)
  | dsrd (g : Guard) (d : Opnd)
  -- class 4: sets (R273 to R287)
  | setNew (g : Guard) (d : Opnd)
  | setFree (g : Guard) (a : Opnd)
  | setIns (g : Guard) (wr : Bool) (d a b : Opnd)
  | setDel (g : Guard) (wr : Bool) (d a b : Opnd)
  | setHas (g : Guard) (d a b : Opnd)
  | setCard (g : Guard) (d a : Opnd)
  | setOr (g : Guard) (a b c : Opnd)
  | setAnd (g : Guard) (a b c : Opnd)
  | setSub (g : Guard) (a b c : Opnd)
  | setIn (g : Guard) (a b c : Opnd)
  | setOut (g : Guard) (d a b c : Opnd)
  | setIter (g : Guard) (d a c : Opnd)
  | setHint (g : Guard) (rep : Rep) (a : Opnd)
  | setHintNone (g : Guard) (a : Opnd)
  | setCost (g : Guard) (n : Nat) (d : Opnd)
  -- class 5: synchronisation and system (R288 to R310)
  | barInit (g : Guard) (hb : Nat) (a : Opnd)
  | barArrive (g : Guard) (hb : Nat)
  | barWait (g : Guard) (hb : Nat)
  | barStatus (g : Guard) (hb : Nat) (d : Opnd)
  | qstate (g : Guard)
  | gstart (g : Guard) (d : Opnd)
  | gwait (g : Guard) (a : Opnd)
  | fdefer (g : Guard) (a b c : Opnd)
  | trap (g : Guard) (code : BitVec 16)
  | tret (g : Guard)
  | rngOpen (g : Guard) (label : BitVec 16)
  | rngClose (g : Guard)
  | capq (g : Guard) (d a : Opnd)
  | tmrd (g : Guard) (d : Opnd)
  -- a word that is not an instruction (R153)
  | unassignedWord (w0 w1 : DWord)
  -- steps of the memory system
  | storeDrain (agent op : Nat) (lanes : Lanes)
  | storePerform (agent op : Nat) (lanes : Lanes)
  | storeAcknowledge (agent op : Nat) (sc : Scope)
  | releaseProceed (agent op : Nat)
  | atomicPerform (agent op : Nat) (lanes : Lanes)
  | loadReturn (agent op : Nat) (lanes : Lanes)
  | bufferAccessPerform (agent op : Nat) (lanes : Lanes)
  | pageWalk (agent op lane : Nat)
  | l1Fill (core line way : Nat)
  | l2Fill (ix : Nat) (victim : Option Nat)
  | cxlOwnership (line : Nat)
  | hbmRequestService (stack : Nat) (issuable : List Nat)
  | deadlineMiss (req : Nat)
  | engineLineRelease (core cmd line : Nat)
  | chaseHop (agent op lane : Nat)
  | l1Conversion (core : Nat)
  -- steps of the engines
  | copyEngineStart (core : Nat)
  | copyChunk (core cmd : Nat)
  | toolChunk (core cmd : Nat)
  | commandStart (core cmd : Nat)
  | chainStepExecute (core cmd : Nat) (bad : Bool)
  | commandEnd (core cmd : Nat) (bad : BitVec 64)
  | setEngineOperation (agent op : Nat)
  | setFreeReturn (die ix : Nat)
  -- steps of grace periods
  | quiescentPoint (agent : Nat)
  | gstartTarget (agent : Nat)
  | trackerReport (tenant die : Nat)
  | cinchPush (die ix : Nat)
  | gracestall (tenant : Nat) (target : Word)
  -- steps of barriers, waits and traps
  | barrierArrival (gang pos : Nat)
  | flipBroadcast (gang pos hb : Nat)
  | parkWake (agent grp : Nat)
  | parkTimeout (agent grp : Nat)
  | timer (agent : Nat)
  | userTrapEntry (agent : Nat)
  | warpSwap (core part outSlot inSlot : Nat)
  | growGrant (agent : Nat)
  | waitcRelease (agent : Nat)
  | taskStart (core : Nat)
  | continuationResume (agent : Nat)
  | taskPushAppend (agent : Nat)
  -- steps of the dispatcher
  | launchCheck (tenant die prio : Nat)
  | waitWordRead (tenant die prio : Nat)
  | admissionTake (die : Nat)
  | reservationReply (die unit : Nat)
  | backoffExpiry (die unit : Nat)
  | completionWordWrite (ix : Nat)
  -- steps of pre-emption and contexts
  | yieldDeadline (gang : Nat)
  | forcedSaveLimit (gang : Nat)
  | gangSave (gang : Nat)
  | gangRestore (die unit : Nat)
  | contextResetComplete (tenant : Nat)
  -- steps of faults
  | faultRecord (tenant : Nat)
  -- steps of the host, the loader, the fabric and the package
  | tlbInvComplete (tenant : Nat)
  | loadComplete (tenant : Nat)
  | sliRatioDone (stack : Nat)
  -- steps that only the host, the environment or a given choice brings about
  | icacheFill (core part line : Nat) (drop : Option Nat)
  | parkWatchDrop (agent grp : Nat)
  | queueWindowWrite (tenant off : Nat) (bytes : List Byte)
  | preemptRequest (tenant : Nat)
  | saveSpill (die : Nat)
  | contextResume (tenant : Nat)
  | contextReset (tenant : Nat)
  | contextEnable (tenant : Nat)
  | contextDisable (tenant : Nat)
  | retry (tenant : Nat) (who : AgentName)
  | skip (tenant : Nat) (who : AgentName)
  | resumeReset (tenant : Nat) (who : AgentName)
  | tlbInv (tenant va size : Nat)
  | loadStart (tenant : Nat) (value : DWord)
  | fuseCmd (value : DWord)
  | fuseBlowDone
  | attestationStart
  | attestationReport
  | sliCfgWrite (stack : Nat) (value : DWord)
  | powerLimiterStep (die mhz : Nat)
  | registerWrite (block : Option Nat) (off width : Nat) (value : DWord)
  | hostMemAccess (pa : Nat) (acc : PeerAcc)
  | peerAccess (dev pa : Nat) (acc : PeerAcc)
  | linkDeliveryFailure (agent op lane : Nat)
  | softError (site : ErrSite) (double : Bool)
  | moduleTraining (module_ : Nat) (trained : Bool)
  | deviceReset (images : List FwImage)
  | cxlCacheOwnershipLoss (line : Nat)
  | linkPortServiceChange (port : Nat) (up : Bool)
  | powerStateChange (block level : Nat)
  deriving DecidableEq, Repr

/-! ## Brosedin IR (R342 to R344) -/

/-- A type of the IR (R342): the integer and natural types, the floating types, `pred`, `gptr`, the three offsets, `handle`. -/
inductive IrTy where
  | int (t : ITy)
  | flt (f : FTy)
  | pred
  | gptr
  | off (b : Buf)
  | handle
  deriving DecidableEq, Repr

/-- A statement of a block: an operation, which is the LZA instruction that it names, with its rounding code, scope, order and
class, on values for registers, and the values that it defines, with their types (R342, R343); `conv.enter`; `conv.exit`
(R344). The number of a destination field names no value, but where the instruction reads it too. -/
inductive IrStmt where
  | op (i : Instr) (res : List (Opnd × IrTy))
  | enter
  | leave
  deriving DecidableEq, Repr

/-- A vote of the threads on a predicate, as `bra.any`, `bra.all` and `bra.none` take it (R203, R344). -/
inductive IrVote where
  | any | all | none
  deriving DecidableEq, Repr

/-- How a block ends: it goes on to a block, or to one of two by a predicate, each thread by its own or all by a vote, with
values for its parameters; or the thread ends. -/
inductive IrEnd where
  | jump (block : Nat) (args : List Opnd)
  | branch (p : Opnd) (vote : Option IrVote) (yes : Nat) (yesArgs : List Opnd) (no : Nat) (noArgs : List Opnd)
  | ends
  deriving DecidableEq, Repr

/-- A block with its parameters, which stand in place of merge nodes (R342). -/
structure IrBlock where
  params : List (Opnd × IrTy)
  body : List IrStmt
  last : IrEnd
  deriving DecidableEq, Repr

/-- A function, which starts at its first block, and a module (R342). -/
structure IrFunc where
  kernel : Bool
  blocks : List IrBlock
  deriving DecidableEq, Repr

structure IrModule where
  major : Nat
  minor : Nat
  funcs : List IrFunc
  deriving DecidableEq, Repr

end Sys2Proof
end

