-- ==== Sys2Proof/Config.lean ====
section
/-! DEFINITION. What the manual leaves to the part: values without a body, so that no proof can see what they are.
A claim about this model holds for each of their values. -/

namespace Sys2Proof

/-- R179, R363: which of the two neighbours a part returns for an inexact 1/x, by the operand's bits (log 3). -/
opaque Config.rcpUp : Word → Bool

/-- R179, R363: which of the two neighbours a part returns for an inexact 1/√x, by the operand's bits (log 3). -/
opaque Config.rsqrtUp : Word → Bool

/-- R180, R363: the FP32 value a part returns for 2^x, taken only where the bound of R180 admits it (log 3). -/
opaque Config.exp2Pick : Word → Word

/-- R181, R363: the FP32 value a part returns for log2 x, taken only where the bound of R181 admits it (log 3). -/
opaque Config.log2Pick : Word → Word

/-- A byte that the manual leaves undefined, fresh at each count (log 4). -/
opaque Config.freeByte : Nat → Byte

/-- A word that the manual leaves undefined, fresh at each count (log 4). -/
opaque Config.freeWord : Nat → Word

/-- A doubleword that the manual leaves undefined, fresh at each count (log 4). -/
opaque Config.freeDWord : Nat → DWord

/-- R89: what a read of a physical address without memory behind it gives, by address; the manual states no value
(log 11). -/
opaque Config.unbackedByte : Nat → Byte

/-- R110: what a set engine takes for a word that a damaged entry places outside table and heap, by count and address
(log 89). -/
opaque Config.strayWord : Nat → Nat → Word

/-- R22: the array's remap table puts a spare physical row in use, by core and physical array (log 5). -/
opaque Config.spareRow : Nat → Nat → Bool

/-- R21: the set, of the 1,024 of a slice, in which a line stands; the manual states no set index (log 75). -/
opaque Config.l2Index : Nat → Nat

/-- R63: how many clocks a ready warp may be passed over before it goes first; the manual promises a bound and gives none
(log 93). -/
opaque Config.issueBound : Nat

/-- R103: class and deadline stamp of the requests of class-3 commands, by KIND of their engine; the table of the manual has
no row for them (log 87). -/
opaque Config.engineClass : Nat → Nat × Nat

/-- R108, R322: die and stack of the awl engine that carries a walk, by its core and command number; the manual does not say
which one it is (log 83). -/
opaque Config.awlEngine : Nat → Nat → Nat × Nat

/-- R324: a byte of a trace record with these fields; the manual gives the fields and no layout (log 22). -/
opaque Config.traceByte : List Nat → Nat → Byte

/-- R324: value and mask of a tenant's capture filter; the manual gives the filter no register (log 22). -/
opaque Config.captureFilter : Nat → BitVec 16 × BitVec 16

/-- R318: the 256 B lines that a saved record takes beyond those of so many bytes of its parts; its layout is not architectural
(log 36). -/
opaque Config.savedLines : Nat → Nat

/-- R318: the line of a tenant's context-save area, counted modulo the area, at which a spilled record begins (log 36). -/
opaque Config.spillLine : Nat → Nat

/-- R105: the DRAM bank, over all stacks, of a 256 B line of device HBM; the layout is not given (log 12). -/
opaque Config.bankOf : Nat → Nat

/-- R105: the row of a 256 B line within its bank (log 12). -/
opaque Config.rowOf : Nat → Nat

/-- R345, R360: the device key, which lies in fuses and is never readable (log 20). -/
opaque Config.deviceKey : Nat

/-- R345, R360: the number that a signature of the device over a digest draws (log 20). -/
opaque Config.signNonce : BitVec 512 → Nat

/-- R345: the bytes over whose digest the device signs a translation, from its SVN, the translator version and the digests of
the native code and of the IR section; the manual names them and gives no layout (log 21). -/
opaque Config.translationBytes : Nat → Nat → BitVec 512 → BitVec 512 → List Byte

/-- R359: the fused SHA-512 digest of the Furoth key (log 20). -/
opaque Config.furothKeyDigest : BitVec 512

/-- R359, R360: the digest of image i, of the six that R360 lists, of the firmware as shipped (boot 0); and what a report
holds in the place of an image that did not run at a later boot (log 20). -/
opaque Config.measurement : Nat → Nat → BitVec 512

/-- R340: the IR minor and the translator version that the bytes of a translator image bring (log 20). -/
opaque Config.imageIrMinor : List Byte → Nat
opaque Config.imageTranslator : List Byte → Nat

/-- R342: the module that the bytes of an IR section stand for; the manual gives the IR no binary form (log 21). -/
opaque Config.irModule : List Byte → Option IrModule

/-- R345: what a version of the translator puts into the native code of a function of an IR section: the register in which
operand n of operation k stands, its own instructions before an operation, and the grants of the entry header (log 21). -/
opaque Config.irReg : Nat → List Byte → Nat → Nat → Nat → Nat
opaque Config.irOwn : Nat → List Byte → Nat → Nat → List Instr
opaque Config.irGrants : Nat → List Byte → Nat → Nat → Nat

end Sys2Proof
end

