-- ==== Sys2Proof/Machine/Crypto.lean ====
section
/-! DEFINITION. SHA-512 and ECDSA over the curve P-521 (R337, R345, R359, R360), as FIPS 180-4 and FIPS 186-4 define them:
the manual names the two standards and does not restate them (log 20). -/

namespace Sys2Proof.Machine

/-! ## SHA-512 -/

/-- The value of big-endian bytes, and a value as so many of them. -/
def beVal (b : List Byte) : Nat := b.foldl (fun v x => 256 * v + x.toNat) 0
def beBytes (n v : Nat) : List Byte := (List.range n).map fun i => BitVec.ofNat 8 (v / 2 ^ (8 * (n - 1 - i)))

/-- The integer k-th root of n, of so many bits. -/
def rootBits (k n : Nat) : Nat → Nat → Nat
  | 0, r => r
  | b + 1, r => rootBits k n b (if (r + 2 ^ b) ^ k ≤ n then r + 2 ^ b else r)

/-- The first 80 primes. -/
def shaPrimes : List Nat :=
  [2, 3, 5, 7, 11, 13, 17, 19, 23, 29, 31, 37, 41, 43, 47, 53, 59, 61, 67, 71, 73, 79, 83, 89, 97, 101, 103, 107, 109, 113,
   127, 131, 137, 139, 149, 151, 157, 163, 167, 173, 179, 181, 191, 193, 197, 199, 211, 223, 227, 229, 233, 239, 241, 251,
   257, 263, 269, 271, 277, 281, 283, 293, 307, 311, 313, 317, 331, 337, 347, 349, 353, 359, 367, 373, 379, 383, 389, 397,
   401, 409]

/-- The round constants: 64 bits of the fractions of their cube roots. -/
def shaK : List DWord := shaPrimes.map fun p => BitVec.ofNat 64 (rootBits 3 (p * 2 ^ 192) 68 0)

/-- The initial value: 64 bits of the fractions of the square roots of the first eight. -/
def shaInit : List DWord := (shaPrimes.take 8).map fun p => BitVec.ofNat 64 (rootBits 2 (p * 2 ^ 128) 68 0)

/-- The message with its padding: a 1 bit, zeros, and its length in bits. -/
def shaPad (m : List Byte) : List Byte :=
  m ++ [0x80#8] ++ List.replicate ((239 - m.length % 128) % 128) 0#8 ++ beBytes 16 (8 * m.length)

/-- So many further words of a message schedule, newest first. -/
def shaSchedule : Nat → List DWord → List DWord
  | 0, w => w
  | n + 1, w =>
    let x := w.getD 14 0
    let y := w.getD 1 0
    shaSchedule n
      (((y.rotateRight 19 ^^^ y.rotateRight 61 ^^^ y >>> 6) + w.getD 6 0 + (x.rotateRight 1 ^^^ x.rotateRight 8 ^^^ x >>> 7) +
        w.getD 15 0) :: w)

/-- One round on the eight working words. -/
def shaRound (h : List DWord) (k w : DWord) : List DWord :=
  match h with
  | [a, b, c, d, e, f, g, i] =>
    let t1 := i + (e.rotateRight 14 ^^^ e.rotateRight 18 ^^^ e.rotateRight 41) + ((e &&& f) ^^^ (~~~e &&& g)) + k + w
    let t2 := (a.rotateRight 28 ^^^ a.rotateRight 34 ^^^ a.rotateRight 39) + ((a &&& b) ^^^ (a &&& c) ^^^ (b &&& c))
    [t1 + t2, a, b, c, d + t1, e, f, g]
  | _ => h

/-- A block of 128 bytes is taken in. -/
def shaBlock (h : List DWord) (block : List Byte) : List DWord :=
  let w0 := ((List.range 16).map fun i => BitVec.ofNat 64 (beVal ((block.drop (8 * i)).take 8))).reverse
  let w := (shaSchedule 64 w0).reverse
  (h.zip ((shaK.zip w).foldl (fun x e => shaRound x e.1 e.2) h)).map fun e => e.1 + e.2

def shaBlocks : Nat → List Byte → List DWord → List DWord
  | 0, _, h => h
  | n + 1, m, h => shaBlocks n (m.drop 128) (shaBlock h (m.take 128))

/-- SHA-512 of bytes. -/
def sha512 (m : List Byte) : BitVec 512 :=
  let p := shaPad m
  BitVec.ofNat 512 ((shaBlocks (p.length / 128) p shaInit).foldl (fun v x => v * 2 ^ 64 + x.toNat) 0)

/-! ## ECDSA on P-521 -/

def curveP : Nat := 2 ^ 521 - 1

/-- The order of the group. -/
def curveN : Nat :=
  0x1FFFFFFFFFFFFFFFFFFFFFFFFFFFFFFFFFFFFFFFFFFFFFFFFFFFFFFFFFFFFFFFFFA51868783BF2F966B7FCC0148F709A5D03BB5C9B8899C47AEBB6FB71E91386409

def curveB : Nat :=
  0x0051953EB9618E1C9A1F929A21A0B68540EEA2DA725B99B315F3B8B489918EF109E156193951EC7E937B1652C0BD3BB1BF073573DF883D2C34F1EF451FD46B503F00

/-- The base point. -/
def curveG : Option (Nat × Nat) :=
  some (0x00C6858E06B70404E9CD9E3ECB662395B4429C648139053FB521F828AF606B4D3DBAA14B5E77EFE75928FE1DC127A2FFA8DE3348B3C1856A429BF97E7E31C2E5BD66,
    0x011839296A789A3BC0045C8A5FB42C7D1BD998F54449579B446817AFBD17273E662C97EE72995EF42640C550B9013FAD0761353C7086A272C24088BE94769FD16650)

/-- A power modulo m, for an exponent of so many bits. -/
def modPow (m b : Nat) : Nat → Nat → Nat
  | 0, _ => 1
  | k + 1, e =>
    let h := modPow m b k (e / 2)
    if e % 2 = 1 then h * h % m * b % m else h * h % m

/-- The inverse modulo a prime below 2^521. -/
def modInv (m a : Nat) : Nat := modPow m (a % m) 521 (m - 2)

/-- The sum of two points; none is the point at infinity. -/
def pointAdd (a b : Option (Nat × Nat)) : Option (Nat × Nat) :=
  match a, b with
  | none, q => q
  | p, none => p
  | some (x1, y1), some (x2, y2) =>
    if x1 = x2 ∧ (y1 + y2) % curveP = 0 then none
    else
      let l := if x1 = x2 then (3 * x1 * x1 + curveP - 3) * modInv curveP (2 * y1) % curveP
        else (y2 + curveP - y1) * modInv curveP (x2 + curveP - x1) % curveP
      let x := (l * l + 2 * curveP - x1 - x2) % curveP
      some (x, (l * (x1 + curveP - x) + curveP - y1) % curveP)

/-- A multiple of a point, for a factor of so many bits. -/
def pointMul (p : Option (Nat × Nat)) : Nat → Nat → Option (Nat × Nat)
  | 0, _ => none
  | k + 1, e =>
    let h := pointMul p k (e / 2)
    if e % 2 = 1 then pointAdd (pointAdd h h) p else pointAdd h h

def onCurve (x y : Nat) : Bool :=
  decide (x < curveP) && decide (y < curveP) && (y * y % curveP == (x * x * x + (curveP - 3) * x + curveB) % curveP)

/-- A signature, r and s in 66 big-endian bytes each, over a digest verifies against a public key, x and y likewise (R337,
R351). -/
def verifies (digest : BitVec 512) (sig key : List Byte) : Bool :=
  let r := beVal (sig.take 66)
  let t := beVal ((sig.drop 66).take 66)
  let x := beVal (key.take 66)
  let y := beVal ((key.drop 66).take 66)
  if 1 ≤ r ∧ r < curveN ∧ 1 ≤ t ∧ t < curveN ∧ onCurve x y = true then
    let w := modInv curveN t
    match pointAdd (pointMul curveG 521 (digest.toNat * w % curveN)) (pointMul (some (x, y)) 521 (r * w % curveN)) with
    | some (z, _) => z % curveN == r
    | none => false
  else false

/-- The device's secret number, from 1 to the order less 1. -/
def deviceSecret : Nat := Config.deviceKey % (curveN - 1) + 1

/-- The public key that belongs to the device key. -/
def devicePublic : List Byte :=
  match pointMul curveG 521 deviceSecret with
  | some (x, y) => beBytes 66 x ++ beBytes 66 y
  | none => []

/-- The signature of 132 bytes that the device key makes over a digest (R345, R360); its nonce is the part's own. -/
def deviceSign (digest : BitVec 512) : List Byte :=
  let k := Config.signNonce digest % (curveN - 1) + 1
  let r := ((pointMul curveG 521 k).map fun p => p.1 % curveN).getD 0
  beBytes 66 r ++ beBytes 66 (modInv curveN k * (digest.toNat + r * deviceSecret) % curveN)

end Sys2Proof.Machine
end

