-- ==== Sys2Proof/WellFormed.lean ====
section
/-! DEFINITION. What a term of `Instr` must meet to be an instruction word at all: every raw field within the range
its row of R154 to R161 gives it, every operand code within R146. The encoder is exact on these terms, and the decoder
gives no other. -/

namespace Sys2Proof

/-- The operand names a code of R146. -/
def Opnd.wf : Opnd → Bool
  | .v n => decide (n < 1536)
  | .k n => decide (n < 64)
  | .s n => decide (n < 256)
  | .p n => decide (n < 24)
  | .ident n => decide (n < 8)
  | .reserved n => decide (1888 ≤ n) && decide (n < 2048)

/-- The guard is one of R141: a predicate `p0` to `p23`, or none and then not negated (R145). -/
def Guard.wf (g : Guard) : Bool :=
  match g.pred with
  | some n => decide (n < 24)
  | none => !g.neg

/-- A signed field of 22 bits (R143). -/
def immWf (x : Int) : Bool := decide (-2097152 ≤ x) && decide (x < 2097152)

/-- The signed byte offset of format M (R143). -/
def offWf (x : Int) : Bool := decide (-1024 ≤ x) && decide (x < 1024)

/-- A signed word count of 32 bits: an offset of `call` (R161). -/
def callWf (x : Int) : Bool := decide (-2147483648 ≤ x) && decide (x < 2147483648)

/-- Service class 0 to 3 (R156). -/
def Qual.wf (q : Qual) : Bool := decide (q.cls < 4)

/-- The frame of a class-3 command: slot 0 to 15, barrier 0 to 63 (R143). -/
def CmdFrame.wf (f : CmdFrame) : Bool :=
  (match f.ss with | some n => decide (n < 16) | none => true) &&
  (match f.bar with | some n => decide (n < 64) | none => true)

/-- Integer types of 64 bits. -/
def ITy.is64 : ITy → Bool
  | .n64 | .i64 => true
  | _ => false

/-- The lane movers take codes 4 and 6 only: n32 and n64 (R154, R155). -/
def ITy.isMove : ITy → Bool
  | .n32 | .n64 => true
  | _ => false

/-- The packs take codes 0 to 3 only (R154). -/
def ITy.isNarrow : ITy → Bool
  | .n8 | .i8 | .n16 | .i16 => true
  | _ => false

/-- A conversion between these types can round: it is neither integer to integer nor floating to wider floating
(R154). -/
def cvtRounds : Ty → Ty → Bool
  | .int _, .int _ => false
  | .flt .f64, .flt .f32 | .flt .f64, .flt .f16 | .flt .f64, .flt .bf16 => false
  | .flt .f32, .flt .f16 | .flt .f32, .flt .bf16 => false
  | _, _ => true

/-- A conversion of R154: the types differ, and a rounding code stands only where the conversion can round. -/
def cvtWf (td ts : Ty) (rm : Rm) : Bool := decide (td ≠ ts) && (cvtRounds td ts || decide (rm = .rne))

/-- An integer compare takes codes 0 to 5 only (R154). -/
def CC.isInt : CC → Bool
  | .uno | .ord => false
  | _ => true

/-- Kind f32 goes with add only (R157). -/
def atomWf (op : AOp) (k : AKind) : Bool := decide (k ≠ .f32) || decide (op = .add)

/-- A reduction has operations 0 to 5 (R157). -/
def redWf (op : AOp) (k : AKind) : Bool :=
  atomWf op k && (match op with | .xchg | .cas => false | _ => true)

/-- A plain load is relaxed with no scope, or an acquire (R156, R157). -/
def loadOrderWf (o : Order) (sc : Scope) : Bool :=
  match o with
  | .relaxed => decide (sc = .core)
  | .acq => true
  | _ => false

/-- A plain store is relaxed with no scope, or a release (R156, R157). -/
def storeOrderWf (o : Order) (sc : Scope) : Bool :=
  match o with
  | .relaxed => decide (sc = .core)
  | .rel => true
  | _ => false

/-- A reduction's order is none or release (R157). -/
def redOrderWf (o : Order) : Bool :=
  match o with
  | .relaxed | .rel => true
  | _ => false

/-- A positive multiple of 32 up to 1,536 (R155). -/
def allotWf (n : Nat) : Bool := decide (0 < n) && decide (n % 32 = 0) && decide (n ≤ 1536)

/-- Operands in one go. -/
def wf1 (g : Guard) (d : Opnd) : Bool := g.wf && d.wf
def wf2 (g : Guard) (d a : Opnd) : Bool := g.wf && d.wf && a.wf
def wf3 (g : Guard) (d a b : Opnd) : Bool := g.wf && d.wf && a.wf && b.wf
def wf4 (g : Guard) (d a b c : Opnd) : Bool := g.wf && d.wf && a.wf && b.wf && c.wf

/-- The term is a word of the architecture. A step that no word starts is no word. -/
def Instr.wf : Instr → Bool
  | .vaddF g _ _ d a b | .vsubF g _ _ d a b | .vmulF g _ _ d a b => wf3 g d a b
  | .vfmaF g _ _ d a b c | .vaddminF g _ _ d a b c | .vmaxaddF g _ _ d a b c => wf4 g d a b c
  | .vminF g _ d a b | .vmaxF g _ d a b | .vcmpF g _ _ d a b => wf3 g d a b
  | .vrndi g _ _ d a => wf2 g d a
  | .vldexp g _ _ d a b => wf3 g d a b
  | .vgetexp g _ d a | .vnegF g _ d a | .vabsF g _ d a => wf2 g d a
  | .vrcp g _ d a | .vrsqrt g _ d a | .vfexp2 g _ d a | .vlog2 g _ d a => wf2 g d a
  | .vcvt g td ts rm d a => wf2 g d a && cvtWf td ts rm
  | .vdp4F16 g _ d a b c | .vdp4Bf16 g _ d a b c => wf4 g d a b c
  | .vdp4I8 g d a b c | .vcbxCb3 g d a b c | .vcbxCb4 g d a b c => wf4 g d a b c
  | .vaddT g _ d a b | .vsubT g _ d a b | .vmulT g _ d a b | .vmulhi g _ d a b => wf3 g d a b
  | .vmad g _ d a b c => wf4 g d a b c
  | .vminT g _ d a b | .vmaxT g _ d a b => wf3 g d a b
  | .vabsT g _ d a | .vnegT g _ d a => wf2 g d a
  | .vaddminT g _ d a b c | .vmaxaddT g _ d a b c => wf4 g d a b c
  | .vcmpT g _ cc d a b => wf3 g d a b && cc.isInt
  | .vand g _ d a b | .vor g _ d a b | .vxor g _ d a b => wf3 g d a b
  | .vnot g _ d a => wf2 g d a
  | .vshl g _ d a b | .vshr g _ d a b => wf3 g d a b
  | .vpopc g _ d a | .vclz g _ d a => wf2 g d a
  | .vbfe g _ d a b c | .vbfi g _ d a b c | .vsel g _ d a b c => wf4 g d a b c
  | .vmov g _ d a => wf2 g d a
  | .vshup g t d a b c | .vshdn g t d a b c => wf4 g d a b c && t.isMove
  | .vperm g t d a b | .vbcast g t d a b => wf3 g d a b && t.isMove
  | .vredaddF g _ _ d a | .vscanIncF g _ _ d a | .vscanExcF g _ _ d a => wf2 g d a
  | .vredaddT g _ d a | .vscanIncT g _ d a | .vscanExcT g _ d a => wf2 g d a
  | .vpack g t d a b c | .vunpack g t d a b c => wf4 g d a b c && t.isNarrow
  | .saddF g _ _ d a b | .ssubF g _ _ d a b | .smulF g _ _ d a b => wf3 g d a b
  | .sfma g _ _ d a b c => wf4 g d a b c
  | .sminF g _ d a b | .smaxF g _ d a b | .scmpF g _ _ d a b => wf3 g d a b
  | .scvt g td ts rm d a => wf2 g d a && cvtWf td ts rm
  | .saddT g _ d a b | .ssubT g _ d a b | .smulT g _ d a b | .smulhi g _ d a b => wf3 g d a b
  | .smad g _ d a b c => wf4 g d a b c
  | .sminT g _ d a b | .smaxT g _ d a b => wf3 g d a b
  | .sabs g _ d a | .sneg g _ d a => wf2 g d a
  | .scmpT g _ cc d a b => wf3 g d a b && cc.isInt
  | .sand g _ d a b | .sor g _ d a b | .sxor g _ d a b => wf3 g d a b
  | .snot g _ d a => wf2 g d a
  | .sshl g _ d a b | .sshr g _ d a b => wf3 g d a b
  | .spopc g _ d a | .sclz g _ d a => wf2 g d a
  | .sbfe g _ d a b c | .sbfi g _ d a b c | .ssel g _ d a b c => wf4 g d a b c
  | .smov g _ d a => wf2 g d a
  | .lget g t d a b | .lput g t d a b => wf3 g d a b && t.isMove
  | .srd g reg d => wf1 g d && decide (reg < 4096)
  | .swr g reg a => wf1 g a && decide (reg < 4096)
  | .bra g off => g.wf && immWf off
  | .braAny g a off | .braAll g a off | .braNone g a off | .braZ g a off | .braNz g a off => wf1 g a && immWf off
  | .jmp g a => wf1 g a
  | .brx g a off => wf1 g a && immWf off
  | .callDirect g n target cont => g.wf && decide (n ≤ 256) && callWf target && callWf cont
  | .callRegister g n a cont => wf1 g a && decide (n ≤ 256) && callWf cont
  | .ret g | .exit g | .yield g | .nop g => g.wf
  | .park g line bar tmo a b c =>
      wf2 g a c && decide (b < 64) && (line || bar || tmo) && (line || decide (a = .v 0)) &&
      (bar || decide (b = 0)) && (tmo || decide (c = .v 0))
  | .grow g n | .shrink g n => g.wf && allotWf n
  | .taskPush g prio a => wf1 g a && decide (prio < 4)
  | .sli g d _ | .sli64 g d _ | .vli g d _ => wf1 g d
  | .ld g _ o sc d a q off => wf2 g d a && loadOrderWf o sc && q.wf && offWf off
  | .st g _ o sc d a q off => wf2 g d a && storeOrderWf o sc && q.wf && offWf off
  | .gath g _ d a b off | .scat g _ d a b off => wf3 g d a b && offWf off
  | .ldb g _ _ d a off | .stb g _ _ d a off => wf2 g d a && offWf off
  | .atom g op k _ _ d a b => wf3 g d a b && atomWf op k
  | .red g op k o _ a b => wf2 g a b && redWf op k && redOrderWf o
  | .redRet g op k o _ d a b => wf3 g d a b && redWf op k && redOrderWf o
  | .fence g o _ => g.wf && decide (o ≠ .relaxed)
  | .pref g a q off => wf1 g a && q.wf && offWf off
  | .ipref g a off => wf1 g a && offWf off
  | .copyAbuf g q d a b c | .copyWbuf g q d a b c | .copyOut g _ q d a b c | .copyMc g q d a b c
  | .copyQ g q d a b c => wf4 g d a b c && q.wf
  | .toolXpose g _ d a b c | .toolCvt g _ d a b c | .toolQuant g _ d a b c | .toolZero g _ d a b c
  | .toolRsum g _ d a b c => wf4 g d a b c
  | .chaseLink g d a b c | .chaseIndex g d a b c | .chaseSample g d a b c => wf4 g d a b c
  | .l1cfg g n => g.wf && decide (n ≤ 12)
  | .l1cfgQ g d => wf1 g d
  | .waitc g nld nst ntl => g.wf && decide (nld < 64) && decide (nst < 64) && decide (ntl < 16)
  | .cinvD g | .cinvI g => g.wf
  | .cflush g a b => wf2 g a b
  | .tbind g th d => wf1 g d && decide (th < 32)
  | .ldst g arr f d | .mstream g arr f d => wf1 g d && decide (arr < 4) && f.wf
  | .cbtload g tbl f d => wf1 g d && decide (tbl < 16) && f.wf
  | .mswap g arr f => g.wf && decide (arr < 4) && f.wf
  | .mop g f d | .mzero g f d | .chainCfg g f d | .chainStep g f d | .chainRun g f d => wf1 g d && f.wf
  | .bdSet g n d | .bdGet g n d => wf1 g d && decide (n < 16)
  | .dsrd g d => wf1 g d
  | .setNew g d => wf1 g d
  | .setFree g a => wf1 g a
  | .setIns g wr d a b | .setDel g wr d a b => wf3 g d a b && (wr || decide (d = .v 0))
  | .setHas g d a b => wf3 g d a b
  | .setCard g d a => wf2 g d a
  | .setOr g a b c | .setAnd g a b c | .setSub g a b c | .setIn g a b c => wf3 g a b c
  | .setOut g d a b c => wf4 g d a b c
  | .setIter g d a c => wf3 g d a c
  | .setHint g _ a => wf1 g a
  | .setHintNone g a => wf1 g a
  | .setCost g n d => wf1 g d && decide (n < 6)
  | .barInit g hb a => wf1 g a && decide (hb < 64)
  | .barArrive g hb | .barWait g hb => g.wf && decide (hb < 64)
  | .barStatus g hb d => wf1 g d && decide (hb < 64)
  | .qstate g | .tret g | .rngClose g => g.wf
  | .gstart g d | .tmrd g d => wf1 g d
  | .gwait g a => wf1 g a
  | .fdefer g a b c => wf3 g a b c
  | .trap g _ | .rngOpen g _ => g.wf
  | .capq g d a => wf2 g d a
  | .unassignedWord _ _ => true
  -- the steps that no word starts
  | .storeDrain .. | .storePerform .. | .storeAcknowledge .. | .releaseProceed .. | .atomicPerform ..
  | .loadReturn .. | .bufferAccessPerform .. | .pageWalk .. | .l1Fill .. | .l2Fill .. | .icacheFill ..
  | .cxlOwnership .. | .hbmRequestService .. | .deadlineMiss .. | .engineLineRelease .. | .chaseHop ..
  | .l1Conversion .. | .copyEngineStart .. | .copyChunk .. | .toolChunk .. | .commandStart ..
  | .chainStepExecute .. | .commandEnd .. | .setEngineOperation .. | .setFreeReturn .. | .quiescentPoint ..
  | .gstartTarget .. | .trackerReport .. | .cinchPush .. | .gracestall .. | .barrierArrival .. | .flipBroadcast ..
  | .parkWake .. | .parkWatchDrop .. | .parkTimeout .. | .timer .. | .userTrapEntry .. | .warpSwap ..
  | .growGrant .. | .waitcRelease .. | .taskStart .. | .continuationResume .. | .taskPushAppend ..
  | .launchCheck .. | .waitWordRead .. | .admissionTake .. | .reservationReply .. | .backoffExpiry ..
  | .completionWordWrite .. | .queueWindowWrite .. | .preemptRequest .. | .yieldDeadline .. | .forcedSaveLimit ..
  | .gangSave .. | .saveSpill .. | .contextResume .. | .gangRestore .. | .contextReset .. | .contextEnable ..
  | .contextDisable .. | .contextResetComplete .. | .retry .. | .skip .. | .resumeReset .. | .faultRecord ..
  | .tlbInv .. | .tlbInvComplete .. | .loadStart .. | .loadComplete .. | .fuseCmd .. | .fuseBlowDone
  | .attestationStart | .attestationReport | .sliCfgWrite .. | .sliRatioDone .. | .powerLimiterStep ..
  | .registerWrite .. | .hostMemAccess .. | .peerAccess .. | .linkDeliveryFailure .. | .softError ..
  | .moduleTraining .. | .deviceReset .. | .cxlCacheOwnershipLoss .. | .linkPortServiceChange ..
  | .powerStateChange .. => false

end Sys2Proof
end

