-- ==== Sys2Proof/Decode.lean ====
section
/-! DEFINITION. The decoder and the encoder of instruction words, both written from R140 to R161: a word is cut into
the fields of R141 and R143, the row that the class and the opcode select reads them, and a word that no row allows is
`UNASSIGNED_WORD` (R153). -/

namespace Sys2Proof

/-- A word 0 cut into the fields of the common header (R141) and of format A (R143). The other formats read these
fields joined: imm22 is b and c, the wait mask is a and the top of b. -/
structure Fields where
  cls : Nat
  op : Nat
  mod : Nat
  pred : Nat
  pn : Nat
  d : Nat
  a : Nat
  b : Nat
  c : Nat
  deriving DecidableEq, Repr

/-- The fields of a word 0 (R141, R143). -/
def Fields.ofNat (w : Nat) : Fields :=
  { cls := w / 2305843009213693952 % 8
    op := w / 18014398509481984 % 128
    mod := w / 1125899906842624 % 16
    pred := w / 35184372088832 % 32
    pn := w / 17592186044416 % 2
    d := w / 8589934592 % 2048
    a := w / 4194304 % 2048
    b := w / 2048 % 2048
    c := w % 2048 }

/-- The word 0 of these fields. -/
def Fields.toNat (f : Fields) : Nat :=
  f.cls * 2305843009213693952 + f.op * 18014398509481984 + f.mod * 1125899906842624 + f.pred * 35184372088832 +
  f.pn * 17592186044416 + f.d * 8589934592 + f.a * 4194304 + f.b * 2048 + f.c

/-! ## Codes -/

/-- An operand code (R146). -/
def Opnd.ofCode (n : Nat) : Opnd :=
  if n < 1536 then .v n else if n < 1600 then .k (n - 1536) else if n < 1856 then .s (n - 1600)
  else if n < 1880 then .p (n - 1856) else if n < 1888 then .ident (n - 1880) else .reserved n

def Opnd.code : Opnd → Nat
  | .v n => n
  | .k n => 1536 + n
  | .s n => 1600 + n
  | .p n => 1856 + n
  | .ident n => 1880 + n
  | .reserved n => n

/-- op[1:0] of a floating row (R151). -/
def FTy.ofOp : Nat → FTy
  | 0 => .f32
  | 1 => .f16
  | 2 => .bf16
  | _ => .f64

def FTy.op : FTy → Nat
  | .f32 => 0
  | .f16 => 1
  | .bf16 => 2
  | .f64 => 3

/-- An integer type code (R151). -/
def ITy.ofCode : Nat → Option ITy
  | 0 => some .n8
  | 1 => some .i8
  | 2 => some .n16
  | 3 => some .i16
  | 4 => some .n32
  | 5 => some .i32
  | 6 => some .n64
  | 7 => some .i64
  | _ => none

def ITy.code : ITy → Nat
  | .n8 => 0
  | .i8 => 1
  | .n16 => 2
  | .i16 => 3
  | .n32 => 4
  | .i32 => 5
  | .n64 => 6
  | .i64 => 7

/-- A type code 0 to 11 (R151). -/
def Ty.ofCode : Nat → Option Ty
  | 8 => some (.flt .f16)
  | 9 => some (.flt .bf16)
  | 10 => some (.flt .f32)
  | 11 => some (.flt .f64)
  | n => (ITy.ofCode n).map .int

def Ty.code : Ty → Nat
  | .int t => t.code
  | .flt .f16 => 8
  | .flt .bf16 => 9
  | .flt .f32 => 10
  | .flt .f64 => 11

/-- A rounding code (R70). -/
def Rm.ofCode : Nat → Option Rm
  | 0 => some .rne
  | 1 => some .rtz
  | 2 => some .rdn
  | 3 => some .rup
  | 4 => some .dyn
  | _ => none

def Rm.code : Rm → Nat
  | .rne => 0
  | .rtz => 1
  | .rdn => 2
  | .rup => 3
  | .dyn => 4

/-- A condition code (R151). -/
def CC.ofCode : Nat → Option CC
  | 0 => some .eq
  | 1 => some .ne
  | 2 => some .lt
  | 3 => some .le
  | 4 => some .gt
  | 5 => some .ge
  | 6 => some .uno
  | 7 => some .ord
  | _ => none

def CC.code : CC → Nat
  | .eq => 0
  | .ne => 1
  | .lt => 2
  | .le => 3
  | .gt => 4
  | .ge => 5
  | .uno => 6
  | .ord => 7

/-- mod[1:0] of an order field (R151). -/
def Scope.ofCode : Nat → Scope
  | 0 => .core
  | 1 => .die
  | 2 => .device
  | _ => .system

def Scope.code : Scope → Nat
  | .core => 0
  | .die => 1
  | .device => 2
  | .system => 3

/-- mod[3:2] of an order field (R151). -/
def Order.ofCode : Nat → Order
  | 0 => .relaxed
  | 1 => .acq
  | 2 => .rel
  | _ => .ar

def Order.code : Order → Nat
  | .relaxed => 0
  | .acq => 1
  | .rel => 2
  | .ar => 3

/-- An atomic operation code (R151). -/
def AOp.ofCode : Nat → Option AOp
  | 0 => some .add
  | 1 => some .min
  | 2 => some .max
  | 3 => some .and
  | 4 => some .or
  | 5 => some .xor
  | 6 => some .xchg
  | 7 => some .cas
  | _ => none

def AOp.code : AOp → Nat
  | .add => 0
  | .min => 1
  | .max => 2
  | .and => 3
  | .or => 4
  | .xor => 5
  | .xchg => 6
  | .cas => 7

/-- An atomic kind (R151). -/
def AKind.ofCode : Nat → Option AKind
  | 0 => some .n32
  | 1 => some .i32
  | 2 => some .n64
  | 3 => some .i64
  | 4 => some .f32
  | _ => none

def AKind.code : AKind → Nat
  | .n32 => 0
  | .i32 => 1
  | .n64 => 2
  | .i64 => 3
  | .f32 => 4

/-- op less the row's first op: the element kind of a load (R157). -/
def LdKind.ofCode : Nat → LdKind
  | 0 => .n8
  | 1 => .i8
  | 2 => .n16
  | 3 => .i16
  | 4 => .w32
  | _ => .w64

def LdKind.code : LdKind → Nat
  | .n8 => 0
  | .i8 => 1
  | .n16 => 2
  | .i16 => 3
  | .w32 => 4
  | .w64 => 5

def StWidth.ofCode : Nat → StWidth
  | 0 => .w8
  | 1 => .w16
  | 2 => .w32
  | _ => .w64

def StWidth.code : StWidth → Nat
  | .w8 => 0
  | .w16 => 1
  | .w32 => 2
  | .w64 => 3

/-- mod of a buffer form (R156). -/
def Buf.ofCode : Nat → Option Buf
  | 0 => some .abuf
  | 1 => some .wbuf
  | 2 => some .cbuf
  | _ => none

def Buf.code : Buf → Nat
  | .abuf => 0
  | .wbuf => 1
  | .cbuf => 2

/-- mod of `set.hint` 0 to 3 (R159). -/
def Rep.ofCode : Nat → Option Rep
  | 0 => some .sorted
  | 1 => some .bitmap
  | 2 => some .runs
  | 3 => some .hash
  | _ => none

def Rep.code : Rep → Nat
  | .sorted => 0
  | .bitmap => 1
  | .runs => 2
  | .hash => 3

/-- The guard of the header, or none where R145 and R141 give ILL. -/
def Guard.ofCode (pred pn : Nat) : Option Guard :=
  if pred < 24 then some ⟨some pred, pn == 1⟩
  else if pred == 31 && pn == 0 then some ⟨none, false⟩ else none

def Guard.predCode (g : Guard) : Nat := g.pred.getD 31
def Guard.pnCode (g : Guard) : Nat := if g.neg then 1 else 0

/-- A signed value of a field that counts to 2h. -/
def signedOf (h n : Nat) : Int := if n < h then (n : Int) else (n : Int) - (2 * h : Nat)

def signedCode (h : Nat) (x : Int) : Nat := (x % ((2 * h : Nat) : Int)).toNat

/-- imm22 of format I (R143): b and c joined. -/
def imm22 (b c : Nat) : Nat := b * 2048 + c

/-- The qualifier field b of `ld`, `st` and `pref` (R156). -/
def Qual.ofCode (b : Nat) : Option Qual := if b < 8 then some ⟨b % 4, b / 4 == 1⟩ else none
def Qual.code (q : Qual) : Nat := q.cls + (if q.lu then 4 else 0)

/-- The frame of format E (R143), from mod[3], a, b and c: wm is a and b[10:6], ss is b[5:1], x is b[0] and c. -/
def CmdFrame.ofCode (m3 a b c : Nat) : Option CmdFrame :=
  let wm := BitVec.ofNat 16 (a * 32 + b / 64)
  let ss := b / 2 % 32
  let hb := b % 2 * 32 + c / 64
  if ss < 16 then
    if m3 = 1 then some ⟨wm, some ss, some hb⟩ else if hb = 0 then some ⟨wm, some ss, none⟩ else none
  else if ss = 31 then
    if m3 = 1 then some ⟨wm, none, some hb⟩ else if hb = 0 then some ⟨wm, none, none⟩ else none
  else none

def CmdFrame.ssCode (f : CmdFrame) : Nat := f.ss.getD 31
def CmdFrame.barCode (f : CmdFrame) : Nat := f.bar.getD 0
def CmdFrame.m3 (f : CmdFrame) : Nat := if f.bar.isSome then 1 else 0

/-- The instruction, where the row's rule on its raw fields holds. -/
def need (ok : Bool) (i : Instr) : Option Instr := if ok then some i else none

/-! ## The rows -/

/-- The rows of class 0 in groups of four opcodes, one floating type each (R154). -/
def decodeV4 (g : Guard) (f : FTy) (grp m d a b c : Nat) : Option Instr :=
  let D := Opnd.ofCode d; let A := Opnd.ofCode a; let B := Opnd.ofCode b; let C := Opnd.ofCode c
  match grp with
  | 0 => (Rm.ofCode m).bind fun r => need (c == 0) (.vaddF g f r D A B)
  | 1 => (Rm.ofCode m).bind fun r => need (c == 0) (.vsubF g f r D A B)
  | 2 => (Rm.ofCode m).bind fun r => need (c == 0) (.vmulF g f r D A B)
  | 3 => (Rm.ofCode m).bind fun r => some (.vfmaF g f r D A B C)
  | 4 => need (m == 0 && c == 0) (.vminF g f D A B)
  | 5 => need (m == 0 && c == 0) (.vmaxF g f D A B)
  | 6 => (Rm.ofCode m).bind fun r => some (.vaddminF g f r D A B C)
  | 7 => (Rm.ofCode m).bind fun r => some (.vmaxaddF g f r D A B C)
  | 8 => (CC.ofCode c).bind fun cc => need (m == 0) (.vcmpF g f cc D A B)
  | 9 => (Rm.ofCode m).bind fun r => need (b == 0 && c == 0) (.vrndi g f r D A)
  | 10 => (Rm.ofCode m).bind fun r => need (c == 0) (.vldexp g f r D A B)
  | 11 => need (m == 0 && b == 0 && c == 0) (.vgetexp g f D A)
  | 12 => need (m == 0 && b == 0 && c == 0) (.vnegF g f D A)
  | 13 => need (m == 0 && b == 0 && c == 0) (.vabsF g f D A)
  | 25 => (Rm.ofCode m).bind fun r => need (b == 0 && c == 0) (.vredaddF g f r D A)
  | 26 => (Rm.ofCode m).bind fun r => need (b == 0 && c == 0) (.vscanIncF g f r D A)
  | 27 => (Rm.ofCode m).bind fun r => need (b == 0 && c == 0) (.vscanExcF g f r D A)
  | _ => none

/-- c of a conversion: the source type and the rounding code (R154). -/
def cvtC (ts : Ty) (rm : Rm) : Nat := ts.code + 16 * rm.code

/-- A conversion: the types, the rounding code and the rules of R154 on them. -/
def decodeCvt (m b c : Nat) (k : Ty → Ty → Rm → Instr) : Option Instr :=
  (Ty.ofCode m).bind fun td => (Ty.ofCode (c % 16)).bind fun ts => (Rm.ofCode (c / 16)).bind fun rm =>
    need (b == 0 && cvtWf td ts rm) (k td ts rm)

/-- The integer rows of class 0 (R154). -/
def decodeVI (g : Guard) (t : ITy) (op d a b c : Nat) : Option Instr :=
  let D := Opnd.ofCode d; let A := Opnd.ofCode a; let B := Opnd.ofCode b; let C := Opnd.ofCode c
  match op with
  | 0x48 => need (c == 0) (.vaddT g t D A B)
  | 0x49 => need (c == 0) (.vsubT g t D A B)
  | 0x4A => need (c == 0) (.vmulT g t D A B)
  | 0x4B => need (c == 0) (.vmulhi g t D A B)
  | 0x4C => some (.vmad g t D A B C)
  | 0x4D => need (c == 0) (.vminT g t D A B)
  | 0x4E => need (c == 0) (.vmaxT g t D A B)
  | 0x4F => need (b == 0 && c == 0) (.vabsT g t D A)
  | 0x50 => need (b == 0 && c == 0) (.vnegT g t D A)
  | 0x51 => some (.vaddminT g t D A B C)
  | 0x52 => some (.vmaxaddT g t D A B C)
  | 0x53 => (CC.ofCode c).bind fun cc => need cc.isInt (.vcmpT g t cc D A B)
  | 0x54 => need (c == 0) (.vand g t D A B)
  | 0x55 => need (c == 0) (.vor g t D A B)
  | 0x56 => need (c == 0) (.vxor g t D A B)
  | 0x57 => need (b == 0 && c == 0) (.vnot g t D A)
  | 0x58 => need (c == 0) (.vshl g t D A B)
  | 0x59 => need (c == 0) (.vshr g t D A B)
  | 0x5A => need (b == 0 && c == 0) (.vpopc g t D A)
  | 0x5B => need (b == 0 && c == 0) (.vclz g t D A)
  | 0x5C => some (.vbfe g t D A B C)
  | 0x5D => some (.vbfi g t D A B C)
  | 0x5E => some (.vsel g t D A B C)
  | 0x5F => need (b == 0 && c == 0) (.vmov g t D A)
  | 0x60 => need t.isMove (.vshup g t D A B C)
  | 0x61 => need t.isMove (.vshdn g t D A B C)
  | 0x62 => need (t.isMove && c == 0) (.vperm g t D A B)
  | 0x63 => need (t.isMove && c == 0) (.vbcast g t D A B)
  | 0x70 => need (b == 0 && c == 0) (.vredaddT g t D A)
  | 0x71 => need (b == 0 && c == 0) (.vscanIncT g t D A)
  | 0x72 => need (b == 0 && c == 0) (.vscanExcT g t D A)
  | 0x74 => need t.isNarrow (.vpack g t D A B C)
  | 0x75 => need t.isNarrow (.vunpack g t D A B C)
  | _ => none

/-- Class 0 (R154). -/
def decodeC0 (g : Guard) (op m d a b c : Nat) : Option Instr :=
  let D := Opnd.ofCode d; let A := Opnd.ofCode a; let B := Opnd.ofCode b; let C := Opnd.ofCode c
  if op < 0x38 || (0x64 ≤ op && op < 0x70) then decodeV4 g (FTy.ofOp (op % 4)) (op / 4) m d a b c
  else match op with
  | 0x38 => (Rm.ofCode m).bind fun r => need (b == 0 && c == 0) (.vrcp g r D A)
  | 0x39 => (Rm.ofCode m).bind fun r => need (b == 0 && c == 0) (.vrsqrt g r D A)
  | 0x3A => (Rm.ofCode m).bind fun r => need (b == 0 && c == 0) (.vfexp2 g r D A)
  | 0x3B => (Rm.ofCode m).bind fun r => need (b == 0 && c == 0) (.vlog2 g r D A)
  | 0x3C => decodeCvt m b c fun td ts rm => .vcvt g td ts rm D A
  | 0x3D => (Rm.ofCode m).bind fun r => some (.vdp4F16 g r D A B C)
  | 0x3E => (Rm.ofCode m).bind fun r => some (.vdp4Bf16 g r D A B C)
  | 0x3F => need (m == 0) (.vdp4I8 g D A B C)
  | 0x40 => need (m == 0) (.vcbxCb3 g D A B C)
  | 0x41 => need (m == 0) (.vcbxCb4 g D A B C)
  | _ => (ITy.ofCode m).bind fun t => decodeVI g t op d a b c

/-- The floating rows of class 1 in groups of four opcodes (R155). -/
def decodeS4 (g : Guard) (f : FTy) (grp m d a b c : Nat) : Option Instr :=
  let D := Opnd.ofCode d; let A := Opnd.ofCode a; let B := Opnd.ofCode b; let C := Opnd.ofCode c
  match grp with
  | 0 => (Rm.ofCode m).bind fun r => need (c == 0) (.saddF g f r D A B)
  | 1 => (Rm.ofCode m).bind fun r => need (c == 0) (.ssubF g f r D A B)
  | 2 => (Rm.ofCode m).bind fun r => need (c == 0) (.smulF g f r D A B)
  | 3 => (Rm.ofCode m).bind fun r => some (.sfma g f r D A B C)
  | 4 => need (m == 0 && c == 0) (.sminF g f D A B)
  | 5 => need (m == 0 && c == 0) (.smaxF g f D A B)
  | 6 => (CC.ofCode c).bind fun cc => need (m == 0) (.scmpF g f cc D A B)
  | _ => none

/-- The integer rows of class 1 (R155). -/
def decodeSI (g : Guard) (t : ITy) (op d a b c : Nat) : Option Instr :=
  let D := Opnd.ofCode d; let A := Opnd.ofCode a; let B := Opnd.ofCode b; let C := Opnd.ofCode c
  match op with
  | 0x20 => need (c == 0) (.saddT g t D A B)
  | 0x21 => need (c == 0) (.ssubT g t D A B)
  | 0x22 => need (c == 0) (.smulT g t D A B)
  | 0x23 => need (c == 0) (.smulhi g t D A B)
  | 0x24 => some (.smad g t D A B C)
  | 0x25 => need (c == 0) (.sminT g t D A B)
  | 0x26 => need (c == 0) (.smaxT g t D A B)
  | 0x27 => need (b == 0 && c == 0) (.sabs g t D A)
  | 0x28 => need (b == 0 && c == 0) (.sneg g t D A)
  | 0x29 => (CC.ofCode c).bind fun cc => need cc.isInt (.scmpT g t cc D A B)
  | 0x2A => need (c == 0) (.sand g t D A B)
  | 0x2B => need (c == 0) (.sor g t D A B)
  | 0x2C => need (c == 0) (.sxor g t D A B)
  | 0x2D => need (b == 0 && c == 0) (.snot g t D A)
  | 0x2E => need (c == 0) (.sshl g t D A B)
  | 0x2F => need (c == 0) (.sshr g t D A B)
  | 0x30 => need (b == 0 && c == 0) (.spopc g t D A)
  | 0x31 => need (b == 0 && c == 0) (.sclz g t D A)
  | 0x32 => some (.sbfe g t D A B C)
  | 0x33 => some (.sbfi g t D A B C)
  | 0x34 => some (.ssel g t D A B C)
  | 0x35 => need (b == 0 && c == 0) (.smov g t D A)
  | 0x36 => need (t.isMove && c == 0) (.lget g t D A B)
  | 0x37 => need (t.isMove && c == 0) (.lput g t D A B)
  | _ => none

/-- The control rows of class 1 (R155). -/
def decodeCtl (g : Guard) (op m d a b c : Nat) : Option Instr :=
  let A := Opnd.ofCode a; let C := Opnd.ofCode c
  let n := imm22 b c
  let off := signedOf 2097152 n
  match op with
  | 0x38 => need (m == 0 && a == 0 && n < 4096) (.srd g n (Opnd.ofCode d))
  | 0x39 => need (m == 0 && d == 0 && n < 4096) (.swr g n A)
  | 0x40 => need (m == 0 && d == 0 && a == 0) (.bra g off)
  | 0x41 => need (m == 0 && d == 0) (.braAny g A off)
  | 0x42 => need (m == 0 && d == 0) (.braAll g A off)
  | 0x43 => need (m == 0 && d == 0) (.braNone g A off)
  | 0x44 => need (m == 0 && d == 0) (.braZ g A off)
  | 0x45 => need (m == 0 && d == 0) (.braNz g A off)
  | 0x46 => need (m == 0 && d == 0 && b == 0 && c == 0) (.jmp g A)
  | 0x47 => need (m == 0 && d == 0) (.brx g A off)
  | 0x48 => need (m == 0 && d == 0 && a == 0 && b == 0 && c == 0) (.ret g)
  | 0x49 => need (m == 0 && d == 0 && a == 0 && b == 0 && c == 0) (.exit g)
  | 0x4A => need (m != 0 && m < 8 && d == 0 && b < 64 && (m % 2 == 1 || a == 0) && (m / 2 % 2 == 1 || b == 0) &&
                  (m / 4 == 1 || c == 0))
              (.park g (m % 2 == 1) (m / 2 % 2 == 1) (m / 4 == 1) A b C)
  | 0x4B => need (m == 0 && d == 0 && a == 0 && b == 0 && c == 0) (.yield g)
  | 0x4C => need (m == 0 && d == 0 && a == 0 && allotWf n) (.grow g n)
  | 0x4D => need (m == 0 && d == 0 && a == 0 && allotWf n) (.shrink g n)
  | 0x4E => need (m < 4 && d == 0 && b == 0 && c == 0) (.taskPush g m A)
  | 0x4F => need (m == 0 && d == 0 && a == 0 && b == 0 && c == 0) (.nop g)
  | _ => none

/-- Class 1 (R155). -/
def decodeC1 (g : Guard) (op m d a b c : Nat) : Option Instr :=
  if op < 0x1C then decodeS4 g (FTy.ofOp (op % 4)) (op / 4) m d a b c
  else if op = 0x1C then decodeCvt m b c fun td ts rm => .scvt g td ts rm (Opnd.ofCode d) (Opnd.ofCode a)
  else if op < 0x38 then (ITy.ofCode m).bind fun t => decodeSI g t op d a b c
  else decodeCtl g op m d a b c

/-- c of an atomic: operation and kind (R156). -/
def atomC (op : AOp) (k : AKind) : Nat := op.code * 8 + k.code

/-- mod of an order field (R151). -/
def orderM (o : Order) (sc : Scope) : Nat := o.code * 4 + sc.code

def decodeAtom (c : Nat) (ok : AOp → AKind → Bool) (k : AOp → AKind → Instr) : Option Instr :=
  (AOp.ofCode (c / 8)).bind fun o => (AKind.ofCode (c % 8)).bind fun kd => need (ok o kd) (k o kd)

/-- mod of a copy (R156). -/
def copyQual (m : Nat) : Qual := ⟨m % 4, m / 4 % 2 == 1⟩

/-- Loads, stores, gathers and scatters of class 2 (R157). -/
def decodeMem (g : Guard) (op m d a b c : Nat) : Option Instr :=
  let D := Opnd.ofCode d; let A := Opnd.ofCode a; let B := Opnd.ofCode b
  let o := Order.ofCode (m / 4); let sc := Scope.ofCode (m % 4)
  let off := signedOf 1024 c
  if op < 0x06 then (Qual.ofCode b).bind fun q => need (loadOrderWf o sc) (.ld g (LdKind.ofCode op) o sc D A q off)
  else if op < 0x08 then none
  else if op < 0x0C then
    (Qual.ofCode b).bind fun q => need (storeOrderWf o sc) (.st g (StWidth.ofCode (op - 0x08)) o sc D A q off)
  else if op < 0x10 then none
  else if op < 0x16 then
    (Buf.ofCode m).bind fun bf => need (b == 0) (.ldb g (LdKind.ofCode (op - 0x10)) bf D A off)
  else if op < 0x18 then none
  else if op < 0x1C then
    (Buf.ofCode m).bind fun bf => need (b == 0) (.stb g (StWidth.ofCode (op - 0x18)) bf D A off)
  else if op < 0x20 then none
  else if op < 0x26 then need (m == 0) (.gath g (LdKind.ofCode (op - 0x20)) D A B off)
  else if op < 0x28 then none
  else if op < 0x2C then need (m == 0) (.scat g (StWidth.ofCode (op - 0x28)) D A B off)
  else none

/-- The other rows of class 2 (R157). -/
def decodeC2 (g : Guard) (op m d a b c : Nat) : Option Instr :=
  let D := Opnd.ofCode d; let A := Opnd.ofCode a; let B := Opnd.ofCode b; let C := Opnd.ofCode c
  let o := Order.ofCode (m / 4); let sc := Scope.ofCode (m % 4)
  let n := imm22 b c
  if op < 0x30 then decodeMem g op m d a b c
  else match op with
  | 0x30 => decodeAtom c atomWf fun x k => .atom g x k o sc D A B
  | 0x31 => decodeAtom c (fun x k => redWf x k && redOrderWf o && d == 0) fun x k => .red g x k o sc A B
  | 0x32 => decodeAtom c (fun x k => redWf x k && redOrderWf o) fun x k => .redRet g x k o sc D A B
  | 0x34 => need (o != .relaxed && d == 0 && a == 0 && b == 0 && c == 0) (.fence g o sc)
  | 0x36 => (Qual.ofCode b).bind fun q => need (m == 0 && d == 0) (.pref g A q (signedOf 1024 c))
  | 0x37 => need (m == 0 && d == 0 && b == 0) (.ipref g A (signedOf 1024 c))
  | 0x38 => need (m < 8) (.copyAbuf g (copyQual m) D A B C)
  | 0x39 => need (m < 8) (.copyWbuf g (copyQual m) D A B C)
  | 0x3A => some (.copyOut g (m / 8 == 1) (copyQual m) D A B C)
  | 0x3B => need (m < 8) (.copyMc g (copyQual m) D A B C)
  | 0x3C => need (m < 8) (.copyQ g (copyQual m) D A B C)
  | 0x40 => (Buf.ofCode m).bind fun bf => some (.toolXpose g bf D A B C)
  | 0x41 => (Buf.ofCode m).bind fun bf => some (.toolCvt g bf D A B C)
  | 0x42 => (Buf.ofCode m).bind fun bf => some (.toolQuant g bf D A B C)
  | 0x43 => (Buf.ofCode m).bind fun bf => some (.toolZero g bf D A B C)
  | 0x44 => (Buf.ofCode m).bind fun bf => some (.toolRsum g bf D A B C)
  | 0x48 => match m with
      | 0 => some (.chaseLink g D A B C)
      | 1 => some (.chaseIndex g D A B C)
      | 2 => some (.chaseSample g D A B C)
      | _ => none
  | 0x4C => match m with
      | 0 => need (d == 0 && a == 0 && n ≤ 12) (.l1cfg g n)
      | 1 => need (a == 0 && n == 0) (.l1cfgQ g D)
      | _ => none
  | 0x4D => need (m == 0 && d == 0 && a == 0 && n % 64 == 0)
              (.waitc g (n / 65536) (n / 1024 % 64) (n / 64 % 16))
  | 0x4E => match m with
      | 0 => need (d == 0 && a == 0 && b == 0 && c == 0) (.cinvD g)
      | 1 => need (d == 0 && a == 0 && b == 0 && c == 0) (.cinvI g)
      | _ => none
  | 0x4F => need (m == 0 && d == 0 && c == 0) (.cflush g A B)
  | _ => none

/-- The local rows of class 3 act in the warp alone: wm 0, ss 31, mod 0 (R158). -/
def localOk (m : Nat) (f : CmdFrame) : Bool := m == 0 && f.wm == 0#16 && f.ss == none

/-- Class 3 (R158). -/
def decodeC3 (g : Guard) (op m d a b c : Nat) : Option Instr :=
  let D := Opnd.ofCode d
  let arr := m % 4
  let x := c % 64
  (CmdFrame.ofCode (m / 8) a b c).bind fun f =>
  if m / 4 % 2 = 1 then none
  else match op with
  | 0x00 => need (localOk m f && x < 32) (.tbind g x D)
  | 0x01 => need (x == 0) (.ldst g arr f D)
  | 0x02 => need (arr == 0 && x < 16) (.cbtload g x f D)
  | 0x03 => need (x == 0 && d == 0) (.mswap g arr f)
  | 0x04 => need (x == 0) (.mstream g arr f D)
  | 0x05 => need (arr == 0 && x == 0) (.mop g f D)
  | 0x06 => need (arr == 0 && x == 0) (.mzero g f D)
  | 0x08 => need (arr == 0 && x == 0) (.chainCfg g f D)
  | 0x09 => need (arr == 0 && x == 0) (.chainStep g f D)
  | 0x0A => need (arr == 0 && x == 0) (.chainRun g f D)
  | 0x0C => need (localOk m f && x < 16) (.bdSet g x D)
  | 0x0D => need (localOk m f && x < 16) (.bdGet g x D)
  | 0x0E => need (localOk m f && x == 0) (.dsrd g D)
  | _ => none

/-- Class 4 (R159). -/
def decodeC4 (g : Guard) (op m d a b c : Nat) : Option Instr :=
  let D := Opnd.ofCode d; let A := Opnd.ofCode a; let B := Opnd.ofCode b; let C := Opnd.ofCode c
  match op with
  | 0x00 => need (m == 0 && a == 0 && b == 0 && c == 0) (.setNew g D)
  | 0x01 => need (m == 0 && d == 0 && b == 0 && c == 0) (.setFree g A)
  | 0x02 => need (m < 2 && c == 0 && (m == 1 || d == 0)) (.setIns g (m == 1) D A B)
  | 0x03 => need (m < 2 && c == 0 && (m == 1 || d == 0)) (.setDel g (m == 1) D A B)
  | 0x04 => need (m == 0 && c == 0) (.setHas g D A B)
  | 0x05 => need (m == 0 && b == 0 && c == 0) (.setCard g D A)
  | 0x06 => need (m == 0 && d == 0) (.setOr g A B C)
  | 0x07 => need (m == 0 && d == 0) (.setAnd g A B C)
  | 0x08 => need (m == 0 && d == 0) (.setSub g A B C)
  | 0x09 => need (m == 0 && d == 0) (.setIn g A B C)
  | 0x0A => need (m == 0) (.setOut g D A B C)
  | 0x0B => need (m == 0 && b == 0) (.setIter g D A C)
  | 0x0C => if m = 8 then need (d == 0 && b == 0 && c == 0) (.setHintNone g A)
            else (Rep.ofCode m).bind fun r => need (d == 0 && b == 0 && c == 0) (.setHint g r A)
  | 0x0D => need (m < 6 && a == 0 && b == 0 && c == 0) (.setCost g m D)
  | _ => none

/-- Class 5 (R160). -/
def decodeC5 (g : Guard) (op m d a b c : Nat) : Option Instr :=
  let D := Opnd.ofCode d; let A := Opnd.ofCode a; let B := Opnd.ofCode b; let C := Opnd.ofCode c
  let n := imm22 b c
  if m ≠ 0 then none else match op with
  | 0x00 => need (d == 0 && n < 64) (.barInit g n A)
  | 0x01 => need (d == 0 && a == 0 && n < 64) (.barArrive g n)
  | 0x02 => need (d == 0 && a == 0 && n < 64) (.barWait g n)
  | 0x03 => need (a == 0 && n < 64) (.barStatus g n D)
  | 0x08 => need (d == 0 && a == 0 && b == 0 && c == 0) (.qstate g)
  | 0x09 => need (a == 0 && b == 0 && c == 0) (.gstart g D)
  | 0x0A => need (d == 0 && b == 0 && c == 0) (.gwait g A)
  | 0x0B => need (d == 0) (.fdefer g A B C)
  | 0x10 => need (d == 0 && a == 0 && n < 65536) (.trap g (BitVec.ofNat 16 n))
  | 0x11 => need (d == 0 && a == 0 && b == 0 && c == 0) (.tret g)
  | 0x12 => need (d == 0 && a == 0 && n < 65536) (.rngOpen g (BitVec.ofNat 16 n))
  | 0x13 => need (d == 0 && a == 0 && b == 0 && c == 0) (.rngClose g)
  | 0x14 => need (b == 0 && c == 0) (.capq g D A)
  | 0x15 => need (a == 0 && b == 0 && c == 0) (.tmrd g D)
  | _ => none

/-- Class 6, with word 1 (R161). -/
def decodeC6 (g : Guard) (op m d a b c w1 : Nat) : Option Instr :=
  let D := Opnd.ofCode d; let A := Opnd.ofCode a
  let lo := w1 % 4294967296
  let hi := w1 / 4294967296
  if m ≠ 0 ∨ b ≠ 0 ∨ c ≠ 0 then none else match op with
  | 0x00 => need (a == 0 && hi == 0) (.sli g D (BitVec.ofNat 32 lo))
  | 0x01 => need (a == 0) (.sli64 g D (BitVec.ofNat 64 w1))
  | 0x02 => need (a == 0 && hi == 0) (.vli g D (BitVec.ofNat 32 lo))
  | 0x03 => need (a == 0 && d ≤ 256) (.callDirect g d (signedOf 2147483648 hi) (signedOf 2147483648 lo))
  | 0x04 => need (hi == 0 && d ≤ 256) (.callRegister g d A (signedOf 2147483648 lo))
  | _ => none

/-- The row that the class and the opcode select reads the fields (R142, R152). -/
def decodeFields (f : Fields) (w1 : Nat) : Option Instr :=
  (Guard.ofCode f.pred f.pn).bind fun g =>
  match f.cls with
  | 0 => decodeC0 g f.op f.mod f.d f.a f.b f.c
  | 1 => decodeC1 g f.op f.mod f.d f.a f.b f.c
  | 2 => decodeC2 g f.op f.mod f.d f.a f.b f.c
  | 3 => decodeC3 g f.op f.mod f.d f.a f.b f.c
  | 4 => decodeC4 g f.op f.mod f.d f.a f.b f.c
  | 5 => decodeC5 g f.op f.mod f.d f.a f.b f.c
  | 6 => decodeC6 g f.op f.mod f.d f.a f.b f.c w1
  | _ => none

/-- A class-6 instruction takes a second word (R140). -/
def takesSecondWord (w0 : DWord) : Bool := (Fields.ofNat w0.toNat).cls == 6

/-- Decoding is total: a word that no row allows is an unassigned word (R153). -/
def decodeWords (w0 w1 : DWord) : Instr :=
  (decodeFields (Fields.ofNat w0.toNat) w1.toNat).getD (.unassignedWord w0 w1)

/-- The eight bytes at the front, least significant first (R140). -/
def takeWord : List Byte → Option (DWord × List Byte)
  | b0 :: b1 :: b2 :: b3 :: b4 :: b5 :: b6 :: b7 :: rest =>
      some (b7 ++ b6 ++ b5 ++ b4 ++ b3 ++ b2 ++ b1 ++ b0, rest)
  | _ => none

/-- Why bytes give no instruction. -/
inductive DecodeError where
  /-- The bytes end within the instruction. -/
  | truncated
  deriving DecidableEq, Repr

/-- The instruction at the front of the bytes, with the bytes after it. -/
def decodeBytes (bs : List Byte) : Except DecodeError (Instr × List Byte) :=
  match takeWord bs with
  | none => .error .truncated
  | some (w0, rest) =>
    if takesSecondWord w0 then
      match takeWord rest with
      | none => .error .truncated
      | some (w1, rest') => .ok (decodeWords w0 w1, rest')
    else .ok (decodeWords w0 0#64, rest)

/-- The eight bytes of a word, least significant first (R140). -/
def wordBytes (w : DWord) : List Byte :=
  [w.extractLsb' 0 8, w.extractLsb' 8 8, w.extractLsb' 16 8, w.extractLsb' 24 8,
   w.extractLsb' 32 8, w.extractLsb' 40 8, w.extractLsb' 48 8, w.extractLsb' 56 8]

/-- The instruction the decoder reads from the bits w, word 0 lowest, laid out as memory holds them. -/
def decodeTableWord (nbits w : Nat) : Option Instr :=
  let v := w % 2 ^ nbits
  match decodeBytes (wordBytes (BitVec.ofNat 64 v) ++ wordBytes (BitVec.ofNat 64 (v / 18446744073709551616))) with
  | .ok (i, _) => some i
  | .error _ => none

/-! ## The encoder -/

/-- Fields of formats A and M. -/
def Fields.mkA (g : Guard) (cls op m d a b c : Nat) : Fields :=
  { cls := cls, op := op, mod := m, pred := g.predCode, pn := g.pnCode, d := d, a := a, b := b, c := c }

/-- Fields of format I. -/
def Fields.mkI (g : Guard) (cls op m d a n : Nat) : Fields := Fields.mkA g cls op m d a (n / 2048) (n % 2048)

/-- Fields of format E. -/
def Fields.mkE (g : Guard) (op arr : Nat) (f : CmdFrame) (d x : Nat) : Fields :=
  Fields.mkA g 3 op (arr + 8 * f.m3) d (f.wm.toNat / 32)
    (f.wm.toNat % 32 * 64 + f.ssCode * 2 + f.barCode / 32) (f.barCode % 32 * 64 + x)

/-- The frame of a local row (R158). -/
def CmdFrame.none : CmdFrame := ⟨0#16, Option.none, Option.none⟩

/-- The fields of an instruction; none for an unassigned word and for a step that no word starts. -/
def encodeFields : Instr → Option Fields
  | .vaddF g f r d a b => some (.mkA g 0 (0x00 + f.op) r.code d.code a.code b.code 0)
  | .vsubF g f r d a b => some (.mkA g 0 (0x04 + f.op) r.code d.code a.code b.code 0)
  | .vmulF g f r d a b => some (.mkA g 0 (0x08 + f.op) r.code d.code a.code b.code 0)
  | .vfmaF g f r d a b c => some (.mkA g 0 (0x0C + f.op) r.code d.code a.code b.code c.code)
  | .vminF g f d a b => some (.mkA g 0 (0x10 + f.op) 0 d.code a.code b.code 0)
  | .vmaxF g f d a b => some (.mkA g 0 (0x14 + f.op) 0 d.code a.code b.code 0)
  | .vaddminF g f r d a b c => some (.mkA g 0 (0x18 + f.op) r.code d.code a.code b.code c.code)
  | .vmaxaddF g f r d a b c => some (.mkA g 0 (0x1C + f.op) r.code d.code a.code b.code c.code)
  | .vcmpF g f cc d a b => some (.mkA g 0 (0x20 + f.op) 0 d.code a.code b.code cc.code)
  | .vrndi g f r d a => some (.mkA g 0 (0x24 + f.op) r.code d.code a.code 0 0)
  | .vldexp g f r d a b => some (.mkA g 0 (0x28 + f.op) r.code d.code a.code b.code 0)
  | .vgetexp g f d a => some (.mkA g 0 (0x2C + f.op) 0 d.code a.code 0 0)
  | .vnegF g f d a => some (.mkA g 0 (0x30 + f.op) 0 d.code a.code 0 0)
  | .vabsF g f d a => some (.mkA g 0 (0x34 + f.op) 0 d.code a.code 0 0)
  | .vrcp g r d a => some (.mkA g 0 0x38 r.code d.code a.code 0 0)
  | .vrsqrt g r d a => some (.mkA g 0 0x39 r.code d.code a.code 0 0)
  | .vfexp2 g r d a => some (.mkA g 0 0x3A r.code d.code a.code 0 0)
  | .vlog2 g r d a => some (.mkA g 0 0x3B r.code d.code a.code 0 0)
  | .vcvt g td ts r d a => some (.mkA g 0 0x3C td.code d.code a.code 0 (cvtC ts r))
  | .vdp4F16 g r d a b c => some (.mkA g 0 0x3D r.code d.code a.code b.code c.code)
  | .vdp4Bf16 g r d a b c => some (.mkA g 0 0x3E r.code d.code a.code b.code c.code)
  | .vdp4I8 g d a b c => some (.mkA g 0 0x3F 0 d.code a.code b.code c.code)
  | .vcbxCb3 g d a b c => some (.mkA g 0 0x40 0 d.code a.code b.code c.code)
  | .vcbxCb4 g d a b c => some (.mkA g 0 0x41 0 d.code a.code b.code c.code)
  | .vaddT g t d a b => some (.mkA g 0 0x48 t.code d.code a.code b.code 0)
  | .vsubT g t d a b => some (.mkA g 0 0x49 t.code d.code a.code b.code 0)
  | .vmulT g t d a b => some (.mkA g 0 0x4A t.code d.code a.code b.code 0)
  | .vmulhi g t d a b => some (.mkA g 0 0x4B t.code d.code a.code b.code 0)
  | .vmad g t d a b c => some (.mkA g 0 0x4C t.code d.code a.code b.code c.code)
  | .vminT g t d a b => some (.mkA g 0 0x4D t.code d.code a.code b.code 0)
  | .vmaxT g t d a b => some (.mkA g 0 0x4E t.code d.code a.code b.code 0)
  | .vabsT g t d a => some (.mkA g 0 0x4F t.code d.code a.code 0 0)
  | .vnegT g t d a => some (.mkA g 0 0x50 t.code d.code a.code 0 0)
  | .vaddminT g t d a b c => some (.mkA g 0 0x51 t.code d.code a.code b.code c.code)
  | .vmaxaddT g t d a b c => some (.mkA g 0 0x52 t.code d.code a.code b.code c.code)
  | .vcmpT g t cc d a b => some (.mkA g 0 0x53 t.code d.code a.code b.code cc.code)
  | .vand g t d a b => some (.mkA g 0 0x54 t.code d.code a.code b.code 0)
  | .vor g t d a b => some (.mkA g 0 0x55 t.code d.code a.code b.code 0)
  | .vxor g t d a b => some (.mkA g 0 0x56 t.code d.code a.code b.code 0)
  | .vnot g t d a => some (.mkA g 0 0x57 t.code d.code a.code 0 0)
  | .vshl g t d a b => some (.mkA g 0 0x58 t.code d.code a.code b.code 0)
  | .vshr g t d a b => some (.mkA g 0 0x59 t.code d.code a.code b.code 0)
  | .vpopc g t d a => some (.mkA g 0 0x5A t.code d.code a.code 0 0)
  | .vclz g t d a => some (.mkA g 0 0x5B t.code d.code a.code 0 0)
  | .vbfe g t d a b c => some (.mkA g 0 0x5C t.code d.code a.code b.code c.code)
  | .vbfi g t d a b c => some (.mkA g 0 0x5D t.code d.code a.code b.code c.code)
  | .vsel g t d a b c => some (.mkA g 0 0x5E t.code d.code a.code b.code c.code)
  | .vmov g t d a => some (.mkA g 0 0x5F t.code d.code a.code 0 0)
  | .vshup g t d a b c => some (.mkA g 0 0x60 t.code d.code a.code b.code c.code)
  | .vshdn g t d a b c => some (.mkA g 0 0x61 t.code d.code a.code b.code c.code)
  | .vperm g t d a b => some (.mkA g 0 0x62 t.code d.code a.code b.code 0)
  | .vbcast g t d a b => some (.mkA g 0 0x63 t.code d.code a.code b.code 0)
  | .vredaddF g f r d a => some (.mkA g 0 (0x64 + f.op) r.code d.code a.code 0 0)
  | .vscanIncF g f r d a => some (.mkA g 0 (0x68 + f.op) r.code d.code a.code 0 0)
  | .vscanExcF g f r d a => some (.mkA g 0 (0x6C + f.op) r.code d.code a.code 0 0)
  | .vredaddT g t d a => some (.mkA g 0 0x70 t.code d.code a.code 0 0)
  | .vscanIncT g t d a => some (.mkA g 0 0x71 t.code d.code a.code 0 0)
  | .vscanExcT g t d a => some (.mkA g 0 0x72 t.code d.code a.code 0 0)
  | .vpack g t d a b c => some (.mkA g 0 0x74 t.code d.code a.code b.code c.code)
  | .vunpack g t d a b c => some (.mkA g 0 0x75 t.code d.code a.code b.code c.code)
  | .saddF g f r d a b => some (.mkA g 1 (0x00 + f.op) r.code d.code a.code b.code 0)
  | .ssubF g f r d a b => some (.mkA g 1 (0x04 + f.op) r.code d.code a.code b.code 0)
  | .smulF g f r d a b => some (.mkA g 1 (0x08 + f.op) r.code d.code a.code b.code 0)
  | .sfma g f r d a b c => some (.mkA g 1 (0x0C + f.op) r.code d.code a.code b.code c.code)
  | .sminF g f d a b => some (.mkA g 1 (0x10 + f.op) 0 d.code a.code b.code 0)
  | .smaxF g f d a b => some (.mkA g 1 (0x14 + f.op) 0 d.code a.code b.code 0)
  | .scmpF g f cc d a b => some (.mkA g 1 (0x18 + f.op) 0 d.code a.code b.code cc.code)
  | .scvt g td ts r d a => some (.mkA g 1 0x1C td.code d.code a.code 0 (cvtC ts r))
  | .saddT g t d a b => some (.mkA g 1 0x20 t.code d.code a.code b.code 0)
  | .ssubT g t d a b => some (.mkA g 1 0x21 t.code d.code a.code b.code 0)
  | .smulT g t d a b => some (.mkA g 1 0x22 t.code d.code a.code b.code 0)
  | .smulhi g t d a b => some (.mkA g 1 0x23 t.code d.code a.code b.code 0)
  | .smad g t d a b c => some (.mkA g 1 0x24 t.code d.code a.code b.code c.code)
  | .sminT g t d a b => some (.mkA g 1 0x25 t.code d.code a.code b.code 0)
  | .smaxT g t d a b => some (.mkA g 1 0x26 t.code d.code a.code b.code 0)
  | .sabs g t d a => some (.mkA g 1 0x27 t.code d.code a.code 0 0)
  | .sneg g t d a => some (.mkA g 1 0x28 t.code d.code a.code 0 0)
  | .scmpT g t cc d a b => some (.mkA g 1 0x29 t.code d.code a.code b.code cc.code)
  | .sand g t d a b => some (.mkA g 1 0x2A t.code d.code a.code b.code 0)
  | .sor g t d a b => some (.mkA g 1 0x2B t.code d.code a.code b.code 0)
  | .sxor g t d a b => some (.mkA g 1 0x2C t.code d.code a.code b.code 0)
  | .snot g t d a => some (.mkA g 1 0x2D t.code d.code a.code 0 0)
  | .sshl g t d a b => some (.mkA g 1 0x2E t.code d.code a.code b.code 0)
  | .sshr g t d a b => some (.mkA g 1 0x2F t.code d.code a.code b.code 0)
  | .spopc g t d a => some (.mkA g 1 0x30 t.code d.code a.code 0 0)
  | .sclz g t d a => some (.mkA g 1 0x31 t.code d.code a.code 0 0)
  | .sbfe g t d a b c => some (.mkA g 1 0x32 t.code d.code a.code b.code c.code)
  | .sbfi g t d a b c => some (.mkA g 1 0x33 t.code d.code a.code b.code c.code)
  | .ssel g t d a b c => some (.mkA g 1 0x34 t.code d.code a.code b.code c.code)
  | .smov g t d a => some (.mkA g 1 0x35 t.code d.code a.code 0 0)
  | .lget g t d a b => some (.mkA g 1 0x36 t.code d.code a.code b.code 0)
  | .lput g t d a b => some (.mkA g 1 0x37 t.code d.code a.code b.code 0)
  | .srd g reg d => some (.mkI g 1 0x38 0 d.code 0 reg)
  | .swr g reg a => some (.mkI g 1 0x39 0 0 a.code reg)
  | .bra g off => some (.mkI g 1 0x40 0 0 0 (signedCode 2097152 off))
  | .braAny g a off => some (.mkI g 1 0x41 0 0 a.code (signedCode 2097152 off))
  | .braAll g a off => some (.mkI g 1 0x42 0 0 a.code (signedCode 2097152 off))
  | .braNone g a off => some (.mkI g 1 0x43 0 0 a.code (signedCode 2097152 off))
  | .braZ g a off => some (.mkI g 1 0x44 0 0 a.code (signedCode 2097152 off))
  | .braNz g a off => some (.mkI g 1 0x45 0 0 a.code (signedCode 2097152 off))
  | .jmp g a => some (.mkA g 1 0x46 0 0 a.code 0 0)
  | .brx g a off => some (.mkI g 1 0x47 0 0 a.code (signedCode 2097152 off))
  | .ret g => some (.mkA g 1 0x48 0 0 0 0 0)
  | .exit g => some (.mkA g 1 0x49 0 0 0 0 0)
  | .park g line bar tmo a b c =>
      some (.mkA g 1 0x4A ((if line then 1 else 0) + (if bar then 2 else 0) + (if tmo then 4 else 0)) 0 a.code b c.code)
  | .yield g => some (.mkA g 1 0x4B 0 0 0 0 0)
  | .grow g n => some (.mkI g 1 0x4C 0 0 0 n)
  | .shrink g n => some (.mkI g 1 0x4D 0 0 0 n)
  | .taskPush g prio a => some (.mkA g 1 0x4E prio 0 a.code 0 0)
  | .nop g => some (.mkA g 1 0x4F 0 0 0 0 0)
  | .sli g d _ => some (.mkA g 6 0x00 0 d.code 0 0 0)
  | .sli64 g d _ => some (.mkA g 6 0x01 0 d.code 0 0 0)
  | .vli g d _ => some (.mkA g 6 0x02 0 d.code 0 0 0)
  | .callDirect g n _ _ => some (.mkA g 6 0x03 0 n 0 0 0)
  | .callRegister g n a _ => some (.mkA g 6 0x04 0 n a.code 0 0)
  | .ld g k o sc d a q off => some (.mkA g 2 (0x00 + k.code) (orderM o sc) d.code a.code q.code (signedCode 1024 off))
  | .st g w o sc d a q off => some (.mkA g 2 (0x08 + w.code) (orderM o sc) d.code a.code q.code (signedCode 1024 off))
  | .gath g k d a b off => some (.mkA g 2 (0x20 + k.code) 0 d.code a.code b.code (signedCode 1024 off))
  | .scat g w d a b off => some (.mkA g 2 (0x28 + w.code) 0 d.code a.code b.code (signedCode 1024 off))
  | .ldb g k bf d a off => some (.mkA g 2 (0x10 + k.code) bf.code d.code a.code 0 (signedCode 1024 off))
  | .stb g w bf d a off => some (.mkA g 2 (0x18 + w.code) bf.code d.code a.code 0 (signedCode 1024 off))
  | .atom g x k o sc d a b => some (.mkA g 2 0x30 (orderM o sc) d.code a.code b.code (atomC x k))
  | .red g x k o sc a b => some (.mkA g 2 0x31 (orderM o sc) 0 a.code b.code (atomC x k))
  | .redRet g x k o sc d a b => some (.mkA g 2 0x32 (orderM o sc) d.code a.code b.code (atomC x k))
  | .fence g o sc => some (.mkA g 2 0x34 (orderM o sc) 0 0 0 0)
  | .pref g a q off => some (.mkA g 2 0x36 0 0 a.code q.code (signedCode 1024 off))
  | .ipref g a off => some (.mkA g 2 0x37 0 0 a.code 0 (signedCode 1024 off))
  | .copyAbuf g q d a b c => some (.mkA g 2 0x38 q.code d.code a.code b.code c.code)
  | .copyWbuf g q d a b c => some (.mkA g 2 0x39 q.code d.code a.code b.code c.code)
  | .copyOut g cb q d a b c => some (.mkA g 2 0x3A (q.code + if cb then 8 else 0) d.code a.code b.code c.code)
  | .copyMc g q d a b c => some (.mkA g 2 0x3B q.code d.code a.code b.code c.code)
  | .copyQ g q d a b c => some (.mkA g 2 0x3C q.code d.code a.code b.code c.code)
  | .toolXpose g bf d a b c => some (.mkA g 2 0x40 bf.code d.code a.code b.code c.code)
  | .toolCvt g bf d a b c => some (.mkA g 2 0x41 bf.code d.code a.code b.code c.code)
  | .toolQuant g bf d a b c => some (.mkA g 2 0x42 bf.code d.code a.code b.code c.code)
  | .toolZero g bf d a b c => some (.mkA g 2 0x43 bf.code d.code a.code b.code c.code)
  | .toolRsum g bf d a b c => some (.mkA g 2 0x44 bf.code d.code a.code b.code c.code)
  | .chaseLink g d a b c => some (.mkA g 2 0x48 0 d.code a.code b.code c.code)
  | .chaseIndex g d a b c => some (.mkA g 2 0x48 1 d.code a.code b.code c.code)
  | .chaseSample g d a b c => some (.mkA g 2 0x48 2 d.code a.code b.code c.code)
  | .l1cfg g n => some (.mkI g 2 0x4C 0 0 0 n)
  | .l1cfgQ g d => some (.mkI g 2 0x4C 1 d.code 0 0)
  | .waitc g ld st tl => some (.mkI g 2 0x4D 0 0 0 (ld * 65536 + st * 1024 + tl * 64))
  | .cinvD g => some (.mkA g 2 0x4E 0 0 0 0 0)
  | .cinvI g => some (.mkA g 2 0x4E 1 0 0 0 0)
  | .cflush g a b => some (.mkA g 2 0x4F 0 0 a.code b.code 0)
  | .tbind g th d => some (.mkE g 0x00 0 .none d.code th)
  | .ldst g arr f d => some (.mkE g 0x01 arr f d.code 0)
  | .cbtload g tbl f d => some (.mkE g 0x02 0 f d.code tbl)
  | .mswap g arr f => some (.mkE g 0x03 arr f 0 0)
  | .mstream g arr f d => some (.mkE g 0x04 arr f d.code 0)
  | .mop g f d => some (.mkE g 0x05 0 f d.code 0)
  | .mzero g f d => some (.mkE g 0x06 0 f d.code 0)
  | .chainCfg g f d => some (.mkE g 0x08 0 f d.code 0)
  | .chainStep g f d => some (.mkE g 0x09 0 f d.code 0)
  | .chainRun g f d => some (.mkE g 0x0A 0 f d.code 0)
  | .bdSet g n d => some (.mkE g 0x0C 0 .none d.code n)
  | .bdGet g n d => some (.mkE g 0x0D 0 .none d.code n)
  | .dsrd g d => some (.mkE g 0x0E 0 .none d.code 0)
  | .setNew g d => some (.mkA g 4 0x00 0 d.code 0 0 0)
  | .setFree g a => some (.mkA g 4 0x01 0 0 a.code 0 0)
  | .setIns g wr d a b => some (.mkA g 4 0x02 (if wr then 1 else 0) d.code a.code b.code 0)
  | .setDel g wr d a b => some (.mkA g 4 0x03 (if wr then 1 else 0) d.code a.code b.code 0)
  | .setHas g d a b => some (.mkA g 4 0x04 0 d.code a.code b.code 0)
  | .setCard g d a => some (.mkA g 4 0x05 0 d.code a.code 0 0)
  | .setOr g a b c => some (.mkA g 4 0x06 0 0 a.code b.code c.code)
  | .setAnd g a b c => some (.mkA g 4 0x07 0 0 a.code b.code c.code)
  | .setSub g a b c => some (.mkA g 4 0x08 0 0 a.code b.code c.code)
  | .setIn g a b c => some (.mkA g 4 0x09 0 0 a.code b.code c.code)
  | .setOut g d a b c => some (.mkA g 4 0x0A 0 d.code a.code b.code c.code)
  | .setIter g d a c => some (.mkA g 4 0x0B 0 d.code a.code 0 c.code)
  | .setHint g r a => some (.mkA g 4 0x0C r.code 0 a.code 0 0)
  | .setHintNone g a => some (.mkA g 4 0x0C 8 0 a.code 0 0)
  | .setCost g n d => some (.mkA g 4 0x0D n d.code 0 0 0)
  | .barInit g hb a => some (.mkI g 5 0x00 0 0 a.code hb)
  | .barArrive g hb => some (.mkI g 5 0x01 0 0 0 hb)
  | .barWait g hb => some (.mkI g 5 0x02 0 0 0 hb)
  | .barStatus g hb d => some (.mkI g 5 0x03 0 d.code 0 hb)
  | .qstate g => some (.mkA g 5 0x08 0 0 0 0 0)
  | .gstart g d => some (.mkA g 5 0x09 0 d.code 0 0 0)
  | .gwait g a => some (.mkA g 5 0x0A 0 0 a.code 0 0)
  | .fdefer g a b c => some (.mkA g 5 0x0B 0 0 a.code b.code c.code)
  | .trap g code => some (.mkI g 5 0x10 0 0 0 code.toNat)
  | .tret g => some (.mkA g 5 0x11 0 0 0 0 0)
  | .rngOpen g l => some (.mkI g 5 0x12 0 0 0 l.toNat)
  | .rngClose g => some (.mkA g 5 0x13 0 0 0 0 0)
  | .capq g d a => some (.mkA g 5 0x14 0 d.code a.code 0 0)
  | .tmrd g d => some (.mkA g 5 0x15 0 d.code 0 0 0)
  | .unassignedWord _ _ => none
  | .storeDrain .. | .storePerform .. | .storeAcknowledge .. | .releaseProceed .. | .atomicPerform ..
  | .loadReturn .. | .bufferAccessPerform .. | .pageWalk .. | .l1Fill .. | .l2Fill .. | .icacheFill ..
  | .cxlOwnership .. | .hbmRequestService .. | .deadlineMiss .. | .engineLineRelease .. | .chaseHop ..
  | .l1Conversion .. | .copyEngineStart .. | .copyChunk .. | .toolChunk .. | .commandStart ..
  | .chainStepExecute .. | .commandEnd .. | .setEngineOperation .. | .setFreeReturn .. | .quiescentPoint ..
  | .gstartTarget .. | .trackerReport .. | .cinchPush .. | .gracestall .. | .barrierArrival .. | .flipBroadcast ..
  | .parkWake .. | .parkWatchDrop .. | .parkTimeout .. | .timer .. | .userTrapEntry .. | .warpSwap ..
  | .growGrant .. | .waitcRelease .. | .taskStart .. | .continuationResume .. | .taskPushAppend ..
  | .launchCheck .. | .waitWordRead .. | .admissionTake .. | .reservationReply .. | .backoffExpiry ..
  | .completionWordWrite .. | .queueWindowWrite .. | .preemptRequest .. | .yieldDeadline .. | .forcedSaveLimit ..
  | .gangSave .. | .saveSpill .. | .contextResume .. | .gangRestore .. | .contextReset .. | .contextEnable ..
  | .contextDisable .. | .contextResetComplete .. | .retry .. | .skip .. | .resumeReset .. | .faultRecord ..
  | .tlbInv .. | .tlbInvComplete .. | .loadStart .. | .loadComplete .. | .fuseCmd .. | .fuseBlowDone
  | .attestationStart | .attestationReport | .sliCfgWrite .. | .sliRatioDone .. | .powerLimiterStep ..
  | .registerWrite .. | .hostMemAccess .. | .peerAccess .. | .linkDeliveryFailure .. | .softError ..
  | .moduleTraining .. | .deviceReset .. | .cxlCacheOwnershipLoss .. | .linkPortServiceChange ..
  | .powerStateChange .. => none

/-- Word 1 of a class-6 instruction (R161). -/
def encodeSecond : Instr → Option DWord
  | .sli _ _ imm | .vli _ _ imm => some (imm.setWidth 64)
  | .sli64 _ _ imm => some imm
  | .callDirect _ _ target cont =>
      some (BitVec.ofNat 64 (signedCode 2147483648 target * 4294967296 + signedCode 2147483648 cont))
  | .callRegister _ _ _ cont => some (BitVec.ofNat 64 (signedCode 2147483648 cont))
  | _ => none

/-- The words of an instruction; no words for a step that no word starts. -/
def encode (i : Instr) : List DWord :=
  match i with
  | .unassignedWord w0 w1 => if takesSecondWord w0 then [w0, w1] else [w0]
  | _ =>
    match encodeFields i, encodeSecond i with
    | some f, some w1 => [BitVec.ofNat 64 f.toNat, w1]
    | some f, none => [BitVec.ofNat 64 f.toNat]
    | none, _ => []

/-- The instruction a list of words starts with. -/
def decodeList : List DWord → Option Instr
  | w0 :: w1 :: _ => some (if takesSecondWord w0 then decodeWords w0 w1 else decodeWords w0 0#64)
  | [w0] => if takesSecondWord w0 then none else some (decodeWords w0 0#64)
  | [] => none

/-- How far the PC advances past an instruction: 8, or 16 for class 6 (R140). -/
def Instr.size (i : Instr) : Nat :=
  match i with
  | .unassignedWord w0 _ => if takesSecondWord w0 then 16 else 8
  | _ => if (encodeSecond i).isSome then 16 else 8

end Sys2Proof
end

