-- ==== Sys2Proof/Machine/Map.lean ====
section
/-! DEFINITION. Keyed lists: data by key in rising order of the key, and the two readings of a key that is not listed:
absent, or a default that no entry may hold. -/

namespace Sys2Proof.Machine

/-- The entry of a key. -/
def kget {V : Type} (m : KMap V) (k : Nat) : Option V :=
  match m with
  | [] => none
  | (k', v) :: t => if k' = k then some v else kget t k

/-- The map with the key's entry set. -/
def kput {V : Type} (m : KMap V) (k : Nat) (v : V) : KMap V :=
  match m with
  | [] => [(k, v)]
  | (k', v') :: t =>
    if k < k' then (k, v) :: (k', v') :: t else if k' = k then (k, v) :: t else (k', v') :: kput t k v

/-- The map without the key's entry. -/
def kdel {V : Type} (m : KMap V) (k : Nat) : KMap V :=
  match m with
  | [] => []
  | (k', v') :: t => if k' = k then kdel t k else (k', v') :: kdel t k

/-- The key's value where an unlisted key stands for `d`. -/
def kgetD {V : Type} (d : V) (m : KMap V) (k : Nat) : V := (kget m k).getD d

/-- The map with the key's value set, where an unlisted key stands for `d`. -/
def ksetD {V : Type} [DecidableEq V] (d : V) (m : KMap V) (k : Nat) (v : V) : KMap V :=
  if v = d then kdel m k else kput m k v

/-- The map with the key's entry changed, if it has one. -/
def kmod {V : Type} (m : KMap V) (k : Nat) (f : V → V) : KMap V :=
  match m with
  | [] => []
  | (k', v') :: t => if k' = k then (k', f v') :: t else (k', v') :: kmod t k f

/-- Keys rise strictly. -/
def keysRise {V : Type} (m : KMap V) : Bool :=
  match m with
  | [] => true
  | [_] => true
  | (k, _) :: (k', v') :: t => decide (k < k') && keysRise ((k', v') :: t)

/-- The canonical form: keys rise strictly and no entry holds the default. -/
def kwf {V : Type} [DecidableEq V] (d : V) (m : KMap V) : Bool := keysRise m && m.all (fun e => decide (e.2 ≠ d))

end Sys2Proof.Machine
end

