-- ==== Sys2Proof/Machine/State.lean ====
section
/-! DEFINITION. The state of the part as plain data, piece by piece as the manual gives it, and the state after device
reset. A `KMap` field lists, in rising order of its key, only the entries that differ from what an unlisted key stands
for; that value is named with the field. -/

namespace Sys2Proof.Machine

/-- What stops the model itself: nothing does. A fault of a program is a state of its agent (R313), and an access where
the package has no memory goes on (R89, log 11). -/
inductive Fault where
  deriving DecidableEq, Repr

/-- What the model declines. -/
inductive Refusal where
  /-- `exec` was given an instruction while no agent is issuing. Raised by the issue frame alone. Safe: `step` never
  does it. -/
  | noIssuer
  /-- The instruction has no meaning in the model yet. Raised by `exec`'s arms alone. Safe: nothing follows it. -/
  | notModelled (mnemonic : String)
  deriving DecidableEq, Repr

/-! ## Memory instructions in flight -/

/-- What a translation gives an access (R88): the location, the tier, cacheability and the base-die coding. -/
structure Xlat where
  key : Nat
  tier : Nat
  cached : Bool
  coded : Bool
  deriving DecidableEq, Repr

/-- How far one lane of a memory instruction has come (R221). -/
inductive LaneSt where
  /-- Not yet translated. -/
  | fresh
  /-- Met a fault of this code; recorded in the operand log. -/
  | faulted (code : Nat)
  /-- Translated and permitted. -/
  | ready
  /-- A store that has left its queue and has not performed (R117). -/
  | drained
  /-- An atomic on its way to its home, where it has not performed (R120). -/
  | sent
  /-- Performed. -/
  | done
  /-- Discarded by SKIP (R315). -/
  | dropped
  deriving DecidableEq, Repr

/-- One lane of a memory instruction: its address, its operands, what it read, its place among the writes sent (R120),
and whether the old value of a `red.ret` has gone to its target (R229). -/
structure LaneOp where
  lane : Nat
  va : DWord
  x : DWord
  y : DWord
  target : Word
  loc : Option Xlat
  st : LaneSt
  val : DWord
  mark : Bool
  stamp : Nat
  back : Bool
  deriving DecidableEq, Repr

/-- The kinds of logged memory instructions (R220). -/
inductive OpKind where
  | load (k : LdKind)
  | store
  | atom (op : AOp) (k : AKind)
  | red (op : AOp) (k : AKind)
  | redRet (op : AOp) (k : AKind)
  | flush
  deriving DecidableEq, Repr

/-- A memory instruction from issue until nothing of it is outstanding: its operand-log entry (R220) and its place in
the agent's store queue and counts (R117, R120). For `flush`, the one lane holds the next address and `rest` the bytes
from there on. `single` marks one atomic for several lanes' targets (R229). `issued` is how many requests had been numbered
at issue, its place beside the engine commands (R130); `missed` are the pages whose miss entries it took (R91); `waiting` says
that a restore has given it back its parts and that they have no entries yet (R91, R96). -/
structure MemOp where
  id : Nat
  kind : OpKind
  width : Nat
  order : Order
  scope : Scope
  act : Lanes
  dst : Option Opnd
  vector : Bool
  single : Bool
  logIx : Option Nat
  pc : DWord
  lanes : List LaneOp
  rest : Nat
  released : Bool
  written : Bool
  ackDie : Bool
  ackDev : Bool
  ackSys : Bool
  qual : Qual
  sampled : Bool
  born : Nat
  issued : Nat
  missed : List (Nat × Nat × Nat)
  waiting : Bool
  deriving DecidableEq, Repr

/-- One lane of a buffer access. -/
structure BufLane where
  lane : Nat
  off : Nat
  x : DWord
  done : Bool
  val : DWord
  mark : Bool
  deriving DecidableEq, Repr

/-- A buffer load or store from issue until it has performed at its banks (R225). -/
structure BufOp where
  id : Nat
  store : Bool
  k : LdKind
  width : Nat
  buf : Buf
  act : Lanes
  dst : Option Opnd
  vector : Bool
  lanes : List BufLane
  deriving DecidableEq, Repr

/-- A set instruction from issue until its engine has performed it (R275): the instruction, the lanes, the operand values
read at issue, the label and flag of then (R324), and the ranges of locations that `set.out` owns (R130). -/
structure SetOp where
  id : Nat
  instr : Instr
  act : Lanes
  keys : List (Nat × Word)
  ha : Word
  hb : Word
  hc : Word
  addr : DWord
  count : Word
  seq : Word
  label : Option (BitVec 16) × Bool
  owned : List (Nat × Nat)
  stamp : Nat
  held : Bool
  released : Bool
  deriving DecidableEq, Repr

/-- One lane of a walk (R108). -/
structure ChaseLane where
  lane : Nat
  p : DWord
  seed : Word
  limit : Nat
  hops : Nat
  status : Option Nat
  deriving DecidableEq, Repr

/-- A walk from issue until its destinations are written (R239). Mode 0 LINK, 1 INDEX, 2 SAMPLE. `touched` are the
addresses and lengths that its hops have read (R325); `waiting` as for a memory instruction. -/
structure Chase where
  id : Nat
  mode : Nat
  d : Nat
  act : Lanes
  base : DWord
  off : Word
  lanes : List ChaseLane
  touched : List (Nat × Nat)
  seq : Word
  label : Option (BitVec 16) × Bool
  held : Bool
  released : Bool
  sampled : Bool
  pc : DWord
  born : Nat
  waiting : Bool
  deriving DecidableEq, Repr

/-! ## Agents -/

/-- Where an agent stands (R9, R11). -/
structure Place where
  core : Nat
  part : Nat
  slot : Nat
  deriving DecidableEq, Repr

/-- Lanes parked together, with their wake conditions (R31, R210, R299, R300). `clocks` is the full count that a
restore starts again with (R211); `fired` says that a watched write has completed. -/
structure ParkGroup where
  id : Nat
  lanes : Lanes
  line : Option Nat
  bar : Option Nat
  clocks : Option Nat
  wakeAt : Option Nat
  target : Option Word
  fired : Bool
  deriving DecidableEq, Repr

/-- Why an agent offers no instruction after one has issued. -/
inductive Hold where
  | none
  /-- `grow` waits for registers (R214). -/
  | grow (n : Nat)
  /-- `waitc` (R242). -/
  | waitc (ld st tl : Nat)
  /-- `bar.wait` (R293). -/
  | barWait (hb : Nat)
  /-- `qstate` waits for older work (R297). -/
  | qstate
  /-- `gwait` in its `qstate` part, with its target (R299). -/
  | gwait (target : Word)
  /-- `fence` waits for its release or for its older loads (R121, R230). -/
  | fence (order : Order) (scope : Scope)
  /-- `fdefer` performs its release, then takes a latigo entry; `parked` while none is free: every unexited lane is then parked
  until one is (R300, log 112). -/
  | fdefer (addr : DWord) (len pool : Word) (released parked : Bool)
  /-- `set.free` waits for a latigo entry, every unexited lane parked (R278, log 112). -/
  | setFree
  /-- `task.push` waits for older buffer stores and for room in its queue (R216). -/
  | taskPush (prio off : Nat)
  /-- A slot held for a continuation: the record's number (R38). -/
  | held (record : Nat)
  /-- A `yield` with `sys.yreq` 1 (R58), and whether its quiescent point has performed. -/
  | yielded (quiet : Bool)
  /-- All lanes have ended (R209), and whether that has counted as a quiescent point. -/
  | ended (quiet : Bool)
  deriving DecidableEq, Repr

/-- A user trap cause that is pending (R304). -/
inductive Cause where
  | timer
  | chainovf (run : Bool) (creg : Nat)
  | trap (code : BitVec 16)
  deriving DecidableEq, Repr

/-- The trap frame TF (R304). -/
structure TrapFrame where
  pcs : KMap DWord
  parked : Lanes
  parks : List ParkGroup
  deriving DecidableEq, Repr

/-- A fault stop (R313 to R315). `deferred` is an answer by identity that waits for the restore. -/
structure Stop where
  code : Nat
  pc : DWord
  addr : DWord
  fetch : Bool
  wr : Bool
  lane : Nat
  logIx : Option Nat
  time : Nat
  recorded : Bool
  deferred : Option Nat
  deriving DecidableEq, Repr

/-- A continuation record (R38). -/
structure ContRec where
  id : Nat
  budget : Nat
  caller : Nat
  cont : DWord
  nsave : Nat
  scalars : KMap Word
  marks : BitVec 256
  preds : KMap Lanes
  lanes : Lanes
  others : Lanes
  pcs : KMap DWord
  join : Nat
  units : Nat
  flags : Word
  deriving DecidableEq, Repr

/-- A tensor bound to a tile handle (R257). -/
structure Tile where
  base : DWord
  rstride : Nat
  cstride : Nat
  trows : Nat
  tcols : Nat
  fmt : Nat
  deriving DecidableEq, Repr

/-- A chain context (R265). -/
structure ChainCtx where
  prog : DWord
  nsteps : Nat
  boff : Nat
  cap : Nat
  rows : Nat
  cols : Nat
  deriving DecidableEq, Repr

/-- Who an agent is: its tenant, gang, warp index and task serial (R314, R322), its root warp, the record that waits
for a task, and its place in the order of age (R33). -/
structure Ident where
  tenant : Nat
  gang : Nat
  widx : Nat
  tser : Nat
  root : Nat
  caller : Nat
  record : Nat
  born : Nat
  deriving DecidableEq, Repr

/-- The registers of a warp (R12) with their poison marks (R317). Unlisted registers read 0 unmarked. A vector register
is the list of its 32 lanes, lane 0 first. -/
structure Regs where
  alloc : Nat
  v : KMap (List Word)
  vMark : KMap Lanes
  s : KMap Word
  sMark : BitVec 256
  p : KMap Lanes
  deriving DecidableEq, Repr

/-- The lanes' control state (R30): PCs (unlisted: 0), lanes ended, lanes parked and their groups, and what the agent
waits for, with the lanes of the run that waits. `stall` marks an instruction that waits at issue; `waitSince` is when a
wait on a token or on a wait counter began (R34); `more` holds further pages' faults of a stopped agent (R316). -/
structure Ctl where
  pcs : KMap DWord
  ended : Lanes
  parked : Lanes
  parks : List ParkGroup
  hold : Hold
  waitRun : Lanes
  stall : Bool
  waitSince : Option Nat
  stop : Option Stop
  more : List Stop
  deriving DecidableEq, Repr

/-- The system registers (R200), the trap state (R304), the range labels (R308). -/
structure Sys where
  fpmode : Word
  fpflags : Word
  yreq : Bool
  tcmp : DWord
  tcause : Word
  thandler : DWord
  samp : Word
  sampCount : Nat
  causes : List Cause
  frame : Option TrapFrame
  labels : List (BitVec 16)
  excess : Nat
  lovf : Bool
  deriving DecidableEq, Repr

/-- The warp's engine-side state: bond registers and tile handles (R12), chain context (R265), whether one has been
accepted, cost counters (R285), command sequence number (R322), grace number (R296). Unlisted bond registers and
counters are 0, unlisted handles are unbound. -/
structure Eng where
  bd : KMap Word
  th : KMap Tile
  chain : Option ChainCtx
  chainAccepted : Bool
  cost : KMap Word
  seq : Word
  grace : Word
  deriving DecidableEq, Repr

/-- What an agent has in flight, in issue order, and the registers that wait for it. `tokens` are scalar registers whose
next read invalidates the L1 (R131), `gstarts` the `gstart`s on their way with their registers, and whether the release
has performed (R298). -/
structure Flight where
  nextOp : Nat
  ops : List MemOp
  bufOps : List BufOp
  setOps : List SetOp
  chases : List Chase
  pend : List (Opnd × Nat)
  tokens : List Nat
  gstarts : List (Nat × Nat × Bool)
  deriving DecidableEq, Repr

/-- A warp or a task. `place` is none while it is saved or waits in the task queue; until `frozen` a swap keeps it from
issuing (R34); `passed` counts how often it has been passed over: by TASK_START while it waits (R41), then the clocks for which
it has been ready and has not issued (R63); `slab` is the SLAB of its root warp's kernel. -/
structure Agent where
  ident : Ident
  place : Option Place
  active : Bool
  frozen : Nat
  task : Bool
  queued : Bool
  passed : Nat
  regs : Regs
  ctl : Ctl
  sys : Sys
  eng : Eng
  flight : Flight
  slab : Nat
  recs : List ContRec
  deriving DecidableEq, Repr

/-! ## Gangs -/

/-- What an entry header declares (R28). -/
structure Header where
  slab : Nat
  slots : Nat
  bars : Nat
  budget : Nat
  cbufk : Nat
  wbufk : Nat
  abufk : Nat
  tables : Nat
  arrays : Nat
  deriving DecidableEq, Repr

/-- A hardware barrier of a gang (R290). -/
structure Barrier where
  expect : Nat
  arrived : Nat
  phase : Nat
  acc : Word
  status : Word
  deriving DecidableEq, Repr

/-- What travels to a barrier from a core of its gang (R290 to R292). -/
inductive BarMsg where
  | arrive
  | orArrive (status : Word)
  | init (n : Nat)
  deriving DecidableEq, Repr

/-- A dependency slot (R248). -/
structure DepSlot where
  acc : Nat
  done : Nat
  deriving DecidableEq, Repr

/-- A plane of an array (R260): its weight format, rows of 64 elements of 16 bits, and poison marks by row. Unlisted
rows hold zeros. -/
structure Plane where
  fmt : Nat
  rows : KMap (BitVec 1024)
  marks : KMap (BitVec 64)
  deriving DecidableEq, Repr

/-- Where a gang is in its life. -/
inductive GangPhase where
  | running
  /-- Its agents have yielded or its deadline has passed; its save is under way (R58, R59, R320). -/
  | saving
  | saved
  | ended
  deriving DecidableEq, Repr

/-- A gang: its launch, its grants (R54), the contents of its windows and its synchronisation state. Keys: buffers by
`position × 2^24 + buffer × 2^20 + offset` (unlisted: 0), granule marks by that key over 32, slots by
`position × 16 + j`, tables by `position × 16 + j`, planes by `position × 8 + 2 × array + (0 active, 1 shadow)`, marks of
warps by `hb × 128 + widx`. -/
structure Gang where
  tenant : Nat
  launch : Nat
  index : Nat
  die : Nat
  prio : Nat
  tag : DWord
  rank : Nat
  warps : Nat
  header : Header
  cores : List Nat
  phase : GangPhase
  buf : KMap Byte
  bufMark : List Nat
  bars : KMap Barrier
  warpMarks : KMap Nat
  msgs : List (Nat × Nat × BarMsg)
  flips : List (Nat × Nat)
  slots : KMap DepSlot
  planes : KMap Plane
  tables : KMap (BitVec 256)
  deadline : Option Nat
  forcedAt : Option Nat
  savedAt : Nat
  savedReqs : List Nat
  spilled : Bool
  deriving DecidableEq, Repr

/-! ## Engine commands -/

/-- Where a copy takes its bytes and puts them (R232). -/
inductive CopyKind where
  | abuf | wbuf | out (cbuf : Bool) | mc
  /-- `copy.q`, with destination buffer, LB, RM, DT, ST and SCL of its descriptor (R235). -/
  | quant (wbuf : Bool) (lb rm dt st : Nat) (scl : DWord)
  deriving DecidableEq, Repr

/-- The transforms of R238. -/
inductive ToolKind where
  | xpose (z : Nat)
  | cvt (src dst rm : Nat)
  | quant (lb rm dt st : Nat) (scl : DWord)
  | zero
  | rsum (row : Nat)
  deriving DecidableEq, Repr

/-- An accepted copy (R232). `after` is its number in the agent's issue order, under which its token is pending.
`engine` is the copy engine it runs on, `stopped` says that a save has stopped it since its last chunk (R320); `owned` and
`written` are the ranges of locations it owns and has still to write, or has written and not yet released, `stamp` its
place in the order of ownership (R130). -/
structure Copy where
  id : Nat
  issuer : Ident
  agent : Nat
  gang : Nat
  pos : Nat
  kind : CopyKind
  qual : Qual
  buf : Nat
  glob : DWord
  bytes : Nat
  token : Nat
  after : Nat
  engine : Option Nat
  stopped : Bool
  chunk : Nat
  sat : Nat
  owned : List (Nat × Nat)
  written : List (Nat × Nat)
  stamp : Nat
  seq : Word
  label : Option (BitVec 16) × Bool
  cancel : Bool
  held : Bool
  released : Bool
  deriving DecidableEq, Repr

/-- An issued tooling command (R237). -/
structure Tool where
  id : Nat
  issuer : Ident
  agent : Nat
  gang : Nat
  pos : Nat
  kind : ToolKind
  buf : Buf
  off : Nat
  len : Nat
  token : Nat
  after : Nat
  stopped : Bool
  chunk : Nat
  sat : Nat
  seq : Word
  label : Option (BitVec 16) × Bool
  cancel : Bool
  held : Bool
  released : Bool
  deriving DecidableEq, Repr

/-- The class-3 commands, with the fields of their parameter blocks (R257 to R270). -/
inductive CmdKind where
  | ldst (arr woff wf : Nat) (use : Option (Nat × Nat × Nat)) (tbl : BitVec 128)
  | cbtload (tbl : Nat) (src : DWord)
  | mswap (arr : Nat)
  | mstream (arr aoff coff af k m astr : Nat) (use : Option (Nat × Nat × Nat))
  | mop (astg wstg coff wf af kl m nt kt wth ath atc atr wtc wtr : Nat)
  | mzero (coff len : Nat)
  | chainCfg (prog : DWord) (mode nsteps boff cap bc mb : Nat)
  | chainStep (index : Nat)
  | chainRun (first reg : Nat)
  deriving DecidableEq, Repr

/-- An accepted class-3 command (R247, R248), with its number `after` in the agent's issue order: its frame, the counts it
waits for, the handles and bond registers as they stood at acceptance, its status bits so far, for `chain.run` the step
it stands at, and KIDX of the last step record it has read (R268). `halted` says that nothing of it is left to do, `ended` that it waits only to be counted in its slot,
`stopped` that a save has stopped it between two steps (R254). -/
structure Cmd where
  id : Nat
  issuer : Ident
  agent : Nat
  gang : Nat
  pos : Nat
  kind : CmdKind
  frame : CmdFrame
  waits : List (Nat × Nat)
  bd : KMap Word
  tiles : List (Option Tile)
  seq : Word
  label : Option (BitVec 16) × Bool
  after : Nat
  started : Bool
  halted : Bool
  status : Word
  cursor : Nat
  kidx : Nat
  stopped : Bool
  ended : Bool
  held : Bool
  released : Bool
  deriving DecidableEq, Repr

/-! ## Caches and translation -/

/-- A line of an L1 data cache (R18): its way, its 64 bytes, byte 0 lowest, and the marks of its two granules. -/
structure L1Line where
  way : Nat
  data : BitVec 512
  marks : BitVec 2
  deriving DecidableEq, Repr

/-- A line of the L2 (R97, R98): valid and dirty sectors, CXL.cache ownership, and the coding of its page. -/
structure L2Line where
  valid : BitVec 8
  dirty : BitVec 8
  owned : Bool
  coded : Bool
  deriving DecidableEq, Repr

/-- A translation held in a TLB (R91): a leaf's page base, page size in bits, frame and attributes (R88). -/
structure TlbEntry where
  tenant : Nat
  base : Nat
  bits : Nat
  frame : Nat
  tier : Nat
  cached : Bool
  coded : Bool
  write : Bool
  fetch : Bool
  deriving DecidableEq, Repr

/-- A request to an HBM channel (R102). A read with `alloc` brings its sectors into an L2 line; `coded` is the CMP of the
page (R107). -/
structure HbmReq where
  id : Nat
  stack : Nat
  line : Nat
  mask : BitVec 8
  cls : Nat
  deadline : Option Nat
  req : Nat
  lu : Bool
  crd : Bool
  write : Bool
  alloc : Bool
  coded : Bool
  missed : Bool
  deriving DecidableEq, Repr

/-- A core: its L1 (unlisted lines absent, key location over 64), converted ways and their contents (key offset from
`0x4_0000`, unlisted 0), the instruction caches (key `partition × 2^60 + location / 128`), its L1 TLB, and the commands
it holds, in order of acceptance. -/
structure Core where
  l1 : KMap L1Line
  ways : Nat
  waysAsked : Nat
  converting : Bool
  wayMem : KMap Byte
  wayMark : List Nat
  icache : KMap (BitVec 1024)
  tlb : List TlbEntry
  copies : List Copy
  tools : List Tool
  cmds : List Cmd
  nextCmd : Nat
  deriving DecidableEq, Repr

/-! ## The dispatcher -/

/-- A launch record (R46) with the place it came in by. -/
structure LaunchRec where
  entry : DWord
  param : DWord
  gangs : Nat
  irq : Bool
  cores : Nat
  warps : Nat
  waitv : Word
  pgt : DWord
  done : DWord
  waita : DWord
  tag : DWord
  deriving DecidableEq, Repr

/-- How far the head record of a queue has come. -/
inductive HeadSt where
  | unchecked
  /-- Passed R47; the wait word is still to be met (R49). -/
  | waiting
  | eligible
  deriving DecidableEq, Repr

/-- One rank's share of a launch that this device runs (R56): its die, its first gang, its count, its core mask, the gangs
taken for admission, the indices that a drain has given back, and the gangs ended. -/
structure RankShare where
  die : Nat
  rank : Nat
  ranks : Nat
  first : Nat
  count : Nat
  mask : BitVec 40
  taken : Nat
  back : List Nat
  ended : Nat
  deriving DecidableEq, Repr

/-- A launch that has passed its checks, with the gangs committed. -/
structure Launch where
  tenant : Nat
  die : Nat
  prio : Nat
  record : LaunchRec
  header : Header
  shares : List RankShare
  committed : Nat
  dropped : Bool
  deriving DecidableEq, Repr

/-- A launch queue (R45): its records in order, and the head's state. -/
structure LaunchQ where
  recs : List LaunchRec
  head : HeadSt
  launch : Option Nat
  deriving DecidableEq, Repr

/-- What an admission unit is about (R51 to R53, R61). `replies` are the positions whose core has still to answer,
`places` the slots chosen for the gang's warps in order with the registers `allots` that each takes, `refusedAt` the clock of
the last refusal. -/
structure Admission where
  tenant : Nat
  launch : Nat
  rank : Nat
  index : Nat
  restore : Option Nat
  cores : List Nat
  places : List Place
  allots : List Nat
  replies : List Nat
  refused : Bool
  k : Nat
  retryAt : Option Nat
  refusedAt : Option Nat
  deriving DecidableEq, Repr

/-- A deferred return in a latigo queue (R278, R300). -/
inductive LatigoKind where
  | block (addr : DWord) (len pool : Nat)
  | setEntry (index : Nat) (payload : Nat) (cap : Nat)
  deriving DecidableEq, Repr

structure LatigoEntry where
  tenant : Nat
  target : Word
  kind : LatigoKind
  seq : Word
  deriving DecidableEq, Repr

/-- A completion that is still to be written (R48): the word, what is added and what is ORed; `launch` 0 is no launch that
ran. -/
structure Completion where
  tenant : Nat
  launch : Nat
  addr : DWord
  status : Nat
  count : Bool
  irq : Bool
  tag : DWord
  die : Nat
  deriving DecidableEq, Repr

/-- A compute die: LFSR (R53), admission units, latigo queue, L2 TLB, the tenant whose turn it is and the gangs it has
taken in it (R50). -/
structure Die where
  lfsr : BitVec 16
  units : KMap Admission
  latigo : List LatigoEntry
  tlb : List TlbEntry
  turn : Nat
  taken : Nat
  deriving DecidableEq, Repr

/-! ## Tenants and the device -/

/-- A report of code 12, 13 or 14 that waits for a fault-queue slot (R314); of code 12 the record as it was laid out when the
command was held. -/
structure Report where
  code : Nat
  laid : Option (List Byte)
  addr : DWord
  fetch : Bool
  wr : Bool
  lane : Nat
  seq : Word
  engine : Nat
  tag : DWord
  time : Nat
  deriving DecidableEq, Repr

/-- The events of a trace record (R324). -/
inductive TraceEv where
  | start | finish | stop | resume
  deriving DecidableEq, Repr

/-- A trace record (R324): the time base, the tenant and the warp identity of R314, the command's number and engine, the
event, the end status, the issuer's label and flag as they stood at issue, and KIDX of a chain step (R268). -/
structure TraceRec where
  time : Nat
  tenant : Nat
  gang : Nat
  widx : Nat
  tser : Nat
  seq : Word
  engine : Nat
  event : TraceEv
  status : Nat
  label : Nat
  lovf : Bool
  kidx : Nat
  deriving DecidableEq, Repr

/-- A tenant: its registers (key offset in the tenant block, unlisted: the reset value of R351), grace numbers (R296),
launch queues (key `die × 4 + priority`), free blocks of the set heap (R113) as base and length, its pre-emption state,
pending reports, records of faults that are kept for a slot of the fault queue with their times and, where a saved agent still
waits for it, that agent (R314), the targets of
its `gstart`s with their start, and the reports of the stall check (R302), invalidations in order (R353), the load in
progress (R355), the function and operation that the translator last found at fault (R345), the MSI-X vectors raised in order (R354), the write indices and drops of its rings (R351), the trace
records by slot of their ring (R324), and the UCIe modules and ports that its capability list names (R310). -/
structure Tenant where
  regs : KMap DWord
  issued : Word
  doneT : Word
  queues : KMap LaunchQ
  heap : List (Nat × Nat)
  draining : Bool
  saved : Bool
  resetting : Bool
  qerr : Bool
  linkerr : Bool
  reports : List Report
  records : List (Nat × Option Nat × List Byte)
  stalls : List (Word × Nat)
  stallReports : List (Word × Option (Ident × Option Place))
  invs : List (Nat × Nat)
  load : Option DWord
  loadCode : Nat
  irFault : Option (Nat × Nat)
  irqs : List Nat
  traceIx : Nat
  traceDrops : Word
  sampIx : Nat
  sampDrops : Word
  traces : KMap TraceRec
  capModules : BitVec 4
  capPorts : BitVec 18
  deriving DecidableEq, Repr

/-- A translation kept in the protected cache (R345): the digest of its IR, the translator version, the object's SVN, the
native code, and the signature of the device key. -/
structure Translation where
  digest : BitVec 512
  version : Nat
  svn : Nat
  code : List Byte
  sig : List Byte
  deriving DecidableEq, Repr

/-- The device block (R349) and the units behind it: registers (unlisted: the reset value), missed-deadline counters
(key REQ, unlisted 0), `SLI_CFG` changes in progress (stack to new RATIO), die clocks in MHz and limiter steps, the fuse
counter, the attestation, the translation cache, UCIe modules trained, ports in service, firmware verified, the number of
the boot, the digests of its six images that ran (R359; none: the firmware as shipped), the IR minor and translator version of its
firmware (R340), and the granules
marked in SRAMs whose contents no access reads under a mark (R317). -/
structure Device where
  regs : KMap DWord
  missed : KMap Word
  sliBusy : KMap Nat
  clocks : KMap Nat
  steps : KMap Nat
  fuses : Nat
  fuseBusy : Bool
  attBusy : Bool
  transl : List Translation
  modules : BitVec 4
  ports : BitVec 18
  verified : Bool
  power : KMap Nat
  boot : Nat
  measured : Option (List (Option (BitVec 512)))
  irMinor : Nat
  translator : Nat
  sramMarks : List (Sram × Nat)
  deriving DecidableEq, Repr

/-- A choice that timing makes in the part, or that the outside world makes: a step comes about, an agent issues, or the
clock goes on while steps are still to come. -/
inductive Choice where
  | step (i : Instr)
  | turn (agent : Nat)
  | clock
  deriving DecidableEq, Repr

/-- An instruction that has issued: its agent, partition and pipe (R33), the clock in which it did, and the clock up to
which it occupies the pipe (R11). -/
structure Issued where
  agent : Nat
  core : Nat
  part : Nat
  pipe : Nat
  clk : Nat
  till : Nat
  deriving DecidableEq, Repr

/-- The whole part. `mem` is memory by location (unlisted: 0), `memMark` its marked granules, `l2` the L2 lines by
location over 256 (unlisted: absent), `coded` the granules the base dies hold coded (R107). `cur` is the agent whose
instruction issues; `agenda` the choices made of what comes next; `clock` what has issued
in this clock or still occupies its pipe; `free` counts the values the manual leaves open; `nextKey`
names new agents, gangs and launches, `sent` numbers the requests that leave a core, `banks` are the banks at which a
buffer load or store has performed in this clock, by core and number (R17), and `linkLost` says that the link will not deliver
the next access to a peer that a unit makes or a fetch (R357). -/
structure State where
  time : Nat
  cur : Option Nat
  agenda : List Choice
  clock : List Issued
  banks : List (Nat × Nat)
  linkLost : Bool
  free : Nat
  nextKey : Nat
  sent : Nat
  mem : List Host.Cell
  memMark : List Nat
  coded : List Nat
  l2 : KMap L2Line
  fills : List (Nat × BitVec 8 × Bool)
  hbm : List HbmReq
  rows : KMap Nat
  cores : KMap Core
  dies : KMap Die
  agents : KMap Agent
  gangs : KMap Gang
  launches : KMap Launch
  completions : List Completion
  tenants : KMap Tenant
  device : Device
  deriving DecidableEq, Repr

/-- A core after reset (R20, R240): caches empty, no way converted, no command. -/
def Core.reset : Core :=
  { l1 := [], ways := 0, waysAsked := 0, converting := false, wayMem := [], wayMark := [], icache := [], tlb := [],
    copies := [], tools := [], cmds := [], nextCmd := 1 }

/-- A die after reset: the LFSR at its seed (R53), nothing under way. -/
def Die.reset : Die := { lfsr := 0xACE1#16, units := [], latigo := [], tlb := [], turn := 0, taken := 0 }

/-- A tenant after reset: every register at its reset value, no context (R351, R352). -/
def Tenant.reset : Tenant :=
  { regs := [], issued := 0#32, doneT := 0#32, queues := [], heap := [], draining := false, saved := false,
    resetting := false, qerr := false, linkerr := false, reports := [], records := [], stalls := [], stallReports := [],
    invs := [], load := none, loadCode := 0, irFault := none, irqs := [], traceIx := 0, traceDrops := 0#32, sampIx := 0,
    sampDrops := 0#32, traces := [], capModules := 0xF#4, capPorts := 0x3FFFF#18 }

/-- The device after reset (R349): every module trained, every port in service, the firmware verified (log 7), the IR
minor and translator version as shipped (R340). -/
def Device.reset : Device :=
  { regs := [], missed := [], sliBusy := [], clocks := [], steps := [], fuses := 0, fuseBusy := false, attBusy := false,
    transl := [], modules := 0xF#4, ports := 0x3FFFF#18, verified := true, power := [], boot := 0, measured := none,
    irMinor := 2, translator := 1, sramMarks := [] }

/-- The part right after device reset: the time base at 0 (R309), no context, no work, memory with nothing listed. -/
def State.reset : State :=
  { time := 0, cur := none, agenda := [], clock := [], banks := [], linkLost := false, free := 0, nextKey := 1, sent := 0, mem := [], memMark := [], coded := [], l2 := [],
    fills := [], hbm := [], rows := [], cores := [], dies := [], agents := [], gangs := [], launches := [],
    completions := [], tenants := [], device := Device.reset }

end Sys2Proof.Machine
end

