-- ==== Sys2Proof/Machine/Ops.lean ====
section
/-! DEFINITION. The named operations over memory, registers, agents, gangs and tenants, and the two ways an agent leaves
its code: a fault stop (R311, R313) and a user trap (R304), with the return from the latter (R306). -/

namespace Sys2Proof.Machine

/-! ## Lanes and sets of numbers -/

/-- The lanes for which the test holds. -/
def maskOf (f : Nat → Bool) : Lanes := BitVec.ofFnLE (fun i : Fin 32 => f i.val)

/-- The lanes of a mask in ascending order. -/
def lanesOf (m : Lanes) : List Nat := (List.range 32).filter m.getLsbD

/-- The lowest lane of a mask; 0 of an empty one. -/
def lowLane (m : Lanes) : Nat := ((lanesOf m).head?).getD 0

/-- Bit i of a word set to b. -/
def setBit {w : Nat} (x : BitVec w) (i : Nat) (b : Bool) : BitVec w :=
  if b then x ||| (1#w <<< i) else x &&& ~~~(1#w <<< i)

/-- A rising list of numbers as a set. -/
def nins (k : Nat) : List Nat → List Nat
  | [] => [k]
  | x :: t => if k < x then k :: x :: t else if k = x then x :: t else x :: nins k t

def ndel (k : Nat) : List Nat → List Nat
  | [] => []
  | x :: t => if x = k then ndel k t else x :: ndel k t

def nhas (l : List Nat) (k : Nat) : Bool := l.any (fun x => x == k)

/-! ## Physical memory (R89, R90) -/

/-- The location of a device HBM byte whose die-local address is pa. -/
def hbmKey (pa : Nat) : Nat := pa

/-- Striped addresses become die-local ones before any other computation (R90). -/
def dieLocal (pa : Nat) : Nat :=
  if 549755813888 ≤ pa ∧ pa < 1099511627776 then
    let x := pa - 549755813888
    x / 4096 % 8 * 68719476736 + (x / 32768 * 4096 + x % 4096)
  else pa

/-- Backed bytes of a stack: 64 × 10^9 (R89, R340). -/
def stackBytes : Nat := 64000000000

/-- A die-local address lies in a backed part of a stack (R89). -/
def hbmBacked (pa : Nat) : Bool := decide (pa < 549755813888) && decide (pa % 68719476736 < stackBytes)

/-- A device physical address as a location, if the package has memory there (R89, R90). -/
def devKey (pa : Nat) : Option Nat :=
  let k := dieLocal pa
  if pa < 1099511627776 && hbmBacked k then some k else none

/-- Host memory and peer memory have locations of their own. -/
def hostKey (pa : Nat) : Nat := 18446744073709551616 + pa
def peerKey (dev pa : Nat) : Nat := 36893488147419103232 + dev * 281474976710656 + pa

/-- A location of device HBM. -/
def isHbm (key : Nat) : Bool := decide (key < 549755813888)

/-- The home die of a device HBM location (R8). -/
def homeDie (key : Nat) : Nat := key / 137438953472

/-- The exclusive-or of the 5-bit groups of a line number (R21). -/
def foldGroups : Nat → Nat → Nat
  | 0, _ => 0
  | k + 1, l => l % 32 ^^^ foldGroups k (l / 32)

/-- The home slice of a location within its die (R21). -/
def homeSlice (key : Nat) : Nat := foldGroups 12 (key / 256)

/-- The byte at a location; an unlisted one reads 0 (log 2). -/
def State.byte (s : State) (key : Nat) : Byte := kgetD 0#8 s.mem key

/-- So many bytes from a location on, lowest first. -/
def State.bytes (s : State) (key : Nat) : Nat → List Byte
  | 0 => []
  | n + 1 => s.byte key :: s.bytes (key + 1) n

/-- The little-endian value of bytes (R69). -/
def leVal : List Byte → Nat
  | [] => 0
  | b :: t => b.toNat + 256 * leVal t

/-- So many little-endian bytes of a value. -/
def leBytes : Nat → Nat → List Byte
  | 0, _ => []
  | n + 1, v => BitVec.ofNat 8 (v % 256) :: leBytes n (v / 256)

def State.le (s : State) (key n : Nat) : Nat := leVal (s.bytes key n)

/-- The byte at a device physical address; where the package has no memory it is free (R89, log 11). -/
def State.devByte (s : State) (pa : Nat) : Byte :=
  match devKey pa with
  | some k => s.byte k
  | none => Config.unbackedByte pa

/-- So many bytes at a device physical address, little-endian. -/
def State.devLe (s : State) (pa n : Nat) : Nat := leVal ((List.range n).map fun i => s.devByte (pa + i))

/-- One byte written; memory keeps its form. -/
def memPut (m : List Host.Cell) (key : Nat) (b : Byte) : List Host.Cell := ksetD 0#8 m key b

/-- Bytes written at their locations, in order. -/
def memPuts (m : List Host.Cell) : List (Nat × Byte) → List Host.Cell
  | [] => m
  | (k, b) :: t => memPuts (memPut m k b) t

/-- Bytes at successive locations. -/
def cellsAt (key : Nat) : List Byte → List (Nat × Byte)
  | [] => []
  | b :: t => (key, b) :: cellsAt (key + 1) t

/-- The granules of these cells that the cells cover whole (R317). -/
def wholeGranules (cells : List (Nat × Byte)) : List Nat :=
  ((cells.map (fun c => c.1 / 32)).eraseDups).filter fun g =>
    (List.range 32).all fun i => cells.any (fun c => c.1 == 32 * g + i)

/-- One write of bytes: the bytes, and the marks of the granules it covers whole are cleared (R317). -/
def State.write (s : State) (cells : List (Nat × Byte)) : State :=
  { s with mem := memPuts s.mem cells, memMark := (wholeGranules cells).foldl (fun m g => ndel g m) s.memMark }

/-- One write of bytes at device physical addresses; where the package has no memory nothing is kept (R89, log 11). -/
def State.devWrite (s : State) (pa : Nat) (bs : List Byte) : State :=
  s.write ((bs.zipIdx).filterMap fun e => (devKey (pa + e.2)).map fun k => (k, e.1))

/-- A granule that these bytes touch is marked (R317). -/
def State.marked (s : State) (key n : Nat) : Bool :=
  (List.range (n + 31)).any fun i => i < n && nhas s.memMark ((key + i) / 32)

/-- A granule marked. -/
def State.markGranule (s : State) (g : Nat) : State := { s with memMark := nins g s.memMark }

/-! ## Cores, dies, agents, gangs, tenants -/

def State.core (s : State) (c : Nat) : Core := kgetD Core.reset s.cores c
def State.setCore (s : State) (c : Nat) (x : Core) : State := { s with cores := ksetD Core.reset s.cores c x }
def State.modCore (s : State) (c : Nat) (f : Core → Core) : State := s.setCore c (f (s.core c))

def State.die (s : State) (d : Nat) : Die := kgetD Die.reset s.dies d
def State.setDie (s : State) (d : Nat) (x : Die) : State := { s with dies := ksetD Die.reset s.dies d x }
def State.modDie (s : State) (d : Nat) (f : Die → Die) : State := s.setDie d (f (s.die d))

def State.tenant (s : State) (t : Nat) : Tenant := kgetD Tenant.reset s.tenants t
def State.setTenant (s : State) (t : Nat) (x : Tenant) : State := { s with tenants := ksetD Tenant.reset s.tenants t x }
def State.modTenant (s : State) (t : Nat) (f : Tenant → Tenant) : State := s.setTenant t (f (s.tenant t))

def State.agent? (s : State) (a : Nat) : Option Agent := kget s.agents a
def State.setAgent (s : State) (a : Nat) (x : Agent) : State := { s with agents := kput s.agents a x }
def State.modAgent (s : State) (a : Nat) (f : Agent → Agent) : State := { s with agents := kmod s.agents a f }
def State.delAgent (s : State) (a : Nat) : State := { s with agents := kdel s.agents a }

def State.gang? (s : State) (g : Nat) : Option Gang := kget s.gangs g
def State.setGang (s : State) (g : Nat) (x : Gang) : State := { s with gangs := kput s.gangs g x }
def State.modGang (s : State) (g : Nat) (f : Gang → Gang) : State := { s with gangs := kmod s.gangs g f }

/-- A free value is taken: the count advances (log 4). -/
def State.tick (s : State) : State := { s with free := s.free + 1 }

/-- The gang of an agent. -/
def State.gangOf (s : State) (x : Agent) : Option Gang := s.gang? x.ident.gang

/-- The position of a core in its gang (R10); 0 where it is not of the gang. -/
def Gang.posOf (g : Gang) (core : Nat) : Nat := (g.cores.findIdx? (fun c => c == core)).getD 0

/-- The core position at which an agent stands; 0 while it has no place. -/
def State.posOf (s : State) (x : Agent) : Nat :=
  match s.gangOf x, x.place with
  | some g, some p => g.posOf p.core
  | _, _ => 0

/-- The core an agent stands on; 0 while it has no place. -/
def Agent.core (x : Agent) : Nat := (x.place.map Place.core).getD 0

/-- The die of a core (R9). -/
def dieOfCore (c : Nat) : Nat := c / 40

def Agent.die (x : Agent) : Nat := dieOfCore x.core

/-! ## The PC table (R30) -/

def Ctl.pc (c : Ctl) (l : Nat) : DWord := kgetD 0#64 c.pcs l

/-- The lanes that have neither ended nor parked. -/
def Ctl.running (c : Ctl) : Lanes := ~~~(c.ended ||| c.parked)

/-- The lowest PC among these lanes. -/
def lowestPc (c : Ctl) : List Nat → Option Nat
  | [] => none
  | l :: t =>
    match lowestPc c t with
    | none => some (c.pc l).toNat
    | some m => some (min (c.pc l).toNat m)

/-- The head run: the running lanes at the lowest PC, with that PC (R30). -/
def Ctl.headRun (c : Ctl) : Option (DWord × Lanes) :=
  (lowestPc c (lanesOf c.running)).map fun m =>
    (BitVec.ofNat 64 m, maskOf fun l => c.running.getLsbD l && (c.pc l).toNat == m)

/-- The lanes of the mask moved to the PCs given. -/
def setPcs (f : Nat → DWord) : List Nat → KMap DWord → KMap DWord
  | [], m => m
  | l :: t, m => setPcs f t (ksetD 0#64 m l (f l))

def Ctl.move (c : Ctl) (m : Lanes) (f : Nat → DWord) : Ctl := { c with pcs := setPcs f (lanesOf m) c.pcs }

/-- The lanes of the mask advance by n bytes. -/
def Ctl.advance (c : Ctl) (m : Lanes) (n : Nat) : Ctl := c.move m (fun l => c.pc l + BitVec.ofNat 64 n)

/-- Every unexited lane. -/
def Ctl.unexited (c : Ctl) : Lanes := ~~~c.ended

/-! ## Registers (R12, R68, R317) -/

/-- Lane l of vector register n. -/
def Regs.vlane (r : Regs) (n l : Nat) : Word := (kgetD [] r.v n).getD l 0#32

/-- A register's lanes as they are listed: all zero is unlisted. -/
def packLanes (f : Nat → Word) : List Word :=
  let l := (List.range 32).map f
  if l.all (fun w => w == 0#32) then [] else l

/-- The lanes of the mask of register n written, with their marks. -/
def Regs.setV (r : Regs) (n : Nat) (m : Lanes) (f : Nat → Word) (marks : Lanes) : Regs :=
  { r with
    v := ksetD [] r.v n (packLanes fun l => if m.getLsbD l then f l else r.vlane n l)
    vMark := ksetD 0#32 r.vMark n ((kgetD 0#32 r.vMark n &&& ~~~m) ||| (marks &&& m)) }

def Regs.sreg (r : Regs) (n : Nat) : Word := kgetD 0#32 r.s n

/-- Scalar register n written, with its mark. -/
def Regs.setS (r : Regs) (n : Nat) (w : Word) (mark : Bool) : Regs :=
  { r with s := ksetD 0#32 r.s n w, sMark := setBit r.sMark n mark }

def Regs.pred (r : Regs) (n : Nat) : Lanes := kgetD 0#32 r.p n

/-- The lanes of the mask of predicate n written. -/
def Regs.setP (r : Regs) (n : Nat) (m : Lanes) (f : Nat → Bool) : Regs :=
  { r with p := ksetD 0#32 r.p n ((r.pred n &&& ~~~m) ||| (maskOf f &&& m)) }

/-- A 32- or 64-bit scalar value written; a pair holds bits 31:0 in its even register (R68). -/
def Regs.setS64 (r : Regs) (n : Nat) (wide : Bool) (v : DWord) (mark : Bool) : Regs :=
  let r1 := r.setS n (v.setWidth 32) mark
  if wide then r1.setS (n + 1) ((v >>> 32).setWidth 32) mark else r1

/-- A 32- or 64-bit value written to the lanes of the mask. -/
def Regs.setV64 (r : Regs) (n : Nat) (wide : Bool) (m : Lanes) (f : Nat → DWord) (marks : Lanes) : Regs :=
  let r1 := r.setV n m (fun l => (f l).setWidth 32) marks
  if wide then r1.setV (n + 1) m (fun l => ((f l) >>> 32).setWidth 32) marks else r1

/-- A scalar pair's 64 bits (R68). -/
def Regs.spair (r : Regs) (n : Nat) : DWord := (r.sreg (n + 1)) ++ (r.sreg n)

/-- A vector pair's 64 bits in a lane (R68). -/
def Regs.vpair (r : Regs) (n l : Nat) : DWord := (r.vlane (n + 1) l) ++ (r.vlane n l)

/-! ## Updates of an agent's parts -/

def Agent.mapCtl (f : Ctl → Ctl) (x : Agent) : Agent := { x with ctl := f x.ctl }
def Agent.mapRegs (f : Regs → Regs) (x : Agent) : Agent := { x with regs := f x.regs }
def Agent.mapSys (f : Sys → Sys) (x : Agent) : Agent := { x with sys := f x.sys }
def Agent.mapEng (f : Eng → Eng) (x : Agent) : Agent := { x with eng := f x.eng }
def Agent.mapFlight (f : Flight → Flight) (x : Agent) : Agent := { x with flight := f x.flight }

/-! ## Taking a fault (R311, R313) -/

/-- The agent stops precisely with a fault of this code: its registers, PCs and log stand as they are, and the record is
left to FAULT_RECORD (R314). -/
def State.takeFault (s : State) (a code : Nat) (pc addr : DWord) (fetch wr : Bool) (lane : Nat) (logIx : Option Nat) :
    State :=
  s.modAgent a (Agent.mapCtl fun c =>
    { c with stop := some { code := code, pc := pc, addr := addr, fetch := fetch, wr := wr, lane := lane, logIx := logIx,
                            time := s.time, recorded := false, deferred := none } })

def codeTranslation : Nat := 1
def codeProtection : Nat := 2
def codeMisaligned : Nat := 3
def codeIll : Nat := 4
def codeIllop : Nat := 5
def codeRegb : Nat := 6
def codeBarctx : Nat := 7
def codeSlab : Nat := 8
def codePoison : Nat := 9
def codeTrap : Nat := 10
def codeBreak : Nat := 11
def codeEngBreak : Nat := 12
def codeLatigo : Nat := 13
def codeDispatch : Nat := 14

/-! ## User traps (R303 to R306) -/

/-- `sys.tcause` for a cause (R303), with IN as given. -/
def Cause.word (c : Cause) (inHandler : Bool) : Word :=
  let i := if inHandler then 0x40#32 else 0#32
  match c with
  | .timer => 1#32 ||| i
  | .chainovf run creg => 2#32 ||| i ||| (if run then 0x80#32 else 0#32) ||| (BitVec.ofNat 32 (creg % 256 * 256))
  | .trap code => 3#32 ||| i ||| (code.setWidth 32 <<< 16)

/-- IN of `sys.tcause` (R303). -/
def Sys.inHandler (y : Sys) : Bool := y.tcause.getLsbD 6

/-- `sys.tcmp` after a TIMER has been taken or delivered. -/
def Cause.tcmp (c : Cause) (old : DWord) : DWord :=
  match c with
  | .timer => 0xFFFFFFFFFFFFFFFF#64
  | _ => old

/-- Entry to the agent's handler (R304): the frame takes the PC table with its park bits, every unexited lane goes to the
handler unparked, `sys.tcause` takes the cause with IN 1. -/
def Agent.enterHandler (c : Cause) (x : Agent) : Agent :=
  { x with
    ctl := { (x.ctl.move x.ctl.unexited fun _ => x.sys.thandler) with parked := 0#32, parks := [] }
    sys := { x.sys with
      frame := some { pcs := x.ctl.pcs, parked := x.ctl.parked, parks := x.ctl.parks }
      tcause := c.word true
      tcmp := c.tcmp x.sys.tcmp } }

/-- A user trap is taken (R304): at the handler where it can be fetched, else delivered to the host as code 10 with the PC
table and IN unchanged. -/
def State.takeTrap (s : State) (a : Nat) (c : Cause) (fetchable : Bool) (pc : DWord) : State :=
  match s.agent? a with
  | none => s
  | some x =>
    if x.sys.thandler ≠ 0#64 ∧ fetchable then s.setAgent a (x.enterHandler c)
    else
      (s.setAgent a (x.mapSys fun y => { y with tcause := c.word y.inHandler, tcmp := c.tcmp y.tcmp })).takeFault a
        codeTrap pc 0#64 false false 0 none

/-- The return from a handler (R306): the PC table of the frame, lanes that ended in the handler stay ended, IN 0. -/
def Agent.leaveHandler (x : Agent) : Agent :=
  match x.sys.frame with
  | none => x
  | some f =>
    { x with
      ctl := { x.ctl with pcs := f.pcs, parked := f.parked, parks := f.parks }
      sys := { x.sys with frame := none, tcause := x.sys.tcause &&& ~~~(0x40#32) } }

/-! ## Waking parked lanes (R31) -/

/-- The park groups that do not meet the test, and the lanes of those that do. -/
def dropGroups (test : ParkGroup → Bool) (gs : List ParkGroup) : List ParkGroup × Lanes :=
  (gs.filter (fun g => !test g), (gs.filter test).foldl (fun m g => m ||| g.lanes) 0#32)

/-- The groups that meet the test are released, those of a trap frame included, where the release counts as a wake with
no write (R306). -/
def Agent.wake (test : ParkGroup → Bool) (x : Agent) : Agent :=
  let (ps, m) := dropGroups test x.ctl.parks
  { x with
    ctl := { x.ctl with parks := ps, parked := x.ctl.parked &&& ~~~m }
    sys := { x.sys with
      frame := x.sys.frame.map fun f =>
        let (qs, n) := dropGroups test f.parks
        { f with parks := qs, parked := f.parked &&& ~~~n } } }

/-- Every agent of a list passes through f. -/
def kmap {V : Type} (f : V → V) (m : KMap V) : KMap V := m.map fun e => (e.1, f e.2)

/-- The park groups of an agent changed, those of a trap frame included. -/
def Agent.mapParks (f : ParkGroup → ParkGroup) (x : Agent) : Agent :=
  { x with
    ctl := { x.ctl with parks := x.ctl.parks.map f }
    sys := { x.sys with frame := x.sys.frame.map fun t => { t with parks := t.parks.map f } } }

/-- A write completed at the home of these 64-byte lines (R31): the groups that watch one of them are to wake. -/
def State.wakeLines (s : State) (lines : List Nat) : State :=
  let fire : ParkGroup → ParkGroup := fun g =>
    if (g.line.map fun l => lines.any fun y => y == l).getD false then { g with fired := true } else g
  { s with agents := kmap (Agent.mapParks fire) s.agents }

/-! ## Outstanding work of an agent (R100, R120, R220) -/

/-- Lanes of a memory instruction that are still recorded or under way. -/
def MemOp.open (o : MemOp) : Bool :=
  o.lanes.any fun l => match l.st with | .done | .dropped => false | _ => true

/-- The instruction writes global memory and so counts among the unacknowledged stores (R120). -/
def MemOp.isStore (o : MemOp) : Bool :=
  match o.kind with
  | .load _ => false
  | _ => true

/-- The instruction has a register result. -/
def MemOp.returns (o : MemOp) : Bool := o.dst.isSome

/-- The entry of the operand log is in use (R220): a part is not yet translated and permitted, or a result is not yet
written. -/
def MemOp.logged (o : MemOp) : Bool :=
  o.lanes.any (fun l => match l.st with | .fresh | .faulted _ => true | _ => false) || (o.returns && !o.written)

/-- Every old value of a `red.ret` has gone to its target, but for discarded lanes (R229). -/
def MemOp.allBack (o : MemOp) : Bool :=
  match o.kind with
  | .redRet _ _ => o.lanes.all fun l => l.back || l.st == .dropped
  | _ => true

/-- The instruction has nothing outstanding any more. -/
def MemOp.finished (o : MemOp) : Bool :=
  !o.open && o.allBack && (!o.returns || o.written) && (!o.isStore || (o.ackDie && o.ackDev && o.ackSys)) && o.rest == 0

/-- The count of stores unacknowledged at a scope is zero among the instructions older than `before` (R120); core scope
uses the die count. -/
def storesAcked (sc : Scope) (before : Nat) (ops : List MemOp) : Bool :=
  ops.all fun o => o.id ≥ before || !o.isStore ||
    (match sc with
     | .core | .die => o.ackDie
     | .device => o.ackDev
     | .system => o.ackSys)

/-- A scope that reaches beyond the die. -/
def Scope.pastDie : Scope → Bool
  | .device => true
  | .system => true
  | _ => false

/-- Every load and atomic among the instructions older than `before` has performed. -/
def loadsDone (before : Nat) (ops : List MemOp) : Bool :=
  ops.all fun o => o.id ≥ before ||
    (match o.kind with
     | .store => true
     | .flush => true
     | _ => o.lanes.all fun l => match l.st with | .drained => true | .done => true | .dropped => true | _ => false)

/-- What a release of an agent waits for in the agent's own older work: its writes acknowledged at the scope and its buffer
stores performed (R121), its loads performed, since they happen before the release (R123), and its set instructions complete
(R275). -/
def Flight.releaseReady (f : Flight) (sc : Scope) (before : Nat) : Bool :=
  storesAcked sc before f.ops && loadsDone before f.ops &&
  f.bufOps.all (fun b => decide (b.id ≥ before) || !b.store) && f.setOps.all fun o => decide (o.id ≥ before)

/-- Buffer loads and stores outstanding (R100). -/
def ldbCount (f : Flight) : Nat := (f.bufOps.filter fun b => !b.store).length
def stbCount (f : Flight) : Nat := (f.bufOps.filter fun b => b.store).length

/-- The tooling commands of an agent outstanding (R100). -/
def State.toolCount (s : State) (a : Nat) (core : Nat) : Nat := ((s.core core).tools.filter fun t => t.agent == a).length

/-- The free numbers of the operand log (R220). -/
def logFree (f : Flight) : Option Nat :=
  (List.range 16).find? fun i => !(f.ops.any fun o => o.logged && o.logIx == some i)

/-- Every older load and store has performed and every set instruction completed (R134, R275). -/
def Flight.quiet (f : Flight) : Bool :=
  f.ops.all (fun o => !o.open && (!o.returns || o.written)) && f.bufOps.isEmpty && f.setOps.isEmpty && f.chases.isEmpty

/-! ## MSI-X and reports (R314, R354) -/

def State.irq (s : State) (t v : Nat) : State := s.modTenant t fun x => { x with irqs := x.irqs ++ [v] }

/-- QERR becomes 1 and raises vector 3 (R45, R354). -/
def State.queueError (s : State) (t : Nat) : State :=
  if (s.tenant t).qerr then s else (s.modTenant t fun x => { x with qerr := true }).irq t 3

/-- LINKERR becomes 1 and raises vector 3 (R357, R354). -/
def State.linkError (s : State) (t : Nat) : State :=
  if (s.tenant t).linkerr then s else (s.modTenant t fun x => { x with linkerr := true }).irq t 3

/-- The link does not deliver this access to a peer (R357). -/
def State.loses (s : State) (x : Xlat) : Bool := s.linkLost && x.tier == 3

/-- An access of the tenant has been lost on the link, which brings LINKERR, with n values that are free (R357, log 24). -/
def State.linkGone (s : State) (t n : Nat) : State := { s with linkLost := false, free := s.free + n }.linkError t

/-- Free bytes, for what the manual leaves open. -/
def freeBytes (k : Nat) : Nat → List Byte
  | 0 => []
  | n + 1 => Config.freeByte (k + n) :: freeBytes k n

/-- A report of code 13 or 14 is held until a slot of the fault queue is free (R314). -/
def State.report (s : State) (t : Nat) (r : Report) : State :=
  s.modTenant t fun x => { x with reports := x.reports ++ [r] }

/-- The reset value of a register of the tenant block (R351). -/
def tenantResetReg (off : Nat) : DWord :=
  if off = 0x58 then 0x1FFF01#64 else if off = 0x60 then 0x00C800C800C800C8#64 else 0#64

/-- A register of the tenant block (R351). -/
def Tenant.reg (x : Tenant) (off : Nat) : DWord := kgetD (tenantResetReg off) x.regs off

def Tenant.setReg (x : Tenant) (off : Nat) (v : DWord) : Tenant :=
  { x with regs := ksetD (tenantResetReg off) x.regs off v }

/-- `CTX_CTL.EN` (R352). -/
def Tenant.enabled (x : Tenant) : Bool := (x.reg 0).getLsbD 0

/-! ## Grace numbers (R296) -/

/-- x is at or after y (R296). -/
def atOrAfter (x y : Word) : Bool := decide ((x - y).toNat < 2147483648)

/-- A quiescent point performs: the agent's number becomes ISSUED (R296). -/
def State.quiesce (s : State) (a : Nat) : State :=
  match s.agent? a with
  | none => s
  | some x => s.modAgent a (Agent.mapEng fun e => { e with grace := (s.tenant x.ident.tenant).issued })

/-! ## The L1 (R94, R95) -/

/-- Every line of a core's L1 is invalidated; converted ways are not (R95). -/
def State.invalL1 (s : State) (c : Nat) : State := s.modCore c fun x => { x with l1 := [] }

/-- The instruction caches of all eight partitions of a core are invalidated (R243). -/
def State.invalIcache (s : State) (c : Nat) : State := s.modCore c fun x => { x with icache := [] }

/-- Every agent may try again what waited at issue. -/
def State.unstall (s : State) : State :=
  { s with agents := kmap (Agent.mapCtl fun c => { c with stall := false }) s.agents }

end Sys2Proof.Machine
end

