-- ==== Sys2Proof/Machine/Barriers.lean ====
section
/-! DEFINITION. The barriers of a gang: their state, and what a message does at one (R290 to R292). -/

namespace Sys2Proof.Machine

/-- A barrier's state; before any arrival it expects the gang's warps (R290). -/
def Gang.barrier (g : Gang) (hb : Nat) : Barrier := kgetD ⟨g.warps, 0, 0, 0#32, 0#32⟩ g.bars hb

def Gang.setBarrier (g : Gang) (hb : Nat) (b : Barrier) : Gang :=
  { g with bars := ksetD ⟨g.warps, 0, 0, 0#32, 0#32⟩ g.bars hb b }

/-- The phase that a warp last waited for (R290). -/
def Gang.warpMark (g : Gang) (hb widx : Nat) : Nat := kgetD 0 g.warpMarks (hb * 128 + widx)

def Gang.setWarpMark (g : Gang) (hb widx n : Nat) : Gang := { g with warpMarks := ksetD 0 g.warpMarks (hb * 128 + widx) n }

/-- A message takes effect at its barrier (R291, R292); a full count flips the phase. -/
def Barrier.take (b : Barrier) (m : BarMsg) : Barrier × Bool :=
  let arrive := fun (b : Barrier) =>
    if b.arrived + 1 = b.expect then
      ({ b with status := b.acc, acc := 0#32, arrived := 0, phase := (b.phase + 1) % 65536 }, true)
    else ({ b with arrived := (b.arrived + 1) % 65536 }, false)
  match m with
  | .arrive => arrive b
  | .orArrive st => arrive { b with acc := b.acc ||| st }
  | .init n => ({ b with expect := n, arrived := 0, acc := 0#32 }, false)

/-- A message takes effect at a barrier of the gang; a flip is broadcast to every core of the gang (R291). -/
def Gang.deliver (g : Gang) (hb : Nat) (m : BarMsg) : Gang :=
  let (b, flip) := (g.barrier hb).take m
  { g with flips := if flip then g.flips ++ (List.range g.cores.length).map fun p => (p, hb) else g.flips }.setBarrier hb b

end Sys2Proof.Machine
end

