-- ==== Sys2Proof/Machine/Float.lean ====
section
/-! DEFINITION. Floating-point values and their arithmetic, exact first and rounded once (R64 to R72, R179 to R186).
A value of a floating type is carried in the low bits of a doubleword. -/

namespace Sys2Proof.Machine

/-- The five exception flags in the bit order of `sys.fpflags` (R73): NV, DZ, OF, UF, NX from bit 4 down. -/
abbrev FFlags := BitVec 5

def FFlags.nv : FFlags := 16#5
def FFlags.dz : FFlags := 8#5
def FFlags.ovf : FFlags := 4#5
def FFlags.uf : FFlags := 2#5
def FFlags.nx : FFlags := 1#5

/-- A value with the flags its computation raises. -/
abbrev FRes := DWord × FFlags

/-- The four modes of R70. -/
inductive RMode where
  | rne | rtz | rdn | rup
  deriving DecidableEq, Repr

/-- Fraction bits (R64). -/
def fracBits : FTy → Nat
  | .f64 => 52
  | .f32 => 23
  | .f16 => 10
  | .bf16 => 7

/-- Width in bits (R64). -/
def fWidth : FTy → Nat
  | .f64 => 64
  | .f32 => 32
  | .f16 => 16
  | .bf16 => 16

/-- Exponent bias (R64). -/
def fBias : FTy → Nat
  | .f64 => 1023
  | .f32 => 127
  | .f16 => 15
  | .bf16 => 127

/-- The exponent field of all ones (R64). -/
def fExpMax (f : FTy) : Nat := 2 * fBias f + 1

/-- The exponent of the smallest normal value. -/
def fEmin (f : FTy) : Int := 1 - (fBias f : Int)

/-- The canonical NaN (R64). -/
def canonNaN : FTy → DWord
  | .f64 => 0x7FF8000000000000#64
  | .f32 => 0x7FC00000#64
  | .f16 => 0x7E00#64
  | .bf16 => 0x7FC0#64

/-- The sign bit as a doubleword. -/
def signBit (f : FTy) (neg : Bool) : DWord := if neg then 1#64 <<< (fWidth f - 1) else 0#64

def fInf (f : FTy) (neg : Bool) : DWord := signBit f neg ||| BitVec.ofNat 64 (fExpMax f * 2 ^ fracBits f)

def fMaxFinite (f : FTy) (neg : Bool) : DWord := signBit f neg ||| BitVec.ofNat 64 (fExpMax f * 2 ^ fracBits f - 1)

/-- What the bits of a floating type stand for (R64): a NaN, signalling or quiet; an infinity; or the number
`± m × 2^e`, a zero where m is 0. -/
inductive FVal where
  | nan (signalling : Bool)
  | inf (neg : Bool)
  | fin (neg : Bool) (m : Nat) (e : Int)
  deriving DecidableEq, Repr

/-- The sign bit, the exponent field and the fraction. -/
def fSign (f : FTy) (x : DWord) : Bool := x.getLsbD (fWidth f - 1)
def fExp (f : FTy) (x : DWord) : Nat := x.toNat / 2 ^ fracBits f % (fExpMax f + 1)
def fFrac (f : FTy) (x : DWord) : Nat := x.toNat % 2 ^ fracBits f

/-- The value of the bits (R64). -/
def FVal.ofBits (f : FTy) (x : DWord) : FVal :=
  let fr := fFrac f x
  if fExp f x = fExpMax f then
    if fr = 0 then .inf (fSign f x) else .nan (decide (fr < 2 ^ (fracBits f - 1)))
  else if fExp f x = 0 then .fin (fSign f x) fr (fEmin f - fracBits f)
  else .fin (fSign f x) (2 ^ fracBits f + fr) (fEmin f - fracBits f + (fExp f x - 1 : Nat))

def FVal.isSNaN : FVal → Bool
  | .nan s => s
  | _ => false

def FVal.isNaN : FVal → Bool
  | .nan _ => true
  | _ => false

def FVal.isInf : FVal → Bool
  | .inf _ => true
  | _ => false

def FVal.isZero : FVal → Bool
  | .fin _ 0 _ => true
  | _ => false

def FVal.neg : FVal → Bool
  | .nan _ => false
  | .inf s => s
  | .fin s _ _ => s

def fIsNaN (f : FTy) (x : DWord) : Bool := (FVal.ofBits f x).isNaN

/-- A subnormal number: exponent field zero and a fraction (R64). -/
def fIsSubnormal (f : FTy) (x : DWord) : Bool := fExp f x == 0 && fFrac f x != 0

/-! ## Rounding -/

/-- Where a discarded part stands against half a unit: 0 nothing, 1 below, 2 at, 3 above. -/
def remPart (m shift : Nat) : Nat :=
  let r := m % 2 ^ shift
  if r = 0 then 0 else if 2 * r < 2 ^ shift then 1 else if 2 * r = 2 ^ shift then 2 else 3

/-- The magnitude goes up by one unit (R70). -/
def roundsUp (mode : RMode) (neg odd : Bool) (part : Nat) : Bool :=
  match mode with
  | .rne => part == 3 || (part == 2 && odd)
  | .rtz => false
  | .rdn => neg && part != 0
  | .rup => !neg && part != 0

/-- The integer nearest `m × 2^(-shift)` under the mode, and whether something was discarded. -/
def roundShift (mode : RMode) (neg : Bool) (m : Nat) (shift : Int) : Nat × Bool :=
  if shift ≤ 0 then (m * 2 ^ (-shift).toNat, false)
  else if shift > (Nat.log2 m : Int) + 2 then
    (if roundsUp mode neg false (if m = 0 then 0 else 1) then 1 else 0, m != 0)
  else
    let s := shift.toNat
    let q := m / 2 ^ s
    let part := remPart m s
    (if roundsUp mode neg (q % 2 == 1) part then q + 1 else q, part != 0)

/-- The overflowed result of R72: the infinity, or the largest finite value where the mode points away from it. -/
def overflowed (f : FTy) (mode : RMode) (neg : Bool) : DWord :=
  match mode, neg with
  | .rne, _ => fInf f neg
  | .rtz, _ => fMaxFinite f neg
  | .rdn, true => fInf f true
  | .rdn, false => fMaxFinite f false
  | .rup, false => fInf f false
  | .rup, true => fMaxFinite f true

/-- The number `± m × 2^e` rounded once to the format (R65), with OF, UF and NX as R71 states; tininess is detected
after rounding. A zero keeps the sign given. -/
def fRound (f : FTy) (mode : RMode) (neg : Bool) (m : Nat) (e : Int) : FRes :=
  if m = 0 then (signBit f neg, 0#5)
  else
    let top := e + Nat.log2 m
    if top > fBias f then (overflowed f mode neg, FFlags.ovf ||| FFlags.nx)
    else
      let p := fracBits f
      let lo := fEmin f - p
      let q := max (top - p) lo
      let (sig, inexact) := roundShift mode neg m (q - e)
      let bits := (q - lo).toNat * 2 ^ p + sig
      if bits ≥ fExpMax f * 2 ^ p then (overflowed f mode neg, FFlags.ovf ||| FFlags.nx)
      else
        let tiny := decide (top < fEmin f) &&
          !(decide (top = fEmin f - 1) && (roundShift mode neg m (top - p - e)).1 == 2 ^ (p + 1))
        (signBit f neg ||| BitVec.ofNat 64 bits,
          (if inexact then FFlags.nx else 0#5) ||| (if inexact && tiny then FFlags.uf else 0#5))

/-- FP32 under RNE, flags dropped: `rne32` of R80. -/
def rne32 (neg : Bool) (m : Nat) (e : Int) : DWord := (fRound .f32 .rne neg m e).1

/-! ## Exact sums -/

/-- A signed term of an exact sum, `± m × 2^e`. -/
structure Term where
  neg : Bool
  m : Nat
  e : Int
  deriving DecidableEq, Repr

/-- The least exponent of the terms. -/
def minExp : List Term → Int
  | [] => 0
  | [t] => t.e
  | t :: ts => min t.e (minExp ts)

/-- The terms' sum in units of `2^lo`. -/
def sumUnits (lo : Int) : List Term → Int
  | [] => 0
  | t :: ts =>
    let v : Int := (t.m * 2 ^ (t.e - lo).toNat : Nat)
    (if t.neg then -v else v) + sumUnits lo ts

/-- The sign of a sum that is exactly zero (R167): the common sign of terms that are all zeros of one sign, else − under
RDN and + elsewhere. -/
def zeroSumNeg (mode : RMode) (ts : List Term) : Bool :=
  if ts.all (fun t => t.m == 0 && t.neg) then true
  else if ts.all (fun t => t.m == 0 && !t.neg) then false
  else decide (mode = .rdn)

/-- The exact sum of finite terms, rounded once. -/
def roundSum (f : FTy) (mode : RMode) (ts : List Term) : FRes :=
  let lo := minExp ts
  let v := sumUnits lo ts
  if v = 0 then (signBit f (zeroSumNeg mode ts), 0#5)
  else fRound f mode (decide (v < 0)) v.natAbs lo

/-- A term of a sum: finite, an infinity, or a NaN. -/
def FVal.mul : FVal → FVal → FVal
  | .nan s, _ => .nan s
  | _, .nan s => .nan s
  | .inf s, .inf t => .inf (s ^^ t)
  | .inf s, .fin t m _ => if m = 0 then .nan false else .inf (s ^^ t)
  | .fin s m _, .inf t => if m = 0 then .nan false else .inf (s ^^ t)
  | .fin s m e, .fin t n k => .fin (s ^^ t) (m * n) (e + k)

/-- The finite terms among values. -/
def finTerms : List FVal → List Term
  | [] => []
  | .fin s m e :: vs => ⟨s, m, e⟩ :: finTerms vs
  | _ :: vs => finTerms vs

/-- The sum of values that hold no NaN operand, rounded once: ∞ − ∞ is invalid, any other infinity stays (R167). -/
def sumVals (f : FTy) (mode : RMode) (vs : List FVal) : FRes :=
  let pos := vs.any (fun v => v.isInf && !v.neg)
  let neg := vs.any (fun v => v.isInf && v.neg)
  if pos && neg then (canonNaN f, FFlags.nv)
  else if pos then (fInf f false, 0#5)
  else if neg then (fInf f true, 0#5)
  else roundSum f mode (finTerms vs)

/-! ## Flush-to-zero (R70, R164) -/

/-- `fz`: an FP32 or FP16 subnormal operand becomes a zero of its sign where flush-to-zero applies. -/
def fz (ftz : Bool) (f : FTy) (x : DWord) : DWord :=
  if ftz && (f == .f32 || f == .f16) && fIsSubnormal f x then signBit f (fSign f x) else x

/-- `fzo`: the same for a rounded result, which then raises UF and NX. -/
def fzo (ftz : Bool) (f : FTy) (r : FRes) : FRes :=
  if ftz && (f == .f32 || f == .f16) && fIsSubnormal f r.1 then
    (signBit f (fSign f r.1), r.2 ||| FFlags.uf ||| FFlags.nx)
  else r

/-- NV where an operand is a signalling NaN (R66). -/
def snanFlag (vs : List FVal) : FFlags := if vs.any FVal.isSNaN then FFlags.nv else 0#5

/-! ## Arithmetic (R167 to R171) -/

/-- `vadd.F` (R167). -/
def fAdd (ftz : Bool) (f : FTy) (mode : RMode) (a b : DWord) : FRes :=
  let x := FVal.ofBits f (fz ftz f a)
  let y := FVal.ofBits f (fz ftz f b)
  let s := snanFlag [x, y]
  if x.isNaN || y.isNaN then (canonNaN f, s)
  else let r := fzo ftz f (sumVals f mode [x, y]); (r.1, r.2 ||| s)

/-- The sign bit inverted (R170). -/
def fNeg (f : FTy) (x : DWord) : DWord := x ^^^ signBit f true

/-- The sign bit cleared (R170). -/
def fAbs (f : FTy) (x : DWord) : DWord := x &&& ~~~(signBit f true)

/-- A number with its sign inverted. -/
def FVal.flip : FVal → FVal
  | .nan s => .nan s
  | .inf s => .inf (!s)
  | .fin s m e => .fin (!s) m e

/-- `vsub.F` (R167). -/
def fSub (ftz : Bool) (f : FTy) (mode : RMode) (a b : DWord) : FRes :=
  let x := FVal.ofBits f (fz ftz f a)
  let y := FVal.ofBits f (fz ftz f b)
  let s := snanFlag [x, y]
  if x.isNaN || y.isNaN then (canonNaN f, s)
  else let r := fzo ftz f (sumVals f mode [x, y.flip]); (r.1, r.2 ||| s)

/-- The product of a zero and an infinity (R167). -/
def zeroTimesInf (x y : FVal) : Bool := (x.isZero && y.isInf) || (x.isInf && y.isZero)

/-- `vmul.F` (R167). -/
def fMul (ftz : Bool) (f : FTy) (mode : RMode) (a b : DWord) : FRes :=
  let x := FVal.ofBits f (fz ftz f a)
  let y := FVal.ofBits f (fz ftz f b)
  let s := snanFlag [x, y]
  if zeroTimesInf x y then (canonNaN f, FFlags.nv)
  else if x.isNaN || y.isNaN then (canonNaN f, s)
  else match x.mul y with
    | .fin n m e => let r := fzo ftz f (fRound f mode n m e); (r.1, r.2)
    | .inf n => (fInf f n, 0#5)
    | .nan _ => (canonNaN f, FFlags.nv)

/-- `vfma.F` (R167). -/
def fFma (ftz : Bool) (f : FTy) (mode : RMode) (a b c : DWord) : FRes :=
  let x := FVal.ofBits f (fz ftz f a)
  let y := FVal.ofBits f (fz ftz f b)
  let z := FVal.ofBits f (fz ftz f c)
  let s := snanFlag [x, y, z]
  if zeroTimesInf x y then (canonNaN f, FFlags.nv)
  else if x.isNaN || y.isNaN || z.isNaN then (canonNaN f, s)
  else let r := fzo ftz f (sumVals f mode [x.mul y, z]); (r.1, r.2 ||| s)

/-- A number's place in the order of R66, in which −0 lies below +0. -/
def fKey (f : FTy) (x : DWord) : Int :=
  let mag : Nat := (fAbs f x).toNat
  if fSign f x then -(mag : Int) - 1 else (mag : Int)

/-- A number's place in the order of a compare, in which −0 equals +0 (R171). -/
def fCmpKey (f : FTy) (x : DWord) : Int :=
  let mag : Nat := (fAbs f x).toNat
  if fSign f x then -(mag : Int) else (mag : Int)

/-- `vmin.F` and `vmax.F` (R66, R168). -/
def fMinMax (isMax ftz : Bool) (f : FTy) (a b : DWord) : FRes :=
  let x := fz ftz f a
  let y := fz ftz f b
  let vx := FVal.ofBits f x
  let vy := FVal.ofBits f y
  let s := snanFlag [vx, vy]
  if vx.isNaN && vy.isNaN then (canonNaN f, s)
  else if vx.isNaN then (y, s)
  else if vy.isNaN then (x, s)
  else if isMax then (if fKey f x < fKey f y then y else x, s)
  else (if fKey f y < fKey f x then y else x, s)

/-- `vaddmin.F` (R169). -/
def fAddMin (ftz : Bool) (f : FTy) (mode : RMode) (a b c : DWord) : FRes :=
  let t := fAdd ftz f mode a b
  let r := fMinMax false ftz f t.1 c
  (r.1, t.2 ||| r.2)

/-- `vmaxadd.F` (R169). -/
def fMaxAdd (ftz : Bool) (f : FTy) (mode : RMode) (a b c : DWord) : FRes :=
  let t := fMinMax true ftz f a b
  let r := fAdd ftz f mode t.1 c
  (r.1, t.2 ||| r.2)

/-- A condition on the order of two values, `none` where one is a NaN (R151, R171). -/
def ccHolds (cc : CC) (o : Option Ordering) : Bool :=
  match cc, o with
  | .eq, some .eq => true
  | .ne, some .eq => false
  | .ne, _ => true
  | .lt, some .lt => true
  | .le, some .lt => true
  | .le, some .eq => true
  | .gt, some .gt => true
  | .ge, some .gt => true
  | .ge, some .eq => true
  | .uno, none => true
  | .ord, some _ => true
  | _, _ => false

/-- `vcmp.cc.F` (R171). -/
def fCmp (ftz : Bool) (f : FTy) (cc : CC) (a b : DWord) : Bool × FFlags :=
  let x := fz ftz f a
  let y := fz ftz f b
  let vx := FVal.ofBits f x
  let vy := FVal.ofBits f y
  let o := if vx.isNaN || vy.isNaN then none else some (compare (fCmpKey f x) (fCmpKey f y))
  (ccHolds cc o, snanFlag [vx, vy])

/-! ## Exponents and integral values (R182 to R184) -/

/-- `vrndi.F` (R182): no flag but NV. -/
def fRndi (f : FTy) (mode : RMode) (a : DWord) : FRes :=
  match FVal.ofBits f a with
  | .nan s => (canonNaN f, if s then FFlags.nv else 0#5)
  | .inf _ => (a, 0#5)
  | .fin n m e =>
    if e ≥ 0 || m == 0 then (a, 0#5)
    else ((fRound f .rne n (roundShift mode n m (-e)).1 0).1, 0#5)

/-- `vldexp.F` (R183). -/
def fLdexp (f : FTy) (mode : RMode) (a : DWord) (n : Int) : FRes :=
  match FVal.ofBits f a with
  | .nan s => (canonNaN f, if s then FFlags.nv else 0#5)
  | .inf _ => (a, 0#5)
  | .fin s m e => if m = 0 then (a, 0#5) else fRound f mode s m (e + n)

/-- An integer as a value of the type, rounded once. -/
def fOfInt (f : FTy) (mode : RMode) (v : Int) : FRes := fRound f mode (decide (v < 0)) v.natAbs 0

/-- `vgetexp.F` (R184). -/
def fGetexp (f : FTy) (a : DWord) : FRes :=
  match FVal.ofBits f a with
  | .nan s => (canonNaN f, if s then FFlags.nv else 0#5)
  | .inf _ => (fInf f false, 0#5)
  | .fin _ m e =>
    if m = 0 then (fInf f true, FFlags.dz) else ((fOfInt f .rne (e + Nat.log2 m)).1, 0#5)

/-! ## Special functions (R179 to R181, R363) -/

/-- The integer square root, one bit a turn. -/
def isqrtLoop (n : Nat) : Nat → Nat → Nat
  | 0, r => r
  | k + 1, r => if (r + 2 ^ k) * (r + 2 ^ k) ≤ n then isqrtLoop n k (r + 2 ^ k) else isqrtLoop n k r

def isqrt (n : Nat) : Nat := isqrtLoop n (Nat.log2 n / 2 + 1) 0

/-- Up or down among the two neighbours. -/
def pickMode (up : Bool) : RMode := if up then .rup else .rdn

/-- `vrcp.f32` (R179). -/
def fRcp (ftz : Bool) (a : DWord) : FRes :=
  let x := fz ftz .f32 a
  match FVal.ofBits .f32 x with
  | .nan s => (canonNaN .f32, if s then FFlags.nv else 0#5)
  | .inf n => (signBit .f32 n, 0#5)
  | .fin n m e =>
    if m = 0 then (fInf .f32 n, FFlags.dz)
    else
      -- 1/(m 2^e) in units of 2^(-64-e), one sticky bit below
      let q := 2 ^ 64 / m
      let sticky := if 2 ^ 64 % m = 0 then 0 else 1
      let r := fRound .f32 (pickMode (Config.rcpUp (x.setWidth 32))) n (2 * q + sticky) (-65 - e)
      fzo ftz .f32 (if r.2 &&& FFlags.ovf = 0#5 then r else (fInf .f32 n, FFlags.ovf ||| FFlags.nx))

/-- `vrsqrt.f32` (R179). -/
def fRsqrt (ftz : Bool) (a : DWord) : FRes :=
  let x := fz ftz .f32 a
  match FVal.ofBits .f32 x with
  | .nan s => (canonNaN .f32, if s then FFlags.nv else 0#5)
  | .inf n => if n then (canonNaN .f32, FFlags.nv) else (signBit .f32 false, 0#5)
  | .fin n m e =>
    if m = 0 then (fInf .f32 n, FFlags.dz)
    else if n then (canonNaN .f32, FFlags.nv)
    else
      -- an even exponent: x = m' 2^(2h)
      let m' := if e % 2 = 0 then m else 2 * m
      let h := e / 2
      let r := isqrt (2 ^ 128 / m')
      let sticky := if r * r * m' = 2 ^ 128 then 0 else 1
      fzo ftz .f32 (fRound .f32 (pickMode (Config.rsqrtUp (x.setWidth 32))) false (2 * r + sticky) (-65 - h))

/-- The unit of the fixed-point values below: 2^128. -/
def fixOne : Nat := 2 ^ 128

/-- ln 2 in units of 2^-128, rounded down. -/
def ln2Fix : Nat := 235865763225513294137944142764154484399

/-- The sum of `t^n / n!` in units of 2^-128, from the term given on, for so many terms. -/
def expSeries (t : Int) : Nat → Nat → Int → Int
  | 0, _, _ => 0
  | k + 1, n, term => term + expSeries t k (n + 1) (term * t / (fixOne * (n + 1) : Nat))

/-- 2^x in units of 2^-128 for a number 0 < |x| ≤ 1/2, within 2^16 units and on its side of 1. -/
def exp2Fix (neg : Bool) (m : Nat) (e : Int) : Int :=
  let mag : Nat := max 1 (if e < 0 then m * ln2Fix / 2 ^ (-e).toNat else m * ln2Fix * 2 ^ e.toNat)
  expSeries (if neg then -(mag : Int) else (mag : Int)) 36 0 fixOne

/-- A number in units of 2^-128, rounded down. -/
def fixOf (neg : Bool) (m : Nat) (e : Int) : Int :=
  let k := e + 128
  let v : Int := (if k ≥ 0 then m * 2 ^ k.toNat else m / 2 ^ (-k).toNat : Nat)
  if neg then -v else v

/-- The candidate is a finite FP32 value no further than `bound` units from the exact value, as the fixed-point evaluation
gives it (log 3). -/
def within (bound : Nat) (exact : Int) (y : DWord) : Bool :=
  match FVal.ofBits .f32 y with
  | .fin n m e => decide ((fixOf n m e - exact).natAbs ≤ bound)
  | _ => false

/-- A fixed-point value as the nearest FP32 value. -/
def nearestFix (v : Int) : DWord := rne32 (decide (v < 0)) v.natAbs (-128)

/-- `vfexp2.f32` (R180): within 2 ulp of 2^x, where one ulp is 2^-24 below 1 and 2^-23 from 1 on. -/
def fExp2 (ftz : Bool) (a : DWord) : FRes :=
  let x := fz ftz .f32 a
  match FVal.ofBits .f32 x with
  | .nan s => (canonNaN .f32, if s then FFlags.nv else 0#5)
  | .inf _ => (canonNaN .f32, FFlags.nv)
  | .fin n m e =>
    if m = 0 then (0x3F800000#64, 0#5)
    else if fKey .f32 (fAbs .f32 x) > 0x3F000000 then (canonNaN .f32, FFlags.nv)
    else
      let v := exp2Fix n m e
      let y := (Config.exp2Pick (x.setWidth 32)).setWidth 64
      (if within (if n then 2 ^ 105 else 2 ^ 106) v y then y else nearestFix v, FFlags.nx)

/-- The sum of `z^(2k+1) / (2k+1)` in units of 2^-128, for so many terms. -/
def atanhSeries (z2 : Nat) : Nat → Nat → Nat → Nat
  | 0, _, _ => 0
  | k + 1, d, pw => pw / d + atanhSeries z2 k (d + 2) (pw * z2 / fixOne)

/-- log2 of a number from 1 up to 2, given as m over 2^k, in units of 2^-128, within 2^16 units. -/
def log2Frac (m k : Nat) : Int :=
  let z := (m - 2 ^ k) * fixOne / (m + 2 ^ k)
  let ln := 2 * atanhSeries (z * z / fixOne) 48 1 z
  (ln * fixOne / ln2Fix : Nat)

/-- `vlog2.f32` (R181). -/
def fLog2 (ftz : Bool) (a : DWord) : FRes :=
  let x := fz ftz .f32 a
  match FVal.ofBits .f32 x with
  | .nan s => (canonNaN .f32, if s then FFlags.nv else 0#5)
  | .inf n => if n then (canonNaN .f32, FFlags.nv) else (fInf .f32 false, 0#5)
  | .fin n m e =>
    if m = 0 then (fInf .f32 true, FFlags.dz)
    else if n then (canonNaN .f32, FFlags.nv)
    else
      let k := Nat.log2 m
      let top := e + k
      if m = 2 ^ k then ((fOfInt .f32 .rne top).1, 0#5)
      else
        let v : Int := top * fixOne + log2Frac m k
        let near := decide (-(fixOne : Int) ≤ v) && decide (v ≤ fixOne)
        -- two units in the last place of the exact value, or 2^-22
        let bound := if near then 2 ^ 106 else 2 ^ (Nat.log2 v.natAbs - 22)
        let y := (Config.log2Pick (x.setWidth 32)).setWidth 64
        let r := if within bound v y then y else nearestFix v
        fzo ftz .f32 (r, FFlags.nx ||| (if fIsSubnormal .f32 r then FFlags.uf else 0#5))

/-! ## Integer types in registers (R67, R68) -/

def iWidth : ITy → Nat
  | .n8 | .i8 => 8
  | .n16 | .i16 => 16
  | .n32 | .i32 => 32
  | .n64 | .i64 => 64

def iSigned : ITy → Bool
  | .i8 | .i16 | .i32 | .i64 => true
  | _ => false

/-- The value of the low bits as the type reads them (R67, R68). -/
def iVal (t : ITy) (x : DWord) : Int :=
  let n := x.toNat % 2 ^ iWidth t
  if iSigned t && n ≥ 2 ^ (iWidth t - 1) then (n : Int) - (2 ^ iWidth t : Nat) else (n : Int)

/-- A value modulo 2^w, extended to 32 bits as R68 states for the type; 64-bit types keep 64 bits. -/
def iBits (t : ITy) (v : Int) : DWord :=
  let n := (v % (2 ^ iWidth t : Nat)).toNat
  match t with
  | .n64 | .i64 => BitVec.ofNat 64 n
  | .i8 => ((BitVec.ofNat 8 n).signExtend 32).setWidth 64
  | .i16 => ((BitVec.ofNat 16 n).signExtend 32).setWidth 64
  | _ => BitVec.ofNat 64 n

def iMin (t : ITy) : Int := if iSigned t then -(2 ^ (iWidth t - 1) : Nat) else 0
def iMax (t : ITy) : Int := if iSigned t then (2 ^ (iWidth t - 1) : Nat) - 1 else (2 ^ iWidth t : Nat) - 1

/-- A value saturated to the type's range. -/
def iSat (t : ITy) (v : Int) : Int := if v < iMin t then iMin t else if v > iMax t then iMax t else v

/-! ## Conversions (R72, R185, R186) -/

/-- Floating to floating: exact where the destination is wider, one rounding where it is not. -/
def cvtFF (fd fs : FTy) (mode : RMode) (a : DWord) : FRes :=
  match FVal.ofBits fs a with
  | .nan s => (canonNaN fd, if s then FFlags.nv else 0#5)
  | .inf n => (fInf fd n, 0#5)
  | .fin n m e => fRound fd mode n m e

/-- Floating to integer: rounded to an integral value, then saturated. -/
def cvtFI (t : ITy) (fs : FTy) (mode : RMode) (a : DWord) : FRes :=
  match FVal.ofBits fs a with
  | .nan _ => (0#64, FFlags.nv)
  | .inf n => (iBits t (if n then iMin t else iMax t), FFlags.nv)
  | .fin n m e =>
    let (k, inexact) := roundShift mode n m (-e)
    let v : Int := if n then -(k : Int) else (k : Int)
    if v < iMin t ∨ v > iMax t then (iBits t (iSat t v), FFlags.nv)
    else (iBits t v, if inexact then FFlags.nx else 0#5)

/-- Integer to floating. -/
def cvtIF (fd : FTy) (t : ITy) (mode : RMode) (a : DWord) : FRes := fOfInt fd mode (iVal t a)

/-- Integer to integer: widening extends, the rest saturates; no flag (R186). -/
def cvtII (td ts : ITy) (a : DWord) : FRes :=
  (if iWidth ts < iWidth td then iBits td (iVal ts a) else iBits td (iSat td (iVal ts a)), 0#5)

/-- `vcvt` (R186). -/
def fCvt (td ts : Ty) (mode : RMode) (a : DWord) : FRes :=
  match td, ts with
  | .flt fd, .flt fs => cvtFF fd fs mode a
  | .int t, .flt fs => cvtFI t fs mode a
  | .flt fd, .int t => cvtIF fd t mode a
  | .int t, .int u => cvtII t u a

/-! ## Dot products (R187, R188) -/

/-- Element j of a doubleword of 16-bit elements. -/
def elem16 (x : DWord) (j : Nat) : DWord := (x >>> (16 * j)) &&& 0xFFFF#64

/-- `vdp4.f16` and `vdp4.bf16` (R187). -/
def fDp4 (ftz : Bool) (f : FTy) (mode : RMode) (a b c : DWord) : FRes :=
  let xs := [0, 1, 2, 3].map fun j => FVal.ofBits f (fz ftz f (elem16 a j))
  let ys := [0, 1, 2, 3].map fun j => FVal.ofBits f (fz ftz f (elem16 b j))
  let z := FVal.ofBits .f32 (fz ftz .f32 c)
  let s := snanFlag (z :: xs ++ ys)
  if (List.zipWith zeroTimesInf xs ys).any id then (canonNaN .f32, FFlags.nv)
  else if (z :: xs ++ ys).any FVal.isNaN then (canonNaN .f32, s)
  else let r := fzo ftz .f32 (sumVals .f32 mode (z :: List.zipWith FVal.mul xs ys)); (r.1, r.2 ||| s)

/-- Byte j as a signed number. -/
def sbyte (x : DWord) (j : Nat) : Int := ((x >>> (8 * j)).setWidth 8).toInt

/-- `vdp4.i8` (R188). -/
def iDp4 (a b c : DWord) : DWord :=
  iBits .i32 (iVal .i32 c + sbyte a 0 * sbyte b 0 + sbyte a 1 * sbyte b 1 + sbyte a 2 * sbyte b 2 +
    sbyte a 3 * sbyte b 3)

/-! ## DP8, codebooks and SX8 (R74 to R77) -/

/-- A term of a DP8 weight: zero for exponent 7 (R74). -/
def dp8Term (neg : Bool) (e : Nat) : Term := if e = 7 then ⟨false, 0, 0⟩ else ⟨neg, 1, -(e : Int)⟩

/-- The two terms of a DP8 byte (R74). -/
def dp8Terms (w : Byte) : List Term :=
  [dp8Term (w.getLsbD 7) (w.toNat / 16 % 8), dp8Term (w.getLsbD 3) (w.toNat % 8)]

/-- The weight in units of 2^-6. -/
def dp8Units (w : Byte) : Int := sumUnits (-6) (dp8Terms w)

/-- The product of an activation with a DP8 weight, in FP32 (R74). -/
def dp8Product (f : FTy) (a : DWord) (w : Byte) : DWord :=
  let u := dp8Units w
  match FVal.ofBits f a with
  | .nan _ => canonNaN .f32
  | .inf n => if u = 0 then canonNaN .f32 else fInf .f32 (n ^^ decide (u < 0))
  | .fin n m e =>
    if m = 0 then signBit .f32 (if u = 0 then false else n ^^ decide (u < 0))
    else if u = 0 then 0#64
    else rne32 (n ^^ decide (u < 0)) (m * u.natAbs) (e - 6)

/-- The exact product of two values, rounded once to FP32 under RNE (R80). -/
def product32 (f : FTy) (a w : DWord) : DWord :=
  match (FVal.ofBits f a).mul (FVal.ofBits f w) with
  | .nan _ => canonNaN .f32
  | .inf n => fInf .f32 n
  | .fin n m e => rne32 n m e

/-- The FP32 sum under RNE (R80). -/
def add32 (a b : DWord) : DWord := (fAdd false .f32 .rne a b).1

/-- An SX8 scale applied to a value of type f, delivered in type fd (R77). -/
def applySx8 (fd f : FTy) (mode : RMode) (x : Byte) (v : DWord) : FRes :=
  match FVal.ofBits f v with
  | .nan _ => (canonNaN fd, 0#5)
  | .inf n => if x = 0x80#8 then (canonNaN fd, 0#5) else (fInf fd n, 0#5)
  | .fin n m e => if x = 0x80#8 then (signBit fd n, 0#5) else fRound fd mode n m (e + x.toInt)

/-- Index i of a block of indices of k bits, from the words of the block (R75). -/
def codeIndex (k i : Nat) (word : Nat → Word) : Nat :=
  let j := k * i
  let w := j / 32
  let hi : Nat := (word (w + 1)).toNat
  (hi * 2 ^ 32 + (word w).toNat) / 2 ^ (j % 32) % 2 ^ k

/-- A BF16 table entry expanded: copied, a NaN canonical (R76). -/
def expandEntry (e : BitVec 16) : DWord :=
  if fIsNaN .bf16 (e.setWidth 64) then 0x7FC0#64 else e.setWidth 64

/-! ## The tree of sums (R80, R83) -/

/-- One level of the tree: neighbours joined, a lone child passed up unchanged (R83). -/
def treeLevel {α : Type} (join : α → α → α) : List (Option α) → List (Option α)
  | x :: y :: rest =>
    (match x, y with
     | some a, some b => some (join a b)
     | some a, none => some a
     | none, o => o) :: treeLevel join rest
  | l => l

/-- So many levels. -/
def treeLevels {α : Type} (join : α → α → α) : Nat → List (Option α) → List (Option α)
  | 0, l => l
  | k + 1, l => treeLevels join k (treeLevel join l)

/-- The root of the tree over 2^k leaves (R80, R83). -/
def treeRoot {α : Type} (join : α → α → α) (k : Nat) (leaves : List (Option α)) : Option α :=
  ((treeLevels join k leaves).head?).join

/-- A leaf of a floating reduction: flushed where R70 applies, and a NaN canonical (R66). -/
def redLeaf (ftz : Bool) (f : FTy) (x : DWord) : FRes :=
  let y := fz ftz f x
  match FVal.ofBits f y with
  | .nan s => (canonNaN f, if s then FFlags.nv else 0#5)
  | _ => (y, 0#5)

/-- The sum of R83 over the leaves given, +0 where there is none. -/
def redAddF (ftz : Bool) (f : FTy) (mode : RMode) (leaves : List (Option DWord)) : FRes :=
  let join : FRes → FRes → FRes := fun a b => let r := fAdd ftz f mode a.1 b.1; (r.1, r.2 ||| a.2 ||| b.2)
  (treeRoot join 5 (leaves.map (·.map (redLeaf ftz f)))).getD (0#64, 0#5)

/-- The integer sum of R83, 0 where there is no leaf. -/
def redAddT (t : ITy) (leaves : List (Option DWord)) : DWord :=
  iBits t ((treeRoot (fun a b : Int => a + b) 5 (leaves.map (·.map (iVal t)))).getD 0)

end Sys2Proof.Machine
end

