-- ==== Sys2Proof/Machine/Operands.lean ====
section
/-! DEFINITION. Operands: which codes a field accepts (R146, R150), what a code reads for a lane (R147 to R150), and the
frame in which every instruction issues (R145, R152, R163). -/

namespace Sys2Proof.Machine

/-- What a step answers. -/
abbrev Out := Host.Outcome State Fault Refusal

/-! ## Accepted codes -/

/-- What a field accepts (R146, R150). -/
inductive Accept where
  /-- Any source; identities where the flag says so. -/
  | src (ident : Bool)
  /-- Any source that is no vector register. -/
  | nonv (ident : Bool)
  | vec
  | scal
  | pred
  | vecScal
  deriving DecidableEq, Repr

def Accept.ok (a : Accept) (o : Opnd) : Bool :=
  match a, o with
  | .src i, .ident _ => i
  | .src _, .reserved _ => false
  | .src _, _ => true
  | .nonv _, .v _ => false
  | .nonv i, .ident _ => i
  | .nonv _, .reserved _ => false
  | .nonv _, _ => true
  | .vec, .v _ => true
  | .scal, .s _ => true
  | .pred, .p _ => true
  | .vecScal, .v _ => true
  | .vecScal, .s _ => true
  | _, _ => false

/-- One field of an instruction: the operand, what the field accepts, how many registers it takes, the multiple its
register number must be of, whether it is read, and whether all lanes of it are read (R190). -/
structure Use where
  op : Opnd
  acc : Accept
  regs : Nat
  align : Nat
  read : Bool
  whole : Bool
  deriving DecidableEq, Repr

/-- Sources and destinations of 32 or of 64 bits. -/
def useSrc (wide ident : Bool) (o : Opnd) : Use :=
  ⟨o, .src ident, if wide then 2 else 1, if wide then 2 else 1, true, false⟩
def useNonv (wide ident : Bool) (o : Opnd) : Use :=
  ⟨o, .nonv ident, if wide then 2 else 1, if wide then 2 else 1, true, false⟩
def useDst (wide : Bool) (acc : Accept) (o : Opnd) : Use :=
  ⟨o, acc, if wide then 2 else 1, if wide then 2 else 1, false, false⟩
def useWhole (wide : Bool) (o : Opnd) : Use := ⟨o, .vec, if wide then 2 else 1, if wide then 2 else 1, true, true⟩

/-- A source of a lane movement, any code that a move reads; all lanes of a vector register are read (R154, R190). -/
def useMoved (wide : Bool) (o : Opnd) : Use := { useSrc wide true o with whole := true }

/-- A register number of a multi-register field that is not a multiple of the field's alignment: ILL (R147, R152). -/
def Use.odd (u : Use) : Bool :=
  match u.op with
  | .v n => n % u.align != 0
  | .s n => n % u.align != 0 || decide (n + u.regs > 256)
  | _ => false

/-- A vector register at or above the allotment: REGB (R35). -/
def Use.beyond (alloc : Nat) (u : Use) : Bool :=
  match u.op with
  | .v n => decide (n + u.regs > alloc)
  | _ => false

/-- The first failing check of R152. -/
def checkUses (alloc : Nat) (us : List Use) : Option Nat :=
  if us.any Use.odd then some codeIll
  else if us.any (fun u => !u.acc.ok u.op) then some codeIllop
  else if us.any (Use.beyond alloc) then some codeRegb
  else none

/-- A use that breaks a raw rule, where the flag holds: ILL before every other check (R152). -/
def illIf (b : Bool) : List Use := if b then [⟨.v 1, .vec, 1, 2, false, false⟩] else []

/-- The registers of a use. -/
def Use.regList (u : Use) : List Opnd :=
  match u.op with
  | .v n => (List.range u.regs).map fun i => .v (n + i)
  | .s n => (List.range u.regs).map fun i => .s (n + i)
  | .p n => [.p n]
  | _ => []

/-- A register of these waits for a result (R99). -/
def pending (f : Flight) (us : List Use) : Bool :=
  us.any fun u => u.regList.any fun r => f.pend.any fun p => p.1 == r

/-- The lanes in which a use consumes a marked register (R317): a vector register's own, a scalar's in every active lane. -/
def Use.poison (r : Regs) (act : Lanes) (u : Use) : Lanes :=
  if u.read then
    u.regList.foldl (fun m x =>
      match x with
      | .v n => m ||| (kgetD 0#32 r.vMark n &&& (if u.whole then 0xFFFFFFFF#32 else act))
      | .s n => if r.sMark.getLsbD n then m ||| act else m
      | _ => m) 0#32
  else 0#32

/-- The lanes in which an instruction consumes a marked register. -/
def poisonLanes (r : Regs) (act : Lanes) (us : List Use) : Lanes := us.foldl (fun m u => m ||| u.poison r act) 0#32

/-! ## Constants (R148, R149) -/

/-- A constant in an integer operation or a move: the integer sign-extended, a floating entry as its FP32 bits. -/
def kInt (n : Nat) : DWord :=
  if n < 32 then BitVec.ofNat 64 n
  else if n < 48 then BitVec.ofInt 64 (31 - (n : Int))
  else match n with
  | 48 => 0x3F000000#64
  | 49 => 0x3E800000#64
  | 50 => 0x3E000000#64
  | 51 => 0x37800000#64
  | 52 => 0x3EAAAAAB#64
  | 53 => 0x3E2AAAAB#64
  | 54 => 0x3EA2F983#64
  | 55 => 0x3F22F983#64
  | 56 => 0x3F317218#64
  | 57 => 0x3FB8AA3B#64
  | 58 => 0x3F3504F3#64
  | 59 => 0x40490FDB#64
  | 60 => 0x7F800000#64
  | 61 => 0xFF800000#64
  | 62 => 0x7F7FFFFF#64
  | _ => 0x7FC00000#64

/-- `k48` to `k59` rounded to a floating type under RNE (R149). -/
def kReal (f : FTy) (n : Nat) : DWord :=
  match f, n with
  | .f64, 48 => 0x3FE0000000000000#64
  | .f64, 49 => 0x3FD0000000000000#64
  | .f64, 50 => 0x3FC0000000000000#64
  | .f64, 51 => 0x3EF0000000000000#64
  | .f64, 52 => 0x3FD5555555555555#64
  | .f64, 53 => 0x3FC5555555555555#64
  | .f64, 54 => 0x3FD45F306DC9C883#64
  | .f64, 55 => 0x3FE45F306DC9C883#64
  | .f64, 56 => 0x3FE62E42FEFA39EF#64
  | .f64, 57 => 0x3FF71547652B82FE#64
  | .f64, 58 => 0x3FE6A09E667F3BCD#64
  | .f64, _ => 0x400921FB54442D18#64
  | .f32, n => kInt n
  | .f16, 48 => 0x3800#64
  | .f16, 49 => 0x3400#64
  | .f16, 50 => 0x3000#64
  | .f16, 51 => 0x0100#64
  | .f16, 52 => 0x3555#64
  | .f16, 53 => 0x3155#64
  | .f16, 54 => 0x3518#64
  | .f16, 55 => 0x3918#64
  | .f16, 56 => 0x398C#64
  | .f16, 57 => 0x3DC5#64
  | .f16, 58 => 0x39A8#64
  | .f16, _ => 0x4248#64
  | .bf16, 48 => 0x3F00#64
  | .bf16, 49 => 0x3E80#64
  | .bf16, 50 => 0x3E00#64
  | .bf16, 51 => 0x3780#64
  | .bf16, 52 => 0x3EAB#64
  | .bf16, 53 => 0x3E2B#64
  | .bf16, 54 => 0x3EA3#64
  | .bf16, 55 => 0x3F23#64
  | .bf16, 56 => 0x3F31#64
  | .bf16, 57 => 0x3FB9#64
  | .bf16, 58 => 0x3F35#64
  | .bf16, _ => 0x4049#64

/-- A constant in an operation of a floating type (R149). -/
def kFlt (f : FTy) (n : Nat) : DWord :=
  if n < 32 then (fOfInt f .rne n).1
  else if n < 48 then (fOfInt f .rne (31 - (n : Int))).1
  else if n < 60 then kReal f n
  else match n with
  | 60 => fInf f false
  | 61 => fInf f true
  | 62 => fMaxFinite f false
  | _ => canonNaN f

/-! ## The issuing agent -/

/-- The instruction's surroundings as it issues: the state, the agent's name and contents, the head run with its PC, and
the lanes of it whose guard is 1 (R145, R163). -/
structure Ctx where
  st : State
  key : Nat
  ag : Agent
  pc : DWord
  run : Lanes
  act : Lanes

/-- The identities of R23. -/
def Ctx.ident (c : Ctx) (n l : Nat) : Word :=
  match n with
  | 0 => BitVec.ofNat 32 l
  | 1 => BitVec.ofNat 32 c.ag.ident.widx
  | 2 => BitVec.ofNat 32 (((c.st.gangOf c.ag).map Gang.index).getD 0)
  | 3 => BitVec.ofNat 32 c.ag.core
  | 4 => BitVec.ofNat 32 c.ag.die
  | 5 => BitVec.ofNat 32 ((c.ag.place.map Place.part).getD 0)
  | 6 => BitVec.ofNat 32 (((c.st.gangOf c.ag).map fun g => g.cores.length).getD 1)
  | _ => BitVec.ofNat 32 (c.st.posOf c.ag)

/-- An operand read by an integer operation or a move for lane l, of 32 bits or of 64 (R147, R149, R150). -/
def Ctx.rd (c : Ctx) (wide : Bool) (o : Opnd) (l : Nat) : DWord :=
  match o with
  | .v n => if wide then c.ag.regs.vpair n l else (c.ag.regs.vlane n l).setWidth 64
  | .s n => if wide then c.ag.regs.spair n else (c.ag.regs.sreg n).setWidth 64
  | .k n => kInt n
  | .p n => if (c.ag.regs.pred n).getLsbD l then 1#64 else 0#64
  | .ident n => (c.ident n l).setWidth 64
  | .reserved _ => 0#64

/-- An operand read by an operation of a floating type for lane l. -/
def Ctx.rdF (c : Ctx) (f : FTy) (o : Opnd) (l : Nat) : DWord :=
  match o with
  | .k n => kFlt f n
  | .p n => if (c.ag.regs.pred n).getLsbD l then (fOfInt f .rne 1).1 else 0#64
  | o =>
    match f with
    | .f64 => c.rd true o l
    | .f32 => (c.rd false o l) &&& 0xFFFFFFFF#64
    | _ => (c.rd false o l) &&& 0xFFFF#64

/-- A 64-bit operand of four elements of a 16-bit floating type. A constant or predicate is the value that an operation of
the type reads, zero-extended (R147, R149, R150, log 77). -/
def Ctx.rdPack (c : Ctx) (f : FTy) (o : Opnd) (l : Nat) : DWord :=
  match o with
  | .k n => c.rdF f (.k n) l
  | .p n => c.rdF f (.p n) l
  | o => c.rd true o l

/-- An operand read as an n32 for lane l. -/
def Ctx.rd32 (c : Ctx) (o : Opnd) (l : Nat) : Word := (c.rd false o l).setWidth 32

/-- An operand read once for the warp, predicates in the lowest active lane (R197). -/
def Ctx.one32 (c : Ctx) (o : Opnd) : Word := c.rd32 o (lowLane c.act)

/-- A precise fault of the issuing instruction. -/
structure Flt where
  code : Nat
  addr : DWord
  lane : Nat
  wr : Bool
  fetch : Bool
  deriving DecidableEq, Repr

/-- A fault with no address. -/
def flt (code : Nat) : Flt := ⟨code, 0#64, 0, false, false⟩

def Ctx.fault (c : Ctx) (f : Flt) : State :=
  c.st.takeFault c.key f.code c.pc f.addr f.fetch f.wr f.lane none

/-- The agent changed by f, and every lane of the run advanced by n (R163). -/
def Ctx.finish (c : Ctx) (n : Nat) (f : Agent → Agent) : State :=
  c.st.setAgent c.key ((f c.ag).mapCtl fun x => x.advance c.run n)

/-- The agent waits at issue, and not on a token; nothing else happens. -/
def Ctx.wait (c : Ctx) : State := c.st.modAgent c.key (Agent.mapCtl fun x => { x with stall := true, waitSince := none })

/-- A register of these is the token of a copy or tooling command of the agent (R99). -/
def State.onToken (s : State) (a : Nat) (f : Flight) (us : List Use) : Bool :=
  us.any fun u => u.regList.any fun r => f.pend.any fun p => p.1 == r && s.cores.any fun c =>
    (c.2.copies.any fun k => k.agent == a && k.after == p.2) || c.2.tools.any fun k => k.agent == a && k.after == p.2

/-- The agent waits at issue for registers; how long it has waited on a token is kept (R34). -/
def Ctx.waitOn (c : Ctx) (us : List Use) : State :=
  if c.st.onToken c.key c.ag.flight us then
    c.st.modAgent c.key (Agent.mapCtl fun x =>
      { x with stall := true, waitSince := some (x.waitSince.getD c.st.time) })
  else c.wait

/-- The guard of lane l (R145). -/
def guardBit (r : Regs) (g : Guard) (l : Nat) : Bool :=
  match g.pred with
  | none => true
  | some n => (r.pred n).getLsbD l ^^ g.neg

/-- The guard's predicate as a use of the scoreboard. -/
def guardUses (g : Guard) : List Use :=
  match g.pred with
  | some n => [⟨.p n, .pred, 1, 1, true, false⟩]
  | none => []

/-- The surroundings of the issuing agent's next instruction. -/
def Ctx.of (s : State) (g : Guard) : Option Ctx :=
  match s.cur with
  | none => none
  | some a =>
    match s.agent? a with
    | none => none
    | some x =>
      match x.ctl.headRun with
      | none => none
      | some (pc, run) => some ⟨s, a, x, pc, run, maskOf fun l => run.getLsbD l && guardBit x.regs g l⟩

/-- The first read of a token register acquires its destination (R131): the L1 is invalidated, and the registers read
acquire no more. -/
def Ctx.acquireTokens (c : Ctx) (us : List Use) : Ctx :=
  let hit := us.any fun u => u.regList.any fun r => c.ag.flight.tokens.any fun t => r == .s t
  if hit then
    let keep := fun t => !(us.any fun u => u.regList.any fun r => r == .s t)
    let ag := c.ag.mapFlight fun f => { f with tokens := f.tokens.filter keep }
    { c with ag := ag, st := (c.st.setAgent c.key ag).invalL1 ag.core }
  else c

/-- The frame of every instruction: the checks of R152 and those that hang on no operand value, whatever the guards; the
scoreboard; no active lane, no effect (R145); poison (R317) and the checks on operand values; then the effect. -/
def issueWith (g : Guard) (us : List Use) (size : Nat) (pre post : Ctx → Option Flt) (eff : Ctx → Out) (s : State) : Out :=
  match Ctx.of s g with
  | none => .refused .noIssuer
  | some c =>
    match checkUses c.ag.regs.alloc us with
    | some code => .next (c.fault (flt code))
    | none =>
      match pre c with
      | some f => .next (c.fault f)
      | none =>
        if pending c.ag.flight (guardUses g ++ us) then .next (c.waitOn (guardUses g ++ us))
        else if c.act = 0#32 then .next (c.finish size id)
        else if poisonLanes c.ag.regs c.act us ≠ 0#32 then
          .next (c.fault ⟨codePoison, 0#64, lowLane (poisonLanes c.ag.regs c.act us), false, false⟩)
        else
          let c' := c.acquireTokens us
          match post c' with
          | some f => .next (c.fault f)
          | none => eff c'

/-- No check of its own. -/
def noCheck : Ctx → Option Flt := fun _ => none

/-- The frame of an instruction that cannot fail after R152. -/
def issue (g : Guard) (us : List Use) (eff : Ctx → State) (s : State) : Out :=
  issueWith g us 8 noCheck noCheck (fun c => .next (eff c)) s

/-! ## Results -/

/-- The register number of an operand. -/
def Opnd.num : Opnd → Nat
  | .v n => n
  | .k n => n
  | .s n => n
  | .p n => n
  | .ident n => n
  | .reserved n => n

/-- Flags ORed into `sys.fpflags` (R71). -/
def Agent.raise (fl : FFlags) (x : Agent) : Agent :=
  x.mapSys fun y => { y with fpflags := y.fpflags ||| fl.setWidth 32 }

/-- The OR of the flags of the lanes. -/
def laneFlags (f : Nat → FRes) (ls : List Nat) : FFlags := ls.foldl (fun m l => m ||| (f l).2) 0#5

/-- A value per active lane to a vector register or pair, with its flags (R163). -/
def Ctx.putV (c : Ctx) (d : Opnd) (wide : Bool) (f : Nat → FRes) : State :=
  c.finish 8 fun x =>
    (x.mapRegs fun r => r.setV64 (Opnd.num d) wide c.act (fun l => (f l).1) 0#32).raise (laneFlags f (lanesOf c.act))

/-- A value to a scalar register or pair, with its flags (R197). -/
def Ctx.putS (c : Ctx) (d : Opnd) (wide : Bool) (v : FRes) : State :=
  c.finish 8 fun x => (x.mapRegs fun r => r.setS64 (Opnd.num d) wide v.1 false).raise v.2

/-- A bit per active lane to a predicate, with flags. -/
def Ctx.putP (c : Ctx) (d : Opnd) (f : Nat → Bool × FFlags) : State :=
  c.finish 8 fun x =>
    (x.mapRegs fun r => r.setP (Opnd.num d) c.act (fun l => (f l).1)).raise
      (laneFlags (fun l => (0#64, (f l).2)) (lanesOf c.act))

end Sys2Proof.Machine
end

