-- ==== Sys2Proof/Machine/Uses.lean ====
section
/-! DEFINITION. The register fields of every instruction, by its shape: what each accepts and how many registers it takes
(R68, R146 to R150). The meanings issue with these lists, and the scoreboard reads them of an instruction that has not
issued yet (R34, R99). -/

namespace Sys2Proof.Machine

/-- A floating type of 64 bits takes pairs (R68). -/
def fWide (f : FTy) : Bool := f == .f64
def iWide (t : ITy) : Bool := t == .n64 || t == .i64
def tyWide : Ty → Bool
  | .int t => iWide t
  | .flt f => fWide f

/-- A conversion's source takes an identity where its type is an integer's (R150). -/
def tyIdent : Ty → Bool
  | .int _ => true
  | .flt _ => false

/-! ## Widths (R157, R68) -/

def LdKind.bytes : LdKind → Nat
  | .n8 | .i8 => 1
  | .n16 | .i16 => 2
  | .w32 => 4
  | .w64 => 8

def StWidth.bytes : StWidth → Nat
  | .w8 => 1
  | .w16 => 2
  | .w32 => 4
  | .w64 => 8

def AKind.bytes : AKind → Nat
  | .n32 | .i32 | .f32 => 4
  | .n64 | .i64 => 8

def AKind.wide : AKind → Bool
  | .n64 | .i64 => true
  | _ => false

def Opnd.isV : Opnd → Bool
  | .v _ => true
  | _ => false

/-! ## Single fields -/

/-- A source field that accepts a predicate alone. -/
def usePred (a : Opnd) : Use := ⟨a, .pred, 1, 1, true, false⟩

/-- A global address in a scalar pair. -/
def usePair (a : Opnd) : Use := ⟨a, .scal, 2, 2, true, false⟩

/-- A buffer base is a scalar code. -/
def useBase (a : Opnd) : Use := ⟨a, .scal, 1, 1, true, false⟩

/-- The address field of an atomic: an even vector or scalar pair. -/
def useAddr (a : Opnd) : Use := ⟨a, .vecScal, 2, 2, true, false⟩

/-- A scalar read, one register or a pair. -/
def useS (wide : Bool) (o : Opnd) : Use := ⟨o, .scal, if wide then 2 else 1, if wide then 2 else 1, true, false⟩

/-- A scalar token register. -/
def useToken (c : Opnd) : Use := ⟨c, .scal, 1, 1, false, false⟩

/-- A vector register of indices or of data that is read. -/
def useVec (wide : Bool) (o : Opnd) : Use := ⟨o, .vec, if wide then 2 else 1, if wide then 2 else 1, true, false⟩

/-- The operand field b of an atomic: a value, or for `cas` a register with the second operand after it (R226). -/
def atomUse (op : AOp) (k : AKind) (b : Opnd) : Use :=
  match op with
  | .cas => if AKind.wide k then ⟨b, .vecScal, 4, 4, true, false⟩ else ⟨b, .vecScal, 2, 1, true, false⟩
  | _ => useSrc (AKind.wide k) (k != .f32) b

/-! ## Shapes -/

/-- A vector result of one, two and three sources of its type. -/
def vec1 (w ident : Bool) (d a : Opnd) : List Use := [useDst w .vec d, useSrc w ident a]
def vec2 (w ident : Bool) (d a b : Opnd) : List Use := [useDst w .vec d, useSrc w ident a, useSrc w ident b]
def vec3 (w ident : Bool) (d a b x : Opnd) : List Use :=
  [useDst w .vec d, useSrc w ident a, useSrc w ident b, useSrc w ident x]

/-- The same in scalar registers (R197). -/
def sca1 (w ident : Bool) (d a : Opnd) : List Use := [useDst w .scal d, useNonv w ident a]
def sca2 (w ident : Bool) (d a b : Opnd) : List Use := [useDst w .scal d, useNonv w ident a, useNonv w ident b]
def sca3 (w ident : Bool) (d a b x : Opnd) : List Use :=
  [useDst w .scal d, useNonv w ident a, useNonv w ident b, useNonv w ident x]

/-- The fields of a bit-field instruction: d, a, and b where it is wide, have the type's width; the position and the
length are read as n32 (R177). -/
def fieldUses (w wideB : Bool) (acc : Accept) (src : Bool → Bool → Opnd → Use) (d a b x : Opnd) : List Use :=
  [useDst w acc d, src w true a, src (w && wideB) true b, src false true x]

/-- A lane movement by a count or an index read as n32, with a fill where there is one (R192, R193). -/
def moveUses (t : ITy) (d a b : Opnd) (fill : Option Opnd) : List Use :=
  [useDst (iWide t) .vec d, useMoved (iWide t) a, useSrc false true b] ++
    (match fill with | some x => [useSrc (iWide t) true x] | none => [])

/-- `vdp4` of a 16-bit type (R187); `vcbx` (R189). -/
def dp4Uses (d a b c : Opnd) : List Use := [useDst false .vec d, useSrc true false a, useSrc true false b, useSrc false false c]
def cbxUses (d a b c : Opnd) : List Use := [useDst false .vec d, useWhole false a, useWhole false b, useSrc false true c]

/-- `set.ins`, `set.del`, `set.has`. -/
def memberUses (wr : Bool) (d a b : Opnd) : List Use :=
  (if wr then [⟨d, .pred, 1, 1, false, false⟩] else []) ++ [useS false a, useSrc false true b]

/-- A copy into a buffer; a tooling command. -/
def copyInUses (d a cnt tok : Opnd) : List Use := [useS false d, useS true a, useNonv false true cnt, useToken tok]
def toolUses (d a b c : Opnd) : List Use := [useS false d, useNonv false true a, useNonv false true b, useToken c]

/-- The raw rules of `chase` (R239): d at most v1532, b at most s252, both even; the base field a scalar triple. The off
in s(b+2) and the seeds in v(d+2) are fields of every mode; only LINK and SAMPLE use them (log 99). -/
def chaseFields (d a b h : Opnd) : List Use :=
  [⟨d, .vec, 3, 2, false, false⟩, ⟨a, .vec, 2, 2, true, false⟩, ⟨b, .scal, 3, 2, true, false⟩, useSrc false true h]

/-- d above v1532: ILL (R239). -/
def chaseHigh (d : Opnd) : Bool :=
  match d with
  | .v n => decide (n > 1532)
  | _ => false

def chaseUses (mode : Nat) (d a b h : Opnd) : List Use :=
  illIf (chaseHigh d) ++ chaseFields d a b h ++ [⟨.v (Opnd.num d + 2), .vec, 1, 1, mode == 2, false⟩]

/-- A class-3 command whose field d is a block offset or a number. -/
def blockUses (d : Opnd) : List Use := [useNonv false true d]

/-- The watched line's address and the count of clocks of `park` (R210). -/
def parkUses (line tmo : Bool) (a cc : Opnd) : List Use :=
  (if line then [usePair a] else []) ++ (if tmo then [useNonv false true cc] else [])

/-- The register fields of an instruction. A step of the part has none. -/
def usesOf (i : Instr) : List Use :=
  match i with
  | .vaddF _ f _ d a b => vec2 (fWide f) false d a b
  | .vsubF _ f _ d a b => vec2 (fWide f) false d a b
  | .vmulF _ f _ d a b => vec2 (fWide f) false d a b
  | .vfmaF _ f _ d a b c => vec3 (fWide f) false d a b c
  | .vminF _ f d a b => vec2 (fWide f) false d a b
  | .vmaxF _ f d a b => vec2 (fWide f) false d a b
  | .vaddminF _ f _ d a b c => vec3 (fWide f) false d a b c
  | .vmaxaddF _ f _ d a b c => vec3 (fWide f) false d a b c
  | .vcmpF _ f _ d a b => [useDst false .pred d, useSrc (fWide f) false a, useSrc (fWide f) false b]
  | .vrndi _ f _ d a => vec1 (fWide f) false d a
  | .vldexp _ f _ d a b => [useDst (fWide f) .vec d, useSrc (fWide f) false a, useSrc false false b]
  | .vgetexp _ f d a => vec1 (fWide f) false d a
  | .vnegF _ f d a => vec1 (fWide f) false d a
  | .vabsF _ f d a => vec1 (fWide f) false d a
  | .vrcp _ _ d a => vec1 false false d a
  | .vrsqrt _ _ d a => vec1 false false d a
  | .vfexp2 _ _ d a => vec1 false false d a
  | .vlog2 _ _ d a => vec1 false false d a
  | .vcvt _ td ts _ d a => [useDst (tyWide td) .vec d, useSrc (tyWide ts) (tyIdent ts) a]
  | .vdp4F16 _ _ d a b c => dp4Uses d a b c
  | .vdp4Bf16 _ _ d a b c => dp4Uses d a b c
  | .vdp4I8 _ d a b c => vec3 false true d a b c
  | .vcbxCb3 _ d a b c => cbxUses d a b c
  | .vcbxCb4 _ d a b c => cbxUses d a b c
  | .vaddT _ t d a b => vec2 (iWide t) true d a b
  | .vsubT _ t d a b => vec2 (iWide t) true d a b
  | .vmulT _ t d a b => vec2 (iWide t) true d a b
  | .vmulhi _ t d a b => vec2 (iWide t) true d a b
  | .vmad _ t d a b c => vec3 (iWide t) true d a b c
  | .vminT _ t d a b => vec2 (iWide t) true d a b
  | .vmaxT _ t d a b => vec2 (iWide t) true d a b
  | .vabsT _ t d a => vec1 (iWide t) true d a
  | .vnegT _ t d a => vec1 (iWide t) true d a
  | .vaddminT _ t d a b c => vec3 (iWide t) true d a b c
  | .vmaxaddT _ t d a b c => vec3 (iWide t) true d a b c
  | .vcmpT _ t _ d a b => [useDst false .pred d, useSrc (iWide t) true a, useSrc (iWide t) true b]
  | .vand _ t d a b => vec2 (iWide t) true d a b
  | .vor _ t d a b => vec2 (iWide t) true d a b
  | .vxor _ t d a b => vec2 (iWide t) true d a b
  | .vnot _ t d a => vec1 (iWide t) true d a
  | .vshl _ t d a b => vec2 (iWide t) true d a b
  | .vshr _ t d a b => vec2 (iWide t) true d a b
  | .vpopc _ t d a => vec1 (iWide t) true d a
  | .vclz _ t d a => vec1 (iWide t) true d a
  | .vbfe _ t d a b c => fieldUses (iWide t) false .vec useSrc d a b c
  | .vbfi _ t d a b c => fieldUses (iWide t) true .vec useSrc d a b c
  | .vsel _ t d a b c => vec2 (iWide t) true d a b ++ [usePred c]
  | .vmov _ t d a => vec1 (iWide t) true d a
  | .vshup _ t d a b c => moveUses t d a b (some c)
  | .vshdn _ t d a b c => moveUses t d a b (some c)
  | .vperm _ t d a b => moveUses t d a b none
  | .vbcast _ t d a b => moveUses t d a b none
  | .vredaddF _ f _ d a => vec1 (fWide f) false d a
  | .vscanIncF _ f _ d a => vec1 (fWide f) false d a
  | .vscanExcF _ f _ d a => vec1 (fWide f) false d a
  | .vredaddT _ t d a => vec1 (iWide t) true d a
  | .vscanIncT _ t d a => vec1 (iWide t) true d a
  | .vscanExcT _ t d a => vec1 (iWide t) true d a
  | .vpack _ _ d a b c => vec3 false true d a b c
  | .vunpack _ _ d a b c => vec3 false true d a b c
  | .saddF _ f _ d a b => sca2 (fWide f) false d a b
  | .ssubF _ f _ d a b => sca2 (fWide f) false d a b
  | .smulF _ f _ d a b => sca2 (fWide f) false d a b
  | .sfma _ f _ d a b c => sca3 (fWide f) false d a b c
  | .sminF _ f d a b => sca2 (fWide f) false d a b
  | .smaxF _ f d a b => sca2 (fWide f) false d a b
  | .scmpF _ f _ d a b => [useDst false .scal d, useNonv (fWide f) false a, useNonv (fWide f) false b]
  | .scvt _ td ts _ d a => [useDst (tyWide td) .scal d, useNonv (tyWide ts) (tyIdent ts) a]
  | .saddT _ t d a b => sca2 (iWide t) true d a b
  | .ssubT _ t d a b => sca2 (iWide t) true d a b
  | .smulT _ t d a b => sca2 (iWide t) true d a b
  | .smulhi _ t d a b => sca2 (iWide t) true d a b
  | .smad _ t d a b c => sca3 (iWide t) true d a b c
  | .sminT _ t d a b => sca2 (iWide t) true d a b
  | .smaxT _ t d a b => sca2 (iWide t) true d a b
  | .sabs _ t d a => sca1 (iWide t) true d a
  | .sneg _ t d a => sca1 (iWide t) true d a
  | .scmpT _ t _ d a b => [useDst false .scal d, useNonv (iWide t) true a, useNonv (iWide t) true b]
  | .sand _ t d a b => sca2 (iWide t) true d a b
  | .sor _ t d a b => sca2 (iWide t) true d a b
  | .sxor _ t d a b => sca2 (iWide t) true d a b
  | .snot _ t d a => sca1 (iWide t) true d a
  | .sshl _ t d a b => sca2 (iWide t) true d a b
  | .sshr _ t d a b => sca2 (iWide t) true d a b
  | .spopc _ t d a => sca1 (iWide t) true d a
  | .sclz _ t d a => sca1 (iWide t) true d a
  | .sbfe _ t d a b c => fieldUses (iWide t) false .scal useNonv d a b c
  | .sbfi _ t d a b c => fieldUses (iWide t) true .scal useNonv d a b c
  | .ssel _ t d a b c => sca2 (iWide t) true d a b ++ [usePred c]
  | .smov _ t d a => sca1 (iWide t) true d a
  | .lget _ t d a b => [useDst (iWide t) .scal d, useWhole (iWide t) a, useNonv false true b]
  | .lput _ t d a b => [useDst (iWide t) .vec d, useNonv (iWide t) true a, useNonv false true b]
  | .srd _ _ d => [useDst false .scal d]
  | .swr _ _ a => [useNonv false true a]
  | .bra _ _ => []
  | .braAny _ a _ => [usePred a]
  | .braAll _ a _ => [usePred a]
  | .braNone _ a _ => [usePred a]
  | .braZ _ a _ => [useNonv false true a]
  | .braNz _ a _ => [useNonv false true a]
  | .jmp _ a => [useAddr a]
  | .brx _ a _ => [useSrc false true a]
  | .callDirect _ _ _ _ => []
  | .callRegister _ _ a _ => [useAddr a]
  | .ret _ => []
  | .exit _ => []
  | .park _ line _ tmo a _ c => parkUses line tmo a c
  | .yield _ => []
  | .grow _ _ => []
  | .shrink _ _ => []
  | .taskPush _ _ a => [useNonv false true a]
  | .nop _ => []
  | .sli _ d _ => [useDst false .scal d]
  | .sli64 _ d _ => [useDst true .scal d]
  | .vli _ d _ => [useDst false .vec d]
  | .ld _ k _ _ d a _ _ => [useDst (LdKind.bytes k == 8) .vecScal d, usePair a]
  | .st _ w _ _ d a _ _ => [useSrc (StWidth.bytes w == 8) true d, usePair a]
  | .gath _ k d a b _ => [useDst (LdKind.bytes k == 8) .vec d, usePair a, useVec false b]
  | .scat _ w d a b _ => [useVec (StWidth.bytes w == 8) d, usePair a, useVec false b]
  | .ldb _ k _ d a _ => [useDst (LdKind.bytes k == 8) .vecScal d, useBase a]
  | .stb _ w _ d a _ => [useSrc (StWidth.bytes w == 8) true d, useBase a]
  | .atom _ op k _ _ d a b =>
    [useDst (AKind.wide k) (if Opnd.isV a then .vec else .vecScal) d, useAddr a, atomUse op k b]
  | .red _ op k _ _ a b => [useAddr a, atomUse op k b]
  | .redRet _ op k _ _ d a b => [useSrc false true d, useAddr a, atomUse op k b]
  | .fence _ _ _ => []
  | .pref _ a _ _ => [usePair a]
  | .ipref _ a _ => [usePair a]
  | .copyAbuf _ _ d a b c => copyInUses d a b c
  | .copyWbuf _ _ d a b c => copyInUses d a b c
  | .copyOut _ _ _ d a b c => [useS true d, useS false a, useNonv false true b, useToken c]
  | .copyMc _ _ d a b c => copyInUses d a b c
  | .copyQ _ _ d a b c => [useS false d, useS true a, useS true b, useToken c]
  | .toolXpose _ _ d a b c => toolUses d a b c
  | .toolCvt _ _ d a b c => toolUses d a b c
  | .toolQuant _ _ d a b c => toolUses d a b c
  | .toolZero _ _ d a b c => toolUses d a b c
  | .toolRsum _ _ d a b c => toolUses d a b c
  | .chaseLink _ d a b c => chaseUses 0 d a b c
  | .chaseIndex _ d a b c => chaseUses 1 d a b c
  | .chaseSample _ d a b c => chaseUses 2 d a b c
  | .l1cfg _ _ => []
  | .l1cfgQ _ d => [useDst false .scal d]
  | .waitc _ _ _ _ => []
  | .cinvD _ => []
  | .cinvI _ => []
  | .cflush _ a b => [usePair a, useNonv false true b]
  | .tbind _ _ d => blockUses d
  | .ldst _ _ _ d => blockUses d
  | .cbtload _ _ _ d => blockUses d
  | .mswap _ _ _ => []
  | .mstream _ _ _ d => blockUses d
  | .mop _ _ d => blockUses d
  | .mzero _ _ d => blockUses d
  | .chainCfg _ _ d => blockUses d
  | .chainStep _ _ d => blockUses d
  | .chainRun _ _ d => [useS false d]
  | .bdSet _ _ d => blockUses d
  | .bdGet _ _ d => [useDst false .scal d]
  | .dsrd _ d => [useDst false .scal d]
  | .setNew _ d => [useDst false .scal d]
  | .setFree _ a => [useS false a]
  | .setIns _ wr d a b => memberUses wr d a b
  | .setDel _ wr d a b => memberUses wr d a b
  | .setHas _ d a b => memberUses true d a b
  | .setCard _ d a => [useDst false .scal d, useS false a]
  | .setOr _ a b c => [useS false a, useS false b, useS false c]
  | .setAnd _ a b c => [useS false a, useS false b, useS false c]
  | .setSub _ a b c => [useS false a, useS false b, useS false c]
  | .setIn _ a b c => [useS false a, useS true b, useSrc false true c]
  | .setOut _ d a b c => [useDst false .scal d, useS false a, useS true b, useSrc false true c]
  | .setIter _ d a c => [useDst false .vec d, useS false a, useS false c]
  | .setHint _ _ a => [useS false a]
  | .setHintNone _ a => [useS false a]
  | .setCost _ _ d => [useDst false .scal d]
  | .barInit _ _ a => [useNonv false true a]
  | .barArrive _ _ => []
  | .barWait _ _ => []
  | .barStatus _ _ d => [useDst false .scal d]
  | .qstate _ => []
  | .gstart _ d => [useDst false .scal d]
  | .gwait _ a => [useS false a]
  | .fdefer _ a b c => [useS true a, useNonv false true b, useNonv false true c]
  | .trap _ _ => []
  | .tret _ => []
  | .rngOpen _ _ => []
  | .rngClose _ => []
  | .capq _ d a => [useDst true .scal d, useNonv false true a]
  | .tmrd _ d => [useDst true .scal d]
  | _ => []

/-- The guard of an instruction (R141). -/
def guardOf (i : Instr) : Guard :=
  match encodeFields i with
  | some f => ⟨if f.pred < 24 then some f.pred else none, f.pn == 1⟩
  | none => ⟨none, false⟩

/-- The registers that an instruction waits for at issue: its guard's predicate and those of its fields (R99). -/
def waitsFor (i : Instr) : List Use := guardUses (guardOf i) ++ usesOf i

end Sys2Proof.Machine
end

