-- ==== Sys2Proof/Machine/Flags.lean ====
section
/-! DEFINITION. The modes an instruction computes under: rounding and flush-to-zero as `sys.fpmode` stands at issue (R70,
R73), and the forms of class 0 and class 1 built from one computation per lane. -/

namespace Sys2Proof.Machine

/-- DM of `sys.fpmode` (R73). -/
def dynMode (m : Word) : RMode :=
  match m.toNat % 4 with
  | 0 => .rne
  | 1 => .rtz
  | 2 => .rdn
  | _ => .rup

/-- The effective mode of a rounding code (R70). -/
def modeOf (rm : Rm) (fpmode : Word) : RMode :=
  match rm with
  | .rne => .rne
  | .rtz => .rtz
  | .rdn => .rdn
  | .rup => .rup
  | .dyn => dynMode fpmode

def Ctx.mode (c : Ctx) (rm : Rm) : RMode := modeOf rm c.ag.sys.fpmode

/-- FTZ of `sys.fpmode` (R73). -/
def Ctx.ftz (c : Ctx) : Bool := c.ag.sys.fpmode.getLsbD 4

/-! ## Forms: one computation per lane, or one for the warp -/

/-- Vector forms of one, two and three floating sources; `k` is given the flush, the mode and the operands. -/
def vecF1 (g : Guard) (f : FTy) (rm : Rm) (d a : Opnd) (k : Bool → RMode → DWord → FRes) (s : State) : Out :=
  issue g (vec1 (fWide f) false d a)
    (fun c => c.putV d (fWide f) fun l => k c.ftz (c.mode rm) (c.rdF f a l)) s

def vecF2 (g : Guard) (f : FTy) (rm : Rm) (d a b : Opnd) (k : Bool → RMode → DWord → DWord → FRes) (s : State) : Out :=
  issue g (vec2 (fWide f) false d a b)
    (fun c => c.putV d (fWide f) fun l => k c.ftz (c.mode rm) (c.rdF f a l) (c.rdF f b l)) s

def vecF3 (g : Guard) (f : FTy) (rm : Rm) (d a b x : Opnd) (k : Bool → RMode → DWord → DWord → DWord → FRes)
    (s : State) : Out :=
  issue g (vec3 (fWide f) false d a b x)
    (fun c => c.putV d (fWide f) fun l => k c.ftz (c.mode rm) (c.rdF f a l) (c.rdF f b l) (c.rdF f x l)) s

/-- Vector forms of integer type; `k` is given the operands' bits. -/
def vecT1 (g : Guard) (t : ITy) (d a : Opnd) (k : DWord → DWord) (s : State) : Out :=
  issue g (vec1 (iWide t) true d a)
    (fun c => c.putV d (iWide t) fun l => (k (c.rd (iWide t) a l), 0#5)) s

def vecT2 (g : Guard) (t : ITy) (d a b : Opnd) (k : DWord → DWord → DWord) (s : State) : Out :=
  issue g (vec2 (iWide t) true d a b)
    (fun c => c.putV d (iWide t) fun l => (k (c.rd (iWide t) a l) (c.rd (iWide t) b l), 0#5)) s

def vecT3 (g : Guard) (t : ITy) (d a b x : Opnd) (k : DWord → DWord → DWord → DWord) (s : State) : Out :=
  issue g (vec3 (iWide t) true d a b x)
    (fun c => c.putV d (iWide t) fun l =>
      (k (c.rd (iWide t) a l) (c.rd (iWide t) b l) (c.rd (iWide t) x l), 0#5)) s

/-- Vector and scalar bit-field forms (R177, R197). -/
def vecField (g : Guard) (t : ITy) (wideB : Bool) (d a b x : Opnd) (k : DWord → DWord → DWord → DWord) (s : State) : Out :=
  issue g (fieldUses (iWide t) wideB .vec useSrc d a b x)
    (fun c => c.putV d (iWide t) fun l =>
      (k (c.rd (iWide t) a l) (c.rd (iWide t && wideB) b l) (c.rd false x l), 0#5)) s

def scaField (g : Guard) (t : ITy) (wideB : Bool) (d a b x : Opnd) (k : DWord → DWord → DWord → DWord) (s : State) : Out :=
  issue g (fieldUses (iWide t) wideB .scal useNonv d a b x)
    (fun c => c.putS d (iWide t)
      (k (c.rd (iWide t) a (lowLane c.act)) (c.rd (iWide t && wideB) b (lowLane c.act)) (c.rd false x (lowLane c.act)),
        0#5)) s

/-- Scalar forms: the same computations, once for the warp, never flushed (R197). -/
def scaF2 (g : Guard) (f : FTy) (rm : Rm) (d a b : Opnd) (k : Bool → RMode → DWord → DWord → FRes) (s : State) : Out :=
  issue g (sca2 (fWide f) false d a b)
    (fun c => c.putS d (fWide f)
      (k false (c.mode rm) (c.rdF f a (lowLane c.act)) (c.rdF f b (lowLane c.act)))) s

def scaF3 (g : Guard) (f : FTy) (rm : Rm) (d a b x : Opnd) (k : Bool → RMode → DWord → DWord → DWord → FRes)
    (s : State) : Out :=
  issue g (sca3 (fWide f) false d a b x)
    (fun c => c.putS d (fWide f)
      (k false (c.mode rm) (c.rdF f a (lowLane c.act)) (c.rdF f b (lowLane c.act)) (c.rdF f x (lowLane c.act)))) s

/-- A scalar integer operation of one source. `i.lane` as a source of a scalar form gives the lowest active lane (log 109). -/
def scaT1 (g : Guard) (t : ITy) (d a : Opnd) (k : DWord → DWord) (s : State) : Out :=
  issue g (sca1 (iWide t) true d a)
    (fun c => c.putS d (iWide t) (k (c.rd (iWide t) a (lowLane c.act)), 0#5)) s

def scaT2 (g : Guard) (t : ITy) (d a b : Opnd) (k : DWord → DWord → DWord) (s : State) : Out :=
  issue g (sca2 (iWide t) true d a b)
    (fun c => c.putS d (iWide t) (k (c.rd (iWide t) a (lowLane c.act)) (c.rd (iWide t) b (lowLane c.act)), 0#5)) s

def scaT3 (g : Guard) (t : ITy) (d a b x : Opnd) (k : DWord → DWord → DWord → DWord) (s : State) : Out :=
  issue g (sca3 (iWide t) true d a b x)
    (fun c => c.putS d (iWide t)
      (k (c.rd (iWide t) a (lowLane c.act)) (c.rd (iWide t) b (lowLane c.act)) (c.rd (iWide t) x (lowLane c.act)),
        0#5)) s

/-! ## Integer computations (R172 to R177) -/

def iAdd (t : ITy) (a b : DWord) : DWord := iBits t (iVal t a + iVal t b)
def iSub (t : ITy) (a b : DWord) : DWord := iBits t (iVal t a - iVal t b)
def iMul (t : ITy) (a b : DWord) : DWord := iBits t (iVal t a * iVal t b)
def iMulhi (t : ITy) (a b : DWord) : DWord := iBits t (iVal t a * iVal t b / (2 ^ iWidth t : Nat))
def iMad (t : ITy) (a b c : DWord) : DWord := iBits t (iVal t a * iVal t b + iVal t c)
def iMinOf (t : ITy) (a b : DWord) : DWord := iBits t (min (iVal t a) (iVal t b))
def iMaxOf (t : ITy) (a b : DWord) : DWord := iBits t (max (iVal t a) (iVal t b))
def iAbs (t : ITy) (a : DWord) : DWord := iBits t (iVal t a).natAbs
def iNeg (t : ITy) (a : DWord) : DWord := iBits t (-(iVal t a))
def iAddMin (t : ITy) (a b c : DWord) : DWord := iMinOf t (iAdd t a b) c
def iMaxAdd (t : ITy) (a b c : DWord) : DWord := iAdd t (iMaxOf t a b) c

/-- The order of two integers of the type (R173). -/
def iCmp (t : ITy) (cc : CC) (a b : DWord) : Bool := ccHolds cc (some (compare (iVal t a) (iVal t b)))

/-- The w low bits of a register value, extended for the type (R164). -/
def iExt (t : ITy) (x : DWord) : DWord := iBits t (iVal t x)

def iAnd (t : ITy) (a b : DWord) : DWord := iExt t (a &&& b)
def iOr (t : ITy) (a b : DWord) : DWord := iExt t (a ||| b)
def iXor (t : ITy) (a b : DWord) : DWord := iExt t (a ^^^ b)
def iNot (t : ITy) (a : DWord) : DWord := iExt t (~~~a)

/-- The value's bits as a natural number below 2^w. -/
def iNat (t : ITy) (x : DWord) : Nat := x.toNat % 2 ^ iWidth t

/-- The shift count: bits 31:0 of b (R175). An 8- or 16-bit type reads b as its type's operand of 32 bits. -/
def shCount (b : DWord) : Nat := b.toNat % 4294967296

def iShl (t : ITy) (a b : DWord) : DWord :=
  let n := shCount b
  if n < iWidth t then iBits t (iNat t a * 2 ^ n : Nat) else 0#64

def iShr (t : ITy) (a b : DWord) : DWord :=
  let n := min (shCount b) (iWidth t)
  iBits t (iVal t a / (2 ^ n : Nat))

/-- The number of 1 bits among the low n. -/
def popUpTo (x : Nat) : Nat → Nat
  | 0 => 0
  | n + 1 => popUpTo x n + (if x.testBit n then 1 else 0)

def iPopc (t : ITy) (a : DWord) : DWord := iBits t (popUpTo (iNat t a) (iWidth t) : Nat)

def iClz (t : ITy) (a : DWord) : DWord :=
  iBits t (if iNat t a = 0 then (iWidth t : Nat) else (iWidth t - 1 - Nat.log2 (iNat t a) : Nat))

/-- `vbfe` (R177). -/
def iBfe (t : ITy) (a pos len : DWord) : DWord :=
  let p := shCount pos
  let n := shCount len
  if p ≥ iWidth t ∨ n = 0 then 0#64
  else
    let m := min n (iWidth t - p)
    let f := iNat t a / 2 ^ p % 2 ^ m
    iBits t (if iSigned t && f ≥ 2 ^ (m - 1) then (f : Int) - (2 ^ m : Nat) else (f : Int))

/-- `vbfi` (R177). -/
def iBfi (t : ITy) (a b c : DWord) : DWord :=
  let p := c.toNat % 256
  let n := c.toNat / 256 % 256
  if p ≥ iWidth t ∨ n = 0 then iExt t b
  else
    let m := min n (iWidth t - p)
    let k : DWord := BitVec.ofNat 64 ((2 ^ m - 1) * 2 ^ p)
    iExt t ((b &&& ~~~k) ||| ((a <<< p) &&& k))

end Sys2Proof.Machine
end

