-- ==== Sys2Proof/Machine/Xlat.lean ====
section
/-! DEFINITION. Translation (R87 to R92). -/

namespace Sys2Proof.Machine

/-- What a walk gives: a leaf, or a fault of this code. -/
inductive Walk where
  | leaf (e : TlbEntry)
  | fault (code : Nat)
  deriving DecidableEq, Repr

/-- Bits hi:lo of an entry. -/
def ebits (e hi lo : Nat) : Nat := e / 2 ^ lo % 2 ^ (hi + 1 - lo)

/-- The first and the last byte of a page of 2^bits bytes at a die-local frame are backed (R88, R89). -/
def pageBacked (frame bits : Nat) : Bool :=
  decide (frame / 68719476736 = (frame + 2 ^ bits - 1) / 68719476736) && hbmBacked (frame + 2 ^ bits - 1)

/-- A striped page is backed where its last byte's location is (log 23). -/
def stripedBacked (frame bits : Nat) : Bool := hbmBacked (dieLocal (frame + 2 ^ bits - 1))

/-- A leaf entry that maps a page of 2^bits bytes is invalid for a core of this die (R88). -/
def leafBad (e bits die : Nat) : Bool :=
  let tier := ebits e 5 4
  let frame := ebits e 51 16 * 65536
  ebits e 15 9 != 0 ||
  (bits == 21 && ebits e 20 16 != 0) || (bits == 30 && ebits e 29 16 != 0) ||
  (if tier = 3 then ebits e 8 6 != 0
   else
    ebits e 63 52 != 0 ||
    (ebits e 7 7 == 1 && tier == 2) ||
    (ebits e 6 6 == 1 && tier != 1) ||
    (tier != 2 &&
      (if 549755813888 ≤ frame ∧ frame < 1099511627776 then ebits e 6 6 == 0 || !stripedBacked frame bits
       else ebits e 6 6 == 1 || !(decide (frame < 549755813888)) || !pageBacked frame bits ||
         (tier == 0 && homeDie frame != die))))

/-- A table entry is invalid (R88): a reserved bit, or a next table that is not aligned. -/
def tableBad (e level : Nat) : Bool :=
  ebits e 63 52 != 0 || ebits e 7 2 != 0 || (level < 3 && ebits e 11 8 != 0)

/-- The leaf's translation of a page (R88). -/
def leafEntry (tenant va e bits : Nat) : TlbEntry :=
  let tier := ebits e 5 4
  { tenant := tenant, base := va / 2 ^ bits, bits := bits,
    frame := if tier = 3 then ebits e 63 48 * 281474976710656 + ebits e 47 16 * 65536 else ebits e 51 16 * 65536,
    tier := tier, cached := ebits e 8 8 == 1 && tier != 3, coded := ebits e 7 7 == 1,
    write := ebits e 2 2 == 1, fetch := ebits e 3 3 == 1 }

/-- The bytes a page of this level's leaf has, as a power of two; the level's index of an address (R87). -/
def levelBits : Nat → Nat
  | 2 => 30
  | 3 => 21
  | _ => 16

def levelIndex (va : Nat) : Nat → Nat
  | 1 => ebits va 56 39
  | 2 => ebits va 38 30
  | 3 => ebits va 29 21
  | _ => ebits va 20 16

/-- One level of the walk, with `left` levels below it (R87, R88, R92): V first, then validity. An entry
without memory behind it reads free (log 11). -/
def walkLevel (s : State) (tenant die va : Nat) : Nat → Nat → Walk
  | 0, _ => .fault codeProtection
  | left + 1, table =>
    let level := 4 - left
    let e := s.devLe (table + 8 * levelIndex va level) 8
    if ebits e 0 0 = 0 then .fault codeTranslation
    else if ebits e 1 1 = 1 then
      if level = 1 ∨ leafBad e (levelBits level) die then .fault codeProtection
      else .leaf (leafEntry tenant va e (levelBits level))
    else if level = 4 ∨ tableBad e level then .fault codeProtection
    else walkLevel s tenant die va left (ebits e 51 8 * 256)

/-- The address of a tenant's root table (R87). -/
def State.rootOf (s : State) (tenant : Nat) : Nat := ((s.tenant tenant).reg 0x10).toNat / 2097152 * 2097152

/-- A walk from the tenant's root (R87). -/
def walk (s : State) (tenant die va : Nat) : Walk :=
  walkLevel s tenant die va 4 (s.rootOf tenant)

/-- The addresses of the entries that a walk reads, level by level (R87). -/
def walkPath (s : State) (va : Nat) : Nat → Nat → List Nat
  | 0, _ => []
  | left + 1, table =>
    let level := 4 - left
    let a := table + 8 * levelIndex va level
    let e := s.devLe a 8
    a :: (if ebits e 0 0 = 0 ∨ ebits e 1 1 = 1 ∨ level = 4 ∨ tableBad e level then []
          else walkPath s va left (ebits e 51 8 * 256))

/-- The page that the entry where a walk ends would map, as a power of two: that of a leaf, valid or not (R88); 64 KiB where no
entry says (log 52). -/
def walkBits (s : State) (va : Nat) : Nat → Nat → Nat
  | 0, _ => 16
  | left + 1, table =>
    let level := 4 - left
    let e := s.devLe (table + 8 * levelIndex va level) 8
    if ebits e 0 0 = 0 then 16
    else if ebits e 1 1 = 1 then levelBits level
    else if level = 4 ∨ tableBad e level then 16
    else walkBits s va left (ebits e 51 8 * 256)

/-- The entry of a TLB that covers an address. -/
def tlbFind (tlb : List TlbEntry) (tenant va : Nat) : Option TlbEntry :=
  tlb.find? fun e => e.tenant == tenant && va / 2 ^ e.bits == e.base

/-- An entry added to a TLB of so many entries; the oldest leaves a full one (log 17). -/
def tlbAdd (size : Nat) (tlb : List TlbEntry) (e : TlbEntry) : List TlbEntry := (e :: tlb).take size

/-- The location and attributes of an address under a leaf (R88 to R90). -/
def TlbEntry.xlat (e : TlbEntry) (va : Nat) : Xlat :=
  let off := va % 2 ^ e.bits
  { key := match e.tier with
      | 2 => hostKey (e.frame + off)
      | 3 => peerKey (e.frame / 281474976710656) (e.frame % 281474976710656 + off)
      | _ => dieLocal (e.frame + off)
    tier := e.tier, cached := e.cached, coded := e.coded }

/-- What an access wants of a page. -/
inductive Want where
  | read | write | fetch
  deriving DecidableEq, Repr

/-- What a translation gives: the location, or a fault of this code. -/
inductive XRes where
  | ok (x : Xlat)
  | fault (code : Nat)
  deriving DecidableEq, Repr

/-- The permission of R92. -/
def TlbEntry.permit (e : TlbEntry) (w : Want) (va : Nat) : XRes :=
  match w with
  | .read => .ok (e.xlat va)
  | .write => if e.write then .ok (e.xlat va) else .fault codeProtection
  | .fetch => if e.fetch then .ok (e.xlat va) else .fault codeProtection

/-- What a walk by a core's die leaves in its TLBs, and what it answers for an access to v (R91). -/
def State.walked (s : State) (core : Nat) (w : Want) (v : Nat) : Walk → State × XRes
  | .leaf e =>
    ((s.modCore core fun c => { c with tlb := tlbAdd 512 c.tlb e }).modDie (dieOfCore core) fun d =>
      { d with tlb := tlbAdd 16384 d.tlb e }, e.permit w v)
  | .fault code => (s, .fault code)

/-- The leaf that a core's L1 TLB holds for an address; after a translation that did not fault it is there. -/
def State.pageOf (s : State) (core tenant : Nat) (va : DWord) : Option TlbEntry :=
  tlbFind (s.core core).tlb tenant va.toNat

/-- The page of an address as a power of two, as the TLBs of a core and its die hold it or as the walk finds it. -/
def State.pageBits (s : State) (core tenant : Nat) (va : DWord) : Nat :=
  match s.pageOf core tenant va, tlbFind (s.die (dieOfCore core)).tlb tenant va.toNat with
  | some e, _ => e.bits
  | none, some e => e.bits
  | none, none => walkBits s va.toNat 4 (s.rootOf tenant)

/-- A page as the miss entries of a core name it (R91): tenant, size, number. -/
abbrev PageName := Nat × Nat × Nat

/-- The page of an address. -/
def State.pageName (s : State) (core tenant : Nat) (va : DWord) : PageName :=
  (tenant, s.pageBits core tenant va, va.toNat / 2 ^ s.pageBits core tenant va)

/-- An address lies in the page. -/
def PageName.has (k : PageName) (va : DWord) : Bool := va.toNat / 2 ^ k.2.1 == k.2.2

/-- A translation for a core, through its L1 TLB, its die's L2 TLB and the walker (R91); the entry found is kept in both.
An address with bits 63:57 not zero is a protection fault (R86). -/
def State.translate (s : State) (core tenant : Nat) (va : DWord) (w : Want) : State × XRes :=
  if va.toNat ≥ 144115188075855872 then (s, .fault codeProtection)
  else
    match tlbFind (s.core core).tlb tenant va.toNat with
    | some e => (s, e.permit w va.toNat)
    | none =>
      match tlbFind (s.die (dieOfCore core)).tlb tenant va.toNat with
      | some e => (s.modCore core fun c => { c with tlb := tlbAdd 512 c.tlb e }, e.permit w va.toNat)
      | none => s.walked core w va.toNat (walk s tenant (dieOfCore core) va.toNat)

/-- The same for a die's own units. -/
def State.walkedDie (s : State) (die : Nat) (w : Want) (v : Nat) : Walk → State × XRes
  | .leaf e => (s.modDie die fun d => { d with tlb := tlbAdd 16384 d.tlb e }, e.permit w v)
  | .fault code => (s, .fault code)

/-- A translation on behalf of a die's own units (dispatcher, set engines, Cinch), through the L2 TLB. -/
def State.translateDie (s : State) (die tenant : Nat) (va : DWord) (w : Want) : State × XRes :=
  if va.toNat ≥ 144115188075855872 then (s, .fault codeProtection)
  else
    match tlbFind (s.die die).tlb tenant va.toNat with
    | some e => (s, e.permit w va.toNat)
    | none => s.walkedDie die w va.toNat (walk s tenant die va.toNat)

end Sys2Proof.Machine
end

