-- ==== Sys2Proof/Machine/Requests.lean ====
section
/-! DEFINITION. The lines that engines own (R130), the paths between the dies (R120), and the requests that the home slices
and the HBM channels receive (R97, R98, R102, R103). -/

namespace Sys2Proof.Machine

/-! ## Lines that engines own (R130) -/

/-- Ranges of locations touch a line of 256 bytes. -/
def rangesOn (rs : List (Nat × Nat)) (line : Nat) : Bool :=
  rs.any fun r => decide (r.1 / 256 ≤ line) && decide (line ≤ (r.2 - 1) / 256)

/-- Two sets of ranges of locations touch one line. -/
def rangesMeet (rs qs : List (Nat × Nat)) : Bool :=
  rs.any fun r => qs.any fun q => decide (r.1 / 256 ≤ (q.2 - 1) / 256) && decide (q.1 / 256 ≤ (r.2 - 1) / 256)

/-- What reaches a line: an access from outside the agents' instructions, one of an instruction that issued when so many
requests had been numbered, or the write of an engine command that did. -/
inductive Reach where
  | any
  | issued (n : Nat)
  | command (n : Nat)
  deriving DecidableEq, Repr

/-- An owner that came in at `stamp` holds what reaches its line (R130): every access but one that issued before it, which
comes first while the owner has not begun (R121, R129, log 101); of other commands, those that came in later, since ownership
is exclusive. -/
def Reach.heldBy (r : Reach) (stamp : Nat) (begun : Bool) : Bool :=
  match r with
  | .any => true
  | .issued n => decide (stamp < n) || begun
  | .command n => decide (stamp < n)

/-- A copy has begun to move its data, in this run or before a save. -/
def Copy.begun (k : Copy) : Bool := k.engine.isSome || k.chunk != 0 || k.stopped

/-- The 256 B line of a location is owned by an engine command that holds what reaches it (R130). -/
def State.ownedLine (s : State) (r : Reach) (key : Nat) : Bool :=
  (s.cores.any fun c => c.2.copies.any fun k => r.heldBy k.stamp k.begun && rangesOn k.owned (key / 256)) ||
  s.agents.any fun e => e.2.flight.setOps.any fun o => r.heldBy o.stamp false && rangesOn o.owned (key / 256)

/-- A command that came in before `stamp` owns a line of these ranges (R130). -/
def State.ownedBefore (s : State) (stamp : Nat) (rs : List (Nat × Nat)) : Bool :=
  (s.cores.any fun c => c.2.copies.any fun k => decide (k.stamp < stamp) && rangesMeet k.owned rs) ||
  s.agents.any fun e => e.2.flight.setOps.any fun o => decide (o.stamp < stamp) && rangesMeet o.owned rs

/-! ## Writes on their way (R117, R120) -/

/-- A write that has left its core and has not performed. -/
def LaneSt.onWay : LaneSt → Bool
  | .drained => true
  | .sent => true
  | _ => false

/-- A store that has left its queue and has not performed lies on a 64-byte line, for the agents for which the test
holds. -/
def State.drainedOn (s : State) (who : Agent → Bool) (line : Nat) : Bool :=
  s.agents.any fun e => who e.2 && e.2.flight.ops.any fun o => o.lanes.any fun l =>
    l.st == .drained && (l.loc.map fun x => x.key / 64 == line).getD false

/-- The IOD path from this die to the home of a location of another die holds a write numbered below `before`: the path
delivers in order (R120). A write that its home holds at an owned line has been delivered (R130). -/
def State.pathHeld (s : State) (die before key : Nat) : Bool :=
  isHbm key && homeDie key != die && s.agents.any fun e => e.2.die == die && e.2.flight.ops.any fun o =>
    o.lanes.any fun m => m.st.onWay && decide (m.stamp < before) &&
      (m.loc.map fun x => isHbm x.key && homeDie x.key == homeDie key && !s.ownedLine (.issued o.issued) x.key).getD false

/-- The writes that agents of a die count as acknowledged at `die` scope have performed at their homes on other dies, but for
those that are held there at an owned line. An agent of the die that has acquired them releases them too at a wider scope
(R120, R123, R126, R127, log 113). -/
def State.landed (s : State) (die : Nat) : Bool :=
  s.agents.all fun e => e.2.die != die || e.2.flight.ops.all fun o => !o.ackDie || o.lanes.all fun m =>
    !(m.st.onWay && (m.loc.map fun x => isHbm x.key && !s.ownedLine (.issued o.issued) x.key).getD false)

/-- An access that leaves this die now for a location must wait: the path to its home has writes to deliver (R120), or an engine
owns the line (R130). -/
def State.reachHeld (s : State) (die : Nat) (r : Reach) (key : Nat) : Bool :=
  s.ownedLine r key || s.pathHeld die s.sent key

/-- A read of a 64-byte line at its home by an agent of this core must wait: a store of the core to it has not performed
(R117), or as any read of its die. -/
def State.lineHeld (s : State) (core : Nat) (r : Reach) (line : Nat) : Bool :=
  s.drainedOn (fun x => x.core == core) line || s.reachHeld (dieOfCore core) r (64 * line)

/-! ## The L2 and the requests to HBM (R97, R98, R102, R103) -/

/-- The key of an L2 line; lines of host memory stand on the accessing die (R98). -/
def Xlat.l2Key (x : Xlat) (die : Nat) : Nat := x.key / 256 + (if x.tier = 2 then (die + 1) * 2 ^ 80 else 0)

/-- A location of device HBM that a unit of the device reaches by its physical address. -/
def plainXlat (key : Nat) : Xlat := { key := key, tier := 0, cached := true, coded := false }

/-- The sectors of a line that n bytes from a location on touch. -/
def sectorMask (key n : Nat) : BitVec 8 :=
  BitVec.ofFnLE fun i : Fin 8 => decide (key % 256 < 32 * i.val + 32) && decide (32 * i.val < key % 256 + n)

/-- What a request carries of its origin: class, deadline stamp, requester, last use. -/
structure Origin where
  cls : Nat
  dl : Nat
  req : Nat
  lu : Bool
  deriving DecidableEq, Repr

/-- The requester number of a place and of an engine (R102). -/
def reqOf (p : Place) : Nat := 192 * p.core + 24 * p.part + p.slot
def reqOfEngine (kind die place unit : Nat) : Nat := 32768 + kind * 2048 + die * 512 + place * 8 + unit

/-- The origin of an agent's loads and of its stores, with the class a qualifier names (R103). -/
def loadOrigin (p : Place) (q : Qual) : Origin := ⟨if q.cls = 0 then 1 else q.cls, 16, reqOf p, q.lu⟩
def storeOrigin (p : Place) (q : Qual) : Origin := ⟨if q.cls = 0 then 1 else q.cls, 64, reqOf p, q.lu⟩

/-- A request joins the queue of its stack; a request for no sector, or away from device HBM, is none. CRD is 1 for a read
that allocates no line of the L2 (log 78). -/
def State.hbmAsk (s : State) (o : Origin) (line : Nat) (mask : BitVec 8) (write alloc coded : Bool) : State :=
  if mask = 0#8 ∨ !isHbm (256 * line) then s
  else
    { s with
      sent := s.sent + 1
      hbm := s.hbm ++
        [{ id := s.sent, stack := line / 268435456, line := line, mask := mask, cls := o.cls,
           deadline := if o.dl = 0 then none else some (s.time + 64 * o.dl), req := o.req, lu := o.lu,
           crd := !write && !alloc, write := write, alloc := alloc, coded := coded, missed := false }] }

/-- A line absent from the L2. -/
def L2Line.absent : L2Line := { valid := 0#8, dirty := 0#8, owned := false, coded := false }

/-- The sectors of a line that are held or on their way. -/
def State.l2Have (s : State) (k : Nat) : BitVec 8 :=
  (s.hbm.filter fun r => r.line == k && r.alloc && !r.write).foldl (fun m r => m ||| r.mask)
    ((s.fills.filter fun f => f.1 == k).foldl (fun m f => m ||| f.2.1) (kgetD L2Line.absent s.l2 k).valid)

/-- The die on which an L2 line of host memory stands, and its line within host memory (R98). -/
def hostLine (k : Nat) : Option (Nat × Nat) :=
  if k ≥ 2 ^ 80 then some (k / 2 ^ 80 - 1, k % 2 ^ 80 - 72057594037927936) else none

/-- The slice in which a line stands, over all dies (R21, R98). -/
def l2Slice (k : Nat) : Nat :=
  match hostLine k with
  | some (die, h) => die * 32 + foldGroups 12 h
  | none => homeDie (256 * k) * 32 + homeSlice (256 * k)

/-- Two lines stand in one set of one slice (R21, log 75). -/
def sameSet (a b : Nat) : Bool := l2Slice a == l2Slice b && Config.l2Index a % 1024 == Config.l2Index b % 1024

/-- The ways of a set that hold lines of memory, beside the save partition (R21). -/
def setWays : Nat := 9

/-- A slice owns a host line under CXL.cache: other dies give up theirs (R98). -/
def State.ownHost (s : State) (k : Nat) : State :=
  let rest := s.l2.filter fun e => e.1 == k || (hostLine e.1).isNone || (hostLine e.1).map Prod.snd != (hostLine k).map Prod.snd
  { s with l2 := kput rest k { (kget s.l2 k).getD L2Line.absent with owned := true } }

/-- A line leaves the L2 (R97): its dirty sectors are written back whole, for no requester in particular (log 79). A dirty line
of host memory is owned first, and stays owned (R98). -/
def State.evictL2 (s : State) (k : Nat) : State :=
  match kget s.l2 k with
  | none => s
  | some l =>
    if (hostLine k).isSome && l.dirty != 0#8 then
      let s1 := s.ownHost k
      { s1 with l2 := kput s1.l2 k { L2Line.absent with owned := true } }
    else { s.hbmAsk ⟨1, 64, 0, false⟩ k l.dirty true false l.coded with l2 := kdel s.l2 k }

/-- Room for a line in its set: a full set gives up the line named, else its first (log 75). -/
def State.l2Room (s : State) (k : Nat) (victim : Option Nat) : State :=
  let ways := (s.l2.filter fun e => e.2.valid != 0#8 && e.1 != k && sameSet e.1 k).map Prod.fst
  match victim.filter ways.contains with
  | some v => s.evictL2 v
  | none =>
    if (kgetD L2Line.absent s.l2 k).valid == 0#8 && decide (ways.length ≥ setWays) then s.evictL2 (ways.headD 0) else s

/-- Reads served at home slices, request by request: missing sectors are asked for (R97). -/
def State.homeReads (s : State) (o : Origin) (die : Nat) (acc : List (Xlat × Nat)) : State :=
  ((acc.map fun e => e.1.l2Key die).eraseDups).foldl (fun s k =>
    let here := acc.filter fun e => e.1.l2Key die == k
    let mask := here.foldl (fun m e => m ||| sectorMask e.1.key e.2) 0#8
    match here with
    | [] => s
    | e :: _ =>
      if e.1.tier = 3 then s
      else if e.1.tier = 2 then
        if e.1.cached then
          let s1 := s.l2Room k none
          let l := kgetD L2Line.absent s1.l2 k
          { s1 with l2 := kput s1.l2 k { l with valid := l.valid ||| mask } }
        else s
      else s.hbmAsk o k (mask &&& ~~~(s.l2Have k)) false e.1.cached e.1.coded) s

/-- The requests of a walk that a unit of a die makes for a requester, at the homes of the entries it reads; there is no
walk where the die's TLB holds the page, or for an address out of range (R86, R91, R102, R103). -/
def State.dieWalkAsks (s : State) (req die tenant : Nat) (va : DWord) : State :=
  if va.toNat ≥ 144115188075855872 ∨ (tlbFind (s.die die).tlb tenant va.toNat).isSome then s
  else
    ((walkPath s va.toNat 4 (s.rootOf tenant)).filterMap devKey).foldl (fun s k =>
      s.homeReads ⟨0, 4, req, false⟩ die [(plainXlat k, 8)]) s

/-- The same for a core, whose own TLB comes first. -/
def State.walkAsks (s : State) (req core tenant : Nat) (va : DWord) : State :=
  if (s.pageOf core tenant va).isSome then s else s.dieWalkAsks req (dieOfCore core) tenant va

/-- The sectors of a line that these cells touch, and those that they cover whole. -/
def cellSectors (cells : List (Nat × Byte)) (line : Nat) : BitVec 8 × BitVec 8 :=
  let whole := wholeGranules cells
  (BitVec.ofFnLE fun i : Fin 8 => cells.any fun c => c.1 / 32 == 8 * line + i.val,
   BitVec.ofFnLE fun i : Fin 8 => nhas whole (8 * line + i.val))

/-- A write served at the home slice of one line (R97, R98): whole sectors become valid and dirty, a partial write asks
for its sector first, and a page that is not cached allocates nothing. -/
def State.homeWrite1 (s : State) (o : Origin) (die : Nat) (x : Xlat) (touched whole : BitVec 8) : State :=
  let k := x.l2Key die
  let l := kgetD L2Line.absent s.l2 k
  if x.tier = 3 then s
  else if x.cached then
    let s1 := (s.hbmAsk o k (touched &&& ~~~whole &&& ~~~(s.l2Have k)) false true x.coded).l2Room k none
    let l1 := { l with valid := l.valid ||| touched, dirty := l.dirty ||| touched, coded := x.coded }
    { s1 with l2 := kput s1.l2 k l1 }
  else
    let s1 := if (kget s.l2 k).isSome then
        { s with l2 := kput s.l2 k { l with dirty := l.dirty ||| (touched &&& l.valid) } }
      else s
    s1.hbmAsk o k (touched &&& ~~~l.valid) true false x.coded

/-- The lines of a write at their home slices. -/
def State.homeWrites (s : State) (o : Origin) (die : Nat) (xs : List Xlat) (cells : List (Nat × Byte)) : State :=
  ((xs.map fun x => x.key / 256).eraseDups).foldl (fun s line =>
    match xs.find? fun x => x.key / 256 == line with
    | none => s
    | some x => s.homeWrite1 o die x (cellSectors cells line).1 (cellSectors cells line).2) s

/-- A page that the L1 caches: TIER 0, 1 or 2 with C 1 (R94). -/
def Xlat.inL1 (x : Xlat) : Bool := x.cached && x.tier != 3

/-- A translation for a core on behalf of a requester, with the requests of its walk (R91, R102, R103). -/
def State.translateFor (s : State) (req core tenant : Nat) (va : DWord) (w : Want) : State × XRes :=
  (((s.walkAsks req core tenant va).translate core tenant va w).1, (s.translate core tenant va w).2)

end Sys2Proof.Machine
end

