-- ==== Sys2Proof/Machine/Fetch.lean ====
section
/-! DEFINITION. Instruction fetch and what reads memory as it does: the instruction caches (R20), the instruction at a PC
(R140), and entry headers (R28). -/

namespace Sys2Proof.Machine

/-! ## The instruction caches (R20) -/

/-- The key of a 128-byte line in a partition's instruction cache. -/
def iKey (part line : Nat) : Nat := part * 1152921504606846976 + line

/-- The lines of one set of a partition's instruction cache: 64 sets (R20). -/
def iSet (ic : KMap (BitVec 1024)) (part line : Nat) : List Nat :=
  (ic.filter fun e => e.1 / 1152921504606846976 == part && e.1 % 64 == line % 64).map fun e => e.1

/-- The 128 bytes of a line as memory holds them. -/
def State.lineBits (s : State) (key n : Nat) : Nat := leVal (s.bytes key n)

/-- A line filled with 128 bytes (R20). A full set of eight loses the line named, else its first (log 17). -/
def State.icacheFill (s : State) (core part line : Nat) (drop : Option Nat) (bits : BitVec 1024) : State :=
  s.modCore core fun c =>
    let full := iSet c.icache part line
    let ic := if full.length ≥ 8 ∧ (kget c.icache (iKey part line)).isNone then
        kdel c.icache (match drop with
          | some l => if full.any (fun k => k == iKey part l) then iKey part l else full.headD 0
          | none => full.headD 0)
      else c.icache
    { c with icache := kput ic (iKey part line) bits }

/-- A line that the partition's instruction cache does not hold cannot be filled while its home holds the read (R120, R130). -/
def State.codeHeld (s : State) (p : Place) (key : Nat) : Bool :=
  (kget (s.core p.core).icache (iKey p.part (key / 128))).isNone && s.reachHeld (dieOfCore p.core) .any key

/-- A line read at its home for a warp or task into its partition's instruction cache, with the memory contents of the moment
(R20, R102, R103, R156); one that the link loses comes as poisoned data, whose value is free (R357, log 24). -/
def State.codeFill (s : State) (p : Place) (t : Nat) (x : Xlat) (drop : Option Nat) : State :=
  let line := x.key / 128
  if s.loses x then
    let s1 := (s.icacheFill p.core p.part line drop (BitVec.ofNat 1024 (leVal (freeBytes s.free 128)))).linkGone t 128
    { s1 with device := { s1.device with
        sramMarks := ((List.range 4).map fun i => (Sram.icache p.core p.part, 4 * line + i)).foldl (fun l g => l.insert g)
          s1.device.sramMarks } }
  else
    (s.homeReads ⟨0, 4, reqOf p, false⟩ (dieOfCore p.core) [({ x with key := 128 * line }, 128)]).icacheFill p.core p.part line
      drop (BitVec.ofNat 1024 (s.lineBits (128 * line) 128))

/-- So many bytes, within one line, read through a partition's instruction cache; a line that is not held is filled first
(R20, R205). -/
def State.iread (s : State) (p : Place) (t : Nat) (x : Xlat) (n : Nat) : State × Nat :=
  let line := x.key / 128
  let s1 := if (kget (s.core p.core).icache (iKey p.part line)).isSome then s else s.codeFill p t x none
  (s1, (kgetD 0#1024 (s1.core p.core).icache (iKey p.part line)).toNat / 2 ^ (8 * (x.key % 128)) % 2 ^ (8 * n))

/-- What a fetch gives. -/
inductive Fetch where
  | got (i : Instr)
  /-- The line of a word at this location is not held by the partition's instruction cache. -/
  | miss (x : Xlat)
  | fault (code : Nat) (addr : DWord)
  deriving DecidableEq, Repr

/-- A word of instruction memory as the partition's instruction cache holds it; the walk of its page makes its requests. -/
def State.fetchWord (s : State) (p : Place) (tenant : Nat) (va : DWord) : State × (DWord ⊕ Fetch) :=
  match s.translateFor (reqOf p) p.core tenant va .fetch with
  | (s1, .fault code) => (s1, .inr (.fault code va))
  | (s1, .ok x) =>
    match kget (s1.core p.core).icache (iKey p.part (x.key / 128)) with
    | none => (s1, .inr (.miss x))
    | some line => (s1, .inl (BitVec.ofNat 64 (line.toNat / 2 ^ (8 * (x.key % 128)))))

/-- The instruction at a PC: a class-6 instruction takes the word that follows too (R140). So does a class-6 word whose
opcode is not assigned: both words are fetched before it raises ILL (log 76). -/
def State.fetch (s : State) (p : Place) (tenant : Nat) (pc : DWord) : State × Fetch :=
  match s.fetchWord p tenant pc with
  | (s1, .inr f) => (s1, f)
  | (s1, .inl w0) =>
    if takesSecondWord w0 then
      match s1.fetchWord p tenant (pc + 8#64) with
      | (s2, .inr f) => (s2, f)
      | (s2, .inl w1) => (s2, .got (decodeWords w0 w1))
    else (s1, .got (decodeWords w0 0#64))

/-- Whether an address can be fetched from (R304), with the requests of the walk that tells. -/
def State.fetchable (s : State) (x : Agent) (va : DWord) : State × Bool :=
  match s.translateFor ((x.place.map reqOf).getD 0) x.core x.ident.tenant va .fetch with
  | (s1, .ok _) => (s1, true)
  | (s1, .fault _) => (s1, false)

/-- A user trap is taken by an agent with this pc, whose handler, where it has one, is tried first (R304). -/
def State.trapAgent (s : State) (a : Nat) (x : Agent) (c : Cause) (pc : DWord) : State :=
  if x.sys.thandler = 0#64 then s.takeTrap a c false pc
  else (s.fetchable x x.sys.thandler).1.takeTrap a c (s.fetchable x x.sys.thandler).2 pc

/-! ## Entry headers (R28) -/

/-- A header's fields, if they are those of a kernel entry; what its reserved bits hold has no effect (R6, R28). -/
def Header.ofWords (w0 w1 w2 w3 : Nat) : Option Header :=
  let h : Header :=
    { slab := ebits w0 24 18, slots := ebits w0 17 13, bars := ebits w0 12 6, budget := ebits w0 5 0,
      cbufk := ebits w1 25 18, wbufk := ebits w1 17 9, abufk := ebits w1 8 0,
      tables := ebits w3 7 3, arrays := ebits w3 2 0 }
  if w2 = 0x48455A4C ∧ 1 ≤ h.budget ∧ h.budget ≤ 48 ∧ h.slab ≤ 64 ∧ h.slots ≤ 16 ∧ h.bars ≤ 64 ∧ h.cbufk ≤ 128 ∧ h.wbufk ≤ 256 ∧
     h.abufk ≤ 256 ∧ h.tables ≤ 16 ∧ h.arrays ≤ 4 then some h else none

/-- BUDGET of a header at a call target or a continuation, where only MAGIC and BUDGET are read. -/
def budgetOfWords (w0 w2 : Nat) : Option Nat :=
  if w2 = 0x48455A4C ∧ 1 ≤ ebits w0 5 0 ∧ ebits w0 5 0 ≤ 48 then some (ebits w0 5 0) else none

/-- What reading a header at a call gives: BUDGET, an invalid header, a line that must be waited for, or a fetch fault. -/
inductive HeadRes where
  | ok (budget : Nat)
  | bad
  | wait
  | fault (code : Nat) (addr : DWord)
  deriving DecidableEq, Repr

/-- The header before an address, fetched through the partition's instruction cache (R206, R140): two aligned
doublewords. -/
def State.callHeader (s : State) (p : Place) (tenant : Nat) (va : DWord) : State × HeadRes :=
  let a := va - 16#64
  match s.translateFor (reqOf p) p.core tenant a .fetch with
  | (s1, .fault code) => (s1, .fault code a)
  | (s1, .ok x) =>
    if s1.codeHeld p x.key then (s1, .wait) else
    let (s2, lo) := s1.iread p tenant x 8
    match s2.translateFor (reqOf p) p.core tenant (va - 8#64) .fetch with
    | (s3, .fault code) => (s3, .fault code (va - 8#64))
    | (s3, .ok y) =>
      if s3.codeHeld p y.key then (s3, .wait) else
      let (s4, hi) := s3.iread p tenant y 8
      match budgetOfWords (lo % 4294967296) (hi % 4294967296) with
      | some b => (s4, .ok b)
      | none => (s4, .bad)

end Sys2Proof.Machine
end

