-- ==== Sys2Proof/Machine/Memory.lean ====
section
/-! DEFINITION. Class 2 at issue: loads, stores, gathers, scatters, buffer accesses, atomics, fences, prefetches, walks and
cache control (R218 to R231, R239 to R244). An instruction that issues enters its agent's work in flight; the steps of
MemSys perform it. -/

namespace Sys2Proof.Machine

/-! ## Widths and extensions (R157, R68) -/

/-- A loaded value as its register takes it (R68, R223). -/
def LdKind.extend (k : LdKind) (v : Nat) : DWord :=
  match k with
  | .n8 => iBits .n8 v
  | .i8 => iBits .i8 v
  | .n16 => iBits .n16 v
  | .i16 => iBits .i16 v
  | .w32 => iBits .n32 v
  | .w64 => iBits .n64 v

/-- The kind of a load of so many bytes, natural. -/
def kindOfBytes : Nat → LdKind
  | 1 => .n8
  | 2 => .n16
  | 4 => .w32
  | _ => .w64

/-! ## Common steps of issue -/

/-- The lanes of an access: each active lane of a vector form, or one access in the lowest active lane (R219). -/
def Ctx.accLanes (c : Ctx) (vector : Bool) : List Nat := if vector then lanesOf c.act else [lowLane c.act]

/-- The lane whose registers an access reads: its own, or the lowest active one for predicates (R197). -/
def Ctx.srcLane (c : Ctx) (vector : Bool) (l : Nat) : Nat := if vector then l else lowLane c.act

/-- The checks of R219 on addresses: every lane aligned, then bits 63:57 zero, each for the lowest lane at fault. -/
def addrCheck (width : Nat) (wr : Bool) (addrs : List (Nat × DWord)) : Option Flt :=
  match addrs.find? (fun a => a.2.toNat % width != 0) with
  | some (l, a) => some ⟨codeMisaligned, a, l, wr, false⟩
  | none =>
    match addrs.find? (fun a => decide (a.2.toNat ≥ 144115188075855872)) with
    | some (l, a) => some ⟨codeProtection, a, l, wr, false⟩
    | none => none

/-- The distinct numbers among these. -/
def distinct (l : List Nat) : Nat := l.eraseDups.length

/-- The 256-byte lines of an instruction's lanes that have not performed: a request each (R96). -/
def MemOp.lines (o : MemOp) : Nat :=
  distinct ((o.lanes.filter fun l => match l.st with | .done | .dropped => false | _ => true).map fun l =>
    l.va.toNat / 256)

/-- The request entries that an instruction holds: none while it waits for them after a restore. -/
def MemOp.requests (o : MemOp) : Nat := if o.waiting then 0 else o.lines

/-- Addresses whose translation is outstanding (R91). -/
def MemOp.untranslated (o : MemOp) : List DWord := (o.lanes.filter fun l => l.st == .fresh).map LaneOp.va

/-- The miss entries that an instruction holds: of those it took, the ones whose pages a lane still waits for (R91). -/
def MemOp.pages (o : MemOp) : List PageName := o.missed.filter fun k => o.untranslated.any (PageName.has k)

/-- The lanes of a walk that have not ended, and the request entries that it holds, one for each (R239). -/
def Chase.open (h : Chase) : Nat := (h.lanes.filter fun l => l.status.isNone).length
def Chase.requests (h : Chase) : Nat := if h.waiting then 0 else h.open

/-- The request entries that the agents of a core hold (R96, R239). -/
def State.requestsHeld (s : State) (core : Nat) : Nat :=
  (s.agents.filter fun e => e.2.core == core && e.2.place.isSome).foldl (fun n e =>
    n + (e.2.flight.ops.map MemOp.requests).sum + (e.2.flight.chases.map Chase.requests).sum) 0

/-- The distinct pages of these addresses that a core's L1 TLB does not hold: lanes that miss on one page share one miss
(R91). -/
def State.missesOf (s : State) (core tenant : Nat) (vas : List DWord) : List PageName :=
  ((vas.filter fun v => (s.pageOf core tenant v).isNone).map (s.pageName core tenant)).eraseDups

/-- The distinct misses that are outstanding on a core (R91). -/
def State.pagesMissed (s : State) (core : Nat) : List PageName :=
  ((s.agents.filter fun e => e.2.core == core && e.2.place.isSome).flatMap fun e =>
    e.2.flight.ops.flatMap MemOp.pages).eraseDups

/-- There is room for these misses on a core: a hit takes none (R91). -/
def State.missRoom (s : State) (core : Nat) (new : List PageName) : Bool :=
  new.isEmpty || decide ((new ++ s.pagesMissed core).eraseDups.length ≤ 1024)

/-- There is room on a core for so many requests and for the misses that these addresses need (R91, R96). -/
def State.roomFor (s : State) (core tenant lines : Nat) (vas : List DWord) : Bool :=
  decide (s.requestsHeld core + lines ≤ 4096) && s.missRoom core (s.missesOf core tenant vas)

/-- The registers of a destination. -/
def dstRegs (d : Opnd) (wide : Bool) : List Opnd := (useDst wide .vecScal d).regList

/-- Registers pending on an instruction in flight (R99). -/
def pendOn (rs : List Opnd) (id : Nat) (f : Flight) : Flight := { f with pend := f.pend ++ rs.map fun r => (r, id) }

/-- Sampling (R325): the class bit of `sys.samp` selects the instruction; every PERIOD-th selected one is sampled. -/
def Sys.sample (y : Sys) (bit : Nat) : Sys × Bool :=
  let period := y.samp.toNat % 65536
  if y.samp.getLsbD bit && period != 0 then
    let n := y.sampCount + 1
    if n % period = 0 then ({ y with sampCount := n }, true) else ({ y with sampCount := n }, false)
  else (y, false)

/-- A logged instruction enters flight: it takes a log entry, or waits for one and for room (R91, R96, R220). -/
def Ctx.launchOp (c : Ctx) (sampBit : Nat) (mk : Nat → Nat → Bool → MemOp) : State :=
  match logFree c.ag.flight with
  | none => c.wait
  | some ix =>
    let id := c.ag.flight.nextOp
    let (y, smp) := c.ag.sys.sample sampBit
    let op := mk id ix smp
    if !c.st.roomFor c.ag.core c.ag.ident.tenant op.lines op.untranslated then c.wait
    else
      c.finish 8 fun x =>
        { x with
          sys := y
          flight := pendOn ((op.dst.map fun d => dstRegs d (op.width == 8)).getD []) id
            { x.flight with nextOp := id + 1, ops := x.flight.ops ++ [op] } }

/-- A lane of an instruction that has just issued. -/
def freshLane (l : Nat) (va x y : DWord) (target : Word) : LaneOp :=
  { lane := l, va := va, x := x, y := y, target := target, loc := none, st := .fresh, val := 0#64, mark := false,
    stamp := 0, back := false }

/-- A release is an operation of order rel or ar; an acquire one of order acq or ar (R121). -/
def Order.isRel : Order → Bool
  | .rel | .ar => true
  | _ => false

def Order.isAcq : Order → Bool
  | .acq | .ar => true
  | _ => false

/-- A logged instruction from its parts. -/
def mkOp (c : Ctx) (kind : OpKind) (width : Nat) (o : Order) (sc : Scope) (vector : Bool) (dst : Option Opnd)
    (lanes : List LaneOp) (q : Qual) (id ix : Nat) (smp : Bool) : MemOp :=
  { id := id, kind := kind, width := width, order := o, scope := sc, act := c.act, dst := dst, vector := vector,
    single := false, logIx := some ix, pc := c.pc, lanes := lanes, rest := 0, released := !Order.isRel o, written := false,
    ackDie := false, ackDev := false, ackSys := false, qual := q, sampled := smp,
    born := c.st.time, issued := c.st.sent,
    missed := c.st.missesOf c.ag.core c.ag.ident.tenant (lanes.map LaneOp.va), waiting := false }

def MemOp.setSingle (o : MemOp) (b : Bool) : MemOp := { o with single := b }
def MemOp.setRest (o : MemOp) (n : Nat) : MemOp := { o with rest := n }

/-! ## Loads and stores (R222, R223) -/

/-- The addresses of a format-M access (R156, R219). -/
def Ctx.addrsM (c : Ctx) (vector : Bool) (a : Opnd) (off : Int) (width : Nat) : List (Nat × DWord) :=
  (c.accLanes vector).map fun l =>
    (l, c.rd true a (c.srcLane vector l) + BitVec.ofInt 64 off + BitVec.ofNat 64 (if vector then l * width else 0))

/-- `ld` (R223). -/
def execLd (g : Guard) (k : LdKind) (o : Order) (sc : Scope) (d a : Opnd) (q : Qual) (off : Int) (s : State) : Out :=
  let w := LdKind.bytes k
  issueWith g (usesOf (.ld g k o sc d a q off)) 8 noCheck
    (fun c => addrCheck w false (c.addrsM (Opnd.isV d) a off w))
    (fun c => .next (c.launchOp 20 (mkOp c (.load k) w o sc (Opnd.isV d) (some d)
      ((c.addrsM (Opnd.isV d) a off w).map fun e => freshLane e.1 e.2 0#64 0#64 0#32) q))) s

/-- `st` (R223): d is read. -/
def execSt (g : Guard) (w : StWidth) (o : Order) (sc : Scope) (d a : Opnd) (q : Qual) (off : Int) (s : State) : Out :=
  let n := StWidth.bytes w
  issueWith g (usesOf (.st g w o sc d a q off)) 8 noCheck
    (fun c => addrCheck n true (c.addrsM (Opnd.isV d) a off n))
    (fun c => .next (c.launchOp 21 (mkOp c .store n o sc (Opnd.isV d) none
      ((c.addrsM (Opnd.isV d) a off n).map fun e =>
        freshLane e.1 e.2 (c.rd (n == 8) d (c.srcLane (Opnd.isV d) e.1)) 0#64 0#32) q))) s

/-- The addresses of a gather or scatter: base + off + width × index (R224). -/
def Ctx.addrsG (c : Ctx) (a b : Opnd) (off : Int) (width : Nat) : List (Nat × DWord) :=
  (lanesOf c.act).map fun l =>
    (l, c.rd true a l + BitVec.ofInt 64 off + BitVec.ofNat 64 (width * (c.rd32 b l).toNat))

/-- The service class and mark that an instruction without a qualifier carries. -/
def noQual : Qual := ⟨0, false⟩

/-- `gath` (R224): only base + off decides alignment, and every lane is then aligned. -/
def execGath (g : Guard) (k : LdKind) (d a b : Opnd) (off : Int) (s : State) : Out :=
  let w := LdKind.bytes k
  issueWith g (usesOf (.gath g k d a b off)) 8 noCheck
    (fun c => addrCheck w false (c.addrsG a b off w))
    (fun c => .next (c.launchOp 20 (mkOp c (.load k) w .relaxed .core true (some d)
      ((c.addrsG a b off w).map fun e => freshLane e.1 e.2 0#64 0#64 0#32) noQual))) s

/-- `scat` (R224). -/
def execScat (g : Guard) (w : StWidth) (d a b : Opnd) (off : Int) (s : State) : Out :=
  let n := StWidth.bytes w
  issueWith g (usesOf (.scat g w d a b off)) 8 noCheck
    (fun c => addrCheck n true (c.addrsG a b off n))
    (fun c => .next (c.launchOp 21 (mkOp c .store n .relaxed .core true none
      ((c.addrsG a b off n).map fun e => freshLane e.1 e.2 (c.rd (n == 8) d e.1) 0#64 0#32) noQual))) s

/-! ## Typed buffers (R16, R54, R225) -/

def bufCode : Buf → Nat
  | .abuf => 0
  | .wbuf => 1
  | .cbuf => 2

/-- The bytes of a gang's grant of a buffer (R28, R54). -/
def Header.grant (h : Header) : Buf → Nat
  | .abuf => h.abufk * 1024
  | .wbuf => h.wbufk * 1024
  | .cbuf => h.cbufk * 1024

/-- The end of a buffer's grant region: 256 KiB, 256 KiB, 128 KiB (R15). -/
def bufSize : Buf → Nat
  | .abuf => 262144
  | .wbuf => 262144
  | .cbuf => 131072

/-- A range of a buffer can be reached: within the grant, or for ABUF wholly in the converted ways; never on both sides
(R16, R54). -/
def rangeOk (h : Header) (ways : Nat) (b : Buf) (off len : Nat) : Bool :=
  decide (off + len ≤ h.grant b) ||
  (b == .abuf && decide (262144 ≤ off) && decide (off + len ≤ 262144 + ways * 16384))

/-- The ways whose ranges accesses reach now: while a reduction is under way, the count asked for (R240). -/
def Core.topWays (x : Core) : Nat := if x.converting then min x.ways x.waysAsked else x.ways

/-- A gang's header; none of its grants where there is no gang. -/
def noHeader : Header :=
  { slab := 0, slots := 0, bars := 0, budget := 1, cbufk := 0, wbufk := 0, abufk := 0, tables := 0, arrays := 0 }

def Ctx.header (c : Ctx) : Header := ((c.st.gangOf c.ag).map Gang.header).getD noHeader

/-- The ways in reach of the issuing agent. -/
def Ctx.ways (c : Ctx) : Nat := (c.st.core c.ag.core).topWays

/-- A buffer offset is an n32 (R219); base, field and lane add modulo 2^32. -/
def Ctx.bufOffs (c : Ctx) (vector : Bool) (a : Opnd) (off : Int) (width : Nat) : List (Nat × Nat) :=
  (c.accLanes vector).map fun l =>
    (l, (c.one32 a + BitVec.ofInt 32 off + BitVec.ofNat 32 (if vector then l * width else 0)).toNat)

/-- The lowest lane of an ABUF access with bytes from `0x4_0000` upward, where others lie below (R16). -/
def straddles (b : Buf) (width : Nat) (offs : List (Nat × Nat)) : Option (Nat × Nat) :=
  if b == .abuf && offs.any (fun e => decide (e.2 < 262144)) then offs.find? fun e => decide (262144 < e.2 + width)
  else none

/-- The checks of R219 on a buffer access: misalignment, then protection (R16, R43, R54). -/
def bufCheck (c : Ctx) (b : Buf) (wr : Bool) (width : Nat) (offs : List (Nat × Nat)) : Option Flt :=
  match offs.find? (fun e => e.2 % width != 0) with
  | some (l, a) => some ⟨codeMisaligned, BitVec.ofNat 64 a, l, wr, false⟩
  | none =>
    match straddles b width offs with
    | some (l, a) => some ⟨codeProtection, BitVec.ofNat 64 a, l, wr, false⟩
    | none =>
      match offs.find? (fun e => (wr && b != .abuf) || !rangeOk c.header c.ways b e.2 width) with
      | some (l, a) => some ⟨codeProtection, BitVec.ofNat 64 a, l, wr, false⟩
      | none => none

/-- A buffer access enters flight, or waits while its counter stands at 63 (R100). -/
def Ctx.launchBuf (c : Ctx) (store : Bool) (k : LdKind) (b : Buf) (vector : Bool) (dst : Option Opnd)
    (lanes : List BufLane) : State :=
  if (if store then stbCount c.ag.flight else ldbCount c.ag.flight) ≥ 63 then c.wait
  else
    let id := c.ag.flight.nextOp
    let op : BufOp := { id := id, store := store, k := k, width := LdKind.bytes k, buf := b, act := c.act, dst := dst,
                        vector := vector, lanes := lanes }
    c.finish 8 fun x => x.mapFlight fun f =>
      pendOn ((dst.map fun d => dstRegs d (LdKind.bytes k == 8)).getD []) id
        { f with nextOp := id + 1, bufOps := f.bufOps ++ [op] }

/-- `ldb` (R225). -/
def execLdb (g : Guard) (k : LdKind) (b : Buf) (d a : Opnd) (off : Int) (s : State) : Out :=
  let w := LdKind.bytes k
  issueWith g (usesOf (.ldb g k b d a off)) 8 noCheck
    (fun c => bufCheck c b false w (c.bufOffs (Opnd.isV d) a off w))
    (fun c => .next (c.launchBuf false k b (Opnd.isV d) (some d)
      ((c.bufOffs (Opnd.isV d) a off w).map fun e => ⟨e.1, e.2, 0#64, false, 0#64, false⟩))) s

/-- `stb` (R225): a store to WBUF or CBUF is a protection fault (R16). -/
def execStb (g : Guard) (w : StWidth) (b : Buf) (d a : Opnd) (off : Int) (s : State) : Out :=
  let n := StWidth.bytes w
  issueWith g (usesOf (.stb g w b d a off)) 8 noCheck
    (fun c => bufCheck c b true n (c.bufOffs (Opnd.isV d) a off n))
    (fun c => .next (c.launchBuf true (kindOfBytes n) b (Opnd.isV d) none
      ((c.bufOffs (Opnd.isV d) a off n).map fun e =>
        ⟨e.1, e.2, c.rd (n == 8) d (c.srcLane (Opnd.isV d) e.1), false, 0#64, false⟩))) s

/-! ## Atomics and reductions (R226 to R229) -/

/-- An atomic is per lane where a names a vector, or where d or b does (R227). -/
def Ctx.atomAddrs (c : Ctx) (a : Opnd) (vector : Bool) : List (Nat × DWord) :=
  (c.accLanes vector).map fun l => (l, c.rd true a (c.srcLane vector l))

/-- The operand of an atomic for a lane, read in the type of its kind (R149, R150). -/
def Ctx.atomVal (c : Ctx) (k : AKind) (b : Opnd) (l : Nat) : DWord :=
  match k with
  | .f32 => c.rdF .f32 b l
  | k => c.rd (AKind.wide k) b l

/-- The second operand of `cas` for a lane (R226). -/
def Ctx.casSecond (c : Ctx) (op : AOp) (k : AKind) (b : Opnd) (l : Nat) : DWord :=
  match op, b with
  | .cas, .v n => c.rd (AKind.wide k) (.v (n + (if AKind.wide k then 2 else 1))) l
  | .cas, .s n => c.rd (AKind.wide k) (.s (n + (if AKind.wide k then 2 else 1))) l
  | _, _ => 0#64

/-- `atom` (R226, R227): a vector a with a scalar d is ILLOP. -/
def execAtom (g : Guard) (op : AOp) (k : AKind) (o : Order) (sc : Scope) (d a b : Opnd) (s : State) : Out :=
  let w := AKind.bytes k
  let vector := Opnd.isV a || Opnd.isV d || Opnd.isV b
  issueWith g (usesOf (.atom g op k o sc d a b)) 8 noCheck
    (fun c => addrCheck w true (c.atomAddrs a vector))
    (fun c => .next (c.launchOp 22 (mkOp c (.atom op k) w o sc vector (some d)
      ((c.atomAddrs a vector).map fun e =>
        freshLane e.1 e.2 (c.atomVal k b (c.srcLane vector e.1))
          (c.casSecond op k b (c.srcLane vector e.1)) 0#32) noQual))) s

/-- `red` (R228). -/
def execRed (g : Guard) (op : AOp) (k : AKind) (o : Order) (sc : Scope) (a b : Opnd) (s : State) : Out :=
  let w := AKind.bytes k
  let vector := Opnd.isV a || Opnd.isV b
  issueWith g (usesOf (.red g op k o sc a b)) 8 noCheck
    (fun c => addrCheck w true (c.atomAddrs a vector))
    (fun c => .next (c.launchOp 22 (mkOp c (.red op k) w o sc vector none
      ((c.atomAddrs a vector).map fun e =>
        freshLane e.1 e.2 (c.atomVal k b (c.srcLane vector e.1)) 0#64 0#32) noQual))) s

/-- The target word of `red.ret` (R229). -/
def tgtOff (t : Word) : Nat := t.toNat % 524288
def tgtBar (t : Word) : Nat := t.toNat / 16777216 % 64
def tgtPos (t : Word) : Nat := t.toNat / 1073741824

/-- A barrier instruction of a task (R44). -/
def barctx (c : Ctx) : Option Flt := if c.ag.task then some (flt codeBarctx) else none

/-- The checks of `red.ret` (R229): in misalignment and in protection the target word before the address. -/
def redRetCheck (c : Ctx) (w : Nat) (tgts : List (Nat × Word)) (addrs : List (Nat × DWord)) : Option Flt :=
  let cores := ((c.st.gangOf c.ag).map fun g => g.cores.length).getD 1
  match tgts.find? (fun t => tgtOff t.2 % w != 0) with
  | some (l, t) => some ⟨codeMisaligned, BitVec.ofNat 64 (tgtOff t), l, true, false⟩
  | none =>
    match addrs.find? (fun a => a.2.toNat % w != 0) with
    | some (l, a) => some ⟨codeMisaligned, a, l, true, false⟩
    | none =>
      match tgts.find? (fun t => decide (tgtPos t.2 ≥ cores) || decide (tgtBar t.2 ≥ c.header.bars) ||
          t.2.toNat / 524288 % 32 != 0 || decide (tgtOff t.2 + w > c.header.grant .abuf)) with
      | some (l, t) => some ⟨codeProtection, BitVec.ofNat 64 (tgtOff t), l, true, false⟩
      | none => addrCheck w true addrs

/-- `red.ret` (R229): per lane when any field names a vector; one atomic for all targets where address and operand are
single. -/
def execRedRet (g : Guard) (op : AOp) (k : AKind) (o : Order) (sc : Scope) (d a b : Opnd) (s : State) : Out :=
  let w := AKind.bytes k
  let vector := Opnd.isV a || Opnd.isV d || Opnd.isV b
  issueWith g (usesOf (.redRet g op k o sc d a b)) 8 barctx
    (fun c => redRetCheck c w ((c.accLanes vector).map fun l => (l, c.rd32 d (c.srcLane vector l)))
      (c.atomAddrs a vector))
    (fun c => .next (c.launchOp 22 (fun id ix smp =>
      (mkOp c (.redRet op k) w o sc vector none
        ((c.atomAddrs a vector).map fun e =>
          freshLane e.1 e.2 (c.atomVal k b (c.srcLane vector e.1)) 0#64
            (c.rd32 d (c.srcLane vector e.1))) noQual id ix smp).setSingle
        (vector && !Opnd.isV a && !Opnd.isV b)))) s

/-! ## Fences, prefetches, cache control -/

/-- The agent waits after issue, from now on; its head run stays at the instruction, and its lanes are kept (R165). -/
def Ctx.holdAs (c : Ctx) (h : Hold) : State :=
  c.st.setAgent c.key (c.ag.mapCtl fun x => { x with hold := h, waitRun := c.run, waitSince := some c.st.time })

/-- `fence` (R230): it ends at RELEASE_PROCEED. -/
def execFence (g : Guard) (o : Order) (sc : Scope) (s : State) : Out :=
  issue g [] (fun c => c.holdAs (.fence o sc)) s

/-- A location's L1 set of 16 ways: 256 sets of 64-byte lines (R18). -/
def l1Set (line : Nat) : Nat := line % 256

/-- The ways of the cache that fills may take: those not converted and not converting (R19, R240). -/
def Core.cacheWays (x : Core) : Nat := 16 - max x.ways (if x.converting then x.waysAsked else 0)

/-- Lines of a set that stand in a way. -/
def Core.linesAt (x : Core) (line way : Nat) : List Nat :=
  (x.l1.filter fun e => l1Set e.1 == l1Set line && e.2.way == way).map fun e => e.1

/-- A 64-byte line as its home holds it, in this way; the line that stood there leaves (R94). -/
def State.fillL1 (s : State) (core line way : Nat) : State :=
  let x := s.core core
  if way < x.cacheWays then
    let fresh : L1Line :=
      { way := way, data := BitVec.ofNat 512 (s.lineBits (line * 64) 64),
        marks := setBit (setBit 0#2 0 (nhas s.memMark (2 * line))) 1 (nhas s.memMark (2 * line + 1)) }
    s.setCore core { x with l1 := kput ((x.linesAt line way).foldl kdel x.l1) line fresh }
  else s

/-- The way a fill takes where nothing else names it: a free one, else way 0 (log 17). -/
def Core.pickWay (x : Core) (line : Nat) : Nat :=
  ((List.range x.cacheWays).find? fun w => (x.linesAt line w).isEmpty).getD 0

/-- The origin of a prefetch (R103, R231). -/
def prefOrigin (p : Place) (q : Qual) : Origin := ⟨if q.cls = 0 then 3 else q.cls, 0, reqOf p, q.lu⟩

/-- `pref` (R231): its access never faults, though a marked address register raises POISON (R317, log 103). It is dropped where
translation fails, the page forbids the read or is of TIER 3, or no request entry is free; a walk that tells so has made its
requests (R102). Every sector of the 256 B line is requested at its home, and the L1 line is filled, unless a write goes before
the read (R117, R120) or an engine owns the line (R130, log 102). -/
def execPref (g : Guard) (a : Opnd) (q : Qual) (off : Int) (s : State) : Out :=
  issue g (usesOf (.pref g a q off)) (fun c =>
    let va := c.rd true a 0 + BitVec.ofInt 64 off
    let s1 := c.finish 8 id
    if c.st.requestsHeld c.ag.core ≥ 4096 then s1
    else
      match s1.translateFor (reqOf (c.ag.place.getD ⟨0, 0, 0⟩)) c.ag.core c.ag.ident.tenant va .read with
      | (s', .ok x) =>
        let s2 := if x.tier = 3 then s' else
          s'.homeReads (prefOrigin (c.ag.place.getD ⟨0, 0, 0⟩) q) c.ag.die [({ x with key := x.key / 256 * 256 }, 256)]
        if x.inL1 && (kget (s2.core c.ag.core).l1 (x.key / 64)).isNone && !s2.lineHeld c.ag.core .any (x.key / 64) then
          s2.fillL1 c.ag.core (x.key / 64) ((s2.core c.ag.core).pickWay (x.key / 64))
        else s2
      | (s', .fault _) => s') s

/-- `ipref` (R231): dropped as `pref` is (log 103); a line that its partition's instruction cache does not hold is read as a
fetch reads it (R102, R103, R156). Where the read is held at the line's home, the instruction waits at issue (R120, R130, log
102). -/
def execIpref (g : Guard) (a : Opnd) (off : Int) (s : State) : Out :=
  issue g (usesOf (.ipref g a off)) (fun c =>
    let va := c.rd true a 0 + BitVec.ofInt 64 off
    let p := c.ag.place.getD ⟨0, 0, 0⟩
    let s1 := c.finish 8 id
    if c.st.requestsHeld c.ag.core ≥ 4096 then s1
    else
      match s1.translateFor (reqOf p) p.core c.ag.ident.tenant va .fetch with
      | (s2, .ok x) =>
        if x.tier = 3 ∨ (kget (s2.core p.core).icache (iKey p.part (x.key / 128))).isSome then s2
        else if s2.codeHeld p x.key then c.wait
        else s2.codeFill p c.ag.ident.tenant x none
      | (s2, .fault _) => s2) s

/-- `waitc` (R242): it ends at WAITC_RELEASE. -/
def execWaitc (g : Guard) (ld st tl : Nat) (s : State) : Out :=
  issue g [] (fun c => c.holdAs (.waitc ld st tl)) s

/-- `cinv.d` (R243). -/
def execCinvD (g : Guard) (s : State) : Out :=
  issue g [] (fun c => (c.finish 8 id).invalL1 c.ag.core) s

/-- `cinv.i` (R243): all eight partitions. -/
def execCinvI (g : Guard) (s : State) : Out :=
  issue g [] (fun c => (c.finish 8 id).invalIcache c.ag.core) s

/-- `cflush` (R244): a length of 0 has no effect. -/
def execCflush (g : Guard) (a b : Opnd) (s : State) : Out :=
  issueWith g (usesOf (.cflush g a b)) 8 noCheck
    (fun c => if c.one32 b = 0#32 then none else addrCheck 1 false [(lowLane c.act, c.rd true a 0)])
    (fun c => .next (
      if c.one32 b = 0#32 then c.finish 8 id
      else c.launchOp 31 (fun id ix smp =>
        (mkOp c .flush 1 .relaxed .core false none [freshLane (lowLane c.act) (c.rd true a 0) 0#64 0#64 0#32] noQual
          id ix smp).setRest
          (c.one32 b).toNat))) s

/-- A copy reads or writes ABUF. -/
def CopyKind.inAbuf : CopyKind → Bool
  | .abuf => true
  | .mc => true
  | .out cbuf => !cbuf
  | .quant w _ _ _ _ _ => !w
  | .wbuf => false

/-- Widths of the types of tooling and quantising commands (R151). -/
def typeBytes : Nat → Nat
  | 0 | 1 => 1
  | 2 | 3 | 8 | 9 => 2
  | _ => 4

/-- Bytes of a copy's destination. -/
def Copy.dstBytes (k : Copy) : Nat :=
  match k.kind with
  | .quant _ _ _ dt st _ => k.bytes / typeBytes st * typeBytes dt
  | _ => k.bytes

/-- A multicast copy of another core writes the ABUF of this one (R234). -/
def State.multicastTo (s : State) (core : Nat) (k : Copy) : Bool :=
  k.kind == .mc && ((s.gang? k.gang).map fun g => g.cores.contains core).getD false

/-- The copies and tooling commands whose range lies in the ways of a core from count n up are to stop (R240). -/
def State.cancelAbove (s : State) (core n : Nat) : State :=
  let top := fun (off len : Nat) => decide (262144 ≤ off) && decide (off + len > 262144 + n * 16384)
  let cut := fun (c : Nat) (k : Copy) =>
    if (c = core ∧ k.kind.inAbuf ∨ s.multicastTo core k) ∧ top k.buf k.dstBytes then { k with cancel := true } else k
  { s with cores := s.cores.map fun e => (e.1,
      { e.2 with
        copies := e.2.copies.map (cut e.1)
        tools := e.2.tools.map fun k => if e.1 = core ∧ k.buf = .abuf ∧ top k.off k.len then { k with cancel := true } else k }) }

/-- `l1cfg n` (R240): the ways that leave the cache lose their lines at once; the top of ABUF falls at once; the change
takes effect at L1_CONVERSION. -/
def execL1cfg (g : Guard) (n : Nat) (s : State) : Out :=
  issue g [] (fun c =>
    let x := c.st.core c.ag.core
    if x.converting then c.wait
    else
      let s1 := c.finish 8 id
      if n = x.ways then s1.modCore c.ag.core fun y => { y with waysAsked := n }
      else
        let s2 := s1.modCore c.ag.core fun y =>
          { y with waysAsked := n, converting := true, l1 := y.l1.filter fun e => decide (e.2.way < 16 - n) }
        if n < x.ways then s2.cancelAbove c.ag.core n else s2) s

/-- `l1cfg.q` (R241). -/
def execL1cfgQ (g : Guard) (d : Opnd) (s : State) : Out :=
  issue g (usesOf (.l1cfgQ g d)) (fun c =>
    let x := c.st.core c.ag.core
    c.putS d false (BitVec.ofNat 64 (x.ways + (if x.converting then 16 else 0) + 256 * x.waysAsked), 0#5)) s

/-! ## Walks (R239) -/

/-- The command sequence number goes up by one (R322). -/
def Agent.nextSeq (x : Agent) : Agent := x.mapEng fun e => { e with seq := e.seq + 1 }

/-- `chase` in one of its modes (R239, R108): one request entry a lane; H above 64 acts as 64, H of 0 ends the lane. -/
def execChase (mode : Nat) (g : Guard) (d a b h : Opnd) (s : State) : Out :=
  issueWith g (chaseUses mode d a b h) 8 noCheck noCheck
    (fun c =>
      let ls := lanesOf c.act
      if c.st.requestsHeld c.ag.core + (ls.filter fun l => c.rd32 h l != 0#32).length > 4096 then .next c.wait
      else
        let id := c.ag.flight.nextOp
        let (y, smp) := c.ag.sys.sample 23
        let mkLane := fun l =>
          let hh := (c.rd32 h l).toNat
          ({ lane := l, p := c.rd true a l, seed := c.rd32 (.v (Opnd.num d + 2)) l,
             limit := min hh 64, hops := 0, status := if hh = 0 then some 1 else none } : ChaseLane)
        let op : Chase :=
          { id := id, mode := mode, d := Opnd.num d, act := c.act, base := c.rd true b 0,
            off := c.rd32 (.s (Opnd.num b + 2)) 0, lanes := ls.map mkLane, touched := [], seq := c.ag.eng.seq,
            label := (c.ag.sys.labels.head?, c.ag.sys.lovf), held := false, released := false, sampled := smp, pc := c.pc, born := c.st.time,
            waiting := false }
        .next (c.finish 8 fun x =>
          Agent.nextSeq { x with
            sys := y
            flight := pendOn [.v (Opnd.num d), .v (Opnd.num d + 1), .v (Opnd.num d + 2)] id
              { x.flight with nextOp := id + 1, chases := x.flight.chases ++ [op] } })) s

/-- `chase.link` (R239). -/
def execChaseLink (g : Guard) (d a b c : Opnd) (s : State) : Out := execChase 0 g d a b c s

/-- `chase.index` (R239). -/
def execChaseIndex (g : Guard) (d a b c : Opnd) (s : State) : Out := execChase 1 g d a b c s

/-- `chase.sample` (R239). -/
def execChaseSample (g : Guard) (d a b c : Opnd) (s : State) : Out := execChase 2 g d a b c s

end Sys2Proof.Machine
end

