-- ==== Sys2Proof/Machine/Order.lean ====
section
/-! DEFINITION. What an agent's memory instructions in flight wait for: older work of the agent (R116 to R118, R121, R125), what
its die has sent (R123), and what a fault holds (R221, R311). -/

namespace Sys2Proof.Machine

/-! ## Lanes of an instruction in flight -/

def LaneSt.isFresh : LaneSt → Bool
  | .fresh => true
  | _ => false

def LaneSt.isFaulted : LaneSt → Bool
  | .faulted _ => true
  | _ => false

def LaneSt.isReady : LaneSt → Bool
  | .ready => true
  | _ => false

def LaneSt.isDrained : LaneSt → Bool
  | .drained => true
  | _ => false

/-- A lane of an atomic that has not performed: still with its agent, or sent to its home. -/
def LaneSt.toDo : LaneSt → Bool
  | .ready => true
  | .sent => true
  | _ => false

/-- A lane that has performed, or never will. -/
def LaneSt.isOver : LaneSt → Bool
  | .done => true
  | .dropped => true
  | _ => false

/-- A lane is one of the mask. -/
def LaneOp.among (l : LaneOp) (m : Lanes) : Bool := m.getLsbD l.lane

/-- A lane's location; one that has none lies beyond every location. -/
def LaneOp.key (l : LaneOp) : Nat := (l.loc.map Xlat.key).getD (2 ^ 200)

/-- Two lanes of accesses of w and v bytes share a byte. -/
def overlap (w : Nat) (l : LaneOp) (v : Nat) (m : LaneOp) : Bool :=
  l.loc.isSome && m.loc.isSome && decide (l.key < m.key + v) && decide (m.key < l.key + w)

/-- The lane is of a page under total store order: TIER 0 or 1, cacheable (R118). -/
def LaneOp.tso (l : LaneOp) : Bool := (l.loc.map fun x => x.cached && decide (x.tier ≤ 1)).getD false

/-- The lane's page is cached by the L1 (R94). -/
def LaneOp.inL1 (l : LaneOp) : Bool := (l.loc.map Xlat.inL1).getD false

/-- What an instruction is. -/
def MemOp.isLoad (o : MemOp) : Bool :=
  match o.kind with
  | .load _ => true
  | _ => false

def MemOp.isPlainStore (o : MemOp) : Bool :=
  match o.kind with
  | .store => true
  | _ => false

def MemOp.isFlush (o : MemOp) : Bool :=
  match o.kind with
  | .flush => true
  | _ => false

def MemOp.isAtomic (o : MemOp) : Bool := !(o.isLoad || o.isPlainStore || o.isFlush)

/-- The scope is `die` or wider. -/
def Scope.wide : Scope → Bool
  | .core => false
  | _ => true

/-- An atomic of the L1 atomic unit (R125). -/
def MemOp.isCoreAtomic (o : MemOp) : Bool := o.isAtomic && !Scope.wide o.scope

/-- An atomic that takes its place in its agent's order (R118, R125): relaxed ones of `die` scope or wider take none. -/
def MemOp.ordered (o : MemOp) : Bool := o.isAtomic && (!Scope.wide o.scope || o.order != .relaxed)

/-- Two accesses of one agent, both of pages under total store order, take effect in its issue order (R118). -/
def tsoPair (l m : LaneOp) : Bool := l.tso && m.tso

/-- Two lanes lie on one line of 256 bytes, so that their instruction makes one request for both (R96). -/
def LaneOp.sameLine (l k : LaneOp) : Bool := l.loc.isSome && k.loc.isSome && l.key / 256 == k.key / 256

/-- The lanes of an instruction that the test picks and that lie on one line with a lane of the mask are of the mask too: one
request carries them (R96), and of lanes that write one byte the highest decides (R115). -/
def MemOp.closed (o : MemOp) (m : Lanes) (test : LaneOp → LaneOp → Bool) : Bool :=
  o.lanes.all fun l => !(l.among m) || o.lanes.all fun k => k.among m || !(l.sameLine k && test l k)

/-- An access that reads at the home slice and never in the L1: an acquire at `die` scope or wider (R95, R223). -/
def MemOp.acquiresWide (o : MemOp) : Bool := Order.isAcq o.order && Scope.wide o.scope

/-- Some part has still to take effect: not performed, and for a store still in the queue. -/
def MemOp.undone (o : MemOp) : Bool :=
  o.lanes.any fun l => l.st.isFresh || l.st.isFaulted || l.st.toDo

/-- An acquire that has not performed, or whose invalidation is still to come (R121). -/
def MemOp.acquireOpen (o : MemOp) : Bool := Order.isAcq o.order && (o.undone || (o.returns && !o.written))

/-- The instructions of an agent that are older than number id. -/
def Flight.older (f : Flight) (id : Nat) : List MemOp := f.ops.filter fun o => decide (o.id < id)

/-- An older acquire keeps younger accesses waiting (R121). -/
def Flight.acquireWaits (f : Flight) (id : Nat) : Bool := (f.older id).any MemOp.acquireOpen

/-! ## Order within an agent (R116 to R118, R121, R125) -/

/-- A lane of a load must wait for older work of its agent: an acquire (R121), an older access that has still to be translated
and may be of its location, one that is and has not taken effect (R116), or one that goes before it under total store order
(R118). -/
def loadWaits (f : Flight) (o : MemOp) (l : LaneOp) : Bool :=
  f.acquireWaits o.id ||
  (f.older o.id).any fun q => q.lanes.any fun m =>
    if q.isLoad then
      m.st.isFresh || (m.st.isReady && (tsoPair l m || overlap o.width l q.width m))
    else if q.isPlainStore then m.st.isFresh || (m.st.isDrained && overlap o.width l q.width m)
    else if q.isFlush then false
    else m.st.isFresh || (m.st.toDo && (q.ordered && tsoPair l m || overlap o.width l q.width m)) ||
      (m.st.isDrained && overlap o.width l q.width m)

/-- A store of the agent may not leave its queue yet (R116 to R118, R121). -/
def drainWaits (f : Flight) (o : MemOp) (l : LaneOp) : Bool :=
  !o.released || f.acquireWaits o.id ||
  (f.older o.id).any fun q => q.lanes.any fun m =>
    if q.isPlainStore then m.st.isFresh || m.st.isReady
    else if q.isLoad then m.st.isFresh || (m.st.isReady && (m.tso || overlap o.width l q.width m))
    else if q.isFlush then false
    else m.st.isFresh || (m.st.toDo && (q.isCoreAtomic || q.ordered && tsoPair l m || overlap o.width l q.width m))

/-- A lane of an atomic must wait for older work of its agent (R116, R118, R121, R125): one of the L1 unit for every older
store in the queue, one that is not relaxed for what goes before it under total store order. -/
def atomWaits (f : Flight) (o : MemOp) (l : LaneOp) : Bool :=
  !o.released || f.acquireWaits o.id ||
  (f.older o.id).any fun q => q.lanes.any fun m =>
    if q.isFlush then false
    else m.st.isFresh || (m.st.toDo && (overlap o.width l q.width m ||
        (o.isCoreAtomic && (q.isPlainStore || q.isCoreAtomic || (q.isLoad && m.tso))) ||
        (o.ordered && tsoPair l m && (!q.isAtomic || q.ordered)))) ||
      (m.st.isDrained && overlap o.width l q.width m)

/-! ## Releases (R121, R123, R129, R275) -/

/-- What a release waits for: the older work of its agent, and at `device` scope or wider what its die has sent (R121, R123,
R127, R275). -/
def State.releaseReady (s : State) (x : Agent) (sc : Scope) (id : Nat) : Bool :=
  x.flight.releaseReady sc id && (!Scope.pastDie sc || s.landed x.die)

/-! ## What a fault holds (R221, R311, log 56) -/

/-- The handles that a set instruction names (R276). -/
def SetOp.handles (o : SetOp) : List Word :=
  match o.instr with
  | .setNew .. => []
  | .setOr .. => [o.ha, o.hb, o.hc]
  | .setAnd .. => [o.ha, o.hb, o.hc]
  | .setSub .. => [o.ha, o.hb, o.hc]
  | _ => [o.ha]

/-- Two set instructions name one handle, so that they keep their order (R133). -/
def SetOp.meets (o q : SetOp) : Bool := o.handles.any fun h => q.handles.contains h

/-- Of an agent's set instructions, those that a breakpoint holds, and those behind one of these on a handle (R133, R323). -/
def blockedSets (l : List SetOp) : List SetOp :=
  l.foldl (fun b o => if o.held || b.any (SetOp.meets o) then b ++ [o] else b) []

/-- An older memory instruction of the agent waits on a fault, or an older set instruction is held, so that what follows it may
have to wait with it. -/
def Flight.behindFault (f : Flight) (id : Nat) : Bool :=
  ((f.older id).any fun o => o.lanes.any fun l => l.st.isFaulted) || f.setOps.any fun o => o.held && decide (o.id < id)

/-- A part that is ready waits for older work of its agent. -/
def Flight.laneWaits (f : Flight) (o : MemOp) (l : LaneOp) : Bool :=
  if o.isLoad then loadWaits f o l
  else if o.isPlainStore then drainWaits f o l
  else atomWaits f o l

/-- Nothing of an instruction is still to come but parts that have met a fault or that must wait behind one. -/
def Flight.stuck (f : Flight) (o : MemOp) : Bool :=
  o.lanes.all fun l => l.st.isOver || l.st.isFaulted || (l.st.isReady && f.behindFault o.id && f.laneWaits o l)

/-- What a set instruction or a walk waits for, whose issue is a release at `device` scope (R129, R133): the older work of its
agent, but for parts that stay recorded behind a fault, which are performed later (R275, R311, R320), and for set instructions
that a breakpoint holds (R323). -/
def Flight.engineReady (f : Flight) (id : Nat) : Bool :=
  f.ops.all (fun o => decide (o.id ≥ id) || f.stuck o || (storesAcked .device id [o] && loadsDone id [o])) &&
  f.bufOps.all (fun b => decide (b.id ≥ id) || !b.store || (f.behindFault b.id && f.acquireWaits b.id)) &&
  f.setOps.all fun o => decide (o.id ≥ id) || (blockedSets f.setOps).any fun q => q.id == o.id

/-- The same with what the die of the agent has sent (R123, R127). -/
def State.engineReady (s : State) (x : Agent) (id : Nat) : Bool := x.flight.engineReady id && s.landed x.die

/-- It is the turn of a set instruction: all older ones of the agent that have not been performed are blocked, and it is not
(R133, R275, log 25). -/
def Flight.setTurn (f : Flight) (o : SetOp) : Bool :=
  let b := blockedSets f.setOps
  !(b.any fun q => q.id == o.id) && f.setOps.all fun q => decide (q.id ≥ o.id) || b.any fun r => r.id == q.id

end Sys2Proof.Machine
end

