-- ==== Sys2Proof/Machine/Control.lean ====
section
/-! DEFINITION. Class 1 without its arithmetic: system registers, branches, calls and ends, parking and yielding, the
register allotment, the launch queues (R199 to R217). -/

namespace Sys2Proof.Machine

/-! ## Slabs and slots (R38, R43) -/

/-- Units in use in the slab of a root warp. -/
def State.slabUsed (s : State) (root : Nat) : Nat :=
  ((s.agents.filter fun e => e.2.ident.root == root).map fun e => (e.2.recs.map ContRec.units).sum).sum

/-- The agent has ended. -/
def Agent.ended (x : Agent) : Bool :=
  match x.ctl.hold with
  | .ended _ => true
  | _ => false

/-- The agent stands in this slot; one that has ended keeps none (R209). -/
def Agent.stands (p : Place) (x : Agent) : Bool := x.place == some p && !x.ended

/-- The slots of a partition that hold an agent. -/
def State.slotsUsed (s : State) (core part : Nat) : List Nat :=
  (s.agents.filter fun e => !e.2.ended && (e.2.place.map fun p => p.core == core && p.part == part).getD false).filterMap
    fun e => e.2.place.map Place.slot

/-- The registers of a partition that its agents hold (R13). -/
def State.regsUsed (s : State) (core part : Nat) : Nat :=
  ((s.agents.filter fun e => !e.2.ended && (e.2.place.map fun p => p.core == core && p.part == part).getD false).map
    fun e => e.2.regs.alloc).sum

/-! ## System registers (R199, R200) -/

/-- The value of a system register; none for a number absent from R200. -/
def Ctx.sysReg (c : Ctx) (n : Nat) : Option Word :=
  let y := c.ag.sys
  match n with
  | 0x000 => some y.fpmode
  | 0x001 => some y.fpflags
  | 0x002 => some (if y.yreq then 1#32 else 0#32)
  | 0x003 => some (if !c.ag.task && c.ag.ident.widx == 0 then 1#32 else 0#32)
  | 0x004 => some (BitVec.ofNat 32 c.ag.regs.alloc)
  | 0x005 => some (BitVec.ofNat 32 (c.ag.slab * 256 + c.st.slabUsed c.ag.ident.root))
  | 0x008 => some (y.tcmp.setWidth 32)
  | 0x009 => some ((y.tcmp >>> 32).setWidth 32)
  | 0x00A => some y.tcause
  | 0x00C => some (y.thandler.setWidth 32)
  | 0x00D => some ((y.thandler >>> 32).setWidth 32)
  | 0x010 => some y.samp
  | _ => none

/-- The numbers of R200. -/
def sysKnown (n : Nat) : Bool :=
  n ≤ 5 || n == 8 || n == 9 || n == 0xA || n == 0xC || n == 0xD || n == 0x10

/-- A write to a system register: bits that are RO keep their value (R6, R73, R200, R303, R325). -/
def Sys.write (y : Sys) (n : Nat) (w : Word) : Sys :=
  match n with
  | 0x000 => { y with fpmode := w &&& 0x13#32 }
  | 0x001 => { y with fpflags := w &&& 0x1F#32 }
  | 0x008 => { y with tcmp := (y.tcmp &&& 0xFFFFFFFF00000000#64) ||| w.setWidth 64 }
  | 0x009 => { y with tcmp := (w.setWidth 64 <<< 32) ||| (y.tcmp &&& 0xFFFFFFFF#64) }
  | 0x00C => { y with thandler := (y.thandler &&& 0xFFFFFFFF00000000#64) ||| (w.setWidth 64 &&& 0xFFFFFFF8#64) }
  | 0x00D => { y with thandler := (w.setWidth 64 <<< 32) ||| (y.thandler &&& 0xFFFFFFFF#64) }
  | 0x010 => { y with samp := w &&& 0x00F0FFFF#32, sampCount := 0 }
  | _ => y

/-- `srd` (R199). -/
def execSrd (g : Guard) (reg : Nat) (d : Opnd) (s : State) : Out :=
  issue g (illIf (!sysKnown reg) ++ usesOf (.srd g reg d))
    (fun c => c.putS d false (((c.sysReg reg).getD 0#32).setWidth 64, 0#5)) s

/-- `swr` (R199). -/
def execSwr (g : Guard) (reg : Nat) (a : Opnd) (s : State) : Out :=
  issue g (illIf (!sysKnown reg) ++ usesOf (.swr g reg a))
    (fun c => c.finish 8 (Agent.mapSys fun y => y.write reg (c.one32 a))) s

/-! ## Branches (R202 to R205) -/

/-- The lanes of m move to their targets and the rest of the run advances by n (R202). -/
def Ctx.jump (c : Ctx) (n : Nat) (m : Lanes) (tgt : Nat → DWord) (f : Agent → Agent) : State :=
  c.st.setAgent c.key ((f c.ag).mapCtl fun x => (x.advance (c.run &&& ~~~m) n).move m tgt)

/-- The alignment rule of R202, over the lanes given. Its record has FETCH 1, as the address is one to fetch from (log 110). -/
def misTarget (ls : List Nat) (tgt : Nat → DWord) : Option Flt :=
  (ls.find? fun l => (tgt l).toNat % 8 != 0).map fun l => ⟨codeMisaligned, tgt l, l, false, true⟩

/-- The target of the imm22 forms (R155). -/
def Ctx.rel (c : Ctx) (off : Int) : DWord := c.pc + BitVec.ofInt 64 (8 * off)

/-- A conditional branch: every lane of `act` moves, or none (R203). -/
def branch (g : Guard) (us : List Use) (off : Int) (cond : Ctx → Bool) (s : State) : Out :=
  issueWith g us 8 noCheck (fun c => if cond c then misTarget (lanesOf c.act) fun _ => c.rel off else none)
    (fun c => .next (c.jump 8 (if cond c then c.act else 0#32) (fun _ => c.rel off) id)) s

/-- `bra` (R203). -/
def execBra (g : Guard) (off : Int) (s : State) : Out := branch g [] off (fun _ => true) s

/-- `bra.any` (R203). -/
def execBraAny (g : Guard) (a : Opnd) (off : Int) (s : State) : Out :=
  branch g [usePred a] off (fun c => c.ag.regs.pred (Opnd.num a) &&& c.act != 0#32) s

/-- `bra.all` (R203). -/
def execBraAll (g : Guard) (a : Opnd) (off : Int) (s : State) : Out :=
  branch g [usePred a] off (fun c => c.ag.regs.pred (Opnd.num a) &&& c.act == c.act) s

/-- `bra.none` (R203). -/
def execBraNone (g : Guard) (a : Opnd) (off : Int) (s : State) : Out :=
  branch g [usePred a] off (fun c => c.ag.regs.pred (Opnd.num a) &&& c.act == 0#32) s

/-- `bra.z` (R203). -/
def execBraZ (g : Guard) (a : Opnd) (off : Int) (s : State) : Out :=
  branch g [useNonv false true a] off (fun c => c.one32 a == 0#32) s

/-- `bra.nz` (R203). -/
def execBraNz (g : Guard) (a : Opnd) (off : Int) (s : State) : Out :=
  branch g [useNonv false true a] off (fun c => c.one32 a != 0#32) s

/-- `jmp` (R204). -/
def execJmp (g : Guard) (a : Opnd) (s : State) : Out :=
  issueWith g (usesOf (.jmp g a)) 8 noCheck (fun c => misTarget (lanesOf c.act) (c.rd true a))
    (fun c => .next (c.jump 8 c.act (c.rd true a) id)) s

/-- The place of the issuing agent. -/
def Ctx.place (c : Ctx) : Place := c.ag.place.getD ⟨0, 0, 0⟩

/-- What reading table entries lane by lane gives (R205). -/
inductive TabRes where
  | ok (entries : List (Nat × DWord))
  | fault (f : Flt)
  | wait
  deriving DecidableEq, Repr

/-- The table entries of the lanes, read through the partition's instruction cache in ascending lane order (R205). -/
def readTable (p : Place) (tenant : Nat) (addr : Nat → DWord) : List Nat → State → State × TabRes
  | [], s => (s, .ok [])
  | l :: t, s =>
    match s.translateFor (reqOf p) p.core tenant (addr l) .fetch with
    | (s1, .fault code) => (s1, .fault ⟨code, addr l, l, false, true⟩)
    | (s1, .ok x) =>
      if s1.codeHeld p x.key then (s1, .wait) else
      let (s2, w) := s1.iread p tenant x 4
      match readTable p tenant addr t s2 with
      | (s3, .ok es) => (s3, .ok ((l, (BitVec.ofNat 32 w).signExtend 64) :: es))
      | r => r

/-- A lane's entry. -/
def entryOf (es : List (Nat × DWord)) (l : Nat) : DWord := ((es.find? fun e => e.1 == l).map fun e => e.2).getD 0#64

/-- `brx` (R205); it waits for a table line whose read its home holds (R120, R130). -/
def execBrx (g : Guard) (a : Opnd) (off : Int) (s : State) : Out :=
  issueWith g (usesOf (.brx g a off)) 8 noCheck noCheck
    (fun c =>
      match readTable c.place c.ag.ident.tenant
          (fun l => c.rel off + BitVec.ofNat 64 (4 * (c.rd32 a l).toNat)) (lanesOf c.act) c.st with
      | (s1, .ok es) =>
        .next (({ c with st := s1 } : Ctx).jump 8 c.act (fun l => c.pc + 8#64 * entryOf es l) id)
      | (s1, .fault f) => .next (({ c with st := s1 } : Ctx).fault f)
      | (_, .wait) => .next c.wait) s

/-! ## Results that are lost (R37, R207, R209) -/

/-- A register of these is still to be written by instruction id. -/
def pendsOn (p : List (Opnd × Nat)) (id : Nat) : Bool := p.any fun e => e.2 == id

/-- The registers for which the test holds wait no more: their results are discarded when they come. A load, walk or
buffer load with no register left is cancelled; an atomic goes on without its return, its log entry discarded. A walk that
keeps a register goes on and loses the others alone (log 80). -/
def Flight.lose (vectorsOnly : Bool) (rel : Opnd → Bool) (f : Flight) : Flight :=
  let pend := f.pend.filter fun e => !rel e.1
  let gone := fun (id : Nat) (d : Option Opnd) =>
    (d.map fun o => (Opnd.isV o || !vectorsOnly) && pendsOn f.pend id && !pendsOn pend id).getD false
  { f with
    pend := pend
    ops := (f.ops.filter fun o => !(gone o.id o.dst && (match o.kind with | .load _ => true | _ => false))).map fun o =>
      if gone o.id o.dst then
        { o with dst := none, logIx := none,
                 lanes := o.lanes.map fun l => match l.st with | .faulted _ => { l with st := .dropped } | _ => l }
      else o
    bufOps := f.bufOps.filter fun o => !gone o.id o.dst
    chases := f.chases.filter fun o => !gone o.id (some (.v o.d)) }

/-! ## Ends (R32, R42, R209) -/

/-- Every agent of a gang has ended (R32). -/
def State.gangDone (s : State) (g : Nat) : Bool := s.agents.all fun e => e.2.ident.gang != g || e.2.ended

/-- One gang of a rank's share has ended; the last one of it brings the completion word its count (R48). -/
def State.gangEnded (s : State) (g : Nat) : State :=
  match s.gang? g with
  | none => s
  | some y =>
    let s1 := s.modGang g fun y => { y with phase := .ended }
    match kget s1.launches y.launch with
    | none => s1
    | some l =>
      let shares := l.shares.map fun r => if r.rank = y.rank then { r with ended := r.ended + 1 } else r
      let full := shares.any fun r => r.rank == y.rank && r.ended == r.count
      let s2 := { s1 with launches := kput s1.launches y.launch { l with shares := shares } }
      if full ∧ l.record.done ≠ 0#64 ∧ !l.dropped then
        { s2 with
          completions := s2.completions ++
            [{ tenant := l.tenant, launch := y.launch, addr := l.record.done, status := 0, count := true, irq := l.record.irq,
               tag := l.record.tag, die := l.die }] }
      else s2

/-- The drain of a tenant is over when no gang of it runs or is being saved (R57, R352). -/
def State.drainCheck (s : State) (t : Nat) : State :=
  if (s.tenant t).draining ∧
      !(s.gangs.any fun e => e.2.tenant == t && (e.2.phase == .running || e.2.phase == .saving)) then
    s.modTenant t fun x => { x with draining := false, saved := true }
  else s

/-- The gang ends if its last agent has (R32). -/
def State.gangCheck (s : State) (g : Nat) : State :=
  match s.gang? g with
  | some y => if y.phase = .running ∧ s.gangDone g then (s.gangEnded g).drainCheck y.tenant else s
  | none => s

/-- The record that a task's end counts towards (R42). -/
def countDown (id : Nat) (flags : Word) (r : ContRec) : ContRec :=
  if r.id = id then { r with join := r.join - 1, flags := r.flags ||| flags } else r

/-- Every lane of the agent has ended: results are lost, the slot and the registers are free, a task counts towards its
record; the quiescent point is still to perform (R32, R42, R209). -/
def State.endAgent (s : State) (a : Nat) : State :=
  match s.agent? a with
  | none => s
  | some x =>
    let y := { x with
      ctl := { x.ctl with hold := .ended false, parks := [] }
      regs := { x.regs with alloc := 0, v := [], vMark := [] }
      flight := x.flight.lose false fun _ => true }
    let s1 := s.setAgent a y
    let s2 := if x.task then
        s1.modAgent x.ident.caller fun c => { c with recs := c.recs.map (countDown x.ident.record x.sys.fpflags) }
      else s1
    s2.gangCheck x.ident.gang

/-- The lanes of `act` end and the rest of the run advances. -/
def Ctx.endLanes (c : Ctx) : State :=
  let x := c.ag.mapCtl fun k => { k.advance (c.run &&& ~~~c.act) 8 with ended := k.ended ||| c.act }
  let s1 := c.st.setAgent c.key x
  if x.ctl.ended = 0xFFFFFFFF#32 then s1.endAgent c.key else s1

/-- Issued in a handler: ILL (R305). -/
def inHandler (c : Ctx) : Option Flt := if c.ag.sys.inHandler then some (flt codeIll) else none

/-- `ret` (R208, R305). -/
def execRet (g : Guard) (s : State) : Out :=
  issueWith g [] 8 (fun c => if !c.ag.task || c.ag.sys.inHandler then some (flt codeIll) else none) noCheck
    (fun c => .next c.endLanes) s

/-- `exit` (R209). -/
def execExit (g : Guard) (s : State) : Out := issue g [] Ctx.endLanes s

/-! ## Calls (R38 to R40, R206, R207) -/

/-- The distinct numbers of a list, ascending. -/
def sortedDistinct (l : List Nat) : List Nat := l.foldl (fun m x => nins x m) []

/-- The slab units of a record (R38). -/
def recordUnits (nsave : Nat) (others : Bool) : Nat := 1 + (nsave - 32 + 63) / 64 + (if others then 1 else 0)

/-- What the headers of a call give: the budgets of the targets in order, or what stops it. -/
inductive CallRes where
  | ok (budgets : List Nat)
  | fault (f : Flt)
  | wait
  deriving DecidableEq, Repr

/-- The headers of targets, each with the lane that reports it (R206). -/
def callHeaders (p : Place) (tenant : Nat) : List (DWord × Nat) → State → State × CallRes
  | [], s => (s, .ok [])
  | (va, l) :: t, s =>
    match s.callHeader p tenant va with
    | (s1, .fault code addr) => (s1, .fault ⟨code, addr, l, false, true⟩)
    | (s1, .wait) => (s1, .wait)
    | (s1, .bad) => (s1, .fault (flt codeIll))
    | (s1, .ok b) =>
      match callHeaders p tenant t s1 with
      | (s2, .ok bs) => (s2, .ok (b :: bs))
      | r => r

/-- A register of a record, or a predicate, waits for a result (R207). -/
def callWaits (f : Flight) (nsave : Nat) : Bool :=
  f.pend.any fun e =>
    match e.1 with
    | .s n => decide (n < nsave)
    | .p _ => true
    | _ => false

/-- The least serial that no live task of a root warp has (R322). -/
def State.freeSerial (s : State) (root : Nat) : Nat :=
  ((List.range 4095).find? fun i => !(s.agents.any fun e =>
    e.2.ident.root == root && e.2.task && !e.2.ended && e.2.ident.tser == i + 1)).getD 0 + 1

/-- A system-register block at the start of a task (R40, R200, R303). -/
def Sys.taskStart (y : Sys) : Sys :=
  { fpmode := y.fpmode, fpflags := y.fpflags, yreq := false, tcmp := 0xFFFFFFFFFFFFFFFF#64, tcause := 0#32,
    thandler := y.thandler, samp := 0#32, sampCount := 0, causes := [], frame := none, labels := [], excess := 0,
    lovf := false }

def Eng.start (grace : Word) : Eng :=
  { bd := [], th := [], chain := none, chainAccepted := false, cost := [], seq := 0#32, grace := grace }

def Flight.start : Flight :=
  { nextOp := 1, ops := [], bufOps := [], setOps := [], chases := [], pend := [], tokens := [], gstarts := [] }

/-- Lanes at a PC, the others ended; nothing parked, nothing waited for. -/
def Ctl.start (m : Lanes) (pc : DWord) : Ctl :=
  { pcs := setPcs (fun _ => pc) (lanesOf m) [], ended := ~~~m, parked := 0#32, parks := [], hold := .none,
    waitRun := 0#32, stall := false, waitSince := none, stop := none, more := [] }

/-- A task as `call` queues it (R38 to R40): it holds no slot yet. -/
def Ctx.newTask (c : Ctx) (record : Nat) (m : Lanes) (target : DWord) (budget serial : Nat) : Agent :=
  { ident := { c.ag.ident with tser := serial, caller := c.key, record := record, born := c.st.time }
    place := none, active := false, frozen := 0, task := true, queued := true, passed := 0
    regs := { alloc := budget * 32, v := [], vMark := [], s := c.ag.regs.s, sMark := c.ag.regs.sMark, p := c.ag.regs.p }
    ctl := Ctl.start m target, sys := c.ag.sys.taskStart, eng := Eng.start c.ag.eng.grace, flight := Flight.start
    slab := c.ag.slab, recs := [] }

/-- The tasks of a call, in ascending target order (R39). -/
def queueTasks (c : Ctx) (record : Nat) (tgt : Nat → DWord) : List (Nat × Nat) → State → State
  | [], s => s
  | (t, b) :: rest, s =>
    let m := maskOf fun l => c.act.getLsbD l && (tgt l).toNat == t
    queueTasks c record tgt rest
      { s.setAgent s.nextKey (c.newTask record m (BitVec.ofNat 64 t) b (s.freeSerial c.ag.ident.root)) with
        nextKey := s.nextKey + 1 }

/-- The scalars that a record saves. -/
def savedScalars (m : KMap Word) (n : Nat) : KMap Word := m.filter fun e => decide (e.1 < n)

/-- The record, the held slot and the tasks of a call (R38, R207). Lanes outside the issuing lanes keep their park bits and
wake conditions, and may wake while the slot is held (log 81). -/
def Ctx.callEffect (c : Ctx) (nsave : Nat) (tgt : Nat → DWord) (cont : DWord) (targets budgets : List Nat) : State :=
  let others := c.ag.ctl.unexited &&& ~~~c.act
  let ctl := c.ag.ctl.advance (c.run &&& ~~~c.act) 16
  let r : ContRec :=
    { id := c.st.nextKey, budget := budgets.getLastD 1, caller := c.key, cont := cont, nsave := nsave, scalars := savedScalars c.ag.regs.s nsave,
      marks := c.ag.regs.sMark &&& (BitVec.ofNat 256 (2 ^ nsave - 1)), preds := c.ag.regs.p, lanes := c.act,
      others := others, pcs := ctl.pcs, join := targets.length,
      units := recordUnits nsave (others != 0#32), flags := 0#32 }
  let x := { c.ag with
    recs := c.ag.recs ++ [r]
    regs := { alloc := 0, v := [], vMark := [], s := [], sMark := 0, p := [] }
    ctl := { ctl with hold := .held r.id }
    flight := c.ag.flight.lose true fun o =>
      match o with
      | .v _ => true
      | .s n => decide (n ≥ nsave)
      | _ => false }
  queueTasks c r.id tgt (targets.zip budgets) { c.st.setAgent c.key x with nextKey := c.st.nextKey + 1 }

/-- `call` (R206): alignment, headers, slab; then it waits for what its record holds (R207). It waits for a header's line
whose read its home holds (R120, R130). -/
def callWith (g : Guard) (us : List Use) (nsave : Nat) (tgt : Ctx → Nat → DWord) (cont : Int) (s : State) : Out :=
  issueWith g us 16 inHandler (fun c => misTarget (lanesOf c.act) (tgt c))
    (fun c =>
      let targets := sortedDistinct ((lanesOf c.act).map fun l => (tgt c l).toNat)
      let who := fun t => ((lanesOf c.act).find? fun l => (tgt c l).toNat == t).getD 0
      match callHeaders c.place c.ag.ident.tenant
          ((targets.map fun t => (BitVec.ofNat 64 t, who t)) ++ [(c.rel cont, lowLane c.act)]) c.st with
      | (_, .wait) => .next c.wait
      | (s1, .fault f) => .next (({ c with st := s1 } : Ctx).fault f)
      | (s1, .ok budgets) =>
        let others := c.ag.ctl.unexited &&& ~~~c.act
        if s1.slabUsed c.ag.ident.root + recordUnits nsave (others != 0#32) > c.ag.slab then
          .next (({ c with st := s1 } : Ctx).fault (flt codeSlab))
        else if callWaits c.ag.flight nsave then .next ({ c with st := s1 } : Ctx).wait
        else .next (({ c with st := s1 } : Ctx).callEffect nsave (tgt c) (c.rel cont) targets budgets)) s

/-- `call`, direct form (R206). -/
def execCallDirect (g : Guard) (nsave : Nat) (target cont : Int) (s : State) : Out :=
  callWith g [] nsave (fun c _ => c.rel target) cont s

/-- `call`, register form (R206). -/
def execCallRegister (g : Guard) (nsave : Nat) (a : Opnd) (cont : Int) (s : State) : Out :=
  callWith g [useAddr a] nsave (fun c l => c.rd true a l) cont s

/-! ## Waiting and yielding (R210 to R212) -/

/-- A barrier number at or above BARS: ILLOP (R211, R289). -/
def barNumber (hb : Nat) (c : Ctx) : Option Flt := if hb ≥ c.header.bars then some (flt codeIllop) else none

/-- A barrier instruction: its number, then whether a task issued it (R44, R289). -/
def barCheck (hb : Nat) (c : Ctx) : Option Flt :=
  match barNumber hb c with
  | some f => some f
  | none => barctx c

/-- The lanes of `act` advance and park with these conditions (R210). -/
def Ctx.parkLanes (c : Ctx) (line bar clocks : Option Nat) : State :=
  c.finish 8 fun x =>
    { x with
      flight := { x.flight with nextOp := x.flight.nextOp + 1 }
      ctl := { x.ctl with
        parked := x.ctl.parked ||| c.act
        parks := x.ctl.parks ++
          [{ id := x.flight.nextOp, lanes := c.act, line := line, bar := bar, clocks := clocks,
             wakeAt := clocks.map fun n => c.st.time + max n 1, target := none, fired := false }] } }

/-- `park` (R210, R211): the line's address is checked as a one-byte load's, and a TIER 3 page refuses the watch. -/
def execPark (g : Guard) (line bar tmo : Bool) (a : Opnd) (b : Nat) (cc : Opnd) (s : State) : Out :=
  issueWith g (usesOf (.park g line bar tmo a b cc)) 8
    (fun c => if bar then barCheck b c else none)
    (fun c => if line then addrCheck 1 false [(lowLane c.act, c.rd true a 0)] else none)
    (fun c =>
      let clocks := if tmo then some (c.one32 cc).toNat else none
      let hb := if bar then some b else none
      if line then
        match c.st.translateFor (reqOf c.place) c.ag.core c.ag.ident.tenant (c.rd true a 0) .read with
        | (s1, .fault code) => .next (({ c with st := s1 } : Ctx).fault ⟨code, c.rd true a 0, lowLane c.act, false, false⟩)
        | (s1, .ok x) =>
          if x.tier = 3 then
            .next (({ c with st := s1 } : Ctx).fault ⟨codeProtection, c.rd true a 0, lowLane c.act, false, false⟩)
          else .next (({ c with st := s1 } : Ctx).parkLanes (some (x.key / 64)) hb clocks)
      else .next (c.parkLanes none hb clocks)) s

/-- `yield` (R58, R212): with `sys.yreq` 1 it stops the agent whole past the `yield`. -/
def execYield (g : Guard) (s : State) : Out :=
  issueWith g [] 8 inHandler noCheck
    (fun c => .next (
      if c.ag.sys.yreq then c.finish 8 fun x => x.mapCtl fun k => { k with hold := .yielded false }
      else c.finish 8 id)) s

/-! ## The register allotment (R213 to R215) -/

/-- `grow` (R36, R214): it ends at GROW_GRANT. -/
def execGrow (g : Guard) (n : Nat) (s : State) : Out :=
  issueWith g [] 8 (fun c => if c.ag.regs.alloc + n > 1536 then some (flt codeIll) else none) noCheck
    (fun c => .next (c.holdAs (.grow n))) s

/-- Registers at or above a count are released, with their marks and what is in flight to them (R37, R317). -/
def Agent.release (n : Nat) (x : Agent) : Agent :=
  { x with
    regs := { x.regs with alloc := n, v := x.regs.v.filter fun e => decide (e.1 < n)
                          vMark := x.regs.vMark.filter fun e => decide (e.1 < n) }
    flight := x.flight.lose true fun o =>
      match o with
      | .v m => decide (m ≥ n)
      | _ => false }

/-- `shrink` (R37, R215). -/
def execShrink (g : Guard) (n : Nat) (s : State) : Out :=
  issueWith g [] 8 (fun c => if c.ag.regs.alloc < n + 32 then some (flt codeIll) else none) noCheck
    (fun c => .next (c.finish 8 (Agent.release (c.ag.regs.alloc - n)))) s

/-! ## Queuing work (R216, R217) -/

/-- `task.push` (R216): it ends at TASK_PUSH_APPEND. It is one access for the warp, and LANE of its records is 0 (log 111). -/
def execTaskPush (g : Guard) (prio : Nat) (a : Opnd) (s : State) : Out :=
  issueWith g (usesOf (.taskPush g prio a)) 8 noCheck
    (fun c =>
      let off := (c.one32 a).toNat
      if off % 64 ≠ 0 then some ⟨codeMisaligned, BitVec.ofNat 64 off, 0, false, false⟩
      else if off + 64 > c.header.grant .abuf then some ⟨codeProtection, BitVec.ofNat 64 off, 0, false, false⟩
      else none)
    (fun c => .next (c.holdAs (.taskPush prio (c.one32 a).toNat))) s

/-- `nop` (R217): its guard changes nothing. -/
def execNop (g : Guard) (s : State) : Out := issue g [] (fun c => c.finish 8 id) s

/-- A word that is not an instruction: ILL (R152, R153). -/
def execUnassignedWord (_w0 _w1 : DWord) (s : State) : Out :=
  match Ctx.of s ⟨none, false⟩ with
  | none => .refused .noIssuer
  | some c => .next (c.fault (flt codeIll))

end Sys2Proof.Machine
end

