-- ==== Sys2Proof/Machine/Rings.lean ====
section
/-! DEFINITION. What the device writes for the host driver: fault records (R314), trace records (R324) and samples (R325),
with the rings they go to (R351). -/

namespace Sys2Proof.Machine

/-- Values laid down one after the other, little-endian, each with its number of bytes. -/
def layBytes : List (Nat × Nat) → List Byte
  | [] => []
  | (v, n) :: t => leBytes n v ++ layBytes t

/-- Bytes 28 to 31 of a fault record: where an agent stands (R314). -/
def whereWord (tenant : Nat) (p : Option Place) : Nat :=
  let q := p.getD ⟨0, 0, 0⟩
  tenant * 268435456 + q.core * 1048576 + q.part * 131072 + q.slot * 4096

/-- The top label, 0 when there is none (R308). -/
def Sys.topLabel (y : Sys) : Nat := ((y.labels.head?).map BitVec.toNat).getD 0

def bit (b : Bool) : Nat := if b then 1 else 0

/-- The gang index and the launch tag of an agent. -/
def State.gangIndex (s : State) (x : Agent) : Nat := ((s.gangOf x).map Gang.index).getD 0
def State.tagOf (s : State) (x : Agent) : DWord := ((s.gangOf x).map Gang.tag).getD 0#64

/-- A fault record of an agent (R314), with SEQ and ENGINE as given. -/
def State.agentRecord (s : State) (x : Agent) (t : Nat) (pc addr : Nat) (code : Nat) (fetch wr : Bool) (lane logix seq
    engine : Nat) : List Byte :=
  layBytes [(t, 8), (pc, 8), (addr, 8),
    (code * 16777216 + bit fetch * 8388608 + bit wr * 4194304 + bit x.task * 2097152 + lane * 65536 + logix * 256, 4),
    (whereWord x.ident.tenant x.place, 4), (s.gangIndex x, 8), (x.ident.tser * 1048576 + x.ident.widx, 4), (seq, 4),
    (engine, 2), (x.sys.topLabel, 2), (bit x.sys.lovf, 4), ((s.tagOf x).toNat, 8)]

/-- The record of a stop. -/
def State.stopRecord (s : State) (x : Agent) (p : Stop) : List Byte :=
  s.agentRecord x p.time p.pc.toNat p.addr.toNat p.code p.fetch p.wr p.lane (p.logIx.getD 255) x.eng.seq.toNat 0

/-- The record of a report (R301, R314). -/
def reportRecord (tenant : Nat) (r : Report) : List Byte :=
  match r.laid with
  | some bytes => bytes
  | none =>
    layBytes [(r.time, 8), (0, 8), (r.addr.toNat, 8),
      (r.code * 16777216 + bit r.fetch * 8388608 + bit r.wr * 4194304 + r.lane * 65536 + 255 * 256, 4),
      (tenant * 268435456, 4), (0, 8), (0, 4), (r.seq.toNat, 4), (r.engine, 2), (0, 2), (0, 4), (r.tag.toNat, 8)]

/-! ## Rings (R351) -/

/-- The driver's index of a ring of 2^b records, in records. -/
def ringDriver (cfg b : Nat) : Nat := ebits cfg 15 8 * 2 ^ b / 256

/-- One record to the trace ring (`samp` false) or the sample ring. A ring that is disabled, or whose next slot is the
driver's, drops the record and counts it; the latter raises vector 4 (log 22). -/
def State.ringPut (s : State) (samp : Bool) (tenant : Nat) (rec : List Byte) : State :=
  let x := s.tenant tenant
  let cfg := (x.reg (if samp then 0xB8 else 0xA8)).toNat
  let b := ebits cfg 4 0
  let drop := s.modTenant tenant fun y =>
    if samp then { y with sampDrops := y.sampDrops + 1 } else { y with traceDrops := y.traceDrops + 1 }
  let ix := if samp then x.sampIx else x.traceIx
  if b < 4 ∨ b > 20 then drop
  else if (ix + 1) % 2 ^ b = ringDriver cfg b then drop.irq tenant 4
  else
    (s.devWrite ((x.reg (if samp then 0xB0 else 0xA0)).toNat + rec.length * ix) rec).modTenant tenant fun y =>
      if samp then { y with sampIx := (ix + 1) % 2 ^ b } else { y with traceIx := (ix + 1) % 2 ^ b }

/-- The label of a pair of top label and overflow flag, 0 when there is none. -/
def labelOf (l : Option (BitVec 16) × Bool) : Nat := (l.1.map BitVec.toNat).getD 0

/-- The tenant's capture filter admits a record with this label (R308, R324); no register sets the filter (log 22). -/
def admits (tenant label : Nat) : Bool :=
  let f := Config.captureFilter tenant
  BitVec.ofNat 16 label &&& f.2 == f.1 &&& f.2

/-- A command as its records name it: its issuer, number and engine (R322), the issuer's label and flag at issue, and KIDX of
the chain step it stands at (R268). -/
structure CmdName where
  issuer : Ident
  seq : Word
  engine : Nat
  label : Option (BitVec 16) × Bool
  kidx : Nat
  deriving DecidableEq, Repr

/-- The trace record of an event of a command at this time (R324). -/
def State.traceRec (s : State) (c : CmdName) (ev : TraceEv) (status : Nat) : TraceRec :=
  { time := s.time, tenant := c.issuer.tenant, gang := ((s.gang? c.issuer.gang).map Gang.index).getD 0,
    widx := c.issuer.widx, tser := c.issuer.tser, seq := c.seq, engine := c.engine, event := ev, status := status,
    label := labelOf c.label, lovf := c.label.2, kidx := c.kidx }

/-- The fields of a trace record as numbers. -/
def TraceRec.fields (r : TraceRec) : List Nat :=
  [r.time, r.tenant, r.gang, r.widx, r.tser, r.seq.toNat, r.engine,
   match r.event with | .start => 0 | .finish => 1 | .stop => 2 | .resume => 3, r.status, r.label, bit r.lovf,
   r.kidx]

/-- An event of a command is recorded where the tenant traces and its filter admits the label (R324). The layout of the 32
bytes is not given (log 22); the record stands in the state beside them. -/
def State.trace (s : State) (c : CmdName) (ev : TraceEv) (status : Nat) : State :=
  let t := c.issuer.tenant
  if ((s.tenant t).reg 0).getLsbD 1 && admits t (labelOf c.label) then
    let r := s.traceRec c ev status
    let s1 := s.ringPut false t ((List.range 32).map (Config.traceByte r.fields))
    if (s1.tenant t).traceIx = (s.tenant t).traceIx then s1
    else s1.modTenant t fun x => { x with traces := kput x.traces (s.tenant t).traceIx r }
  else s

/-- The distinct 32 B sectors and 256 B lines of the lanes of an access (R96). -/
def sectorsOf (lanes : List (Nat × Nat)) : Nat :=
  ((lanes.flatMap fun a => [a.1 / 32, (a.1 + a.2 - 1) / 32]).eraseDups).length

def linesOf (lanes : List (Nat × Nat)) : Nat := ((lanes.map fun a => a.1 / 256).eraseDups).length

/-- A sample (R325): time, PC, place, label, lanes, sectors and requests as stated; what depends on timing is free
(log 22). -/
def State.sampleOf (s : State) (x : Agent) (born : Nat) (pc : DWord) (act : Lanes) (lanes : List (Nat × Nat)) : State :=
  let f := fun i => (Config.freeWord (s.free + i)).toNat
  if !admits x.ident.tenant x.sys.topLabel then s else
  { s.ringPut true x.ident.tenant
      (layBytes [(born, 8), (pc.toNat, 8), (whereWord x.ident.tenant x.place, 4),
        (bit x.sys.lovf * 65536 + x.sys.topLabel, 4), (act.toNat, 4), (sectorsOf lanes, 2), (linesOf lanes, 2),
        (f 0, 4), (f 1, 4), (f 2, 4), (f 3, 4), (f 4 % 192, 1), (0, 3), (f 5, 4), (s.gangIndex x, 8)]) with
    free := s.free + 6 }

/-! ## Engines and their breakpoints (R322, R323) -/

/-- The 16-bit identity of an engine (R322). -/
def engineId (kind core unit : Nat) : Nat := kind * 4096 + dieOfCore core * 1024 + core % 40 * 16 + unit

/-- An engine breakpoint of the tenant matches a command of this kind, issuer and number (R323). -/
def State.engineBreak (s : State) (x : Agent) (kind : Nat) (seq : Word) : Bool :=
  (List.range 4).any fun m =>
    let off := 0x900 + 32 * m
    let w0 := ((s.tenant x.ident.tenant).reg off).toNat
    let gang := ((s.tenant x.ident.tenant).reg (off + 8)).toNat
    let sq := ((s.tenant x.ident.tenant).reg (off + 16)).toNat % 4294967296
    ebits w0 16 16 == 1 && w0.testBit kind &&
      (ebits w0 17 17 == 0 || (gang == s.gangIndex x && ebits w0 39 32 == x.ident.widx && sq == seq.toNat))

/-- A command is held by an engine breakpoint: the report of code 12 (R313, R323). Its record names the issuer of the command
where it stands now (R314), at a PC that the manual does not state (log 22). -/
def State.reportHeld (s : State) (x : Agent) (seq : Word) (engine : Nat) : State :=
  s.tick.report x.ident.tenant
    { code := codeEngBreak
      laid := some (s.agentRecord x s.time (Config.freeDWord s.free).toNat 0 codeEngBreak false false 0 255 seq.toNat engine)
      addr := 0#64, fetch := false, wr := false, lane := 0, seq := seq, engine := engine, tag := s.tagOf x, time := s.time }

end Sys2Proof.Machine
end

