-- ==== Sys2Proof/Machine/Copy.lean ====
section
/-! DEFINITION. Copies and tooling commands, at issue (R232, R234, R235, R237, R238) and chunk by chunk (R233, R236, R238),
with the accesses that engines make to buffers and to global memory (R129, R130, R132). -/

namespace Sys2Proof.Machine

/-! ## Typed buffers of a gang (R15, R19, R54) -/

/-- Where a buffer access arrives: the gang, the position and the core that stands there. -/
structure BufAt where
  gang : Nat
  pos : Nat
  core : Nat
  buf : Buf
  deriving DecidableEq, Repr

/-- The key of a buffer byte within its gang. -/
def BufAt.key (p : BufAt) (off : Nat) : Nat := p.pos * 16777216 + bufCode p.buf * 1048576 + off

/-- The offset lies in a converted way (R19). -/
def BufAt.inWay (p : BufAt) (off : Nat) : Bool := p.buf == .abuf && decide (262144 ≤ off)

def State.bufByte (s : State) (p : BufAt) (off : Nat) : Byte :=
  if p.inWay off then kgetD 0#8 (s.core p.core).wayMem (off - 262144)
  else ((s.gang? p.gang).map fun g => kgetD 0#8 g.buf (p.key off)).getD 0#8

def State.bufBytes (s : State) (p : BufAt) (off : Nat) : Nat → List Byte
  | 0 => []
  | n + 1 => s.bufByte p off :: s.bufBytes p (off + 1) n

def State.bufLe (s : State) (p : BufAt) (off n : Nat) : Nat := leVal (s.bufBytes p off n)

/-- A granule of a buffer is marked. -/
def State.bufMarked (s : State) (p : BufAt) (row : Nat) : Bool :=
  if p.inWay (32 * row) then nhas (s.core p.core).wayMark (row - 8192)
  else ((s.gang? p.gang).map fun g => nhas g.bufMark (p.key (32 * row) / 32)).getD false

/-- A mark of a granule set or cleared. -/
def State.setBufMark (s : State) (p : BufAt) (row : Nat) (b : Bool) : State :=
  let f := fun (k : Nat) (l : List Nat) => if b then nins k l else ndel k l
  if p.inWay (32 * row) then s.modCore p.core fun c => { c with wayMark := f (row - 8192) c.wayMark }
  else s.modGang p.gang fun g => { g with bufMark := f (p.key (32 * row) / 32) g.bufMark }

/-- One byte of a buffer written. -/
def State.bufPut1 (s : State) (p : BufAt) (off : Nat) (b : Byte) : State :=
  if p.inWay off then s.modCore p.core fun c => { c with wayMem := ksetD 0#8 c.wayMem (off - 262144) b }
  else s.modGang p.gang fun g => { g with buf := ksetD 0#8 g.buf (p.key off) b }

/-- One write of bytes to a buffer: a granule that it covers whole loses its mark (R317). -/
def State.bufWrite (s : State) (p : BufAt) (cells : List (Nat × Byte)) : State :=
  (wholeGranules cells).foldl (fun s r => s.setBufMark p r false)
    (cells.foldl (fun s c => s.bufPut1 p c.1 c.2) s)

/-- Rows of a buffer marked. -/
def State.bufMarkRows (s : State) (p : BufAt) (off len : Nat) : State :=
  ((List.range ((off + len + 31) / 32 - off / 32)).map fun i => off / 32 + i).foldl
    (fun s r => s.setBufMark p r true) s

/-- The bank of a byte of a buffer (R15, R19). Banks of converted ways are others than those below them, 16 for all ways
together (log 105). -/
def bankOf (b : Buf) (off : Nat) : Nat :=
  match b with
  | .abuf => if off ≥ 262144 then 16 + off / 32 % 16 else off / 32 % 16
  | _ => off / 32 % 32

/-- The number of a bank among those of a core. -/
def bankNo (b : Buf) (off : Nat) : Nat := bufCode b * 32 + bankOf b off

/-- A buffer load or store has performed in this clock at a bank of these bytes: an engine access, which would have gone
before it, comes in a later clock (R17). -/
def State.bankTaken (s : State) (p : BufAt) (off len : Nat) : Bool :=
  !s.banks.isEmpty && (List.range ((off + len + 31) / 32 - off / 32)).any fun i =>
    s.banks.contains (p.core, bankNo p.buf (32 * (off / 32 + i)))

/-- A marked granule among these bytes. -/
def State.bufAnyMark (s : State) (p : BufAt) (off len : Nat) : Bool :=
  (List.range ((off + len + 31) / 32 - off / 32)).any fun i => s.bufMarked p (off / 32 + i)

/-! ## Global memory as engines reach it (R129, R130) -/

/-- How an engine's pass over global memory ends. -/
inductive Pass where
  | done
  | fault (code : Nat)
  deriving DecidableEq, Repr

/-- The locations of n pieces of k bytes from a virtual address on, up to the first that faults (R88, R92); walks are made
for the engine `req` (R102). -/
def locate (req core tenant k : Nat) (w : Want) : Nat → DWord → State → State × List Xlat × Pass
  | 0, _, s => (s, [], .done)
  | n + 1, va, s =>
    match (s.walkAsks req core tenant va).translate core tenant va w with
    | (s1, .ok x) =>
      let (s2, ks, p) := locate req core tenant k w n (va + BitVec.ofNat 64 k) s1
      (s2, x :: ks, p)
    | (s1, .fault code) => (s1, [], .fault code)

/-- Bytes at pieces of k bytes. -/
def State.gather (s : State) (k : Nat) (keys : List Nat) : List Byte := keys.flatMap fun a => s.bytes a k

/-- Ranges of locations that a write of n bytes will take, in pieces of 4 KiB, which no stripe divides (R90); pages that
fault bring none (R130). -/
def ownRanges (s : State) (core tenant : Nat) : Nat → DWord → Nat → List (Nat × Nat)
  | 0, _, _ => []
  | fuel + 1, va, n =>
    if n = 0 then []
    else
      let k := min n (4096 - va.toNat % 4096)
      let rest := ownRanges s core tenant fuel (va + BitVec.ofNat 64 k) (n - k)
      match (s.translate core tenant va .write).2 with
      | .ok x => (x.key, x.key + k) :: rest
      | _ => rest

/-- Bytes written by an engine at the home of their lines, in pieces of k bytes: the L2 and the watches see them (R31,
R97). -/
def State.engineWriteAt (s : State) (o : Origin) (die k : Nat) (xs : List Xlat) (data : List Byte) : State :=
  let cells := (xs.zipIdx).flatMap fun e => cellsAt e.1.key ((data.drop (e.2 * k)).take k)
  ((s.write cells).wakeLines ((cells.map fun c => c.1 / 64).eraseDups)).homeWrites o die xs cells

/-- The origin of the requests of the set engine at the home slice of a location (R102, R103, R113). -/
def setOrigin (home : Nat) : Origin := ⟨1, 16, reqOfEngine 6 (homeDie home) (homeSlice home) 0, false⟩

/-- A write of the set engine at the home of a location to device HBM (R103). -/
def State.engineWrite (s : State) (home k : Nat) (keys : List Nat) (data : List Byte) : State :=
  s.engineWriteAt (setOrigin home) (homeDie home) k (keys.map plainXlat) data

/-- The requester number of a core's engine (R102). -/
def coreEngine (kind core unit : Nat) : Nat := reqOfEngine kind (dieOfCore core) (core % 40) (unit % 4)

/-- The origin of a copy's requests, and of a tooling command's (R103). -/
def copyOrigin (core : Nat) (q : Qual) (unit : Nat) : Origin :=
  ⟨if q.cls = 0 then 2 else q.cls, 256, coreEngine 0 core unit, q.lu⟩
def toolOrigin (core : Nat) (b : Buf) : Origin := ⟨2, 256, coreEngine 1 core (bufCode b), false⟩

/-- Granules at these pieces of 32 bytes marked. -/
def State.markAll (s : State) (keys : List Nat) : State := keys.foldl (fun s k => s.markGranule (k / 32)) s

/-! ## Tokens (R99, R131) -/

/-- A status arrives at its token register if that still waits for it (R99, R207); a token of a command whose destination
is global acquires at its first read (R131). -/
def Agent.token (reg id status info : Nat) (glob : Bool) (x : Agent) : Agent :=
  if x.flight.pend.any fun e => e == (.s reg, id) then
    { x with
      regs := x.regs.setS reg (BitVec.ofNat 32 (info * 256 + status)) false
      flight := { x.flight with
        pend := x.flight.pend.filter fun e => e != (.s reg, id)
        tokens := if glob then nins reg x.flight.tokens else x.flight.tokens } }
  else x

/-- What a command waits for, whose issue is a release at `device` scope: the older work of its issuer (R121, R123, R129,
R275). -/
def State.olderDone (s : State) (a after : Nat) : Bool :=
  match s.agent? a with
  | none => true
  | some x => s.releaseReady x .device after

/-- A gang is being saved, or has been. -/
def State.saving (s : State) (g : Nat) : Bool :=
  match s.gang? g with
  | some y => y.phase == .saving || y.phase == .saved
  | none => false

/-- A gang is saved: its commands are in its record, not on their cores (R254). -/
def State.away (s : State) (g : Nat) : Bool :=
  match s.gang? g with
  | some y => y.phase == .saved
  | none => false

/-! ## Issue of copies (R232 to R235) -/

/-- A misaligned operand, and a range that is refused, in the lowest active lane (R219). -/
def Ctx.misaligned (c : Ctx) (addr : DWord) (wr : Bool) : Option Flt :=
  some ⟨codeMisaligned, addr, lowLane c.act, wr, false⟩
def Ctx.refusedRange (c : Ctx) (addr : DWord) (wr : Bool) : Option Flt :=
  some ⟨codeProtection, addr, lowLane c.act, wr, false⟩

/-- The checks of R232, misalignment before protection (R219). For `copy.mc` the ways converted are those of the issuing core
(log 104). -/
def copyCheck (c : Ctx) (b : Buf) (out : Bool) (off : Nat) (glob : DWord) (count : Nat) : Option Flt :=
  if count = 0 ∨ count % 32 ≠ 0 ∨ glob.toNat % 32 ≠ 0 then c.misaligned glob out
  else if off % 32 ≠ 0 then c.misaligned (BitVec.ofNat 64 off) (!out)
  else if !rangeOk c.header c.ways b off count then c.refusedRange (BitVec.ofNat 64 off) (!out)
  else if glob.toNat ≥ 144115188075855872 then c.refusedRange glob out
  else none

/-- The copies that a core holds, beside those of gangs that are saved (R232). -/
def State.copiesHeld (s : State) (core : Nat) : Nat := ((s.core core).copies.filter fun k => !s.away k.gang).length

/-- An accepted copy (R99, R129, R130, R322). -/
def Ctx.launchCopy (c : Ctx) (kind : CopyKind) (q : Qual) (buf : Nat) (glob : DWord) (bytes token : Nat) (out : Bool) :
    State :=
  if c.st.copiesHeld c.ag.core ≥ 64 then c.wait
  else
    let id := c.ag.flight.nextOp
    let core := c.ag.core
    let k : Copy :=
      { id := (c.st.core core).nextCmd, issuer := c.ag.ident, agent := c.key, gang := c.ag.ident.gang,
        pos := c.st.posOf c.ag, kind := kind, qual := q, buf := buf, glob := glob, bytes := bytes, token := token, after := id,
        engine := none, stopped := false, chunk := 0, sat := 0,
        owned := if out then ownRanges c.st core c.ag.ident.tenant (bytes / 4096 + 2) glob bytes else [],
        written := [], stamp := c.st.sent, seq := c.ag.eng.seq, label := (c.ag.sys.labels.head?, c.ag.sys.lovf), cancel := false,
        held := false, released := false }
    { (c.finish 8 fun x => Agent.nextSeq (x.mapFlight fun f => pendOn [.s token] id { f with nextOp := id + 1 })).modCore core
        fun y => { y with copies := y.copies ++ [k], nextCmd := y.nextCmd + 1 } with sent := c.st.sent + 1 }

/-- A copy from global memory to a buffer. -/
def copyIn (g : Guard) (kind : CopyKind) (b : Buf) (q : Qual) (d a cnt tok : Opnd) (s : State) : Out :=
  issueWith g (copyInUses d a cnt tok) 8 noCheck
    (fun c => copyCheck c b false (c.one32 d).toNat (c.rd true a 0) (c.one32 cnt).toNat)
    (fun c => .next (c.launchCopy kind q (c.one32 d).toNat (c.rd true a 0) (c.one32 cnt).toNat (Opnd.num tok) false)) s

/-- `copy.abuf` (R232). -/
def execCopyAbuf (g : Guard) (q : Qual) (d a b c : Opnd) (s : State) : Out := copyIn g .abuf .abuf q d a b c s

/-- `copy.wbuf` (R232). -/
def execCopyWbuf (g : Guard) (q : Qual) (d a b c : Opnd) (s : State) : Out := copyIn g .wbuf .wbuf q d a b c s

/-- `copy.mc` (R232, R234). -/
def execCopyMc (g : Guard) (q : Qual) (d a b c : Opnd) (s : State) : Out := copyIn g .mc .abuf q d a b c s

/-- `copy.out` (R232). -/
def execCopyOut (g : Guard) (cbuf : Bool) (q : Qual) (d a b tok : Opnd) (s : State) : Out :=
  issueWith g (usesOf (.copyOut g cbuf q d a b tok)) 8 noCheck
    (fun c => copyCheck c (if cbuf then .cbuf else .abuf) true (c.one32 a).toNat (c.rd true d 0) (c.one32 b).toNat)
    (fun c => .next (c.launchCopy (.out cbuf) q (c.one32 a).toNat (c.rd true d 0) (c.one32 b).toNat (Opnd.num tok) true)) s

/-- The fields of a descriptor of R235, if it is valid. -/
structure QDesc where
  wbuf : Bool
  lb : Nat
  rm : Nat
  dt : Nat
  st : Nat
  scl : DWord
  deriving DecidableEq, Repr

/-- A descriptor from its eight words (R235). -/
def QDesc.ofWords (w : Nat → Nat) : Option QDesc :=
  let w0 := w 0
  let lb := ebits w0 23 16
  let dt := ebits w0 7 4
  let st := ebits w0 3 0
  if ebits w0 31 24 = 0 ∧ ebits w0 15 13 = 0 ∧ ebits w0 11 11 = 0 ∧ 5 ≤ lb ∧ lb ≤ 12 ∧ ebits w0 10 8 ≤ 3 ∧
     (dt = 0 ∨ dt = 1 ∨ dt = 8 ∨ dt = 9) ∧ (st = 8 ∨ st = 9 ∨ st = 10) ∧ w 1 = 0 ∧ w 4 = 0 ∧ w 5 = 0 ∧ w 6 = 0 ∧ w 7 = 0
  then some { wbuf := ebits w0 12 12 == 1, lb := lb, rm := ebits w0 10 8, dt := dt, st := st,
              scl := BitVec.ofNat 64 (w 3 * 4294967296 + w 2) }
  else none

/-- The buffer of the issuing agent's core. -/
def Ctx.bufAt (c : Ctx) (b : Buf) : BufAt := ⟨c.ag.ident.gang, c.st.posOf c.ag, c.ag.core, b⟩

/-- Word i of the block at an ABUF offset. -/
def Ctx.blockWord (c : Ctx) (off i : Nat) : Nat := c.st.bufLe (c.bufAt .abuf) (off + 4 * i) 4

/-- A parameter block of 32 bytes can be read: misalignment, then protection outside the ABUF grant (R247). -/
def blockCheck (c : Ctx) (off : Nat) : Option Flt :=
  if off % 32 ≠ 0 then c.misaligned (BitVec.ofNat 64 off) false
  else if off + 32 > c.header.grant .abuf then c.refusedRange (BitVec.ofNat 64 off) false
  else none

/-- A descriptor of 32 bytes can be read: misalignment, then protection outside the grant and the converted ways (R16, R54,
R235). -/
def descCheck (c : Ctx) (off : Nat) : Option Flt :=
  if off % 32 ≠ 0 then c.misaligned (BitVec.ofNat 64 off) false
  else if !rangeOk c.header c.ways .abuf off 32 then c.refusedRange (BitVec.ofNat 64 off) false
  else none

/-- An older buffer store of the issuer has not performed (R235, R247). -/
def Ctx.storesPend (c : Ctx) : Bool := stbCount c.ag.flight != 0

/-- The types by their codes (R151). -/
def typeOf : Nat → Ty
  | 0 => .int .n8
  | 1 => .int .i8
  | 2 => .int .n16
  | 3 => .int .i16
  | 4 => .int .n32
  | 5 => .int .i32
  | 8 => .flt .f16
  | 9 => .flt .bf16
  | _ => .flt .f32

/-- Rounding codes 0 to 3 (R70). -/
def roundOf : Nat → RMode
  | 0 => .rne
  | 1 => .rtz
  | 2 => .rdn
  | _ => .rup

/-- `copy.q` (R235): alignment and the ranges it can tell, then it waits for older buffer stores, reads its descriptor,
checks it, and checks the destination. -/
def execCopyQ (g : Guard) (q : Qual) (d a b tok : Opnd) (s : State) : Out :=
  issueWith g (usesOf (.copyQ g q d a b tok)) 8 noCheck
    (fun c =>
      let count := (c.one32 b).toNat
      let desc := (c.rd32 (.s (Opnd.num b + 1)) 0).toNat
      let glob := c.rd true a 0
      if count = 0 ∨ count % 32 ≠ 0 ∨ glob.toNat % 32 ≠ 0 then c.misaligned glob false
      else if (c.one32 d).toNat % 32 ≠ 0 then c.misaligned (c.rd false d 0) true
      else
        match descCheck c desc with
        | some f => some f
        | none => if glob.toNat ≥ 144115188075855872 then c.refusedRange glob false else none)
    (fun c =>
      let count := (c.one32 b).toNat
      let desc := (c.rd32 (.s (Opnd.num b + 1)) 0).toNat
      if c.storesPend then .next c.wait
      else
        match QDesc.ofWords (c.blockWord desc) with
        | none => .next (c.fault (flt codeIll))
        | some e =>
          let len := count / typeBytes e.st * typeBytes e.dt
          if !rangeOk c.header c.ways (if e.wbuf then .wbuf else .abuf) (c.one32 d).toNat len then
            .next (c.fault ⟨codeProtection, c.rd false d 0, lowLane c.act, true, false⟩)
          else
            .next (c.launchCopy (.quant e.wbuf e.lb e.rm e.dt e.st e.scl) q (c.one32 d).toNat (c.rd true a 0) count
              (Opnd.num tok) false)) s

/-! ## The steps of a copy (R14, R233, R236) -/

def State.modCopy (s : State) (core id : Nat) (f : Copy → Copy) : State :=
  s.modCore core fun c => { c with copies := c.copies.map fun k => if k.id = id then f k else k }

def State.copy? (s : State) (core id : Nat) : Option Copy := (s.core core).copies.find? fun k => k.id == id

/-- A copy as its records name it (R322). -/
def Copy.name (core : Nat) (k : Copy) : CmdName := ⟨k.issuer, k.seq, engineId 0 core (k.engine.getD 0), k.label, 0⟩

/-- A copy ends: its lines are released, its status reaches its token (R99, R130, R233). -/
def State.copyEnd (s : State) (core : Nat) (k : Copy) (status info : Nat) : State :=
  let glob := match k.kind with | .out _ => true | _ => false
  ((s.modCore core fun c => { c with copies := c.copies.filter fun j => j.id != k.id }).modAgent k.agent
    (Agent.token k.token k.after status (min info 16777215) glob)).trace (k.name core) .finish status

/-- A copy that has not started (R323). -/
def Copy.unstarted (k : Copy) : Bool := k.chunk == 0 && !k.stopped

/-- COPY_ENGINE_START (R14, R129, R130, R323): the first copy of the core that waits for no earlier owner of its lines takes one
of the four engines, once its issuer's older work is done; an engine breakpoint holds it before it starts, and one that a save
has stopped resumes. -/
def execCopyEngineStart (core : Nat) (s : State) : Out :=
  let c := s.core core
  let busy := (c.copies.filter fun k => k.engine.isSome && !s.saving k.gang).filterMap Copy.engine
  match (List.range 4).find? (fun i => !busy.contains i),
        c.copies.find? (fun k => k.engine.isNone && !k.held && !s.saving k.gang && !s.ownedBefore k.stamp k.owned) with
  | some e, some k =>
    let go := (s.modCopy core k.id fun k => { k with engine := some e, stopped := false }).trace { k.name core with engine := engineId 0 core e }
      (if k.unstarted then .start else .resume) 0
    match s.agent? k.agent with
    | some x =>
      if k.unstarted && !k.released && s.engineBreak x 0 k.seq then
        .next ((s.modCopy core k.id fun k => { k with held := true }).reportHeld x k.seq (engineId 0 core e))
      else if s.olderDone k.agent k.after then .next go
      else .next s
    | none => .next go
  | _, _ => .next s

/-- The gang and tenant of a command. -/
def State.cmdTenant (s : State) (g : Nat) : Nat := ((s.gang? g).map Gang.tenant).getD 0

/-- The cores of a gang with their positions. -/
def State.gangCores (s : State) (g : Nat) : List (Nat × Nat) :=
  ((s.gang? g).map fun y => y.cores.zipIdx.map fun e => (e.2, e.1)).getD []

/-- Where a copy into a buffer writes: its own core, or every core of the gang (R234). -/
def State.copyTargets (s : State) (core : Nat) (k : Copy) : List BufAt :=
  match k.kind with
  | .mc => (s.gangCores k.gang).map fun e => ⟨k.gang, e.1, e.2, .abuf⟩
  | .wbuf => [⟨k.gang, k.pos, core, .wbuf⟩]
  | .quant w _ _ _ _ _ => [⟨k.gang, k.pos, core, if w then .wbuf else .abuf⟩]
  | .out cbuf => [⟨k.gang, k.pos, core, if cbuf then .cbuf else .abuf⟩]
  | .abuf => [⟨k.gang, k.pos, core, .abuf⟩]

/-- Element e of R236: the value delivered in DT, and whether it was saturated. -/
def quantElem (st dt rm : Nat) (x : Byte) (v : DWord) : DWord × Bool :=
  let fs := match typeOf st with | .flt f => f | _ => .f32
  let r := FVal.ofBits fs v
  let scaled : FVal :=
    match r with
    | .nan _ => .nan false
    | .inf n => if x = 0x80#8 then .nan false else .inf n
    | .fin n m e => if x = 0x80#8 then .fin n 0 0 else .fin n m (e + x.toInt)
  match typeOf dt with
  | .int t =>
    match scaled with
    | .nan _ => (0#64, true)
    | .inf n => (iBits t (if n then iMin t else iMax t), true)
    | .fin n m e =>
      let q := ((roundShift (roundOf rm) n m (-e)).1 : Int)
      let i := if n then -q else q
      (iBits t (iSat t i), decide (i < iMin t ∨ iMax t < i))
  | .flt f =>
    match scaled with
    | .nan _ => (canonNaN f, false)
    | .inf n => (fMaxFinite f n, true)
    | .fin n m e =>
      let y := fRound f (roundOf rm) n m e
      if y.2 &&& FFlags.ovf != 0#5 then (fMaxFinite f n, true) else (y.1, false)

/-- The elements of a quantising chunk: so many, element e0 on, from the source bytes and the scale of each block
(R236). -/
def quantRun (st dt rm lb e0 : Nat) (scale : Nat → Byte) (src : List Byte) : Nat → List Byte × Nat
  | 0 => ([], 0)
  | n + 1 =>
    let (bs, sat) := quantRun st dt rm lb (e0 + 1) scale (src.drop (typeBytes st)) n
    let (v, clip) := quantElem st dt rm (scale (e0 / 2 ^ lb)) (BitVec.ofNat 64 (leVal (src.take (typeBytes st))))
    (leBytes (typeBytes dt) v.toNat ++ bs, sat + bit clip)

/-- The scale bytes of blocks b0 to b0 + n − 1 (R236), with their locations. -/
def scalesFrom (req core tenant : Nat) (scl : DWord) (b0 n : Nat) (s : State) : State × List Byte × List Xlat × Pass :=
  let (s1, xs, p) := locate req core tenant 1 .read n (scl + BitVec.ofNat 64 b0) s
  (s1, xs.map fun x => s1.byte x.key, xs, p)

/-- The copy moves on past a chunk, or ends when that was its last (R233). -/
def State.copyNext (s : State) (core : Nat) (k : Copy) (sat : Nat) : State :=
  let total := k.sat + sat
  if (k.chunk + 1) * 4096 ≥ k.dstBytes then s.copyEnd core k (if total > 0 then 4 else 0) total
  else s.modCopy core k.id fun j => { j with chunk := j.chunk + 1, sat := total }

/-- A chunk of a copy out of a buffer (R232, R233). -/
def copyChunkOut (core : Nat) (k : Copy) (p : BufAt) (s : State) : Out :=
  let lo := 4096 * k.chunk
  let len := min 4096 (k.bytes - lo)
  let o := copyOrigin core k.qual (k.engine.getD 0)
  let (s1, xs, ps) := locate o.req core (s.cmdTenant k.gang) 32 .write (len / 32) (k.glob + BitVec.ofNat 64 lo) s
  let keys := xs.map Xlat.key
  match ps with
  | .fault _ => .next (s1.copyEnd core k 2 k.chunk)
  | .done =>
    if keys.any (s1.reachHeld (dieOfCore core) (.command k.stamp)) ∨ s.bankTaken p (k.buf + lo) len then .next s
    else
      let bad := s1.bufAnyMark p (k.buf + lo) len
      let s2 := s1.engineWriteAt o (dieOfCore core) 32 xs
        (s1.bufBytes p (k.buf + lo) len)
      let s3 := if bad then s2.markAll keys else s2
      let s4 := s3.modCopy core k.id fun j => { j with written := j.written ++ keys.map fun a => (a, a + 32) }
      if bad then .next (s4.copyEnd core k 3 k.chunk) else .next (s4.copyNext core k 0)

/-- What a chunk brings to its destination buffers: the bytes, the saturations, and whether a source was bad. -/
def State.copyIntoBufs (s : State) (core : Nat) (k : Copy) (off : Nat) (data : List Byte) (sat : Nat) (bad : Bool) : State :=
  let s1 := (s.copyTargets core k).foldl (fun s p =>
    let s' := s.bufWrite p (cellsAt off data)
    if bad then s'.bufMarkRows p off data.length else s') s
  if bad then s1.copyEnd core k 3 k.chunk else s1.copyNext core k sat

/-- A chunk of a copy into buffers (R233, R234, R236). -/
def copyChunkIn (core : Nat) (k : Copy) (s : State) : Out :=
  let tenant := s.cmdTenant k.gang
  let lo := 4096 * k.chunk
  let len := min 4096 (k.dstBytes - lo)
  let taken := (s.copyTargets core k).any fun p => s.bankTaken p (k.buf + lo) len
  let o := copyOrigin core k.qual (k.engine.getD 0)
  match k.kind with
  | .quant _ lb rm dt st scl =>
    let n := len / typeBytes dt
    let e0 := lo / typeBytes dt
    let src := n * typeBytes st
    let (s1, xs, ps) := locate o.req core tenant (min 32 src) .read ((src + 31) / 32)
      (k.glob + BitVec.ofNat 64 (e0 * typeBytes st)) s
    let keys := xs.map Xlat.key
    match ps with
    | .fault _ => .next (s1.copyEnd core k 2 k.chunk)
    | .done =>
      let b0 := e0 / 2 ^ lb
      let (s2, scales, ys, ps2) := scalesFrom o.req core tenant scl b0 ((e0 + n - 1) / 2 ^ lb - b0 + 1) s1
      match ps2 with
      | .fault _ => .next (s2.copyEnd core k 2 k.chunk)
      | .done =>
        if (keys ++ ys.map Xlat.key).any (s2.reachHeld (dieOfCore core) (.issued k.stamp)) ∨ taken then .next s
        else
          let (data, sat) := quantRun st dt rm lb e0 (fun b => scales.getD (b - b0) 0#8) (s2.gather (min 32 src) keys) n
          let s3 := s2.homeReads o (dieOfCore core)
            ((xs.map fun x => (x, min 32 src)) ++ ys.map fun y => (y, 1))
          .next (s3.copyIntoBufs core k (k.buf + lo) data sat
            (ys.any (fun y => s2.marked y.key 1) || keys.any fun a => s2.marked a (min 32 src)))
  | _ =>
    let (s1, xs, ps) := locate o.req core tenant 32 .read (len / 32) (k.glob + BitVec.ofNat 64 lo) s
    let keys := xs.map Xlat.key
    match ps with
    | .fault _ => .next (s1.copyEnd core k 2 k.chunk)
    | .done =>
      if keys.any (s1.reachHeld (dieOfCore core) (.issued k.stamp)) ∨ taken then .next s
      else
        let s2 := s1.homeReads o (dieOfCore core) (xs.map fun x => (x, 32))
        .next (s2.copyIntoBufs core k (k.buf + lo) (s1.gather 32 keys) 0 (keys.any fun a => s1.marked a 32))

/-- COPY_CHUNK (R233): a running copy moves its next chunk, or ends where it has been cancelled. A save stops it at the
boundary (R320). -/
def execCopyChunk (core cmd : Nat) (s : State) : Out :=
  match s.copy? core cmd with
  | none => .next s
  | some k =>
    if k.cancel then .next (s.copyEnd core k 1 k.chunk)
    else if k.engine.isNone ∨ k.held ∨ s.saving k.gang then .next s
    else
      match k.kind with
      | .out cbuf => copyChunkOut core k ⟨k.gang, k.pos, core, if cbuf then .cbuf else .abuf⟩ s
      | _ => copyChunkIn core k s

/-- ENGINE_LINE_RELEASE (R130): a copy releases a line of 256 bytes of which it has nothing left to write. -/
def execEngineLineRelease (core cmd line : Nat) (s : State) : Out :=
  match s.copy? core cmd with
  | none => .next s
  | some k =>
    -- what is owned of the line is exactly what has been written of it
    let inLine := fun (r : Nat × Nat) => decide (r.1 / 256 = line)
    let owned := (List.range 8).filter fun i => k.owned.any fun r => decide (r.1 ≤ line * 256 + 32 * i) && decide (line * 256 + 32 * i < r.2)
    let done := (List.range 8).filter fun i => k.written.any fun r => r.1 == line * 256 + 32 * i
    if owned.isEmpty ∨ owned ≠ done then .next s
    else
      .next (s.modCopy core cmd fun j =>
        { j with
          owned := j.owned.flatMap fun r =>
            (if r.1 < line * 256 then [(r.1, min r.2 (line * 256))] else []) ++
            (if line * 256 + 256 < r.2 then [(max r.1 (line * 256 + 256), r.2)] else [])
          written := j.written.filter fun r => !inLine r })

/-! ## Tooling commands at issue (R237, R238) -/

/-- An accepted tooling command. -/
def Ctx.launchTool (c : Ctx) (kind : ToolKind) (b : Buf) (off len token : Nat) : State :=
  if c.st.toolCount c.key c.ag.core ≥ 15 then c.wait
  else
    let id := c.ag.flight.nextOp
    let core := c.ag.core
    let k : Tool :=
      { id := (c.st.core core).nextCmd, issuer := c.ag.ident, agent := c.key, gang := c.ag.ident.gang,
        pos := c.st.posOf c.ag, kind := kind,
        buf := b, off := off, len := len, token := token, after := id, stopped := false, chunk := 0, sat := 0, seq := c.ag.eng.seq,
        label := (c.ag.sys.labels.head?, c.ag.sys.lovf), cancel := false, held := false, released := false }
    (c.finish 8 fun x => Agent.nextSeq (x.mapFlight fun f => pendOn [.s token] id { f with nextOp := id + 1 })).modCore core
      fun y => { y with tools := y.tools ++ [k], nextCmd := y.nextCmd + 1 }

/-- The range of a tooling command (R232, R237): misalignment, with the range rule of its operation (R238), then
protection. -/
def toolRange (c : Ctx) (b : Buf) (off len unit : Nat) : Option Flt :=
  if len = 0 ∨ len % 32 ≠ 0 ∨ len % unit ≠ 0 ∨ off % 32 ≠ 0 then c.misaligned (BitVec.ofNat 64 off) true
  else if !rangeOk c.header c.ways b off len then c.refusedRange (BitVec.ofNat 64 off) true
  else none

/-- A tooling command whose parameter decides kind and range unit; no kind is an invalid parameter. -/
def toolWith (g : Guard) (buf : Buf) (d a b tok : Opnd) (kind : Nat → Option (ToolKind × Nat)) (s : State) : Out :=
  issueWith g (toolUses d a b tok) 8 noCheck
    (fun c =>
      match kind (c.one32 b).toNat with
      | none => some (flt codeIll)
      | some (_, unit) => toolRange c buf (c.one32 d).toNat (c.one32 a).toNat unit)
    (fun c =>
      match kind (c.one32 b).toNat with
      | none => .next (c.fault (flt codeIll))
      | some (k, _) => .next (c.launchTool k buf (c.one32 d).toNat (c.one32 a).toNat (Opnd.num tok))) s

/-- `tool.xpose` (R238). -/
def execToolXpose (g : Guard) (buf : Buf) (d a b c : Opnd) (s : State) : Out :=
  toolWith g buf d a b c (fun p => if p < 3 then some (.xpose p, 1024 * 2 ^ p) else none) s

/-- The types of `tool.cvt`: codes 0 to 5 and 8 to 10 (R238). -/
def cvtType (t : Nat) : Bool := t ≤ 5 || (8 ≤ t && t ≤ 10)

/-- `tool.cvt` (R238). -/
def execToolCvt (g : Guard) (buf : Buf) (d a b c : Opnd) (s : State) : Out :=
  toolWith g buf d a b c (fun p =>
    let src := ebits p 3 0
    let dst := ebits p 7 4
    if p < 2048 ∧ ebits p 10 8 ≤ 3 ∧ cvtType src ∧ cvtType dst ∧ typeBytes dst ≤ typeBytes src ∧ src ≠ dst then
      some (.cvt src dst (ebits p 10 8), typeBytes src)
    else none) s

/-- `tool.zero` (R238). -/
def execToolZero (g : Guard) (buf : Buf) (d a b c : Opnd) (s : State) : Out :=
  toolWith g buf d a b c (fun _ => some (.zero, 1)) s

/-- The row lengths of `tool.rsum`. -/
def rowLength (l : Nat) : Bool := l == 8 || l == 16 || l == 32 || l == 64 || l == 128 || l == 256 || l == 512 || l == 1024

/-- `tool.rsum` (R238): the offset is a multiple of 4L too. -/
def execToolRsum (g : Guard) (buf : Buf) (d a b c : Opnd) (s : State) : Out :=
  issueWith g (toolUses d a b c) 8 noCheck
    (fun x =>
      let l := (x.one32 b).toNat
      if !rowLength l then some (flt codeIll)
      else if (x.one32 d).toNat % (4 * l) ≠ 0 then x.misaligned (x.rd false d 0) true
      else toolRange x buf (x.one32 d).toNat (x.one32 a).toNat (4 * l))
    (fun x => .next (x.launchTool (.rsum (x.one32 b).toNat) buf (x.one32 d).toNat (x.one32 a).toNat (Opnd.num c))) s

/-- `tool.quant` (R235, R238): it waits for older buffer stores and reads its descriptor. -/
def execToolQuant (g : Guard) (buf : Buf) (d a b c : Opnd) (s : State) : Out :=
  issueWith g (toolUses d a b c) 8 noCheck
    (fun x =>
      if (x.one32 b).toNat % 32 ≠ 0 then x.misaligned (x.rd false b (lowLane x.act)) false
      else
        match toolRange x buf (x.one32 d).toNat (x.one32 a).toNat 1 with
        | some f => some f
        | none => descCheck x (x.one32 b).toNat)
    (fun x =>
      if x.storesPend then .next x.wait
      else
        match QDesc.ofWords (x.blockWord (x.one32 b).toNat) with
        | none => .next (x.fault (flt codeIll))
        | some e =>
          .next (x.launchTool (.quant e.lb e.rm e.dt e.st e.scl) buf (x.one32 d).toNat (x.one32 a).toNat (Opnd.num c))) s

/-! ## The steps of a tooling command (R99, R101, R238) -/

def State.tool? (s : State) (core id : Nat) : Option Tool := (s.core core).tools.find? fun k => k.id == id

def State.modTool (s : State) (core id : Nat) (f : Tool → Tool) : State :=
  s.modCore core fun c => { c with tools := c.tools.map fun k => if k.id = id then f k else k }

/-- A tooling command as its records name it (R322). -/
def Tool.name (core : Nat) (k : Tool) : CmdName := ⟨k.issuer, k.seq, engineId 1 core (bufCode k.buf), k.label, 0⟩

def State.toolEnd (s : State) (core : Nat) (k : Tool) (status info : Nat) : State :=
  ((s.modCore core fun c => { c with tools := c.tools.filter fun j => j.id != k.id }).modAgent k.agent
    (Agent.token k.token k.after status (min info 16777215) false)).trace (k.name core) .finish status

/-- A 32 by 32 block of elements of w bytes transposed. -/
def transpose (w : Nat) (src : List Byte) : List Byte :=
  (List.range 1024).flatMap fun i => (src.drop ((i % 32 * 32 + i / 32) * w)).take w

/-- Every block of a chunk transposed. -/
def transposeAll (w : Nat) : Nat → List Byte → List Byte
  | 0, _ => []
  | n + 1, l => transpose w (l.take (1024 * w)) ++ transposeAll w n (l.drop (1024 * w))

/-- Elements converted one after the other (R72, R186). -/
def convertRun (src dst rm : Nat) : Nat → List Byte → List Byte
  | 0, _ => []
  | n + 1, l =>
    leBytes (typeBytes dst)
        (fCvt (typeOf dst) (typeOf src) (roundOf rm) (BitVec.ofNat 64 (leVal (l.take (typeBytes src))))).1.toNat ++
      convertRun src dst rm n (l.drop (typeBytes src))

/-- The FP32 words of a list of bytes. -/
def wordsOf : Nat → List Byte → List DWord
  | 0, _ => []
  | n + 1, l => BitVec.ofNat 64 (leVal (l.take 4)) :: wordsOf n (l.drop 4)

/-- The sum of a row of FP32 words in the tree of R80 (R238). -/
def rowSum (ws : List DWord) : DWord := (treeRoot add32 (Nat.log2 ws.length) (ws.map some)).getD 0#64

/-- The sums of the rows of a chunk, each with the offset of its word 0. -/
def rowSums (row : Nat) : Nat → Nat → List Byte → List (Nat × Byte)
  | 0, _, _ => []
  | n + 1, off, l =>
    cellsAt off (leBytes 4 (rowSum (wordsOf row (l.take (4 * row)))).toNat) ++
      rowSums row n (off + 4 * row) (l.drop (4 * row))

/-- A chunk's writes, then the next chunk or the end. -/
def State.toolNext (s : State) (core : Nat) (k : Tool) (p : BufAt) (cells : List (Nat × Byte)) (markOff markLen : Nat)
    (bad : Bool) (sat : Nat) : State :=
  let s1 := s.bufWrite p cells
  if bad then (s1.bufMarkRows p markOff markLen).toolEnd core k 3 k.chunk
  else
    let total := k.sat + sat
    if (k.chunk + 1) * 4096 ≥ k.len then s1.toolEnd core k (if total > 0 then 4 else 0) total
    else s1.modTool core k.id fun j => { j with chunk := j.chunk + 1, sat := total, stopped := false }

/-- TOOL_CHUNK (R101, R238): the next 4 KiB of the range, once the issuer's older stores have performed. -/
def execToolChunk (core cmd : Nat) (s : State) : Out :=
  match s.tool? core cmd with
  | none => .next s
  | some k =>
    if k.cancel then .next (s.toolEnd core k 1 k.chunk)
    else if k.held ∨ s.saving k.gang ∨ !s.olderDone k.agent k.after then .next s
    else
      let brk := k.chunk == 0 && !k.stopped && !k.released && ((s.agent? k.agent).map fun x => s.engineBreak x 1 k.seq).getD false
      if brk then
        match s.agent? k.agent with
        | some x =>
          .next ((s.modTool core cmd fun j => { j with held := true }).reportHeld x k.seq
            (engineId 1 core (bufCode k.buf)))
        | none => .next s
      else
        let p : BufAt := ⟨k.gang, k.pos, core, k.buf⟩
        let lo := 4096 * k.chunk
        let len := min 4096 (k.len - lo)
        let off := k.off + lo
        let src := s.bufBytes p off len
        let bad := s.bufAnyMark p off len
        let s0 := if k.stopped then s.trace (k.name core) .resume 0
          else if k.chunk = 0 then s.trace (k.name core) .start 0 else s
        if s.bankTaken p off len then .next s else
        match k.kind with
        | .zero => .next (s0.toolNext core k p (cellsAt off (src.map fun _ => 0#8)) off len false 0)
        | .xpose z => .next (s0.toolNext core k p (cellsAt off (transposeAll (2 ^ z) (len / (1024 * 2 ^ z)) src)) off len bad 0)
        | .rsum row => .next (s0.toolNext core k p (rowSums row (len / (4 * row)) off src) off len bad 0)
        | .cvt st dt rm =>
          let dlo := k.off + lo / typeBytes st * typeBytes dt
          let dlen := len / typeBytes st * typeBytes dt
          .next (s0.toolNext core k p (cellsAt dlo (convertRun st dt rm (len / typeBytes st) src)) dlo dlen bad 0)
        | .quant lb rm dt st scl =>
          let n := len / typeBytes st
          let e0 := lo / typeBytes st
          let b0 := e0 / 2 ^ lb
          let (s1, scales, ys, ps) := scalesFrom (toolOrigin core k.buf).req core (s.cmdTenant k.gang) scl b0 ((e0 + n - 1) / 2 ^ lb - b0 + 1) s0
          match ps with
          | .fault _ => .next (s1.toolEnd core k 2 k.chunk)
          | .done =>
            let dlo := k.off + e0 * typeBytes dt
            if ys.any (fun y => s1.reachHeld (dieOfCore core) .any y.key) then .next s
            else if ys.any s1.loses then
              .next ((s1.linkGone (s.cmdTenant k.gang) (n * typeBytes dt)).toolNext core k p
                (cellsAt dlo (freeBytes s1.free (n * typeBytes dt))) dlo (n * typeBytes dt) true 0)
            else
            let s2 := s1.homeReads (toolOrigin core k.buf) (dieOfCore core) (ys.map fun y => (y, 1))
            let (data, sat) := quantRun st dt rm lb e0 (fun b => scales.getD (b - b0) 0#8) src n
            .next (s2.toolNext core k p (cellsAt dlo data) dlo data.length (bad || ys.any fun y => s1.marked y.key 1) sat)

end Sys2Proof.Machine
end

