-- ==== Sys2Proof/Machine/Matrix.lean ====
section
/-! DEFINITION. Class 3 at issue: the frame of a command, its parameter block and its acceptance (R245 to R248, R257 to
R267, R270), with the instructions of the class that act in the warp alone (R257, R266, R272). -/

namespace Sys2Proof.Machine

/-! ## The frame (R246) -/

/-- The slots and the barrier that a frame names are granted; a task makes no arrival. -/
def frameCheck (f : CmdFrame) (c : Ctx) : Option Flt :=
  let h := c.header
  if f.wm.toNat ≥ 2 ^ h.slots ∨ (f.ss.map fun j => decide (j ≥ h.slots)).getD false ∨
     (f.bar.map fun b => decide (b ≥ h.bars)).getD false then some (flt codeIllop)
  else if f.bar.isSome ∧ c.ag.task then some (flt codeBarctx)
  else none

/-- An array at or above ARRAYS: ILLOP, before BARCTX. -/
def arrayCheck (arr : Nat) (f : CmdFrame) (c : Ctx) : Option Flt :=
  if arr ≥ c.header.arrays then some (flt codeIllop) else frameCheck f c

/-! ## Dependency slots (R248) -/

def Gang.slot (g : Gang) (pos j : Nat) : DepSlot := kgetD ⟨0, 0⟩ g.slots (pos * 16 + j)
def Gang.setSlot (g : Gang) (pos j : Nat) (x : DepSlot) : Gang := { g with slots := ksetD ⟨0, 0⟩ g.slots (pos * 16 + j) x }

/-- The class-3 commands that a core holds and has not completed, beside those of gangs that are saved (R247, R254). -/
def State.cmdsOn (s : State) (core : Nat) : List Cmd := (s.core core).cmds.filter fun k => !k.ended && !s.away k.gang

/-- A core holds no more accepted commands than these 64 (R247). -/
def State.cmdsFull (s : State) (core : Nat) : Bool := decide ((s.cmdsOn core).length ≥ 64)

/-- A command is accepted (R247, R248, R322): the counts it waits for are recorded, then its slot's ACC goes up. `f` is
what acceptance changes in the agent. -/
def Ctx.accept (c : Ctx) (kind : CmdKind) (fr : CmdFrame) (tiles : List (Option Tile)) (pend : List Opnd)
    (f : Agent → Agent) : State :=
  if c.st.cmdsFull c.ag.core then c.wait
  else
    let core := c.ag.core
    let pos := c.st.posOf c.ag
    let id := c.ag.flight.nextOp
    let slots := (List.range 16).filter fr.wm.getLsbD
    let waits := slots.map fun j => (j, ((c.st.gangOf c.ag).map fun g => (g.slot pos j).acc).getD 0)
    let k : Cmd :=
      { id := (c.st.core core).nextCmd, issuer := c.ag.ident, agent := c.key, gang := c.ag.ident.gang, pos := pos, kind := kind, frame := fr,
        waits := waits, bd := c.ag.eng.bd, tiles := tiles, seq := c.ag.eng.seq,
        label := (c.ag.sys.labels.head?, c.ag.sys.lovf), after := id, started := false, halted := false,
        status := 0#32, cursor := (match kind with | .chainRun n _ => n | .chainStep n => n | _ => 0), kidx := 0,
        stopped := false, ended := false, held := false, released := false }
    let s1 := (c.finish 8 fun x => f (Agent.nextSeq (x.mapFlight fun f => pendOn pend id { f with nextOp := id + 1 }))).modCore
      core fun y => { y with cmds := y.cmds ++ [k], nextCmd := y.nextCmd + 1 }
    match fr.ss with
    | none => s1
    | some j =>
      s1.modGang c.ag.ident.gang fun g =>
        let x := g.slot pos j
        g.setSlot pos j { x with acc := (x.acc + 1) % 65536 }

/-! ## Parameter blocks (R247) -/

/-- A block as it is read: what it says, or the fault it raises. -/
abbrev Parse := Flt ⊕ CmdKind

/-- A field that breaks its rule. -/
def badBlock : Parse := .inl (flt codeIll)

/-- A range beyond its grant, with its offset, in the lowest active lane (R219). -/
def badRange (c : Ctx) (off : Nat) : Parse := .inl ⟨codeProtection, BitVec.ofNat 64 off, lowLane c.act, false, false⟩

/-- A command with a block: once the older buffer stores of its issuer have performed, the block is read and checked, and
the command accepted (R247). -/
def blockCmd (g : Guard) (pre : Ctx → Option Flt) (f : CmdFrame) (d : Opnd)
    (parse : Ctx → (Nat → Nat) → Parse × List (Option Tile)) (upd : CmdKind → Agent → Agent) (s : State) : Out :=
  issueWith g (blockUses d) 8 pre (fun c => blockCheck c (c.one32 d).toNat)
    (fun c =>
      if c.storesPend then .next c.wait
      else
        match parse c (c.blockWord (c.one32 d).toNat) with
        | (.inl e, _) => .next (c.fault e)
        | (.inr k, tiles) => .next (c.accept k f tiles [] (upd k))) s

/-- The handle of an agent. -/
def Ctx.tile (c : Ctx) (th : Nat) : Option Tile := kget c.ag.eng.th th

/-- A handle bound with this format that holds these tile rows and columns (R258, R263). -/
def tileOk (t : Option Tile) (fmt rows cols : Nat) : Bool :=
  match t with
  | none => false
  | some x => x.fmt == fmt && decide (rows ≤ x.trows) && decide (cols ≤ x.tcols)

/-- The bytes of a weight tile (R255). -/
def weightBytes : Nat → Nat
  | 0 | 1 => 8192
  | 2 | 3 => 4096
  | 4 => 1536
  | _ => 2048

/-- The bytes of an activation element (R255). -/
def actBytes (af : Nat) : Nat := if af = 2 then 1 else 2

/-- The legal pairs of R256. -/
def pairOk (af wf : Nat) : Bool :=
  match af with
  | 0 => wf == 0 || wf == 3 || wf == 4 || wf == 5
  | 1 => wf == 1
  | 2 => wf == 2
  | _ => false

/-- The words 4 to 7 of an `ldst` block as one value. -/
def tblWords (w : Nat → Nat) : BitVec 128 :=
  BitVec.ofNat 128 (w 4 + w 5 * 2 ^ 32 + w 6 * 2 ^ 64 + w 7 * 2 ^ 96)

/-- The table that block b uses (R260). -/
def tblOf (t : BitVec 128) (b : Nat) : Nat := t.toNat / 2 ^ (4 * b) % 16

/-- The block of `ldst` (R258, R260). -/
def parseLdst (arr : Nat) (c : Ctx) (w : Nat → Nat) : Parse × List (Option Tile) :=
  let woff := ebits (w 0) 17 0
  let wf := ebits (w 1) 3 0
  let use := ebits (w 2) 31 31 == 1
  let th := ebits (w 2) 4 0
  let tc := ebits (w 3) 31 16
  let tr := ebits (w 3) 15 0
  let cb := wf == 4 || wf == 5
  if ebits (w 0) 31 18 ≠ 0 ∨ woff % 32 ≠ 0 ∨ ebits (w 1) 31 4 ≠ 0 ∨ wf > 5 ∨ ebits (w 2) 30 5 ≠ 0 ∨
     (!cb ∧ tblWords w ≠ 0#128) ∨ (cb ∧ (List.range 32).any fun b => tblOf (tblWords w) b ≥ c.header.tables) ∨
     (use ∧ !tileOk (c.tile th) wf (tr + 1) (tc + 1)) then (badBlock, [])
  else if woff + weightBytes wf > c.header.grant .wbuf then (badRange c woff, [])
  else (.inr (.ldst arr woff wf (if use then some (th, tr, tc) else none) (tblWords w)), [c.tile th])

/-- The block of `mstream` (R258, R262). -/
def parseMstream (arr : Nat) (c : Ctx) (w : Nat → Nat) : Parse × List (Option Tile) :=
  let aoff := ebits (w 0) 18 0
  let coff := ebits (w 1) 16 0
  let af := ebits (w 2) 27 24
  let k := ebits (w 2) 22 16
  let m := ebits (w 2) 9 0
  let astr := w 3
  let use := ebits (w 4) 31 31 == 1
  let th := ebits (w 4) 4 0
  let tc := ebits (w 5) 31 16
  let tr := ebits (w 5) 15 0
  if ebits (w 0) 31 19 ≠ 0 ∨ aoff % 32 ≠ 0 ∨ ebits (w 1) 31 17 ≠ 0 ∨ coff % 256 ≠ 0 ∨ ebits (w 2) 31 28 ≠ 0 ∨ af > 2 ∨
     ebits (w 2) 23 23 ≠ 0 ∨ k = 0 ∨ k > 64 ∨ ebits (w 2) 15 10 ≠ 0 ∨ m = 0 ∨ m > 512 ∨ astr % 32 ≠ 0 ∨
     astr < 64 * actBytes af ∨ ebits (w 4) 30 5 ≠ 0 ∨ w 6 ≠ 0 ∨ w 7 ≠ 0 ∨
     (use ∧ !tileOk (c.tile th) af (tr + 1) (tc + 1)) then (badBlock, [])
  else if aoff + m * astr > c.header.grant .abuf then (badRange c aoff, [])
  else if coff + 256 * m > c.header.grant .cbuf then (badRange c coff, [])
  else (.inr (.mstream arr aoff coff af k m astr (if use then some (th, tr, tc) else none)), [c.tile th])

/-- The block of `mop` (R263). -/
def parseMop (c : Ctx) (w : Nat → Nat) : Parse × List (Option Tile) :=
  let astg := ebits (w 0) 18 0
  let wstg := ebits (w 1) 17 0
  let coff := ebits (w 2) 16 0
  let wf := ebits (w 3) 31 28
  let af := ebits (w 3) 27 24
  let kl := ebits (w 3) 22 16
  let m := ebits (w 3) 9 0
  let nt := ebits (w 4) 31 16
  let kt := ebits (w 4) 15 0
  let wth := ebits (w 5) 12 8
  let ath := ebits (w 5) 4 0
  let atc := ebits (w 6) 31 16
  let atr := ebits (w 6) 15 0
  let wtc := ebits (w 7) 31 16
  let wtr := ebits (w 7) 15 0
  if ebits (w 0) 31 19 ≠ 0 ∨ astg % 32 ≠ 0 ∨ ebits (w 1) 31 18 ≠ 0 ∨ wstg % 32 ≠ 0 ∨ ebits (w 2) 31 17 ≠ 0 ∨
     coff % 256 ≠ 0 ∨ wf > 3 ∨ af > 2 ∨ !pairOk af wf ∨ ebits (w 3) 23 23 ≠ 0 ∨ kl = 0 ∨ kl > 64 ∨
     ebits (w 3) 15 10 ≠ 0 ∨ m = 0 ∨ m > 512 ∨ nt = 0 ∨ kt = 0 ∨ ebits (w 5) 31 13 ≠ 0 ∨ ebits (w 5) 7 5 ≠ 0 ∨
     !tileOk (c.tile ath) af (atr + 1) (atc + kt) ∨ !tileOk (c.tile wth) wf (wtr + kt) (wtc + nt) then (badBlock, [])
  else if astg + 2 * m * (64 * actBytes af) > c.header.grant .abuf then (badRange c astg, [])
  else if wstg + 2 * weightBytes wf > c.header.grant .wbuf then (badRange c wstg, [])
  else if coff + 256 * nt * m > c.header.grant .cbuf then (badRange c coff, [])
  else (.inr (.mop astg wstg coff wf af kl m nt kt wth ath atc atr wtc wtr), [c.tile ath, c.tile wth])

/-- The block of `mzero` (R264). -/
def parseMzero (c : Ctx) (w : Nat → Nat) : Parse × List (Option Tile) :=
  let coff := ebits (w 0) 16 0
  if ebits (w 0) 31 17 ≠ 0 ∨ coff % 32 ≠ 0 ∨ w 1 % 32 ≠ 0 ∨ w 1 = 0 ∨ w 2 ≠ 0 ∨ w 3 ≠ 0 ∨ w 4 ≠ 0 ∨ w 5 ≠ 0 ∨ w 6 ≠ 0 ∨
     w 7 ≠ 0 then (badBlock, [])
  else if coff + w 1 > c.header.grant .cbuf then (badRange c coff, [])
  else (.inr (.mzero coff (w 1)), [])

/-- The block of `cbtload` (R259). -/
def parseCbtload (tbl : Nat) (_c : Ctx) (w : Nat → Nat) : Parse × List (Option Tile) :=
  let src := w 1 * 4294967296 + w 0
  if src % 32 ≠ 0 ∨ w 2 ≠ 0 ∨ w 3 ≠ 0 ∨ w 4 ≠ 0 ∨ w 5 ≠ 0 ∨ w 6 ≠ 0 ∨ w 7 ≠ 0 then (badBlock, [])
  else (.inr (.cbtload tbl (BitVec.ofNat 64 src)), [])

/-- The block of `chain.cfg` (R265, R267). -/
def parseChainCfg (c : Ctx) (w : Nat → Nat) : Parse × List (Option Tile) :=
  let prog := w 1 * 4294967296 + w 0
  let mode := ebits (w 2) 17 16
  let nsteps := ebits (w 2) 15 0
  let boff := ebits (w 3) 16 0
  let cap := ebits (w 4) 15 0
  let bc := ebits (w 5) 31 16
  let mb := ebits (w 5) 15 0
  if prog % 16 ≠ 0 ∨ ebits (w 2) 31 18 ≠ 0 ∨ mode = 3 ∨ nsteps = 0 ∨ ebits (w 3) 31 17 ≠ 0 ∨ boff % 32 ≠ 0 ∨
     ebits (w 4) 31 16 ≠ 0 ∨ cap = 0 ∨ cap > 32768 ∨ (mode ≠ 1 ∧ (bc ≠ 0 ∨ mb ≠ 0)) ∨
     (mode = 1 ∧ (bc = 0 ∨ mb = 0 ∨ mb * bc > cap)) ∨ w 6 ≠ 0 ∨ w 7 ≠ 0 ∨ (mode = 2 ∧ !c.ag.eng.chainAccepted) then
    (badBlock, [])
  else if boff + 4 * cap > c.header.grant .cbuf then (badRange c boff, [])
  else (.inr (.chainCfg (BitVec.ofNat 64 prog) mode nsteps boff cap bc mb), [])

def noUpd : CmdKind → Agent → Agent := fun _ x => x

/-- An agent has a chain context from the acceptance of its first `chain.cfg` of MODE 0 or 1 (R265). -/
def chainUpd (k : CmdKind) (x : Agent) : Agent :=
  match k with
  | .chainCfg _ mode _ _ _ _ _ => if mode ≤ 1 then x.mapEng fun e => { e with chainAccepted := true } else x
  | _ => x

/-! ## The commands (R259 to R264, R267, R270) -/

/-- `ldst` (R260). -/
def execLdst (g : Guard) (arr : Nat) (f : CmdFrame) (d : Opnd) (s : State) : Out :=
  blockCmd g (arrayCheck arr f) f d (parseLdst arr) noUpd s

/-- `cbtload` (R259). -/
def execCbtload (g : Guard) (tbl : Nat) (f : CmdFrame) (d : Opnd) (s : State) : Out :=
  blockCmd g (fun c => if tbl ≥ c.header.tables then some (flt codeIllop) else frameCheck f c) f d (parseCbtload tbl)
    noUpd s

/-- `mswap` (R261). -/
def execMswap (g : Guard) (arr : Nat) (f : CmdFrame) (s : State) : Out :=
  issueWith g [] 8 (arrayCheck arr f) noCheck (fun c => .next (c.accept (.mswap arr) f [] [] id)) s

/-- `mstream` (R262). -/
def execMstream (g : Guard) (arr : Nat) (f : CmdFrame) (d : Opnd) (s : State) : Out :=
  blockCmd g (arrayCheck arr f) f d (parseMstream arr) noUpd s

/-- `mop` (R263): a gang of fewer than four arrays may not issue it. -/
def execMop (g : Guard) (f : CmdFrame) (d : Opnd) (s : State) : Out :=
  blockCmd g (arrayCheck 3 f) f d parseMop noUpd s

/-- `mzero` (R264). -/
def execMzero (g : Guard) (f : CmdFrame) (d : Opnd) (s : State) : Out :=
  blockCmd g (frameCheck f) f d parseMzero noUpd s

/-- `chain.cfg` (R267). -/
def execChainCfg (g : Guard) (f : CmdFrame) (d : Opnd) (s : State) : Out :=
  blockCmd g (frameCheck f) f d parseChainCfg chainUpd s

/-- An agent without a chain context: ILL (R265). -/
def chainCheck (f : CmdFrame) (c : Ctx) : Option Flt :=
  match frameCheck f c with
  | some e => some e
  | none => if c.ag.eng.chainAccepted then none else some (flt codeIll)

/-- `chain.step` (R270). -/
def execChainStep (g : Guard) (f : CmdFrame) (d : Opnd) (s : State) : Out :=
  issueWith g (usesOf (.chainStep g f d)) 8 (chainCheck f) noCheck
    (fun c => .next (c.accept (.chainStep (c.one32 d).toNat) f [] [] id)) s

/-- `chain.run` (R270): the cursor register is read, and pending until the run ends. -/
def execChainRun (g : Guard) (f : CmdFrame) (d : Opnd) (s : State) : Out :=
  issueWith g (usesOf (.chainRun g f d)) 8 (chainCheck f) noCheck
    (fun c => .next (c.accept (.chainRun (c.one32 d).toNat (Opnd.num d)) f [] [d] id)) s

/-! ## What acts in the warp alone (R257, R266, R272) -/

/-- The tensor of a descriptor (R257). -/
def parseTile (w : Nat → Nat) : Option Tile :=
  let base := w 1 * 4294967296 + w 0
  let t : Tile := { base := BitVec.ofNat 64 base, rstride := w 2, cstride := w 3, trows := ebits (w 4) 15 0,
                    tcols := ebits (w 4) 31 16, fmt := ebits (w 5) 3 0 }
  if base % 32 ≠ 0 ∨ base ≥ 144115188075855872 ∨ w 2 % 32 ≠ 0 ∨ w 3 % 32 ≠ 0 ∨ t.trows = 0 ∨ t.tcols = 0 ∨ t.fmt > 5 ∨
     ebits (w 5) 31 4 ≠ 0 ∨ w 6 ≠ 0 ∨ w 7 ≠ 0 then none
  else some t

/-- `tbind` (R257): a command of class 3, it is accepted as the others are, and complete at once (R247, R322). -/
def execTbind (g : Guard) (th : Nat) (d : Opnd) (s : State) : Out :=
  issueWith g (usesOf (.tbind g th d)) 8 noCheck (fun c => blockCheck c (c.one32 d).toNat)
    (fun c =>
      if c.storesPend then .next c.wait
      else
        match parseTile (c.blockWord (c.one32 d).toNat) with
        | none => .next (c.fault (flt codeIll))
        | some t => .next (if c.st.cmdsFull c.ag.core then c.wait else c.finish 8 fun x => Agent.nextSeq (x.mapEng fun e => { e with th := kput e.th th t }))) s

/-- `bd.set` (R266). -/
def execBdSet (g : Guard) (n : Nat) (d : Opnd) (s : State) : Out :=
  issue g (usesOf (.bdSet g n d))
    (fun c => c.finish 8 (Agent.mapEng fun e => { e with bd := ksetD 0#32 e.bd n (c.one32 d) })) s

/-- `bd.get` (R266). -/
def execBdGet (g : Guard) (n : Nat) (d : Opnd) (s : State) : Out :=
  issue g (usesOf (.bdGet g n d)) (fun c => c.putS d false ((kgetD 0#32 c.ag.eng.bd n).setWidth 64, 0#5)) s

/-- `dsrd` (R272). -/
def execDsrd (g : Guard) (d : Opnd) (s : State) : Out :=
  issue g (usesOf (.dsrd g d))
    (fun c =>
      let bits := maskOf fun j => decide (j < c.header.slots) &&
        ((c.st.gangOf c.ag).map fun y => (y.slot (c.st.posOf c.ag) j).done == (y.slot (c.st.posOf c.ag) j).acc).getD false
      c.putS d false (bits.setWidth 64, 0#5)) s

end Sys2Proof.Machine
end

