-- ==== Sys2Proof/Machine/Engine.lean ====
section
/-! DEFINITION. The steps of class-3 commands: start (R248, R249, R258), chain steps (R268 to R270) and end (R250 to R252,
R259 to R264). A command that computes for long has its effect at its end (log 25). -/

namespace Sys2Proof.Machine

/-! ## Status bits (R251) -/

def stEcc : Word := 0x001#32
def stRes : Word := 0x002#32
def stOvf : Word := 0x004#32
def stNan : Word := 0x008#32
def stRemap : Word := 0x010#32
def stFault : Word := 0x020#32
def stPair : Word := 0x040#32
def stCovf : Word := 0x080#32
def stStep : Word := 0x100#32

/-! ## Commands of a core -/

def State.cmd? (s : State) (core id : Nat) : Option Cmd := (s.core core).cmds.find? fun k => k.id == id

def State.modCmd (s : State) (core id : Nat) (f : Cmd → Cmd) : State :=
  s.modCore core fun c => { c with cmds := c.cmds.map fun k => if k.id = id then f k else k }

def CmdKind.isLdst : CmdKind → Bool
  | .ldst .. => true
  | _ => false

def CmdKind.isMop : CmdKind → Bool
  | .mop .. => true
  | _ => false

def CmdKind.isChain : CmdKind → Bool
  | .chainCfg .. => true
  | .chainStep .. => true
  | .chainRun .. => true
  | _ => false

/-- The array that `ldst`, `mswap` or `mstream` names. -/
def CmdKind.array : CmdKind → Option Nat
  | .ldst a .. => some a
  | .mswap a => some a
  | .mstream a .. => some a
  | _ => none

def CmdKind.isSwap : CmdKind → Bool
  | .mswap .. => true
  | _ => false

/-- Command k must wait for an earlier-accepted one j that has not completed (R249). -/
def unitWaits (k j : Cmd) : Bool :=
  let sameArray := j.gang == k.gang && j.kind.array.isSome && j.kind.array == k.kind.array
  let sameGang := j.gang == k.gang
  let arrays := fun (c : CmdKind) => c.array.isSome || c.isMop
  (k.kind.isLdst && j.kind.isLdst) ||
  (k.kind.isLdst && j.kind.isSwap && sameArray) ||
  (k.kind.array.isSome && !k.kind.isLdst && sameArray && !j.kind.isLdst) ||
  (k.kind.isSwap && j.kind.isLdst && sameArray) ||
  (k.kind.isMop && sameGang && arrays j.kind) ||
  (arrays k.kind && sameGang && j.kind.isMop) ||
  (k.kind.isChain && j.kind.isChain)

/-- The slot counts that a command recorded have been reached (R248). -/
def slotsReached (g : Gang) (k : Cmd) : Bool :=
  k.waits.all fun w => decide (((g.slot k.pos w.1).done + 65536 - w.2) % 65536 < 32768)

/-- The command takes part in nothing while its gang is saved, or while it has not started and its gang is being saved. -/
def State.setAside (s : State) (j : Cmd) : Bool :=
  match s.gang? j.gang with
  | some g => g.phase == .saved || (g.phase == .saving && !j.started)
  | none => false

/-- The core has accepted the command: of those that a restore brings back, the ones beyond the 64 wait, in their order
(R247, R254). -/
def State.isAccepted (s : State) (core : Nat) (k : Cmd) : Bool :=
  decide (((s.cmdsOn core).takeWhile fun j => j.id != k.id).length < 64)

/-- A command may start (R129, R248, R249, R254). -/
def State.mayStart (s : State) (core : Nat) (k : Cmd) : Bool :=
  !k.started && !s.saving k.gang && s.isAccepted core k &&
  ((s.gang? k.gang).map fun g => slotsReached g k).getD false &&
  ((s.core core).cmds.all fun j => j.id ≥ k.id || j.ended || s.setAside j || !unitWaits k j) &&
  s.olderDone k.agent k.after

/-- The kind and unit of the engine that runs a command, if it has one (R322). -/
def CmdKind.engine : CmdKind → Option (Nat × Nat)
  | .ldst .. => some (3, 0)
  | .cbtload .. => some (4, 0)
  | .mswap a => some (2, a)
  | .mstream a .. => some (2, a)
  | .mop .. => some (2, 0)
  | .mzero .. => none
  | .chainCfg .. => some (5, 0)
  | .chainStep .. => some (5, 0)
  | .chainRun .. => some (5, 0)

/-- A command as its records name it; `mzero` runs on no engine that has an identity (R322, log 22). -/
def Cmd.name (core : Nat) (k : Cmd) : Option CmdName :=
  k.kind.engine.map fun e => ⟨k.issuer, k.seq, engineId e.1 core e.2, k.label, k.kidx⟩

/-- An event of a command is recorded (R324). -/
def State.traceCmd (s : State) (core : Nat) (k : Cmd) (ev : TraceEv) (status : Nat) : State :=
  match k.name core with
  | some n => s.trace n ev status
  | none => s

/-- The origin of a command's reads of global memory (R102, R103, log 87). -/
def Cmd.origin (core : Nat) (k : Cmd) : Origin :=
  let e := k.kind.engine.getD (0, 0)
  let c := Config.engineClass e.1
  ⟨c.1 % 4, c.2 % 65536, coreEngine e.1 core e.2, false⟩

/-- A buffer load or store has performed in this clock on the core: its commands act in a later one, since they would have
gone before it (R17). -/
def State.bankBusy (s : State) (core : Nat) : Bool := s.banks.any fun b => b.1 == core

/-! ## Planes (R22, R260) -/

def Plane.reset : Plane := { fmt := 0, rows := [], marks := [] }

def planeKey (pos arr : Nat) (shadow : Bool) : Nat := pos * 8 + 2 * arr + bit shadow

def Gang.plane (g : Gang) (pos arr : Nat) (shadow : Bool) : Plane := kgetD Plane.reset g.planes (planeKey pos arr shadow)

def Gang.setPlane (g : Gang) (pos arr : Nat) (shadow : Bool) (p : Plane) : Gang :=
  { g with planes := ksetD Plane.reset g.planes (planeKey pos arr shadow) p }

/-- Weight (i, j) of a plane. -/
def Plane.weight (p : Plane) (i j : Nat) : DWord := ((kgetD 0 p.rows i) >>> (16 * j)).setWidth 64 &&& 0xFFFF#64

/-- Weight (i, j) carries a mark. -/
def Plane.marked (p : Plane) (i j : Nat) : Bool := (kgetD 0#64 p.marks i).getLsbD j

/-- A row of 64 elements of 16 bits. -/
def packRow (f : Nat → Nat) : BitVec 1024 :=
  BitVec.ofNat 1024 ((List.range 64).foldr (fun j n => n * 65536 + f j % 65536) 0)

/-- A plane from its elements and their marks. -/
def Plane.build (fmt : Nat) (w : Nat → Nat → Nat) (mk : Nat → Nat → Bool) : Plane :=
  { fmt := fmt
    rows := (List.range 64).foldl (fun m i => ksetD 0 m i (packRow (w i))) []
    marks := (List.range 64).foldl (fun m i => ksetD 0#64 m i (BitVec.ofFnLE fun j : Fin 64 => mk i j.val)) [] }

/-- Entry x of a codebook table. -/
def Gang.tableEntry (g : Gang) (pos t x : Nat) : BitVec 16 :=
  ((kgetD 0#256 g.tables (pos * 16 + t)) >>> (16 * x)).setWidth 16

/-! ## Chunk steps of the arrays (R80, R81) -/

/-- A value with the status bits that its rounding raised. -/
abbrev SRes := DWord × Word

/-- A sum of FP32 values with OVF and NAN (R251). -/
def addS (a b : SRes) : SRes :=
  let r := add32 a.1 b.1
  let nan := fIsNaN .f32 r && !fIsNaN .f32 a.1 && !fIsNaN .f32 b.1
  let inf := fun x => (FVal.ofBits .f32 x).isInf
  (r, a.2 ||| b.2 ||| (if nan then stNan else 0#32) ||| (if inf r && !inf a.1 && !inf b.1 then stOvf else 0#32))

/-- A product rounded to FP32 with OVF and NAN: `bad` tells a NaN operand, `big` an infinite one. -/
def mulS (bad big : Bool) (r : DWord) : SRes :=
  (r, (if fIsNaN .f32 r && !bad then stNan else 0#32) |||
      (if (FVal.ofBits .f32 r).isInf && !big then stOvf else 0#32))

def isNaNV (v : FVal) : Bool := v.isNaN
def isInfV (v : FVal) : Bool := v.isInf

/-- The product of two values of floating types, rounded once to FP32 (R80). -/
def prodF (fa fw : FTy) (a w : DWord) : SRes :=
  let x := FVal.ofBits fa a
  let y := FVal.ofBits fw w
  mulS (isNaNV x || isNaNV y) (isInfV x || isInfV y)
    (match x.mul y with
     | .nan _ => canonNaN .f32
     | .inf n => fInf .f32 n
     | .fin n m e => rne32 n m e)

/-- The product of a value with a DP8 weight (R74). -/
def prodDp8 (fa : FTy) (a : DWord) (w : DWord) : SRes :=
  let x := FVal.ofBits fa a
  mulS (isNaNV x) (isInfV x) (dp8Product fa a (w.setWidth 8))

/-- A product of an activation with a weight by their formats (R256). -/
def prodBy (af wf : Nat) (a w : DWord) : SRes :=
  match af, wf with
  | 0, 3 => prodDp8 .bf16 a w
  | 1, _ => prodF .f16 .f16 a w
  | _, _ => prodF .bf16 .bf16 a w

/-- A chunk step on one accumulator word (R80, R81). -/
def chunkWord (af wf k : Nat) (a w : Nat → DWord) (acc : DWord) : SRes :=
  if af = 2 then
    let t := (List.range 64).foldl (fun (n : Int) i =>
      if i < k then n + ((a i).setWidth 8).toInt * ((w i).setWidth 8).toInt else n) 0
    (iBits .n32 (iVal .i32 acc + t), 0#32)
  else
    let leaves := (List.range 64).map fun i => some (if i < k then prodBy af wf (a i) (w i) else (0#64, 0#32))
    addS (acc, 0#32) ((treeRoot addS 6 leaves).getD (0#64, 0#32))

/-- What a chunk step gives for each accumulator word of M rows: its offset, its value, its status, whether a leaf was
bad. -/
def chunkOut (s : State) (cb : BufAt) (coff af wf k m : Nat) (a : Nat → Nat → DWord) (am : Nat → Nat → Bool)
    (w : Nat → Nat → DWord) (wm : Nat → Nat → Bool) (res : Nat → Bool) : List (Nat × SRes × Bool) :=
  (List.range m).flatMap fun r => (List.range 64).map fun j =>
    let off := coff + 256 * r + 4 * j
    (off, chunkWord af wf k (a r) (fun i => w i j) (BitVec.ofNat 64 (s.bufLe cb off 4)),
      res j || (List.range 64).any fun i => decide (i < k) && (am r i || wm i j))

/-- Accumulator words written back: a mark stays and a bad leaf brings one (R252). -/
def State.putWords (s : State) (cb : BufAt) (ws : List (Nat × SRes × Bool)) : State :=
  ws.foldl (fun s e =>
    let s1 := (cellsAt e.1 (leBytes 4 e.2.1.1.toNat)).foldl (fun s c => s.bufPut1 cb c.1 c.2) s
    if e.2.2 then s1.setBufMark cb (e.1 / 32) true else s1) s

/-- The status of a chunk step. -/
def wordsStatus (ws : List (Nat × SRes × Bool)) : Word := ws.foldl (fun m e => m ||| e.2.1.2) 0#32

/-- REMAP of an array that a command used (R22, log 5). -/
def remapBit (gang arr : Nat) (core : Nat) : Word :=
  if Config.spareRow core (gang * 4 + arr) then stRemap else 0#32

/-! ## Tile fetches (R258) -/

/-- Where tile (tr, tc) of a tensor begins. -/
def Tile.at (t : Tile) (tr tc : Nat) : DWord := t.base + BitVec.ofNat 64 (tr * t.rstride + tc * t.cstride)

/-- A tile's extent copied to a buffer in rows of 32 bytes, with their marks, up to a fault; none while its reads are held
(R120, R129, R130). Rows that the link loses come marked, with a free value (R357, log 24). -/
def State.fetchTile (s : State) (o : Origin) (tenant : Nat) (p : BufAt) (off len : Nat) (va : DWord) : Option (State × Pass) :=
  let (s1, xs, ps) := locate o.req p.core tenant 32 .read (len / 32) va s
  let keys := xs.map Xlat.key
  if keys.any (s1.reachHeld (dieOfCore p.core) .any) then none
  else
    let row := fun (e : Xlat × Nat) => if s1.loses e.1 then freeBytes (s1.free + 32 * e.2) 32 else s1.bytes e.1.key 32
    let asked := s1.homeReads o (dieOfCore p.core) (xs.map fun x => (x, 32))
    let s2 := (if xs.any s1.loses then asked.linkGone tenant len else asked).bufWrite p (cellsAt off ((xs.zipIdx).flatMap row))
    some ((xs.zipIdx).foldl (fun s e => s.setBufMark p (off / 32 + e.2) (s1.loses e.1 || s1.marked e.1.key 32)) s2, ps)

/-! ## COMMAND_START (R129, R248, R249) -/

/-- A command that ends without an effect, with these bits. -/
def Cmd.stopWith (b : Word) (k : Cmd) : Cmd := { k with started := true, halted := true, status := k.status ||| b }

/-- The boundary moved as if through a buffer (R267). -/
def State.moveBoundary (s : State) (cb : BufAt) (src dst n : Nat) : State :=
  let marks := (List.range n).map fun i => (dst + 4 * i, s.bufMarked cb ((src + 4 * i) / 32))
  let s1 := s.bufWrite cb (cellsAt dst (s.bufBytes cb src (4 * n)))
  marks.foldl (fun s e => if e.2 then s.setBufMark cb (e.1 / 32) true else s) s1

/-- `chain.cfg` sets the context when it starts (R267). -/
def State.chainConfig (s : State) (core : Nat) (k : Cmd) (prog : DWord) (mode nsteps boff cap bc mb : Nat) : State :=
  let cb : BufAt := ⟨k.gang, k.pos, core, .cbuf⟩
  let set := fun (s : State) (rows cols : Nat) =>
    (s.modAgent k.agent (Agent.mapEng fun e =>
      { e with chain := some ⟨prog, nsteps, boff, cap, rows, cols⟩ })).modCmd core k.id (Cmd.stopWith 0#32)
  match mode, (s.agent? k.agent).bind fun x => x.eng.chain with
  | 0, _ => set (s.bufWrite cb (cellsAt boff (leBytes 4 0x3F800000))) 1 1
  | 1, _ => set s mb bc
  | _, some c =>
    if c.rows * c.cols > cap then s.modCmd core k.id (Cmd.stopWith stCovf)
    else set (s.moveBoundary cb c.boff boff (c.rows * c.cols)) c.rows c.cols
  | _, none => s.modCmd core k.id (Cmd.stopWith 0#32)

/-- What a command does as it starts: its tile fetch, the check of the pair (R256, R258, R262, R267); none while the fetch
is held. -/
def State.startCmd (s : State) (core : Nat) (k : Cmd) : Option State :=
  let tenant := s.cmdTenant k.gang
  let run := fun (s : State) => s.modCmd core k.id fun j => { j with started := true }
  match k.kind with
  | .ldst _ woff wf (some (_, tr, tc)) _ =>
    match k.tiles with
    | some t :: _ =>
      (s.fetchTile (k.origin core) tenant ⟨k.gang, k.pos, core, .wbuf⟩ woff (weightBytes wf) (t.at tr tc)).map fun r =>
        match r with
        | (s1, .done) => run s1
        | (s1, .fault _) => s1.modCmd core k.id (Cmd.stopWith stFault)
    | _ => some (run s)
  | .mstream arr aoff _ af _ m astr use =>
    let fetched : Option (State × Pass) :=
      match use, k.tiles with
      | some (_, tr, tc), some t :: _ =>
        s.fetchTile (k.origin core) tenant ⟨k.gang, k.pos, core, .abuf⟩ aoff (m * astr) (t.at tr tc)
      | _, _ => some (s, .done)
    fetched.map fun r =>
      match r with
      | (s1, .fault _) => s1.modCmd core k.id (Cmd.stopWith stFault)
      | (s1, .done) =>
        let fmt := ((s1.gang? k.gang).map fun g => (g.plane k.pos arr false).fmt).getD 0
        if pairOk af fmt then run s1 else s1.modCmd core k.id (Cmd.stopWith stPair)
  | .chainCfg prog mode nsteps boff cap bc mb => some (s.chainConfig core k prog mode nsteps boff cap bc mb)
  | _ => some (run s)

/-- COMMAND_START: the command starts once its conditions hold; an engine breakpoint holds it first (R323). -/
def execCommandStart (core cmd : Nat) (s : State) : Out :=
  match s.cmd? core cmd with
  | none => .next s
  | some k =>
    if k.held ∨ !s.mayStart core k ∨ s.bankBusy core then .next s
    else
      let go := ((s.traceCmd core k .start 0).startCmd core k).getD s
      match s.agent? k.agent, k.kind.engine with
      | some x, some (kind, unit) =>
        if !k.released && s.engineBreak x kind k.seq then
          .next ((s.modCmd core cmd fun j => { j with held := true }).reportHeld x k.seq (engineId kind core unit))
        else .next go
      | _, _ => .next go

/-! ## CHAIN_STEP_EXECUTE (R268 to R270) -/

/-- A sum over n leaves in chunks of 64, from +0 (R80, R269). -/
def chunkSum (leaf : Nat → SRes) (n : Nat) : SRes :=
  (List.range ((n + 63) / 64)).foldl (fun acc c =>
    addS acc ((treeRoot addS 6 ((List.range 64).map fun i =>
      some (if 64 * c + i < n then leaf (64 * c + i) else (0#64, 0#32)))).getD (0#64, 0#32))) (0#64, 0#32)

/-- The product of a boundary element with a core element (R269). -/
def prodB (gf : Nat) (b g : DWord) : SRes :=
  match gf with
  | 3 => prodDp8 .f32 b g
  | 1 => prodF .f32 .f16 b g
  | _ => prodF .f32 .bf16 b g

/-- The product of a core element with an activation (R269). -/
def prodX (gf : Nat) (g x : DWord) : SRes :=
  match gf with
  | 3 => prodDp8 .bf16 x g
  | 1 => prodF .f16 .f16 g x
  | _ => prodF .bf16 .bf16 g x

/-- Bytes of a core's element. -/
def coreBytes (gf : Nat) : Nat := if gf = 3 then 1 else 2

/-- A step record with its dimensions from the snapshot (R268). -/
structure Step where
  absorb : Bool
  bIn : Nat
  n : Nat
  bOut : Nat
  gf : Nat
  woff : Nat
  xoff : Nat
  deriving DecidableEq, Repr

/-- A record of four words, or none where a field is invalid or a dimension out of range. -/
def Step.ofWords (bd : KMap Word) (w0 w1 w2 w3 : Nat) : Option Step :=
  let dim := fun hi lo => (kgetD 0#32 bd (ebits w0 hi lo)).toNat
  let mode := ebits w0 17 16
  let gf := ebits w1 31 28
  let t : Step := { absorb := mode == 1, bIn := dim 23 20, n := dim 31 28, bOut := dim 27 24, gf := gf,
                    woff := ebits w1 17 0, xoff := ebits w2 18 0 }
  let ok := fun d => decide (1 ≤ d) && decide (d ≤ 4096)
  if ebits w0 19 18 ≠ 0 ∨ mode ≥ 2 ∨ (gf ≠ 0 ∧ gf ≠ 1 ∧ gf ≠ 3) ∨ ebits w1 27 18 ≠ 0 ∨ ebits w2 31 19 ≠ 0 ∨ w3 ≠ 0 ∨
     (mode = 0 ∧ t.xoff ≠ 0) ∨ t.xoff % 2 ≠ 0 ∨ !ok t.bIn ∨ !ok t.n ∨ !ok t.bOut then none
  else some t

/-- STEP and COVF of a step (R268). -/
def stepCheck (h : Header) (c : ChainCtx) (t : Option Step) : Word ⊕ Step :=
  match t with
  | none => .inl stStep
  | some t =>
    if t.bIn ≠ c.cols ∨ t.woff + t.bIn * t.n * t.bOut * coreBytes t.gf > h.grant .wbuf ∨
       (t.absorb ∧ t.xoff + 2 * t.n > h.grant .abuf) then .inl stStep
    else if (if t.absorb then c.rows * t.bOut else c.rows * t.n * t.bOut) > c.cap then .inl stCovf
    else .inr t

/-- The operands of a step, each with its mark: boundary, core, activation. -/
structure StepIn where
  b : Nat → Nat → DWord × Bool
  g : Nat → Nat → Nat → DWord × Bool
  x : Nat → DWord × Bool

def State.stepIn (s : State) (core : Nat) (k : Cmd) (c : ChainCtx) (t : Step) : StepIn :=
  let cb : BufAt := ⟨k.gang, k.pos, core, .cbuf⟩
  let wb : BufAt := ⟨k.gang, k.pos, core, .wbuf⟩
  let ab : BufAt := ⟨k.gang, k.pos, core, .abuf⟩
  let rd := fun (p : BufAt) (off n : Nat) => (BitVec.ofNat 64 (s.bufLe p off n), s.bufAnyMark p off n)
  { b := fun m p => rd cb (c.boff + 4 * (m * c.cols + p)) 4
    g := fun p q o => rd wb (t.woff + ((p * t.n + q) * t.bOut + o) * coreBytes t.gf) (coreBytes t.gf)
    x := fun q => rd ab (t.xoff + 2 * q) 2 }

/-- The new boundary of a step, row by row: values with status, and whether a leaf was bad (R269). -/
def stepOut (c : ChainCtx) (t : Step) (i : StepIn) : List (SRes × Bool) :=
  if t.absorb then
    let h := fun p o =>
      (chunkSum (fun q => prodX t.gf (i.g p q o).1 (i.x q).1) t.n,
        (List.range t.n).any fun q => (i.g p q o).2 || (i.x q).2)
    (List.range c.rows).flatMap fun m => (List.range t.bOut).map fun o =>
      (chunkSum (fun p =>
          let y := prodF .f32 .f32 (i.b m p).1 (h p o).1.1
          (y.1, y.2 ||| (h p o).1.2)) t.bIn,
        (List.range t.bIn).any fun p => (i.b m p).2 || (h p o).2)
  else
    (List.range c.rows).flatMap fun m => (List.range t.n).flatMap fun q => (List.range t.bOut).map fun o =>
      (chunkSum (fun p => prodB t.gf (i.b m p).1 (i.g p q o).1) t.bIn,
        (List.range t.bIn).any fun p => (i.b m p).2 || (i.g p q o).2)

/-- A step's writes: the new boundary replaces the old one and its marks; bad leaves, or a failed residue, mark. -/
def State.writeBoundary (s : State) (cb : BufAt) (boff : Nat) (es : List (SRes × Bool)) (bad : Bool) : State :=
  let s1 := s.bufWrite cb (cellsAt boff (es.flatMap fun e => leBytes 4 e.1.1.toNat))
  (es.zipIdx).foldl (fun s e => if e.1.2 || bad then s.setBufMark cb ((boff + 4 * e.2) / 32) true else s) s1

/-- The step that a command stands at is done, or stops it (R270). -/
def State.chainStepDone (s : State) (core : Nat) (k : Cmd) (st : Word) (completed : Bool) (last : Bool) : State :=
  s.modCmd core k.id fun j =>
    { j with status := j.status ||| st, cursor := if completed then j.cursor + 1 else j.cursor
             halted := !completed || last }

/-- The command is `chain.step`. -/
def CmdKind.isStep : CmdKind → Bool
  | .chainStep .. => true
  | _ => false

/-- A command runs step by step: `chain.step` and `chain.run`. -/
def CmdKind.runsSteps : CmdKind → Bool
  | .chainStep .. => true
  | .chainRun .. => true
  | _ => false

/-- The sequencer takes up a step: a run that a save has stopped resumes (R254, R324). -/
def State.takeUp (s : State) (core : Nat) (k : Cmd) : State :=
  if k.stopped then (s.traceCmd core k .resume 0).modCmd core k.id fun j => { j with stopped := false } else s

/-- A step whose record has been read (R268 to R270): its checks, then its results; `bad` tells a failed residue check. A step
sets no REMAP, as no rule says which array it uses (log 106). -/
def State.runStep (s : State) (core : Nat) (k : Cmd) (g : Gang) (c : ChainCtx) (bad : Bool) (w : Nat → Nat) : State :=
  let s0 := s.modCmd core k.id fun j => { j with kidx := ebits (w 0) 15 0 }
  match stepCheck g.header c (Step.ofWords k.bd (w 0) (w 1) (w 2) (w 3)) with
  | .inl st => s0.chainStepDone core k st false true
  | .inr t =>
    let es := stepOut c t (s.stepIn core k c t)
    let st := es.foldl (fun m e => m ||| e.1.2 ||| (if e.2 then stEcc else 0#32)) (if bad then stRes else 0#32)
    let rows := if t.absorb then c.rows else c.rows * t.n
    let s1 := s0.writeBoundary ⟨k.gang, k.pos, core, .cbuf⟩ c.boff es bad
    let s2 := s1.modAgent k.agent (Agent.mapEng fun e => { e with chain := some { c with rows := rows, cols := t.bOut } })
    s2.chainStepDone core k st true (k.kind.isStep || k.cursor + 1 ≥ c.nsteps)

/-- CHAIN_STEP_EXECUTE: one step of a started `chain.step` or `chain.run`; `bad` tells a failed residue check. The record is
a relaxed read at device scope, which may be held (R120, R130, R268). A save stops a run at the boundary (R254). -/
def execChainStepExecute (core cmd : Nat) (bad : Bool) (s : State) : Out :=
  match s.cmd? core cmd with
  | none => .next s
  | some k =>
    if !k.kind.runsSteps ∨ !k.started ∨ k.halted ∨ (s.saving k.gang ∧ !k.kind.isStep) ∨ s.bankBusy core then .next s
    else
      match (s.agent? k.agent).bind fun x => x.eng.chain, s.gang? k.gang with
      | some c, some g =>
        let s0 := s.takeUp core k
        if k.cursor ≥ c.nsteps then .next (s0.chainStepDone core k (if k.kind.isStep then stStep else 0#32) false true)
        else
          let o := k.origin core
          let (s1, xs, ps) := locate o.req core g.tenant 16 .read 1 (c.prog + BitVec.ofNat 64 (16 * k.cursor)) s0
          match ps, xs with
          | .done, x :: _ =>
            if s1.reachHeld (dieOfCore core) .any x.key then .next s
            else
              let s2 := s1.homeReads o (dieOfCore core) [(x, 16)]
              .next (if s1.loses x then (s2.linkGone g.tenant 0).chainStepDone core k stEcc false true
                else if s1.marked x.key 16 then s2.chainStepDone core k stEcc false true
                else s2.runStep core k g c bad fun i => s1.le (x.key + 4 * i) 4)
          | _, _ => .next (s1.chainStepDone core k stFault false true)
      | _, _ => .next s

/-! ## COMMAND_END (R250 to R252) -/

/-- A weight tile in WBUF as a plane: elements, and marks of the rows they came from (R255, R260). -/
def State.tilePlane (s : State) (p : BufAt) (woff wf : Nat) (table : Nat → Nat → BitVec 16) : Plane :=
  if wf = 4 ∨ wf = 5 then
    let kb := if wf = 4 then 3 else 4
    let size := 16 * kb
    let idx := fun e => codeIndex kb (e % 128) fun i =>
      if 4 * i < size then BitVec.ofNat 32 (s.bufLe p (woff + e / 128 * size + 4 * i) 4) else 0#32
    Plane.build wf (fun i j => (expandEntry (table ((64 * i + j) / 128) (idx (64 * i + j)))).toNat)
      (fun i j =>
        let e := 64 * i + j
        let bitOff := kb * (e % 128)
        s.bufAnyMark p (woff + e / 128 * size + bitOff / 8) ((bitOff % 8 + kb + 7) / 8))
  else
    let n := if wf ≤ 1 then 2 else 1
    Plane.build wf (fun i j => s.bufLe p (woff + (64 * i + j) * n) n)
      (fun i j => s.bufAnyMark p (woff + (64 * i + j) * n) n)

/-- A plane has a mark. -/
def Plane.anyMark (p : Plane) : Bool := !p.marks.isEmpty

/-- `bad`, the columns of a failed residue check, marks a plane's weights in those columns (R252). -/
def Plane.spoil (bad : BitVec 64) (p : Plane) : Plane :=
  if bad = 0#64 then p
  else { p with marks := (List.range 64).foldl (fun m i => ksetD 0#64 m i (kgetD 0#64 m i ||| bad)) p.marks }

/-- A chunk step reads a marked operand: an activation, or a weight of any column (R251). -/
def chunkMarked (m kk : Nat) (am wm : Nat → Nat → Bool) : Bool :=
  (List.range kk).any fun i => ((List.range m).any fun r => am r i) || (List.range 64).any fun j => wm i j

/-- One chunk of a `mop`: both tiles fetched, then the chunk step (R263); none while a fetch is held. -/
def State.mopChunk (s : State) (core : Nat) (k : Cmd) (astg wstg coff wf af kk m n : Nat) (at_ wt : DWord)
    (bad : BitVec 64) : Option (State × Pass × Word) :=
  let tenant := s.cmdTenant k.gang
  let ab : BufAt := ⟨k.gang, k.pos, core, .abuf⟩
  let wb : BufAt := ⟨k.gang, k.pos, core, .wbuf⟩
  let cb : BufAt := ⟨k.gang, k.pos, core, .cbuf⟩
  let rb := 64 * actBytes af
  match s.fetchTile (k.origin core) tenant ab astg (m * rb) at_ with
  | some (s1, .done) =>
    match s1.fetchTile (k.origin core) tenant wb wstg (weightBytes wf) wt with
    | some (s2, .done) =>
      let pl := s2.tilePlane wb wstg wf fun _ _ => 0#16
      let a := fun r i => BitVec.ofNat 64 (s2.bufLe ab (astg + r * rb + i * actBytes af) (actBytes af))
      let am := fun r i => s2.bufAnyMark ab (astg + r * rb + i * actBytes af) (actBytes af)
      let ws := chunkOut s2 cb (coff + 256 * (n * m)) af wf kk m a am pl.weight pl.marked bad.getLsbD
      some (s2.putWords cb ws, .done, wordsStatus ws ||| (if chunkMarked m kk am pl.marked then stEcc else 0#32))
    | some (s2, p) => some (s2, p, 0#32)
    | none => none
  | some (s1, p) => some (s1, p, 0#32)
  | none => none

/-- The chunks of a `mop` in order, up to a fault; none while one is held. -/
def State.mopRun (s : State) (core : Nat) (k : Cmd) (astg wstg coff wf af kl m kt : Nat) (ta tw : Tile)
    (atc atr wtc wtr : Nat) (bad : BitVec 64) : List (Nat × Nat) → Option (State × Pass × Word)
  | [] => some (s, .done, 0#32)
  | (n, c) :: rest =>
    match s.mopChunk core k astg wstg coff wf af (if c + 1 = kt then kl else 64) m n (ta.at atr (atc + c))
        (tw.at (wtr + c) (wtc + n)) bad with
    | some (s1, .done, st) =>
      (s1.mopRun core k astg wstg coff wf af kl m kt ta tw atc atr wtc wtr bad rest).map fun r => (r.1, r.2.1, st ||| r.2.2)
    | r => r

/-- A row that the manual leaves undefined (log 26). -/
def freeRow (k : Nat) : BitVec 1024 :=
  BitVec.ofNat 1024 ((List.range 16).foldr (fun i n => n * 2 ^ 64 + (Config.freeDWord (k + i)).toNat) 0)

/-- After a `mop` the staging ranges and all eight planes hold free values (R263, log 26). -/
def State.mopLeaves (s : State) (core : Nat) (k : Cmd) (astg alen wstg wlen : Nat) : State :=
  let f := s.free
  let s1 := s.bufWrite ⟨k.gang, k.pos, core, .abuf⟩ (cellsAt astg (freeBytes f alen))
  let s2 := s1.bufWrite ⟨k.gang, k.pos, core, .wbuf⟩ (cellsAt wstg (freeBytes (f + alen) wlen))
  let s3 := s2.modGang k.gang fun g =>
    (List.range 8).foldl (fun g i =>
      g.setPlane k.pos (i / 2) (i % 2 == 1)
        { fmt := (Config.freeWord (f + i)).toNat % 6
          rows := (List.range 64).foldl (fun m r => ksetD 0 m r (freeRow (f + 1024 * i + 16 * r))) []
          marks := [] }) g
  { s3 with free := f + alen + wlen + 8192 }

/-- What a command that has not been halted does as it ends, with the columns of a failed residue check; its status bits
(R251, R252); none while a read of global memory is held (R130). -/
def State.endEffect (s : State) (core : Nat) (k : Cmd) (bad : BitVec 64) : Option (State × Word) :=
  let wb : BufAt := ⟨k.gang, k.pos, core, .wbuf⟩
  let ab : BufAt := ⟨k.gang, k.pos, core, .abuf⟩
  let cb : BufAt := ⟨k.gang, k.pos, core, .cbuf⟩
  let res := if bad = 0#64 then 0#32 else stRes
  match k.kind with
  | .ldst arr woff wf _ tbl =>
    match s.gang? k.gang with
    | none => some (s, 0#32)
    | some g =>
      let p := s.tilePlane wb woff wf fun b x => g.tableEntry k.pos (tblOf tbl b) x
      some (s.modGang k.gang (fun g => g.setPlane k.pos arr true (p.spoil bad)),
        (if p.anyMark then stEcc else 0#32) ||| res ||| remapBit k.gang arr core)
  | .cbtload tbl src =>
    let o := k.origin core
    let (s1, xs, ps) := locate o.req core (s.cmdTenant k.gang) 32 .read 1 src s
    match ps, xs with
    | .done, x :: _ =>
      if s1.reachHeld (dieOfCore core) .any x.key then none
      else
        let s2 := s1.homeReads o (dieOfCore core) [(x, 32)]
        some (if s1.loses x then (s2.linkGone (s.cmdTenant k.gang) 0, stEcc)
          else if s1.marked x.key 32 then (s2, stEcc)
          else
            (s2.modGang k.gang (fun g =>
              { g with tables := ksetD 0#256 g.tables (k.pos * 16 + tbl) (BitVec.ofNat 256 (s1.le x.key 32)) }), 0#32))
    | _, _ => some (s1, stFault)
  | .mswap arr =>
    some (s.modGang k.gang (fun g =>
      let a := g.plane k.pos arr false
      let b := g.plane k.pos arr true
      (g.setPlane k.pos arr false b).setPlane k.pos arr true a), remapBit k.gang arr core)
  | .mstream arr aoff coff af kk m astr _ =>
    let p := ((s.gang? k.gang).map fun g => g.plane k.pos arr false).getD Plane.reset
    let n := actBytes af
    let ws := chunkOut s cb coff af p.fmt kk m (fun r i => BitVec.ofNat 64 (s.bufLe ab (aoff + r * astr + i * n) n))
      (fun r i => s.bufAnyMark ab (aoff + r * astr + i * n) n) p.weight p.marked bad.getLsbD
    let ecc := chunkMarked m kk (fun r i => s.bufAnyMark ab (aoff + r * astr + i * n) n) p.marked
    some (s.putWords cb ws, wordsStatus ws ||| (if ecc then stEcc else 0#32) ||| res ||| remapBit k.gang arr core)
  | .mop astg wstg coff wf af kl m nt kt _ _ atc atr wtc wtr =>
    match k.tiles with
    | some ta :: some tw :: _ =>
      let order := (List.range nt).flatMap fun n => (List.range kt).map fun c => (n, c)
      let remap := (List.range 4).foldl (fun b a => b ||| remapBit k.gang a core) 0#32
      let fin := fun (s : State) => s.mopLeaves core k astg (2 * m * (64 * actBytes af)) wstg (2 * weightBytes wf)
      (s.mopRun core k astg wstg coff wf af kl m kt ta tw atc atr wtc wtr bad order).map fun r =>
        match r with
        | (s1, .done, st) => (fin s1, st ||| res ||| remap)
        | (s1, .fault _, st) => (fin s1, st ||| stFault ||| res ||| remap)
    | _ => some (s, 0#32)
  | .mzero coff len => some (s.bufWrite cb (cellsAt coff (List.replicate len 0#8)), 0#32)
  | .chainCfg .. => some (s, 0#32)
  | .chainStep _ => some (s, 0#32)
  | .chainRun _ _ => some (s, 0#32)

/-- The ended commands of a slot at the head of its order of acceptance are counted, and leave (R248). -/
def sweepSlot (gang pos j : Nat) : List Cmd → List Cmd × Nat
  | [] => ([], 0)
  | k :: t =>
    if k.gang = gang ∧ k.pos = pos ∧ k.frame.ss = some j then
      if k.ended then
        let (l, n) := sweepSlot gang pos j t
        (l, n + 1)
      else (k :: t, 0)
    else
      let (l, n) := sweepSlot gang pos j t
      (k :: l, n)

/-- A command counts as completed: it leaves at once where it names no slot, else when every earlier one of its slot has
been counted (R248). -/
def State.countCmd (s : State) (core : Nat) (k : Cmd) : State :=
  match k.frame.ss with
  | none => s.modCore core fun c => { c with cmds := c.cmds.filter fun j => j.id != k.id }
  | some j =>
    let s1 := s.modCmd core k.id fun c => { c with ended := true }
    let (l, n) := sweepSlot k.gang k.pos j (s1.core core).cmds
    (s1.modCore core fun c => { c with cmds := l }).modGang k.gang fun g =>
      let x := g.slot k.pos j
      g.setSlot k.pos j { x with done := (x.done + n) % 65536 }

/-- The index that a `chain.run` writes back (R270). -/
def Agent.cursorBack (reg id n : Nat) (x : Agent) : Agent :=
  if x.flight.pend.any fun e => e == (.s reg, id) then
    { x with
      regs := x.regs.setS reg (BitVec.ofNat 32 n) false
      flight := { x.flight with pend := x.flight.pend.filter fun e => e != (.s reg, id) } }
  else x

/-- CHAINOVF becomes pending (R271). -/
def Agent.chainOverflow (run : Bool) (reg : Nat) (x : Agent) : Agent :=
  x.mapSys fun y => { y with causes := y.causes ++ [.chainovf run reg] }

/-- The effects of a command's end in the order of R250, and the trap of R271. -/
def State.finishCmd (s : State) (core : Nat) (k : Cmd) (st : Word) : State :=
  let s1 := match k.kind with
    | .chainRun _ reg => s.modAgent k.agent (Agent.cursorBack reg k.after k.cursor)
    | _ => s
  let s2 := match k.frame.bar with
    | some b => s1.modGang k.gang fun g => g.deliver b (BarMsg.orArrive st)
    | none => s1
  let s3 := s2.countCmd core k
  let s4 := if st &&& stCovf = 0#32 then s3
    else
      match k.kind with
      | .chainRun _ reg => s3.modAgent k.agent (Agent.chainOverflow true reg)
      | .chainStep _ => s3.modAgent k.agent (Agent.chainOverflow false 0)
      | _ => s3
  s4.traceCmd core k .finish st.toNat

/-- An older message of the command's core is still on its way to a barrier: the command's arrival comes after it (R290). -/
def State.arrivalWaits (s : State) (k : Cmd) : Bool :=
  k.frame.bar.isSome && ((s.gang? k.gang).map fun g => g.msgs.any fun m => m.1 == k.pos).getD false

/-- COMMAND_END: a started command with nothing left to run has its effect and completes; its arrival is counted before its
slot is (R250). `bad` holds the columns in which a residue check failed. -/
def execCommandEnd (core cmd : Nat) (bad : BitVec 64) (s : State) : Out :=
  match s.cmd? core cmd with
  | none => .next s
  | some k =>
    if !k.started || k.ended || (k.kind.runsSteps && !k.halted) || s.arrivalWaits k || s.bankBusy core then .next s
    else if k.halted then .next (s.finishCmd core k k.status)
    else
      match s.endEffect core k bad with
      | some (s1, st) => .next (s1.finishCmd core k (k.status ||| st))
      | none => .next s

end Sys2Proof.Machine
end

