-- ==== Sys2Proof/Machine/Sets.lean ====
section
/-! DEFINITION. Set instructions at issue (R273 to R275) and at their engines (R110 to R113, R276 to R286). Every operation
is performed whole, an agent's operations in their issue order but for blocked ones (log 25). -/

namespace Sys2Proof.Machine

/-! ## Issue (R274) -/

/-- The set window and the table length of a tenant (R351). -/
def State.setWindow (s : State) (t : Nat) : Nat := ((s.tenant t).reg 0x28).toNat % 16
def State.setLength (s : State) (t : Nat) : Nat := ((s.tenant t).reg 0x28).toNat / 16 % 268435456

/-- A handle outside the tenant's table (R274). -/
def handleBad (c : Ctx) (h : Word) : Bool :=
  h.toNat / 268435456 != c.st.setWindow c.ag.ident.tenant || h.toNat % 268435456 == 0 ||
  decide (h.toNat % 268435456 ≥ c.st.setLength c.ag.ident.tenant)

/-- The first handle at fault. -/
def handleCheck (c : Ctx) (hs : List Opnd) : Option Flt :=
  if hs.any fun o => handleBad c (c.one32 o) then some (flt codeProtection) else none

/-- The checks of `set.in` and `set.out` in the order of R274. -/
def arrayAddrCheck (wr : Bool) (h b : Opnd) (c : Ctx) : Option Flt :=
  match handleCheck c [h] with
  | some f => some f
  | none => addrCheck 4 wr [(lowLane c.act, c.rd true b 0)]

/-- The keys of an operation: those of the active lanes, or one (R274). -/
def Ctx.setKeys (c : Ctx) (b : Opnd) : List (Nat × Word) :=
  if Opnd.isV b then (lanesOf c.act).map fun l => (l, c.rd32 b l) else [(0, c.one32 b)]

/-- A set instruction goes to its engine (R275, R322); `set.out` takes the lines of its array (R130, log 88). -/
def Ctx.launchSet (c : Ctx) (i : Instr) (keys : List (Nat × Word)) (ha hb hc : Word) (addr : DWord) (count : Word)
    (pend : List Opnd) (owned : List (Nat × Nat) := []) : State :=
  let id := c.ag.flight.nextOp
  let op : SetOp :=
    { id := id, instr := i, act := c.act, keys := keys, ha := ha, hb := hb, hc := hc, addr := addr, count := count,
      seq := c.ag.eng.seq, label := (c.ag.sys.labels.head?, c.ag.sys.lovf), owned := owned, stamp := c.st.sent, held := false,
      released := false }
  { c.finish 8 fun x => Agent.nextSeq (x.mapFlight fun f =>
      pendOn pend id { f with nextOp := id + 1, setOps := f.setOps ++ [op] }) with sent := c.st.sent + 1 }

/-- `set.new` (R277). -/
def execSetNew (g : Guard) (d : Opnd) (s : State) : Out :=
  issue g (usesOf (.setNew g d)) (fun c => c.launchSet (.setNew g d) [] 0 0 0 0 0 [d]) s

/-- An operation in flight is a `set.free`. -/
def SetOp.isFree (o : SetOp) : Bool :=
  match o.instr with
  | .setFree _ _ => true
  | _ => false

/-- A latigo entry can be taken on a die: the queue and the tenant's quota have room beside what is reserved (R278,
R300). -/
def State.latigoRoom (s : State) (die tenant : Nat) : Bool :=
  let held := fun (t : Option Nat) =>
    ((s.die die).latigo.filter fun e => t.all fun n => e.tenant == n).length +
    ((s.agents.filter fun e => e.2.die == die && e.2.place.isSome && t.all fun n => e.2.ident.tenant == n).map
      fun e => (e.2.flight.setOps.filter SetOp.isFree).length).sum
  decide (held none < 8192) && decide (held (some tenant) < min 8192 (ebits ((s.tenant tenant).reg 0x50).toNat 45 32))

/-- `set.free` (R278): it reserves a latigo entry, or parks its issuer until one is available. -/
def execSetFree (g : Guard) (a : Opnd) (s : State) : Out :=
  issueWith g (usesOf (.setFree g a)) 8 noCheck (fun c => handleCheck c [a])
    (fun c => .next (
      if c.st.latigoRoom c.ag.die c.ag.ident.tenant then c.launchSet (.setFree g a) [] (c.one32 a) 0 0 0 0 []
      else c.holdAs .setFree)) s

/-- `set.ins` (R279). -/
def execSetIns (g : Guard) (wr : Bool) (d a b : Opnd) (s : State) : Out :=
  issueWith g (memberUses wr d a b) 8 noCheck (fun c => handleCheck c [a])
    (fun c => .next (c.launchSet (.setIns g wr d a b) (c.setKeys b) (c.one32 a) 0 0 0 0 (if wr then [d] else []))) s

/-- `set.del` (R279). -/
def execSetDel (g : Guard) (wr : Bool) (d a b : Opnd) (s : State) : Out :=
  issueWith g (memberUses wr d a b) 8 noCheck (fun c => handleCheck c [a])
    (fun c => .next (c.launchSet (.setDel g wr d a b) (c.setKeys b) (c.one32 a) 0 0 0 0 (if wr then [d] else []))) s

/-- `set.has` (R280). -/
def execSetHas (g : Guard) (d a b : Opnd) (s : State) : Out :=
  issueWith g (memberUses true d a b) 8 noCheck (fun c => handleCheck c [a])
    (fun c => .next (c.launchSet (.setHas g d a b) (c.setKeys b) (c.one32 a) 0 0 0 0 [d])) s

/-- `set.card` (R280). -/
def execSetCard (g : Guard) (d a : Opnd) (s : State) : Out :=
  issueWith g (usesOf (.setCard g d a)) 8 noCheck (fun c => handleCheck c [a])
    (fun c => .next (c.launchSet (.setCard g d a) [] (c.one32 a) 0 0 0 0 [d])) s

/-- An instruction of the set algebra goes to its engine (R281). -/
def algebra (g : Guard) (i : Instr) (a b cc : Opnd) (s : State) : Out :=
  issueWith g (usesOf i) 8 noCheck (fun c => handleCheck c [a, b, cc])
    (fun c => .next (c.launchSet i [] (c.one32 a) (c.one32 b) (c.one32 cc) 0 0 [])) s

/-- `set.or` (R281). -/
def execSetOr (g : Guard) (a b c : Opnd) (s : State) : Out := algebra g (.setOr g a b c) a b c s

/-- `set.and` (R281). -/
def execSetAnd (g : Guard) (a b c : Opnd) (s : State) : Out := algebra g (.setAnd g a b c) a b c s

/-- `set.sub` (R281). -/
def execSetSub (g : Guard) (a b c : Opnd) (s : State) : Out := algebra g (.setSub g a b c) a b c s

/-- `set.in` (R280). A vector code as the count is read in the lowest active lane (log 82). -/
def execSetIn (g : Guard) (a b c : Opnd) (s : State) : Out :=
  issueWith g (usesOf (.setIn g a b c)) 8 noCheck (arrayAddrCheck false a b)
    (fun x => .next (x.launchSet (.setIn g a b c) [] (x.one32 a) 0 0 (x.rd true b 0) (x.one32 c) [])) s

/-- `set.out` (R280), whose count is read as that of `set.in` is (log 82). -/
def execSetOut (g : Guard) (d a b c : Opnd) (s : State) : Out :=
  issueWith g (usesOf (.setOut g d a b c)) 8 noCheck (arrayAddrCheck true a b)
    (fun x => .next (x.launchSet (.setOut g d a b c) [] (x.one32 a) 0 0 (x.rd true b 0) (x.one32 c) [d]
      (ownRanges x.st x.ag.core x.ag.ident.tenant ((x.one32 c).toNat / 1024 + 2) (x.rd true b 0) (4 * (x.one32 c).toNat)))) s

/-- `set.iter` (R280). -/
def execSetIter (g : Guard) (d a c : Opnd) (s : State) : Out :=
  issueWith g (usesOf (.setIter g d a c)) 8 noCheck (fun x => handleCheck x [a])
    (fun x => .next (x.launchSet (.setIter g d a c) [] (x.one32 a) 0 0 0 (x.one32 c) [d, c])) s

/-- `set.hint`, pinning a representation (R283). -/
def execSetHint (g : Guard) (rep : Rep) (a : Opnd) (s : State) : Out :=
  issueWith g (usesOf (.setHint g rep a)) 8 noCheck (fun c => handleCheck c [a])
    (fun c => .next (c.launchSet (.setHint g rep a) [] (c.one32 a) 0 0 0 0 [])) s

/-- `set.hint.none` (R283). -/
def execSetHintNone (g : Guard) (a : Opnd) (s : State) : Out :=
  issueWith g (usesOf (.setHintNone g a)) 8 noCheck (fun c => handleCheck c [a])
    (fun c => .next (c.launchSet (.setHintNone g a) [] (c.one32 a) 0 0 0 0 [])) s

/-- `set.cost` (R285): it waits for every older set instruction. -/
def execSetCost (g : Guard) (n : Nat) (d : Opnd) (s : State) : Out :=
  issue g (usesOf (.setCost g n d))
    (fun c => if c.ag.flight.setOps.isEmpty then c.putS d false ((kgetD 0#32 c.ag.eng.cost n).setWidth 64, 0#5)
      else c.wait) s

/-! ## Entries and payloads (R110, R111) -/

def repCode : Rep → Nat
  | .sorted => 0
  | .bitmap => 1
  | .runs => 2
  | .hash => 3

def repOf : Nat → Rep
  | 0 => .sorted
  | 1 => .bitmap
  | 2 => .runs
  | _ => .hash

/-- An entry of a set table (R110). -/
structure Entry where
  version : Nat
  pinrep : Rep
  pinned : Bool
  live : Bool
  rep : Rep
  n : Nat
  lo : Nat
  hi : Nat
  runs : Nat
  payload : Nat
  cap : Nat
  deriving DecidableEq, Repr

/-- The eight words of an entry (R110). -/
def Entry.words (e : Entry) : List Nat :=
  [e.version * 65536 + repCode e.pinrep * 1024 + bit e.pinned * 512 + bit e.live * 256 + repCode e.rep, e.n, e.lo, e.hi,
   e.runs, e.payload % 4294967296, e.payload / 4294967296, e.cap]

/-- The least power of two that is at least x, found in so many doublings from c. -/
def powAtLeast (x : Nat) : Nat → Nat → Nat
  | 0, c => c
  | f + 1, c => if c ≥ x then c else powAtLeast x f (2 * c)

/-- The capacity of a HASH payload for n keys (R112). -/
def hashCap (n : Nat) : Nat := powAtLeast (2 * n) 33 1

/-- Maximal runs of an ascending list (R110). -/
def countRuns : List Nat → Nat
  | [] => 0
  | [_] => 1
  | x :: y :: t => (if y = x + 1 then 0 else 1) + countRuns (y :: t)

/-- The runs of an ascending list, first and last. -/
def runsOf : List Nat → List (Nat × Nat)
  | [] => []
  | x :: t =>
    match runsOf t with
    | (a, b) :: rest => if a = x + 1 then (x, b) :: rest else (x, x) :: (a, b) :: rest
    | [] => [(x, x)]

/-- MIN rounded down to a multiple of 64; the 64-bit words of a bitmap. -/
def bmBase (lo : Nat) : Nat := lo / 64 * 64
def bmWords (lo hi : Nat) : Nat := (hi - bmBase lo + 64) / 64

/-- Skiver sizes (R112). -/
def skiver (r : Rep) (n lo hi runs : Nat) : Nat :=
  match r with
  | .sorted => 1 + n
  | .bitmap => 2 + 2 * bmWords lo hi
  | .runs => 1 + 2 * runs
  | .hash => 2 + hashCap n

def Entry.size (e : Entry) : Nat := skiver e.rep e.n e.lo e.hi e.runs

/-- The mixer of R109. -/
def mixer (seed hop : Word) : Word :=
  let x := seed ^^^ (hop * 0x9E3779B9#32)
  let x := (x ^^^ (x >>> 16)) * 0x85EBCA6B#32
  let x := (x ^^^ (x >>> 13)) * 0xC2B2AE35#32
  x ^^^ (x >>> 16)

/-- The first slot of a key in a HASH payload of c slots. -/
def hashHome (c x : Nat) : Nat := (mixer (BitVec.ofNat 32 x) 0#32).toNat % c

def emptySlot : Nat := 4294967295

/-- Linear probing from a slot: the key's slot, or the first empty one (R111). -/
def probe (slots : List Nat) (c x : Nat) : Nat → Nat → Nat
  | 0, i => i
  | f + 1, i =>
    if slots.getD i emptySlot = x ∨ slots.getD i emptySlot = emptySlot then i else probe slots c x f ((i + 1) % c)

/-- A key inserted into the slots (R111). -/
def hashIns (c : Nat) (slots : List Nat) (x : Nat) : List Nat := slots.set (probe slots c x c (hashHome c x)) x

/-- Entries after a hole shift back where their probe passes it (R111). -/
def shiftBack (c : Nat) : Nat → Nat → Nat → List Nat → List Nat
  | 0, _, _, slots => slots
  | f + 1, hole, i, slots =>
    let y := slots.getD i emptySlot
    if y = emptySlot then slots
    else if (i + c - hashHome c y) % c ≥ (i + c - hole) % c then
      shiftBack c f i ((i + 1) % c) ((slots.set hole y).set i emptySlot)
    else shiftBack c f hole ((i + 1) % c) slots

/-- A key deleted from the slots (R111). -/
def hashDel (c : Nat) (slots : List Nat) (x : Nat) : List Nat :=
  let i := probe slots c x c (hashHome c x)
  if slots.getD i emptySlot = x then shiftBack c c i ((i + 1) % c) (slots.set i emptySlot) else slots

/-- Slots built by inserting the keys in ascending order (R284); the key 0xFFFF_FFFF has no slot. -/
def hashBuild (c : Nat) (keys : List Nat) : List Nat :=
  (keys.filter fun x => x != emptySlot).foldl (hashIns c) (List.replicate c emptySlot)

/-- The members that a payload's words hold, ascending (R111). -/
def membersOf (e : Entry) (w : List Nat) : List Nat :=
  match e.rep with
  | .sorted => sortedDistinct ((w.drop 1).take e.n)
  | .bitmap =>
    (List.range (bmWords e.lo e.hi)).flatMap fun q =>
      ((List.range 64).filter fun i =>
        ((w.getD (2 + 2 * q) 0) + (w.getD (3 + 2 * q) 0) * 4294967296).testBit i).map fun i => w.headD 0 + 64 * q + i
  | .runs =>
    sortedDistinct ((List.range e.runs).flatMap fun j =>
      let a := w.getD (1 + 2 * j) 0
      (List.range (w.getD (2 + 2 * j) 0 + 1 - a)).map fun i => a + i)
  | .hash =>
    sortedDistinct (((w.drop 2).filter fun x => x != emptySlot) ++ (if w.getD 1 0 % 2 = 1 then [emptySlot] else []))

/-- The payload words of members in a representation; HASH with the slots given (R111). -/
def payloadOf (r : Rep) (m : List Nat) (slots : List Nat) : List Nat :=
  match r with
  | .sorted => m.length :: m
  | .bitmap =>
    let b := bmBase (m.headD 0)
    let n := bmWords (m.headD 0) (m.getLastD 0)
    b :: n :: (List.range n).flatMap fun q =>
      let v := (m.filter fun x => x / 64 == b / 64 + q).foldl (fun v x => v + 2 ^ (x % 64)) 0
      [v % 4294967296, v / 4294967296]
  | .runs => (runsOf m).length :: (runsOf m).flatMap fun r => [r.1, r.2]
  | .hash => slots.length :: bit (nhas m emptySlot) :: slots

/-! ## The skiver (R112) -/

/-- The candidate of least size, ties going to RUNS, BITMAP, SORTED, HASH. -/
def candidate (hashOk : Bool) (n lo hi runs : Nat) : Rep :=
  let better := fun (best r : Rep) => if skiver r n lo hi runs < skiver best n lo hi runs then r else best
  let c := better (better .runs .bitmap) .sorted
  if hashOk then better c .hash else c

/-- The representation of a mutated set, or of a result (`written`) that has no old one to keep. -/
def chooseRep (e : Entry) (written hashOk : Bool) (n lo hi runs : Nat) : Rep :=
  if n = 0 then .sorted
  else if e.pinned then e.pinrep
  else
    let c := candidate (hashOk && !written) n lo hi runs
    if written ∨ 4 * skiver c n lo hi runs ≤ 3 * skiver e.rep n lo hi runs then c else e.rep

/-- HASH is a candidate after an insertion (R112): the old MAX, if the set had members, and the keys inserted. -/
def hashCandidate (n : Nat) (oldMax : Option Nat) (inserted : List Nat) : Bool :=
  match oldMax with
  | none => false
  | some m => decide (n ≥ 1024) && !inserted.isEmpty && decide (4 * (inserted.filter fun x => decide (x ≤ m)).length ≥ inserted.length)

/-! ## The set heap (R113) -/

/-- A block of so many bytes from the free list, first fit (log 14). -/
def heapTake (n : Nat) : List (Nat × Nat) → Option (Nat × List (Nat × Nat))
  | [] => none
  | (b, l) :: t =>
    if n ≤ l then some (b, if n = l then t else (b + n, l - n) :: t)
    else (heapTake n t).map fun r => (r.1, (b, l) :: r.2)

/-- A block joined with its neighbours in the free list. -/
def heapGive (b n : Nat) : List (Nat × Nat) → List (Nat × Nat)
  | [] => [(b, n)]
  | (b', l) :: t =>
    if b + n = b' then (b, n + l) :: t
    else if b < b' then (b, n) :: (b', l) :: t
    else if b' + l = b then heapGive b' (l + n) t
    else (b', l) :: heapGive b n t

/-- A block goes back to the free list of the heap that runs from h for len bytes. A block that does not lie in the heap, or
shares a byte with a free one, is one that a plain write has made up: it stays out (R110). -/
def heapReturn (h len b n : Nat) (free : List (Nat × Nat)) : List (Nat × Nat) :=
  if n = 0 ∨ b < h ∨ h + len < b + n ∨ free.any (fun f => decide (f.1 < b + n) && decide (b < f.1 + f.2)) then free
  else heapGive b n free

/-! ## Operations at the engine (R276 to R284) -/

def rcOk : Nat := 0
def rcDead : Nat := 1
def rcHeap : Nat := 2
def rcTable : Nat := 3
def rcFault : Nat := 4
def rcOrder : Nat := 5
def rcTrunc : Nat := 6
def rcPoison : Nat := 7

/-- What an operation reports: its code, REPS, the words read and written, whether REP changed, the algorithm (R285,
R286), and for its destinations a value, bits per key, or members. -/
structure SetRes where
  code : Nat
  reps : Nat
  wread : Nat
  wwrite : Nat
  conv : Bool
  alg : Nat
  value : Nat
  bits : List Bool
  members : List Nat
  deriving DecidableEq, Repr

/-- A failure that has read so many words. -/
def setFail (code wread : Nat) : SetRes := ⟨code, 0, wread, 0, false, 0, 0, [], []⟩

/-- An operation's step: it goes on, reports, or is held at a line that an engine owns (R130). -/
inductive SetStep (α : Type) where
  | ok (a : α)
  | fail (r : SetRes)
  | held

/-- A set as its engine reads it: entry, device address of the entry, payload words, members. -/
structure SetView where
  ent : Entry
  addr : Nat
  words : List Nat
  members : List Nat
  deriving DecidableEq, Repr

/-- The address of entry i. -/
def State.entryAddr (s : State) (t i : Nat) : Nat := ((s.tenant t).reg 0x20).toNat + 32 * i

/-- The address of the entry that a handle names, and its home. -/
def State.handleAddr (s : State) (t : Nat) (h : Word) : Nat := s.entryAddr t (h.toNat % 268435456)
def homeOf (pa : Nat) : Nat := (devKey pa).getD 0

/-- Where a set engine finds the word at a device address: in the tenant's set table or set heap, and nowhere else (R110). -/
def State.setKey (s : State) (t pa : Nat) : Option Nat :=
  let x := s.tenant t
  let inside := fun (b n : Nat) => decide (b ≤ pa) && decide (pa + 4 ≤ b + n)
  if inside (x.reg 0x20).toNat (32 * s.setLength t) || inside (x.reg 0x30).toNat (x.reg 0x38).toNat then devKey pa else none

/-- A word as a set engine reads it; one that a damaged entry places elsewhere is free (R110, log 89). -/
def State.setWord (s : State) (t pa : Nat) : Nat :=
  match s.setKey t pa with
  | some k => s.le k 4
  | none => (Config.strayWord s.free pa).toNat

/-- The locations of n words from a device address on, as far as a set engine reaches them. -/
def State.setKeys (s : State) (t pa n : Nat) : List Nat := (List.range n).filterMap fun i => s.setKey t (pa + 4 * i)

/-- One of n words carries a mark; the owner of the line of one holds what reaches it so (R130). -/
def State.setMarked (s : State) (t pa n : Nat) : Bool := (s.setKeys t pa n).any fun k => s.marked k 4
def State.setHeld (s : State) (q : Reach) (t pa n : Nat) : Bool := (s.setKeys t pa n).any (s.ownedLine q)

/-- The requests for n words by the engine at a home (R102, R103). -/
def State.setAsks (s : State) (home t pa n : Nat) : State :=
  s.homeReads (setOrigin home) (homeDie home) ((s.setKeys t pa n).map fun k => (plainXlat k, 4))

/-- Words written by a unit from a device address on; those outside table and heap are lost (R110). -/
def State.putSetWordsAs (s : State) (o : Origin) (die t pa : Nat) (ws : List Nat) : State :=
  let at_ := (ws.zipIdx).filterMap fun e => (s.setKey t (pa + 4 * e.2)).map fun k => (k, e.1)
  s.engineWriteAt o die 4 (at_.map fun e => plainXlat e.1) (at_.flatMap fun e => leBytes 4 e.2)

/-- The same by the set engine at a home. -/
def State.putSetWords (s : State) (home t pa : Nat) (ws : List Nat) : State :=
  s.putSetWordsAs (setOrigin home) (homeDie home) t pa ws

/-- The entry at a device address (R110). -/
def State.entryAt (s : State) (t pa : Nat) : Entry :=
  let w := fun i => s.setWord t (pa + 4 * i)
  { version := w 0 / 65536, pinrep := repOf (ebits (w 0) 11 10), pinned := ebits (w 0) 9 9 == 1,
    live := ebits (w 0) 8 8 == 1, rep := repOf (ebits (w 0) 3 0), n := w 1, lo := w 2, hi := w 3, runs := w 4,
    payload := w 5 + w 6 * 4294967296, cap := w 7 }

/-- The entry of a handle: POISON, DEAD, or the entry (R276). `before` words have been read. -/
def State.readEntry (s : State) (q : Reach) (t : Nat) (h : Word) (before : Nat) : SetStep Entry :=
  let a := s.handleAddr t h
  if s.setHeld q t a 8 then .held
  else if s.setMarked t a 8 then .fail (setFail rcPoison (before + 8))
  else if !(s.entryAt t a).live then .fail (setFail rcDead (before + 8))
  else .ok (s.entryAt t a)

/-- The set of a handle with its payload. -/
def State.readSet (s : State) (q : Reach) (t : Nat) (h : Word) (before : Nat) : SetStep SetView :=
  match s.readEntry q t h before with
  | .held => .held
  | .fail r => .fail r
  | .ok e =>
    if s.setHeld q t e.payload e.size then .held
    else if s.setMarked t e.payload e.size then .fail (setFail rcPoison (before + 8))
    else
      let w := (List.range e.size).map fun i => s.setWord t (e.payload + 4 * i)
      .ok ⟨e, s.handleAddr t h, w, membersOf e w⟩

/-- The requests for the entry of a handle, and for a set with its payload, at the home of the entry. -/
def State.askEntry (s : State) (t : Nat) (h : Word) : State :=
  s.setAsks (homeOf (s.handleAddr t h)) t (s.handleAddr t h) 8
def State.askSet (s : State) (t : Nat) (v : SetView) : State :=
  (s.setAsks (homeOf v.addr) t v.addr 8).setAsks (homeOf v.addr) t v.ent.payload v.ent.size

/-- The slots of a HASH payload after a mutation: in place while c stays and REP was HASH, else rebuilt (R284). -/
def slotsAfter (v : SetView) (r : Rep) (m : List Nat) (ins del : List Nat) : List Nat :=
  let c := hashCap m.length
  if v.ent.rep = .hash ∧ r = .hash ∧ (v.words.drop 2).length = c then
    (del.filter fun x => x != emptySlot).foldl (hashDel c) ((ins.filter fun x => x != emptySlot).foldl (hashIns c) (v.words.drop 2))
  else hashBuild c m

/-- A settled set is written (R113, R284): the entry as it then stands, or none where the heap cannot supply its
payload. -/
def State.settle (s : State) (t : Nat) (v : SetView) (pinned : Bool) (pinrep : Rep) (r : Rep) (m slots : List Nat) :
    Option (State × Entry) :=
  let n := m.length
  let ent := { v.ent with pinned := pinned, pinrep := pinrep, rep := r, n := n, lo := m.headD 0, hi := m.getLastD 0,
                          runs := countRuns m }
  let changed := decide (m ≠ v.members) || decide (r ≠ v.ent.rep)
  let ent := if changed then { ent with version := (ent.version + 1) % 65536 } else ent
  let words := payloadOf r m slots
  let need := words.length
  let put := fun (s : State) (pa : Nat) (ws : List Nat) => s.putSetWords (homeOf v.addr) t pa ws
  if n > 4294967295 then none
  else if need ≤ ent.cap then some (put (put s ent.payload words) v.addr ent.words, ent)
  else
    let cap := powAtLeast (max 8 need) 33 8
    match heapTake (4 * cap) (s.tenant t).heap with
    | none => none
    | some (b, rest) =>
      let ent' := { ent with payload := b, cap := cap }
      let s1 := (put s b words).modTenant t fun x =>
        { x with heap := heapReturn (x.reg 0x30).toNat (x.reg 0x38).toNat v.ent.payload (4 * v.ent.cap) rest }
      some (put s1 v.addr ent'.words, ent')

/-- REPS of a mutation (R285). -/
def repsOf (after before : Rep) : Nat := repCode after + 16 * repCode before

/-- A mutation's end: settled and accounted for, or HEAP (R279, R286). `extra` words were read beside entry and payload. -/
def State.mutate (s : State) (t : Nat) (v : SetView) (m ins del : List Nat) (insertion : Bool) (bits : List Bool)
    (extra : Nat) : State × SetRes :=
  let hashOk := insertion && hashCandidate m.length (if v.ent.n = 0 then none else some v.ent.hi) ins
  let r := chooseRep v.ent false hashOk m.length (m.headD 0) (m.getLastD 0) (countRuns m)
  match s.settle t v v.ent.pinned v.ent.pinrep r m (slotsAfter v r m ins del) with
  | none => (s, setFail rcHeap 8)
  | some (s1, e) =>
    (s1, ⟨rcOk, repsOf r v.ent.rep, 8 + v.ent.size + extra, 8 + e.size, decide (r ≠ v.ent.rep), 0, 0, bits, []⟩)

/-- Keys inserted in order: for each whether it was new, and the set after them (R279). -/
def insertKeys : List Nat → List Nat → List Bool × List Nat
  | [], m => ([], m)
  | x :: t, m =>
    let (bs, m') := insertKeys t (nins x m)
    ((!nhas m x) :: bs, m')

/-- Keys deleted in order: for each whether it was there, and the set after them (R279). -/
def deleteKeys : List Nat → List Nat → List Bool × List Nat
  | [], m => ([], m)
  | x :: t, m =>
    let (bs, m') := deleteKeys t (ndel x m)
    (nhas m x :: bs, m')

/-- The keys for which the flag holds, each once. -/
def chosen (keys : List Nat) (bits : List Bool) : List Nat := ((keys.zip bits).filter fun e => e.2).map fun e => e.1

/-- `set.new` at the home of entry 0 (R277). -/
def State.setNewOp (s : State) (q : Reach) (t : Nat) : SetStep (State × SetRes) :=
  let a0 := s.entryAddr t 0
  let free := s.setWord t a0
  let a := s.entryAddr t free
  let s1 := s.setAsks (homeOf a0) t a0 8
  let put := fun (s : State) (pa : Nat) (ws : List Nat) => s.putSetWords (homeOf a0) t pa ws
  if s.setHeld q t a0 8 ∨ s.setHeld q t a 8 then .held
  else if s.setMarked t a0 8 then .ok (s1, setFail rcPoison 8)
  else if free = 0 then .ok (s1, setFail rcTable 8)
  else if s.setMarked t a 8 then .ok (s1, setFail rcPoison 8)
  else
    match heapTake 32 (s.tenant t).heap with
    | none => .ok (s1, setFail rcHeap 8)
    | some (b, rest) =>
      let e : Entry := { version := 0, pinrep := .sorted, pinned := false, live := true, rep := .sorted, n := 0, lo := 0,
                         hi := 0, runs := 0, payload := b, cap := 8 }
      let s2 := put (put (put (s1.setAsks (homeOf a0) t a 8) a0 [s.setWord t (a + 4), s.setWord t (a0 + 4) + 1]) a e.words) b [0]
      .ok (s2.modTenant t fun x => { x with heap := rest },
        ⟨rcOk, 0, 8, 17, false, 0, s.setWindow t * 268435456 + free, [], []⟩)

/-- `set.free` at the home of its entry (R278): LIVE is cleared, the header's count falls, and the return is deferred. A
marked header is POISON, after the entry's own codes (R276). -/
def State.setFreeOp (s : State) (q : Reach) (t die : Nat) (h : Word) (seq : Word) : SetStep (State × SetRes) :=
  let a := s.handleAddr t h
  let a0 := s.entryAddr t 0
  match s.readEntry q t h 0 with
  | .held => .held
  | .fail r => .ok (s.askEntry t h, r)
  | .ok e =>
    let s1 := (s.askEntry t h).setAsks (homeOf a) t a0 8
    if s.setHeld q t a0 8 then .held
    else if s.setMarked t a0 8 then .ok (s1, setFail rcPoison 8)
    else
      let s2 := (s1.putSetWords (homeOf a) t a { e with live := false }.words).putSetWords (homeOf a) t (a0 + 4)
        [s.setWord t (a0 + 4) + 4294967295]
      .ok (s2.modDie die fun d =>
        { d with latigo := d.latigo ++
            [{ tenant := t, target := (s.tenant t).issued,
               kind := .setEntry (h.toNat % 268435456) e.payload e.cap, seq := seq }] },
        ⟨rcOk, repsOf e.rep e.rep, 8, 16, false, 0, 0, [], []⟩)

/-- The rank of members delivered by `set.iter`. -/
def iterMembers (m : List Nat) (cursor lanes : Nat) : List Nat := (m.drop cursor).take lanes

/-- The algorithm code of R282. -/
def algCode (a b : SetView) : Nat :=
  let sa := a.ent.size
  let sb := b.ent.size
  match a.ent.rep, b.ent.rep with
  | .hash, _ => 6
  | _, .hash => 6
  | .sorted, .sorted => if max sa sb ≤ 16 * min sa sb then 1 else 2
  | .bitmap, .bitmap => 3
  | .runs, .runs => 5
  | _, _ => 4

/-- The set algebra (R281): snapshots of A and of B, then C; a failure at C comes after the algorithm was chosen (R282). -/
def State.algebraOp (s : State) (q : Reach) (t : Nat) (ha hb hc : Word) (f : List Nat → List Nat → List Nat) :
    SetStep (State × SetRes) :=
  match s.readSet q t ha 0 with
  | .held => .held
  | .fail r => .ok (s.askEntry t ha, r)
  | .ok a =>
    match s.readSet q t hb 8 with
    | .held => .held
    | .fail r => .ok ((s.askSet t a).askEntry t hb, r)
    | .ok b =>
      let s1 := (s.askSet t a).askSet t b
      match s.readSet q t hc 16 with
      | .held => .held
      | .fail r => .ok (s1.askEntry t hc, { r with alg := algCode a b })
      | .ok c =>
        let m := f a.members b.members
        let r := chooseRep c.ent true false m.length (m.headD 0) (m.getLastD 0) (countRuns m)
        match (s1.askSet t c).settle t c c.ent.pinned c.ent.pinrep r m (hashBuild (hashCap m.length) m) with
        | none => .ok (s1.askSet t c, { setFail rcHeap 24 with alg := algCode a b })
        | some (s2, e) =>
          .ok (s2, ⟨rcOk, repCode r + 16 * repCode a.ent.rep + 256 * repCode b.ent.rep,
            24 + a.ent.size + b.ent.size, 8 + e.size, decide (r ≠ c.ent.rep), algCode a b, 0, [], []⟩)

/-- `set.hint` (R283): a settle point after the pin is set or removed. -/
def State.hintOp (s : State) (q : Reach) (t : Nat) (h : Word) (pin : Option Rep) : SetStep (State × SetRes) :=
  match s.readSet q t h 0 with
  | .held => .held
  | .fail r => .ok (s.askEntry t h, r)
  | .ok v =>
    let pinned := pin.isSome
    let pinrep := pin.getD v.ent.pinrep
    let m := v.members
    let r := chooseRep { v.ent with pinned := pinned, pinrep := pinrep } false false m.length (m.headD 0) (m.getLastD 0)
      (countRuns m)
    match (s.askSet t v).settle t v pinned pinrep r m (slotsAfter v r m [] []) with
    | none => .ok (s.askSet t v, setFail rcHeap 8)
    | some (s1, e) =>
      .ok (s1, ⟨rcOk, repsOf r v.ent.rep, 8 + v.ent.size, 8 + e.size, decide (r ≠ v.ent.rep), 0, 0, [], []⟩)

/-- A list never falls. -/
def nonDecreasing : List Nat → Bool
  | [] => true
  | [_] => true
  | x :: y :: t => decide (x ≤ y) && nonDecreasing (y :: t)

/-- `set.in` (R280): the whole array is read before the set changes. -/
def State.setInOp (s : State) (q : Reach) (core t : Nat) (h : Word) (addr : DWord) (c : Nat) : SetStep (State × SetRes) :=
  match s.readSet q t h 0 with
  | .held => .held
  | .fail r => .ok (s.askEntry t h, r)
  | .ok v =>
    let o := setOrigin (homeOf v.addr)
    let (s0, xs, ps) := locate o.req core t 4 .read c addr (s.askSet t v)
    let ks := xs.map Xlat.key
    let s1 := s0.homeReads o (dieOfCore core) (xs.map fun x => (x, 4))
    if ks.any (s0.reachHeld (homeDie (homeOf v.addr)) q) then .held else
    match ps with
    | .fault _ => .ok (s1, ⟨rcFault, repsOf v.ent.rep v.ent.rep, 8 + v.ent.size + ks.length, 0, false, 0, 0, [], []⟩)
    | .done =>
      if xs.any s1.loses then .ok (s1.linkGone t 0, setFail rcPoison 8)
      else if ks.any fun a => s1.marked a 4 then .ok (s1, setFail rcPoison 8)
      else
        let keys := ks.map fun a => s1.le a 4
        if !nonDecreasing keys then .ok (s1, setFail rcOrder 8)
        else
          let (bs, m) := insertKeys keys v.members
          .ok (s1.mutate t v m (chosen keys bs) [] true [] c)

/-- `set.out` (R280): members written up to the capacity, or up to a fault; lines that a command has come to own before it hold
it, as the path to another die does (R120, R130). -/
def State.setOutOp (s : State) (q : Reach) (core t : Nat) (h : Word) (addr : DWord) (c stamp : Nat) : SetStep (State × SetRes) :=
  match s.readSet q t h 0 with
  | .held => .held
  | .fail r => .ok (s.askEntry t h, r)
  | .ok v =>
    let m := v.members.take c
    let o := setOrigin (homeOf v.addr)
    let (s1, xs, ps) := locate o.req core t 4 .write m.length addr (s.askSet t v)
    let ks := xs.map Xlat.key
    let kept := (xs.zip m).filter fun e => !s1.loses e.1
    let s2 := (if xs.any s1.loses then s1.linkGone t 0 else s1).engineWriteAt o (dieOfCore core) 4 (kept.map Prod.fst)
      (kept.flatMap fun e => leBytes 4 e.2)
    let reps := repsOf v.ent.rep v.ent.rep
    if ks.any (s1.reachHeld (homeDie (homeOf v.addr)) (.command stamp)) then .held else
    match ps with
    | .fault _ => .ok (s2, ⟨rcFault, reps, 8 + v.ent.size, ks.length, false, 0, 0, [], []⟩)
    | .done =>
      .ok (s2, ⟨if v.members.length > c then rcTrunc else rcOk, reps, 8 + v.ent.size, m.length, false, 0, m.length, [],
        []⟩)

/-- Members of an ascending list that are, or are not, in another. -/
def keepIn (b a : List Nat) : List Nat := a.filter fun x => nhas b x
def dropIn (b a : List Nat) : List Nat := a.filter fun x => !nhas b x

/-- The handle at whose home an operation runs: C of the set algebra, else the one it names (R113, R281). -/
def SetOp.home (o : SetOp) : Word :=
  match o.instr with
  | .setOr .. => o.hc
  | .setAnd .. => o.hc
  | .setSub .. => o.hc
  | _ => o.ha

/-- One operation at its engine, with the op number of LAST (R285). -/
def State.setOpRun (s : State) (core t : Nat) (o : SetOp) : Nat × SetStep (State × SetRes) :=
  let keys := o.keys.map fun k => k.2.toNat
  let q := Reach.issued o.stamp
  let view := fun (f : SetView → State × SetRes) =>
    (match s.readSet q t o.ha 0 with
     | .held => SetStep.held
     | .fail r => .ok (s.askEntry t o.ha, r)
     | .ok v => .ok (f v))
  match o.instr with
  | .setNew _ _ => (0, s.setNewOp q t)
  | .setFree _ _ => (1, s.setFreeOp q t (dieOfCore core) o.ha o.seq)
  | .setIns _ _ _ _ _ =>
    (2, view fun v =>
      let (bs, m) := insertKeys keys v.members
      (s.askSet t v).mutate t v m (chosen keys bs) [] true bs 0)
  | .setDel _ _ _ _ _ =>
    (3, view fun v =>
      let (bs, m) := deleteKeys keys v.members
      (s.askSet t v).mutate t v m [] (chosen keys bs) false bs 0)
  | .setHas _ _ _ _ =>
    (4, view fun v =>
      (s.askSet t v, ⟨rcOk, repsOf v.ent.rep v.ent.rep, 8 + v.ent.size, 0, false, 0, 0, keys.map (nhas v.members), []⟩))
  | .setCard _ _ _ =>
    (5, match s.readEntry q t o.ha 0 with
      | .held => .held
      | .fail r => .ok (s.askEntry t o.ha, r)
      | .ok e => .ok (s.askEntry t o.ha, ⟨rcOk, repsOf e.rep e.rep, 8, 0, false, 0, e.n, [], []⟩))
  | .setOr _ _ _ _ => (6, s.algebraOp q t o.ha o.hb o.hc fun a b => b.foldl (fun m x => nins x m) a)
  | .setAnd _ _ _ _ => (7, s.algebraOp q t o.ha o.hb o.hc fun a b => keepIn b a)
  | .setSub _ _ _ _ => (8, s.algebraOp q t o.ha o.hb o.hc fun a b => dropIn b a)
  | .setIn _ _ _ _ => (9, s.setInOp q core t o.ha o.addr o.count.toNat)
  | .setOut _ _ _ _ _ => (10, s.setOutOp q core t o.ha o.addr o.count.toNat o.stamp)
  | .setIter _ _ _ _ =>
    (11, view fun v =>
      let m := iterMembers v.members o.count.toNat (lanesOf o.act).length
      (s.askSet t v, ⟨rcOk, repsOf v.ent.rep v.ent.rep, 8 + v.ent.size, 0, false, 0, o.count.toNat + m.length, [], m⟩))
  | .setHint _ r _ => (12, s.hintOp q t o.ha (some r))
  | .setHintNone _ _ => (12, s.hintOp q t o.ha none)
  | _ => (13, .ok (s, setFail rcOk 0))

/-! ## Results (R275, R276, R280) -/

/-- A register waits for this instruction. -/
def Flight.waits (f : Flight) (r : Opnd) (id : Nat) : Bool := f.pend.any fun e => e == (r, id)

/-- Lanes of a vector register written if it waits for the instruction. -/
def Agent.giveV (id n : Nat) (m : Lanes) (f : Nat → Word) (marks : Lanes) (x : Agent) : Agent :=
  if x.flight.waits (.v n) id then x.mapRegs fun r => r.setV n m f marks else x

def Agent.giveS (id n : Nat) (w : Word) (mark : Bool) (x : Agent) : Agent :=
  if x.flight.waits (.s n) id then x.mapRegs fun r => r.setS n w mark else x

def Agent.giveP (id n : Nat) (m : Lanes) (f : Nat → Bool) (x : Agent) : Agent :=
  if x.flight.waits (.p n) id then x.mapRegs fun r => r.setP n m f else x

/-- No register waits for the instruction any more. -/
def Agent.unpend (id : Nat) (x : Agent) : Agent :=
  x.mapFlight fun f => { f with pend := f.pend.filter fun e => e.2 != id }

/-- The bit that a lane of a predicate destination receives: its own key's, or that of the single key. -/
def SetOp.laneBit (o : SetOp) (bits : List Bool) (l : Nat) : Bool :=
  match o.keys.findIdx? fun k => k.1 == l with
  | some i => bits.getD i false
  | none => bits.headD false

/-- The member that a lane of `set.iter` receives: the active lanes in ascending order take one each. -/
def iterLane (act : Lanes) (m : List Nat) (l : Nat) : Word :=
  match (lanesOf act).findIdx? fun x => x == l with
  | some i => BitVec.ofNat 32 (m.getD i 0)
  | none => 0#32

/-- The destinations of an operation are written (R276). An insertion or deletion that reports HEAP leaves its predicates as
if it had not issued (R279, log 90). -/
def SetOp.deliver (o : SetOp) (r : SetRes) (x : Agent) : Agent :=
  let ok := r.code == rcOk || r.code == rcTrunc
  let member := fun (d : Opnd) =>
    if r.code = rcHeap then x else x.giveP o.id (Opnd.num d) o.act fun l => ok && o.laneBit r.bits l
  let y := match o.instr with
    | .setNew _ d => x.giveS o.id (Opnd.num d) (BitVec.ofNat 32 r.value) false
    | .setIns _ _ d _ _ => member d
    | .setDel _ _ d _ _ => member d
    | .setHas _ d _ _ => x.giveP o.id (Opnd.num d) o.act fun l => ok && o.laneBit r.bits l
    | .setCard _ d _ => x.giveS o.id (Opnd.num d) (BitVec.ofNat 32 r.value) false
    | .setOut _ d _ _ _ =>
      (x.giveS o.id (Opnd.num d) (BitVec.ofNat 32 r.value) false).mapFlight fun f =>
        if f.waits d o.id then { f with tokens := nins (Opnd.num d) f.tokens } else f
    | .setIter _ d _ c =>
      let z := x.giveV o.id (Opnd.num d) o.act (iterLane o.act r.members) 0#32
      if ok then z.giveS o.id (Opnd.num c) (BitVec.ofNat 32 r.value) false else z
    | _ => x
  y.unpend o.id

/-- The cost counters after an operation (R285, R286); CLOCKS is free (log 12). -/
def SetRes.count (op : Nat) (r : SetRes) (clocks : Word) (e : Eng) : Eng :=
  let add := fun (m : KMap Word) (i n : Nat) => ksetD 0#32 m i (kgetD 0#32 m i + BitVec.ofNat 32 n)
  let c1 := add (add (add e.cost 0 r.wread) 1 r.wwrite) 2 (bit r.conv)
  let c2 := ksetD 0#32 (ksetD 0#32 c1 3 (BitVec.ofNat 32 (r.alg + 256 * r.code + 65536 * op))) 4 (BitVec.ofNat 32 r.reps)
  { e with cost := ksetD 0#32 c2 5 (kgetD 0#32 c2 5 + clocks) }

/-- A set instruction that moves an array in global memory, and so waits as an engine command does (R129, R133). -/
def SetOp.movesArray (o : SetOp) : Bool :=
  match o.instr with
  | .setIn _ _ _ _ => true
  | .setOut _ _ _ _ _ => true
  | _ => false

/-- A set instruction as its records name it (R322). -/
def State.setName (s : State) (x : Agent) (o : SetOp) : CmdName :=
  let home := homeOf (s.handleAddr x.ident.tenant o.home)
  ⟨x.ident, o.seq, 6 * 4096 + homeDie home * 1024 + homeSlice home * 16, o.label, 0⟩

/-- A set instruction leaves its agent, with the lines it owns. -/
def Agent.dropSet (id : Nat) (x : Agent) : Agent := x.mapFlight fun f => { f with setOps := f.setOps.filter fun q => q.id != id }

/-- A set instruction of an agent is performed at its engine, with its two trace records (R133, R275, R324). None while a line
holds it. -/
def State.setPerform (s : State) (agent : Nat) (x : Agent) (o : SetOp) : Option State :=
  let name := s.setName x o
  match (s.trace name .start 0).setOpRun x.core x.ident.tenant o with
  | (n, .ok (s1, r)) =>
    some ((s1.tick.modAgent agent fun y =>
      (o.deliver r (y.dropSet o.id)).mapEng (r.count n (Config.freeWord s.free))).trace name .finish r.code)
  | (_, .fail _) => none
  | (_, .held) => none

/-- SET_ENGINE_OPERATION (R133, R275): a set instruction whose turn it is, is performed whole; one that moves an array waits as
an engine command does (R129). An engine breakpoint holds it first (R323). -/
def execSetEngineOperation (agent op : Nat) (s : State) : Out :=
  match s.agent? agent with
  | none => .next s
  | some x =>
    match x.flight.setOps.find? fun o => o.id == op with
    | none => .next s
    | some o =>
      if !x.flight.setTurn o ∨ (o.movesArray ∧ !s.engineReady x op) then .next s
      else if !o.released && s.engineBreak x 6 o.seq then
        .next ((s.setAgent agent (x.mapFlight fun f =>
          { f with setOps := f.setOps.map fun q => if q.id = op then { q with held := true } else q })).reportHeld x o.seq
          (s.setName x o).engine)
      else .next ((s.setPerform agent x o).getD s)

end Sys2Proof.Machine
end

