-- ==== Sys2Proof/Machine/Sync.lean ====
section
/-! DEFINITION. Class 5 at issue: barriers (R288 to R294), grace periods (R297 to R300), user traps (R305, R306), range labels
(R308), time and capability (R309, R310). -/

namespace Sys2Proof.Machine

/-! ## Barriers (R290 to R294) -/

/-- A message on its way to a barrier of the gang (R290). -/
def State.barSend (s : State) (g pos hb : Nat) (m : BarMsg) : State :=
  s.modGang g fun y => { y with msgs := y.msgs ++ [(pos, hb, m)] }

/-- `bar.init` (R292). -/
def execBarInit (g : Guard) (hb : Nat) (a : Opnd) (s : State) : Out :=
  issueWith g (usesOf (.barInit g hb a)) 8 (barCheck hb)
    (fun c => if (c.one32 a).toNat = 0 ∨ (c.one32 a).toNat > 65535 then some (flt codeIll) else none)
    (fun c => .next ((c.finish 8 id).barSend c.ag.ident.gang (c.st.posOf c.ag) hb (.init (c.one32 a).toNat))) s

/-- `bar.arrive` (R291). -/
def execBarArrive (g : Guard) (hb : Nat) (s : State) : Out :=
  issueWith g [] 8 (barCheck hb) noCheck
    (fun c => .next ((c.finish 8 id).barSend c.ag.ident.gang (c.st.posOf c.ag) hb .arrive)) s

/-- `bar.wait` (R293): past the mark it returns, else it waits for a flip. -/
def execBarWait (g : Guard) (hb : Nat) (s : State) : Out :=
  issueWith g [] 8 (barCheck hb) noCheck
    (fun c =>
      let w := c.ag.ident.widx
      let ph := ((c.st.gangOf c.ag).map fun y => (y.barrier hb).phase).getD 0
      let mk := ((c.st.gangOf c.ag).map fun y => y.warpMark hb w).getD 0
      .next (if ph ≠ mk then (c.finish 8 id).modGang c.ag.ident.gang fun y => y.setWarpMark hb w ph
        else c.holdAs (.barWait hb))) s

/-- `bar.status` (R294). -/
def execBarStatus (g : Guard) (hb : Nat) (d : Opnd) (s : State) : Out :=
  issueWith g (usesOf (.barStatus g hb d)) 8 (barCheck hb) noCheck
    (fun c => .next (c.putS d false
      ((((c.st.gangOf c.ag).map fun y => (y.barrier hb).status).getD 0#32).setWidth 64, 0#5))) s

/-! ## Grace periods (R297 to R300) -/

/-- `qstate` (R297): it ends at QUIESCENT_POINT. -/
def execQstate (g : Guard) (s : State) : Out := issue g [] (fun c => c.holdAs .qstate) s

/-- `gstart` (R298): sd is pending until the coordinator returns the target. -/
def execGstart (g : Guard) (d : Opnd) (s : State) : Out :=
  issue g (usesOf (.gstart g d))
    (fun c =>
      let id := c.ag.flight.nextOp
      c.finish 8 (Agent.mapFlight fun f =>
        pendOn [d] id { f with nextOp := id + 1, gstarts := f.gstarts ++ [(id, Opnd.num d, false)] })) s

/-- `gwait` (R299): a task raises ILL; it ends, or parks the agent, at QUIESCENT_POINT. -/
def execGwait (g : Guard) (a : Opnd) (s : State) : Out :=
  issueWith g (usesOf (.gwait g a)) 8 (fun c => if c.ag.task then some (flt codeIll) else none) noCheck
    (fun c => .next (c.holdAs (.gwait (c.one32 a)))) s

/-- The checks of `fdefer` (R300). -/
def fdeferCheck (a b cc : Opnd) (c : Ctx) : Option Flt :=
  let addr := c.rd true a 0
  let len := (c.one32 b).toNat
  if addr.toNat % 16 ≠ 0 then some ⟨codeMisaligned, addr, lowLane c.act, true, false⟩
  else if addr.toNat ≥ 144115188075855872 then some ⟨codeProtection, addr, lowLane c.act, true, false⟩
  else if len < 16 ∨ len % 16 ≠ 0 then some (flt codeIll)
  else if (c.one32 cc).toNat ≥ ((c.st.tenant c.ag.ident.tenant).reg 0x48).toNat then
    some ⟨codeProtection, addr, lowLane c.act, true, false⟩
  else none

/-- `fdefer` (R300): it ends at RELEASE_PROCEED, when its release has performed and an entry can be taken; until one can, every
unexited lane is parked. -/
def execFdefer (g : Guard) (a b cc : Opnd) (s : State) : Out :=
  issueWith g (usesOf (.fdefer g a b cc)) 8 noCheck (fdeferCheck a b cc)
    (fun c => .next (c.holdAs (.fdefer (c.rd true a 0) (c.one32 b) (c.one32 cc) false false))) s

/-! ## User traps (R305, R306) -/

/-- The PC at which an agent would issue next. -/
def Agent.headPc (x : Agent) : DWord := (x.ctl.headRun.map fun r => r.1).getD 0#64

/-- `trap` (R305): the run advances, then the trap is taken. -/
def execTrap (g : Guard) (code : BitVec 16) (s : State) : Out :=
  issueWith g [] 8 inHandler noCheck
    (fun c => .next ((c.finish 8 id).trapAgent c.key c.ag (.trap code) (c.pc + 8#64))) s

/-- `tret` (R306). -/
def execTret (g : Guard) (s : State) : Out :=
  issueWith g [] 8 (fun c => if c.ag.sys.inHandler then none else some (flt codeIll)) noCheck
    (fun c => .next (c.st.setAgent c.key c.ag.leaveHandler)) s

/-! ## Range labels (R308) -/

def Sys.openRange (y : Sys) (label : BitVec 16) : Sys :=
  if y.labels.length < 16 then { y with labels := label :: y.labels }
  else { y with excess := min (y.excess + 1) 65535, lovf := true }

def Sys.closeRange (y : Sys) : Sys :=
  if y.excess > 0 then { y with excess := y.excess - 1 }
  else
    match y.labels with
    | [] => { y with lovf := true }
    | _ :: t => { y with labels := t }

/-- `rng.open` (R308). -/
def execRngOpen (g : Guard) (label : BitVec 16) (s : State) : Out :=
  issue g [] (fun c => c.finish 8 (Agent.mapSys fun y => y.openRange label)) s

/-- `rng.close` (R308). -/
def execRngClose (g : Guard) (s : State) : Out := issue g [] (fun c => c.finish 8 (Agent.mapSys Sys.closeRange)) s

/-! ## Time and capability (R309, R310, R340) -/

/-- A header of the capability list (R310). -/
def capHeader (next len stab ident : Nat) : Nat :=
  next * 2 ^ 48 + len * 2 ^ 40 + 1 * 2 ^ 32 + stab * 2 ^ 30 + ident

/-- The UCIe modules that have trained. -/
def Device.trained (d : Device) : Nat := ((List.range 4).filter d.modules.getLsbD).length

/-- The words of the capability list (R340). HOST and LINKS, of STAB 1, stay as they stood when the context came to exist
(R310); IR minor and translator version are those of the firmware of the last device reset. -/
def capWords (d : Device) (x : Tenant) : List Nat :=
  [capHeader 2 1 0 1, 0x20003,
   capHeader 4 1 0 2, 160 + 4 * 2 ^ 8 + 40 * 2 ^ 16 + 8 * 2 ^ 24 + 24 * 2 ^ 32,
   capHeader 6 1 0 3, 64000000000 + 8 * 2 ^ 40,
   capHeader 9 2 0 4, 1536 + 128 * 2 ^ 16 + 64 * 2 ^ 24 + 16 * 2 ^ 32 + 64 * 2 ^ 40 + 16 * 2 ^ 48,
   4096 + 1024 * 2 ^ 16 + 8192 * 2 ^ 32,
   capHeader 11 1 0 5, 63,
   capHeader 13 1 1 6, 7 + ((List.range 4).filter x.capModules.getLsbD).length * 16,
   capHeader 15 1 1 7, x.capPorts.toNat,
   capHeader 0 1 1 8, d.irMinor % 65536 + 1 * 2 ^ 16 + d.translator % 65536 * 2 ^ 32]

/-- `capq` (R310): an index beyond the list returns 0. -/
def execCapq (g : Guard) (d a : Opnd) (s : State) : Out :=
  issue g (usesOf (.capq g d a))
    (fun c => c.putS d true (BitVec.ofNat 64 ((capWords c.st.device (c.st.tenant c.ag.ident.tenant)).getD (c.one32 a).toNat 0), 0#5)) s

/-- `tmrd` (R309). -/
def execTmrd (g : Guard) (d : Opnd) (s : State) : Out :=
  issue g (usesOf (.tmrd g d)) (fun c => c.putS d true (BitVec.ofNat 64 c.st.time, 0#5)) s

end Sys2Proof.Machine
end

