-- ==== Sys2Proof/Machine/MemSys.lean ====
section
/-! DEFINITION. How memory instructions in flight are performed: translation (R87 to R93), loads (R116 to R119, R221, R223),
the store queue and its acknowledgements (R117, R120), releases and acquires (R121), atomics (R125 to R127, R226 to R229),
buffer accesses (R17, R225), and `cflush` (R244). A step whose condition does not hold leaves the state as it is. -/

namespace Sys2Proof.Machine

/-! ## Instructions in flight -/

/-- An instruction in flight with its agent, which has a place. -/
def State.op? (s : State) (a id : Nat) : Option (Agent × Place × MemOp) :=
  match s.agent? a with
  | none => none
  | some x =>
    match x.place, x.flight.ops.find? fun o => o.id == id with
    | some p, some o => some (x, p, o)
    | _, _ => none

def Flight.modOp (id : Nat) (f : MemOp → MemOp) (fl : Flight) : Flight :=
  { fl with ops := fl.ops.map fun o => if o.id = id then f o else o }

def State.modOp (s : State) (a id : Nat) (f : MemOp → MemOp) : State :=
  s.modAgent a (Agent.mapFlight (Flight.modOp id f))

/-- Instructions with nothing outstanding leave (R220). -/
def Flight.tidy (fl : Flight) : Flight := { fl with ops := fl.ops.filter fun o => !o.finished }

def State.tidy (s : State) (a : Nat) : State := s.modAgent a (Agent.mapFlight Flight.tidy)

/-- The lanes for which the test holds pass through f. -/
def MemOp.mapLanes (test : LaneOp → Bool) (f : LaneOp → LaneOp) (o : MemOp) : MemOp :=
  { o with lanes := o.lanes.map fun l => if test l then f l else l }

/-- The lanes named are not empty and are all of this standing. -/
def MemOp.allAt (o : MemOp) (m : Lanes) (test : LaneSt → Bool) : Bool :=
  o.lanes.any (fun l => l.among m) && o.lanes.all fun l => !l.among m || test l.st

/-! ## PAGE_WALK (R87 to R93, R221, R316) -/

/-- The stop of an agent by a part that faults after issue; an agent stopped already keeps the further one. -/
def State.partFault (s : State) (a : Nat) (x : Agent) (o : MemOp) (code : Nat) (l : LaneOp) : State :=
  let wr := o.isStore && !o.isFlush
  let pc := (x.ctl.headRun.map fun r => r.1).getD o.pc
  match x.ctl.stop with
  | none => s.takeFault a code pc l.va false wr l.lane o.logIx
  | some _ =>
    s.modAgent a (Agent.mapCtl fun c =>
      { c with more := c.more ++
          [{ code := code, pc := pc, addr := l.va, fetch := false, wr := wr, lane := l.lane, logIx := o.logIx,
             time := s.time, recorded := false, deferred := none }] })

/-- Parts that a restore has given back take request and miss entries again, in the issue order of their instructions, once there
is room for them (R91, R96, R221, R321, log 114). -/
def State.takesEntries (s : State) (x : Agent) (p : Place) (o : MemOp) : Bool :=
  !(x.flight.older o.id).any MemOp.waiting && s.roomFor p.core x.ident.tenant o.lines o.untranslated

/-- A page can be walked for an instruction: its L1 TLB holds it, the instruction holds a miss entry for it, or one can be
had (R91). -/
def State.missEntry (s : State) (x : Agent) (p : Place) (o : MemOp) (va : DWord) : Bool :=
  (s.pageOf p.core x.ident.tenant va).isSome || o.missed.any (fun k => PageName.has k va) ||
    s.missRoom p.core [s.pageName p.core x.ident.tenant va]

/-- PAGE_WALK: the lanes of an instruction that wait for one page get their locations, each its own (R90), or meet its fault,
which they share (R316). The page is that of the leaf, valid or not; where the walk finds none it is taken as 64 KiB (log 52).
A `core`-scope atomic of a page that the L1 does not cache meets the protection fault (R226). -/
def execPageWalk (agent op lane : Nat) (s : State) : Out :=
  match s.op? agent op with
  | none => .next s
  | some (x, p, o) =>
    match o.lanes.find? fun l => l.lane == lane && l.st.isFresh with
    | none => .next s
    | some l0 =>
      if o.waiting then
        if s.takesEntries x p o then
          .next (s.modOp agent op fun q =>
            { q with waiting := false, missed := s.missesOf p.core x.ident.tenant q.untranslated })
        else .next s
      else if !s.missEntry x p o l0.va then .next s
      else
      let want := if o.isLoad || o.isFlush then Want.read else .write
      let page := s.pageName p.core x.ident.tenant l0.va
      let (s1, r) := s.translateFor (reqOf p) p.core x.ident.tenant l0.va want
      let leaf := s1.pageOf p.core x.ident.tenant l0.va
      let here := fun (l : LaneOp) => l.st.isFresh && PageName.has page l.va
      let first := (o.lanes.find? here).getD l0
      let fail := fun (code : Nat) =>
        (s1.modOp agent op (MemOp.mapLanes here fun l => { l with st := .faulted code })).partFault agent x o code first
      match r with
      | .fault code => .next (fail code)
      | .ok t =>
        if o.isCoreAtomic && !t.inL1 then .next (fail codeProtection)
        else
          .next (s1.modOp agent op (MemOp.mapLanes here fun l =>
            { l with st := .ready, loc := some ((leaf.map fun (e : TlbEntry) => e.xlat l.va.toNat).getD t) }))

/-! ## LOAD_RETURN (R116 to R119, R221, R223) -/

/-- The byte of a location that the agent's own youngest older queued store holds (R118). -/
def forwarded (f : Flight) (id key : Nat) : Option Byte :=
  (((f.older id).filter MemOp.isPlainStore).flatMap fun q =>
    (q.lanes.filter fun (m : LaneOp) => m.st.isReady && decide (m.key ≤ key) && decide (key < m.key + q.width)).map fun (m : LaneOp) =>
      BitVec.setWidth 8 (m.x >>> (8 * (key - m.key)))).getLast?

/-- A byte and the mark of its granule as the L1 holds them, or as their home does. -/
def L1Line.byte (l : L1Line) (key : Nat) : Byte := (l.data >>> (8 * (key % 64))).setWidth 8

/-- Where a lane's load is served (R94, R117, R120, R130, R223): from the L1 line, from its home, or not yet. -/
def State.source (s : State) (core : Nat) (o : MemOp) (l : LaneOp) : Option (Option L1Line) :=
  let line := l.key / 64
  if l.inL1 && !o.acquiresWide then
    match kget (s.core core).l1 line with
    | some y => if s.drainedOn (fun a => a.core == core) line then none else some (some y)
    | none => none
  else if s.lineHeld core (.issued o.issued) line then none else some none

/-- What a lane reads: its bytes, and whether one of them came from a marked granule (R317). -/
def State.readLane (s : State) (f : Flight) (o : MemOp) (l : LaneOp) (src : Option L1Line) : DWord × Bool :=
  let one := fun (i : Nat) =>
    match forwarded f o.id (l.key + i) with
    | some b => (b, false)
    | none =>
      match src with
      | some y => (y.byte (l.key + i), y.marks.getLsbD ((l.key + i) % 64 / 32))
      | none => (s.byte (l.key + i), nhas s.memMark ((l.key + i) / 32))
  let bs := (List.range o.width).map one
  (BitVec.ofNat 64 (leVal (bs.map fun e => e.1)), bs.any fun e => e.2)

/-- The register form of a lane's result. -/
def MemOp.result (o : MemOp) (l : LaneOp) : DWord :=
  match o.kind with
  | .load k => LdKind.extend k l.val.toNat
  | _ => l.val

/-- A lane has performed; an atomic of the L1 unit has once its write-through is on its way. -/
def LaneOp.performed (l : LaneOp) : Bool :=
  match l.st with
  | .done => true
  | .drained => true
  | _ => false

/-- A scalar destination of an instruction that performs in several lanes (an `atom` with a scalar d and a vector b): the
manual does not say what it receives (R227, log 91). -/
def MemOp.openDst (o : MemOp) : Bool := o.vector && (o.dst.map fun d => !Opnd.isV d).getD false

/-- The destination is written once, in the lanes that performed (R221), a scalar one from the one lane that did, or with
`free` where that is open; the registers wait no more. -/
def MemOp.deliver (o : MemOp) (free : DWord) (x : Agent) : Agent :=
  let done := LaneOp.performed
  let m := maskOf fun i => o.lanes.any fun l => l.lane == i && done l
  let val := fun (i : Nat) => ((o.lanes.find? fun l => l.lane == i).map o.result).getD 0#64
  let marks := maskOf fun i => o.lanes.any fun l => l.lane == i && l.mark
  let y := match o.dst with
    | some (.v n) =>
      let z := x.giveV o.id n m (fun i => (val i).setWidth 32) marks
      if o.width = 8 then z.giveV o.id (n + 1) m (fun i => (val i >>> 32).setWidth 32) marks else z
    | some (.s n) =>
      if m = 0#32 then x
      else
        let v := if o.openDst then free else val (lowLane m)
        let z := x.giveS o.id n (v.setWidth 32) (marks != 0#32)
        if o.width = 8 then z.giveS o.id (n + 1) ((v >>> 32).setWidth 32) (marks != 0#32) else z
    | _ => x
  y.unpend o.id

/-- The pieces of an instruction's lanes, for its sample. -/
def MemOp.pieces (o : MemOp) : List (Nat × Nat) := o.lanes.map fun l => (l.va.toNat, o.width)

/-- A sampled instruction completes (R325). -/
def State.sampleOp (s : State) (x : Agent) (o : MemOp) : State :=
  if o.sampled then s.sampleOf x o.born o.pc o.act o.pieces else s

/-- An instruction with a result has performed in every lane: the result is written, and an acquire at `die` scope or wider
invalidates the L1 (R95). -/
def State.completeRead (s : State) (a id core : Nat) : State :=
  match s.op? a id with
  | none => s
  | some (x, _, o) =>
    if o.undone then s
    else
      let s0 := if o.openDst then s.tick else s
      let s1 := s0.setAgent a ((o.deliver (Config.freeDWord s.free) x).mapFlight (Flight.modOp id fun q =>
        { q with written := true }))
      let s2 := if o.acquiresWide then s1.invalL1 core else s1
      (s2.sampleOp x o).tidy a

/-- A lane of a load is served at its home: its page or its acquire passes the L1 by (R94, R95). -/
def MemOp.readsHome (o : MemOp) (l : LaneOp) : Bool := !l.inL1 || o.acquiresWide

/-- LOAD_RETURN: lanes of a load or gather read their bytes, those of one line at its home together (R96); when none is left the
destination is written. -/
def execLoadReturn (agent op : Nat) (lanes : Lanes) (s : State) : Out :=
  match s.op? agent op with
  | none => .next s
  | some (x, p, o) =>
    if !o.isLoad || !o.allAt lanes LaneSt.isReady ||
        !o.closed lanes (fun l k => k.st.isReady && o.readsHome l && o.readsHome k) then .next s
    else
      let mine := o.lanes.filter fun l => l.among lanes
      if mine.any (loadWaits x.flight o) || mine.any (fun l => (s.source p.core o l).isNone) then .next s
      else
        let read := fun (l : LaneOp) =>
          let r := s.readLane x.flight o l ((s.source p.core o l).getD none)
          { l with st := .done, val := r.1, mark := r.2 }
        let home := mine.filterMap fun l =>
          if ((s.source p.core o l).getD none).isNone then l.loc.map fun t => (t, o.width) else none
        .next (((s.modOp agent op (MemOp.mapLanes (fun l => l.among lanes) read)).homeReads (loadOrigin p o.qual)
          (dieOfCore p.core) home).completeRead agent op p.core)

/-! ## Stores (R115 to R117, R120) -/

/-- What a lane writes: a store its operand, an atomic of the L1 unit its result. -/
def MemOp.out (o : MemOp) (l : LaneOp) : DWord := if o.isPlainStore then l.x else l.y

def MemOp.cells (o : MemOp) (ls : List LaneOp) : List (Nat × Byte) :=
  ls.flatMap fun l => cellsAt l.key (leBytes o.width (o.out l).toNat)

/-- Bytes written into a line of the L1. -/
def L1Line.put (l : L1Line) (line : Nat) (cells : List (Nat × Byte)) : L1Line :=
  let mine := cells.filter fun c => c.1 / 64 == line
  let whole := wholeGranules mine
  { l with
    data := mine.foldl (fun (d : BitVec 512) (c : Nat × Byte) =>
      (d &&& ~~~(0xFF#512 <<< (8 * (c.1 % 64)))) ||| ((BitVec.setWidth 512 c.2) <<< (8 * (c.1 % 64)))) l.data
    marks := whole.foldl (fun m g => setBit m (g % 2) false) l.marks }

/-- The lines of a core's L1 that hold these bytes are updated (R18, R94). -/
def Core.putL1 (cells : List (Nat × Byte)) (c : Core) : Core :=
  { c with l1 := c.l1.map fun e => if cells.any (fun k => k.1 / 64 == e.1) then (e.1, e.2.put e.1 cells) else e }

/-- STORE_DRAIN: lanes of the oldest store leave the queue; the L1 line is updated and the stores are sent to their
homes. Lanes of an atomic of a wider scope are sent on their way too (R120). -/
def execStoreDrain (agent op : Nat) (lanes : Lanes) (s : State) : Out :=
  match s.op? agent op with
  | none => .next s
  | some (x, p, o) =>
    if o.isAtomic && !o.isCoreAtomic then
      if !o.allAt lanes LaneSt.isReady || !o.closed lanes (fun _ k => k.st.isReady) ||
          (o.lanes.filter fun l => l.among lanes).any (atomWaits x.flight o) then .next s
      else
        .next ({ s with sent := s.sent + 1 }.modOp agent op
          (MemOp.mapLanes (fun l => l.among lanes) fun l => { l with st := .sent, stamp := s.sent }))
    else if !o.isPlainStore || !o.allAt lanes LaneSt.isReady || !o.closed lanes (fun _ k => k.st.isReady) then .next s
    else
      let mine := o.lanes.filter fun l => l.among lanes
      if mine.any (drainWaits x.flight o) then .next s
      else
        let s1 := s.modCore p.core (Core.putL1 (o.cells (mine.filter LaneOp.inL1)))
        .next ({ s1 with sent := s1.sent + 1 }.modOp agent op
          (MemOp.mapLanes (fun l => l.among lanes) fun l => { l with st := .drained, stamp := s1.sent }))

/-- The lane's home is HBM of another die than this one. -/
def LaneOp.remote (l : LaneOp) (die : Nat) : Bool := isHbm l.key && homeDie l.key != die

/-- A write that left a core earlier goes first: one of the same core to the same bytes, or one of the same die on the path
to the same other die (R117, R120). -/
def State.earlierSent (s : State) (core w : Nat) (l : LaneOp) : Bool :=
  s.pathHeld (dieOfCore core) l.stamp l.key ||
  s.agents.any fun e => e.2.core == core && e.2.flight.ops.any fun q => q.lanes.any fun m =>
    m.st.onWay && decide (m.stamp < l.stamp) && overlap w l q.width m

/-- Lanes of a write perform at their homes as one write (R31, R97, R115). -/
def State.performAt (s : State) (p : Place) (o : MemOp) (ls : List LaneOp) : State :=
  let cells := o.cells ls
  ((s.write cells).wakeLines ((cells.map fun c => c.1 / 64).eraseDups)).homeWrites (storeOrigin p o.qual)
    (dieOfCore p.core) (ls.filterMap LaneOp.loc) cells

/-- The lines that n bytes from a location on touch. -/
def linesFrom (unit key n : Nat) : List Nat := (List.range ((key + n - 1) / unit - key / unit + 1)).map fun i => key / unit + i

/-- The lines of 4 KiB of a `cflush`, which no stripe divides (R90, R244): dirty sectors are written back, the core's copies
leave, and the next piece follows. -/
def State.flushPage (s : State) (a : Nat) (p : Place) (o : MemOp) (l : LaneOp) (t : Xlat) : State :=
  let n := min o.rest (4096 - l.va.toNat % 4096)
  let s1 := if t.cached then
      (linesFrom 256 t.key n).foldl (fun s line =>
        let k := ({ t with key := 256 * line } : Xlat).l2Key (dieOfCore p.core)
        match kget s.l2 k with
        | none => s
        | some y =>
          { s.hbmAsk (storeOrigin p o.qual) k y.dirty true false y.coded with l2 := kput s.l2 k { y with dirty := 0#8 } }) s
    else s
  let s2 := if t.cached then
      s1.modCore p.core fun c =>
        { c with l1 := c.l1.filter fun e => !(linesFrom 256 t.key n).any fun line => e.1 / 4 == line }
    else s1
  s2.modOp a o.id fun q =>
    { q with
      rest := q.rest - n
      lanes := [{ l with va := l.va + BitVec.ofNat 64 n, loc := none, st := if q.rest ≤ n then .done else .fresh }] }

/-- STORE_PERFORM: lanes that have left the core perform at their homes, in the order of their paths; an owned line holds
them (R130). A `cflush` acts on its next piece, after the agent's older writes. -/
def execStorePerform (agent op : Nat) (lanes : Lanes) (s : State) : Out :=
  match s.op? agent op with
  | none => .next s
  | some (x, p, o) =>
    if o.isFlush then
      match o.lanes with
      | [l] =>
        match l.loc with
        | some t =>
          if l.st.isReady && !(x.flight.older op).any fun q => q.isStore &&
              q.lanes.any fun m => m.st.isFresh || m.st.toDo || m.st.isDrained then
            .next (s.flushPage agent p o l t)
          else .next s
        | none => .next s
      | _ => .next s
    else if !o.allAt lanes LaneSt.isDrained || !o.closed lanes (fun l k => k.st.isDrained && l.stamp == k.stamp) then .next s
    else
      let mine := o.lanes.filter fun l => l.among lanes
      if mine.any (s.earlierSent p.core o.width) || mine.any (fun l => s.ownedLine (.issued o.issued) l.key) then .next s
      else
        .next (((s.performAt p o mine).modOp agent op
          (MemOp.mapLanes (fun l => l.among lanes) fun l => { l with st := .done })).tidy agent)

/-- The write of a lane is acknowledged at a scope (R120): at system scope a store of host memory only in a line that the slice
owns (R98). -/
def State.laneAcked (s : State) (die : Nat) (sc : Scope) (l : LaneOp) : Bool :=
  let tier3 := (l.loc.map fun x => x.tier == 3).getD false
  match sc with
  | .core => l.st.isOver || (l.st.onWay && (l.remote die || tier3))
  | .die => l.st.isOver || (l.st.onWay && (l.remote die || tier3))
  | .device => l.st.isOver || (l.st.onWay && tier3)
  | .system =>
    l.st.isOver &&
      match l.loc with
      | some x => x.tier != 2 || l.st == .dropped || ((kget s.l2 (x.l2Key die)).map L2Line.owned).getD false
      | none => true

def MemOp.acked (o : MemOp) : Scope → Bool
  | .core => o.ackDie
  | .die => o.ackDie
  | .device => o.ackDev
  | .system => o.ackSys

def MemOp.ack (sc : Scope) (o : MemOp) : MemOp :=
  match sc with
  | .core => { o with ackDie := true }
  | .die => { o with ackDie := true }
  | .device => { o with ackDev := true }
  | .system => { o with ackSys := true }

/-- STORE_ACKNOWLEDGE: an instruction leaves the count of a scope. -/
def execStoreAcknowledge (agent op : Nat) (sc : Scope) (s : State) : Out :=
  match s.op? agent op with
  | none => .next s
  | some (x, p, o) =>
    if !o.isStore || o.acked sc || o.rest ≠ 0 || !o.lanes.all (s.laneAcked (dieOfCore p.core) sc) then .next s
    else
      let last := !o.returns && (o.ack sc).finished
      let s1 := s.modOp agent op (MemOp.ack sc)
      .next ((if last then s1.sampleOp x o else s1).tidy agent)

/-! ## RELEASE_PROCEED (R121, R230, R278, R298, R300) -/

/-- The hold ends: the lanes that waited advance. -/
def Agent.goOn (x : Agent) : Agent :=
  x.mapCtl fun c => { c.advance c.waitRun 8 with hold := .none, waitRun := 0#32, waitSince := none }

/-- Every older load has performed and is written. -/
def Flight.loadsWritten (f : Flight) : Bool :=
  f.ops.all fun o => !(o.isLoad || (o.isAtomic && o.returns)) || (!o.undone && (!o.returns || o.written))

/-- Every unexited lane that is parked goes on: the one condition that they wait for, an entry, has come in place of their own
(R278, R300, log 112). -/
def Agent.unparkAll (x : Agent) : Agent := x.mapCtl fun c => { c with parked := 0#32, parks := [] }

/-- The end of a `fence`, of the release of an `fdefer` and of its wait, or of the wait of a `set.free`. -/
def State.holdRelease (s : State) (a : Nat) (x : Agent) : State :=
  match x.ctl.hold with
  | .fence o sc =>
    if (Order.isRel o && !s.releaseReady x sc x.flight.nextOp) || (Order.isAcq o && !x.flight.loadsWritten) then s
    else
      let s1 := s.setAgent a x.goOn
      if Order.isAcq o && Scope.wide sc then s1.invalL1 x.core else s1
  | .fdefer addr len pool released parked =>
    if !released then
      if s.releaseReady x .device x.flight.nextOp then
        s.setAgent a (x.mapCtl fun c => { c with hold := .fdefer addr len pool true false })
      else s
    else if s.latigoRoom x.die x.ident.tenant then
      let t := (s.tenant x.ident.tenant).issued
      ((s.setAgent a (if parked then x.goOn.unparkAll else x.goOn)).modDie x.die fun d =>
        { d with latigo := d.latigo ++
            [{ tenant := x.ident.tenant, target := t, kind := .block addr len.toNat pool.toNat, seq := x.eng.seq }] })
    else s.setAgent a (x.mapCtl fun c => { c with hold := .fdefer addr len pool true true })
  | .setFree =>
    if s.latigoRoom x.die x.ident.tenant then
      s.setAgent a (x.mapCtl fun c => { c with hold := .none, waitRun := 0#32, waitSince := none }).unparkAll
    else s
  | _ => s

/-- RELEASE_PROCEED: an instruction with release semantics performs its release; number 0 names what the agent waits in. -/
def execReleaseProceed (agent op : Nat) (s : State) : Out :=
  match s.agent? agent with
  | none => .next s
  | some x =>
    if x.place.isNone then .next s
    else if op = 0 then
      if x.ctl.stop.isSome then .next s else .next (s.holdRelease agent x)
    else
      match x.flight.ops.find? fun o => o.id == op with
      | some o =>
        if !o.released && s.releaseReady x o.scope op then
          .next (s.modOp agent op fun q => { q with released := true })
        else .next s
      | none =>
        if x.flight.gstarts.any (fun g => g.1 == op && !g.2.2) && s.releaseReady x .device op then
          .next (s.modAgent agent (Agent.mapFlight fun f =>
            { f with gstarts := f.gstarts.map fun g => if g.1 = op then (g.1, g.2.1, true) else g }))
        else .next s

/-! ## Atomics (R125, R226, R227, R229) -/

/-- A sum of an atomic (R226). -/
def atomAdd (k : AKind) (m x : DWord) : DWord :=
  match k with
  | .f32 => (fAdd false .f32 .rne m x).1
  | .n32 => (m + x) &&& 0xFFFFFFFF#64
  | .i32 => (m + x) &&& 0xFFFFFFFF#64
  | _ => m + x

/-- m is below x in the order of the kind. -/
def atomLess (k : AKind) (m x : DWord) : Bool :=
  match k with
  | .i32 => (m.setWidth 32).slt (x.setWidth 32)
  | .i64 => m.slt x
  | .n64 => m.ult x
  | _ => (m.setWidth 32).ult (x.setWidth 32)

/-- The new value at the location (R226): x is the operand, or for `cas` the value compared, and y its second operand. -/
def atomNew (op : AOp) (k : AKind) (m x y : DWord) : DWord :=
  match op with
  | .add => atomAdd k m x
  | .min => if atomLess k x m then x else m
  | .max => if atomLess k m x then x else m
  | .and => m &&& x
  | .or => m ||| x
  | .xor => m ^^^ x
  | .xchg => x
  | .cas => if m = x then y else m

/-- The operation and kind of an atomic instruction. -/
def MemOp.atomic (o : MemOp) : Option (AOp × AKind) :=
  match o.kind with
  | .atom op k => some (op, k)
  | .red op k => some (op, k)
  | .redRet op k => some (op, k)
  | _ => none

/-- An operand in the width of its kind. -/
def atomOperand (k : AKind) (x : DWord) : DWord := if AKind.wide k then x else x &&& 0xFFFFFFFF#64

/-- Lanes of an atomic take effect one after the other on bytes read through `rd` and marks read through `mk`; what an
earlier lane wrote is what a later one reads. -/
def atomRun (op : AOp) (k : AKind) (rd : Nat → DWord) (mk : Nat → Bool) : List LaneOp → List (Nat × DWord) → List LaneOp
  | [], _ => []
  | l :: t, wrote =>
    let m := ((wrote.find? fun e => e.1 == l.key).map fun e => e.2).getD (rd l.key)
    let y := atomNew op k m (atomOperand k l.x) (atomOperand k l.y)
    { l with val := m, y := y, mark := mk l.key } :: atomRun op k rd mk t ((l.key, y) :: wrote)

/-- A lane of an atomic at its home slice waits for what its die sent on the path before it, for what its core sent to the
line, and for an engine's line (R117, R120, R130). -/
def State.atomHeld (s : State) (core : Nat) (o : MemOp) (l : LaneOp) : Bool :=
  let before := if l.st.isReady then s.sent else l.stamp
  s.ownedLine (.issued o.issued) l.key || s.pathHeld (dieOfCore core) before l.key ||
  s.agents.any fun e => e.2.core == core && e.2.flight.ops.any fun q => q.lanes.any fun m =>
    m.st.onWay && decide (m.stamp < before) && m.key / 64 == l.key / 64

/-- The old values of a `red.ret` go to their ABUF targets, each followed by its arrival (R124, R229). -/
def sendReturns (g w : Nat) (cores : List (Nat × Nat)) : List LaneOp → State → State
  | [], s => s
  | l :: t, s =>
    let tp := tgtPos l.target
    let b : BufAt := ⟨g, tp, ((cores.find? fun e => e.1 == tp).map fun e => e.2).getD 0, .abuf⟩
    let s1 := s.bufWrite b (cellsAt (tgtOff l.target) (leBytes w l.val.toNat))
    let s2 := if l.mark then s1.bufMarkRows b (tgtOff l.target) w else s1
    sendReturns g w cores t (s2.barSend g tp (tgtBar l.target) .arrive)

/-- The lanes whose old values can go to their targets: performed, not gone yet, with no lower lane of the same target still
to perform (R229). -/
def backNow (ls : List LaneOp) : List LaneOp :=
  ls.filter fun l => l.performed && !l.back &&
    ls.all fun k => decide (l.lane ≤ k.lane) || k.target != l.target || k.performed || k.st.isOver

/-- The returns of a `red.ret` that can go (R229). -/
def State.sendBack (s : State) (a id : Nat) : State :=
  match s.agent? a with
  | none => s
  | some x =>
    match x.flight.ops.find? fun o => o.id == id with
    | none => s
    | some o =>
      match o.kind with
      | .redRet _ _ =>
        let ls := backNow o.lanes
        sendReturns x.ident.gang o.width (s.gangCores x.ident.gang) ls
          (s.modOp a id (MemOp.mapLanes (fun l => ls.any fun k => k.lane == l.lane) fun l => { l with back := true }))
      | _ => s

/-- What follows an atomic's performing: the returns of `red.ret`, the result of `atom`. -/
def State.afterAtom (s : State) (a : Nat) (p : Place) (o : MemOp) : State :=
  match o.kind with
  | .atom _ _ => s.completeRead a o.id p.core
  | .redRet _ _ => (s.sendBack a o.id).tidy a
  | _ => s.tidy a

/-- ATOMIC_PERFORM: lanes of an atomic perform, in the L1 atomic unit or at their home slice, which reads the sectors that it
does not hold (R97, R226); the lanes of one line together (R96, R227). -/
def execAtomicPerform (agent op : Nat) (lanes : Lanes) (s : State) : Out :=
  match s.op? agent op with
  | none => .next s
  | some (x, p, o) =>
    match o.atomic with
    | none => .next s
    | some (aop, k) =>
      let mine := o.lanes.filter fun l => l.among lanes
      if !o.allAt lanes LaneSt.toDo || !o.closed lanes (fun l k => k.st.toDo && l.st == k.st && l.stamp == k.stamp) || mine.any (atomWaits x.flight o) then .next s
      else
        let act := if o.single then mine.take 1 else mine
        let spread := fun (r : List LaneOp) (l : LaneOp) =>
          ((if o.single then r.head? else r.find? fun q => q.lane == l.lane)).getD l
        if o.isCoreAtomic then
          let lines := mine.map fun l => l.key / 64
          let l1 := (s.core p.core).l1
          if lines.any fun n => (kget l1 n).isNone || s.drainedOn (fun y => y.core == p.core) n then .next s
          else
            let rd := fun key => BitVec.ofNat 64 (((kgetD ⟨0, 0, 0⟩ l1 (key / 64)).data.toNat / 2 ^ (8 * (key % 64))) %
              2 ^ (8 * o.width))
            let mk := fun key => (kgetD ⟨0, 0, 0⟩ l1 (key / 64)).marks.getLsbD (key % 64 / 32)
            let r := atomRun aop k rd mk act []
            let s1 := s.modCore p.core (Core.putL1 (r.flatMap fun l => cellsAt l.key (leBytes o.width l.y.toNat)))
            let s2 := { s1 with sent := s1.sent + 1 }.modOp agent op (MemOp.mapLanes (fun l => l.among lanes) fun l =>
              let q := spread r l
              { l with st := .drained, stamp := s1.sent, val := q.val, y := q.y, mark := q.mark })
            .next (s2.afterAtom agent p o)
        else if mine.any (s.atomHeld p.core o) then .next s
        else
          let r := atomRun aop k (fun key => BitVec.ofNat 64 (s.le key o.width)) (fun key => s.marked key o.width) act []
          let cells := r.flatMap fun l => cellsAt l.key (leBytes o.width l.y.toNat)
          let asked := s.homeReads (loadOrigin p o.qual) (dieOfCore p.core)
            ((mine.filterMap LaneOp.loc).map fun t => (t, o.width))
          let s1 := ((asked.write cells).wakeLines ((cells.map fun c => c.1 / 64).eraseDups)).homeWrites (loadOrigin p o.qual)
            (dieOfCore p.core) (mine.filterMap LaneOp.loc) cells
          let s2 := s1.modCore p.core fun c =>
            { c with l1 := c.l1.filter fun e => !cells.any fun y => y.1 / 64 == e.1 }
          let s3 := s2.modOp agent op (MemOp.mapLanes (fun l => l.among lanes) fun l =>
            let q := spread r l
            { l with st := .done, val := q.val, mark := q.mark })
          .next (s3.afterAtom agent p o)

/-! ## Buffer accesses (R17, R118, R225) -/

/-- A buffer access must wait for older work of its agent: a store for every older buffer access, a load for older loads
and for older stores at its bank (R118); both for an open acquire (R121). -/
def bufWaits (f : Flight) (o : BufOp) (l : BufLane) : Bool :=
  f.acquireWaits o.id ||
  f.bufOps.any fun q => decide (q.id < o.id) && q.lanes.any fun m => !m.done &&
    (o.store || !q.store || (q.buf == o.buf && bankOf q.buf m.off == bankOf o.buf l.off))

/-- The destination of a buffer load is written once, when every lane has read. -/
def BufOp.deliver (o : BufOp) (x : Agent) : Agent :=
  let m := maskOf fun i => o.lanes.any fun l => l.lane == i
  let val := fun (i : Nat) => ((o.lanes.find? fun l => l.lane == i).map fun l => LdKind.extend o.k l.val.toNat).getD 0#64
  let marks := maskOf fun i => o.lanes.any fun l => l.lane == i && l.mark
  let y := match o.dst with
    | some (.v n) =>
      let z := x.giveV o.id n m (fun i => (val i).setWidth 32) marks
      if o.width = 8 then z.giveV o.id (n + 1) m (fun i => (val i >>> 32).setWidth 32) marks else z
    | some (.s n) =>
      let v := val (lowLane m)
      let z := x.giveS o.id n (v.setWidth 32) (marks != 0#32)
      if o.width = 8 then z.giveS o.id (n + 1) ((v >>> 32).setWidth 32) (marks != 0#32) else z
    | _ => x
  y.unpend o.id

/-- A buffer access whose lanes have all performed leaves. -/
def State.bufDone (s : State) (a id : Nat) : State :=
  s.modAgent a fun x =>
    match x.flight.bufOps.find? fun o => o.id == id with
    | none => x
    | some o =>
      if o.lanes.all BufLane.done then
        (if o.store then x else o.deliver x).mapFlight fun f => { f with bufOps := f.bufOps.filter fun q => q.id != id }
      else x

/-- Lanes of a buffer access that lie in the row of 32 bytes of one of these are among them: a bank serves a row in one access
(R15, R132). -/
def BufOp.rows (o : BufOp) (m : Lanes) : Bool :=
  o.lanes.all fun l => !m.getLsbD l.lane || o.lanes.all fun k => m.getLsbD k.lane || k.done || k.off / 32 != l.off / 32

/-- BUFFER_ACCESS_PERFORM: lanes of a buffer access perform at their banks, a row at once; engine accesses to these banks come
in a later clock (R17). -/
def execBufferAccessPerform (agent op : Nat) (lanes : Lanes) (s : State) : Out :=
  match s.agent? agent with
  | none => .next s
  | some x =>
    match x.place, x.flight.bufOps.find? fun o => o.id == op with
    | some p, some o =>
      let mine := o.lanes.filter fun l => lanes.getLsbD l.lane
      if mine.isEmpty || mine.any (fun l => l.done) || !o.rows lanes || mine.any (bufWaits x.flight o) then .next s
      else
        let b : BufAt := ⟨x.ident.gang, s.posOf x, p.core, o.buf⟩
        let s1 := if o.store then
            s.bufWrite b (mine.flatMap fun l => cellsAt l.off (leBytes o.width l.x.toNat))
          else s
        let hit := fun (l : BufLane) =>
          if lanes.getLsbD l.lane then
            if o.store then { l with done := true }
            else { l with done := true, val := BitVec.ofNat 64 (s.bufLe b l.off o.width), mark := s.bufAnyMark b l.off o.width }
          else l
        let s2 := { s1 with banks := s1.banks ++ mine.map fun (l : BufLane) => (p.core, bankNo o.buf l.off) }
        .next ((s2.modAgent agent (Agent.mapFlight fun f =>
          { f with bufOps := f.bufOps.map fun q => if q.id = op then { q with lanes := q.lanes.map hit } else q })).bufDone
          agent op)
    | _, _ => .next s

end Sys2Proof.Machine
end

