-- ==== Sys2Proof/Machine/Caches.lean ====
section
/-! DEFINITION. Fills of the L1, the L2 and the instruction caches (R20, R94, R97), ownership of host lines (R98), the HBM
channels (R102 to R107), walks (R108, R239), and the end of an `l1cfg` (R240). A step whose condition does not hold leaves
the state as it is. -/

namespace Sys2Proof.Machine

/-! ## L1 and instruction caches -/

/-- A lane waits for its line of the core's L1, which does not hold it (R94). -/
def MemOp.waitsForL1 (o : MemOp) (l1 : KMap L1Line) (l : LaneOp) : Bool :=
  ((o.isLoad && !o.acquiresWide) || o.isCoreAtomic) && l.st.isReady && l.inL1 && (kget l1 (l.key / 64)).isNone

/-- An instruction that waits for a line of its core's L1, with its place (R94). -/
def State.wantsLine (s : State) (core line : Nat) : Option (Place × MemOp) :=
  s.agents.findSome? fun e =>
    match e.2.place with
    | none => none
    | some p =>
      if p.core != core then none
      else
        (e.2.flight.ops.find? fun o => o.lanes.any fun l =>
          o.waitsForL1 (s.core core).l1 l && l.key / 64 == line).map fun o => (p, o)

/-- L1_FILL (R94, R96): a line that a load or an atomic of the L1 unit waits for is read at its home into a way of the cache,
by one request with those of its 256 bytes that the instruction waits for too. -/
def execL1Fill (core line way : Nat) (s : State) : Out :=
  match s.wantsLine core line with
  | none => .next s
  | some (p, o) =>
    let wanted := o.lanes.filter fun l => o.waitsForL1 (s.core core).l1 l && l.key / 256 == line / 4
    let lines := (wanted.map fun l => l.key / 64).eraseDups
    if way ≥ (s.core core).cacheWays || lines.any (s.lineHeld core (.issued o.issued)) then .next s
    else
      let asked := s.homeReads (loadOrigin p o.qual) (dieOfCore core)
        (wanted.filterMap fun l => l.loc.map fun t => ({ t with key := t.key / 64 * 64 }, 64))
      .next (lines.foldl (fun r n => r.fillL1 core n (if n = line then way else (r.core core).pickWay n)) asked)

/-- An active agent of a partition, which is not stopped, waits for this line of instructions (R20). -/
def State.wantsCode (s : State) (core part line : Nat) : Option (Place × Nat × Xlat) :=
  s.agents.findSome? fun e =>
    match e.2.place, e.2.ctl.headRun with
    | some p, some (pc, _) =>
      if p.core == core && p.part == part then
        match (s.fetch p e.2.ident.tenant pc).2 with
        | .miss x => if x.key / 128 == line then some (p, e.2.ident.tenant, x) else none
        | _ => none
      else none
    | _, _ => none

/-- ICACHE_FILL (R20): a line that fetch waits for is filled from its home, unless its read is held there (R120, R130). -/
def execIcacheFill (core part line : Nat) (drop : Option Nat) (s : State) : Out :=
  match s.wantsCode core part line with
  | none => .next s
  | some (p, t, x) => if s.codeHeld p x.key then .next s else .next (s.codeFill p t x drop)

/-! ## The L2 (R97, R98) -/

/-- L2_FILL (R97): sectors that have come from HBM enter their line; a full set gives up the line named, else its first
(log 75). -/
def execL2Fill (ix : Nat) (victim : Option Nat) (s : State) : Out :=
  match s.fills[ix]? with
  | none => .next s
  | some (line, mask, coded) =>
    let s1 := { s with fills := s.fills.eraseIdx ix }.l2Room line victim
    let l := (kget s1.l2 line).getD { L2Line.absent with coded := coded }
    .next { s1 with l2 := kput s1.l2 line { l with valid := l.valid ||| mask } }

/-- A write to host memory that has not been acknowledged at system scope needs this line owned (R98, R120). -/
def State.wantsHost (s : State) (line : Nat) : Bool :=
  s.agents.any fun e => e.2.place.isSome && e.2.flight.ops.any fun o => o.isStore && !o.ackSys && o.lanes.any fun l =>
    (l.loc.map fun x => x.tier == 2 && x.l2Key e.2.die == line).getD false

/-- CXL_OWNERSHIP (R98): a slice obtains ownership of a host line that it holds or that a write needs; another die that owned
it gives it up. -/
def execCxlOwnership (line : Nat) (s : State) : Out :=
  if (hostLine line).isNone || (kgetD L2Line.absent s.l2 line).owned || !((kget s.l2 line).isSome || s.wantsHost line) then
    .next s
  else .next (s.ownHost line)

/-! ## HBM channels (R102 to R107) -/

/-- r goes before q: the higher class, then the earlier deadline with none last, then the older (R104). -/
def HbmReq.before (r q : HbmReq) : Bool :=
  if r.cls != q.cls then decide (r.cls < q.cls)
  else
    match r.deadline, q.deadline with
    | some a, some b => if a != b then decide (a < b) else decide (r.id < q.id)
    | some _, none => true
    | none, some _ => false
    | none, none => decide (r.id < q.id)

/-- The request that goes before all others of a list. -/
def pickReq : List HbmReq → Option HbmReq
  | [] => none
  | r :: t =>
    match pickReq t with
    | none => some r
    | some q => if r.before q then some r else some q

/-- A missed deadline is counted for its requester, once for a request; the counter stops at its top (R104). -/
def State.countMiss (s : State) (req : Nat) : State :=
  let n := kgetD 0#32 s.device.missed req
  { s with device := { s.device with
      missed := ksetD 0#32 s.device.missed req (if n = 0xFFFFFFFF#32 then n else n + 1) } }

/-- A request has run past its deadline uncounted. -/
def HbmReq.late (r : HbmReq) (now : Nat) : Bool := !r.missed && (r.deadline.map fun d => decide (d < now)).getD false

/-- The granules of a line that a mask names. -/
def maskGranules (line : Nat) (m : BitVec 8) : List Nat := ((List.range 8).filter m.getLsbD).map fun i => 8 * line + i

/-- HBM_REQUEST_SERVICE (R104, R105, R107): of the requests of a stack that the channel schedulers can issue, the first in
their order is served. A change of the lanes of the stack holds all of them (R106). -/
def execHbmRequestService (stack : Nat) (issuable : List Nat) (s : State) : Out :=
  if (kget s.device.sliBusy stack).isSome then .next s
  else
    match pickReq (s.hbm.filter fun r => r.stack == stack && issuable.contains r.id) with
    | none => .next s
    | some r =>
      let rest := s.hbm.filter fun q => q.id != r.id
      let bank := Config.bankOf r.line
      let row := Config.rowOf r.line
      let sameRow := fun (q : HbmReq) => decide (Config.bankOf q.line = bank ∧ Config.rowOf q.line = row)
      let heir := if r.lu then (rest.find? sameRow).map HbmReq.id else none
      let close := r.lu && heir.isNone
      let s1 := if r.late s.time then s.countMiss r.req else s
      let gs := maskGranules r.line r.mask
      .next { s1 with
        hbm := rest.map fun (q : HbmReq) => if some q.id = heir then { q with lu := true } else q
        rows := ksetD 0 s1.rows bank (if close then 0 else row + 1)
        fills := if r.write || !r.alloc then s1.fills else s1.fills ++ [(r.line, r.mask, r.coded)]
        coded := if r.write then gs.foldl (fun c g => if r.coded then nins g c else ndel g c) s1.coded else s1.coded }

/-- DEADLINE_MISS (R104): a waiting request of this requester has passed its deadline. -/
def execDeadlineMiss (req : Nat) (s : State) : Out :=
  match s.hbm.find? fun r => r.req == req && r.late s.time with
  | none => .next s
  | some r =>
    .next ({ s with hbm := s.hbm.map fun (q : HbmReq) => if q.id = r.id then { q with missed := true } else q }.countMiss req)

/-! ## Walks (R108, R109, R239) -/

/-- A read that a hop has made: address, location, bytes; with no location, its walk alone, which refused it. -/
structure HopAt where
  va : DWord
  x : Option Xlat
  n : Nat
  deriving DecidableEq, Repr

/-- What a hop's read gives: a value, a status that ends the lane (with the read, where one was made), or a read that must
wait. -/
inductive HopRead where
  | val (v : Nat) (r : HopAt)
  | stop (status : Nat) (r : List HopAt)
  | wait
  deriving DecidableEq, Repr

/-- One read of n bytes: alignment first, then translation, tier, and poison (R108, R239). -/
def State.hopRead (s : State) (core tenant : Nat) (va : DWord) (n align : Nat) : HopRead :=
  if va.toNat % align ≠ 0 then .stop 6 []
  else
    match (s.translate core tenant va .read).2 with
    | .fault code => .stop (if code = codeTranslation then 2 else 3) [⟨va, none, n⟩]
    | .ok x =>
      if x.tier ≥ 2 then .stop 5 [⟨va, none, n⟩]
      else if s.reachHeld (dieOfCore core) .any x.key then .wait
      else if s.marked x.key n then .stop 4 [⟨va, some x, n⟩]
      else .val (s.le x.key n) ⟨va, some x, n⟩

/-- What a hop does: the lane goes on at p, ends with a status where it stands, or waits; and the reads made. -/
inductive Hop where
  | go (p : DWord) (reads : List HopAt)
  | stop (status : Nat) (reads : List HopAt)
  | wait
  deriving DecidableEq, Repr

/-- One hop of a lane (R108). -/
def State.hop (s : State) (core tenant : Nat) (c : Chase) (l : ChaseLane) : Hop :=
  match c.mode with
  | 0 =>
    match s.hopRead core tenant (l.p + c.off.signExtend 64) 8 8 with
    | .stop k r => .stop k r
    | .wait => .wait
    | .val q x => if q = 0 then .stop 0 [x] else .go (BitVec.ofNat 64 q) [x]
  | 1 =>
    match s.hopRead core tenant l.p 4 4 with
    | .stop k r => .stop k r
    | .wait => .wait
    | .val v x => .go (c.base + BitVec.ofNat 64 (4 * v)) [x]
  | _ =>
    match s.hopRead core tenant l.p 8 8 with
    | .stop k r => .stop k r
    | .wait => .wait
    | .val ptr x =>
      match s.hopRead core tenant (l.p + 8#64) 4 4 with
      | .stop k r => .stop k (x :: r)
      | .wait => .wait
      | .val len y =>
        if len = 0 then .stop 0 [x, y]
        else
          let i := (mixer l.seed (BitVec.ofNat 32 l.hops)).toNat % len
          match s.hopRead core tenant (BitVec.ofNat 64 (ptr + 4 * i)) 4 4 with
          | .stop k r => .stop k (x :: y :: r)
          | .wait => .wait
          | .val v z => .go (c.base + BitVec.ofNat 64 (16 * v)) [x, y, z]

def Flight.modChase (id : Nat) (f : Chase → Chase) (fl : Flight) : Flight :=
  { fl with chases := fl.chases.map fun c => if c.id = id then f c else c }

def Chase.modLane (lane : Nat) (f : ChaseLane → ChaseLane) (c : Chase) : Chase :=
  { c with lanes := c.lanes.map fun l => if l.lane = lane then f l else l }

/-- No hop of the walk has been taken. -/
def Chase.unstarted (c : Chase) : Bool := c.lanes.all fun l => l.hops == 0 && (l.status.isNone || l.limit == 0)

/-- The result word (R239). -/
def ChaseLane.word (l : ChaseLane) : Word := BitVec.ofNat 32 (256 * l.hops + l.status.getD 0)

/-- The destinations are written once, when every active lane has ended. -/
def Chase.deliver (c : Chase) (x : Agent) : Agent :=
  let lane := fun (i : Nat) => c.lanes.find? fun l => l.lane == i
  let p := fun (i : Nat) => ((lane i).map ChaseLane.p).getD 0#64
  (((x.giveV c.id c.d c.act (fun i => (p i).setWidth 32) 0#32).giveV c.id (c.d + 1) c.act
    (fun i => (p i >>> 32).setWidth 32) 0#32).giveV c.id (c.d + 2) c.act
    (fun i => ((lane i).map ChaseLane.word).getD 0#32) 0#32).unpend c.id

/-- Die and stack of the awl engine that carries a walk (log 83), and the walk as its records name it (R322). -/
def Chase.awl (core : Nat) (c : Chase) : Nat × Nat :=
  let e := Config.awlEngine core c.seq.toNat
  (e.1 % 4, e.2 % 2)
def Chase.name (x : Agent) (c : Chase) : CmdName :=
  ⟨x.ident, c.seq, 7 * 4096 + (c.awl x.core).1 * 1024 + (c.awl x.core).2 * 16, c.label, 0⟩

/-- The requests of a hop's reads and of the walks of their pages, for the engine of the walk (R102, R103). -/
def State.hopAsks (s : State) (core tenant : Nat) (c : Chase) (rs : List HopAt) : State :=
  let req := reqOfEngine 7 (c.awl core).1 (c.awl core).2 0
  (rs.foldl (fun s r => ((s.walkAsks req core tenant r.va).translate core tenant r.va .read).1) s).homeReads
    ⟨1, 16, req, false⟩ (dieOfCore core) (rs.filterMap fun r => r.x.map fun x => (x, r.n))

/-- The reads of these that reached memory, as a sample counts them (R325). -/
def hopPieces (rs : List HopAt) : List (Nat × Nat) := (rs.filter fun r => r.x.isSome).map fun r => (r.va.toNat, r.n)

/-- A walk all of whose lanes have ended delivers and leaves. -/
def State.chaseDone (s : State) (a id : Nat) : State :=
  match s.agent? a with
  | none => s
  | some x =>
    match x.flight.chases.find? fun c => c.id == id with
    | none => s
    | some c =>
      if c.lanes.all fun l => l.status.isSome then
        let s1 := s.setAgent a ((c.deliver x).mapFlight fun f => { f with chases := f.chases.filter fun q => q.id != id })
        (if c.sampled then s1.sampleOf x c.born c.pc c.act c.touched else s1).trace (c.name x) .finish 0
      else s

/-- A walk that a restore has given back takes its request entries again once there is room for them (R96, R239, R321). -/
def State.chaseEntries (s : State) (core : Nat) (c : Chase) : Bool := decide (s.requestsHeld core + c.open ≤ 4096)

/-- CHASE_HOP (R108, R129, R239, R323): a lane of a walk takes its next hop; the walk starts once the older work of its issuer
is done, and an engine breakpoint holds it first. -/
def execChaseHop (agent op lane : Nat) (s : State) : Out :=
  match s.agent? agent with
  | none => .next s
  | some x =>
    match x.place, x.flight.chases.find? fun c => c.id == op with
    | some p, some c =>
      if c.held then .next s
      else if c.waiting then
        if s.chaseEntries p.core c then
          .next (s.modAgent agent (Agent.mapFlight (Flight.modChase op fun q => { q with waiting := false })))
        else .next s
      else if !c.released && c.unstarted && s.engineBreak x 7 c.seq then
        .next ((s.modAgent agent (Agent.mapFlight (Flight.modChase op fun q => { q with held := true }))).reportHeld x
          c.seq (c.name x).engine)
      else if c.unstarted && !s.engineReady x op then .next s
      else
        let s0 := if c.unstarted then s.trace (c.name x) .start 0 else s
        match c.lanes.find? fun l => l.lane == lane && l.status.isNone with
        | none => .next (if c.lanes.all (fun l => l.status.isSome) then s0.chaseDone agent op else s)
        | some l =>
          let put := fun (rs : List HopAt) (f : ChaseLane → ChaseLane) =>
            ((s0.hopAsks p.core x.ident.tenant c rs).modAgent agent (Agent.mapFlight (Flight.modChase op fun q =>
              { q.modLane lane f with touched := q.touched ++ hopPieces rs }))).chaseDone agent op
          match s.hop p.core x.ident.tenant c l with
          | .wait => .next s
          | .stop k reads => .next (put reads fun q => { q with status := some k })
          | .go q reads =>
            .next (put reads fun y =>
              { y with p := q, hops := y.hops + 1, status := if y.hops + 1 ≥ y.limit then some 1 else none })
    | _, _ => .next s

/-! ## L1_CONVERSION (R240) -/

/-- A buffer access of the core that has not performed reaches the ways from way count n up. -/
def State.bufAbove (s : State) (core n : Nat) : Bool :=
  s.agents.any fun e => e.2.core == core && e.2.flight.bufOps.any fun o =>
    o.buf == .abuf && o.lanes.any fun l => !l.done && decide (262144 ≤ l.off) && decide (l.off + o.width > 262144 + n * 16384)

/-- L1_CONVERSION: the change asked for takes effect, once nothing reaches the ways that return to the cache. -/
def execL1Conversion (core : Nat) (s : State) : Out :=
  let x := s.core core
  if !x.converting then .next s
  else if x.waysAsked < x.ways &&
      (s.bufAbove core x.waysAsked || x.copies.any (fun k => k.cancel) || x.tools.any (fun k => k.cancel) ||
        s.cores.any fun c => c.2.copies.any fun k => k.cancel && s.multicastTo core k) then .next s
  else
    let n := x.waysAsked
    let top := (min n x.ways) * 16384
    .next (s.setCore core
      { x with
        ways := n
        converting := false
        wayMem := x.wayMem.filter fun e => decide (e.1 < top)
        wayMark := x.wayMark.filter fun g => decide (32 * g < top) })

end Sys2Proof.Machine
end

