-- ==== Sys2Proof/Machine/Warps.lean ====
section
/-! DEFINITION. The steps of grace periods (R134 to R137, R296 to R302), of barriers and waits (R31, R210, R290 to R293), of
user traps (R304, R307), and of the warps and tasks of a core (R34, R36, R40 to R42, R242). A step whose condition does not
hold leaves the state as it is. -/

namespace Sys2Proof.Machine

/-! ## Standing of an agent -/

/-- The gang of an agent is being run: no save of it is under way. -/
def State.runs (s : State) (x : Agent) : Bool := ((s.gangOf x).map fun g => g.phase == .running).getD true

/-- The agent has a place, is not stopped, and its gang runs: what it waits for may come about. -/
def State.live (s : State) (x : Agent) : Bool := x.place.isSome && x.ctl.stop.isNone && s.runs x

/-- It waits for nothing after issue. -/
def Agent.free (x : Agent) : Bool :=
  match x.ctl.hold with
  | .none => true
  | _ => false

/-- It offers an instruction (R30, R31). -/
def Agent.offers (x : Agent) : Bool := x.free && x.ctl.stop.isNone && x.ctl.headRun.isSome

/-- It offers an instruction, and has not been found to wait at issue in this clock. -/
def Agent.ready (x : Agent) : Bool := x.offers && !x.ctl.stall

/-- The scoreboard has cleared the operands of the instruction that an agent offers (R33, R99): no register of it waits for a
result, or a check of R152 comes first. One that has still to be fetched waits for nothing yet. -/
def State.cleared (s : State) (x : Agent) : Bool :=
  match x.place, x.ctl.headRun with
  | some p, some (pc, _) =>
    match (s.fetch p x.ident.tenant pc).2 with
    | .got i => (checkUses x.regs.alloc (usesOf i)).isSome || !pending x.flight (waitsFor i)
    | _ => true
  | _, _ => true

/-- The agent is ready (R33). -/
def State.readyToGo (s : State) (x : Agent) : Bool := x.ready && s.cleared x

/-- x is older than y (R33): by age, then by slot. -/
def olderAgent (x y : Agent) : Bool :=
  if x.ident.born != y.ident.born then decide (x.ident.born < y.ident.born)
  else decide ((x.place.map Place.slot).getD 24 < (y.place.map Place.slot).getD 24)

/-- The agents of a partition that have not ended. -/
def State.inPart (s : State) (core part : Nat) : List (Nat × Agent) :=
  s.agents.filter fun e => !e.2.ended && (e.2.place.map fun p => p.core == core && p.part == part).getD false

/-! ## Resources of a partition (R13, R52) -/

/-- The places that admissions in progress on a die hold in reservation, with their registers (R52). -/
def State.reserved (s : State) (die : Nat) : List (Place × Nat) :=
  (s.die die).units.flatMap fun u =>
    (u.2.places.zip u.2.allots).filter fun e => !(u.2.replies.contains ((u.2.cores.findIdx? fun c => c == e.1.core).getD 0))

/-- Unreserved free registers of a partition (R13, R36). -/
def State.freeRegs (s : State) (core part : Nat) : Nat :=
  2048 - s.regsUsed core part -
    (((s.reserved (dieOfCore core)).filter fun e => e.1.core == core && e.1.part == part).map fun e => e.2).sum

/-- Unreserved free slots of a partition, ascending. -/
def State.freeSlots (s : State) (core part : Nat) : List Nat :=
  (List.range 24).filter fun i => !(s.slotsUsed core part).contains i &&
    !((s.reserved (dieOfCore core)).any fun e => e.1.core == core && e.1.part == part && e.1.slot == i)

/-- The active set of a partition has room (R34). -/
def State.activeRoom (s : State) (core part : Nat) : Bool :=
  decide (((s.inPart core part).filter fun e => e.2.active).length < 8)

/-! ## Quiescent points (R134, R296, R297, R299) -/

/-- A command of a core names the agent. -/
def State.named (s : State) (a : Nat) : Bool :=
  s.cores.any fun c => c.2.copies.any (fun k => k.agent == a) || c.2.tools.any (fun k => k.agent == a) ||
    c.2.cmds.any (fun k => k.agent == a)

/-- A gang that has ended and that no agent and no command names leaves, and so does a launch all of whose gangs have. -/
def State.sweepGang (s : State) (g : Nat) : State :=
  match s.gang? g with
  | none => s
  | some y =>
    let used := s.agents.any (fun e => e.2.ident.gang == g) || s.cores.any fun c =>
      c.2.copies.any (fun k => k.gang == g) || c.2.tools.any (fun k => k.gang == g) || c.2.cmds.any (fun k => k.gang == g)
    if y.phase = .ended ∧ !used then
      let over_ := ((kget s.launches y.launch).map fun l => l.shares.all fun r => r.ended == r.count).getD false
      let others := s.gangs.any fun e => e.1 != g && e.2.launch == y.launch
      { s with gangs := kdel s.gangs g, launches := if over_ && !others then kdel s.launches y.launch else s.launches }
    else s

/-- What `gwait` does once its `qstate` part is over: every unexited lane is parked with the one condition, those that were
parked before too, whose conditions it takes the place of (R299, log 48). -/
def Agent.gwaitPark (target : Word) (x : Agent) : Agent :=
  let rest := x.ctl.unexited
  { x with
    flight := { x.flight with nextOp := x.flight.nextOp + 1 }
    ctl := { x.goOn.ctl with
      parked := x.ctl.parked ||| rest
      parks :=
        [{ id := x.flight.nextOp, lanes := rest, line := none, bar := none, clocks := none, wakeAt := none,
           target := some target, fired := false }] } }

/-- QUIESCENT_POINT: the agent's older work has performed, and its quiescent point is recorded. An agent that has ended,
with no `gstart` on its way (R298), and that nothing names leaves. -/
def execQuiescentPoint (agent : Nat) (s : State) : Out :=
  match s.agent? agent with
  | none => .next s
  | some x =>
    if !x.flight.quiet then .next s
    else
      let s1 := s.quiesce agent
      match x.ctl.hold with
      | .qstate => if s.live x then .next ((s1.modAgent agent Agent.goOn).invalL1 x.core) else .next s
      | .gwait t =>
        if !s.live x then .next s
        else if atOrAfter (s.tenant x.ident.tenant).doneT t then .next ((s1.modAgent agent Agent.goOn).invalL1 x.core)
        else .next ((s1.modAgent agent (Agent.gwaitPark t)).invalL1 x.core)
      | .yielded false => .next (s1.modAgent agent (Agent.mapCtl fun c => { c with hold := .yielded true }))
      | .ended false => .next (s1.modAgent agent (Agent.mapCtl fun c => { c with hold := .ended true }))
      | .ended true =>
        if s.named agent || !x.flight.ops.isEmpty || !x.flight.gstarts.isEmpty then .next s else .next ((s.delAgent agent).sweepGang x.ident.gang)
      | _ => .next s

/-! ## Targets and the coordinator (R296, R298, R302) -/

/-- GSTART_TARGET: a `gstart` whose release has performed gets its target, unless 2^30 targets are out. -/
def execGstartTarget (agent : Nat) (s : State) : Out :=
  match s.agent? agent with
  | none => .next s
  | some x =>
    let t := s.tenant x.ident.tenant
    match x.flight.gstarts.find? fun g => g.2.2 with
    | none => .next s
    | some g =>
      if (t.issued - t.doneT).toNat ≥ 1073741824 then .next s
      else
        let n := t.issued + 1
        let y := ((x.giveS g.1 g.2.1 n false).unpend g.1).mapFlight fun f =>
          { f with gstarts := f.gstarts.filter fun h => h.1 != g.1 }
        .next ((s.setAgent agent y).modTenant x.ident.tenant fun t =>
          { t with
            issued := n
            stalls := t.stalls ++ [(n, s.time)] })

/-- The agents of a tenant's grace domain: an agent that has ended stays in it until its end has counted as a quiescent point
(R32, R134, R135, R296). -/
def State.domain (s : State) (t : Nat) : List Agent :=
  (s.agents.filter fun e => e.2.ident.tenant == t && e.2.ctl.hold != .ended true).map fun e => e.2

/-- The least grace number of the domain counted from DONE; one that lies before DONE holds it. -/
def leastGrace (done issued : Word) (l : List Agent) : Word :=
  l.foldl (fun m x =>
    let d := if atOrAfter x.eng.grace done then x.eng.grace - done else 0#32
    if d.toNat < m.toNat then d else m) (issued - done)

/-- The lanes that a `gwait` parked go on once DONE has come to their target; the return acquires at `device` scope
(R135, R299). -/
def State.gwaitWake (s : State) (tenant : Nat) (done : Word) : State :=
  let due := fun (g : ParkGroup) => (g.target.map fun t => atOrAfter done t).getD false
  let waits := fun (x : Agent) => x.ident.tenant == tenant && x.place.isSome && s.runs x &&
    (x.ctl.parks.any due || (x.sys.frame.map fun f => f.parks.any due).getD false)
  s.agents.foldl (fun r e => if waits e.2 then (r.modAgent e.1 (Agent.wake due)).invalL1 e.2.core else r) s

/-- TRACKER_REPORT (R296): a tracker's report lets the coordinator advance DONE to the least number of the domain; the
periods completed release their waiters and end their stall checks. -/
def execTrackerReport (tenant die : Nat) (s : State) : Out :=
  let t := s.tenant tenant
  let d := leastGrace t.doneT t.issued (s.domain tenant)
  if die ≥ 4 ∨ d = 0#32 then .next s
  else
    let done := t.doneT + d
    .next ((s.modTenant tenant fun t =>
      { t with doneT := done, stalls := t.stalls.filter fun e => !atOrAfter done e.1 }).gwaitWake tenant done)

/-- Where an agent stands in the order of R302: core and slot, then those that have no place. -/
def Agent.rank (x : Agent) : Nat := (x.place.map fun p => p.core * 256 + p.part * 32 + p.slot).getD 65536

/-- The lowest-numbered core and slot, or else saved record, whose number is not at or after a target, with its identity
(R302). -/
def State.laggard (s : State) (t : Nat) (target : Word) : Option (Ident × Option Place) :=
  (((s.domain t).filter fun x => !atOrAfter x.eng.grace target).foldl (fun (m : Option Agent) x =>
    match m with
    | none => some x
    | some y => if x.rank < y.rank then some x else m) none).map fun x => (x.ident, x.place)

/-- GRACESTALL (R302, R354): a period has not completed L µs after its `gstart` performed; reported once. -/
def execGracestall (tenant : Nat) (target : Word) (s : State) : Out :=
  let t := s.tenant tenant
  let l := (t.reg 0x50).toNat % 4294967296
  match t.stalls.find? fun e => e.1 == target with
  | none => .next s
  | some e =>
    if l = 0 ∨ s.time < e.2 + 940 * l then .next s
    else
      .next ((s.modTenant tenant fun x =>
        { x with
          stalls := x.stalls.filter fun y => y.1 != target
          stallReports := x.stallReports ++ [(target, s.laggard tenant target)] }).irq tenant 2)

/-! ## The Cinch (R137, R278, R300, R301) -/

/-- The entry may be taken: its period has completed, and no entry of its tenant goes before it. -/
def State.latigoDue (s : State) (die ix : Nat) (e : LatigoEntry) : Bool :=
  atOrAfter (s.tenant e.tenant).doneT e.target &&
  (s.die die).latigo.zipIdx.all fun q =>
    q.2 == ix || q.1.tenant != e.tenant || (atOrAfter q.1.target e.target && (q.1.target != e.target || decide (ix < q.2)))

def State.latigoDrop (s : State) (die ix : Nat) : State := s.modDie die fun d => { d with latigo := d.latigo.eraseIdx ix }

/-- The identity of a die's Cinch (R322). -/
def cinchId (die : Nat) : Nat := 8 * 4096 + die * 1024

/-- An entry is discarded without a write and reported with code 13 (R301). -/
def State.latigoDiscard (s : State) (die ix : Nat) (e : LatigoEntry) (addr : DWord) : State :=
  (s.latigoDrop die ix).report e.tenant
    { code := codeLatigo, laid := none, addr := addr, fetch := false, wr := true, lane := 0, seq := e.seq,
      engine := cinchId die, tag := 0#64, time := s.time }

/-- CINCH_PUSH (R301): a block whose period has completed is pushed on its pool's free list, as one operation. What the link loses
of it is dropped (R357). -/
def execCinchPush (die ix : Nat) (s : State) : Out :=
  match (s.die die).latigo[ix]? with
  | none => .next s
  | some e =>
    match e.kind with
    | .setEntry _ _ _ => .next s
    | .block addr len pool =>
      if !s.latigoDue die ix e then .next s
      else
        let pva := (s.tenant e.tenant).reg 0x40 + BitVec.ofNat 64 (16 * pool)
        let o : Origin := ⟨1, 64, reqOfEngine 8 die 0 0, false⟩
        match (s.dieWalkAsks o.req die e.tenant addr).translateDie die e.tenant addr .write with
        | (s1, .fault _) => .next (s1.latigoDiscard die ix e addr)
        | (s1, .ok b) =>
          match (s1.dieWalkAsks o.req die e.tenant pva).translateDie die e.tenant pva .write with
          | (s2, .fault _) => .next (s2.latigoDiscard die ix e addr)
          | (s2, .ok p) =>
            if s.reachHeld die .any b.key || s.reachHeld die .any p.key then .next s
            else if s2.loses p then .next ((s2.linkGone e.tenant 0).latigoDrop die ix)
            else
              let asked := s2.homeReads o die [(p, 12)]
              let s3 := if s2.loses b then asked.linkGone e.tenant 0
                else asked.engineWriteAt o die 12 [b] (s2.bytes p.key 8 ++ leBytes 4 len)
              .next ((s3.engineWriteAt o die 12 [p] (leBytes 8 addr.toNat ++ leBytes 4 (s2.le (p.key + 8) 4 + 1))).latigoDrop
                die ix)

/-- SET_FREE_RETURN (R278): the Cinch returns the payload of a freed set to the heap and its entry to the free chain. -/
def execSetFreeReturn (die ix : Nat) (s : State) : Out :=
  match (s.die die).latigo[ix]? with
  | none => .next s
  | some e =>
    match e.kind with
    | .block _ _ _ => .next s
    | .setEntry i payload cap =>
      if !s.latigoDue die ix e then .next s
      else
        let a0 := s.entryAddr e.tenant 0
        let a := s.entryAddr e.tenant i
        if s.setHeld .any e.tenant a0 8 || s.setHeld .any e.tenant a 8 then .next s
        else
          let o : Origin := ⟨1, 64, reqOfEngine 8 die 0 0, false⟩
          let s1 := (s.homeReads o die ((s.setKeys e.tenant a0 1).map fun k => (plainXlat k, 4))).putSetWordsAs o die e.tenant
            (a + 4) [s.setWord e.tenant a0]
          .next (((s1.putSetWordsAs o die e.tenant a0 [i]).modTenant e.tenant fun t =>
            { t with heap := heapReturn (t.reg 0x30).toNat (t.reg 0x38).toNat payload (4 * cap) t.heap }).latigoDrop die ix)

/-! ## Barriers (R290 to R293) -/

/-- The messages of a list without the first from a position; that message. -/
def takeFrom (pos : Nat) : List (Nat × Nat × BarMsg) → Option ((Nat × BarMsg) × List (Nat × Nat × BarMsg))
  | [] => none
  | (p, hb, m) :: t =>
    if p = pos then some ((hb, m), t)
    else (takeFrom pos t).map fun r => (r.1, (p, hb, m) :: r.2)

/-- BARRIER_ARRIVAL (R290, R291): the oldest message from a core of the gang reaches its barrier; a flip is broadcast to
every core of the gang. -/
def execBarrierArrival (gang pos : Nat) (s : State) : Out :=
  match s.gang? gang with
  | none => .next s
  | some g =>
    match takeFrom pos g.msgs with
    | none => .next s
    | some ((hb, m), rest) =>
      .next (s.setGang gang ({ g with msgs := rest }.deliver hb m))

/-- A flip reaches one agent: a `bar.wait` compares again, and lanes parked on the barrier go on. -/
def State.flipAgent (s : State) (g : Nat) (hb a : Nat) (x : Agent) : State :=
  let s1 := s.modAgent a (Agent.wake fun k => k.bar == some hb)
  match x.ctl.hold with
  | .barWait n =>
    if n ≠ hb ∨ x.ctl.stop.isSome then s1
    else
      match s.gang? g with
      | none => s1
      | some y =>
        if (y.barrier hb).phase = y.warpMark hb x.ident.widx then s1
        else
          (s1.modAgent a Agent.goOn).modGang g fun y => y.setWarpMark hb x.ident.widx (y.barrier hb).phase
  | _ => s1

/-- FLIP_BROADCAST (R291, R293): a flip reaches the core at a position of the gang. -/
def execFlipBroadcast (gang pos hb : Nat) (s : State) : Out :=
  match s.gang? gang with
  | none => .next s
  | some g =>
    if !g.flips.contains (pos, hb) then .next s
    else
      let s1 := s.setGang gang { g with flips := g.flips.erase (pos, hb) }
      .next ((s.agents.filter fun e => e.2.ident.gang == gang && e.2.place.isSome && s.posOf e.2 == pos).foldl
        (fun r e => r.flipAgent gang hb e.1 e.2) s1)

/-! ## Parked lanes (R31, R210) -/

/-- A park group of an agent, those of a trap frame included. -/
def Agent.group (x : Agent) (grp : Nat) : Option ParkGroup :=
  match x.ctl.parks.find? fun g => g.id == grp with
  | some g => some g
  | none => x.sys.frame.bind fun f => f.parks.find? fun g => g.id == grp

/-- A group that meets the test is released. -/
def parkStep (agent grp : Nat) (test : ParkGroup → Bool) (s : State) : Out :=
  match s.agent? agent with
  | none => .next s
  | some x =>
    match x.group grp with
    | none => .next s
    | some g =>
      if test g && x.place.isSome && s.runs x then .next (s.setAgent agent (x.wake fun k => k.id == grp)) else .next s

/-- PARK_WAKE (R31): a write to the watched line has completed. -/
def execParkWake (agent grp : Nat) (s : State) : Out := parkStep agent grp ParkGroup.fired s

/-- PARK_WATCH_DROP (R31): the home slice drops the watch. -/
def execParkWatchDrop (agent grp : Nat) (s : State) : Out := parkStep agent grp (fun g => g.line.isSome) s

/-- PARK_TIMEOUT (R210). -/
def execParkTimeout (agent grp : Nat) (s : State) : Out :=
  parkStep agent grp (fun g => (g.wakeAt.map fun t => decide (t ≤ s.time)).getD false) s

/-! ## User traps (R304, R307) -/

def Cause.isTimer : Cause → Bool
  | .timer => true
  | _ => false

def Cause.isChain : Cause → Bool
  | .chainovf _ _ => true
  | _ => false

/-- TIMER is due and not yet pending (R307). -/
def Agent.timerDue (now : Nat) (x : Agent) : Bool :=
  !(x.ended || x.sys.tcmp == 0xFFFFFFFFFFFFFFFF#64 || decide (now < x.sys.tcmp.toNat) || x.sys.causes.any Cause.isTimer)

/-- TIMER becomes pending. -/
def Agent.pendTimer (x : Agent) : Agent := x.mapSys fun y => { y with causes := y.causes ++ [.timer] }

/-- TIMER becomes pending (R307). All ones in `sys.tcmp` never fires (R29). -/
def execTimer (agent : Nat) (s : State) : Out :=
  match s.agent? agent with
  | none => .next s
  | some x =>
    if !x.timerDue s.time then .next s
    else .next (s.setAgent agent x.pendTimer)

/-- The cause that is taken first: CHAINOVF before TIMER (R304). -/
def nextCause (l : List Cause) : Option Cause :=
  match l.find? Cause.isChain with
  | some c => some c
  | none => l.head?

/-- A pending cause of an agent is taken (R304). -/
def State.takeCause (s : State) (a : Nat) (x : Agent) (c : Cause) : State :=
  (s.setAgent a (x.mapSys fun y => { y with causes := y.causes.erase c })).trapAgent a x c x.headPc

/-- USER_TRAP_ENTRY (R304): a pending cause is taken at an issue boundary, while IN is 0. -/
def execUserTrapEntry (agent : Nat) (s : State) : Out :=
  match s.agent? agent with
  | none => .next s
  | some x =>
    match nextCause x.sys.causes with
    | none => .next s
    | some c =>
      if !s.live x || !x.offers || x.sys.inHandler then .next s
      else
        .next (s.takeCause agent x c)

/-! ## The warps of a partition (R34, R36, R242) -/

/-- A wait on a token or on a wait counter has lasted more than 64 clocks (R34). -/
def Agent.waitedLong (now : Nat) (x : Agent) : Bool := (x.ctl.waitSince.map fun t => decide (t + 64 < now)).getD false

/-- What lets a warp of the active set be swapped out (R34): a long wait on a token or a wait counter, a barrier that has not
flipped, no lane that is not parked (R278, R300 among them), a continuation, `grow`. A stopped agent counts as parked
(R313). -/
def Agent.yields (now : Nat) (x : Agent) : Bool :=
  x.ctl.stop.isSome ||
  match x.ctl.hold with
  | .none => x.ctl.headRun.isNone || (x.ctl.stall && x.waitedLong now)
  | .waitc _ _ _ => x.waitedLong now
  | .barWait _ => true
  | .held _ => true
  | .grow _ => true
  | .setFree => true
  | .fdefer _ _ _ _ parked => parked
  | _ => false

/-- A ready warp that has been passed over for too long goes first (R63, log 93). -/
def Agent.overdue (x : Agent) : Bool := x.passed != 0 && decide (Config.issueBound < x.passed)

/-- x goes before y where both are ready: an overdue warp, else the older (R33, R63). -/
def goesFirst (x y : Agent) : Bool := if x.overdue != y.overdue then x.overdue else olderAgent x y

/-- The agent takes 2 clocks of a swap, in which it does not issue (R34). -/
def Agent.swapped (now : Nat) (active : Bool) (x : Agent) : Agent := { x with active := active, frozen := now + 2 }

/-- The oldest ready agent of the pending set of a partition (R34). -/
def State.oldestPending (s : State) (core part : Nat) : Option (Nat × Agent) :=
  ((s.inPart core part).filter fun e => !e.2.active && s.readyToGo e.2).foldl (fun m e =>
    match m with
    | none => some e
    | some q => if goesFirst e.2 q.2 then some e else m) none

/-- A warp that comes to a partition enters its active set at once where that has room and no ready warp of the pending set
is there to fill it (R34, log 100). -/
def State.entersActive (s : State) (core part : Nat) : Bool :=
  s.activeRoom core part && (s.oldestPending core part).isNone

/-- x may leave the active set for y: neither is taken by a swap, and x waits, or is not overdue as y is (R34, R63, log 93). -/
def Agent.makesRoom (now : Nat) (x y : Agent) : Bool :=
  decide (x.frozen ≤ now) && decide (y.frozen ≤ now) && (x.yields now || (y.overdue && !x.overdue))

/-- WARP_SWAP (R34): a waiting warp of the active set makes room for the oldest ready pending one; equal slots fill an
active slot left empty. Of several waiting warps any may go: the manual does not say which (log 84). An overdue pending warp
takes the slot of any that is not (R63, log 93). -/
def execWarpSwap (core part outSlot inSlot : Nat) (s : State) : Out :=
  match s.oldestPending core part with
  | none => .next s
  | some (b, y) =>
    if y.place ≠ some ⟨core, part, inSlot⟩ then .next s
    else if outSlot = inSlot then
      if s.activeRoom core part then .next (s.setAgent b { y with active := true }) else .next s
    else
      match (s.inPart core part).find? fun e => e.2.active && e.2.place == some ⟨core, part, outSlot⟩ with
      | none => .next s
      | some (a, x) =>
        if x.makesRoom s.time y then
          .next ((s.setAgent a (x.swapped s.time false)).setAgent b (y.swapped s.time true))
        else .next s

/-- The agent waits on `grow`. -/
def Agent.grows (x : Agent) : Bool :=
  match x.ctl.hold with
  | .grow _ => x.ctl.stop.isNone
  | _ => false

/-- The allotment grows by so many registers, which read 0 unmarked (R36). -/
def Regs.grow (n : Nat) (r : Regs) : Regs :=
  { r with alloc := r.alloc + n, v := r.v.filter fun e => decide (e.1 < r.alloc)
           vMark := r.vMark.filter fun e => decide (e.1 < r.alloc) }

/-- GROW_GRANT (R36, R214): the oldest grower of a partition gets its registers. -/
def execGrowGrant (agent : Nat) (s : State) : Out :=
  match s.agent? agent with
  | none => .next s
  | some x =>
    match x.ctl.hold, x.place with
    | .grow n, some p =>
      let first := (s.inPart p.core p.part).all fun e => e.1 == agent || !e.2.grows || !olderAgent e.2 x
      if s.live x && first && decide (s.freeRegs p.core p.part ≥ n) then
        .next (s.setAgent agent (x.goOn.mapRegs (Regs.grow n)))
      else .next s
    | _, _ => .next s

/-- WAITC_RELEASE (R242). -/
def execWaitcRelease (agent : Nat) (s : State) : Out :=
  match s.agent? agent with
  | none => .next s
  | some x =>
    match x.ctl.hold with
    | .waitc ld st tl =>
      if s.live x && decide (ldbCount x.flight ≤ ld ∧ stbCount x.flight ≤ st ∧ s.toolCount agent x.core ≤ tl) then
        .next (s.setAgent agent x.goOn)
      else .next s
    | _ => .next s

/-! ## Tasks and continuations (R40 to R42) -/

/-- The core on which a queued task starts: that of the slot held for its caller (R38). -/
def State.taskCore (s : State) (x : Agent) : Option Nat :=
  match s.agent? x.ident.caller with
  | some c => c.place.map Place.core
  | none => none

/-- The tasks that wait in a core's queue and may start, in age order (R41, R58). -/
def State.taskQueue (s : State) (core : Nat) : List (Nat × Agent) :=
  (s.agents.filter fun e => e.2.queued && s.taskCore e.2 == some core && s.runs e.2 && !(s.tenant e.2.ident.tenant).draining)

/-- The lowest-numbered partition that has a free slot and so many registers (R40). -/
def State.fitPart (s : State) (core regs : Nat) : Option Place :=
  (List.range 8).findSome? fun p =>
    match s.freeSlots core p with
    | [] => none
    | i :: _ => if s.freeRegs core p ≥ regs then some ⟨core, p, i⟩ else none

/-- The oldest task that fits, with the tasks passed over; one passed over 64 times blocks those behind it (R41). -/
def State.pickTask (s : State) (core : Nat) : List (Nat × Agent) → List Nat → Option (Nat × Place × List Nat)
  | [], _ => none
  | (a, x) :: t, skipped =>
    match s.fitPart core x.regs.alloc with
    | some p => some (a, p, skipped)
    | none => if x.passed ≥ 64 then none else s.pickTask core t (a :: skipped)

/-- TASK_START (R40, R41): its read section begins, for which the core's L1 is invalidated (R136, log 92); no pre-emption is
under way, so `sys.yreq` reads 0 (R61). -/
def execTaskStart (core : Nat) (s : State) : Out :=
  match s.pickTask core (s.taskQueue core) [] with
  | none => .next s
  | some (a, p, skipped) =>
    let s1 := skipped.foldl (fun r k => r.modAgent k fun x => { x with passed := x.passed + 1 }) s
    .next ((s1.modAgent a fun x =>
      { x with place := some p, queued := false, passed := 0, active := s.entersActive p.core p.part,
               ident := { x.ident with born := s.time }, sys := { x.sys with yreq := false } }).invalL1 core)

/-- CONTINUATION_RESUME (R42): the join count is zero and the held slot's partition has the registers. -/
def execContinuationResume (agent : Nat) (s : State) : Out :=
  match s.agent? agent with
  | none => .next s
  | some x =>
    match x.ctl.hold, x.place with
    | .held id, some p =>
      match x.recs.find? fun r => r.id == id with
      | none => .next s
      | some r =>
        if r.join ≠ 0 || !s.live x || decide (s.freeRegs p.core p.part < r.budget * 32) then .next s
        else
          .next (s.setAgent agent
            { x with
              recs := x.recs.filter fun q => q.id != id
              regs := { alloc := r.budget * 32, v := [], vMark := [], s := r.scalars, sMark := r.marks, p := r.preds }
              ctl := { (x.ctl.move r.lanes fun _ => r.cont) with hold := .none }
              sys := { x.sys with fpflags := r.flags } })
    | _, _ => .next s

end Sys2Proof.Machine
end

