-- ==== Sys2Proof/Machine/Dispatcher.lean ====
section
/-! DEFINITION. The dispatcher: launch queues and records (R45 to R49, R216), process groups (R55, R56), admission (R50 to
R54), completion words (R48). A step whose condition does not hold leaves the state as it is. -/

namespace Sys2Proof.Machine

/-! ## Queues (R45, R46) -/

/-- A launch record from its 64 bytes (R46); reserved bits have no effect (R6). -/
def LaunchRec.ofBytes (b : List Byte) : LaunchRec :=
  let w := fun (off n : Nat) => leVal ((b.drop off).take n)
  { entry := BitVec.ofNat 64 (w 0 8), param := BitVec.ofNat 64 (w 8 8), gangs := w 16 6, irq := ebits (w 24 4) 12 12 == 1,
    cores := ebits (w 24 4) 9 8, warps := ebits (w 24 4) 7 0, waitv := BitVec.ofNat 32 (w 28 4),
    pgt := BitVec.ofNat 64 (w 32 8), done := BitVec.ofNat 64 (w 40 8), waita := BitVec.ofNat 64 (w 48 8),
    tag := BitVec.ofNat 64 (w 56 8) }

/-- An empty launch queue. -/
def LaunchQ.empty : LaunchQ := { recs := [], head := .unchecked, launch := none }

def queueKey (die prio : Nat) : Nat := die * 4 + prio

def Tenant.queue (x : Tenant) (die prio : Nat) : LaunchQ := kgetD LaunchQ.empty x.queues (queueKey die prio)

def Tenant.setQueue (x : Tenant) (die prio : Nat) (q : LaunchQ) : Tenant :=
  { x with queues := ksetD LaunchQ.empty x.queues (queueKey die prio) q }

/-- A record joins a queue. -/
def State.enqueue (s : State) (t die prio : Nat) (r : LaunchRec) : State :=
  s.modTenant t fun x => x.setQueue die prio { x.queue die prio with recs := (x.queue die prio).recs ++ [r] }

/-- Appends are discarded while the context is disabled or being reset (R45). -/
def Tenant.refusesAppends (x : Tenant) : Bool := !x.enabled || x.resetting

/-- QUEUE_WINDOW_WRITE (R45, R348): an aligned write of 64 bytes appends a record; any other, and one to a full queue, is
discarded and sets QERR. -/
def execQueueWindowWrite (tenant off : Nat) (bytes : List Byte) (s : State) : Out :=
  if tenant ≥ 16 ∨ off ≥ 65536 then .next s
  else
    let die := off / 16384
    let prio := off / 4096 % 4
    let x := s.tenant tenant
    if x.refusesAppends ∨ off % 64 ≠ 0 ∨ bytes.length ≠ 64 ∨ (x.queue die prio).recs.length ≥ 256 then
      .next (s.queueError tenant)
    else .next (s.enqueue tenant die prio (LaunchRec.ofBytes bytes))

/-- TASK_PUSH_APPEND (R45, R216): once the older buffer stores have performed and the queue has room, the record is read from
ABUF and appended; a context that takes none discards it and sets QERR. -/
def execTaskPushAppend (agent : Nat) (s : State) : Out :=
  match s.agent? agent with
  | none => .next s
  | some x =>
    match x.ctl.hold with
    | .taskPush prio off =>
      let t := x.ident.tenant
      if !s.live x || stbCount x.flight != 0 then .next s
      else if (s.tenant t).refusesAppends then .next ((s.modAgent agent Agent.goOn).queueError t)
      else if ((s.tenant t).queue x.die prio).recs.length ≥ 256 then .next s
      else
        let b : BufAt := ⟨x.ident.gang, s.posOf x, x.core, .abuf⟩
        .next ((s.modAgent agent Agent.goOn).enqueue t x.die prio (LaunchRec.ofBytes (s.bufBytes b off 64)))
    | _ => .next s

/-! ## What the dispatcher reads (R47, R49, R55) -/

/-- What a read for the dispatcher gives: the value, a word that cannot be read, which the link may have lost (R357), or a line
at which the read is held (R130). -/
inductive DispRead (α : Type) where
  | ok (v : α)
  | bad (lost : Bool)
  | held

/-- A read that the link may have lost (R357). -/
def State.readLost (s : State) (t : Nat) (lost : Bool) : State := if lost then s.linkGone t 0 else s

/-- n bytes at an address, in pieces of k bytes, read with the tenant's tables. -/
def State.dispBytes (s : State) (die t k : Nat) (w : Want) : Nat → DWord → DispRead (List Byte)
  | 0, _ => .ok []
  | n + 1, va =>
    match (s.translateDie die t va w).2 with
    | .fault _ => .bad false
    | .ok x =>
      if s.reachHeld die .any x.key then .held
      else if s.loses x then .bad true
      else if s.marked x.key k then .bad false
      else
        match s.dispBytes die t k w n (va + BitVec.ofNat 64 k) with
        | .ok l => .ok (s.bytes x.key k ++ l)
        | r => r

/-- A report of code 14 (R313, R314). -/
def State.dispReport (s : State) (t : Nat) (addr : DWord) (fetch wr : Bool) (tag : DWord) : State :=
  s.report t { code := codeDispatch, laid := none, addr := addr, fetch := fetch, wr := wr, lane := 0, seq := 0#32,
               engine := 0, tag := tag, time := s.time }

/-! ## Process groups (R10, R55, R56) -/

/-- The cores of a die, by their numbers within it, that form the group whose first core is j; none where there is no such
group (R10). -/
def groupAt (shape j : Nat) : Option (List Nat) :=
  let x := j % 8
  let y := j / 8
  match shape with
  | 0 => some [j]
  | 1 => if x % 2 = 0 then some [j, j + 1] else none
  | _ => if x % 2 = 0 ∧ y % 2 = 0 ∧ y < 4 then some [j, j + 1, j + 8, j + 9] else none

/-- The groups of a shape within a core mask, lowest first core first. -/
def groupsIn (shape : Nat) (mask : BitVec 40) : List (List Nat) :=
  ((List.range 40).filterMap (groupAt shape)).filter fun g => g.all mask.getLsbD

/-- The cores of a gang (R46). -/
def coreCount (shape : Nat) : Nat := 2 ^ shape

/-- An entry of a process-group table. -/
structure GroupEntry where
  rank : Nat
  dev : Nat
  die : Nat
  mask : Nat
  deriving DecidableEq, Repr

/-- The entries of a table from its bytes after the header. -/
def groupEntries : Nat → List Byte → List GroupEntry
  | 0, _ => []
  | n + 1, b =>
    { rank := leVal (b.take 4), dev := leVal ((b.drop 4).take 2), die := leVal ((b.drop 6).take 1),
      mask := leVal ((b.drop 8).take 8) } :: groupEntries n (b.drop 16)

/-- A table's entries are valid for a shape (R55). -/
def groupsValid (shape : Nat) (es : List GroupEntry) : Bool :=
  (es.zipIdx).all fun e =>
    e.1.rank == e.2 && decide (e.1.die < 4) && decide (e.1.mask < 2 ^ 40) &&
      !(groupsIn shape (BitVec.ofNat 40 e.1.mask)).isEmpty

/-- The share of rank r of P in G gangs (R56). -/
def shareOf (gangs p r die : Nat) (mask : BitVec 40) : RankShare :=
  let q := gangs / p
  let e := gangs % p
  { die := die, rank := r, ranks := p, first := r * q + min r e, count := if r < e then q + 1 else q, mask := mask,
    taken := 0, back := [], ended := 0 }

/-- What the process-group table of a record gives: the shares that this device runs (R55, R56). -/
def State.readShares (s : State) (die t : Nat) (r : LaunchRec) : DispRead (Option (List RankShare)) :=
  if r.pgt = 0#64 then .ok (some [shareOf r.gangs 1 0 die (BitVec.ofNat 40 (2 ^ 40 - 1))])
  else
    let k := if r.pgt.toNat % 8 = 0 then 8 else 1
    match s.dispBytes die t k .read (16 / k) r.pgt with
    | .bad lost => .bad lost
    | .held => .held
    | .ok h =>
      let p := leVal (h.take 4)
      if p = 0 ∨ p > 4096 then .ok none
      else
        match s.dispBytes die t k .read (16 * p / k) (r.pgt + 16#64) with
        | .bad lost => .bad lost
        | .held => .held
        | .ok b =>
          let es := groupEntries p b
          if groupsValid r.cores es then
            let dev := (kgetD 0#64 s.device.regs 8).toNat % 65536
            .ok (some ((es.filter fun e => e.dev == dev).map fun e => shareOf r.gangs p e.rank e.die (BitVec.ofNat 40 e.mask)))
          else .ok none

/-! ## LAUNCH_CHECK (R47) -/

/-- The most warps on one core (R47, R51). -/
def warpsPerCore (warps c : Nat) : Nat := (warps + c - 1) / c

/-- The gang fits its cores when they are otherwise empty (R47). -/
def fitsEmpty (h : Header) (r : LaunchRec) : Bool :=
  let wc := warpsPerCore r.warps (coreCount r.cores)
  decide (wc ≤ 192) && decide ((wc + 7) / 8 * h.budget * 32 ≤ 2048) && decide (h.abufk * 1024 + wc * h.slab * 256 ≤ 262144) &&
  decide (h.bars ≤ 64) && decide (h.slots ≤ 16) && decide (h.arrays ≤ 4) && decide (h.tables ≤ 16) &&
  decide (h.wbufk ≤ 256) && decide (h.cbufk ≤ 128)

/-- The head record leaves its queue. -/
def State.popHead (s : State) (t die prio : Nat) : State :=
  s.modTenant t fun x =>
    x.setQueue die prio { recs := (x.queue die prio).recs.drop 1, head := .unchecked, launch := none }

/-- A status for a record's completion word (R48). -/
def State.complete (s : State) (t die : Nat) (r : LaunchRec) (status : Nat) : State :=
  if r.done = 0#64 then s
  else
    { s with completions := s.completions ++
        [{ tenant := t, launch := 0, addr := r.done, status := status, count := false, irq := r.irq, tag := r.tag, die := die }] }

/-- The head launch is refused (R47): status 2, and for a word that could not be read a report. -/
def State.refuse (s : State) (t die prio : Nat) (r : LaunchRec) (unread : Option (DWord × Bool)) : State :=
  let s1 := (s.popHead t die prio).complete t die r 2
  match unread with
  | some (addr, fetch) => s1.dispReport t addr fetch false r.tag
  | none => s1

/-- A rank with no gang has ended: its count is added at once (log 31). -/
def State.emptyRanks (s : State) (t die : Nat) (r : LaunchRec) (shares : List RankShare) : State :=
  if r.done = 0#64 then s
  else
    { s with completions := s.completions ++ (shares.filter fun q => q.count == 0).map fun _ =>
        { tenant := t, launch := 0, addr := r.done, status := 0, count := true, irq := r.irq, tag := r.tag, die := die } }

/-- The launch at the head of a queue does not run: its shares go with it. -/
def State.dropLaunch (s : State) (l : Option Nat) : State :=
  match l with
  | some k => { s with launches := kdel s.launches k }
  | none => s

/-- The launch at the head of a queue becomes eligible (R49): the counts of ranks without a gang are added, and one of which
this device runs no gang is over. -/
def State.opens (s : State) (t die prio key : Nat) (l : Launch) : State :=
  let s1 := s.emptyRanks t die l.record l.shares
  if l.shares.all fun q => q.count == 0 then (s1.dropLaunch (some key)).popHead t die prio
  else s1.modTenant t fun x => x.setQueue die prio { x.queue die prio with head := .eligible }

/-- A checked record becomes a launch; it waits for its word, or is eligible at once (R49). -/
def State.accept (s : State) (t die prio : Nat) (r : LaunchRec) (h : Header) (shares : List RankShare) : State :=
  let key := s.nextKey
  let l : Launch := { tenant := t, die := die, prio := prio, record := r, header := h, shares := shares, committed := 0,
                      dropped := false }
  let s1 := { s with nextKey := key + 1, launches := kput s.launches key l }.modTenant t fun x =>
    x.setQueue die prio { recs := (x.queue die prio).recs, launch := some key, head := .waiting }
  if r.waita = 0#64 then s1.opens t die prio key l else s1

/-- The dispatcher works on a tenant's queues. -/
def Tenant.serves (x : Tenant) : Bool := x.enabled && !x.resetting && !x.draining && !x.saved

/-- LAUNCH_CHECK (R47): the record at the head of a queue is checked. The report of a process-group table that cannot be read
holds the table's address (log 86). -/
def execLaunchCheck (tenant die prio : Nat) (s : State) : Out :=
  let x := s.tenant tenant
  let q := x.queue die prio
  if !x.serves ∨ die ≥ 4 ∨ prio ≥ 4 then .next s
  else
    match q.recs, q.head with
    | r :: _, .unchecked =>
      let at_ := r.entry - 16#64
      if r.entry.toNat % 8 ≠ 0 then .next (s.refuse tenant die prio r none)
      else
        match s.dispBytes die tenant 8 .fetch 2 at_ with
        | .held => .next s
        | .bad lost => .next ((s.readLost tenant lost).refuse tenant die prio r (some (at_, true)))
        | .ok b =>
          match Header.ofWords (leVal (b.take 4)) (leVal ((b.drop 4).take 4)) (leVal ((b.drop 8).take 4)) (leVal (b.drop 12)) with
          | none => .next (s.refuse tenant die prio r none)
          | some h =>
            if r.warps = 0 ∨ r.warps > 128 ∨ r.cores = 3 ∨ r.gangs = 0 ∨ !fitsEmpty h r then
              .next (s.refuse tenant die prio r none)
            else
              match s.readShares die tenant r with
              | .held => .next s
              | .bad lost => .next ((s.readLost tenant lost).refuse tenant die prio r (some (r.pgt, false)))
              | .ok none => .next (s.refuse tenant die prio r none)
              | .ok (some shares) => .next (s.accept tenant die prio r h shares)
    | _, _ => .next s

/-- WAIT_WORD_READ (R49): the wait word of the head launch is read again. -/
def execWaitWordRead (tenant die prio : Nat) (s : State) : Out :=
  let x := s.tenant tenant
  let q := x.queue die prio
  if !x.serves then .next s
  else
    match q.recs, q.head with
    | r :: _, .waiting =>
      match (if r.waita.toNat % 8 = 0 then s.dispBytes die tenant 8 .read 1 r.waita else .bad false) with
      | .held => .next s
      | .bad lost => .next (((s.readLost tenant lost).dropLaunch q.launch).refuse tenant die prio r (some (r.waita, false)))
      | .ok b =>
        let w := leVal b
        if w / 2 ^ 56 ≠ 0 then
          .next (((s.dropLaunch q.launch).popHead tenant die prio).complete tenant die r (w / 2 ^ 56))
        else if w % 2 ^ 48 ≥ r.waitv.toNat then
          match q.launch, q.launch.bind (kget s.launches) with
          | some k, some l => .next (s.opens tenant die prio k l)
          | _, _ => .next s
        else .next s
    | _, _ => .next s

/-! ## Admission (R50 to R54) -/

/-- What a core has in use of the resources of R14, or a gang asks of it: barriers, slots, arrays, tables, bytes of ABUF with
slabs, KiB of WBUF and of CBUF. -/
structure Share where
  bars : Nat
  slots : Nat
  arrays : Nat
  tables : Nat
  abuf : Nat
  wbuf : Nat
  cbuf : Nat
  deriving DecidableEq, Repr

def Share.add (a b : Share) : Share :=
  ⟨a.bars + b.bars, a.slots + b.slots, a.arrays + b.arrays, a.tables + b.tables, a.abuf + b.abuf, a.wbuf + b.wbuf, a.cbuf + b.cbuf⟩

/-- Within the totals of R14 and R15. -/
def Share.fits (a : Share) : Bool :=
  decide (a.bars ≤ 64) && decide (a.slots ≤ 16) && decide (a.arrays ≤ 4) && decide (a.tables ≤ 16) &&
  decide (a.abuf ≤ 262144) && decide (a.wbuf ≤ 256) && decide (a.cbuf ≤ 128)

/-- What a gang of so many warps on c cores takes on the core at a position. -/
def Header.share (h : Header) (warps c pos : Nat) : Share :=
  ⟨h.bars, h.slots, h.arrays, h.tables, h.abufk * 1024 + (warps + c - 1 - pos) / c * h.slab * 256, h.wbufk, h.cbufk⟩

/-- The header and the warps of the gang that an admission unit works on. -/
def State.unitGang (s : State) (u : Admission) : Option (Header × Nat) :=
  match u.restore with
  | some g => (s.gang? g).map fun y => (y.header, y.warps)
  | none => (kget s.launches u.launch).map fun l => (l.header, l.record.warps)

/-- What is in use or reserved on a core (R52). -/
def State.coreUse (s : State) (core : Nat) : Share :=
  let none_ : Share := ⟨0, 0, 0, 0, 0, 0, 0⟩
  let held := (s.gangs.filter fun e => (e.2.phase == .running || e.2.phase == .saving) && e.2.cores.contains core).foldl
    (fun a e => a.add (e.2.header.share e.2.warps e.2.cores.length (e.2.posOf core))) none_
  (s.die (dieOfCore core)).units.foldl (fun a u =>
    let pos := (u.2.cores.findIdx? fun c => c == core).getD 9
    if pos = 9 ∨ u.2.replies.contains pos ∨ u.2.places.isEmpty then a
    else
      match s.unitGang u.2 with
      | some (h, w) => a.add (h.share w u.2.cores.length pos)
      | none => a) held

/-- The partition that R51 chooses on a core, with a free slot, given what earlier warps of the gang take. -/
def State.choosePart (s : State) (core : Nat) (taken : List (Place × Nat)) : Option Place :=
  let regs := fun (p : Nat) => s.freeRegs core p -
    ((taken.filter fun e => e.1.core == core && e.1.part == p).map fun e => e.2).sum
  let slots := fun (p : Nat) => (s.freeSlots core p).filter fun i =>
    !(taken.any fun e => e.1.core == core && e.1.part == p && e.1.slot == i)
  let best := ((List.range 8).filter fun p => !(slots p).isEmpty).foldl (fun m p =>
    match m with
    | none => some p
    | some q => if regs p > regs q then some p else m) (none : Option Nat)
  best.map fun p => ⟨core, p, (slots p).headD 0⟩

/-- Places for the gang's agents in order: each with its position and its registers (R51). -/
def State.placeAll (s : State) (cores : List Nat) : List (Nat × Nat) → List (Place × Nat) → Option (List (Place × Nat))
  | [], taken => some taken
  | (pos, regs) :: t, taken =>
    match s.choosePart (cores.getD pos 0) taken with
    | none => none
    | some p => s.placeAll cores t (taken ++ [(p, regs)])

/-- Free slots of a core that no admission has reserved (R51). -/
def State.coreSlots (s : State) (core : Nat) : Nat := ((List.range 8).map fun p => (s.freeSlots core p).length).sum

/-- The group of a die that R51 picks: most free slots, then the lowest first core. -/
def State.pickGroup (s : State) (die shape : Nat) (mask : BitVec 40) : List Nat :=
  let gs := (groupsIn shape mask).map fun g => g.map fun j => 40 * die + j
  let free := fun (g : List Nat) => (g.map s.coreSlots).sum
  (gs.foldl (fun m g =>
    match m with
    | none => some g
    | some q => if free g > free q then some g else m) (none : Option (List Nat))).getD []

/-- The agents of a saved gang that need slots, in order: those that have not ended and do not wait in a task queue, with
position and registers. -/
def State.savedAgents (s : State) (g : Nat) : List (Nat × Agent) :=
  s.agents.filter fun e => e.2.ident.gang == g && !e.2.ended && !e.2.queued

/-- What an admission unit has to place: position and registers of each agent. -/
def State.toPlace (s : State) (u : Admission) : List (Nat × Nat) :=
  match u.restore with
  | some g =>
    let c := ((s.gang? g).map fun y => y.cores.length).getD 1
    (s.savedAgents g).map fun e => (e.2.ident.widx % c, e.2.regs.alloc)
  | none =>
    match kget s.launches u.launch with
    | none => []
    | some l =>
      let c := coreCount l.record.cores
      (List.range l.record.warps).map fun i => (i % c, l.header.budget * 32)

/-- The shape and the core mask of what a unit admits. -/
def State.unitShape (s : State) (u : Admission) : Nat × BitVec 40 :=
  let l := match u.restore with
    | some g => (s.gang? g).bind fun y => kget s.launches y.launch
    | none => kget s.launches u.launch
  match l with
  | none => (0, 0#40)
  | some l =>
    (l.record.cores, ((l.shares.find? fun r => r.rank == u.rank).map RankShare.mask).getD (BitVec.ofNat 40 (2 ^ 40 - 1)))

/-- The unit chooses a group and sends its reservations (R51, R52); a group that cannot place the warps will refuse. -/
def State.reserve (s : State) (die : Nat) (u : Admission) : Admission :=
  let (shape, mask) := s.unitShape u
  let cores := s.pickGroup die shape mask
  match s.placeAll cores (s.toPlace u) [] with
  | some l =>
    { u with cores := cores, places := l.map fun e => e.1, allots := l.map fun e => e.2, replies := List.range cores.length,
             refused := false, retryAt := none }
  | none => { u with cores := cores, places := [], allots := [], replies := List.range cores.length, refused := true,
                     retryAt := none }

/-- The gang that a tenant would have admitted next on a die: a saved one, else one of its first eligible launch with a gang
not yet taken (R49, R50). Of queues of equal priority that the dies hold, the die's own comes first, then the others in
ascending order (log 85). A gang that is taken anew after a drain has broken off its admission starts with no refusal counted
(R53, log 107). -/
def State.nextGang (s : State) (die t : Nat) : Option Admission :=
  let mk := fun (launch rank index : Nat) (restore : Option Nat) =>
    ({ tenant := t, launch := launch, rank := rank, index := index, restore := restore, cores := [], places := [], allots := [],
       replies := [], refused := false, k := 0, retryAt := none, refusedAt := none } : Admission)
  let busy := fun (g : Nat) => (s.die die).units.any fun u => u.2.restore == some g
  let saved := (s.gangs.filter fun e => e.2.tenant == t && e.2.die == die && e.2.phase == .saved && !busy e.1).foldl
    (fun m e =>
      match m with
      | none => some e
      | some q => if e.2.savedAt < q.2.savedAt then some e else m) (none : Option (Nat × Gang))
  match saved with
  | some (g, y) => some (mk y.launch y.rank y.index (some g))
  | none =>
    (List.range 4).findSome? fun prio =>
      ([die] ++ (List.range 4).filter fun d => d != die).findSome? fun d =>
        let q := (s.tenant t).queue d prio
        match q.head, q.launch with
        | .eligible, some k =>
          match kget s.launches k with
          | none => none
          | some l =>
            (l.shares.find? fun r => r.die == die && (!r.back.isEmpty || decide (r.taken < r.count))).map fun r =>
              mk k r.rank (r.back.headD (r.first + r.taken)) none
        | _, _ => none

/-- Resident warps of a tenant on a die (R50). -/
def State.residentWarps (s : State) (die t : Nat) : Nat :=
  (s.agents.filter fun e => e.2.ident.tenant == t && !e.2.task && !e.2.ended && e.2.place.isSome && e.2.die == die).length

/-- A tenant may have a gang taken on a die (R50, R57). -/
def State.mayTake (s : State) (die t : Nat) : Bool :=
  let x := s.tenant t
  x.serves && decide (s.residentWarps die t < ebits (x.reg 0x58).toNat 20 8) && (s.nextGang die t).isSome

/-- The weight of a tenant (R351). -/
def Tenant.weight (x : Tenant) : Nat := max 1 ((x.reg 0x58).toNat % 256)

/-- A gang of the launch is taken: one that a drain gave back, else the next. -/
def Launch.take (rank : Nat) (l : Launch) : Launch :=
  { l with shares := l.shares.map fun r =>
      if r.rank = rank then
        match r.back with
        | [] => { r with taken := r.taken + 1 }
        | _ :: t => { r with back := t }
      else r }

/-- ADMISSION_TAKE (R50 to R52): a free unit of a die takes the next gang of the tenant whose turn it is, or of the next
tenant in the round that has one. -/
def execAdmissionTake (die : Nat) (s : State) : Out :=
  let d := s.die die
  match (List.range 4).find? fun u => (kget d.units u).isNone with
  | none => .next s
  | some unit =>
    let now := if d.taken < (s.tenant d.turn).weight then [d.turn] else []
    let order := now ++ (List.range (16 - d.turn - 1)).map (fun i => d.turn + 1 + i) ++ List.range (d.turn + 1)
    match order.find? (s.mayTake die) with
    | none => .next s
    | some t =>
      match s.nextGang die t with
      | none => .next s
      | some u =>
        let s1 := if u.restore.isSome then s
          else { s with launches := kmod s.launches u.launch (Launch.take u.rank) }
        let again := t == d.turn && decide (d.taken < (s.tenant d.turn).weight)
        .next (s1.modDie die fun d =>
          { d with units := kput d.units unit (s1.reserve die u), turn := t, taken := if again then d.taken + 1 else 1 })

/-- The turn of a tenant that has no gang to be taken ends (R50): what it had left of it is gone. -/
def State.endTurn (s : State) (die : Nat) : State :=
  if (s.die die).taken == 0 || (s.die die).taken == 255 || s.mayTake die (s.die die).turn then s
  else s.modDie die fun d => { d with taken := 255 }

/-- The core at a position can grant (R52). -/
def State.coreGrants (s : State) (u : Admission) (pos : Nat) : Bool :=
  let core := u.cores.getD pos 0
  let mine := (u.places.zip u.allots).filter fun e => e.1.core == core
  match s.unitGang u with
  | none => false
  | some (h, w) =>
    !u.refused && ((s.coreUse core).add (h.share w u.cores.length pos)).fits &&
    (List.range 8).all fun p =>
      let here := mine.filter fun e => e.1.part == p
      decide ((here.map fun e => e.2).sum ≤ s.freeRegs core p) &&
        here.all fun e => (s.freeSlots core p).contains e.1.slot

/-- One draw from the dispatcher's LFSR, and its jitter (R53). -/
def lfsrDraw (x : BitVec 16) : BitVec 16 × Nat :=
  let y := if x.getLsbD 0 then (x >>> 1) ^^^ 0xB400#16 else x >>> 1
  (y, (y &&& 0xF#16).toNat)

/-- The registers of a gang's warp at its start (R29). -/
def startRegs (l : Launch) (r : RankShare) (index : Nat) : Regs :=
  let put := fun (m : KMap Word) (n v : Nat) => ksetD 0#32 m n (BitVec.ofNat 32 v)
  let put2 := fun (m : KMap Word) (n v : Nat) => put (put m n v) (n + 1) (v / 4294967296)
  { alloc := l.header.budget * 32, v := [], vMark := [],
    s := put2 (put2 (put (put (put2 [] 0 l.record.param.toNat) 2 r.rank) 3 r.ranks) 4 index) 6 l.record.gangs
    sMark := 0, p := [] }

/-- The system registers at start (R29, R303). -/
def Sys.start : Sys :=
  { fpmode := 0#32, fpflags := 0#32, yreq := false, tcmp := 0xFFFFFFFFFFFFFFFF#64, tcause := 0#32, thandler := 0#64,
    samp := 0#32, sampCount := 0, causes := [], frame := none, labels := [], excess := 0, lovf := false }

/-- A warp of a newly admitted gang (R29, R296). -/
def startWarp (l : Launch) (r : RankShare) (index gang key widx now : Nat) (p : Place) (active : Bool) (grace : Word) : Agent :=
  { ident := { tenant := l.tenant, gang := gang, widx := widx, tser := 0, root := key, caller := 0, record := 0, born := now }
    place := some p, active := active, frozen := 0, task := false, queued := false, passed := 0, regs := startRegs l r index
    ctl := Ctl.start 0xFFFFFFFF#32 l.record.entry, sys := Sys.start, eng := Eng.start grace, flight := Flight.start
    slab := l.header.slab, recs := [] }

/-- The warps of a gang start in their places, in order, all born in this clock (R29, R33, R34, log 100). -/
def startWarps (l : Launch) (r : RankShare) (index gang : Nat) (grace : Word) : List (Place × Nat) → State → State
  | [], s => s
  | (p, i) :: t, s =>
    let key := s.nextKey
    let x := startWarp l r index gang key i s.time p (s.entersActive p.core p.part) grace
    startWarps l r index gang grace t { s.setAgent key x with nextKey := key + 1 }

/-- A new gang: nothing arrived, nothing counted, its windows as log 8 says, planes and tables +0 (R54, R290). -/
def newGang (l : Launch) (u : Admission) (die : Nat) : Gang :=
  { tenant := l.tenant, launch := u.launch, index := u.index, die := die, prio := l.prio, tag := l.record.tag, rank := u.rank,
    warps := l.record.warps, header := l.header, cores := u.cores, phase := .running, buf := [], bufMark := [], bars := [],
    warpMarks := [], msgs := [], flips := [], slots := [], planes := [], tables := [], deadline := none, forcedAt := none,
    savedAt := 0, savedReqs := [], spilled := false }

/-- Every gang of a launch has been committed: the next record of its queue comes to the head (R49). -/
def State.committed (s : State) (k : Nat) : State :=
  match kget s.launches k with
  | none => s
  | some l =>
    let l1 := { l with committed := l.committed + 1 }
    let s1 := { s with launches := kput s.launches k l1 }
    if l1.committed ≥ (l.shares.map RankShare.count).sum ∧ ((s.tenant l.tenant).queue l.die l.prio).launch = some k then
      s1.popHead l.tenant l.die l.prio
    else s1

/-- Commit (R52): the gang comes into being and its warps start; the start of each is the entry of a reader, so the L1 of its
cores keeps nothing (R136, log 92). -/
def State.commit (s : State) (die unit : Nat) (u : Admission) : State :=
  let s0 := s.modDie die fun d => { d with units := kdel d.units unit }
  match kget s.launches u.launch with
  | none => s0
  | some l =>
    match l.shares.find? fun r => r.rank == u.rank with
    | none => s0
    | some r =>
      let g := s.nextKey
      let s1 := { s0.setGang g (newGang l u die) with nextKey := g + 1 }
      ((u.cores.foldl (fun r c => r.invalL1 c)
        (startWarps l r u.index g (s.tenant l.tenant).issued u.places.zipIdx s1))).committed u.launch

/-- A refusal (R52, R53): every grant is released, and the unit backs off. -/
def State.backOff (s : State) (die unit : Nat) (u : Admission) : State :=
  let (x, jitter) := lfsrDraw (s.die die).lfsr
  let k := u.k + 1
  s.modDie die fun d =>
    { d with
      lfsr := x
      units := kput d.units unit
        { u with places := [], allots := [], replies := [], refused := false, k := k, refusedAt := some s.time
                 retryAt := some (s.time + 16 * 2 ^ min (k - 1) 6 + jitter) } }

/-- A unit of the die that stands before this one may still refuse in this clock, or one behind it has: the draws of one clock
come in ascending unit number (R53). -/
def State.drawWaits (s : State) (die unit : Nat) : Bool :=
  (s.die die).units.any fun e =>
    (decide (e.1 < unit) && (!e.2.replies.isEmpty || (e.2.retryAt.map fun t => decide (t ≤ s.time)).getD false)) ||
    (decide (unit < e.1) && e.2.refusedAt == some s.time)

/-- RESERVATION_REPLY (R52, R53): the next core answers; the last grant commits a new gang, and leaves a restored one to
GANG_RESTORE. -/
def execReservationReply (die unit : Nat) (s : State) : Out :=
  match kget (s.die die).units unit with
  | none => .next s
  | some u =>
    match u.replies with
    | [] => .next s
    | pos :: rest =>
      if !s.coreGrants u pos then .next (if s.drawWaits die unit then s else s.backOff die unit u)
      else
        let u1 := { u with replies := rest }
        if rest.isEmpty && u.restore.isNone then .next (s.commit die unit u1)
        else .next (s.modDie die fun d => { d with units := kput d.units unit u1 })

/-- BACKOFF_EXPIRY (R53): the wait is over, and the unit chooses a group anew. -/
def execBackoffExpiry (die unit : Nat) (s : State) : Out :=
  match kget (s.die die).units unit with
  | none => .next s
  | some u =>
    match u.retryAt with
    | none => .next s
    | some t =>
      if s.time < t then .next s
      else .next (s.modDie die fun d => { d with units := kput d.units unit (s.reserve die u) })

/-! ## COMPLETION_WORD_WRITE (R48, R354) -/

/-- The agents of a launch that have ended have stores which have not performed (R48: the dispatcher's write is a release). -/
def State.launchStores (s : State) (launch : Nat) : Bool :=
  s.agents.any fun e => ((s.gangOf e.2).map fun g => g.launch == launch).getD false && e.2.ended &&
    !storesAcked .system e.2.flight.nextOp e.2.flight.ops

/-- COMPLETION_WORD_WRITE: a count is added or a status ORed in at system scope; a word that cannot be written is reported
with code 14. -/
def execCompletionWordWrite (ix : Nat) (s : State) : Out :=
  match s.completions[ix]? with
  | none => .next s
  | some c =>
    if c.count && c.launch != 0 && s.launchStores c.launch then .next s
    else
      let s0 := { s with completions := s.completions.eraseIdx ix }
      let failed := s0.dispReport c.tenant c.addr false true c.tag
      if c.addr.toNat % 8 ≠ 0 then .next failed
      else
        match s0.translateDie c.die c.tenant c.addr .write with
        | (_, .fault _) => .next failed
        | (s1, .ok x) =>
          if s.reachHeld c.die .any x.key then .next s
          else
            let w := s1.le x.key 8
            let v := if c.count then w / 2 ^ 48 * 2 ^ 48 + (w + 1) % 2 ^ 48 else w ||| c.status * 2 ^ 56
            let s2 := s1.engineWriteAt ⟨1, 64, 0, false⟩ c.die 8 [x] (leBytes 8 v)
            .next (if c.irq then s2.irq c.tenant 0 else s2)

end Sys2Proof.Machine
end

