-- ==== Sys2Proof/Machine/Save.lean ====
section
/-! DEFINITION. The answers of the host driver to a stop (R315, R316, R323), pre-emption, saving, restoring and resetting
(R57 to R61, R318 to R321, R352). A step whose condition does not hold leaves the state as it is. -/

namespace Sys2Proof.Machine

/-! ## Restarting an agent (R311, R315, R316) -/

/-- A wait that the instruction at the head run has begun without an effect: it issues again (R214, R311). -/
def Hold.reissues : Hold → Bool
  | .grow _ => true
  | .waitc _ _ _ => true
  | .barWait _ => true
  | .qstate => true
  | .gwait _ => true
  | .fence _ _ => true
  | .fdefer _ _ _ _ _ => true
  | .setFree => true
  | .taskPush _ _ => true
  | _ => false

/-- The instruction that waits is to issue again. -/
def Ctl.reissue (c : Ctl) : Ctl :=
  if c.hold.reissues then { c with hold := .none, waitRun := 0#32, waitSince := none } else c

/-- Every faulted part passes through f. -/
def Flight.mapFaulted (f : LaneOp → LaneOp) (fl : Flight) : Flight :=
  { fl with ops := fl.ops.map (MemOp.mapLanes (fun l => l.st.isFaulted) f) }

/-- Parts that have met a fault are translated again (R316); their misses take entries anew (R91). -/
def Flight.retryParts (fl : Flight) : Flight :=
  ({ fl with ops := fl.ops.map fun o => { o with missed := o.pages } } : Flight).mapFaulted fun l =>
    { l with st := .fresh, loc := none }

/-- The stop is over. -/
def Ctl.goOn (c : Ctl) : Ctl := { c.reissue with stop := none, more := [], stall := false, waitSince := none }

/-- The records of an agent's stop that wait for a slot of the fault queue stay to be written as they are (R314); `waits` names
the agent where it goes on waiting for that, saved. -/
def State.keepRecords (s : State) (waits : Option Nat) (x : Agent) : State :=
  s.modTenant x.ident.tenant fun t =>
    { t with records := t.records ++
        ((x.ctl.stop.toList ++ x.ctl.more).filter fun p => !p.recorded).map fun p => (p.time, waits, s.stopRecord x p) }

/-- The stop is over; the agent's parts are re-issued, and then its instruction. -/
def Agent.restart (x : Agent) : Agent :=
  (x.mapCtl Ctl.goOn).mapFlight Flight.retryParts

/-- SKIP of parts that met a fault after issue: they are discarded; a `cflush` goes on past the page (R221, R244). -/
def MemOp.dropFaulted (o : MemOp) : MemOp :=
  if o.isFlush then
    match o.lanes with
    | [l] =>
      if l.st.isFaulted then
        let n := min o.rest (65536 - l.va.toNat % 65536)
        { o with rest := o.rest - n
                 lanes := [{ l with va := l.va + BitVec.ofNat 64 n, loc := none
                                    st := if o.rest ≤ n then .dropped else .fresh }] }
      else o
    | _ => o
  else o.mapLanes (fun l => l.st.isFaulted) fun l => { l with st := .dropped }

/-- The agent has parts that met a fault after issue. -/
def Agent.anyFaulted (x : Agent) : Bool := x.flight.ops.any fun o => o.lanes.any fun l => l.st.isFaulted

/-- Loads of the agent that lack no part any more are written, old values that waited for a discarded lane go to their targets
(R229), and what is finished leaves. -/
def State.settleOps (s : State) (a : Nat) (x : Agent) : State :=
  (x.flight.ops.foldl (fun r o => r.sendBack a o.id)
    ((x.flight.ops.filter fun o => o.returns && !o.written && !o.undone).foldl
      (fun r o => r.completeRead a o.id x.core) s)).tidy a

/-- The size of the instruction at a PC: 16 for class 6, else 8 (R140); 8 where it cannot be fetched. -/
def State.sizeAt (s : State) (x : Agent) (pc : DWord) : Nat :=
  match (s.translate x.core x.ident.tenant pc .fetch).2 with
  | .ok t => if takesSecondWord (BitVec.ofNat 64 (s.le t.key 8)) then 16 else 8
  | .fault _ => 8

/-- RETRY of a stopped agent (R315). -/
def State.retryAgent (s : State) (a : Nat) : State :=
  match s.agent? a with
  | some x => (s.keepRecords none x).modAgent a Agent.restart
  | none => s

/-- SKIP of a stopped agent (R315): its faulted parts are discarded; where there are none, the head run moves past its
instruction. -/
def State.skipAgent (s : State) (a : Nat) (x : Agent) : State :=
  let s := s.keepRecords none x
  let over_ := x.mapCtl Ctl.goOn
  if x.anyFaulted then
    let y := over_.mapFlight fun f => { f with ops := f.ops.map MemOp.dropFaulted }
    (s.setAgent a y).settleOps a y
  else
    match x.ctl.headRun with
    | some (pc, run) => s.setAgent a (over_.mapCtl fun c => c.advance run (s.sizeAt x pc))
    | none => s.setAgent a over_

/-! ## Context reset (R60, R254, R301, R352) -/

/-- An atomic whose old values nothing waits for any more. -/
def OpKind.noReturn : OpKind → OpKind
  | .atom op k => .red op k
  | .redRet op k => .red op k
  | k => k

/-- What is left of an agent's work: writes that have left the core, and set instructions, which complete, those that a
breakpoint holds among them (R275, R287). -/
def Flight.afterReset (f : Flight) : Flight :=
  { f with
    ops := (f.ops.filter fun o => o.lanes.any fun l => l.st.onWay).map fun o =>
      { o with kind := o.kind.noReturn, dst := none, lanes := o.lanes.filter fun l => l.st.onWay, rest := 0, released := true }
    setOps := f.setOps.map fun o => { o with held := false, released := true }
    bufOps := [], chases := [], pend := [], tokens := [], gstarts := [] }

/-- An agent that a reset ends: that is a quiescent point, which counts once what had left the core has performed (R134). -/
def Agent.afterReset (x : Agent) : Agent :=
  { x with
    queued := false
    active := false
    regs := { x.regs with alloc := 0, v := [], vMark := [] }
    ctl := { x.ctl with ended := 0xFFFFFFFF#32, parked := 0#32, parks := [], hold := .ended false, stop := none, more := [] }
    flight := x.flight.afterReset
    recs := [] }

/-- The tenant of a command's gang. -/
def State.ofTenant (s : State) (t g : Nat) : Bool := ((s.gang? g).map fun y => y.tenant == t).getD false

/-- The commands of a tenant leave a core. -/
def Core.dropTenant (mine : Nat → Bool) (c : Core) : Core :=
  { c with
    copies := c.copies.filter fun k => !mine k.gang
    tools := c.tools.filter fun k => !mine k.gang
    cmds := c.cmds.filter fun k => !mine k.gang }

/-- Every admission and every latigo entry of a tenant leaves a die. -/
def Die.dropTenant (t : Nat) (d : Die) : Die :=
  { d with units := d.units.filter fun u => u.2.tenant != t, latigo := d.latigo.filter fun e => e.tenant != t }

/-- The records that wait in a tenant's queues, each with its die. -/
def Tenant.queued (x : Tenant) : List (Nat × LaunchRec) := x.queues.flatMap fun q => q.2.recs.map fun r => (q.1 / 4, r)

/-- The launches of a tenant that have left their queue and not ended. -/
def State.runningLaunches (s : State) (t : Nat) : List (Nat × LaunchRec) :=
  (s.launches.filter fun e => e.2.tenant == t && !e.2.dropped && !((s.tenant t).queues.any fun q => q.2.launch == some e.1) &&
    e.2.shares.any fun r => decide (r.ended < r.count)).map fun e => (e.2.die, e.2.record)

/-- The context is reset (R60): every gang ends, queued launches and accepted commands are discarded, and status 1 goes to
the completion word of every launch that was queued or running. -/
def State.resetContext (s : State) (t : Nat) : State :=
  let x := s.tenant t
  let mine := s.ofTenant t
  let s1 := (x.queued ++ s.runningLaunches t).foldl (fun r e => r.complete t e.1 e.2 1) s
  let s2 := { s1 with
    agents := kmap (fun a => if a.ident.tenant = t then a.afterReset else a) s1.agents
    gangs := kmap (fun (g : Gang) => if g.tenant = t then { g with phase := .ended, msgs := [], flips := [] } else g) s1.gangs
    launches := kmap (fun (l : Launch) => if l.tenant = t then { l with dropped := true } else l) s1.launches
    cores := kmap (Core.dropTenant mine) s1.cores
    dies := kmap (Die.dropTenant t) s1.dies }
  s2.modTenant t fun x =>
    { x with queues := [], draining := false, saved := false, resetting := true
             reports := x.reports.filter fun r => r.code != codeEngBreak }

/-- CONTEXT_RESET (R60, R352): `CTX_CTL.RST`. A context that does not exist, or is being reset, has nothing to reset. -/
def execContextReset (tenant : Nat) (s : State) : Out :=
  if !(s.tenant tenant).enabled || (s.tenant tenant).resetting then .next s else .next (s.resetContext tenant)

/-- CONTEXT_RESET_COMPLETE (R352): what had left the cores has performed and the completion words are written; the context
is empty. -/
def execContextResetComplete (tenant : Nat) (s : State) : Out :=
  let busy := fun (x : Agent) => x.ident.tenant == tenant &&
    (!x.flight.setOps.isEmpty || x.flight.ops.any fun o => o.lanes.any fun l => l.st.onWay)
  if !(s.tenant tenant).resetting || s.agents.any (fun e => busy e.2) || s.completions.any (fun c => c.tenant == tenant) then
    .next s
  else
    .next ({ s with
      agents := s.agents.filter fun e => e.2.ident.tenant != tenant
      gangs := s.gangs.filter fun e => e.2.tenant != tenant
      launches := s.launches.filter fun e => e.2.tenant != tenant }.modTenant tenant fun x => { x with resetting := false })

/-! ## Creating and removing a context (R277, R296, R352) -/

/-- EN becomes 1 with what the registers configure; what its capability list says of modules and ports stays the same from then
on (R310). -/
def Tenant.enable (d : Device) (x : Tenant) : Tenant :=
  let len := (x.reg 0x38).toNat
  { x.setReg 0 (x.reg 0 ||| 1#64) with
    issued := 0#32
    doneT := 0#32
    stalls := []
    stallReports := []
    heap := if len = 0 then [] else [((x.reg 0x30).toNat, len)]
    capModules := d.modules
    capPorts := d.ports }

/-- The fault queue has a size that R351 allows. -/
def Tenant.queueSized (x : Tenant) : Bool := 4 ≤ ebits (x.reg 0x70).toNat 4 0 && ebits (x.reg 0x70).toNat 4 0 ≤ 16

/-- CONTEXT_ENABLE (R352, R359): the context comes to exist, if its fault queue has a size and the firmware is verified. -/
def execContextEnable (tenant : Nat) (s : State) : Out :=
  let x := s.tenant tenant
  if tenant ≥ 16 || x.enabled || !x.queueSized || !s.device.verified then .next s
  else .next (s.modTenant tenant (Tenant.enable s.device))

/-- The context holds resident, saved or queued work. -/
def State.hasWork (s : State) (t : Nat) : Bool :=
  s.agents.any (fun e => e.2.ident.tenant == t) || s.gangs.any (fun e => e.2.tenant == t) ||
  s.launches.any (fun e => e.2.tenant == t) || !(s.tenant t).queued.isEmpty || (s.tenant t).resetting

/-- CONTEXT_DISABLE (R352): EN becomes 0 where the context holds no work. -/
def execContextDisable (tenant : Nat) (s : State) : Out :=
  if !(s.tenant tenant).enabled || s.hasWork tenant then .next s
  else .next (s.modTenant tenant fun x =>
    { x.setReg 0 (x.reg 0 &&& ~~~(1#64)) with saved := false, draining := false })

/-! ## Pre-emption (R57 to R60) -/

/-- `YDL` of a priority in units of time (R57, R351). -/
def Tenant.yieldTime (x : Tenant) (prio : Nat) : Nat := 940 * max 1 (ebits (x.reg 0x60).toNat (16 * prio + 15) (16 * prio))

/-- Gangs whose admission a drain breaks off go back to their share (R57). -/
def giveBack (units : List Admission) (k : Nat) (l : Launch) : Launch :=
  { l with shares := l.shares.map fun r =>
      { r with back := (units.filter fun u => u.launch == k && u.rank == r.rank && u.restore.isNone).foldl
                 (fun b u => nins u.index b) r.back } }

/-- A gang of the context gets its deadline; a save already under way is to complete after it too. -/
def Gang.underDeadline (d : Nat) (g : Gang) : Gang :=
  if g.phase = .running then { g with deadline := some d }
  else if g.phase = .saving ∧ g.forcedAt.isNone then { g with forcedAt := some d }
  else g

/-- PREEMPT_REQUEST (R57): the drain begins; admissions of the context are broken off, `sys.yreq` becomes 1, every gang gets
its deadline. -/
def execPreemptRequest (tenant : Nat) (s : State) : Out :=
  let x := s.tenant tenant
  if !x.enabled || x.draining || x.saved || x.resetting then .next s
  else
    let units := (s.dies.flatMap fun d => d.2.units.map fun u => u.2).filter fun u => u.tenant == tenant
    let s1 := { s with
      launches := s.launches.map fun (e : Nat × Launch) => (e.1, giveBack units e.1 e.2)
      dies := kmap (fun (d : Die) => { d with units := d.units.filter fun u => u.2.tenant != tenant }) s.dies
      agents := kmap (fun (a : Agent) => if a.ident.tenant = tenant then a.mapSys fun y => { y with yreq := true } else a) s.agents
      gangs := kmap (fun (g : Gang) => if g.tenant = tenant then g.underDeadline (s.time + x.yieldTime g.prio) else g) s.gangs }
    .next ((s1.modTenant tenant fun x => { x with draining := true }).drainCheck tenant)

/-- YIELD_DEADLINE (R59, R320): every agent of the gang that has not yielded stops at its next issue boundary, and the gang
is saved by force. -/
def execYieldDeadline (gang : Nat) (s : State) : Out :=
  match s.gang? gang with
  | none => .next s
  | some g =>
    match g.deadline with
    | none => .next s
    | some d =>
      if g.phase = .running ∧ (s.tenant g.tenant).draining ∧ d ≤ s.time then
        .next (s.modGang gang fun g => { g with phase := .saving, forcedAt := some d })
      else .next s

/-- FORCED_SAVE_LIMIT (R60): 50 µs after the deadline a save that has not completed resets the context. -/
def execForcedSaveLimit (gang : Nat) (s : State) : Out :=
  match s.gang? gang with
  | none => .next s
  | some g =>
    match g.forcedAt with
    | none => .next s
    | some d =>
      if g.phase = .saving ∧ d + 50 * 940 ≤ s.time then .next (s.resetContext g.tenant) else .next s

/-! ## GANG_SAVE (R58, R254, R295, R318 to R320) -/

/-- The agent plays its part in a cooperative save (R58). -/
def Agent.letsSave (x : Agent) : Bool :=
  x.queued || (match x.ctl.hold with | .yielded _ => true | .ended _ => true | .held _ => true | _ => false)

/-- A part does not hinder the save (R320): it has performed, it has met a fault, or it must wait behind one; a `cflush` may
stay recorded. -/
def Flight.laneSavable (f : Flight) (o : MemOp) (l : LaneOp) : Bool :=
  match l.st with
  | .fresh => o.isFlush
  | .ready => o.isFlush || (f.behindFault o.id && f.laneWaits o l)
  | .drained => false
  | .sent => false
  | _ => true

/-- Of an agent's work in flight nothing hinders the save: what has left a core has performed, set instructions and walks are
complete but for those that a breakpoint holds (R275, R311, R320), and of the rest only what must wait behind a fault is left
(log 56). -/
def State.agentSavable (s : State) (a : Nat) (x : Agent) : Bool :=
  let f := x.flight
  f.ops.all (fun o => o.lanes.all (f.laneSavable o)) &&
  f.bufOps.all (fun o => o.lanes.all fun l => l.done || (f.behindFault o.id && bufWaits f o l)) &&
  (blockedSets f.setOps).length == f.setOps.length && f.chases.all Chase.held &&
  f.gstarts.all fun g => !g.2.2 && f.behindFault g.1 && !s.olderDone a g.1

/-- A command does not hinder the save: it has not started, or has ended, or is a `chain.run` between two steps (R254). -/
def Cmd.savable (k : Cmd) : Bool :=
  !k.started || k.ended || (match k.kind with | .chainRun _ _ => !k.halted | _ => false)

/-- Every condition of R320 for writing the record. -/
def State.savable (s : State) (g : Nat) (y : Gang) : Bool :=
  s.agents.all (fun e => e.2.ident.gang != g || s.agentSavable e.1 e.2) && y.msgs.isEmpty && y.flips.isEmpty &&
  s.cores.all fun c => c.2.cmds.all (fun k => k.gang != g || k.savable) && c.2.copies.all (fun k => k.gang != g || !k.cancel) &&
    c.2.tools.all fun k => k.gang != g || !k.cancel

/-- An agent as the record holds it (R211, R214, R319): parts not performed wait for translation, groups whose write has come
are awake, an instruction that waited is to issue again. The end keeps its place until its stores have performed. -/
def Agent.saveInto (issued : Word) (x : Agent) : Agent :=
  if x.ended then x
  else
    let y := x.wake ParkGroup.fired
    let quiet := x.flight.quiet && (match x.ctl.hold with | .yielded false => true | _ => false)
    { y with
      place := none
      active := false
      ctl := { y.ctl.reissue with stall := false, waitSince := none }
      eng := if quiet then { y.eng with grace := issued } else y.eng
      flight := { y.flight with
        ops := y.flight.ops.map (MemOp.mapLanes (fun l => l.st.isReady) fun l => { l with st := .fresh, loc := none }) } }

/-! ### The save partition (R21, R318) -/

/-- The bytes of some of a gang's parts (R319): for each agent its vector and scalar registers, its predicates, its PCs and its
slab, for each core the grants of its buffers. -/
def State.recordBytes (s : State) (g : Nat) (y : Gang) : Nat :=
  ((s.savedAgents g).map fun e => 128 * e.2.regs.alloc + 1376 + 256 * e.2.slab).sum +
    1024 * (y.header.abufk + y.header.wbufk + y.header.cbufk) * y.cores.length

/-- The lines of a die's save partition, ways 9 to 11 of its every slice (R21). -/
def partitionLines : Nat := 98304

/-- The lines of the save partition that a gang's record takes: at least those of the parts that `recordBytes` counts, and never
more than there are (log 36). -/
def State.recordLines (s : State) (g : Nat) (y : Gang) : Nat :=
  let bytes := s.recordBytes g y
  min partitionLines ((bytes + 255) / 256 + Config.savedLines bytes)

/-- The saved gangs whose records lie in the save partition of a die. -/
def State.inPartition (s : State) (die : Nat) : List (Nat × Gang) :=
  s.gangs.filter fun e => e.2.die == die && e.2.phase == .saved && !e.2.spilled

/-- The save partition of the gang's die has room for its record. -/
def State.saveRoom (s : State) (g : Nat) (y : Gang) : Bool :=
  decide (((s.inPartition y.die).map fun e => s.recordLines e.1 e.2).sum + s.recordLines g y ≤ partitionLines)

/-- The lines of the tenant's context-save area that a spilled record takes, each with the REQ of a saved agent whose part it
holds; none where the host driver has set no area (R318, log 36). -/
def State.spillLines (s : State) (g : Nat) (y : Gang) : List (Nat × Nat) :=
  let x := s.tenant y.tenant
  let base := (x.reg 0x90).toNat / 256
  let len := (x.reg 0x98).toNat / 256
  let n := s.recordLines g y
  if len = 0 then []
  else (List.range n).map fun i =>
    (base + (Config.spillLine g + i) % len, y.savedReqs.getD (i * y.savedReqs.length / n) 0)

/-- The requests of class BG that move a record between the save partition and the context-save area (R102, R103). -/
def State.spillAsks (s : State) (ls : List (Nat × Nat)) (write : Bool) : State :=
  ls.foldl (fun r e =>
    match devKey (256 * e.1) with
    | some k => r.hbmAsk ⟨3, 0, e.2, false⟩ (k / 256) 0xFF#8 write false false
    | none => r) s

/-- The contents of a spilled record, whose layout is not architectural, stand in the context-save area (log 36). -/
def State.spillWrite (s : State) (ls : List (Nat × Nat)) : State :=
  (ls.zipIdx).foldl (fun r e => r.devWrite (256 * e.1.1) (freeBytes (s.free + 256 * e.2) 256))
    { s with free := s.free + 256 * ls.length }

/-- The record of this die that was saved first of those in its partition. -/
def State.oldestSaved (s : State) (die : Nat) : Option (Nat × Gang) :=
  (s.inPartition die).foldl (fun m e =>
    match m with
    | none => some e
    | some q => if e.2.savedAt < q.2.savedAt then some e else m) none

/-- The oldest record of a die's save partition goes to the context-save area (R318). -/
def State.spillOldest (s : State) (die : Nat) : State :=
  match s.oldestSaved die with
  | none => s
  | some (g, y) =>
    let ls := s.spillLines g y
    ((s.spillWrite ls).spillAsks ls true).modGang g fun y => { y with spilled := true }

/-- The gang's copies, tooling commands and runs that have started stop, each with its record in the trace (R254, R320, R324). -/
def State.stopCommands (s : State) (g : Nat) : State :=
  s.cores.foldl (fun r e =>
    let c := e.1
    let r1 := (e.2.copies.filter fun k => k.gang == g && k.engine.isSome).foldl (fun r k =>
      (r.trace (k.name c) .stop 0).modCopy c k.id fun j => { j with engine := none, stopped := true }) r
    let r2 := (e.2.tools.filter fun k => k.gang == g && decide (0 < k.chunk) && !k.stopped).foldl (fun r k =>
      (r.trace (k.name c) .stop 0).modTool c k.id fun j => { j with stopped := true }) r1
    (e.2.cmds.filter fun k => k.gang == g && k.started && !k.ended && !k.stopped).foldl (fun r k =>
      (r.traceCmd c k .stop 0).modCmd c k.id fun j => { j with stopped := true }) r2) s

/-- The records of faults that the gang's agents have met and that no slot has been free for stay to be written (R314). -/
def State.keepStops (s : State) (g : Nat) : State :=
  (s.agents.filter fun e => e.2.ident.gang == g && e.2.place.isSome).foldl (fun r e =>
    (r.keepRecords (some e.1) e.2).modAgent e.1 (Agent.mapCtl fun c =>
      { c with stop := c.stop.map fun p => { p with recorded := true }, more := c.more.map fun p => { p with recorded := true } })) s

/-- GANG_SAVE: a gang all of whose agents have yielded, ended or are held begins its save; one whose save has nothing left
to wait for is saved; while its die's save partition has no room for it, the oldest record there is spilled (R318). -/
def execGangSave (gang : Nat) (s : State) : Out :=
  match s.gang? gang with
  | none => .next s
  | some y =>
    let t := s.tenant y.tenant
    match y.phase with
    | .running =>
      if t.draining && s.agents.all (fun e => e.2.ident.gang != gang || e.2.letsSave) then
        .next (s.modGang gang fun g => { g with phase := .saving, forcedAt := g.deadline })
      else .next s
    | .saving =>
      if !s.savable gang y then .next s
      else if !s.saveRoom gang y then .next (s.spillOldest y.die)
      else
        let reqs := (s.savedAgents gang).filterMap fun e => e.2.place.map reqOf
        let s0 := (s.stopCommands gang).keepStops gang
        let s1 := { s0 with
          agents := kmap (fun a => if a.ident.gang = gang then a.saveInto t.issued else a) s0.agents }
        .next ((s1.modGang gang fun g =>
          { g with phase := .saved, savedAt := s.time, savedReqs := reqs, deadline := none, forcedAt := none }).drainCheck y.tenant)
    | _ => .next s

/-- A gang of the die waits for room in the save partition. -/
def State.partitionFull (s : State) (die : Nat) : Bool :=
  s.gangs.any fun e => e.2.die == die && e.2.phase == .saving && s.savable e.1 e.2 && !s.saveRoom e.1 e.2

/-- SAVE_SPILL (R318): while the save partition of a die is full, its oldest saved record goes to the context-save area. -/
def execSaveSpill (die : Nat) (s : State) : Out := .next (if s.partitionFull die then s.spillOldest die else s)

/-! ## Resuming and restoring (R61, R321) -/

/-- `sys.yreq` of a tenant's agent reads 0 again, that of a task that waits to start too (R61, R321). -/
def Agent.clearYreq (tenant : Nat) (a : Agent) : Agent :=
  if a.ident.tenant = tenant then a.mapSys fun y => { y with yreq := false } else a

/-- CONTEXT_RESUME (R61, R352): a saved context is admitted again; a drain ends, and gangs with an agent that has yielded
complete their save first. -/
def execContextResume (tenant : Nat) (s : State) : Out :=
  let x := s.tenant tenant
  if x.resetting then .next s
  else if x.saved then
    .next ({ s with agents := kmap (Agent.clearYreq tenant) s.agents }.modTenant tenant fun x => { x with saved := false })
  else if x.draining then
    let yields := fun (g : Nat) => s.agents.any fun e => e.2.ident.gang == g &&
      (match e.2.ctl.hold with | .yielded _ => true | _ => false)
    let s1 := { s with
      agents := kmap (Agent.clearYreq tenant) s.agents
      gangs := s.gangs.map fun (e : Nat × Gang) =>
        (e.1, if e.2.tenant = tenant ∧ e.2.phase = GangPhase.running then
            { e.2 with deadline := none, phase := if yields e.1 then GangPhase.saving else GangPhase.running }
          else e.2) }
    .next (s1.modTenant tenant fun x => { x with draining := false })
  else .next s

/-- A park group after a restore: a watch counts only what comes after it, and a timeout starts again in full (R211). -/
def ParkGroup.restored (now : Nat) (g : ParkGroup) : ParkGroup :=
  { g with fired := false, wakeAt := g.clocks.map fun n => now + max n 1 }

/-- A SKIP of the agent, written while it was saved, discards parts that met a fault (R315). -/
def Agent.skipsParts (x : Agent) : Bool := x.anyFaulted && (x.ctl.stop.bind Stop.deferred) == some 1

/-- What a restore gives back waits for request and miss entries (R91, R96, R239, R321). -/
def Flight.entersAnew (f : Flight) : Flight :=
  { f with ops := f.ops.map fun o => { o with waiting := o.open, missed := [] }
           chases := f.chases.map fun c => { c with waiting := decide (0 < c.open) } }

/-- An agent that takes its place again (R61, R316, R321): a yield is over, parts are re-issued, and a stop that they alone
had brought is answered by that; where a SKIP is to take effect now, the parts that met a fault are discarded. -/
def Agent.restoreAt (now : Nat) (p : Place) (active : Bool) (x : Agent) : Agent :=
  let y := (x.mapParks (ParkGroup.restored now)).mapFlight fun f =>
    (if x.skipsParts then { f with ops := f.ops.map MemOp.dropFaulted } else f.retryParts).entersAnew
  { y with
    place := some p
    active := active
    frozen := 0
    ident := { y.ident with born := now }
    sys := { y.sys with yreq := false }
    ctl := { y.ctl with
      more := []
      stall := false
      hold := match y.ctl.hold with | .yielded _ => .none | h => h
      stop := y.ctl.stop.bind fun p => if p.logIx.isSome then none else some p } }

/-- An answer that was written while the agent was saved (R315) takes effect: 0 RETRY, 1 SKIP; RESET is for the whole context.
`was` is the agent as the record held it. -/
def State.answerDeferred (s : State) (a : Nat) (was : Agent) : State :=
  match was.ctl.stop.bind Stop.deferred, s.agent? a with
  | some 0, some _ => s.retryAgent a
  | some 1, some x => if was.skipsParts then (s.modAgent a (Agent.mapCtl Ctl.goOn)).settleOps a x else s.skipAgent a x
  | _, _ => s

/-- The saved agents of a gang take their new places, in order. -/
def restoreAgents : List ((Nat × Agent) × Place) → State → State
  | [], s => s
  | ((a, x), p) :: t, s =>
    let y := x.restoreAt s.time p (s.entersActive p.core p.part)
    restoreAgents t ((s.setAgent a y).answerDeferred a x)

/-- The converted ways of a core after a restore: what a restored gang finds there is not defined (R319); where no other gang
runs on the core the bytes are free, else they are that gang's (log 94). -/
def State.wayFree (s : State) (g core : Nat) : State :=
  if s.gangs.any fun e => e.1 != g && e.2.phase != .saved && e.2.cores.contains core then s
  else
    let n := (s.core core).ways * 16384
    { s with free := s.free + n }.modCore core fun c =>
      { c with wayMem := (((freeBytes s.free n).zipIdx).filter fun (e : Byte × Nat) => e.1 != 0#8).map fun (e : Byte × Nat) => (e.2, e.1)
               wayMark := [] }

/-- A gang's copies, tooling commands and class-3 commands at one position move to the core that now stands there, in their
order, with no engine taken (R254, R321). -/
def State.moveCommands (s : State) (g pos old new : Nat) : State :=
  let c := s.core old
  let mine := fun (k p : Nat) => k == g && p == pos
  let copies := c.copies.filter fun k => mine k.gang k.pos
  let tools := c.tools.filter fun k => mine k.gang k.pos
  let cmds := c.cmds.filter fun k => mine k.gang k.pos
  let s1 := s.setCore old
    { c with copies := c.copies.filter fun k => !mine k.gang k.pos, tools := c.tools.filter fun k => !mine k.gang k.pos
             cmds := c.cmds.filter fun k => !mine k.gang k.pos }
  s1.modCore new fun d =>
    let n := d.nextCmd
    { d with
      copies := d.copies ++ (copies.zipIdx).map fun (e : Copy × Nat) => { e.1 with id := n + e.2 }
      tools := d.tools ++ (tools.zipIdx).map fun (e : Tool × Nat) => { e.1 with id := n + copies.length + e.2 }
      cmds := d.cmds ++ (cmds.zipIdx).map fun (e : Cmd × Nat) => { e.1 with id := n + copies.length + tools.length + e.2 }
      nextCmd := n + copies.length + tools.length + cmds.length }

/-- GANG_RESTORE (R61, R315, R316, R321): the readmitted gang's state is written back; its arrays and tables are as at commit
(R54), and waits for grace periods that have completed meanwhile are over. -/
def execGangRestore (die unit : Nat) (s : State) : Out :=
  match kget (s.die die).units unit with
  | none => .next s
  | some u =>
    match u.restore.bind fun g => (s.gang? g).map fun y => (g, y) with
    | none => .next s
    | some (g, y) =>
      if !u.replies.isEmpty || u.refused || u.retryAt.isSome || y.phase ≠ .saved then .next s
      else
        let s0 := s.modDie die fun d => { d with units := kdel d.units unit }
        let moved := (y.cores.zip u.cores).zipIdx.foldl (fun r e => r.moveCommands g e.2 e.1.1 e.1.2) s0
        let s1 := moved.modGang g fun y =>
          { y with phase := .running, cores := u.cores, planes := [], tables := [], spilled := false, deadline := none
                   forcedAt := none, savedReqs := [] }
        let resets := (s.savedAgents g).any fun e => (e.2.ctl.stop.bind Stop.deferred) == some 2
        let s2 := restoreAgents ((s.savedAgents g).zip u.places) ((u.cores.foldl (fun r c => r.wayFree g c) s1))
        let s3 := (u.cores.foldl (fun r c => r.invalL1 c) s2).spillAsks (if y.spilled then s.spillLines g y else []) false
        .next (if resets then s3.resetContext y.tenant else s3.gwaitWake y.tenant (s.tenant y.tenant).doneT)

end Sys2Proof.Machine
end

