-- ==== Sys2Proof/Machine/FaultEv.lean ====
section
/-! DEFINITION. What the host driver does about a stopped agent or a held command (R315, R316, R323), and the records of the
fault queue (R314). A step whose condition does not hold leaves the state as it is. -/

namespace Sys2Proof.Machine

/-! ## Who is named (R315) -/

/-- The agent stands under this name in its tenant. -/
def State.isNamed (s : State) (t : Nat) (who : AgentName) (x : Agent) : Bool :=
  x.ident.tenant == t &&
  match who with
  | .byPlace core part slot => x.place == some ⟨core, part, slot⟩ && (!x.ended || x.ctl.stop.isSome)
  | .byIdentity gang widx tser => s.gangIndex x == gang && x.ident.widx == widx && x.ident.tser == tser

/-- A command that an engine breakpoint holds (R323). -/
inductive Held where
  | copy (core : Nat) (k : Copy)
  | tool (core : Nat) (k : Tool)
  | cmd (core : Nat) (k : Cmd)
  | setOp (o : SetOp)
  | chase (o : Chase)
  deriving DecidableEq, Repr

def Held.seq : Held → Nat
  | .copy _ k => k.seq.toNat
  | .tool _ k => k.seq.toNat
  | .cmd _ k => k.seq.toNat
  | .setOp o => o.seq.toNat
  | .chase o => o.seq.toNat

/-- The held commands of an agent. -/
def State.heldBy (s : State) (a : Nat) (x : Agent) : List Held :=
  (s.cores.flatMap fun c =>
    ((c.2.copies.filter fun k => k.agent == a && k.held).map fun k => Held.copy c.1 k) ++
    ((c.2.tools.filter fun k => k.agent == a && k.held).map fun k => Held.tool c.1 k) ++
    ((c.2.cmds.filter fun k => k.agent == a && k.held).map fun k => Held.cmd c.1 k)) ++
  ((x.flight.setOps.filter fun o => o.held).map Held.setOp) ++ ((x.flight.chases.filter fun o => o.held).map Held.chase)

/-- The one of them that was accepted first. -/
def firstHeld : List Held → Option Held
  | [] => none
  | h :: t =>
    match firstHeld t with
    | none => some h
    | some k => if h.seq ≤ k.seq then some h else some k

/-- What an action acts on: a stopped agent of the name, else the first held command of one. -/
inductive Target where
  | agent (a : Nat) (x : Agent) (p : Stop)
  | command (a : Nat) (x : Agent) (h : Held)
  | nothing

def State.target (s : State) (t : Nat) (who : AgentName) : Target :=
  let named := s.agents.filter fun e => s.isNamed t who e.2
  match named.find? fun e => e.2.ctl.stop.isSome with
  | some (a, x) =>
    match x.ctl.stop with
    | some p => .agent a x p
    | none => .nothing
  | none =>
    match named.findSome? fun e => (firstHeld (s.heldBy e.1 e.2)).map fun h => (e.1, e.2, h) with
    | some (a, x, h) => .command a x h
    | none => .nothing

/-- The answer to a saved agent waits for its restore (R315). -/
def State.defer (s : State) (a action : Nat) : State :=
  s.modAgent a (Agent.mapCtl fun c => { c with stop := c.stop.map fun p => { p with deferred := some action } })

/-! ## Held commands (R323) -/

/-- RETRY releases a held command. -/
def State.releaseHeld (s : State) (a : Nat) : Held → State
  | .copy core k => s.modCopy core k.id fun j => { j with held := false, released := true }
  | .tool core k => s.modTool core k.id fun j => { j with held := false, released := true }
  | .cmd core k => s.modCmd core k.id fun j => { j with held := false, released := true }
  | .setOp o => s.modAgent a (Agent.mapFlight fun f =>
      { f with setOps := f.setOps.map fun q => if q.id = o.id then { q with held := false, released := true } else q })
  | .chase o => s.modAgent a (Agent.mapFlight (Flight.modChase o.id fun q => { q with held := false, released := true }))

/-- The registers that wait for a discarded instruction get values that the manual does not state (log 35). -/
def Agent.giveFree (k id : Nat) (m : Lanes) (x : Agent) : Agent :=
  (((x.flight.pend.filter fun e => e.2 == id).zipIdx).foldl (fun (y : Agent) (e : (Opnd × Nat) × Nat) =>
    y.mapRegs fun r =>
      match e.1.1 with
      | .v n => r.setV n m (fun l => Config.freeWord (k + 32 * e.2 + l)) 0#32
      | .s n => r.setS n (Config.freeWord (k + 32 * e.2)) false
      | .p n => r.setP n m fun l => (Config.freeWord (k + 32 * e.2)).getLsbD l
      | _ => r) x).unpend id

/-- SKIP discards a held command: its token reads status 1 with INFO 0, its slot is counted, and it arrives nowhere. -/
def State.discardHeld (s : State) (a : Nat) : Held → State
  | .copy core k => s.copyEnd core k 1 0
  | .tool core k => s.toolEnd core k 1 0
  | .cmd core k =>
    (match k.kind with
     | .chainRun _ reg => s.modAgent k.agent (Agent.cursorBack reg k.after k.cursor)
     | _ => s).countCmd core k
  | .setOp o =>
    { s with free := s.free + 128 }.modAgent a fun x =>
      (x.giveFree s.free o.id o.act).mapFlight fun f => { f with setOps := f.setOps.filter fun q => q.id != o.id }
  | .chase o =>
    { s with free := s.free + 128 }.modAgent a fun x =>
      (x.giveFree s.free o.id o.act).mapFlight fun f => { f with chases := f.chases.filter fun q => q.id != o.id }

/-! ## RETRY, SKIP, RESET (R315) -/

/-- RETRY: the agent restarts from its stop, or a held command is released. -/
def execRetry (tenant : Nat) (who : AgentName) (s : State) : Out :=
  match s.target tenant who with
  | .agent a x _ => .next (if x.place.isSome then s.retryAgent a else s.defer a 0)
  | .command a _ h => .next (s.releaseHeld a h)
  | .nothing => .next s

/-- SKIP: the faulted parts are discarded or the head run moves past its instruction, or a held command is discarded. -/
def execSkip (tenant : Nat) (who : AgentName) (s : State) : Out :=
  match s.target tenant who with
  | .agent a x _ => .next (if x.place.isSome then s.skipAgent a x else s.defer a 1)
  | .command a _ h => .next (s.discardHeld a h)
  | .nothing => .next s

/-- RESET: the context of the stopped agent is reset (R60). -/
def execResumeReset (tenant : Nat) (who : AgentName) (s : State) : Out :=
  match s.target tenant who with
  | .agent a x _ => .next (if x.place.isSome then s.resetContext tenant else s.defer a 2)
  | .command _ _ _ => .next s
  | .nothing => .next s

/-! ## FAULT_RECORD (R314, R351, R354) -/

/-- A record that waits for a slot: of an agent, its own stop or one of the further ones; or a report. -/
inductive Unwritten where
  | stop (a : Nat) (x : Agent) (p : Stop)
  | report (r : Report)
  | record (time : Nat) (waits : Option Nat) (bytes : List Byte)

def Unwritten.time : Unwritten → Nat
  | .stop _ _ p => p.time
  | .report r => r.time
  | .record t _ _ => t

/-- The records of a tenant that are not written. -/
def State.unwritten (s : State) (t : Nat) : List Unwritten :=
  (s.agents.flatMap fun e =>
    if e.2.ident.tenant = t ∧ e.2.place.isSome then
      ((e.2.ctl.stop.toList ++ e.2.ctl.more).filter fun p => !p.recorded).map fun p => Unwritten.stop e.1 e.2 p
    else []) ++ (s.tenant t).reports.map Unwritten.report ++
  (s.tenant t).records.map fun r => Unwritten.record r.1 r.2.1 r.2.2

/-- The one met first. -/
def firstUnwritten : List Unwritten → Option Unwritten
  | [] => none
  | u :: t =>
    match firstUnwritten t with
    | none => some u
    | some v => if u.time ≤ v.time then some u else some v

/-- A record has been written. -/
def Ctl.recorded (p : Stop) (c : Ctl) : Ctl :=
  let f := fun (q : Stop) => if q = p then { q with recorded := true } else q
  { c with stop := c.stop.map f, more := c.more.map f }

/-- The fault queue is full: its counts differ by its number of slots (R351). -/
def Tenant.queueFull (x : Tenant) : Bool :=
  (x.reg 0x80 - x.reg 0x78).toNat == 2 ^ ebits (x.reg 0x70).toNat 4 0

/-- An agent waits for a slot of the fault queue (R314, R352): one that has stopped with its record unwritten, or one that was
saved so. -/
def State.agentWaits (s : State) (t : Nat) : Bool :=
  (s.unwritten t).any fun u =>
    match u with
    | .stop _ _ _ => true
    | .report _ => false
    | .record _ a _ => ((a.bind s.agent?).map fun x => x.ctl.stop.isSome).getD false

/-- FAULT_RECORD: the record met first goes to the next slot of the fault queue, and the fault interrupt is raised. -/
def execFaultRecord (tenant : Nat) (s : State) : Out :=
  let x := s.tenant tenant
  if !x.enabled || x.queueFull then .next s
  else
    match firstUnwritten (s.unwritten tenant) with
    | none => .next s
    | some u =>
      let pa := (x.reg 0x68).toNat / 64 * 64 + 64 * ((x.reg 0x80).toNat % 2 ^ ebits (x.reg 0x70).toNat 4 0)
      let key := devKey pa
      if (key.map (s.ownedLine .any)).getD false then .next s
      else
        let bytes := match u with
          | .stop _ y p => s.stopRecord y p
          | .report r => reportRecord tenant r
          | .record _ _ b => b
        let s1 := match u with
          | .stop a _ p => s.modAgent a (Agent.mapCtl (Ctl.recorded p))
          | .report r => s.modTenant tenant fun y => { y with reports := y.reports.erase r }
          | .record t a b => s.modTenant tenant fun y => { y with records := y.records.erase (t, a, b) }
        let s2 := match key with
          | some k => s1.engineWriteAt ⟨1, 64, 0, false⟩ (homeDie k) 64 [plainXlat k] bytes
          | none => s1
        .next ((s2.modTenant tenant fun y => y.setReg 0x80 (y.reg 0x80 + 1#64)).irq tenant 1)

end Sys2Proof.Machine
end

