-- ==== Sys2Proof/Machine/IrOps.lean ====
section
/-! DEFINITION. The instructions as the operations of Brosedin IR (R342, R343): their guard and operands apart from the rest,
and the types of the values that each reads and defines. -/

namespace Sys2Proof.Machine

/-! ## Guard and operands -/

/-- An instruction with its guard and its operand fields taken out, and how it is put together of others. -/
structure Parts where
  guard : Guard
  ops : List Opnd
  build : Guard → (Nat → Opnd) → Instr

/-- The parts of an instruction; a step of the part has none. -/
def partsOf (i : Instr) : Option Parts :=
  match i with
  | .vaddF g f rm d a b => some ⟨g, [d, a, b], fun g y => .vaddF g f rm (y 0) (y 1) (y 2)⟩
  | .vsubF g f rm d a b => some ⟨g, [d, a, b], fun g y => .vsubF g f rm (y 0) (y 1) (y 2)⟩
  | .vmulF g f rm d a b => some ⟨g, [d, a, b], fun g y => .vmulF g f rm (y 0) (y 1) (y 2)⟩
  | .vfmaF g f rm d a b c => some ⟨g, [d, a, b, c], fun g y => .vfmaF g f rm (y 0) (y 1) (y 2) (y 3)⟩
  | .vminF g f d a b => some ⟨g, [d, a, b], fun g y => .vminF g f (y 0) (y 1) (y 2)⟩
  | .vmaxF g f d a b => some ⟨g, [d, a, b], fun g y => .vmaxF g f (y 0) (y 1) (y 2)⟩
  | .vaddminF g f rm d a b c => some ⟨g, [d, a, b, c], fun g y => .vaddminF g f rm (y 0) (y 1) (y 2) (y 3)⟩
  | .vmaxaddF g f rm d a b c => some ⟨g, [d, a, b, c], fun g y => .vmaxaddF g f rm (y 0) (y 1) (y 2) (y 3)⟩
  | .vcmpF g f cc d a b => some ⟨g, [d, a, b], fun g y => .vcmpF g f cc (y 0) (y 1) (y 2)⟩
  | .vrndi g f rm d a => some ⟨g, [d, a], fun g y => .vrndi g f rm (y 0) (y 1)⟩
  | .vldexp g f rm d a b => some ⟨g, [d, a, b], fun g y => .vldexp g f rm (y 0) (y 1) (y 2)⟩
  | .vgetexp g f d a => some ⟨g, [d, a], fun g y => .vgetexp g f (y 0) (y 1)⟩
  | .vnegF g f d a => some ⟨g, [d, a], fun g y => .vnegF g f (y 0) (y 1)⟩
  | .vabsF g f d a => some ⟨g, [d, a], fun g y => .vabsF g f (y 0) (y 1)⟩
  | .vrcp g rm d a => some ⟨g, [d, a], fun g y => .vrcp g rm (y 0) (y 1)⟩
  | .vrsqrt g rm d a => some ⟨g, [d, a], fun g y => .vrsqrt g rm (y 0) (y 1)⟩
  | .vfexp2 g rm d a => some ⟨g, [d, a], fun g y => .vfexp2 g rm (y 0) (y 1)⟩
  | .vlog2 g rm d a => some ⟨g, [d, a], fun g y => .vlog2 g rm (y 0) (y 1)⟩
  | .vcvt g td ts rm d a => some ⟨g, [d, a], fun g y => .vcvt g td ts rm (y 0) (y 1)⟩
  | .vdp4F16 g rm d a b c => some ⟨g, [d, a, b, c], fun g y => .vdp4F16 g rm (y 0) (y 1) (y 2) (y 3)⟩
  | .vdp4Bf16 g rm d a b c => some ⟨g, [d, a, b, c], fun g y => .vdp4Bf16 g rm (y 0) (y 1) (y 2) (y 3)⟩
  | .vdp4I8 g d a b c => some ⟨g, [d, a, b, c], fun g y => .vdp4I8 g (y 0) (y 1) (y 2) (y 3)⟩
  | .vcbxCb3 g d a b c => some ⟨g, [d, a, b, c], fun g y => .vcbxCb3 g (y 0) (y 1) (y 2) (y 3)⟩
  | .vcbxCb4 g d a b c => some ⟨g, [d, a, b, c], fun g y => .vcbxCb4 g (y 0) (y 1) (y 2) (y 3)⟩
  | .vaddT g t d a b => some ⟨g, [d, a, b], fun g y => .vaddT g t (y 0) (y 1) (y 2)⟩
  | .vsubT g t d a b => some ⟨g, [d, a, b], fun g y => .vsubT g t (y 0) (y 1) (y 2)⟩
  | .vmulT g t d a b => some ⟨g, [d, a, b], fun g y => .vmulT g t (y 0) (y 1) (y 2)⟩
  | .vmulhi g t d a b => some ⟨g, [d, a, b], fun g y => .vmulhi g t (y 0) (y 1) (y 2)⟩
  | .vmad g t d a b c => some ⟨g, [d, a, b, c], fun g y => .vmad g t (y 0) (y 1) (y 2) (y 3)⟩
  | .vminT g t d a b => some ⟨g, [d, a, b], fun g y => .vminT g t (y 0) (y 1) (y 2)⟩
  | .vmaxT g t d a b => some ⟨g, [d, a, b], fun g y => .vmaxT g t (y 0) (y 1) (y 2)⟩
  | .vabsT g t d a => some ⟨g, [d, a], fun g y => .vabsT g t (y 0) (y 1)⟩
  | .vnegT g t d a => some ⟨g, [d, a], fun g y => .vnegT g t (y 0) (y 1)⟩
  | .vaddminT g t d a b c => some ⟨g, [d, a, b, c], fun g y => .vaddminT g t (y 0) (y 1) (y 2) (y 3)⟩
  | .vmaxaddT g t d a b c => some ⟨g, [d, a, b, c], fun g y => .vmaxaddT g t (y 0) (y 1) (y 2) (y 3)⟩
  | .vcmpT g t cc d a b => some ⟨g, [d, a, b], fun g y => .vcmpT g t cc (y 0) (y 1) (y 2)⟩
  | .vand g t d a b => some ⟨g, [d, a, b], fun g y => .vand g t (y 0) (y 1) (y 2)⟩
  | .vor g t d a b => some ⟨g, [d, a, b], fun g y => .vor g t (y 0) (y 1) (y 2)⟩
  | .vxor g t d a b => some ⟨g, [d, a, b], fun g y => .vxor g t (y 0) (y 1) (y 2)⟩
  | .vnot g t d a => some ⟨g, [d, a], fun g y => .vnot g t (y 0) (y 1)⟩
  | .vshl g t d a b => some ⟨g, [d, a, b], fun g y => .vshl g t (y 0) (y 1) (y 2)⟩
  | .vshr g t d a b => some ⟨g, [d, a, b], fun g y => .vshr g t (y 0) (y 1) (y 2)⟩
  | .vpopc g t d a => some ⟨g, [d, a], fun g y => .vpopc g t (y 0) (y 1)⟩
  | .vclz g t d a => some ⟨g, [d, a], fun g y => .vclz g t (y 0) (y 1)⟩
  | .vbfe g t d a b c => some ⟨g, [d, a, b, c], fun g y => .vbfe g t (y 0) (y 1) (y 2) (y 3)⟩
  | .vbfi g t d a b c => some ⟨g, [d, a, b, c], fun g y => .vbfi g t (y 0) (y 1) (y 2) (y 3)⟩
  | .vsel g t d a b c => some ⟨g, [d, a, b, c], fun g y => .vsel g t (y 0) (y 1) (y 2) (y 3)⟩
  | .vmov g t d a => some ⟨g, [d, a], fun g y => .vmov g t (y 0) (y 1)⟩
  | .vshup g t d a b c => some ⟨g, [d, a, b, c], fun g y => .vshup g t (y 0) (y 1) (y 2) (y 3)⟩
  | .vshdn g t d a b c => some ⟨g, [d, a, b, c], fun g y => .vshdn g t (y 0) (y 1) (y 2) (y 3)⟩
  | .vperm g t d a b => some ⟨g, [d, a, b], fun g y => .vperm g t (y 0) (y 1) (y 2)⟩
  | .vbcast g t d a b => some ⟨g, [d, a, b], fun g y => .vbcast g t (y 0) (y 1) (y 2)⟩
  | .vredaddF g f rm d a => some ⟨g, [d, a], fun g y => .vredaddF g f rm (y 0) (y 1)⟩
  | .vscanIncF g f rm d a => some ⟨g, [d, a], fun g y => .vscanIncF g f rm (y 0) (y 1)⟩
  | .vscanExcF g f rm d a => some ⟨g, [d, a], fun g y => .vscanExcF g f rm (y 0) (y 1)⟩
  | .vredaddT g t d a => some ⟨g, [d, a], fun g y => .vredaddT g t (y 0) (y 1)⟩
  | .vscanIncT g t d a => some ⟨g, [d, a], fun g y => .vscanIncT g t (y 0) (y 1)⟩
  | .vscanExcT g t d a => some ⟨g, [d, a], fun g y => .vscanExcT g t (y 0) (y 1)⟩
  | .vpack g t d a b c => some ⟨g, [d, a, b, c], fun g y => .vpack g t (y 0) (y 1) (y 2) (y 3)⟩
  | .vunpack g t d a b c => some ⟨g, [d, a, b, c], fun g y => .vunpack g t (y 0) (y 1) (y 2) (y 3)⟩
  | .saddF g f rm d a b => some ⟨g, [d, a, b], fun g y => .saddF g f rm (y 0) (y 1) (y 2)⟩
  | .ssubF g f rm d a b => some ⟨g, [d, a, b], fun g y => .ssubF g f rm (y 0) (y 1) (y 2)⟩
  | .smulF g f rm d a b => some ⟨g, [d, a, b], fun g y => .smulF g f rm (y 0) (y 1) (y 2)⟩
  | .sfma g f rm d a b c => some ⟨g, [d, a, b, c], fun g y => .sfma g f rm (y 0) (y 1) (y 2) (y 3)⟩
  | .sminF g f d a b => some ⟨g, [d, a, b], fun g y => .sminF g f (y 0) (y 1) (y 2)⟩
  | .smaxF g f d a b => some ⟨g, [d, a, b], fun g y => .smaxF g f (y 0) (y 1) (y 2)⟩
  | .scmpF g f cc d a b => some ⟨g, [d, a, b], fun g y => .scmpF g f cc (y 0) (y 1) (y 2)⟩
  | .scvt g td ts rm d a => some ⟨g, [d, a], fun g y => .scvt g td ts rm (y 0) (y 1)⟩
  | .saddT g t d a b => some ⟨g, [d, a, b], fun g y => .saddT g t (y 0) (y 1) (y 2)⟩
  | .ssubT g t d a b => some ⟨g, [d, a, b], fun g y => .ssubT g t (y 0) (y 1) (y 2)⟩
  | .smulT g t d a b => some ⟨g, [d, a, b], fun g y => .smulT g t (y 0) (y 1) (y 2)⟩
  | .smulhi g t d a b => some ⟨g, [d, a, b], fun g y => .smulhi g t (y 0) (y 1) (y 2)⟩
  | .smad g t d a b c => some ⟨g, [d, a, b, c], fun g y => .smad g t (y 0) (y 1) (y 2) (y 3)⟩
  | .sminT g t d a b => some ⟨g, [d, a, b], fun g y => .sminT g t (y 0) (y 1) (y 2)⟩
  | .smaxT g t d a b => some ⟨g, [d, a, b], fun g y => .smaxT g t (y 0) (y 1) (y 2)⟩
  | .sabs g t d a => some ⟨g, [d, a], fun g y => .sabs g t (y 0) (y 1)⟩
  | .sneg g t d a => some ⟨g, [d, a], fun g y => .sneg g t (y 0) (y 1)⟩
  | .scmpT g t cc d a b => some ⟨g, [d, a, b], fun g y => .scmpT g t cc (y 0) (y 1) (y 2)⟩
  | .sand g t d a b => some ⟨g, [d, a, b], fun g y => .sand g t (y 0) (y 1) (y 2)⟩
  | .sor g t d a b => some ⟨g, [d, a, b], fun g y => .sor g t (y 0) (y 1) (y 2)⟩
  | .sxor g t d a b => some ⟨g, [d, a, b], fun g y => .sxor g t (y 0) (y 1) (y 2)⟩
  | .snot g t d a => some ⟨g, [d, a], fun g y => .snot g t (y 0) (y 1)⟩
  | .sshl g t d a b => some ⟨g, [d, a, b], fun g y => .sshl g t (y 0) (y 1) (y 2)⟩
  | .sshr g t d a b => some ⟨g, [d, a, b], fun g y => .sshr g t (y 0) (y 1) (y 2)⟩
  | .spopc g t d a => some ⟨g, [d, a], fun g y => .spopc g t (y 0) (y 1)⟩
  | .sclz g t d a => some ⟨g, [d, a], fun g y => .sclz g t (y 0) (y 1)⟩
  | .sbfe g t d a b c => some ⟨g, [d, a, b, c], fun g y => .sbfe g t (y 0) (y 1) (y 2) (y 3)⟩
  | .sbfi g t d a b c => some ⟨g, [d, a, b, c], fun g y => .sbfi g t (y 0) (y 1) (y 2) (y 3)⟩
  | .ssel g t d a b c => some ⟨g, [d, a, b, c], fun g y => .ssel g t (y 0) (y 1) (y 2) (y 3)⟩
  | .smov g t d a => some ⟨g, [d, a], fun g y => .smov g t (y 0) (y 1)⟩
  | .lget g t d a b => some ⟨g, [d, a, b], fun g y => .lget g t (y 0) (y 1) (y 2)⟩
  | .lput g t d a b => some ⟨g, [d, a, b], fun g y => .lput g t (y 0) (y 1) (y 2)⟩
  | .srd g reg d => some ⟨g, [d], fun g y => .srd g reg (y 0)⟩
  | .swr g reg a => some ⟨g, [a], fun g y => .swr g reg (y 0)⟩
  | .bra g off => some ⟨g, [], fun g _ => .bra g off⟩
  | .braAny g a off => some ⟨g, [a], fun g y => .braAny g (y 0) off⟩
  | .braAll g a off => some ⟨g, [a], fun g y => .braAll g (y 0) off⟩
  | .braNone g a off => some ⟨g, [a], fun g y => .braNone g (y 0) off⟩
  | .braZ g a off => some ⟨g, [a], fun g y => .braZ g (y 0) off⟩
  | .braNz g a off => some ⟨g, [a], fun g y => .braNz g (y 0) off⟩
  | .jmp g a => some ⟨g, [a], fun g y => .jmp g (y 0)⟩
  | .brx g a off => some ⟨g, [a], fun g y => .brx g (y 0) off⟩
  | .callDirect g nsave target cont => some ⟨g, [], fun g _ => .callDirect g nsave target cont⟩
  | .callRegister g nsave a cont => some ⟨g, [a], fun g y => .callRegister g nsave (y 0) cont⟩
  | .ret g => some ⟨g, [], fun g _ => .ret g⟩
  | .exit g => some ⟨g, [], fun g _ => .exit g⟩
  | .park g line bar tmo a b c => some ⟨g, [a, c], fun g y => .park g line bar tmo (y 0) b (y 1)⟩
  | .yield g => some ⟨g, [], fun g _ => .yield g⟩
  | .grow g n => some ⟨g, [], fun g _ => .grow g n⟩
  | .shrink g n => some ⟨g, [], fun g _ => .shrink g n⟩
  | .taskPush g prio a => some ⟨g, [a], fun g y => .taskPush g prio (y 0)⟩
  | .nop g => some ⟨g, [], fun g _ => .nop g⟩
  | .sli g d imm => some ⟨g, [d], fun g y => .sli g (y 0) imm⟩
  | .sli64 g d imm => some ⟨g, [d], fun g y => .sli64 g (y 0) imm⟩
  | .vli g d imm => some ⟨g, [d], fun g y => .vli g (y 0) imm⟩
  | .ld g k o sc d a q off => some ⟨g, [d, a], fun g y => .ld g k o sc (y 0) (y 1) q off⟩
  | .st g w o sc d a q off => some ⟨g, [d, a], fun g y => .st g w o sc (y 0) (y 1) q off⟩
  | .gath g k d a b off => some ⟨g, [d, a, b], fun g y => .gath g k (y 0) (y 1) (y 2) off⟩
  | .scat g w d a b off => some ⟨g, [d, a, b], fun g y => .scat g w (y 0) (y 1) (y 2) off⟩
  | .ldb g k buf d a off => some ⟨g, [d, a], fun g y => .ldb g k buf (y 0) (y 1) off⟩
  | .stb g w buf d a off => some ⟨g, [d, a], fun g y => .stb g w buf (y 0) (y 1) off⟩
  | .atom g op k o sc d a b => some ⟨g, [d, a, b], fun g y => .atom g op k o sc (y 0) (y 1) (y 2)⟩
  | .red g op k o sc a b => some ⟨g, [a, b], fun g y => .red g op k o sc (y 0) (y 1)⟩
  | .redRet g op k o sc d a b => some ⟨g, [d, a, b], fun g y => .redRet g op k o sc (y 0) (y 1) (y 2)⟩
  | .fence g o sc => some ⟨g, [], fun g _ => .fence g o sc⟩
  | .pref g a q off => some ⟨g, [a], fun g y => .pref g (y 0) q off⟩
  | .ipref g a off => some ⟨g, [a], fun g y => .ipref g (y 0) off⟩
  | .copyAbuf g q d a b c => some ⟨g, [d, a, b, c], fun g y => .copyAbuf g q (y 0) (y 1) (y 2) (y 3)⟩
  | .copyWbuf g q d a b c => some ⟨g, [d, a, b, c], fun g y => .copyWbuf g q (y 0) (y 1) (y 2) (y 3)⟩
  | .copyOut g cbuf q d a b c => some ⟨g, [d, a, b, c], fun g y => .copyOut g cbuf q (y 0) (y 1) (y 2) (y 3)⟩
  | .copyMc g q d a b c => some ⟨g, [d, a, b, c], fun g y => .copyMc g q (y 0) (y 1) (y 2) (y 3)⟩
  | .copyQ g q d a b c => some ⟨g, [d, a, b, c], fun g y => .copyQ g q (y 0) (y 1) (y 2) (y 3)⟩
  | .toolXpose g buf d a b c => some ⟨g, [d, a, b, c], fun g y => .toolXpose g buf (y 0) (y 1) (y 2) (y 3)⟩
  | .toolCvt g buf d a b c => some ⟨g, [d, a, b, c], fun g y => .toolCvt g buf (y 0) (y 1) (y 2) (y 3)⟩
  | .toolQuant g buf d a b c => some ⟨g, [d, a, b, c], fun g y => .toolQuant g buf (y 0) (y 1) (y 2) (y 3)⟩
  | .toolZero g buf d a b c => some ⟨g, [d, a, b, c], fun g y => .toolZero g buf (y 0) (y 1) (y 2) (y 3)⟩
  | .toolRsum g buf d a b c => some ⟨g, [d, a, b, c], fun g y => .toolRsum g buf (y 0) (y 1) (y 2) (y 3)⟩
  | .chaseLink g d a b c => some ⟨g, [d, a, b, c], fun g y => .chaseLink g (y 0) (y 1) (y 2) (y 3)⟩
  | .chaseIndex g d a b c => some ⟨g, [d, a, b, c], fun g y => .chaseIndex g (y 0) (y 1) (y 2) (y 3)⟩
  | .chaseSample g d a b c => some ⟨g, [d, a, b, c], fun g y => .chaseSample g (y 0) (y 1) (y 2) (y 3)⟩
  | .l1cfg g n => some ⟨g, [], fun g _ => .l1cfg g n⟩
  | .l1cfgQ g d => some ⟨g, [d], fun g y => .l1cfgQ g (y 0)⟩
  | .waitc g ld st tl => some ⟨g, [], fun g _ => .waitc g ld st tl⟩
  | .cinvD g => some ⟨g, [], fun g _ => .cinvD g⟩
  | .cinvI g => some ⟨g, [], fun g _ => .cinvI g⟩
  | .cflush g a b => some ⟨g, [a, b], fun g y => .cflush g (y 0) (y 1)⟩
  | .tbind g th d => some ⟨g, [d], fun g y => .tbind g th (y 0)⟩
  | .ldst g arr f d => some ⟨g, [d], fun g y => .ldst g arr f (y 0)⟩
  | .cbtload g tbl f d => some ⟨g, [d], fun g y => .cbtload g tbl f (y 0)⟩
  | .mswap g arr f => some ⟨g, [], fun g _ => .mswap g arr f⟩
  | .mstream g arr f d => some ⟨g, [d], fun g y => .mstream g arr f (y 0)⟩
  | .mop g f d => some ⟨g, [d], fun g y => .mop g f (y 0)⟩
  | .mzero g f d => some ⟨g, [d], fun g y => .mzero g f (y 0)⟩
  | .chainCfg g f d => some ⟨g, [d], fun g y => .chainCfg g f (y 0)⟩
  | .chainStep g f d => some ⟨g, [d], fun g y => .chainStep g f (y 0)⟩
  | .chainRun g f d => some ⟨g, [d], fun g y => .chainRun g f (y 0)⟩
  | .bdSet g n d => some ⟨g, [d], fun g y => .bdSet g n (y 0)⟩
  | .bdGet g n d => some ⟨g, [d], fun g y => .bdGet g n (y 0)⟩
  | .dsrd g d => some ⟨g, [d], fun g y => .dsrd g (y 0)⟩
  | .setNew g d => some ⟨g, [d], fun g y => .setNew g (y 0)⟩
  | .setFree g a => some ⟨g, [a], fun g y => .setFree g (y 0)⟩
  | .setIns g wr d a b => some ⟨g, [d, a, b], fun g y => .setIns g wr (y 0) (y 1) (y 2)⟩
  | .setDel g wr d a b => some ⟨g, [d, a, b], fun g y => .setDel g wr (y 0) (y 1) (y 2)⟩
  | .setHas g d a b => some ⟨g, [d, a, b], fun g y => .setHas g (y 0) (y 1) (y 2)⟩
  | .setCard g d a => some ⟨g, [d, a], fun g y => .setCard g (y 0) (y 1)⟩
  | .setOr g a b c => some ⟨g, [a, b, c], fun g y => .setOr g (y 0) (y 1) (y 2)⟩
  | .setAnd g a b c => some ⟨g, [a, b, c], fun g y => .setAnd g (y 0) (y 1) (y 2)⟩
  | .setSub g a b c => some ⟨g, [a, b, c], fun g y => .setSub g (y 0) (y 1) (y 2)⟩
  | .setIn g a b c => some ⟨g, [a, b, c], fun g y => .setIn g (y 0) (y 1) (y 2)⟩
  | .setOut g d a b c => some ⟨g, [d, a, b, c], fun g y => .setOut g (y 0) (y 1) (y 2) (y 3)⟩
  | .setIter g d a c => some ⟨g, [d, a, c], fun g y => .setIter g (y 0) (y 1) (y 2)⟩
  | .setHint g rep a => some ⟨g, [a], fun g y => .setHint g rep (y 0)⟩
  | .setHintNone g a => some ⟨g, [a], fun g y => .setHintNone g (y 0)⟩
  | .setCost g n d => some ⟨g, [d], fun g y => .setCost g n (y 0)⟩
  | .barInit g hb a => some ⟨g, [a], fun g y => .barInit g hb (y 0)⟩
  | .barArrive g hb => some ⟨g, [], fun g _ => .barArrive g hb⟩
  | .barWait g hb => some ⟨g, [], fun g _ => .barWait g hb⟩
  | .barStatus g hb d => some ⟨g, [d], fun g y => .barStatus g hb (y 0)⟩
  | .qstate g => some ⟨g, [], fun g _ => .qstate g⟩
  | .gstart g d => some ⟨g, [d], fun g y => .gstart g (y 0)⟩
  | .gwait g a => some ⟨g, [a], fun g y => .gwait g (y 0)⟩
  | .fdefer g a b c => some ⟨g, [a, b, c], fun g y => .fdefer g (y 0) (y 1) (y 2)⟩
  | .trap g code => some ⟨g, [], fun g _ => .trap g code⟩
  | .tret g => some ⟨g, [], fun g _ => .tret g⟩
  | .rngOpen g label => some ⟨g, [], fun g _ => .rngOpen g label⟩
  | .rngClose g => some ⟨g, [], fun g _ => .rngClose g⟩
  | .capq g d a => some ⟨g, [d, a], fun g y => .capq g (y 0) (y 1)⟩
  | .tmrd g d => some ⟨g, [d], fun g y => .tmrd g (y 0)⟩
  | _ => none

/-- The instruction with another name for each predicate of its guard and each operand. -/
def irRename (f : Opnd → Opnd) (i : Instr) : Instr :=
  match partsOf i with
  | some q => q.build ⟨q.guard.pred.map fun n => Opnd.num (f (.p n)), q.guard.neg⟩ fun k => f (q.ops.getD k (.k 0))
  | none => i

/-- The operands of an instruction, its guard's predicate first. -/
def operandsOf (i : Instr) : List Opnd :=
  match partsOf i with
  | some q => (q.guard.pred.map Opnd.p).toList ++ q.ops
  | none => []

/-! ## Types (R342, R343) -/

/-- What an operation reads and defines through one field: the types that each value may have, with the register of the field,
counted from its first, in which it stands. -/
structure IrSlot where
  ins : List (Nat × List IrTy)
  outs : List (Nat × List IrTy)
  deriving DecidableEq, Repr

/-- A type whose values take a pair of registers. -/
def IrTy.wide : IrTy → Bool
  | .int t => iWide t
  | .flt f => fWide f
  | .gptr => true
  | _ => false

def irRd (ts : List IrTy) : IrSlot := ⟨[(0, ts)], []⟩
def irWr (ts : List IrTy) : IrSlot := ⟨[], [(0, ts)]⟩

/-- The types that a move, a load or a store of a width carries: it moves bits, whatever they stand for (log 21). -/
def irBits (wide : Bool) : List IrTy :=
  if wide then [.int .n64, .int .i64, .flt .f64, .gptr]
  else [.int .n8, .int .i8, .int .n16, .int .i16, .int .n32, .int .i32, .flt .f16, .flt .bf16, .flt .f32, .off .abuf, .off .wbuf,
    .off .cbuf, .handle]

/-- One result of a type and so many sources of it. -/
def irSame (t : IrTy) (n : Nat) : List IrSlot := irWr [t] :: List.replicate n (irRd [t])

/-- The same for moves. -/
def irMove (t : ITy) (n : Nat) : List IrSlot := irWr (irBits (iWide t)) :: List.replicate n (irRd (irBits (iWide t)))

def irN32 : List IrTy := [.int .n32]
def irOff (b : Buf) : List IrTy := [.off b]
def irTy : Ty → IrTy
  | .int t => .int t
  | .flt f => .flt f

def AKind.irTy : AKind → IrTy
  | .n32 => .int .n32
  | .i32 => .int .i32
  | .n64 => .int .n64
  | .i64 => .int .i64
  | .f32 => .flt .f32

/-- The second operand of an atomic; `cas` has two (R226). -/
def irAtom (op : AOp) (k : AKind) : IrSlot :=
  ⟨(0, [AKind.irTy k]) :: (if op = .cas then [(if AKind.wide k then 2 else 1, [AKind.irTy k])] else []), []⟩

/-- A copy into a buffer, with its token. -/
def irCopy (b : Buf) : List IrSlot := [irRd (irOff b), irRd [.gptr], irRd irN32, irWr irN32]
def irTool (b : Buf) (par : List IrTy) : List IrSlot := [irRd (irOff b), irRd irN32, irRd par, irWr irN32]

/-- `chase`: the seeds, then the last address and the result word (R239). -/
def irChase (mode : Nat) : List IrSlot :=
  [⟨if mode = 2 then [(2, irN32)] else [], [(0, [.gptr]), (2, irN32)]⟩, irRd [.gptr],
   ⟨(0, [.gptr]) :: (if mode = 0 then [(2, [.int .i32])] else []), []⟩, irRd irN32, ⟨[], []⟩]

/-- The fields of an operation in the order of `usesOf`; none for what is no operation of the IR, whose blocks take the place of
branches, calls and returns, and whose values are unlimited in number (R342). -/
def irSlots (i : Instr) : Option (List IrSlot) :=
  match i with
  | .vaddF _ f _ _ _ _ => some (irSame (.flt f) 2)
  | .vsubF _ f _ _ _ _ => some (irSame (.flt f) 2)
  | .vmulF _ f _ _ _ _ => some (irSame (.flt f) 2)
  | .vfmaF _ f _ _ _ _ _ => some (irSame (.flt f) 3)
  | .vminF _ f _ _ _ => some (irSame (.flt f) 2)
  | .vmaxF _ f _ _ _ => some (irSame (.flt f) 2)
  | .vaddminF _ f _ _ _ _ _ => some (irSame (.flt f) 3)
  | .vmaxaddF _ f _ _ _ _ _ => some (irSame (.flt f) 3)
  | .vcmpF _ f _ _ _ _ => some [irWr [.pred], irRd [.flt f], irRd [.flt f]]
  | .vrndi _ f _ _ _ => some (irSame (.flt f) 1)
  | .vldexp _ f _ _ _ _ => some [irWr [.flt f], irRd [.flt f], irRd [.int .i32]]
  | .vgetexp _ f _ _ => some (irSame (.flt f) 1)
  | .vnegF _ f _ _ => some (irSame (.flt f) 1)
  | .vabsF _ f _ _ => some (irSame (.flt f) 1)
  | .vrcp _ _ _ _ => some (irSame (.flt .f32) 1)
  | .vrsqrt _ _ _ _ => some (irSame (.flt .f32) 1)
  | .vfexp2 _ _ _ _ => some (irSame (.flt .f32) 1)
  | .vlog2 _ _ _ _ => some (irSame (.flt .f32) 1)
  | .vcvt _ td ts _ _ _ => some [irWr [irTy td], irRd [irTy ts]]
  | .vdp4F16 _ _ _ _ _ _ => some [irWr [.flt .f32], irRd [.int .n64], irRd [.int .n64], irRd [.flt .f32]]
  | .vdp4Bf16 _ _ _ _ _ _ => some [irWr [.flt .f32], irRd [.int .n64], irRd [.int .n64], irRd [.flt .f32]]
  | .vdp4I8 _ _ _ _ _ => some [irWr [.int .i32], irRd irN32, irRd irN32, irRd [.int .i32]]
  | .vcbxCb3 _ _ _ _ _ => some [irWr [.flt .bf16], irRd irN32, irRd irN32, irRd irN32]
  | .vcbxCb4 _ _ _ _ _ => some [irWr [.flt .bf16], irRd irN32, irRd irN32, irRd irN32]
  | .vaddT _ t _ _ _ => some (irSame (.int t) 2)
  | .vsubT _ t _ _ _ => some (irSame (.int t) 2)
  | .vmulT _ t _ _ _ => some (irSame (.int t) 2)
  | .vmulhi _ t _ _ _ => some (irSame (.int t) 2)
  | .vmad _ t _ _ _ _ => some (irSame (.int t) 3)
  | .vminT _ t _ _ _ => some (irSame (.int t) 2)
  | .vmaxT _ t _ _ _ => some (irSame (.int t) 2)
  | .vabsT _ t _ _ => some (irSame (.int t) 1)
  | .vnegT _ t _ _ => some (irSame (.int t) 1)
  | .vaddminT _ t _ _ _ _ => some (irSame (.int t) 3)
  | .vmaxaddT _ t _ _ _ _ => some (irSame (.int t) 3)
  | .vcmpT _ t _ _ _ _ => some [irWr [.pred], irRd [.int t], irRd [.int t]]
  | .vand _ t _ _ _ => some (irSame (.int t) 2)
  | .vor _ t _ _ _ => some (irSame (.int t) 2)
  | .vxor _ t _ _ _ => some (irSame (.int t) 2)
  | .vnot _ t _ _ => some (irSame (.int t) 1)
  | .vshl _ t _ _ _ => some (irSame (.int t) 2)
  | .vshr _ t _ _ _ => some (irSame (.int t) 2)
  | .vpopc _ t _ _ => some (irSame (.int t) 1)
  | .vclz _ t _ _ => some (irSame (.int t) 1)
  | .vbfe _ t _ _ _ _ => some [irWr [.int t], irRd [.int t], irRd irN32, irRd irN32]
  | .vbfi _ t _ _ _ _ => some [irWr [.int t], irRd [.int t], irRd [.int t], irRd irN32]
  | .vsel _ t _ _ _ _ => some (irMove t 2 ++ [irRd [.pred]])
  | .vmov _ t _ _ => some (irMove t 1)
  | .vshup _ t _ _ _ _ => some (irMove t 1 ++ [irRd irN32, irRd (irBits (iWide t))])
  | .vshdn _ t _ _ _ _ => some (irMove t 1 ++ [irRd irN32, irRd (irBits (iWide t))])
  | .vperm _ t _ _ _ => some (irMove t 1 ++ [irRd irN32])
  | .vbcast _ t _ _ _ => some (irMove t 1 ++ [irRd irN32])
  | .vredaddF _ f _ _ _ => some (irSame (.flt f) 1)
  | .vscanIncF _ f _ _ _ => some (irSame (.flt f) 1)
  | .vscanExcF _ f _ _ _ => some (irSame (.flt f) 1)
  | .vredaddT _ t _ _ => some (irSame (.int t) 1)
  | .vscanIncT _ t _ _ => some (irSame (.int t) 1)
  | .vscanExcT _ t _ _ => some (irSame (.int t) 1)
  | .vpack _ t _ _ _ _ => some [irWr irN32, irRd [if t = .i8 ∨ t = .i16 then .int .i32 else .int .n32], irRd [if t = .i8 ∨ t = .i16 then .int .i32 else .int .n32], irRd irN32]
  | .vunpack _ t _ _ _ _ => some [irWr [.int t], irRd irN32, irRd irN32, irRd irN32]
  | .saddF _ f _ _ _ _ => some (irSame (.flt f) 2)
  | .ssubF _ f _ _ _ _ => some (irSame (.flt f) 2)
  | .smulF _ f _ _ _ _ => some (irSame (.flt f) 2)
  | .sfma _ f _ _ _ _ _ => some (irSame (.flt f) 3)
  | .sminF _ f _ _ _ => some (irSame (.flt f) 2)
  | .smaxF _ f _ _ _ => some (irSame (.flt f) 2)
  | .scmpF _ f _ _ _ _ => some [irWr irN32, irRd [.flt f], irRd [.flt f]]
  | .scvt _ td ts _ _ _ => some [irWr [irTy td], irRd [irTy ts]]
  | .saddT _ t _ _ _ => some (irSame (.int t) 2)
  | .ssubT _ t _ _ _ => some (irSame (.int t) 2)
  | .smulT _ t _ _ _ => some (irSame (.int t) 2)
  | .smulhi _ t _ _ _ => some (irSame (.int t) 2)
  | .smad _ t _ _ _ _ => some (irSame (.int t) 3)
  | .sminT _ t _ _ _ => some (irSame (.int t) 2)
  | .smaxT _ t _ _ _ => some (irSame (.int t) 2)
  | .sabs _ t _ _ => some (irSame (.int t) 1)
  | .sneg _ t _ _ => some (irSame (.int t) 1)
  | .scmpT _ t _ _ _ _ => some [irWr irN32, irRd [.int t], irRd [.int t]]
  | .sand _ t _ _ _ => some (irSame (.int t) 2)
  | .sor _ t _ _ _ => some (irSame (.int t) 2)
  | .sxor _ t _ _ _ => some (irSame (.int t) 2)
  | .snot _ t _ _ => some (irSame (.int t) 1)
  | .sshl _ t _ _ _ => some (irSame (.int t) 2)
  | .sshr _ t _ _ _ => some (irSame (.int t) 2)
  | .spopc _ t _ _ => some (irSame (.int t) 1)
  | .sclz _ t _ _ => some (irSame (.int t) 1)
  | .sbfe _ t _ _ _ _ => some [irWr [.int t], irRd [.int t], irRd irN32, irRd irN32]
  | .sbfi _ t _ _ _ _ => some [irWr [.int t], irRd [.int t], irRd [.int t], irRd irN32]
  | .ssel _ t _ _ _ _ => some (irMove t 2 ++ [irRd [.pred]])
  | .smov _ t _ _ => some (irMove t 1)
  | .lget _ t _ _ _ => some (irMove t 1 ++ [irRd irN32])
  | .lput _ t _ _ _ => some [⟨[(0, irBits (iWide t))], [(0, irBits (iWide t))]⟩, irRd (irBits (iWide t)), irRd irN32]
  | .srd _ _ _ => some [irWr irN32]
  | .swr _ _ _ => some [irRd irN32]
  | .park _ line _ tmo _ _ _ => some ((if line then [irRd [.gptr]] else []) ++ if tmo then [irRd irN32] else [])
  | .yield _ => some []
  | .taskPush _ _ _ => some [irRd (irOff .abuf)]
  | .nop _ => some []
  | .sli _ _ _ => some [irWr (irBits false)]
  | .sli64 _ _ _ => some [irWr (irBits true)]
  | .vli _ _ _ => some [irWr (irBits false)]
  | .ld _ k _ _ _ _ _ _ => some [irWr (irBits (LdKind.bytes k == 8)), irRd [.gptr]]
  | .st _ w _ _ _ _ _ _ => some [irRd (irBits (StWidth.bytes w == 8)), irRd [.gptr]]
  | .gath _ k _ _ _ _ => some [irWr (irBits (LdKind.bytes k == 8)), irRd [.gptr], irRd irN32]
  | .scat _ w _ _ _ _ => some [irRd (irBits (StWidth.bytes w == 8)), irRd [.gptr], irRd irN32]
  | .ldb _ k buf _ _ _ => some [irWr (irBits (LdKind.bytes k == 8)), irRd (irOff buf)]
  | .stb _ w buf _ _ _ => some [irRd (irBits (StWidth.bytes w == 8)), irRd (irOff buf)]
  | .atom _ op k _ _ _ _ _ => some [irWr [AKind.irTy k], irRd [.gptr], irAtom op k]
  | .red _ op k _ _ _ _ => some [irRd [.gptr], irAtom op k]
  | .redRet _ op k _ _ _ _ _ => some [irRd irN32, irRd [.gptr], irAtom op k]
  | .fence _ _ _ => some []
  | .pref _ _ _ _ => some [irRd [.gptr]]
  | .ipref _ _ _ => some [irRd [.gptr]]
  | .copyAbuf _ _ _ _ _ _ => some (irCopy .abuf)
  | .copyWbuf _ _ _ _ _ _ => some (irCopy .wbuf)
  | .copyOut _ cbuf _ _ _ _ _ => some [irRd [.gptr], irRd (irOff (if cbuf then .cbuf else .abuf)), irRd irN32, irWr irN32]
  | .copyMc _ _ _ _ _ _ => some (irCopy .abuf)
  | .copyQ _ _ _ _ _ _ => some [irRd [.off .abuf, .off .wbuf], irRd [.gptr], ⟨[(0, irN32), (1, irOff .abuf)], []⟩, irWr irN32]
  | .toolXpose _ buf _ _ _ _ => some (irTool buf irN32)
  | .toolCvt _ buf _ _ _ _ => some (irTool buf irN32)
  | .toolQuant _ buf _ _ _ _ => some (irTool buf (irOff .abuf))
  | .toolZero _ buf _ _ _ _ => some (irTool buf irN32)
  | .toolRsum _ buf _ _ _ _ => some (irTool buf irN32)
  | .chaseLink _ _ _ _ _ => some (irChase 0)
  | .chaseIndex _ _ _ _ _ => some (irChase 1)
  | .chaseSample _ _ _ _ _ => some (irChase 2)
  | .l1cfg _ _ => some []
  | .l1cfgQ _ _ => some [irWr irN32]
  | .waitc _ _ _ _ => some []
  | .cinvD _ => some []
  | .cinvI _ => some []
  | .cflush _ _ _ => some [irRd [.gptr], irRd irN32]
  | .tbind _ _ _ => some [irRd (irOff .abuf)]
  | .ldst _ _ _ _ => some [irRd (irOff .abuf)]
  | .cbtload _ _ _ _ => some [irRd (irOff .abuf)]
  | .mswap _ _ _ => some []
  | .mstream _ _ _ _ => some [irRd (irOff .abuf)]
  | .mop _ _ _ => some [irRd (irOff .abuf)]
  | .mzero _ _ _ => some [irRd (irOff .abuf)]
  | .chainCfg _ _ _ => some [irRd (irOff .abuf)]
  | .chainStep _ _ _ => some [irRd irN32]
  | .chainRun _ _ _ => some [⟨[(0, irN32)], [(0, irN32)]⟩]
  | .bdSet _ _ _ => some [irRd irN32]
  | .bdGet _ _ _ => some [irWr irN32]
  | .dsrd _ _ => some [irWr irN32]
  | .setNew _ _ => some [irWr [.handle]]
  | .setFree _ _ => some [irRd [.handle]]
  | .setIns _ wr _ _ _ => some ((if wr then [irWr [.pred]] else []) ++ [irRd [.handle], irRd irN32])
  | .setDel _ wr _ _ _ => some ((if wr then [irWr [.pred]] else []) ++ [irRd [.handle], irRd irN32])
  | .setHas _ _ _ _ => some [irWr [.pred], irRd [.handle], irRd irN32]
  | .setCard _ _ _ => some [irWr irN32, irRd [.handle]]
  | .setOr _ _ _ _ => some [irRd [.handle], irRd [.handle], irRd [.handle]]
  | .setAnd _ _ _ _ => some [irRd [.handle], irRd [.handle], irRd [.handle]]
  | .setSub _ _ _ _ => some [irRd [.handle], irRd [.handle], irRd [.handle]]
  | .setIn _ _ _ _ => some [irRd [.handle], irRd [.gptr], irRd irN32]
  | .setOut _ _ _ _ _ => some [irWr irN32, irRd [.handle], irRd [.gptr], irRd irN32]
  | .setIter _ _ _ _ => some [irWr irN32, irRd [.handle], ⟨[(0, irN32)], [(0, irN32)]⟩]
  | .setHint _ _ _ => some [irRd [.handle]]
  | .setHintNone _ _ => some [irRd [.handle]]
  | .setCost _ _ _ => some [irWr irN32]
  | .barInit _ _ _ => some [irRd irN32]
  | .barArrive _ _ => some []
  | .barWait _ _ => some []
  | .barStatus _ _ _ => some [irWr irN32]
  | .qstate _ => some []
  | .gstart _ _ => some [irWr irN32]
  | .gwait _ _ => some [irRd irN32]
  | .fdefer _ _ _ _ => some [irRd [.gptr], irRd irN32, irRd irN32]
  | .trap _ _ => some []
  | .rngOpen _ _ => some []
  | .rngClose _ => some []
  | .capq _ _ _ => some [irWr [.int .n64], irRd irN32]
  | .tmrd _ _ => some [irWr [.int .n64]]
  | _ => none

/-! ## The operands as values (R342, R343) -/

/-- A value, rather than a constant or an identity. -/
def irValue : Opnd → Bool
  | .v _ => true
  | .s _ => true
  | .p _ => true
  | _ => false

/-- The operand with so much added to its number. -/
def Opnd.shift (o : Opnd) (k : Nat) : Opnd :=
  match o with
  | .v n => .v (n + k)
  | .s n => .s (n + k)
  | .p n => .p (n + k)
  | o => o

/-- The same kind of register: vector, scalar or predicate. -/
def Opnd.sameFile : Opnd → Opnd → Bool
  | .v _, .v _ => true
  | .s _, .s _ => true
  | .p _, .p _ => true
  | _, _ => false

/-- The registers in which an operation's values stand while it executes: value number k of its operands in registers from 8k
on, or in predicate k. -/
def irPlaces (i : Instr) : List (Opnd × Opnd) :=
  (((operandsOf i).filter irValue).eraseDups.zipIdx).map fun e =>
    (e.1, match e.1 with
      | .v _ => .v (8 * e.2)
      | .s _ => .s (8 * e.2)
      | .p _ => .p e.2
      | o => o)

/-- An operand by a list of other names. -/
def renamed (l : List (Opnd × Opnd)) (o : Opnd) : Opnd := ((l.find? fun e => e.1 == o).map fun e => e.2).getD o

/-- The operation as an instruction on those registers. -/
def irPlaced (i : Instr) : Instr := irRename (renamed (irPlaces i)) i

/-- The fields of the operation in its registers, with what each reads and defines. -/
def irFields (i : Instr) : List (Use × IrSlot) := (usesOf (irPlaced i)).zip ((irSlots (irPlaced i)).getD [])

/-- The value of the operation that stands in a register. -/
def irOrigin (i : Instr) (o : Opnd) : Opnd := renamed ((irPlaces i).map fun e => (e.2, e.1)) o

/-- What the operation reads: the value, its register, and the types it may have; the guard's predicate first (R141). A field of
several values names the first, and they are numbered on. -/
def irIns (i : Instr) : List (Opnd × Opnd × List IrTy) :=
  (((partsOf (irPlaced i)).bind fun q => q.guard.pred).map fun n => (irOrigin i (.p n), Opnd.p n, [IrTy.pred])).toList ++
    (irFields i).flatMap fun e => if irValue e.1.op then
      (e.2.ins.zipIdx).map fun q => (Opnd.shift (irOrigin i e.1.op) q.2, Opnd.shift e.1.op q.1.1, q.1.2) else []

/-- What it defines: the register, and the types the value may have. -/
def irOuts (i : Instr) : List (Opnd × List IrTy) :=
  (irFields i).flatMap fun e => e.2.outs.map fun q => (Opnd.shift e.1.op q.1, q.2)

/-- The operation is an instruction that the assembler would encode (R331), and one of the IR. -/
def irNamed (i : Instr) : Bool :=
  Instr.wf (irPlaced i) && checkUses 1536 (usesOf (irPlaced i)) == none && (irSlots (irPlaced i)).isSome

end Sys2Proof.Machine
end

