-- ==== Sys2Proof/Machine/Ir.lean ====
section
/-! DEFINITION. Which Brosedin IR modules are valid (R342 to R344), and where the first fault of one that is not lies (R345). -/

namespace Sys2Proof

open Machine

/-! ## Uses and definitions (R342 to R344) -/

/-- An operation that reads or writes other threads, arrives or waits with them, or issues an engine command, among them
a set instruction (R190, R273, R291, R344). -/
def irCrosses (i : Instr) : Bool :=
  match i with
  | .lget _ _ _ _ _ => true
  | .lput _ _ _ _ _ => true
  | .vshup _ _ _ _ _ _ => true
  | .vshdn _ _ _ _ _ _ => true
  | .vperm _ _ _ _ _ => true
  | .vbcast _ _ _ _ _ => true
  | .vredaddF _ _ _ _ _ => true
  | .vscanIncF _ _ _ _ _ => true
  | .vscanExcF _ _ _ _ _ => true
  | .vredaddT _ _ _ _ => true
  | .vscanIncT _ _ _ _ => true
  | .vscanExcT _ _ _ _ => true
  | .vcbxCb3 _ _ _ _ _ => true
  | .vcbxCb4 _ _ _ _ _ => true
  | .redRet _ _ _ _ _ _ _ _ => true
  | .barInit _ _ _ => true
  | .barArrive _ _ => true
  | .barWait _ _ => true
  | .barStatus _ _ _ => true
  | .copyAbuf _ _ _ _ _ _ => true
  | .copyWbuf _ _ _ _ _ _ => true
  | .copyOut _ _ _ _ _ _ _ => true
  | .copyMc _ _ _ _ _ _ => true
  | .copyQ _ _ _ _ _ _ => true
  | .toolXpose _ _ _ _ _ _ => true
  | .toolCvt _ _ _ _ _ _ => true
  | .toolQuant _ _ _ _ _ _ => true
  | .toolZero _ _ _ _ _ _ => true
  | .toolRsum _ _ _ _ _ _ => true
  | .chaseLink _ _ _ _ _ => true
  | .chaseIndex _ _ _ _ _ => true
  | .chaseSample _ _ _ _ _ => true
  | .tbind _ _ _ => true
  | .ldst _ _ _ _ => true
  | .cbtload _ _ _ _ => true
  | .mswap _ _ _ => true
  | .mstream _ _ _ _ => true
  | .mop _ _ _ => true
  | .mzero _ _ _ => true
  | .chainCfg _ _ _ => true
  | .chainStep _ _ _ => true
  | .chainRun _ _ _ => true
  | .setNew _ _ => true
  | .setFree _ _ => true
  | .setIns _ _ _ _ _ => true
  | .setDel _ _ _ _ _ => true
  | .setHas _ _ _ _ => true
  | .setCard _ _ _ => true
  | .setOr _ _ _ _ => true
  | .setAnd _ _ _ _ => true
  | .setSub _ _ _ _ => true
  | .setIn _ _ _ _ => true
  | .setOut _ _ _ _ _ => true
  | .setIter _ _ _ _ => true
  | .setHint _ _ _ => true
  | .setHintNone _ _ => true
  | _ => false

/-- The values that a statement uses, each with the types it may have, and those that it defines. -/
def IrStmt.uses : IrStmt → List (Opnd × List IrTy)
  | .op i _ => (irIns i).map fun e => (e.1, e.2.2)
  | _ => []

def IrStmt.defs : IrStmt → List (Opnd × IrTy)
  | .op _ res => res
  | _ => []

/-- The values that an operation defines are as many as the instruction writes, of its registers' kind and of its types. -/
def irDefines (i : Instr) (res : List (Opnd × IrTy)) : Bool :=
  res.length == (irOuts i).length && (res.zip (irOuts i)).all fun e => Opnd.sameFile e.1.1 e.2.1 && e.2.2.contains e.1.2

/-! ## Blocks and dominance (R342) -/

def IrEnd.next : IrEnd → List (Nat × List Opnd)
  | .jump b as => [(b, as)]
  | .branch _ _ b as c bs => [(b, as), (c, bs)]
  | .ends => []

/-- Where each value is defined, with its type: block, and place in it, parameters first. -/
def IrFunc.defs (f : IrFunc) : List ((Opnd × IrTy) × Nat × Nat) :=
  (f.blocks.zipIdx).flatMap fun e =>
    (e.1.params.map fun d => (d, e.2, 0)) ++
      (e.1.body.zipIdx).flatMap fun q => (IrStmt.defs q.1).map fun d => (d, e.2, q.2 + 1)

def IrFunc.preds (f : IrFunc) (b : Nat) : List Nat :=
  ((f.blocks.zipIdx).filter fun e => (IrEnd.next e.1.last).any fun t => t.1 == b).map fun e => e.2

/-- The blocks that dominate each block, after so many rounds of taking away those that do not. -/
def IrFunc.doms (f : IrFunc) : Nat → List (List Nat)
  | 0 => f.blocks.map fun _ => List.range f.blocks.length
  | n + 1 =>
    let old := f.doms n
    (List.range f.blocks.length).map fun b =>
      if b = 0 then [0]
      else (List.range f.blocks.length).filter fun d => d == b || (f.preds b).all fun p => (old.getD p []).contains d

/-- A value of one of these types is defined where every path to this place of a block has passed. -/
def IrFunc.sees (f : IrFunc) (b at_ : Nat) (u : Opnd × List IrTy) : Bool :=
  f.defs.any fun e => e.1.1 == u.1 && u.2.contains e.1.2 &&
    (if e.2.1 = b then decide (e.2.2 < at_) else ((f.doms f.blocks.length).getD b []).contains e.2.1)

/-- Each of these values is defined exactly once. -/
def IrFunc.once (f : IrFunc) (ds : List (Opnd × IrTy)) : Bool :=
  ds.all fun d => (f.defs.filter fun e => e.1.1 == d.1).length == 1

/-! ## Convergence regions (R344) -/

/-- The regions open after a statement, innermost first, each named by the place of its `conv.enter`; none where it may not
stand there. -/
def regionsAfter (b at_ : Nat) (st : List (Nat × Nat)) : IrStmt → Option (List (Nat × Nat))
  | .enter => if st.length < 16 then some ((b, at_) :: st) else none
  | .leave => st.tail?
  | .op i _ => if irCrosses i && st.isEmpty then none else some st

/-- The regions open before statement n of a block that is entered in these. -/
def IrBlock.regions (k : IrBlock) (b : Nat) (st : List (Nat × Nat)) : Nat → Option (List (Nat × Nat))
  | 0 => some st
  | n + 1 => (k.regions b st n).bind fun r => (k.body[n]?).bind (regionsAfter b n r)

/-- The regions in which each block is entered, as so many rounds along the paths from the first find them. -/
def IrFunc.entries (f : IrFunc) : Nat → List (Option (List (Nat × Nat)))
  | 0 => f.blocks.zipIdx.map fun e => if e.2 = 0 then some [] else none
  | n + 1 =>
    let old := f.entries n
    (List.range f.blocks.length).map fun b =>
      match old.getD b none with
      | some st => some st
      | none => (f.preds b).findSome? fun p =>
          (f.blocks[p]?).bind fun k => (old.getD p none).bind fun st => k.regions p st k.body.length

/-- The regions open before statement n of block b, where a path from the first block leads there. -/
def IrFunc.regionsAt (f : IrFunc) (b n : Nat) : Option (List (Nat × Nat)) :=
  (f.blocks[b]?).bind fun k => ((f.entries f.blocks.length).getD b none).bind fun st => k.regions b st n

/-- The block can be reached. -/
def IrFunc.reached (f : IrFunc) (b : Nat) : Bool := ((f.entries f.blocks.length).getD b none).isSome

/-! ## Validity (R342 to R345) -/

/-- Statement n of block b is valid. -/
def IrFunc.stmtOk (f : IrFunc) (b n : Nat) (q : IrStmt) : Bool :=
  (match q with | .op i res => irNamed i && irDefines i res | _ => true) &&
  f.once (IrStmt.defs q) && (IrStmt.uses q).all (f.sees b (n + 1)) &&
  (!f.reached b || ((f.regionsAt b n).bind fun st => regionsAfter b n st q).isSome)

/-- The end of block b is valid: values and parameters agree, a block is entered in the same regions on every path, and no
thread ends in a region. -/
def IrFunc.endOk (f : IrFunc) (b : Nat) (k : IrBlock) : Bool :=
  let n := k.body.length
  (match k.last with
    | .branch p v _ _ _ _ =>
      f.sees b (n + 1) (p, [.pred]) && (v.isNone || !f.reached b || ((f.regionsAt b n).getD []).isEmpty == false)
    | _ => true) &&
  ((IrEnd.next k.last).all fun t =>
    match f.blocks[t.1]? with
    | none => false
    | some j =>
      t.2.length == j.params.length && ((t.2.zip j.params).all fun e => !irValue e.1 || f.sees b (n + 1) (e.1, [e.2.2])) &&
      (!f.reached b || f.regionsAt b n == (f.entries f.blocks.length).getD t.1 none)) &&
  (k.last != .ends || !f.reached b || f.regionsAt b n == some [])

/-- The statements and ends of a function in order, each valid or not; a block's parameters count with its first. -/
def IrFunc.checks (f : IrFunc) : List Bool :=
  (f.blocks.zipIdx).flatMap fun e =>
    ((e.1.body.zipIdx).map fun q => (q.2 != 0 || f.once e.1.params) && f.stmtOk e.2 q.2 q.1) ++
      [(!e.1.body.isEmpty || f.once e.1.params) && f.endOk e.2 e.1]

/-- The first fault of a module: its function and operation, by number; none in a valid one (R345). -/
def IrModule.fault (m : IrModule) : Option (Nat × Nat) :=
  (m.funcs.zipIdx).findSome? fun e => (((IrFunc.checks e.1).zipIdx).find? fun c => !c.1).map fun c => (e.2, c.2)

/-- Warp and lane of a kernel's thread (R343). -/
def irThread (t : Nat) : Nat × Nat := (t / 32, t % 32)

/-! ## The translator (R330, R345) -/

/-- An entry header with these grants within their ranges (R28). -/
def headerBytes (g : Nat → Nat) : List Byte :=
  let f := fun (i m : Nat) => min m (g i)
  let w0 := f 0 64 * 2 ^ 18 + f 1 16 * 2 ^ 13 + f 2 64 * 2 ^ 6 + max 1 (f 3 48)
  let w1 := f 4 128 * 2 ^ 18 + f 5 256 * 2 ^ 9 + f 6 256
  let w3 := f 7 16 * 2 ^ 3 + f 8 4
  ([w0, w1, 0x48455A4C, w3].flatMap fun w => (List.range 4).map fun i => BitVec.ofNat 8 (w / 2 ^ (8 * i)))

/-- A call target's header has its budget alone (R330). -/
def callGrants (g : Nat → Nat) (i : Nat) : Nat := if i = 3 then g 3 else 0

/-- A word that the assembler would encode (R331). -/
def codable (i : Instr) : Bool :=
  match i with
  | .unassignedWord _ _ => false
  | i => Instr.wf i && (encodeFields i).isSome && checkUses 1536 (usesOf i) == none

def codeOf (l : List Instr) : List Byte :=
  (l.flatMap encode).flatMap fun w => (List.range 8).map fun i => BitVec.ofNat 8 (w.toNat / 2 ^ (8 * i))

/-- A register of the same kind, by a number. -/
def Opnd.home (o : Opnd) (n : Nat) : Opnd :=
  match o with
  | .v _ => .v (n % 1536)
  | .s _ => .s (n % 256)
  | .p _ => .p (n % 24)
  | o => o

/-- Operation k of a function as an instruction, on registers of the translator's own choice (log 21). -/
def nativeOp (version : Nat) (ir : List Byte) (f k : Nat) (i : Instr) : Instr :=
  let j := irRename (renamed ((irPlaces i).zipIdx.map fun e => (e.1.1, Opnd.home e.1.1 (Config.irReg version ir f k e.2)))) i
  if codable j then j else irPlaced i

/-- The operations of a function in the order of its blocks. -/
def IrFunc.opsOf (f : IrFunc) : List Instr :=
  f.blocks.flatMap fun b => b.body.filterMap fun q => match q with | .op i _ => some i | _ => none

/-- The native code of function k: each of its operations, with instructions of the translator's own between them, and at the
end one that cannot fall through (R330, R345, log 21). -/
def nativeFunc (version : Nat) (ir : List Byte) (k : Nat) (f : IrFunc) : List Instr :=
  let own := fun n => (Config.irOwn version ir k n).filter codable
  (f.opsOf.zipIdx).flatMap (fun e => own e.2 ++ [nativeOp version ir k e.2 e.1]) ++ own f.opsOf.length ++
    [if f.kernel then .exit ⟨none, false⟩ else .ret ⟨none, false⟩]

/-- The native code of a module: for each function its entry header, a call target's with its budget alone, and its code (R330,
R345). -/
def nativeCode (version : Nat) (ir : List Byte) (m : IrModule) : List Byte :=
  (m.funcs.zipIdx).flatMap fun e =>
    let g := Config.irGrants version ir e.2
    headerBytes (if e.1.kernel then g else callGrants g) ++ codeOf (nativeFunc version ir e.2 e.1)

/-- What the translator of a firmware makes of an IR section: native code, or the function and operation at fault, both 0
where the bytes are no module or its version is not accepted (R345). -/
def irTranslate (irMinor version : Nat) (ir : List Byte) : (Nat × Nat) ⊕ List Byte :=
  match Config.irModule ir with
  | none => .inl (0, 0)
  | some m =>
    if m.major ≠ 1 ∨ m.minor > irMinor then .inl (0, 0)
    else
      match m.fault with
      | some f => .inl f
      | none => .inr (nativeCode version ir m)

end Sys2Proof
end

