-- ==== Sys2Proof/Machine/Loader.lean ====
section
/-! DEFINITION. Containers and the loader (R333 to R338, R345, R346, R355), the fuse counter (R361), the attestation report
(R360). -/

namespace Sys2Proof.Machine

/-- n little-endian bytes of a byte array at an offset. -/
def leAt (b : List Byte) (off n : Nat) : Nat := leVal ((b.drop off).take n)

/-! ## Containers (R334 to R336) -/

/-- The header of a container (R334). -/
structure LzbHeader where
  major : Nat
  minor : Nat
  nsect : Nat
  signed : Bool
  sectOff : Nat
  svn : Nat
  sigOff : Nat
  deriving DecidableEq, Repr

/-- An entry of the section table (R335). -/
structure LzbSection where
  type : Nat
  align : Nat
  link : Nat
  off : Nat
  len : Nat
  deriving DecidableEq, Repr

/-- The header, if its fields are those of a container of this length (R334). -/
def LzbHeader.of (b : List Byte) (len : Nat) : Option LzbHeader :=
  let h : LzbHeader :=
    { minor := leAt b 4 2, major := leAt b 6 2, nsect := leAt b 8 4, signed := leAt b 12 4 == 1, sectOff := leAt b 16 8,
      svn := leAt b 24 8, sigOff := leAt b 32 8 }
  if 64 ≤ len ∧ leAt b 0 4 = 0x01425A4C ∧ 1 ≤ h.nsect ∧ h.nsect ≤ 4096 ∧ leAt b 12 4 ≤ 1 ∧ h.sectOff % 8 = 0 ∧
     h.sectOff + 32 * h.nsect ≤ len ∧ h.svn ≤ 64 ∧ (h.sigOff = 0 ↔ h.signed = false) ∧
     (h.signed = true → h.sigOff + 132 ≤ len) ∧ leAt b 40 8 = len ∧ leAt b 48 16 = 0 then some h
  else none

/-- The section at an offset, if its entry's fixed fields are as R335 says. -/
def LzbSection.of (b : List Byte) (off : Nat) : Option LzbSection :=
  let q : LzbSection :=
    { type := leAt b off 2, align := leAt b (off + 2) 1, link := leAt b (off + 4) 2, off := leAt b (off + 8) 8,
      len := leAt b (off + 16) 8 }
  if q.type ≤ 5 ∧ 3 ≤ q.align ∧ q.align ≤ 16 ∧ leAt b (off + 3) 1 = 0 ∧ leAt b (off + 6) 2 = 0 ∧ leAt b (off + 24) 8 = 0 then
    some q
  else none

/-- The sections of a table, if every entry is well formed. -/
def lzbSections (b : List Byte) : Nat → Nat → Option (List LzbSection)
  | 0, _ => some []
  | n + 1, off =>
    match LzbSection.of b off, lzbSections b n (off + 32) with
    | some q, some l => some (q :: l)
    | _, _ => none

def LzbSection.bytes (q : LzbSection) (b : List Byte) : List Byte := (b.drop q.off).take q.len

/-- The type of a section by its index. -/
def typeAt (qs : List LzbSection) (i : Nat) : Option Nat := (qs[i]?).map LzbSection.type

/-- There is a section with this index. -/
def sectionAt (qs : List LzbSection) (i : Nat) : Bool := (qs[i]?).isSome

/-- A relocation record (R336). -/
structure Reloc where
  off : Nat
  kind : Nat
  sect : Nat
  addend : Nat
  deriving DecidableEq, Repr

def relocs : Nat → List Byte → List Reloc
  | 0, _ => []
  | n + 1, b =>
    { off := leAt b 0 8, kind := leAt b 8 2, sect := leAt b 10 2, addend := leAt b 12 4 } :: relocs n (b.drop 16)

/-- An entry-table record (R336) as its 32 bytes. -/
def records (k : Nat) : Nat → List Byte → List (List Byte)
  | 0, _ => []
  | n + 1, b => b.take k :: records k n (b.drop k)

/-- The contents of a section have the form of R336. -/
def LzbSection.contentsOk (q : LzbSection) (qs : List LzbSection) (b : List Byte) : Bool :=
  match q.type with
  | 0 => q.len % 8 == 0
  | 2 => q.len % 16 == 0 && (relocs (q.len / 16) (q.bytes b)).all fun r =>
      decide (1 ≤ r.kind) && decide (r.kind ≤ 3) && sectionAt qs r.sect
  | 3 => q.len % 16 == 0 && (records 16 (q.len / 16) (q.bytes b)).all fun r => leAt r 4 4 == 0
  | 4 => q.len % 32 == 0 && (records 32 (q.len / 32) (q.bytes b)).all fun r =>
      leAt r 12 4 == 0 && (typeAt qs (leAt r 8 2) == some 0 || typeAt qs (leAt r 8 2) == some 5)
  | _ => true

/-- How many sections have a type. -/
def countType (qs : List LzbSection) (t : Nat) : Nat := (qs.filter fun q => q.type == t).length

/-- Check 1 of R338: the structure. -/
def lzbParse (b : List Byte) (len : Nat) : Option (LzbHeader × List LzbSection) :=
  match LzbHeader.of b len with
  | none => none
  | some h =>
    match lzbSections b h.nsect h.sectOff with
    | none => none
    | some qs =>
      if qs.all (fun q => decide (q.off + q.len ≤ len) && (if q.type = 2 then sectionAt qs q.link else q.link == 0) &&
            q.contentsOk qs b) &&
          decide (countType qs 3 ≤ 1) && decide (countType qs 4 ≤ 1) && decide (countType qs 5 ≤ 1) &&
          (countType qs 5 == 0 || countType qs 0 == 0) then some (h, qs)
      else none

/-! ## The checks of R338 -/

/-- Code key n of a tenant: 132 bytes (R351). -/
def Tenant.codeKey (x : Tenant) (n : Nat) : List Byte :=
  ((List.range 17).flatMap fun i => leBytes 8 (x.reg (0x400 + 0x100 * n + 8 * i)).toNat).take 132

/-- The container's bytes with its signature read as zero (R337). -/
def signedBytes (b : List Byte) (h : LzbHeader) : List Byte :=
  b.take h.sigOff ++ List.replicate 132 0#8 ++ b.drop (h.sigOff + 132)

/-- Check 4: the signature verifies against a code key in use; an unsigned container passes where none is required. -/
def Tenant.signatureOk (x : Tenant) (b : List Byte) (h : LzbHeader) : Bool :=
  let ctl := (x.reg 0x100).toNat
  if h.signed then
    (List.range (min 4 (ebits ctl 3 0))).any fun n =>
      verifies (sha512 (signedBytes b h)) ((b.drop h.sigOff).take 132) (x.codeKey n)
  else !ctl.testBit 4

/-- Check 5 on one requirement (R336): a record of the list with its ID, version and length, and the mask's bits set. -/
def capMet (ws : List Nat) (r : List Byte) : Bool :=
  (List.range ws.length).any fun i =>
    let w := ws.getD i 0
    let len := ebits w 47 40
    -- headers of the list: those that a walk from index 0 meets
    [0, 2, 4, 6, 9, 11, 13, 15].contains i && ebits w 15 0 == leAt r 0 2 && decide (ebits w 39 32 ≥ leAt r 2 1) &&
    decide (1 ≤ leAt r 3 1) && decide (len ≥ leAt r 3 1) &&
    (ws.getD (i + leAt r 3 1) 0 &&& leAt r 8 8) == leAt r 8 8

/-- Check 5: every requirement of the container. -/
def capsMet (d : Device) (x : Tenant) (qs : List LzbSection) (b : List Byte) : Bool :=
  qs.all fun q => q.type != 3 || (records 16 (q.len / 16) (q.bytes b)).all (capMet (capWords d x))

/-- The signature of a kept translation is the device's own over it (R345, R346). -/
def Translation.valid (e : Translation) : Bool :=
  verifies (sha512 (Config.translationBytes e.svn e.version (sha512 e.code) e.digest)) e.sig devicePublic

/-- A translation as the device signs it. -/
def Translation.sign (digest : BitVec 512) (version svn : Nat) (code : List Byte) : Translation :=
  { digest := digest, version := version, svn := svn, code := code,
    sig := deviceSign (sha512 (Config.translationBytes svn version (sha512 code) digest)) }

/-- The translation of an IR section (R345, R346): the one that is kept, if its signature verifies; one whose signature fails is
purged, and a miss translates and inserts. A refusal gives the function and operation at fault. -/
def Device.translation (d : Device) (svn : Nat) (ir : List Byte) : Device × ((Nat × Nat) ⊕ List Byte) :=
  let digest := sha512 ir
  let mine := fun (e : Translation) => e.digest == digest && e.version == d.translator
  let d1 := { d with transl := d.transl.filter fun e => !mine e || e.valid }
  match d1.transl.find? mine with
  | some e => (d1, .inr e.code)
  | none =>
    match irTranslate d.irMinor d.translator ir with
    | .inl f => (d1, .inl f)
    | .inr code => ({ d1 with transl := d1.transl ++ [Translation.sign digest d.translator svn code] }, .inr code)

/-- Check 6 (R345): the contents that each section brings to memory, or a refusal, with the translation cache afterwards. -/
def translated (d : Device) (h : LzbHeader) (qs : List LzbSection) (b : List Byte) : Device × ((Nat × Nat) ⊕ List (List Byte)) :=
  match qs.find? fun q => q.type == 5 with
  | none => (d, .inr (qs.map fun q => q.bytes b))
  | some ir =>
    match d.translation h.svn (ir.bytes b) with
    | (d1, .inl f) => (d1, .inl f)
    | (d1, .inr code) => (d1, .inr (qs.map fun q => if q.type = 5 then code else q.bytes b))

/-- Bytes that a relocation patches. -/
def Reloc.size (r : Reloc) : Nat := if r.kind = 1 then 8 else 4

/-- Check 7: each relocation lies within its section. -/
def relocsOk (qs : List LzbSection) (b : List Byte) (bodies : List (List Byte)) : Bool :=
  qs.all fun q => q.type != 2 || (relocs (q.len / 16) (q.bytes b)).all fun r =>
    decide (r.off + r.size ≤ (bodies.getD q.link []).length)

/-! ## Placement (R338, R355) -/

/-- Pages of 64 KiB of a section. -/
def pagesOf (n : Nat) : Nat := (n + 65535) / 65536

/-- The loaded address of each section in ascending order, from an address on: a multiple of 64 KiB, and so of 2^ALIGN. -/
def placeSections : List (List Byte) → Nat → List Nat
  | b :: bs, at_ => at_ :: placeSections bs (at_ + 65536 * pagesOf b.length)
  | [], _ => []

/-- A body with n bytes replaced at an offset. -/
def patch (b : List Byte) (off : Nat) (v : List Byte) : List Byte := b.take off ++ v ++ b.drop (off + v.length)

/-- One relocation applied (R333, R336). -/
def Reloc.apply (addrs : List Nat) (b : List Byte) (r : Reloc) : List Byte :=
  let v := addrs.getD r.sect 0 + r.addend
  patch b r.off (match r.kind with
    | 1 => leBytes 8 v
    | 2 => leBytes 4 v
    | _ => leBytes 4 (v / 4294967296))

/-- The body of section i with every relocation that patches it applied. -/
def relocated (qs : List LzbSection) (b : List Byte) (addrs : List Nat) (i : Nat) (body : List Byte) : List Byte :=
  (qs.filter fun q => q.type == 2 && q.link == i).foldl (fun x q =>
    (relocs (q.len / 16) (q.bytes b)).foldl (fun y r => r.apply addrs y) x) body

/-- A translation by the control cluster, for whichever die the page serves. -/
def State.loaderXlat (s : State) (t va : Nat) (w : Want) : XRes :=
  ((List.range 4).findSome? fun die =>
    match walk s t die va with
    | .leaf e =>
      match e.permit w va with
      | .ok x => some (.ok x)
      | _ => none
    | _ => none).getD (.fault codeProtection)

/-- The physical address of the leaf entry that maps an address, with `left` levels below (R87). -/
def leafAddr (s : State) (va : Nat) : Nat → Nat → Option Nat
  | 0, _ => none
  | left + 1, table =>
    let a := table + 8 * levelIndex va (4 - left)
    match devKey a with
    | none => none
    | some k =>
      let e := s.le k 8
      if ebits e 0 0 = 0 then none
      else if ebits e 1 1 = 1 then some k
      else leafAddr s va left (ebits e 51 8 * 256)

/-- A range of a tenant's addresses that an invalidation names (R353). -/
def invRange (va size : Nat) : Nat × Nat :=
  match size with
  | 0 => (va / 65536 * 65536, 65536)
  | 1 => (va / 2097152 * 2097152, 2097152)
  | 2 => (va / 1073741824 * 1073741824, 1073741824)
  | _ => (0, 144115188075855872)

/-- A held translation overlaps a range. -/
def TlbEntry.hits (t lo len : Nat) (e : TlbEntry) : Bool :=
  e.tenant == t && decide (e.base * 2 ^ e.bits < lo + len) && decide (lo < (e.base + 1) * 2 ^ e.bits)

/-- No TLB holds a translation of the range any more (R353). -/
def State.dropXlats (s : State) (t lo len : Nat) : State :=
  { s with
    cores := kmap (fun (c : Core) => { c with tlb := c.tlb.filter fun e => !e.hits t lo len }) s.cores
    dies := kmap (fun (d : Die) => { d with tlb := d.tlb.filter fun e => !e.hits t lo len }) s.dies }

/-- The pages of a section of code become fetchable and no longer writable, and are invalidated (R355). -/
def State.sealCode (s : State) (t va : Nat) : Nat → State
  | 0 => s
  | n + 1 =>
    let s1 := match leafAddr s va 4 (((s.tenant t).reg 0x10).toNat / 2097152 * 2097152) with
      | some k => s.engineWriteAt ⟨1, 64, 0, false⟩ (homeDie k) 8 [plainXlat k] (leBytes 8 ((s.le k 8) / 16 * 16 + (s.le k 8) % 4 + 8))
      | none => s
    (s1.dropXlats t (va / 65536 * 65536) 65536).sealCode t (va + 65536) n

/-- The pieces of 32 bytes that a body takes, where each lies; none where a page cannot be written. -/
def State.placeBytes (s : State) (t va : Nat) : Nat → Option (List Xlat)
  | 0 => some []
  | n + 1 =>
    match s.loaderXlat t va .write, s.placeBytes t (va + 32) n with
    | .ok x, some l => some (x :: l)
    | _, _ => none

/-- A body written at its place, in pieces of 32 bytes. -/
def State.writeBody (s : State) (xs : List Xlat) (body : List Byte) : State :=
  s.engineWriteAt ⟨1, 64, 0, false⟩ 0 32 xs body

/-- Every section is written where it is placed; none where a page cannot be written. -/
def State.writeBodies (s : State) (t : Nat) : List (Nat × List Byte) → Option State
  | [] => some s
  | (va, body) :: rest =>
    match s.placeBytes t va ((body.length + 31) / 32) with
    | none => none
    | some xs => (s.writeBody xs body).writeBodies t rest

/-- Bytes at a device physical address; where the package has no memory they are free (log 11). -/
def State.physBytes (s : State) (pa n : Nat) : List Byte := (List.range n).map fun i => s.devByte (pa + i)

/-- Every byte of a range of physical addresses has memory behind it. -/
def physThere (pa n : Nat) : Bool := (List.range n).all fun i => (devKey (pa + i)).isSome

/-- Bytes written by the control cluster at a physical address; what falls where no memory is goes nowhere (log 11). -/
def State.physWrite (s : State) (pa : Nat) (b : List Byte) : State :=
  let at_ := (b.zipIdx).filterMap fun e => (devKey (pa + e.2)).map fun k => (k, e.1)
  s.engineWriteAt ⟨1, 64, 0, false⟩ 0 1 (at_.map fun e => plainXlat e.1) (at_.map fun e => e.2)

/-- A line of a range of physical addresses is owned by an engine (R130). -/
def State.physOwned (s : State) (pa n : Nat) : Bool :=
  n != 0 && (linesFrom 256 pa n).any fun line => ((devKey (256 * line)).map (s.ownedLine .any)).getD false

/-! ## Translations in use (R353) -/

/-- A lane lies in a range of addresses. -/
def LaneOp.within (lo len : Nat) (l : LaneOp) : Bool := decide (lo ≤ l.va.toNat) && decide (l.va.toNat < lo + len)

/-- An access of the tenant that was translated in a range has left its core and not performed. -/
def State.rangeBusy (s : State) (t lo len : Nat) : Bool :=
  s.agents.any fun e => e.2.ident.tenant == t && e.2.flight.ops.any fun o => o.lanes.any fun l => l.st.onWay && l.within lo len

/-- Accesses of the tenant that were translated in a range and have not performed are translated again. -/
def State.rangeAgain (s : State) (t lo len : Nat) : State :=
  { s with agents := kmap (fun (x : Agent) =>
      if x.ident.tenant = t then
        x.mapFlight fun f =>
          { f with ops := f.ops.map (MemOp.mapLanes (fun l => l.st.isReady && l.within lo len) fun l =>
              { l with st := .fresh, loc := none }) }
      else x) s.agents }

/-- The entry records of a container with their loaded addresses (R355). -/
def entryRecords (qs : List LzbSection) (b : List Byte) (addrs : List Nat) : List Byte :=
  qs.flatMap fun q =>
    if q.type = 4 then
      (records 32 (q.len / 32) (q.bytes b)).flatMap fun r =>
        leBytes 8 (addrs.getD (leAt r 8 2) 0 + leAt r 0 8) ++ r.drop 8
    else []

/-! ## LOAD_START and LOAD_COMPLETE (R338, R355) -/

/-- LOAD_START: a write of `LOAD_CMD` with bit 0, unless a load is in progress; a loader that was not verified does not run
(R359). -/
def execLoadStart (tenant : Nat) (value : DWord) (s : State) : Out :=
  if tenant ≥ 16 || (s.tenant tenant).load.isSome || !value.getLsbD 0 || !s.device.verified then .next s
  else .next (s.modTenant tenant fun x => { x with load := some value })

/-- The load ends with a code, and vector 5 is raised (R354). -/
def State.loadEnds (s : State) (t code : Nat) : State :=
  (s.modTenant t fun x => { x with load := none, loadCode := code }).irq t 5

/-- The ranges of addresses at which code comes to stand. -/
def codeRanges (qs : List LzbSection) (addrs : List Nat) (bodies : List (List Byte)) : List (Nat × Nat) :=
  ((qs.zip (addrs.zip bodies)).filter fun e => e.1.type == 0 || e.1.type == 5).map fun e => (e.2.1, pagesOf e.2.2.length)

/-- The container is placed (R338, R355): code 8 where the arena is too small or a page of it cannot be written. The entry
leaves of code are sealed, the old translations leave, and accesses that used them are translated again (R353). -/
def State.loadPlace (s : State) (t arena : Nat) (qs : List LzbSection) (b : List Byte) (bodies : List (List Byte)) : State :=
  let x := s.tenant t
  let addrs := placeSections bodies ((x.reg 0xD0).toNat / 65536 * 65536)
  let all := (addrs.zip bodies).zipIdx.map fun e => (e.1.1, relocated qs b addrs e.2 e.1.2)
  if (bodies.map fun e => pagesOf e.length).sum > arena then s.loadEnds t 8
  else
    match s.writeBodies t all with
    | none => s.loadEnds t 8
    | some s1 =>
      let s2 := (codeRanges qs addrs bodies).foldl (fun r e => (r.sealCode t e.1 e.2).rangeAgain t e.1 (65536 * e.2)) s1
      (s2.physWrite (x.reg 0xD8).toNat (entryRecords qs b addrs)).loadEnds t 0

/-- The load must wait: a line of the container or of its entry records is owned by an engine (R130), or a write that was
translated through a leaf of its arena has left its core and not performed (R353). -/
def State.loadWaits (s : State) (t len arena : Nat) : Bool :=
  let x := s.tenant t
  s.physOwned ((x.reg 0xC0).toNat / 8 * 8) len || s.physOwned (x.reg 0xD8).toNat len ||
    s.rangeBusy t ((x.reg 0xD0).toNat / 65536 * 65536) (65536 * arena)

/-- LOAD_COMPLETE: the checks of R338 in their order, and the placement. -/
def execLoadComplete (tenant : Nat) (s : State) : Out :=
  let x := s.tenant tenant
  match x.load with
  | none => .next s
  | some cmd =>
    let len := (x.reg 0xC8).toNat
    let arena := cmd.toNat / 4294967296
    if s.loadWaits tenant len arena then .next s
    else
      let b := s.physBytes ((x.reg 0xC0).toNat / 8 * 8) len
      match lzbParse b len with
      | none => .next (s.loadEnds tenant 1)
      | some (h, qs) =>
        if h.major ≠ 2 ∨ h.minor > 3 then .next (s.loadEnds tenant 2)
        else if h.svn < s.device.fuses then .next (s.loadEnds tenant 3)
        else if !x.signatureOk b h then .next (s.loadEnds tenant 4)
        else if !capsMet s.device x qs b then .next (s.loadEnds tenant 5)
        else
          match translated s.device h qs b with
          | (d, .inl f) =>
            .next (({ s with device := d }.modTenant tenant fun y => { y with irFault := some f }).loadEnds tenant 6)
          | (d, .inr bodies) =>
            let s1 := { s with device := d }
            if !relocsOk qs b bodies then .next (s1.loadEnds tenant 7)
            else .next (s1.loadPlace tenant arena qs b bodies)

/-! ## Fuses (R346, R349, R361) -/

/-- FUSE_CMD: with GO and NEXT one above the counter, the next fuse begins to be blown; any other write, or one while a fuse
is being blown, has no effect. -/
def execFuseCmd (value : DWord) (s : State) : Out :=
  if value.getLsbD 63 && value.toNat % 128 == s.device.fuses + 1 && decide (s.device.fuses < 64) && !s.device.fuseBusy then
    .next { s with device := { s.device with fuseBusy := true } }
  else .next s

/-- FUSE_BLOW_DONE: the counter rises, and every translation of a lower version leaves the cache. -/
def execFuseBlowDone (s : State) : Out :=
  if s.device.fuseBusy then
    let n := s.device.fuses + 1
    .next { s with device := { s.device with
      fuses := n, fuseBusy := false, transl := s.device.transl.filter fun e => decide (n ≤ e.svn) } }
  else .next s

/-! ## Attestation (R349, R360) -/

/-- A register of the device block as written (R349). -/
def Device.reg (d : Device) (off : Nat) : DWord := kgetD (if off = 0x200 then 2000#64 else 0#64) d.regs off

def Device.setReg (d : Device) (off : Nat) (v : DWord) : Device :=
  { d with regs := ksetD (if off = 0x200 then 2000#64 else 0#64) d.regs off v }

/-- ATTESTATION_START: START of `ATT_CTL`; a report under way goes on. -/
def execAttestationStart (s : State) : Out := .next { s with device := { s.device with attBusy := true } }

/-- The measurement of image i that a report holds (R359, R360): the digest of the image that runs. -/
def Device.measurement (d : Device) (i : Nat) : BitVec 512 :=
  match d.measured with
  | some l => (l.getD i none).getD (Config.measurement d.boot i)
  | none => Config.measurement 0 i

/-- The 652 bytes of a report (R360). -/
def Device.attestation (d : Device) : List Byte :=
  let body := ((List.range 8).flatMap fun i => leBytes 8 (d.reg (0x500 + 8 * i)).toNat) ++ leBytes 8 d.fuses ++
    ((List.range 6).flatMap fun i => leBytes 64 (d.measurement i).toNat) ++
    leBytes 64 (sha512 ((capWords d (Tenant.enable d Tenant.reset)).flatMap (leBytes 8))).toNat
  body ++ deviceSign (sha512 body)

/-- ATTESTATION_REPORT: the report is written at `ATT_DST` and BUSY clears; ERR is set where it cannot be written. -/
def execAttestationReport (s : State) : Out :=
  if !s.device.attBusy then .next s
  else
    let at_ := (s.device.reg 0x540).toNat / 64 * 64
    if s.physOwned at_ 652 then .next s
    else if physThere at_ 652 then
      let s1 := s.physWrite at_ s.device.attestation
      .next { s1 with device := { s1.device with attBusy := false } }
    else
      .next { s with device := { s.device.setReg 0x548 (s.device.reg 0x548 ||| 4#64) with attBusy := false } }

end Sys2Proof.Machine
end

