-- ==== Sys2Proof/Machine/Host.lean ====
section
/-! DEFINITION. The register blocks as the host sees them (R348 to R355), invalidations (R353), accesses of the host and of
peers (R128, R347, R356, R357), soft errors (R362), power and the split lanes (R106, R358), training, ports and device
reset (R347, R356, R359). A step whose condition does not hold leaves the state as it is. -/

namespace Sys2Proof.Machine

/-! ## Invalidations (R353) -/

/-- TLB_INV: an invalidation joins the tenant's queue. -/
def execTlbInv (tenant va size : Nat) (s : State) : Out :=
  if tenant ≥ 16 then .next s else .next (s.modTenant tenant fun x => { x with invs := x.invs ++ [(va, size % 4)] })

/-- TLB_INV_COMPLETE: once no write that was translated through the old entries is still on its way, the TLBs lose them and
accesses that have not performed are translated again. -/
def execTlbInvComplete (tenant : Nat) (s : State) : Out :=
  match (s.tenant tenant).invs with
  | [] => .next s
  | (va, size) :: rest =>
    let r := invRange va size
    if s.rangeBusy tenant r.1 r.2 then .next s
    else
      .next (((s.rangeAgain tenant r.1 r.2).dropXlats tenant r.1 r.2).modTenant tenant fun x => { x with invs := rest })

/-! ## The split lanes and power (R106, R358) -/

/-- SLI_CFG_WRITE: a new RATIO begins a change; a write while one is under way is discarded and sets ERR. -/
def execSliCfgWrite (stack : Nat) (value : DWord) (s : State) : Out :=
  let off := 0x100 + 8 * stack
  let old := s.device.reg off
  if stack ≥ 8 then .next s
  else if (kget s.device.sliBusy stack).isSome then
    .next { s with device := s.device.setReg off (old ||| 0x200#64) }
  else
    let ratio := value &&& 3#64
    let kept := if value.getLsbD 9 then 0#64 else old &&& 0x200#64
    let d := s.device.setReg off (kept ||| ratio)
    .next { s with device :=
      if ratio = old &&& 3#64 then d else { d with sliBusy := kput d.sliBusy stack ratio.toNat } }

/-- SLI_RATIO_DONE: BUSY clears. -/
def execSliRatioDone (stack : Nat) (s : State) : Out :=
  .next { s with device := { s.device with sliBusy := kdel s.device.sliBusy stack } }

/-- The core clock of a die in MHz; the nominal one until the limiter acts (log 6). -/
def Device.clock (d : Device) (die : Nat) : Nat := kgetD 940 d.clocks die

/-- POWER_LIMITER_STEP: the limiter lowers the clocks of a die by a step, which is counted. -/
def execPowerLimiterStep (die mhz : Nat) (s : State) : Out :=
  if die ≥ 4 ∨ mhz ≥ s.device.clock die then .next s
  else
    .next { s with device := { s.device with
      clocks := ksetD 940 s.device.clocks die mhz
      steps := ksetD 0 s.device.steps die ((kgetD 0 s.device.steps die + 1) % 4294967296) } }

/-- POWER_STATE_CHANGE: a block takes another power state, which changes nothing else; a compute die that the limiter had
slowed may take its nominal clock again at level 0. -/
def execPowerStateChange (block level : Nat) (s : State) : Out :=
  .next { s with device := { s.device with
    power := ksetD 0 s.device.power block level
    clocks := if block < 4 ∧ level = 0 then kdel s.device.clocks block else s.device.clocks } }

/-! ## Training, ports, reset (R347, R356, R359) -/

/-- MODULE_TRAINING: a UCIe module has trained, or is left out of service. -/
def execModuleTraining (module_ : Nat) (trained : Bool) (s : State) : Out :=
  if module_ ≥ 4 then .next s
  else .next { s with device := { s.device with modules := setBit s.device.modules module_ trained } }

/-- LINK_PORT_SERVICE_CHANGE: a port enters or leaves service. -/
def execLinkPortServiceChange (port : Nat) (up : Bool) (s : State) : Out :=
  if port ≥ 18 then .next s
  else .next { s with device := { s.device with ports := setBit s.device.ports port up } }

/-- The image passes: its key is the one whose digest is fused, and the signature over its digest verifies (R359). -/
def FwImage.passes (g : FwImage) : Bool := sha512 g.key == Config.furothKeyDigest && verifies (sha512 g.code) g.sig g.key

/-- Image i of the six that R360 lists, if it runs: one that fails, or is missing, does not (R359). -/
def imageRuns (images : List FwImage) (i : Nat) : Option FwImage := (images[i]?).filter FwImage.passes

/-- DEVICE_RESET: everything is as after reset, but for what lies outside the part, the fuses and the translation cache, and
the bytes that memory happens to hold (log 37). Each of the six firmware images is verified, and measured where it passes; a
translator that runs brings its IR minor and translator version (R340, R359). -/
def execDeviceReset (images : List FwImage) (s : State) : Out :=
  .next { State.reset with
    mem := s.mem
    memMark := s.memMark
    coded := s.coded
    free := s.free
    agenda := s.agenda
    device := { Device.reset with
      fuses := s.device.fuses
      transl := s.device.transl
      modules := s.device.modules
      ports := s.device.ports
      verified := (List.range 6).all fun i => (imageRuns images i).isSome
      boot := s.device.boot + 1
      measured := some ((List.range 6).map fun i => (imageRuns images i).map fun g => sha512 g.code)
      irMinor := match imageRuns images 3 with
        | some g => max 2 (Config.imageIrMinor g.code % 65536)
        | none => s.device.irMinor
      translator := match imageRuns images 3 with
        | some g => max 1 (Config.imageTranslator g.code % 65536)
        | none => s.device.translator } }

/-- CXL_CACHE_OWNERSHIP_LOSS (R98): the host takes a line back; what it held has been written to host memory. -/
def execCxlCacheOwnershipLoss (line : Nat) (s : State) : Out :=
  match hostLine line with
  | some _ => .next { s with l2 := kdel s.l2 line }
  | none => .next s

/-! ## Accesses from outside (R128, R347, R356, R357) -/

/-- The location that an address from outside names: device HBM below 2^40; from 2^64 on, a location of host memory or of a
peer's memory that its owner writes (log 38). -/
def outsideKey (pa : Nat) : Option Nat := if pa ≥ 18446744073709551616 then some pa else devKey pa

/-- The bytes that an access touches. -/
def PeerAcc.width : PeerAcc → Nat
  | .read n => n
  | .write b => b.length
  | .atomic _ k _ _ => AKind.bytes k

def PeerAcc.reads : PeerAcc → Bool
  | .write _ => false
  | _ => true

def PeerAcc.writes : PeerAcc → Bool
  | .read _ => false
  | _ => true

/-- A byte as an access from outside reads it; where there is no memory it is free (log 11). -/
def State.outsideByte (s : State) (pa : Nat) : Byte :=
  match outsideKey pa with
  | some k => s.byte k
  | none => Config.unbackedByte pa

/-- An access from outside performs at the home slice (R128); one that meets a line which an engine owns is held, and what is
written where there is no memory goes nowhere (log 11). -/
def State.outsideAccess (s : State) (pa : Nat) (acc : PeerAcc) : Out :=
  let as := (List.range (PeerAcc.width acc)).map fun i => pa + i
  let keys := as.filterMap outsideKey
  if keys.any (s.ownedLine .any) then .next s
  else
    let o : Origin := ⟨1, 64, 0, false⟩
    let die := homeDie (keys.headD 0) % 4
    let put := fun (b : List Byte) =>
      s.engineWriteAt o die 1 (keys.map plainXlat) ((as.zip b).filterMap fun e => (outsideKey e.1).map fun _ => e.2)
    match acc with
    | .read _ => .next (s.homeReads o die (keys.map fun k => (plainXlat k, 1)))
    | .write b => .next (put b)
    | .atomic op k x y =>
      let old := BitVec.ofNat 64 (leVal (as.map s.outsideByte))
      .next (put (leBytes (AKind.bytes k) (atomNew op k old (atomOperand k x) (atomOperand k y)).toNat))

/-- HOST_MEM_ACCESS (R347): an access of the host through CXL.mem. -/
def execHostMemAccess (pa : Nat) (acc : PeerAcc) (s : State) : Out := s.outsideAccess pa acc

/-- A live window of the peer table that admits an access (R349, R357). -/
def Device.admits (d : Device) (dev pa : Nat) (acc : PeerAcc) : Bool :=
  (List.range 64).any fun n =>
    let w := fun i => (d.reg (0x1000 + 32 * n + 8 * i)).toNat
    let c := w 2
    c.testBit 63 && decide (w 0 < w 1) && ebits c 15 0 == dev && decide (w 0 ≤ pa) && decide (pa + (PeerAcc.width acc) ≤ w 1) &&
    (if PeerAcc.writes acc then c.testBit 17 && (!PeerAcc.reads acc || c.testBit 16) else c.testBit 16)

/-- PEER_ACCESS (R356, R357): an access of a peer, within the windows of the peer table; any other is refused. -/
def execPeerAccess (dev pa : Nat) (acc : PeerAcc) (s : State) : Out :=
  if pa < 1099511627776 && s.device.admits dev pa acc then s.outsideAccess pa acc else .next s

/-! ## LINK_DELIVERY_FAILURE (R357) -/

/-- A lane of an access to a TIER 3 page that has still to perform there. -/
def LaneOp.onLink (l : LaneOp) : Bool :=
  (l.loc.map fun x => x.tier == 3).getD false && (l.st.toDo || l.st.isDrained)

/-- A page of a range of addresses is of TIER 3. -/
def State.touchesPeer (s : State) (core tenant : Nat) (w : Want) (va : DWord) (n : Nat) : Bool :=
  (List.range ((va.toNat % 4096 + n + 4095) / 4096)).any fun i =>
    match (s.translate core tenant (BitVec.ofNat 64 (va.toNat / 4096 * 4096 + 4096 * i)) w).2 with
    | .ok x => x.tier == 3
    | .fault _ => false

/-- The current chunk of a copy touches a TIER 3 page: with what it writes, or with its source and scales (R236). -/
def State.copyOnLink (s : State) (core : Nat) (k : Copy) : Bool :=
  let t := s.cmdTenant k.gang
  let lo := 4096 * k.chunk
  let len := min 4096 (k.dstBytes - lo)
  match k.kind with
  | .quant _ lb _ dt st scl =>
    let n := len / typeBytes dt
    let e0 := lo / typeBytes dt
    s.touchesPeer core t .read (k.glob + BitVec.ofNat 64 (e0 * typeBytes st)) (n * typeBytes st) ||
      s.touchesPeer core t .read (scl + BitVec.ofNat 64 (e0 / 2 ^ lb)) ((e0 + n - 1) / 2 ^ lb - e0 / 2 ^ lb + 1)
  | .out _ => s.touchesPeer core t .write (k.glob + BitVec.ofNat 64 lo) (min 4096 (k.bytes - lo))
  | _ => s.touchesPeer core t .read (k.glob + BitVec.ofNat 64 lo) len

/-- A copy stops with status 3 at its chunk; what a chunk brought into buffers is marked. -/
def State.copyLost (s : State) (core : Nat) (k : Copy) : State :=
  match k.kind with
  | .out _ => s.copyEnd core k 3 k.chunk
  | _ =>
    let n := min 4096 (k.dstBytes - 4096 * k.chunk)
    { s with free := s.free + n }.copyIntoBufs core k (k.buf + 4096 * k.chunk) (freeBytes s.free n) 0 true

/-- A completion whose word lies on a TIER 3 page is lost on the link: its write is dropped, and counts as made (R48, R357). -/
def State.completionLost (s : State) (ix : Nat) : State :=
  match s.completions[ix]? with
  | none => s
  | some c =>
    match (s.translateDie c.die c.tenant c.addr .write).2 with
    | .ok x =>
      if x.tier = 3 ∧ c.addr.toNat % 8 = 0 ∧ !(c.count && c.launch != 0 && s.launchStores c.launch) then
        let s1 := { s with completions := s.completions.eraseIdx ix }.linkError c.tenant
        if c.irq then s1.irq c.tenant 0 else s1
      else s
    | .fault _ => s

/-- LINK_DELIVERY_FAILURE: an access to a peer is refused or lost. A load or an atomic return brings poisoned data, whose
value is free (log 24); a write is dropped and still acknowledged; a copy, which operation 0 names by its number in place of
the lane, stops with status 3. Agent 0 stands for the dispatcher, and the lane for one of its completions; operation 1 of agent 0
for the next access to a peer that the dispatcher, an engine's command or set, the Cinch or a fetch makes, which is then lost. -/
def execLinkDeliveryFailure (agent op lane : Nat) (s : State) : Out :=
  if agent = 0 then .next (if op = 0 then s.completionLost lane else { s with linkLost := true }) else
  match s.agent? agent with
  | none => .next s
  | some x =>
    if op = 0 then
      match s.copy? x.core lane with
      | none => .next s
      | some k =>
        if k.agent != agent || k.engine.isNone || !s.copyOnLink x.core k then .next s
        else .next ((s.copyLost x.core k).linkError x.ident.tenant)
    else
      match s.op? agent op with
      | none => .next s
      | some (_, p, o) =>
        match o.lanes.find? fun l => l.lane == lane && l.onLink with
        | none => .next s
        | some l =>
          if o.isPlainStore && !l.st.isDrained then .next s
          else
            let lost := { l with st := .done, val := Config.freeDWord s.free, mark := true }
            let s1 := s.tick.modOp agent op (MemOp.mapLanes (fun q => q.lane == lane) fun _ => lost)
            let s2 := if o.isAtomic then s1.afterAtom agent p o
              else if o.isLoad then s1.completeRead agent op p.core
              else s1.tidy agent
            .next (s2.linkError x.ident.tenant)

/-! ## SOFT_ERROR (R317, R362) -/

/-- The line that an L2 line holds: for one of host memory, that of the host (R98). -/
def l2Source (k : Nat) : Nat := if (hostLine k).isSome then k % 2 ^ 80 else k

/-- The die of an agent's registers: of its core, or of the save partition that holds its record (R318). -/
def State.registersDie (s : State) (x : Agent) : Option Nat :=
  if x.place.isSome then some x.die
  else (s.gangOf x).bind fun y => if y.phase == .saved && !y.spilled then some y.die else none

/-- The unit of `ERR_CE` and `ERR_UE` that counts an error (R349): compute dies 0 to 3, the I/O die 4, stacks from 5; none
where nothing stands at the place. -/
def State.errUnit (s : State) : ErrSite → Option Nat
  | .memory g => if isHbm (32 * g) then some (5 + 32 * g / 68719476736) else none
  | .l2 g =>
    if (kgetD L2Line.absent s.l2 (g / 8)).valid.getLsbD (g % 8) then
      some (((hostLine (g / 8)).map fun h => h.1).getD (homeDie (32 * g)))
    else none
  | .l1 core g => if (kget (s.core core).l1 (g / 2)).isSome then some (dieOfCore core) else none
  | .buffer gang _ _ _ => (s.gang? gang).map fun y => y.die
  | .ways core g => if 32 * g < (s.core core).ways * 16384 then some (dieOfCore core) else none
  | .vector a _ _ => (s.agent? a).bind s.registersDie
  | .scalar a _ => (s.agent? a).bind s.registersDie
  | .sram (.icache core _) _ => if core < 160 then some (dieOfCore core) else none
  | .sram (.coreTlb core) _ => if core < 160 then some (dieOfCore core) else none
  | .sram (.dieTlb die) _ => if die < 4 then some die else none
  | .sram (.queue die) _ => if die < 4 then some die else none
  | .sram (.savePartition die) _ => if die < 4 then some die else none
  | .sram .translation _ => some 4
  | .sram (.other u) _ => if u < 13 then some u else none

/-- A double-bit error marks the granule that it strikes, in memory, in a buffer and in every SRAM, of a register file or a
saved record the lane or the register (R317, R362, log 59). -/
def State.poisonSite (s : State) : ErrSite → State
  | .memory g => s.markGranule g
  | .l2 g => s.markGranule (8 * l2Source (g / 8) + g % 8)
  | .l1 core g => s.modCore core fun c =>
      { c with l1 := kmod c.l1 (g / 2) fun l => { l with marks := setBit l.marks (g % 2) true } }
  | .buffer gang pos b row =>
    match (s.gang? gang).bind fun y => y.cores[pos]? with
    | some core => s.setBufMark ⟨gang, pos, core, b⟩ row true
    | none => s
  | .ways core g => s.modCore core fun c => { c with wayMark := nins g c.wayMark }
  | .vector a reg lane => s.modAgent a (Agent.mapRegs fun r =>
      if reg < r.alloc ∧ lane < 32 then { r with vMark := ksetD 0#32 r.vMark reg (setBit (kgetD 0#32 r.vMark reg) lane true) }
      else r)
  | .scalar a reg => s.modAgent a (Agent.mapRegs fun r =>
      if reg < 256 then { r with sMark := setBit r.sMark reg true } else r)
  | .sram u g => { s with device := { s.device with
      sramMarks := if s.device.sramMarks.contains (u, g) then s.device.sramMarks else (u, g) :: s.device.sramMarks } }

/-- SOFT_ERROR: a single-bit error is corrected and counted; a double-bit error marks its granule or register and is
counted. -/
def execSoftError (site : ErrSite) (double : Bool) (s : State) : Out :=
  match s.errUnit site with
  | none => .next s
  | some u =>
    let off := (if double then 0x308 else 0x300) + 16 * u
    let n := s.device.reg off
    let s1 := { s with device := s.device.setReg off (if n = 0xFFFFFFFFFFFFFFFF#64 then n else n + 1#64) }
    .next (if double then s1.poisonSite site else s1)

/-! ## REGISTER_WRITE (R348 to R355) -/

/-- A step within a register write; it always goes on. -/
def Out.or (o : Out) (s : State) : State :=
  match o with
  | .next t => t
  | _ => s

/-- A write to `CTX_CTL` (R352): EN first, then TRC, then the highest of RST, RES and PRE. -/
def State.writeCtxCtl (s : State) (t : Nat) (v : DWord) : State :=
  let x := s.tenant t
  let on := v.getLsbD 0
  if on && !x.enabled && (!x.queueSized || !s.device.verified) then s
  else if !on && x.enabled && s.hasWork t then s
  else
    let s1 := if on && !x.enabled then (execContextEnable t s).or s
      else if !on && x.enabled then (execContextDisable t s).or s
      else s
    let s2 := s1.modTenant t fun y => y.setReg 0 ((y.reg 0 &&& ~~~(2#64)) ||| (v &&& 2#64))
    if v.getLsbD 4 then (execContextReset t s2).or s2
    else if v.getLsbD 3 then (execContextResume t s2).or s2
    else if v.getLsbD 2 then (execPreemptRequest t s2).or s2
    else s2

/-- A write to `RESUME` (R315, R351). -/
def State.writeResume (s : State) (t : Nat) (v : DWord) : State :=
  let n := v.toNat
  let who : AgentName :=
    if v.getLsbD 8 then .byIdentity ((s.tenant t).reg 0xF0).toNat (ebits n 39 32) (ebits n 51 40)
    else .byPlace (ebits n 31 24) (ebits n 23 21) (ebits n 20 16)
  match n % 4 with
  | 0 => (execRetry t who s).or s
  | 1 => (execSkip t who s).or s
  | 2 => (execResumeReset t who s).or s
  | _ => s

/-- The bits that a write of a tenant register sets, while the context is disabled or enabled; none where a write has no
such effect (R6, R351). -/
def tenantMask (off : Nat) (enabled : Bool) : DWord :=
  let all := 0xFFFFFFFFFFFFFFFF#64
  let off1 := if enabled then 0#64 else all
  if off = 0x10 ∨ off = 0x20 ∨ off = 0x30 ∨ off = 0x38 ∨ off = 0x68 then off1
  else if off = 0x28 then off1 &&& 0xFFFFFFFF#64
  else if off = 0x70 then off1 &&& 0x1F#64
  else if off = 0x40 ∨ off = 0x48 ∨ off = 0x60 ∨ off = 0x78 ∨ off = 0x90 ∨ off = 0x98 ∨ off = 0xA0 ∨ off = 0xB0 ∨ off = 0xF0 then
    all
  else if off = 0x50 then 0x00003FFFFFFFFFFF#64
  else if off = 0x58 then 0x1FFFFF#64
  else if off = 0xA8 ∨ off = 0xB8 then 0xFF1F#64
  else if off = 0xC0 ∨ off = 0xC8 ∨ off = 0xD0 ∨ off = 0xD8 then all
  else if off = 0x100 then 0x1F#64
  else if 0x400 ≤ off ∧ off < 0x800 then
    if off % 0x100 < 128 then all else if off % 0x100 = 128 then 0xFFFFFFFF#64 else 0#64
  else if 0x800 ≤ off ∧ off < 0x900 then
    if off % 32 = 0 then 0x01FFFFFFFFFFFFFB#64 else if off % 32 = 8 then all else 0#64
  else if 0x900 ≤ off ∧ off < 0x980 then
    if off % 32 = 0 then 0x000000FF0003FFFF#64
    else if off % 32 = 8 then all
    else if off % 32 = 16 then 0xFFFFFFFF#64
    else 0#64
  else 0#64

/-- A write to a control register of a tenant block. -/
def State.writeTenant (s : State) (t off : Nat) (v : DWord) : State :=
  if off = 0 then s.writeCtxCtl t v
  else if off = 0x8 then
    s.modTenant t fun x => { x with linkerr := x.linkerr && !v.getLsbD 9, qerr := x.qerr && !v.getLsbD 8 }
  else if off = 0x18 then (execTlbInv t (ebits v.toNat 56 16 * 65536) (v.toNat % 4) s).or s
  else if off = 0x88 then s.writeResume t v
  else if off = 0xE0 then (execLoadStart t v s).or s
  else
    let m := tenantMask off (s.tenant t).enabled
    s.modTenant t fun x => x.setReg off ((x.reg off &&& ~~~m) ||| (v &&& m))

/-- A write to a register of the device block (R349). -/
def State.writeDevice (s : State) (off : Nat) (v : DWord) : State :=
  let put := fun (m : DWord) => { s with device := s.device.setReg off (v &&& m) }
  if off = 0x8 then if s.tenants.any fun e => e.2.enabled then s else put 0xFFFF#64
  else if 0x100 ≤ off ∧ off < 0x140 then (execSliCfgWrite ((off - 0x100) / 8) v s).or s
  else if off = 0x200 then put 0xFFFF#64
  else if 0x300 ≤ off ∧ off < 0x3D0 then put 0xFFFFFFFFFFFFFFFF#64
  else if off = 0x400 then (execFuseCmd v s).or s
  else if 0x500 ≤ off ∧ off < 0x548 then put 0xFFFFFFFFFFFFFFFF#64
  else if off = 0x548 then
    let s1 := if v.getLsbD 2 then { s with device := s.device.setReg off 0#64 } else s
    if v.getLsbD 0 then (execAttestationStart s1).or s1 else s1
  else if 0x1000 ≤ off ∧ off < 0x1800 then
    put (if off % 32 < 16 then 0xFFFFFFFFFFFFFFFF#64 else if off % 32 = 16 then 0x800000000003FFFF#64 else 0#64)
  else if 0x10000 ≤ off ∧ off < 0x50000 then
    let r := (off - 0x10000) / 4
    { s with device := { s.device with
      missed := ksetD 0#32 (ksetD 0#32 s.device.missed r (v.setWidth 32)) (r + 1) ((v >>> 32).setWidth 32) } }
  else s

/-- REGISTER_WRITE (R348): a write to BAR0, or to the block of a tenant in BAR2; an access that is not of 8 aligned bytes is
discarded, and one to a queue window is a window write (R45). -/
def execRegisterWrite (block : Option Nat) (off width : Nat) (value : DWord) (s : State) : Out :=
  match block with
  | none => if width ≠ 8 ∨ off % 8 ≠ 0 then .next s else .next (s.writeDevice off value)
  | some t =>
    if t ≥ 16 then .next s
    else if 65536 ≤ off then
      if off < 131072 then execQueueWindowWrite t (off - 65536) (leBytes width value.toNat) s else .next s
    else if width ≠ 8 ∨ off % 8 ≠ 0 then .next s
    else .next (s.writeTenant t off value)

/-! ## What the registers read (R348 to R355) -/

/-- `CTX_STAT` (R352). -/
def State.ctxStat (s : State) (t : Nat) : DWord :=
  let x := s.tenant t
  let b := fun (c : Bool) (i : Nat) => if c then 1#64 <<< i else 0#64
  let full := x.queueFull && s.agentWaits t
  b x.linkerr 9 ||| b x.qerr 8 ||| b full 7 ||| b (!x.invs.isEmpty) 6 ||| b x.load.isSome 5 ||| b x.resetting 4 |||
  b x.saved 3 ||| b x.draining 2 ||| b (x.enabled && !x.draining && !x.saved && !x.resetting) 0

/-- A control register of a tenant block as it reads; those that are written only read 0. -/
def State.readTenant (s : State) (t off : Nat) : DWord :=
  let x := s.tenant t
  if off = 0x8 then s.ctxStat t
  else if off = 0xA8 then (x.reg off &&& 0xFF1F#64) ||| BitVec.ofNat 64 (x.traceIx % 65536 * 65536 + x.traceDrops.toNat * 4294967296)
  else if off = 0xB8 then (x.reg off &&& 0xFF1F#64) ||| BitVec.ofNat 64 (x.sampIx % 65536 * 65536 + x.sampDrops.toNat * 4294967296)
  else if off = 0xE0 then BitVec.ofNat 64 x.loadCode
  else x.reg off

/-- A register of the device block as it reads (R349). -/
def State.readDevice (s : State) (off : Nat) : DWord :=
  let d := s.device
  if off = 0 then 0x00020003#64
  else if 0x100 ≤ off ∧ off < 0x140 then
    d.reg off ||| (if (kget d.sliBusy ((off - 0x100) / 8)).isSome then 0x100#64 else 0#64)
  else if 0x208 ≤ off ∧ off < 0x228 then
    BitVec.ofNat 64 (d.clock ((off - 0x208) / 8) % 65536 + kgetD 0 d.steps ((off - 0x208) / 8) * 65536)
  else if off = 0x408 then BitVec.ofNat 64 (d.fuses + (if d.fuseBusy then 256 else 0))
  else if off = 0x548 then d.reg off ||| (if d.attBusy then 2#64 else 0#64)
  else if 0x10000 ≤ off ∧ off < 0x50000 then
    let r := (off - 0x10000) / 4
    (kgetD 0#32 d.missed (r + 1)) ++ (kgetD 0#32 d.missed r)
  else d.reg off

/-- A read of a register block; one that is not of 8 aligned bytes reads 0 (R348). -/
def State.readReg (s : State) (block : Option Nat) (off width : Nat) : DWord :=
  if width ≠ 8 ∨ off % 8 ≠ 0 then 0#64
  else
    match block with
    | none => if off < 1048576 then s.readDevice off else 0#64
    | some t => if t < 16 ∧ off < 65536 then s.readTenant t off else 0#64

end Sys2Proof.Machine
end

