-- ==== Sys2Proof/Machine/Vector.lean ====
section
/-! DEFINITION. Class 0, the vector instructions, and `vli`: one meaning per instruction over the forms of Flags (R167 to
R196, R201). -/

namespace Sys2Proof.Machine

/-- `vadd.F` (R167). -/
def execVaddF (g : Guard) (f : FTy) (rm : Rm) (d a b : Opnd) (s : State) : Out :=
  vecF2 g f rm d a b (fun z m x y => fAdd z f m x y) s

/-- `vsub.F` (R167). -/
def execVsubF (g : Guard) (f : FTy) (rm : Rm) (d a b : Opnd) (s : State) : Out :=
  vecF2 g f rm d a b (fun z m x y => fSub z f m x y) s

/-- `vmul.F` (R167). -/
def execVmulF (g : Guard) (f : FTy) (rm : Rm) (d a b : Opnd) (s : State) : Out :=
  vecF2 g f rm d a b (fun z m x y => fMul z f m x y) s

/-- `vfma.F` (R167). -/
def execVfmaF (g : Guard) (f : FTy) (rm : Rm) (d a b c : Opnd) (s : State) : Out :=
  vecF3 g f rm d a b c (fun z m x y w => fFma z f m x y w) s

/-- `vmin.F` (R168). -/
def execVminF (g : Guard) (f : FTy) (d a b : Opnd) (s : State) : Out :=
  vecF2 g f .rne d a b (fun z _ x y => fMinMax false z f x y) s

/-- `vmax.F` (R168). -/
def execVmaxF (g : Guard) (f : FTy) (d a b : Opnd) (s : State) : Out :=
  vecF2 g f .rne d a b (fun z _ x y => fMinMax true z f x y) s

/-- `vaddmin.F` (R169). -/
def execVaddminF (g : Guard) (f : FTy) (rm : Rm) (d a b c : Opnd) (s : State) : Out :=
  vecF3 g f rm d a b c (fun z m x y w => fAddMin z f m x y w) s

/-- `vmaxadd.F` (R169). -/
def execVmaxaddF (g : Guard) (f : FTy) (rm : Rm) (d a b c : Opnd) (s : State) : Out :=
  vecF3 g f rm d a b c (fun z m x y w => fMaxAdd z f m x y w) s

/-- `vcmp.cc.F` (R171). -/
def execVcmpF (g : Guard) (f : FTy) (cc : CC) (d a b : Opnd) (s : State) : Out :=
  issue g (usesOf (.vcmpF g f cc d a b))
    (fun c => c.putP d fun l => fCmp c.ftz f cc (c.rdF f a l) (c.rdF f b l)) s

/-- `vrndi.F` (R182). -/
def execVrndi (g : Guard) (f : FTy) (rm : Rm) (d a : Opnd) (s : State) : Out :=
  vecF1 g f rm d a (fun _ m x => fRndi f m x) s

/-- `vldexp.F` (R183): b is an i32 for every F. -/
def execVldexp (g : Guard) (f : FTy) (rm : Rm) (d a b : Opnd) (s : State) : Out :=
  issue g (usesOf (.vldexp g f rm d a b))
    (fun c => c.putV d (fWide f) fun l => fLdexp f (c.mode rm) (c.rdF f a l) (c.rd32 b l).toInt) s

/-- `vgetexp.F` (R184). -/
def execVgetexp (g : Guard) (f : FTy) (d a : Opnd) (s : State) : Out :=
  vecF1 g f .rne d a (fun _ _ x => fGetexp f x) s

/-- `vneg.F` (R170). -/
def execVnegF (g : Guard) (f : FTy) (d a : Opnd) (s : State) : Out :=
  vecF1 g f .rne d a (fun _ _ x => (fNeg f x, 0#5)) s

/-- `vabs.F` (R170). -/
def execVabsF (g : Guard) (f : FTy) (d a : Opnd) (s : State) : Out :=
  vecF1 g f .rne d a (fun _ _ x => (fAbs f x, 0#5)) s

/-- `vrcp.f32` (R179, R363): the rounding code changes nothing. -/
def execVrcp (g : Guard) (rm : Rm) (d a : Opnd) (s : State) : Out :=
  vecF1 g .f32 rm d a (fun z _ x => fRcp z x) s

/-- `vrsqrt.f32` (R179, R363): the rounding code changes nothing. -/
def execVrsqrt (g : Guard) (rm : Rm) (d a : Opnd) (s : State) : Out :=
  vecF1 g .f32 rm d a (fun z _ x => fRsqrt z x) s

/-- `vfexp2.f32` (R180, R363): the rounding code changes nothing. -/
def execVfexp2 (g : Guard) (rm : Rm) (d a : Opnd) (s : State) : Out :=
  vecF1 g .f32 rm d a (fun z _ x => fExp2 z x) s

/-- `vlog2.f32` (R181, R363): the rounding code changes nothing. -/
def execVlog2 (g : Guard) (rm : Rm) (d a : Opnd) (s : State) : Out :=
  vecF1 g .f32 rm d a (fun z _ x => fLog2 z x) s

/-- The source of a conversion for lane l (R147, R149). -/
def Ctx.rdTy (c : Ctx) (t : Ty) (o : Opnd) (l : Nat) : DWord :=
  match t with
  | .int t => c.rd (iWide t) o l
  | .flt f => c.rdF f o l

/-- `vcvt.Td.Ts` (R185, R186). -/
def execVcvt (g : Guard) (td ts : Ty) (rm : Rm) (d a : Opnd) (s : State) : Out :=
  issue g (usesOf (.vcvt g td ts rm d a))
    (fun c => c.putV d (tyWide td) fun l => fCvt td ts (c.mode rm) (c.rdTy ts a l)) s

/-- `vdp4.f16` (R187). -/
def execVdp4F16 (g : Guard) (rm : Rm) (d a b c : Opnd) (s : State) : Out :=
  issue g (usesOf (.vdp4F16 g rm d a b c))
    (fun x => x.putV d false fun l =>
      fDp4 x.ftz .f16 (x.mode rm) (x.rdPack .f16 a l) (x.rdPack .f16 b l) (x.rdF .f32 c l)) s

/-- `vdp4.bf16` (R187). -/
def execVdp4Bf16 (g : Guard) (rm : Rm) (d a b c : Opnd) (s : State) : Out :=
  issue g (usesOf (.vdp4Bf16 g rm d a b c))
    (fun x => x.putV d false fun l =>
      fDp4 x.ftz .bf16 (x.mode rm) (x.rdPack .bf16 a l) (x.rdPack .bf16 b l) (x.rdF .f32 c l)) s

/-- `vdp4.i8` (R188). -/
def execVdp4I8 (g : Guard) (d a b c : Opnd) (s : State) : Out :=
  vecT3 g .n32 d a b c (fun x y z => iDp4 x y z) s

/-- One codebook index a lane (R189): the block in the lanes of a, the table in the lanes of b. -/
def cbExpand (k : Nat) (c : Ctx) (a b x : Opnd) (l : Nat) : DWord :=
  let i := (c.rd32 x l).toNat % 128
  let words := if k = 3 then 12 else 16
  let idx := codeIndex k i fun w => if w < words then c.rd32 a w else 0#32
  expandEntry (((c.rd32 b (idx / 2)) >>> (16 * (idx % 2))).setWidth 16)

/-- `vcbx.cb3` (R189). -/
def execVcbxCb3 (g : Guard) (d a b c : Opnd) (s : State) : Out :=
  issue g (usesOf (.vcbxCb3 g d a b c))
    (fun x => x.putV d false fun l => (cbExpand 3 x a b c l, 0#5)) s

/-- `vcbx.cb4` (R189). -/
def execVcbxCb4 (g : Guard) (d a b c : Opnd) (s : State) : Out :=
  issue g (usesOf (.vcbxCb4 g d a b c))
    (fun x => x.putV d false fun l => (cbExpand 4 x a b c l, 0#5)) s

/-- `vadd.T` (R172). -/
def execVaddT (g : Guard) (t : ITy) (d a b : Opnd) (s : State) : Out :=
  vecT2 g t d a b (iAdd t) s

/-- `vsub.T` (R172). -/
def execVsubT (g : Guard) (t : ITy) (d a b : Opnd) (s : State) : Out :=
  vecT2 g t d a b (iSub t) s

/-- `vmul.T` (R172). -/
def execVmulT (g : Guard) (t : ITy) (d a b : Opnd) (s : State) : Out :=
  vecT2 g t d a b (iMul t) s

/-- `vmulhi.T` (R172). -/
def execVmulhi (g : Guard) (t : ITy) (d a b : Opnd) (s : State) : Out :=
  vecT2 g t d a b (iMulhi t) s

/-- `vmin.T` (R172). -/
def execVminT (g : Guard) (t : ITy) (d a b : Opnd) (s : State) : Out :=
  vecT2 g t d a b (iMinOf t) s

/-- `vmax.T` (R172). -/
def execVmaxT (g : Guard) (t : ITy) (d a b : Opnd) (s : State) : Out :=
  vecT2 g t d a b (iMaxOf t) s

/-- `vand.T` (R174). -/
def execVand (g : Guard) (t : ITy) (d a b : Opnd) (s : State) : Out :=
  vecT2 g t d a b (iAnd t) s

/-- `vor.T` (R174). -/
def execVor (g : Guard) (t : ITy) (d a b : Opnd) (s : State) : Out :=
  vecT2 g t d a b (iOr t) s

/-- `vxor.T` (R174). -/
def execVxor (g : Guard) (t : ITy) (d a b : Opnd) (s : State) : Out :=
  vecT2 g t d a b (iXor t) s

/-- `vabs.T` (R172). -/
def execVabsT (g : Guard) (t : ITy) (d a : Opnd) (s : State) : Out :=
  vecT1 g t d a (iAbs t) s

/-- `vneg.T` (R172). -/
def execVnegT (g : Guard) (t : ITy) (d a : Opnd) (s : State) : Out :=
  vecT1 g t d a (iNeg t) s

/-- `vnot.T` (R174). -/
def execVnot (g : Guard) (t : ITy) (d a : Opnd) (s : State) : Out :=
  vecT1 g t d a (iNot t) s

/-- `vpopc.T` (R176). -/
def execVpopc (g : Guard) (t : ITy) (d a : Opnd) (s : State) : Out :=
  vecT1 g t d a (iPopc t) s

/-- `vclz.T` (R176). -/
def execVclz (g : Guard) (t : ITy) (d a : Opnd) (s : State) : Out :=
  vecT1 g t d a (iClz t) s

/-- `vmov.T` (R178). -/
def execVmov (g : Guard) (t : ITy) (d a : Opnd) (s : State) : Out :=
  vecT1 g t d a (iExt t) s

/-- `vmad.T` (R172). -/
def execVmad (g : Guard) (t : ITy) (d a b c : Opnd) (s : State) : Out :=
  vecT3 g t d a b c (iMad t) s

/-- `vaddmin.T` (R172). -/
def execVaddminT (g : Guard) (t : ITy) (d a b c : Opnd) (s : State) : Out :=
  vecT3 g t d a b c (iAddMin t) s

/-- `vmaxadd.T` (R172). -/
def execVmaxaddT (g : Guard) (t : ITy) (d a b c : Opnd) (s : State) : Out :=
  vecT3 g t d a b c (iMaxAdd t) s

/-- `vcmp.cc.T` (R173). -/
def execVcmpT (g : Guard) (t : ITy) (cc : CC) (d a b : Opnd) (s : State) : Out :=
  issue g (usesOf (.vcmpT g t cc d a b))
    (fun c => c.putP d fun l => (iCmp t cc (c.rd (iWide t) a l) (c.rd (iWide t) b l), 0#5)) s

/-- `vshl.T` (R175). -/
def execVshl (g : Guard) (t : ITy) (d a b : Opnd) (s : State) : Out :=
  vecT2 g t d a b (iShl t) s

/-- `vshr.T` (R175). -/
def execVshr (g : Guard) (t : ITy) (d a b : Opnd) (s : State) : Out :=
  vecT2 g t d a b (iShr t) s

/-- `vbfe.T` (R177). -/
def execVbfe (g : Guard) (t : ITy) (d a b c : Opnd) (s : State) : Out :=
  vecField g t false d a b c (iBfe t) s

/-- `vbfi.T` (R177). -/
def execVbfi (g : Guard) (t : ITy) (d a b c : Opnd) (s : State) : Out :=
  vecField g t true d a b c (iBfi t) s

/-- `vsel.T` (R178): field c is a predicate. -/
def execVsel (g : Guard) (t : ITy) (d a b p : Opnd) (s : State) : Out :=
  issue g (usesOf (.vsel g t d a b p))
    (fun c => c.putV d (iWide t) fun l =>
      (iExt t (if (c.ag.regs.pred (Opnd.num p)).getLsbD l then c.rd (iWide t) a l else c.rd (iWide t) b l), 0#5)) s

/-- `vshup.T` (R192): the count is that of the lowest active lane (R191). -/
def execVshup (g : Guard) (t : ITy) (d a b x : Opnd) (s : State) : Out :=
  issue g (usesOf (.vshup g t d a b x))
    (fun c =>
      let n := (c.one32 b).toNat
      c.putV d (iWide t) fun l => (if n ≤ l then c.rd (iWide t) a (l - n) else c.rd (iWide t) x l, 0#5)) s

/-- `vshdn.T` (R192): the count is that of the lowest active lane (R191). -/
def execVshdn (g : Guard) (t : ITy) (d a b x : Opnd) (s : State) : Out :=
  issue g (usesOf (.vshdn g t d a b x))
    (fun c =>
      let n := (c.one32 b).toNat
      c.putV d (iWide t) fun l => (if l + n ≤ 31 then c.rd (iWide t) a (l + n) else c.rd (iWide t) x l, 0#5)) s

/-- `vperm.T` (R193). -/
def execVperm (g : Guard) (t : ITy) (d a b : Opnd) (s : State) : Out :=
  issue g (usesOf (.vperm g t d a b))
    (fun c => c.putV d (iWide t) fun l => (c.rd (iWide t) a ((c.rd32 b l).toNat % 32), 0#5)) s

/-- `vbcast.T` (R193): the lane is that of the lowest active lane (R191). -/
def execVbcast (g : Guard) (t : ITy) (d a b : Opnd) (s : State) : Out :=
  issue g (usesOf (.vbcast g t d a b))
    (fun c =>
      let n := (c.one32 b).toNat % 32
      c.putV d (iWide t) fun _ => (c.rd (iWide t) a n, 0#5)) s

/-- The leaves of a reduction: the active lanes below n (R83, R84). -/
def Ctx.leaves (c : Ctx) (n : Nat) (rd : Nat → DWord) : List (Option DWord) :=
  (List.range 32).map fun l => if l < n && c.act.getLsbD l then some (rd l) else none

/-- The result of R83 over the active lanes below n, for a floating and for an integer type. -/
def Ctx.sumF (c : Ctx) (f : FTy) (rm : Rm) (a : Opnd) (n : Nat) : FRes :=
  redAddF c.ftz f (c.mode rm) (c.leaves n (c.rdF f a))

def Ctx.sumT (c : Ctx) (t : ITy) (a : Opnd) (n : Nat) : DWord := redAddT t (c.leaves n (c.rd (iWide t) a))

/-- `vredadd.F` (R83, R194). -/
def execVredaddF (g : Guard) (f : FTy) (rm : Rm) (d a : Opnd) (s : State) : Out :=
  issue g (usesOf (.vredaddF g f rm d a))
    (fun c => c.putV d (fWide f) fun _ => c.sumF f rm a 32) s

/-- `vscan.inc.F` (R84, R194). -/
def execVscanIncF (g : Guard) (f : FTy) (rm : Rm) (d a : Opnd) (s : State) : Out :=
  issue g (usesOf (.vscanIncF g f rm d a))
    (fun c => c.putV d (fWide f) fun l => c.sumF f rm a (l + 1)) s

/-- `vscan.exc.F` (R84, R194). -/
def execVscanExcF (g : Guard) (f : FTy) (rm : Rm) (d a : Opnd) (s : State) : Out :=
  issue g (usesOf (.vscanExcF g f rm d a))
    (fun c => c.putV d (fWide f) fun l => c.sumF f rm a l) s

/-- `vredadd.T` (R83, R194). -/
def execVredaddT (g : Guard) (t : ITy) (d a : Opnd) (s : State) : Out :=
  issue g (usesOf (.vredaddT g t d a))
    (fun c => c.putV d (iWide t) fun _ => (c.sumT t a 32, 0#5)) s

/-- `vscan.inc.T` (R84, R194). -/
def execVscanIncT (g : Guard) (t : ITy) (d a : Opnd) (s : State) : Out :=
  issue g (usesOf (.vscanIncT g t d a))
    (fun c => c.putV d (iWide t) fun l => (c.sumT t a (l + 1), 0#5)) s

/-- `vscan.exc.T` (R84, R194). -/
def execVscanExcT (g : Guard) (t : ITy) (d a : Opnd) (s : State) : Out :=
  issue g (usesOf (.vscanExcT g t d a))
    (fun c => c.putV d (iWide t) fun l => (c.sumT t a l, 0#5)) s

/-- The 32-bit type in which a pack reads its sources (R195). -/
def packRead (t : ITy) (x : DWord) : Int := iVal (if iSigned t then .i32 else .n32) x

/-- `vpack.T` (R195). -/
def execVpack (g : Guard) (t : ITy) (d a b c : Opnd) (s : State) : Out :=
  vecT3 g .n32 d a b c (fun x y z =>
    let w := iWidth t
    let m := 2 ^ w
    let sx := ((iSat t (packRead t x)) % (m : Nat)).toNat
    let sy := ((iSat t (packRead t y)) % (m : Nat)).toNat
    BitVec.ofNat 64 ((iNat .n32 z * 2 ^ (2 * w) + sy * m + sx) % 4294967296)) s

/-- `vunpack.T` (R196). -/
def execVunpack (g : Guard) (t : ITy) (d a b c : Opnd) (s : State) : Out :=
  vecT3 g .n32 d a b c (fun x y z =>
    let v := iNat .n32 z * 4294967296 + iNat .n32 x
    iExt t (BitVec.ofNat 64 (v / 2 ^ (iWidth t * (iNat .n32 y % (64 / iWidth t)))))) s

/-- `vli` (R201): all 32 lanes, when any lane of the run has a guard of 1. -/
def execVli (g : Guard) (d : Opnd) (imm : Word) (s : State) : Out :=
  issueWith g (usesOf (.vli g d imm)) 16 noCheck noCheck
    (fun c => .next (c.finish 16 fun x => x.mapRegs fun r => r.setV (Opnd.num d) 0xFFFFFFFF#32 (fun _ => imm) 0#32)) s

end Sys2Proof.Machine
end

