-- ==== Sys2Proof/Machine/Scalar.lean ====
section
/-! DEFINITION. Class 1, the scalar arithmetic, `lget`, `lput` and the scalar long immediates (R197, R198, R201). -/

namespace Sys2Proof.Machine

/-- `sadd.F` (R167, R197). -/
def execSaddF (g : Guard) (f : FTy) (rm : Rm) (d a b : Opnd) (s : State) : Out :=
  scaF2 g f rm d a b (fun z m x y => fAdd z f m x y) s

/-- `ssub.F` (R167, R197). -/
def execSsubF (g : Guard) (f : FTy) (rm : Rm) (d a b : Opnd) (s : State) : Out :=
  scaF2 g f rm d a b (fun z m x y => fSub z f m x y) s

/-- `smul.F` (R167, R197). -/
def execSmulF (g : Guard) (f : FTy) (rm : Rm) (d a b : Opnd) (s : State) : Out :=
  scaF2 g f rm d a b (fun z m x y => fMul z f m x y) s

/-- `sfma.F` (R167, R197). -/
def execSfma (g : Guard) (f : FTy) (rm : Rm) (d a b c : Opnd) (s : State) : Out :=
  scaF3 g f rm d a b c (fun z m x y w => fFma z f m x y w) s

/-- `smin.F` (R168, R197). -/
def execSminF (g : Guard) (f : FTy) (d a b : Opnd) (s : State) : Out :=
  scaF2 g f .rne d a b (fun z _ x y => fMinMax false z f x y) s

/-- `smax.F` (R168, R197). -/
def execSmaxF (g : Guard) (f : FTy) (d a b : Opnd) (s : State) : Out :=
  scaF2 g f .rne d a b (fun z _ x y => fMinMax true z f x y) s

/-- A truth as an n32 (R197). -/
def bitWord (b : Bool) : DWord := if b then 1#64 else 0#64

/-- `scmp.cc.F` (R171, R197). -/
def execScmpF (g : Guard) (f : FTy) (cc : CC) (d a b : Opnd) (s : State) : Out :=
  issue g (usesOf (.scmpF g f cc d a b))
    (fun c =>
      let r := fCmp false f cc (c.rdF f a (lowLane c.act)) (c.rdF f b (lowLane c.act))
      c.putS d false (bitWord r.1, r.2)) s

/-- `scvt.Td.Ts` (R185, R186, R197). -/
def execScvt (g : Guard) (td ts : Ty) (rm : Rm) (d a : Opnd) (s : State) : Out :=
  issue g (usesOf (.scvt g td ts rm d a))
    (fun c => c.putS d (tyWide td) (fCvt td ts (c.mode rm) (c.rdTy ts a (lowLane c.act)))) s

/-- `sadd.T` (R172, R197). -/
def execSaddT (g : Guard) (t : ITy) (d a b : Opnd) (s : State) : Out :=
  scaT2 g t d a b (iAdd t) s

/-- `ssub.T` (R172, R197). -/
def execSsubT (g : Guard) (t : ITy) (d a b : Opnd) (s : State) : Out :=
  scaT2 g t d a b (iSub t) s

/-- `smul.T` (R172, R197). -/
def execSmulT (g : Guard) (t : ITy) (d a b : Opnd) (s : State) : Out :=
  scaT2 g t d a b (iMul t) s

/-- `smulhi.T` (R172, R197). -/
def execSmulhi (g : Guard) (t : ITy) (d a b : Opnd) (s : State) : Out :=
  scaT2 g t d a b (iMulhi t) s

/-- `smin.T` (R172, R197). -/
def execSminT (g : Guard) (t : ITy) (d a b : Opnd) (s : State) : Out :=
  scaT2 g t d a b (iMinOf t) s

/-- `smax.T` (R172, R197). -/
def execSmaxT (g : Guard) (t : ITy) (d a b : Opnd) (s : State) : Out :=
  scaT2 g t d a b (iMaxOf t) s

/-- `sand.T` (R174, R197). -/
def execSand (g : Guard) (t : ITy) (d a b : Opnd) (s : State) : Out :=
  scaT2 g t d a b (iAnd t) s

/-- `sor.T` (R174, R197). -/
def execSor (g : Guard) (t : ITy) (d a b : Opnd) (s : State) : Out :=
  scaT2 g t d a b (iOr t) s

/-- `sxor.T` (R174, R197). -/
def execSxor (g : Guard) (t : ITy) (d a b : Opnd) (s : State) : Out :=
  scaT2 g t d a b (iXor t) s

/-- `sshl.T` (R175, R197). -/
def execSshl (g : Guard) (t : ITy) (d a b : Opnd) (s : State) : Out :=
  scaT2 g t d a b (iShl t) s

/-- `sshr.T` (R175, R197). -/
def execSshr (g : Guard) (t : ITy) (d a b : Opnd) (s : State) : Out :=
  scaT2 g t d a b (iShr t) s

/-- `sabs.T` (R172, R197). -/
def execSabs (g : Guard) (t : ITy) (d a : Opnd) (s : State) : Out :=
  scaT1 g t d a (iAbs t) s

/-- `sneg.T` (R172, R197). -/
def execSneg (g : Guard) (t : ITy) (d a : Opnd) (s : State) : Out :=
  scaT1 g t d a (iNeg t) s

/-- `snot.T` (R174, R197). -/
def execSnot (g : Guard) (t : ITy) (d a : Opnd) (s : State) : Out :=
  scaT1 g t d a (iNot t) s

/-- `spopc.T` (R176, R197). -/
def execSpopc (g : Guard) (t : ITy) (d a : Opnd) (s : State) : Out :=
  scaT1 g t d a (iPopc t) s

/-- `sclz.T` (R176, R197). -/
def execSclz (g : Guard) (t : ITy) (d a : Opnd) (s : State) : Out :=
  scaT1 g t d a (iClz t) s

/-- `smov.T` (R178, R197). -/
def execSmov (g : Guard) (t : ITy) (d a : Opnd) (s : State) : Out :=
  scaT1 g t d a (iExt t) s

/-- `smad.T` (R172, R197). -/
def execSmad (g : Guard) (t : ITy) (d a b c : Opnd) (s : State) : Out :=
  scaT3 g t d a b c (iMad t) s

/-- `sbfe.T` (R177, R197). -/
def execSbfe (g : Guard) (t : ITy) (d a b c : Opnd) (s : State) : Out :=
  scaField g t false d a b c (iBfe t) s

/-- `sbfi.T` (R177, R197). -/
def execSbfi (g : Guard) (t : ITy) (d a b c : Opnd) (s : State) : Out :=
  scaField g t true d a b c (iBfi t) s

/-- `scmp.cc.T` (R173, R197). -/
def execScmpT (g : Guard) (t : ITy) (cc : CC) (d a b : Opnd) (s : State) : Out :=
  issue g (usesOf (.scmpT g t cc d a b))
    (fun c => c.putS d false
      (bitWord (iCmp t cc (c.rd (iWide t) a (lowLane c.act)) (c.rd (iWide t) b (lowLane c.act))), 0#5)) s

/-- `ssel.T` (R178, R197): the predicate's bit in the lowest active lane. -/
def execSsel (g : Guard) (t : ITy) (d a b p : Opnd) (s : State) : Out :=
  issue g (usesOf (.ssel g t d a b p))
    (fun c => c.putS d (iWide t)
      (iExt t (if (c.ag.regs.pred (Opnd.num p)).getLsbD (lowLane c.act) then c.rd (iWide t) a (lowLane c.act)
        else c.rd (iWide t) b (lowLane c.act)), 0#5)) s

/-- `lget.T` (R198). -/
def execLget (g : Guard) (t : ITy) (d a b : Opnd) (s : State) : Out :=
  issue g (usesOf (.lget g t d a b))
    (fun c => c.putS d (iWide t) (c.rd (iWide t) a ((c.one32 b).toNat % 32), 0#5)) s

/-- `lput.T` (R198): one lane, in the head run or not; every other lane is unchanged. -/
def execLput (g : Guard) (t : ITy) (d a b : Opnd) (s : State) : Out :=
  issue g (usesOf (.lput g t d a b))
    (fun c =>
      let n := (c.one32 b).toNat % 32
      let v := c.rd (iWide t) a (lowLane c.act)
      c.finish 8 fun x => x.mapRegs fun r =>
        r.setV64 (Opnd.num d) (iWide t) (1#32 <<< n) (fun _ => v) 0#32) s

/-- `sli` (R201). -/
def execSli (g : Guard) (d : Opnd) (imm : Word) (s : State) : Out :=
  issueWith g (usesOf (.sli g d imm)) 16 noCheck noCheck
    (fun c => .next (c.finish 16 fun x => x.mapRegs fun r => r.setS (Opnd.num d) imm false)) s

/-- `sli.64` (R201). -/
def execSli64 (g : Guard) (d : Opnd) (imm : DWord) (s : State) : Out :=
  issueWith g (usesOf (.sli64 g d imm)) 16 noCheck noCheck
    (fun c => .next (c.finish 16 fun x => x.mapRegs fun r => r.setS64 (Opnd.num d) true imm false)) s

end Sys2Proof.Machine
end

