-- ==== Sys2Proof/Machine/Dispatch.lean ====
section
/-! DEFINITION. The meaning of each instruction and of each step of the part: one direct call for every constructor. -/

namespace Sys2Proof.Machine

/-- What an instruction of the issuing agent, or a step of the part, does. -/
def exec (i : Instr) (s : State) : Host.Outcome State Fault Refusal :=
  match i with
  -- class 0: floating point (R167 to R171, R179 to R187)
  | .vaddF g f rm d a b => Sys2Proof.Machine.execVaddF g f rm d a b s
  | .vsubF g f rm d a b => Sys2Proof.Machine.execVsubF g f rm d a b s
  | .vmulF g f rm d a b => Sys2Proof.Machine.execVmulF g f rm d a b s
  | .vfmaF g f rm d a b c => Sys2Proof.Machine.execVfmaF g f rm d a b c s
  | .vminF g f d a b => Sys2Proof.Machine.execVminF g f d a b s
  | .vmaxF g f d a b => Sys2Proof.Machine.execVmaxF g f d a b s
  | .vaddminF g f rm d a b c => Sys2Proof.Machine.execVaddminF g f rm d a b c s
  | .vmaxaddF g f rm d a b c => Sys2Proof.Machine.execVmaxaddF g f rm d a b c s
  | .vcmpF g f cc d a b => Sys2Proof.Machine.execVcmpF g f cc d a b s
  | .vrndi g f rm d a => Sys2Proof.Machine.execVrndi g f rm d a s
  | .vldexp g f rm d a b => Sys2Proof.Machine.execVldexp g f rm d a b s
  | .vgetexp g f d a => Sys2Proof.Machine.execVgetexp g f d a s
  | .vnegF g f d a => Sys2Proof.Machine.execVnegF g f d a s
  | .vabsF g f d a => Sys2Proof.Machine.execVabsF g f d a s
  | .vrcp g rm d a => Sys2Proof.Machine.execVrcp g rm d a s
  | .vrsqrt g rm d a => Sys2Proof.Machine.execVrsqrt g rm d a s
  | .vfexp2 g rm d a => Sys2Proof.Machine.execVfexp2 g rm d a s
  | .vlog2 g rm d a => Sys2Proof.Machine.execVlog2 g rm d a s
  | .vcvt g td ts rm d a => Sys2Proof.Machine.execVcvt g td ts rm d a s
  | .vdp4F16 g rm d a b c => Sys2Proof.Machine.execVdp4F16 g rm d a b c s
  | .vdp4Bf16 g rm d a b c => Sys2Proof.Machine.execVdp4Bf16 g rm d a b c s
  | .vdp4I8 g d a b c => Sys2Proof.Machine.execVdp4I8 g d a b c s
  | .vcbxCb3 g d a b c => Sys2Proof.Machine.execVcbxCb3 g d a b c s
  | .vcbxCb4 g d a b c => Sys2Proof.Machine.execVcbxCb4 g d a b c s
  -- class 0: integer and bit operations (R172 to R178)
  | .vaddT g t d a b => Sys2Proof.Machine.execVaddT g t d a b s
  | .vsubT g t d a b => Sys2Proof.Machine.execVsubT g t d a b s
  | .vmulT g t d a b => Sys2Proof.Machine.execVmulT g t d a b s
  | .vmulhi g t d a b => Sys2Proof.Machine.execVmulhi g t d a b s
  | .vmad g t d a b c => Sys2Proof.Machine.execVmad g t d a b c s
  | .vminT g t d a b => Sys2Proof.Machine.execVminT g t d a b s
  | .vmaxT g t d a b => Sys2Proof.Machine.execVmaxT g t d a b s
  | .vabsT g t d a => Sys2Proof.Machine.execVabsT g t d a s
  | .vnegT g t d a => Sys2Proof.Machine.execVnegT g t d a s
  | .vaddminT g t d a b c => Sys2Proof.Machine.execVaddminT g t d a b c s
  | .vmaxaddT g t d a b c => Sys2Proof.Machine.execVmaxaddT g t d a b c s
  | .vcmpT g t cc d a b => Sys2Proof.Machine.execVcmpT g t cc d a b s
  | .vand g t d a b => Sys2Proof.Machine.execVand g t d a b s
  | .vor g t d a b => Sys2Proof.Machine.execVor g t d a b s
  | .vxor g t d a b => Sys2Proof.Machine.execVxor g t d a b s
  | .vnot g t d a => Sys2Proof.Machine.execVnot g t d a s
  | .vshl g t d a b => Sys2Proof.Machine.execVshl g t d a b s
  | .vshr g t d a b => Sys2Proof.Machine.execVshr g t d a b s
  | .vpopc g t d a => Sys2Proof.Machine.execVpopc g t d a s
  | .vclz g t d a => Sys2Proof.Machine.execVclz g t d a s
  | .vbfe g t d a b c => Sys2Proof.Machine.execVbfe g t d a b c s
  | .vbfi g t d a b c => Sys2Proof.Machine.execVbfi g t d a b c s
  | .vsel g t d a b c => Sys2Proof.Machine.execVsel g t d a b c s
  | .vmov g t d a => Sys2Proof.Machine.execVmov g t d a s
  -- class 0: lane movement, reductions, packs (R190 to R196)
  | .vshup g t d a b c => Sys2Proof.Machine.execVshup g t d a b c s
  | .vshdn g t d a b c => Sys2Proof.Machine.execVshdn g t d a b c s
  | .vperm g t d a b => Sys2Proof.Machine.execVperm g t d a b s
  | .vbcast g t d a b => Sys2Proof.Machine.execVbcast g t d a b s
  | .vredaddF g f rm d a => Sys2Proof.Machine.execVredaddF g f rm d a s
  | .vscanIncF g f rm d a => Sys2Proof.Machine.execVscanIncF g f rm d a s
  | .vscanExcF g f rm d a => Sys2Proof.Machine.execVscanExcF g f rm d a s
  | .vredaddT g t d a => Sys2Proof.Machine.execVredaddT g t d a s
  | .vscanIncT g t d a => Sys2Proof.Machine.execVscanIncT g t d a s
  | .vscanExcT g t d a => Sys2Proof.Machine.execVscanExcT g t d a s
  | .vpack g t d a b c => Sys2Proof.Machine.execVpack g t d a b c s
  | .vunpack g t d a b c => Sys2Proof.Machine.execVunpack g t d a b c s
  -- class 1: scalar (R197, R198)
  | .saddF g f rm d a b => Sys2Proof.Machine.execSaddF g f rm d a b s
  | .ssubF g f rm d a b => Sys2Proof.Machine.execSsubF g f rm d a b s
  | .smulF g f rm d a b => Sys2Proof.Machine.execSmulF g f rm d a b s
  | .sfma g f rm d a b c => Sys2Proof.Machine.execSfma g f rm d a b c s
  | .sminF g f d a b => Sys2Proof.Machine.execSminF g f d a b s
  | .smaxF g f d a b => Sys2Proof.Machine.execSmaxF g f d a b s
  | .scmpF g f cc d a b => Sys2Proof.Machine.execScmpF g f cc d a b s
  | .scvt g td ts rm d a => Sys2Proof.Machine.execScvt g td ts rm d a s
  | .saddT g t d a b => Sys2Proof.Machine.execSaddT g t d a b s
  | .ssubT g t d a b => Sys2Proof.Machine.execSsubT g t d a b s
  | .smulT g t d a b => Sys2Proof.Machine.execSmulT g t d a b s
  | .smulhi g t d a b => Sys2Proof.Machine.execSmulhi g t d a b s
  | .smad g t d a b c => Sys2Proof.Machine.execSmad g t d a b c s
  | .sminT g t d a b => Sys2Proof.Machine.execSminT g t d a b s
  | .smaxT g t d a b => Sys2Proof.Machine.execSmaxT g t d a b s
  | .sabs g t d a => Sys2Proof.Machine.execSabs g t d a s
  | .sneg g t d a => Sys2Proof.Machine.execSneg g t d a s
  | .scmpT g t cc d a b => Sys2Proof.Machine.execScmpT g t cc d a b s
  | .sand g t d a b => Sys2Proof.Machine.execSand g t d a b s
  | .sor g t d a b => Sys2Proof.Machine.execSor g t d a b s
  | .sxor g t d a b => Sys2Proof.Machine.execSxor g t d a b s
  | .snot g t d a => Sys2Proof.Machine.execSnot g t d a s
  | .sshl g t d a b => Sys2Proof.Machine.execSshl g t d a b s
  | .sshr g t d a b => Sys2Proof.Machine.execSshr g t d a b s
  | .spopc g t d a => Sys2Proof.Machine.execSpopc g t d a s
  | .sclz g t d a => Sys2Proof.Machine.execSclz g t d a s
  | .sbfe g t d a b c => Sys2Proof.Machine.execSbfe g t d a b c s
  | .sbfi g t d a b c => Sys2Proof.Machine.execSbfi g t d a b c s
  | .ssel g t d a b c => Sys2Proof.Machine.execSsel g t d a b c s
  | .smov g t d a => Sys2Proof.Machine.execSmov g t d a s
  | .lget g t d a b => Sys2Proof.Machine.execLget g t d a b s
  | .lput g t d a b => Sys2Proof.Machine.execLput g t d a b s
  -- class 1: system registers and control (R199 to R217)
  | .srd g reg d => Sys2Proof.Machine.execSrd g reg d s
  | .swr g reg a => Sys2Proof.Machine.execSwr g reg a s
  | .bra g off => Sys2Proof.Machine.execBra g off s
  | .braAny g a off => Sys2Proof.Machine.execBraAny g a off s
  | .braAll g a off => Sys2Proof.Machine.execBraAll g a off s
  | .braNone g a off => Sys2Proof.Machine.execBraNone g a off s
  | .braZ g a off => Sys2Proof.Machine.execBraZ g a off s
  | .braNz g a off => Sys2Proof.Machine.execBraNz g a off s
  | .jmp g a => Sys2Proof.Machine.execJmp g a s
  | .brx g a off => Sys2Proof.Machine.execBrx g a off s
  | .callDirect g nsave target cont => Sys2Proof.Machine.execCallDirect g nsave target cont s
  | .callRegister g nsave a cont => Sys2Proof.Machine.execCallRegister g nsave a cont s
  | .ret g => Sys2Proof.Machine.execRet g s
  | .exit g => Sys2Proof.Machine.execExit g s
  | .park g line bar tmo a b c => Sys2Proof.Machine.execPark g line bar tmo a b c s
  | .yield g => Sys2Proof.Machine.execYield g s
  | .grow g n => Sys2Proof.Machine.execGrow g n s
  | .shrink g n => Sys2Proof.Machine.execShrink g n s
  | .taskPush g prio a => Sys2Proof.Machine.execTaskPush g prio a s
  | .nop g => Sys2Proof.Machine.execNop g s
  -- class 6: long immediates (R201)
  | .sli g d imm => Sys2Proof.Machine.execSli g d imm s
  | .sli64 g d imm => Sys2Proof.Machine.execSli64 g d imm s
  | .vli g d imm => Sys2Proof.Machine.execVli g d imm s
  -- class 2: memory (R222 to R244)
  | .ld g k o sc d a q off => Sys2Proof.Machine.execLd g k o sc d a q off s
  | .st g w o sc d a q off => Sys2Proof.Machine.execSt g w o sc d a q off s
  | .gath g k d a b off => Sys2Proof.Machine.execGath g k d a b off s
  | .scat g w d a b off => Sys2Proof.Machine.execScat g w d a b off s
  | .ldb g k buf d a off => Sys2Proof.Machine.execLdb g k buf d a off s
  | .stb g w buf d a off => Sys2Proof.Machine.execStb g w buf d a off s
  | .atom g op k o sc d a b => Sys2Proof.Machine.execAtom g op k o sc d a b s
  | .red g op k o sc a b => Sys2Proof.Machine.execRed g op k o sc a b s
  | .redRet g op k o sc d a b => Sys2Proof.Machine.execRedRet g op k o sc d a b s
  | .fence g o sc => Sys2Proof.Machine.execFence g o sc s
  | .pref g a q off => Sys2Proof.Machine.execPref g a q off s
  | .ipref g a off => Sys2Proof.Machine.execIpref g a off s
  | .copyAbuf g q d a b c => Sys2Proof.Machine.execCopyAbuf g q d a b c s
  | .copyWbuf g q d a b c => Sys2Proof.Machine.execCopyWbuf g q d a b c s
  | .copyOut g cbuf q d a b c => Sys2Proof.Machine.execCopyOut g cbuf q d a b c s
  | .copyMc g q d a b c => Sys2Proof.Machine.execCopyMc g q d a b c s
  | .copyQ g q d a b c => Sys2Proof.Machine.execCopyQ g q d a b c s
  | .toolXpose g buf d a b c => Sys2Proof.Machine.execToolXpose g buf d a b c s
  | .toolCvt g buf d a b c => Sys2Proof.Machine.execToolCvt g buf d a b c s
  | .toolQuant g buf d a b c => Sys2Proof.Machine.execToolQuant g buf d a b c s
  | .toolZero g buf d a b c => Sys2Proof.Machine.execToolZero g buf d a b c s
  | .toolRsum g buf d a b c => Sys2Proof.Machine.execToolRsum g buf d a b c s
  | .chaseLink g d a b c => Sys2Proof.Machine.execChaseLink g d a b c s
  | .chaseIndex g d a b c => Sys2Proof.Machine.execChaseIndex g d a b c s
  | .chaseSample g d a b c => Sys2Proof.Machine.execChaseSample g d a b c s
  | .l1cfg g n => Sys2Proof.Machine.execL1cfg g n s
  | .l1cfgQ g d => Sys2Proof.Machine.execL1cfgQ g d s
  | .waitc g ld st tl => Sys2Proof.Machine.execWaitc g ld st tl s
  | .cinvD g => Sys2Proof.Machine.execCinvD g s
  | .cinvI g => Sys2Proof.Machine.execCinvI g s
  | .cflush g a b => Sys2Proof.Machine.execCflush g a b s
  -- class 3: matrix and chain (R245 to R272)
  | .tbind g th d => Sys2Proof.Machine.execTbind g th d s
  | .ldst g arr f d => Sys2Proof.Machine.execLdst g arr f d s
  | .cbtload g tbl f d => Sys2Proof.Machine.execCbtload g tbl f d s
  | .mswap g arr f => Sys2Proof.Machine.execMswap g arr f s
  | .mstream g arr f d => Sys2Proof.Machine.execMstream g arr f d s
  | .mop g f d => Sys2Proof.Machine.execMop g f d s
  | .mzero g f d => Sys2Proof.Machine.execMzero g f d s
  | .chainCfg g f d => Sys2Proof.Machine.execChainCfg g f d s
  | .chainStep g f d => Sys2Proof.Machine.execChainStep g f d s
  | .chainRun g f d => Sys2Proof.Machine.execChainRun g f d s
  | .bdSet g n d => Sys2Proof.Machine.execBdSet g n d s
  | .bdGet g n d => Sys2Proof.Machine.execBdGet g n d s
  | .dsrd g d => Sys2Proof.Machine.execDsrd g d s
  -- class 4: sets (R273 to R287)
  | .setNew g d => Sys2Proof.Machine.execSetNew g d s
  | .setFree g a => Sys2Proof.Machine.execSetFree g a s
  | .setIns g wr d a b => Sys2Proof.Machine.execSetIns g wr d a b s
  | .setDel g wr d a b => Sys2Proof.Machine.execSetDel g wr d a b s
  | .setHas g d a b => Sys2Proof.Machine.execSetHas g d a b s
  | .setCard g d a => Sys2Proof.Machine.execSetCard g d a s
  | .setOr g a b c => Sys2Proof.Machine.execSetOr g a b c s
  | .setAnd g a b c => Sys2Proof.Machine.execSetAnd g a b c s
  | .setSub g a b c => Sys2Proof.Machine.execSetSub g a b c s
  | .setIn g a b c => Sys2Proof.Machine.execSetIn g a b c s
  | .setOut g d a b c => Sys2Proof.Machine.execSetOut g d a b c s
  | .setIter g d a c => Sys2Proof.Machine.execSetIter g d a c s
  | .setHint g rep a => Sys2Proof.Machine.execSetHint g rep a s
  | .setHintNone g a => Sys2Proof.Machine.execSetHintNone g a s
  | .setCost g n d => Sys2Proof.Machine.execSetCost g n d s
  -- class 5: synchronisation and system (R288 to R310)
  | .barInit g hb a => Sys2Proof.Machine.execBarInit g hb a s
  | .barArrive g hb => Sys2Proof.Machine.execBarArrive g hb s
  | .barWait g hb => Sys2Proof.Machine.execBarWait g hb s
  | .barStatus g hb d => Sys2Proof.Machine.execBarStatus g hb d s
  | .qstate g => Sys2Proof.Machine.execQstate g s
  | .gstart g d => Sys2Proof.Machine.execGstart g d s
  | .gwait g a => Sys2Proof.Machine.execGwait g a s
  | .fdefer g a b c => Sys2Proof.Machine.execFdefer g a b c s
  | .trap g code => Sys2Proof.Machine.execTrap g code s
  | .tret g => Sys2Proof.Machine.execTret g s
  | .rngOpen g label => Sys2Proof.Machine.execRngOpen g label s
  | .rngClose g => Sys2Proof.Machine.execRngClose g s
  | .capq g d a => Sys2Proof.Machine.execCapq g d a s
  | .tmrd g d => Sys2Proof.Machine.execTmrd g d s
  -- a word that is not an instruction (R153)
  | .unassignedWord w0 w1 => Sys2Proof.Machine.execUnassignedWord w0 w1 s
  -- steps of the memory system
  | .storeDrain agent op lanes => Sys2Proof.Machine.execStoreDrain agent op lanes s
  | .storePerform agent op lanes => Sys2Proof.Machine.execStorePerform agent op lanes s
  | .storeAcknowledge agent op sc => Sys2Proof.Machine.execStoreAcknowledge agent op sc s
  | .releaseProceed agent op => Sys2Proof.Machine.execReleaseProceed agent op s
  | .atomicPerform agent op lanes => Sys2Proof.Machine.execAtomicPerform agent op lanes s
  | .loadReturn agent op lanes => Sys2Proof.Machine.execLoadReturn agent op lanes s
  | .bufferAccessPerform agent op lanes => Sys2Proof.Machine.execBufferAccessPerform agent op lanes s
  | .pageWalk agent op lane => Sys2Proof.Machine.execPageWalk agent op lane s
  | .l1Fill core line way => Sys2Proof.Machine.execL1Fill core line way s
  | .l2Fill ix victim => Sys2Proof.Machine.execL2Fill ix victim s
  | .icacheFill core part line drop => Sys2Proof.Machine.execIcacheFill core part line drop s
  | .cxlOwnership line => Sys2Proof.Machine.execCxlOwnership line s
  | .hbmRequestService stack issuable => Sys2Proof.Machine.execHbmRequestService stack issuable s
  | .deadlineMiss req => Sys2Proof.Machine.execDeadlineMiss req s
  | .engineLineRelease core cmd line => Sys2Proof.Machine.execEngineLineRelease core cmd line s
  | .chaseHop agent op lane => Sys2Proof.Machine.execChaseHop agent op lane s
  | .l1Conversion core => Sys2Proof.Machine.execL1Conversion core s
  -- steps of the engines
  | .copyEngineStart core => Sys2Proof.Machine.execCopyEngineStart core s
  | .copyChunk core cmd => Sys2Proof.Machine.execCopyChunk core cmd s
  | .toolChunk core cmd => Sys2Proof.Machine.execToolChunk core cmd s
  | .commandStart core cmd => Sys2Proof.Machine.execCommandStart core cmd s
  | .chainStepExecute core cmd bad => Sys2Proof.Machine.execChainStepExecute core cmd bad s
  | .commandEnd core cmd bad => Sys2Proof.Machine.execCommandEnd core cmd bad s
  | .setEngineOperation agent op => Sys2Proof.Machine.execSetEngineOperation agent op s
  | .setFreeReturn die ix => Sys2Proof.Machine.execSetFreeReturn die ix s
  -- steps of grace periods
  | .quiescentPoint agent => Sys2Proof.Machine.execQuiescentPoint agent s
  | .gstartTarget agent => Sys2Proof.Machine.execGstartTarget agent s
  | .trackerReport tenant die => Sys2Proof.Machine.execTrackerReport tenant die s
  | .cinchPush die ix => Sys2Proof.Machine.execCinchPush die ix s
  | .gracestall tenant target => Sys2Proof.Machine.execGracestall tenant target s
  -- steps of barriers, waits and traps
  | .barrierArrival gang pos => Sys2Proof.Machine.execBarrierArrival gang pos s
  | .flipBroadcast gang pos hb => Sys2Proof.Machine.execFlipBroadcast gang pos hb s
  | .parkWake agent grp => Sys2Proof.Machine.execParkWake agent grp s
  | .parkWatchDrop agent grp => Sys2Proof.Machine.execParkWatchDrop agent grp s
  | .parkTimeout agent grp => Sys2Proof.Machine.execParkTimeout agent grp s
  | .timer agent => Sys2Proof.Machine.execTimer agent s
  | .userTrapEntry agent => Sys2Proof.Machine.execUserTrapEntry agent s
  | .warpSwap core part outSlot inSlot => Sys2Proof.Machine.execWarpSwap core part outSlot inSlot s
  | .growGrant agent => Sys2Proof.Machine.execGrowGrant agent s
  | .waitcRelease agent => Sys2Proof.Machine.execWaitcRelease agent s
  | .taskStart core => Sys2Proof.Machine.execTaskStart core s
  | .continuationResume agent => Sys2Proof.Machine.execContinuationResume agent s
  | .taskPushAppend agent => Sys2Proof.Machine.execTaskPushAppend agent s
  -- steps of the dispatcher
  | .launchCheck tenant die prio => Sys2Proof.Machine.execLaunchCheck tenant die prio s
  | .waitWordRead tenant die prio => Sys2Proof.Machine.execWaitWordRead tenant die prio s
  | .admissionTake die => Sys2Proof.Machine.execAdmissionTake die s
  | .reservationReply die unit => Sys2Proof.Machine.execReservationReply die unit s
  | .backoffExpiry die unit => Sys2Proof.Machine.execBackoffExpiry die unit s
  | .completionWordWrite ix => Sys2Proof.Machine.execCompletionWordWrite ix s
  | .queueWindowWrite tenant off bytes => Sys2Proof.Machine.execQueueWindowWrite tenant off bytes s
  -- steps of pre-emption and contexts
  | .preemptRequest tenant => Sys2Proof.Machine.execPreemptRequest tenant s
  | .yieldDeadline gang => Sys2Proof.Machine.execYieldDeadline gang s
  | .forcedSaveLimit gang => Sys2Proof.Machine.execForcedSaveLimit gang s
  | .gangSave gang => Sys2Proof.Machine.execGangSave gang s
  | .saveSpill die => Sys2Proof.Machine.execSaveSpill die s
  | .contextResume tenant => Sys2Proof.Machine.execContextResume tenant s
  | .gangRestore die unit => Sys2Proof.Machine.execGangRestore die unit s
  | .contextReset tenant => Sys2Proof.Machine.execContextReset tenant s
  | .contextEnable tenant => Sys2Proof.Machine.execContextEnable tenant s
  | .contextDisable tenant => Sys2Proof.Machine.execContextDisable tenant s
  | .contextResetComplete tenant => Sys2Proof.Machine.execContextResetComplete tenant s
  -- steps of faults
  | .retry tenant who => Sys2Proof.Machine.execRetry tenant who s
  | .skip tenant who => Sys2Proof.Machine.execSkip tenant who s
  | .resumeReset tenant who => Sys2Proof.Machine.execResumeReset tenant who s
  | .faultRecord tenant => Sys2Proof.Machine.execFaultRecord tenant s
  -- steps of the host, the loader, the fabric and the package
  | .tlbInv tenant va size => Sys2Proof.Machine.execTlbInv tenant va size s
  | .tlbInvComplete tenant => Sys2Proof.Machine.execTlbInvComplete tenant s
  | .loadStart tenant value => Sys2Proof.Machine.execLoadStart tenant value s
  | .loadComplete tenant => Sys2Proof.Machine.execLoadComplete tenant s
  | .fuseCmd value => Sys2Proof.Machine.execFuseCmd value s
  | .fuseBlowDone => Sys2Proof.Machine.execFuseBlowDone s
  | .attestationStart => Sys2Proof.Machine.execAttestationStart s
  | .attestationReport => Sys2Proof.Machine.execAttestationReport s
  | .sliCfgWrite stack value => Sys2Proof.Machine.execSliCfgWrite stack value s
  | .sliRatioDone stack => Sys2Proof.Machine.execSliRatioDone stack s
  | .powerLimiterStep die mhz => Sys2Proof.Machine.execPowerLimiterStep die mhz s
  | .registerWrite block off width value => Sys2Proof.Machine.execRegisterWrite block off width value s
  | .hostMemAccess pa acc => Sys2Proof.Machine.execHostMemAccess pa acc s
  | .peerAccess dev pa acc => Sys2Proof.Machine.execPeerAccess dev pa acc s
  | .linkDeliveryFailure agent op lane => Sys2Proof.Machine.execLinkDeliveryFailure agent op lane s
  | .softError site double => Sys2Proof.Machine.execSoftError site double s
  | .moduleTraining module_ trained => Sys2Proof.Machine.execModuleTraining module_ trained s
  | .deviceReset images => Sys2Proof.Machine.execDeviceReset images s
  | .cxlCacheOwnershipLoss line => Sys2Proof.Machine.execCxlCacheOwnershipLoss line s
  | .linkPortServiceChange port up => Sys2Proof.Machine.execLinkPortServiceChange port up s
  | .powerStateChange block level => Sys2Proof.Machine.execPowerStateChange block level s

end Sys2Proof.Machine
end

