-- ==== Sys2Proof/Machine/Schedule.lean ====
section
/-! DEFINITION. What comes about next where no choice is given: the steps of the part that may be due, in a fixed order, and
the agent that issues (R33, R34, R323). -/

namespace Sys2Proof.Machine

/-- A step of the part, that no instruction word starts. -/
def stepOfPart (i : Instr) : Bool :=
  match i with
  | .unassignedWord _ _ => false
  | j => (encodeFields j).isNone

/-! ## Pipes (R11, R166) -/

/-- The pipe of an instruction: 0 V, 1 X, 2 M, 3 C. A `vcvt` of a 64-bit integer type issues to V too (log 108). -/
def pipeOf (i : Instr) : Nat :=
  match i, encodeFields i with
  | .vcvt _ td ts _ _ _, _ => if td = .flt .f64 ∨ ts = .flt .f64 then 1 else 0
  | .vli _ _ _, _ => 0
  | _, some f =>
    if f.cls = 0 then
      (if (0x38 ≤ f.op ∧ f.op ≤ 0x3B) ∨ f.op = 0x40 ∨ f.op = 0x41 ∨ (0x60 ≤ f.op ∧ f.op ≤ 0x73) then 1 else 0)
    else if f.cls = 2 ∨ f.cls = 4 then 2
    else 3
  | _, none => 3

/-- An instruction on FP64 or on 64-bit integers, of those that issue to pipe V. -/
def wideV (i : Instr) : Bool :=
  match i, encodeFields i with
  | .vcvt _ td ts _ _ _, _ => [td, ts].any fun t => t == .int .n64 || t == .int .i64
  | .vli _ _ _, _ => false
  | _, some f => (f.op ≤ 0x37 && f.op % 4 == 3) || (0x48 ≤ f.op && f.op ≤ 0x5F && (f.mod == 6 || f.mod == 7))
  | _, none => false

/-- The clocks for which an instruction occupies its pipe (R11, R166). -/
def pipeTime (i : Instr) : Nat :=
  match pipeOf i with
  | 0 => if wideV i then 4 else 1
  | 1 => 4
  | _ => 1

/-! ## Steps that may be due -/

/-- One lane. -/
def laneBit (l : Nat) : Lanes := 1#32 <<< l

/-- The lanes of an instruction for which the test holds. -/
def MemOp.mask (o : MemOp) (test : LaneOp → Bool) : Lanes := maskOf fun i => o.lanes.any fun l => l.lane == i && test l

/-- The lanes of an instruction for which the test holds that lie on the line of 256 bytes of a lane, with it (R96). -/
def MemOp.lineMask (o : MemOp) (l : LaneOp) (test : LaneOp → Bool) : Lanes :=
  o.mask fun k => k.lane == l.lane || (l.sameLine k && test k)

/-- The lanes of an instruction for which the test holds, line by line (R96). -/
def MemOp.byLine (o : MemOp) (test : LaneOp → Bool) (same : LaneOp → LaneOp → Bool) : List Lanes :=
  ((o.lanes.filter test).map fun l => o.lineMask l fun k => test k && same l k).eraseDups

/-- The list of a condition. -/
def onlyIf (b : Bool) (l : List Instr) : List Instr := if b then l else []

/-- The lanes of a buffer access that have to come with one that is not done: those of its row (R132). -/
def BufOp.row (o : BufOp) (l : BufLane) : Lanes :=
  maskOf fun i => o.lanes.any fun k => k.lane == i && !k.done && k.off / 32 == l.off / 32

/-- Steps of one memory instruction. -/
def opSteps (s : State) (a : Nat) (x : Agent) (o : MemOp) : List Instr :=
  let ready := fun (l : LaneOp) => l.st.isReady
  let all := fun (_ _ : LaneOp) => true
  let sent := fun (l k : LaneOp) => l.st == k.st && l.stamp == k.stamp
  List.flatten [
    (o.lanes.filter fun (l : LaneOp) => l.st.isFresh).map fun (l : LaneOp) => Instr.pageWalk a o.id l.lane,
    onlyIf o.isLoad ((o.byLine (fun l => l.st.isReady && o.readsHome l) all).map fun m => Instr.loadReturn a o.id m),
    onlyIf o.isLoad ((o.lanes.filter fun (l : LaneOp) => l.st.isReady && !o.readsHome l).map fun (l : LaneOp) =>
      Instr.loadReturn a o.id (laneBit l.lane)),
    onlyIf o.isPlainStore ((o.byLine ready all).map fun m => Instr.storeDrain a o.id m),
    onlyIf o.isAtomic ((o.byLine (fun l => l.st.toDo) sent).map fun m => Instr.atomicPerform a o.id m),
    onlyIf (o.isAtomic && !o.isCoreAtomic) ((o.byLine ready all).map fun m => Instr.storeDrain a o.id m),
    onlyIf o.isFlush [Instr.storePerform a o.id 0#32],
    (o.byLine (fun l => l.st.isDrained) sent).map fun m => Instr.storePerform a o.id m,
    onlyIf o.isStore [Instr.storeAcknowledge a o.id Scope.die, Instr.storeAcknowledge a o.id Scope.device,
      Instr.storeAcknowledge a o.id Scope.system],
    onlyIf (!o.released) [Instr.releaseProceed a o.id],
    (o.lanes.filter (o.waitsForL1 (s.core x.core).l1)).map fun (l : LaneOp) =>
      Instr.l1Fill x.core (l.key / 64) ((s.core x.core).pickWay (l.key / 64))]

/-- The park groups of an agent, those of a trap frame included. -/
def Agent.groups (x : Agent) : List ParkGroup := x.ctl.parks ++ ((x.sys.frame.map TrapFrame.parks).getD [])

/-- The step that an agent that waits may be due. -/
def holdSteps (a : Nat) (h : Hold) : List Instr :=
  match h with
  | .none => []
  | .grow _ => [Instr.growGrant a]
  | .waitc _ _ _ => [Instr.waitcRelease a]
  | .barWait _ => []
  | .taskPush _ _ => [Instr.taskPushAppend a]
  | .held _ => [Instr.continuationResume a]
  | .fence _ _ => [Instr.releaseProceed a 0]
  | .fdefer _ _ _ _ _ => [Instr.releaseProceed a 0]
  | .setFree => [Instr.releaseProceed a 0]
  | .qstate => [Instr.quiescentPoint a]
  | .gwait _ => [Instr.quiescentPoint a]
  | .yielded _ => [Instr.quiescentPoint a]
  | .ended _ => [Instr.quiescentPoint a]

/-- Steps of one agent. -/
def agentSteps (s : State) (a : Nat) (x : Agent) : List Instr :=
  List.flatten [
    x.flight.ops.flatMap (opSteps s a x),
    x.flight.bufOps.flatMap fun (o : BufOp) =>
      (o.lanes.filter fun (l : BufLane) => !l.done).map fun (l : BufLane) =>
        Instr.bufferAccessPerform a o.id (o.row l),
    (x.flight.setOps.filter x.flight.setTurn).map fun (o : SetOp) => Instr.setEngineOperation a o.id,
    x.flight.chases.flatMap fun (c : Chase) => c.lanes.map fun (l : ChaseLane) => Instr.chaseHop a c.id l.lane,
    x.flight.gstarts.map fun (g : Nat × Nat × Bool) => Instr.releaseProceed a g.1,
    onlyIf (!x.flight.gstarts.isEmpty) [Instr.gstartTarget a],
    x.groups.flatMap fun (g : ParkGroup) => [Instr.parkWake a g.id, Instr.parkTimeout a g.id],
    holdSteps a x.ctl.hold,
    [Instr.timer a, Instr.userTrapEntry a]]

/-- Steps of the commands of a core. -/
def coreSteps (c : Nat) (x : Core) : List Instr :=
  List.flatten [
    onlyIf (!x.copies.isEmpty) [Instr.copyEngineStart c],
    x.copies.flatMap fun (k : Copy) => Instr.copyChunk c k.id ::
      ((k.written.map fun (r : Nat × Nat) => r.1 / 256).eraseDups).map fun (l : Nat) => Instr.engineLineRelease c k.id l,
    x.tools.map fun (k : Tool) => Instr.toolChunk c k.id,
    x.cmds.flatMap fun (k : Cmd) =>
      [Instr.commandStart c k.id, Instr.chainStepExecute c k.id false, Instr.commandEnd c k.id 0#64],
    [Instr.l1Conversion c]]

/-- Steps of a gang. -/
def gangSteps (g : Nat) (y : Gang) : List Instr :=
  List.flatten [
    ((y.msgs.map fun (m : Nat × Nat × BarMsg) => m.1).eraseDups).map fun (p : Nat) => Instr.barrierArrival g p,
    y.flips.map fun (f : Nat × Nat) => Instr.flipBroadcast g f.1 f.2,
    [Instr.gangSave g]]

/-- Steps of a die. -/
def dieSteps (d : Nat) (x : Die) : List Instr :=
  List.flatten [
    [Instr.admissionTake d],
    x.units.flatMap fun (u : Nat × Admission) =>
      [Instr.reservationReply d u.1, Instr.backoffExpiry d u.1, Instr.gangRestore d u.1],
    (List.range x.latigo.length).flatMap fun (i : Nat) => [Instr.cinchPush d i, Instr.setFreeReturn d i]]

/-- Steps of a tenant. -/
def tenantSteps (t : Nat) (x : Tenant) : List Instr :=
  List.flatten [
    x.queues.flatMap fun (q : Nat × LaunchQ) =>
      [Instr.launchCheck t (q.1 / 4) (q.1 % 4), Instr.waitWordRead t (q.1 / 4) (q.1 % 4)],
    [Instr.trackerReport t 0, Instr.faultRecord t],
    x.stalls.map fun (e : Word × Nat) => Instr.gracestall t e.1,
    onlyIf (!x.invs.isEmpty) [Instr.tlbInvComplete t],
    onlyIf x.load.isSome [Instr.loadComplete t],
    onlyIf x.resetting [Instr.contextResetComplete t]]

/-- The lines of host memory that writes need owned (R98). -/
def State.hostWanted (s : State) : List Nat :=
  s.agents.flatMap fun e => e.2.flight.ops.flatMap fun o => o.lanes.filterMap fun l =>
    l.loc.bind fun x => if x.tier = 2 then some (x.l2Key e.2.die) else none

/-- Steps of the memory behind the cores and of the device. -/
def unitSteps (s : State) : List Instr :=
  List.flatten [
    (s.hbm.filter fun (r : HbmReq) => r.late s.time).map fun (r : HbmReq) => Instr.deadlineMiss r.req,
    ((s.hbm.map HbmReq.stack).eraseDups).map fun (k : Nat) => Instr.hbmRequestService k (s.hbm.map HbmReq.id),
    (List.range (min 1 s.fills.length)).map fun (i : Nat) => Instr.l2Fill i none,
    ((s.l2.map Prod.fst ++ s.hostWanted).filter fun (k : Nat) => (hostLine k).isSome).eraseDups.map fun (k : Nat) =>
      Instr.cxlOwnership k,
    (List.range s.completions.length).map fun (i : Nat) => Instr.completionWordWrite i,
    onlyIf s.device.fuseBusy [Instr.fuseBlowDone],
    onlyIf s.device.attBusy [Instr.attestationReport]]

/-- Swaps into the active set of a waiting agent's partition (R34). -/
def swapSteps (s : State) : List Instr :=
  s.agents.flatMap fun (b : Nat × Agent) =>
    match b.2.place with
    | none => []
    | some p =>
      if b.2.active || b.2.ended || !s.readyToGo b.2 then []
      else if s.activeRoom p.core p.part then [Instr.warpSwap p.core p.part p.slot p.slot]
      else ((s.inPart p.core p.part).filter fun (e : Nat × Agent) => e.2.active && e.2.makesRoom s.time b.2).map
        fun (e : Nat × Agent) => Instr.warpSwap p.core p.part ((e.2.place.map Place.slot).getD 0) p.slot

/-- The cores at which tasks wait to start. -/
def taskCores (s : State) : List Nat :=
  ((s.agents.filter fun (e : Nat × Agent) => e.2.queued).filterMap fun (e : Nat × Agent) => s.taskCore e.2).eraseDups

/-- Every step that may be due within a clock, in the order in which the model tries them: engines before loads and stores
(R17). -/
def dueSteps (s : State) : List Instr :=
  List.flatten [
    s.cores.flatMap fun (e : Nat × Core) => coreSteps e.1 e.2,
    s.agents.flatMap fun (e : Nat × Agent) => agentSteps s e.1 e.2,
    s.gangs.flatMap fun (e : Nat × Gang) => gangSteps e.1 e.2,
    unitSteps s,
    s.tenants.flatMap fun (e : Nat × Tenant) => tenantSteps e.1 e.2,
    (List.range 4).flatMap fun (d : Nat) => dieSteps d (s.die d),
    (taskCores s).map fun (c : Nat) => Instr.taskStart c,
    swapSteps s]

/-- The steps that a deadline brings, compared once the instructions of a clock have issued (R59). -/
def endSteps (s : State) : List Instr := s.gangs.flatMap fun e => [.yieldDeadline e.1, .forcedSaveLimit e.1]

/-! ## Issue (R33, R323) -/

/-- An instruction breakpoint of the tenant stands at a PC (R323). -/
def State.breakAt (s : State) (x : Agent) (pc : DWord) : Bool :=
  (List.range 8).any fun n =>
    let w0 := (s.tenant x.ident.tenant).reg (0x800 + 32 * n)
    w0.getLsbD 0 && ebits w0.toNat 56 3 == pc.toNat / 8 &&
      (!w0.getLsbD 1 || ((s.tenant x.ident.tenant).reg (0x808 + 32 * n)).toNat == s.gangIndex x)

/-- The instructions of a partition that have issued in this clock or still occupy their pipe. -/
def State.issuedIn (s : State) (p : Place) : List Issued := s.clock.filter fun e => e.core == p.core && e.part == p.part

/-- An agent has issued in this clock. -/
def State.hasIssued (s : State) (a : Nat) : Bool := s.clock.any fun e => e.agent == a && e.clk == s.time

/-- The pipe that an agent's next instruction asks for; none where it has still to be fetched. -/
def State.pipeFor (s : State) (p : Place) (x : Agent) (pc : DWord) : Option Nat :=
  match (s.fetch p x.ident.tenant pc).2 with
  | .got i => some (pipeOf i)
  | _ => none

/-- The agent may issue in this clock: it is ready in the active set of a gang that runs, no swap of it is under way, it has not
issued, and its partition has the pipe left (R33, R34). -/
def State.mayIssue (s : State) (a : Nat) (x : Agent) : Bool :=
  match x.place, x.ctl.headRun with
  | some p, some (pc, _) =>
    x.active && x.ready && s.runs x && decide (x.frozen ≤ s.time) && !s.hasIssued a &&
    (match s.pipeFor p x pc with
     | some n => decide (((s.issuedIn p).filter fun e => e.clk == s.time).length < 4) && !(s.issuedIn p).any fun e => e.pipe == n
     | none => true)
  | _, _ => false

/-- Of the agents of its partition that may issue to the same pipe, this one goes first (R33, R63). -/
def State.firstForPipe (s : State) (a : Nat) (x : Agent) : Bool :=
  let pipe := fun (y : Agent) =>
    match y.place, y.ctl.headRun with
    | some p, some (pc, _) => (some (p.core, p.part), s.pipeFor p y pc)
    | _, _ => (none, none)
  s.agents.all fun e => e.1 == a || !s.mayIssue e.1 e.2 || pipe e.2 != pipe x || !goesFirst e.2 x

/-- The agent that goes first of those that may issue. -/
def State.nextIssuer (s : State) : Option (Nat × Agent) :=
  (s.agents.filter fun e => s.mayIssue e.1 e.2).foldl (fun m e =>
    match m with
    | none => some e
    | some q => if goesFirst e.2 q.2 then some e else m) none

/-- An agent at the end of a clock: one that was ready and did not issue has been passed over (R63). -/
def Agent.passClock (ready issued : Bool) (x : Agent) : Agent :=
  if x.queued then x else { x with passed := if x.place.isSome && ready && !issued then x.passed + 1 else 0 }

/-- The next clock: what waited at issue tries again; an instruction of several clocks keeps its pipe (R11); a tenant that has
no gang to be taken has had its turn (R50). -/
def State.nextClock (s : State) : State :=
  let s1 := { s with agents := s.agents.map fun (e : Nat × Agent) => (e.1, e.2.passClock (s.readyToGo e.2) (s.hasIssued e.1)) }
  let s2 := (List.range 4).foldl State.endTurn s1.unstall
  { s2 with time := s.time + 1, clock := s.clock.filter fun (e : Issued) => decide (s.time < e.till), banks := [] }

end Sys2Proof.Machine
end

