-- ==== Sys2Proof/Machine/Issue.lean ====
section
/-! DEFINITION. The issue of one instruction (R30, R33, R140, R323), and which step comes about next. -/

namespace Sys2Proof.Machine

/-- Nothing is issuing. -/
def State.rest (s : State) : State := { s with cur := none }

/-- The agent may issue at all: it stands in the active set of a gang that runs, no swap of it is under way, and it offers an
instruction (R30, R34). -/
def State.canIssue (s : State) (x : Agent) : Bool := x.active && x.ready && s.runs x && decide (x.frozen ≤ s.time)

/-- An agent that waits in nothing any more has ended its wait on a token or counter (R34). -/
def Ctl.waitOver (c : Ctl) : Ctl :=
  match c.hold with
  | .none => { c with waitSince := none }
  | _ => c

/-- Nothing is issuing, and an instruction that did not wait at issue is counted in the clock under way (R33). -/
def State.issued (s : State) (a : Nat) (p : Place) (i : Instr) : State :=
  if ((s.agent? a).map fun x => x.ctl.stall).getD false then s.rest
  else
    { s.modAgent a (Agent.mapCtl Ctl.waitOver) with
      cur := none
      clock := s.clock ++ [{ agent := a, core := p.core, part := p.part, pipe := pipeOf i, clk := s.time,
                             till := s.time + pipeTime i - 1 }] }

/-- What issuing an instruction answers. -/
def settled (a : Nat) (p : Place) (i : Instr) (o : Out) : Out :=
  match o with
  | .next s => .next (s.issued a p i)
  | o => o

/-- The issue of an agent: a breakpoint stops it before its instruction (R323); else the instruction at its head run's PC is
fetched through its partition's instruction cache and executed. A line that the cache does not hold is filled, and the agent
fetches again; it waits while the read is held at the line's home (R120, R130). A fetch fault stops the agent with its lowest lane (R93, R316).
Walk and fill make their requests (R102, R103). -/
def State.issueNow (s : State) (a : Nat) (x : Agent) (p : Place) (pc : DWord) (run : Lanes) : Out :=
  if s.breakAt x pc then .next (s.takeFault a codeBreak pc 0#64 false false (lowLane run) none).rest
  else
    match s.fetch p x.ident.tenant pc with
    | (s1, .got i) => settled a p i (exec i { s1 with cur := some a })
    | (s1, .miss y) =>
      if s1.codeHeld p y.key then .next (s1.modAgent a (Agent.mapCtl fun c => { c with stall := true })).rest
      else .next (s1.codeFill p x.ident.tenant y none).rest
    | (s1, .fault code addr) => .next (s1.takeFault a code pc addr true false (lowLane run) none).rest

/-- TIMER becomes pending at the issue boundary where it is due; with IN 1 it is held (R304, R307). -/
def Agent.atBoundary (now : Nat) (x : Agent) : Agent := if x.timerDue now then x.pendTimer else x
def State.atBoundary (s : State) (a : Nat) (x : Agent) : State :=
  if x.timerDue s.time then s.setAgent a x.pendTimer else s

/-- What comes about at the issue boundary before an instruction: a pending cause is taken while IN is 0 (R304). -/
def State.boundary (s : State) (a : Nat) (x : Agent) : Option State :=
  match nextCause x.sys.causes with
  | none => none
  | some c => if x.sys.inHandler then none else some (s.takeCause a x c)

/-- An agent that is named issues if it can. -/
def State.turn (s : State) (a : Nat) : Out :=
  match s.agent? a with
  | none => .next s.rest
  | some y =>
    let x := y.atBoundary s.time
    match x.place, x.ctl.headRun with
    | some p, some (pc, run) =>
      if !s.canIssue x then .next s.rest
      else
        let s1 := s.atBoundary a y
        match s1.boundary a x with
        | some t => .next t.rest
        | none => s1.issueNow a x p pc run
    | _, _ => .next s.rest

/-- The outcome changes the state. -/
def changes (s : State) (o : Out) : Bool :=
  match o with
  | .next s' => !decide (s' = s)
  | _ => true

/-- The first of these outcomes that changes the state. -/
def firstChange (s : State) : List Instr → Option Out
  | [] => none
  | i :: t => if changes s (exec i s) then some (exec i s) else firstChange s t

/-- The end of a clock: its deadlines are compared once its instructions have issued (R59), then the next clock begins. -/
def State.endClock (s : State) : Out :=
  match firstChange s (endSteps s) with
  | some o => o
  | none => .next s.nextClock

/-- A choice that was made of what comes next: a step of the part, the turn of an agent that may issue in this clock,
or the end of the clock. -/
def State.choose (s : State) (c : Choice) : Out :=
  match c with
  | .step i => if stepOfPart i then exec i s else .next s
  | .turn a =>
    match s.agent? a with
    | some x => if s.mayIssue a x && s.firstForPipe a x then s.turn a else .next s
    | none => .next s
  | .clock => s.endClock

/-- The changes of SLI_CFG that are under way (R341). -/
def sliSteps (s : State) : List (Nat × Nat) := s.device.sliBusy

/-- What comes next where no choice is given: a step that is due, else an instruction, else the deadlines of the clock, else
the next clock. -/
def State.proceed (s : State) : Out :=
  match firstChange s (dueSteps s) with
  | some o => o
  | none =>
    match sliSteps s with
    | e :: _ => execSliRatioDone e.1 s
    | [] =>
      match s.nextIssuer with
      | some (a, _) => s.turn a
      | none => s.endClock

end Sys2Proof.Machine
end

