-- ==== Sys2Proof/Machine/Place.lean ====
section
/-! DEFINITION. One warp placed from outside, with an instruction where it fetches next: what a loaded program of one
instruction comes to (log 1). -/

namespace Sys2Proof.Machine

/-- The grants of the placed gang: everything a core may grant (R28, R54). -/
def placedHeader : Header :=
  { slab := 64, slots := 16, bars := 64, budget := 48, cbufk := 128, wbufk := 256, abufk := 256, tables := 16, arrays := 4 }

/-- Where the placed warp fetches, and the page that maps it: the identity over the first 2 MiB (R88). -/
def placedPc : Nat := 0x10000

def placedEntry : TlbEntry :=
  { tenant := 0, base := 0, bits := 21, frame := 0, tier := 1, cached := true, coded := false, write := true, fetch := true }

/-- A gang of one warp on core 0. -/
def placedGang : Gang :=
  { tenant := 0, launch := 0, index := 0, die := 0, prio := 1, tag := 0#64, rank := 0, warps := 1, header := placedHeader,
    cores := [0], phase := .running, buf := [], bufMark := [], bars := [], warpMarks := [], msgs := [], flips := [],
    slots := [], planes := [], tables := [], deadline := none, forcedAt := none, savedAt := 0, savedReqs := [], spilled := false }

/-- Its warp: every lane at the PC, every register 0 (R29, R40). -/
def placedAgent (gang : Nat) : Agent :=
  { ident := { tenant := 0, gang := gang, widx := 0, tser := 0, root := gang + 1, caller := 0, record := 0, born := 0 }
    place := some ⟨0, 0, 0⟩, active := true, frozen := 0, task := false, queued := false, passed := 0
    regs := { alloc := 1536, v := [], vMark := [], s := [], sMark := 0#256, p := [] }
    ctl := Ctl.start 0xFFFFFFFF#32 (BitVec.ofNat 64 placedPc)
    sys := { fpmode := 0#32, fpflags := 0#32, yreq := false, tcmp := 0xFFFFFFFFFFFFFFFF#64, tcause := 0#32, thandler := 0#64,
             samp := 0#32, sampCount := 0, causes := [], frame := none, labels := [], excess := 0, lovf := false }
    eng := Eng.start 0#32, flight := Flight.start, slab := 64, recs := [] }

/-- The two words of an instruction, the bits above `nbits` zero, as memory holds them. -/
def placedBytes (nbits w : Nat) : List Byte := leBytes 16 (w % 2 ^ nbits)

/-- The instruction's bytes in memory and in the instruction cache of core 0's partition 0. -/
def State.placeCode (s : State) (nbits w : Nat) : State :=
  let s1 := s.write (cellsAt placedPc (placedBytes nbits w))
  s1.icacheFill 0 0 (placedPc / 128) none (BitVec.ofNat 1024 (s1.lineBits placedPc 128))

/-- The warp placed, with the instruction at its PC, about to issue. -/
def State.placeWarp (s : State) (nbits w : Nat) : State :=
  let g := s.nextKey
  let s1 := s.placeCode nbits w
  let s2 := s1.modCore 0 fun c => { c with tlb := tlbAdd 512 c.tlb placedEntry }
  { (s2.setGang g placedGang).setAgent (g + 1) (placedAgent g) with nextKey := g + 2, cur := some (g + 1), agenda := [] }

end Sys2Proof.Machine
end

