-- ==== Sys2Proof/Machine/Step.lean ====
section
/-! DEFINITION. One step of the part. -/

namespace Sys2Proof.Machine

/-- One step: the agent that is about to issue takes its turn; else the first choice of the agenda comes about; else what
is due next. -/
def step (s : State) : Host.Outcome State Fault Refusal :=
  match s.cur with
  | some a => s.turn a
  | none =>
    match s.agenda with
    | c :: rest => { s with agenda := rest }.choose c
    | [] => s.proceed

/-- The state with that instruction where the next step fetches (log 1). -/
def State.withFetchWord (s : State) (nbits w : Nat) : State := s.placeWarp nbits w

end Sys2Proof.Machine
end

