-- ==== Sys2Proof/Safety.lean ====
section
/-! DEFINITION. What counts as a safe run: no step of it stops the model. A fault of a program is no stop: its agent
stops and the part runs on (R313). -/

namespace Sys2Proof.Machine

/-- So many steps from a state, none of which stops. -/
def SafeFor : Nat → State → Prop
  | 0, _ => True
  | n + 1, s => ∃ t, step s = .next t ∧ SafeFor n t

/-- No number of steps from the state meets a stop. -/
def Safe (s : State) : Prop := ∀ n, SafeFor n s

/-- Physical memory is in its canonical form: locations rise strictly, and no entry holds the 0 that an unlisted location
reads as. -/
def Memory.wf (m : List Host.Cell) : Bool := kwf 0#8 m

end Sys2Proof.Machine
end

