-- ==== Sys2Proof/Certificates/Slice0/Obligations.lean ====
section
/-! DEFINITION. The statements about the model that are to be proved. The first part says how the statements speak of an
instruction word and of what comes of it; the obligations follow, family by family.

A statement about an instruction word is made of three things: its form (R150, R152: what each field accepts, and the
checks), the conditions under which it runs (`Runs`), and what the state after it holds. The state after it is given
as a record, so that every part that the record does not name is unchanged, with the parts that it does name described by
what reading them gives. -/

namespace Sys2Proof.Claim

open Sys2Proof.Machine

/-! ## Forms -/

/-- How an instruction word issues: its guard, its fields, its size in bytes, its checks that hang on no operand value, and
its checks that do (R152, R219). -/
structure Form where
  g : Guard
  us : List Use
  size : Nat
  pre : Ctx → Option Flt
  post : Ctx → Option Flt

/-- A form without checks of its own. -/
abbrev plain (g : Guard) (us : List Use) : Form := ⟨g, us, 8, noCheck, noCheck⟩

/-- A form with checks on operand values. -/
abbrev checked (g : Guard) (us : List Use) (post : Ctx → Option Flt) : Form := ⟨g, us, 8, noCheck, post⟩

/-- A vector destination of the type's width with sources of it (R150): identities are accepted by integer types. -/
abbrev vf1 (g : Guard) (f : FTy) (d a : Opnd) : Form := plain g [useDst (fWide f) .vec d, useSrc (fWide f) false a]
abbrev vf2 (g : Guard) (f : FTy) (d a b : Opnd) : Form :=
  plain g [useDst (fWide f) .vec d, useSrc (fWide f) false a, useSrc (fWide f) false b]
abbrev vf3 (g : Guard) (f : FTy) (d a b c : Opnd) : Form :=
  plain g [useDst (fWide f) .vec d, useSrc (fWide f) false a, useSrc (fWide f) false b, useSrc (fWide f) false c]
abbrev vt1 (g : Guard) (t : ITy) (d a : Opnd) : Form := plain g [useDst (iWide t) .vec d, useSrc (iWide t) true a]
abbrev vt2 (g : Guard) (t : ITy) (d a b : Opnd) : Form :=
  plain g [useDst (iWide t) .vec d, useSrc (iWide t) true a, useSrc (iWide t) true b]
abbrev vt3 (g : Guard) (t : ITy) (d a b c : Opnd) : Form :=
  plain g [useDst (iWide t) .vec d, useSrc (iWide t) true a, useSrc (iWide t) true b, useSrc (iWide t) true c]

/-- The scalar forms: a source is no vector register (R197). -/
abbrev sf2 (g : Guard) (f : FTy) (d a b : Opnd) : Form :=
  plain g [useDst (fWide f) .scal d, useNonv (fWide f) false a, useNonv (fWide f) false b]
abbrev sf3 (g : Guard) (f : FTy) (d a b c : Opnd) : Form :=
  plain g [useDst (fWide f) .scal d, useNonv (fWide f) false a, useNonv (fWide f) false b, useNonv (fWide f) false c]
abbrev st1 (g : Guard) (t : ITy) (d a : Opnd) : Form := plain g [useDst (iWide t) .scal d, useNonv (iWide t) true a]
abbrev st2 (g : Guard) (t : ITy) (d a b : Opnd) : Form :=
  plain g [useDst (iWide t) .scal d, useNonv (iWide t) true a, useNonv (iWide t) true b]
abbrev st3 (g : Guard) (t : ITy) (d a b c : Opnd) : Form :=
  plain g [useDst (iWide t) .scal d, useNonv (iWide t) true a, useNonv (iWide t) true b, useNonv (iWide t) true c]

/-- A read pair of scalars, the base of an address (R150). -/
abbrev pairRead (a : Opnd) : Use := ⟨a, .scal, 2, 2, true, false⟩

/-- An index register of a gather or scatter. -/
abbrev indexRead (b : Opnd) : Use := ⟨b, .vec, 1, 1, true, false⟩

/-- The branches of R203: a target that no lane takes is not checked. -/
abbrev brForm (g : Guard) (us : List Use) (off : Int) (cond : Ctx → Bool) : Form :=
  checked g us fun c => if cond c then misTarget (lanesOf c.act) fun _ => c.rel off else none

/-- A command of class 3 with a parameter block (R246, R247). -/
abbrev blockForm (g : Guard) (d : Opnd) (pre : Ctx → Option Flt) : Form :=
  ⟨g, [useNonv false true d], 8, pre, fun c => blockCheck c (c.one32 d).toNat⟩

/-- A copy to a buffer (R232). -/
abbrev copyForm (g : Guard) (b : Buf) (d a n tok : Opnd) : Form :=
  checked g [useS false d, useS true a, useNonv false true n, useToken tok]
    fun c => copyCheck c b false (c.one32 d).toNat (c.rd true a 0) (c.one32 n).toNat

/-- A set instruction on one handle (R274). -/
abbrev handleForm (g : Guard) (us : List Use) (a : Opnd) : Form := checked g us fun c => handleCheck c [a]

/-- A walk (R239). -/
abbrev walkForm (mode : Nat) (g : Guard) (d a b h : Opnd) : Form := plain g (chaseUses mode d a b h)

/-- What a tooling command with parameter p does, and the unit of its range (R238). -/
def cvtKind (p : Nat) : Option (ToolKind × Nat) :=
  if p < 2048 ∧ ebits p 10 8 ≤ 3 ∧ cvtType (ebits p 3 0) ∧ cvtType (ebits p 7 4) ∧
      typeBytes (ebits p 7 4) ≤ typeBytes (ebits p 3 0) ∧ ebits p 3 0 ≠ ebits p 7 4 then
    some (.cvt (ebits p 3 0) (ebits p 7 4) (ebits p 10 8), typeBytes (ebits p 3 0))
  else none

/-- A tooling command whose parameter gives its kind (R238). -/
abbrev toolForm (g : Guard) (buf : Buf) (d a b tok : Opnd) (kind : Nat → Option (ToolKind × Nat)) : Form :=
  checked g (toolUses d a b tok) fun c =>
    match kind (c.one32 b).toNat with
    | none => some (flt codeIll)
    | some (_, unit) => toolRange c buf (c.one32 d).toNat (c.one32 a).toNat unit

/-- The form of an instruction word; none for the steps that no word starts and for a word of no row. -/
def formOf : Instr → Option Form
  | .vaddF g f _ d a b | .vsubF g f _ d a b | .vmulF g f _ d a b | .vminF g f d a b | .vmaxF g f d a b =>
      some (vf2 g f d a b)
  | .vfmaF g f _ d a b c | .vaddminF g f _ d a b c | .vmaxaddF g f _ d a b c => some (vf3 g f d a b c)
  | .vcmpF g f _ d a b => some (plain g [useDst false .pred d, useSrc (fWide f) false a, useSrc (fWide f) false b])
  | .vrndi g f _ d a | .vgetexp g f d a | .vnegF g f d a | .vabsF g f d a | .vredaddF g f _ d a
  | .vscanIncF g f _ d a | .vscanExcF g f _ d a => some (vf1 g f d a)
  | .vldexp g f _ d a b => some (plain g [useDst (fWide f) .vec d, useSrc (fWide f) false a, useSrc false false b])
  | .vrcp g _ d a | .vrsqrt g _ d a | .vfexp2 g _ d a | .vlog2 g _ d a => some (vf1 g .f32 d a)
  | .vcvt g td ts _ d a => some (plain g [useDst (tyWide td) .vec d, useSrc (tyWide ts) (tyIdent ts) a])
  | .vdp4F16 g _ d a b c | .vdp4Bf16 g _ d a b c =>
      some (plain g [useDst false .vec d, useSrc true false a, useSrc true false b, useSrc false false c])
  | .vdp4I8 g d a b c => some (vt3 g .n32 d a b c)
  | .vcbxCb3 g d a b c | .vcbxCb4 g d a b c =>
      some (plain g [useDst false .vec d, useWhole false a, useWhole false b, useSrc false true c])
  | .vaddT g t d a b | .vsubT g t d a b | .vmulT g t d a b | .vmulhi g t d a b | .vminT g t d a b | .vmaxT g t d a b
  | .vand g t d a b | .vor g t d a b | .vxor g t d a b | .vshl g t d a b | .vshr g t d a b => some (vt2 g t d a b)
  | .vmad g t d a b c | .vaddminT g t d a b c | .vmaxaddT g t d a b c => some (vt3 g t d a b c)
  | .vbfe g t d a b c =>
      some (plain g [useDst (iWide t) .vec d, useSrc (iWide t) true a, useSrc false true b, useSrc false true c])
  | .vbfi g t d a b c =>
      some (plain g [useDst (iWide t) .vec d, useSrc (iWide t) true a, useSrc (iWide t) true b, useSrc false true c])
  | .vabsT g t d a | .vnegT g t d a | .vnot g t d a | .vpopc g t d a | .vclz g t d a | .vmov g t d a
  | .vredaddT g t d a | .vscanIncT g t d a | .vscanExcT g t d a => some (vt1 g t d a)
  | .vcmpT g t _ d a b => some (plain g [useDst false .pred d, useSrc (iWide t) true a, useSrc (iWide t) true b])
  | .vsel g t d a b p =>
      some (plain g [useDst (iWide t) .vec d, useSrc (iWide t) true a, useSrc (iWide t) true b, usePred p])
  | .vshup g t d a b x | .vshdn g t d a b x =>
      some (plain g [useDst (iWide t) .vec d, useMoved (iWide t) a, useSrc false true b, useSrc (iWide t) true x])
  | .vperm g t d a b | .vbcast g t d a b =>
      some (plain g [useDst (iWide t) .vec d, useMoved (iWide t) a, useSrc false true b])
  | .vpack g _ d a b c | .vunpack g _ d a b c => some (vt3 g .n32 d a b c)
  | .saddF g f _ d a b | .ssubF g f _ d a b | .smulF g f _ d a b | .sminF g f d a b | .smaxF g f d a b =>
      some (sf2 g f d a b)
  | .sfma g f _ d a b c => some (sf3 g f d a b c)
  | .scmpF g f _ d a b => some (plain g [useDst false .scal d, useNonv (fWide f) false a, useNonv (fWide f) false b])
  | .scvt g td ts _ d a => some (plain g [useDst (tyWide td) .scal d, useNonv (tyWide ts) (tyIdent ts) a])
  | .saddT g t d a b | .ssubT g t d a b | .smulT g t d a b | .smulhi g t d a b | .sminT g t d a b | .smaxT g t d a b
  | .sand g t d a b | .sor g t d a b | .sxor g t d a b | .sshl g t d a b | .sshr g t d a b => some (st2 g t d a b)
  | .smad g t d a b c => some (st3 g t d a b c)
  | .sbfe g t d a b c =>
      some (plain g [useDst (iWide t) .scal d, useNonv (iWide t) true a, useNonv false true b, useNonv false true c])
  | .sbfi g t d a b c =>
      some (plain g [useDst (iWide t) .scal d, useNonv (iWide t) true a, useNonv (iWide t) true b, useNonv false true c])
  | .sabs g t d a | .sneg g t d a | .snot g t d a | .spopc g t d a | .sclz g t d a | .smov g t d a =>
      some (st1 g t d a)
  | .scmpT g t _ d a b => some (plain g [useDst false .scal d, useNonv (iWide t) true a, useNonv (iWide t) true b])
  | .ssel g t d a b p =>
      some (plain g [useDst (iWide t) .scal d, useNonv (iWide t) true a, useNonv (iWide t) true b, usePred p])
  | .lget g t d a b => some (plain g [useDst (iWide t) .scal d, useWhole (iWide t) a, useNonv false true b])
  | .lput g t d a b => some (plain g [useDst (iWide t) .vec d, useNonv (iWide t) true a, useNonv false true b])
  | .srd g reg d => some (plain g (illIf (!sysKnown reg) ++ [useDst false .scal d]))
  | .swr g reg a => some (plain g (illIf (!sysKnown reg) ++ [useNonv false true a]))
  | .bra g off => some (brForm g [] off fun _ => true)
  | .braAny g a off => some (brForm g [usePred a] off fun c => c.ag.regs.pred (Opnd.num a) &&& c.act != 0#32)
  | .braAll g a off => some (brForm g [usePred a] off fun c => c.ag.regs.pred (Opnd.num a) &&& c.act == c.act)
  | .braNone g a off => some (brForm g [usePred a] off fun c => c.ag.regs.pred (Opnd.num a) &&& c.act == 0#32)
  | .braZ g a off => some (brForm g [useNonv false true a] off fun c => c.one32 a == 0#32)
  | .braNz g a off => some (brForm g [useNonv false true a] off fun c => c.one32 a != 0#32)
  | .jmp g a => some (checked g [useAddr a] fun c => misTarget (lanesOf c.act) (c.rd true a))
  | .brx g a _ => some (plain g [useSrc false true a])
  | .callDirect g _ target _ =>
      some ⟨g, [], 16, inHandler, fun c => misTarget (lanesOf c.act) fun _ => c.rel target⟩
  | .callRegister g _ a _ => some ⟨g, [useAddr a], 16, inHandler, fun c => misTarget (lanesOf c.act) (c.rd true a)⟩
  | .ret g => some ⟨g, [], 8, fun c => if !c.ag.task || c.ag.sys.inHandler then some (flt codeIll) else none, noCheck⟩
  | .exit g | .nop g | .waitc g _ _ _ | .cinvD g | .cinvI g | .fence g _ _ | .l1cfg g _ | .qstate g | .rngOpen g _
  | .rngClose g => some (plain g [])
  | .park g line bar tmo a b n =>
      some ⟨g, (if line then [pairRead a] else []) ++ (if tmo then [useNonv false true n] else []), 8,
        fun c => if bar then barCheck b c else none,
        fun c => if line then addrCheck 1 false [(lowLane c.act, c.rd true a 0)] else none⟩
  | .yield g => some ⟨g, [], 8, inHandler, noCheck⟩
  | .grow g n => some ⟨g, [], 8, fun c => if c.ag.regs.alloc + n > 1536 then some (flt codeIll) else none, noCheck⟩
  | .shrink g n => some ⟨g, [], 8, fun c => if c.ag.regs.alloc < n + 32 then some (flt codeIll) else none, noCheck⟩
  | .taskPush g _ a =>
      some (checked g [useNonv false true a] fun c =>
        if (c.one32 a).toNat % 64 ≠ 0 then some ⟨codeMisaligned, BitVec.ofNat 64 (c.one32 a).toNat, 0, false, false⟩
        else if (c.one32 a).toNat + 64 > c.header.grant .abuf then
          some ⟨codeProtection, BitVec.ofNat 64 (c.one32 a).toNat, 0, false, false⟩
        else none)
  | .sli g d _ => some ⟨g, [useDst false .scal d], 16, noCheck, noCheck⟩
  | .sli64 g d _ => some ⟨g, [useDst true .scal d], 16, noCheck, noCheck⟩
  | .vli g d _ => some ⟨g, [useDst false .vec d], 16, noCheck, noCheck⟩
  | .ld g k _ _ d a _ off =>
      some (checked g [useDst (LdKind.bytes k == 8) .vecScal d, pairRead a]
        fun c => addrCheck (LdKind.bytes k) false (c.addrsM (Opnd.isV d) a off (LdKind.bytes k)))
  | .st g w _ _ d a _ off =>
      some (checked g [useSrc (StWidth.bytes w == 8) true d, pairRead a]
        fun c => addrCheck (StWidth.bytes w) true (c.addrsM (Opnd.isV d) a off (StWidth.bytes w)))
  | .gath g k d a b off =>
      some (checked g [useDst (LdKind.bytes k == 8) .vec d, pairRead a, indexRead b]
        fun c => addrCheck (LdKind.bytes k) false (c.addrsG a b off (LdKind.bytes k)))
  | .scat g w d a b off =>
      some (checked g [⟨d, .vec, if StWidth.bytes w == 8 then 2 else 1, if StWidth.bytes w == 8 then 2 else 1, true, false⟩, pairRead a,
          indexRead b]
        fun c => addrCheck (StWidth.bytes w) true (c.addrsG a b off (StWidth.bytes w)))
  | .ldb g k b d a off =>
      some (checked g [useDst (LdKind.bytes k == 8) .vecScal d, useBase a]
        fun c => bufCheck c b false (LdKind.bytes k) (c.bufOffs (Opnd.isV d) a off (LdKind.bytes k)))
  | .stb g w b d a off =>
      some (checked g [useSrc (StWidth.bytes w == 8) true d, useBase a]
        fun c => bufCheck c b true (StWidth.bytes w) (c.bufOffs (Opnd.isV d) a off (StWidth.bytes w)))
  | .atom g op k _ _ d a b =>
      some (checked g [useDst (AKind.wide k) (if Opnd.isV a then .vec else .vecScal) d, useAddr a, atomUse op k b]
        fun c => addrCheck (AKind.bytes k) true (c.atomAddrs a (Opnd.isV a || Opnd.isV d || Opnd.isV b)))
  | .red g op k _ _ a b =>
      some (checked g [useAddr a, atomUse op k b]
        fun c => addrCheck (AKind.bytes k) true (c.atomAddrs a (Opnd.isV a || Opnd.isV b)))
  | .redRet g op k _ _ d a b =>
      some ⟨g, [useSrc false true d, useAddr a, atomUse op k b], 8, barctx, fun c =>
        let vector := Opnd.isV a || Opnd.isV d || Opnd.isV b
        redRetCheck c (AKind.bytes k) ((c.accLanes vector).map fun l => (l, c.rd32 d (c.srcLane vector l))) (c.atomAddrs a vector)⟩
  | .pref g a _ _ | .ipref g a _ => some (plain g [pairRead a])
  | .copyAbuf g _ d a n tok => some (copyForm g .abuf d a n tok)
  | .copyWbuf g _ d a n tok => some (copyForm g .wbuf d a n tok)
  | .copyMc g _ d a n tok => some (copyForm g .abuf d a n tok)
  | .copyOut g cbuf _ d a n tok =>
      some (checked g [useS true d, useS false a, useNonv false true n, useToken tok]
        fun c => copyCheck c (if cbuf then .cbuf else .abuf) true (c.one32 a).toNat (c.rd true d 0) (c.one32 n).toNat)
  | .copyQ g _ d a b tok =>
      some (checked g [useS false d, useS true a, useS true b, useToken tok] fun c =>
        let count := (c.one32 b).toNat
        let glob := c.rd true a 0
        if count = 0 ∨ count % 32 ≠ 0 ∨ glob.toNat % 32 ≠ 0 then c.misaligned glob false
        else if (c.one32 d).toNat % 32 ≠ 0 then c.misaligned (c.rd false d 0) true
        else
          match descCheck c (c.rd32 (.s (Opnd.num b + 1)) 0).toNat with
          | some f => some f
          | none => if glob.toNat ≥ 144115188075855872 then c.refusedRange glob false else none)
  | .toolXpose g buf d a b tok => some (toolForm g buf d a b tok fun p => if p < 3 then some (.xpose p, 1024 * 2 ^ p) else none)
  | .toolCvt g buf d a b tok => some (toolForm g buf d a b tok cvtKind)
  | .toolZero g buf d a b tok => some (toolForm g buf d a b tok fun _ => some (.zero, 1))
  | .toolQuant g buf d a b tok =>
      some (checked g (toolUses d a b tok) fun c =>
        if (c.one32 b).toNat % 32 ≠ 0 then c.misaligned (c.rd false b (lowLane c.act)) false
        else
          match toolRange c buf (c.one32 d).toNat (c.one32 a).toNat 1 with
          | some f => some f
          | none => descCheck c (c.one32 b).toNat)
  | .toolRsum g buf d a b tok =>
      some (checked g (toolUses d a b tok) fun c =>
        if !rowLength (c.one32 b).toNat then some (flt codeIll)
        else if (c.one32 d).toNat % (4 * (c.one32 b).toNat) ≠ 0 then c.misaligned (c.rd false d 0) true
        else toolRange c buf (c.one32 d).toNat (c.one32 a).toNat (4 * (c.one32 b).toNat))
  | .chaseLink g d a b h => some (walkForm 0 g d a b h)
  | .chaseIndex g d a b h => some (walkForm 1 g d a b h)
  | .chaseSample g d a b h => some (walkForm 2 g d a b h)
  | .l1cfgQ g d | .bdGet g _ d | .dsrd g d | .setCost g _ d | .setNew g d | .gstart g d => some (plain g [useDst false .scal d])
  | .cflush g a b =>
      some (checked g [pairRead a, useNonv false true b]
        fun c => if c.one32 b = 0#32 then none else addrCheck 1 false [(lowLane c.act, c.rd true a 0)])
  | .tbind g _ d => some (blockForm g d noCheck)
  | .ldst g arr f d | .mstream g arr f d => some (blockForm g d (arrayCheck arr f))
  | .cbtload g tbl f d => some (blockForm g d fun c => if tbl ≥ c.header.tables then some (flt codeIllop) else frameCheck f c)
  | .mswap g arr f => some ⟨g, [], 8, arrayCheck arr f, noCheck⟩
  | .mop g f d => some (blockForm g d (arrayCheck 3 f))
  | .mzero g f d | .chainCfg g f d => some (blockForm g d (frameCheck f))
  | .chainStep g f d => some ⟨g, [useNonv false true d], 8, chainCheck f, noCheck⟩
  | .chainRun g f d => some ⟨g, [useS false d], 8, chainCheck f, noCheck⟩
  | .bdSet g _ d => some (plain g [useNonv false true d])
  | .setFree g a | .setHint g _ a | .setHintNone g a => some (handleForm g [useS false a] a)
  | .setIns g wr d a b | .setDel g wr d a b => some (handleForm g (memberUses wr d a b) a)
  | .setHas g d a b => some (handleForm g (memberUses true d a b) a)
  | .setCard g d a => some (handleForm g [useDst false .scal d, useS false a] a)
  | .setOr g a b c | .setAnd g a b c | .setSub g a b c =>
      some (checked g [useS false a, useS false b, useS false c] fun x => handleCheck x [a, b, c])
  | .setIn g a b c => some (checked g [useS false a, useS true b, useSrc false true c] (arrayAddrCheck false a b))
  | .setOut g d a b c =>
      some (checked g [useDst false .scal d, useS false a, useS true b, useSrc false true c] (arrayAddrCheck true a b))
  | .setIter g d a c => some (handleForm g [useDst false .vec d, useS false a, useS false c] a)
  | .barInit g hb a =>
      some ⟨g, [useNonv false true a], 8, barCheck hb,
        fun c => if (c.one32 a).toNat = 0 ∨ (c.one32 a).toNat > 65535 then some (flt codeIll) else none⟩
  | .barArrive g hb | .barWait g hb => some ⟨g, [], 8, barCheck hb, noCheck⟩
  | .barStatus g hb d => some ⟨g, [useDst false .scal d], 8, barCheck hb, noCheck⟩
  | .gwait g a => some ⟨g, [useS false a], 8, fun c => if c.ag.task then some (flt codeIll) else none, noCheck⟩
  | .fdefer g a b c => some (checked g [useS true a, useNonv false true b, useNonv false true c] (fdeferCheck a b c))
  | .trap g _ => some ⟨g, [], 8, inHandler, noCheck⟩
  | .tret g => some ⟨g, [], 8, fun c => if c.ag.sys.inHandler then none else some (flt codeIll), noCheck⟩
  | .capq g d a => some (plain g [useDst true .scal d, useNonv false true a])
  | .tmrd g d => some (plain g [useDst true .scal d])
  | _ => none

/-- The instruction issues and has its effect, in the surroundings `c`: every field names a code that it accepts (R152), no
register of it waits for a result (R99), a lane is active (R145), no active lane consumes a mark (R317), and its own
checks pass. The tokens that it reads first acquire (R131). -/
def Runs (s : State) (F : Form) (c : Ctx) : Prop :=
  ∃ c0, Ctx.of s F.g = some c0 ∧ checkUses c0.ag.regs.alloc F.us = none ∧ F.pre c0 = none ∧
    pending c0.ag.flight (guardUses F.g ++ F.us) = false ∧ c0.act ≠ 0#32 ∧ poisonLanes c0.ag.regs c0.act F.us = 0#32 ∧
    c = c0.acquireTokens F.us ∧ F.post c = none

/-! ## What comes of an instruction -/

/-- The state in which the issuing agent has become `x`, and nothing else differs from the surroundings. -/
def withAgent (c : Ctx) (x : Agent) : State := { c.st with agents := kput c.st.agents c.key x }

/-- The state in which the issuing agent has stopped with a precise fault: its registers, its PCs and all else stand as
they were (R311, R313). -/
def stopped (c : Ctx) (f : Flt) : State :=
  { c.st with
    agents := kmod c.st.agents c.key fun x =>
      { x with ctl := { x.ctl with
          stop := some { code := f.code, pc := c.pc, addr := f.addr, fetch := f.fetch, wr := f.wr, lane := f.lane,
                         logIx := none, time := c.st.time, recorded := false, deferred := none } } } }

/-- The state in which the issuing agent waits at issue and nothing else happens; `w` is the clock since which it waits on a
token, if it does (R34). -/
def stalledFrom (c : Ctx) (w : Option Nat) : State :=
  { c.st with agents := kmod c.st.agents c.key fun x => { x with ctl := { x.ctl with stall := true, waitSince := w } } }

/-- The state in which the issuing agent waits at issue, and not on a token. -/
abbrev stalled (c : Ctx) : State := stalledFrom c none

/-- Every byte of memory reads as before. -/
def SameBytes (s t : State) : Prop := ∀ a, t.byte a = s.byte a

/-- The lanes of the mask have moved on by n bytes, and no other lane has moved. -/
def PcsAdvanced (m : Lanes) (n : Nat) (old new : KMap DWord) : Prop :=
  ∀ l, kgetD 0#64 new l = if m.getLsbD l = true then kgetD 0#64 old l + BitVec.ofNat 64 n else kgetD 0#64 old l

/-- The lanes of the mask stand at their targets, the rest of the run has moved on by n bytes, and no other lane has
moved. -/
def PcsJumped (run m : Lanes) (n : Nat) (tgt : Nat → DWord) (old new : KMap DWord) : Prop :=
  ∀ l, kgetD 0#64 new l =
    if m.getLsbD l = true then tgt l
    else if run.getLsbD l = true then kgetD 0#64 old l + BitVec.ofNat 64 n else kgetD 0#64 old l

/-- The lanes of the mask of register n, or of a pair at n, hold the values and no mark; every other lane, mark, scalar and
predicate is unchanged, and so is the allotment. -/
def LanesWritten (m : Lanes) (n : Nat) (wide : Bool) (val : Nat → DWord) (old new : Regs) : Prop :=
  (∀ k l, l < 32 → new.vlane k l =
    if m.getLsbD l = true ∧ k = n then (val l).setWidth 32
    else if m.getLsbD l = true ∧ wide = true ∧ k = n + 1 then ((val l) >>> 32).setWidth 32
    else old.vlane k l) ∧
  (∀ k l, (kgetD 0#32 new.vMark k).getLsbD l =
    if m.getLsbD l = true ∧ (k = n ∨ wide = true ∧ k = n + 1) then false else (kgetD 0#32 old.vMark k).getLsbD l) ∧
  new.alloc = old.alloc ∧ new.s = old.s ∧ new.sMark = old.sMark ∧ new.p = old.p

/-- Scalar register n, or the pair at n, holds the value and no mark; every other register and mark is unchanged, and so are
the allotment, the vector registers and the predicates. -/
def ScalarWritten (n : Nat) (wide : Bool) (v : DWord) (old new : Regs) : Prop :=
  (∀ k, new.sreg k =
    if k = n then v.setWidth 32 else if wide = true ∧ k = n + 1 then (v >>> 32).setWidth 32 else old.sreg k) ∧
  (∀ k, k < 256 → new.sMark.getLsbD k = if k = n ∨ wide = true ∧ k = n + 1 then false else old.sMark.getLsbD k) ∧
  new.alloc = old.alloc ∧ new.v = old.v ∧ new.vMark = old.vMark ∧ new.p = old.p

/-- The lanes of the mask of predicate n hold the bits; every other bit and every register is unchanged. -/
def PredWritten (m : Lanes) (n : Nat) (val : Nat → Bool) (old new : Regs) : Prop :=
  (∀ k l, l < 32 → (new.pred k).getLsbD l =
    if m.getLsbD l = true ∧ k = n then val l else (old.pred k).getLsbD l) ∧
  new.alloc = old.alloc ∧ new.v = old.v ∧ new.vMark = old.vMark ∧ new.s = old.s ∧ new.sMark = old.sMark

/-! ## Results of the vector instructions -/

/-- What an instruction writes to a vector register: the register, whether it is a pair, the lanes, their values, and the
flags that the instruction raises. -/
structure VecOut where
  num : Nat
  wide : Bool
  mask : Lanes
  val : Nat → DWord
  flags : Word

/-- A value for each active lane, with its flags; an integer value for each active lane. -/
abbrev laneOut (c : Ctx) (d : Opnd) (wide : Bool) (f : Nat → FRes) : VecOut :=
  ⟨Opnd.num d, wide, c.act, fun l => (f l).1, (laneFlags f (lanesOf c.act)).setWidth 32⟩
abbrev intOut (c : Ctx) (d : Opnd) (wide : Bool) (f : Nat → DWord) : VecOut := ⟨Opnd.num d, wide, c.act, f, 0#32⟩

/-- The integer that lane l of an operand holds in type t. -/
abbrev ival (c : Ctx) (t : ITy) (a : Opnd) (l : Nat) : Int := iVal t (c.rd (iWide t) a l)

/-- The vector results (R163 to R196, R198, R201). -/
def vecOut (i : Instr) (c : Ctx) : Option VecOut :=
  match i with
  | .vaddF _ f rm d a b => some (laneOut c d (fWide f) fun l => fAdd c.ftz f (c.mode rm) (c.rdF f a l) (c.rdF f b l))
  | .vsubF _ f rm d a b => some (laneOut c d (fWide f) fun l => fSub c.ftz f (c.mode rm) (c.rdF f a l) (c.rdF f b l))
  | .vmulF _ f rm d a b => some (laneOut c d (fWide f) fun l => fMul c.ftz f (c.mode rm) (c.rdF f a l) (c.rdF f b l))
  | .vfmaF _ f rm d a b x =>
      some (laneOut c d (fWide f) fun l => fFma c.ftz f (c.mode rm) (c.rdF f a l) (c.rdF f b l) (c.rdF f x l))
  | .vminF _ f d a b => some (laneOut c d (fWide f) fun l => fMinMax false c.ftz f (c.rdF f a l) (c.rdF f b l))
  | .vmaxF _ f d a b => some (laneOut c d (fWide f) fun l => fMinMax true c.ftz f (c.rdF f a l) (c.rdF f b l))
  | .vaddminF _ f rm d a b x =>
      some (laneOut c d (fWide f) fun l => fAddMin c.ftz f (c.mode rm) (c.rdF f a l) (c.rdF f b l) (c.rdF f x l))
  | .vmaxaddF _ f rm d a b x =>
      some (laneOut c d (fWide f) fun l => fMaxAdd c.ftz f (c.mode rm) (c.rdF f a l) (c.rdF f b l) (c.rdF f x l))
  | .vrndi _ f rm d a => some (laneOut c d (fWide f) fun l => fRndi f (c.mode rm) (c.rdF f a l))
  | .vldexp _ f rm d a b =>
      some (laneOut c d (fWide f) fun l => fLdexp f (c.mode rm) (c.rdF f a l) (c.rd32 b l).toInt)
  | .vgetexp _ f d a => some (laneOut c d (fWide f) fun l => fGetexp f (c.rdF f a l))
  | .vnegF _ f d a => some (intOut c d (fWide f) fun l => fNeg f (c.rdF f a l))
  | .vabsF _ f d a => some (intOut c d (fWide f) fun l => fAbs f (c.rdF f a l))
  | .vrcp _ _ d a => some (laneOut c d false fun l => fRcp c.ftz (c.rdF .f32 a l))
  | .vrsqrt _ _ d a => some (laneOut c d false fun l => fRsqrt c.ftz (c.rdF .f32 a l))
  | .vfexp2 _ _ d a => some (laneOut c d false fun l => fExp2 c.ftz (c.rdF .f32 a l))
  | .vlog2 _ _ d a => some (laneOut c d false fun l => fLog2 c.ftz (c.rdF .f32 a l))
  | .vcvt _ td ts rm d a => some (laneOut c d (tyWide td) fun l => fCvt td ts (c.mode rm) (c.rdTy ts a l))
  | .vdp4F16 _ rm d a b x =>
      some (laneOut c d false fun l => fDp4 c.ftz .f16 (c.mode rm) (c.rdPack .f16 a l) (c.rdPack .f16 b l) (c.rdF .f32 x l))
  | .vdp4Bf16 _ rm d a b x =>
      some (laneOut c d false fun l => fDp4 c.ftz .bf16 (c.mode rm) (c.rdPack .bf16 a l) (c.rdPack .bf16 b l) (c.rdF .f32 x l))
  | .vdp4I8 _ d a b x => some (intOut c d false fun l => iDp4 (c.rd false a l) (c.rd false b l) (c.rd false x l))
  | .vcbxCb3 _ d a b x => some (intOut c d false fun l => cbExpand 3 c a b x l)
  | .vcbxCb4 _ d a b x => some (intOut c d false fun l => cbExpand 4 c a b x l)
  | .vaddT _ t d a b => some (intOut c d (iWide t) fun l => iBits t (ival c t a l + ival c t b l))
  | .vsubT _ t d a b => some (intOut c d (iWide t) fun l => iBits t (ival c t a l - ival c t b l))
  | .vmulT _ t d a b => some (intOut c d (iWide t) fun l => iBits t (ival c t a l * ival c t b l))
  | .vmulhi _ t d a b =>
      some (intOut c d (iWide t) fun l => iBits t (ival c t a l * ival c t b l / (2 ^ iWidth t : Nat)))
  | .vmad _ t d a b x => some (intOut c d (iWide t) fun l => iBits t (ival c t a l * ival c t b l + ival c t x l))
  | .vminT _ t d a b => some (intOut c d (iWide t) fun l => iBits t (min (ival c t a l) (ival c t b l)))
  | .vmaxT _ t d a b => some (intOut c d (iWide t) fun l => iBits t (max (ival c t a l) (ival c t b l)))
  | .vabsT _ t d a => some (intOut c d (iWide t) fun l => iBits t (ival c t a l).natAbs)
  | .vnegT _ t d a => some (intOut c d (iWide t) fun l => iBits t (-(ival c t a l)))
  | .vaddminT _ t d a b x =>
      some (intOut c d (iWide t) fun l =>
        iBits t (min (iVal t (iBits t (ival c t a l + ival c t b l))) (ival c t x l)))
  | .vmaxaddT _ t d a b x =>
      some (intOut c d (iWide t) fun l =>
        iBits t (iVal t (iBits t (max (ival c t a l) (ival c t b l))) + ival c t x l))
  | .vand _ t d a b => some (intOut c d (iWide t) fun l => iExt t (c.rd (iWide t) a l &&& c.rd (iWide t) b l))
  | .vor _ t d a b => some (intOut c d (iWide t) fun l => iExt t (c.rd (iWide t) a l ||| c.rd (iWide t) b l))
  | .vxor _ t d a b => some (intOut c d (iWide t) fun l => iExt t (c.rd (iWide t) a l ^^^ c.rd (iWide t) b l))
  | .vnot _ t d a => some (intOut c d (iWide t) fun l => iExt t (~~~(c.rd (iWide t) a l)))
  | .vshl _ t d a b => some (intOut c d (iWide t) fun l => iShl t (c.rd (iWide t) a l) (c.rd (iWide t) b l))
  | .vshr _ t d a b => some (intOut c d (iWide t) fun l => iShr t (c.rd (iWide t) a l) (c.rd (iWide t) b l))
  | .vpopc _ t d a => some (intOut c d (iWide t) fun l => iPopc t (c.rd (iWide t) a l))
  | .vclz _ t d a => some (intOut c d (iWide t) fun l => iClz t (c.rd (iWide t) a l))
  | .vbfe _ t d a b x =>
      some (intOut c d (iWide t) fun l => iBfe t (c.rd (iWide t) a l) (c.rd false b l) (c.rd false x l))
  | .vbfi _ t d a b x =>
      some (intOut c d (iWide t) fun l => iBfi t (c.rd (iWide t) a l) (c.rd (iWide t) b l) (c.rd false x l))
  | .vsel _ t d a b p =>
      some (intOut c d (iWide t) fun l =>
        iExt t (if (c.ag.regs.pred (Opnd.num p)).getLsbD l then c.rd (iWide t) a l else c.rd (iWide t) b l))
  | .vmov _ t d a => some (intOut c d (iWide t) fun l => iExt t (c.rd (iWide t) a l))
  | .vshup _ t d a b x =>
      some (intOut c d (iWide t) fun l =>
        if (c.one32 b).toNat ≤ l then c.rd (iWide t) a (l - (c.one32 b).toNat) else c.rd (iWide t) x l)
  | .vshdn _ t d a b x =>
      some (intOut c d (iWide t) fun l =>
        if l + (c.one32 b).toNat ≤ 31 then c.rd (iWide t) a (l + (c.one32 b).toNat) else c.rd (iWide t) x l)
  | .vperm _ t d a b => some (intOut c d (iWide t) fun l => c.rd (iWide t) a ((c.rd32 b l).toNat % 32))
  | .vbcast _ t d a b => some (intOut c d (iWide t) fun _ => c.rd (iWide t) a ((c.one32 b).toNat % 32))
  | .vredaddF _ f rm d a => some (laneOut c d (fWide f) fun _ => c.sumF f rm a 32)
  | .vscanIncF _ f rm d a => some (laneOut c d (fWide f) fun l => c.sumF f rm a (l + 1))
  | .vscanExcF _ f rm d a => some (laneOut c d (fWide f) fun l => c.sumF f rm a l)
  | .vredaddT _ t d a => some (intOut c d (iWide t) fun _ => c.sumT t a 32)
  | .vscanIncT _ t d a => some (intOut c d (iWide t) fun l => c.sumT t a (l + 1))
  | .vscanExcT _ t d a => some (intOut c d (iWide t) fun l => c.sumT t a l)
  | .vpack _ t d a b x =>
      some (intOut c d false fun l =>
        BitVec.ofNat 64
          ((iNat .n32 (c.rd false x l) * 2 ^ (2 * iWidth t) +
            ((iSat t (packRead t (c.rd false b l))) % (2 ^ iWidth t : Nat)).toNat * 2 ^ iWidth t +
            ((iSat t (packRead t (c.rd false a l))) % (2 ^ iWidth t : Nat)).toNat) % 4294967296))
  | .vunpack _ t d a b x =>
      some (intOut c d false fun l =>
        iExt t (BitVec.ofNat 64
          ((iNat .n32 (c.rd false x l) * 4294967296 + iNat .n32 (c.rd false a l)) /
            2 ^ (iWidth t * (iNat .n32 (c.rd false b l) % (64 / iWidth t))))))
  | .lput _ t d a b =>
      some ⟨Opnd.num d, iWide t, 1#32 <<< ((c.one32 b).toNat % 32), fun _ => c.rd (iWide t) a (lowLane c.act), 0#32⟩
  | .vli _ d imm => some ⟨Opnd.num d, false, 0xFFFFFFFF#32, fun _ => imm.setWidth 64, 0#32⟩
  | _ => none

/-- The predicate results (R171, R173). -/
def predOut (i : Instr) (c : Ctx) : Option (Opnd × (Nat → Bool) × Word) :=
  match i with
  | .vcmpF _ f cc d a b =>
      some (d, fun l => (fCmp c.ftz f cc (c.rdF f a l) (c.rdF f b l)).1,
        (laneFlags (fun l => (0#64, (fCmp c.ftz f cc (c.rdF f a l) (c.rdF f b l)).2)) (lanesOf c.act)).setWidth 32)
  | .vcmpT _ t cc d a b =>
      some (d, fun l => ccHolds cc (some (compare (ival c t a l) (ival c t b l))), 0#32)
  | _ => none

/-! ## Results of the scalar instructions -/

/-- A value to a scalar register or pair, with the flags it raises. -/
structure ScaOut where
  num : Nat
  wide : Bool
  val : DWord
  flags : Word

abbrev sFlt (d : Opnd) (wide : Bool) (r : FRes) : ScaOut := ⟨Opnd.num d, wide, r.1, r.2.setWidth 32⟩
abbrev sInt (d : Opnd) (wide : Bool) (v : DWord) : ScaOut := ⟨Opnd.num d, wide, v, 0#32⟩

/-- A truth as a number. -/
abbrev truth (b : Bool) : DWord := if b then 1#64 else 0#64

/-- A scalar operand, read for the lowest active lane (R197). -/
abbrev sval (c : Ctx) (t : ITy) (a : Opnd) : Int := ival c t a (lowLane c.act)
abbrev sbits (c : Ctx) (t : ITy) (a : Opnd) : DWord := c.rd (iWide t) a (lowLane c.act)
abbrev sreal (c : Ctx) (f : FTy) (a : Opnd) : DWord := c.rdF f a (lowLane c.act)

/-- The slots of the core position at which every command accepted has ended, a bit each (R272). -/
def slotsIdle (c : Ctx) : Lanes :=
  maskOf fun j => decide (j < c.header.slots) &&
    ((c.st.gangOf c.ag).map fun g => (g.slot (c.st.posOf c.ag) j).done == (g.slot (c.st.posOf c.ag) j).acc).getD false

/-- The scalar results (R197 to R201, R241, R266, R272, R285, R294, R309, R310). -/
def scaOut (i : Instr) (c : Ctx) : Option ScaOut :=
  match i with
  | .saddF _ f rm d a b => some (sFlt d (fWide f) (fAdd false f (c.mode rm) (sreal c f a) (sreal c f b)))
  | .ssubF _ f rm d a b => some (sFlt d (fWide f) (fSub false f (c.mode rm) (sreal c f a) (sreal c f b)))
  | .smulF _ f rm d a b => some (sFlt d (fWide f) (fMul false f (c.mode rm) (sreal c f a) (sreal c f b)))
  | .sfma _ f rm d a b x =>
      some (sFlt d (fWide f) (fFma false f (c.mode rm) (sreal c f a) (sreal c f b) (sreal c f x)))
  | .sminF _ f d a b => some (sFlt d (fWide f) (fMinMax false false f (sreal c f a) (sreal c f b)))
  | .smaxF _ f d a b => some (sFlt d (fWide f) (fMinMax true false f (sreal c f a) (sreal c f b)))
  | .scmpF _ f cc d a b =>
      some ⟨Opnd.num d, false, truth (fCmp false f cc (sreal c f a) (sreal c f b)).1,
        (fCmp false f cc (sreal c f a) (sreal c f b)).2.setWidth 32⟩
  | .scvt _ td ts rm d a => some (sFlt d (tyWide td) (fCvt td ts (c.mode rm) (c.rdTy ts a (lowLane c.act))))
  | .saddT _ t d a b => some (sInt d (iWide t) (iBits t (sval c t a + sval c t b)))
  | .ssubT _ t d a b => some (sInt d (iWide t) (iBits t (sval c t a - sval c t b)))
  | .smulT _ t d a b => some (sInt d (iWide t) (iBits t (sval c t a * sval c t b)))
  | .smulhi _ t d a b => some (sInt d (iWide t) (iBits t (sval c t a * sval c t b / (2 ^ iWidth t : Nat))))
  | .smad _ t d a b x => some (sInt d (iWide t) (iBits t (sval c t a * sval c t b + sval c t x)))
  | .sminT _ t d a b => some (sInt d (iWide t) (iBits t (min (sval c t a) (sval c t b))))
  | .smaxT _ t d a b => some (sInt d (iWide t) (iBits t (max (sval c t a) (sval c t b))))
  | .sabs _ t d a => some (sInt d (iWide t) (iBits t (sval c t a).natAbs))
  | .sneg _ t d a => some (sInt d (iWide t) (iBits t (-(sval c t a))))
  | .scmpT _ t cc d a b => some (sInt d false (truth (ccHolds cc (some (compare (sval c t a) (sval c t b))))))
  | .sand _ t d a b => some (sInt d (iWide t) (iExt t (sbits c t a &&& sbits c t b)))
  | .sor _ t d a b => some (sInt d (iWide t) (iExt t (sbits c t a ||| sbits c t b)))
  | .sxor _ t d a b => some (sInt d (iWide t) (iExt t (sbits c t a ^^^ sbits c t b)))
  | .snot _ t d a => some (sInt d (iWide t) (iExt t (~~~(sbits c t a))))
  | .sshl _ t d a b => some (sInt d (iWide t) (iShl t (sbits c t a) (sbits c t b)))
  | .sshr _ t d a b => some (sInt d (iWide t) (iShr t (sbits c t a) (sbits c t b)))
  | .spopc _ t d a => some (sInt d (iWide t) (iPopc t (sbits c t a)))
  | .sclz _ t d a => some (sInt d (iWide t) (iClz t (sbits c t a)))
  | .sbfe _ t d a b x => some (sInt d (iWide t) (iBfe t (sbits c t a) (c.rd false b (lowLane c.act)) (c.rd false x (lowLane c.act))))
  | .sbfi _ t d a b x => some (sInt d (iWide t) (iBfi t (sbits c t a) (sbits c t b) (c.rd false x (lowLane c.act))))
  | .ssel _ t d a b p =>
      some (sInt d (iWide t)
        (iExt t (if (c.ag.regs.pred (Opnd.num p)).getLsbD (lowLane c.act) then sbits c t a else sbits c t b)))
  | .smov _ t d a => some (sInt d (iWide t) (iExt t (sbits c t a)))
  | .lget _ t d a b => some (sInt d (iWide t) (c.rd (iWide t) a ((c.one32 b).toNat % 32)))
  | .sli _ d imm => some (sInt d false (imm.setWidth 64))
  | .sli64 _ d imm => some (sInt d true imm)
  | .srd _ reg d => (c.sysReg reg).map fun w => sInt d false (w.setWidth 64)
  | .l1cfgQ _ d =>
      let x := c.st.core c.ag.core
      some (sInt d false (BitVec.ofNat 64 (x.ways + (if x.converting then 16 else 0) + 256 * x.waysAsked)))
  | .bdGet _ n d => some (sInt d false ((kgetD 0#32 c.ag.eng.bd n).setWidth 64))
  | .dsrd _ d => some (sInt d false ((slotsIdle c).setWidth 64))
  | .setCost _ n d =>
      if c.ag.flight.setOps.isEmpty then some (sInt d false ((kgetD 0#32 c.ag.eng.cost n).setWidth 64)) else none
  | .barStatus _ hb d =>
      (c.st.gangOf c.ag).map fun g => sInt d false ((g.barrier hb).status.setWidth 64)
  | .capq _ d a => some (sInt d true (BitVec.ofNat 64 ((capWords c.st.device (c.st.tenant c.ag.ident.tenant)).getD (c.one32 a).toNat 0)))
  | .tmrd _ d => some (sInt d true (BitVec.ofNat 64 c.st.time))
  | _ => none

/-! ## Translation, headers and tables as the surroundings hold them -/

/-- A core's L1 TLB maps the address for this use, to `x` (R87 to R92). -/
def Mapped (s : State) (core tenant : Nat) (va : DWord) (w : Want) (x : Xlat) : Prop :=
  va.toNat < 144115188075855872 ∧
  ∃ e, tlbFind (s.core core).tlb tenant va.toNat = some e ∧ e.permit w va.toNat = .ok x

/-- A partition's instruction cache holds the n bytes at a location, within one line, with this value (R20). -/
def Cached (s : State) (core part key n v : Nat) : Prop :=
  ∃ line, kget (s.core core).icache (iKey part (key / 128)) = some line ∧
    line.toNat / 2 ^ (8 * (key % 128)) % 2 ^ (8 * n) = v

/-- A core may not make this use of an address, and the fault has this code (R86, R92). -/
def Unmapped (s : State) (core tenant : Nat) (va : DWord) (w : Want) (code : Nat) : Prop :=
  (144115188075855872 ≤ va.toNat ∧ code = 2) ∨
  (va.toNat < 144115188075855872 ∧ ∃ e, tlbFind (s.core core).tlb tenant va.toNat = some e ∧ e.permit w va.toNat = .fault code)

/-- The header before an address can be fetched, and these are its two doublewords (R28, R206). -/
def HeaderWords (s : State) (p : Place) (tenant : Nat) (va : DWord) (lo hi : Nat) : Prop :=
  ∃ x y, Mapped s p.core tenant (va - 16#64) .fetch x ∧ Mapped s p.core tenant (va - 8#64) .fetch y ∧
    Cached s p.core p.part x.key 8 lo ∧ Cached s p.core p.part y.key 8 hi

/-- The doublewords are a header of this budget, as a call target or a continuation needs it (R28). -/
def HeaderValid (lo hi budget : Nat) : Prop :=
  hi % 4294967296 = 0x48455A4C ∧ lo % 4294967296 % 64 = budget ∧ 1 ≤ budget ∧ budget ≤ 48

/-- The header before an address names this budget (R28, R206). -/
def HeaderAt (s : State) (p : Place) (tenant : Nat) (va : DWord) (budget : Nat) : Prop :=
  ∃ lo hi, HeaderWords s p tenant va lo hi ∧ HeaderValid lo hi budget

/-- The four bytes of a branch table that a lane reads (R205). -/
def TableAt (s : State) (p : Place) (tenant : Nat) (va : DWord) (v : Nat) : Prop :=
  ∃ x, Mapped s p.core tenant va .fetch x ∧ Cached s p.core p.part x.key 4 v

/-! ## Control -/

/-- The lanes that a branch moves, and their targets (R202 to R204). -/
def jumpOf (i : Instr) (c : Ctx) : Option (Lanes × (Nat → DWord)) :=
  let rel := fun (off : Int) (_ : Nat) => c.pc + BitVec.ofInt 64 (8 * off)
  let all := fun (b : Bool) => if b then c.act else 0#32
  match i with
  | .bra _ off => some (c.act, rel off)
  | .braAny _ a off => some (all (c.ag.regs.pred (Opnd.num a) &&& c.act != 0#32), rel off)
  | .braAll _ a off => some (all (c.ag.regs.pred (Opnd.num a) &&& c.act == c.act), rel off)
  | .braNone _ a off => some (all (c.ag.regs.pred (Opnd.num a) &&& c.act == 0#32), rel off)
  | .braZ _ a off => some (all (c.one32 a == 0#32), rel off)
  | .braNz _ a off => some (all (c.one32 a != 0#32), rel off)
  | .jmp _ a => some (c.act, c.rd true a)
  | _ => none

/-- What an agent waits for once the instruction has issued: it ends at the step that the rule names (R165, R214, R216,
R230, R242, R278, R293, R297, R299, R300). -/
def holdOf (i : Instr) (c : Ctx) : Option Hold :=
  match i with
  | .grow _ n => some (.grow n)
  | .waitc _ ld st tl => some (.waitc ld st tl)
  | .fence _ o sc => some (.fence o sc)
  | .qstate _ => some .qstate
  | .gwait _ a => some (.gwait (c.one32 a))
  | .fdefer _ a b n => some (.fdefer (c.rd true a 0) (c.one32 b) (c.one32 n) false false)
  | .taskPush _ prio a => some (.taskPush prio (c.one32 a).toNat)
  | .barWait _ hb =>
      (c.st.gangOf c.ag).bind fun g =>
        if (g.barrier hb).phase = g.warpMark hb c.ag.ident.widx then some (.barWait hb) else none
  | .setFree _ _ => if c.st.latigoRoom c.ag.die c.ag.ident.tenant then none else some .setFree
  | _ => none

/-- The system registers after an instruction that writes them (R6, R73, R199, R200, R303, R308, R325). -/
def sysOut (i : Instr) (c : Ctx) : Option Sys :=
  let y := c.ag.sys
  match i with
  | .swr _ reg a =>
      let w := c.one32 a
      some (match reg with
        | 0x000 => { y with fpmode := w &&& 0x13#32 }
        | 0x001 => { y with fpflags := w &&& 0x1F#32 }
        | 0x008 => { y with tcmp := (y.tcmp >>> 32).setWidth 32 ++ w }
        | 0x009 => { y with tcmp := w ++ y.tcmp.setWidth 32 }
        | 0x00C => { y with thandler := (y.thandler >>> 32).setWidth 32 ++ (w &&& 0xFFFFFFF8#32) }
        | 0x00D => { y with thandler := w ++ y.thandler.setWidth 32 }
        | 0x010 => { y with samp := w &&& 0x00F0FFFF#32, sampCount := 0 }
        | _ => y)
  | .rngOpen _ label =>
      some (if y.labels.length < 16 then { y with labels := label :: y.labels }
        else { y with excess := min (y.excess + 1) 65535, lovf := true })
  | .rngClose _ =>
      some (if y.excess > 0 then { y with excess := y.excess - 1 }
        else if y.labels = [] then { y with lovf := true } else { y with labels := y.labels.tail })
  | _ => none

/-! ## Work that an instruction leaves in flight -/

/-- A memory instruction of the operand log (R220): its kind, width, order and scope, its destination, the accesses of its
lanes as (lane, address, operand, second operand, target), the bytes that a flush has left, its class of sampling (R325),
and whether it is one atomic for several targets. -/
structure MemForm where
  kind : OpKind
  width : Nat
  order : Order
  scope : Scope
  dst : Option Opnd
  vector : Bool
  lanes : List (Nat × DWord × DWord × DWord × Word)
  qual : Qual
  samp : Nat
  rest : Nat
  single : Bool

/-- The memory instructions (R222 to R224, R226 to R229, R244). -/
def memForm (i : Instr) (c : Ctx) : Option MemForm :=
  match i with
  | .ld _ k o sc d a q off =>
      some ⟨.load k, LdKind.bytes k, o, sc, some d, Opnd.isV d,
        (c.addrsM (Opnd.isV d) a off (LdKind.bytes k)).map fun e => (e.1, e.2, 0#64, 0#64, 0#32), q, 20, 0, false⟩
  | .st _ w o sc d a q off =>
      some ⟨.store, StWidth.bytes w, o, sc, none, Opnd.isV d,
        (c.addrsM (Opnd.isV d) a off (StWidth.bytes w)).map fun e =>
          (e.1, e.2, c.rd (StWidth.bytes w == 8) d (c.srcLane (Opnd.isV d) e.1), 0#64, 0#32), q, 21, 0, false⟩
  | .gath _ k d a b off =>
      some ⟨.load k, LdKind.bytes k, .relaxed, .core, some d, true,
        (c.addrsG a b off (LdKind.bytes k)).map fun e => (e.1, e.2, 0#64, 0#64, 0#32), noQual, 20, 0, false⟩
  | .scat _ w d a b off =>
      some ⟨.store, StWidth.bytes w, .relaxed, .core, none, true,
        (c.addrsG a b off (StWidth.bytes w)).map fun e => (e.1, e.2, c.rd (StWidth.bytes w == 8) d e.1, 0#64, 0#32),
        noQual, 21, 0, false⟩
  | .atom _ op k o sc d a b =>
      let v := Opnd.isV a || Opnd.isV d || Opnd.isV b
      some ⟨.atom op k, AKind.bytes k, o, sc, some d, v,
        (c.atomAddrs a v).map fun e =>
          (e.1, e.2, c.atomVal k b (c.srcLane v e.1), c.casSecond op k b (c.srcLane v e.1), 0#32), noQual, 22, 0,
        false⟩
  | .red _ op k o sc a b =>
      let v := Opnd.isV a || Opnd.isV b
      some ⟨.red op k, AKind.bytes k, o, sc, none, v,
        (c.atomAddrs a v).map fun e => (e.1, e.2, c.atomVal k b (c.srcLane v e.1), 0#64, 0#32), noQual, 22, 0,
        false⟩
  | .redRet _ op k o sc d a b =>
      let v := Opnd.isV a || Opnd.isV d || Opnd.isV b
      some ⟨.redRet op k, AKind.bytes k, o, sc, none, v,
        (c.atomAddrs a v).map fun e =>
          (e.1, e.2, c.atomVal k b (c.srcLane v e.1), 0#64, c.rd32 d (c.srcLane v e.1)), noQual, 22, 0,
        v && !Opnd.isV a && !Opnd.isV b⟩
  | .cflush _ a b =>
      if c.one32 b = 0#32 then none
      else some ⟨.flush, 1, .relaxed, .core, none, false, [(lowLane c.act, c.rd true a 0, 0#64, 0#64, 0#32)], noQual, 31,
        (c.one32 b).toNat, false⟩
  | _ => none

/-- The registers that a destination takes: one, or a pair. -/
def destRegs (d : Opnd) (wide : Bool) : List Opnd :=
  match d with
  | .v n => if wide then [.v n, .v (n + 1)] else [.v n]
  | .s n => if wide then [.s n, .s (n + 1)] else [.s n]
  | .p n => [.p n]
  | _ => []

/-- Of two sampling states the second counts one instruction of the class more where `sys.samp` selects the class (R325). -/
def Sampled (bit : Nat) (old new : Sys) (smp : Bool) : Prop :=
  if old.samp.getLsbD bit = true ∧ old.samp.toNat % 65536 ≠ 0 then
    new = { old with sampCount := old.sampCount + 1 } ∧ smp = decide ((old.sampCount + 1) % (old.samp.toNat % 65536) = 0)
  else new = old ∧ smp = false

/-- A buffer access (R225): whether it stores, its kind and buffer, its destination, and its lanes as (lane, offset,
value). -/
structure BufForm where
  store : Bool
  kind : LdKind
  buf : Buf
  dst : Option Opnd
  vector : Bool
  lanes : List (Nat × Nat × DWord)

def bufForm (i : Instr) (c : Ctx) : Option BufForm :=
  match i with
  | .ldb _ k b d a off =>
      some ⟨false, k, b, some d, Opnd.isV d,
        (c.bufOffs (Opnd.isV d) a off (LdKind.bytes k)).map fun e => (e.1, e.2, 0#64)⟩
  | .stb _ w b d a off =>
      some ⟨true, kindOfBytes (StWidth.bytes w), b, none, Opnd.isV d,
        (c.bufOffs (Opnd.isV d) a off (StWidth.bytes w)).map fun e =>
          (e.1, e.2, c.rd (StWidth.bytes w == 8) d (c.srcLane (Opnd.isV d) e.1))⟩
  | _ => none

/-- An accepted copy: its kind, buffer offset, global address, bytes and token register (R232). -/
def copyOf (i : Instr) (c : Ctx) : Option (CopyKind × Qual × Nat × DWord × Nat × Nat × Bool) :=
  match i with
  | .copyAbuf _ q d a n tok =>
      some (.abuf, q, (c.one32 d).toNat, c.rd true a 0, (c.one32 n).toNat, Opnd.num tok, false)
  | .copyWbuf _ q d a n tok =>
      some (.wbuf, q, (c.one32 d).toNat, c.rd true a 0, (c.one32 n).toNat, Opnd.num tok, false)
  | .copyMc _ q d a n tok =>
      some (.mc, q, (c.one32 d).toNat, c.rd true a 0, (c.one32 n).toNat, Opnd.num tok, false)
  | .copyOut _ cb q d a n tok =>
      some (.out cb, q, (c.one32 a).toNat, c.rd true d 0, (c.one32 n).toNat, Opnd.num tok, true)
  | .copyQ _ q d a b tok =>
      if c.storesPend then none
      else
        (QDesc.ofWords (c.blockWord (c.rd32 (.s (Opnd.num b + 1)) 0).toNat)).bind fun e =>
          if rangeOk c.header c.ways (if e.wbuf then .wbuf else .abuf) (c.one32 d).toNat
              ((c.one32 b).toNat / typeBytes e.st * typeBytes e.dt) then
            some (.quant e.wbuf e.lb e.rm e.dt e.st e.scl, q, (c.one32 d).toNat, c.rd true a 0, (c.one32 b).toNat,
              Opnd.num tok, false)
          else none
  | _ => none

/-- An accepted tooling command: its kind, buffer, offset, length and token register (R237, R238). -/
def toolOf (i : Instr) (c : Ctx) : Option (ToolKind × Buf × Nat × Nat × Nat) :=
  match i with
  | .toolXpose _ buf d a b tok =>
      if (c.one32 b).toNat < 3 then some (.xpose (c.one32 b).toNat, buf, (c.one32 d).toNat, (c.one32 a).toNat, Opnd.num tok)
      else none
  | .toolCvt _ buf d a b tok =>
      (cvtKind (c.one32 b).toNat).map fun k => (k.1, buf, (c.one32 d).toNat, (c.one32 a).toNat, Opnd.num tok)
  | .toolZero _ buf d a _ tok => some (.zero, buf, (c.one32 d).toNat, (c.one32 a).toNat, Opnd.num tok)
  | .toolRsum _ buf d a b tok =>
      some (.rsum (c.one32 b).toNat, buf, (c.one32 d).toNat, (c.one32 a).toNat, Opnd.num tok)
  | .toolQuant _ buf d a b tok =>
      if c.storesPend then none
      else
        (QDesc.ofWords (c.blockWord (c.one32 b).toNat)).map fun e =>
          (.quant e.lb e.rm e.dt e.st e.scl, buf, (c.one32 d).toNat, (c.one32 a).toNat, Opnd.num tok)
  | _ => none

/-- An accepted command of class 3: its kind, frame, handles and the register that waits for it (R247, R257 to R270). -/
def cmdOf (i : Instr) (c : Ctx) : Option (CmdKind × CmdFrame × List (Option Tile) × List Opnd) :=
  let block := fun (f : CmdFrame) (d : Opnd) (parse : Ctx → (Nat → Nat) → Parse × List (Option Tile)) =>
    if c.storesPend then none
    else
      match parse c (c.blockWord (c.one32 d).toNat) with
      | (.inl _, _) => none
      | (.inr k, tiles) => some (k, f, tiles, [])
  match i with
  | .ldst _ arr f d => block f d (parseLdst arr)
  | .cbtload _ tbl f d => block f d (parseCbtload tbl)
  | .mswap _ arr f => some (.mswap arr, f, [], [])
  | .mstream _ arr f d => block f d (parseMstream arr)
  | .mop _ f d => block f d parseMop
  | .mzero _ f d => block f d parseMzero
  | .chainCfg _ f d => block f d parseChainCfg
  | .chainStep _ f d => some (.chainStep (c.one32 d).toNat, f, [], [])
  | .chainRun _ f d => some (.chainRun (c.one32 d).toNat (Opnd.num d), f, [], [d])
  | _ => none

/-- A set instruction at its engine: the lanes' keys, the handles, the address, the count, and the registers that wait for it
(R274 to R283). -/
def setOf (i : Instr) (c : Ctx) : Option (List (Nat × Word) × Word × Word × Word × DWord × Word × List Opnd) :=
  match i with
  | .setNew _ d => some ([], 0#32, 0#32, 0#32, 0#64, 0#32, [d])
  | .setFree _ a =>
      if c.st.latigoRoom c.ag.die c.ag.ident.tenant then some ([], c.one32 a, 0#32, 0#32, 0#64, 0#32, []) else none
  | .setIns _ wr d a b | .setDel _ wr d a b =>
      some (c.setKeys b, c.one32 a, 0#32, 0#32, 0#64, 0#32, if wr then [d] else [])
  | .setHas _ d a b => some (c.setKeys b, c.one32 a, 0#32, 0#32, 0#64, 0#32, [d])
  | .setCard _ d a => some ([], c.one32 a, 0#32, 0#32, 0#64, 0#32, [d])
  | .setOr _ a b x | .setAnd _ a b x | .setSub _ a b x =>
      some ([], c.one32 a, c.one32 b, c.one32 x, 0#64, 0#32, [])
  | .setIn _ a b x => some ([], c.one32 a, 0#32, 0#32, c.rd true b 0, c.one32 x, [])
  | .setOut _ d a b x => some ([], c.one32 a, 0#32, 0#32, c.rd true b 0, c.one32 x, [d])
  | .setIter _ d a x => some ([], c.one32 a, 0#32, 0#32, 0#64, c.one32 x, [d, x])
  | .setHint _ _ a | .setHintNone _ a => some ([], c.one32 a, 0#32, 0#32, 0#64, 0#32, [])
  | _ => none

/-- The mode, destination, base pair and hop counts of a walk (R239). -/
def walkOf : Instr → Option (Nat × Opnd × Opnd × Opnd × Opnd)
  | .chaseLink _ d a b h => some (0, d, a, b, h)
  | .chaseIndex _ d a b h => some (1, d, a, b, h)
  | .chaseSample _ d a b h => some (2, d, a, b, h)
  | _ => none

/-! ## What comes of a step of the part -/

/-- Two states differ at most in the bookkeeping of reads and writes at the home slices: the L2's lines, the requests to HBM
and their numbers. -/
def SameButHomes (s t : State) : Prop := ∃ l2 hbm sent, t = { s with l2 := l2, hbm := hbm, sent := sent }

/-- Two states differ at most by what a walk leaves: entries of the TLBs, and its requests at the home slices. -/
def SameButWalks (s t : State) : Prop :=
  (∃ cores dies l2 hbm sent, t = { s with cores := cores, dies := dies, l2 := l2, hbm := hbm, sent := sent }) ∧
  (∀ k, t.core k = { s.core k with tlb := (t.core k).tlb }) ∧ ∀ d, t.die d = { s.die d with tlb := (t.die d).tlb }

/-- Of the two states only agent a differs, which has become y. -/
def AgentBecomes (s t : State) (a : Nat) (y : Agent) : Prop :=
  t = { s with agents := t.agents } ∧ t.agent? a = some y ∧ ∀ k, k ≠ a → t.agent? k = s.agent? k

/-- The results of instruction `id` come to the registers of its destination that still wait for it, in the lanes of the
mask, with their marks, a scalar destination taking `sv` where a lane is left; they wait no more. No other register, lane or
mark changes, and nothing else of the agent (R99, R221, R317). -/
def Delivered (id : Nat) (d : Option Opnd) (wide : Bool) (m marks : Lanes) (val : Nat → DWord) (sv : DWord) (x y : Agent) :
    Prop :=
  let waits := fun r => x.flight.waits r id = true
  (match d with
    | some (.v n) =>
      (∀ k l, l < 32 → y.regs.vlane k l =
        if m.getLsbD l = true ∧ k = n ∧ waits (.v n) then (val l).setWidth 32
        else if m.getLsbD l = true ∧ wide = true ∧ k = n + 1 ∧ waits (.v (n + 1)) then ((val l) >>> 32).setWidth 32
        else x.regs.vlane k l) ∧
      (∀ k l, (kgetD 0#32 y.regs.vMark k).getLsbD l =
        if m.getLsbD l = true ∧ (k = n ∧ waits (.v n) ∨ wide = true ∧ k = n + 1 ∧ waits (.v (n + 1))) then marks.getLsbD l
        else (kgetD 0#32 x.regs.vMark k).getLsbD l) ∧
      y.regs.s = x.regs.s ∧ y.regs.sMark = x.regs.sMark
    | some (.s n) =>
      (∀ k, y.regs.sreg k =
        if m ≠ 0#32 ∧ k = n ∧ waits (.s n) then sv.setWidth 32
        else if m ≠ 0#32 ∧ wide = true ∧ k = n + 1 ∧ waits (.s (n + 1)) then (sv >>> 32).setWidth 32
        else x.regs.sreg k) ∧
      (∀ k, k < 256 → y.regs.sMark.getLsbD k =
        if m ≠ 0#32 ∧ (k = n ∧ waits (.s n) ∨ wide = true ∧ k = n + 1 ∧ waits (.s (n + 1))) then decide (marks ≠ 0#32)
        else x.regs.sMark.getLsbD k) ∧
      y.regs.v = x.regs.v ∧ y.regs.vMark = x.regs.vMark
    | _ => y.regs = x.regs) ∧
  y.regs.alloc = x.regs.alloc ∧ y.regs.p = x.regs.p ∧
  y.flight.pend = x.flight.pend.filter (fun e => e.2 != id) ∧
  y.ident = x.ident ∧ y.place = x.place ∧ y.ctl = x.ctl ∧ y.sys = x.sys ∧ y.eng = x.eng ∧ y.recs = x.recs

/-- The lanes of a mask of one memory instruction of an agent have changed by f, and nothing else of the agent. -/
def lanesMoved (x : Agent) (id : Nat) (m : Lanes) (f : LaneOp → LaneOp) : Agent :=
  { x with flight := { x.flight with ops := x.flight.ops.map fun q =>
      if q.id = id then { q with lanes := q.lanes.map fun l => if m.getLsbD l.lane then f l else l } else q } }

/-- What a lane of a load reads where `source` says that it is served (R94, R118, R221). -/
def loadLane (s : State) (x : Agent) (p : Place) (o : MemOp) (l : LaneOp) : LaneOp :=
  let r := s.readLane x.flight o l ((s.source p.core o l).getD none)
  { l with st := .done, val := r.1, mark := r.2 }

/-- The lanes of an instruction that have performed, their values in the register's form, and their marks. -/
def doneLanes (o : MemOp) : Lanes :=
  maskOf fun i => o.lanes.any fun l => l.lane == i && match l.st with | .done | .drained => true | _ => false
def laneValues (o : MemOp) (i : Nat) : DWord := ((o.lanes.find? fun l => l.lane == i).map o.result).getD 0#64
def laneMarks (o : MemOp) : Lanes := maskOf fun i => o.lanes.any fun l => l.lane == i && l.mark

/-- What a scalar destination takes: the value of the one lane that performed; free where several may, which the manual leaves
open (R227, log 91). -/
def scalarValue (s : State) (o : MemOp) : DWord :=
  if o.openDst then Config.freeDWord s.free else laneValues o (lowLane (doneLanes o))

/-- The memory and the rings of t are those of s after the sample of a completed instruction (R325). -/
def SampleTaken (s t : State) (x : Agent) (o : MemOp) : Prop :=
  ∃ (s0 : State) (z : Agent), s0.mem = s.mem ∧ s0.tenants = s.tenants ∧ s0.gangs = s.gangs ∧ z.ident = x.ident ∧ z.place = x.place ∧ z.sys = x.sys ∧
    t.mem = (s0.sampleOf z o.born o.pc o.act (o.lanes.map fun l => (l.va.toNat, o.width))).mem ∧
    t.tenants = (s0.sampleOf z o.born o.pc o.act (o.lanes.map fun l => (l.va.toNat, o.width))).tenants

/-- The lanes of an atomic of a mask as they perform, one after the other in lane order, and what each lane then holds: one
operation for all where the instruction is one atomic for several targets (R226, R227, R229). -/
def atomResults (s : State) (p : Place) (o : MemOp) (op : AOp) (k : AKind) (m : Lanes) : List LaneOp :=
  let mine := o.lanes.filter fun l => m.getLsbD l.lane
  let l1 := (s.core p.core).l1
  let line := fun key => kgetD ⟨0, 0, 0⟩ l1 (key / 64)
  atomRun op k
    (fun key =>
      if o.isCoreAtomic then
        BitVec.ofNat 64 ((line key).data.toNat / 2 ^ (8 * (key % 64)) % 2 ^ (8 * o.width))
      else BitVec.ofNat 64 (s.le key o.width))
    (fun key => if o.isCoreAtomic then (line key).marks.getLsbD (key % 64 / 32) else s.marked key o.width)
    (if o.single then mine.take 1 else mine) []

def atomLane (s : State) (r : List LaneOp) (o : MemOp) (l : LaneOp) : LaneOp :=
  let q := ((if o.single then r.head? else r.find? fun q => q.lane == l.lane)).getD l
  if o.isCoreAtomic then { l with st := .drained, stamp := s.sent, val := q.val, y := q.y, mark := q.mark }
  else { l with st := .done, val := q.val, mark := q.mark }

/-- The lines of an L1 that hold these bytes take them, and every other line stays. -/
def LinesTake (cells : List (Nat × Byte)) (old new : KMap L1Line) : Prop :=
  ∀ line, kget new line = (kget old line).map fun e => if cells.any fun c => c.1 / 64 == line then e.put line cells else e

/-- The tenant does not trace (R324), so that an engine's start and end write no record. -/
def Untraced (s : State) (tenant : Nat) : Prop := ((s.tenant tenant).reg 0).getLsbD 1 = false

/-- A command's status has come to its token register, if that still waited for it (R99, R131): info above the status byte,
no mark, and for a command to global memory a token that acquires. No other register of the issuer changes. -/
def TokenGiven (s u : State) (a reg after status info : Nat) (glob : Bool) : Prop :=
  (∀ k, k ≠ a → u.agent? k = s.agent? k) ∧
  ∀ x, s.agent? a = some x → ∃ y, u.agent? a = some y ∧ y.regs.v = x.regs.v ∧ y.regs.p = x.regs.p ∧ y.ctl = x.ctl ∧
    (∀ k, y.regs.sreg k = if k = reg ∧ x.flight.waits (.s reg) after = true
      then BitVec.ofNat 32 (min info 16777215 * 256 + status) else x.regs.sreg k) ∧
    (x.flight.waits (.s reg) after = true → y.flight.waits (.s reg) after = false ∧
      (glob = true → reg ∈ y.flight.tokens))

/-- A copy has left its core with this status (R233). -/
def CopyEnds (s u : State) (core : Nat) (k : Copy) (status info : Nat) : Prop :=
  (∀ j, j ∈ (u.core core).copies ↔ j ∈ (s.core core).copies ∧ j.id ≠ k.id) ∧
  TokenGiven s u k.agent k.token k.after status info (match k.kind with | .out _ => true | _ => false)

/-- A tooling command has left its core with this status (R238). -/
def ToolEnds (s u : State) (core : Nat) (k : Tool) (status info : Nat) : Prop :=
  (∀ j, j ∈ (u.core core).tools ↔ j ∈ (s.core core).tools ∧ j.id ≠ k.id) ∧
  TokenGiven s u k.agent k.token k.after status info false

/-- The report of a command that a breakpoint holds (R314, R323): code 12, the command's number, and the record laid out then
(log 65). -/
def HeldReport (s : State) (x : Agent) (seq : Word) (r : Report) : Prop :=
  r.code = 12 ∧ r.seq = seq ∧ r.time = s.time ∧ r.tag = s.tagOf x ∧
    r.laid = some (s.agentRecord x s.time (Config.freeDWord s.free).toNat 0 12 false false 0 255 seq.toNat r.engine)

/-- A chunk of a copy has moved: with a bad source the copy ends with status 3, at its last chunk with 0, or 4 and the count
where values were saturated; else the next chunk follows (R233, R236). -/
def CopyMoves (s u : State) (core : Nat) (k : Copy) (sat : Nat) (bad : Bool) : Prop :=
  if bad then CopyEnds s u core k 3 k.chunk
  else if k.dstBytes ≤ (k.chunk + 1) * 4096 then CopyEnds s u core k (if k.sat + sat > 0 then 4 else 0) (k.sat + sat)
  else u.agents = s.agents ∧ (u.copy? core k.id).map (fun j => (j.chunk, j.sat)) = some (k.chunk + 1, k.sat + sat)

/-- What one chunk of a tooling command writes (R238): the cells, the range that a bad source marks, and the saturations. A
quantise takes its scales from the bytes given. -/
def toolCells (k : Tool) (scales src : List Byte) : List (Nat × Byte) × Nat × Nat × Nat :=
  let lo := 4096 * k.chunk
  let len := min 4096 (k.len - lo)
  let off := k.off + lo
  match k.kind with
  | .zero => (cellsAt off (src.map fun _ => 0#8), off, len, 0)
  | .xpose z => (cellsAt off (transposeAll (2 ^ z) (len / (1024 * 2 ^ z)) src), off, len, 0)
  | .rsum row => (rowSums row (len / (4 * row)) off src, off, len, 0)
  | .cvt st dt rm =>
    let d := k.off + lo / typeBytes st * typeBytes dt
    (cellsAt d (convertRun st dt rm (len / typeBytes st) src), d, len / typeBytes st * typeBytes dt, 0)
  | .quant lb rm dt st _ =>
    let n := len / typeBytes st
    let e0 := lo / typeBytes st
    let r := quantRun st dt rm lb e0 (fun b => scales.getD (b - e0 / 2 ^ lb) 0#8) src n
    (cellsAt (k.off + e0 * typeBytes dt) r.1, k.off + e0 * typeBytes dt, r.1.length, r.2)

/-- A command has been counted and has left its core, its effects at the end in the order of R250: the index of a run has come
to its register, the status has arrived at the barrier of its frame, and it has been counted in its slot, with those ended
before it, when it stands at the head of its slot's order (R248, R250, R270, R271). -/
def CmdCompletes (s u : State) (core : Nat) (k : Cmd) (st : Word) : Prop :=
  (k.frame.ss = none → ∀ j, j ∈ (u.core core).cmds ↔ j ∈ (s.core core).cmds ∧ j.id ≠ k.id) ∧
  (∀ g, s.gang? k.gang = some g →
    ∃ h, u.gang? k.gang = some h ∧
      (∀ b, k.frame.bar = some b → h.barrier b = ((g.barrier b).take (.orArrive st)).1 ∧
        h.flips = g.flips ++ (if ((g.barrier b).take (.orArrive st)).2 then
          (List.range g.cores.length).map fun p => (p, b) else [])) ∧
      (k.frame.bar = none → h.bars = g.bars ∧ h.flips = g.flips) ∧
      (k.frame.ss = none → h.slots = g.slots) ∧
      (∀ j, k.frame.ss = some j →
        (∀ i ∈ (s.core core).cmds, i.gang = k.gang → i.pos = k.pos → i.frame.ss = some j → i.id = k.id) →
        (s.core core).cmds.filter (fun i => decide (i.id = k.id)) = [k] →
        (h.slot k.pos j).done = ((g.slot k.pos j).done + 1) % 65536 ∧ (h.slot k.pos j).acc = (g.slot k.pos j).acc ∧
        (∀ m, m ∈ (u.core core).cmds ↔ m ∈ (s.core core).cmds ∧ m.id ≠ k.id))) ∧
  (∀ x, s.agent? k.agent = some x → ∃ y, u.agent? k.agent = some y ∧ y.ctl = x.ctl ∧ y.regs.v = x.regs.v ∧
    (st &&& 0x80#32 = 0#32 → y.sys = x.sys) ∧
    (∀ f reg, k.kind = .chainRun f reg →
      (x.flight.waits (.s reg) k.after = true → y.regs.sreg reg = BitVec.ofNat 32 k.cursor) ∧
      (st &&& 0x80#32 ≠ 0#32 → y.sys.causes = x.sys.causes ++ [.chainovf true reg])) ∧
    (∀ i, k.kind = .chainStep i → st &&& 0x80#32 ≠ 0#32 → y.sys.causes = x.sys.causes ++ [.chainovf false 0]))

end Sys2Proof.Claim

open Sys2Proof Sys2Proof.Machine Sys2Proof.Claim

/-! # What holds of every instruction word -/

/-- R152: the fields' checks come first and in this order, whatever the guards: a register number that its field does not
admit is ILL (code 4), a code that the field does not accept ILLOP (5), a vector register at or above the allotment REGB
(6). The agent stops and nothing else changes. -/
def Sys2Proof.Claim.IllegalFieldsFaultInOrder : Prop :=
  ∀ (i : Instr) (F : Form) (s : State) (c : Ctx), formOf i = some F → Ctx.of s F.g = some c →
    ((∃ u ∈ F.us, u.odd = true) → exec i s = .next (stopped c (flt 4))) ∧
    ((∀ u ∈ F.us, u.odd = false) → (∃ u ∈ F.us, u.acc.ok u.op = false) → exec i s = .next (stopped c (flt 5))) ∧
    ((∀ u ∈ F.us, u.odd = false) → (∀ u ∈ F.us, u.acc.ok u.op = true) → (∃ u ∈ F.us, u.beyond c.ag.regs.alloc = true) →
      exec i s = .next (stopped c (flt 6)))

/-- R219, R152: the checks that hang on no operand value follow, whatever the guards, and then those that do, over the
active lanes: each stops the agent precisely and nothing else of the instruction happens. -/
def Sys2Proof.Claim.OwnChecksFaultPrecisely : Prop :=
  ∀ (i : Instr) (F : Form) (s : State) (c : Ctx) (f : Flt), formOf i = some F → Ctx.of s F.g = some c →
    checkUses c.ag.regs.alloc F.us = none →
    (F.pre c = some f → exec i s = .next (stopped c f)) ∧
    (F.pre c = none → pending c.ag.flight (guardUses F.g ++ F.us) = false → c.act ≠ 0#32 →
      poisonLanes c.ag.regs c.act F.us = 0#32 → F.post (c.acquireTokens F.us) = some f →
      exec i s = .next (stopped c f))

/-- R99, R34: an instruction that names a register still to be written waits at issue, and nothing else happens but that
the agent keeps since when it waits on the token of a copy or tooling command, where it does. -/
def Sys2Proof.Claim.PendingRegisterWaits : Prop :=
  ∀ (i : Instr) (F : Form) (s : State) (c : Ctx), formOf i = some F → Ctx.of s F.g = some c →
    checkUses c.ag.regs.alloc F.us = none → F.pre c = none → pending c.ag.flight (guardUses F.g ++ F.us) = true →
    exec i s = .next (stalledFrom c
      (if c.st.onToken c.key c.ag.flight (guardUses F.g ++ F.us) then some (c.ag.ctl.waitSince.getD c.st.time) else none))

/-- R145: where no lane of the run has a guard of 1 the lanes advance past the instruction, and nothing else happens. -/
def Sys2Proof.Claim.GuardedOffOnlyAdvances : Prop :=
  ∀ (i : Instr) (F : Form) (s : State) (c : Ctx), formOf i = some F → Ctx.of s F.g = some c →
    checkUses c.ag.regs.alloc F.us = none → F.pre c = none → pending c.ag.flight (guardUses F.g ++ F.us) = false →
    c.act = 0#32 →
    ∃ p, PcsAdvanced c.run F.size c.ag.ctl.pcs p ∧
      exec i s = .next (withAgent c { c.ag with ctl := { c.ag.ctl with pcs := p } })

/-- R317: an instruction that would consume a marked register in an active lane stops with POISON (code 9) at the lowest
such lane, and has no effect. -/
def Sys2Proof.Claim.MarkedRegisterFaults : Prop :=
  ∀ (i : Instr) (F : Form) (s : State) (c : Ctx), formOf i = some F → Ctx.of s F.g = some c →
    checkUses c.ag.regs.alloc F.us = none → F.pre c = none → pending c.ag.flight (guardUses F.g ++ F.us) = false →
    c.act ≠ 0#32 → poisonLanes c.ag.regs c.act F.us ≠ 0#32 →
    exec i s = .next (stopped c ⟨9, 0#64, lowLane (poisonLanes c.ag.regs c.act F.us), false, false⟩)

/-- A register still to be written makes the issue wait, a guard of 0 skips, a marked register faults. -/
def Obligations.IssueWaitsAndSkips : Prop :=
  Claim.PendingRegisterWaits ∧ Claim.GuardedOffOnlyAdvances ∧ Claim.MarkedRegisterFaults

/-- R131: the first read of a token register acquires: the L1 of the agent's core is emptied, the registers read are tokens
no more, and no other core, byte, register or PC changes. -/
def Obligations.TokenReadAcquires : Prop :=
  ∀ (i : Instr) (F : Form) (s : State) (c : Ctx), formOf i = some F → Runs s F c →
    (∃ c0, Ctx.of s F.g = some c0 ∧
      (∀ n, n ∈ c.ag.flight.tokens ↔ n ∈ c0.ag.flight.tokens ∧ ¬ ∃ u ∈ F.us, Opnd.s n ∈ u.regList) ∧
      ((∃ n ∈ c0.ag.flight.tokens, ∃ u ∈ F.us, Opnd.s n ∈ u.regList) → (c.st.core c.ag.core).l1 = []) ∧
      ((∀ n ∈ c0.ag.flight.tokens, ∀ u ∈ F.us, Opnd.s n ∉ u.regList) → c.st = s) ∧
      (∀ k, k ≠ c.ag.core → c.st.core k = s.core k) ∧ SameBytes s c.st ∧
      c.ag.regs = c0.ag.regs ∧ c.ag.ctl = c0.ag.ctl ∧ c.ag.sys = c0.ag.sys ∧ c.act = c0.act ∧ c.run = c0.run)

/-- R152, R153, R313: a word that is no instruction stops its agent with ILL and changes nothing else. -/
def Sys2Proof.Claim.UnassignedWordIsIllegal : Prop :=
  ∀ (w0 w1 : DWord) (s : State) (c : Ctx), Ctx.of s ⟨none, false⟩ = some c →
    exec (.unassignedWord w0 w1) s = .next (stopped c (flt 4)) ∧ SameBytes s (stopped c (flt 4))

/-- The issue checks of an instruction stop its agent precisely, in their order. -/
def Obligations.IssueChecks : Prop :=
  Claim.IllegalFieldsFaultInOrder ∧ Claim.OwnChecksFaultPrecisely ∧ Claim.UnassignedWordIsIllegal

/-! # Vector, predicate and scalar results -/

/-- R163: a vector instruction that runs writes its destination in the lanes of its mask, raises its flags, advances the
run, and changes nothing else. -/
def Sys2Proof.Claim.VectorResults : Prop :=
  ∀ (i : Instr) (F : Form) (s : State) (c : Ctx) (o : VecOut), formOf i = some F → Runs s F c → vecOut i c = some o →
    ∃ r p t, exec i s = .next t ∧
      t = withAgent c { c.ag with
        regs := r, ctl := { c.ag.ctl with pcs := p }, sys := { c.ag.sys with fpflags := c.ag.sys.fpflags ||| o.flags } } ∧
      LanesWritten o.mask o.num o.wide o.val c.ag.regs r ∧ PcsAdvanced c.run F.size c.ag.ctl.pcs p ∧ SameBytes s t

/-- R171, R173: a compare that runs writes its predicate in the active lanes, raises its flags, advances the run, and
changes nothing else. -/
def Sys2Proof.Claim.CompareResults : Prop :=
  ∀ (i : Instr) (F : Form) (s : State) (c : Ctx) (d : Opnd) (f : Nat → Bool) (fl : Word), formOf i = some F →
    Runs s F c → predOut i c = some (d, f, fl) →
    ∃ r p t, exec i s = .next t ∧
      t = withAgent c { c.ag with
        regs := r, ctl := { c.ag.ctl with pcs := p }, sys := { c.ag.sys with fpflags := c.ag.sys.fpflags ||| fl } } ∧
      PredWritten c.act (Opnd.num d) f c.ag.regs r ∧ PcsAdvanced c.run 8 c.ag.ctl.pcs p ∧ SameBytes s t

/-- R197: an instruction with a scalar destination that runs writes it once for the warp, raises its flags, advances the
run, and changes nothing else. -/
def Sys2Proof.Claim.ScalarResults : Prop :=
  ∀ (i : Instr) (F : Form) (s : State) (c : Ctx) (o : ScaOut), formOf i = some F → Runs s F c → scaOut i c = some o →
    ∃ r p t, exec i s = .next t ∧
      t = withAgent c { c.ag with
        regs := r, ctl := { c.ag.ctl with pcs := p }, sys := { c.ag.sys with fpflags := c.ag.sys.fpflags ||| o.flags } } ∧
      ScalarWritten o.num o.wide o.val c.ag.regs r ∧ PcsAdvanced c.run F.size c.ag.ctl.pcs p ∧ SameBytes s t

/-- Instructions with a vector, predicate or scalar result write it and nothing else. -/
def Obligations.ResultsAreWritten : Prop :=
  Claim.VectorResults ∧ Claim.CompareResults ∧ Claim.ScalarResults

/-! # Control -/

/-- R202 to R204: a branch that runs moves its lanes to their targets and the rest of the run past it, and changes nothing
else. -/
def Sys2Proof.Claim.BranchesMoveTheirLanes : Prop :=
  ∀ (i : Instr) (F : Form) (s : State) (c : Ctx) (m : Lanes) (tgt : Nat → DWord), formOf i = some F → Runs s F c →
    jumpOf i c = some (m, tgt) →
    ∃ p t, exec i s = .next t ∧ t = withAgent c { c.ag with ctl := { c.ag.ctl with pcs := p } } ∧
      PcsJumped c.run m 8 tgt c.ag.ctl.pcs p ∧ SameBytes s t

/-- R205: `brx` moves each active lane by the table entry that it reads through the instruction cache: a signed count of
words from the instruction itself. -/
def Sys2Proof.Claim.IndexedBranchReadsItsTable : Prop :=
  ∀ (g : Guard) (a : Opnd) (off : Int) (F : Form) (s : State) (c : Ctx) (v : Nat → Nat), formOf (.brx g a off) = some F →
    Runs s F c →
    (∀ l, c.act.getLsbD l = true →
      TableAt c.st c.place c.ag.ident.tenant (c.pc + BitVec.ofInt 64 (8 * off) + BitVec.ofNat 64 (4 * (c.rd32 a l).toNat))
        (v l)) →
    ∃ p t, exec (.brx g a off) s = .next t ∧ t = withAgent c { c.ag with ctl := { c.ag.ctl with pcs := p } } ∧
      PcsJumped c.run c.act 8 (fun l => c.pc + 8#64 * (BitVec.ofNat 32 (v l)).signExtend 64) c.ag.ctl.pcs p ∧ SameBytes s t

/-- R205: where an active lane may not fetch its table entry and every active lane below it reads its own, the instruction stops
with that fault, at the address of the entry, and nothing else changes. -/
def Sys2Proof.Claim.IndexedBranchFaultsAtItsTable : Prop :=
  ∀ (g : Guard) (a : Opnd) (off : Int) (F : Form) (s : State) (c : Ctx) (v : Nat → Nat) (k code : Nat),
    formOf (.brx g a off) = some F → Runs s F c →
    let entry := fun l => c.pc + BitVec.ofInt 64 (8 * off) + BitVec.ofNat 64 (4 * (c.rd32 a l).toNat)
    (∀ l, l < k → c.act.getLsbD l = true → TableAt c.st c.place c.ag.ident.tenant (entry l) (v l)) →
    c.act.getLsbD k = true → Unmapped c.st c.place.core c.ag.ident.tenant (entry k) .fetch code →
    exec (.brx g a off) s = .next (stopped c ⟨code, entry k, k, false, true⟩)

/-- Branches move the lanes that take them, and change nothing else; an entry of a branch table that may not be fetched is a
fault. -/
def Obligations.BranchesMoveLanes : Prop :=
  Claim.BranchesMoveTheirLanes ∧ Claim.IndexedBranchReadsItsTable ∧ Claim.IndexedBranchFaultsAtItsTable

/-- R38 to R40, R206, R207: a call whose targets and continuation have headers, whose record fits the slab and saves no
register that waits, leaves the caller holding a slot for its continuation, with a record of what it saves, and queues one
task for each distinct target with the scalars and predicates of the caller. -/
def Obligations.CallQueuesTasks : Prop :=
  ∀ (i : Instr) (F : Form) (s : State) (c : Ctx) (nsave : Nat) (tgt : Nat → DWord) (cont : Int) (b : Nat → Nat) (bc : Nat),
    formOf i = some F → Runs s F c →
    ((∃ g off, i = .callDirect g nsave off cont ∧ tgt = fun _ => c.pc + BitVec.ofInt 64 (8 * off)) ∨
     (∃ g a, i = .callRegister g nsave a cont ∧ tgt = c.rd true a)) →
    (∀ l, c.act.getLsbD l = true → HeaderAt c.st c.place c.ag.ident.tenant (tgt l) (b l)) →
    HeaderAt c.st c.place c.ag.ident.tenant (c.pc + BitVec.ofInt 64 (8 * cont)) bc →
    c.st.slabUsed c.ag.ident.root + (1 + (nsave - 32 + 63) / 64 + (if ~~~c.ag.ctl.ended &&& ~~~c.act = 0#32 then 0 else 1))
      ≤ c.ag.slab →
    callWaits c.ag.flight nsave = false → c.key < c.st.nextKey →
    ∃ t x r, exec i s = .next t ∧ SameBytes s t ∧ t.agent? c.key = some x ∧
      x.ctl.hold = .held r.id ∧ x.recs = c.ag.recs ++ [r] ∧
      x.regs = { alloc := 0, v := [], vMark := [], s := [], sMark := 0#256, p := [] } ∧
      PcsAdvanced (c.run &&& ~~~c.act) 16 c.ag.ctl.pcs x.ctl.pcs ∧
      r.cont = c.pc + BitVec.ofInt 64 (8 * cont) ∧ r.nsave = nsave ∧ r.lanes = c.act ∧ r.preds = c.ag.regs.p ∧
      r.others = ~~~c.ag.ctl.ended &&& ~~~c.act ∧ r.budget = bc ∧ r.caller = c.key ∧ r.flags = 0#32 ∧
      (∀ n, n < nsave → kgetD 0#32 r.scalars n = c.ag.regs.sreg n) ∧
      r.join = (((lanesOf c.act).map fun l => (tgt l).toNat).dedup).length ∧
      (∀ l, c.act.getLsbD l = true → ∃ k y, t.agent? k = some y ∧ k ≠ c.key ∧ y.task = true ∧ y.queued = true ∧
        y.place = none ∧ y.ident.caller = c.key ∧ y.ident.record = r.id ∧ y.ident.root = c.ag.ident.root ∧
        y.regs.s = c.ag.regs.s ∧ y.regs.sMark = c.ag.regs.sMark ∧ y.regs.p = c.ag.regs.p ∧ y.regs.v = [] ∧
        y.regs.alloc = b l * 32 ∧ y.ctl.pc l = tgt l ∧
        (∀ j, j < 32 → y.ctl.ended.getLsbD j = !(c.act.getLsbD j && decide (tgt j = tgt l))))

/-- R208, R209: `exit` and `ret` end their active lanes and move the rest of the run on. An agent with lanes left is
otherwise unchanged; one with none left ends: its vector registers and its allotment are free, and a task's end counts down
the record of its caller and hands it the flags. -/
def Obligations.EndsOfLanesAndAgents : Prop :=
  ∀ (i : Instr) (F : Form) (s : State) (c : Ctx) (g : Guard), formOf i = some F → Runs s F c → (i = .exit g ∨ i = .ret g) →
    (c.ag.ctl.ended ||| c.act ≠ 0xFFFFFFFF#32 →
      ∃ p t, exec i s = .next t ∧
        t = withAgent c { c.ag with ctl := { c.ag.ctl with pcs := p, ended := c.ag.ctl.ended ||| c.act } } ∧
        PcsAdvanced (c.run &&& ~~~c.act) 8 c.ag.ctl.pcs p ∧ SameBytes s t) ∧
    (c.ag.ctl.ended ||| c.act = 0xFFFFFFFF#32 → (c.ag.task = true → c.ag.ident.caller ≠ c.key) →
      ∃ t x, exec i s = .next t ∧ SameBytes s t ∧ t.agent? c.key = some x ∧ x.ctl.hold = .ended false ∧
        x.ctl.ended = 0xFFFFFFFF#32 ∧ x.regs = { c.ag.regs with alloc := 0, v := [], vMark := [] } ∧
        (∀ a, a ≠ c.key → (c.ag.task = true → a ≠ c.ag.ident.caller) → t.agent? a = c.st.agent? a) ∧
        (c.ag.task = true → ∀ y, c.st.agent? c.ag.ident.caller = some y → ∃ z, t.agent? c.ag.ident.caller = some z ∧
          z = { y with recs := y.recs.map fun r =>
            if r.id = c.ag.ident.record then { r with join := r.join - 1, flags := r.flags ||| c.ag.sys.fpflags } else r }))

/-- R210, R211: `park` moves the run on and parks its active lanes with the conditions that it names: the watched line, if
its page may be read and is no peer's, the barrier, and the clocks. A line of a peer's page is a protection fault. -/
def Sys2Proof.Claim.ParkGroupsItsLanes : Prop :=
  ∀ (g : Guard) (line bar tmo : Bool) (a : Opnd) (b : Nat) (n : Opnd) (F : Form) (s : State) (c : Ctx) (w : Option Nat),
    formOf (.park g line bar tmo a b n) = some F → Runs s F c →
    (line = true → ∀ x, Mapped c.st c.ag.core c.ag.ident.tenant (c.rd true a 0) .read x → x.tier = 3 →
      exec (.park g line bar tmo a b n) s = .next (stopped c ⟨2, c.rd true a 0, lowLane c.act, false, false⟩)) ∧
    ((line = false → w = none) →
    (line = true → ∃ x, Mapped c.st c.ag.core c.ag.ident.tenant (c.rd true a 0) .read x ∧ x.tier ≠ 3 ∧ w = some (x.key / 64)) →
    ∃ p t, exec (.park g line bar tmo a b n) s = .next t ∧
      t = withAgent c { c.ag with
        ctl := { c.ag.ctl with
          pcs := p, parked := c.ag.ctl.parked ||| c.act
          parks := c.ag.ctl.parks ++
            [{ id := c.ag.flight.nextOp, lanes := c.act, line := w, bar := if bar then some b else none
               clocks := if tmo then some (c.one32 n).toNat else none
               wakeAt := if tmo then some (c.st.time + max (c.one32 n).toNat 1) else none
               target := none, fired := false }] }
        flight := { c.ag.flight with nextOp := c.ag.flight.nextOp + 1 } } ∧
      PcsAdvanced c.run 8 c.ag.ctl.pcs p ∧ SameBytes s t)

/-- R58, R212: `yield` moves on; with `sys.yreq` 1 the agent has then yielded and issues no more. -/
def Sys2Proof.Claim.YieldStopsWhereAsked : Prop :=
  ∀ (g : Guard) (F : Form) (s : State) (c : Ctx), formOf (.yield g) = some F → Runs s F c →
    ∃ p t, exec (.yield g) s = .next t ∧
      t = withAgent c { c.ag with ctl := { c.ag.ctl with
        pcs := p, hold := if c.ag.sys.yreq then .yielded false else c.ag.ctl.hold } } ∧
      PcsAdvanced c.run 8 c.ag.ctl.pcs p ∧ SameBytes s t

/-- R165: an instruction that waits after it has issued leaves its agent at the instruction with what it waits for and since
when; the step that its rule names lets it go on. Nothing else changes. -/
def Sys2Proof.Claim.WaitingInstructionsHold : Prop :=
  ∀ (i : Instr) (F : Form) (s : State) (c : Ctx) (h : Hold), formOf i = some F → Runs s F c → holdOf i c = some h →
    ∃ t, exec i s = .next t ∧ SameBytes s t ∧
      t = withAgent c { c.ag with ctl := { c.ag.ctl with hold := h, waitRun := c.run, waitSince := some c.st.time } }

/-- park parks its lanes, yield stops where asked, a waiting instruction holds its agent. -/
def Obligations.ParkYieldAndWait : Prop :=
  Claim.ParkGroupsItsLanes ∧ Claim.YieldStopsWhereAsked ∧ Claim.WaitingInstructionsHold

/-! # System registers, barriers and grace periods -/

/-- R199, R200, R308: a write of a system register and the range labels change the fields that their rules name, advance the
run, and change nothing else. -/
def Sys2Proof.Claim.SystemRegisterWrites : Prop :=
  ∀ (i : Instr) (F : Form) (s : State) (c : Ctx) (y : Sys), formOf i = some F → Runs s F c → sysOut i c = some y →
    ∃ p t, exec i s = .next t ∧ t = withAgent c { c.ag with sys := y, ctl := { c.ag.ctl with pcs := p } } ∧
      PcsAdvanced c.run 8 c.ag.ctl.pcs p ∧ SameBytes s t

/-- R290 to R293: `bar.arrive` and `bar.init` send a message to their barrier, and `bar.wait` past the warp's mark moves the
mark; each advances the run and changes nothing else. -/
def Sys2Proof.Claim.BarrierInstructionsSend : Prop :=
  ∀ (i : Instr) (F : Form) (s : State) (c : Ctx) (gang : Gang) (g : Guard) (hb : Nat) (a : Opnd),
    formOf i = some F → Runs s F c → c.st.gang? c.ag.ident.gang = some gang →
    ∀ gang', (i = .barArrive g hb ∧ gang' = { gang with msgs := gang.msgs ++ [(c.st.posOf c.ag, hb, .arrive)] } ∨
      i = .barInit g hb a ∧
        gang' = { gang with msgs := gang.msgs ++ [(c.st.posOf c.ag, hb, .init (c.one32 a).toNat)] } ∨
      i = .barWait g hb ∧ (gang.barrier hb).phase ≠ gang.warpMark hb c.ag.ident.widx ∧
        gang' = gang.setWarpMark hb c.ag.ident.widx (gang.barrier hb).phase) →
    ∃ p t, exec i s = .next t ∧
      t = { withAgent c { c.ag with ctl := { c.ag.ctl with pcs := p } } with
        gangs := kmod c.st.gangs c.ag.ident.gang fun _ => gang' } ∧
      t.gang? c.ag.ident.gang = some gang' ∧ PcsAdvanced c.run 8 c.ag.ctl.pcs p ∧ SameBytes s t

/-- R298: `gstart` leaves its register to be written when the coordinator answers, advances the run, and changes nothing
else. -/
def Sys2Proof.Claim.GstartAwaitsItsTarget : Prop :=
  ∀ (g : Guard) (d : Opnd) (F : Form) (s : State) (c : Ctx), formOf (.gstart g d) = some F → Runs s F c →
    ∃ p t, exec (.gstart g d) s = .next t ∧
      t = withAgent c { c.ag with
        ctl := { c.ag.ctl with pcs := p }
        flight := { c.ag.flight with
          nextOp := c.ag.flight.nextOp + 1
          gstarts := c.ag.flight.gstarts ++ [(c.ag.flight.nextOp, Opnd.num d, false)]
          pend := c.ag.flight.pend ++ [(d, c.ag.flight.nextOp)] } } ∧
      PcsAdvanced c.run 8 c.ag.ctl.pcs p ∧ SameBytes s t

/-- Barrier instructions send their messages, gstart awaits its target. -/
def Obligations.BarriersAndGstartIssue : Prop :=
  Claim.BarrierInstructionsSend ∧ Claim.GstartAwaitsItsTarget

/-- R304, R305: `trap` advances the run and is then taken: at a handler that can be fetched the frame takes the PC table, every
lane left goes there unparked, and `sys.tcause` takes the cause with IN 1; with no handler that can be fetched the agent
stops with code 10 past the instruction, its cause in `sys.tcause`, its PCs otherwise as they were, and nothing else changes but
what the walk for the handler leaves. -/
def Sys2Proof.Claim.TrapEntersTheHandler : Prop :=
  ∀ (g : Guard) (code : BitVec 16) (F : Form) (s : State) (c : Ctx), formOf (.trap g code) = some F → Runs s F c →
    (c.ag.sys.thandler ≠ 0#64 →
      (∃ x, Mapped c.st c.ag.core c.ag.ident.tenant c.ag.sys.thandler .fetch x) →
      ∃ p q t, exec (.trap g code) s = .next t ∧
        t = withAgent c { c.ag with
          ctl := { c.ag.ctl with pcs := q, parked := 0#32, parks := [] }
          sys := { c.ag.sys with
            frame := some { pcs := p, parked := c.ag.ctl.parked, parks := c.ag.ctl.parks }
            tcause := 0x43#32 ||| (code.setWidth 32 <<< 16) } } ∧
        PcsAdvanced c.run 8 c.ag.ctl.pcs p ∧
        PcsJumped 0#32 (~~~c.ag.ctl.ended) 0 (fun _ => c.ag.sys.thandler) p q ∧ SameBytes s t) ∧
    (c.ag.sys.thandler = 0#64 ∨ (c.st.fetchable c.ag c.ag.sys.thandler).2 = false →
      ∃ p u t, exec (.trap g code) s = .next t ∧
        u = withAgent c { c.ag with
          ctl := { c.ag.ctl with
            pcs := p
            stop := some { code := 10, pc := c.pc + 8#64, addr := 0#64, fetch := false, wr := false, lane := 0, logIx := none,
                           time := c.st.time, recorded := false, deferred := none } }
          sys := { c.ag.sys with tcause := 3#32 ||| (code.setWidth 32 <<< 16) } } ∧
        SameButWalks u t ∧ (c.ag.sys.thandler = 0#64 → t = u) ∧ PcsAdvanced c.run 8 c.ag.ctl.pcs p ∧ SameBytes s t)

/-- R306: `tret` gives back the PC table and the parked lanes of the frame and sets IN to 0; lanes that ended in the handler
stay ended, and nothing else changes. -/
def Sys2Proof.Claim.TretRestoresTheFrame : Prop :=
  ∀ (g : Guard) (F : Form) (s : State) (c : Ctx) (f : TrapFrame), formOf (.tret g) = some F → Runs s F c →
    c.ag.sys.frame = some f →
    exec (.tret g) s = .next (withAgent c { c.ag with
      ctl := { c.ag.ctl with pcs := f.pcs, parked := f.parked, parks := f.parks }
      sys := { c.ag.sys with frame := none, tcause := c.ag.sys.tcause &&& 0xFFFFFFBF#32 } })

/-! # Memory, walks and engines at issue -/

/-- R217, R266, R215, R37: `nop` only advances; `bd.set` writes its bond register; `shrink` gives back the registers at the
top of the allotment with their contents. Each advances the run and changes no other register, no byte and no other
agent. -/
def Sys2Proof.Claim.AgentLocalInstructions : Prop :=
  ∀ (i : Instr) (F : Form) (s : State) (c : Ctx) (g : Guard), formOf i = some F → Runs s F c →
    (i = .nop g ∨ (∃ a q off, i = .pref g a q off ∧ c.st.requestsHeld c.ag.core ≥ 4096) ∨
      (∃ a off, i = .ipref g a off ∧ c.st.requestsHeld c.ag.core ≥ 4096) ∨
      (∃ a b, i = .cflush g a b ∧ c.one32 b = 0#32) →
      ∃ p t, exec i s = .next t ∧ t = withAgent c { c.ag with ctl := { c.ag.ctl with pcs := p } } ∧
        PcsAdvanced c.run 8 c.ag.ctl.pcs p ∧ SameBytes s t) ∧
    (∀ n d, i = .bdSet g n d →
      ∃ p m t, exec i s = .next t ∧
        t = withAgent c { c.ag with ctl := { c.ag.ctl with pcs := p }, eng := { c.ag.eng with bd := m } } ∧
        (∀ k, kgetD 0#32 m k = if k = n then c.one32 d else kgetD 0#32 c.ag.eng.bd k) ∧
        PcsAdvanced c.run 8 c.ag.ctl.pcs p ∧ SameBytes s t) ∧
    (∀ n, i = .shrink g n →
      ∃ t x, exec i s = .next t ∧ t = withAgent c x ∧ x.regs.alloc = c.ag.regs.alloc - n ∧
        (∀ k l, x.regs.vlane k l = if k < c.ag.regs.alloc - n then c.ag.regs.vlane k l else 0#32) ∧
        x.regs.s = c.ag.regs.s ∧ x.regs.sMark = c.ag.regs.sMark ∧ x.regs.p = c.ag.regs.p ∧ x.sys = c.ag.sys ∧
        x.eng = c.ag.eng ∧ PcsAdvanced c.run 8 c.ag.ctl.pcs x.ctl.pcs ∧ x.ctl.ended = c.ag.ctl.ended ∧
        x.ctl.parked = c.ag.ctl.parked ∧ SameBytes s t)

/-- The fields of a tile descriptor obey their rules (R257). -/
abbrev Sys2Proof.Claim.TileFields (w : Nat → Nat) : Prop :=
  (w 1 * 4294967296 + w 0) % 32 = 0 ∧ w 1 * 4294967296 + w 0 < 144115188075855872 ∧ w 2 % 32 = 0 ∧ w 3 % 32 = 0 ∧
  1 ≤ ebits (w 4) 15 0 ∧ 1 ≤ ebits (w 4) 31 16 ∧ ebits (w 5) 3 0 ≤ 5 ∧ ebits (w 5) 31 4 = 0 ∧ w 6 = 0 ∧ w 7 = 0

/-- R247, R257: `tbind` binds its handle to the tensor of its block, if the block obeys its rules, the issuer has no buffer
store outstanding and the core has room for a command, and counts as a command; nothing else changes. With 64 commands held it
waits. A block that breaks a rule is ILL. -/
def Sys2Proof.Claim.TbindBindsItsHandle : Prop :=
  ∀ (g : Guard) (th : Nat) (d : Opnd) (F : Form) (s : State) (c : Ctx), formOf (.tbind g th d) = some F → Runs s F c →
    stbCount c.ag.flight = 0 →
    let w := c.blockWord (c.one32 d).toNat
    (Claim.TileFields w → c.st.cmdsFull c.ag.core = true → exec (.tbind g th d) s = .next (stalled c)) ∧
    (Claim.TileFields w → c.st.cmdsFull c.ag.core = false →
      ∃ p m t, exec (.tbind g th d) s = .next t ∧
        t = withAgent c { c.ag with
          ctl := { c.ag.ctl with pcs := p }, eng := { c.ag.eng with th := m, seq := c.ag.eng.seq + 1#32 } } ∧
        (∀ k, kget m k =
          if k = th then
            some { base := BitVec.ofNat 64 (w 1 * 4294967296 + w 0), rstride := w 2, cstride := w 3, trows := ebits (w 4) 15 0,
                   tcols := ebits (w 4) 31 16, fmt := ebits (w 5) 3 0 }
          else kget c.ag.eng.th k) ∧
        PcsAdvanced c.run 8 c.ag.ctl.pcs p ∧ SameBytes s t) ∧
    (¬ Claim.TileFields w → exec (.tbind g th d) s = .next (stopped c (flt 4)))

/-- Writes of system registers, range labels, nop, bd.set, shrink and tbind change their own agent alone. -/
def Obligations.AgentLocalInstructions : Prop :=
  Claim.SystemRegisterWrites ∧ Claim.AgentLocalInstructions ∧ Claim.TbindBindsItsHandle

/-- R219, R220, R223 to R229, R244: a memory instruction that runs, with a log entry and room for its requests, enters its
agent's work in flight with the accesses of its lanes, its destination waiting for it, a request entry for each line of 256
bytes and a miss entry for each page that the L1 TLB does not hold; the run advances. No byte, no register and no other agent
changes: its accesses perform later. With the log full or no room it waits (R91, R96). -/
def Obligations.MemoryInstructionsEnterFlight : Prop :=
  ∀ (i : Instr) (F : Form) (s : State) (c : Ctx) (m : MemForm) (ix : Nat), formOf i = some F → Runs s F c →
    memForm i c = some m →
    let vas := m.lanes.map fun l => l.2.1
    let room := c.st.roomFor c.ag.core c.ag.ident.tenant (distinct (vas.map fun v => v.toNat / 256)) vas
    (logFree c.ag.flight = none ∨ room = false → exec i s = .next (stalled c)) ∧
    (logFree c.ag.flight = some ix → room = true →
    ∃ p y o t, exec i s = .next t ∧
      t = withAgent c { c.ag with
        ctl := { c.ag.ctl with pcs := p }, sys := y
        flight := { c.ag.flight with
          nextOp := c.ag.flight.nextOp + 1, ops := c.ag.flight.ops ++ [o]
          pend := c.ag.flight.pend ++ ((m.dst.map fun d => destRegs d (m.width == 8)).getD []).map
            fun r => (r, c.ag.flight.nextOp) } } ∧
      o.id = c.ag.flight.nextOp ∧ o.kind = m.kind ∧ o.width = m.width ∧ o.order = m.order ∧ o.scope = m.scope ∧
      o.dst = m.dst ∧ o.vector = m.vector ∧ o.act = c.act ∧ o.pc = c.pc ∧ o.logIx = some ix ∧ o.rest = m.rest ∧
      o.single = m.single ∧ o.qual = m.qual ∧ o.written = false ∧ o.waiting = false ∧ o.issued = c.st.sent ∧
      o.missed = c.st.missesOf c.ag.core c.ag.ident.tenant vas ∧ o.requests = distinct (vas.map fun v => v.toNat / 256) ∧
      (o.lanes.map fun l => (l.lane, l.va, l.x, l.y, l.target)) = m.lanes ∧ (∀ l ∈ o.lanes, l.st = .fresh) ∧
      Sampled m.samp c.ag.sys y o.sampled ∧ PcsAdvanced c.run 8 c.ag.ctl.pcs p ∧ SameBytes s t)

/-- R225, R100: a buffer load or store that runs, with its counter below 63, enters its agent's work in flight with the
offsets of its lanes; the run advances, and no byte, no register and no other agent changes. At 63 it waits. -/
def Sys2Proof.Claim.BufferInstructionsEnterFlight : Prop :=
  ∀ (i : Instr) (F : Form) (s : State) (c : Ctx) (m : BufForm), formOf i = some F → Runs s F c → bufForm i c = some m →
    ((if m.store then stbCount c.ag.flight else ldbCount c.ag.flight) < 63 →
      ∃ p o t, exec i s = .next t ∧
        t = withAgent c { c.ag with
          ctl := { c.ag.ctl with pcs := p }
          flight := { c.ag.flight with
            nextOp := c.ag.flight.nextOp + 1, bufOps := c.ag.flight.bufOps ++ [o]
            pend := c.ag.flight.pend ++ ((m.dst.map fun d => destRegs d (LdKind.bytes m.kind == 8)).getD []).map
              fun r => (r, c.ag.flight.nextOp) } } ∧
        o.id = c.ag.flight.nextOp ∧ o.store = m.store ∧ o.k = m.kind ∧ o.width = LdKind.bytes m.kind ∧ o.buf = m.buf ∧
        o.dst = m.dst ∧ o.vector = m.vector ∧ o.act = c.act ∧
        (o.lanes.map fun l => (l.lane, l.off, l.x)) = m.lanes ∧ (∀ l ∈ o.lanes, l.done = false) ∧
        PcsAdvanced c.run 8 c.ag.ctl.pcs p ∧ SameBytes s t) ∧
    (63 ≤ (if m.store then stbCount c.ag.flight else ldbCount c.ag.flight) → exec i s = .next (stalled c))

/-- R239, R96: a walk that runs, with a request entry for each lane that has hops to make, enters its agent's work in flight with
a start and a limit of hops for each active lane, its three registers waiting for it; the run advances, and no byte, no
register and no other agent changes. Without the entries it waits. -/
def Sys2Proof.Claim.WalksEnterFlight : Prop :=
  ∀ (i : Instr) (F : Form) (s : State) (c : Ctx) (mode : Nat) (d a b h : Opnd), formOf i = some F → Runs s F c →
    walkOf i = some (mode, d, a, b, h) →
    let need := ((lanesOf c.act).filter fun l => c.rd32 h l != 0#32).length
    (4096 < c.st.requestsHeld c.ag.core + need → exec i s = .next (stalled c)) ∧
    (c.st.requestsHeld c.ag.core + need ≤ 4096 →
    ∃ p y o t, exec i s = .next t ∧
      t = withAgent c { c.ag with
        ctl := { c.ag.ctl with pcs := p }, sys := y, eng := { c.ag.eng with seq := c.ag.eng.seq + 1#32 }
        flight := { c.ag.flight with
          nextOp := c.ag.flight.nextOp + 1, chases := c.ag.flight.chases ++ [o]
          pend := c.ag.flight.pend ++ [(.v (Opnd.num d), c.ag.flight.nextOp), (.v (Opnd.num d + 1), c.ag.flight.nextOp),
            (.v (Opnd.num d + 2), c.ag.flight.nextOp)] } } ∧
      o.id = c.ag.flight.nextOp ∧ o.mode = mode ∧ o.d = Opnd.num d ∧ o.act = c.act ∧ o.base = c.rd true b 0 ∧
      o.off = c.ag.regs.sreg (Opnd.num b + 2) ∧ o.lanes.map ChaseLane.lane = lanesOf c.act ∧
      (∀ l ∈ o.lanes, l.p = c.rd true a l.lane ∧ l.hops = 0 ∧ l.limit = min (c.rd32 h l.lane).toNat 64 ∧
        (l.status = none ↔ c.rd32 h l.lane ≠ 0#32)) ∧ o.touched = [] ∧ o.seq = c.ag.eng.seq ∧
      o.label = (c.ag.sys.labels.head?, c.ag.sys.lovf) ∧ o.held = false ∧ o.waiting = false ∧
      Sampled 23 c.ag.sys y o.sampled ∧ PcsAdvanced c.run 8 c.ag.ctl.pcs p ∧ SameBytes s t)

/-- A buffer access and a walk enter flight with their lanes. -/
def Obligations.BufferAndWalkInstructionsEnterFlight : Prop :=
  Claim.BufferInstructionsEnterFlight ∧ Claim.WalksEnterFlight

/-- R94, R95, R231, R240, R243: cache control advances the run and changes no byte and no register. `cinv.d` empties the L1 of
the core, `cinv.i` the instruction caches of its partitions; `l1cfg` to another count starts a conversion and takes the
lines of the ways that leave the cache, and to a smaller one cancels the copies and tooling commands whose range reaches into
the ways given back, multicasts of other cores among them; while a conversion is under way it waits. A prefetch that cannot be
translated leaves nothing but its walk; one that can brings its line into the L1, or into the partition's instruction cache, as
memory holds it. That no line comes while an older write or an engine's line holds the read, where an `ipref` waits, is the
model's choice (log 102). -/
def Obligations.CacheControl : Prop :=
  ∀ (i : Instr) (F : Form) (s : State) (c : Ctx) (g : Guard), formOf i = some F → Runs s F c →
    (i = .cinvD g →
      ∃ p t, exec i s = .next t ∧
        t = { withAgent c { c.ag with ctl := { c.ag.ctl with pcs := p } } with
          cores := ksetD Core.reset c.st.cores c.ag.core { c.st.core c.ag.core with l1 := [] } } ∧
        PcsAdvanced c.run 8 c.ag.ctl.pcs p ∧ SameBytes s t) ∧
    (i = .cinvI g →
      ∃ p t, exec i s = .next t ∧
        t = { withAgent c { c.ag with ctl := { c.ag.ctl with pcs := p } } with
          cores := ksetD Core.reset c.st.cores c.ag.core { c.st.core c.ag.core with icache := [] } } ∧
        PcsAdvanced c.run 8 c.ag.ctl.pcs p ∧ SameBytes s t) ∧
    (∀ n, i = .l1cfg g n → (c.st.core c.ag.core).converting = false →
      ∃ p t, exec i s = .next t ∧ t.agents = (withAgent c { c.ag with ctl := { c.ag.ctl with pcs := p } }).agents ∧
        PcsAdvanced c.run 8 c.ag.ctl.pcs p ∧ SameBytes s t ∧
        (∀ k, k ≠ c.ag.core → t.core k = { c.st.core k with copies := (t.core k).copies }) ∧
        (∀ k, (t.core k).copies = (c.st.core k).copies.map fun j =>
          { j with cancel := j.cancel || (decide (n < (c.st.core c.ag.core).ways) && decide (262144 ≤ j.buf) &&
              decide (262144 + 16384 * n < j.buf + j.dstBytes) &&
              (decide (k = c.ag.core) && j.kind.inAbuf || c.st.multicastTo c.ag.core j)) }) ∧
        (t.core c.ag.core).tools = ((c.st.core c.ag.core).tools.map fun j =>
          { j with cancel := j.cancel || (decide (n < (c.st.core c.ag.core).ways) && decide (j.buf = .abuf) &&
              decide (262144 ≤ j.off) && decide (262144 + 16384 * n < j.off + j.len)) }) ∧
        (t.core c.ag.core).waysAsked = n ∧ (t.core c.ag.core).ways = (c.st.core c.ag.core).ways ∧
        (t.core c.ag.core).converting = decide (n ≠ (c.st.core c.ag.core).ways) ∧
        (t.core c.ag.core).wayMem = (c.st.core c.ag.core).wayMem ∧
        (n ≠ (c.st.core c.ag.core).ways → ∀ e ∈ (t.core c.ag.core).l1, e.2.way < 16 - n)) ∧
    (∀ n, i = .l1cfg g n → (c.st.core c.ag.core).converting = true → exec i s = .next (stalled c)) ∧
    (∀ a q off, i = .pref g a q off →
      ∃ p t, exec i s = .next t ∧ t.agents = (withAgent c { c.ag with ctl := { c.ag.ctl with pcs := p } }).agents ∧
        PcsAdvanced c.run 8 c.ag.ctl.pcs p ∧ SameBytes s t ∧
        let va := c.rd true a 0 + BitVec.ofInt 64 off
        let u := withAgent c { c.ag with ctl := { c.ag.ctl with pcs := p } }
        (144115188075855872 ≤ va.toNat → t = u) ∧
        (∀ n, (u.translate c.ag.core c.ag.ident.tenant va .read).2 = .fault n → SameButWalks u t) ∧
        (∀ x, Mapped c.st c.ag.core c.ag.ident.tenant va .read x → c.st.requestsHeld c.ag.core < 4096 → x.inL1 = true →
          kget (c.st.core c.ag.core).l1 (x.key / 64) = none → 0 < (c.st.core c.ag.core).cacheWays →
          t.lineHeld c.ag.core .any (x.key / 64) = false →
          ∃ y, kget (t.core c.ag.core).l1 (x.key / 64) = some y ∧
            y.data = BitVec.ofNat 512 (leVal (c.st.bytes (x.key / 64 * 64) 64)))) ∧
    (∀ a off, i = .ipref g a off →
      let va := c.rd true a 0 + BitVec.ofInt 64 off
      (exec i s = .next (stalled c) ∧ ∃ x, (c.st.translate c.ag.core c.ag.ident.tenant va .fetch).2 = .ok x) ∨
      ∃ p t, exec i s = .next t ∧ t.agents = (withAgent c { c.ag with ctl := { c.ag.ctl with pcs := p } }).agents ∧
        PcsAdvanced c.run 8 c.ag.ctl.pcs p ∧ SameBytes s t ∧
        let u := withAgent c { c.ag with ctl := { c.ag.ctl with pcs := p } }
        (144115188075855872 ≤ va.toNat → t = u) ∧
        (∀ n, (u.translate c.ag.core c.ag.ident.tenant va .fetch).2 = .fault n → SameButWalks u t) ∧
        (∀ x, Mapped c.st c.ag.core c.ag.ident.tenant va .fetch x → c.st.requestsHeld c.ag.core < 4096 → x.tier ≠ 3 →
          kget (c.st.core c.place.core).icache (iKey c.place.part (x.key / 128)) = none →
          kget (t.core c.place.core).icache (iKey c.place.part (x.key / 128)) =
            some (BitVec.ofNat 1024 (leVal (c.st.bytes (x.key / 128 * 128) 128)))))

/-- R99, R129, R232 to R235, R322: a copy that runs, with room at its core, is accepted: it stands last among the copies of
the core under the agent's command number, its token register waits, and the run advances. No byte, no register and no other
agent changes. With 64 held it waits. -/
def Sys2Proof.Claim.CopiesAreAccepted : Prop :=
  ∀ (i : Instr) (F : Form) (s : State) (c : Ctx) (kind : CopyKind) (q : Qual) (buf : Nat) (glob : DWord) (n tok : Nat)
    (out : Bool), formOf i = some F → Runs s F c → copyOf i c = some (kind, q, buf, glob, n, tok, out) →
    (c.st.copiesHeld c.ag.core < 64 →
      ∃ p k t, exec i s = .next t ∧
        t = { withAgent c { c.ag with
              ctl := { c.ag.ctl with pcs := p }, eng := { c.ag.eng with seq := c.ag.eng.seq + 1#32 }
              flight := { c.ag.flight with
                nextOp := c.ag.flight.nextOp + 1
                pend := c.ag.flight.pend ++ [(.s tok, c.ag.flight.nextOp)] } } with
            cores := ksetD Core.reset c.st.cores c.ag.core { c.st.core c.ag.core with
              copies := (c.st.core c.ag.core).copies ++ [k], nextCmd := (c.st.core c.ag.core).nextCmd + 1 }
            sent := c.st.sent + 1 } ∧
        k.id = (c.st.core c.ag.core).nextCmd ∧ k.issuer = c.ag.ident ∧ k.agent = c.key ∧ k.kind = kind ∧ k.qual = q ∧
        k.buf = buf ∧ k.glob = glob ∧ k.bytes = n ∧ k.token = tok ∧ k.after = c.ag.flight.nextOp ∧ k.seq = c.ag.eng.seq ∧
        k.label = (c.ag.sys.labels.head?, c.ag.sys.lovf) ∧ k.chunk = 0 ∧ k.engine = none ∧ k.stopped = false ∧
        (out = false → k.owned = []) ∧ k.stamp = c.st.sent ∧
        PcsAdvanced c.run 8 c.ag.ctl.pcs p ∧ SameBytes s t) ∧
    (64 ≤ c.st.copiesHeld c.ag.core → exec i s = .next (stalled c))

/-- R99, R100, R237, R238, R322: a tooling command that runs is accepted likewise; with 15 of its agent outstanding it
waits. -/
def Sys2Proof.Claim.ToolingCommandsAreAccepted : Prop :=
  ∀ (i : Instr) (F : Form) (s : State) (c : Ctx) (kind : ToolKind) (b : Buf) (off n tok : Nat), formOf i = some F →
    Runs s F c → toolOf i c = some (kind, b, off, n, tok) →
    (c.st.toolCount c.key c.ag.core < 15 →
      ∃ p k t, exec i s = .next t ∧
        t = { withAgent c { c.ag with
              ctl := { c.ag.ctl with pcs := p }, eng := { c.ag.eng with seq := c.ag.eng.seq + 1#32 }
              flight := { c.ag.flight with
                nextOp := c.ag.flight.nextOp + 1
                pend := c.ag.flight.pend ++ [(.s tok, c.ag.flight.nextOp)] } } with
            cores := ksetD Core.reset c.st.cores c.ag.core { c.st.core c.ag.core with
              tools := (c.st.core c.ag.core).tools ++ [k], nextCmd := (c.st.core c.ag.core).nextCmd + 1 } } ∧
        k.id = (c.st.core c.ag.core).nextCmd ∧ k.issuer = c.ag.ident ∧ k.agent = c.key ∧ k.kind = kind ∧ k.buf = b ∧
        k.off = off ∧ k.len = n ∧ k.token = tok ∧ k.after = c.ag.flight.nextOp ∧ k.seq = c.ag.eng.seq ∧
        k.label = (c.ag.sys.labels.head?, c.ag.sys.lovf) ∧ k.chunk = 0 ∧ k.stopped = false ∧
        PcsAdvanced c.run 8 c.ag.ctl.pcs p ∧ SameBytes s t) ∧
    (15 ≤ c.st.toolCount c.key c.ag.core → exec i s = .next (stalled c))

/-- Copies and tooling commands are accepted where there is room. -/
def Obligations.CopiesAndToolsAreAccepted : Prop :=
  Claim.CopiesAreAccepted ∧ Claim.ToolingCommandsAreAccepted

/-- R247, R248, R322: a command of class 3 that runs, with room at its core, is accepted: it stands last in the core's queue
with the counts that its wait mask names, the bond registers and the handles as they stand, and its slot's count of accepted
commands goes up by one, modulo 65,536; the run advances. No byte, no register and no other agent changes. With 64 held it
waits. -/
def Obligations.CommandsAreAccepted : Prop :=
  ∀ (i : Instr) (F : Form) (s : State) (c : Ctx) (kind : CmdKind) (f : CmdFrame) (tiles : List (Option Tile))
    (ps : List Opnd) (gang : Gang), formOf i = some F → Runs s F c → cmdOf i c = some (kind, f, tiles, ps) →
    c.st.gang? c.ag.ident.gang = some gang → (∀ j, f.ss = some j → j < 16) →
    (c.st.cmdsFull c.ag.core = true → exec i s = .next (stalled c)) ∧
    (c.st.cmdsFull c.ag.core = false →
    ∃ p k e t, exec i s = .next t ∧
      t = { withAgent c { c.ag with
            ctl := { c.ag.ctl with pcs := p }, eng := e
            flight := { c.ag.flight with
              nextOp := c.ag.flight.nextOp + 1
              pend := c.ag.flight.pend ++ ps.map fun r => (r, c.ag.flight.nextOp) } } with
          cores := ksetD Core.reset c.st.cores c.ag.core { c.st.core c.ag.core with
            cmds := (c.st.core c.ag.core).cmds ++ [k], nextCmd := (c.st.core c.ag.core).nextCmd + 1 }
          gangs := t.gangs } ∧
      k.id = (c.st.core c.ag.core).nextCmd ∧ k.issuer = c.ag.ident ∧ k.agent = c.key ∧ k.kind = kind ∧ k.frame = f ∧
      k.tiles = tiles ∧ k.bd = c.ag.eng.bd ∧ k.seq = c.ag.eng.seq ∧ k.after = c.ag.flight.nextOp ∧ k.pos = c.st.posOf c.ag ∧
      k.label = (c.ag.sys.labels.head?, c.ag.sys.lovf) ∧ k.started = false ∧ k.stopped = false ∧ k.ended = false ∧
      k.waits = ((List.range 16).filter f.wm.getLsbD).map (fun j => (j, (gang.slot (c.st.posOf c.ag) j).acc)) ∧
      e.seq = c.ag.eng.seq + 1#32 ∧ e.bd = c.ag.eng.bd ∧ e.th = c.ag.eng.th ∧ e.chain = c.ag.eng.chain ∧
      e.cost = c.ag.eng.cost ∧ e.grace = c.ag.eng.grace ∧
      (f.ss = none → t.gangs = c.st.gangs) ∧
      (∀ j, f.ss = some j → ∃ g', t.gang? c.ag.ident.gang = some g' ∧
        g' = { gang with slots := g'.slots } ∧
        (∀ pos n, n < 16 → g'.slot pos n =
          if pos = c.st.posOf c.ag ∧ n = j then
            { gang.slot pos n with acc := ((gang.slot pos n).acc + 1) % 65536 } else gang.slot pos n) ∧
        (∀ h, h ≠ c.ag.ident.gang → t.gang? h = c.st.gang? h)) ∧
      PcsAdvanced c.run 8 c.ag.ctl.pcs p ∧ SameBytes s t)

/-- R275, R322: a set instruction that runs goes to its engine with its operands as they stand, its destinations waiting for
it; the run advances, and no byte, no register and no other agent changes. `set.cost` with a set instruction outstanding
waits (R285). -/
def Obligations.SetInstructionsGoToTheirEngine : Prop :=
  ∀ (i : Instr) (F : Form) (s : State) (c : Ctx), formOf i = some F → Runs s F c →
    (∀ ks ha hb hc addr n ps, setOf i c = some (ks, ha, hb, hc, addr, n, ps) →
      ∃ p o t, exec i s = .next t ∧
        t = { withAgent c { c.ag with
          ctl := { c.ag.ctl with pcs := p }, eng := { c.ag.eng with seq := c.ag.eng.seq + 1#32 }
          flight := { c.ag.flight with
            nextOp := c.ag.flight.nextOp + 1, setOps := c.ag.flight.setOps ++ [o]
            pend := c.ag.flight.pend ++ ps.map fun r => (r, c.ag.flight.nextOp) } } with sent := c.st.sent + 1 } ∧
        o.id = c.ag.flight.nextOp ∧ o.instr = i ∧ o.act = c.act ∧ o.keys = ks ∧ o.ha = ha ∧ o.hb = hb ∧ o.hc = hc ∧
        o.addr = addr ∧ o.count = n ∧ o.seq = c.ag.eng.seq ∧ o.label = (c.ag.sys.labels.head?, c.ag.sys.lovf) ∧
        o.held = false ∧ o.stamp = c.st.sent ∧ ((∀ g d a b n, i ≠ .setOut g d a b n) → o.owned = []) ∧
        PcsAdvanced c.run 8 c.ag.ctl.pcs p ∧ SameBytes s t) ∧
    (∀ g n d, i = .setCost g n d → c.ag.flight.setOps ≠ [] → exec i s = .next (stalled c))

/-- An agent's handle is bound with this format and holds so many tile rows and columns (R257, R258). -/
def Sys2Proof.Claim.Bound (c : Ctx) (th fmt rows cols : Nat) : Prop :=
  ∃ t, kget c.ag.eng.th th = some t ∧ t.fmt = fmt ∧ rows ≤ t.trows ∧ cols ≤ t.tcols

/-- The fields of a parameter block obey their rules; w gives its words (R258 to R260, R262 to R264, R267). -/
def Sys2Proof.Claim.BlockFields (i : Instr) (c : Ctx) (w : Nat → Nat) : Prop :=
  match i with
  | .ldst _ _ _ _ =>
      ebits (w 0) 31 18 = 0 ∧ ebits (w 0) 17 0 % 32 = 0 ∧ ebits (w 1) 31 4 = 0 ∧ ebits (w 1) 3 0 ≤ 5 ∧
      ebits (w 2) 30 5 = 0 ∧
      (if ebits (w 1) 3 0 = 4 ∨ ebits (w 1) 3 0 = 5 then ∀ b, b < 32 → tblOf (tblWords w) b < c.header.tables
        else tblWords w = 0#128) ∧
      (ebits (w 2) 31 31 = 1 →
        Claim.Bound c (ebits (w 2) 4 0) (ebits (w 1) 3 0) (ebits (w 3) 15 0 + 1) (ebits (w 3) 31 16 + 1))
  | .cbtload _ _ _ _ =>
      (w 1 * 4294967296 + w 0) % 32 = 0 ∧ w 2 = 0 ∧ w 3 = 0 ∧ w 4 = 0 ∧ w 5 = 0 ∧ w 6 = 0 ∧ w 7 = 0
  | .mstream _ _ _ _ =>
      ebits (w 0) 31 19 = 0 ∧ ebits (w 0) 18 0 % 32 = 0 ∧ ebits (w 1) 31 17 = 0 ∧ ebits (w 1) 16 0 % 256 = 0 ∧
      ebits (w 2) 31 28 = 0 ∧ ebits (w 2) 27 24 ≤ 2 ∧ ebits (w 2) 23 23 = 0 ∧ 1 ≤ ebits (w 2) 22 16 ∧
      ebits (w 2) 22 16 ≤ 64 ∧ ebits (w 2) 15 10 = 0 ∧ 1 ≤ ebits (w 2) 9 0 ∧ ebits (w 2) 9 0 ≤ 512 ∧ w 3 % 32 = 0 ∧
      64 * (if ebits (w 2) 27 24 = 2 then 1 else 2) ≤ w 3 ∧ ebits (w 4) 30 5 = 0 ∧ w 6 = 0 ∧ w 7 = 0 ∧
      (ebits (w 4) 31 31 = 1 →
        Claim.Bound c (ebits (w 4) 4 0) (ebits (w 2) 27 24) (ebits (w 5) 15 0 + 1) (ebits (w 5) 31 16 + 1))
  | .mop _ _ _ =>
      ebits (w 0) 31 19 = 0 ∧ ebits (w 0) 18 0 % 32 = 0 ∧ ebits (w 1) 31 18 = 0 ∧ ebits (w 1) 17 0 % 32 = 0 ∧
      ebits (w 2) 31 17 = 0 ∧ ebits (w 2) 16 0 % 256 = 0 ∧ ebits (w 3) 31 28 ≤ 3 ∧ ebits (w 3) 27 24 ≤ 2 ∧
      pairOk (ebits (w 3) 27 24) (ebits (w 3) 31 28) = true ∧ ebits (w 3) 23 23 = 0 ∧ 1 ≤ ebits (w 3) 22 16 ∧
      ebits (w 3) 22 16 ≤ 64 ∧ ebits (w 3) 15 10 = 0 ∧ 1 ≤ ebits (w 3) 9 0 ∧ ebits (w 3) 9 0 ≤ 512 ∧
      1 ≤ ebits (w 4) 31 16 ∧ 1 ≤ ebits (w 4) 15 0 ∧ ebits (w 5) 31 13 = 0 ∧ ebits (w 5) 7 5 = 0 ∧
      Claim.Bound c (ebits (w 5) 4 0) (ebits (w 3) 27 24) (ebits (w 6) 15 0 + 1) (ebits (w 6) 31 16 + ebits (w 4) 15 0) ∧
      Claim.Bound c (ebits (w 5) 12 8) (ebits (w 3) 31 28) (ebits (w 7) 15 0 + ebits (w 4) 15 0)
        (ebits (w 7) 31 16 + ebits (w 4) 31 16)
  | .mzero _ _ _ =>
      ebits (w 0) 31 17 = 0 ∧ ebits (w 0) 16 0 % 32 = 0 ∧ w 1 % 32 = 0 ∧ w 1 ≠ 0 ∧ w 2 = 0 ∧ w 3 = 0 ∧ w 4 = 0 ∧
      w 5 = 0 ∧ w 6 = 0 ∧ w 7 = 0
  | .chainCfg _ _ _ =>
      (w 1 * 4294967296 + w 0) % 16 = 0 ∧ ebits (w 2) 31 18 = 0 ∧ ebits (w 2) 17 16 ≠ 3 ∧ ebits (w 2) 15 0 ≠ 0 ∧
      ebits (w 3) 31 17 = 0 ∧ ebits (w 3) 16 0 % 32 = 0 ∧ ebits (w 4) 31 16 = 0 ∧ 1 ≤ ebits (w 4) 15 0 ∧
      ebits (w 4) 15 0 ≤ 32768 ∧ w 6 = 0 ∧ w 7 = 0 ∧
      (if ebits (w 2) 17 16 = 1 then
        1 ≤ ebits (w 5) 31 16 ∧ 1 ≤ ebits (w 5) 15 0 ∧ ebits (w 5) 15 0 * ebits (w 5) 31 16 ≤ ebits (w 4) 15 0
        else ebits (w 5) 31 16 = 0 ∧ ebits (w 5) 15 0 = 0) ∧
      (ebits (w 2) 17 16 = 2 → c.ag.eng.chainAccepted = true)
  | _ => True

/-- The buffer ranges of a parameter block in the order of their checks: offset, length, grant (R260, R262 to R264,
R267). -/
def Sys2Proof.Claim.blockRanges (i : Instr) (c : Ctx) (w : Nat → Nat) : List (Nat × Nat × Nat) :=
  match i with
  | .ldst _ _ _ _ => [(ebits (w 0) 17 0, weightBytes (ebits (w 1) 3 0), c.header.grant .wbuf)]
  | .mstream _ _ _ _ =>
      [(ebits (w 0) 18 0, ebits (w 2) 9 0 * w 3, c.header.grant .abuf),
       (ebits (w 1) 16 0, 256 * ebits (w 2) 9 0, c.header.grant .cbuf)]
  | .mop _ _ _ =>
      [(ebits (w 0) 18 0, 2 * ebits (w 3) 9 0 * (64 * (if ebits (w 3) 27 24 = 2 then 1 else 2)), c.header.grant .abuf),
       (ebits (w 1) 17 0, 2 * weightBytes (ebits (w 3) 31 28), c.header.grant .wbuf),
       (ebits (w 2) 16 0, 256 * ebits (w 4) 31 16 * ebits (w 3) 9 0, c.header.grant .cbuf)]
  | .mzero _ _ _ => [(ebits (w 0) 16 0, w 1, c.header.grant .cbuf)]
  | .chainCfg _ _ _ => [(ebits (w 3) 16 0, 4 * ebits (w 4) 15 0, c.header.grant .cbuf)]
  | _ => []

/-- R246, R247: a command reads its block once its issuer has no buffer store outstanding, until then it waits. A field that
breaks its rule is ILL; else the first range that passes its grant is a protection fault with the range's offset. Each stops
the agent precisely. -/
def Sys2Proof.Claim.BlocksAreChecked : Prop :=
  ∀ (i : Instr) (F : Form) (s : State) (c : Ctx) (d : Opnd), formOf i = some F → Runs s F c →
    (∃ g f, (∃ n, i = .ldst g n f d ∨ i = .cbtload g n f d ∨ i = .mstream g n f d) ∨ i = .mop g f d ∨ i = .mzero g f d ∨
      i = .chainCfg g f d) →
    let w := c.blockWord (c.one32 d).toNat
    (stbCount c.ag.flight ≠ 0 → exec i s = .next (stalled c)) ∧
    (stbCount c.ag.flight = 0 → ¬ Claim.BlockFields i c w → exec i s = .next (stopped c (flt 4))) ∧
    (∀ pre post off len grant, stbCount c.ag.flight = 0 → Claim.BlockFields i c w →
      Claim.blockRanges i c w = pre ++ (off, len, grant) :: post → (∀ r ∈ pre, r.1 + r.2.1 ≤ r.2.2) → grant < off + len →
      exec i s = .next (stopped c ⟨2, BitVec.ofNat 64 off, lowLane c.act, false, false⟩))

/-- The fields of a quantising descriptor obey their rules (R235). -/
abbrev Sys2Proof.Claim.DescriptorFields (w : Nat → Nat) : Prop :=
  ebits (w 0) 31 24 = 0 ∧ 5 ≤ ebits (w 0) 23 16 ∧ ebits (w 0) 23 16 ≤ 12 ∧ ebits (w 0) 15 13 = 0 ∧ ebits (w 0) 11 11 = 0 ∧
  ebits (w 0) 10 8 ≤ 3 ∧ ebits (w 0) 7 4 ∈ [0, 1, 8, 9] ∧ ebits (w 0) 3 0 ∈ [8, 9, 10] ∧ w 1 = 0 ∧ w 4 = 0 ∧ w 5 = 0 ∧
  w 6 = 0 ∧ w 7 = 0

/-- R235, R238: `copy.q` and `tool.quant` read their descriptor once their issuer has no buffer store outstanding, until then
they wait. A descriptor that breaks its rules is ILL; a destination of `copy.q` outside its buffer is a protection fault. -/
def Sys2Proof.Claim.DescriptorsAreChecked : Prop :=
  ∀ (i : Instr) (F : Form) (s : State) (c : Ctx), formOf i = some F → Runs s F c →
    (∀ g q d a b tok, i = .copyQ g q d a b tok →
      let w := c.blockWord (c.rd32 (.s (Opnd.num b + 1)) 0).toNat
      (stbCount c.ag.flight ≠ 0 → exec i s = .next (stalled c)) ∧
      (stbCount c.ag.flight = 0 → ¬ Claim.DescriptorFields w → exec i s = .next (stopped c (flt 4))) ∧
      (stbCount c.ag.flight = 0 → Claim.DescriptorFields w →
        rangeOk c.header c.ways (if ebits (w 0) 12 12 = 1 then .wbuf else .abuf) (c.one32 d).toNat
          ((c.one32 b).toNat / typeBytes (ebits (w 0) 3 0) * typeBytes (ebits (w 0) 7 4)) = false →
        exec i s = .next (stopped c ⟨2, c.rd false d 0, lowLane c.act, true, false⟩))) ∧
    (∀ g buf d a b tok, i = .toolQuant g buf d a b tok →
      let w := c.blockWord (c.one32 b).toNat
      (stbCount c.ag.flight ≠ 0 → exec i s = .next (stalled c)) ∧
      (stbCount c.ag.flight = 0 → ¬ Claim.DescriptorFields w → exec i s = .next (stopped c (flt 4))))

/-- R28, R43, R206: a call whose headers can be fetched is ILL where one of them is valid for no target, and SLAB (code 8)
where they are valid and its record does not fit the root warp's slab; a target whose header may not be fetched is the fault
of that fetch. Each stops the agent precisely. -/
def Sys2Proof.Claim.CallsAreChecked : Prop :=
  ∀ (i : Instr) (F : Form) (s : State) (c : Ctx) (nsave : Nat) (tgt : Nat → DWord) (cont : Int), formOf i = some F →
    Runs s F c →
    ((∃ g off, i = .callDirect g nsave off cont ∧ tgt = fun _ => c.pc + BitVec.ofInt 64 (8 * off)) ∨
     (∃ g a, i = .callRegister g nsave a cont ∧ tgt = c.rd true a)) →
    let at_ := fun (P : State → Place → Nat → DWord → Prop) =>
      (∀ l, c.act.getLsbD l = true → P c.st c.place c.ag.ident.tenant (tgt l)) ∧
      P c.st c.place c.ag.ident.tenant (c.pc + BitVec.ofInt 64 (8 * cont))
    (at_ (fun s p t va => ∃ lo hi, HeaderWords s p t va lo hi) → ¬ at_ (fun s p t va => ∃ b, HeaderAt s p t va b) →
      exec i s = .next (stopped c (flt 4))) ∧
    (at_ (fun s p t va => ∃ b, HeaderAt s p t va b) →
      c.ag.slab < c.st.slabUsed c.ag.ident.root +
        (1 + (nsave - 32 + 63) / 64 + (if ~~~c.ag.ctl.ended &&& ~~~c.act = 0#32 then 0 else 1)) →
      exec i s = .next (stopped c (flt 8))) ∧
    (∀ va code, (∀ l, c.act.getLsbD l = true → tgt l = va) →
      Unmapped c.st c.place.core c.ag.ident.tenant (va - 16#64) .fetch code →
      exec i s = .next (stopped c ⟨code, va - 16#64, lowLane c.act, false, true⟩))

/-- What an instruction finds wrong when it reads its block, its descriptor or its headers stops it precisely. -/
def Obligations.BlocksAndSlabsAreChecked : Prop :=
  Claim.BlocksAreChecked ∧ Claim.DescriptorsAreChecked ∧ Claim.CallsAreChecked

/-! # Steps of the memory system -/

/-- R87 to R93, R96, R102, R221, R316: a page walk, for which the L1 TLB holds the page or a miss entry is had, makes the requests
of the entries it reads, and resolves every lane of the instruction that waits for the page of the leaf it finds, 64 KiB where it
finds none (log 52): with a translation that permits the access each lane gets the location of its own address under the leaf;
with a fault they keep its code and their agent stops, the lowest of them named. Nothing else changes but the TLBs. A
`core`-scope atomic of a page that the L1 does not cache meets the protection fault (R226). An instruction that a restore has
given back takes its request and miss entries first, when there is room for them (R321). -/
def Obligations.PageWalkResolvesItsPage : Prop :=
  ∀ (s s1 : State) (r : XRes) (a id lane : Nat) (x : Agent) (p : Place) (o : MemOp) (l0 first : LaneOp),
    s.op? a id = some (x, p, o) →
    o.lanes.find? (fun l => l.lane == lane && l.st.isFresh) = some l0 →
    (o.waiting = true → s.takesEntries x p o = false → exec (.pageWalk a id lane) s = .next s) ∧
    (o.waiting = true → s.takesEntries x p o = true →
      ∃ u, exec (.pageWalk a id lane) s = .next u ∧ AgentBecomes s u a { x with flight := { x.flight with
        ops := x.flight.ops.map fun q => if q.id = id then
          { q with waiting := false, missed := s.missesOf p.core x.ident.tenant q.untranslated } else q } }) ∧
    (o.waiting = false → s.missEntry x p o l0.va = false → exec (.pageWalk a id lane) s = .next s) ∧
    (o.waiting = false → s.missEntry x p o l0.va = true →
    let want := if o.isLoad || o.isFlush then Want.read else Want.write
    s.translateFor (reqOf p) p.core x.ident.tenant l0.va want = (s1, r) →
    let size := 2 ^ s.pageBits p.core x.ident.tenant l0.va
    let here := fun (l : LaneOp) => l.st.isFresh && decide (l.va.toNat / size = l0.va.toNat / size)
    o.lanes.find? here = some first →
    SameButWalks s s1 ∧ SameBytes s s1 ∧
    (∀ t e, r = .ok t → s1.pageOf p.core x.ident.tenant l0.va = some e → (o.isCoreAtomic && !t.inL1) = false →
      ∃ u, exec (.pageWalk a id lane) s = .next u ∧ AgentBecomes s1 u a
        { x with flight := { x.flight with
          ops := x.flight.ops.map fun q => if q.id = id then MemOp.mapLanes here (fun l =>
            { l with st := .ready, loc := some (e.xlat l.va.toNat) }) q else q } }) ∧
    (∀ code, (r = .fault code ∨ code = 2 ∧ o.isCoreAtomic = true ∧ ∃ t, r = .ok t ∧ t.inL1 = false) →
      ∃ t y, exec (.pageWalk a id lane) s = .next t ∧ AgentBecomes s1 t a y ∧
        y = { x with
          flight := { x.flight with ops := x.flight.ops.map fun q =>
            if q.id = id then MemOp.mapLanes here (fun l => { l with st := .faulted code }) q else q }
          ctl := y.ctl } ∧
        y.ctl = { x.ctl with stop := y.ctl.stop, more := y.ctl.more } ∧
        (x.ctl.stop = none → y.ctl.more = x.ctl.more ∧ ∃ z, y.ctl.stop = some z ∧ z.code = code ∧ z.addr = first.va ∧
          z.lane = first.lane ∧ z.logIx = o.logIx ∧ z.wr = (o.isStore && !o.isFlush) ∧ z.fetch = false ∧
          z.recorded = false) ∧
        (x.ctl.stop ≠ none → y.ctl.stop = x.ctl.stop ∧ ∃ z, y.ctl.more = x.ctl.more ++ [z] ∧ z.code = code ∧
          z.addr = first.va ∧ z.lane = first.lane)))

/-- R91, R92: an entry of the core's L1 TLB answers before the L2 TLB, and that before a walk; what is found is kept in both,
and no byte of memory changes; after an answer that is no fault the L1 TLB holds the leaf that gave it. An address at or above
2^57 is a protection fault (R86). -/
def Obligations.TranslationAsksTheTlbsFirst : Prop :=
  ∀ (s : State) (core tenant : Nat) (va : DWord) (w : Want),
    (144115188075855872 ≤ va.toNat → s.translate core tenant va w = (s, .fault 2)) ∧
    (∀ s1 t, s.translate core tenant va w = (s1, .ok t) → ∃ e, s1.pageOf core tenant va = some e ∧ t = e.xlat va.toNat) ∧
    (va.toNat < 144115188075855872 →
      (∀ e, tlbFind (s.core core).tlb tenant va.toNat = some e → s.translate core tenant va w = (s, e.permit w va.toNat)) ∧
      (tlbFind (s.core core).tlb tenant va.toNat = none →
        (∀ e, tlbFind (s.die (core / 40)).tlb tenant va.toNat = some e →
          ∃ s1, s.translate core tenant va w = (s1, e.permit w va.toNat) ∧ s1.dies = s.dies ∧ SameBytes s s1 ∧
            (s1.core core).tlb.head? = some e) ∧
        (tlbFind (s.die (core / 40)).tlb tenant va.toNat = none →
          (∀ e, walk s tenant (core / 40) va.toNat = .leaf e →
            ∃ s1, s.translate core tenant va w = (s1, e.permit w va.toNat) ∧ SameBytes s s1 ∧
              (s1.core core).tlb.head? = some e ∧ (s1.die (core / 40)).tlb.head? = some e) ∧
          (∀ code, walk s tenant (core / 40) va.toNat = .fault code →
            s.translate core tenant va w = (s, .fault code)))))

/-- R96, R116 to R119, R221, R223: lanes of a load that need not wait and have their source, with all ready ones of a line that is
read at its home, read their bytes; while a lane is left
the registers stay; when none is left the destination's registers that still wait are written, and an acquire at `die`
scope or wider leaves the L1 empty (R95). No byte of memory, no other agent and no PC changes; a sampled load writes its
record (R325). -/
def Sys2Proof.Claim.LoadsReturn : Prop :=
  ∀ (s : State) (a id : Nat) (m : Lanes) (x : Agent) (p : Place) (o : MemOp),
    s.op? a id = some (x, p, o) → o.isLoad = true → o.allAt m LaneSt.isReady = true →
    o.closed m (fun l k => k.st.isReady && o.readsHome l && o.readsHome k) = true →
    (∀ l ∈ o.lanes, m.getLsbD l.lane = true → loadWaits x.flight o l = false ∧ (s.source p.core o l).isSome = true) →
    ∃ t, exec (.loadReturn a id m) s = .next t ∧ (o.sampled = false → SameBytes s t) ∧
      (∀ k, k ≠ a → t.agent? k = s.agent? k) ∧
      let o1 := MemOp.mapLanes (fun l => m.getLsbD l.lane) (loadLane s x p o) o
      (o1.undone = true → SameButHomes s { t with agents := s.agents } ∧
        t.agent? a = some (lanesMoved x id m (loadLane s x p o))) ∧
      (o1.undone = false → ∃ y, t.agent? a = some y ∧
        Delivered id o.dst (o.width == 8) (doneLanes o1) (laneMarks o1) (laneValues o1) (scalarValue s o1) x y ∧
        (o.acquiresWide = true → (t.core p.core).l1 = []) ∧ (o.sampled = true → SampleTaken s t x o1))

/-- R69, R94, R118, R317: what a lane of a load reads: byte by byte the youngest older queued store of its agent to that byte,
else the L1's byte where the line serves it, else memory's, the lowest address lowest. -/
def Sys2Proof.Claim.LoadedBytes : Prop :=
  ∀ (s : State) (x : Agent) (p : Place) (o : MemOp) (l : LaneOp) (i : Nat), i < o.width → o.width ≤ 8 →
    let r := ((loadLane s x p o l).val >>> (8 * i)).setWidth 8
    (∀ b, forwarded x.flight o.id (l.key + i) = some b → r = b) ∧
    (forwarded x.flight o.id (l.key + i) = none →
      (∀ y, s.source p.core o l = some (some y) → r = y.byte (l.key + i)) ∧
      (s.source p.core o l = some none → r = s.byte (l.key + i) ∧
        (nhas s.memMark ((l.key + i) / 32) = true → (loadLane s x p o l).mark = true)))

/-- The n bytes from an offset of a record on, as a number. -/
def Sys2Proof.Claim.field (rec : List Byte) (off n : Nat) : Nat := leVal ((rec.drop off).take n)

/-- R325, R351: the record of a sampled instruction that the tenant's filter admits, where the sample ring is enabled and its
next slot is not the driver's: 64 bytes with the time and PC of issue, the agent's place, its label and flag, the active lanes,
the sectors and requests of the addresses touched, zeros where the table has them, and the gang's index. What depends on
timing is free. The ring's index goes on by one. -/
def Sys2Proof.Claim.SamplesAreRecorded : Prop :=
  ∀ (s : State) (x : Agent) (born : Nat) (pc : DWord) (act : Lanes) (ls : List (Nat × Nat)),
    let t := s.tenant x.ident.tenant
    let b := (t.reg 0xB8).toNat % 32
    let label := ((x.sys.labels.head?).map BitVec.toNat).getD 0
    (BitVec.ofNat 16 label &&& (Config.captureFilter x.ident.tenant).2 =
      (Config.captureFilter x.ident.tenant).1 &&& (Config.captureFilter x.ident.tenant).2) →
    4 ≤ b → b ≤ 20 → (t.sampIx + 1) % 2 ^ b ≠ (t.reg 0xB8).toNat / 256 % 256 * 2 ^ b / 256 →
    ∃ rec u, s.sampleOf x born pc act ls = { u with free := s.free + 6 } ∧
      u = (s.devWrite ((t.reg 0xB0).toNat + 64 * t.sampIx) rec).modTenant x.ident.tenant
        (fun y => { y with sampIx := (t.sampIx + 1) % 2 ^ b }) ∧
      rec.length = 64 ∧ Claim.field rec 0 8 = born % 2 ^ 64 ∧ Claim.field rec 8 8 = pc.toNat ∧
      Claim.field rec 16 4 = whereWord x.ident.tenant x.place % 2 ^ 32 ∧ Claim.field rec 20 2 = label ∧
      Claim.field rec 22 2 = (if x.sys.lovf then 1 else 0) ∧ Claim.field rec 24 4 = act.toNat ∧
      Claim.field rec 28 2 = ((ls.flatMap fun a => [a.1 / 32, (a.1 + a.2 - 1) / 32]).eraseDups).length % 65536 ∧
      Claim.field rec 30 2 = ((ls.map fun a => a.1 / 256).eraseDups).length % 65536 ∧ Claim.field rec 48 1 < 192 ∧
      Claim.field rec 49 3 = 0 ∧ Claim.field rec 56 8 = s.gangIndex x % 2 ^ 64

/-- A load returns the bytes its lanes see, and writes its destination when all have; the record of a sampled one says what it
touched. -/
def Obligations.LoadsReturn : Prop :=
  Claim.LoadsReturn ∧ Claim.LoadedBytes ∧ Claim.SamplesAreRecorded

/-- R17, R132, R225: lanes of a buffer access that need not wait perform at their banks, those of one row together: a store puts
its bytes in the buffer, a load reads its bytes there, and when all lanes have performed the registers of a load's destination
that still wait are written. The banks are taken for this clock. No byte of memory and no other agent changes. -/
def Obligations.BufferAccessesPerform : Prop :=
  ∀ (s : State) (a id : Nat) (m : Lanes) (x : Agent) (p : Place) (o : BufOp),
    s.agent? a = some x → x.place = some p → x.flight.bufOps.find? (fun q => q.id == id) = some o →
    (∃ l ∈ o.lanes, m.getLsbD l.lane = true) →
    (∀ l ∈ o.lanes, m.getLsbD l.lane = true → l.done = false ∧ bufWaits x.flight o l = false) →
    (∀ l ∈ o.lanes, ∀ k ∈ o.lanes, m.getLsbD l.lane = true → k.done = false → k.off / 32 = l.off / 32 →
      m.getLsbD k.lane = true) →
    let b : BufAt := ⟨x.ident.gang, s.posOf x, p.core, o.buf⟩
    let read := fun (l : BufLane) =>
      if m.getLsbD l.lane then
        if o.store then { l with done := true }
        else { l with done := true, val := BitVec.ofNat 64 (s.bufLe b l.off o.width), mark := s.bufAnyMark b l.off o.width }
      else l
    let ls := o.lanes.map read
    let banks := s.banks ++ (o.lanes.filter fun l => m.getLsbD l.lane).map fun l => (p.core, bankNo o.buf l.off)
    ∃ t, exec (.bufferAccessPerform a id m) s = .next t ∧ SameBytes s t ∧ (∀ k, k ≠ a → t.agent? k = s.agent? k) ∧
      (o.store = true → { t with agents := s.agents } =
        { s.bufWrite b ((o.lanes.filter fun l => m.getLsbD l.lane).flatMap
          fun l => cellsAt l.off (leBytes o.width l.x.toNat)) with banks := banks }) ∧
      (o.store = false → { t with agents := s.agents } = { s with banks := banks }) ∧
      ((∃ l ∈ ls, l.done = false) → t.agent? a = some { x with flight := { x.flight with
        bufOps := x.flight.bufOps.map fun q => if q.id = id then { q with lanes := q.lanes.map read } else q } }) ∧
      ((∀ l ∈ ls, l.done = true) → ∃ y, t.agent? a = some y ∧
        y.flight.bufOps = x.flight.bufOps.filter (fun q => q.id != id) ∧
        (o.store = true → y.regs = x.regs ∧ y.ctl = x.ctl ∧ y.flight.pend = x.flight.pend) ∧
        (o.store = false →
          let val := fun i => ((ls.find? fun l => l.lane == i).map fun l => LdKind.extend o.k l.val.toNat).getD 0#64
          let lanes := maskOf fun i => ls.any fun l => l.lane == i
          Delivered id o.dst (o.width == 8) lanes (maskOf fun i => ls.any fun l => l.lane == i && l.mark) val
            (val (lowLane lanes)) x y))

/-- R115 to R118: lanes of a store that need not wait leave the queue: the lines of its core's L1 that hold their bytes take
them, and they are on their way to their homes. Memory itself does not change yet. -/
def Sys2Proof.Claim.StoresDrain : Prop :=
  ∀ (s : State) (a id : Nat) (m : Lanes) (x : Agent) (p : Place) (o : MemOp),
    s.op? a id = some (x, p, o) → o.isPlainStore = true → o.allAt m LaneSt.isReady = true →
    o.closed m (fun _ k => k.st.isReady) = true → (∀ l ∈ o.lanes, m.getLsbD l.lane = true → drainWaits x.flight o l = false) →
    ∃ t cs, exec (.storeDrain a id m) s = .next t ∧
      AgentBecomes { s with cores := cs, sent := s.sent + 1 } t a
        (lanesMoved x id m fun l => { l with st := .drained, stamp := s.sent }) ∧
      SameBytes s t ∧ (∀ k, k ≠ p.core → t.core k = s.core k) ∧
      ∃ l1, t.core p.core = { s.core p.core with l1 := l1 } ∧
        LinesTake ((o.lanes.filter fun l => m.getLsbD l.lane && l.inL1).flatMap fun l =>
          cellsAt l.key (leBytes o.width l.x.toNat)) (s.core p.core).l1 l1

/-- R120: lanes of an atomic of a wider scope than `core` that need not wait are sent to their homes, where they have still to
perform. Nothing else changes. -/
def Sys2Proof.Claim.AtomicsAreSent : Prop :=
  ∀ (s : State) (a id : Nat) (m : Lanes) (x : Agent) (p : Place) (o : MemOp),
    s.op? a id = some (x, p, o) → o.isAtomic = true → o.isCoreAtomic = false → o.allAt m LaneSt.isReady = true →
    o.closed m (fun _ k => k.st.isReady) = true →
    (∀ l ∈ o.lanes, m.getLsbD l.lane = true → atomWaits x.flight o l = false) →
    ∃ t, exec (.storeDrain a id m) s = .next t ∧
      AgentBecomes { s with sent := s.sent + 1 } t a (lanesMoved x id m fun l => { l with st := .sent, stamp := s.sent })

/-- R31, R115, R117, R120, R130: lanes of a store or of a `core`-scope atomic on their way perform at their homes as one
write, if nothing sent before goes first and no engine owns the line: memory holds the bytes, the highest lane deciding,
every other byte stays, and lanes parked on a line written are to wake. -/
def Sys2Proof.Claim.StoresPerform : Prop :=
  ∀ (s : State) (a id : Nat) (m : Lanes) (x : Agent) (p : Place) (o : MemOp),
    s.op? a id = some (x, p, o) → o.isFlush = false → o.allAt m LaneSt.isDrained = true →
    o.closed m (fun l k => k.st.isDrained && l.stamp == k.stamp) = true →
    (∀ l ∈ o.lanes, m.getLsbD l.lane = true →
      s.earlierSent p.core o.width l = false ∧ s.ownedLine (.issued o.issued) l.key = false) →
    let cells := o.cells (o.lanes.filter fun l => m.getLsbD l.lane)
    ∃ t, exec (.storePerform a id m) s = .next t ∧
      SameButHomes ((s.write cells).wakeLines ((cells.map fun c => c.1 / 64).eraseDups))
        { t with agents := ((s.write cells).wakeLines ((cells.map fun c => c.1 / 64).eraseDups)).agents } ∧
      (∀ k, k ≠ a → t.agent? k = ((s.write cells).wakeLines ((cells.map fun c => c.1 / 64).eraseDups)).agent? k) ∧
      (∀ k, (∀ l ∈ o.lanes, m.getLsbD l.lane = true → ¬ (l.key ≤ k ∧ k < l.key + o.width)) → t.byte k = s.byte k) ∧
      (∀ l, o.lanes.filter (fun l => m.getLsbD l.lane) = [l] →
        ∀ i, i < o.width → t.byte (l.key + i) = BitVec.ofNat 8 ((o.out l).toNat / 256 ^ i))

/-- R120: an instruction whose lanes are all acknowledged at a scope leaves that scope's count, and leaves its agent's work in
flight when nothing of it is outstanding. No byte changes but by the record of a sampled store that completes (R325). -/
def Sys2Proof.Claim.StoresAreAcknowledged : Prop :=
  ∀ (s : State) (a id : Nat) (sc : Scope) (x : Agent) (p : Place) (o : MemOp),
    s.op? a id = some (x, p, o) → o.isStore = true → o.acked sc = false → o.rest = 0 →
    (∀ l ∈ o.lanes, s.laneAcked (p.core / 40) sc l = true) →
    ∃ t, exec (.storeAcknowledge a id sc) s = .next t ∧
      (o.sampled = false ∨ o.returns = true ∨ (o.ack sc).finished = false → SameBytes s t) ∧
      (o.sampled = true → o.returns = false → (o.ack sc).finished = true → SampleTaken s t x o) ∧
      t.agent? a = some { x with flight := { x.flight with
        ops := (x.flight.ops.map fun q => if q.id = id then MemOp.ack sc q else q).filter fun q => !q.finished } } ∧
      (∀ k, k ≠ a → t.agent? k = s.agent? k)

/-- R121, R230, R275, R278, R298, R300: a release proceeds once the agent's older writes are acknowledged at its scope, its
older loads and buffer stores have performed and its older set instructions are complete: a memory instruction may then perform,
a `gstart` may go on, a `fence` ends (with acquire it also waits for the older loads, and at `die` scope or wider leaves the L1
empty), an `fdefer` has released and then, with room, enters the latigo queue with the target ISSUED; without room it waits, and
a `set.free` that waited issues again. Lanes parked before such a wait go on with it, since an entry is the one condition that
they wait for then (log 112). No byte changes. -/
def Sys2Proof.Claim.ReleasesProceed : Prop :=
  ∀ (s : State) (a : Nat) (x : Agent) (p : Place), s.agent? a = some x → x.place = some p →
    (∀ id o, x.flight.ops.find? (fun q => q.id == id) = some o → id ≠ 0 → o.released = false →
      s.releaseReady x o.scope id = true →
      ∃ t, exec (.releaseProceed a id) s = .next t ∧ AgentBecomes s t a { x with flight := { x.flight with
        ops := x.flight.ops.map fun q => if q.id = id then { q with released := true } else q } }) ∧
    (∀ id, id ≠ 0 → x.flight.ops.find? (fun q => q.id == id) = none → (∃ g ∈ x.flight.gstarts, g.1 = id ∧ g.2.2 = false) →
      s.releaseReady x .device id = true →
      ∃ t, exec (.releaseProceed a id) s = .next t ∧ AgentBecomes s t a { x with flight := { x.flight with
        gstarts := x.flight.gstarts.map fun g => if g.1 = id then (g.1, g.2.1, true) else g } }) ∧
    (x.ctl.stop = none →
      (∀ o sc, x.ctl.hold = .fence o sc →
        (Order.isRel o = true → s.releaseReady x sc x.flight.nextOp = true) →
        (Order.isAcq o = true → x.flight.loadsWritten = true) →
        ∃ t q, exec (.releaseProceed a 0) s = .next t ∧ SameBytes s t ∧
          AgentBecomes { s with cores := t.cores } t a
            { x with ctl := { x.ctl with pcs := q, hold := .none, waitRun := 0#32, waitSince := none } } ∧
          PcsAdvanced x.ctl.waitRun 8 x.ctl.pcs q ∧
          (Order.isAcq o = true → sc ≠ .core → (t.core p.core).l1 = [])) ∧
      (∀ addr len pool b, x.ctl.hold = .fdefer addr len pool false b → s.releaseReady x .device x.flight.nextOp = true →
        ∃ t, exec (.releaseProceed a 0) s = .next t ∧ AgentBecomes s t a { x with
          ctl := { x.ctl with hold := .fdefer addr len pool true false } }) ∧
      (∀ addr len pool b, x.ctl.hold = .fdefer addr len pool true b → s.latigoRoom (p.core / 40) x.ident.tenant = false →
        ∃ t, exec (.releaseProceed a 0) s = .next t ∧ AgentBecomes s t a { x with
          ctl := { x.ctl with hold := .fdefer addr len pool true true } }) ∧
      (∀ addr len pool b, x.ctl.hold = .fdefer addr len pool true b → s.latigoRoom (p.core / 40) x.ident.tenant = true →
        ∃ t q, exec (.releaseProceed a 0) s = .next t ∧ SameBytes s t ∧
          AgentBecomes { s with dies := t.dies } t a
            { x with ctl := { x.ctl with
                pcs := q, hold := .none, waitRun := 0#32, waitSince := none
                parked := if b then 0#32 else x.ctl.parked, parks := if b then [] else x.ctl.parks } } ∧
          PcsAdvanced x.ctl.waitRun 8 x.ctl.pcs q ∧
          (t.die (p.core / 40)).latigo = (s.die (p.core / 40)).latigo ++
            [{ tenant := x.ident.tenant, target := (s.tenant x.ident.tenant).issued,
               kind := .block addr len.toNat pool.toNat, seq := x.eng.seq }]) ∧
      (x.ctl.hold = .setFree → s.latigoRoom (p.core / 40) x.ident.tenant = true →
        ∃ t, exec (.releaseProceed a 0) s = .next t ∧ AgentBecomes s t a { x with
          ctl := { x.ctl with hold := .none, waitRun := 0#32, waitSince := none, parked := 0#32, parks := [] } }))

/-- Stores drain, perform and are acknowledged, atomics are sent, and releases wait for them. -/
def Obligations.StoresAndReleasesProceed : Prop :=
  Claim.StoresDrain ∧ Claim.AtomicsAreSent ∧ Claim.StoresPerform ∧ Claim.StoresAreAcknowledged ∧ Claim.ReleasesProceed

/-- R96, R125 to R127, R226, R227, R229: lanes of an atomic that need not wait, those of one line together, perform in lane order,
a lane reading what an earlier one wrote. In the L1 atomic unit the core's line takes the new values and memory does not change
yet; at a home slice memory holds them, no other byte changes and the issuing core's copies of the lines leave, which is the
model's reading (log 16, DEDUCED). The old values go to the registers
of an `atom` once all its lanes have performed, and, lane by lane as far as no lower lane of the same target is left, to the
targets of a `red.ret`, each followed by its arrival. A sampled `atom` writes its record (R325). -/
def Obligations.AtomicsPerform : Prop :=
  ∀ (s : State) (a id : Nat) (m : Lanes) (x : Agent) (p : Place) (o : MemOp) (op : AOp) (k : AKind),
    s.op? a id = some (x, p, o) → o.atomic = some (op, k) → o.allAt m LaneSt.toDo = true →
    o.closed m (fun l k => k.st.toDo && l.st == k.st && l.stamp == k.stamp) = true →
    (∀ l ∈ o.lanes, m.getLsbD l.lane = true → atomWaits x.flight o l = false) →
    (if o.isCoreAtomic then
      ∀ l ∈ o.lanes, m.getLsbD l.lane = true → (kget (s.core p.core).l1 (l.key / 64)).isSome = true ∧
        s.drainedOn (fun y => y.core == p.core) (l.key / 64) = false
    else ∀ l ∈ o.lanes, m.getLsbD l.lane = true → s.atomHeld p.core o l = false) →
    let r := atomResults s p o op k m
    let cells := r.flatMap fun l => cellsAt l.key (leBytes o.width l.y.toNat)
    let mine := o.lanes.filter fun l => m.getLsbD l.lane
    let o1 := MemOp.mapLanes (fun l => m.getLsbD l.lane) (atomLane s r o) o
    let moved := x.flight.ops.map fun q =>
      if q.id = id then MemOp.mapLanes (fun l => m.getLsbD l.lane) (atomLane s r o) q else q
    ∃ t, exec (.atomicPerform a id m) s = .next t ∧
      (o.sampled = false ∨ o1.undone = true → o.isCoreAtomic = true → SameBytes s t) ∧
      (o.sampled = false ∨ o1.undone = true → o.isCoreAtomic = false → ∀ j, t.byte j = (s.write cells).byte j) ∧
      (o.isCoreAtomic = true → LinesTake cells (s.core p.core).l1 (t.core p.core).l1) ∧
      (o.isCoreAtomic = false → ∀ c ∈ cells, kget (t.core p.core).l1 (c.1 / 64) = none) ∧
      (∀ l, mine = [l] → cells = cellsAt l.key (leBytes o.width
        (atomNew op k (match r with | [q] => q.val | _ => 0#64) (atomOperand k l.x) (atomOperand k l.y)).toNat)) ∧
      (∀ q, q ≠ a → (t.agent? q).map Agent.regs = (s.agent? q).map Agent.regs) ∧
      (∀ b1 b2, o.kind = .atom b1 b2 →
        (o1.undone = true → ∃ y, t.agent? a = some y ∧ y.regs = x.regs ∧ y.flight = { x.flight with ops := moved }) ∧
        (o1.undone = false →
          (∃ x1 y, x1.regs = x.regs ∧ x1.flight.pend = x.flight.pend ∧ t.agent? a = some y ∧
            Delivered id o.dst (o.width == 8) (doneLanes o1) (laneMarks o1) (laneValues o1) (scalarValue s o1) x1 y) ∧
          (o.sampled = true → o.isCoreAtomic = true → SampleTaken s t x o1) ∧
          (o.sampled = true → o.isCoreAtomic = false → SampleTaken (s.write cells) t x o1))) ∧
      (∀ b1 b2, o.kind = .red b1 b2 → ∃ y, t.agent? a = some y ∧ y.regs = x.regs ∧
        y.flight = { x.flight with ops := moved.filter fun q => !q.finished }) ∧
      (∀ b1 b2 g, o.kind = .redRet b1 b2 → s.gang? x.ident.gang = some g →
        let ls := o1.lanes.filter fun l => l.performed && !l.back &&
          o1.lanes.all fun j => decide (l.lane ≤ j.lane) || j.target != l.target || j.performed || j.st.isOver
        let sent := moved.map fun q =>
          if q.id = id then MemOp.mapLanes (fun l => ls.any fun j => j.lane == l.lane) (fun l => { l with back := true }) q else q
        (∃ y, t.agent? a = some y ∧ y.regs = x.regs ∧
          y.flight = { x.flight with ops := sent.filter fun q => !q.finished }) ∧
        (t.gang? x.ident.gang).map Gang.msgs =
          some (g.msgs ++ ls.map fun l => (tgtPos l.target, tgtBar l.target, .arrive)) ∧
        ((∀ l ∈ ls, tgtOff l.target + o.width ≤ 262144) →
          ∀ l ∈ ls, (∀ j ∈ ls, j = l ∨ tgtPos j.target ≠ tgtPos l.target ∨ tgtOff j.target + o.width ≤ tgtOff l.target ∨
              tgtOff l.target + o.width ≤ tgtOff j.target) →
            ∀ core i, i < o.width → t.bufByte ⟨x.ident.gang, tgtPos l.target, core, .abuf⟩ (tgtOff l.target + i) =
              BitVec.ofNat 8 (l.val.toNat / 256 ^ i)))

/-! # Caches, channels and walks -/

/-- R18, R20, R94, R96, R97: a line of the L1 that an instruction waits for is filled with the bytes that memory holds then, in the
way named, and with it the others of its 256 bytes that the instruction waits for; a line of an instruction cache that a fetch
waits for likewise; sectors that have come from HBM become valid in their L2 line. A line whose read its home holds is not filled
(R120, R130). No byte of memory and no agent changes. -/
def Obligations.FillsBringMemory : Prop :=
  (∀ (s : State) (core line way : Nat) (p : Place) (o : MemOp), s.wantsLine core line = some (p, o) →
    way < (s.core core).cacheWays →
    let wanted := fun (n : Nat) => n / 4 = line / 4 ∧ ∃ l ∈ o.lanes, o.waitsForL1 (s.core core).l1 l = true ∧ l.key / 64 = n
    ((∃ n, wanted n ∧ s.lineHeld core (.issued o.issued) n = true) → exec (.l1Fill core line way) s = .next s) ∧
    ((∀ n, wanted n → s.lineHeld core (.issued o.issued) n = false) →
    ∃ u, exec (.l1Fill core line way) s = .next u ∧ SameBytes s u ∧ u.agents = s.agents ∧
      (∀ k, k ≠ core → u.core k = s.core k) ∧
      ∀ n, wanted n → ∃ e, kget (u.core core).l1 n = some e ∧ (n = line → e.way = way) ∧
        (∀ i, i < 64 → e.byte (64 * n + i) = s.byte (64 * n + i)) ∧
        (∀ g, g < 2 → e.marks.getLsbD g = nhas s.memMark (2 * n + g)))) ∧
  (∀ (s : State) (core part line : Nat) (drop : Option Nat) (p : Place) (t : Nat) (x : Xlat),
    s.wantsCode core part line = some (p, t, x) →
    (s.codeHeld p x.key = true → exec (.icacheFill core part line drop) s = .next s) ∧
    (s.codeHeld p x.key = false → s.loses x = false → ∃ u e, exec (.icacheFill core part line drop) s = .next u ∧ SameBytes s u ∧ u.agents = s.agents ∧
      (∀ k, k ≠ core → u.core k = s.core k) ∧ kget (u.core core).icache (iKey part line) = some e ∧
      ∀ i, i < 128 → (e >>> (8 * i)).setWidth 8 = s.byte (128 * line + i))) ∧
  (∀ (s : State) (ix : Nat) (victim : Option Nat) (line : Nat) (mask : BitVec 8) (coded : Bool),
    s.fills[ix]? = some (line, mask, coded) → line < 2 ^ 80 →
    ∃ u e, exec (.l2Fill ix victim) s = .next u ∧ SameBytes s u ∧ u.agents = s.agents ∧ u.cores = s.cores ∧
      u.fills = s.fills.eraseIdx ix ∧ kget u.l2 line = some e ∧
      e.valid = (kgetD L2Line.absent s.l2 line).valid ||| mask ∧ e.dirty = (kgetD L2Line.absent s.l2 line).dirty)

/-- R98: a slice that obtains ownership of a host line, which it holds or which a write of its die needs, owns it; no line of
another die holds that host line any more, and no other line changes. -/
def Sys2Proof.Claim.OwnershipIsExclusive : Prop :=
  ∀ (s : State) (line d h : Nat) (l : L2Line),
    (kget s.l2 line = some l ∨ kget s.l2 line = none ∧ s.wantsHost line = true ∧ l = ⟨0, 0, false, false⟩) →
    hostLine line = some (d, h) → l.owned = false →
    ∃ m, exec (.cxlOwnership line) s = .next { s with l2 := m } ∧ kget m line = some { l with owned := true } ∧
      (∀ k d2, k ≠ line → hostLine k = some (d2, h) → kget m k = none) ∧
      (∀ k, (∀ d2, hostLine k ≠ some (d2, h)) → kget m k = kget s.l2 k)

/-- R104, R105, R107, R97: a channel scheduler serves, of the requests of its stack that can be issued, one that none of the
others goes before; it leaves the queue, a read brings its sectors towards the L2, a write decides the coding of the granules it
writes and no other, and the row buffer holds its row, unless it was a last use: then the first request left for that row of
that bank is the last use instead, and with none left the row is closed. A request served late is counted for its requester. No
byte of memory and no agent changes. -/
def Sys2Proof.Claim.ChannelsServeInOrder : Prop :=
  ∀ (s : State) (stack : Nat) (ids : List Nat) (r : HbmReq), kget s.device.sliBusy stack = none →
    pickReq (s.hbm.filter fun q => q.stack == stack && ids.contains q.id) = some r →
    r ∈ s.hbm ∧ r.stack = stack ∧ r.id ∈ ids ∧
    (∀ q ∈ s.hbm, q.stack = stack → q.id ∈ ids → q.before r = false) ∧
    let rest := s.hbm.filter fun q => q.id != r.id
    let same := fun (q : HbmReq) => decide (Config.bankOf q.line = Config.bankOf r.line ∧ Config.rowOf q.line = Config.rowOf r.line)
    ∃ u, exec (.hbmRequestService stack ids) s = .next u ∧ SameBytes s u ∧ u.agents = s.agents ∧ u.l2 = s.l2 ∧
      (r.lu = false ∨ rest.find? same = none → u.hbm = rest) ∧
      (∀ q, r.lu = true → rest.find? same = some q →
        u.hbm = rest.map fun j => if j.id = q.id then { j with lu := true } else j) ∧
      u.fills = (if r.write = false ∧ r.alloc = true then s.fills ++ [(r.line, r.mask, r.coded)] else s.fills) ∧
      (r.write = false → u.coded = s.coded) ∧
      (r.write = true → ∀ g, nhas u.coded g =
        if g / 8 = r.line ∧ r.mask.getLsbD (g % 8) = true then r.coded else nhas s.coded g) ∧
      (∀ b, kgetD 0 u.rows b = if b ≠ Config.bankOf r.line then kgetD 0 s.rows b
        else if r.lu = true ∧ rest.find? same = none then 0 else Config.rowOf r.line + 1) ∧
      kgetD 0#32 u.device.missed r.req =
        (if r.late s.time = true ∧ kgetD 0#32 s.device.missed r.req ≠ 0xFFFFFFFF#32
          then kgetD 0#32 s.device.missed r.req + 1#32 else kgetD 0#32 s.device.missed r.req)

/-- R104: a request past its deadline is counted once for its requester, the counter stopping at its top. -/
def Sys2Proof.Claim.MissedDeadlinesCount : Prop :=
  ∀ (s : State) (req : Nat) (r : HbmReq), s.hbm.find? (fun q => q.req == req && q.late s.time) = some r →
    ∃ m, exec (.deadlineMiss req) s = .next { s with
        hbm := s.hbm.map fun q => if q.id = r.id then { q with missed := true } else q
        device := { s.device with missed := m } } ∧
      (∀ k, k ≠ req → kgetD 0#32 m k = kgetD 0#32 s.device.missed k) ∧
      kgetD 0#32 m req = (if kgetD 0#32 s.device.missed req = 0xFFFFFFFF#32 then 0xFFFFFFFF#32
        else kgetD 0#32 s.device.missed req + 1#32)

/-- R130: a copy whose owned part of a line is all written gives the line up, and owns what it owned elsewhere. -/
def Sys2Proof.Claim.WrittenLinesAreReleased : Prop :=
  ∀ (s : State) (core cmd line : Nat) (k : Copy), s.copy? core cmd = some k →
    (List.range 8).filter (fun i => k.owned.any fun r =>
      decide (r.1 ≤ line * 256 + 32 * i) && decide (line * 256 + 32 * i < r.2)) ≠ [] →
    (List.range 8).filter (fun i => k.owned.any fun r =>
      decide (r.1 ≤ line * 256 + 32 * i) && decide (line * 256 + 32 * i < r.2)) =
      (List.range 8).filter (fun i => k.written.any fun r => r.1 == line * 256 + 32 * i) →
    ∃ u j, exec (.engineLineRelease core cmd line) s = .next u ∧ u = { s with cores := u.cores } ∧
      (∀ n, n ≠ core → u.core n = s.core n) ∧ u.copy? core cmd = some j ∧
      j = { k with owned := j.owned, written := j.written } ∧
      ∀ a, (∃ r ∈ j.owned, r.1 ≤ a ∧ a < r.2) ↔ a / 256 ≠ line ∧ ∃ r ∈ k.owned, r.1 ≤ a ∧ a < r.2

/-- R240: a conversion takes effect: the ways are those asked for, and the bytes of the ways that stay converted are kept;
ways converted anew hold zeros. -/
def Sys2Proof.Claim.ConversionTakesEffect : Prop :=
  ∀ (s : State) (core : Nat), (s.core core).converting = true →
    ((s.core core).ways ≤ (s.core core).waysAsked ∨
      s.bufAbove core (s.core core).waysAsked = false ∧ (∀ k ∈ (s.core core).copies, k.cancel = false) ∧
        (∀ k ∈ (s.core core).tools, k.cancel = false) ∧
        ∀ c ∈ s.cores, ∀ k ∈ c.2.copies, k.cancel = true → s.multicastTo core k = false) →
    ∃ u, exec (.l1Conversion core) s = .next u ∧ u = { s with cores := u.cores } ∧
      (∀ n, n ≠ core → u.core n = s.core n) ∧
      u.core core = { s.core core with
        ways := (s.core core).waysAsked, converting := false, wayMem := (u.core core).wayMem,
        wayMark := (u.core core).wayMark } ∧
      ∀ off, kgetD 0#8 (u.core core).wayMem off =
        if off < min (s.core core).waysAsked (s.core core).ways * 16384 then kgetD 0#8 (s.core core).wayMem off else 0#8

/-- Host lines have one owner, copies give up the lines they have written, channels serve in their order, missed deadlines are
counted, and an L1 conversion takes effect. -/
def Obligations.ChannelsOwnershipAndConversion : Prop :=
  Claim.OwnershipIsExclusive ∧ Claim.ChannelsServeInOrder ∧ Claim.MissedDeadlinesCount ∧ Claim.WrittenLinesAreReleased ∧
  Claim.ConversionTakesEffect

/-- R108, R120, R130: what one read of a walk gives. A read that is not aligned ends the lane with status 6, one that meets a
translation fault with 2 or a protection fault with 3, one of a page of TIER 2 or 3 with 5, one of a marked granule with 4; one
of a line that an engine owns, or that the path to its home has writes before, waits; any other gives the value. -/
def Sys2Proof.Claim.WalkReads : Prop :=
  ∀ (s : State) (core tenant : Nat) (va : DWord) (n align : Nat),
    let r := s.hopRead core tenant va n align
    (va.toNat % align ≠ 0 → r = .stop 6 []) ∧
    (va.toNat % align = 0 →
      (∀ s1, s.translate core tenant va .read = (s1, .fault 1) → r = .stop 2 [⟨va, none, n⟩]) ∧
      (∀ s1, s.translate core tenant va .read = (s1, .fault 2) → r = .stop 3 [⟨va, none, n⟩]) ∧
      (∀ s1 x, s.translate core tenant va .read = (s1, .ok x) →
        (2 ≤ x.tier → r = .stop 5 [⟨va, none, n⟩]) ∧
        (x.tier < 2 → s.reachHeld (core / 40) .any x.key = true → r = .wait) ∧
        (x.tier < 2 → s.reachHeld (core / 40) .any x.key = false →
          (s.marked x.key n = true → r = .stop 4 [⟨va, some x, n⟩]) ∧
          (s.marked x.key n = false → r = .val (s.le x.key n) ⟨va, some x, n⟩))))

/-- R108, R109: what one hop of a walk does. A LINK goes to the pointer at P + OFF, and ends with 0 at a null one; an INDEX
goes to BASE + 4 × v for the word v at P; a SAMPLE reads a pointer and a length at P, ends with 0 at the length 0, and else
goes to BASE + 16 × v for the word v at the element that the mixer of its seed and hop number chooses. A read that ends or
holds a lane ends or holds its hop. -/
def Sys2Proof.Claim.HopsFollowTheirRule : Prop :=
  ∀ (s : State) (core tenant : Nat) (c : Chase) (l : ChaseLane),
    let h := s.hop core tenant c l
    let rd := s.hopRead core tenant
    let at_ := if c.mode = 0 then l.p + c.off.signExtend 64 else l.p
    let n := if c.mode = 1 then 4 else 8
    (∀ k rs, rd at_ n n = .stop k rs → h = .stop k rs) ∧ (rd at_ n n = .wait → h = .wait) ∧
    (∀ v x, rd at_ n n = .val v x →
      (c.mode = 0 → h = if v = 0 then .stop 0 [x] else .go (BitVec.ofNat 64 v) [x]) ∧
      (c.mode = 1 → h = .go (c.base + BitVec.ofNat 64 (4 * v)) [x]) ∧
      (2 ≤ c.mode →
        (∀ k rs, rd (l.p + 8#64) 4 4 = .stop k rs → h = .stop k (x :: rs)) ∧ (rd (l.p + 8#64) 4 4 = .wait → h = .wait) ∧
        (∀ y, rd (l.p + 8#64) 4 4 = .val 0 y → h = .stop 0 [x, y]) ∧
        (∀ len y, rd (l.p + 8#64) 4 4 = .val len y → len ≠ 0 →
          let e := BitVec.ofNat 64 (v + 4 * ((mixer l.seed (BitVec.ofNat 32 l.hops)).toNat % len))
          (∀ k rs, rd e 4 4 = .stop k rs → h = .stop k (x :: y :: rs)) ∧ (rd e 4 4 = .wait → h = .wait) ∧
          (∀ w z, rd e 4 4 = .val w z → h = .go (c.base + BitVec.ofNat 64 (16 * w)) [x, y, z]))))

/-- R108, R129, R239, R323, R325: a lane of a walk that has started, or whose issuer's older work is done and that no breakpoint
holds, takes its next hop: it goes on at its new address, counting the hop, or ends with a status; at its limit it ends with 1. The
walk keeps what its hops have read. When all lanes have ended the three destination registers that still wait take the address and
the result word of each active lane. A walk that meets a breakpoint before it has started is held and reported instead. One that a
restore has given back takes its request entries first, when there is room for them (R321). -/
def Sys2Proof.Claim.WalksHop : Prop :=
  ∀ (s : State) (a id lane : Nat) (x : Agent) (p : Place) (c : Chase),
    s.agent? a = some x → x.place = some p → x.flight.chases.find? (fun q => q.id == id) = some c → c.held = false →
    (c.waiting = true →
      (s.chaseEntries p.core c = false → exec (.chaseHop a id lane) s = .next s) ∧
      (s.chaseEntries p.core c = true → ∃ u, exec (.chaseHop a id lane) s = .next u ∧
        AgentBecomes s u a { x with flight := { x.flight with
          chases := x.flight.chases.map fun q => if q.id = id then { q with waiting := false } else q } })) ∧
    (c.waiting = false →
    (c.released = false → c.unstarted = true → s.engineBreak x 7 c.seq = true →
      ∃ u y, exec (.chaseHop a id lane) s = .next u ∧ SameBytes s u ∧ u.agent? a = some y ∧
        y = { x with flight := { x.flight with
          chases := x.flight.chases.map fun q => if q.id = id then { q with held := true } else q } } ∧
        (∀ k, k ≠ a → u.agent? k = s.agent? k) ∧
        ∃ r, (u.tenant x.ident.tenant).reports = (s.tenant x.ident.tenant).reports ++ [r] ∧ HeldReport s x c.seq r) ∧
    ∀ (l : ChaseLane),
    (c.released = false → c.unstarted = true → s.engineBreak x 7 c.seq = false) →
    (c.unstarted = true → s.engineReady x id = true) →
    c.lanes.find? (fun q => q.lane == lane && q.status.isNone) = some l →
    ∀ (l2 : ChaseLane) (reads : List HopAt),
      ((∃ k, s.hop p.core x.ident.tenant c l = .stop k reads ∧ l2 = { l with status := some k }) ∨
        (∃ q, s.hop p.core x.ident.tenant c l = .go q reads ∧
          l2 = { l with p := q, hops := l.hops + 1, status := if l.limit ≤ l.hops + 1 then some 1 else none })) →
      (∀ q ∈ c.lanes, q.lane = lane → q = l) →
      let ls := c.lanes.map fun q => if q.lane = lane then l2 else q
      ∃ u, exec (.chaseHop a id lane) s = .next u ∧ (∀ k, k ≠ a → u.agent? k = s.agent? k) ∧
        (Untraced s x.ident.tenant → c.sampled = false → SameBytes s u) ∧
        ((∃ q ∈ ls, q.status = none) →
          ∃ y, u.agent? a = some y ∧ y.regs = x.regs ∧ y.ctl = x.ctl ∧
            (y.flight.chases.find? fun q => q.id == id) = some { c with
              lanes := ls
              touched := c.touched ++ (reads.filter fun r => r.x.isSome).map fun r => (r.va.toNat, r.n) }) ∧
        ((∀ q ∈ ls, q.status ≠ none) → ∃ y, u.agent? a = some y ∧ y.ctl = x.ctl ∧
          (y.flight.chases = x.flight.chases.filter fun q => q.id != id) ∧
          (∀ i, i < 32 → c.act.getLsbD i = true → ∀ q, ls.find? (fun q => q.lane == i) = some q →
            (x.flight.waits (.v c.d) id = true → y.regs.vlane c.d i = q.p.setWidth 32) ∧
            (x.flight.waits (.v (c.d + 1)) id = true → y.regs.vlane (c.d + 1) i = (q.p >>> 32).setWidth 32) ∧
            (x.flight.waits (.v (c.d + 2)) id = true → y.regs.vlane (c.d + 2) i = q.word))))

/-- A walk reads and goes from hop to hop by its rule. -/
def Obligations.WalkHops : Prop :=
  Claim.WalkReads ∧ Claim.HopsFollowTheirRule ∧ Claim.WalksHop

/-! # Steps of the engines -/

/-- R14, R129, R130, R323: the first waiting copy of a core whose lines no earlier command owns takes its first free engine once
its issuer's older work of R129 is done; a copy that meets an engine breakpoint before it has started is held and reported
instead. -/
def Sys2Proof.Claim.CopiesTakeAnEngine : Prop :=
  ∀ (s : State) (core e : Nat) (k : Copy) (x : Agent),
    (List.range 4).find? (fun i => !((((s.core core).copies.filter fun k =>
      k.engine.isSome && !s.saving k.gang).filterMap Copy.engine).contains i)) = some e →
    (s.core core).copies.find? (fun k =>
      k.engine.isNone && !k.held && !s.saving k.gang && !s.ownedBefore k.stamp k.owned) = some k →
    s.agent? k.agent = some x →
    (k.chunk = 0 → k.stopped = false → k.released = false → s.engineBreak x 0 k.seq = true →
      ∃ u, exec (.copyEngineStart core) s = .next u ∧ SameBytes s u ∧ u.agents = s.agents ∧
        (u.core core).copies = (s.core core).copies.map (fun j => if j.id = k.id then { j with held := true } else j) ∧
        ∃ r, (u.tenant x.ident.tenant).reports = (s.tenant x.ident.tenant).reports ++ [r] ∧ r.code = 12 ∧
          HeldReport s x k.seq r) ∧
    ((k.chunk ≠ 0 ∨ k.stopped = true ∨ k.released = true ∨ s.engineBreak x 0 k.seq = false) →
      s.olderDone k.agent k.after = true →
      ∃ u, exec (.copyEngineStart core) s = .next u ∧ (Untraced s k.issuer.tenant → SameBytes s u) ∧ u.agents = s.agents ∧
        (∀ n, n ≠ core → u.core n = s.core n) ∧
        (u.core core).copies = (s.core core).copies.map (fun j =>
          if j.id = k.id then { j with engine := some e, stopped := false } else j))

/-- R130, R232 to R236, R101: a running copy moves one chunk of 4 KiB. A copy out writes the buffer's bytes at the locations
of its addresses, as one write that wakes what is parked on the lines; a copy in writes the source's bytes, or what
quantising them gives, to its buffer or to that of every core of the gang. Where a granule of the source is marked, what the
chunk has written is marked. A page that faults ends the copy with status 2 after nothing of the chunk; a copy that has been
cancelled ends with status 1; the info is the chunk's number. A line that an engine came to own earlier holds the chunk, as do
writes before it on the path to another die (R120), and a bank at which a load or store has performed in this clock (R17). -/
def Sys2Proof.Claim.CopiesMoveChunks : Prop :=
  ∀ (s : State) (core cmd : Nat) (k : Copy), s.copy? core cmd = some k →
    let tenant := s.cmdTenant k.gang
    let req := (copyOrigin core k.qual (k.engine.getD 0)).req
    let lo := 4096 * k.chunk
    let len := min 4096 (k.dstBytes - lo)
    let free := ∀ p ∈ s.copyTargets core k, s.bankTaken p (k.buf + lo) len = false
    let arrive := fun (s1 u : State) (data : List Byte) (bad : Bool) =>
      (∀ q off, u.bufByte q off = ((s1.copyTargets core k).foldl
        (fun s p => s.bufWrite p (cellsAt (k.buf + lo) data)) s1).bufByte q off) ∧
      (bad = true → (s.gang? k.gang).isSome = true → ∀ p ∈ s.copyTargets core k, ∀ i, i < data.length / 32 →
        u.bufMarked p ((k.buf + lo) / 32 + i) = true)
    (k.cancel = true → ∃ u, exec (.copyChunk core cmd) s = .next u ∧ CopyEnds s u core k 1 k.chunk ∧
      (Untraced s k.issuer.tenant → SameBytes s u)) ∧
    (k.cancel = false → k.engine.isSome = true → k.held = false → s.saving k.gang = false → Untraced s k.issuer.tenant →
      (∀ cbuf s1 xs, k.kind = .out cbuf →
        let p : BufAt := ⟨k.gang, k.pos, core, if cbuf then .cbuf else .abuf⟩
        (∀ code, locate req core tenant 32 .write (len / 32) (k.glob + BitVec.ofNat 64 lo) s = (s1, xs, .fault code) →
          ∃ u, exec (.copyChunk core cmd) s = .next u ∧ CopyEnds s u core k 2 k.chunk ∧ SameBytes s u) ∧
        (locate req core tenant 32 .write (len / 32) (k.glob + BitVec.ofNat 64 lo) s = (s1, xs, .done) →
          ((∃ a ∈ xs, s1.reachHeld (core / 40) (.command k.stamp) a.key = true) → exec (.copyChunk core cmd) s = .next s) ∧
          ((∀ a ∈ xs, s1.reachHeld (core / 40) (.command k.stamp) a.key = false) → s1.bankTaken p (k.buf + lo) len = false →
            let cells := xs.zipIdx.flatMap fun e => cellsAt e.1.key (((s1.bufBytes p (k.buf + lo) len).drop (e.2 * 32)).take 32)
            let bad := s1.bufAnyMark p (k.buf + lo) len
            ∃ u, exec (.copyChunk core cmd) s = .next u ∧ (∀ a, u.byte a = (s.write cells).byte a) ∧
              (bad = true → ∀ a ∈ xs, nhas u.memMark (a.key / 32) = true) ∧
              CopyMoves (s.wakeLines ((cells.map fun c => c.1 / 64).eraseDups)) u core k 0 bad))) ∧
      (∀ s1 xs, k.kind = .abuf ∨ k.kind = .wbuf ∨ k.kind = .mc →
        (∀ code, locate req core tenant 32 .read (len / 32) (k.glob + BitVec.ofNat 64 lo) s = (s1, xs, .fault code) →
          ∃ u, exec (.copyChunk core cmd) s = .next u ∧ CopyEnds s u core k 2 k.chunk ∧ SameBytes s u) ∧
        (locate req core tenant 32 .read (len / 32) (k.glob + BitVec.ofNat 64 lo) s = (s1, xs, .done) →
          ((∃ a ∈ xs, s1.reachHeld (core / 40) (.issued k.stamp) a.key = true) → exec (.copyChunk core cmd) s = .next s) ∧
          ((∀ a ∈ xs, s1.reachHeld (core / 40) (.issued k.stamp) a.key = false) → free →
            let data := s1.gather 32 (xs.map Xlat.key)
            let bad := xs.any fun a => s1.marked a.key 32
            ∃ u, exec (.copyChunk core cmd) s = .next u ∧ SameBytes s u ∧ arrive s1 u data bad ∧
              CopyMoves s u core k 0 bad))) ∧
      (∀ w lb rm dt st scl s1 xs, k.kind = .quant w lb rm dt st scl →
        let n := len / typeBytes dt
        let e0 := lo / typeBytes dt
        let m := min 32 (n * typeBytes st)
        let b0 := e0 / 2 ^ lb
        let source := locate req core tenant m .read ((n * typeBytes st + 31) / 32) (k.glob + BitVec.ofNat 64 (e0 * typeBytes st)) s
        let scale := locate req core tenant 1 .read ((e0 + n - 1) / 2 ^ lb - b0 + 1) (scl + BitVec.ofNat 64 b0) s1
        (∀ code, source = (s1, xs, .fault code) →
          ∃ u, exec (.copyChunk core cmd) s = .next u ∧ CopyEnds s u core k 2 k.chunk ∧ SameBytes s u) ∧
        (source = (s1, xs, .done) →
          (∀ s2 ys code, scale = (s2, ys, .fault code) →
            ∃ u, exec (.copyChunk core cmd) s = .next u ∧ CopyEnds s u core k 2 k.chunk ∧ SameBytes s u) ∧
          (∀ s2 ys, scale = (s2, ys, .done) → (∀ a ∈ xs ++ ys, s2.reachHeld (core / 40) (.issued k.stamp) a.key = false) → free →
            let r := quantRun st dt rm lb e0 (fun b => (ys.map fun y => s2.byte y.key).getD (b - b0) 0#8)
              (s2.gather m (xs.map Xlat.key)) n
            let bad := (ys.any fun y => s2.marked y.key 1) || xs.any fun a => s2.marked a.key m
            ∃ u, exec (.copyChunk core cmd) s = .next u ∧ SameBytes s u ∧ arrive s2 u r.1 bad ∧
              CopyMoves s u core k r.2 bad))))

/-- Copies take engines and move their chunks. -/
def Obligations.CopiesRun : Prop :=
  Claim.CopiesTakeAnEngine ∧ Claim.CopiesMoveChunks

/-- R72, R101, R236, R238, R323: a tooling command rewrites one chunk of 4 KiB of its range in place, once its issuer's
older stores have performed: zeroed, transposed in blocks, converted, quantised, or with the sum of each row at the row's
word 0. A bad source ends it with status 3 and marks the rows of what it wrote; a scale that faults ends it with 2; its last
chunk ends it with 0, or 4 and the count where values were saturated; cancelled it ends with 1. One that meets an engine
breakpoint before it has started is held and reported. No byte of memory changes. -/
def Obligations.ToolsRewriteChunks : Prop :=
  ∀ (s : State) (core cmd : Nat) (k : Tool), s.tool? core cmd = some k → Untraced s k.issuer.tenant →
    (k.cancel = true → ∃ u, exec (.toolChunk core cmd) s = .next u ∧ ToolEnds s u core k 1 k.chunk ∧ SameBytes s u) ∧
    (k.cancel = false → k.held = false → s.saving k.gang = false → s.olderDone k.agent k.after = true →
      (∀ x, s.agent? k.agent = some x → k.chunk = 0 → k.stopped = false → k.released = false →
        s.engineBreak x 1 k.seq = true →
        ∃ u, exec (.toolChunk core cmd) s = .next u ∧ SameBytes s u ∧ u.agents = s.agents ∧
          (u.core core).tools = (s.core core).tools.map (fun j => if j.id = cmd then { j with held := true } else j) ∧
          ∃ r, (u.tenant x.ident.tenant).reports = (s.tenant x.ident.tenant).reports ++ [r] ∧ HeldReport s x k.seq r) ∧
      ((k.chunk = 0 → k.stopped = false → k.released = false → ∀ x, s.agent? k.agent = some x →
          s.engineBreak x 1 k.seq = false) →
      let p : BufAt := ⟨k.gang, k.pos, core, k.buf⟩
      let lo := 4096 * k.chunk
      let len := min 4096 (k.len - lo)
      let src := s.bufBytes p (k.off + lo) len
      s.bankTaken p (k.off + lo) len = false →
      let scale := fun (lb st : Nat) (scl : DWord) =>
        let e0 := lo / typeBytes st
        locate (toolOrigin core k.buf).req core (s.cmdTenant k.gang) 1 .read
          ((e0 + len / typeBytes st - 1) / 2 ^ lb - e0 / 2 ^ lb + 1) (scl + BitVec.ofNat 64 (e0 / 2 ^ lb)) s
      (∀ lb rm dt st scl s1 ys code, k.kind = .quant lb rm dt st scl → scale lb st scl = (s1, ys, .fault code) →
        ∃ u, exec (.toolChunk core cmd) s = .next u ∧ SameBytes s u ∧ ToolEnds s u core k 2 k.chunk) ∧
      (∀ (scales : List Byte) (sbad : Bool) (s1 : State),
        (match k.kind with
          | .quant lb _ _ st scl =>
            ∃ ys, scale lb st scl = (s1, ys, .done) ∧ s.linkLost = false ∧
              (∀ y ∈ ys, s1.reachHeld (core / 40) .any y.key = false) ∧
              scales = (ys.map fun y => s1.byte y.key) ∧ sbad = ys.any fun y => s1.marked y.key 1
          | _ => s1 = s ∧ sbad = false) →
        let r := toolCells k scales src
        let bad := (match k.kind with | .zero => false | _ => s.bufAnyMark p (k.off + lo) len) || sbad
        ∃ u, exec (.toolChunk core cmd) s = .next u ∧ SameBytes s u ∧
          (∀ q off, u.bufByte q off = (s1.bufWrite p r.1).bufByte q off) ∧
          (bad = true → (s.gang? k.gang).isSome = true → ∀ row, r.2.1 / 32 ≤ row → row < (r.2.1 + r.2.2.1 + 31) / 32 →
            u.bufMarked p row = true) ∧
          (bad = false → ∀ q row, u.bufMarked q row = (s1.bufWrite p r.1).bufMarked q row) ∧
          (if bad then ToolEnds s u core k 3 k.chunk
          else if k.len ≤ (k.chunk + 1) * 4096 then
            ToolEnds s u core k (if k.sat + r.2.2.2 > 0 then 4 else 0) (k.sat + r.2.2.2)
          else u.agents = s.agents ∧
            (u.tool? core k.id).map (fun j => (j.chunk, j.sat)) = some (k.chunk + 1, k.sat + r.2.2.2)))))

/-! # Steps of class-3 commands -/

/-- R120, R129, R130, R248, R249, R256, R258, R262, R323: a command whose slot counts have been reached, that need wait for no unit
and whose issuer's older work is done, starts. With a bound tile it first fetches the tile into its buffer range, with the marks of
the source rows; a fault there halts it with FAULT, and a line that an engine owns holds it, as do writes before it on the path to
another die. What comes of a tile that the link loses stands at R357. An `mstream` whose pair
of formats is not legal halts with PAIR. A command that meets an engine breakpoint is held and reported instead. No byte of
memory changes. -/
def Sys2Proof.Claim.CommandsStart : Prop :=
  ∀ (s : State) (core cmd : Nat) (k : Cmd) (x : Agent), s.cmd? core cmd = some k → k.held = false →
    s.mayStart core k = true → s.bankBusy core = false → s.agent? k.agent = some x → Untraced s k.issuer.tenant →
    let go := (∀ e, k.kind.engine = some e → k.released = true ∨ s.engineBreak x e.1 k.seq = false)
    let became := fun (s u : State) (j : Cmd) => SameBytes s u ∧ u.agents = s.agents ∧ u.cmd? core cmd = some j
    let tile := fun (len : Nat) (va : DWord) => locate (k.origin core).req core (s.cmdTenant k.gang) 32 .read (len / 32) va s
    let fetched := fun (s1 u : State) (xs : List Xlat) (b : Buf) (off : Nat) =>
      (∀ q o, u.bufByte q o = (s1.bufWrite ⟨k.gang, k.pos, core, b⟩ (cellsAt off (s1.gather 32 (xs.map Xlat.key)))).bufByte q o) ∧
      ((s.gang? k.gang).isSome = true → ∀ (i : Nat) (a : Xlat), xs[i]? = some a →
        u.bufMarked ⟨k.gang, k.pos, core, b⟩ (off / 32 + i) = s.marked a.key 32)
    let fault := ∃ u, exec (.commandStart core cmd) s = .next u ∧
      became s u { k with started := true, halted := true, status := k.status ||| 0x20#32 }
    (∀ e, k.kind.engine = some e → k.released = false → s.engineBreak x e.1 k.seq = true →
      ∃ u, exec (.commandStart core cmd) s = .next u ∧ became s u { k with held := true } ∧
        ∃ r, (u.tenant x.ident.tenant).reports = (s.tenant x.ident.tenant).reports ++ [r] ∧ HeldReport s x k.seq r) ∧
    (go →
      ((∀ a w f use t, k.kind ≠ .ldst a w f use t) → (∀ a b c d e f g use, k.kind ≠ .mstream a b c d e f g use) →
        (∀ a b c d e f g, k.kind ≠ .chainCfg a b c d e f g) →
        ∃ u, exec (.commandStart core cmd) s = .next u ∧ became s u { k with started := true } ∧ u.gangs = s.gangs) ∧
      (∀ a woff wf use tbl, k.kind = .ldst a woff wf use tbl →
        (use = none → ∃ u, exec (.commandStart core cmd) s = .next u ∧ became s u { k with started := true } ∧
          u.gangs = s.gangs) ∧
        (∀ th tr tc t ts s1 xs, use = some (th, tr, tc) → k.tiles = some t :: ts → s.linkLost = false →
          (tile (weightBytes wf) (t.at tr tc) = (s1, xs, .done) → (∀ y ∈ xs, s1.reachHeld (core / 40) .any y.key = false) →
            ∃ u, exec (.commandStart core cmd) s = .next u ∧ became s u { k with started := true } ∧
              fetched s1 u xs .wbuf woff) ∧
          (∀ code, tile (weightBytes wf) (t.at tr tc) = (s1, xs, .fault code) → (∀ y ∈ xs, s1.reachHeld (core / 40) .any y.key = false) →
            fault) ∧
          (∀ r, tile (weightBytes wf) (t.at tr tc) = (s1, xs, r) → (∃ y ∈ xs, s1.reachHeld (core / 40) .any y.key = true) →
            exec (.commandStart core cmd) s = .next s))) ∧
      (∀ arr aoff coff af kk m astr, k.kind = .mstream arr aoff coff af kk m astr none → ∀ g, s.gang? k.gang = some g →
        (pairOk af (g.plane k.pos arr false).fmt = true →
          ∃ u, exec (.commandStart core cmd) s = .next u ∧ became s u { k with started := true } ∧ u.gangs = s.gangs) ∧
        (pairOk af (g.plane k.pos arr false).fmt = false →
          ∃ u, exec (.commandStart core cmd) s = .next u ∧
            became s u { k with started := true, halted := true, status := k.status ||| 0x40#32 } ∧ u.gangs = s.gangs)) ∧
      (∀ arr aoff coff af kk m astr th tr tc t ts s1 xs g, k.kind = .mstream arr aoff coff af kk m astr (some (th, tr, tc)) →
        k.tiles = some t :: ts → s.gang? k.gang = some g → s.linkLost = false →
        (∀ y ∈ xs, s1.reachHeld (core / 40) .any y.key = false) →
        (tile (m * astr) (t.at tr tc) = (s1, xs, .done) →
          ∃ u, exec (.commandStart core cmd) s = .next u ∧ fetched s1 u xs .abuf aoff ∧
            became s u (if pairOk af (g.plane k.pos arr false).fmt then { k with started := true }
              else { k with started := true, halted := true, status := k.status ||| 0x40#32 })) ∧
        (∀ code, tile (m * astr) (t.at tr tc) = (s1, xs, .fault code) → fault)))

/-- R267: `chain.cfg` sets its agent's context as it starts and has nothing left to do: with a boundary of one word 1.0 in
mode 0, with the size its block gives in mode 1, and in mode 2 with the current boundary moved, or, where that does not fit
the capacity, with COVF and no change. -/
def Sys2Proof.Claim.ChainConfigSetsTheContext : Prop :=
  ∀ (s : State) (core cmd : Nat) (k : Cmd) (x : Agent) (prog : DWord) (mode nsteps boff cap bc mb : Nat),
    s.cmd? core cmd = some k → k.held = false → s.mayStart core k = true → s.bankBusy core = false →
    s.agent? k.agent = some x → Untraced s k.issuer.tenant → k.kind = .chainCfg prog mode nsteps boff cap bc mb →
    (k.released = true ∨ s.engineBreak x 5 k.seq = false) →
    let cb : BufAt := ⟨k.gang, k.pos, core, .cbuf⟩
    let context := fun (u : State) (rows cols : Nat) (st : Word) =>
      SameBytes s u ∧ u.cmd? core cmd = some { k with started := true, halted := true, status := k.status ||| st } ∧
      (∀ n, n ≠ k.agent → u.agent? n = s.agent? n) ∧
      u.agent? k.agent = some { x with eng := { x.eng with chain := some ⟨prog, nsteps, boff, cap, rows, cols⟩ } }
    (mode = 0 → ∃ u, exec (.commandStart core cmd) s = .next u ∧ context u 1 1 0#32 ∧
      ∀ q off, u.bufByte q off = (s.bufWrite cb (cellsAt boff (leBytes 4 0x3F800000))).bufByte q off) ∧
    (mode = 1 → ∃ u, exec (.commandStart core cmd) s = .next u ∧ context u mb bc 0#32 ∧ u.gangs = s.gangs) ∧
    (2 ≤ mode → ∀ c, x.eng.chain = some c →
      (cap < c.rows * c.cols → ∃ u, exec (.commandStart core cmd) s = .next u ∧ SameBytes s u ∧ u.agents = s.agents ∧
        u.gangs = s.gangs ∧ u.cmd? core cmd = some { k with started := true, halted := true, status := k.status ||| 0x80#32 }) ∧
      (c.rows * c.cols ≤ cap → ∃ u, exec (.commandStart core cmd) s = .next u ∧ context u c.rows c.cols 0#32 ∧
        ∀ q off, u.bufByte q off =
          (s.bufWrite cb (cellsAt boff (s.bufBytes cb c.boff (4 * (c.rows * c.cols))))).bufByte q off))

/-- Class-3 commands start with their slots and units ready; chain.cfg sets the context. -/
def Obligations.CommandsStart : Prop :=
  Claim.CommandsStart ∧ Claim.ChainConfigSetsTheContext

/-- R120, R130, R254, R268 to R270: a started chain command takes one step, in a clock in which no buffer access of a warp has used
the core's banks (R17); a run that a save had stopped resumes. Past the last record it halts, a single step with STEP. A record
whose line an engine owns, or that has writes before it on the path to another die, holds the step. A record of a marked granule halts it with ECC, one that cannot be fetched with FAULT, one
that breaks the rules with STEP, one whose result would not fit with COVF: nothing else changes then. Otherwise the new boundary
replaces the old one, the context takes its size, the step is counted, and a single step or the last one leaves nothing to do.
No byte of memory changes. -/
def Obligations.ChainStepsContract : Prop :=
  ∀ (s : State) (core cmd : Nat) (bad : Bool) (k : Cmd) (x : Agent) (c : ChainCtx) (g : Gang), s.cmd? core cmd = some k →
    (let single := (match k.kind with | .chainStep _ => true | _ => false)
     (single = true ∨ ∃ f r, k.kind = .chainRun f r) → k.started = true → k.halted = false →
      (s.saving k.gang = true → single = true) → s.bankBusy core = false → Untraced s k.issuer.tenant →
      s.agent? k.agent = some x → x.eng.chain = some c → s.gang? k.gang = some g →
      let k0 : Cmd := { k with stopped := false }
      let s0 := if k.stopped then s.modCmd core k.id (fun j => { j with stopped := false }) else s
      let halts := fun (j : Cmd) (st : Word) => ∃ u, exec (.chainStepExecute core cmd bad) s = .next u ∧ SameBytes s u ∧
        u.agents = s.agents ∧ u.gangs = s.gangs ∧
        u.cmd? core cmd = some { j with halted := true, status := k.status ||| st }
      let fetch := locate (k.origin core).req core g.tenant 16 .read 1 (c.prog + BitVec.ofNat 64 (16 * k.cursor)) s0
      (c.nsteps ≤ k.cursor → halts k0 (if single then 0x100#32 else 0#32)) ∧
      (k.cursor < c.nsteps →
        (∀ s1 xs code, fetch = (s1, xs, .fault code) → halts k0 0x20#32) ∧
        (∀ s1 y, fetch = (s1, [y], .done) →
          (s1.reachHeld (core / 40) .any y.key = true → exec (.chainStepExecute core cmd bad) s = .next s) ∧
          (s1.reachHeld (core / 40) .any y.key = false → s.loses y = false → s.marked y.key 16 = true → halts k0 0x001#32) ∧
          (s1.reachHeld (core / 40) .any y.key = false → s.loses y = false → s.marked y.key 16 = false →
            let k1 : Cmd := { k0 with kidx := s.le y.key 4 % 65536 }
            let rec_ := Step.ofWords k.bd (s.le y.key 4) (s.le (y.key + 4) 4) (s.le (y.key + 8) 4) (s.le (y.key + 12) 4)
            (∀ st, stepCheck g.header c rec_ = .inl st → halts k1 st) ∧
            (∀ t, stepCheck g.header c rec_ = .inr t →
              let es := stepOut c t (s1.stepIn core k c t)
              ∃ u, exec (.chainStepExecute core cmd bad) s = .next u ∧ SameBytes s u ∧
                (∀ q off, u.bufByte q off = (s1.bufWrite ⟨k.gang, k.pos, core, .cbuf⟩
                  (cellsAt c.boff (es.flatMap fun e => leBytes 4 e.1.1.toNat))).bufByte q off) ∧
                (∀ n, n ≠ k.agent → u.agent? n = s.agent? n) ∧
                u.agent? k.agent = some { x with eng := { x.eng with chain := some { c with
                  rows := if t.absorb then c.rows else c.rows * t.n, cols := t.bOut } } } ∧
                ∃ j, u.cmd? core cmd = some j ∧ j.cursor = k.cursor + 1 ∧ j.kidx = k1.kidx ∧
                  j.halted = (single || decide (c.nsteps ≤ k.cursor + 1)) ∧
                  (bad = false → (∀ e ∈ es, e.1.2 = 0#32 ∧ e.2 = false) → j.status = k.status))))))

/-- R250, R257 to R264: a started command with nothing left to run has its effect and completes, in a clock in which no buffer
access of a warp has used the core's banks (R17). `ldst` puts the tile in the shadow plane, `mswap` exchanges the planes,
`cbtload` loads its table, unless its source is marked (ECC) or cannot be read (FAULT), `mstream` adds its products to the
accumulator words, `mop` does so chunk by chunk up to a fault (FAULT), `mzero` clears its range of CBUF; a command that has
halted has no further effect, and a line that an engine owns holds a read of memory (R130), as do writes before it on the path to
another die (R120). Then the run's index, the arrival,
the slot's count, in that order. No byte of memory changes. -/
def Obligations.CommandsEnd : Prop :=
  ∀ (s : State) (core cmd : Nat) (bad : BitVec 64) (k : Cmd), s.cmd? core cmd = some k → Untraced s k.issuer.tenant →
    k.started = true → k.ended = false → s.arrivalWaits k = false → s.bankBusy core = false →
    let remap := fun a => if Config.spareRow core (k.gang * 4 + a) then 0x10#32 else 0#32
    let res := if bad = 0#64 then 0#32 else 0x2#32
    (k.halted = true → ∃ u, exec (.commandEnd core cmd bad) s = .next u ∧ SameBytes s u ∧ CmdCompletes s u core k k.status) ∧
    (k.halted = false → ∀ g, s.gang? k.gang = some g →
      (∀ arr, k.kind = .mswap arr → ∃ u h, exec (.commandEnd core cmd bad) s = .next u ∧ SameBytes s u ∧
        CmdCompletes s u core k (k.status ||| remap arr) ∧ u.gang? k.gang = some h ∧
        h.plane k.pos arr false = g.plane k.pos arr true ∧ h.plane k.pos arr true = g.plane k.pos arr false ∧
        h.buf = g.buf ∧ h.tables = g.tables) ∧
      (∀ arr woff wf use tbl, k.kind = .ldst arr woff wf use tbl →
        let p := s.tilePlane ⟨k.gang, k.pos, core, .wbuf⟩ woff wf fun b y => g.tableEntry k.pos (tblOf tbl b) y
        ∃ u h, exec (.commandEnd core cmd bad) s = .next u ∧ SameBytes s u ∧
          CmdCompletes s u core k
            (k.status ||| ((if p.marks = [] then 0#32 else 0x1#32) ||| res ||| remap arr)) ∧ u.gang? k.gang = some h ∧
          h.plane k.pos arr true = p.spoil bad ∧ h.plane k.pos arr false = g.plane k.pos arr false ∧ h.buf = g.buf) ∧
      (∀ tbl src s1 xs r, k.kind = .cbtload tbl src →
        locate (k.origin core).req core (s.cmdTenant k.gang) 32 .read 1 src s = (s1, xs, r) →
        let keeps := fun (st : Word) => ∃ u h, exec (.commandEnd core cmd bad) s = .next u ∧ SameBytes s u ∧
          CmdCompletes s u core k (k.status ||| st) ∧ u.gang? k.gang = some h ∧ h.planes = g.planes ∧ h.tables = g.tables
        (∀ code, r = .fault code → keeps 0x20#32) ∧
        (∀ y, xs = [y] → r = .done →
          (s1.reachHeld (core / 40) .any y.key = true → exec (.commandEnd core cmd bad) s = .next s) ∧
          (s1.reachHeld (core / 40) .any y.key = false → s.loses y = false → s.marked y.key 32 = true → keeps 0x1#32) ∧
          (s1.reachHeld (core / 40) .any y.key = false → s.loses y = false → s.marked y.key 32 = false →
            ∃ u h, exec (.commandEnd core cmd bad) s = .next u ∧ SameBytes s u ∧ CmdCompletes s u core k k.status ∧
              u.gang? k.gang = some h ∧ h.planes = g.planes ∧
              ∀ n, kgetD 0#256 h.tables n = if n = k.pos * 16 + tbl then BitVec.ofNat 256 (s.le y.key 32)
                else kgetD 0#256 g.tables n))) ∧
      (∀ coff len, k.kind = .mzero coff len → ∃ u, exec (.commandEnd core cmd bad) s = .next u ∧ SameBytes s u ∧
        (∃ s1, s1 = s.bufWrite ⟨k.gang, k.pos, core, .cbuf⟩ (cellsAt coff (List.replicate len 0#8)) ∧
          CmdCompletes s1 u core k k.status ∧ ∀ q off, u.bufByte q off = s1.bufByte q off)) ∧
      (∀ arr aoff coff af kk m astr use, k.kind = .mstream arr aoff coff af kk m astr use →
        let ab : BufAt := ⟨k.gang, k.pos, core, .abuf⟩
        let cb : BufAt := ⟨k.gang, k.pos, core, .cbuf⟩
        let n := actBytes af
        let p := g.plane k.pos arr false
        let ws := chunkOut s cb coff af p.fmt kk m (fun r i => BitVec.ofNat 64 (s.bufLe ab (aoff + r * astr + i * n) n))
          (fun r i => s.bufAnyMark ab (aoff + r * astr + i * n) n) p.weight p.marked bad.getLsbD
        ∃ u st, exec (.commandEnd core cmd bad) s = .next u ∧ SameBytes s u ∧
          CmdCompletes (s.putWords cb ws) u core k (k.status ||| st) ∧ st &&& 0x00E#32 = (wordsStatus ws ||| res) &&& 0x00E#32 ∧
          ∀ q off, u.bufByte q off = (s.putWords cb ws).bufByte q off) ∧
      (∀ astg wstg coff wf af kl m nt kt atn wtn atc atr wtc wtr ta tw ts r,
        k.kind = .mop astg wstg coff wf af kl m nt kt atn wtn atc atr wtc wtr → k.tiles = some ta :: some tw :: ts →
        s.mopRun core k astg wstg coff wf af kl m kt ta tw atc atr wtc wtr bad
          ((List.range nt).flatMap fun n => (List.range kt).map fun c => (n, c)) = r →
        (r = none → exec (.commandEnd core cmd bad) s = .next s) ∧
        (∀ s1 ps st, r = some (s1, ps, st) →
          astg + 2 * m * (64 * actBytes af) ≤ 1048576 → wstg + 2 * weightBytes wf ≤ 1048576 →
          let how : Word := (match ps with | .fault _ => 0x20#32 | _ => 0#32) ||| res |||
            ((remap 0 ||| remap 1) ||| (remap 2 ||| remap 3))
          ∃ u, exec (.commandEnd core cmd bad) s = .next u ∧ u.mem = s1.mem ∧ CmdCompletes s1 u core k (k.status ||| (st ||| how)) ∧
            ∀ j, j < 131072 → u.bufByte ⟨k.gang, k.pos, core, .cbuf⟩ j = s1.bufByte ⟨k.gang, k.pos, core, .cbuf⟩ j)))

/-! # Steps of the set engines and of deferred returns -/

/-- R130, R133, R275, R276, R279, R285, R286, R323: an agent's set instruction whose turn it is, and where it moves an array with
its issuer's older work done, is performed whole: memory is what the operation leaves, the registers that still wait take its
results, and the cost counters take its words, its conversion, its algorithm, its code and its operation's number. An insertion or
deletion that reports HEAP leaves its predicates as they were. A line that an engine owns holds it. One that meets an engine
breakpoint is held and reported instead. It has its turn once the older ones have been performed, but for those that a breakpoint
holds and those behind one of these on a handle, which the model lets it pass (log 25). -/
def Sys2Proof.Claim.SetInstructionsPerform : Prop :=
  ∀ (s : State) (a : Nat) (x : Agent) (o : SetOp), s.agent? a = some x →
    x.flight.setOps.find? (fun q => q.id == o.id) = some o → x.flight.setTurn o = true →
    (o.movesArray = true → s.engineReady x o.id = true) → Untraced s x.ident.tenant →
    (o.released = false → s.engineBreak x 6 o.seq = true →
      ∃ u, exec (.setEngineOperation a o.id) s = .next u ∧ SameBytes s u ∧
        (∀ k, k ≠ a → u.agent? k = s.agent? k) ∧
        u.agent? a = some { x with flight := { x.flight with
          setOps := x.flight.setOps.map fun q => if q.id = o.id then { q with held := true } else q } } ∧
        ∃ r, (u.tenant x.ident.tenant).reports = (s.tenant x.ident.tenant).reports ++ [r] ∧ HeldReport s x o.seq r) ∧
    ((o.released = true ∨ s.engineBreak x 6 o.seq = false) → ∀ n res,
      s.setOpRun x.core x.ident.tenant o = (n, res) →
      (res = .held → exec (.setEngineOperation a o.id) s = .next s) ∧
      ∀ s1 r, res = .ok (s1, r) →
      let ok := r.code == 0 || r.code == 6
      let waits := fun d => x.flight.waits d o.id = true
      ∃ u y, exec (.setEngineOperation a o.id) s = .next u ∧ u.mem = s1.mem ∧
        (∀ k, k ≠ a → (u.agent? k).map (fun z => (z.regs, z.eng, z.flight)) =
          (s.agent? k).map fun z => (z.regs, z.eng, z.flight)) ∧
        u.agent? a = some y ∧ y.ctl.pcs = x.ctl.pcs ∧ y.ctl.parked = x.ctl.parked ∧ y.ctl.hold = x.ctl.hold ∧
        y.sys.fpflags = x.sys.fpflags ∧ y.flight.setOps = x.flight.setOps.filter (fun q => q.id != o.id) ∧
        y.flight.pend = x.flight.pend.filter (fun e => e.2 != o.id) ∧
        kgetD 0#32 y.eng.cost 0 = kgetD 0#32 x.eng.cost 0 + BitVec.ofNat 32 r.wread ∧
        kgetD 0#32 y.eng.cost 1 = kgetD 0#32 x.eng.cost 1 + BitVec.ofNat 32 r.wwrite ∧
        kgetD 0#32 y.eng.cost 2 = kgetD 0#32 x.eng.cost 2 + (if r.conv then 1#32 else 0#32) ∧
        kgetD 0#32 y.eng.cost 3 = BitVec.ofNat 32 (r.alg + 256 * r.code + 65536 * n) ∧
        kgetD 0#32 y.eng.cost 4 = BitVec.ofNat 32 r.reps ∧
        (∀ g d, o.instr = .setNew g d ∨ (∃ h, o.instr = .setCard g d h) ∨ (∃ h b c, o.instr = .setOut g d h b c) →
          waits (.s (Opnd.num d)) → y.regs.sreg (Opnd.num d) = BitVec.ofNat 32 r.value) ∧
        (∀ g d h b, o.instr = .setHas g d h b ∨ (r.code ≠ 2 ∧ ∃ w, o.instr = .setIns g w d h b ∨ o.instr = .setDel g w d h b) →
          waits (.p (Opnd.num d)) → ∀ l, l < 32 → o.act.getLsbD l = true →
          (y.regs.pred (Opnd.num d)).getLsbD l = (ok && o.laneBit r.bits l)) ∧
        (∀ g w d h b, o.instr = .setIns g w d h b ∨ o.instr = .setDel g w d h b → r.code = 2 → y.regs = x.regs) ∧
        (∀ g d h c, o.instr = .setIter g d h c →
          (waits (.v (Opnd.num d)) → ∀ l, l < 32 → o.act.getLsbD l = true →
            y.regs.vlane (Opnd.num d) l = iterLane o.act r.members l) ∧
          (waits (.s (Opnd.num c)) → ok = true → y.regs.sreg (Opnd.num c) = BitVec.ofNat 32 r.value)))

/-- R276, R279 to R281: what the operations answer for a set that its engine can read. `set.has` tells for each key whether it
is a member, `set.card` the number of members, `set.iter` the members from the cursor on; an insertion tells for each key in
order whether it was new, a deletion whether it was there, unless the heap has no room; a dead entry answers DEAD, a marked one
POISON. Only an operation that changes a set changes memory. -/
def Sys2Proof.Claim.SetOperationsAnswer : Prop :=
  ∀ (s : State) (core t : Nat) (o : SetOp),
    let keys := o.keys.map fun k => k.2.toNat
    let at_ := s.handleAddr t o.ha
    let q := Reach.issued o.stamp
    (∀ v, s.readSet q t o.ha 0 = .ok v →
      (∀ g d h b, o.instr = .setHas g d h b →
        ∃ s1 r, s.setOpRun core t o = (4, .ok (s1, r)) ∧ s1.mem = s.mem ∧ r.code = 0 ∧
          r.bits = keys.map fun k => decide (k ∈ v.members)) ∧
      (∀ g d h c, o.instr = .setIter g d h c →
        ∃ s1 r, s.setOpRun core t o = (11, .ok (s1, r)) ∧ s1.mem = s.mem ∧ r.code = 0 ∧
          r.members = (v.members.drop o.count.toNat).take (lanesOf o.act).length ∧
          r.value = o.count.toNat + r.members.length) ∧
      (∀ g w d h b, o.instr = .setIns g w d h b →
        ∃ s1 r, s.setOpRun core t o = (2, .ok (s1, r)) ∧ (r.code = 0 ∨ r.code = 2 ∧ s1.mem = s.mem) ∧
          (r.code = 0 → r.bits.length = keys.length ∧ ∀ i, i < keys.length →
            r.bits.getD i false = (!(decide (keys.getD i 0 ∈ v.members)) && !(decide (keys.getD i 0 ∈ keys.take i))))) ∧
      (∀ g w d h b, o.instr = .setDel g w d h b →
        ∃ s1 r, s.setOpRun core t o = (3, .ok (s1, r)) ∧ (r.code = 0 ∨ r.code = 2 ∧ s1.mem = s.mem) ∧
          (r.code = 0 → r.bits.length = keys.length ∧ ∀ i, i < keys.length →
            r.bits.getD i false = (decide (keys.getD i 0 ∈ v.members) && !(decide (keys.getD i 0 ∈ keys.take i)))))) ∧
    (∀ e, s.readEntry q t o.ha 0 = .ok e → ∀ g d h, o.instr = .setCard g d h →
      ∃ s1 r, s.setOpRun core t o = (5, .ok (s1, r)) ∧ s1.mem = s.mem ∧ r.code = 0 ∧ r.value = e.n) ∧
    (s.setHeld q t at_ 8 = false →
      (∃ g a b, (∃ d, o.instr = .setHas g d a b) ∨ (∃ w d, o.instr = .setIns g w d a b ∨ o.instr = .setDel g w d a b) ∨
        (∃ d, o.instr = .setCard g d a ∨ o.instr = .setIter g d a b) ∨ (∃ r, o.instr = .setHint g r a) ∨
        o.instr = .setHintNone g a ∨ o.instr = .setFree g a) →
      let fails := fun (code : Nat) => ∃ n s1 r, s.setOpRun core t o = (n, .ok (s1, r)) ∧ s1.mem = s.mem ∧ r.code = code ∧
        r.bits = [] ∧ r.members = []
      (s.setMarked t at_ 8 = true → fails 7) ∧
      (s.setMarked t at_ 8 = false → (s.entryAt t at_).live = false → fails 1))

/-- R281, R282, R284: an operation of the set algebra whose three sets its engine can read computes the union, the intersection
or the difference of A and B, by the algorithm of their representations, and settles it in C, or reports HEAP and changes no
memory. -/
def Sys2Proof.Claim.SetAlgebraPerforms : Prop :=
  ∀ (s : State) (core t : Nat) (o : SetOp) (a b c : SetView),
    let q := Reach.issued o.stamp
    s.readSet q t o.ha 0 = .ok a → s.readSet q t o.hb 8 = .ok b → s.readSet q t o.hc 16 = .ok c →
    let performs := fun (n : Nat) (isMember : Nat → Prop) => ∃ m s1 r, (∀ x, x ∈ m ↔ isMember x) ∧
      s.setOpRun core t o = (n, .ok (s1, r)) ∧ r.alg = algCode a b ∧
      (r.code = 0 ∨ r.code = 2 ∧ s1.mem = s.mem) ∧
      (r.code = 0 → ∃ (s2 : State) (rep : Rep) (e : Entry), s2.mem = s.mem ∧
        s2.settle t c c.ent.pinned c.ent.pinrep rep m (hashBuild (hashCap m.length) m) = some (s1, e) ∧
        e.rep = rep ∧ e.n = m.length ∧ (c.ent.pinned = true → m ≠ [] → rep = c.ent.pinrep))
    (∀ g x y z, o.instr = .setOr g x y z → performs 6 fun k => k ∈ a.members ∨ k ∈ b.members) ∧
    (∀ g x y z, o.instr = .setAnd g x y z → performs 7 fun k => k ∈ a.members ∧ k ∈ b.members) ∧
    (∀ g x y z, o.instr = .setSub g x y z → performs 8 fun k => k ∈ a.members ∧ k ∉ b.members)

/-- R281: the members that an operation of the set algebra computes: union, intersection, difference. -/
def Sys2Proof.Claim.SetAlgebraMembers : Prop :=
  ∀ (a b : List Nat) (x : Nat),
    (x ∈ b.foldl (fun m y => nins y m) a ↔ x ∈ a ∨ x ∈ b) ∧ (x ∈ keepIn b a ↔ x ∈ a ∧ x ∈ b) ∧
    (x ∈ dropIn b a ↔ x ∈ a ∧ x ∉ b) ∧
    (a.Pairwise (· < ·) → (b.foldl (fun m y => nins y m) a).Pairwise (· < ·) ∧ (keepIn b a).Pairwise (· < ·) ∧
      (dropIn b a).Pairwise (· < ·))

/-- The cells of words from a device address on, where the tenant's set table or heap has them (R110). -/
def Sys2Proof.Claim.setCells (s : State) (t pa : Nat) (ws : List Nat) : List (Nat × Byte) :=
  (ws.zipIdx).flatMap fun e => ((s.setKey t (pa + 4 * e.2)).map fun k => cellsAt k (leBytes 4 e.1)).getD []

/-- R113, R284: a settle of the members `m` in a representation writes the payload and then the entry: N, MIN, MAX and K are those
of the members, VERSION goes up by one modulo 2^16 where members or representation have changed, and the payload keeps its place
where it fits the capacity; else it takes a block from the heap, to which the old one returns. -/
def Sys2Proof.Claim.SettlesAreWritten : Prop :=
  ∀ (s s1 : State) (t : Nat) (v : SetView) (pinned : Bool) (pinrep rep : Rep) (m slots : List Nat) (e : Entry),
    s.settle t v pinned pinrep rep m slots = some (s1, e) →
    let words := payloadOf rep m slots
    let changed := m ≠ v.members ∨ rep ≠ v.ent.rep
    (∀ j, s1.byte j =
      ((s.write (Claim.setCells s t e.payload words)).write (Claim.setCells s t v.addr e.words)).byte j) ∧
    e.pinned = pinned ∧ e.pinrep = pinrep ∧ e.rep = rep ∧ e.live = v.ent.live ∧ e.n = m.length ∧ e.lo = m.headD 0 ∧
    e.hi = m.getLastD 0 ∧ e.runs = countRuns m ∧
    (changed → e.version = (v.ent.version + 1) % 65536) ∧ (¬ changed → e.version = v.ent.version) ∧
    (words.length ≤ v.ent.cap → e.payload = v.ent.payload ∧ e.cap = v.ent.cap ∧ (s1.tenant t).heap = (s.tenant t).heap) ∧
    (v.ent.cap < words.length → 8 ≤ e.cap ∧
      ∃ rest, heapTake (4 * e.cap) (s.tenant t).heap = some (e.payload, rest) ∧
        (s1.tenant t).heap = heapReturn ((s.tenant t).reg 0x30).toNat ((s.tenant t).reg 0x38).toNat v.ent.payload
          (4 * v.ent.cap) rest)

/-- R277, R276: `set.new` pops the first free entry, takes 8 words of the heap, writes an empty SORTED set in the entry, the next
free entry and one more live entry in the header, and 0 in the payload, and answers the handle. With no free entry it reports
TABLE, with no room in the heap HEAP, with a marked header or entry POISON: nothing is written then. -/
def Sys2Proof.Claim.SetNewTakesAnEntry : Prop :=
  ∀ (s : State) (core t : Nat) (o : SetOp) (g : Guard) (d : Opnd), o.instr = .setNew g d →
    let q := Reach.issued o.stamp
    let a0 := s.entryAddr t 0
    let free := s.setWord t a0
    let a := s.entryAddr t free
    let fails := fun (code : Nat) => ∃ s1 r, s.setOpRun core t o = (0, .ok (s1, r)) ∧ r.code = code ∧ r.value = 0 ∧
      s1.mem = s.mem ∧ s1.tenants = s.tenants
    s.setHeld q t a0 8 = false → s.setHeld q t a 8 = false →
    (s.setMarked t a0 8 = true → fails 7) ∧
    (s.setMarked t a0 8 = false →
      (free = 0 → fails 3) ∧
      (free ≠ 0 → s.setMarked t a 8 = true → fails 7) ∧
      (free ≠ 0 → s.setMarked t a 8 = false →
        (heapTake 32 (s.tenant t).heap = none → fails 2) ∧
        (∀ b rest, heapTake 32 (s.tenant t).heap = some (b, rest) →
          ∃ s1 r, s.setOpRun core t o = (0, .ok (s1, r)) ∧ r.code = 0 ∧
            r.value = s.setWindow t * 268435456 + free ∧ (s1.tenant t).heap = rest ∧
            ∀ j, s1.byte j =
              (((s.write (Claim.setCells s t a0 [s.setWord t (a + 4), s.setWord t (a0 + 4) + 1])).write
                (Claim.setCells s t a [256, 0, 0, 0, 0, b % 4294967296, b / 4294967296, 8])).write
                (Claim.setCells s t b [0])).byte j)))

/-- R276, R278: `set.free` of a live set clears LIVE in its entry and takes one from the header's count; the entry and its payload
enter the die's latigo queue with the target ISSUED. A marked header is POISON and changes nothing. -/
def Sys2Proof.Claim.SetFreeDefersTheSet : Prop :=
  ∀ (s : State) (core t : Nat) (o : SetOp) (g : Guard) (h : Opnd) (e : Entry), o.instr = .setFree g h →
    let q := Reach.issued o.stamp
    let a := s.handleAddr t o.ha
    let a0 := s.entryAddr t 0
    s.readEntry q t o.ha 0 = .ok e → s.setHeld q t a0 8 = false →
    (s.setMarked t a0 8 = true → ∃ s1 r, s.setOpRun core t o = (1, .ok (s1, r)) ∧ r.code = 7 ∧ s1.mem = s.mem ∧
      s1.dies = s.dies) ∧
    (s.setMarked t a0 8 = false →
      ∃ s1 r, s.setOpRun core t o = (1, .ok (s1, r)) ∧ r.code = 0 ∧
        (∀ j, s1.byte j =
          ((s.write (Claim.setCells s t a { e with live := false }.words)).write
            (Claim.setCells s t (a0 + 4) [s.setWord t (a0 + 4) + 4294967295])).byte j) ∧
        (s1.die (core / 40)).latigo = (s.die (core / 40)).latigo ++
          [{ tenant := t, target := (s.tenant t).issued,
             kind := .setEntry (o.ha.toNat % 268435456) e.payload e.cap, seq := o.seq }])

/-- R276, R280: `set.in` reads its whole array and inserts the keys, which do not fall, or reports ORDER; `set.out` writes the first
members up to the count in ascending order, with TRUNC where there are more, and up to a fault, which it reports. -/
def Sys2Proof.Claim.SetArraysMove : Prop :=
  ∀ (s : State) (core t : Nat) (o : SetOp) (v : SetView) (g : Guard),
    let q := Reach.issued o.stamp
    let c := o.count.toNat
    let home := homeOf v.addr
    let req := (setOrigin home).req
    s.readSet q t o.ha 0 = .ok v → s.linkLost = false →
    (∀ a b n s1 xs, o.instr = .setIn g a b n → (∀ x ∈ xs, s1.reachHeld (homeDie home) q x.key = false) →
      (∀ code, locate req core t 4 .read c o.addr (s.askSet t v) = (s1, xs, .fault code) →
        ∃ u r, s.setOpRun core t o = (9, .ok (u, r)) ∧ r.code = 4 ∧ u.mem = s.mem) ∧
      (locate req core t 4 .read c o.addr (s.askSet t v) = (s1, xs, .done) → (∀ x ∈ xs, s.marked x.key 4 = false) →
        let keys := xs.map fun x => s.le x.key 4
        (nonDecreasing keys = false → ∃ u r, s.setOpRun core t o = (9, .ok (u, r)) ∧ r.code = 5 ∧ u.mem = s.mem) ∧
        (nonDecreasing keys = true → ∃ u r, s.setOpRun core t o = (9, .ok (u, r)) ∧
          (r.code = 0 ∨ r.code = 2 ∧ u.mem = s.mem) ∧
          (r.code = 0 → ∃ (s2 : State) (rep : Rep) (m slots : List Nat) (e : Entry), s2.mem = s.mem ∧
            (∀ x, x ∈ m ↔ x ∈ v.members ∨ x ∈ keys) ∧
            s2.settle t v v.ent.pinned v.ent.pinrep rep m slots = some (u, e))))) ∧
    (∀ d a b n s1 xs p, o.instr = .setOut g d a b n →
      let m := v.members.take c
      locate req core t 4 .write m.length o.addr (s.askSet t v) = (s1, xs, p) →
      (∀ x ∈ xs, s1.reachHeld (homeDie home) (.command o.stamp) x.key = false) →
      ∃ u r, s.setOpRun core t o = (10, .ok (u, r)) ∧
        (∀ j, u.byte j = (s.write ((xs.zip m).flatMap fun e => cellsAt e.1.key (leBytes 4 e.2))).byte j) ∧
        (p = .done → r.value = m.length ∧ r.code = if c < v.members.length then 6 else 0) ∧
        (∀ code, p = .fault code → r.value = 0 ∧ r.code = 4))

/-- R276, R283: `set.hint` sets or clears the pin of a set and settles it, a pinned set that has members in the representation of
its pin; without room in the heap it reports HEAP and changes no memory. -/
def Sys2Proof.Claim.SetHintPins : Prop :=
  ∀ (s : State) (core t : Nat) (o : SetOp) (v : SetView) (pin : Option Rep),
    ((∃ g r h, o.instr = .setHint g r h ∧ pin = some r) ∨ ∃ g h, o.instr = .setHintNone g h ∧ pin = none) →
    s.readSet (.issued o.stamp) t o.ha 0 = .ok v →
    ∃ u r, s.setOpRun core t o = (12, .ok (u, r)) ∧ (r.code = 0 ∨ r.code = 2 ∧ u.mem = s.mem) ∧
      (r.code = 0 → ∃ (s2 : State) (rep : Rep) (slots : List Nat) (e : Entry), s2.mem = s.mem ∧
        s2.settle t v pin.isSome (pin.getD v.ent.pinrep) rep v.members slots = some (u, e) ∧
        (∀ z, pin = some z → v.members ≠ [] → rep = z) ∧ (v.members = [] → rep = .sorted))

/-- Set instructions perform whole. -/
def Obligations.SetInstructionsPerform : Prop := Claim.SetInstructionsPerform

/-- What the operations on sets answer and leave behind: the answers, the algebra and its members, the settles, new and freed sets,
arrays and pins. -/
def Obligations.SetOperationsAnswer : Prop :=
  Claim.SetOperationsAnswer ∧ Claim.SetAlgebraPerforms ∧ Claim.SetAlgebraMembers ∧ Claim.SettlesAreWritten ∧
  Claim.SetNewTakesAnEntry ∧ Claim.SetFreeDefersTheSet ∧ Claim.SetArraysMove ∧ Claim.SetHintPins

/-- R110, R130, R137, R278, R300, R301: a deferred return whose period has completed and that no entry of its tenant goes before
is performed and leaves its queue. A block takes the pool's head and its own length, and becomes the head, the pool's count one
more; a freed set's payload returns to the heap and its entry to the head of the free chain; a block or a pool that cannot be
written is discarded and reported with code 13. A line that an engine owns holds the return, as do writes before it on the path to
another die (R120). -/
def Obligations.DeferredReturnsPerform : Prop :=
  ∀ (s : State) (die ix : Nat) (e : LatigoEntry), (s.die die).latigo[ix]? = some e → s.latigoDue die ix e = true →
    let req := reqOfEngine 8 die 0 0
    (∀ i payload cap, e.kind = .setEntry i payload cap →
      let a0 := s.entryAddr e.tenant 0
      let a := s.entryAddr e.tenant i
      ((s.setHeld .any e.tenant a0 8 = true ∨ s.setHeld .any e.tenant a 8 = true) →
        exec (.setFreeReturn die ix) s = .next s) ∧
      (s.setHeld .any e.tenant a0 8 = false → s.setHeld .any e.tenant a 8 = false →
        ∀ k0 k, s.setKey e.tenant a0 = some k0 → s.setKey e.tenant (a + 4) = some k →
        ∃ u, exec (.setFreeReturn die ix) s = .next u ∧
          (∀ j, u.byte j = ((s.write (cellsAt k (leBytes 4 (s.le k0 4)))).write (cellsAt k0 (leBytes 4 i))).byte j) ∧
          (u.tenant e.tenant).heap = heapReturn ((s.tenant e.tenant).reg 0x30).toNat ((s.tenant e.tenant).reg 0x38).toNat
            payload (4 * cap) (s.tenant e.tenant).heap ∧
          (u.die die).latigo = (s.die die).latigo.eraseIdx ix)) ∧
    (∀ addr len pool, e.kind = .block addr len pool →
      let pva := (s.tenant e.tenant).reg 0x40 + BitVec.ofNat 64 (16 * pool)
      let at1 := (s.dieWalkAsks req die e.tenant addr).translateDie die e.tenant addr .write
      let at2 := (at1.1.dieWalkAsks req die e.tenant pva).translateDie die e.tenant pva .write
      (∀ b p, at1.2 = .ok b → at2.2 = .ok p →
        ((s.reachHeld die .any b.key = true ∨ s.reachHeld die .any p.key = true) → exec (.cinchPush die ix) s = .next s) ∧
        (s.reachHeld die .any b.key = false → s.reachHeld die .any p.key = false → s.linkLost = false →
          ∃ u, exec (.cinchPush die ix) s = .next u ∧
            (∀ j, u.byte j = ((s.write (cellsAt b.key (s.bytes p.key 8 ++ leBytes 4 len))).write
              (cellsAt p.key (leBytes 8 addr.toNat ++ leBytes 4 (s.le (p.key + 8) 4 + 1)))).byte j) ∧
            (u.die die).latigo = (s.die die).latigo.eraseIdx ix)) ∧
      (∀ code, (at1.2 = .fault code ∨ ∃ b, at1.2 = .ok b ∧ at2.2 = .fault code) →
        ∃ u r, exec (.cinchPush die ix) s = .next u ∧ SameBytes s u ∧
          (u.die die).latigo = (s.die die).latigo.eraseIdx ix ∧
          (u.tenant e.tenant).reports = (s.tenant e.tenant).reports ++ [r] ∧ r.code = 13 ∧ r.addr = addr ∧ r.seq = e.seq))

/-! # Steps of grace periods -/

/-- R134, R296, R297, R299, R209: an agent all of whose older loads, stores and set instructions have performed passes the
quiescent point that it waits in: its number becomes ISSUED. A `qstate` ends and the L1 is emptied; so does a `gwait` whose
period has completed, and otherwise it parks every lane of the agent that has not exited until it has, under this one condition.
That lanes parked before lose theirs is the model's reading (log 48, DEDUCED). An agent that has ended, whose point is recorded, leaves once
nothing names it and it has no `gstart` on its way. No byte of memory changes. -/
def Sys2Proof.Claim.QuiescentPointsPerform : Prop :=
  ∀ (s : State) (a : Nat) (x : Agent), s.agent? a = some x → x.flight.quiet = true →
    let issued := (s.tenant x.ident.tenant).issued
    let passed := fun (u : State) => ∃ q, PcsAdvanced x.ctl.waitRun 8 x.ctl.pcs q ∧ (u.core x.core).l1 = [] ∧
      u.agent? a = some { x with
        eng := { x.eng with grace := issued }
        ctl := { x.ctl with pcs := q, hold := .none, waitRun := 0#32, waitSince := none } }
    (s.live x = true →
      (x.ctl.hold = .qstate → ∃ u, exec (.quiescentPoint a) s = .next u ∧ SameBytes s u ∧ passed u) ∧
      (∀ t, x.ctl.hold = .gwait t →
        (atOrAfter (s.tenant x.ident.tenant).doneT t = true →
          ∃ u, exec (.quiescentPoint a) s = .next u ∧ SameBytes s u ∧ passed u) ∧
        (atOrAfter (s.tenant x.ident.tenant).doneT t = false →
          ∃ u y q, exec (.quiescentPoint a) s = .next u ∧ SameBytes s u ∧ (u.core x.core).l1 = [] ∧
            u.agent? a = some y ∧ y.eng.grace = issued ∧ y.ctl.hold = .none ∧ PcsAdvanced x.ctl.waitRun 8 x.ctl.pcs q ∧
            y.ctl.pcs = q ∧ y.ctl.parked = x.ctl.parked ||| ~~~x.ctl.ended ∧
            ∃ g, y.ctl.parks = [g] ∧ g.target = some t ∧ g.lanes = ~~~x.ctl.ended ∧
              g.line = none ∧ g.bar = none ∧ g.wakeAt = none ∧ y.regs = x.regs))) ∧
    (x.ctl.hold = .yielded false → ∃ u, exec (.quiescentPoint a) s = .next u ∧ AgentBecomes s u a { x with
      eng := { x.eng with grace := issued }, ctl := { x.ctl with hold := .yielded true } }) ∧
    (x.ctl.hold = .ended false → ∃ u, exec (.quiescentPoint a) s = .next u ∧ AgentBecomes s u a { x with
      eng := { x.eng with grace := issued }, ctl := { x.ctl with hold := .ended true } }) ∧
    (x.ctl.hold = .ended true → s.named a = false → x.flight.ops = [] → x.flight.gstarts = [] →
      ∃ u, exec (.quiescentPoint a) s = .next u ∧ SameBytes s u ∧ u.agent? a = none ∧
        ∀ k, k ≠ a → u.agent? k = s.agent? k) ∧
    (x.ctl.hold = .ended true → s.named a = true ∨ x.flight.gstarts ≠ [] → exec (.quiescentPoint a) s = .next s)

/-- R134, R135, R296, R298, R299, R302: a `gstart` whose release has performed gets the next target, which becomes ISSUED, in its
register if that still waits, unless 2^30 targets are out. A tenant's grace domain is its agents whose end has not yet counted as
a quiescent point. A tracker's report moves DONE to the least of their numbers, or to ISSUED if none is less: never short of it,
never past it; the lanes that `gwait` parked for a target that it reaches go on. That one die's report moves it by the numbers of
all dies is the model's choice (log 45, DESIGN CHOICE). A period that has not completed L µs after its `gstart` is reported once, with vector 2 and
the agent of the lowest core and slot whose number is short of it and its place, a saved one last. -/
def Sys2Proof.Claim.GracePeriodsAdvance : Prop :=
  (∀ (s : State) (t : Nat) (x : Agent),
    x ∈ s.domain t ↔ ∃ a, (a, x) ∈ s.agents ∧ x.ident.tenant = t ∧ x.ctl.hold ≠ .ended true) ∧
  (∀ (s : State) (a id n : Nat) (x : Agent), s.agent? a = some x →
    x.flight.gstarts.find? (fun g => g.2.2) = some (id, n, true) →
    ((s.tenant x.ident.tenant).issued - (s.tenant x.ident.tenant).doneT).toNat < 1073741824 →
    let issued := (s.tenant x.ident.tenant).issued + 1#32
    ∃ u y, exec (.gstartTarget a) s = .next u ∧ SameBytes s u ∧ u.agent? a = some y ∧
      (∀ k, k ≠ a → u.agent? k = s.agent? k) ∧ (u.tenant x.ident.tenant).issued = issued ∧
      (u.tenant x.ident.tenant).doneT = (s.tenant x.ident.tenant).doneT ∧
      (u.tenant x.ident.tenant).stalls = (s.tenant x.ident.tenant).stalls ++ [(issued, s.time)] ∧
      (x.flight.waits (.s n) id = true → y.regs.sreg n = issued) ∧
      y.flight.pend = x.flight.pend.filter (fun e => e.2 != id) ∧ y.ctl = x.ctl) ∧
  (∀ (s : State) (tenant die : Nat), die < 4 → (s.tenant tenant).issued ≠ (s.tenant tenant).doneT →
    (∀ x ∈ s.domain tenant, atOrAfter x.eng.grace (s.tenant tenant).doneT = true ∧ x.eng.grace ≠ (s.tenant tenant).doneT) →
    ∃ u, exec (.trackerReport tenant die) s = .next u ∧ SameBytes s u ∧
      (u.tenant tenant).issued = (s.tenant tenant).issued ∧
      let past := fun (n : Word) => (n - (s.tenant tenant).doneT).toNat
      let d := (u.tenant tenant).doneT
      (d = (s.tenant tenant).issued ∨ ∃ x ∈ s.domain tenant, d = x.eng.grace) ∧
      past d ≤ past (s.tenant tenant).issued ∧ (∀ x ∈ s.domain tenant, past d ≤ past x.eng.grace) ∧
      (keysRise s.agents = true → ∀ a x, s.agent? a = some x → x.ident.tenant = tenant → x.place ≠ none → s.runs x = true →
        ∃ y, u.agent? a = some y ∧ ∀ l, y.ctl.parked.getLsbD l = (x.ctl.parked.getLsbD l &&
          !(x.ctl.parks.any fun g => (g.target.map fun t => atOrAfter d t).getD false && g.lanes.getLsbD l)))) ∧
  (∀ (s : State) (tenant : Nat) (target : Word) (t0 : Nat),
    (s.tenant tenant).stalls.find? (fun e => e.1 == target) = some (target, t0) →
    let l := ((s.tenant tenant).reg 0x50).toNat % 4294967296
    l ≠ 0 → t0 + 940 * l ≤ s.time →
    ∃ u p, exec (.gracestall tenant target) s = .next u ∧ SameBytes s u ∧ u.agents = s.agents ∧
      (u.tenant tenant).stallReports = (s.tenant tenant).stallReports ++ [(target, p)] ∧
      (u.tenant tenant).irqs = (s.tenant tenant).irqs ++ [2] ∧ (∀ e ∈ (u.tenant tenant).stalls, e.1 ≠ target) ∧
      (p = none → ∀ x ∈ s.domain tenant, atOrAfter x.eng.grace target = true) ∧
      (∀ i at_, p = some (i, at_) → ∃ x ∈ s.domain tenant, x.ident = i ∧ x.place = at_ ∧ atOrAfter x.eng.grace target = false ∧
        ∀ y ∈ s.domain tenant, atOrAfter y.eng.grace target = false → x.rank ≤ y.rank))

/-- Quiescent points are passed and grace periods complete. -/
def Obligations.QuiescenceAndGracePeriods : Prop :=
  Claim.QuiescentPointsPerform ∧ Claim.GracePeriodsAdvance

/-! # Steps of barriers and of parked lanes -/

/-- R290 to R292: the oldest message from a core of a gang takes effect at its barrier: an arrival is counted, with its status
ORed into ACC where it carries one; the arrival that makes the count EXPECT completes the phase instead: STATUS takes ACC, ACC
and the count become 0, PHASE goes up by one modulo 2^16, and every core of the gang is told. An INIT sets EXPECT and clears
the count and ACC. No other barrier and no byte of memory changes. -/
def Sys2Proof.Claim.MessagesReachTheirBarrier : Prop :=
  ∀ (s : State) (gang pos hb : Nat) (g : Gang) (m : BarMsg) (rest : List (Nat × Nat × BarMsg)),
    s.gang? gang = some g → takeFrom pos g.msgs = some ((hb, m), rest) →
    ∃ u h, exec (.barrierArrival gang pos) s = .next u ∧ SameBytes s u ∧ u.agents = s.agents ∧ u.gang? gang = some h ∧
      (∀ k, k ≠ gang → u.gang? k = s.gang? k) ∧ h.msgs = rest ∧ (∀ k, k ≠ hb → h.barrier k = g.barrier k) ∧
      (∀ n, m = .init n → h.barrier hb = { g.barrier hb with expect := n, arrived := 0, acc := 0#32 } ∧ h.flips = g.flips) ∧
      (∀ st, m = .orArrive st ∨ m = .arrive ∧ st = 0#32 →
        let acc := (g.barrier hb).acc ||| st
        ((g.barrier hb).arrived + 1 = (g.barrier hb).expect →
          h.barrier hb = { g.barrier hb with
            status := acc, acc := 0#32, arrived := 0, phase := ((g.barrier hb).phase + 1) % 65536 } ∧
          h.flips = g.flips ++ (List.range g.cores.length).map fun p => (p, hb)) ∧
        ((g.barrier hb).arrived + 1 ≠ (g.barrier hb).expect →
          h.barrier hb = { g.barrier hb with acc := acc, arrived := ((g.barrier hb).arrived + 1) % 65536 } ∧
          h.flips = g.flips))

/-- R291, R293, R210: a flip that reaches a core lets its agents compare again: one that waits in `bar.wait` at a phase that
is not its mark goes on, its mark the phase, and lanes parked on the barrier go on. Agents elsewhere are not touched, and no
byte of memory changes. -/
def Sys2Proof.Claim.FlipsReleaseTheirWaiters : Prop :=
  ∀ (s : State) (gang pos hb : Nat) (g : Gang), s.gang? gang = some g → (pos, hb) ∈ g.flips →
    keysRise s.agents = true →
    ∃ u, exec (.flipBroadcast gang pos hb) s = .next u ∧ SameBytes s u ∧
      (u.gang? gang).map Gang.flips = some (g.flips.erase (pos, hb)) ∧
      ∀ a x, s.agent? a = some x →
        ((x.ident.gang ≠ gang ∨ x.place = none ∨ s.posOf x ≠ pos) → u.agent? a = some x) ∧
        (x.ident.gang = gang → x.place ≠ none → s.posOf x = pos →
          (∀ b z, s.agent? b = some z → z.ident.gang = gang → z.ctl.hold = .barWait hb →
            z.ident.widx = x.ident.widx → b = a) →
          ∃ y, u.agent? a = some y ∧ y.regs = x.regs ∧
            (∀ l, y.ctl.parked.getLsbD l = (x.ctl.parked.getLsbD l &&
              !(x.ctl.parks.any fun k => k.bar == some hb && k.lanes.getLsbD l))) ∧
            (x.ctl.hold = .barWait hb → x.ctl.stop = none → (g.barrier hb).phase ≠ g.warpMark hb x.ident.widx →
              y.ctl.hold = .none ∧ y.ctl.waitSince = none ∧ PcsAdvanced x.ctl.waitRun 8 x.ctl.pcs y.ctl.pcs ∧
              (u.gang? gang).map (fun h => h.warpMark hb x.ident.widx) = some (g.barrier hb).phase) ∧
            (x.ctl.hold ≠ .barWait hb → y.ctl.hold = x.ctl.hold ∧ y.ctl.pcs = x.ctl.pcs))

/-- R31, R210: a group of parked lanes is released by a completed write to its line, by the home slice's dropping its watch, or
once its time has come: its lanes are parked no more, and nothing else changes. -/
def Sys2Proof.Claim.ParkedLanesGoOn : Prop :=
  ∀ (s : State) (a id : Nat) (x : Agent) (g : ParkGroup), s.agent? a = some x → x.group id = some g →
    x.place ≠ none → s.runs x = true →
    let goes := fun (i : Instr) => ∃ u y, exec i s = .next u ∧ AgentBecomes s u a y ∧
      y = { x with
        ctl := { x.ctl with parks := y.ctl.parks, parked := y.ctl.parked }, sys := { x.sys with frame := y.sys.frame } } ∧
      y.ctl.parks = x.ctl.parks.filter (fun k => !(k.id == id)) ∧
      (∀ l, y.ctl.parked.getLsbD l = (x.ctl.parked.getLsbD l && !(x.ctl.parks.any fun k => k.id == id && k.lanes.getLsbD l)))
    (g.fired = true → goes (.parkWake a id)) ∧ (g.line ≠ none → goes (.parkWatchDrop a id)) ∧
    (∀ t, g.wakeAt = some t → t ≤ s.time → goes (.parkTimeout a id))

/-- Messages reach their barrier, flips and wakes release what waits. -/
def Obligations.BarriersAndParkedLanes : Prop :=
  Claim.MessagesReachTheirBarrier ∧ Claim.FlipsReleaseTheirWaiters ∧ Claim.ParkedLanesGoOn

/-! # Steps of warps, traps and tasks -/

/-- R304, R307: TIMER becomes pending once the time base has reached `sys.tcmp`, which is not all ones. -/
def Sys2Proof.Claim.TimersBecomePending : Prop :=
  ∀ (s : State) (a : Nat) (x : Agent), s.agent? a = some x → x.ended = false → x.sys.tcmp ≠ 0xFFFFFFFFFFFFFFFF#64 →
    x.sys.tcmp.toNat ≤ s.time → Cause.timer ∉ x.sys.causes →
    ∃ u, exec (.timer a) s = .next u ∧
      AgentBecomes s u a { x with sys := { x.sys with causes := x.sys.causes ++ [.timer] } }

/-- R304: at an issue boundary outside a handler a pending cause is taken, CHAINOVF before TIMER, into a handler that can be
fetched; with no such handler the agent stops with code 10. A TIMER taken leaves `sys.tcmp` all ones. Nothing else changes but
what the walk for the handler leaves. -/
def Sys2Proof.Claim.PendingCausesAreTaken : Prop :=
  ∀ (s : State) (a : Nat) (x : Agent) (c : Cause), s.agent? a = some x → s.live x = true → x.offers = true →
    x.sys.inHandler = false → nextCause x.sys.causes = some c →
    let s1 := s.setAgent a { x with sys := { x.sys with causes := x.sys.causes.erase c } }
    ((∃ b r, Cause.chainovf b r ∈ x.sys.causes) → ∃ b r, c = .chainovf b r) ∧
    (x.sys.thandler ≠ 0#64 → (s1.fetchable x x.sys.thandler).2 = true →
      ∃ u v y, exec (.userTrapEntry a) s = .next u ∧ SameButWalks s v ∧ AgentBecomes v u a y ∧
        y = { x with
          ctl := { x.ctl with pcs := y.ctl.pcs, parked := 0#32, parks := [] }
          sys := { x.sys with
            causes := x.sys.causes.erase c, tcause := c.word true
            frame := some { pcs := x.ctl.pcs, parked := x.ctl.parked, parks := x.ctl.parks }
            tcmp := if c = .timer then 0xFFFFFFFFFFFFFFFF#64 else x.sys.tcmp } } ∧
        PcsJumped 0#32 (~~~x.ctl.ended) 0 (fun _ => x.sys.thandler) x.ctl.pcs y.ctl.pcs) ∧
    (x.sys.thandler = 0#64 ∨ (s1.fetchable x x.sys.thandler).2 = false →
      ∃ u v y z, exec (.userTrapEntry a) s = .next u ∧ SameButWalks s v ∧ (x.sys.thandler = 0#64 → v = s) ∧
        AgentBecomes v u a y ∧
        y = { x with
          ctl := { x.ctl with stop := some z }
          sys := { x.sys with
            causes := x.sys.causes.erase c, tcause := c.word false
            tcmp := if c = .timer then 0xFFFFFFFFFFFFFFFF#64 else x.sys.tcmp } } ∧
        z.code = 10 ∧ z.pc = x.headPc ∧ z.addr = 0#64 ∧ z.time = s.time ∧ z.recorded = false)

/-- A trap enters the handler with its frame saved, and tret gives the frame back. -/
def Obligations.UserTraps : Prop :=
  Claim.TrapEntersTheHandler ∧ Claim.TretRestoresTheFrame ∧ Claim.TimersBecomePending ∧
  Claim.PendingCausesAreTaken

/-- R33, R34, R36, R63, R214, R242, R313: the oldest ready warp of a partition's pending set enters the active set, in room that
is there or that a warp makes which may leave it; the two then issue nothing for 2 clocks. Ready is a warp that offers an
instruction whose operands the scoreboard has cleared. A warp waits for a wait counter or at issue for more than 64 clocks
before it leaves; at a barrier, in a call, for registers or with no lane that is not parked it may leave at once, and so may one
that has stopped. Which of the warps that may leave makes room is the model's choice, any (log 84, DESIGN CHOICE), and so is
that a warp passed over for longer than a bound goes first and takes the place of an active one that is not (log 93, DESIGN
CHOICE: R63 names no bound and no mechanism). The oldest warp that waits on `grow` gets its registers, which read 0 and carry no
mark, once so many are free. A `waitc` ends once each count is at or below its number. Nothing else changes. -/
def Sys2Proof.Claim.WarpsSwapAndGrow : Prop :=
  (∀ (s : State) (core part i b : Nat) (y : Agent), s.oldestPending core part = some (b, y) →
    y.place = some ⟨core, part, i⟩ → s.agent? b = some y →
    (y.active = false ∧ s.readyToGo y = true ∧
      ∀ e ∈ s.inPart core part, e.2.active = false → s.readyToGo e.2 = true →
        (e.2.overdue = true → y.overdue = true) ∧ (e.2.overdue = y.overdue → olderAgent e.2 y = false)) ∧
    (s.activeRoom core part = true →
      ∃ u, exec (.warpSwap core part i i) s = .next u ∧ AgentBecomes s u b { y with active := true }) ∧
    (∀ j a x, j ≠ i → (s.inPart core part).find? (fun e => e.2.active && e.2.place == some ⟨core, part, j⟩) = some (a, x) →
      a ≠ b → x.frozen ≤ s.time → y.frozen ≤ s.time →
      let waits := fun (h : Hold) => match h with
        | .barWait _ | .held _ | .grow _ | .setFree | .fdefer _ _ _ _ true => true
        | _ => false
      let long := ∃ t0, x.ctl.waitSince = some t0 ∧ t0 + 64 < s.time
      let goes := ∃ u, exec (.warpSwap core part j i) s = .next u ∧ u = { s with agents := u.agents } ∧
        u.agent? a = some { x with active := false, frozen := s.time + 2 } ∧
        u.agent? b = some { y with active := true, frozen := s.time + 2 } ∧ ∀ k, k ≠ a → k ≠ b → u.agent? k = s.agent? k
      (x.ctl.stop ≠ none → goes) ∧ (waits x.ctl.hold = true → goes) ∧
      (x.ctl.hold = .none → x.ctl.headRun = none → goes) ∧
      (x.ctl.hold = .none → x.ctl.stall = true → long → goes) ∧
      (∀ ld st tl, x.ctl.hold = .waitc ld st tl → long → goes) ∧
      (y.overdue = true → x.overdue = false → goes) ∧
      (((∃ ld st tl, x.ctl.hold = .waitc ld st tl) ∨ (x.ctl.hold = .none ∧ x.ctl.headRun ≠ none)) → ¬ long →
        y.overdue = false → x.ctl.stop = none → exec (.warpSwap core part j i) s = .next s))) ∧
  (∀ (s : State) (a n : Nat) (x : Agent) (p : Place), s.agent? a = some x → x.ctl.hold = .grow n → x.place = some p →
    s.live x = true → (∀ e ∈ s.inPart p.core p.part, e.1 ≠ a → e.2.grows = true → olderAgent e.2 x = false) →
    n ≤ s.freeRegs p.core p.part →
    ∃ (u : State) (q : KMap DWord) (r : Regs), exec (.growGrant a) s = .next u ∧ PcsAdvanced x.ctl.waitRun 8 x.ctl.pcs q ∧ AgentBecomes s u a { x with
      regs := { x.regs with alloc := x.regs.alloc + n, v := r.v, vMark := r.vMark }
      ctl := { x.ctl with pcs := q, hold := .none, waitRun := 0#32, waitSince := none } } ∧
      ∀ k l, r.vlane k l = (if k < x.regs.alloc then x.regs.vlane k l else 0#32) ∧
        kgetD 0#32 r.vMark k = (if k < x.regs.alloc then kgetD 0#32 x.regs.vMark k else 0#32)) ∧
  (∀ (s : State) (a ld st tl : Nat) (x : Agent), s.agent? a = some x → x.ctl.hold = .waitc ld st tl → s.live x = true →
    ldbCount x.flight ≤ ld → stbCount x.flight ≤ st → s.toolCount a x.core ≤ tl →
    ∃ u q, exec (.waitcRelease a) s = .next u ∧ PcsAdvanced x.ctl.waitRun 8 x.ctl.pcs q ∧ AgentBecomes s u a { x with
      ctl := { x.ctl with pcs := q, hold := .none, waitRun := 0#32, waitSince := none } })

/-- R11, R33, R63, R166: which agent issues. It is one that may: it stands in the active set of a gang that runs, no swap of it is
under way, it offers an instruction, it has not issued in this clock, and of its partition fewer than four have, none of them on
the pipe that its instruction asks for, which no instruction of several clocks still occupies. Of those that may it is the oldest,
where no other is overdue (log 93, DESIGN CHOICE); with nothing else due it takes the next step, and one that is named by a choice
takes it where it is the oldest for its pipe. -/
def Sys2Proof.Claim.TheOldestReadyIssues : Prop :=
  (∀ (s : State) (a : Nat) (x : Agent),
    (s.mayIssue a x = true ↔ ∃ p pc run, x.place = some p ∧ x.ctl.headRun = some (pc, run) ∧ x.active = true ∧
      x.offers = true ∧ x.ctl.stall = false ∧ s.runs x = true ∧ x.frozen ≤ s.time ∧
      (∀ e ∈ s.clock, e.agent = a → e.clk ≠ s.time) ∧
      ∀ i, (s.fetch p x.ident.tenant pc).2 = .got i →
        (s.clock.filter fun e => e.core == p.core && e.part == p.part && e.clk == s.time).length < 4 ∧
        ∀ e ∈ s.clock, e.core = p.core → e.part = p.part → e.pipe ≠ pipeOf i)) ∧
  (∀ (s : State),
    (∀ a x, s.nextIssuer = some (a, x) → (a, x) ∈ s.agents ∧ s.mayIssue a x = true ∧
      ∀ e ∈ s.agents, s.mayIssue e.1 e.2 = true →
        (e.2.overdue = true → x.overdue = true) ∧ (e.2.overdue = x.overdue → olderAgent e.2 x = false)) ∧
    (s.nextIssuer = none → ∀ e ∈ s.agents, s.mayIssue e.1 e.2 = false) ∧
    (s.cur = none → s.agenda = [] → firstChange s (dueSteps s) = none → s.device.sliBusy = [] →
      ∀ a x, s.nextIssuer = some (a, x) → step s = s.turn a) ∧
    (∀ a x rest, s.cur = none → s.agenda = .turn a :: rest → s.agent? a = some x →
      let s1 := { s with agenda := rest }
      (s1.mayIssue a x = true → s1.firstForPipe a x = true → step s = s1.turn a) ∧
      (s1.mayIssue a x = false ∨ s1.firstForPipe a x = false → step s = .next s1))) ∧
  (∀ (s : State) (a : Nat) (x : Agent) (p : Place) (pc : DWord) (run : Lanes), x.place = some p →
    x.ctl.headRun = some (pc, run) → s.firstForPipe a x = true →
    ∀ e ∈ s.agents, e.1 ≠ a → s.mayIssue e.1 e.2 = true → ∀ q qc qrun, e.2.place = some q →
      e.2.ctl.headRun = some (qc, qrun) → q.core = p.core → q.part = p.part → s.pipeFor q e.2 qc = s.pipeFor p x pc →
      goesFirst e.2 x = false)

/-- The oldest ready warp of each pipe issues; warps swap and grow in their order. -/
def Obligations.WarpsTakeTheirTurns : Prop := Claim.TheOldestReadyIssues ∧ Claim.WarpsSwapAndGrow

/-- R40 to R42, R61: of a core's tasks in age order the first whose registers and slot a partition has starts there, with no
pre-emption pending; the tasks passed over count it, and one passed over 64 times blocks those behind it. A continuation whose
tasks have all returned resumes in its slot, once the registers are there, with the scalars, the predicates and the lanes that
its call saved, at its address. By the model's reading the L1 of the core keeps nothing at the start of a task (log 92,
DEDUCED) and the budget of the continuation is the one that its call kept in the record (log 47); by its choice the task enters
the active set where that has room and no ready warp waits for it (log 100, DESIGN CHOICE). -/
def Obligations.TasksStartAndContinuationsResume : Prop :=
  (∀ (s : State) (core : Nat) (pre post : List (Nat × Agent)) (a : Nat) (x : Agent),
    s.taskQueue core = pre ++ (a, x) :: post → (∀ e ∈ pre, s.fitPart core e.2.regs.alloc = none ∧ e.2.passed < 64) →
    s.agent? a = some x →
    (∀ p, s.fitPart core x.regs.alloc = some p → (∀ e ∈ pre, e.1 ≠ a) →
      ∃ u, exec (.taskStart core) s = .next u ∧ u = { s with agents := u.agents, cores := u.cores } ∧
        (u.core core).l1 = [] ∧ (∀ k, k ≠ core → u.core k = s.core k) ∧
        u.agent? a = some { x with
          place := some p, queued := false, active := s.entersActive p.core p.part, ident := { x.ident with born := s.time }
          sys := { x.sys with yreq := false }, passed := 0 } ∧
        ∀ k, k ≠ a → u.agent? k = (s.agent? k).map fun z => { z with passed := z.passed + (pre.map Prod.fst).count k }) ∧
    (s.fitPart core x.regs.alloc = none → 64 ≤ x.passed → exec (.taskStart core) s = .next s)) ∧
  (∀ (s : State) (a id : Nat) (x : Agent) (p : Place) (r : ContRec), s.agent? a = some x → x.ctl.hold = .held id →
    x.place = some p → x.recs.find? (fun r => r.id == id) = some r → s.live x = true → r.join = 0 →
    r.budget * 32 ≤ s.freeRegs p.core p.part →
    ∃ u q, exec (.continuationResume a) s = .next u ∧ PcsJumped 0#32 r.lanes 0 (fun _ => r.cont) x.ctl.pcs q ∧
      AgentBecomes s u a { x with
        recs := x.recs.filter fun q => q.id != id
        regs := { alloc := r.budget * 32, v := [], vMark := [], s := r.scalars, sMark := r.marks, p := r.preds }
        ctl := { x.ctl with pcs := q, hold := .none }
        sys := { x.sys with fpflags := r.flags } })

/-! # Steps of the dispatcher -/

/-- A record has joined its queue; nothing else differs. -/
def Sys2Proof.Claim.Appended (s u : State) (t die prio : Nat) (r : LaunchRec) : Prop :=
  u = { s with tenants := u.tenants } ∧ (∀ k, k ≠ t → u.tenant k = s.tenant k) ∧
  ∃ m, u.tenant t = { s.tenant t with queues := m } ∧
    ∀ k, kgetD LaunchQ.empty m k =
      if k = queueKey die prio then
        { (s.tenant t).queue die prio with recs := ((s.tenant t).queue die prio).recs ++ [r] }
      else kgetD LaunchQ.empty (s.tenant t).queues k

/-- QERR is 1, with vector 3 raised where it was 0; nothing else differs (R45, R354). -/
def Sys2Proof.Claim.QueueRefused (s u : State) (t : Nat) : Prop :=
  u = { s with tenants := u.tenants } ∧ (∀ k, k ≠ t → u.tenant k = s.tenant k) ∧
  u.tenant t = (if (s.tenant t).qerr then s.tenant t
    else { s.tenant t with qerr := true, irqs := (s.tenant t).irqs ++ [3] })

/-- A read that the link has lost brings LINKERR, with vector 3 where it was not set; any other leaves both (R357). -/
def Sys2Proof.Claim.LinkAnswers (s u : State) (t : Nat) (lost : Bool) : Prop :=
  (u.tenant t).linkerr = (lost || (s.tenant t).linkerr) ∧ u.linkLost = (s.linkLost && !lost) ∧
  (u.tenant t).irqs = (s.tenant t).irqs ++ (if lost && !(s.tenant t).linkerr then [3] else [])

/-- The head record has left its queue, with this status for its completion word (R47 to R49). -/
def Sys2Proof.Claim.HeadLeaves (s u : State) (t die prio : Nat) (r : LaunchRec) (status : Nat) : Prop :=
  SameBytes s u ∧ u.agents = s.agents ∧ (∀ k, k ≠ t → u.tenant k = s.tenant k) ∧
  (u.tenant t).queue die prio =
    { recs := ((s.tenant t).queue die prio).recs.drop 1, head := .unchecked, launch := none } ∧
  (∀ k, k ≠ queueKey die prio →
    kgetD LaunchQ.empty (u.tenant t).queues k = kgetD LaunchQ.empty (s.tenant t).queues k) ∧
  u.completions = s.completions ++
    (if r.done = 0#64 then []
      else [{ tenant := t, launch := 0, addr := r.done, status := status, count := false, irq := r.irq, tag := r.tag,
              die := die }])

/-- R45, R216, R348: 64 aligned bytes written to a queue window, or those that `task.push` names in ABUF once the older buffer
stores have performed, join their queue as a record. A context that is disabled or being reset, and a window that is written
otherwise or is full, discards them and sets QERR; a `task.push` to a full queue waits. -/
def Sys2Proof.Claim.LaunchRecordsAreAppended : Prop :=
  (∀ (s : State) (t off : Nat) (b : List Byte), t < 16 → off < 65536 →
    ((s.tenant t).refusesAppends = true ∨ off % 64 ≠ 0 ∨ b.length ≠ 64 ∨
      256 ≤ ((s.tenant t).queue (off / 16384) (off / 4096 % 4)).recs.length →
      ∃ u, exec (.queueWindowWrite t off b) s = .next u ∧ QueueRefused s u t) ∧
    ((s.tenant t).refusesAppends = false → off % 64 = 0 → b.length = 64 →
      ((s.tenant t).queue (off / 16384) (off / 4096 % 4)).recs.length < 256 →
      ∃ u, exec (.queueWindowWrite t off b) s = .next u ∧
        Appended s u t (off / 16384) (off / 4096 % 4) (LaunchRec.ofBytes b))) ∧
  (∀ (s : State) (a prio off : Nat) (x : Agent), s.agent? a = some x → x.ctl.hold = .taskPush prio off →
    s.live x = true → stbCount x.flight = 0 →
    let t := x.ident.tenant
    let went := fun (v : State) => ∃ q, PcsAdvanced x.ctl.waitRun 8 x.ctl.pcs q ∧
      AgentBecomes s v a { x with
      ctl := { x.ctl with pcs := q, hold := .none, waitRun := 0#32, waitSince := none } }
    ((s.tenant t).refusesAppends = true →
      ∃ v u, exec (.taskPushAppend a) s = .next u ∧ went v ∧ QueueRefused v u t) ∧
    ((s.tenant t).refusesAppends = false → 256 ≤ ((s.tenant t).queue x.die prio).recs.length →
      exec (.taskPushAppend a) s = .next s) ∧
    ((s.tenant t).refusesAppends = false → ((s.tenant t).queue x.die prio).recs.length < 256 →
      ∃ v u, exec (.taskPushAppend a) s = .next u ∧ went v ∧
        Appended v u t x.die prio (LaunchRec.ofBytes (s.bufBytes ⟨x.ident.gang, s.posOf x, x.core, .abuf⟩ off 64))))

/-- R47, R49, R55, R56: the record at the head of a queue is checked. An entry that is not aligned, a header that cannot be
read or is none, numbers out of range, a gang that no empty cores hold and a process-group table that is none or cannot be
read refuse it with status 2, with a report of code 14 for what could not be read. Otherwise a launch of this device's shares
comes of it, which waits for its word or is eligible. The shares of the ranks follow each other and cover the gangs. A wait
word that cannot be read refuses the launch, one with a status drops it with this status, one at or above WAITV makes it
eligible, any other leaves it waiting. A read that the link loses is one that could not be read, with LINKERR (R357); a line that
an engine owns holds the read (R130). By the model's reading an ENTRY that is not aligned is an invalid header (log 41, DEDUCED), a WAITA that is not is one that cannot
be read (log 40, DEDUCED), and as a launch becomes eligible the counts of its ranks without a gang are added, and one of which
this device runs no gang has left its queue (log 31, DEDUCED). By its choice the report of a table that cannot be read holds PGT
(log 86, DESIGN CHOICE). -/
def Sys2Proof.Claim.LaunchesAreChecked : Prop :=
  let emptyCounts := fun (t die : Nat) (r : LaunchRec) (shares : List RankShare) =>
    (if r.done = 0#64 then [] else (shares.filter fun q => q.count == 0).map fun _ =>
      ({ tenant := t, launch := 0, addr := r.done, status := 0, count := true, irq := r.irq, tag := r.tag, die := die } :
        Completion) : List Completion)
  (∀ (s : State) (t die prio : Nat) (r : LaunchRec) (rs : List LaunchRec), (s.tenant t).serves = true → die < 4 → prio < 4 →
    ((s.tenant t).queue die prio).recs = r :: rs → ((s.tenant t).queue die prio).head = .unchecked →
    let waits := exec (.launchCheck t die prio) s = .next s
    let refused := ∃ u, exec (.launchCheck t die prio) s = .next u ∧ HeadLeaves s u t die prio r 2 ∧
      (u.tenant t).reports = (s.tenant t).reports
    let unread := fun (lost : Bool) (a : DWord) (f : Bool) => ∃ u z, exec (.launchCheck t die prio) s = .next u ∧
      HeadLeaves s u t die prio r 2 ∧ LinkAnswers s u t lost ∧
      (u.tenant t).reports = (s.tenant t).reports ++ [z] ∧ z.code = 14 ∧ z.addr = a ∧ z.fetch = f ∧ z.tag = r.tag
    (r.entry.toNat % 8 ≠ 0 → refused) ∧
    (r.entry.toNat % 8 = 0 →
      (s.dispBytes die t 8 .fetch 2 (r.entry - 16#64) = .held → waits) ∧
      (∀ lost, s.dispBytes die t 8 .fetch 2 (r.entry - 16#64) = .bad lost → unread lost (r.entry - 16#64) true) ∧
      (∀ b, s.dispBytes die t 8 .fetch 2 (r.entry - 16#64) = .ok b →
        let head := Header.ofWords (leVal (b.take 4)) (leVal ((b.drop 4).take 4)) (leVal ((b.drop 8).take 4))
          (leVal (b.drop 12))
        (head = none → refused) ∧
        (∀ h, head = some h →
          (r.warps = 0 ∨ 128 < r.warps ∨ r.cores = 3 ∨ r.gangs = 0 ∨ fitsEmpty h r = false → refused) ∧
          (1 ≤ r.warps → r.warps ≤ 128 → r.cores ≠ 3 → r.gangs ≠ 0 → fitsEmpty h r = true →
            (s.readShares die t r = .held → waits) ∧
            (∀ lost, s.readShares die t r = .bad lost → unread lost r.pgt false) ∧
            (s.readShares die t r = .ok none → refused) ∧
            (∀ shares, s.readShares die t r = .ok (some shares) →
              ∃ u, exec (.launchCheck t die prio) s = .next u ∧ SameBytes s u ∧ u.agents = s.agents ∧
                (∀ k, k ≠ s.nextKey → kget u.launches k = kget s.launches k) ∧
                u.completions = s.completions ++ (if r.waita = 0#64 then emptyCounts t die r shares else []) ∧
                (r.waita ≠ 0#64 ∨ (∃ q ∈ shares, q.count ≠ 0) →
                  ∃ l, kget u.launches s.nextKey = some l ∧ l.tenant = t ∧ l.die = die ∧ l.prio = prio ∧ l.record = r ∧
                  l.header = h ∧ l.shares = shares ∧ l.committed = 0 ∧
                  (u.tenant t).queue die prio = { recs := r :: rs, launch := some s.nextKey,
                                                  head := if r.waita = 0#64 then .eligible else .waiting }) ∧
                (r.waita = 0#64 → (∀ q ∈ shares, q.count = 0) → kget u.launches s.nextKey = none ∧
                  (u.tenant t).queue die prio = { recs := rs, launch := none, head := .unchecked }))))))) ∧
  (∀ (gangs p die : Nat) (mask : BitVec 40), 0 < p →
    (shareOf gangs p 0 die mask).first = 0 ∧ (shareOf gangs p p die mask).first = gangs ∧
    ∀ r, r < p → (shareOf gangs p (r + 1) die mask).first =
      (shareOf gangs p r die mask).first + (shareOf gangs p r die mask).count) ∧
  (∀ (s : State) (t die prio : Nat) (r : LaunchRec) (rs : List LaunchRec), (s.tenant t).serves = true →
    ((s.tenant t).queue die prio).recs = r :: rs → ((s.tenant t).queue die prio).head = .waiting →
    ∀ key l, ((s.tenant t).queue die prio).launch = some key → kget s.launches key = some l → l.record = r →
    (r.waita.toNat % 8 = 0 → s.dispBytes die t 8 .read 1 r.waita = .held → exec (.waitWordRead t die prio) s = .next s) ∧
    (∀ lost, (r.waita.toNat % 8 ≠ 0 ∧ lost = false) ∨
        (r.waita.toNat % 8 = 0 ∧ s.dispBytes die t 8 .read 1 r.waita = .bad lost) →
      ∃ u z, exec (.waitWordRead t die prio) s = .next u ∧
        HeadLeaves s u t die prio r 2 ∧ LinkAnswers s u t lost ∧
        (u.tenant t).reports = (s.tenant t).reports ++ [z] ∧ z.code = 14 ∧ z.addr = r.waita ∧ z.fetch = false ∧ z.tag = r.tag) ∧
    (r.waita.toNat % 8 = 0 → ∀ b, s.dispBytes die t 8 .read 1 r.waita = .ok b →
      (leVal b / 2 ^ 56 ≠ 0 → ∃ u, exec (.waitWordRead t die prio) s = .next u ∧
        HeadLeaves s u t die prio r (leVal b / 2 ^ 56) ∧ kget u.launches key = none) ∧
      (leVal b / 2 ^ 56 = 0 → r.waitv.toNat ≤ leVal b % 2 ^ 48 →
        ∃ u, exec (.waitWordRead t die prio) s = .next u ∧ SameBytes s u ∧ u.agents = s.agents ∧
          u.completions = s.completions ++ emptyCounts t die r l.shares ∧ (∀ k, k ≠ t → u.tenant k = s.tenant k) ∧
          ((∃ q ∈ l.shares, q.count ≠ 0) →
            (u.tenant t).queue die prio = { (s.tenant t).queue die prio with head := .eligible } ∧ u.launches = s.launches) ∧
          ((∀ q ∈ l.shares, q.count = 0) →
            (u.tenant t).queue die prio = { recs := rs, launch := none, head := .unchecked } ∧ kget u.launches key = none)) ∧
      (leVal b / 2 ^ 56 = 0 → leVal b % 2 ^ 48 < r.waitv.toNat → exec (.waitWordRead t die prio) s = .next s)))

/-- Launch records join their queues and are checked at its head. -/
def Obligations.LaunchRecordsAndTheirChecks : Prop :=
  Claim.LaunchRecordsAreAppended ∧ Claim.LaunchesAreChecked

/-- R50, R51: a free admission unit of a die takes the next gang of the tenant whose turn it is, while that is not used up, else
of the next tenant in the round that has one; the gang's launch counts it. The turn of a tenant that has none to take is over:
no weight lets it go on. Of a core's partitions with a free slot the one with most free registers is chosen, the lowest of
these, and there, by the model's reading, the lowest slot (log 39, DEDUCED). -/
def Sys2Proof.Claim.GangsAreTaken : Prop :=
  (∀ (s : State) (die unit t : Nat) (g : Admission),
    (List.range 4).find? (fun u => (kget (s.die die).units u).isNone) = some unit → (s.die die).turn < 16 → t < 16 →
    s.mayTake die t = true → s.nextGang die t = some g →
    let now := (s.die die).taken < (s.tenant (s.die die).turn).weight ∧ s.mayTake die (s.die die).turn = true
    let far := fun k => (k + 15 - (s.die die).turn) % 16
    (now → t = (s.die die).turn) → (¬ now → ∀ k, k < 16 → s.mayTake die k = true → far t ≤ far k) →
    ∃ u x, exec (.admissionTake die) s = .next u ∧ SameBytes s u ∧ u.agents = s.agents ∧ u.gangs = s.gangs ∧
      (u.die die).turn = t ∧
      (u.die die).taken = (if t = (s.die die).turn ∧ (s.die die).taken < (s.tenant t).weight then (s.die die).taken + 1
        else 1) ∧
      kget (u.die die).units unit = some x ∧ x.tenant = g.tenant ∧ x.launch = g.launch ∧ x.rank = g.rank ∧
      x.index = g.index ∧ x.restore = g.restore ∧ x.k = g.k ∧
      (∀ k, k ≠ unit → kget (u.die die).units k = kget (s.die die).units k) ∧ (∀ d, d ≠ die → u.die d = s.die d) ∧
      u.launches = (if g.restore = none then kmod s.launches g.launch (Launch.take g.rank) else s.launches)) ∧
  (∀ (s : State) (die : Nat), (s.die die).taken ≠ 0 → s.mayTake die (s.die die).turn = false →
    ((s.endTurn die).die die).turn = (s.die die).turn ∧ ∀ t, (s.tenant t).weight ≤ ((s.endTurn die).die die).taken) ∧
  (∀ (s : State) (core : Nat) (p : Place), s.choosePart core [] = some p →
    p.core = core ∧ p.part < 8 ∧ (s.freeSlots core p.part).head? = some p.slot ∧
    ∀ q, q < 8 → s.freeSlots core q ≠ [] → s.freeRegs core q ≤ s.freeRegs core p.part ∧
      (s.freeRegs core q = s.freeRegs core p.part → p.part ≤ q))

/-- R29, R33, R52 to R54, R136: a core that can grant its part answers for it; the last grant brings the gang into being, its
buffers, barriers and slots as at the start, and its warps into their places with the registers that a launch gives, all of one
age, the L1 of its cores invalidated. A core that cannot refuses, every grant goes back, and the unit waits 16 × 2^min(k, 6)
clocks and a draw of the LFSR more; then it chooses anew. The units that refuse in one clock draw in ascending order. That the
windows of a new gang's buffers hold nothing written is the model's choice (log 8, DESIGN CHOICE), and that the L1 of its cores keeps nothing
its reading (log 92, DEDUCED). -/
def Sys2Proof.Claim.CoresGrantOrRefuse : Prop :=
  (∀ (s : State) (die unit pos : Nat) (rest : List Nat) (a : Admission), kget (s.die die).units unit = some a →
    a.replies = pos :: rest →
    (s.coreGrants a pos = false → (∃ n v, (n, v) ∈ (s.die die).units ∧ n < unit ∧ v.replies ≠ []) →
      exec (.reservationReply die unit) s = .next s) ∧
    (s.coreGrants a pos = false →
      (∀ n v, (n, v) ∈ (s.die die).units →
        (n < unit → v.replies = [] ∧ ∀ t, v.retryAt = some t → s.time < t) ∧ (unit < n → v.refusedAt ≠ some s.time)) →
      let y := if (s.die die).lfsr.getLsbD 0 then ((s.die die).lfsr >>> 1) ^^^ 0xB400#16 else (s.die die).lfsr >>> 1
      ∃ u, exec (.reservationReply die unit) s = .next u ∧ u = { s with dies := u.dies } ∧ (u.die die).lfsr = y ∧
        kget (u.die die).units unit = some { a with
          places := [], allots := [], replies := [], refused := false, k := a.k + 1, refusedAt := some s.time
          retryAt := some (s.time + 16 * 2 ^ min a.k 6 + y.toNat % 16) } ∧
        (∀ k, k ≠ unit → kget (u.die die).units k = kget (s.die die).units k) ∧ ∀ d, d ≠ die → u.die d = s.die d) ∧
    (s.coreGrants a pos = true → (rest ≠ [] ∨ a.restore ≠ none) →
      ∃ u, exec (.reservationReply die unit) s = .next u ∧ u = { s with dies := u.dies } ∧
        (u.die die).lfsr = (s.die die).lfsr ∧ kget (u.die die).units unit = some { a with replies := rest } ∧
        (∀ k, k ≠ unit → kget (u.die die).units k = kget (s.die die).units k) ∧ ∀ d, d ≠ die → u.die d = s.die d) ∧
    (s.coreGrants a pos = true → rest = [] → a.restore = none → ∀ l r, kget s.launches a.launch = some l →
      l.shares.find? (fun r => r.rank == a.rank) = some r →
      ∃ u g, exec (.reservationReply die unit) s = .next u ∧ SameBytes s u ∧ kget (u.die die).units unit = none ∧
        u.gang? s.nextKey = some g ∧ g.tenant = l.tenant ∧ g.launch = a.launch ∧ g.index = a.index ∧ g.rank = a.rank ∧
        g.header = l.header ∧ g.cores = a.cores ∧ g.phase = .running ∧ g.buf = [] ∧ g.bufMark = [] ∧ g.bars = [] ∧
        g.slots = [] ∧ g.planes = [] ∧ g.tables = [] ∧ g.msgs = [] ∧
        (∀ k, k ≤ s.nextKey → u.agent? k = s.agent? k) ∧ (∀ c ∈ a.cores, (u.core c).l1 = []) ∧
        ∀ i p, a.places[i]? = some p → ∃ x, u.agent? (s.nextKey + 1 + i) = some x ∧ x.place = some p ∧
          x.ident.gang = s.nextKey ∧ x.ident.widx = i ∧ x.ident.tenant = l.tenant ∧ x.ident.born = s.time ∧ x.task = false ∧
          (∀ j, j < 32 → x.ctl.pc j = l.record.entry) ∧ x.ctl.ended = 0#32 ∧ x.ctl.parked = 0#32 ∧
          x.regs.alloc = l.header.budget * 32 ∧ x.regs.spair 0 = l.record.param ∧
          x.regs.sreg 2 = BitVec.ofNat 32 r.rank ∧ x.regs.sreg 3 = BitVec.ofNat 32 r.ranks ∧
          x.regs.spair 4 = BitVec.ofNat 64 a.index ∧ x.regs.spair 6 = BitVec.ofNat 64 l.record.gangs ∧
          (∀ k, 8 ≤ k → x.regs.sreg k = 0#32) ∧ x.regs.v = [] ∧ x.regs.p = [] ∧ x.sys.fpmode = 0#32 ∧
          x.sys.fpflags = 0#32 ∧ x.sys.thandler = 0#64 ∧ x.sys.tcmp = 0xFFFFFFFFFFFFFFFF#64 ∧
          x.eng.grace = (s.tenant l.tenant).issued)) ∧
  (∀ (s : State) (die unit t : Nat) (a : Admission), kget (s.die die).units unit = some a → a.retryAt = some t → t ≤ s.time →
    ∃ u x, exec (.backoffExpiry die unit) s = .next u ∧ u = { s with dies := u.dies } ∧
      kget (u.die die).units unit = some x ∧ x.retryAt = none ∧ x.k = a.k ∧ x.tenant = a.tenant ∧ x.launch = a.launch ∧
      x.rank = a.rank ∧ x.index = a.index ∧ x.restore = a.restore ∧
      (∀ k, k ≠ unit → kget (u.die die).units k = kget (s.die die).units k) ∧ ∀ d, d ≠ die → u.die d = s.die d)

/-- R50 to R54, R29. -/
def Obligations.GangsAreAdmitted : Prop := Claim.GangsAreTaken ∧ Claim.CoresGrantOrRefuse

/-- R48, R130, R354: a completion whose launch has no store of an ended warp on its way is written: the count in the low 48 bits
goes up by one, or the status is ORed into the top byte, and vector 0 is raised where the record asks for it. A line that an
engine owns and writes before it on the path to another die (R120) hold it. A word that cannot be written is reported with code
14 instead, and by the model's reading one that is not aligned too (log 40, DEDUCED). -/
def Sys2Proof.Claim.CompletionsAreWritten : Prop :=
  ∀ (s : State) (ix : Nat) (c : Completion), s.completions[ix]? = some c →
    (c.count = true → c.launch ≠ 0 → s.launchStores c.launch = false) →
    let s0 := { s with completions := s.completions.eraseIdx ix }
    (∀ s1 x, c.addr.toNat % 8 = 0 → s0.translateDie c.die c.tenant c.addr .write = (s1, .ok x) →
      (s.reachHeld c.die .any x.key = true → exec (.completionWordWrite ix) s = .next s) ∧
      (s.reachHeld c.die .any x.key = false →
        let w := s.le x.key 8
        let v := if c.count then w / 2 ^ 48 * 2 ^ 48 + (w + 1) % 2 ^ 48 else w ||| c.status * 2 ^ 56
        ∃ u, exec (.completionWordWrite ix) s = .next u ∧ (∀ a, u.byte a = (s.write (cellsAt x.key (leBytes 8 v))).byte a) ∧
          u.completions = s.completions.eraseIdx ix ∧
          (u.tenant c.tenant).irqs = (s.tenant c.tenant).irqs ++ (if c.irq then [0] else []))) ∧
    ((c.addr.toNat % 8 ≠ 0 ∨ ∃ s1 code, s0.translateDie c.die c.tenant c.addr .write = (s1, .fault code)) →
      ∃ u z, exec (.completionWordWrite ix) s = .next u ∧ SameBytes s u ∧ u.completions = s.completions.eraseIdx ix ∧
        (u.tenant c.tenant).reports = (s.tenant c.tenant).reports ++ [z] ∧ z.code = 14 ∧ z.addr = c.addr ∧ z.wr = true ∧
        z.tag = c.tag)

/-- R314, R351, R354: with a slot of the fault queue free, the record met first is written there, the driver's index goes up
by one and vector 1 is raised; the stop is then recorded, the report gone, or the kept record. That the record of an agent that
has gone on or been saved before it was written is kept is the model's reading (log 65, DEDUCED). The queue is full where its two counts differ by its number of slots. -/
def Sys2Proof.Claim.FaultsAreRecorded : Prop :=
  ∀ (s : State) (t key : Nat) (w : Unwritten), (s.tenant t).enabled = true →
    firstUnwritten (s.unwritten t) = some w →
    let slots := 2 ^ ebits ((s.tenant t).reg 0x70).toNat 4 0
    (((s.tenant t).reg 0x80 - (s.tenant t).reg 0x78).toNat = slots → exec (.faultRecord t) s = .next s) ∧
    (((s.tenant t).reg 0x80 - (s.tenant t).reg 0x78).toNat ≠ slots →
      devKey (((s.tenant t).reg 0x68).toNat / 64 * 64 + 64 * (((s.tenant t).reg 0x80).toNat % slots)) = some key →
      (w ∈ s.unwritten t ∧ ∀ v ∈ s.unwritten t, w.time ≤ v.time) ∧
      (s.ownedLine .any key = true → exec (.faultRecord t) s = .next s) ∧
      (s.ownedLine .any key = false →
        let bytes := match w with
          | .stop _ x p => s.stopRecord x p
          | .report r => reportRecord t r
          | .record _ _ b => b
        ∃ u, exec (.faultRecord t) s = .next u ∧ (∀ a, u.byte a = (s.write (cellsAt key (bytes.take 64))).byte a) ∧
          (u.tenant t).reg 0x80 = (s.tenant t).reg 0x80 + 1#64 ∧ (u.tenant t).irqs = (s.tenant t).irqs ++ [1] ∧
          (∀ k, k ≠ t → u.tenant k = s.tenant k) ∧
          (∀ a x p, w = .stop a x p → s.agent? a = some x → x.ctl.stop = some p →
            (u.agent? a).map (fun y => (y.ctl.stop, y.regs, y.ctl.pcs)) =
              some (some { p with recorded := true }, x.regs, x.ctl.pcs)) ∧
          (∀ r, w = .report r → (u.tenant t).reports = (s.tenant t).reports.erase r) ∧
          (∀ n a b, w = .record n a b → (u.tenant t).records = (s.tenant t).records.erase (n, a, b))))

/-- R308, R322, R324, R351: an event of a command of a tenant that traces, and whose filter admits the label, is recorded in the
slot of the trace ring where the next record goes, with the time base, the identity and number of the command, its engine, the
event, its status and its label. A ring that is disabled or full drops the record and counts it, the latter with vector 4. A
tenant that does not trace records nothing. That a ring is full where its next slot is the driver's, and that a disabled one
raises no vector, is the model's reading (log 22). -/
def Sys2Proof.Claim.TracesAreRecorded : Prop :=
  ∀ (s : State) (c : CmdName) (ev : TraceEv) (status : Nat),
    let t := c.issuer.tenant
    let x := s.tenant t
    let traces := x.reg 0
    let b := ebits (x.reg 0xA8).toNat 4 0
    let drops := fun (irqs : List Nat) => s.trace c ev status = { s with tenants := (s.trace c ev status).tenants } ∧
      (s.trace c ev status).tenant t = { x with traceDrops := x.traceDrops + 1, irqs := x.irqs ++ irqs }
    ((traces.getLsbD 1 = false ∨ admits t (labelOf c.label) = false) → s.trace c ev status = s) ∧
    (traces.getLsbD 1 = true → admits t (labelOf c.label) = true →
      ((b < 4 ∨ 20 < b) → drops []) ∧
      (4 ≤ b → b ≤ 20 →
        let driver := ebits (x.reg 0xA8).toNat 15 8 * 2 ^ b / 256
        ((x.traceIx + 1) % 2 ^ b = driver → drops [4]) ∧
        ((x.traceIx + 1) % 2 ^ b ≠ driver →
          ∃ r m y, r = s.traceRec c ev status ∧ r.time = s.time ∧ r.tenant = t ∧ r.widx = c.issuer.widx ∧
            r.tser = c.issuer.tser ∧ r.seq = c.seq ∧ r.engine = c.engine ∧ r.event = ev ∧ r.status = status ∧
            r.label = labelOf c.label ∧ r.lovf = c.label.2 ∧
            (s.trace c ev status).tenant t = y ∧ y = { x with traceIx := (x.traceIx + 1) % 2 ^ b, traces := m } ∧
            kget m x.traceIx = some r ∧ (∀ k, k ≠ x.traceIx → kget m k = kget x.traces k) ∧
            (s.trace c ev status).agents = s.agents ∧
            ∀ a, (∀ i, i < 32 → devKey ((x.reg 0xA0).toNat + 32 * x.traceIx + i) ≠ some a) →
              (s.trace c ev status).byte a = s.byte a)))

/-- Completion words, fault records and trace records are written. -/
def Obligations.CompletionsAndFaultsAreWritten : Prop :=
  Claim.CompletionsAreWritten ∧ Claim.FaultsAreRecorded ∧ Claim.TracesAreRecorded

/-! # Steps of contexts -/

/-- Of the two states only gang g differs, which has become y. -/
def Sys2Proof.Claim.GangBecomes (s u : State) (g : Nat) (y : Gang) : Prop :=
  u = { s with gangs := u.gangs } ∧ u.gang? g = some y ∧ ∀ k, k ≠ g → u.gang? k = s.gang? k

/-- Of the two states only tenant t differs, which has become x. -/
def Sys2Proof.Claim.TenantBecomes (s u : State) (t : Nat) (x : Tenant) : Prop :=
  u = { s with tenants := u.tenants } ∧ u.tenant t = x ∧ ∀ k, k ≠ t → u.tenant k = s.tenant k

/-- The context of tenant t has been reset (R60): its warps and gangs have ended, its queues, its accepted commands and its
deferred returns are gone, and status 1 is to be written for every launch that was queued or running. The end of each agent is a
quiescent point that counts once what had left the core has performed (R134). By the model's reading the stores that had left a
core and the set instructions perform, and what had not left it is gone (log 44, DEDUCED). No other tenant is touched. -/
def Sys2Proof.Claim.ContextEnds (s u : State) (t : Nat) : Prop :=
  SameBytes s u ∧
  (∀ a x, s.agent? a = some x →
    (x.ident.tenant ≠ t → u.agent? a = some x) ∧
    (x.ident.tenant = t → ∃ y, u.agent? a = some y ∧ y.ctl.ended = 0xFFFFFFFF#32 ∧ y.ctl.hold = .ended false ∧
      y.ctl.stop = none ∧ y.active = false ∧ y.regs.alloc = 0 ∧ y.eng = x.eng ∧ y.flight.bufOps = [] ∧
      y.flight.chases = [] ∧ y.flight.pend = [] ∧ y.recs = [] ∧
      (∀ o ∈ y.flight.ops, ∃ q ∈ x.flight.ops, q.id = o.id ∧ o.returns = false ∧
        o.lanes = q.lanes.filter fun l => l.st.onWay) ∧
      y.flight.setOps = x.flight.setOps.map fun o => { o with held := false, released := true })) ∧
  (∀ g y, s.gang? g = some y →
    u.gang? g = some (if y.tenant = t then { y with phase := .ended, msgs := [], flips := [] } else y)) ∧
  (∀ c, (u.core c).copies = (s.core c).copies.filter (fun k => !s.ofTenant t k.gang) ∧
    (u.core c).tools = (s.core c).tools.filter (fun k => !s.ofTenant t k.gang) ∧
    (u.core c).cmds = (s.core c).cmds.filter (fun k => !s.ofTenant t k.gang)) ∧
  (∀ d, (u.die d).latigo = (s.die d).latigo.filter (fun e => e.tenant != t)) ∧
  (u.tenant t).queues = [] ∧ (u.tenant t).resetting = true ∧ (u.tenant t).draining = false ∧
  (∀ k, k ≠ t → u.tenant k = s.tenant k) ∧
  u.completions = s.completions ++
    (((s.tenant t).queued ++ s.runningLaunches t).filter fun e => e.2.done != 0#64).map fun e =>
      { tenant := t, launch := 0, addr := e.2.done, status := 1, count := false, irq := e.2.irq, tag := e.2.tag,
        die := e.1 }

/-- R57, R59, R60: a request to a context that exists and is neither drained, saved nor being reset begins its drain: `sys.yreq` is
1 for each of its warps, each of its running gangs gets its deadline, and admissions under way go back to their launches. A
gang at its deadline is saved by force; one that is not saved 50 µs later ends its context. -/
def Sys2Proof.Claim.DrainsBegin : Prop :=
  (∀ (s : State) (t : Nat), (s.tenant t).enabled = true → (s.tenant t).draining = false → (s.tenant t).saved = false →
    (s.tenant t).resetting = false →
    ∃ u, exec (.preemptRequest t) s = .next u ∧ SameBytes s u ∧
      (∀ a x, s.agent? a = some x →
        u.agent? a = some (if x.ident.tenant = t then { x with sys := { x.sys with yreq := true } } else x)) ∧
      (∀ g y, s.gang? g = some y → (y.tenant = t → y.phase = .running → u.gang? g = some { y with
          deadline := some (s.time + 940 * max 1 (ebits ((s.tenant t).reg 0x60).toNat (16 * y.prio + 15) (16 * y.prio))) }) ∧
        (y.tenant ≠ t → u.gang? g = some y)) ∧
      (∀ d k v, kget (u.die d).units k = some v → v.tenant ≠ t) ∧
      (∀ d k v, kget (s.die d).units k = some v → v.tenant = t → v.restore = none → ∀ l, kget s.launches v.launch = some l →
        ∃ m, kget u.launches v.launch = some m ∧ ∀ r ∈ m.shares, r.rank = v.rank → v.index ∈ r.back) ∧
      ((∃ g y, s.gang? g = some y ∧ y.tenant = t ∧ (y.phase = .running ∨ y.phase = .saving)) →
        (u.tenant t).draining = true ∧ (u.tenant t).saved = false) ∧
      ((∀ e ∈ s.gangs, e.2.tenant = t → e.2.phase ≠ .running ∧ e.2.phase ≠ .saving) →
        (u.tenant t).draining = false ∧ (u.tenant t).saved = true) ∧
      ∀ k, k ≠ t → u.tenant k = s.tenant k) ∧
  (∀ (s : State) (g d : Nat) (y : Gang), s.gang? g = some y → y.deadline = some d → y.phase = .running →
    (s.tenant y.tenant).draining = true → d ≤ s.time →
    ∃ u, exec (.yieldDeadline g) s = .next u ∧ GangBecomes s u g { y with phase := .saving, forcedAt := some d }) ∧
  (∀ (s : State) (g d : Nat) (y : Gang), s.gang? g = some y → y.forcedAt = some d → y.phase = .saving →
    d + 50 * 940 ≤ s.time →
    ∃ u, exec (.forcedSaveLimit g) s = .next u ∧ ContextEnds s u y.tenant)

/-- R21, R58, R254, R314, R318 to R320: a gang of a drained context whose every agent has yielded, ended, waits for tasks or is
queued begins its save. A gang from which nothing is left to perform is saved, where the save partition of its die has room: its
agents leave their places with their registers, PCs and frames, its buffers stand, its commands stop where they are, and the
records of its stops that no slot has been free for stay to be written as they stood, which is the model's reading (log 65,
DEDUCED). While there is no room, the oldest record of the die that
lies in the partition goes to the save area: nothing outside that area changes. -/
def Sys2Proof.Claim.GangsAreSaved : Prop :=
  let spills := fun (s u : State) (g : Nat) (y : Gang) =>
    (∀ a, (∀ e ∈ s.spillLines g y, ∀ i, i < 256 → devKey (256 * e.1 + i) ≠ some a) → u.byte a = s.byte a) ∧
    u.agents = s.agents ∧ u.cores = s.cores ∧ u.gang? g = some { y with spilled := true } ∧ ∀ k, k ≠ g → u.gang? k = s.gang? k
  (∀ (s : State) (g : Nat) (y : Gang), s.gang? g = some y → y.phase = .running → (s.tenant y.tenant).draining = true →
    (∀ e ∈ s.agents, e.2.ident.gang = g → e.2.letsSave = true) →
    ∃ u, exec (.gangSave g) s = .next u ∧ GangBecomes s u g { y with phase := .saving, forcedAt := y.deadline }) ∧
  (∀ (s : State) (g : Nat) (y : Gang), s.gang? g = some y → y.phase = .saving → s.savable g y = true →
    s.saveRoom g y = true →
    ∃ u, exec (.gangSave g) s = .next u ∧ ((∀ t, Untraced s t) → SameBytes s u) ∧
      u.gang? g = some { y with
        phase := .saved, savedAt := s.time, savedReqs := (s.savedAgents g).filterMap (fun e => e.2.place.map reqOf)
        deadline := none, forcedAt := none } ∧
      (∀ k, k ≠ g → u.gang? k = s.gang? k) ∧
      (∀ c k, k ∈ (s.core c).cmds → k.gang = g → k.started = true → k.ended = false →
        ∃ j ∈ (u.core c).cmds, j.id = k.id ∧ j.kind = k.kind ∧ j.cursor = k.cursor ∧ j.stopped = true) ∧
      (∀ c k, k ∈ (s.core c).copies → k.gang = g → k.engine ≠ none →
        ∃ j ∈ (u.core c).copies, j.id = k.id ∧ j.kind = k.kind ∧ j.chunk = k.chunk ∧ j.engine = none) ∧
      ∀ a x, s.agent? a = some x →
        (x.ident.gang ≠ g → u.agent? a = some x) ∧
        (x.ident.gang = g → ∃ z, u.agent? a = some z ∧ z.regs = x.regs ∧ z.ctl.pcs = x.ctl.pcs ∧ z.ctl.ended = x.ctl.ended ∧
          z.recs = x.recs ∧ z.ident = x.ident ∧ z.place = (if x.ended then x.place else none) ∧
          z.sys = { x.sys with frame := z.sys.frame } ∧ z.eng = { x.eng with grace := z.eng.grace } ∧
          (z.ctl.stop = none ↔ x.ctl.stop = none) ∧
          (x.place ≠ none → ∀ p, x.ctl.stop = some p → p.recorded = false →
            (p.time, some a, s.stopRecord x p) ∈ (u.tenant x.ident.tenant).records))) ∧
  (∀ (s : State) (g n : Nat) (y x : Gang), s.gang? g = some y → y.phase = .saving → s.savable g y = true →
    s.saveRoom g y = false → s.oldestSaved y.die = some (n, x) → s.gang? n = some x →
    ∃ u, exec (.gangSave g) s = .next u ∧ spills s u n x) ∧
  (∀ (s : State) (die g : Nat) (y : Gang), (g, y) ∈ s.gangs → s.gang? g = some y → y.die = die → y.phase = .saved →
    y.spilled = false →
    (∀ e ∈ s.gangs, e.2.die = die → e.2.phase = .saved → e.2.spilled = false → e = (g, y) ∨ y.savedAt < e.2.savedAt) →
    s.oldestSaved die = some (g, y) ∧
    (s.partitionFull die = true → ∃ u, exec (.saveSpill die) s = .next u ∧ spills s u g y) ∧
    (s.partitionFull die = false → exec (.saveSpill die) s = .next s))

/-- R57 to R60, R318 to R320. -/
def Obligations.PreemptionSavesGangs : Prop := Claim.DrainsBegin ∧ Claim.GangsAreSaved

/-- R33, R61, R91, R96, R316, R321, R352: a saved context is admitted again; a drain that is still under way ends, but for the
gangs with an agent that has yielded; `sys.yreq` reads 0 again for every agent of the context, a queued task among them. A saved
gang whose cores have granted takes its new cores and its places in order: each of its agents stands again with its registers
and PCs, `sys.yreq` 0 and its yield over, its memory instructions to be translated anew once request and miss entries are there;
arrays and tables are as at commit; and the L1s of the cores are empty. -/
def Obligations.ContextsAreResumed : Prop :=
  (∀ (s : State) (t : Nat), (s.tenant t).resetting = false →
    ((s.tenant t).saved = true →
      ∃ u, exec (.contextResume t) s = .next u ∧ u = { s with agents := u.agents, tenants := u.tenants } ∧
        u.tenant t = { s.tenant t with saved := false } ∧ (∀ k, k ≠ t → u.tenant k = s.tenant k) ∧
        ∀ a x, s.agent? a = some x →
          u.agent? a = some (if x.ident.tenant = t then { x with sys := { x.sys with yreq := false } } else x)) ∧
    ((s.tenant t).saved = false → (s.tenant t).draining = true →
      ∃ u, exec (.contextResume t) s = .next u ∧ SameBytes s u ∧ u.tenant t = { s.tenant t with draining := false } ∧
        (∀ a x, s.agent? a = some x →
          u.agent? a = some (if x.ident.tenant = t then { x with sys := { x.sys with yreq := false } } else x)) ∧
        ∀ g y, s.gang? g = some y →
          ((y.tenant ≠ t ∨ y.phase ≠ .running) → u.gang? g = some y) ∧
          (y.tenant = t → y.phase = .running →
            ((∀ e ∈ s.agents, e.2.ident.gang = g → ∀ b, e.2.ctl.hold ≠ .yielded b) →
              u.gang? g = some { y with deadline := none }) ∧
            ((∃ e ∈ s.agents, e.2.ident.gang = g ∧ ∃ b, e.2.ctl.hold = .yielded b) →
              u.gang? g = some { y with deadline := none, phase := .saving })))) ∧
  (∀ (s : State) (die unit g : Nat) (a : Admission) (y : Gang), keysRise s.agents = true →
    kget (s.die die).units unit = some a → a.restore = some g → s.gang? g = some y → y.phase = .saved →
    a.replies = [] → a.refused = false → a.retryAt = none →
    (∀ e ∈ s.savedAgents g, e.2.ctl.stop.bind Stop.deferred = none) →
    ∃ u z, exec (.gangRestore die unit) s = .next u ∧ SameBytes s u ∧ kget (u.die die).units unit = none ∧
      u.gang? g = some z ∧ z = { y with
        phase := .running, cores := a.cores, planes := [], tables := [], spilled := false, deadline := none
        forcedAt := none, savedReqs := [] } ∧
      (∀ c ∈ a.cores, (u.core c).l1 = []) ∧
      ∀ (i k : Nat) (x : Agent) (p : Place), (s.savedAgents g)[i]? = some (k, x) → a.places[i]? = some p →
        ∃ w, u.agent? k = some w ∧ w.place = some p ∧ w.ident = { x.ident with born := s.time } ∧ w.regs = x.regs ∧
          w.ctl.pcs = x.ctl.pcs ∧ w.ctl.ended = x.ctl.ended ∧ w.sys.yreq = false ∧ w.sys.fpflags = x.sys.fpflags ∧ w.recs = x.recs ∧
          ((∃ b, x.ctl.hold = .yielded b) → w.ctl.hold = .none) ∧
          ((∀ b, x.ctl.hold ≠ .yielded b) → w.ctl.hold = x.ctl.hold) ∧
          (x.ctl.stop = none → w.ctl.stop = none) ∧
          ∀ o ∈ w.flight.ops, o.missed = [] ∧ o.waiting = o.open ∧ ∀ l ∈ o.lanes, l.st.isFaulted = false)

/-- R60, R277, R296, R310, R352, R359: a reset ends the context; it is empty once what had left the cores has performed and the
completion words are written. EN becomes 1 where the fault queue has a size and the firmware is verified, with ISSUED and
DONE 0, no stall of an earlier context left and the set heap as the registers give it; it becomes 0 only where the context holds
no work. That the capability list is to name the modules and ports of this time is the model's reading of R310 (log 98,
DEDUCED), and so is what a reset discards and what it lets perform (log 44, DEDUCED). -/
def Obligations.ContextsComeAndGo : Prop :=
  ∀ (s : State) (t : Nat),
    ((s.tenant t).enabled = true → (s.tenant t).resetting = false →
      ∃ u, exec (.contextReset t) s = .next u ∧ ContextEnds s u t) ∧
    ((s.tenant t).resetting = true →
      (∀ e ∈ s.agents, e.2.ident.tenant = t → e.2.flight.setOps = [] ∧
        ∀ o ∈ e.2.flight.ops, ∀ l ∈ o.lanes, l.st.onWay = false) →
      (∀ c ∈ s.completions, c.tenant ≠ t) →
      ∃ u, exec (.contextResetComplete t) s = .next u ∧ SameBytes s u ∧ u.cores = s.cores ∧
        u.tenant t = { s.tenant t with resetting := false } ∧ (∀ k, k ≠ t → u.tenant k = s.tenant k) ∧
        u.agents = s.agents.filter (fun e => e.2.ident.tenant != t) ∧
        u.gangs = s.gangs.filter (fun e => e.2.tenant != t) ∧
        u.launches = s.launches.filter (fun e => e.2.tenant != t)) ∧
    (t < 16 → (s.tenant t).enabled = false →
      (s.device.verified = true → 4 ≤ ebits ((s.tenant t).reg 0x70).toNat 4 0 → ebits ((s.tenant t).reg 0x70).toNat 4 0 ≤ 16 →
        ∃ u x, exec (.contextEnable t) s = .next u ∧ TenantBecomes s u t x ∧
          x = { s.tenant t with
            regs := x.regs, issued := 0#32, doneT := 0#32, stalls := [], stallReports := []
            heap := if ((s.tenant t).reg 0x38).toNat = 0 then []
              else [(((s.tenant t).reg 0x30).toNat, ((s.tenant t).reg 0x38).toNat)]
            capModules := s.device.modules, capPorts := s.device.ports } ∧
          ∀ off, x.reg off = if off = 0 then (s.tenant t).reg 0 ||| 1#64 else (s.tenant t).reg off) ∧
      ((s.device.verified = false ∨ ebits ((s.tenant t).reg 0x70).toNat 4 0 < 4 ∨ 16 < ebits ((s.tenant t).reg 0x70).toNat 4 0) →
        exec (.contextEnable t) s = .next s)) ∧
    ((s.tenant t).enabled = true →
      (s.hasWork t = true → exec (.contextDisable t) s = .next s) ∧
      (s.hasWork t = false → ∃ u x, exec (.contextDisable t) s = .next u ∧ TenantBecomes s u t x ∧
        x = { s.tenant t with regs := x.regs, saved := false, draining := false } ∧
        ∀ off, x.reg off = if off = 0 then (s.tenant t).reg 0 &&& ~~~(1#64) else (s.tenant t).reg off))

/-- R314 to R316, R323: the answers to a stop. RETRY ends the stop and translates the faulted parts again; SKIP discards them,
or with none moves the head run past its instruction; RESET ends the context. An answer to an agent that is saved waits for its
restore. A command that a breakpoint holds, a walk or a set instruction is released by RETRY; SKIP ends a copy or a tooling
command with status 1 and INFO 0 and counts the slot of a class-3 command, which arrives nowhere; a walk or a set instruction
that SKIP discards is gone, and nothing waits for it any more. That a record not yet written stays to be written after the answer
is the model's reading (log 65, DEDUCED). -/
def Obligations.StopsAreAnswered : Prop :=
  (∀ (s : State) (t a : Nat) (who : AgentName) (x : Agent) (p : Stop), s.agent? a = some x → s.isNamed t who x = true →
    x.ctl.stop = some p →
    (∀ e ∈ s.agents, s.isNamed t who e.2 = true → e.2.ctl.stop.isSome = true → e = (a, x)) →
    (x.place ≠ none →
      (∃ u y, exec (.retry t who) s = .next u ∧ SameBytes s u ∧ u.agent? a = some y ∧
        (∀ k, k ≠ a → u.agent? k = s.agent? k) ∧ y.regs = x.regs ∧ y.sys = x.sys ∧ y.ctl.pcs = x.ctl.pcs ∧
        y.ctl.parked = x.ctl.parked ∧ y.ctl.stop = none ∧ y.ctl.more = [] ∧
        y.flight.ops = x.flight.ops.map (fun o => MemOp.mapLanes (fun l => l.st.isFaulted)
          (fun l => { l with st := .fresh, loc := none }) { o with missed := o.pages }) ∧
        (p.recorded = false → (p.time, none, s.stopRecord x p) ∈ (u.tenant x.ident.tenant).records)) ∧
      (x.anyFaulted = false → ∀ pc run, x.ctl.headRun = some (pc, run) →
        ∃ u y, exec (.skip t who) s = .next u ∧ SameBytes s u ∧ u.agent? a = some y ∧
          (∀ k, k ≠ a → u.agent? k = s.agent? k) ∧ y.regs = x.regs ∧ y.sys = x.sys ∧
          PcsAdvanced run (s.sizeAt x pc) x.ctl.pcs y.ctl.pcs ∧ y.ctl.stop = none ∧ y.ctl.more = []) ∧
      (x.anyFaulted = true → (∀ o ∈ x.flight.ops, o.isFlush = true → ∃ l, o.lanes = [l]) →
        ∃ u y, exec (.skip t who) s = .next u ∧ u.agent? a = some y ∧ (∀ k, k ≠ a → u.agent? k = s.agent? k) ∧
          y.ctl.pcs = x.ctl.pcs ∧ y.ctl.stop = none ∧ y.ctl.more = [] ∧ y.anyFaulted = false) ∧
      (∃ u, exec (.resumeReset t who) s = .next u ∧ ContextEnds s u t)) ∧
    (x.place = none → ∀ i n, (i, n) ∈ [(Instr.retry t who, 0), (Instr.skip t who, 1), (Instr.resumeReset t who, 2)] →
      ∃ u, exec i s = .next u ∧ AgentBecomes s u a { x with ctl := { x.ctl with stop := some { p with deferred := some n } } })) ∧
  (∀ (s : State) (t a : Nat) (who : AgentName) (x : Agent) (core : Nat),
    (∀ k, s.target t who = .command a x (.copy core k) → s.copy? core k.id = some k →
      (∃ u, exec (.retry t who) s = .next u ∧ SameBytes s u ∧ u.agents = s.agents ∧
        u.copy? core k.id = some { k with held := false, released := true }) ∧
      (∃ u, exec (.skip t who) s = .next u ∧ CopyEnds s u core k 1 0)) ∧
    (∀ k, s.target t who = .command a x (.tool core k) → s.tool? core k.id = some k →
      (∃ u, exec (.retry t who) s = .next u ∧ SameBytes s u ∧ u.agents = s.agents ∧
        u.tool? core k.id = some { k with held := false, released := true }) ∧
      (∃ u, exec (.skip t who) s = .next u ∧ ToolEnds s u core k 1 0)) ∧
    (∀ k, s.target t who = .command a x (.cmd core k) → s.cmd? core k.id = some k →
      (∃ u, exec (.retry t who) s = .next u ∧ SameBytes s u ∧ u.agents = s.agents ∧
        u.cmd? core k.id = some { k with held := false, released := true }) ∧
      (∃ u, exec (.skip t who) s = .next u ∧ SameBytes s u ∧
        (∀ g, s.gang? k.gang = some g → ∃ h, u.gang? k.gang = some h ∧ h.bars = g.bars ∧ h.msgs = g.msgs ∧ h.flips = g.flips ∧
          (k.frame.ss = none → h.slots = g.slots) ∧
          (∀ j, k.frame.ss = some j →
            (∀ i ∈ (s.core core).cmds, i.gang = k.gang → i.pos = k.pos → i.frame.ss = some j → i.id = k.id) →
            (s.core core).cmds.filter (fun i => decide (i.id = k.id)) = [k] →
            (h.slot k.pos j).done = ((g.slot k.pos j).done + 1) % 65536 ∧
            (∀ m, m ∈ (u.core core).cmds ↔ m ∈ (s.core core).cmds ∧ m.id ≠ k.id))) ∧
        (k.frame.ss = none → ∀ j, j ∈ (u.core core).cmds ↔ j ∈ (s.core core).cmds ∧ j.id ≠ k.id) ∧
        (∀ n, n ≠ k.agent → u.agent? n = s.agent? n) ∧
        ((∀ f reg, k.kind ≠ .chainRun f reg) → u.agents = s.agents))) ∧
    (∀ o, s.target t who = .command a x (.setOp o) → s.agent? a = some x →
      (∃ u, exec (.retry t who) s = .next u ∧ AgentBecomes s u a { x with flight := { x.flight with
        setOps := x.flight.setOps.map fun q => if q.id = o.id then { q with held := false, released := true } else q } }) ∧
      (∃ u y, exec (.skip t who) s = .next u ∧ SameBytes s u ∧ u.agent? a = some y ∧ (∀ n, n ≠ a → u.agent? n = s.agent? n) ∧
        y.ctl = x.ctl ∧ y.flight.setOps = (x.flight.setOps.filter fun q => q.id != o.id) ∧
        y.flight.pend = x.flight.pend.filter fun e => e.2 != o.id)) ∧
    (∀ o, s.target t who = .command a x (.chase o) → s.agent? a = some x →
      (∃ u, exec (.retry t who) s = .next u ∧ AgentBecomes s u a { x with flight := { x.flight with
        chases := x.flight.chases.map fun q => if q.id = o.id then { q with held := false, released := true } else q } }) ∧
      (∃ u y, exec (.skip t who) s = .next u ∧ SameBytes s u ∧ u.agent? a = some y ∧ (∀ n, n ≠ a → u.agent? n = s.agent? n) ∧
        y.ctl = x.ctl ∧ y.flight.chases = (x.flight.chases.filter fun q => q.id != o.id) ∧
        y.flight.pend = x.flight.pend.filter fun e => e.2 != o.id)))

/-! # Steps of the loader, the fuses and the attestation -/

/-- R338, R345, R346, R353, R355, R359: a load ends with the code of the first check that fails, in the order of R338, or with 0
once every section is in place, and raises vector 5; a refusal of the translator names its function and operation. A load under
way turns another away; a load waits while a line of the container or a write to the arena is under way. By the model's reading a
page of the arena that cannot be written ends the load with code 8 (log 54, DEDUCED) and firmware that did not verify runs no
load (log 96, DEDUCED). -/
def Sys2Proof.Claim.LoadsEndWithTheirCode : Prop :=
  (∀ (s : State) (t : Nat) (v : DWord), t < 16 → v.getLsbD 0 = true →
    ((s.tenant t).load = none → s.device.verified = true →
      ∃ u, exec (.loadStart t v) s = .next u ∧ TenantBecomes s u t { s.tenant t with load := some v }) ∧
    ((s.tenant t).load ≠ none ∨ s.device.verified = false → exec (.loadStart t v) s = .next s)) ∧
  (∀ (s : State) (t : Nat) (v : DWord), (s.tenant t).load = some v →
    let x := s.tenant t
    let len := (x.reg 0xC8).toNat
    let arena := v.toNat / 4294967296
    let b := s.physBytes ((x.reg 0xC0).toNat / 8 * 8) len
    let ends := fun (d : Device) (code : Nat) => ∃ u, exec (.loadComplete t) s = .next u ∧ SameBytes s u ∧ u.device = d ∧
      u.tenant t = { x with load := none, loadCode := code, irqs := x.irqs ++ [5] }
    (s.loadWaits t len arena = true → exec (.loadComplete t) s = .next s) ∧
    (s.loadWaits t len arena = false →
      (lzbParse b len = none → ends s.device 1) ∧
      ∀ h qs, lzbParse b len = some (h, qs) →
        (h.major ≠ 2 ∨ 3 < h.minor → ends s.device 2) ∧
        (h.major = 2 → h.minor ≤ 3 →
          (h.svn < s.device.fuses → ends s.device 3) ∧
          (s.device.fuses ≤ h.svn →
            (x.signatureOk b h = false → ends s.device 4) ∧
            (x.signatureOk b h = true →
              (capsMet s.device x qs b = false → ends s.device 5) ∧
              (capsMet s.device x qs b = true →
                (∀ d f, translated s.device h qs b = (d, .inl f) →
                  ∃ u, exec (.loadComplete t) s = .next u ∧ SameBytes s u ∧ u.device = d ∧
                    u.tenant t = { x with load := none, loadCode := 6, irqs := x.irqs ++ [5], irFault := some f }) ∧
                ∀ d bodies, translated s.device h qs b = (d, .inr bodies) →
                  (relocsOk qs b bodies = false → ends d 7) ∧
                  (relocsOk qs b bodies = true → ∀ s1 : State, s1 = { s with device := d } →
                    let addrs := placeSections bodies ((x.reg 0xD0).toNat / 65536 * 65536)
                    let pages := (bodies.map fun e => pagesOf e.length).sum
                    let all := (addrs.zip bodies).zipIdx.map fun e => (e.1.1, relocated qs b addrs e.2 e.1.2)
                    (arena < pages → ends d 8) ∧
                    (pages ≤ arena → s1.writeBodies t all = none → ends d 8) ∧
                    (pages ≤ arena → ∀ s2, s1.writeBodies t all = some s2 →
                      let sealed := (codeRanges qs addrs bodies).foldl
                        (fun r e => (r.sealCode t e.1 e.2).rangeAgain t e.1 (65536 * e.2)) s2
                      ∃ u, exec (.loadComplete t) s = .next u ∧ u.device = d ∧
                        (∀ a, u.byte a = (sealed.physWrite (x.reg 0xD8).toNat (entryRecords qs b addrs)).byte a) ∧
                        u.tenant t = { x with load := none, loadCode := 0, irqs := x.irqs ++ [5] }))))))))

/-- R345, R346: the translation of an IR section. A kept one of this firmware whose signature verifies is given again; one whose
signature fails leaves the cache, and with none left the translator runs: what it makes is signed, kept and given, and a refusal
keeps nothing. No translation of another section or version is touched. -/
def Sys2Proof.Claim.TranslationsAreKept : Prop :=
  ∀ (d : Device) (svn : Nat) (ir : List Byte),
    let r := d.translation svn ir
    let mine := fun (e : Translation) => e.digest = sha512 ir ∧ e.version = d.translator
    r.1 = { d with transl := r.1.transl } ∧ (∀ e ∈ d.transl, ¬ mine e → e ∈ r.1.transl) ∧
    (∀ e ∈ r.1.transl, mine e → e ∈ d.transl → e.valid = true) ∧
    ((∃ e ∈ d.transl, mine e ∧ e.valid = true) →
      ∃ e ∈ d.transl, mine e ∧ e.valid = true ∧ r.2 = .inr e.code ∧ ∀ q ∈ r.1.transl, q ∈ d.transl) ∧
    ((∀ e ∈ d.transl, mine e → e.valid = false) →
      (∀ f, irTranslate d.irMinor d.translator ir = .inl f → r.2 = .inl f ∧ ∀ q ∈ r.1.transl, q ∈ d.transl) ∧
      (∀ code, irTranslate d.irMinor d.translator ir = .inr code → r.2 = .inr code ∧
        Translation.sign (sha512 ir) d.translator svn code ∈ r.1.transl))

/-- R28, R342 to R345: the translator takes an IR section whose version the device accepts exactly where every block of its
functions is valid: its parameters are defined once, its statements and its end are. An operation that crosses threads stands in
a convergence region, of which at most 16 are open, and what an operation defines is of its instruction's registers and types.
Each kernel gets an entry header that the header check passes, a call target's holds its budget alone (R330). The form of a
module, what its operations are and the contents of the headers are the model's choice (log 21, DESIGN CHOICE). -/
def Sys2Proof.Claim.IrModulesAreChecked : Prop :=
  (∀ (minor version : Nat) (ir : List Byte) (m : IrModule), Config.irModule ir = some m →
    (m.major ≠ 1 ∨ minor < m.minor → irTranslate minor version ir = .inl (0, 0)) ∧
    (m.major = 1 → m.minor ≤ minor →
      ((∀ f ∈ m.funcs, ∀ b k, f.blocks[b]? = some k → f.once k.params = true ∧ f.endOk b k = true ∧
        ∀ n q, k.body[n]? = some q → f.stmtOk b n q = true) →
        ∃ code, irTranslate minor version ir = .inr code) ∧
      ((∃ f ∈ m.funcs, ∃ b k, f.blocks[b]? = some k ∧ (f.once k.params = false ∨ f.endOk b k = false ∨
        ∃ n q, k.body[n]? = some q ∧ f.stmtOk b n q = false)) →
        ∃ at_, irTranslate minor version ir = .inl at_))) ∧
  (∀ (f : IrFunc) (b n : Nat) (st : List (Nat × Nat)), f.regionsAt b n = some st → st.length ≤ 16) ∧
  (∀ (f : IrFunc) (b n : Nat) (i : Instr) (res : List (Opnd × IrTy)), f.stmtOk b n (.op i res) = true →
    (f.reached b = true → irCrosses i = true → ∃ e st, f.regionsAt b n = some (e :: st)) ∧ irNamed i = true ∧
    res.length = (irOuts i).length ∧ ∀ e ∈ res.zip (irOuts i), Opnd.sameFile e.1.1 e.2.1 = true ∧ e.1.2 ∈ e.2.2) ∧
  (∀ g : Nat → Nat, ∃ h, Header.ofWords (leVal ((headerBytes g).take 4)) (leVal (((headerBytes g).drop 4).take 4))
    (leVal (((headerBytes g).drop 8).take 4)) (leVal ((headerBytes g).drop 12)) = some h) ∧
  (∀ g : Nat → Nat, let b := headerBytes (callGrants g)
    leVal (b.take 4) < 64 ∧ leVal ((b.drop 4).take 4) = 0 ∧ leVal (b.drop 12) = 0)

/-- R346, R361: a write that names the next of the 64 fuses begins to blow it, any other has no effect; when it is blown the
counter goes up by one and the translations of lower versions leave the cache. -/
def Sys2Proof.Claim.FusesAreBlown : Prop :=
  ∀ (s : State) (v : DWord),
    (v.getLsbD 63 = true → v.toNat % 128 = s.device.fuses + 1 → s.device.fuses < 64 → s.device.fuseBusy = false →
      exec (.fuseCmd v) s = .next { s with device := { s.device with fuseBusy := true } }) ∧
    (v.getLsbD 63 = false ∨ v.toNat % 128 ≠ s.device.fuses + 1 ∨ 64 ≤ s.device.fuses ∨ s.device.fuseBusy = true →
      exec (.fuseCmd v) s = .next s) ∧
    (s.device.fuseBusy = true → exec .fuseBlowDone s = .next { s with device := { s.device with
      fuses := s.device.fuses + 1, fuseBusy := false
      transl := s.device.transl.filter fun e => decide (s.device.fuses + 1 ≤ e.svn) } })

/-- Containers are checked, translated and placed. -/
def Obligations.ContainersAreLoaded : Prop :=
  Claim.LoadsEndWithTheirCode ∧ Claim.TranslationsAreKept ∧ Claim.IrModulesAreChecked ∧ Claim.FusesAreBlown

/-! # Steps of the host and of the device -/

/-- R353: an invalidation waits for writes on their way through the old entries; then no TLB holds a translation of its range, and
accesses of it that have not performed are translated again. -/
def Sys2Proof.Claim.InvalidationsComplete : Prop :=
  (∀ (s : State) (t va size : Nat), t < 16 → ∃ u, exec (.tlbInv t va size) s = .next u ∧
    TenantBecomes s u t { s.tenant t with invs := (s.tenant t).invs ++ [(va, size % 4)] }) ∧
  (∀ (s : State) (t va size : Nat) (rest : List (Nat × Nat)), (s.tenant t).invs = (va, size) :: rest →
    let lo := (invRange va size).1
    let len := (invRange va size).2
    (∀ e ∈ s.agents, e.2.ident.tenant = t → ∀ o ∈ e.2.flight.ops, ∀ l ∈ o.lanes, l.st.onWay = true →
      ¬ (lo ≤ l.va.toNat ∧ l.va.toNat < lo + len)) →
    ∃ u, exec (.tlbInvComplete t) s = .next u ∧ SameBytes s u ∧ u.tenant t = { s.tenant t with invs := rest } ∧
      (∀ c e, e ∈ (u.core c).tlb ↔ e ∈ (s.core c).tlb ∧ e.hits t lo len = false) ∧
      (∀ d e, e ∈ (u.die d).tlb ↔ e ∈ (s.die d).tlb ∧ e.hits t lo len = false) ∧
      ∀ a x, s.agent? a = some x → (x.ident.tenant ≠ t → u.agent? a = some x) ∧
        (x.ident.tenant = t → ∃ y, u.agent? a = some y ∧ y = { x with flight := { x.flight with ops := y.flight.ops } } ∧
          ∀ o ∈ y.flight.ops, ∀ l ∈ o.lanes, l.st = .ready → ¬ (lo ≤ l.va.toNat ∧ l.va.toNat < lo + len)))

/-- R106, R341, R349, R354, R356, R358 to R360: a new RATIO of a stack's split lanes begins a change, another while it is under
way is discarded and sets ERR, and the change ends; the power limiter lowers a die's clock and counts the step; a power state,
a module or a port changes alone; ATT_CTL starts a report, which is written whole, or ERR is set. A device reset takes the six
firmware images: each runs where its key's digest is the one fused and its signature verifies over its SHA-512 digest, which is
then its measurement; where any does not run the device keeps every tenant disabled. The IR minor and translator version of a
translator that runs fit 16 bits and are not below those shipped (R340). That a device reset keeps the bytes of memory and the
translation cache is the model's choice (log 37, DESIGN CHOICE). -/
def Sys2Proof.Claim.DeviceUnitsChange : Prop :=
  (∀ (s : State) (stack : Nat) (v : DWord), stack < 8 →
    (kget s.device.sliBusy stack ≠ none → exec (.sliCfgWrite stack v) s =
      .next { s with device := s.device.setReg (0x100 + 8 * stack) (s.device.reg (0x100 + 8 * stack) ||| 0x200#64) }) ∧
    (kget s.device.sliBusy stack = none → ∃ u d, exec (.sliCfgWrite stack v) s = .next u ∧ u = { s with device := d } ∧
      d.reg (0x100 + 8 * stack) &&& 3#64 = v &&& 3#64 ∧
      (∀ off, off ≠ 0x100 + 8 * stack → d.reg off = s.device.reg off) ∧
      kget d.sliBusy stack =
        (if v &&& 3#64 = s.device.reg (0x100 + 8 * stack) &&& 3#64 then none else some (v &&& 3#64).toNat)) ∧
    ∃ m, exec (.sliRatioDone stack) s = .next { s with device := { s.device with sliBusy := m } } ∧
      kget m stack = none ∧ ∀ k, k ≠ stack → kget m k = kget s.device.sliBusy k) ∧
  (∀ (s : State) (die mhz : Nat), die < 4 → mhz < s.device.clock die →
    ∃ u d, exec (.powerLimiterStep die mhz) s = .next u ∧ u = { s with device := d } ∧ d.clock die = mhz ∧
      (∀ k, k ≠ die → d.clock k = s.device.clock k) ∧
      kgetD 0 d.steps die = (kgetD 0 s.device.steps die + 1) % 4294967296 ∧ d.regs = s.device.regs) ∧
  (∀ (s : State) (block level : Nat), ∃ u d, exec (.powerStateChange block level) s = .next u ∧ u = { s with device := d } ∧
    kgetD 0 d.power block = level ∧ (∀ k, k ≠ block → kgetD 0 d.power k = kgetD 0 s.device.power k) ∧
    d.regs = s.device.regs ∧ (4 ≤ block ∨ level ≠ 0 → d.clocks = s.device.clocks)) ∧
  (∀ (s : State) (i : Nat) (b : Bool),
    (i < 4 → ∃ m, exec (.moduleTraining i b) s = .next { s with device := { s.device with modules := m } } ∧
      ∀ k, k < 4 → m.getLsbD k = if k = i then b else s.device.modules.getLsbD k) ∧
    (i < 18 → ∃ m, exec (.linkPortServiceChange i b) s = .next { s with device := { s.device with ports := m } } ∧
      ∀ k, k < 18 → m.getLsbD k = if k = i then b else s.device.ports.getLsbD k)) ∧
  (∀ (s : State) (line : Nat) (h : Nat × Nat), hostLine line = some h → ∃ m,
    exec (.cxlCacheOwnershipLoss line) s = .next { s with l2 := m } ∧ kget m line = none ∧
      ∀ k, k ≠ line → kget m k = kget s.l2 k) ∧
  (∀ (s : State), exec .attestationStart s = .next { s with device := { s.device with attBusy := true } } ∧
    (s.device.attBusy = true →
      let at_ := (s.device.reg 0x540).toNat / 64 * 64
      s.device.attestation.length = 652 ∧
      (s.physOwned at_ 652 = true → exec .attestationReport s = .next s) ∧
      (s.physOwned at_ 652 = false → (∀ i, i < 652 → devKey (at_ + i) ≠ none) →
        ∃ u, exec .attestationReport s = .next u ∧ u.device = { s.device with attBusy := false } ∧
          (∀ i k, i < 652 → devKey (at_ + i) = some k → u.byte k = s.device.attestation.getD i 0#8) ∧
          ∀ a, (∀ i, i < 652 → devKey (at_ + i) ≠ some a) → u.byte a = s.byte a) ∧
      (s.physOwned at_ 652 = false → (∃ i, i < 652 ∧ devKey (at_ + i) = none) →
        ∃ d, exec .attestationReport s = .next { s with device := d } ∧ d.attBusy = false ∧
          d.reg 0x548 = s.device.reg 0x548 ||| 4#64 ∧ ∀ off, off ≠ 0x548 → d.reg off = s.device.reg off))) ∧
  (∀ (s : State) (images : List FwImage),
    let runs := fun (i : Nat) (g : FwImage) => images[i]? = some g ∧ sha512 g.key = Config.furothKeyDigest ∧
      verifies (sha512 g.code) g.sig g.key = true
    ∃ (u : State) (ms : List (Option (BitVec 512))), exec (.deviceReset images) s = .next u ∧ SameBytes s u ∧ u.time = 0 ∧ u.cur = none ∧
    u.agents = [] ∧ u.gangs = [] ∧ u.launches = [] ∧ u.completions = [] ∧ u.tenants = [] ∧ u.cores = [] ∧ u.dies = [] ∧
    u.l2 = [] ∧ u.hbm = [] ∧ u.device.regs = [] ∧ u.device.fuses = s.device.fuses ∧
    u.device.transl = s.device.transl ∧ u.device.boot = s.device.boot + 1 ∧
    (u.device.verified = true ↔ ∀ i, i < 6 → ∃ g, runs i g) ∧
    u.device.measured = some ms ∧ ms.length = 6 ∧
    (∀ i g, i < 6 → runs i g → ms[i]? = some (some (sha512 g.code))) ∧
    (∀ i, i < 6 → (∀ g, ¬ runs i g) → ms[i]? = some none) ∧
    (∀ g, runs 3 g → 2 ≤ u.device.irMinor ∧ u.device.irMinor < 65536 ∧ 1 ≤ u.device.translator ∧
      u.device.translator < 65536) ∧
    ((∀ g, ¬ runs 3 g) → u.device.irMinor = s.device.irMinor ∧ u.device.translator = s.device.translator))

/-- R106, R341, R349, R353, R354, R356, R358 to R360. -/
def Obligations.HostAndDeviceSteps : Prop := Claim.InvalidationsComplete ∧ Claim.DeviceUnitsChange

/-- R45, R106, R348, R349, R360, R361: a write to the device block. One that is not of 8 aligned bytes is discarded. SLI_CFG and
FUSE_CMD act; the plain registers take the bits that they have, the device number only while no tenant is enabled; ATT_CTL clears
ERR and starts a report; the counters of missed deadlines are written two at a time. No other register changes, and a write of a
register that is only read, or of an offset that R349 does not list, has no effect. -/
def Sys2Proof.Claim.DeviceRegistersAreWritten : Prop :=
  ∀ (s : State) (off width : Nat) (v : DWord),
    (width ≠ 8 ∨ off % 8 ≠ 0 → exec (.registerWrite none off width v) s = .next s) ∧
    (∀ i, i < 8 → exec (.registerWrite none (0x100 + 8 * i) 8 v) s = exec (.sliCfgWrite i v) s) ∧
    exec (.registerWrite none 0x400 8 v) s = exec (.fuseCmd v) s ∧
    ((∃ e ∈ s.tenants, e.2.enabled = true) → exec (.registerWrite none 0x8 8 v) s = .next s) ∧
    (∀ m : DWord, off % 8 = 0 →
      ((off = 0x8 ∧ (∀ e ∈ s.tenants, e.2.enabled = false) ∧ m = 0xFFFF#64) ∨ (off = 0x200 ∧ m = 0xFFFF#64) ∨
        ((0x300 ≤ off ∧ off < 0x3D0 ∨ 0x500 ≤ off ∧ off < 0x548) ∧ m = 0xFFFFFFFFFFFFFFFF#64) ∨
        (0x1000 ≤ off ∧ off < 0x1800 ∧ m = if off % 32 < 16 then 0xFFFFFFFFFFFFFFFF#64
          else if off % 32 = 16 then 0x800000000003FFFF#64 else 0#64)) →
      ∃ d, exec (.registerWrite none off 8 v) s = .next { s with device := d } ∧ d = { s.device with regs := d.regs } ∧
        d.reg off = v &&& m ∧ ∀ k, k ≠ off → d.reg k = s.device.reg k) ∧
    (∃ d, exec (.registerWrite none 0x548 8 v) s = .next { s with device := d } ∧
      d = { s.device with regs := d.regs, attBusy := s.device.attBusy || v.getLsbD 0 } ∧
      d.reg 0x548 = (if v.getLsbD 2 then 0#64 else s.device.reg 0x548) ∧ ∀ k, k ≠ 0x548 → d.reg k = s.device.reg k) ∧
    (0x10000 ≤ off → off < 0x50000 → off % 8 = 0 → ∃ m, exec (.registerWrite none off 8 v) s =
        .next { s with device := { s.device with missed := m } } ∧
      ∀ r, kgetD 0#32 m r = if r = (off - 0x10000) / 4 then v.setWidth 32
        else if r = (off - 0x10000) / 4 + 1 then (v >>> 32).setWidth 32 else kgetD 0#32 s.device.missed r) ∧
    (off % 8 = 0 → off ≠ 0x8 → (off < 0x100 ∨ 0x140 ≤ off) → off ≠ 0x200 → (off < 0x300 ∨ 0x3D0 ≤ off) → off ≠ 0x400 →
      (off < 0x500 ∨ 0x550 ≤ off) → (off < 0x1000 ∨ 0x1800 ≤ off) → (off < 0x10000 ∨ 0x50000 ≤ off) →
      exec (.registerWrite none off 8 v) s = .next s)

/-- R348, R349, R351, R352, R355: what registers read. CTX_STAT tells of the tenant: RUN while the context exists and is neither
pre-empted nor being reset, DRAINING, SAVED, RESETTING, LOADBUSY, TLBBUSY, FQFULL while an agent waits for a slot of a full fault
queue, QERR and LINKERR, all else 0. LOAD_CMD reads the code of the last load, PWR_STAT a die's clock and its limiter's steps,
FUSE_STAT the counter and BUSY. A read that is not of 8 aligned bytes reads 0. -/
def Sys2Proof.Claim.RegistersAreRead : Prop :=
  ∀ (s : State),
    (∀ block off width, width ≠ 8 ∨ off % 8 ≠ 0 → s.readReg block off width = 0#64) ∧
    (∀ t, t < 16 →
      let x := s.tenant t
      let v := s.readReg (some t) 0x8 8
      (v.getLsbD 0 = true ↔ x.enabled = true ∧ x.draining = false ∧ x.saved = false ∧ x.resetting = false) ∧
      v.getLsbD 1 = false ∧ v.getLsbD 2 = x.draining ∧ v.getLsbD 3 = x.saved ∧ v.getLsbD 4 = x.resetting ∧
      v.getLsbD 5 = x.load.isSome ∧ (v.getLsbD 6 = true ↔ x.invs ≠ []) ∧
      (v.getLsbD 7 = true ↔ (x.reg 0x80 - x.reg 0x78).toNat = 2 ^ ((x.reg 0x70).toNat % 32) ∧ s.agentWaits t = true) ∧
      v.getLsbD 8 = x.qerr ∧ v.getLsbD 9 = x.linkerr ∧ (∀ i, 10 ≤ i → v.getLsbD i = false) ∧
      s.readReg (some t) 0xE0 8 = BitVec.ofNat 64 x.loadCode) ∧
    s.readReg none 0 8 = 0x00020003#64 ∧
    (∀ d, d < 4 → s.readReg none (0x208 + 8 * d) 8 =
      BitVec.ofNat 64 (kgetD 940 s.device.clocks d % 65536 + 65536 * kgetD 0 s.device.steps d)) ∧
    s.readReg none 0x408 8 = BitVec.ofNat 64 (s.device.fuses + if s.device.fuseBusy then 256 else 0)

/-- R352, R359: a write of CTX_CTL. One that would enable a context which cannot come to exist, or disable one which holds work,
is discarded whole. That it is so too for one that would enable a context while firmware has not verified is the model's reading
of R359, which holds every tenant disabled then (log 61, DEDUCED). Any other first enables or disables, then sets TRC, then resets, resumes or pre-empts, by the highest of RST,
RES and PRE. -/
def Sys2Proof.Claim.ContextControlActs : Prop :=
  ∀ (s : State) (t : Nat) (v : DWord), t < 16 →
    let x := s.tenant t
    let write := exec (.registerWrite (some t) 0 8 v) s
    let size := ebits (x.reg 0x70).toNat 4 0
    let cannot := v.getLsbD 0 = true ∧ x.enabled = false ∧ (size < 4 ∨ 16 < size ∨ s.device.verified = false)
    let mayNot := v.getLsbD 0 = false ∧ x.enabled = true ∧ s.hasWork t = true
    (cannot ∨ mayNot → write = .next s) ∧
    (¬ cannot → ¬ mayNot → ∀ s1,
      ((v.getLsbD 0 = x.enabled ∧ s1 = s) ∨
        (v.getLsbD 0 = true ∧ x.enabled = false ∧ exec (.contextEnable t) s = .next s1) ∨
        (v.getLsbD 0 = false ∧ x.enabled = true ∧ exec (.contextDisable t) s = .next s1)) →
      ∃ s2 y, TenantBecomes s1 s2 t y ∧ y = { s1.tenant t with regs := y.regs } ∧
        (∀ k, y.reg k = if k = 0 then ((s1.tenant t).reg 0 &&& ~~~(2#64)) ||| (v &&& 2#64) else (s1.tenant t).reg k) ∧
        write = (if v.getLsbD 4 then exec (.contextReset t) s2 else if v.getLsbD 3 then exec (.contextResume t) s2
          else if v.getLsbD 2 then exec (.preemptRequest t) s2 else .next s2))

/-- R45, R315, R348, R351 to R355: a write of 8 aligned bytes to a tenant register that has an action is that action, of RESUME
for the agent that stands at a place or has an identity; CTX_STAT takes ones to clear LINKERR and QERR; to any other register it
sets the bits that the register has, and no other register; any other access is discarded. -/
def Sys2Proof.Claim.TenantRegistersAreWritten : Prop :=
  ∀ (s : State) (t off width : Nat) (v : DWord), t < 16 →
    let x := s.tenant t
    (off < 65536 → width ≠ 8 ∨ off % 8 ≠ 0 → exec (.registerWrite (some t) off width v) s = .next s) ∧
    (65536 ≤ off → off < 131072 → exec (.registerWrite (some t) off width v) s =
      exec (.queueWindowWrite t (off - 65536) (leBytes width v.toNat)) s) ∧
    (∃ u, exec (.registerWrite (some t) 0x8 8 v) s = .next u ∧ TenantBecomes s u t
      { x with linkerr := x.linkerr && !v.getLsbD 9, qerr := x.qerr && !v.getLsbD 8 }) ∧
    exec (.registerWrite (some t) 0x18 8 v) s = exec (.tlbInv t (ebits v.toNat 56 16 * 65536) (v.toNat % 4)) s ∧
    exec (.registerWrite (some t) 0xE0 8 v) s = exec (.loadStart t v) s ∧
    (let who : AgentName := if v.getLsbD 8
        then .byIdentity (x.reg 0xF0).toNat (ebits v.toNat 39 32) (ebits v.toNat 51 40)
        else .byPlace (ebits v.toNat 31 24) (ebits v.toNat 23 21) (ebits v.toNat 20 16)
      let resume := exec (.registerWrite (some t) 0x88 8 v) s
      (v.toNat % 4 = 0 → resume = exec (.retry t who) s) ∧ (v.toNat % 4 = 1 → resume = exec (.skip t who) s) ∧
      (v.toNat % 4 = 2 → resume = exec (.resumeReset t who) s) ∧ (v.toNat % 4 = 3 → resume = .next s)) ∧
    (off < 65536 → off % 8 = 0 → off ∉ [0, 0x8, 0x18, 0x88, 0xE0] →
      ∃ u y, exec (.registerWrite (some t) off 8 v) s = .next u ∧ TenantBecomes s u t y ∧ y = { x with regs := y.regs } ∧
        (∀ k, k ≠ off → y.reg k = x.reg k) ∧
        y.reg off = (x.reg off &&& ~~~(tenantMask off x.enabled)) ||| (v &&& tenantMask off x.enabled))

/-- The registers of the device block and of the tenant blocks as they are written and read. -/
def Obligations.RegisterWrites : Prop :=
  Claim.DeviceRegistersAreWritten ∧ Claim.ContextControlActs ∧ Claim.TenantRegistersAreWritten ∧ Claim.RegistersAreRead

/-- R128, R317, R347, R356, R357, R362: an access of the host or, where a window of the peer table admits it, of a peer performs
at its home while no engine owns the line; one that no window admits is refused. What is read or written where there is no memory
is the model's choice (log 11, DESIGN CHOICE). -/
def Sys2Proof.Claim.OutsideAccessesPerform : Prop :=
  (∀ (s : State) (pa : Nat) (acc : PeerAcc), pa + PeerAcc.width acc ≤ 18446744073709551616 →
    let cells := fun (b : List Byte) => (List.range (PeerAcc.width acc)).filterMap fun i =>
      (devKey (pa + i)).map fun k => (k, b.getD i 0#8)
    let held := ∃ i k, i < PeerAcc.width acc ∧ devKey (pa + i) = some k ∧ s.ownedLine .any k = true
    (held → exec (.hostMemAccess pa acc) s = .next s) ∧
    (¬ held →
      (∀ n, acc = .read n → ∃ u, exec (.hostMemAccess pa acc) s = .next u ∧ SameBytes s u ∧ u.agents = s.agents) ∧
      (∀ b, acc = .write b → ∃ u, exec (.hostMemAccess pa acc) s = .next u ∧ ∀ a, u.byte a = (s.write (cells b)).byte a) ∧
      (∀ op k x y, acc = .atomic op k x y →
        let old := BitVec.ofNat 64 (leVal ((List.range (AKind.bytes k)).map fun i => s.outsideByte (pa + i)))
        ∃ u, exec (.hostMemAccess pa acc) s = .next u ∧ ∀ a, u.byte a = (s.write (cells (leBytes (AKind.bytes k)
          (atomNew op k old (atomOperand k x) (atomOperand k y)).toNat))).byte a))) ∧
  (∀ (s : State) (dev pa : Nat) (acc : PeerAcc),
    (pa < 1099511627776 → s.device.admits dev pa acc = true →
      exec (.peerAccess dev pa acc) s = exec (.hostMemAccess pa acc) s) ∧
    (1099511627776 ≤ pa ∨ s.device.admits dev pa acc = false → exec (.peerAccess dev pa acc) s = .next s))

/-- R120, R317, R356, R357: what becomes of an access to a peer that is refused or that the link loses; each sets LINKERR. A lane
of a load or of an `atom` holds poison, with which the destination is written once no lane is left; a lane of a store or of a
non-returning reduction is dropped, changes no byte and counts as acknowledged at every scope. A copy stops with status 3 at its
chunk, of which a copy into buffers leaves poison there. A read for a fetch of instructions or for a tile brings poison too, and
the dispatcher's one word that it could not read (R47). A completion word that is lost counts as written, which is the model's
reading (log 97, DEDUCED). -/
def Sys2Proof.Claim.LostAccessesEnd : Prop :=
  (∀ (s : State) (a id lane : Nat) (x : Agent) (p : Place) (o : MemOp) (l : LaneOp), id ≠ 0 → a ≠ 0 →
    s.op? a id = some (x, p, o) → o.lanes.find? (fun l => l.lane == lane && l.onLink) = some l →
    let lost := { l with st := .done, val := Config.freeDWord s.free, mark := true }
    let o1 := MemOp.mapLanes (fun q => q.lane == lane) (fun _ => lost) o
    let moved := x.flight.ops.map fun q => if q.id = id then MemOp.mapLanes (fun q => q.lane == lane) (fun _ => lost) q else q
    (o.isLoad = true ∨ (∃ b1 b2, o.kind = .atom b1 b2) →
      ∃ u y, exec (.linkDeliveryFailure a id lane) s = .next u ∧ (o.sampled = false → SameBytes s u) ∧ u.agent? a = some y ∧
        (u.tenant x.ident.tenant).linkerr = true ∧ (o1.undone = true → y.regs = x.regs ∧ y.flight.ops = moved) ∧
        (o1.undone = false →
          Delivered id o.dst (o.width == 8) (doneLanes o1) (laneMarks o1) (laneValues o1)
            (scalarValue { s with free := s.free + 1 } o1) x y)) ∧
    ((o.isPlainStore = true ∧ l.st.isDrained = true) ∨ (∃ b1 b2, o.kind = .red b1 b2) →
      ∃ u y, exec (.linkDeliveryFailure a id lane) s = .next u ∧ SameBytes s u ∧ u.agent? a = some y ∧
        (u.tenant x.ident.tenant).linkerr = true ∧ y.regs = x.regs ∧ y.ctl = x.ctl ∧
        y.flight.ops = moved.filter (fun q => !q.finished) ∧ ∀ die sc, u.laneAcked die sc lost = true)) ∧
  (∀ (s : State) (a cmd : Nat) (x : Agent) (k : Copy), a ≠ 0 → s.agent? a = some x → s.copy? x.core cmd = some k →
    k.agent = a → k.engine ≠ none → (∀ cbuf, k.kind ≠ .out cbuf) → s.copyOnLink x.core k = true →
    ∃ u, exec (.linkDeliveryFailure a 0 cmd) s = .next u ∧ CopyEnds s u x.core k 3 k.chunk ∧
      (u.tenant x.ident.tenant).linkerr = true ∧
      ((s.gang? k.gang).isSome = true → ∀ p ∈ s.copyTargets x.core k, ∀ i, i < min 4096 (k.dstBytes - 4096 * k.chunk) / 32 →
        u.bufMarked p ((k.buf + 4096 * k.chunk) / 32 + i) = true)) ∧
  (∀ (s : State) (id lane : Nat), id ≠ 0 → exec (.linkDeliveryFailure 0 id lane) s = .next { s with linkLost := true }) ∧
  (∀ (s : State) (p : Place) (t : Nat) (x : Xlat) (drop : Option Nat), s.linkLost = true → x.tier = 3 →
    let u := s.codeFill p t x drop
    SameBytes s u ∧ u.agents = s.agents ∧ u.linkLost = false ∧ (u.tenant t).linkerr = true ∧
      (kget (u.core p.core).icache (iKey p.part (x.key / 128))).isSome = true ∧
      ∀ i, i < 4 → (Sram.icache p.core p.part, 4 * (x.key / 128) + i) ∈ u.device.sramMarks) ∧
  (∀ (s s1 : State) (o : Origin) (tenant : Nat) (p : BufAt) (off len : Nat) (va : DWord) (xs : List Xlat) (ps : Pass),
    locate o.req p.core tenant 32 .read (len / 32) va s = (s1, xs, ps) →
    (∀ y ∈ xs, s1.reachHeld (dieOfCore p.core) .any y.key = false) → s1.linkLost = true → (∃ y ∈ xs, y.tier = 3) →
    ∃ u, s.fetchTile o tenant p off len va = some (u, ps) ∧ SameBytes s1 u ∧ u.agents = s1.agents ∧ u.linkLost = false ∧
      (u.tenant tenant).linkerr = true ∧
      ((s1.gang? p.gang).isSome = true → ∀ (i : Nat) (y : Xlat), xs[i]? = some y →
        u.bufMarked p (off / 32 + i) = (y.tier == 3 || s1.marked y.key 32))) ∧
  (∀ (s : State) (a cmd : Nat) (x : Agent) (k : Copy) (cbuf : Bool), a ≠ 0 → s.agent? a = some x → s.copy? x.core cmd = some k →
    k.agent = a → k.engine ≠ none → k.kind = .out cbuf → s.copyOnLink x.core k = true →
    ∃ u, exec (.linkDeliveryFailure a 0 cmd) s = .next u ∧ CopyEnds s u x.core k 3 k.chunk ∧
      (u.tenant x.ident.tenant).linkerr = true) ∧
  (∀ (s : State) (lane : Nat) (c : Completion) (x : Xlat), s.completions[lane]? = some c →
    c.addr.toNat % 8 = 0 → (s.translateDie c.die c.tenant c.addr .write).2 = .ok x → x.tier = 3 →
    (c.count = true → c.launch ≠ 0 → s.launchStores c.launch = false) →
    ∃ u, exec (.linkDeliveryFailure 0 0 lane) s = .next u ∧ SameBytes s u ∧ u.agents = s.agents ∧
      u.completions = s.completions.eraseIdx lane ∧ (u.tenant c.tenant).linkerr = true ∧
      (c.irq = true → 0 ∈ (u.tenant c.tenant).irqs))

/-- R317, R362: a single-bit error is counted, a double-bit one is counted and marks what it strikes. Which granule, lane or
register that is, and that an error at a place where nothing stands is neither counted nor marks anything, is the model's reading
(log 59, DEDUCED). -/
def Sys2Proof.Claim.SoftErrorsAreCounted : Prop :=
  (∀ (s : State) (site : ErrSite) (double : Bool), s.errUnit site = none → exec (.softError site double) s = .next s) ∧
  (∀ (s : State) (site : ErrSite) (n : Nat) (double : Bool), s.errUnit site = some n →
    let off := (if double then 0x308 else 0x300) + 16 * n
    ∃ u, exec (.softError site double) s = .next u ∧ SameBytes s u ∧
      u.device.reg off = (if s.device.reg off = 0xFFFFFFFFFFFFFFFF#64 then 0xFFFFFFFFFFFFFFFF#64 else s.device.reg off + 1#64) ∧
      (∀ k, k ≠ off → u.device.reg k = s.device.reg k) ∧
      (double = false → u.agents = s.agents ∧ u.gangs = s.gangs ∧ u.memMark = s.memMark) ∧
      (double = true → (∀ g, site = .memory g → ∀ k, nhas u.memMark k = (nhas s.memMark k || k == g)) ∧
        (∀ g, site = .l2 g → hostLine (g / 8) = none → ∀ k, nhas u.memMark k = (nhas s.memMark k || k == g)) ∧
        (∀ core g, site = .l1 core g → ∃ l, kget (u.core core).l1 (g / 2) = some l ∧ l.marks.getLsbD (g % 2) = true) ∧
        (∀ gang pos b row, site = .buffer gang pos b row → ∀ y core, s.gang? gang = some y → y.cores[pos]? = some core →
          u.bufMarked ⟨gang, pos, core, b⟩ row = true) ∧
        (∀ core g, site = .ways core g → nhas (u.core core).wayMark g = true) ∧
        (∀ a g, site = .sram a g → (a, g) ∈ u.device.sramMarks) ∧
        (∀ a reg x, site = .scalar a reg → s.agent? a = some x → reg < 256 →
          ∃ y, u.agent? a = some y ∧ (∀ k, k < 256 → y.regs.sMark.getLsbD k = (x.regs.sMark.getLsbD k || k == reg)) ∧
            y.regs.s = x.regs.s) ∧
        (∀ a reg lane x, site = .vector a reg lane → s.agent? a = some x → reg < x.regs.alloc → lane < 32 →
          ∃ y, u.agent? a = some y ∧ y.regs.v = x.regs.v ∧
            ∀ k j, (kgetD 0#32 y.regs.vMark k).getLsbD j =
              ((kgetD 0#32 x.regs.vMark k).getLsbD j || (k == reg && j == lane)))))

/-- Accesses from outside, accesses that the link loses, and soft errors. -/
def Obligations.OutsideAccessesAndErrors : Prop :=
  Claim.OutsideAccessesPerform ∧ Claim.LostAccessesEnd ∧ Claim.SoftErrorsAreCounted

/-! # Decoding, the step and reset -/

/-- A word 0 put together from its fields, highest first: class, opcode, mod, predicate, negation, d, a, b, c (R141,
R143). -/
def Sys2Proof.Claim.word0 (cls : BitVec 3) (op : BitVec 7) (mod : BitVec 4) (pred : BitVec 5) (pn : BitVec 1) (d a b c : BitVec 11) : DWord :=
  cls ++ op ++ mod ++ pred ++ pn ++ d ++ a ++ b ++ c

/-- R141 to R161: words written out bit by bit, one or two of each class, decode to the instructions they stand for; a guard
code between 24 and 30, and a class that is not assigned, make the word an unassigned one. -/
def Obligations.DecodingIsRight : Prop :=
  -- vfma.bf16 with rounding down, guard !p3: v5, v6, c2, s9
  decodeWords (word0 0b000 0b0001110 0b0010 0b00011 0b1 0b00000000101 0b00000000110 0b11000000010 0b11001001001) 0 =
    .vfmaF ⟨some 3, true⟩ .bf16 .rdn (.v 5) (.v 6) (.k 2) (.s 9) ∧
  -- vcmp.ge n64 into p7, unguarded
  decodeWords (word0 0b000 0b1010011 0b0110 0b11111 0b0 0b11101000111 0b00000001000 0b00000001010 0b00000000101) 0 =
    .vcmpT ⟨none, false⟩ .n64 .ge (.p 7) (.v 8) (.v 10) ∧
  -- sadd n32
  decodeWords (word0 0b001 0b0100000 0b0100 0b11111 0b0 0b11001000101 0b11001000110 0b11001000111 0b00000000000) 0 =
    .saddT ⟨none, false⟩ .n32 (.s 5) (.s 6) (.s 7) ∧
  -- bra.any p1, two words back
  decodeWords (word0 0b001 0b1000001 0b0000 0b11111 0b0 0b00000000000 0b11101000001 0b11111111111 0b11111111110) 0 =
    .braAny ⟨none, false⟩ (.p 1) (-2) ∧
  -- ld w32, acquire at die scope, class 2 with the last-use hint, offset -8
  decodeWords (word0 0b010 0b0000100 0b0101 0b11111 0b0 0b00000000111 0b11001001000 0b00000000110 0b11111111000) 0 =
    .ld ⟨none, false⟩ .w32 .acq .die (.v 7) (.s 8) ⟨2, true⟩ (-8) ∧
  -- atom cas n64, acquire and release at device scope
  decodeWords (word0 0b010 0b0110000 0b1110 0b11111 0b0 0b00000001010 0b11001001000 0b00000001100 0b00000111010) 0 =
    .atom ⟨none, false⟩ .cas .n64 .ar .device (.v 10) (.s 8) (.v 12) ∧
  -- mop for warps 0 and 15, slot 2, barrier 33
  decodeWords (word0 0b011 0b0000101 0b1000 0b11111 0b0 0b11001001100 0b10000000000 0b00001000101 0b00001000000) 0 =
    .mop ⟨none, false⟩ ⟨0x8001#16, some 2, some 33⟩ (.s 12) ∧
  -- set.ins with its result
  decodeWords (word0 0b100 0b0000010 0b0001 0b11111 0b0 0b11101000100 0b11001000101 0b00000000110 0b00000000000) 0 =
    .setIns ⟨none, false⟩ true (.p 4) (.s 5) (.v 6) ∧
  -- bar.wait of barrier 6
  decodeWords (word0 0b101 0b0000010 0b0000 0b11111 0b0 0b00000000000 0b00000000000 0b00000000000 0b00000000110) 0 =
    .barWait ⟨none, false⟩ 6 ∧
  -- call with one register saved, 3 words on, continuing 2 words on
  decodeWords (word0 0b110 0b0000011 0b0000 0b11111 0b0 0b00000000001 0b00000000000 0b00000000000 0b00000000000) 0x0000000300000002 =
    .callDirect ⟨none, false⟩ 1 3 2 ∧
  (∀ (cls : BitVec 3) (op : BitVec 7) (mod : BitVec 4) (pred : BitVec 5) (pn : BitVec 1) (d a b c : BitVec 11) (w1 : DWord),
    cls = 7#3 ∨ (24 ≤ pred.toNat ∧ pred.toNat ≤ 30) ∨ (pred = 31#5 ∧ pn = 1#1) →
      decodeWords (word0 cls op mod pred pn d a b c) w1 = .unassignedWord (word0 cls op mod pred pn d a b c) w1)

/-- An unassigned word is the only term that is no instruction of the tables. -/
def Sys2Proof.Claim.assigned (i : Instr) : Prop := ∀ w0 w1, i ≠ .unassignedWord w0 w1

/-- R140 to R161: the bytes of a well-formed instruction, whatever its operands and whatever follows them, are as many as the
PC advances by, and decode to it. -/
def Sys2Proof.Claim.EncodedDecodes : Prop :=
  ∀ i : Instr, i.wf = true → assigned i →
    ((encode i).flatMap wordBytes).length = i.size ∧
    ∀ rest : List Byte, decodeBytes ((encode i).flatMap wordBytes ++ rest) = .ok (i, rest)

/-- R140 to R161, R153: words that decode to an instruction are well-formed, and are the one encoding it has; every other word
decodes to the unassigned word that it is. -/
def Sys2Proof.Claim.DecodedEncodes : Prop :=
  ∀ (w0 w1 : DWord), (assigned (decodeWords w0 w1) → (decodeWords w0 w1).wf = true ∧
      encode (decodeWords w0 w1) = if takesSecondWord w0 then [w0, w1] else [w0]) ∧
    (¬ assigned (decodeWords w0 w1) → decodeWords w0 w1 = .unassignedWord w0 w1)

/-- No bit of an encoding is lost: instructions and the words that are theirs are one to one. -/
def Obligations.DecodeAndEncodeAgree : Prop := Claim.EncodedDecodes ∧ Claim.DecodedEncodes

/-- R140, R93: where the PC translates and the instruction cache of the partition holds its line, the fetch gives what the
bytes there decode to. -/
def Sys2Proof.Claim.FetchReadsTheBytes : Prop :=
  ∀ (s : State) (p : Place) (t : Nat) (pc : DWord) (x y : Xlat) (line : BitVec 1024) (i : Instr) (rest : List Byte),
    s.translateFor (reqOf p) p.core t pc .fetch = (s, .ok x) →
    s.translateFor (reqOf p) p.core t (pc + 8#64) .fetch = (s, .ok y) → y.key = x.key + 8 →
    x.key % 128 + 16 ≤ 128 → kget (s.core p.core).icache (iKey p.part (x.key / 128)) = some line →
    decodeBytes ((leBytes 128 line.toNat).drop (x.key % 128)) = .ok (i, rest) →
    s.fetch p t pc = (s, .got i)

/-- R30, R33, R140, R166: an agent that is to issue, can issue, has no cause to take and stands on no breakpoint executes the
instruction that it fetches, and nothing else comes about but that a TIMER that is due becomes pending before (R307), that the
fetch's walk makes its requests, and that the turn ends: an instruction that waits at issue leaves no trace in the clock, any
other takes its pipe for the clocks that its type needs. -/
def Sys2Proof.Claim.TurnRunsTheInstruction : Prop :=
  ∀ (s s1 : State) (a : Nat) (y : Agent) (p : Place) (pc : DWord) (run : Lanes) (i : Instr),
    s.cur = some a → s.agent? a = some y →
    let due := y.timerDue s.time
    let x := if due then { y with sys := { y.sys with causes := y.sys.causes ++ [.timer] } } else y
    let s0 := if due then s.setAgent a x else s
    x.place = some p → x.ctl.headRun = some (pc, run) → s.canIssue x = true → s0.boundary a x = none →
    s0.breakAt x pc = false →
    s0.fetch p x.ident.tenant pc = (s1, .got i) →
    (∀ t, exec i { s1 with cur := some a } = .next t →
      step s = .next (if ((t.agent? a).map fun z => z.ctl.stall) = some true then { t with cur := none }
        else { t.modAgent a (Agent.mapCtl fun c => match c.hold with | .none => { c with waitSince := none } | _ => c) with
          cur := none
          clock := t.clock ++ [{ agent := a, core := p.core, part := p.part, pipe := pipeOf i, clk := t.time,
                                 till := t.time + pipeTime i - 1 }] })) ∧
    (∀ f, exec i { s1 with cur := some a } = .fault f → step s = .fault f) ∧
    (∀ r, exec i { s1 with cur := some a } = .refused r → step s = .refused r)

/-- A step runs the instruction that the bytes at the PC decode to. -/
def Obligations.StepRunsTheDecodedInstruction : Prop := Claim.FetchReadsTheBytes ∧ Claim.TurnRunsTheInstruction

/-- Physical memory keeps its canonical form through every step, of an agent, of the part or of the outside: locations rise
strictly, and none is listed that holds what an unlisted one reads as. -/
def Obligations.MemoryStaysCanonical : Prop :=
  ∀ s t : State, Memory.wf s.mem = true → step s = .next t → Memory.wf t.mem = true

/-- Every agent's vector registers at or above its allotment hold 0 in every lane and carry no mark, and none of them waits for a
result. -/
def Sys2Proof.Claim.regsWf (s : State) : Prop :=
  ∀ e ∈ s.agents, (∀ k l, e.2.regs.alloc ≤ k → e.2.regs.vlane k l = 0#32 ∧ (kgetD 0#32 e.2.regs.vMark k).getLsbD l = false) ∧
    ∀ n id, (Opnd.v n, id) ∈ e.2.flight.pend → n < e.2.regs.alloc

/-- R35 to R37, R317: no step leaves anything in a vector register that its agent does not hold, so that registers which `grow`
grants read 0 and carry no mark, whatever was in them before a `shrink`. -/
def Obligations.RegistersOutsideTheAllotmentReadZero : Prop :=
  ∀ s t : State, regsWf s → step s = .next t → regsWf t

/-- R346, R361: the fuse counter lies between 0 and 64, and a fuse is blown only while there is one left. -/
def Sys2Proof.Claim.fusesWf (s : State) : Prop := s.device.fuses ≤ 64 ∧ (s.device.fuseBusy = true → s.device.fuses < 64)

/-- R346, R361: no step lets the fuse counter fall, or rise by more than one fuse, or leave its range. -/
def Obligations.FusesStayBlown : Prop :=
  ∀ s t : State, fusesWf s → step s = .next t →
    fusesWf t ∧ s.device.fuses ≤ t.device.fuses ∧ t.device.fuses ≤ s.device.fuses + 1 ∧
      (t.device.fuses ≠ s.device.fuses → s.device.fuseBusy = true)

/-- R309, R53, R349, R351, R352: the machine after reset. That memory reads 0 is the model's choice (log 2), and so is that the
fuse counter stands at 0 (log 6). -/
def Obligations.ResetIsAsTheSpecSays : Prop :=
  Memory.wf State.reset.mem = true ∧ fusesWf State.reset ∧ regsWf State.reset ∧ State.reset.time = 0 ∧
  (∀ a, State.reset.byte a = 0#8) ∧ (∀ a, State.reset.agent? a = none) ∧ (∀ g, State.reset.gang? g = none) ∧
  (∀ d, (State.reset.die d).lfsr = 0xACE1#16) ∧
  (∀ t, t < 16 → (State.reset.tenant t).enabled = false ∧ State.reset.readReg (some t) 0x58 8 = 0x1FFF01#64 ∧
    State.reset.readReg (some t) 0x60 8 = 0x00C800C800C800C8#64 ∧
    ∀ off, off < 0xC0 ∨ 0xE8 ≤ off → off ≠ 0x58 → off ≠ 0x60 → State.reset.readReg (some t) off 8 = 0#64) ∧
  State.reset.readReg none 0 8 = 0x00020003#64 ∧ State.reset.readReg none 0x200 8 = 2000#64 ∧
  (∀ off, off ≠ 0 → off ≠ 0x200 → off < 0x208 ∨ 0x228 ≤ off → State.reset.readReg none off 8 = 0#64)

/-- R44 (R152, R160, R289): a task that issues `bar.init`, `bar.arrive`, `bar.wait` or `bar.status` with fields that R152 lets pass,
the barrier's number among them, stops with BARCTX (code 7) before it has any effect; with a number at or above the gang's
BARS it stops with ILLOP (code 5), as R152 has it. -/
def Obligations.TasksRaiseBarctx : Prop :=
  ∀ (i : Instr) (F : Form) (s : State) (c : Ctx) (g : Guard) (hb : Nat) (o : Opnd),
    i = .barInit g hb o ∨ i = .barArrive g hb ∨ i = .barWait g hb ∨ i = .barStatus g hb o →
    formOf i = some F → Ctx.of s g = some c → checkUses c.ag.regs.alloc F.us = none → c.ag.task = true →
    exec i s = .next (stopped c (flt (if hb < c.header.bars then 7 else 5)))

/-- R217: `nop`, its word of class 1, opcode 0x4F and format A with mod 0 and every operand field unused, advances the lanes of the
run by 8 and has no other effect, whatever its guard reads. -/
def Obligations.NopOnlyAdvances : Prop :=
  (∀ (pred : BitVec 5) (pn : BitVec 1), pred.toNat < 24 ∨ pred = 31#5 →
    decodeWords (word0 1 0x4F 0 pred pn 0 0 0 0) 0 =
      .nop ⟨if pred.toNat < 24 then some pred.toNat else none, pn == 1#1⟩) ∧
  (∀ (mod : BitVec 4) (pred : BitVec 5) (pn : BitVec 1) (d a b c : BitVec 11),
    ¬ (mod = 0 ∧ d = 0 ∧ a = 0 ∧ b = 0 ∧ c = 0) →
    decodeWords (word0 1 0x4F mod pred pn d a b c) 0 = .unassignedWord (word0 1 0x4F mod pred pn d a b c) 0) ∧
  (∀ (g : Guard) (s : State) (c : Ctx), Ctx.of s g = some c → pending c.ag.flight (guardUses g) = false →
    ∃ p t, exec (.nop g) s = .next t ∧ t = withAgent c { c.ag with ctl := { c.ag.ctl with pcs := p } } ∧ c.st = s ∧
      PcsAdvanced c.run 8 c.ag.ctl.pcs p ∧ SameBytes s t)

/-- R109: the mixer, over naturals modulo 2^32. -/
def Obligations.MixerFollowsItsFormula : Prop :=
  ∀ seed hop : Word,
    let m := 4294967296
    let x0 := Nat.xor seed.toNat (hop.toNat * 0x9E3779B9 % m)
    let x1 := Nat.xor x0 (x0 / 65536) * 0x85EBCA6B % m
    let x2 := Nat.xor x1 (x1 / 8192) * 0xC2B2AE35 % m
    (mixer seed hop).toNat = Nat.xor x2 (x2 / 65536)
end

