-- ==== Sys2Proof/Laws/Map.lean ====
section
/-! SUPPORT. What the keyed lists do: a read after a write, the other keys, and the canonical form that a write keeps. -/

namespace Sys2Proof.Machine

variable {V : Type}

theorem kget_kput (m : KMap V) (k j : Nat) (v : V) : kget (kput m k v) j = if k = j then some v else kget m j := by
  induction m with
  | nil => simp [kput, kget]
  | cons e t ih =>
    obtain ⟨k', v'⟩ := e
    unfold kput
    split
    · simp [kget]
    · split
      · next h => subst h; by_cases h : k' = j <;> simp [kget, h]
      · next hk =>
        simp only [kget, ih]
        by_cases h : k' = j
        · have : k ≠ j := by omega
          simp [h, this]
        · simp [h]

@[simp] theorem kget_kput_same (m : KMap V) (k : Nat) (v : V) : kget (kput m k v) k = some v := by simp [kget_kput]

theorem kget_kput_other (m : KMap V) {k j : Nat} (v : V) (h : k ≠ j) : kget (kput m k v) j = kget m j := by
  simp [kget_kput, h]

theorem kget_kdel (m : KMap V) (k j : Nat) : kget (kdel m k) j = if k = j then none else kget m j := by
  induction m with
  | nil => simp [kdel, kget]
  | cons e t ih =>
    obtain ⟨k', v'⟩ := e
    unfold kdel
    split
    · next h => subst h; rw [ih]; by_cases h : k' = j <;> simp [kget, h]
    · next hk =>
      simp only [kget, ih]
      by_cases h : k' = j
      · have : k ≠ j := by omega
        simp [h, this]
      · simp [h]

theorem kget_kmod (m : KMap V) (k j : Nat) (f : V → V) :
    kget (kmod m k f) j = if k = j then (kget m j).map f else kget m j := by
  induction m with
  | nil => simp [kmod, kget]
  | cons e t ih =>
    obtain ⟨k', v'⟩ := e
    unfold kmod
    split
    · next h => subst h; by_cases h : k' = j <;> simp [kget, h]
    · next hk =>
        simp only [kget, ih]
        by_cases h : k' = j
        · have : k ≠ j := by omega
          simp [h, this]
        · simp [h]

@[simp] theorem kget_kmod_same (m : KMap V) (k : Nat) (f : V → V) : kget (kmod m k f) k = (kget m k).map f := by
  simp [kget_kmod]

theorem kget_kmap (f : V → V) (m : KMap V) (k : Nat) : kget (m.map fun e => (e.1, f e.2)) k = (kget m k).map f := by
  induction m with
  | nil => rfl
  | cons e t ih => simp only [List.map_cons, kget, ih]; split <;> rfl

variable [DecidableEq V]

theorem kgetD_ksetD (d : V) (m : KMap V) (k j : Nat) (v : V) :
    kgetD d (ksetD d m k v) j = if k = j then v else kgetD d m j := by
  unfold ksetD kgetD
  split
  · next h => rw [kget_kdel]; split <;> simp [h]
  · rw [kget_kput]; split <;> simp

@[simp] theorem kgetD_ksetD_same (d : V) (m : KMap V) (k : Nat) (v : V) : kgetD d (ksetD d m k v) k = v := by
  simp [kgetD_ksetD]

theorem kgetD_ksetD_other (d : V) (m : KMap V) {k j : Nat} (v : V) (h : k ≠ j) :
    kgetD d (ksetD d m k v) j = kgetD d m j := by
  simp [kgetD_ksetD, h]

/-! ## The canonical form -/

/-- Every key of a map lies above a bound. -/
def keysAbove (n : Nat) (m : KMap V) : Bool := m.all fun e => decide (n < e.1)

omit [DecidableEq V] in
theorem keysRise_cons (e : Nat × V) (t : KMap V) : keysRise (e :: t) = (keysAbove e.1 t && keysRise t) := by
  induction t generalizing e with
  | nil => rfl
  | cons e' t ih =>
    obtain ⟨k, v⟩ := e; obtain ⟨k', v'⟩ := e'
    have hih : ∀ a : Nat × V, keysRise (a :: t) = (keysAbove a.1 t && keysRise t) := ih
    simp only [keysRise]
    rw [hih]
    simp only [keysAbove, List.all_cons]
    by_cases h : k < k'
    · have hm : (t.all fun e => decide (k' < e.1)) = true → (t.all fun e => decide (k < e.1)) = true := by
        simp only [List.all_eq_true, decide_eq_true_eq]
        intro ha x hx; have := ha x hx; omega
      cases h1 : (t.all fun e => decide (k' < e.1)) with
      | false => simp [h]
      | true => simp [h, hm h1]
    · simp [h]

omit [DecidableEq V] in
theorem keysAbove_kput (n : Nat) (m : KMap V) (k : Nat) (v : V) (hn : n < k) (h : keysAbove n m = true) :
    keysAbove n (kput m k v) = true := by
  induction m with
  | nil => simpa [kput, keysAbove] using hn
  | cons e t ih =>
    simp only [keysAbove, List.all_cons, Bool.and_eq_true, decide_eq_true_eq] at h ih ⊢
    unfold kput
    split
    · simp [hn, h.1]; simpa using h.2
    · split
      · simp [hn]; simpa using h.2
      · simp [h.1]; simpa using ih h.2

omit [DecidableEq V] in
theorem keysAbove_kdel (n : Nat) (m : KMap V) (k : Nat) (h : keysAbove n m = true) : keysAbove n (kdel m k) = true := by
  induction m with
  | nil => rfl
  | cons e t ih =>
    simp only [keysAbove, List.all_cons, Bool.and_eq_true, decide_eq_true_eq] at h ih ⊢
    unfold kdel
    split
    · exact ih h.2
    · simp [h.1]; simpa using ih h.2

omit [DecidableEq V] in
theorem keysRise_kput (m : KMap V) (k : Nat) (v : V) (h : keysRise m = true) : keysRise (kput m k v) = true := by
  induction m with
  | nil => rfl
  | cons e t ih =>
    obtain ⟨k', v'⟩ := e
    have h0 := h
    rw [keysRise_cons, Bool.and_eq_true] at h
    unfold kput
    split
    · next hk =>
      rw [keysRise_cons, Bool.and_eq_true]
      refine ⟨?_, h0⟩
      have ha := h.1
      simp only [keysAbove, List.all_cons, List.all_eq_true, Bool.and_eq_true, decide_eq_true_eq] at ha ⊢
      exact ⟨hk, fun x hx => by have := ha x hx; omega⟩
    · split
      · next hk => subst hk; rw [keysRise_cons, Bool.and_eq_true]; exact h
      · rw [keysRise_cons, Bool.and_eq_true]
        exact ⟨keysAbove_kput _ _ _ _ (by simp only; omega) h.1, ih h.2⟩

omit [DecidableEq V] in
theorem keysRise_kdel (m : KMap V) (k : Nat) (h : keysRise m = true) : keysRise (kdel m k) = true := by
  induction m with
  | nil => rfl
  | cons e t ih =>
    rw [keysRise_cons, Bool.and_eq_true] at h
    unfold kdel
    split
    · exact ih h.2
    · rw [keysRise_cons, Bool.and_eq_true]; exact ⟨keysAbove_kdel _ _ _ h.1, ih h.2⟩

omit [DecidableEq V] in
theorem all_kput (p : V → Bool) (m : KMap V) (k : Nat) (v : V) (hv : p v = true) (h : (m.all fun e => p e.2) = true) :
    ((kput m k v).all fun e => p e.2) = true := by
  induction m with
  | nil => simpa [kput] using hv
  | cons e t ih =>
    simp only [List.all_cons, Bool.and_eq_true] at h
    unfold kput
    split
    · simp only [List.all_cons, hv, h.1, h.2, Bool.and_self]
    · split
      · simp only [List.all_cons, hv, h.2, Bool.and_self]
      · simp only [List.all_cons, h.1, ih h.2, Bool.and_self]

omit [DecidableEq V] in
theorem all_kdel (p : V → Bool) (m : KMap V) (k : Nat) (h : (m.all fun e => p e.2) = true) :
    ((kdel m k).all fun e => p e.2) = true := by
  induction m with
  | nil => rfl
  | cons e t ih =>
    simp only [List.all_cons, Bool.and_eq_true] at h
    unfold kdel
    split
    · exact ih h.2
    · simp only [List.all_cons, h.1, ih h.2, Bool.and_self]

/-- A write keeps the canonical form. -/
theorem kwf_ksetD (d : V) (m : KMap V) (k : Nat) (v : V) (h : kwf d m = true) : kwf d (ksetD d m k v) = true := by
  simp only [kwf, Bool.and_eq_true] at h ⊢
  unfold ksetD
  split
  · exact ⟨keysRise_kdel _ _ h.1, all_kdel (fun v => decide (v ≠ d)) _ _ h.2⟩
  · next hv => exact ⟨keysRise_kput _ _ _ h.1, all_kput (fun v => decide (v ≠ d)) _ _ _ (by simpa using hv) h.2⟩

end Sys2Proof.Machine
end

