-- ==== Sys2Proof/Laws/State.lean ====
section
/-! SUPPORT. What each update of the state leaves alone, one lemma for each field, and what it is then read as. -/

namespace Sys2Proof.Machine

/-! ## `State.setCore` -/

@[simp] theorem State.setCore_time (s : State) (c : Nat) (x : Core) : (s.setCore c x).time = s.time := rfl
@[simp] theorem State.setCore_cur (s : State) (c : Nat) (x : Core) : (s.setCore c x).cur = s.cur := rfl
@[simp] theorem State.setCore_agenda (s : State) (c : Nat) (x : Core) : (s.setCore c x).agenda = s.agenda := rfl
@[simp] theorem State.setCore_clock (s : State) (c : Nat) (x : Core) : (s.setCore c x).clock = s.clock := rfl
@[simp] theorem State.setCore_banks (s : State) (c : Nat) (x : Core) : (s.setCore c x).banks = s.banks := rfl
@[simp] theorem State.setCore_free (s : State) (c : Nat) (x : Core) : (s.setCore c x).free = s.free := rfl
@[simp] theorem State.setCore_nextKey (s : State) (c : Nat) (x : Core) : (s.setCore c x).nextKey = s.nextKey := rfl
@[simp] theorem State.setCore_sent (s : State) (c : Nat) (x : Core) : (s.setCore c x).sent = s.sent := rfl
@[simp] theorem State.setCore_mem (s : State) (c : Nat) (x : Core) : (s.setCore c x).mem = s.mem := rfl
@[simp] theorem State.setCore_memMark (s : State) (c : Nat) (x : Core) : (s.setCore c x).memMark = s.memMark := rfl
@[simp] theorem State.setCore_coded (s : State) (c : Nat) (x : Core) : (s.setCore c x).coded = s.coded := rfl
@[simp] theorem State.setCore_l2 (s : State) (c : Nat) (x : Core) : (s.setCore c x).l2 = s.l2 := rfl
@[simp] theorem State.setCore_fills (s : State) (c : Nat) (x : Core) : (s.setCore c x).fills = s.fills := rfl
@[simp] theorem State.setCore_hbm (s : State) (c : Nat) (x : Core) : (s.setCore c x).hbm = s.hbm := rfl
@[simp] theorem State.setCore_rows (s : State) (c : Nat) (x : Core) : (s.setCore c x).rows = s.rows := rfl
@[simp] theorem State.setCore_dies (s : State) (c : Nat) (x : Core) : (s.setCore c x).dies = s.dies := rfl
@[simp] theorem State.setCore_agents (s : State) (c : Nat) (x : Core) : (s.setCore c x).agents = s.agents := rfl
@[simp] theorem State.setCore_gangs (s : State) (c : Nat) (x : Core) : (s.setCore c x).gangs = s.gangs := rfl
@[simp] theorem State.setCore_launches (s : State) (c : Nat) (x : Core) : (s.setCore c x).launches = s.launches := rfl
@[simp] theorem State.setCore_completions (s : State) (c : Nat) (x : Core) : (s.setCore c x).completions = s.completions := rfl
@[simp] theorem State.setCore_tenants (s : State) (c : Nat) (x : Core) : (s.setCore c x).tenants = s.tenants := rfl
@[simp] theorem State.setCore_device (s : State) (c : Nat) (x : Core) : (s.setCore c x).device = s.device := rfl

/-! ## `State.modCore` -/

@[simp] theorem State.modCore_time (s : State) (c : Nat) (f : Core → Core) : (s.modCore c f).time = s.time := rfl
@[simp] theorem State.modCore_cur (s : State) (c : Nat) (f : Core → Core) : (s.modCore c f).cur = s.cur := rfl
@[simp] theorem State.modCore_agenda (s : State) (c : Nat) (f : Core → Core) : (s.modCore c f).agenda = s.agenda := rfl
@[simp] theorem State.modCore_clock (s : State) (c : Nat) (f : Core → Core) : (s.modCore c f).clock = s.clock := rfl
@[simp] theorem State.modCore_banks (s : State) (c : Nat) (f : Core → Core) : (s.modCore c f).banks = s.banks := rfl
@[simp] theorem State.modCore_free (s : State) (c : Nat) (f : Core → Core) : (s.modCore c f).free = s.free := rfl
@[simp] theorem State.modCore_nextKey (s : State) (c : Nat) (f : Core → Core) : (s.modCore c f).nextKey = s.nextKey := rfl
@[simp] theorem State.modCore_sent (s : State) (c : Nat) (f : Core → Core) : (s.modCore c f).sent = s.sent := rfl
@[simp] theorem State.modCore_mem (s : State) (c : Nat) (f : Core → Core) : (s.modCore c f).mem = s.mem := rfl
@[simp] theorem State.modCore_memMark (s : State) (c : Nat) (f : Core → Core) : (s.modCore c f).memMark = s.memMark := rfl
@[simp] theorem State.modCore_coded (s : State) (c : Nat) (f : Core → Core) : (s.modCore c f).coded = s.coded := rfl
@[simp] theorem State.modCore_l2 (s : State) (c : Nat) (f : Core → Core) : (s.modCore c f).l2 = s.l2 := rfl
@[simp] theorem State.modCore_fills (s : State) (c : Nat) (f : Core → Core) : (s.modCore c f).fills = s.fills := rfl
@[simp] theorem State.modCore_hbm (s : State) (c : Nat) (f : Core → Core) : (s.modCore c f).hbm = s.hbm := rfl
@[simp] theorem State.modCore_rows (s : State) (c : Nat) (f : Core → Core) : (s.modCore c f).rows = s.rows := rfl
@[simp] theorem State.modCore_dies (s : State) (c : Nat) (f : Core → Core) : (s.modCore c f).dies = s.dies := rfl
@[simp] theorem State.modCore_agents (s : State) (c : Nat) (f : Core → Core) : (s.modCore c f).agents = s.agents := rfl
@[simp] theorem State.modCore_gangs (s : State) (c : Nat) (f : Core → Core) : (s.modCore c f).gangs = s.gangs := rfl
@[simp] theorem State.modCore_launches (s : State) (c : Nat) (f : Core → Core) : (s.modCore c f).launches = s.launches := rfl
@[simp] theorem State.modCore_completions (s : State) (c : Nat) (f : Core → Core) : (s.modCore c f).completions = s.completions := rfl
@[simp] theorem State.modCore_tenants (s : State) (c : Nat) (f : Core → Core) : (s.modCore c f).tenants = s.tenants := rfl
@[simp] theorem State.modCore_device (s : State) (c : Nat) (f : Core → Core) : (s.modCore c f).device = s.device := rfl

/-! ## `State.setDie` -/

@[simp] theorem State.setDie_time (s : State) (d : Nat) (x : Die) : (s.setDie d x).time = s.time := rfl
@[simp] theorem State.setDie_cur (s : State) (d : Nat) (x : Die) : (s.setDie d x).cur = s.cur := rfl
@[simp] theorem State.setDie_agenda (s : State) (d : Nat) (x : Die) : (s.setDie d x).agenda = s.agenda := rfl
@[simp] theorem State.setDie_clock (s : State) (d : Nat) (x : Die) : (s.setDie d x).clock = s.clock := rfl
@[simp] theorem State.setDie_banks (s : State) (d : Nat) (x : Die) : (s.setDie d x).banks = s.banks := rfl
@[simp] theorem State.setDie_free (s : State) (d : Nat) (x : Die) : (s.setDie d x).free = s.free := rfl
@[simp] theorem State.setDie_nextKey (s : State) (d : Nat) (x : Die) : (s.setDie d x).nextKey = s.nextKey := rfl
@[simp] theorem State.setDie_sent (s : State) (d : Nat) (x : Die) : (s.setDie d x).sent = s.sent := rfl
@[simp] theorem State.setDie_mem (s : State) (d : Nat) (x : Die) : (s.setDie d x).mem = s.mem := rfl
@[simp] theorem State.setDie_memMark (s : State) (d : Nat) (x : Die) : (s.setDie d x).memMark = s.memMark := rfl
@[simp] theorem State.setDie_coded (s : State) (d : Nat) (x : Die) : (s.setDie d x).coded = s.coded := rfl
@[simp] theorem State.setDie_l2 (s : State) (d : Nat) (x : Die) : (s.setDie d x).l2 = s.l2 := rfl
@[simp] theorem State.setDie_fills (s : State) (d : Nat) (x : Die) : (s.setDie d x).fills = s.fills := rfl
@[simp] theorem State.setDie_hbm (s : State) (d : Nat) (x : Die) : (s.setDie d x).hbm = s.hbm := rfl
@[simp] theorem State.setDie_rows (s : State) (d : Nat) (x : Die) : (s.setDie d x).rows = s.rows := rfl
@[simp] theorem State.setDie_cores (s : State) (d : Nat) (x : Die) : (s.setDie d x).cores = s.cores := rfl
@[simp] theorem State.setDie_agents (s : State) (d : Nat) (x : Die) : (s.setDie d x).agents = s.agents := rfl
@[simp] theorem State.setDie_gangs (s : State) (d : Nat) (x : Die) : (s.setDie d x).gangs = s.gangs := rfl
@[simp] theorem State.setDie_launches (s : State) (d : Nat) (x : Die) : (s.setDie d x).launches = s.launches := rfl
@[simp] theorem State.setDie_completions (s : State) (d : Nat) (x : Die) : (s.setDie d x).completions = s.completions := rfl
@[simp] theorem State.setDie_tenants (s : State) (d : Nat) (x : Die) : (s.setDie d x).tenants = s.tenants := rfl
@[simp] theorem State.setDie_device (s : State) (d : Nat) (x : Die) : (s.setDie d x).device = s.device := rfl

/-! ## `State.modDie` -/

@[simp] theorem State.modDie_time (s : State) (d : Nat) (f : Die → Die) : (s.modDie d f).time = s.time := rfl
@[simp] theorem State.modDie_cur (s : State) (d : Nat) (f : Die → Die) : (s.modDie d f).cur = s.cur := rfl
@[simp] theorem State.modDie_agenda (s : State) (d : Nat) (f : Die → Die) : (s.modDie d f).agenda = s.agenda := rfl
@[simp] theorem State.modDie_clock (s : State) (d : Nat) (f : Die → Die) : (s.modDie d f).clock = s.clock := rfl
@[simp] theorem State.modDie_banks (s : State) (d : Nat) (f : Die → Die) : (s.modDie d f).banks = s.banks := rfl
@[simp] theorem State.modDie_free (s : State) (d : Nat) (f : Die → Die) : (s.modDie d f).free = s.free := rfl
@[simp] theorem State.modDie_nextKey (s : State) (d : Nat) (f : Die → Die) : (s.modDie d f).nextKey = s.nextKey := rfl
@[simp] theorem State.modDie_sent (s : State) (d : Nat) (f : Die → Die) : (s.modDie d f).sent = s.sent := rfl
@[simp] theorem State.modDie_mem (s : State) (d : Nat) (f : Die → Die) : (s.modDie d f).mem = s.mem := rfl
@[simp] theorem State.modDie_memMark (s : State) (d : Nat) (f : Die → Die) : (s.modDie d f).memMark = s.memMark := rfl
@[simp] theorem State.modDie_coded (s : State) (d : Nat) (f : Die → Die) : (s.modDie d f).coded = s.coded := rfl
@[simp] theorem State.modDie_l2 (s : State) (d : Nat) (f : Die → Die) : (s.modDie d f).l2 = s.l2 := rfl
@[simp] theorem State.modDie_fills (s : State) (d : Nat) (f : Die → Die) : (s.modDie d f).fills = s.fills := rfl
@[simp] theorem State.modDie_hbm (s : State) (d : Nat) (f : Die → Die) : (s.modDie d f).hbm = s.hbm := rfl
@[simp] theorem State.modDie_rows (s : State) (d : Nat) (f : Die → Die) : (s.modDie d f).rows = s.rows := rfl
@[simp] theorem State.modDie_cores (s : State) (d : Nat) (f : Die → Die) : (s.modDie d f).cores = s.cores := rfl
@[simp] theorem State.modDie_agents (s : State) (d : Nat) (f : Die → Die) : (s.modDie d f).agents = s.agents := rfl
@[simp] theorem State.modDie_gangs (s : State) (d : Nat) (f : Die → Die) : (s.modDie d f).gangs = s.gangs := rfl
@[simp] theorem State.modDie_launches (s : State) (d : Nat) (f : Die → Die) : (s.modDie d f).launches = s.launches := rfl
@[simp] theorem State.modDie_completions (s : State) (d : Nat) (f : Die → Die) : (s.modDie d f).completions = s.completions := rfl
@[simp] theorem State.modDie_tenants (s : State) (d : Nat) (f : Die → Die) : (s.modDie d f).tenants = s.tenants := rfl
@[simp] theorem State.modDie_device (s : State) (d : Nat) (f : Die → Die) : (s.modDie d f).device = s.device := rfl

/-! ## `State.setTenant` -/

@[simp] theorem State.setTenant_time (s : State) (t : Nat) (x : Tenant) : (s.setTenant t x).time = s.time := rfl
@[simp] theorem State.setTenant_cur (s : State) (t : Nat) (x : Tenant) : (s.setTenant t x).cur = s.cur := rfl
@[simp] theorem State.setTenant_agenda (s : State) (t : Nat) (x : Tenant) : (s.setTenant t x).agenda = s.agenda := rfl
@[simp] theorem State.setTenant_clock (s : State) (t : Nat) (x : Tenant) : (s.setTenant t x).clock = s.clock := rfl
@[simp] theorem State.setTenant_banks (s : State) (t : Nat) (x : Tenant) : (s.setTenant t x).banks = s.banks := rfl
@[simp] theorem State.setTenant_free (s : State) (t : Nat) (x : Tenant) : (s.setTenant t x).free = s.free := rfl
@[simp] theorem State.setTenant_nextKey (s : State) (t : Nat) (x : Tenant) : (s.setTenant t x).nextKey = s.nextKey := rfl
@[simp] theorem State.setTenant_sent (s : State) (t : Nat) (x : Tenant) : (s.setTenant t x).sent = s.sent := rfl
@[simp] theorem State.setTenant_mem (s : State) (t : Nat) (x : Tenant) : (s.setTenant t x).mem = s.mem := rfl
@[simp] theorem State.setTenant_memMark (s : State) (t : Nat) (x : Tenant) : (s.setTenant t x).memMark = s.memMark := rfl
@[simp] theorem State.setTenant_coded (s : State) (t : Nat) (x : Tenant) : (s.setTenant t x).coded = s.coded := rfl
@[simp] theorem State.setTenant_l2 (s : State) (t : Nat) (x : Tenant) : (s.setTenant t x).l2 = s.l2 := rfl
@[simp] theorem State.setTenant_fills (s : State) (t : Nat) (x : Tenant) : (s.setTenant t x).fills = s.fills := rfl
@[simp] theorem State.setTenant_hbm (s : State) (t : Nat) (x : Tenant) : (s.setTenant t x).hbm = s.hbm := rfl
@[simp] theorem State.setTenant_rows (s : State) (t : Nat) (x : Tenant) : (s.setTenant t x).rows = s.rows := rfl
@[simp] theorem State.setTenant_cores (s : State) (t : Nat) (x : Tenant) : (s.setTenant t x).cores = s.cores := rfl
@[simp] theorem State.setTenant_dies (s : State) (t : Nat) (x : Tenant) : (s.setTenant t x).dies = s.dies := rfl
@[simp] theorem State.setTenant_agents (s : State) (t : Nat) (x : Tenant) : (s.setTenant t x).agents = s.agents := rfl
@[simp] theorem State.setTenant_gangs (s : State) (t : Nat) (x : Tenant) : (s.setTenant t x).gangs = s.gangs := rfl
@[simp] theorem State.setTenant_launches (s : State) (t : Nat) (x : Tenant) : (s.setTenant t x).launches = s.launches := rfl
@[simp] theorem State.setTenant_completions (s : State) (t : Nat) (x : Tenant) : (s.setTenant t x).completions = s.completions := rfl
@[simp] theorem State.setTenant_device (s : State) (t : Nat) (x : Tenant) : (s.setTenant t x).device = s.device := rfl

/-! ## `State.modTenant` -/

@[simp] theorem State.modTenant_time (s : State) (t : Nat) (f : Tenant → Tenant) : (s.modTenant t f).time = s.time := rfl
@[simp] theorem State.modTenant_cur (s : State) (t : Nat) (f : Tenant → Tenant) : (s.modTenant t f).cur = s.cur := rfl
@[simp] theorem State.modTenant_agenda (s : State) (t : Nat) (f : Tenant → Tenant) : (s.modTenant t f).agenda = s.agenda := rfl
@[simp] theorem State.modTenant_clock (s : State) (t : Nat) (f : Tenant → Tenant) : (s.modTenant t f).clock = s.clock := rfl
@[simp] theorem State.modTenant_banks (s : State) (t : Nat) (f : Tenant → Tenant) : (s.modTenant t f).banks = s.banks := rfl
@[simp] theorem State.modTenant_free (s : State) (t : Nat) (f : Tenant → Tenant) : (s.modTenant t f).free = s.free := rfl
@[simp] theorem State.modTenant_nextKey (s : State) (t : Nat) (f : Tenant → Tenant) : (s.modTenant t f).nextKey = s.nextKey := rfl
@[simp] theorem State.modTenant_sent (s : State) (t : Nat) (f : Tenant → Tenant) : (s.modTenant t f).sent = s.sent := rfl
@[simp] theorem State.modTenant_mem (s : State) (t : Nat) (f : Tenant → Tenant) : (s.modTenant t f).mem = s.mem := rfl
@[simp] theorem State.modTenant_memMark (s : State) (t : Nat) (f : Tenant → Tenant) : (s.modTenant t f).memMark = s.memMark := rfl
@[simp] theorem State.modTenant_coded (s : State) (t : Nat) (f : Tenant → Tenant) : (s.modTenant t f).coded = s.coded := rfl
@[simp] theorem State.modTenant_l2 (s : State) (t : Nat) (f : Tenant → Tenant) : (s.modTenant t f).l2 = s.l2 := rfl
@[simp] theorem State.modTenant_fills (s : State) (t : Nat) (f : Tenant → Tenant) : (s.modTenant t f).fills = s.fills := rfl
@[simp] theorem State.modTenant_hbm (s : State) (t : Nat) (f : Tenant → Tenant) : (s.modTenant t f).hbm = s.hbm := rfl
@[simp] theorem State.modTenant_rows (s : State) (t : Nat) (f : Tenant → Tenant) : (s.modTenant t f).rows = s.rows := rfl
@[simp] theorem State.modTenant_cores (s : State) (t : Nat) (f : Tenant → Tenant) : (s.modTenant t f).cores = s.cores := rfl
@[simp] theorem State.modTenant_dies (s : State) (t : Nat) (f : Tenant → Tenant) : (s.modTenant t f).dies = s.dies := rfl
@[simp] theorem State.modTenant_agents (s : State) (t : Nat) (f : Tenant → Tenant) : (s.modTenant t f).agents = s.agents := rfl
@[simp] theorem State.modTenant_gangs (s : State) (t : Nat) (f : Tenant → Tenant) : (s.modTenant t f).gangs = s.gangs := rfl
@[simp] theorem State.modTenant_launches (s : State) (t : Nat) (f : Tenant → Tenant) : (s.modTenant t f).launches = s.launches := rfl
@[simp] theorem State.modTenant_completions (s : State) (t : Nat) (f : Tenant → Tenant) : (s.modTenant t f).completions = s.completions := rfl
@[simp] theorem State.modTenant_device (s : State) (t : Nat) (f : Tenant → Tenant) : (s.modTenant t f).device = s.device := rfl

/-! ## `State.setAgent` -/

@[simp] theorem State.setAgent_time (s : State) (a : Nat) (x : Agent) : (s.setAgent a x).time = s.time := rfl
@[simp] theorem State.setAgent_cur (s : State) (a : Nat) (x : Agent) : (s.setAgent a x).cur = s.cur := rfl
@[simp] theorem State.setAgent_agenda (s : State) (a : Nat) (x : Agent) : (s.setAgent a x).agenda = s.agenda := rfl
@[simp] theorem State.setAgent_clock (s : State) (a : Nat) (x : Agent) : (s.setAgent a x).clock = s.clock := rfl
@[simp] theorem State.setAgent_banks (s : State) (a : Nat) (x : Agent) : (s.setAgent a x).banks = s.banks := rfl
@[simp] theorem State.setAgent_free (s : State) (a : Nat) (x : Agent) : (s.setAgent a x).free = s.free := rfl
@[simp] theorem State.setAgent_nextKey (s : State) (a : Nat) (x : Agent) : (s.setAgent a x).nextKey = s.nextKey := rfl
@[simp] theorem State.setAgent_sent (s : State) (a : Nat) (x : Agent) : (s.setAgent a x).sent = s.sent := rfl
@[simp] theorem State.setAgent_mem (s : State) (a : Nat) (x : Agent) : (s.setAgent a x).mem = s.mem := rfl
@[simp] theorem State.setAgent_memMark (s : State) (a : Nat) (x : Agent) : (s.setAgent a x).memMark = s.memMark := rfl
@[simp] theorem State.setAgent_coded (s : State) (a : Nat) (x : Agent) : (s.setAgent a x).coded = s.coded := rfl
@[simp] theorem State.setAgent_l2 (s : State) (a : Nat) (x : Agent) : (s.setAgent a x).l2 = s.l2 := rfl
@[simp] theorem State.setAgent_fills (s : State) (a : Nat) (x : Agent) : (s.setAgent a x).fills = s.fills := rfl
@[simp] theorem State.setAgent_hbm (s : State) (a : Nat) (x : Agent) : (s.setAgent a x).hbm = s.hbm := rfl
@[simp] theorem State.setAgent_rows (s : State) (a : Nat) (x : Agent) : (s.setAgent a x).rows = s.rows := rfl
@[simp] theorem State.setAgent_cores (s : State) (a : Nat) (x : Agent) : (s.setAgent a x).cores = s.cores := rfl
@[simp] theorem State.setAgent_dies (s : State) (a : Nat) (x : Agent) : (s.setAgent a x).dies = s.dies := rfl
@[simp] theorem State.setAgent_gangs (s : State) (a : Nat) (x : Agent) : (s.setAgent a x).gangs = s.gangs := rfl
@[simp] theorem State.setAgent_launches (s : State) (a : Nat) (x : Agent) : (s.setAgent a x).launches = s.launches := rfl
@[simp] theorem State.setAgent_completions (s : State) (a : Nat) (x : Agent) : (s.setAgent a x).completions = s.completions := rfl
@[simp] theorem State.setAgent_tenants (s : State) (a : Nat) (x : Agent) : (s.setAgent a x).tenants = s.tenants := rfl
@[simp] theorem State.setAgent_device (s : State) (a : Nat) (x : Agent) : (s.setAgent a x).device = s.device := rfl

/-! ## `State.modAgent` -/

@[simp] theorem State.modAgent_time (s : State) (a : Nat) (f : Agent → Agent) : (s.modAgent a f).time = s.time := rfl
@[simp] theorem State.modAgent_cur (s : State) (a : Nat) (f : Agent → Agent) : (s.modAgent a f).cur = s.cur := rfl
@[simp] theorem State.modAgent_agenda (s : State) (a : Nat) (f : Agent → Agent) : (s.modAgent a f).agenda = s.agenda := rfl
@[simp] theorem State.modAgent_clock (s : State) (a : Nat) (f : Agent → Agent) : (s.modAgent a f).clock = s.clock := rfl
@[simp] theorem State.modAgent_banks (s : State) (a : Nat) (f : Agent → Agent) : (s.modAgent a f).banks = s.banks := rfl
@[simp] theorem State.modAgent_free (s : State) (a : Nat) (f : Agent → Agent) : (s.modAgent a f).free = s.free := rfl
@[simp] theorem State.modAgent_nextKey (s : State) (a : Nat) (f : Agent → Agent) : (s.modAgent a f).nextKey = s.nextKey := rfl
@[simp] theorem State.modAgent_sent (s : State) (a : Nat) (f : Agent → Agent) : (s.modAgent a f).sent = s.sent := rfl
@[simp] theorem State.modAgent_mem (s : State) (a : Nat) (f : Agent → Agent) : (s.modAgent a f).mem = s.mem := rfl
@[simp] theorem State.modAgent_memMark (s : State) (a : Nat) (f : Agent → Agent) : (s.modAgent a f).memMark = s.memMark := rfl
@[simp] theorem State.modAgent_coded (s : State) (a : Nat) (f : Agent → Agent) : (s.modAgent a f).coded = s.coded := rfl
@[simp] theorem State.modAgent_l2 (s : State) (a : Nat) (f : Agent → Agent) : (s.modAgent a f).l2 = s.l2 := rfl
@[simp] theorem State.modAgent_fills (s : State) (a : Nat) (f : Agent → Agent) : (s.modAgent a f).fills = s.fills := rfl
@[simp] theorem State.modAgent_hbm (s : State) (a : Nat) (f : Agent → Agent) : (s.modAgent a f).hbm = s.hbm := rfl
@[simp] theorem State.modAgent_rows (s : State) (a : Nat) (f : Agent → Agent) : (s.modAgent a f).rows = s.rows := rfl
@[simp] theorem State.modAgent_cores (s : State) (a : Nat) (f : Agent → Agent) : (s.modAgent a f).cores = s.cores := rfl
@[simp] theorem State.modAgent_dies (s : State) (a : Nat) (f : Agent → Agent) : (s.modAgent a f).dies = s.dies := rfl
@[simp] theorem State.modAgent_gangs (s : State) (a : Nat) (f : Agent → Agent) : (s.modAgent a f).gangs = s.gangs := rfl
@[simp] theorem State.modAgent_launches (s : State) (a : Nat) (f : Agent → Agent) : (s.modAgent a f).launches = s.launches := rfl
@[simp] theorem State.modAgent_completions (s : State) (a : Nat) (f : Agent → Agent) : (s.modAgent a f).completions = s.completions := rfl
@[simp] theorem State.modAgent_tenants (s : State) (a : Nat) (f : Agent → Agent) : (s.modAgent a f).tenants = s.tenants := rfl
@[simp] theorem State.modAgent_device (s : State) (a : Nat) (f : Agent → Agent) : (s.modAgent a f).device = s.device := rfl

/-! ## `State.delAgent` -/

@[simp] theorem State.delAgent_time (s : State) (a : Nat) : (s.delAgent a).time = s.time := rfl
@[simp] theorem State.delAgent_cur (s : State) (a : Nat) : (s.delAgent a).cur = s.cur := rfl
@[simp] theorem State.delAgent_agenda (s : State) (a : Nat) : (s.delAgent a).agenda = s.agenda := rfl
@[simp] theorem State.delAgent_clock (s : State) (a : Nat) : (s.delAgent a).clock = s.clock := rfl
@[simp] theorem State.delAgent_banks (s : State) (a : Nat) : (s.delAgent a).banks = s.banks := rfl
@[simp] theorem State.delAgent_free (s : State) (a : Nat) : (s.delAgent a).free = s.free := rfl
@[simp] theorem State.delAgent_nextKey (s : State) (a : Nat) : (s.delAgent a).nextKey = s.nextKey := rfl
@[simp] theorem State.delAgent_sent (s : State) (a : Nat) : (s.delAgent a).sent = s.sent := rfl
@[simp] theorem State.delAgent_mem (s : State) (a : Nat) : (s.delAgent a).mem = s.mem := rfl
@[simp] theorem State.delAgent_memMark (s : State) (a : Nat) : (s.delAgent a).memMark = s.memMark := rfl
@[simp] theorem State.delAgent_coded (s : State) (a : Nat) : (s.delAgent a).coded = s.coded := rfl
@[simp] theorem State.delAgent_l2 (s : State) (a : Nat) : (s.delAgent a).l2 = s.l2 := rfl
@[simp] theorem State.delAgent_fills (s : State) (a : Nat) : (s.delAgent a).fills = s.fills := rfl
@[simp] theorem State.delAgent_hbm (s : State) (a : Nat) : (s.delAgent a).hbm = s.hbm := rfl
@[simp] theorem State.delAgent_rows (s : State) (a : Nat) : (s.delAgent a).rows = s.rows := rfl
@[simp] theorem State.delAgent_cores (s : State) (a : Nat) : (s.delAgent a).cores = s.cores := rfl
@[simp] theorem State.delAgent_dies (s : State) (a : Nat) : (s.delAgent a).dies = s.dies := rfl
@[simp] theorem State.delAgent_gangs (s : State) (a : Nat) : (s.delAgent a).gangs = s.gangs := rfl
@[simp] theorem State.delAgent_launches (s : State) (a : Nat) : (s.delAgent a).launches = s.launches := rfl
@[simp] theorem State.delAgent_completions (s : State) (a : Nat) : (s.delAgent a).completions = s.completions := rfl
@[simp] theorem State.delAgent_tenants (s : State) (a : Nat) : (s.delAgent a).tenants = s.tenants := rfl
@[simp] theorem State.delAgent_device (s : State) (a : Nat) : (s.delAgent a).device = s.device := rfl

/-! ## `State.setGang` -/

@[simp] theorem State.setGang_time (s : State) (g : Nat) (x : Gang) : (s.setGang g x).time = s.time := rfl
@[simp] theorem State.setGang_cur (s : State) (g : Nat) (x : Gang) : (s.setGang g x).cur = s.cur := rfl
@[simp] theorem State.setGang_agenda (s : State) (g : Nat) (x : Gang) : (s.setGang g x).agenda = s.agenda := rfl
@[simp] theorem State.setGang_clock (s : State) (g : Nat) (x : Gang) : (s.setGang g x).clock = s.clock := rfl
@[simp] theorem State.setGang_banks (s : State) (g : Nat) (x : Gang) : (s.setGang g x).banks = s.banks := rfl
@[simp] theorem State.setGang_free (s : State) (g : Nat) (x : Gang) : (s.setGang g x).free = s.free := rfl
@[simp] theorem State.setGang_nextKey (s : State) (g : Nat) (x : Gang) : (s.setGang g x).nextKey = s.nextKey := rfl
@[simp] theorem State.setGang_sent (s : State) (g : Nat) (x : Gang) : (s.setGang g x).sent = s.sent := rfl
@[simp] theorem State.setGang_mem (s : State) (g : Nat) (x : Gang) : (s.setGang g x).mem = s.mem := rfl
@[simp] theorem State.setGang_memMark (s : State) (g : Nat) (x : Gang) : (s.setGang g x).memMark = s.memMark := rfl
@[simp] theorem State.setGang_coded (s : State) (g : Nat) (x : Gang) : (s.setGang g x).coded = s.coded := rfl
@[simp] theorem State.setGang_l2 (s : State) (g : Nat) (x : Gang) : (s.setGang g x).l2 = s.l2 := rfl
@[simp] theorem State.setGang_fills (s : State) (g : Nat) (x : Gang) : (s.setGang g x).fills = s.fills := rfl
@[simp] theorem State.setGang_hbm (s : State) (g : Nat) (x : Gang) : (s.setGang g x).hbm = s.hbm := rfl
@[simp] theorem State.setGang_rows (s : State) (g : Nat) (x : Gang) : (s.setGang g x).rows = s.rows := rfl
@[simp] theorem State.setGang_cores (s : State) (g : Nat) (x : Gang) : (s.setGang g x).cores = s.cores := rfl
@[simp] theorem State.setGang_dies (s : State) (g : Nat) (x : Gang) : (s.setGang g x).dies = s.dies := rfl
@[simp] theorem State.setGang_agents (s : State) (g : Nat) (x : Gang) : (s.setGang g x).agents = s.agents := rfl
@[simp] theorem State.setGang_launches (s : State) (g : Nat) (x : Gang) : (s.setGang g x).launches = s.launches := rfl
@[simp] theorem State.setGang_completions (s : State) (g : Nat) (x : Gang) : (s.setGang g x).completions = s.completions := rfl
@[simp] theorem State.setGang_tenants (s : State) (g : Nat) (x : Gang) : (s.setGang g x).tenants = s.tenants := rfl
@[simp] theorem State.setGang_device (s : State) (g : Nat) (x : Gang) : (s.setGang g x).device = s.device := rfl

/-! ## `State.modGang` -/

@[simp] theorem State.modGang_time (s : State) (g : Nat) (f : Gang → Gang) : (s.modGang g f).time = s.time := rfl
@[simp] theorem State.modGang_cur (s : State) (g : Nat) (f : Gang → Gang) : (s.modGang g f).cur = s.cur := rfl
@[simp] theorem State.modGang_agenda (s : State) (g : Nat) (f : Gang → Gang) : (s.modGang g f).agenda = s.agenda := rfl
@[simp] theorem State.modGang_clock (s : State) (g : Nat) (f : Gang → Gang) : (s.modGang g f).clock = s.clock := rfl
@[simp] theorem State.modGang_banks (s : State) (g : Nat) (f : Gang → Gang) : (s.modGang g f).banks = s.banks := rfl
@[simp] theorem State.modGang_free (s : State) (g : Nat) (f : Gang → Gang) : (s.modGang g f).free = s.free := rfl
@[simp] theorem State.modGang_nextKey (s : State) (g : Nat) (f : Gang → Gang) : (s.modGang g f).nextKey = s.nextKey := rfl
@[simp] theorem State.modGang_sent (s : State) (g : Nat) (f : Gang → Gang) : (s.modGang g f).sent = s.sent := rfl
@[simp] theorem State.modGang_mem (s : State) (g : Nat) (f : Gang → Gang) : (s.modGang g f).mem = s.mem := rfl
@[simp] theorem State.modGang_memMark (s : State) (g : Nat) (f : Gang → Gang) : (s.modGang g f).memMark = s.memMark := rfl
@[simp] theorem State.modGang_coded (s : State) (g : Nat) (f : Gang → Gang) : (s.modGang g f).coded = s.coded := rfl
@[simp] theorem State.modGang_l2 (s : State) (g : Nat) (f : Gang → Gang) : (s.modGang g f).l2 = s.l2 := rfl
@[simp] theorem State.modGang_fills (s : State) (g : Nat) (f : Gang → Gang) : (s.modGang g f).fills = s.fills := rfl
@[simp] theorem State.modGang_hbm (s : State) (g : Nat) (f : Gang → Gang) : (s.modGang g f).hbm = s.hbm := rfl
@[simp] theorem State.modGang_rows (s : State) (g : Nat) (f : Gang → Gang) : (s.modGang g f).rows = s.rows := rfl
@[simp] theorem State.modGang_cores (s : State) (g : Nat) (f : Gang → Gang) : (s.modGang g f).cores = s.cores := rfl
@[simp] theorem State.modGang_dies (s : State) (g : Nat) (f : Gang → Gang) : (s.modGang g f).dies = s.dies := rfl
@[simp] theorem State.modGang_agents (s : State) (g : Nat) (f : Gang → Gang) : (s.modGang g f).agents = s.agents := rfl
@[simp] theorem State.modGang_launches (s : State) (g : Nat) (f : Gang → Gang) : (s.modGang g f).launches = s.launches := rfl
@[simp] theorem State.modGang_completions (s : State) (g : Nat) (f : Gang → Gang) : (s.modGang g f).completions = s.completions := rfl
@[simp] theorem State.modGang_tenants (s : State) (g : Nat) (f : Gang → Gang) : (s.modGang g f).tenants = s.tenants := rfl
@[simp] theorem State.modGang_device (s : State) (g : Nat) (f : Gang → Gang) : (s.modGang g f).device = s.device := rfl

/-! ## `State.tick` -/

@[simp] theorem State.tick_time (s : State) : (s.tick).time = s.time := rfl
@[simp] theorem State.tick_cur (s : State) : (s.tick).cur = s.cur := rfl
@[simp] theorem State.tick_agenda (s : State) : (s.tick).agenda = s.agenda := rfl
@[simp] theorem State.tick_clock (s : State) : (s.tick).clock = s.clock := rfl
@[simp] theorem State.tick_banks (s : State) : (s.tick).banks = s.banks := rfl
@[simp] theorem State.tick_nextKey (s : State) : (s.tick).nextKey = s.nextKey := rfl
@[simp] theorem State.tick_sent (s : State) : (s.tick).sent = s.sent := rfl
@[simp] theorem State.tick_mem (s : State) : (s.tick).mem = s.mem := rfl
@[simp] theorem State.tick_memMark (s : State) : (s.tick).memMark = s.memMark := rfl
@[simp] theorem State.tick_coded (s : State) : (s.tick).coded = s.coded := rfl
@[simp] theorem State.tick_l2 (s : State) : (s.tick).l2 = s.l2 := rfl
@[simp] theorem State.tick_fills (s : State) : (s.tick).fills = s.fills := rfl
@[simp] theorem State.tick_hbm (s : State) : (s.tick).hbm = s.hbm := rfl
@[simp] theorem State.tick_rows (s : State) : (s.tick).rows = s.rows := rfl
@[simp] theorem State.tick_cores (s : State) : (s.tick).cores = s.cores := rfl
@[simp] theorem State.tick_dies (s : State) : (s.tick).dies = s.dies := rfl
@[simp] theorem State.tick_agents (s : State) : (s.tick).agents = s.agents := rfl
@[simp] theorem State.tick_gangs (s : State) : (s.tick).gangs = s.gangs := rfl
@[simp] theorem State.tick_launches (s : State) : (s.tick).launches = s.launches := rfl
@[simp] theorem State.tick_completions (s : State) : (s.tick).completions = s.completions := rfl
@[simp] theorem State.tick_tenants (s : State) : (s.tick).tenants = s.tenants := rfl
@[simp] theorem State.tick_device (s : State) : (s.tick).device = s.device := rfl

/-! ## `State.write` -/

@[simp] theorem State.write_time (s : State) (cells : List (Nat × Byte)) : (s.write cells).time = s.time := rfl
@[simp] theorem State.write_cur (s : State) (cells : List (Nat × Byte)) : (s.write cells).cur = s.cur := rfl
@[simp] theorem State.write_agenda (s : State) (cells : List (Nat × Byte)) : (s.write cells).agenda = s.agenda := rfl
@[simp] theorem State.write_clock (s : State) (cells : List (Nat × Byte)) : (s.write cells).clock = s.clock := rfl
@[simp] theorem State.write_banks (s : State) (cells : List (Nat × Byte)) : (s.write cells).banks = s.banks := rfl
@[simp] theorem State.write_free (s : State) (cells : List (Nat × Byte)) : (s.write cells).free = s.free := rfl
@[simp] theorem State.write_nextKey (s : State) (cells : List (Nat × Byte)) : (s.write cells).nextKey = s.nextKey := rfl
@[simp] theorem State.write_sent (s : State) (cells : List (Nat × Byte)) : (s.write cells).sent = s.sent := rfl
@[simp] theorem State.write_coded (s : State) (cells : List (Nat × Byte)) : (s.write cells).coded = s.coded := rfl
@[simp] theorem State.write_l2 (s : State) (cells : List (Nat × Byte)) : (s.write cells).l2 = s.l2 := rfl
@[simp] theorem State.write_fills (s : State) (cells : List (Nat × Byte)) : (s.write cells).fills = s.fills := rfl
@[simp] theorem State.write_hbm (s : State) (cells : List (Nat × Byte)) : (s.write cells).hbm = s.hbm := rfl
@[simp] theorem State.write_rows (s : State) (cells : List (Nat × Byte)) : (s.write cells).rows = s.rows := rfl
@[simp] theorem State.write_cores (s : State) (cells : List (Nat × Byte)) : (s.write cells).cores = s.cores := rfl
@[simp] theorem State.write_dies (s : State) (cells : List (Nat × Byte)) : (s.write cells).dies = s.dies := rfl
@[simp] theorem State.write_agents (s : State) (cells : List (Nat × Byte)) : (s.write cells).agents = s.agents := rfl
@[simp] theorem State.write_gangs (s : State) (cells : List (Nat × Byte)) : (s.write cells).gangs = s.gangs := rfl
@[simp] theorem State.write_launches (s : State) (cells : List (Nat × Byte)) : (s.write cells).launches = s.launches := rfl
@[simp] theorem State.write_completions (s : State) (cells : List (Nat × Byte)) : (s.write cells).completions = s.completions := rfl
@[simp] theorem State.write_tenants (s : State) (cells : List (Nat × Byte)) : (s.write cells).tenants = s.tenants := rfl
@[simp] theorem State.write_device (s : State) (cells : List (Nat × Byte)) : (s.write cells).device = s.device := rfl

/-! ## `State.markGranule` -/

@[simp] theorem State.markGranule_time (s : State) (g : Nat) : (s.markGranule g).time = s.time := rfl
@[simp] theorem State.markGranule_cur (s : State) (g : Nat) : (s.markGranule g).cur = s.cur := rfl
@[simp] theorem State.markGranule_agenda (s : State) (g : Nat) : (s.markGranule g).agenda = s.agenda := rfl
@[simp] theorem State.markGranule_clock (s : State) (g : Nat) : (s.markGranule g).clock = s.clock := rfl
@[simp] theorem State.markGranule_banks (s : State) (g : Nat) : (s.markGranule g).banks = s.banks := rfl
@[simp] theorem State.markGranule_free (s : State) (g : Nat) : (s.markGranule g).free = s.free := rfl
@[simp] theorem State.markGranule_nextKey (s : State) (g : Nat) : (s.markGranule g).nextKey = s.nextKey := rfl
@[simp] theorem State.markGranule_sent (s : State) (g : Nat) : (s.markGranule g).sent = s.sent := rfl
@[simp] theorem State.markGranule_mem (s : State) (g : Nat) : (s.markGranule g).mem = s.mem := rfl
@[simp] theorem State.markGranule_coded (s : State) (g : Nat) : (s.markGranule g).coded = s.coded := rfl
@[simp] theorem State.markGranule_l2 (s : State) (g : Nat) : (s.markGranule g).l2 = s.l2 := rfl
@[simp] theorem State.markGranule_fills (s : State) (g : Nat) : (s.markGranule g).fills = s.fills := rfl
@[simp] theorem State.markGranule_hbm (s : State) (g : Nat) : (s.markGranule g).hbm = s.hbm := rfl
@[simp] theorem State.markGranule_rows (s : State) (g : Nat) : (s.markGranule g).rows = s.rows := rfl
@[simp] theorem State.markGranule_cores (s : State) (g : Nat) : (s.markGranule g).cores = s.cores := rfl
@[simp] theorem State.markGranule_dies (s : State) (g : Nat) : (s.markGranule g).dies = s.dies := rfl
@[simp] theorem State.markGranule_agents (s : State) (g : Nat) : (s.markGranule g).agents = s.agents := rfl
@[simp] theorem State.markGranule_gangs (s : State) (g : Nat) : (s.markGranule g).gangs = s.gangs := rfl
@[simp] theorem State.markGranule_launches (s : State) (g : Nat) : (s.markGranule g).launches = s.launches := rfl
@[simp] theorem State.markGranule_completions (s : State) (g : Nat) : (s.markGranule g).completions = s.completions := rfl
@[simp] theorem State.markGranule_tenants (s : State) (g : Nat) : (s.markGranule g).tenants = s.tenants := rfl
@[simp] theorem State.markGranule_device (s : State) (g : Nat) : (s.markGranule g).device = s.device := rfl

/-! ## `State.takeFault` -/

@[simp] theorem State.takeFault_time (s : State) (a code : Nat) (pc addr : DWord) (fe wr : Bool) (l : Nat) (ix : Option Nat) : (s.takeFault a code pc addr fe wr l ix).time = s.time := rfl
@[simp] theorem State.takeFault_cur (s : State) (a code : Nat) (pc addr : DWord) (fe wr : Bool) (l : Nat) (ix : Option Nat) : (s.takeFault a code pc addr fe wr l ix).cur = s.cur := rfl
@[simp] theorem State.takeFault_agenda (s : State) (a code : Nat) (pc addr : DWord) (fe wr : Bool) (l : Nat) (ix : Option Nat) : (s.takeFault a code pc addr fe wr l ix).agenda = s.agenda := rfl
@[simp] theorem State.takeFault_clock (s : State) (a code : Nat) (pc addr : DWord) (fe wr : Bool) (l : Nat) (ix : Option Nat) : (s.takeFault a code pc addr fe wr l ix).clock = s.clock := rfl
@[simp] theorem State.takeFault_banks (s : State) (a code : Nat) (pc addr : DWord) (fe wr : Bool) (l : Nat) (ix : Option Nat) : (s.takeFault a code pc addr fe wr l ix).banks = s.banks := rfl
@[simp] theorem State.takeFault_free (s : State) (a code : Nat) (pc addr : DWord) (fe wr : Bool) (l : Nat) (ix : Option Nat) : (s.takeFault a code pc addr fe wr l ix).free = s.free := rfl
@[simp] theorem State.takeFault_nextKey (s : State) (a code : Nat) (pc addr : DWord) (fe wr : Bool) (l : Nat) (ix : Option Nat) : (s.takeFault a code pc addr fe wr l ix).nextKey = s.nextKey := rfl
@[simp] theorem State.takeFault_sent (s : State) (a code : Nat) (pc addr : DWord) (fe wr : Bool) (l : Nat) (ix : Option Nat) : (s.takeFault a code pc addr fe wr l ix).sent = s.sent := rfl
@[simp] theorem State.takeFault_mem (s : State) (a code : Nat) (pc addr : DWord) (fe wr : Bool) (l : Nat) (ix : Option Nat) : (s.takeFault a code pc addr fe wr l ix).mem = s.mem := rfl
@[simp] theorem State.takeFault_memMark (s : State) (a code : Nat) (pc addr : DWord) (fe wr : Bool) (l : Nat) (ix : Option Nat) : (s.takeFault a code pc addr fe wr l ix).memMark = s.memMark := rfl
@[simp] theorem State.takeFault_coded (s : State) (a code : Nat) (pc addr : DWord) (fe wr : Bool) (l : Nat) (ix : Option Nat) : (s.takeFault a code pc addr fe wr l ix).coded = s.coded := rfl
@[simp] theorem State.takeFault_l2 (s : State) (a code : Nat) (pc addr : DWord) (fe wr : Bool) (l : Nat) (ix : Option Nat) : (s.takeFault a code pc addr fe wr l ix).l2 = s.l2 := rfl
@[simp] theorem State.takeFault_fills (s : State) (a code : Nat) (pc addr : DWord) (fe wr : Bool) (l : Nat) (ix : Option Nat) : (s.takeFault a code pc addr fe wr l ix).fills = s.fills := rfl
@[simp] theorem State.takeFault_hbm (s : State) (a code : Nat) (pc addr : DWord) (fe wr : Bool) (l : Nat) (ix : Option Nat) : (s.takeFault a code pc addr fe wr l ix).hbm = s.hbm := rfl
@[simp] theorem State.takeFault_rows (s : State) (a code : Nat) (pc addr : DWord) (fe wr : Bool) (l : Nat) (ix : Option Nat) : (s.takeFault a code pc addr fe wr l ix).rows = s.rows := rfl
@[simp] theorem State.takeFault_cores (s : State) (a code : Nat) (pc addr : DWord) (fe wr : Bool) (l : Nat) (ix : Option Nat) : (s.takeFault a code pc addr fe wr l ix).cores = s.cores := rfl
@[simp] theorem State.takeFault_dies (s : State) (a code : Nat) (pc addr : DWord) (fe wr : Bool) (l : Nat) (ix : Option Nat) : (s.takeFault a code pc addr fe wr l ix).dies = s.dies := rfl
@[simp] theorem State.takeFault_gangs (s : State) (a code : Nat) (pc addr : DWord) (fe wr : Bool) (l : Nat) (ix : Option Nat) : (s.takeFault a code pc addr fe wr l ix).gangs = s.gangs := rfl
@[simp] theorem State.takeFault_launches (s : State) (a code : Nat) (pc addr : DWord) (fe wr : Bool) (l : Nat) (ix : Option Nat) : (s.takeFault a code pc addr fe wr l ix).launches = s.launches := rfl
@[simp] theorem State.takeFault_completions (s : State) (a code : Nat) (pc addr : DWord) (fe wr : Bool) (l : Nat) (ix : Option Nat) : (s.takeFault a code pc addr fe wr l ix).completions = s.completions := rfl
@[simp] theorem State.takeFault_tenants (s : State) (a code : Nat) (pc addr : DWord) (fe wr : Bool) (l : Nat) (ix : Option Nat) : (s.takeFault a code pc addr fe wr l ix).tenants = s.tenants := rfl
@[simp] theorem State.takeFault_device (s : State) (a code : Nat) (pc addr : DWord) (fe wr : Bool) (l : Nat) (ix : Option Nat) : (s.takeFault a code pc addr fe wr l ix).device = s.device := rfl

/-! ## `State.wakeLines` -/

@[simp] theorem State.wakeLines_time (s : State) (ls : List Nat) : (s.wakeLines ls).time = s.time := rfl
@[simp] theorem State.wakeLines_cur (s : State) (ls : List Nat) : (s.wakeLines ls).cur = s.cur := rfl
@[simp] theorem State.wakeLines_agenda (s : State) (ls : List Nat) : (s.wakeLines ls).agenda = s.agenda := rfl
@[simp] theorem State.wakeLines_clock (s : State) (ls : List Nat) : (s.wakeLines ls).clock = s.clock := rfl
@[simp] theorem State.wakeLines_banks (s : State) (ls : List Nat) : (s.wakeLines ls).banks = s.banks := rfl
@[simp] theorem State.wakeLines_free (s : State) (ls : List Nat) : (s.wakeLines ls).free = s.free := rfl
@[simp] theorem State.wakeLines_nextKey (s : State) (ls : List Nat) : (s.wakeLines ls).nextKey = s.nextKey := rfl
@[simp] theorem State.wakeLines_sent (s : State) (ls : List Nat) : (s.wakeLines ls).sent = s.sent := rfl
@[simp] theorem State.wakeLines_mem (s : State) (ls : List Nat) : (s.wakeLines ls).mem = s.mem := rfl
@[simp] theorem State.wakeLines_memMark (s : State) (ls : List Nat) : (s.wakeLines ls).memMark = s.memMark := rfl
@[simp] theorem State.wakeLines_coded (s : State) (ls : List Nat) : (s.wakeLines ls).coded = s.coded := rfl
@[simp] theorem State.wakeLines_l2 (s : State) (ls : List Nat) : (s.wakeLines ls).l2 = s.l2 := rfl
@[simp] theorem State.wakeLines_fills (s : State) (ls : List Nat) : (s.wakeLines ls).fills = s.fills := rfl
@[simp] theorem State.wakeLines_hbm (s : State) (ls : List Nat) : (s.wakeLines ls).hbm = s.hbm := rfl
@[simp] theorem State.wakeLines_rows (s : State) (ls : List Nat) : (s.wakeLines ls).rows = s.rows := rfl
@[simp] theorem State.wakeLines_cores (s : State) (ls : List Nat) : (s.wakeLines ls).cores = s.cores := rfl
@[simp] theorem State.wakeLines_dies (s : State) (ls : List Nat) : (s.wakeLines ls).dies = s.dies := rfl
@[simp] theorem State.wakeLines_gangs (s : State) (ls : List Nat) : (s.wakeLines ls).gangs = s.gangs := rfl
@[simp] theorem State.wakeLines_launches (s : State) (ls : List Nat) : (s.wakeLines ls).launches = s.launches := rfl
@[simp] theorem State.wakeLines_completions (s : State) (ls : List Nat) : (s.wakeLines ls).completions = s.completions := rfl
@[simp] theorem State.wakeLines_tenants (s : State) (ls : List Nat) : (s.wakeLines ls).tenants = s.tenants := rfl
@[simp] theorem State.wakeLines_device (s : State) (ls : List Nat) : (s.wakeLines ls).device = s.device := rfl

/-! ## `State.irq` -/

@[simp] theorem State.irq_time (s : State) (t v : Nat) : (s.irq t v).time = s.time := rfl
@[simp] theorem State.irq_cur (s : State) (t v : Nat) : (s.irq t v).cur = s.cur := rfl
@[simp] theorem State.irq_agenda (s : State) (t v : Nat) : (s.irq t v).agenda = s.agenda := rfl
@[simp] theorem State.irq_clock (s : State) (t v : Nat) : (s.irq t v).clock = s.clock := rfl
@[simp] theorem State.irq_banks (s : State) (t v : Nat) : (s.irq t v).banks = s.banks := rfl
@[simp] theorem State.irq_free (s : State) (t v : Nat) : (s.irq t v).free = s.free := rfl
@[simp] theorem State.irq_nextKey (s : State) (t v : Nat) : (s.irq t v).nextKey = s.nextKey := rfl
@[simp] theorem State.irq_sent (s : State) (t v : Nat) : (s.irq t v).sent = s.sent := rfl
@[simp] theorem State.irq_mem (s : State) (t v : Nat) : (s.irq t v).mem = s.mem := rfl
@[simp] theorem State.irq_memMark (s : State) (t v : Nat) : (s.irq t v).memMark = s.memMark := rfl
@[simp] theorem State.irq_coded (s : State) (t v : Nat) : (s.irq t v).coded = s.coded := rfl
@[simp] theorem State.irq_l2 (s : State) (t v : Nat) : (s.irq t v).l2 = s.l2 := rfl
@[simp] theorem State.irq_fills (s : State) (t v : Nat) : (s.irq t v).fills = s.fills := rfl
@[simp] theorem State.irq_hbm (s : State) (t v : Nat) : (s.irq t v).hbm = s.hbm := rfl
@[simp] theorem State.irq_rows (s : State) (t v : Nat) : (s.irq t v).rows = s.rows := rfl
@[simp] theorem State.irq_cores (s : State) (t v : Nat) : (s.irq t v).cores = s.cores := rfl
@[simp] theorem State.irq_dies (s : State) (t v : Nat) : (s.irq t v).dies = s.dies := rfl
@[simp] theorem State.irq_agents (s : State) (t v : Nat) : (s.irq t v).agents = s.agents := rfl
@[simp] theorem State.irq_gangs (s : State) (t v : Nat) : (s.irq t v).gangs = s.gangs := rfl
@[simp] theorem State.irq_launches (s : State) (t v : Nat) : (s.irq t v).launches = s.launches := rfl
@[simp] theorem State.irq_completions (s : State) (t v : Nat) : (s.irq t v).completions = s.completions := rfl
@[simp] theorem State.irq_device (s : State) (t v : Nat) : (s.irq t v).device = s.device := rfl

/-! ## `State.report` -/

@[simp] theorem State.report_time (s : State) (t : Nat) (r : Report) : (s.report t r).time = s.time := rfl
@[simp] theorem State.report_cur (s : State) (t : Nat) (r : Report) : (s.report t r).cur = s.cur := rfl
@[simp] theorem State.report_agenda (s : State) (t : Nat) (r : Report) : (s.report t r).agenda = s.agenda := rfl
@[simp] theorem State.report_clock (s : State) (t : Nat) (r : Report) : (s.report t r).clock = s.clock := rfl
@[simp] theorem State.report_banks (s : State) (t : Nat) (r : Report) : (s.report t r).banks = s.banks := rfl
@[simp] theorem State.report_free (s : State) (t : Nat) (r : Report) : (s.report t r).free = s.free := rfl
@[simp] theorem State.report_nextKey (s : State) (t : Nat) (r : Report) : (s.report t r).nextKey = s.nextKey := rfl
@[simp] theorem State.report_sent (s : State) (t : Nat) (r : Report) : (s.report t r).sent = s.sent := rfl
@[simp] theorem State.report_mem (s : State) (t : Nat) (r : Report) : (s.report t r).mem = s.mem := rfl
@[simp] theorem State.report_memMark (s : State) (t : Nat) (r : Report) : (s.report t r).memMark = s.memMark := rfl
@[simp] theorem State.report_coded (s : State) (t : Nat) (r : Report) : (s.report t r).coded = s.coded := rfl
@[simp] theorem State.report_l2 (s : State) (t : Nat) (r : Report) : (s.report t r).l2 = s.l2 := rfl
@[simp] theorem State.report_fills (s : State) (t : Nat) (r : Report) : (s.report t r).fills = s.fills := rfl
@[simp] theorem State.report_hbm (s : State) (t : Nat) (r : Report) : (s.report t r).hbm = s.hbm := rfl
@[simp] theorem State.report_rows (s : State) (t : Nat) (r : Report) : (s.report t r).rows = s.rows := rfl
@[simp] theorem State.report_cores (s : State) (t : Nat) (r : Report) : (s.report t r).cores = s.cores := rfl
@[simp] theorem State.report_dies (s : State) (t : Nat) (r : Report) : (s.report t r).dies = s.dies := rfl
@[simp] theorem State.report_agents (s : State) (t : Nat) (r : Report) : (s.report t r).agents = s.agents := rfl
@[simp] theorem State.report_gangs (s : State) (t : Nat) (r : Report) : (s.report t r).gangs = s.gangs := rfl
@[simp] theorem State.report_launches (s : State) (t : Nat) (r : Report) : (s.report t r).launches = s.launches := rfl
@[simp] theorem State.report_completions (s : State) (t : Nat) (r : Report) : (s.report t r).completions = s.completions := rfl
@[simp] theorem State.report_device (s : State) (t : Nat) (r : Report) : (s.report t r).device = s.device := rfl

/-! ## `State.invalL1` -/

@[simp] theorem State.invalL1_time (s : State) (c : Nat) : (s.invalL1 c).time = s.time := rfl
@[simp] theorem State.invalL1_cur (s : State) (c : Nat) : (s.invalL1 c).cur = s.cur := rfl
@[simp] theorem State.invalL1_agenda (s : State) (c : Nat) : (s.invalL1 c).agenda = s.agenda := rfl
@[simp] theorem State.invalL1_clock (s : State) (c : Nat) : (s.invalL1 c).clock = s.clock := rfl
@[simp] theorem State.invalL1_banks (s : State) (c : Nat) : (s.invalL1 c).banks = s.banks := rfl
@[simp] theorem State.invalL1_free (s : State) (c : Nat) : (s.invalL1 c).free = s.free := rfl
@[simp] theorem State.invalL1_nextKey (s : State) (c : Nat) : (s.invalL1 c).nextKey = s.nextKey := rfl
@[simp] theorem State.invalL1_sent (s : State) (c : Nat) : (s.invalL1 c).sent = s.sent := rfl
@[simp] theorem State.invalL1_mem (s : State) (c : Nat) : (s.invalL1 c).mem = s.mem := rfl
@[simp] theorem State.invalL1_memMark (s : State) (c : Nat) : (s.invalL1 c).memMark = s.memMark := rfl
@[simp] theorem State.invalL1_coded (s : State) (c : Nat) : (s.invalL1 c).coded = s.coded := rfl
@[simp] theorem State.invalL1_l2 (s : State) (c : Nat) : (s.invalL1 c).l2 = s.l2 := rfl
@[simp] theorem State.invalL1_fills (s : State) (c : Nat) : (s.invalL1 c).fills = s.fills := rfl
@[simp] theorem State.invalL1_hbm (s : State) (c : Nat) : (s.invalL1 c).hbm = s.hbm := rfl
@[simp] theorem State.invalL1_rows (s : State) (c : Nat) : (s.invalL1 c).rows = s.rows := rfl
@[simp] theorem State.invalL1_dies (s : State) (c : Nat) : (s.invalL1 c).dies = s.dies := rfl
@[simp] theorem State.invalL1_agents (s : State) (c : Nat) : (s.invalL1 c).agents = s.agents := rfl
@[simp] theorem State.invalL1_gangs (s : State) (c : Nat) : (s.invalL1 c).gangs = s.gangs := rfl
@[simp] theorem State.invalL1_launches (s : State) (c : Nat) : (s.invalL1 c).launches = s.launches := rfl
@[simp] theorem State.invalL1_completions (s : State) (c : Nat) : (s.invalL1 c).completions = s.completions := rfl
@[simp] theorem State.invalL1_tenants (s : State) (c : Nat) : (s.invalL1 c).tenants = s.tenants := rfl
@[simp] theorem State.invalL1_device (s : State) (c : Nat) : (s.invalL1 c).device = s.device := rfl

/-! ## `State.invalIcache` -/

@[simp] theorem State.invalIcache_time (s : State) (c : Nat) : (s.invalIcache c).time = s.time := rfl
@[simp] theorem State.invalIcache_cur (s : State) (c : Nat) : (s.invalIcache c).cur = s.cur := rfl
@[simp] theorem State.invalIcache_agenda (s : State) (c : Nat) : (s.invalIcache c).agenda = s.agenda := rfl
@[simp] theorem State.invalIcache_clock (s : State) (c : Nat) : (s.invalIcache c).clock = s.clock := rfl
@[simp] theorem State.invalIcache_banks (s : State) (c : Nat) : (s.invalIcache c).banks = s.banks := rfl
@[simp] theorem State.invalIcache_free (s : State) (c : Nat) : (s.invalIcache c).free = s.free := rfl
@[simp] theorem State.invalIcache_nextKey (s : State) (c : Nat) : (s.invalIcache c).nextKey = s.nextKey := rfl
@[simp] theorem State.invalIcache_sent (s : State) (c : Nat) : (s.invalIcache c).sent = s.sent := rfl
@[simp] theorem State.invalIcache_mem (s : State) (c : Nat) : (s.invalIcache c).mem = s.mem := rfl
@[simp] theorem State.invalIcache_memMark (s : State) (c : Nat) : (s.invalIcache c).memMark = s.memMark := rfl
@[simp] theorem State.invalIcache_coded (s : State) (c : Nat) : (s.invalIcache c).coded = s.coded := rfl
@[simp] theorem State.invalIcache_l2 (s : State) (c : Nat) : (s.invalIcache c).l2 = s.l2 := rfl
@[simp] theorem State.invalIcache_fills (s : State) (c : Nat) : (s.invalIcache c).fills = s.fills := rfl
@[simp] theorem State.invalIcache_hbm (s : State) (c : Nat) : (s.invalIcache c).hbm = s.hbm := rfl
@[simp] theorem State.invalIcache_rows (s : State) (c : Nat) : (s.invalIcache c).rows = s.rows := rfl
@[simp] theorem State.invalIcache_dies (s : State) (c : Nat) : (s.invalIcache c).dies = s.dies := rfl
@[simp] theorem State.invalIcache_agents (s : State) (c : Nat) : (s.invalIcache c).agents = s.agents := rfl
@[simp] theorem State.invalIcache_gangs (s : State) (c : Nat) : (s.invalIcache c).gangs = s.gangs := rfl
@[simp] theorem State.invalIcache_launches (s : State) (c : Nat) : (s.invalIcache c).launches = s.launches := rfl
@[simp] theorem State.invalIcache_completions (s : State) (c : Nat) : (s.invalIcache c).completions = s.completions := rfl
@[simp] theorem State.invalIcache_tenants (s : State) (c : Nat) : (s.invalIcache c).tenants = s.tenants := rfl
@[simp] theorem State.invalIcache_device (s : State) (c : Nat) : (s.invalIcache c).device = s.device := rfl

/-! ## `State.unstall` -/

@[simp] theorem State.unstall_time (s : State) : (s.unstall).time = s.time := rfl
@[simp] theorem State.unstall_cur (s : State) : (s.unstall).cur = s.cur := rfl
@[simp] theorem State.unstall_agenda (s : State) : (s.unstall).agenda = s.agenda := rfl
@[simp] theorem State.unstall_clock (s : State) : (s.unstall).clock = s.clock := rfl
@[simp] theorem State.unstall_banks (s : State) : (s.unstall).banks = s.banks := rfl
@[simp] theorem State.unstall_free (s : State) : (s.unstall).free = s.free := rfl
@[simp] theorem State.unstall_nextKey (s : State) : (s.unstall).nextKey = s.nextKey := rfl
@[simp] theorem State.unstall_sent (s : State) : (s.unstall).sent = s.sent := rfl
@[simp] theorem State.unstall_mem (s : State) : (s.unstall).mem = s.mem := rfl
@[simp] theorem State.unstall_memMark (s : State) : (s.unstall).memMark = s.memMark := rfl
@[simp] theorem State.unstall_coded (s : State) : (s.unstall).coded = s.coded := rfl
@[simp] theorem State.unstall_l2 (s : State) : (s.unstall).l2 = s.l2 := rfl
@[simp] theorem State.unstall_fills (s : State) : (s.unstall).fills = s.fills := rfl
@[simp] theorem State.unstall_hbm (s : State) : (s.unstall).hbm = s.hbm := rfl
@[simp] theorem State.unstall_rows (s : State) : (s.unstall).rows = s.rows := rfl
@[simp] theorem State.unstall_cores (s : State) : (s.unstall).cores = s.cores := rfl
@[simp] theorem State.unstall_dies (s : State) : (s.unstall).dies = s.dies := rfl
@[simp] theorem State.unstall_gangs (s : State) : (s.unstall).gangs = s.gangs := rfl
@[simp] theorem State.unstall_launches (s : State) : (s.unstall).launches = s.launches := rfl
@[simp] theorem State.unstall_completions (s : State) : (s.unstall).completions = s.completions := rfl
@[simp] theorem State.unstall_tenants (s : State) : (s.unstall).tenants = s.tenants := rfl
@[simp] theorem State.unstall_device (s : State) : (s.unstall).device = s.device := rfl

/-! ## Reads after updates -/

@[simp] theorem State.agent?_setAgent (s : State) (a b : Nat) (x : Agent) :
    (s.setAgent a x).agent? b = if a = b then some x else s.agent? b := kget_kput ..

@[simp] theorem State.agent?_modAgent (s : State) (a b : Nat) (f : Agent → Agent) :
    (s.modAgent a f).agent? b = if a = b then (s.agent? b).map f else s.agent? b := kget_kmod ..

@[simp] theorem State.agent?_delAgent (s : State) (a b : Nat) :
    (s.delAgent a).agent? b = if a = b then none else s.agent? b := kget_kdel ..

@[simp] theorem State.gang?_setGang (s : State) (g h : Nat) (x : Gang) :
    (s.setGang g x).gang? h = if g = h then some x else s.gang? h := kget_kput ..

@[simp] theorem State.gang?_modGang (s : State) (g h : Nat) (f : Gang → Gang) :
    (s.modGang g f).gang? h = if g = h then (s.gang? h).map f else s.gang? h := kget_kmod ..

@[simp] theorem State.core_setCore (s : State) (c d : Nat) (x : Core) :
    (s.setCore c x).core d = if c = d then x else s.core d := kgetD_ksetD ..

@[simp] theorem State.core_modCore (s : State) (c d : Nat) (f : Core → Core) :
    (s.modCore c f).core d = if c = d then f (s.core c) else s.core d := kgetD_ksetD ..

@[simp] theorem State.die_setDie (s : State) (c d : Nat) (x : Die) :
    (s.setDie c x).die d = if c = d then x else s.die d := kgetD_ksetD ..

@[simp] theorem State.die_modDie (s : State) (c d : Nat) (f : Die → Die) :
    (s.modDie c f).die d = if c = d then f (s.die c) else s.die d := kgetD_ksetD ..

@[simp] theorem State.tenant_setTenant (s : State) (t u : Nat) (x : Tenant) :
    (s.setTenant t x).tenant u = if t = u then x else s.tenant u := kgetD_ksetD ..

@[simp] theorem State.tenant_modTenant (s : State) (t u : Nat) (f : Tenant → Tenant) :
    (s.modTenant t f).tenant u = if t = u then f (s.tenant t) else s.tenant u := kgetD_ksetD ..

/-- A byte depends on memory alone. -/
theorem State.byte_congr {s t : State} (h : t.mem = s.mem) (a : Nat) : t.byte a = s.byte a := by
  unfold State.byte; rw [h]

/-! ## Updates of an agent's parts -/

@[simp] theorem Agent.mapCtl_ident (f : Ctl → Ctl) (x : Agent) : (x.mapCtl f).ident = x.ident := rfl
@[simp] theorem Agent.mapCtl_place (f : Ctl → Ctl) (x : Agent) : (x.mapCtl f).place = x.place := rfl
@[simp] theorem Agent.mapCtl_active (f : Ctl → Ctl) (x : Agent) : (x.mapCtl f).active = x.active := rfl
@[simp] theorem Agent.mapCtl_frozen (f : Ctl → Ctl) (x : Agent) : (x.mapCtl f).frozen = x.frozen := rfl
@[simp] theorem Agent.mapCtl_task (f : Ctl → Ctl) (x : Agent) : (x.mapCtl f).task = x.task := rfl
@[simp] theorem Agent.mapCtl_queued (f : Ctl → Ctl) (x : Agent) : (x.mapCtl f).queued = x.queued := rfl
@[simp] theorem Agent.mapCtl_passed (f : Ctl → Ctl) (x : Agent) : (x.mapCtl f).passed = x.passed := rfl
@[simp] theorem Agent.mapCtl_regs (f : Ctl → Ctl) (x : Agent) : (x.mapCtl f).regs = x.regs := rfl
@[simp] theorem Agent.mapCtl_ctl (f : Ctl → Ctl) (x : Agent) : (x.mapCtl f).ctl = f x.ctl := rfl
@[simp] theorem Agent.mapCtl_sys (f : Ctl → Ctl) (x : Agent) : (x.mapCtl f).sys = x.sys := rfl
@[simp] theorem Agent.mapCtl_eng (f : Ctl → Ctl) (x : Agent) : (x.mapCtl f).eng = x.eng := rfl
@[simp] theorem Agent.mapCtl_flight (f : Ctl → Ctl) (x : Agent) : (x.mapCtl f).flight = x.flight := rfl
@[simp] theorem Agent.mapCtl_slab (f : Ctl → Ctl) (x : Agent) : (x.mapCtl f).slab = x.slab := rfl
@[simp] theorem Agent.mapCtl_recs (f : Ctl → Ctl) (x : Agent) : (x.mapCtl f).recs = x.recs := rfl
@[simp] theorem Agent.mapRegs_ident (f : Regs → Regs) (x : Agent) : (x.mapRegs f).ident = x.ident := rfl
@[simp] theorem Agent.mapRegs_place (f : Regs → Regs) (x : Agent) : (x.mapRegs f).place = x.place := rfl
@[simp] theorem Agent.mapRegs_active (f : Regs → Regs) (x : Agent) : (x.mapRegs f).active = x.active := rfl
@[simp] theorem Agent.mapRegs_frozen (f : Regs → Regs) (x : Agent) : (x.mapRegs f).frozen = x.frozen := rfl
@[simp] theorem Agent.mapRegs_task (f : Regs → Regs) (x : Agent) : (x.mapRegs f).task = x.task := rfl
@[simp] theorem Agent.mapRegs_queued (f : Regs → Regs) (x : Agent) : (x.mapRegs f).queued = x.queued := rfl
@[simp] theorem Agent.mapRegs_passed (f : Regs → Regs) (x : Agent) : (x.mapRegs f).passed = x.passed := rfl
@[simp] theorem Agent.mapRegs_regs (f : Regs → Regs) (x : Agent) : (x.mapRegs f).regs = f x.regs := rfl
@[simp] theorem Agent.mapRegs_ctl (f : Regs → Regs) (x : Agent) : (x.mapRegs f).ctl = x.ctl := rfl
@[simp] theorem Agent.mapRegs_sys (f : Regs → Regs) (x : Agent) : (x.mapRegs f).sys = x.sys := rfl
@[simp] theorem Agent.mapRegs_eng (f : Regs → Regs) (x : Agent) : (x.mapRegs f).eng = x.eng := rfl
@[simp] theorem Agent.mapRegs_flight (f : Regs → Regs) (x : Agent) : (x.mapRegs f).flight = x.flight := rfl
@[simp] theorem Agent.mapRegs_slab (f : Regs → Regs) (x : Agent) : (x.mapRegs f).slab = x.slab := rfl
@[simp] theorem Agent.mapRegs_recs (f : Regs → Regs) (x : Agent) : (x.mapRegs f).recs = x.recs := rfl
@[simp] theorem Agent.mapSys_ident (f : Sys → Sys) (x : Agent) : (x.mapSys f).ident = x.ident := rfl
@[simp] theorem Agent.mapSys_place (f : Sys → Sys) (x : Agent) : (x.mapSys f).place = x.place := rfl
@[simp] theorem Agent.mapSys_active (f : Sys → Sys) (x : Agent) : (x.mapSys f).active = x.active := rfl
@[simp] theorem Agent.mapSys_frozen (f : Sys → Sys) (x : Agent) : (x.mapSys f).frozen = x.frozen := rfl
@[simp] theorem Agent.mapSys_task (f : Sys → Sys) (x : Agent) : (x.mapSys f).task = x.task := rfl
@[simp] theorem Agent.mapSys_queued (f : Sys → Sys) (x : Agent) : (x.mapSys f).queued = x.queued := rfl
@[simp] theorem Agent.mapSys_passed (f : Sys → Sys) (x : Agent) : (x.mapSys f).passed = x.passed := rfl
@[simp] theorem Agent.mapSys_regs (f : Sys → Sys) (x : Agent) : (x.mapSys f).regs = x.regs := rfl
@[simp] theorem Agent.mapSys_ctl (f : Sys → Sys) (x : Agent) : (x.mapSys f).ctl = x.ctl := rfl
@[simp] theorem Agent.mapSys_sys (f : Sys → Sys) (x : Agent) : (x.mapSys f).sys = f x.sys := rfl
@[simp] theorem Agent.mapSys_eng (f : Sys → Sys) (x : Agent) : (x.mapSys f).eng = x.eng := rfl
@[simp] theorem Agent.mapSys_flight (f : Sys → Sys) (x : Agent) : (x.mapSys f).flight = x.flight := rfl
@[simp] theorem Agent.mapSys_slab (f : Sys → Sys) (x : Agent) : (x.mapSys f).slab = x.slab := rfl
@[simp] theorem Agent.mapSys_recs (f : Sys → Sys) (x : Agent) : (x.mapSys f).recs = x.recs := rfl
@[simp] theorem Agent.mapEng_ident (f : Eng → Eng) (x : Agent) : (x.mapEng f).ident = x.ident := rfl
@[simp] theorem Agent.mapEng_place (f : Eng → Eng) (x : Agent) : (x.mapEng f).place = x.place := rfl
@[simp] theorem Agent.mapEng_active (f : Eng → Eng) (x : Agent) : (x.mapEng f).active = x.active := rfl
@[simp] theorem Agent.mapEng_frozen (f : Eng → Eng) (x : Agent) : (x.mapEng f).frozen = x.frozen := rfl
@[simp] theorem Agent.mapEng_task (f : Eng → Eng) (x : Agent) : (x.mapEng f).task = x.task := rfl
@[simp] theorem Agent.mapEng_queued (f : Eng → Eng) (x : Agent) : (x.mapEng f).queued = x.queued := rfl
@[simp] theorem Agent.mapEng_passed (f : Eng → Eng) (x : Agent) : (x.mapEng f).passed = x.passed := rfl
@[simp] theorem Agent.mapEng_regs (f : Eng → Eng) (x : Agent) : (x.mapEng f).regs = x.regs := rfl
@[simp] theorem Agent.mapEng_ctl (f : Eng → Eng) (x : Agent) : (x.mapEng f).ctl = x.ctl := rfl
@[simp] theorem Agent.mapEng_sys (f : Eng → Eng) (x : Agent) : (x.mapEng f).sys = x.sys := rfl
@[simp] theorem Agent.mapEng_eng (f : Eng → Eng) (x : Agent) : (x.mapEng f).eng = f x.eng := rfl
@[simp] theorem Agent.mapEng_flight (f : Eng → Eng) (x : Agent) : (x.mapEng f).flight = x.flight := rfl
@[simp] theorem Agent.mapEng_slab (f : Eng → Eng) (x : Agent) : (x.mapEng f).slab = x.slab := rfl
@[simp] theorem Agent.mapEng_recs (f : Eng → Eng) (x : Agent) : (x.mapEng f).recs = x.recs := rfl
@[simp] theorem Agent.mapFlight_ident (f : Flight → Flight) (x : Agent) : (x.mapFlight f).ident = x.ident := rfl
@[simp] theorem Agent.mapFlight_place (f : Flight → Flight) (x : Agent) : (x.mapFlight f).place = x.place := rfl
@[simp] theorem Agent.mapFlight_active (f : Flight → Flight) (x : Agent) : (x.mapFlight f).active = x.active := rfl
@[simp] theorem Agent.mapFlight_frozen (f : Flight → Flight) (x : Agent) : (x.mapFlight f).frozen = x.frozen := rfl
@[simp] theorem Agent.mapFlight_task (f : Flight → Flight) (x : Agent) : (x.mapFlight f).task = x.task := rfl
@[simp] theorem Agent.mapFlight_queued (f : Flight → Flight) (x : Agent) : (x.mapFlight f).queued = x.queued := rfl
@[simp] theorem Agent.mapFlight_passed (f : Flight → Flight) (x : Agent) : (x.mapFlight f).passed = x.passed := rfl
@[simp] theorem Agent.mapFlight_regs (f : Flight → Flight) (x : Agent) : (x.mapFlight f).regs = x.regs := rfl
@[simp] theorem Agent.mapFlight_ctl (f : Flight → Flight) (x : Agent) : (x.mapFlight f).ctl = x.ctl := rfl
@[simp] theorem Agent.mapFlight_sys (f : Flight → Flight) (x : Agent) : (x.mapFlight f).sys = x.sys := rfl
@[simp] theorem Agent.mapFlight_eng (f : Flight → Flight) (x : Agent) : (x.mapFlight f).eng = x.eng := rfl
@[simp] theorem Agent.mapFlight_flight (f : Flight → Flight) (x : Agent) : (x.mapFlight f).flight = f x.flight := rfl
@[simp] theorem Agent.mapFlight_slab (f : Flight → Flight) (x : Agent) : (x.mapFlight f).slab = x.slab := rfl
@[simp] theorem Agent.mapFlight_recs (f : Flight → Flight) (x : Agent) : (x.mapFlight f).recs = x.recs := rfl

end Sys2Proof.Machine
end

