-- ==== Sys2Proof/Laws/Memory.lean ====
section
/-! SUPPORT. Memory: a write gives the bytes written at their locations, leaves every other byte, and keeps the canonical
form. -/

namespace Sys2Proof.Machine

/-- Each location reads as the last byte written there, else as before. -/
def lastByte (k : Nat) : List (Nat × Byte) → Option Byte
  | [] => none
  | (k', b) :: t => (lastByte k t).or (if k' = k then some b else none)

theorem kgetD_memPuts (m : List Host.Cell) (cells : List (Nat × Byte)) (k : Nat) :
    kgetD 0#8 (memPuts m cells) k = (lastByte k cells).getD (kgetD 0#8 m k) := by
  induction cells generalizing m with
  | nil => rfl
  | cons e t ih =>
    obtain ⟨k', b⟩ := e
    simp only [memPuts, ih, lastByte, memPut, kgetD_ksetD]
    cases lastByte k t <;> simp; split <;> simp

theorem lastByte_none (k : Nat) (cells : List (Nat × Byte)) (h : ∀ e ∈ cells, e.1 ≠ k) : lastByte k cells = none := by
  induction cells with
  | nil => rfl
  | cons e t ih =>
    simp only [lastByte, ih fun x hx => h x (List.mem_cons_of_mem _ hx), h e List.mem_cons_self, if_false, Option.or]

/-- A byte after a write. -/
theorem State.byte_write (s : State) (cells : List (Nat × Byte)) (k : Nat) :
    (s.write cells).byte k = (lastByte k cells).getD (s.byte k) := kgetD_memPuts ..

/-- Every byte outside the cells written reads as before. -/
theorem State.byte_write_other (s : State) (cells : List (Nat × Byte)) (k : Nat) (h : ∀ e ∈ cells, e.1 ≠ k) :
    (s.write cells).byte k = s.byte k := by
  rw [State.byte_write, lastByte_none k cells h]; rfl

/-- The cells of consecutive bytes. -/
theorem lastByte_cellsAt (key : Nat) (bs : List Byte) (k : Nat) :
    lastByte k (cellsAt key bs) = if key ≤ k then bs[k - key]? else none := by
  induction bs generalizing key with
  | nil => simp [cellsAt, lastByte]
  | cons b t ih =>
    simp only [cellsAt, lastByte, ih]
    by_cases h1 : key = k
    · subst h1; simp
    · by_cases h2 : key ≤ k
      · have h3 : key + 1 ≤ k := by omega
        have h4 : k - key = (k - (key + 1)) + 1 := by omega
        simp [h1, h2, h3, h4]
      · have h3 : ¬ key + 1 ≤ k := by omega
        simp [h1, h2, h3]

/-- A write of consecutive bytes. -/
theorem State.byte_write_cellsAt (s : State) (key : Nat) (bs : List Byte) (k : Nat) :
    (s.write (cellsAt key bs)).byte k = if key ≤ k ∧ k < key + bs.length then bs.getD (k - key) 0#8 else s.byte k := by
  rw [State.byte_write, lastByte_cellsAt]
  by_cases h : key ≤ k
  · by_cases h2 : k < key + bs.length
    · have : k - key < bs.length := by omega
      simp [h, h2, this]
    · have : bs.length ≤ k - key := by omega
      simp [h, h2, this]
  · simp [h]

/-- A write of one byte keeps the canonical form. -/
theorem memPut_wf (m : List Host.Cell) (k : Nat) (b : Byte) (h : Memory.wf m = true) : Memory.wf (memPut m k b) = true :=
  kwf_ksetD 0#8 m k b h

/-- Writes keep the canonical form. -/
theorem memPuts_wf (m : List Host.Cell) (cells : List (Nat × Byte)) (h : Memory.wf m = true) :
    Memory.wf (memPuts m cells) = true := by
  induction cells generalizing m with
  | nil => exact h
  | cons e t ih => exact ih _ (memPut_wf m e.1 e.2 h)

theorem State.write_wf (s : State) (cells : List (Nat × Byte)) (h : Memory.wf s.mem = true) :
    Memory.wf (s.write cells).mem = true := memPuts_wf _ _ h

/-- Writes one after the other. -/
theorem memPuts_append (m : List Host.Cell) (x y : List (Nat × Byte)) : memPuts m (x ++ y) = memPuts (memPuts m x) y := by
  induction x generalizing m with
  | nil => rfl
  | cons e t ih => exact ih _

/-- The one way memory changes: bytes are written. -/
def MemFrom (s t : State) : Prop := ∃ cells, t.mem = memPuts s.mem cells

theorem MemFrom.same {s t : State} (h : t.mem = s.mem) : MemFrom s t := ⟨[], h⟩

theorem MemFrom.write (s : State) (cells : List (Nat × Byte)) : MemFrom s (s.write cells) := ⟨cells, rfl⟩

theorem MemFrom.trans {s t u : State} (h : MemFrom s t) (k : MemFrom t u) : MemFrom s u := by
  obtain ⟨x, hx⟩ := h; obtain ⟨y, hy⟩ := k
  exact ⟨x ++ y, by rw [hy, hx, memPuts_append]⟩

/-- What is reached by writes alone keeps the canonical form. -/
theorem MemFrom.wf {s t : State} (h : MemFrom s t) (hs : Memory.wf s.mem = true) : Memory.wf t.mem = true := by
  obtain ⟨x, hx⟩ := h; rw [hx]; exact memPuts_wf _ _ hs

/-- A fold of states each of which writes only. -/
theorem MemFrom.foldl {α : Type} (f : State → α → State) (hf : ∀ s a, MemFrom s (f s a)) (l : List α) (s : State) :
    MemFrom s (l.foldl f s) := by
  induction l generalizing s with
  | nil => exact .same rfl
  | cons a t ih => exact (hf s a).trans (ih _)

end Sys2Proof.Machine
end

