-- ==== Sys2Proof/Laws/Regs.lean ====
section
/-! SUPPORT. Registers, predicates and PCs after a write: the lanes written, and every other one. -/

namespace Sys2Proof.Machine

theorem packLanes_getD (f : Nat → Word) (l : Nat) (h : l < 32) : (packLanes f).getD l 0#32 = f l := by
  simp only [packLanes]
  split
  · next ha =>
    rw [List.all_eq_true] at ha
    have := ha (f l) (List.mem_map_of_mem (List.mem_range.mpr h))
    simpa using (by simpa using this : f l = 0#32).symm
  · simp [List.getD, h]

/-- A lane of a vector register after a write of lanes. -/
theorem Regs.vlane_setV (r : Regs) (n : Nat) (m : Lanes) (f : Nat → Word) (k : Lanes) (j l : Nat) (h : l < 32) :
    (r.setV n m f k).vlane j l = if n = j ∧ m.getLsbD l = true then f l else r.vlane j l := by
  unfold Regs.setV Regs.vlane
  simp only [kgetD_ksetD]
  by_cases hj : n = j
  · subst hj
    simp only [if_true, true_and]
    rw [packLanes_getD _ _ h]
  · simp [hj]

/-- A mark of a vector register after a write of lanes. -/
theorem Regs.vMark_setV (r : Regs) (n : Nat) (m : Lanes) (f : Nat → Word) (k : Lanes) (j l : Nat) :
    (kgetD 0#32 (r.setV n m f k).vMark j).getLsbD l =
      if n = j ∧ m.getLsbD l = true then k.getLsbD l else (kgetD 0#32 r.vMark j).getLsbD l := by
  unfold Regs.setV
  simp only [kgetD_ksetD]
  by_cases hj : n = j
  · subst hj
    by_cases hm : m.getLsbD l = true
    · simp [hm]
    · simp [hm]; intro h1; exact BitVec.lt_of_getLsbD h1
  · simp [hj]

@[simp] theorem Regs.setV_alloc (r : Regs) (n : Nat) (m : Lanes) (f : Nat → Word) (k : Lanes) :
    (r.setV n m f k).alloc = r.alloc := rfl
@[simp] theorem Regs.setV_s (r : Regs) (n : Nat) (m : Lanes) (f : Nat → Word) (k : Lanes) : (r.setV n m f k).s = r.s := rfl
@[simp] theorem Regs.setV_sMark (r : Regs) (n : Nat) (m : Lanes) (f : Nat → Word) (k : Lanes) :
    (r.setV n m f k).sMark = r.sMark := rfl
@[simp] theorem Regs.setV_p (r : Regs) (n : Nat) (m : Lanes) (f : Nat → Word) (k : Lanes) : (r.setV n m f k).p = r.p := rfl

/-- A lane after a write of 32 or 64 bits. -/
theorem Regs.vlane_setV64 (r : Regs) (n : Nat) (w : Bool) (m : Lanes) (f : Nat → DWord) (k : Lanes) (j l : Nat)
    (h : l < 32) :
    (r.setV64 n w m f k).vlane j l =
      if m.getLsbD l = true ∧ j = n then (f l).setWidth 32
      else if m.getLsbD l = true ∧ w = true ∧ j = n + 1 then ((f l) >>> 32).setWidth 32
      else r.vlane j l := by
  unfold Regs.setV64
  cases w
  · simp only [Bool.false_eq_true, if_false, false_and, and_false]
    rw [Regs.vlane_setV _ _ _ _ _ _ _ h]
    grind
  · simp only [if_true, true_and]
    rw [Regs.vlane_setV _ _ _ _ _ _ _ h, Regs.vlane_setV _ _ _ _ _ _ _ h]
    grind

/-- A mark after a write of 32 or 64 bits. -/
theorem Regs.vMark_setV64 (r : Regs) (n : Nat) (w : Bool) (m : Lanes) (f : Nat → DWord) (k : Lanes) (j l : Nat) :
    (kgetD 0#32 (r.setV64 n w m f k).vMark j).getLsbD l =
      if m.getLsbD l = true ∧ (j = n ∨ w = true ∧ j = n + 1) then k.getLsbD l
      else (kgetD 0#32 r.vMark j).getLsbD l := by
  unfold Regs.setV64
  cases w
  · simp only [Bool.false_eq_true, if_false, false_and, or_false]
    rw [Regs.vMark_setV]
    grind
  · simp only [if_true, true_and]
    rw [Regs.vMark_setV, Regs.vMark_setV]
    grind

@[simp] theorem Regs.setV64_alloc (r : Regs) (n : Nat) (w : Bool) (m : Lanes) (f : Nat → DWord) (k : Lanes) :
    (r.setV64 n w m f k).alloc = r.alloc := by cases w <;> rfl
@[simp] theorem Regs.setV64_s (r : Regs) (n : Nat) (w : Bool) (m : Lanes) (f : Nat → DWord) (k : Lanes) :
    (r.setV64 n w m f k).s = r.s := by cases w <;> rfl
@[simp] theorem Regs.setV64_sMark (r : Regs) (n : Nat) (w : Bool) (m : Lanes) (f : Nat → DWord) (k : Lanes) :
    (r.setV64 n w m f k).sMark = r.sMark := by cases w <;> rfl
@[simp] theorem Regs.setV64_p (r : Regs) (n : Nat) (w : Bool) (m : Lanes) (f : Nat → DWord) (k : Lanes) :
    (r.setV64 n w m f k).p = r.p := by cases w <;> rfl

/-- A scalar register after a write of one. -/
theorem Regs.sreg_setS (r : Regs) (n : Nat) (w : Word) (k : Bool) (j : Nat) :
    (r.setS n w k).sreg j = if n = j then w else r.sreg j := kgetD_ksetD ..

theorem getLsbD_setBit {w : Nat} (x : BitVec w) (i j : Nat) (b : Bool) (h : j < w) :
    (setBit x i b).getLsbD j = if i = j then b else x.getLsbD j := by
  have h1 : ((1#w) <<< i).getLsbD j = decide (i = j) := by
    rw [BitVec.getLsbD_shiftLeft, BitVec.getLsbD_one]
    by_cases hij : i = j
    · subst hij; simp [h]; omega
    · by_cases hji : j < i
      · simp [hij, hji]
      · have : ¬ j - i = 0 := by omega
        simp [hij, this]
  unfold setBit
  cases b
  · rw [if_neg (by simp), BitVec.getLsbD_and, BitVec.getLsbD_not, h1]; by_cases hij : i = j <;> simp [hij, h]
  · rw [if_pos rfl, BitVec.getLsbD_or, h1]; by_cases hij : i = j <;> simp [hij]

/-- A scalar register after a write of 32 or 64 bits. -/
theorem Regs.sreg_setS64 (r : Regs) (n : Nat) (w : Bool) (v : DWord) (k : Bool) (j : Nat) :
    (r.setS64 n w v k).sreg j =
      if j = n then v.setWidth 32 else if w = true ∧ j = n + 1 then (v >>> 32).setWidth 32 else r.sreg j := by
  unfold Regs.setS64
  cases w
  · simp only [Bool.false_eq_true, if_false, false_and]
    rw [Regs.sreg_setS]; by_cases h : n = j <;> simp [h, eq_comm]
  · simp only [if_true, true_and]
    rw [Regs.sreg_setS, Regs.sreg_setS]
    grind

/-- A scalar's mark after a write of 32 or 64 bits. -/
theorem Regs.sMark_setS64 (r : Regs) (n : Nat) (w : Bool) (v : DWord) (k : Bool) (j : Nat) (h : j < 256) :
    (r.setS64 n w v k).sMark.getLsbD j =
      if j = n ∨ w = true ∧ j = n + 1 then k else r.sMark.getLsbD j := by
  unfold Regs.setS64 Regs.setS
  cases w
  · simp only [Bool.false_eq_true, if_false, false_and, or_false]
    rw [getLsbD_setBit _ _ _ _ h]; by_cases h1 : n = j <;> simp [h1, eq_comm]
  · simp only [if_true, true_and]
    rw [getLsbD_setBit _ _ _ _ h, getLsbD_setBit _ _ _ _ h]
    grind

@[simp] theorem Regs.setS64_alloc (r : Regs) (n : Nat) (w : Bool) (v : DWord) (k : Bool) :
    (r.setS64 n w v k).alloc = r.alloc := by cases w <;> rfl
@[simp] theorem Regs.setS64_v (r : Regs) (n : Nat) (w : Bool) (v : DWord) (k : Bool) : (r.setS64 n w v k).v = r.v := by
  cases w <;> rfl
@[simp] theorem Regs.setS64_vMark (r : Regs) (n : Nat) (w : Bool) (v : DWord) (k : Bool) :
    (r.setS64 n w v k).vMark = r.vMark := by cases w <;> rfl
@[simp] theorem Regs.setS64_p (r : Regs) (n : Nat) (w : Bool) (v : DWord) (k : Bool) : (r.setS64 n w v k).p = r.p := by
  cases w <;> rfl

/-! ## Lanes -/

theorem getLsbD_maskOf (f : Nat → Bool) (l : Nat) (h : l < 32) : (maskOf f).getLsbD l = f l := by
  simp [maskOf, h]

theorem mem_lanesOf (m : Lanes) (l : Nat) : l ∈ lanesOf m ↔ m.getLsbD l = true := by
  simp only [lanesOf, List.mem_filter, List.mem_range]
  exact ⟨fun h => h.2, fun h => ⟨BitVec.lt_of_getLsbD h, h⟩⟩

/-- A predicate after a write of lanes. -/
theorem Regs.pred_setP (r : Regs) (n : Nat) (m : Lanes) (f : Nat → Bool) (j l : Nat) (h : l < 32) :
    ((r.setP n m f).pred j).getLsbD l = if n = j ∧ m.getLsbD l = true then f l else (r.pred j).getLsbD l := by
  unfold Regs.setP Regs.pred
  simp only [kgetD_ksetD]
  by_cases hj : n = j
  · subst hj
    rw [if_pos rfl, BitVec.getLsbD_or, BitVec.getLsbD_and, BitVec.getLsbD_and, BitVec.getLsbD_not, getLsbD_maskOf _ _ h]
    by_cases hm : m.getLsbD l = true
    · rw [hm]; simp
    · rw [Bool.not_eq_true] at hm; rw [hm]; simp [h]
  · simp [hj]

/-! ## PCs -/

theorem kgetD_setPcs (f : Nat → DWord) (ls : List Nat) (m : KMap DWord) (l : Nat) :
    kgetD 0#64 (setPcs f ls m) l = if l ∈ ls then f l else kgetD 0#64 m l := by
  induction ls generalizing m with
  | nil => simp [setPcs]
  | cons a t ih =>
    simp only [setPcs, ih, kgetD_ksetD, List.mem_cons]
    by_cases h1 : l ∈ t
    · simp [h1]
    · by_cases h2 : a = l
      · subst h2; simp [h1]
      · have : ¬ l = a := fun h => h2 h.symm
        simp [h1, h2, this]

/-- The PC of a lane after lanes have moved. -/
theorem Ctl.pc_move (c : Ctl) (m : Lanes) (f : Nat → DWord) (l : Nat) :
    (c.move m f).pc l = if m.getLsbD l = true then f l else c.pc l := by
  unfold Ctl.move Ctl.pc
  rw [kgetD_setPcs]; simp [mem_lanesOf]

/-- The PC of a lane after lanes have advanced. -/
theorem Ctl.pc_advance (c : Ctl) (m : Lanes) (n l : Nat) :
    (c.advance m n).pc l = if m.getLsbD l = true then c.pc l + BitVec.ofNat 64 n else c.pc l := Ctl.pc_move ..

end Sys2Proof.Machine
end

