-- ==== Sys2Proof/Laws/Issue.lean ====
section
/-! SUPPORT. What the issue frame answers in each of its cases, and what the common endings of an instruction leave. -/

namespace Sys2Proof.Machine

open Sys2Proof.Claim

theorem kput_kput {V : Type} (m : KMap V) (k : Nat) (x y : V) : kput (kput m k x) k y = kput m k y := by
  induction m with
  | nil => simp [kput]
  | cons e t ih =>
    obtain ⟨k', v⟩ := e
    by_cases h1 : k < k'
    · simp [kput, h1]
    · by_cases h2 : k' = k
      · simp [kput, h2]
      · simp [kput, h1, h2, ih]

theorem kmod_kput {V : Type} (m : KMap V) (k : Nat) (x : V) (f : V → V) : kmod (kput m k x) k f = kput m k (f x) := by
  induction m with
  | nil => simp [kput, kmod]
  | cons e t ih =>
    obtain ⟨k', v⟩ := e
    by_cases h1 : k < k'
    · simp [kput, kmod, h1]
    · by_cases h2 : k' = k
      · simp [kput, kmod, h2]
      · simp [kput, kmod, h1, h2, ih]

theorem kmod_congr {V : Type} (m : KMap V) (k : Nat) (f g : V → V) (h : ∀ v, kget m k = some v → f v = g v) :
    kmod m k f = kmod m k g := by
  induction m with
  | nil => rfl
  | cons e t ih =>
    obtain ⟨k', v⟩ := e
    unfold kmod
    by_cases h1 : k' = k
    · simp only [h1, if_true]; rw [h v (by simp [kget, h1])]
    · simp only [h1, if_false]; rw [ih fun v hv => h v (by simp [kget, h1, hv])]

/-! ## The frame -/

/-- What is issuing stands in the state that it issues in. -/
theorem Ctx.of_spec {s : State} {g : Guard} {c : Ctx} (h : Ctx.of s g = some c) :
    c.st = s ∧ s.cur = some c.key ∧ s.agent? c.key = some c.ag ∧ c.ag.ctl.headRun = some (c.pc, c.run) ∧
      c.act = maskOf fun l => c.run.getLsbD l && guardBit c.ag.regs g l := by
  unfold Ctx.of at h
  split at h
  · cases h
  · next a ha =>
    split at h
    · cases h
    · next x hx =>
      split at h
      · cases h
      · next pc run hr => cases h; exact ⟨rfl, ha, hx, hr, rfl⟩

/-- The active lanes are lanes of the run. -/
theorem Ctx.of_act {s : State} {g : Guard} {c : Ctx} (h : Ctx.of s g = some c) (l : Nat) (hl : c.act.getLsbD l = true) :
    c.run.getLsbD l = true := by
  obtain ⟨-, -, -, -, ha⟩ := Ctx.of_spec h
  rw [ha] at hl
  have hl' := BitVec.lt_of_getLsbD hl
  rw [getLsbD_maskOf _ _ hl'] at hl
  simp only [Bool.and_eq_true] at hl
  exact hl.1

section Frame
variable {s : State} {F : Form} {c : Ctx} {eff : Ctx → Out}

theorem issueWith_illegal {code : Nat} (h : Ctx.of s F.g = some c) (hc : checkUses c.ag.regs.alloc F.us = some code) :
    issueWith F.g F.us F.size F.pre F.post eff s = .next (c.fault (flt code)) := by
  simp only [issueWith, h, hc]

theorem issueWith_pre {f : Flt} (h : Ctx.of s F.g = some c) (hc : checkUses c.ag.regs.alloc F.us = none)
    (hp : F.pre c = some f) : issueWith F.g F.us F.size F.pre F.post eff s = .next (c.fault f) := by
  simp only [issueWith, h, hc, hp]

theorem issueWith_pending (h : Ctx.of s F.g = some c) (hc : checkUses c.ag.regs.alloc F.us = none)
    (hp : F.pre c = none) (hw : pending c.ag.flight (guardUses F.g ++ F.us) = true) :
    issueWith F.g F.us F.size F.pre F.post eff s = .next (c.waitOn (guardUses F.g ++ F.us)) := by
  simp only [issueWith, h, hc, hp, hw, if_true]

theorem issueWith_off (h : Ctx.of s F.g = some c) (hc : checkUses c.ag.regs.alloc F.us = none)
    (hp : F.pre c = none) (hw : pending c.ag.flight (guardUses F.g ++ F.us) = false) (ha : c.act = 0#32) :
    issueWith F.g F.us F.size F.pre F.post eff s = .next (c.finish F.size id) := by
  simp only [issueWith, h, hc, hp, hw, ha, if_true, Bool.false_eq_true, if_false]

theorem issueWith_poison (h : Ctx.of s F.g = some c) (hc : checkUses c.ag.regs.alloc F.us = none)
    (hp : F.pre c = none) (hw : pending c.ag.flight (guardUses F.g ++ F.us) = false) (ha : c.act ≠ 0#32)
    (hm : poisonLanes c.ag.regs c.act F.us ≠ 0#32) :
    issueWith F.g F.us F.size F.pre F.post eff s =
      .next (c.fault ⟨codePoison, 0#64, lowLane (poisonLanes c.ag.regs c.act F.us), false, false⟩) := by
  simp only [issueWith, h, hc, hp, hw, ha, hm, if_false, Bool.false_eq_true, ne_eq, not_false_eq_true, if_true]

theorem issueWith_post {f : Flt} (h : Ctx.of s F.g = some c) (hc : checkUses c.ag.regs.alloc F.us = none)
    (hp : F.pre c = none) (hw : pending c.ag.flight (guardUses F.g ++ F.us) = false) (ha : c.act ≠ 0#32)
    (hm : poisonLanes c.ag.regs c.act F.us = 0#32) (hq : F.post (c.acquireTokens F.us) = some f) :
    issueWith F.g F.us F.size F.pre F.post eff s = .next (c.fault f) := by
  simp only [issueWith, h, hc, hp, hw, ha, hm, if_false, Bool.false_eq_true, ne_eq, not_true_eq_false, hq]

/-- An instruction that runs has its effect. -/
theorem issueWith_runs (h : Runs s F c) : issueWith F.g F.us F.size F.pre F.post eff s = eff c := by
  obtain ⟨c0, h, hc, hp, hw, ha, hm, rfl, hq⟩ := h
  simp only [issueWith, h, hc, hp, hw, ha, hm, if_false, Bool.false_eq_true, ne_eq, not_true_eq_false, hq]

end Frame

/-! ## Tokens (R131) -/

/-- A read of no token changes nothing; one of a token empties the L1 and changes what waits for reads alone. -/
theorem Ctx.acquireTokens_cases (c : Ctx) (us : List Use) :
    c.acquireTokens us = c ∨
    ∃ f, c.acquireTokens us =
      { c with ag := { c.ag with flight := f }
               st := (c.st.setAgent c.key { c.ag with flight := f }).invalL1 c.ag.core } := by
  unfold Ctx.acquireTokens
  simp only
  split
  · exact .inr ⟨_, rfl⟩
  · exact .inl rfl

theorem Ctx.acquireTokens_spec (c : Ctx) (us : List Use) :
    (c.acquireTokens us).key = c.key ∧ (c.acquireTokens us).pc = c.pc ∧ (c.acquireTokens us).run = c.run ∧
    (c.acquireTokens us).act = c.act ∧ (c.acquireTokens us).st.mem = c.st.mem ∧
    (c.acquireTokens us).st.time = c.st.time ∧
    (∃ f, (c.acquireTokens us).ag = { c.ag with flight := f }) := by
  rcases c.acquireTokens_cases us with h | ⟨f, h⟩
  · rw [h]; exact ⟨rfl, rfl, rfl, rfl, rfl, rfl, c.ag.flight, rfl⟩
  · rw [h]; exact ⟨rfl, rfl, rfl, rfl, rfl, rfl, f, rfl⟩

/-- Memory in the surroundings of an instruction that runs is the memory of the state. -/
theorem Runs.mem {s : State} {F : Form} {c : Ctx} (h : Runs s F c) : c.st.mem = s.mem := by
  obtain ⟨c0, h, -, -, -, -, -, rfl, -⟩ := h
  rw [(c0.acquireTokens_spec F.us).2.2.2.2.1, (Ctx.of_spec h).1]

/-- The agent of an instruction that runs stands in the surroundings. -/
theorem Runs.agent {s : State} {F : Form} {c : Ctx} (h : Runs s F c) : c.st.agent? c.key = some c.ag := by
  obtain ⟨c0, h, -, -, -, -, -, rfl, -⟩ := h
  obtain ⟨h1, -, h2, -, -⟩ := Ctx.of_spec h
  rcases c0.acquireTokens_cases F.us with h3 | ⟨f, h3⟩
  · rw [h3, h1]; exact h2
  · rw [h3]; simp [State.invalL1, State.agent?, State.modCore, State.setCore, State.setAgent]

/-! ## Endings -/

theorem PcsAdvanced.intro (m : Lanes) (n : Nat) (c : Ctl) : PcsAdvanced m n c.pcs (c.advance m n).pcs :=
  fun l => Ctl.pc_advance c m n l

theorem PcsJumped.intro (run m : Lanes) (n : Nat) (tgt : Nat → DWord) (c : Ctl) :
    PcsJumped run m n tgt c.pcs ((c.advance (run &&& ~~~m) n).move m tgt).pcs := by
  intro l
  have h := Ctl.pc_move (c.advance (run &&& ~~~m) n) m tgt l
  have h2 := Ctl.pc_advance c (run &&& ~~~m) n l
  unfold Ctl.pc at h h2
  rw [h, h2]
  by_cases hm : m.getLsbD l = true
  · rw [if_pos hm, if_pos hm]
  · rw [if_neg hm, if_neg hm]
    by_cases hr : run.getLsbD l = true
    · have hl := BitVec.lt_of_getLsbD hr
      rw [Bool.not_eq_true] at hm
      rw [BitVec.getLsbD_and, BitVec.getLsbD_not, hm, hr]; simp [hl]
    · rw [Bool.not_eq_true] at hr
      rw [BitVec.getLsbD_and, hr]; simp

theorem LanesWritten.intro (m : Lanes) (n : Nat) (wide : Bool) (val : Nat → DWord) (r : Regs) :
    LanesWritten m n wide val r (r.setV64 n wide m val 0#32) := by
  refine ⟨fun k l h => Regs.vlane_setV64 r n wide m val 0#32 k l h, fun k l => ?_, by simp, by simp, by simp, by simp⟩
  rw [Regs.vMark_setV64]; simp

theorem ScalarWritten.intro (n : Nat) (wide : Bool) (v : DWord) (r : Regs) :
    ScalarWritten n wide v r (r.setS64 n wide v false) :=
  ⟨fun k => Regs.sreg_setS64 r n wide v false k, fun k h => Regs.sMark_setS64 r n wide v false k h, by simp, by simp,
    by simp, by simp⟩

theorem PredWritten.intro (m : Lanes) (n : Nat) (val : Nat → Bool) (r : Regs) :
    PredWritten m n val r (r.setP n m val) := by
  refine ⟨fun k l h => ?_, rfl, rfl, rfl, rfl, rfl⟩
  rw [Regs.pred_setP r n m val k l h]
  by_cases h1 : n = k <;> by_cases h2 : m.getLsbD l = true <;> simp [h1, h2, eq_comm]

/-- Flags of lanes that raise none. -/
theorem laneFlags_zero (f : Nat → DWord) (ls : List Nat) : laneFlags (fun l => (f l, 0#5)) ls = 0#5 := by
  unfold laneFlags
  induction ls with
  | nil => rfl
  | cons a t ih => rw [List.foldl_cons, BitVec.or_zero]; exact ih

end Sys2Proof.Machine
end

