-- ==== Sys2Proof/Laws/PerInstr.lean ====
section
/-! SUPPORT. The family `RoundTrip`: of every instruction, that its fields fit the word and that the decoder reads the
instruction back from them. One lemma per constructor; the lemmas on the codes of the fields come first. -/

namespace Sys2Proof

set_option Elab.async false
set_option linter.unusedSimpArgs false

/-- Every field lies within its bits of the word (R141, R143). -/
def Fields.Fits (f : Fields) : Prop :=
  f.cls < 8 ∧ f.op < 128 ∧ f.mod < 16 ∧ f.pred < 32 ∧ f.pn < 2 ∧ f.d < 2048 ∧ f.a < 2048 ∧ f.b < 2048 ∧ f.c < 2048

/-- A word that fits is cut back into its fields. -/
theorem Fields.ofNat_toNat (f : Fields) (h : f.Fits) : Fields.ofNat f.toNat = f := by
  obtain ⟨h1, h2, h3, h4, h5, h6, h7, h8, h9⟩ := h
  unfold Fields.ofNat Fields.toNat
  congr 1 <;> omega

theorem Fields.toNat_lt (f : Fields) (h : f.Fits) : f.toNat < 18446744073709551616 := by
  obtain ⟨h1, h2, h3, h4, h5, h6, h7, h8, h9⟩ := h
  unfold Fields.toNat
  omega

theorem Guard.ofCode_code {g : Guard} (h : g.wf = true) : Guard.ofCode g.predCode g.pnCode = some g := by
  obtain ⟨p, n⟩ := g
  cases p <;> cases n <;> simp_all [Guard.wf, Guard.ofCode, Guard.predCode, Guard.pnCode]

theorem Guard.predCode_lt {g : Guard} (h : g.wf = true) : g.predCode < 32 := by
  obtain ⟨p, n⟩ := g
  cases p <;> simp_all [Guard.wf, Guard.predCode]
  omega

theorem Guard.pnCode_lt (g : Guard) : g.pnCode < 2 := by
  unfold Guard.pnCode; split <;> omega

theorem Opnd.ofCode_code {a : Opnd} (h : a.wf = true) : Opnd.ofCode a.code = a := by
  cases a with
  | v n =>
    simp only [Opnd.wf, decide_eq_true_eq] at h
    show Opnd.ofCode n = _
    unfold Opnd.ofCode
    rw [if_pos h]
  | k n => 
    simp only [Opnd.wf, decide_eq_true_eq] at h
    show Opnd.ofCode (1536 + n) = _
    unfold Opnd.ofCode
    rw [if_neg (by omega), if_pos (by omega), Nat.add_sub_cancel_left]
  | s n =>
    simp only [Opnd.wf, decide_eq_true_eq] at h
    show Opnd.ofCode (1600 + n) = _
    unfold Opnd.ofCode
    rw [if_neg (by omega), if_neg (by omega), if_pos (by omega), Nat.add_sub_cancel_left]
  | p n =>
    simp only [Opnd.wf, decide_eq_true_eq] at h
    show Opnd.ofCode (1856 + n) = _
    unfold Opnd.ofCode
    rw [if_neg (by omega), if_neg (by omega), if_neg (by omega), if_pos (by omega), Nat.add_sub_cancel_left]
  | ident n =>
    simp only [Opnd.wf, decide_eq_true_eq] at h
    show Opnd.ofCode (1880 + n) = _
    unfold Opnd.ofCode
    rw [if_neg (by omega), if_neg (by omega), if_neg (by omega), if_neg (by omega), if_pos (by omega), Nat.add_sub_cancel_left]
  | reserved n =>
    simp only [Opnd.wf, decide_eq_true_eq, Bool.and_eq_true] at h
    show Opnd.ofCode (n) = _
    unfold Opnd.ofCode
    rw [if_neg (by omega), if_neg (by omega), if_neg (by omega), if_neg (by omega), if_neg (by omega)]

theorem Opnd.code_lt {a : Opnd} (h : a.wf = true) : a.code < 2048 := by
  cases a <;> simp only [Opnd.wf, decide_eq_true_eq, Bool.and_eq_true] at h <;> simp only [Opnd.code] <;> omega

@[simp] theorem Rm.ofCode_code (r : Rm) : Rm.ofCode r.code = some r := by cases r <;> rfl
@[simp] theorem CC.ofCode_code (r : CC) : CC.ofCode r.code = some r := by cases r <;> rfl
@[simp] theorem ITy.ofCode_code (r : ITy) : ITy.ofCode r.code = some r := by cases r <;> rfl
@[simp] theorem Buf.ofCode_code (r : Buf) : Buf.ofCode r.code = some r := by cases r <;> rfl
@[simp] theorem Rep.ofCode_code (r : Rep) : Rep.ofCode r.code = some r := by cases r <;> rfl
@[simp] theorem Ty.ofCode_code (r : Ty) : Ty.ofCode r.code = some r := by
  cases r with
  | int t => cases t <;> rfl
  | flt t => cases t <;> rfl
theorem Rm.code_lt (r : Rm) : r.code < 16 := by cases r <;> decide
theorem CC.code_lt (r : CC) : r.code < 2048 := by cases r <;> decide
theorem ITy.code_lt (r : ITy) : r.code < 16 := by cases r <;> decide
theorem Buf.code_lt (r : Buf) : r.code < 16 := by cases r <;> decide
theorem Rep.code_lt (r : Rep) : r.code < 16 := by cases r <;> decide
theorem Ty.code_lt (r : Ty) : r.code < 16 := by
  cases r with
  | int t => cases t <;> decide
  | flt t => cases t <;> decide

@[simp] theorem cvtC_src (t : Ty) (r : Rm) : cvtC t r % 16 = t.code := by
  have := t.code_lt
  unfold cvtC; omega
@[simp] theorem cvtC_rm (t : Ty) (r : Rm) : cvtC t r / 16 = r.code := by
  have := t.code_lt
  unfold cvtC; omega
theorem cvtC_lt (t : Ty) (r : Rm) : cvtC t r < 2048 := by
  have := t.code_lt
  have := r.code_lt
  unfold cvtC; omega

@[simp] theorem orderM_order (o : Order) (sc : Scope) : Order.ofCode (orderM o sc / 4) = o := by cases o <;> cases sc <;> rfl
@[simp] theorem orderM_scope (o : Order) (sc : Scope) : Scope.ofCode (orderM o sc % 4) = sc := by cases o <;> cases sc <;> rfl
theorem orderM_lt (o : Order) (sc : Scope) : orderM o sc < 16 := by cases o <;> cases sc <;> decide

@[simp] theorem atomC_op (o : AOp) (k : AKind) : AOp.ofCode (atomC o k / 8) = some o := by cases o <;> cases k <;> rfl
@[simp] theorem atomC_kind (o : AOp) (k : AKind) : AKind.ofCode (atomC o k % 8) = some k := by cases o <;> cases k <;> rfl
theorem atomC_lt (o : AOp) (k : AKind) : atomC o k < 2048 := by cases o <;> cases k <;> decide

theorem Qual.ofCode_code {q : Qual} (h : q.wf = true) : Qual.ofCode q.code = some q := by
  obtain ⟨c, l⟩ := q
  simp only [Qual.wf, decide_eq_true_eq] at h
  cases l <;> simp [Qual.ofCode, Qual.code] <;> omega
theorem Qual.code_lt {q : Qual} (h : q.wf = true) : q.code < 8 := by
  obtain ⟨c, l⟩ := q
  simp only [Qual.wf, decide_eq_true_eq] at h
  cases l <;> simp [Qual.code] <;> omega
theorem copyQual_code {q : Qual} (h : q.wf = true) : copyQual q.code = q := by
  obtain ⟨c, l⟩ := q
  simp only [Qual.wf, decide_eq_true_eq] at h
  cases l <;> simp [copyQual, Qual.code] <;> omega

theorem copyQual_add (n : Nat) : copyQual n = copyQual (n + 8) := by
  unfold copyQual; congr 1 <;> [skip; congr 1] <;> omega

theorem signedOf_code {h : Nat} {x : Int} (h0 : 0 < h) (h1 : -(h : Int) ≤ x) (h2 : x < h) : signedOf h (signedCode h x) = x := by
  unfold signedOf signedCode
  rcases Int.lt_or_le x 0 with hx | hx
  · have e : x % ((2 * h : Nat) : Int) = x + (2 * h : Nat) := by
      rw [← Int.add_emod_right, Int.emod_eq_of_lt] <;> omega
    rw [e]
    rw [if_neg (by omega)]
    omega
  · have e : x % ((2 * h : Nat) : Int) = x := Int.emod_eq_of_lt hx (by omega)
    rw [e, if_pos (by omega)]
    omega
theorem signedOf_off {x : Int} (h : offWf x = true) : signedOf 1024 (signedCode 1024 x) = x := by
  simp only [offWf, Bool.and_eq_true, decide_eq_true_eq] at h
  exact signedOf_code (by omega) (by omega) (by omega)
theorem signedOf_imm {x : Int} (h : immWf x = true) : signedOf 2097152 (signedCode 2097152 x) = x := by
  simp only [immWf, Bool.and_eq_true, decide_eq_true_eq] at h
  exact signedOf_code (by omega) (by omega) (by omega)
theorem signedOf_call {x : Int} (h : callWf x = true) : signedOf 2147483648 (signedCode 2147483648 x) = x := by
  simp only [callWf, Bool.and_eq_true, decide_eq_true_eq] at h
  exact signedOf_code (by omega) (by omega) (by omega)
theorem signedCode_lt (h : Nat) (x : Int) (h0 : 0 < h) : signedCode h x < 2 * h := by
  have := Int.emod_lt_of_pos x (b := ((2 * h : Nat) : Int)) (by omega)
  have := Int.emod_nonneg x (b := ((2 * h : Nat) : Int)) (by omega)
  unfold signedCode; omega

@[simp] theorem imm22_parts (n : Nat) : imm22 (n / 2048) (n % 2048) = n := by unfold imm22; omega

theorem CmdFrame.m3_lt (f : CmdFrame) : f.m3 < 2 := by
  unfold CmdFrame.m3; split <;> omega
theorem CmdFrame.ssCode_lt {f : CmdFrame} (h : f.wf = true) : f.ssCode < 32 := by
  obtain ⟨w, ss, bar⟩ := f
  cases ss <;> simp_all [CmdFrame.wf, CmdFrame.ssCode]
  omega
theorem CmdFrame.barCode_lt {f : CmdFrame} (h : f.wf = true) : f.barCode < 64 := by
  obtain ⟨w, ss, bar⟩ := f
  cases bar <;> simp_all [CmdFrame.wf, CmdFrame.barCode]

theorem CmdFrame.ofCode_code {f : CmdFrame} (h : f.wf = true) (x : Nat) (hx : x < 64) :
    CmdFrame.ofCode f.m3 (f.wm.toNat / 32) (f.wm.toNat % 32 * 64 + f.ssCode * 2 + f.barCode / 32) (f.barCode % 32 * 64 + x) =
      some f := by
  have hw := f.wm.isLt
  have hs : f.ssCode < 32 ∧ (∀ n, f.ss = some n → f.ssCode = n ∧ n < 16) ∧ (f.ss = Option.none → f.ssCode = 31) := by
    obtain ⟨w, ss, bar⟩ := f
    cases ss <;> simp_all [CmdFrame.wf, CmdFrame.ssCode]
    omega
  have hb : f.barCode < 64 ∧ (∀ n, f.bar = some n → f.barCode = n ∧ f.m3 = 1) ∧
      (f.bar = Option.none → f.barCode = 0 ∧ f.m3 = 0) := by
    obtain ⟨w, ss, bar⟩ := f
    cases bar <;> simp_all [CmdFrame.wf, CmdFrame.barCode, CmdFrame.m3]
  have e1 : f.wm.toNat / 32 * 32 + (f.wm.toNat % 32 * 64 + f.ssCode * 2 + f.barCode / 32) / 64 = f.wm.toNat := by omega
  have e2 : (f.wm.toNat % 32 * 64 + f.ssCode * 2 + f.barCode / 32) / 2 % 32 = f.ssCode := by omega
  have e3 : (f.wm.toNat % 32 * 64 + f.ssCode * 2 + f.barCode / 32) % 2 * 32 + (f.barCode % 32 * 64 + x) / 64 = f.barCode := by
    omega
  unfold CmdFrame.ofCode
  simp only [e1, e2, e3, BitVec.ofNat_toNat, BitVec.setWidth_eq]
  obtain ⟨w, ss, bar⟩ := f
  cases ss <;> cases bar <;> simp_all
/-- Of an instruction of the architecture: its fields fit the word, and the decoder reads it back from them. -/
def Laws.RoundTrip.Statement (i : Instr) : Prop :=
  i.wf = true → ∀ f, encodeFields i = some f → f.Fits ∧ decodeFields f ((encodeSecond i).getD 0#64).toNat = some i

namespace Laws.RoundTrip

theorem vaddF (g : Guard) (f : FTy) (rm : Rm) (d : Opnd) (a : Opnd) (b : Opnd) : Statement (.vaddF g f rm d a b) := by
  intro h x hx
  cases hx
  replace h : (wf3 g d a b) = true := h
  simp only [wf3, Bool.and_eq_true] at h
  obtain ⟨⟨⟨hg, hd⟩, ha⟩, hb⟩ := h
  have b0 := Guard.predCode_lt hg
  have b1 := g.pnCode_lt
  have b2 := Opnd.code_lt hd
  have b3 := Opnd.code_lt ha
  have b4 := Opnd.code_lt hb
  have b5 := rm.code_lt
  cases f <;> refine ⟨?_, ?_⟩
  all_goals first
    | (simp only [Fields.Fits, Fields.mkA, FTy.op]; omega)
    | simp [decodeFields, Fields.mkA, decodeC0, decodeV4, need, FTy.op, FTy.ofOp, Guard.ofCode_code hg,
        Opnd.ofCode_code hd, Opnd.ofCode_code ha, Opnd.ofCode_code hb, *]

theorem vsubF (g : Guard) (f : FTy) (rm : Rm) (d : Opnd) (a : Opnd) (b : Opnd) : Statement (.vsubF g f rm d a b) := by
  intro h x hx
  cases hx
  replace h : (wf3 g d a b) = true := h
  simp only [wf3, Bool.and_eq_true] at h
  obtain ⟨⟨⟨hg, hd⟩, ha⟩, hb⟩ := h
  have b0 := Guard.predCode_lt hg
  have b1 := g.pnCode_lt
  have b2 := Opnd.code_lt hd
  have b3 := Opnd.code_lt ha
  have b4 := Opnd.code_lt hb
  have b5 := rm.code_lt
  cases f <;> refine ⟨?_, ?_⟩
  all_goals first
    | (simp only [Fields.Fits, Fields.mkA, FTy.op]; omega)
    | simp [decodeFields, Fields.mkA, decodeC0, decodeV4, need, FTy.op, FTy.ofOp, Guard.ofCode_code hg,
        Opnd.ofCode_code hd, Opnd.ofCode_code ha, Opnd.ofCode_code hb, *]

theorem vmulF (g : Guard) (f : FTy) (rm : Rm) (d : Opnd) (a : Opnd) (b : Opnd) : Statement (.vmulF g f rm d a b) := by
  intro h x hx
  cases hx
  replace h : (wf3 g d a b) = true := h
  simp only [wf3, Bool.and_eq_true] at h
  obtain ⟨⟨⟨hg, hd⟩, ha⟩, hb⟩ := h
  have b0 := Guard.predCode_lt hg
  have b1 := g.pnCode_lt
  have b2 := Opnd.code_lt hd
  have b3 := Opnd.code_lt ha
  have b4 := Opnd.code_lt hb
  have b5 := rm.code_lt
  cases f <;> refine ⟨?_, ?_⟩
  all_goals first
    | (simp only [Fields.Fits, Fields.mkA, FTy.op]; omega)
    | simp [decodeFields, Fields.mkA, decodeC0, decodeV4, need, FTy.op, FTy.ofOp, Guard.ofCode_code hg,
        Opnd.ofCode_code hd, Opnd.ofCode_code ha, Opnd.ofCode_code hb, *]

theorem vfmaF (g : Guard) (f : FTy) (rm : Rm) (d : Opnd) (a : Opnd) (b : Opnd) (c : Opnd) : Statement (.vfmaF g f rm d
    a b c) := by
  intro h x hx
  cases hx
  replace h : (wf4 g d a b c) = true := h
  simp only [wf4, Bool.and_eq_true] at h
  obtain ⟨⟨⟨⟨hg, hd⟩, ha⟩, hb⟩, hc⟩ := h
  have b0 := Guard.predCode_lt hg
  have b1 := g.pnCode_lt
  have b2 := Opnd.code_lt hd
  have b3 := Opnd.code_lt ha
  have b4 := Opnd.code_lt hb
  have b5 := Opnd.code_lt hc
  have b6 := rm.code_lt
  cases f <;> refine ⟨?_, ?_⟩
  all_goals first
    | (simp only [Fields.Fits, Fields.mkA, FTy.op]; omega)
    | simp [decodeFields, Fields.mkA, decodeC0, decodeV4, need, FTy.op, FTy.ofOp, Guard.ofCode_code hg,
        Opnd.ofCode_code hd, Opnd.ofCode_code ha, Opnd.ofCode_code hb, Opnd.ofCode_code hc, *]

theorem vminF (g : Guard) (f : FTy) (d : Opnd) (a : Opnd) (b : Opnd) : Statement (.vminF g f d a b) := by
  intro h x hx
  cases hx
  replace h : (wf3 g d a b) = true := h
  simp only [wf3, Bool.and_eq_true] at h
  obtain ⟨⟨⟨hg, hd⟩, ha⟩, hb⟩ := h
  have b0 := Guard.predCode_lt hg
  have b1 := g.pnCode_lt
  have b2 := Opnd.code_lt hd
  have b3 := Opnd.code_lt ha
  have b4 := Opnd.code_lt hb
  cases f <;> refine ⟨?_, ?_⟩
  all_goals first
    | (simp only [Fields.Fits, Fields.mkA, FTy.op]; omega)
    | simp [decodeFields, Fields.mkA, decodeC0, decodeV4, need, FTy.op, FTy.ofOp, Guard.ofCode_code hg,
        Opnd.ofCode_code hd, Opnd.ofCode_code ha, Opnd.ofCode_code hb, *]

theorem vmaxF (g : Guard) (f : FTy) (d : Opnd) (a : Opnd) (b : Opnd) : Statement (.vmaxF g f d a b) := by
  intro h x hx
  cases hx
  replace h : (wf3 g d a b) = true := h
  simp only [wf3, Bool.and_eq_true] at h
  obtain ⟨⟨⟨hg, hd⟩, ha⟩, hb⟩ := h
  have b0 := Guard.predCode_lt hg
  have b1 := g.pnCode_lt
  have b2 := Opnd.code_lt hd
  have b3 := Opnd.code_lt ha
  have b4 := Opnd.code_lt hb
  cases f <;> refine ⟨?_, ?_⟩
  all_goals first
    | (simp only [Fields.Fits, Fields.mkA, FTy.op]; omega)
    | simp [decodeFields, Fields.mkA, decodeC0, decodeV4, need, FTy.op, FTy.ofOp, Guard.ofCode_code hg,
        Opnd.ofCode_code hd, Opnd.ofCode_code ha, Opnd.ofCode_code hb, *]

theorem vaddminF (g : Guard) (f : FTy) (rm : Rm) (d : Opnd) (a : Opnd) (b : Opnd) (c : Opnd) : Statement (.vaddminF g
    f rm d a b c) := by
  intro h x hx
  cases hx
  replace h : (wf4 g d a b c) = true := h
  simp only [wf4, Bool.and_eq_true] at h
  obtain ⟨⟨⟨⟨hg, hd⟩, ha⟩, hb⟩, hc⟩ := h
  have b0 := Guard.predCode_lt hg
  have b1 := g.pnCode_lt
  have b2 := Opnd.code_lt hd
  have b3 := Opnd.code_lt ha
  have b4 := Opnd.code_lt hb
  have b5 := Opnd.code_lt hc
  have b6 := rm.code_lt
  cases f <;> refine ⟨?_, ?_⟩
  all_goals first
    | (simp only [Fields.Fits, Fields.mkA, FTy.op]; omega)
    | simp [decodeFields, Fields.mkA, decodeC0, decodeV4, need, FTy.op, FTy.ofOp, Guard.ofCode_code hg,
        Opnd.ofCode_code hd, Opnd.ofCode_code ha, Opnd.ofCode_code hb, Opnd.ofCode_code hc, *]

theorem vmaxaddF (g : Guard) (f : FTy) (rm : Rm) (d : Opnd) (a : Opnd) (b : Opnd) (c : Opnd) : Statement (.vmaxaddF g
    f rm d a b c) := by
  intro h x hx
  cases hx
  replace h : (wf4 g d a b c) = true := h
  simp only [wf4, Bool.and_eq_true] at h
  obtain ⟨⟨⟨⟨hg, hd⟩, ha⟩, hb⟩, hc⟩ := h
  have b0 := Guard.predCode_lt hg
  have b1 := g.pnCode_lt
  have b2 := Opnd.code_lt hd
  have b3 := Opnd.code_lt ha
  have b4 := Opnd.code_lt hb
  have b5 := Opnd.code_lt hc
  have b6 := rm.code_lt
  cases f <;> refine ⟨?_, ?_⟩
  all_goals first
    | (simp only [Fields.Fits, Fields.mkA, FTy.op]; omega)
    | simp [decodeFields, Fields.mkA, decodeC0, decodeV4, need, FTy.op, FTy.ofOp, Guard.ofCode_code hg,
        Opnd.ofCode_code hd, Opnd.ofCode_code ha, Opnd.ofCode_code hb, Opnd.ofCode_code hc, *]

theorem vcmpF (g : Guard) (f : FTy) (cc : CC) (d : Opnd) (a : Opnd) (b : Opnd) : Statement (.vcmpF g f cc d a b) := by
  intro h x hx
  cases hx
  replace h : (wf3 g d a b) = true := h
  simp only [wf3, Bool.and_eq_true] at h
  obtain ⟨⟨⟨hg, hd⟩, ha⟩, hb⟩ := h
  have b0 := Guard.predCode_lt hg
  have b1 := g.pnCode_lt
  have b2 := Opnd.code_lt hd
  have b3 := Opnd.code_lt ha
  have b4 := Opnd.code_lt hb
  have b5 := cc.code_lt
  cases f <;> refine ⟨?_, ?_⟩
  all_goals first
    | (simp only [Fields.Fits, Fields.mkA, FTy.op]; omega)
    | simp [decodeFields, Fields.mkA, decodeC0, decodeV4, need, FTy.op, FTy.ofOp, Guard.ofCode_code hg,
        Opnd.ofCode_code hd, Opnd.ofCode_code ha, Opnd.ofCode_code hb, *]

theorem vrndi (g : Guard) (f : FTy) (rm : Rm) (d : Opnd) (a : Opnd) : Statement (.vrndi g f rm d a) := by
  intro h x hx
  cases hx
  replace h : (wf2 g d a) = true := h
  simp only [wf2, Bool.and_eq_true] at h
  obtain ⟨⟨hg, hd⟩, ha⟩ := h
  have b0 := Guard.predCode_lt hg
  have b1 := g.pnCode_lt
  have b2 := Opnd.code_lt hd
  have b3 := Opnd.code_lt ha
  have b4 := rm.code_lt
  cases f <;> refine ⟨?_, ?_⟩
  all_goals first
    | (simp only [Fields.Fits, Fields.mkA, FTy.op]; omega)
    | simp [decodeFields, Fields.mkA, decodeC0, decodeV4, need, FTy.op, FTy.ofOp, Guard.ofCode_code hg,
        Opnd.ofCode_code hd, Opnd.ofCode_code ha, *]

theorem vldexp (g : Guard) (f : FTy) (rm : Rm) (d : Opnd) (a : Opnd) (b : Opnd) : Statement (.vldexp g f rm d a b) :=
    by
  intro h x hx
  cases hx
  replace h : (wf3 g d a b) = true := h
  simp only [wf3, Bool.and_eq_true] at h
  obtain ⟨⟨⟨hg, hd⟩, ha⟩, hb⟩ := h
  have b0 := Guard.predCode_lt hg
  have b1 := g.pnCode_lt
  have b2 := Opnd.code_lt hd
  have b3 := Opnd.code_lt ha
  have b4 := Opnd.code_lt hb
  have b5 := rm.code_lt
  cases f <;> refine ⟨?_, ?_⟩
  all_goals first
    | (simp only [Fields.Fits, Fields.mkA, FTy.op]; omega)
    | simp [decodeFields, Fields.mkA, decodeC0, decodeV4, need, FTy.op, FTy.ofOp, Guard.ofCode_code hg,
        Opnd.ofCode_code hd, Opnd.ofCode_code ha, Opnd.ofCode_code hb, *]

theorem vgetexp (g : Guard) (f : FTy) (d : Opnd) (a : Opnd) : Statement (.vgetexp g f d a) := by
  intro h x hx
  cases hx
  replace h : (wf2 g d a) = true := h
  simp only [wf2, Bool.and_eq_true] at h
  obtain ⟨⟨hg, hd⟩, ha⟩ := h
  have b0 := Guard.predCode_lt hg
  have b1 := g.pnCode_lt
  have b2 := Opnd.code_lt hd
  have b3 := Opnd.code_lt ha
  cases f <;> refine ⟨?_, ?_⟩
  all_goals first
    | (simp only [Fields.Fits, Fields.mkA, FTy.op]; omega)
    | simp [decodeFields, Fields.mkA, decodeC0, decodeV4, need, FTy.op, FTy.ofOp, Guard.ofCode_code hg,
        Opnd.ofCode_code hd, Opnd.ofCode_code ha, *]

theorem vnegF (g : Guard) (f : FTy) (d : Opnd) (a : Opnd) : Statement (.vnegF g f d a) := by
  intro h x hx
  cases hx
  replace h : (wf2 g d a) = true := h
  simp only [wf2, Bool.and_eq_true] at h
  obtain ⟨⟨hg, hd⟩, ha⟩ := h
  have b0 := Guard.predCode_lt hg
  have b1 := g.pnCode_lt
  have b2 := Opnd.code_lt hd
  have b3 := Opnd.code_lt ha
  cases f <;> refine ⟨?_, ?_⟩
  all_goals first
    | (simp only [Fields.Fits, Fields.mkA, FTy.op]; omega)
    | simp [decodeFields, Fields.mkA, decodeC0, decodeV4, need, FTy.op, FTy.ofOp, Guard.ofCode_code hg,
        Opnd.ofCode_code hd, Opnd.ofCode_code ha, *]

theorem vabsF (g : Guard) (f : FTy) (d : Opnd) (a : Opnd) : Statement (.vabsF g f d a) := by
  intro h x hx
  cases hx
  replace h : (wf2 g d a) = true := h
  simp only [wf2, Bool.and_eq_true] at h
  obtain ⟨⟨hg, hd⟩, ha⟩ := h
  have b0 := Guard.predCode_lt hg
  have b1 := g.pnCode_lt
  have b2 := Opnd.code_lt hd
  have b3 := Opnd.code_lt ha
  cases f <;> refine ⟨?_, ?_⟩
  all_goals first
    | (simp only [Fields.Fits, Fields.mkA, FTy.op]; omega)
    | simp [decodeFields, Fields.mkA, decodeC0, decodeV4, need, FTy.op, FTy.ofOp, Guard.ofCode_code hg,
        Opnd.ofCode_code hd, Opnd.ofCode_code ha, *]

theorem vrcp (g : Guard) (rm : Rm) (d : Opnd) (a : Opnd) : Statement (.vrcp g rm d a) := by
  intro h x hx
  cases hx
  replace h : (wf2 g d a) = true := h
  simp only [wf2, Bool.and_eq_true] at h
  obtain ⟨⟨hg, hd⟩, ha⟩ := h
  have b0 := Guard.predCode_lt hg
  have b1 := g.pnCode_lt
  have b2 := Opnd.code_lt hd
  have b3 := Opnd.code_lt ha
  have b4 := rm.code_lt
  refine ⟨?_, ?_⟩
  all_goals first
    | (simp only [Fields.Fits, Fields.mkA]; omega)
    | simp [decodeFields, Fields.mkA, decodeC0, need, Guard.ofCode_code hg, Opnd.ofCode_code hd, Opnd.ofCode_code ha,
        *]

theorem vrsqrt (g : Guard) (rm : Rm) (d : Opnd) (a : Opnd) : Statement (.vrsqrt g rm d a) := by
  intro h x hx
  cases hx
  replace h : (wf2 g d a) = true := h
  simp only [wf2, Bool.and_eq_true] at h
  obtain ⟨⟨hg, hd⟩, ha⟩ := h
  have b0 := Guard.predCode_lt hg
  have b1 := g.pnCode_lt
  have b2 := Opnd.code_lt hd
  have b3 := Opnd.code_lt ha
  have b4 := rm.code_lt
  refine ⟨?_, ?_⟩
  all_goals first
    | (simp only [Fields.Fits, Fields.mkA]; omega)
    | simp [decodeFields, Fields.mkA, decodeC0, need, Guard.ofCode_code hg, Opnd.ofCode_code hd, Opnd.ofCode_code ha,
        *]

theorem vfexp2 (g : Guard) (rm : Rm) (d : Opnd) (a : Opnd) : Statement (.vfexp2 g rm d a) := by
  intro h x hx
  cases hx
  replace h : (wf2 g d a) = true := h
  simp only [wf2, Bool.and_eq_true] at h
  obtain ⟨⟨hg, hd⟩, ha⟩ := h
  have b0 := Guard.predCode_lt hg
  have b1 := g.pnCode_lt
  have b2 := Opnd.code_lt hd
  have b3 := Opnd.code_lt ha
  have b4 := rm.code_lt
  refine ⟨?_, ?_⟩
  all_goals first
    | (simp only [Fields.Fits, Fields.mkA]; omega)
    | simp [decodeFields, Fields.mkA, decodeC0, need, Guard.ofCode_code hg, Opnd.ofCode_code hd, Opnd.ofCode_code ha,
        *]

theorem vlog2 (g : Guard) (rm : Rm) (d : Opnd) (a : Opnd) : Statement (.vlog2 g rm d a) := by
  intro h x hx
  cases hx
  replace h : (wf2 g d a) = true := h
  simp only [wf2, Bool.and_eq_true] at h
  obtain ⟨⟨hg, hd⟩, ha⟩ := h
  have b0 := Guard.predCode_lt hg
  have b1 := g.pnCode_lt
  have b2 := Opnd.code_lt hd
  have b3 := Opnd.code_lt ha
  have b4 := rm.code_lt
  refine ⟨?_, ?_⟩
  all_goals first
    | (simp only [Fields.Fits, Fields.mkA]; omega)
    | simp [decodeFields, Fields.mkA, decodeC0, need, Guard.ofCode_code hg, Opnd.ofCode_code hd, Opnd.ofCode_code ha,
        *]

theorem vcvt (g : Guard) (td : Ty) (ts : Ty) (rm : Rm) (d : Opnd) (a : Opnd) : Statement (.vcvt g td ts rm d a) := by
  intro h x hx
  cases hx
  replace h : (wf2 g d a && cvtWf td ts rm) = true := h
  simp only [wf2, Bool.and_eq_true] at h
  obtain ⟨⟨⟨hg, hd⟩, ha⟩, e1⟩ := h
  have b0 := Guard.predCode_lt hg
  have b1 := g.pnCode_lt
  have b2 := Opnd.code_lt hd
  have b3 := Opnd.code_lt ha
  have b4 := td.code_lt
  have b5 := ts.code_lt
  have b6 := rm.code_lt
  have b7 := cvtC_lt ts rm
  refine ⟨?_, ?_⟩
  all_goals first
    | (simp only [Fields.Fits, Fields.mkA]; omega)
    | simp [decodeFields, Fields.mkA, decodeC0, decodeCvt, need, Guard.ofCode_code hg, Opnd.ofCode_code hd,
        Opnd.ofCode_code ha, *]

theorem vdp4F16 (g : Guard) (rm : Rm) (d : Opnd) (a : Opnd) (b : Opnd) (c : Opnd) : Statement (.vdp4F16 g rm d a b c)
    := by
  intro h x hx
  cases hx
  replace h : (wf4 g d a b c) = true := h
  simp only [wf4, Bool.and_eq_true] at h
  obtain ⟨⟨⟨⟨hg, hd⟩, ha⟩, hb⟩, hc⟩ := h
  have b0 := Guard.predCode_lt hg
  have b1 := g.pnCode_lt
  have b2 := Opnd.code_lt hd
  have b3 := Opnd.code_lt ha
  have b4 := Opnd.code_lt hb
  have b5 := Opnd.code_lt hc
  have b6 := rm.code_lt
  refine ⟨?_, ?_⟩
  all_goals first
    | (simp only [Fields.Fits, Fields.mkA]; omega)
    | simp [decodeFields, Fields.mkA, decodeC0, need, Guard.ofCode_code hg, Opnd.ofCode_code hd, Opnd.ofCode_code ha,
        Opnd.ofCode_code hb, Opnd.ofCode_code hc, *]

theorem vdp4Bf16 (g : Guard) (rm : Rm) (d : Opnd) (a : Opnd) (b : Opnd) (c : Opnd) : Statement (.vdp4Bf16 g rm d a b
    c) := by
  intro h x hx
  cases hx
  replace h : (wf4 g d a b c) = true := h
  simp only [wf4, Bool.and_eq_true] at h
  obtain ⟨⟨⟨⟨hg, hd⟩, ha⟩, hb⟩, hc⟩ := h
  have b0 := Guard.predCode_lt hg
  have b1 := g.pnCode_lt
  have b2 := Opnd.code_lt hd
  have b3 := Opnd.code_lt ha
  have b4 := Opnd.code_lt hb
  have b5 := Opnd.code_lt hc
  have b6 := rm.code_lt
  refine ⟨?_, ?_⟩
  all_goals first
    | (simp only [Fields.Fits, Fields.mkA]; omega)
    | simp [decodeFields, Fields.mkA, decodeC0, need, Guard.ofCode_code hg, Opnd.ofCode_code hd, Opnd.ofCode_code ha,
        Opnd.ofCode_code hb, Opnd.ofCode_code hc, *]

theorem vdp4I8 (g : Guard) (d : Opnd) (a : Opnd) (b : Opnd) (c : Opnd) : Statement (.vdp4I8 g d a b c) := by
  intro h x hx
  cases hx
  replace h : (wf4 g d a b c) = true := h
  simp only [wf4, Bool.and_eq_true] at h
  obtain ⟨⟨⟨⟨hg, hd⟩, ha⟩, hb⟩, hc⟩ := h
  have b0 := Guard.predCode_lt hg
  have b1 := g.pnCode_lt
  have b2 := Opnd.code_lt hd
  have b3 := Opnd.code_lt ha
  have b4 := Opnd.code_lt hb
  have b5 := Opnd.code_lt hc
  refine ⟨?_, ?_⟩
  all_goals first
    | (simp only [Fields.Fits, Fields.mkA]; omega)
    | simp [decodeFields, Fields.mkA, decodeC0, need, Guard.ofCode_code hg, Opnd.ofCode_code hd, Opnd.ofCode_code ha,
        Opnd.ofCode_code hb, Opnd.ofCode_code hc, *]

theorem vcbxCb3 (g : Guard) (d : Opnd) (a : Opnd) (b : Opnd) (c : Opnd) : Statement (.vcbxCb3 g d a b c) := by
  intro h x hx
  cases hx
  replace h : (wf4 g d a b c) = true := h
  simp only [wf4, Bool.and_eq_true] at h
  obtain ⟨⟨⟨⟨hg, hd⟩, ha⟩, hb⟩, hc⟩ := h
  have b0 := Guard.predCode_lt hg
  have b1 := g.pnCode_lt
  have b2 := Opnd.code_lt hd
  have b3 := Opnd.code_lt ha
  have b4 := Opnd.code_lt hb
  have b5 := Opnd.code_lt hc
  refine ⟨?_, ?_⟩
  all_goals first
    | (simp only [Fields.Fits, Fields.mkA]; omega)
    | simp [decodeFields, Fields.mkA, decodeC0, need, Guard.ofCode_code hg, Opnd.ofCode_code hd, Opnd.ofCode_code ha,
        Opnd.ofCode_code hb, Opnd.ofCode_code hc, *]

theorem vcbxCb4 (g : Guard) (d : Opnd) (a : Opnd) (b : Opnd) (c : Opnd) : Statement (.vcbxCb4 g d a b c) := by
  intro h x hx
  cases hx
  replace h : (wf4 g d a b c) = true := h
  simp only [wf4, Bool.and_eq_true] at h
  obtain ⟨⟨⟨⟨hg, hd⟩, ha⟩, hb⟩, hc⟩ := h
  have b0 := Guard.predCode_lt hg
  have b1 := g.pnCode_lt
  have b2 := Opnd.code_lt hd
  have b3 := Opnd.code_lt ha
  have b4 := Opnd.code_lt hb
  have b5 := Opnd.code_lt hc
  refine ⟨?_, ?_⟩
  all_goals first
    | (simp only [Fields.Fits, Fields.mkA]; omega)
    | simp [decodeFields, Fields.mkA, decodeC0, need, Guard.ofCode_code hg, Opnd.ofCode_code hd, Opnd.ofCode_code ha,
        Opnd.ofCode_code hb, Opnd.ofCode_code hc, *]

theorem vaddT (g : Guard) (t : ITy) (d : Opnd) (a : Opnd) (b : Opnd) : Statement (.vaddT g t d a b) := by
  intro h x hx
  cases hx
  replace h : (wf3 g d a b) = true := h
  simp only [wf3, Bool.and_eq_true] at h
  obtain ⟨⟨⟨hg, hd⟩, ha⟩, hb⟩ := h
  have b0 := Guard.predCode_lt hg
  have b1 := g.pnCode_lt
  have b2 := Opnd.code_lt hd
  have b3 := Opnd.code_lt ha
  have b4 := Opnd.code_lt hb
  have b5 := t.code_lt
  refine ⟨?_, ?_⟩
  all_goals first
    | (simp only [Fields.Fits, Fields.mkA]; omega)
    | simp [decodeFields, Fields.mkA, decodeC0, decodeVI, need, Guard.ofCode_code hg, Opnd.ofCode_code hd,
        Opnd.ofCode_code ha, Opnd.ofCode_code hb, *]

theorem vsubT (g : Guard) (t : ITy) (d : Opnd) (a : Opnd) (b : Opnd) : Statement (.vsubT g t d a b) := by
  intro h x hx
  cases hx
  replace h : (wf3 g d a b) = true := h
  simp only [wf3, Bool.and_eq_true] at h
  obtain ⟨⟨⟨hg, hd⟩, ha⟩, hb⟩ := h
  have b0 := Guard.predCode_lt hg
  have b1 := g.pnCode_lt
  have b2 := Opnd.code_lt hd
  have b3 := Opnd.code_lt ha
  have b4 := Opnd.code_lt hb
  have b5 := t.code_lt
  refine ⟨?_, ?_⟩
  all_goals first
    | (simp only [Fields.Fits, Fields.mkA]; omega)
    | simp [decodeFields, Fields.mkA, decodeC0, decodeVI, need, Guard.ofCode_code hg, Opnd.ofCode_code hd,
        Opnd.ofCode_code ha, Opnd.ofCode_code hb, *]

theorem vmulT (g : Guard) (t : ITy) (d : Opnd) (a : Opnd) (b : Opnd) : Statement (.vmulT g t d a b) := by
  intro h x hx
  cases hx
  replace h : (wf3 g d a b) = true := h
  simp only [wf3, Bool.and_eq_true] at h
  obtain ⟨⟨⟨hg, hd⟩, ha⟩, hb⟩ := h
  have b0 := Guard.predCode_lt hg
  have b1 := g.pnCode_lt
  have b2 := Opnd.code_lt hd
  have b3 := Opnd.code_lt ha
  have b4 := Opnd.code_lt hb
  have b5 := t.code_lt
  refine ⟨?_, ?_⟩
  all_goals first
    | (simp only [Fields.Fits, Fields.mkA]; omega)
    | simp [decodeFields, Fields.mkA, decodeC0, decodeVI, need, Guard.ofCode_code hg, Opnd.ofCode_code hd,
        Opnd.ofCode_code ha, Opnd.ofCode_code hb, *]

theorem vmulhi (g : Guard) (t : ITy) (d : Opnd) (a : Opnd) (b : Opnd) : Statement (.vmulhi g t d a b) := by
  intro h x hx
  cases hx
  replace h : (wf3 g d a b) = true := h
  simp only [wf3, Bool.and_eq_true] at h
  obtain ⟨⟨⟨hg, hd⟩, ha⟩, hb⟩ := h
  have b0 := Guard.predCode_lt hg
  have b1 := g.pnCode_lt
  have b2 := Opnd.code_lt hd
  have b3 := Opnd.code_lt ha
  have b4 := Opnd.code_lt hb
  have b5 := t.code_lt
  refine ⟨?_, ?_⟩
  all_goals first
    | (simp only [Fields.Fits, Fields.mkA]; omega)
    | simp [decodeFields, Fields.mkA, decodeC0, decodeVI, need, Guard.ofCode_code hg, Opnd.ofCode_code hd,
        Opnd.ofCode_code ha, Opnd.ofCode_code hb, *]

theorem vmad (g : Guard) (t : ITy) (d : Opnd) (a : Opnd) (b : Opnd) (c : Opnd) : Statement (.vmad g t d a b c) := by
  intro h x hx
  cases hx
  replace h : (wf4 g d a b c) = true := h
  simp only [wf4, Bool.and_eq_true] at h
  obtain ⟨⟨⟨⟨hg, hd⟩, ha⟩, hb⟩, hc⟩ := h
  have b0 := Guard.predCode_lt hg
  have b1 := g.pnCode_lt
  have b2 := Opnd.code_lt hd
  have b3 := Opnd.code_lt ha
  have b4 := Opnd.code_lt hb
  have b5 := Opnd.code_lt hc
  have b6 := t.code_lt
  refine ⟨?_, ?_⟩
  all_goals first
    | (simp only [Fields.Fits, Fields.mkA]; omega)
    | simp [decodeFields, Fields.mkA, decodeC0, decodeVI, need, Guard.ofCode_code hg, Opnd.ofCode_code hd,
        Opnd.ofCode_code ha, Opnd.ofCode_code hb, Opnd.ofCode_code hc, *]

theorem vminT (g : Guard) (t : ITy) (d : Opnd) (a : Opnd) (b : Opnd) : Statement (.vminT g t d a b) := by
  intro h x hx
  cases hx
  replace h : (wf3 g d a b) = true := h
  simp only [wf3, Bool.and_eq_true] at h
  obtain ⟨⟨⟨hg, hd⟩, ha⟩, hb⟩ := h
  have b0 := Guard.predCode_lt hg
  have b1 := g.pnCode_lt
  have b2 := Opnd.code_lt hd
  have b3 := Opnd.code_lt ha
  have b4 := Opnd.code_lt hb
  have b5 := t.code_lt
  refine ⟨?_, ?_⟩
  all_goals first
    | (simp only [Fields.Fits, Fields.mkA]; omega)
    | simp [decodeFields, Fields.mkA, decodeC0, decodeVI, need, Guard.ofCode_code hg, Opnd.ofCode_code hd,
        Opnd.ofCode_code ha, Opnd.ofCode_code hb, *]

theorem vmaxT (g : Guard) (t : ITy) (d : Opnd) (a : Opnd) (b : Opnd) : Statement (.vmaxT g t d a b) := by
  intro h x hx
  cases hx
  replace h : (wf3 g d a b) = true := h
  simp only [wf3, Bool.and_eq_true] at h
  obtain ⟨⟨⟨hg, hd⟩, ha⟩, hb⟩ := h
  have b0 := Guard.predCode_lt hg
  have b1 := g.pnCode_lt
  have b2 := Opnd.code_lt hd
  have b3 := Opnd.code_lt ha
  have b4 := Opnd.code_lt hb
  have b5 := t.code_lt
  refine ⟨?_, ?_⟩
  all_goals first
    | (simp only [Fields.Fits, Fields.mkA]; omega)
    | simp [decodeFields, Fields.mkA, decodeC0, decodeVI, need, Guard.ofCode_code hg, Opnd.ofCode_code hd,
        Opnd.ofCode_code ha, Opnd.ofCode_code hb, *]

theorem vabsT (g : Guard) (t : ITy) (d : Opnd) (a : Opnd) : Statement (.vabsT g t d a) := by
  intro h x hx
  cases hx
  replace h : (wf2 g d a) = true := h
  simp only [wf2, Bool.and_eq_true] at h
  obtain ⟨⟨hg, hd⟩, ha⟩ := h
  have b0 := Guard.predCode_lt hg
  have b1 := g.pnCode_lt
  have b2 := Opnd.code_lt hd
  have b3 := Opnd.code_lt ha
  have b4 := t.code_lt
  refine ⟨?_, ?_⟩
  all_goals first
    | (simp only [Fields.Fits, Fields.mkA]; omega)
    | simp [decodeFields, Fields.mkA, decodeC0, decodeVI, need, Guard.ofCode_code hg, Opnd.ofCode_code hd,
        Opnd.ofCode_code ha, *]

theorem vnegT (g : Guard) (t : ITy) (d : Opnd) (a : Opnd) : Statement (.vnegT g t d a) := by
  intro h x hx
  cases hx
  replace h : (wf2 g d a) = true := h
  simp only [wf2, Bool.and_eq_true] at h
  obtain ⟨⟨hg, hd⟩, ha⟩ := h
  have b0 := Guard.predCode_lt hg
  have b1 := g.pnCode_lt
  have b2 := Opnd.code_lt hd
  have b3 := Opnd.code_lt ha
  have b4 := t.code_lt
  refine ⟨?_, ?_⟩
  all_goals first
    | (simp only [Fields.Fits, Fields.mkA]; omega)
    | simp [decodeFields, Fields.mkA, decodeC0, decodeVI, need, Guard.ofCode_code hg, Opnd.ofCode_code hd,
        Opnd.ofCode_code ha, *]

theorem vaddminT (g : Guard) (t : ITy) (d : Opnd) (a : Opnd) (b : Opnd) (c : Opnd) : Statement (.vaddminT g t d a b c)
    := by
  intro h x hx
  cases hx
  replace h : (wf4 g d a b c) = true := h
  simp only [wf4, Bool.and_eq_true] at h
  obtain ⟨⟨⟨⟨hg, hd⟩, ha⟩, hb⟩, hc⟩ := h
  have b0 := Guard.predCode_lt hg
  have b1 := g.pnCode_lt
  have b2 := Opnd.code_lt hd
  have b3 := Opnd.code_lt ha
  have b4 := Opnd.code_lt hb
  have b5 := Opnd.code_lt hc
  have b6 := t.code_lt
  refine ⟨?_, ?_⟩
  all_goals first
    | (simp only [Fields.Fits, Fields.mkA]; omega)
    | simp [decodeFields, Fields.mkA, decodeC0, decodeVI, need, Guard.ofCode_code hg, Opnd.ofCode_code hd,
        Opnd.ofCode_code ha, Opnd.ofCode_code hb, Opnd.ofCode_code hc, *]

theorem vmaxaddT (g : Guard) (t : ITy) (d : Opnd) (a : Opnd) (b : Opnd) (c : Opnd) : Statement (.vmaxaddT g t d a b c)
    := by
  intro h x hx
  cases hx
  replace h : (wf4 g d a b c) = true := h
  simp only [wf4, Bool.and_eq_true] at h
  obtain ⟨⟨⟨⟨hg, hd⟩, ha⟩, hb⟩, hc⟩ := h
  have b0 := Guard.predCode_lt hg
  have b1 := g.pnCode_lt
  have b2 := Opnd.code_lt hd
  have b3 := Opnd.code_lt ha
  have b4 := Opnd.code_lt hb
  have b5 := Opnd.code_lt hc
  have b6 := t.code_lt
  refine ⟨?_, ?_⟩
  all_goals first
    | (simp only [Fields.Fits, Fields.mkA]; omega)
    | simp [decodeFields, Fields.mkA, decodeC0, decodeVI, need, Guard.ofCode_code hg, Opnd.ofCode_code hd,
        Opnd.ofCode_code ha, Opnd.ofCode_code hb, Opnd.ofCode_code hc, *]

theorem vcmpT (g : Guard) (t : ITy) (cc : CC) (d : Opnd) (a : Opnd) (b : Opnd) : Statement (.vcmpT g t cc d a b) := by
  intro h x hx
  cases hx
  replace h : (wf3 g d a b && cc.isInt) = true := h
  simp only [wf3, Bool.and_eq_true] at h
  obtain ⟨⟨⟨⟨hg, hd⟩, ha⟩, hb⟩, e1⟩ := h
  have b0 := Guard.predCode_lt hg
  have b1 := g.pnCode_lt
  have b2 := Opnd.code_lt hd
  have b3 := Opnd.code_lt ha
  have b4 := Opnd.code_lt hb
  have b5 := t.code_lt
  have b6 := cc.code_lt
  refine ⟨?_, ?_⟩
  all_goals first
    | (simp only [Fields.Fits, Fields.mkA]; omega)
    | simp [decodeFields, Fields.mkA, decodeC0, decodeVI, need, Guard.ofCode_code hg, Opnd.ofCode_code hd,
        Opnd.ofCode_code ha, Opnd.ofCode_code hb, *]

theorem vand (g : Guard) (t : ITy) (d : Opnd) (a : Opnd) (b : Opnd) : Statement (.vand g t d a b) := by
  intro h x hx
  cases hx
  replace h : (wf3 g d a b) = true := h
  simp only [wf3, Bool.and_eq_true] at h
  obtain ⟨⟨⟨hg, hd⟩, ha⟩, hb⟩ := h
  have b0 := Guard.predCode_lt hg
  have b1 := g.pnCode_lt
  have b2 := Opnd.code_lt hd
  have b3 := Opnd.code_lt ha
  have b4 := Opnd.code_lt hb
  have b5 := t.code_lt
  refine ⟨?_, ?_⟩
  all_goals first
    | (simp only [Fields.Fits, Fields.mkA]; omega)
    | simp [decodeFields, Fields.mkA, decodeC0, decodeVI, need, Guard.ofCode_code hg, Opnd.ofCode_code hd,
        Opnd.ofCode_code ha, Opnd.ofCode_code hb, *]

theorem vor (g : Guard) (t : ITy) (d : Opnd) (a : Opnd) (b : Opnd) : Statement (.vor g t d a b) := by
  intro h x hx
  cases hx
  replace h : (wf3 g d a b) = true := h
  simp only [wf3, Bool.and_eq_true] at h
  obtain ⟨⟨⟨hg, hd⟩, ha⟩, hb⟩ := h
  have b0 := Guard.predCode_lt hg
  have b1 := g.pnCode_lt
  have b2 := Opnd.code_lt hd
  have b3 := Opnd.code_lt ha
  have b4 := Opnd.code_lt hb
  have b5 := t.code_lt
  refine ⟨?_, ?_⟩
  all_goals first
    | (simp only [Fields.Fits, Fields.mkA]; omega)
    | simp [decodeFields, Fields.mkA, decodeC0, decodeVI, need, Guard.ofCode_code hg, Opnd.ofCode_code hd,
        Opnd.ofCode_code ha, Opnd.ofCode_code hb, *]

theorem vxor (g : Guard) (t : ITy) (d : Opnd) (a : Opnd) (b : Opnd) : Statement (.vxor g t d a b) := by
  intro h x hx
  cases hx
  replace h : (wf3 g d a b) = true := h
  simp only [wf3, Bool.and_eq_true] at h
  obtain ⟨⟨⟨hg, hd⟩, ha⟩, hb⟩ := h
  have b0 := Guard.predCode_lt hg
  have b1 := g.pnCode_lt
  have b2 := Opnd.code_lt hd
  have b3 := Opnd.code_lt ha
  have b4 := Opnd.code_lt hb
  have b5 := t.code_lt
  refine ⟨?_, ?_⟩
  all_goals first
    | (simp only [Fields.Fits, Fields.mkA]; omega)
    | simp [decodeFields, Fields.mkA, decodeC0, decodeVI, need, Guard.ofCode_code hg, Opnd.ofCode_code hd,
        Opnd.ofCode_code ha, Opnd.ofCode_code hb, *]

theorem vnot (g : Guard) (t : ITy) (d : Opnd) (a : Opnd) : Statement (.vnot g t d a) := by
  intro h x hx
  cases hx
  replace h : (wf2 g d a) = true := h
  simp only [wf2, Bool.and_eq_true] at h
  obtain ⟨⟨hg, hd⟩, ha⟩ := h
  have b0 := Guard.predCode_lt hg
  have b1 := g.pnCode_lt
  have b2 := Opnd.code_lt hd
  have b3 := Opnd.code_lt ha
  have b4 := t.code_lt
  refine ⟨?_, ?_⟩
  all_goals first
    | (simp only [Fields.Fits, Fields.mkA]; omega)
    | simp [decodeFields, Fields.mkA, decodeC0, decodeVI, need, Guard.ofCode_code hg, Opnd.ofCode_code hd,
        Opnd.ofCode_code ha, *]

theorem vshl (g : Guard) (t : ITy) (d : Opnd) (a : Opnd) (b : Opnd) : Statement (.vshl g t d a b) := by
  intro h x hx
  cases hx
  replace h : (wf3 g d a b) = true := h
  simp only [wf3, Bool.and_eq_true] at h
  obtain ⟨⟨⟨hg, hd⟩, ha⟩, hb⟩ := h
  have b0 := Guard.predCode_lt hg
  have b1 := g.pnCode_lt
  have b2 := Opnd.code_lt hd
  have b3 := Opnd.code_lt ha
  have b4 := Opnd.code_lt hb
  have b5 := t.code_lt
  refine ⟨?_, ?_⟩
  all_goals first
    | (simp only [Fields.Fits, Fields.mkA]; omega)
    | simp [decodeFields, Fields.mkA, decodeC0, decodeVI, need, Guard.ofCode_code hg, Opnd.ofCode_code hd,
        Opnd.ofCode_code ha, Opnd.ofCode_code hb, *]

theorem vshr (g : Guard) (t : ITy) (d : Opnd) (a : Opnd) (b : Opnd) : Statement (.vshr g t d a b) := by
  intro h x hx
  cases hx
  replace h : (wf3 g d a b) = true := h
  simp only [wf3, Bool.and_eq_true] at h
  obtain ⟨⟨⟨hg, hd⟩, ha⟩, hb⟩ := h
  have b0 := Guard.predCode_lt hg
  have b1 := g.pnCode_lt
  have b2 := Opnd.code_lt hd
  have b3 := Opnd.code_lt ha
  have b4 := Opnd.code_lt hb
  have b5 := t.code_lt
  refine ⟨?_, ?_⟩
  all_goals first
    | (simp only [Fields.Fits, Fields.mkA]; omega)
    | simp [decodeFields, Fields.mkA, decodeC0, decodeVI, need, Guard.ofCode_code hg, Opnd.ofCode_code hd,
        Opnd.ofCode_code ha, Opnd.ofCode_code hb, *]

theorem vpopc (g : Guard) (t : ITy) (d : Opnd) (a : Opnd) : Statement (.vpopc g t d a) := by
  intro h x hx
  cases hx
  replace h : (wf2 g d a) = true := h
  simp only [wf2, Bool.and_eq_true] at h
  obtain ⟨⟨hg, hd⟩, ha⟩ := h
  have b0 := Guard.predCode_lt hg
  have b1 := g.pnCode_lt
  have b2 := Opnd.code_lt hd
  have b3 := Opnd.code_lt ha
  have b4 := t.code_lt
  refine ⟨?_, ?_⟩
  all_goals first
    | (simp only [Fields.Fits, Fields.mkA]; omega)
    | simp [decodeFields, Fields.mkA, decodeC0, decodeVI, need, Guard.ofCode_code hg, Opnd.ofCode_code hd,
        Opnd.ofCode_code ha, *]

theorem vclz (g : Guard) (t : ITy) (d : Opnd) (a : Opnd) : Statement (.vclz g t d a) := by
  intro h x hx
  cases hx
  replace h : (wf2 g d a) = true := h
  simp only [wf2, Bool.and_eq_true] at h
  obtain ⟨⟨hg, hd⟩, ha⟩ := h
  have b0 := Guard.predCode_lt hg
  have b1 := g.pnCode_lt
  have b2 := Opnd.code_lt hd
  have b3 := Opnd.code_lt ha
  have b4 := t.code_lt
  refine ⟨?_, ?_⟩
  all_goals first
    | (simp only [Fields.Fits, Fields.mkA]; omega)
    | simp [decodeFields, Fields.mkA, decodeC0, decodeVI, need, Guard.ofCode_code hg, Opnd.ofCode_code hd,
        Opnd.ofCode_code ha, *]

theorem vbfe (g : Guard) (t : ITy) (d : Opnd) (a : Opnd) (b : Opnd) (c : Opnd) : Statement (.vbfe g t d a b c) := by
  intro h x hx
  cases hx
  replace h : (wf4 g d a b c) = true := h
  simp only [wf4, Bool.and_eq_true] at h
  obtain ⟨⟨⟨⟨hg, hd⟩, ha⟩, hb⟩, hc⟩ := h
  have b0 := Guard.predCode_lt hg
  have b1 := g.pnCode_lt
  have b2 := Opnd.code_lt hd
  have b3 := Opnd.code_lt ha
  have b4 := Opnd.code_lt hb
  have b5 := Opnd.code_lt hc
  have b6 := t.code_lt
  refine ⟨?_, ?_⟩
  all_goals first
    | (simp only [Fields.Fits, Fields.mkA]; omega)
    | simp [decodeFields, Fields.mkA, decodeC0, decodeVI, need, Guard.ofCode_code hg, Opnd.ofCode_code hd,
        Opnd.ofCode_code ha, Opnd.ofCode_code hb, Opnd.ofCode_code hc, *]

theorem vbfi (g : Guard) (t : ITy) (d : Opnd) (a : Opnd) (b : Opnd) (c : Opnd) : Statement (.vbfi g t d a b c) := by
  intro h x hx
  cases hx
  replace h : (wf4 g d a b c) = true := h
  simp only [wf4, Bool.and_eq_true] at h
  obtain ⟨⟨⟨⟨hg, hd⟩, ha⟩, hb⟩, hc⟩ := h
  have b0 := Guard.predCode_lt hg
  have b1 := g.pnCode_lt
  have b2 := Opnd.code_lt hd
  have b3 := Opnd.code_lt ha
  have b4 := Opnd.code_lt hb
  have b5 := Opnd.code_lt hc
  have b6 := t.code_lt
  refine ⟨?_, ?_⟩
  all_goals first
    | (simp only [Fields.Fits, Fields.mkA]; omega)
    | simp [decodeFields, Fields.mkA, decodeC0, decodeVI, need, Guard.ofCode_code hg, Opnd.ofCode_code hd,
        Opnd.ofCode_code ha, Opnd.ofCode_code hb, Opnd.ofCode_code hc, *]

theorem vsel (g : Guard) (t : ITy) (d : Opnd) (a : Opnd) (b : Opnd) (c : Opnd) : Statement (.vsel g t d a b c) := by
  intro h x hx
  cases hx
  replace h : (wf4 g d a b c) = true := h
  simp only [wf4, Bool.and_eq_true] at h
  obtain ⟨⟨⟨⟨hg, hd⟩, ha⟩, hb⟩, hc⟩ := h
  have b0 := Guard.predCode_lt hg
  have b1 := g.pnCode_lt
  have b2 := Opnd.code_lt hd
  have b3 := Opnd.code_lt ha
  have b4 := Opnd.code_lt hb
  have b5 := Opnd.code_lt hc
  have b6 := t.code_lt
  refine ⟨?_, ?_⟩
  all_goals first
    | (simp only [Fields.Fits, Fields.mkA]; omega)
    | simp [decodeFields, Fields.mkA, decodeC0, decodeVI, need, Guard.ofCode_code hg, Opnd.ofCode_code hd,
        Opnd.ofCode_code ha, Opnd.ofCode_code hb, Opnd.ofCode_code hc, *]

theorem vmov (g : Guard) (t : ITy) (d : Opnd) (a : Opnd) : Statement (.vmov g t d a) := by
  intro h x hx
  cases hx
  replace h : (wf2 g d a) = true := h
  simp only [wf2, Bool.and_eq_true] at h
  obtain ⟨⟨hg, hd⟩, ha⟩ := h
  have b0 := Guard.predCode_lt hg
  have b1 := g.pnCode_lt
  have b2 := Opnd.code_lt hd
  have b3 := Opnd.code_lt ha
  have b4 := t.code_lt
  refine ⟨?_, ?_⟩
  all_goals first
    | (simp only [Fields.Fits, Fields.mkA]; omega)
    | simp [decodeFields, Fields.mkA, decodeC0, decodeVI, need, Guard.ofCode_code hg, Opnd.ofCode_code hd,
        Opnd.ofCode_code ha, *]

theorem vshup (g : Guard) (t : ITy) (d : Opnd) (a : Opnd) (b : Opnd) (c : Opnd) : Statement (.vshup g t d a b c) := by
  intro h x hx
  cases hx
  replace h : (wf4 g d a b c && t.isMove) = true := h
  simp only [wf4, Bool.and_eq_true] at h
  obtain ⟨⟨⟨⟨⟨hg, hd⟩, ha⟩, hb⟩, hc⟩, e1⟩ := h
  have b0 := Guard.predCode_lt hg
  have b1 := g.pnCode_lt
  have b2 := Opnd.code_lt hd
  have b3 := Opnd.code_lt ha
  have b4 := Opnd.code_lt hb
  have b5 := Opnd.code_lt hc
  have b6 := t.code_lt
  refine ⟨?_, ?_⟩
  all_goals first
    | (simp only [Fields.Fits, Fields.mkA]; omega)
    | simp [decodeFields, Fields.mkA, decodeC0, decodeVI, need, Guard.ofCode_code hg, Opnd.ofCode_code hd,
        Opnd.ofCode_code ha, Opnd.ofCode_code hb, Opnd.ofCode_code hc, *]

theorem vshdn (g : Guard) (t : ITy) (d : Opnd) (a : Opnd) (b : Opnd) (c : Opnd) : Statement (.vshdn g t d a b c) := by
  intro h x hx
  cases hx
  replace h : (wf4 g d a b c && t.isMove) = true := h
  simp only [wf4, Bool.and_eq_true] at h
  obtain ⟨⟨⟨⟨⟨hg, hd⟩, ha⟩, hb⟩, hc⟩, e1⟩ := h
  have b0 := Guard.predCode_lt hg
  have b1 := g.pnCode_lt
  have b2 := Opnd.code_lt hd
  have b3 := Opnd.code_lt ha
  have b4 := Opnd.code_lt hb
  have b5 := Opnd.code_lt hc
  have b6 := t.code_lt
  refine ⟨?_, ?_⟩
  all_goals first
    | (simp only [Fields.Fits, Fields.mkA]; omega)
    | simp [decodeFields, Fields.mkA, decodeC0, decodeVI, need, Guard.ofCode_code hg, Opnd.ofCode_code hd,
        Opnd.ofCode_code ha, Opnd.ofCode_code hb, Opnd.ofCode_code hc, *]

theorem vperm (g : Guard) (t : ITy) (d : Opnd) (a : Opnd) (b : Opnd) : Statement (.vperm g t d a b) := by
  intro h x hx
  cases hx
  replace h : (wf3 g d a b && t.isMove) = true := h
  simp only [wf3, Bool.and_eq_true] at h
  obtain ⟨⟨⟨⟨hg, hd⟩, ha⟩, hb⟩, e1⟩ := h
  have b0 := Guard.predCode_lt hg
  have b1 := g.pnCode_lt
  have b2 := Opnd.code_lt hd
  have b3 := Opnd.code_lt ha
  have b4 := Opnd.code_lt hb
  have b5 := t.code_lt
  refine ⟨?_, ?_⟩
  all_goals first
    | (simp only [Fields.Fits, Fields.mkA]; omega)
    | simp [decodeFields, Fields.mkA, decodeC0, decodeVI, need, Guard.ofCode_code hg, Opnd.ofCode_code hd,
        Opnd.ofCode_code ha, Opnd.ofCode_code hb, *]

theorem vbcast (g : Guard) (t : ITy) (d : Opnd) (a : Opnd) (b : Opnd) : Statement (.vbcast g t d a b) := by
  intro h x hx
  cases hx
  replace h : (wf3 g d a b && t.isMove) = true := h
  simp only [wf3, Bool.and_eq_true] at h
  obtain ⟨⟨⟨⟨hg, hd⟩, ha⟩, hb⟩, e1⟩ := h
  have b0 := Guard.predCode_lt hg
  have b1 := g.pnCode_lt
  have b2 := Opnd.code_lt hd
  have b3 := Opnd.code_lt ha
  have b4 := Opnd.code_lt hb
  have b5 := t.code_lt
  refine ⟨?_, ?_⟩
  all_goals first
    | (simp only [Fields.Fits, Fields.mkA]; omega)
    | simp [decodeFields, Fields.mkA, decodeC0, decodeVI, need, Guard.ofCode_code hg, Opnd.ofCode_code hd,
        Opnd.ofCode_code ha, Opnd.ofCode_code hb, *]

theorem vredaddF (g : Guard) (f : FTy) (rm : Rm) (d : Opnd) (a : Opnd) : Statement (.vredaddF g f rm d a) := by
  intro h x hx
  cases hx
  replace h : (wf2 g d a) = true := h
  simp only [wf2, Bool.and_eq_true] at h
  obtain ⟨⟨hg, hd⟩, ha⟩ := h
  have b0 := Guard.predCode_lt hg
  have b1 := g.pnCode_lt
  have b2 := Opnd.code_lt hd
  have b3 := Opnd.code_lt ha
  have b4 := rm.code_lt
  cases f <;> refine ⟨?_, ?_⟩
  all_goals first
    | (simp only [Fields.Fits, Fields.mkA, FTy.op]; omega)
    | simp [decodeFields, Fields.mkA, decodeC0, decodeV4, need, FTy.op, FTy.ofOp, Guard.ofCode_code hg,
        Opnd.ofCode_code hd, Opnd.ofCode_code ha, *]

theorem vscanIncF (g : Guard) (f : FTy) (rm : Rm) (d : Opnd) (a : Opnd) : Statement (.vscanIncF g f rm d a) := by
  intro h x hx
  cases hx
  replace h : (wf2 g d a) = true := h
  simp only [wf2, Bool.and_eq_true] at h
  obtain ⟨⟨hg, hd⟩, ha⟩ := h
  have b0 := Guard.predCode_lt hg
  have b1 := g.pnCode_lt
  have b2 := Opnd.code_lt hd
  have b3 := Opnd.code_lt ha
  have b4 := rm.code_lt
  cases f <;> refine ⟨?_, ?_⟩
  all_goals first
    | (simp only [Fields.Fits, Fields.mkA, FTy.op]; omega)
    | simp [decodeFields, Fields.mkA, decodeC0, decodeV4, need, FTy.op, FTy.ofOp, Guard.ofCode_code hg,
        Opnd.ofCode_code hd, Opnd.ofCode_code ha, *]

theorem vscanExcF (g : Guard) (f : FTy) (rm : Rm) (d : Opnd) (a : Opnd) : Statement (.vscanExcF g f rm d a) := by
  intro h x hx
  cases hx
  replace h : (wf2 g d a) = true := h
  simp only [wf2, Bool.and_eq_true] at h
  obtain ⟨⟨hg, hd⟩, ha⟩ := h
  have b0 := Guard.predCode_lt hg
  have b1 := g.pnCode_lt
  have b2 := Opnd.code_lt hd
  have b3 := Opnd.code_lt ha
  have b4 := rm.code_lt
  cases f <;> refine ⟨?_, ?_⟩
  all_goals first
    | (simp only [Fields.Fits, Fields.mkA, FTy.op]; omega)
    | simp [decodeFields, Fields.mkA, decodeC0, decodeV4, need, FTy.op, FTy.ofOp, Guard.ofCode_code hg,
        Opnd.ofCode_code hd, Opnd.ofCode_code ha, *]

theorem vredaddT (g : Guard) (t : ITy) (d : Opnd) (a : Opnd) : Statement (.vredaddT g t d a) := by
  intro h x hx
  cases hx
  replace h : (wf2 g d a) = true := h
  simp only [wf2, Bool.and_eq_true] at h
  obtain ⟨⟨hg, hd⟩, ha⟩ := h
  have b0 := Guard.predCode_lt hg
  have b1 := g.pnCode_lt
  have b2 := Opnd.code_lt hd
  have b3 := Opnd.code_lt ha
  have b4 := t.code_lt
  refine ⟨?_, ?_⟩
  all_goals first
    | (simp only [Fields.Fits, Fields.mkA]; omega)
    | simp [decodeFields, Fields.mkA, decodeC0, decodeVI, need, Guard.ofCode_code hg, Opnd.ofCode_code hd,
        Opnd.ofCode_code ha, *]

theorem vscanIncT (g : Guard) (t : ITy) (d : Opnd) (a : Opnd) : Statement (.vscanIncT g t d a) := by
  intro h x hx
  cases hx
  replace h : (wf2 g d a) = true := h
  simp only [wf2, Bool.and_eq_true] at h
  obtain ⟨⟨hg, hd⟩, ha⟩ := h
  have b0 := Guard.predCode_lt hg
  have b1 := g.pnCode_lt
  have b2 := Opnd.code_lt hd
  have b3 := Opnd.code_lt ha
  have b4 := t.code_lt
  refine ⟨?_, ?_⟩
  all_goals first
    | (simp only [Fields.Fits, Fields.mkA]; omega)
    | simp [decodeFields, Fields.mkA, decodeC0, decodeVI, need, Guard.ofCode_code hg, Opnd.ofCode_code hd,
        Opnd.ofCode_code ha, *]

theorem vscanExcT (g : Guard) (t : ITy) (d : Opnd) (a : Opnd) : Statement (.vscanExcT g t d a) := by
  intro h x hx
  cases hx
  replace h : (wf2 g d a) = true := h
  simp only [wf2, Bool.and_eq_true] at h
  obtain ⟨⟨hg, hd⟩, ha⟩ := h
  have b0 := Guard.predCode_lt hg
  have b1 := g.pnCode_lt
  have b2 := Opnd.code_lt hd
  have b3 := Opnd.code_lt ha
  have b4 := t.code_lt
  refine ⟨?_, ?_⟩
  all_goals first
    | (simp only [Fields.Fits, Fields.mkA]; omega)
    | simp [decodeFields, Fields.mkA, decodeC0, decodeVI, need, Guard.ofCode_code hg, Opnd.ofCode_code hd,
        Opnd.ofCode_code ha, *]

theorem vpack (g : Guard) (t : ITy) (d : Opnd) (a : Opnd) (b : Opnd) (c : Opnd) : Statement (.vpack g t d a b c) := by
  intro h x hx
  cases hx
  replace h : (wf4 g d a b c && t.isNarrow) = true := h
  simp only [wf4, Bool.and_eq_true] at h
  obtain ⟨⟨⟨⟨⟨hg, hd⟩, ha⟩, hb⟩, hc⟩, e1⟩ := h
  have b0 := Guard.predCode_lt hg
  have b1 := g.pnCode_lt
  have b2 := Opnd.code_lt hd
  have b3 := Opnd.code_lt ha
  have b4 := Opnd.code_lt hb
  have b5 := Opnd.code_lt hc
  have b6 := t.code_lt
  refine ⟨?_, ?_⟩
  all_goals first
    | (simp only [Fields.Fits, Fields.mkA]; omega)
    | simp [decodeFields, Fields.mkA, decodeC0, decodeVI, need, Guard.ofCode_code hg, Opnd.ofCode_code hd,
        Opnd.ofCode_code ha, Opnd.ofCode_code hb, Opnd.ofCode_code hc, *]

theorem vunpack (g : Guard) (t : ITy) (d : Opnd) (a : Opnd) (b : Opnd) (c : Opnd) : Statement (.vunpack g t d a b c)
    := by
  intro h x hx
  cases hx
  replace h : (wf4 g d a b c && t.isNarrow) = true := h
  simp only [wf4, Bool.and_eq_true] at h
  obtain ⟨⟨⟨⟨⟨hg, hd⟩, ha⟩, hb⟩, hc⟩, e1⟩ := h
  have b0 := Guard.predCode_lt hg
  have b1 := g.pnCode_lt
  have b2 := Opnd.code_lt hd
  have b3 := Opnd.code_lt ha
  have b4 := Opnd.code_lt hb
  have b5 := Opnd.code_lt hc
  have b6 := t.code_lt
  refine ⟨?_, ?_⟩
  all_goals first
    | (simp only [Fields.Fits, Fields.mkA]; omega)
    | simp [decodeFields, Fields.mkA, decodeC0, decodeVI, need, Guard.ofCode_code hg, Opnd.ofCode_code hd,
        Opnd.ofCode_code ha, Opnd.ofCode_code hb, Opnd.ofCode_code hc, *]

theorem saddF (g : Guard) (f : FTy) (rm : Rm) (d : Opnd) (a : Opnd) (b : Opnd) : Statement (.saddF g f rm d a b) := by
  intro h x hx
  cases hx
  replace h : (wf3 g d a b) = true := h
  simp only [wf3, Bool.and_eq_true] at h
  obtain ⟨⟨⟨hg, hd⟩, ha⟩, hb⟩ := h
  have b0 := Guard.predCode_lt hg
  have b1 := g.pnCode_lt
  have b2 := Opnd.code_lt hd
  have b3 := Opnd.code_lt ha
  have b4 := Opnd.code_lt hb
  have b5 := rm.code_lt
  cases f <;> refine ⟨?_, ?_⟩
  all_goals first
    | (simp only [Fields.Fits, Fields.mkA, FTy.op]; omega)
    | simp [decodeFields, Fields.mkA, decodeC1, decodeS4, need, FTy.op, FTy.ofOp, Guard.ofCode_code hg,
        Opnd.ofCode_code hd, Opnd.ofCode_code ha, Opnd.ofCode_code hb, *]

theorem ssubF (g : Guard) (f : FTy) (rm : Rm) (d : Opnd) (a : Opnd) (b : Opnd) : Statement (.ssubF g f rm d a b) := by
  intro h x hx
  cases hx
  replace h : (wf3 g d a b) = true := h
  simp only [wf3, Bool.and_eq_true] at h
  obtain ⟨⟨⟨hg, hd⟩, ha⟩, hb⟩ := h
  have b0 := Guard.predCode_lt hg
  have b1 := g.pnCode_lt
  have b2 := Opnd.code_lt hd
  have b3 := Opnd.code_lt ha
  have b4 := Opnd.code_lt hb
  have b5 := rm.code_lt
  cases f <;> refine ⟨?_, ?_⟩
  all_goals first
    | (simp only [Fields.Fits, Fields.mkA, FTy.op]; omega)
    | simp [decodeFields, Fields.mkA, decodeC1, decodeS4, need, FTy.op, FTy.ofOp, Guard.ofCode_code hg,
        Opnd.ofCode_code hd, Opnd.ofCode_code ha, Opnd.ofCode_code hb, *]

theorem smulF (g : Guard) (f : FTy) (rm : Rm) (d : Opnd) (a : Opnd) (b : Opnd) : Statement (.smulF g f rm d a b) := by
  intro h x hx
  cases hx
  replace h : (wf3 g d a b) = true := h
  simp only [wf3, Bool.and_eq_true] at h
  obtain ⟨⟨⟨hg, hd⟩, ha⟩, hb⟩ := h
  have b0 := Guard.predCode_lt hg
  have b1 := g.pnCode_lt
  have b2 := Opnd.code_lt hd
  have b3 := Opnd.code_lt ha
  have b4 := Opnd.code_lt hb
  have b5 := rm.code_lt
  cases f <;> refine ⟨?_, ?_⟩
  all_goals first
    | (simp only [Fields.Fits, Fields.mkA, FTy.op]; omega)
    | simp [decodeFields, Fields.mkA, decodeC1, decodeS4, need, FTy.op, FTy.ofOp, Guard.ofCode_code hg,
        Opnd.ofCode_code hd, Opnd.ofCode_code ha, Opnd.ofCode_code hb, *]

theorem sfma (g : Guard) (f : FTy) (rm : Rm) (d : Opnd) (a : Opnd) (b : Opnd) (c : Opnd) : Statement (.sfma g f rm d a
    b c) := by
  intro h x hx
  cases hx
  replace h : (wf4 g d a b c) = true := h
  simp only [wf4, Bool.and_eq_true] at h
  obtain ⟨⟨⟨⟨hg, hd⟩, ha⟩, hb⟩, hc⟩ := h
  have b0 := Guard.predCode_lt hg
  have b1 := g.pnCode_lt
  have b2 := Opnd.code_lt hd
  have b3 := Opnd.code_lt ha
  have b4 := Opnd.code_lt hb
  have b5 := Opnd.code_lt hc
  have b6 := rm.code_lt
  cases f <;> refine ⟨?_, ?_⟩
  all_goals first
    | (simp only [Fields.Fits, Fields.mkA, FTy.op]; omega)
    | simp [decodeFields, Fields.mkA, decodeC1, decodeS4, need, FTy.op, FTy.ofOp, Guard.ofCode_code hg,
        Opnd.ofCode_code hd, Opnd.ofCode_code ha, Opnd.ofCode_code hb, Opnd.ofCode_code hc, *]

theorem sminF (g : Guard) (f : FTy) (d : Opnd) (a : Opnd) (b : Opnd) : Statement (.sminF g f d a b) := by
  intro h x hx
  cases hx
  replace h : (wf3 g d a b) = true := h
  simp only [wf3, Bool.and_eq_true] at h
  obtain ⟨⟨⟨hg, hd⟩, ha⟩, hb⟩ := h
  have b0 := Guard.predCode_lt hg
  have b1 := g.pnCode_lt
  have b2 := Opnd.code_lt hd
  have b3 := Opnd.code_lt ha
  have b4 := Opnd.code_lt hb
  cases f <;> refine ⟨?_, ?_⟩
  all_goals first
    | (simp only [Fields.Fits, Fields.mkA, FTy.op]; omega)
    | simp [decodeFields, Fields.mkA, decodeC1, decodeS4, need, FTy.op, FTy.ofOp, Guard.ofCode_code hg,
        Opnd.ofCode_code hd, Opnd.ofCode_code ha, Opnd.ofCode_code hb, *]

theorem smaxF (g : Guard) (f : FTy) (d : Opnd) (a : Opnd) (b : Opnd) : Statement (.smaxF g f d a b) := by
  intro h x hx
  cases hx
  replace h : (wf3 g d a b) = true := h
  simp only [wf3, Bool.and_eq_true] at h
  obtain ⟨⟨⟨hg, hd⟩, ha⟩, hb⟩ := h
  have b0 := Guard.predCode_lt hg
  have b1 := g.pnCode_lt
  have b2 := Opnd.code_lt hd
  have b3 := Opnd.code_lt ha
  have b4 := Opnd.code_lt hb
  cases f <;> refine ⟨?_, ?_⟩
  all_goals first
    | (simp only [Fields.Fits, Fields.mkA, FTy.op]; omega)
    | simp [decodeFields, Fields.mkA, decodeC1, decodeS4, need, FTy.op, FTy.ofOp, Guard.ofCode_code hg,
        Opnd.ofCode_code hd, Opnd.ofCode_code ha, Opnd.ofCode_code hb, *]

theorem scmpF (g : Guard) (f : FTy) (cc : CC) (d : Opnd) (a : Opnd) (b : Opnd) : Statement (.scmpF g f cc d a b) := by
  intro h x hx
  cases hx
  replace h : (wf3 g d a b) = true := h
  simp only [wf3, Bool.and_eq_true] at h
  obtain ⟨⟨⟨hg, hd⟩, ha⟩, hb⟩ := h
  have b0 := Guard.predCode_lt hg
  have b1 := g.pnCode_lt
  have b2 := Opnd.code_lt hd
  have b3 := Opnd.code_lt ha
  have b4 := Opnd.code_lt hb
  have b5 := cc.code_lt
  cases f <;> refine ⟨?_, ?_⟩
  all_goals first
    | (simp only [Fields.Fits, Fields.mkA, FTy.op]; omega)
    | simp [decodeFields, Fields.mkA, decodeC1, decodeS4, need, FTy.op, FTy.ofOp, Guard.ofCode_code hg,
        Opnd.ofCode_code hd, Opnd.ofCode_code ha, Opnd.ofCode_code hb, *]

theorem scvt (g : Guard) (td : Ty) (ts : Ty) (rm : Rm) (d : Opnd) (a : Opnd) : Statement (.scvt g td ts rm d a) := by
  intro h x hx
  cases hx
  replace h : (wf2 g d a && cvtWf td ts rm) = true := h
  simp only [wf2, Bool.and_eq_true] at h
  obtain ⟨⟨⟨hg, hd⟩, ha⟩, e1⟩ := h
  have b0 := Guard.predCode_lt hg
  have b1 := g.pnCode_lt
  have b2 := Opnd.code_lt hd
  have b3 := Opnd.code_lt ha
  have b4 := td.code_lt
  have b5 := ts.code_lt
  have b6 := rm.code_lt
  have b7 := cvtC_lt ts rm
  refine ⟨?_, ?_⟩
  all_goals first
    | (simp only [Fields.Fits, Fields.mkA]; omega)
    | simp [decodeFields, Fields.mkA, decodeC1, decodeCvt, need, Guard.ofCode_code hg, Opnd.ofCode_code hd,
        Opnd.ofCode_code ha, *]

theorem saddT (g : Guard) (t : ITy) (d : Opnd) (a : Opnd) (b : Opnd) : Statement (.saddT g t d a b) := by
  intro h x hx
  cases hx
  replace h : (wf3 g d a b) = true := h
  simp only [wf3, Bool.and_eq_true] at h
  obtain ⟨⟨⟨hg, hd⟩, ha⟩, hb⟩ := h
  have b0 := Guard.predCode_lt hg
  have b1 := g.pnCode_lt
  have b2 := Opnd.code_lt hd
  have b3 := Opnd.code_lt ha
  have b4 := Opnd.code_lt hb
  have b5 := t.code_lt
  refine ⟨?_, ?_⟩
  all_goals first
    | (simp only [Fields.Fits, Fields.mkA]; omega)
    | simp [decodeFields, Fields.mkA, decodeC1, decodeSI, need, Guard.ofCode_code hg, Opnd.ofCode_code hd,
        Opnd.ofCode_code ha, Opnd.ofCode_code hb, *]

theorem ssubT (g : Guard) (t : ITy) (d : Opnd) (a : Opnd) (b : Opnd) : Statement (.ssubT g t d a b) := by
  intro h x hx
  cases hx
  replace h : (wf3 g d a b) = true := h
  simp only [wf3, Bool.and_eq_true] at h
  obtain ⟨⟨⟨hg, hd⟩, ha⟩, hb⟩ := h
  have b0 := Guard.predCode_lt hg
  have b1 := g.pnCode_lt
  have b2 := Opnd.code_lt hd
  have b3 := Opnd.code_lt ha
  have b4 := Opnd.code_lt hb
  have b5 := t.code_lt
  refine ⟨?_, ?_⟩
  all_goals first
    | (simp only [Fields.Fits, Fields.mkA]; omega)
    | simp [decodeFields, Fields.mkA, decodeC1, decodeSI, need, Guard.ofCode_code hg, Opnd.ofCode_code hd,
        Opnd.ofCode_code ha, Opnd.ofCode_code hb, *]

theorem smulT (g : Guard) (t : ITy) (d : Opnd) (a : Opnd) (b : Opnd) : Statement (.smulT g t d a b) := by
  intro h x hx
  cases hx
  replace h : (wf3 g d a b) = true := h
  simp only [wf3, Bool.and_eq_true] at h
  obtain ⟨⟨⟨hg, hd⟩, ha⟩, hb⟩ := h
  have b0 := Guard.predCode_lt hg
  have b1 := g.pnCode_lt
  have b2 := Opnd.code_lt hd
  have b3 := Opnd.code_lt ha
  have b4 := Opnd.code_lt hb
  have b5 := t.code_lt
  refine ⟨?_, ?_⟩
  all_goals first
    | (simp only [Fields.Fits, Fields.mkA]; omega)
    | simp [decodeFields, Fields.mkA, decodeC1, decodeSI, need, Guard.ofCode_code hg, Opnd.ofCode_code hd,
        Opnd.ofCode_code ha, Opnd.ofCode_code hb, *]

theorem smulhi (g : Guard) (t : ITy) (d : Opnd) (a : Opnd) (b : Opnd) : Statement (.smulhi g t d a b) := by
  intro h x hx
  cases hx
  replace h : (wf3 g d a b) = true := h
  simp only [wf3, Bool.and_eq_true] at h
  obtain ⟨⟨⟨hg, hd⟩, ha⟩, hb⟩ := h
  have b0 := Guard.predCode_lt hg
  have b1 := g.pnCode_lt
  have b2 := Opnd.code_lt hd
  have b3 := Opnd.code_lt ha
  have b4 := Opnd.code_lt hb
  have b5 := t.code_lt
  refine ⟨?_, ?_⟩
  all_goals first
    | (simp only [Fields.Fits, Fields.mkA]; omega)
    | simp [decodeFields, Fields.mkA, decodeC1, decodeSI, need, Guard.ofCode_code hg, Opnd.ofCode_code hd,
        Opnd.ofCode_code ha, Opnd.ofCode_code hb, *]

theorem smad (g : Guard) (t : ITy) (d : Opnd) (a : Opnd) (b : Opnd) (c : Opnd) : Statement (.smad g t d a b c) := by
  intro h x hx
  cases hx
  replace h : (wf4 g d a b c) = true := h
  simp only [wf4, Bool.and_eq_true] at h
  obtain ⟨⟨⟨⟨hg, hd⟩, ha⟩, hb⟩, hc⟩ := h
  have b0 := Guard.predCode_lt hg
  have b1 := g.pnCode_lt
  have b2 := Opnd.code_lt hd
  have b3 := Opnd.code_lt ha
  have b4 := Opnd.code_lt hb
  have b5 := Opnd.code_lt hc
  have b6 := t.code_lt
  refine ⟨?_, ?_⟩
  all_goals first
    | (simp only [Fields.Fits, Fields.mkA]; omega)
    | simp [decodeFields, Fields.mkA, decodeC1, decodeSI, need, Guard.ofCode_code hg, Opnd.ofCode_code hd,
        Opnd.ofCode_code ha, Opnd.ofCode_code hb, Opnd.ofCode_code hc, *]

theorem sminT (g : Guard) (t : ITy) (d : Opnd) (a : Opnd) (b : Opnd) : Statement (.sminT g t d a b) := by
  intro h x hx
  cases hx
  replace h : (wf3 g d a b) = true := h
  simp only [wf3, Bool.and_eq_true] at h
  obtain ⟨⟨⟨hg, hd⟩, ha⟩, hb⟩ := h
  have b0 := Guard.predCode_lt hg
  have b1 := g.pnCode_lt
  have b2 := Opnd.code_lt hd
  have b3 := Opnd.code_lt ha
  have b4 := Opnd.code_lt hb
  have b5 := t.code_lt
  refine ⟨?_, ?_⟩
  all_goals first
    | (simp only [Fields.Fits, Fields.mkA]; omega)
    | simp [decodeFields, Fields.mkA, decodeC1, decodeSI, need, Guard.ofCode_code hg, Opnd.ofCode_code hd,
        Opnd.ofCode_code ha, Opnd.ofCode_code hb, *]

theorem smaxT (g : Guard) (t : ITy) (d : Opnd) (a : Opnd) (b : Opnd) : Statement (.smaxT g t d a b) := by
  intro h x hx
  cases hx
  replace h : (wf3 g d a b) = true := h
  simp only [wf3, Bool.and_eq_true] at h
  obtain ⟨⟨⟨hg, hd⟩, ha⟩, hb⟩ := h
  have b0 := Guard.predCode_lt hg
  have b1 := g.pnCode_lt
  have b2 := Opnd.code_lt hd
  have b3 := Opnd.code_lt ha
  have b4 := Opnd.code_lt hb
  have b5 := t.code_lt
  refine ⟨?_, ?_⟩
  all_goals first
    | (simp only [Fields.Fits, Fields.mkA]; omega)
    | simp [decodeFields, Fields.mkA, decodeC1, decodeSI, need, Guard.ofCode_code hg, Opnd.ofCode_code hd,
        Opnd.ofCode_code ha, Opnd.ofCode_code hb, *]

theorem sabs (g : Guard) (t : ITy) (d : Opnd) (a : Opnd) : Statement (.sabs g t d a) := by
  intro h x hx
  cases hx
  replace h : (wf2 g d a) = true := h
  simp only [wf2, Bool.and_eq_true] at h
  obtain ⟨⟨hg, hd⟩, ha⟩ := h
  have b0 := Guard.predCode_lt hg
  have b1 := g.pnCode_lt
  have b2 := Opnd.code_lt hd
  have b3 := Opnd.code_lt ha
  have b4 := t.code_lt
  refine ⟨?_, ?_⟩
  all_goals first
    | (simp only [Fields.Fits, Fields.mkA]; omega)
    | simp [decodeFields, Fields.mkA, decodeC1, decodeSI, need, Guard.ofCode_code hg, Opnd.ofCode_code hd,
        Opnd.ofCode_code ha, *]

theorem sneg (g : Guard) (t : ITy) (d : Opnd) (a : Opnd) : Statement (.sneg g t d a) := by
  intro h x hx
  cases hx
  replace h : (wf2 g d a) = true := h
  simp only [wf2, Bool.and_eq_true] at h
  obtain ⟨⟨hg, hd⟩, ha⟩ := h
  have b0 := Guard.predCode_lt hg
  have b1 := g.pnCode_lt
  have b2 := Opnd.code_lt hd
  have b3 := Opnd.code_lt ha
  have b4 := t.code_lt
  refine ⟨?_, ?_⟩
  all_goals first
    | (simp only [Fields.Fits, Fields.mkA]; omega)
    | simp [decodeFields, Fields.mkA, decodeC1, decodeSI, need, Guard.ofCode_code hg, Opnd.ofCode_code hd,
        Opnd.ofCode_code ha, *]

theorem scmpT (g : Guard) (t : ITy) (cc : CC) (d : Opnd) (a : Opnd) (b : Opnd) : Statement (.scmpT g t cc d a b) := by
  intro h x hx
  cases hx
  replace h : (wf3 g d a b && cc.isInt) = true := h
  simp only [wf3, Bool.and_eq_true] at h
  obtain ⟨⟨⟨⟨hg, hd⟩, ha⟩, hb⟩, e1⟩ := h
  have b0 := Guard.predCode_lt hg
  have b1 := g.pnCode_lt
  have b2 := Opnd.code_lt hd
  have b3 := Opnd.code_lt ha
  have b4 := Opnd.code_lt hb
  have b5 := t.code_lt
  have b6 := cc.code_lt
  refine ⟨?_, ?_⟩
  all_goals first
    | (simp only [Fields.Fits, Fields.mkA]; omega)
    | simp [decodeFields, Fields.mkA, decodeC1, decodeSI, need, Guard.ofCode_code hg, Opnd.ofCode_code hd,
        Opnd.ofCode_code ha, Opnd.ofCode_code hb, *]

theorem sand (g : Guard) (t : ITy) (d : Opnd) (a : Opnd) (b : Opnd) : Statement (.sand g t d a b) := by
  intro h x hx
  cases hx
  replace h : (wf3 g d a b) = true := h
  simp only [wf3, Bool.and_eq_true] at h
  obtain ⟨⟨⟨hg, hd⟩, ha⟩, hb⟩ := h
  have b0 := Guard.predCode_lt hg
  have b1 := g.pnCode_lt
  have b2 := Opnd.code_lt hd
  have b3 := Opnd.code_lt ha
  have b4 := Opnd.code_lt hb
  have b5 := t.code_lt
  refine ⟨?_, ?_⟩
  all_goals first
    | (simp only [Fields.Fits, Fields.mkA]; omega)
    | simp [decodeFields, Fields.mkA, decodeC1, decodeSI, need, Guard.ofCode_code hg, Opnd.ofCode_code hd,
        Opnd.ofCode_code ha, Opnd.ofCode_code hb, *]

theorem sor (g : Guard) (t : ITy) (d : Opnd) (a : Opnd) (b : Opnd) : Statement (.sor g t d a b) := by
  intro h x hx
  cases hx
  replace h : (wf3 g d a b) = true := h
  simp only [wf3, Bool.and_eq_true] at h
  obtain ⟨⟨⟨hg, hd⟩, ha⟩, hb⟩ := h
  have b0 := Guard.predCode_lt hg
  have b1 := g.pnCode_lt
  have b2 := Opnd.code_lt hd
  have b3 := Opnd.code_lt ha
  have b4 := Opnd.code_lt hb
  have b5 := t.code_lt
  refine ⟨?_, ?_⟩
  all_goals first
    | (simp only [Fields.Fits, Fields.mkA]; omega)
    | simp [decodeFields, Fields.mkA, decodeC1, decodeSI, need, Guard.ofCode_code hg, Opnd.ofCode_code hd,
        Opnd.ofCode_code ha, Opnd.ofCode_code hb, *]

theorem sxor (g : Guard) (t : ITy) (d : Opnd) (a : Opnd) (b : Opnd) : Statement (.sxor g t d a b) := by
  intro h x hx
  cases hx
  replace h : (wf3 g d a b) = true := h
  simp only [wf3, Bool.and_eq_true] at h
  obtain ⟨⟨⟨hg, hd⟩, ha⟩, hb⟩ := h
  have b0 := Guard.predCode_lt hg
  have b1 := g.pnCode_lt
  have b2 := Opnd.code_lt hd
  have b3 := Opnd.code_lt ha
  have b4 := Opnd.code_lt hb
  have b5 := t.code_lt
  refine ⟨?_, ?_⟩
  all_goals first
    | (simp only [Fields.Fits, Fields.mkA]; omega)
    | simp [decodeFields, Fields.mkA, decodeC1, decodeSI, need, Guard.ofCode_code hg, Opnd.ofCode_code hd,
        Opnd.ofCode_code ha, Opnd.ofCode_code hb, *]

theorem snot (g : Guard) (t : ITy) (d : Opnd) (a : Opnd) : Statement (.snot g t d a) := by
  intro h x hx
  cases hx
  replace h : (wf2 g d a) = true := h
  simp only [wf2, Bool.and_eq_true] at h
  obtain ⟨⟨hg, hd⟩, ha⟩ := h
  have b0 := Guard.predCode_lt hg
  have b1 := g.pnCode_lt
  have b2 := Opnd.code_lt hd
  have b3 := Opnd.code_lt ha
  have b4 := t.code_lt
  refine ⟨?_, ?_⟩
  all_goals first
    | (simp only [Fields.Fits, Fields.mkA]; omega)
    | simp [decodeFields, Fields.mkA, decodeC1, decodeSI, need, Guard.ofCode_code hg, Opnd.ofCode_code hd,
        Opnd.ofCode_code ha, *]

theorem sshl (g : Guard) (t : ITy) (d : Opnd) (a : Opnd) (b : Opnd) : Statement (.sshl g t d a b) := by
  intro h x hx
  cases hx
  replace h : (wf3 g d a b) = true := h
  simp only [wf3, Bool.and_eq_true] at h
  obtain ⟨⟨⟨hg, hd⟩, ha⟩, hb⟩ := h
  have b0 := Guard.predCode_lt hg
  have b1 := g.pnCode_lt
  have b2 := Opnd.code_lt hd
  have b3 := Opnd.code_lt ha
  have b4 := Opnd.code_lt hb
  have b5 := t.code_lt
  refine ⟨?_, ?_⟩
  all_goals first
    | (simp only [Fields.Fits, Fields.mkA]; omega)
    | simp [decodeFields, Fields.mkA, decodeC1, decodeSI, need, Guard.ofCode_code hg, Opnd.ofCode_code hd,
        Opnd.ofCode_code ha, Opnd.ofCode_code hb, *]

theorem sshr (g : Guard) (t : ITy) (d : Opnd) (a : Opnd) (b : Opnd) : Statement (.sshr g t d a b) := by
  intro h x hx
  cases hx
  replace h : (wf3 g d a b) = true := h
  simp only [wf3, Bool.and_eq_true] at h
  obtain ⟨⟨⟨hg, hd⟩, ha⟩, hb⟩ := h
  have b0 := Guard.predCode_lt hg
  have b1 := g.pnCode_lt
  have b2 := Opnd.code_lt hd
  have b3 := Opnd.code_lt ha
  have b4 := Opnd.code_lt hb
  have b5 := t.code_lt
  refine ⟨?_, ?_⟩
  all_goals first
    | (simp only [Fields.Fits, Fields.mkA]; omega)
    | simp [decodeFields, Fields.mkA, decodeC1, decodeSI, need, Guard.ofCode_code hg, Opnd.ofCode_code hd,
        Opnd.ofCode_code ha, Opnd.ofCode_code hb, *]

theorem spopc (g : Guard) (t : ITy) (d : Opnd) (a : Opnd) : Statement (.spopc g t d a) := by
  intro h x hx
  cases hx
  replace h : (wf2 g d a) = true := h
  simp only [wf2, Bool.and_eq_true] at h
  obtain ⟨⟨hg, hd⟩, ha⟩ := h
  have b0 := Guard.predCode_lt hg
  have b1 := g.pnCode_lt
  have b2 := Opnd.code_lt hd
  have b3 := Opnd.code_lt ha
  have b4 := t.code_lt
  refine ⟨?_, ?_⟩
  all_goals first
    | (simp only [Fields.Fits, Fields.mkA]; omega)
    | simp [decodeFields, Fields.mkA, decodeC1, decodeSI, need, Guard.ofCode_code hg, Opnd.ofCode_code hd,
        Opnd.ofCode_code ha, *]

theorem sclz (g : Guard) (t : ITy) (d : Opnd) (a : Opnd) : Statement (.sclz g t d a) := by
  intro h x hx
  cases hx
  replace h : (wf2 g d a) = true := h
  simp only [wf2, Bool.and_eq_true] at h
  obtain ⟨⟨hg, hd⟩, ha⟩ := h
  have b0 := Guard.predCode_lt hg
  have b1 := g.pnCode_lt
  have b2 := Opnd.code_lt hd
  have b3 := Opnd.code_lt ha
  have b4 := t.code_lt
  refine ⟨?_, ?_⟩
  all_goals first
    | (simp only [Fields.Fits, Fields.mkA]; omega)
    | simp [decodeFields, Fields.mkA, decodeC1, decodeSI, need, Guard.ofCode_code hg, Opnd.ofCode_code hd,
        Opnd.ofCode_code ha, *]

theorem sbfe (g : Guard) (t : ITy) (d : Opnd) (a : Opnd) (b : Opnd) (c : Opnd) : Statement (.sbfe g t d a b c) := by
  intro h x hx
  cases hx
  replace h : (wf4 g d a b c) = true := h
  simp only [wf4, Bool.and_eq_true] at h
  obtain ⟨⟨⟨⟨hg, hd⟩, ha⟩, hb⟩, hc⟩ := h
  have b0 := Guard.predCode_lt hg
  have b1 := g.pnCode_lt
  have b2 := Opnd.code_lt hd
  have b3 := Opnd.code_lt ha
  have b4 := Opnd.code_lt hb
  have b5 := Opnd.code_lt hc
  have b6 := t.code_lt
  refine ⟨?_, ?_⟩
  all_goals first
    | (simp only [Fields.Fits, Fields.mkA]; omega)
    | simp [decodeFields, Fields.mkA, decodeC1, decodeSI, need, Guard.ofCode_code hg, Opnd.ofCode_code hd,
        Opnd.ofCode_code ha, Opnd.ofCode_code hb, Opnd.ofCode_code hc, *]

theorem sbfi (g : Guard) (t : ITy) (d : Opnd) (a : Opnd) (b : Opnd) (c : Opnd) : Statement (.sbfi g t d a b c) := by
  intro h x hx
  cases hx
  replace h : (wf4 g d a b c) = true := h
  simp only [wf4, Bool.and_eq_true] at h
  obtain ⟨⟨⟨⟨hg, hd⟩, ha⟩, hb⟩, hc⟩ := h
  have b0 := Guard.predCode_lt hg
  have b1 := g.pnCode_lt
  have b2 := Opnd.code_lt hd
  have b3 := Opnd.code_lt ha
  have b4 := Opnd.code_lt hb
  have b5 := Opnd.code_lt hc
  have b6 := t.code_lt
  refine ⟨?_, ?_⟩
  all_goals first
    | (simp only [Fields.Fits, Fields.mkA]; omega)
    | simp [decodeFields, Fields.mkA, decodeC1, decodeSI, need, Guard.ofCode_code hg, Opnd.ofCode_code hd,
        Opnd.ofCode_code ha, Opnd.ofCode_code hb, Opnd.ofCode_code hc, *]

theorem ssel (g : Guard) (t : ITy) (d : Opnd) (a : Opnd) (b : Opnd) (c : Opnd) : Statement (.ssel g t d a b c) := by
  intro h x hx
  cases hx
  replace h : (wf4 g d a b c) = true := h
  simp only [wf4, Bool.and_eq_true] at h
  obtain ⟨⟨⟨⟨hg, hd⟩, ha⟩, hb⟩, hc⟩ := h
  have b0 := Guard.predCode_lt hg
  have b1 := g.pnCode_lt
  have b2 := Opnd.code_lt hd
  have b3 := Opnd.code_lt ha
  have b4 := Opnd.code_lt hb
  have b5 := Opnd.code_lt hc
  have b6 := t.code_lt
  refine ⟨?_, ?_⟩
  all_goals first
    | (simp only [Fields.Fits, Fields.mkA]; omega)
    | simp [decodeFields, Fields.mkA, decodeC1, decodeSI, need, Guard.ofCode_code hg, Opnd.ofCode_code hd,
        Opnd.ofCode_code ha, Opnd.ofCode_code hb, Opnd.ofCode_code hc, *]

theorem smov (g : Guard) (t : ITy) (d : Opnd) (a : Opnd) : Statement (.smov g t d a) := by
  intro h x hx
  cases hx
  replace h : (wf2 g d a) = true := h
  simp only [wf2, Bool.and_eq_true] at h
  obtain ⟨⟨hg, hd⟩, ha⟩ := h
  have b0 := Guard.predCode_lt hg
  have b1 := g.pnCode_lt
  have b2 := Opnd.code_lt hd
  have b3 := Opnd.code_lt ha
  have b4 := t.code_lt
  refine ⟨?_, ?_⟩
  all_goals first
    | (simp only [Fields.Fits, Fields.mkA]; omega)
    | simp [decodeFields, Fields.mkA, decodeC1, decodeSI, need, Guard.ofCode_code hg, Opnd.ofCode_code hd,
        Opnd.ofCode_code ha, *]

theorem lget (g : Guard) (t : ITy) (d : Opnd) (a : Opnd) (b : Opnd) : Statement (.lget g t d a b) := by
  intro h x hx
  cases hx
  replace h : (wf3 g d a b && t.isMove) = true := h
  simp only [wf3, Bool.and_eq_true] at h
  obtain ⟨⟨⟨⟨hg, hd⟩, ha⟩, hb⟩, e1⟩ := h
  have b0 := Guard.predCode_lt hg
  have b1 := g.pnCode_lt
  have b2 := Opnd.code_lt hd
  have b3 := Opnd.code_lt ha
  have b4 := Opnd.code_lt hb
  have b5 := t.code_lt
  refine ⟨?_, ?_⟩
  all_goals first
    | (simp only [Fields.Fits, Fields.mkA]; omega)
    | simp [decodeFields, Fields.mkA, decodeC1, decodeSI, need, Guard.ofCode_code hg, Opnd.ofCode_code hd,
        Opnd.ofCode_code ha, Opnd.ofCode_code hb, *]

theorem lput (g : Guard) (t : ITy) (d : Opnd) (a : Opnd) (b : Opnd) : Statement (.lput g t d a b) := by
  intro h x hx
  cases hx
  replace h : (wf3 g d a b && t.isMove) = true := h
  simp only [wf3, Bool.and_eq_true] at h
  obtain ⟨⟨⟨⟨hg, hd⟩, ha⟩, hb⟩, e1⟩ := h
  have b0 := Guard.predCode_lt hg
  have b1 := g.pnCode_lt
  have b2 := Opnd.code_lt hd
  have b3 := Opnd.code_lt ha
  have b4 := Opnd.code_lt hb
  have b5 := t.code_lt
  refine ⟨?_, ?_⟩
  all_goals first
    | (simp only [Fields.Fits, Fields.mkA]; omega)
    | simp [decodeFields, Fields.mkA, decodeC1, decodeSI, need, Guard.ofCode_code hg, Opnd.ofCode_code hd,
        Opnd.ofCode_code ha, Opnd.ofCode_code hb, *]

theorem srd (g : Guard) (reg : Nat) (d : Opnd) : Statement (.srd g reg d) := by
  intro h x hx
  cases hx
  replace h : (wf1 g d && decide (reg < 4096)) = true := h
  simp only [wf1, Bool.and_eq_true, decide_eq_true_eq] at h
  obtain ⟨⟨hg, hd⟩, e1⟩ := h
  have b0 := Guard.predCode_lt hg
  have b1 := g.pnCode_lt
  have b2 := Opnd.code_lt hd
  refine ⟨?_, ?_⟩
  all_goals first
    | (simp only [Fields.Fits, Fields.mkA, Fields.mkI]; omega)
    | simp [decodeFields, Fields.mkA, Fields.mkI, decodeC1, decodeCtl, need, Guard.ofCode_code hg, Opnd.ofCode_code
        hd, *]

theorem swr (g : Guard) (reg : Nat) (a : Opnd) : Statement (.swr g reg a) := by
  intro h x hx
  cases hx
  replace h : (wf1 g a && decide (reg < 4096)) = true := h
  simp only [wf1, Bool.and_eq_true, decide_eq_true_eq] at h
  obtain ⟨⟨hg, ha⟩, e1⟩ := h
  have b0 := Guard.predCode_lt hg
  have b1 := g.pnCode_lt
  have b2 := Opnd.code_lt ha
  refine ⟨?_, ?_⟩
  all_goals first
    | (simp only [Fields.Fits, Fields.mkA, Fields.mkI]; omega)
    | simp [decodeFields, Fields.mkA, Fields.mkI, decodeC1, decodeCtl, need, Guard.ofCode_code hg, Opnd.ofCode_code
        ha, *]

theorem bra (g : Guard) (off : Int) : Statement (.bra g off) := by
  intro h x hx
  cases hx
  replace h : (g.wf && immWf off) = true := h
  simp only [Bool.and_eq_true] at h
  obtain ⟨hg, e1⟩ := h
  have b0 := Guard.predCode_lt hg
  have b1 := g.pnCode_lt
  have b2 := signedCode_lt 2097152 off (by omega)
  have sooff := signedOf_imm e1
  refine ⟨?_, ?_⟩
  all_goals first
    | (simp only [Fields.Fits, Fields.mkA, Fields.mkI]; omega)
    | simp [decodeFields, Fields.mkA, Fields.mkI, decodeC1, decodeCtl, need, Guard.ofCode_code hg, *]

theorem braAny (g : Guard) (a : Opnd) (off : Int) : Statement (.braAny g a off) := by
  intro h x hx
  cases hx
  replace h : (wf1 g a && immWf off) = true := h
  simp only [wf1, Bool.and_eq_true] at h
  obtain ⟨⟨hg, ha⟩, e1⟩ := h
  have b0 := Guard.predCode_lt hg
  have b1 := g.pnCode_lt
  have b2 := Opnd.code_lt ha
  have b3 := signedCode_lt 2097152 off (by omega)
  have sooff := signedOf_imm e1
  refine ⟨?_, ?_⟩
  all_goals first
    | (simp only [Fields.Fits, Fields.mkA, Fields.mkI]; omega)
    | simp [decodeFields, Fields.mkA, Fields.mkI, decodeC1, decodeCtl, need, Guard.ofCode_code hg, Opnd.ofCode_code
        ha, *]

theorem braAll (g : Guard) (a : Opnd) (off : Int) : Statement (.braAll g a off) := by
  intro h x hx
  cases hx
  replace h : (wf1 g a && immWf off) = true := h
  simp only [wf1, Bool.and_eq_true] at h
  obtain ⟨⟨hg, ha⟩, e1⟩ := h
  have b0 := Guard.predCode_lt hg
  have b1 := g.pnCode_lt
  have b2 := Opnd.code_lt ha
  have b3 := signedCode_lt 2097152 off (by omega)
  have sooff := signedOf_imm e1
  refine ⟨?_, ?_⟩
  all_goals first
    | (simp only [Fields.Fits, Fields.mkA, Fields.mkI]; omega)
    | simp [decodeFields, Fields.mkA, Fields.mkI, decodeC1, decodeCtl, need, Guard.ofCode_code hg, Opnd.ofCode_code
        ha, *]

theorem braNone (g : Guard) (a : Opnd) (off : Int) : Statement (.braNone g a off) := by
  intro h x hx
  cases hx
  replace h : (wf1 g a && immWf off) = true := h
  simp only [wf1, Bool.and_eq_true] at h
  obtain ⟨⟨hg, ha⟩, e1⟩ := h
  have b0 := Guard.predCode_lt hg
  have b1 := g.pnCode_lt
  have b2 := Opnd.code_lt ha
  have b3 := signedCode_lt 2097152 off (by omega)
  have sooff := signedOf_imm e1
  refine ⟨?_, ?_⟩
  all_goals first
    | (simp only [Fields.Fits, Fields.mkA, Fields.mkI]; omega)
    | simp [decodeFields, Fields.mkA, Fields.mkI, decodeC1, decodeCtl, need, Guard.ofCode_code hg, Opnd.ofCode_code
        ha, *]

theorem braZ (g : Guard) (a : Opnd) (off : Int) : Statement (.braZ g a off) := by
  intro h x hx
  cases hx
  replace h : (wf1 g a && immWf off) = true := h
  simp only [wf1, Bool.and_eq_true] at h
  obtain ⟨⟨hg, ha⟩, e1⟩ := h
  have b0 := Guard.predCode_lt hg
  have b1 := g.pnCode_lt
  have b2 := Opnd.code_lt ha
  have b3 := signedCode_lt 2097152 off (by omega)
  have sooff := signedOf_imm e1
  refine ⟨?_, ?_⟩
  all_goals first
    | (simp only [Fields.Fits, Fields.mkA, Fields.mkI]; omega)
    | simp [decodeFields, Fields.mkA, Fields.mkI, decodeC1, decodeCtl, need, Guard.ofCode_code hg, Opnd.ofCode_code
        ha, *]

theorem braNz (g : Guard) (a : Opnd) (off : Int) : Statement (.braNz g a off) := by
  intro h x hx
  cases hx
  replace h : (wf1 g a && immWf off) = true := h
  simp only [wf1, Bool.and_eq_true] at h
  obtain ⟨⟨hg, ha⟩, e1⟩ := h
  have b0 := Guard.predCode_lt hg
  have b1 := g.pnCode_lt
  have b2 := Opnd.code_lt ha
  have b3 := signedCode_lt 2097152 off (by omega)
  have sooff := signedOf_imm e1
  refine ⟨?_, ?_⟩
  all_goals first
    | (simp only [Fields.Fits, Fields.mkA, Fields.mkI]; omega)
    | simp [decodeFields, Fields.mkA, Fields.mkI, decodeC1, decodeCtl, need, Guard.ofCode_code hg, Opnd.ofCode_code
        ha, *]

theorem jmp (g : Guard) (a : Opnd) : Statement (.jmp g a) := by
  intro h x hx
  cases hx
  replace h : (wf1 g a) = true := h
  simp only [wf1, Bool.and_eq_true] at h
  obtain ⟨hg, ha⟩ := h
  have b0 := Guard.predCode_lt hg
  have b1 := g.pnCode_lt
  have b2 := Opnd.code_lt ha
  refine ⟨?_, ?_⟩
  all_goals first
    | (simp only [Fields.Fits, Fields.mkA]; omega)
    | simp [decodeFields, Fields.mkA, decodeC1, decodeCtl, need, Guard.ofCode_code hg, Opnd.ofCode_code ha, *]

theorem brx (g : Guard) (a : Opnd) (off : Int) : Statement (.brx g a off) := by
  intro h x hx
  cases hx
  replace h : (wf1 g a && immWf off) = true := h
  simp only [wf1, Bool.and_eq_true] at h
  obtain ⟨⟨hg, ha⟩, e1⟩ := h
  have b0 := Guard.predCode_lt hg
  have b1 := g.pnCode_lt
  have b2 := Opnd.code_lt ha
  have b3 := signedCode_lt 2097152 off (by omega)
  have sooff := signedOf_imm e1
  refine ⟨?_, ?_⟩
  all_goals first
    | (simp only [Fields.Fits, Fields.mkA, Fields.mkI]; omega)
    | simp [decodeFields, Fields.mkA, Fields.mkI, decodeC1, decodeCtl, need, Guard.ofCode_code hg, Opnd.ofCode_code
        ha, *]

theorem callDirect (g : Guard) (nsave : Nat) (target : Int) (cont : Int) : Statement (.callDirect g nsave target cont)
    := by
  intro h x hx
  cases hx
  replace h : (g.wf && decide (nsave ≤ 256) && callWf target && callWf cont) = true := h
  simp only [Bool.and_eq_true, decide_eq_true_eq] at h
  obtain ⟨⟨⟨hg, e1⟩, e2⟩, e3⟩ := h
  have b0 := Guard.predCode_lt hg
  have b1 := g.pnCode_lt
  have b2 := signedCode_lt 2147483648 target (by omega)
  have b3 := signedCode_lt 2147483648 cont (by omega)
  have sotarget := signedOf_call e2
  have socont := signedOf_call e3
  have q1 : (signedCode 2147483648 target * 4294967296 + signedCode 2147483648 cont) % 18446744073709551616 /
      4294967296 = signedCode 2147483648 target := by omega
  have q2 : signedCode 2147483648 cont % 4294967296 = signedCode 2147483648 cont := by omega
  refine ⟨?_, ?_⟩
  all_goals first
    | (simp only [Fields.Fits, Fields.mkA]; omega)
    | simp [decodeFields, Fields.mkA, decodeC6, need, encodeSecond, Guard.ofCode_code hg, *]

theorem callRegister (g : Guard) (nsave : Nat) (a : Opnd) (cont : Int) : Statement (.callRegister g nsave a cont) :=
    by
  intro h x hx
  cases hx
  replace h : (wf1 g a && decide (nsave ≤ 256) && callWf cont) = true := h
  simp only [wf1, Bool.and_eq_true, decide_eq_true_eq] at h
  obtain ⟨⟨⟨hg, ha⟩, e1⟩, e2⟩ := h
  have b0 := Guard.predCode_lt hg
  have b1 := g.pnCode_lt
  have b2 := Opnd.code_lt ha
  have b3 := signedCode_lt 2147483648 cont (by omega)
  have socont := signedOf_call e2
  have q1 : signedCode 2147483648 cont % 18446744073709551616 < 4294967296 := by omega
  have q2 : signedCode 2147483648 cont % 4294967296 = signedCode 2147483648 cont := by omega
  refine ⟨?_, ?_⟩
  all_goals first
    | (simp only [Fields.Fits, Fields.mkA]; omega)
    | simp [decodeFields, Fields.mkA, decodeC6, need, encodeSecond, Guard.ofCode_code hg, Opnd.ofCode_code ha, *]

theorem ret (g : Guard) : Statement (.ret g) := by
  intro h x hx
  cases hx
  replace h : (g.wf) = true := h
  have hg := h
  have b0 := Guard.predCode_lt hg
  have b1 := g.pnCode_lt
  refine ⟨?_, ?_⟩
  all_goals first
    | (simp only [Fields.Fits, Fields.mkA]; omega)
    | simp [decodeFields, Fields.mkA, decodeC1, decodeCtl, need, Guard.ofCode_code hg, *]

theorem exit (g : Guard) : Statement (.exit g) := by
  intro h x hx
  cases hx
  replace h : (g.wf) = true := h
  have hg := h
  have b0 := Guard.predCode_lt hg
  have b1 := g.pnCode_lt
  refine ⟨?_, ?_⟩
  all_goals first
    | (simp only [Fields.Fits, Fields.mkA]; omega)
    | simp [decodeFields, Fields.mkA, decodeC1, decodeCtl, need, Guard.ofCode_code hg, *]

theorem park (g : Guard) (line : Bool) (bar : Bool) (tmo : Bool) (a : Opnd) (b : Nat) (c : Opnd) : Statement (.park g
    line bar tmo a b c) := by
  intro h x hx
  cases hx
  replace h : (wf2 g a c && decide (b < 64) && (line || bar || tmo) && (line || decide (a = .v 0)) && (bar || decide
      (b = 0)) && (tmo || decide (c = .v 0))) = true := h
  simp only [wf2, Bool.and_eq_true, decide_eq_true_eq] at h
  obtain ⟨⟨⟨⟨⟨⟨⟨hg, ha⟩, hc⟩, e1⟩, e2⟩, e3⟩, e4⟩, e5⟩ := h
  have b0 := Guard.predCode_lt hg
  have b1 := g.pnCode_lt
  have b2 := Opnd.code_lt ha
  have b3 := Opnd.code_lt hc
  simp only [Bool.or_eq_true, decide_eq_true_eq] at e2 e3 e4 e5
  have hv : ∀ o : Opnd, o = .v 0 → o.code = 0 := by rintro _ rfl; rfl
  have e3z : line = false → a = .v 0 := by rintro rfl; simpa using e3
  have e4a : bar = false → b = 0 := by rintro rfl; simpa using e4
  have e5z : tmo = false → c = .v 0 := by rintro rfl; simpa using e5
  have h00 : (Opnd.v 0).code = 0 := rfl
  have h01 : Opnd.ofCode 0 = .v 0 := rfl
  clear e3 e4 e5
  cases line <;> cases bar <;> cases tmo <;> refine ⟨?_, ?_⟩
  all_goals first
    | exact absurd e2 (by decide)
    | (simp only [Fields.Fits, Fields.mkA, reduceIte, Bool.false_eq_true]; omega)
    | simp [decodeFields, Fields.mkA, decodeC1, decodeCtl, need, Guard.ofCode_code hg, Opnd.ofCode_code ha,
        Opnd.ofCode_code hc, *]

theorem yield (g : Guard) : Statement (.yield g) := by
  intro h x hx
  cases hx
  replace h : (g.wf) = true := h
  have hg := h
  have b0 := Guard.predCode_lt hg
  have b1 := g.pnCode_lt
  refine ⟨?_, ?_⟩
  all_goals first
    | (simp only [Fields.Fits, Fields.mkA]; omega)
    | simp [decodeFields, Fields.mkA, decodeC1, decodeCtl, need, Guard.ofCode_code hg, *]

theorem grow (g : Guard) (n : Nat) : Statement (.grow g n) := by
  intro h x hx
  cases hx
  replace h : (g.wf && allotWf n) = true := h
  simp only [Bool.and_eq_true] at h
  obtain ⟨hg, e1⟩ := h
  have b0 := Guard.predCode_lt hg
  have b1 := g.pnCode_lt
  have e1' : 0 < n ∧ n % 32 = 0 ∧ n ≤ 1536 := by simpa [allotWf, and_assoc] using e1
  refine ⟨?_, ?_⟩
  all_goals first
    | (simp only [Fields.Fits, Fields.mkA, Fields.mkI]; omega)
    | simp [decodeFields, Fields.mkA, Fields.mkI, decodeC1, decodeCtl, need, allotWf, Guard.ofCode_code hg, *]

theorem shrink (g : Guard) (n : Nat) : Statement (.shrink g n) := by
  intro h x hx
  cases hx
  replace h : (g.wf && allotWf n) = true := h
  simp only [Bool.and_eq_true] at h
  obtain ⟨hg, e1⟩ := h
  have b0 := Guard.predCode_lt hg
  have b1 := g.pnCode_lt
  have e1' : 0 < n ∧ n % 32 = 0 ∧ n ≤ 1536 := by simpa [allotWf, and_assoc] using e1
  refine ⟨?_, ?_⟩
  all_goals first
    | (simp only [Fields.Fits, Fields.mkA, Fields.mkI]; omega)
    | simp [decodeFields, Fields.mkA, Fields.mkI, decodeC1, decodeCtl, need, allotWf, Guard.ofCode_code hg, *]

theorem taskPush (g : Guard) (prio : Nat) (a : Opnd) : Statement (.taskPush g prio a) := by
  intro h x hx
  cases hx
  replace h : (wf1 g a && decide (prio < 4)) = true := h
  simp only [wf1, Bool.and_eq_true, decide_eq_true_eq] at h
  obtain ⟨⟨hg, ha⟩, e1⟩ := h
  have b0 := Guard.predCode_lt hg
  have b1 := g.pnCode_lt
  have b2 := Opnd.code_lt ha
  refine ⟨?_, ?_⟩
  all_goals first
    | (simp only [Fields.Fits, Fields.mkA]; omega)
    | simp [decodeFields, Fields.mkA, decodeC1, decodeCtl, need, Guard.ofCode_code hg, Opnd.ofCode_code ha, *]

theorem nop (g : Guard) : Statement (.nop g) := by
  intro h x hx
  cases hx
  replace h : (g.wf) = true := h
  have hg := h
  have b0 := Guard.predCode_lt hg
  have b1 := g.pnCode_lt
  refine ⟨?_, ?_⟩
  all_goals first
    | (simp only [Fields.Fits, Fields.mkA]; omega)
    | simp [decodeFields, Fields.mkA, decodeC1, decodeCtl, need, Guard.ofCode_code hg, *]

theorem sli (g : Guard) (d : Opnd) (imm : Word) : Statement (.sli g d imm) := by
  intro h x hx
  cases hx
  replace h : (wf1 g d) = true := h
  simp only [wf1, Bool.and_eq_true] at h
  obtain ⟨hg, hd⟩ := h
  have b0 := Guard.predCode_lt hg
  have b1 := g.pnCode_lt
  have b2 := Opnd.code_lt hd
  have q0 := imm.isLt
  have q1 : imm.toNat % 18446744073709551616 < 4294967296 := by omega
  have q2 : imm.toNat % 4294967296 = imm.toNat := by omega
  refine ⟨?_, ?_⟩
  all_goals first
    | (simp only [Fields.Fits, Fields.mkA]; omega)
    | simp [decodeFields, Fields.mkA, decodeC6, need, encodeSecond, Guard.ofCode_code hg, Opnd.ofCode_code hd, *]

theorem sli64 (g : Guard) (d : Opnd) (imm : DWord) : Statement (.sli64 g d imm) := by
  intro h x hx
  cases hx
  replace h : (wf1 g d) = true := h
  simp only [wf1, Bool.and_eq_true] at h
  obtain ⟨hg, hd⟩ := h
  have b0 := Guard.predCode_lt hg
  have b1 := g.pnCode_lt
  have b2 := Opnd.code_lt hd
  refine ⟨?_, ?_⟩
  all_goals first
    | (simp only [Fields.Fits, Fields.mkA]; omega)
    | simp [decodeFields, Fields.mkA, decodeC6, need, encodeSecond, Guard.ofCode_code hg, Opnd.ofCode_code hd, *]

theorem vli (g : Guard) (d : Opnd) (imm : Word) : Statement (.vli g d imm) := by
  intro h x hx
  cases hx
  replace h : (wf1 g d) = true := h
  simp only [wf1, Bool.and_eq_true] at h
  obtain ⟨hg, hd⟩ := h
  have b0 := Guard.predCode_lt hg
  have b1 := g.pnCode_lt
  have b2 := Opnd.code_lt hd
  have q0 := imm.isLt
  have q1 : imm.toNat % 18446744073709551616 < 4294967296 := by omega
  have q2 : imm.toNat % 4294967296 = imm.toNat := by omega
  refine ⟨?_, ?_⟩
  all_goals first
    | (simp only [Fields.Fits, Fields.mkA]; omega)
    | simp [decodeFields, Fields.mkA, decodeC6, need, encodeSecond, Guard.ofCode_code hg, Opnd.ofCode_code hd, *]

theorem ld (g : Guard) (k : LdKind) (o : Order) (sc : Scope) (d : Opnd) (a : Opnd) (q : Qual) (off : Int) : Statement
    (.ld g k o sc d a q off) := by
  intro h x hx
  cases hx
  replace h : (wf2 g d a && loadOrderWf o sc && q.wf && offWf off) = true := h
  simp only [wf2, Bool.and_eq_true] at h
  obtain ⟨⟨⟨⟨⟨hg, hd⟩, ha⟩, e1⟩, hq⟩, e3⟩ := h
  have b0 := Guard.predCode_lt hg
  have b1 := g.pnCode_lt
  have b2 := Opnd.code_lt hd
  have b3 := Opnd.code_lt ha
  have b4 := orderM_lt o sc
  have b5 := Qual.code_lt hq
  have b6 := signedCode_lt 1024 off (by omega)
  have sooff := signedOf_off e3
  cases k <;> refine ⟨?_, ?_⟩
  all_goals first
    | (simp only [Fields.Fits, Fields.mkA, LdKind.code]; omega)
    | simp [decodeFields, Fields.mkA, decodeC2, decodeMem, need, LdKind.code, LdKind.ofCode, Guard.ofCode_code hg,
        Opnd.ofCode_code hd, Opnd.ofCode_code ha, Qual.ofCode_code hq, copyQual_code hq, *]

theorem st (g : Guard) (w : StWidth) (o : Order) (sc : Scope) (d : Opnd) (a : Opnd) (q : Qual) (off : Int) : Statement
    (.st g w o sc d a q off) := by
  intro h x hx
  cases hx
  replace h : (wf2 g d a && storeOrderWf o sc && q.wf && offWf off) = true := h
  simp only [wf2, Bool.and_eq_true] at h
  obtain ⟨⟨⟨⟨⟨hg, hd⟩, ha⟩, e1⟩, hq⟩, e3⟩ := h
  have b0 := Guard.predCode_lt hg
  have b1 := g.pnCode_lt
  have b2 := Opnd.code_lt hd
  have b3 := Opnd.code_lt ha
  have b4 := orderM_lt o sc
  have b5 := Qual.code_lt hq
  have b6 := signedCode_lt 1024 off (by omega)
  have sooff := signedOf_off e3
  cases w <;> refine ⟨?_, ?_⟩
  all_goals first
    | (simp only [Fields.Fits, Fields.mkA, StWidth.code]; omega)
    | simp [decodeFields, Fields.mkA, decodeC2, decodeMem, need, StWidth.code, StWidth.ofCode, Guard.ofCode_code hg,
        Opnd.ofCode_code hd, Opnd.ofCode_code ha, Qual.ofCode_code hq, copyQual_code hq, *]

theorem gath (g : Guard) (k : LdKind) (d : Opnd) (a : Opnd) (b : Opnd) (off : Int) : Statement (.gath g k d a b off)
    := by
  intro h x hx
  cases hx
  replace h : (wf3 g d a b && offWf off) = true := h
  simp only [wf3, Bool.and_eq_true] at h
  obtain ⟨⟨⟨⟨hg, hd⟩, ha⟩, hb⟩, e1⟩ := h
  have b0 := Guard.predCode_lt hg
  have b1 := g.pnCode_lt
  have b2 := Opnd.code_lt hd
  have b3 := Opnd.code_lt ha
  have b4 := Opnd.code_lt hb
  have b5 := signedCode_lt 1024 off (by omega)
  have sooff := signedOf_off e1
  cases k <;> refine ⟨?_, ?_⟩
  all_goals first
    | (simp only [Fields.Fits, Fields.mkA, LdKind.code]; omega)
    | simp [decodeFields, Fields.mkA, decodeC2, decodeMem, need, LdKind.code, LdKind.ofCode, Guard.ofCode_code hg,
        Opnd.ofCode_code hd, Opnd.ofCode_code ha, Opnd.ofCode_code hb, *]

theorem scat (g : Guard) (w : StWidth) (d : Opnd) (a : Opnd) (b : Opnd) (off : Int) : Statement (.scat g w d a b off)
    := by
  intro h x hx
  cases hx
  replace h : (wf3 g d a b && offWf off) = true := h
  simp only [wf3, Bool.and_eq_true] at h
  obtain ⟨⟨⟨⟨hg, hd⟩, ha⟩, hb⟩, e1⟩ := h
  have b0 := Guard.predCode_lt hg
  have b1 := g.pnCode_lt
  have b2 := Opnd.code_lt hd
  have b3 := Opnd.code_lt ha
  have b4 := Opnd.code_lt hb
  have b5 := signedCode_lt 1024 off (by omega)
  have sooff := signedOf_off e1
  cases w <;> refine ⟨?_, ?_⟩
  all_goals first
    | (simp only [Fields.Fits, Fields.mkA, StWidth.code]; omega)
    | simp [decodeFields, Fields.mkA, decodeC2, decodeMem, need, StWidth.code, StWidth.ofCode, Guard.ofCode_code hg,
        Opnd.ofCode_code hd, Opnd.ofCode_code ha, Opnd.ofCode_code hb, *]

theorem ldb (g : Guard) (k : LdKind) (buf : Buf) (d : Opnd) (a : Opnd) (off : Int) : Statement (.ldb g k buf d a off)
    := by
  intro h x hx
  cases hx
  replace h : (wf2 g d a && offWf off) = true := h
  simp only [wf2, Bool.and_eq_true] at h
  obtain ⟨⟨⟨hg, hd⟩, ha⟩, e1⟩ := h
  have b0 := Guard.predCode_lt hg
  have b1 := g.pnCode_lt
  have b2 := Opnd.code_lt hd
  have b3 := Opnd.code_lt ha
  have b4 := buf.code_lt
  have b5 := signedCode_lt 1024 off (by omega)
  have sooff := signedOf_off e1
  cases k <;> refine ⟨?_, ?_⟩
  all_goals first
    | (simp only [Fields.Fits, Fields.mkA, LdKind.code]; omega)
    | simp [decodeFields, Fields.mkA, decodeC2, decodeMem, need, LdKind.code, LdKind.ofCode, Guard.ofCode_code hg,
        Opnd.ofCode_code hd, Opnd.ofCode_code ha, *]

theorem stb (g : Guard) (w : StWidth) (buf : Buf) (d : Opnd) (a : Opnd) (off : Int) : Statement (.stb g w buf d a off)
    := by
  intro h x hx
  cases hx
  replace h : (wf2 g d a && offWf off) = true := h
  simp only [wf2, Bool.and_eq_true] at h
  obtain ⟨⟨⟨hg, hd⟩, ha⟩, e1⟩ := h
  have b0 := Guard.predCode_lt hg
  have b1 := g.pnCode_lt
  have b2 := Opnd.code_lt hd
  have b3 := Opnd.code_lt ha
  have b4 := buf.code_lt
  have b5 := signedCode_lt 1024 off (by omega)
  have sooff := signedOf_off e1
  cases w <;> refine ⟨?_, ?_⟩
  all_goals first
    | (simp only [Fields.Fits, Fields.mkA, StWidth.code]; omega)
    | simp [decodeFields, Fields.mkA, decodeC2, decodeMem, need, StWidth.code, StWidth.ofCode, Guard.ofCode_code hg,
        Opnd.ofCode_code hd, Opnd.ofCode_code ha, *]

theorem atom (g : Guard) (op : AOp) (k : AKind) (o : Order) (sc : Scope) (d : Opnd) (a : Opnd) (b : Opnd) : Statement
    (.atom g op k o sc d a b) := by
  intro h x hx
  cases hx
  replace h : (wf3 g d a b && atomWf op k) = true := h
  simp only [wf3, Bool.and_eq_true] at h
  obtain ⟨⟨⟨⟨hg, hd⟩, ha⟩, hb⟩, e1⟩ := h
  have b0 := Guard.predCode_lt hg
  have b1 := g.pnCode_lt
  have b2 := Opnd.code_lt hd
  have b3 := Opnd.code_lt ha
  have b4 := Opnd.code_lt hb
  have b5 := atomC_lt op k
  have b6 := orderM_lt o sc
  refine ⟨?_, ?_⟩
  all_goals first
    | (simp only [Fields.Fits, Fields.mkA]; omega)
    | simp [decodeFields, Fields.mkA, decodeC2, decodeAtom, need, Guard.ofCode_code hg, Opnd.ofCode_code hd,
        Opnd.ofCode_code ha, Opnd.ofCode_code hb, *]

theorem red (g : Guard) (op : AOp) (k : AKind) (o : Order) (sc : Scope) (a : Opnd) (b : Opnd) : Statement (.red g op k
    o sc a b) := by
  intro h x hx
  cases hx
  replace h : (wf2 g a b && redWf op k && redOrderWf o) = true := h
  simp only [wf2, Bool.and_eq_true] at h
  obtain ⟨⟨⟨⟨hg, ha⟩, hb⟩, e1⟩, e2⟩ := h
  have b0 := Guard.predCode_lt hg
  have b1 := g.pnCode_lt
  have b2 := Opnd.code_lt ha
  have b3 := Opnd.code_lt hb
  have b4 := atomC_lt op k
  have b5 := orderM_lt o sc
  refine ⟨?_, ?_⟩
  all_goals first
    | (simp only [Fields.Fits, Fields.mkA]; omega)
    | simp [decodeFields, Fields.mkA, decodeC2, decodeAtom, need, Guard.ofCode_code hg, Opnd.ofCode_code ha,
        Opnd.ofCode_code hb, *]

theorem redRet (g : Guard) (op : AOp) (k : AKind) (o : Order) (sc : Scope) (d : Opnd) (a : Opnd) (b : Opnd) :
    Statement (.redRet g op k o sc d a b) := by
  intro h x hx
  cases hx
  replace h : (wf3 g d a b && redWf op k && redOrderWf o) = true := h
  simp only [wf3, Bool.and_eq_true] at h
  obtain ⟨⟨⟨⟨⟨hg, hd⟩, ha⟩, hb⟩, e1⟩, e2⟩ := h
  have b0 := Guard.predCode_lt hg
  have b1 := g.pnCode_lt
  have b2 := Opnd.code_lt hd
  have b3 := Opnd.code_lt ha
  have b4 := Opnd.code_lt hb
  have b5 := atomC_lt op k
  have b6 := orderM_lt o sc
  refine ⟨?_, ?_⟩
  all_goals first
    | (simp only [Fields.Fits, Fields.mkA]; omega)
    | simp [decodeFields, Fields.mkA, decodeC2, decodeAtom, need, Guard.ofCode_code hg, Opnd.ofCode_code hd,
        Opnd.ofCode_code ha, Opnd.ofCode_code hb, *]

theorem fence (g : Guard) (o : Order) (sc : Scope) : Statement (.fence g o sc) := by
  intro h x hx
  cases hx
  replace h : (g.wf && decide (o ≠ .relaxed)) = true := h
  simp only [Bool.and_eq_true, decide_eq_true_eq] at h
  obtain ⟨hg, e1⟩ := h
  have b0 := Guard.predCode_lt hg
  have b1 := g.pnCode_lt
  have b2 := orderM_lt o sc
  refine ⟨?_, ?_⟩
  all_goals first
    | (simp only [Fields.Fits, Fields.mkA]; omega)
    | simp [decodeFields, Fields.mkA, decodeC2, need, Guard.ofCode_code hg, *]

theorem pref (g : Guard) (a : Opnd) (q : Qual) (off : Int) : Statement (.pref g a q off) := by
  intro h x hx
  cases hx
  replace h : (wf1 g a && q.wf && offWf off) = true := h
  simp only [wf1, Bool.and_eq_true] at h
  obtain ⟨⟨⟨hg, ha⟩, hq⟩, e2⟩ := h
  have b0 := Guard.predCode_lt hg
  have b1 := g.pnCode_lt
  have b2 := Opnd.code_lt ha
  have b3 := Qual.code_lt hq
  have b4 := signedCode_lt 1024 off (by omega)
  have sooff := signedOf_off e2
  refine ⟨?_, ?_⟩
  all_goals first
    | (simp only [Fields.Fits, Fields.mkA]; omega)
    | simp [decodeFields, Fields.mkA, decodeC2, need, Guard.ofCode_code hg, Opnd.ofCode_code ha, Qual.ofCode_code hq,
        copyQual_code hq, *]

theorem ipref (g : Guard) (a : Opnd) (off : Int) : Statement (.ipref g a off) := by
  intro h x hx
  cases hx
  replace h : (wf1 g a && offWf off) = true := h
  simp only [wf1, Bool.and_eq_true] at h
  obtain ⟨⟨hg, ha⟩, e1⟩ := h
  have b0 := Guard.predCode_lt hg
  have b1 := g.pnCode_lt
  have b2 := Opnd.code_lt ha
  have b3 := signedCode_lt 1024 off (by omega)
  have sooff := signedOf_off e1
  refine ⟨?_, ?_⟩
  all_goals first
    | (simp only [Fields.Fits, Fields.mkA]; omega)
    | simp [decodeFields, Fields.mkA, decodeC2, need, Guard.ofCode_code hg, Opnd.ofCode_code ha, *]

theorem copyAbuf (g : Guard) (q : Qual) (d : Opnd) (a : Opnd) (b : Opnd) (c : Opnd) : Statement (.copyAbuf g q d a b
    c) := by
  intro h x hx
  cases hx
  replace h : (wf4 g d a b c && q.wf) = true := h
  simp only [wf4, Bool.and_eq_true] at h
  obtain ⟨⟨⟨⟨⟨hg, hd⟩, ha⟩, hb⟩, hc⟩, hq⟩ := h
  have b0 := Guard.predCode_lt hg
  have b1 := g.pnCode_lt
  have b2 := Opnd.code_lt hd
  have b3 := Opnd.code_lt ha
  have b4 := Opnd.code_lt hb
  have b5 := Opnd.code_lt hc
  have b6 := Qual.code_lt hq
  refine ⟨?_, ?_⟩
  all_goals first
    | (simp only [Fields.Fits, Fields.mkA]; omega)
    | simp [decodeFields, Fields.mkA, decodeC2, need, Guard.ofCode_code hg, Opnd.ofCode_code hd, Opnd.ofCode_code ha,
        Opnd.ofCode_code hb, Opnd.ofCode_code hc, Qual.ofCode_code hq, copyQual_code hq, *]

theorem copyWbuf (g : Guard) (q : Qual) (d : Opnd) (a : Opnd) (b : Opnd) (c : Opnd) : Statement (.copyWbuf g q d a b
    c) := by
  intro h x hx
  cases hx
  replace h : (wf4 g d a b c && q.wf) = true := h
  simp only [wf4, Bool.and_eq_true] at h
  obtain ⟨⟨⟨⟨⟨hg, hd⟩, ha⟩, hb⟩, hc⟩, hq⟩ := h
  have b0 := Guard.predCode_lt hg
  have b1 := g.pnCode_lt
  have b2 := Opnd.code_lt hd
  have b3 := Opnd.code_lt ha
  have b4 := Opnd.code_lt hb
  have b5 := Opnd.code_lt hc
  have b6 := Qual.code_lt hq
  refine ⟨?_, ?_⟩
  all_goals first
    | (simp only [Fields.Fits, Fields.mkA]; omega)
    | simp [decodeFields, Fields.mkA, decodeC2, need, Guard.ofCode_code hg, Opnd.ofCode_code hd, Opnd.ofCode_code ha,
        Opnd.ofCode_code hb, Opnd.ofCode_code hc, Qual.ofCode_code hq, copyQual_code hq, *]

theorem copyOut (g : Guard) (cbuf : Bool) (q : Qual) (d : Opnd) (a : Opnd) (b : Opnd) (c : Opnd) : Statement (.copyOut
    g cbuf q d a b c) := by
  intro h x hx
  cases hx
  replace h : (wf4 g d a b c && q.wf) = true := h
  simp only [wf4, Bool.and_eq_true] at h
  obtain ⟨⟨⟨⟨⟨hg, hd⟩, ha⟩, hb⟩, hc⟩, hq⟩ := h
  have b0 := Guard.predCode_lt hg
  have b1 := g.pnCode_lt
  have b2 := Opnd.code_lt hd
  have b3 := Opnd.code_lt ha
  have b4 := Opnd.code_lt hb
  have b5 := Opnd.code_lt hc
  have b6 := Qual.code_lt hq
  have q1 : ¬ q.code / 8 = 1 := by omega
  have q2 : copyQual (q.code + 8) = q := by rw [← copyQual_add, copyQual_code hq]
  have q3 : (q.code + 8) / 8 = 1 := by omega
  cases cbuf <;> refine ⟨?_, ?_⟩
  all_goals first
    | (simp only [Fields.Fits, Fields.mkA, reduceIte, Bool.false_eq_true]; omega)
    | simp [decodeFields, Fields.mkA, decodeC2, need, Guard.ofCode_code hg, Opnd.ofCode_code hd, Opnd.ofCode_code ha,
        Opnd.ofCode_code hb, Opnd.ofCode_code hc, Qual.ofCode_code hq, copyQual_code hq, *]

theorem copyMc (g : Guard) (q : Qual) (d : Opnd) (a : Opnd) (b : Opnd) (c : Opnd) : Statement (.copyMc g q d a b c) :=
    by
  intro h x hx
  cases hx
  replace h : (wf4 g d a b c && q.wf) = true := h
  simp only [wf4, Bool.and_eq_true] at h
  obtain ⟨⟨⟨⟨⟨hg, hd⟩, ha⟩, hb⟩, hc⟩, hq⟩ := h
  have b0 := Guard.predCode_lt hg
  have b1 := g.pnCode_lt
  have b2 := Opnd.code_lt hd
  have b3 := Opnd.code_lt ha
  have b4 := Opnd.code_lt hb
  have b5 := Opnd.code_lt hc
  have b6 := Qual.code_lt hq
  refine ⟨?_, ?_⟩
  all_goals first
    | (simp only [Fields.Fits, Fields.mkA]; omega)
    | simp [decodeFields, Fields.mkA, decodeC2, need, Guard.ofCode_code hg, Opnd.ofCode_code hd, Opnd.ofCode_code ha,
        Opnd.ofCode_code hb, Opnd.ofCode_code hc, Qual.ofCode_code hq, copyQual_code hq, *]

theorem copyQ (g : Guard) (q : Qual) (d : Opnd) (a : Opnd) (b : Opnd) (c : Opnd) : Statement (.copyQ g q d a b c) :=
    by
  intro h x hx
  cases hx
  replace h : (wf4 g d a b c && q.wf) = true := h
  simp only [wf4, Bool.and_eq_true] at h
  obtain ⟨⟨⟨⟨⟨hg, hd⟩, ha⟩, hb⟩, hc⟩, hq⟩ := h
  have b0 := Guard.predCode_lt hg
  have b1 := g.pnCode_lt
  have b2 := Opnd.code_lt hd
  have b3 := Opnd.code_lt ha
  have b4 := Opnd.code_lt hb
  have b5 := Opnd.code_lt hc
  have b6 := Qual.code_lt hq
  refine ⟨?_, ?_⟩
  all_goals first
    | (simp only [Fields.Fits, Fields.mkA]; omega)
    | simp [decodeFields, Fields.mkA, decodeC2, need, Guard.ofCode_code hg, Opnd.ofCode_code hd, Opnd.ofCode_code ha,
        Opnd.ofCode_code hb, Opnd.ofCode_code hc, Qual.ofCode_code hq, copyQual_code hq, *]

theorem toolXpose (g : Guard) (buf : Buf) (d : Opnd) (a : Opnd) (b : Opnd) (c : Opnd) : Statement (.toolXpose g buf d
    a b c) := by
  intro h x hx
  cases hx
  replace h : (wf4 g d a b c) = true := h
  simp only [wf4, Bool.and_eq_true] at h
  obtain ⟨⟨⟨⟨hg, hd⟩, ha⟩, hb⟩, hc⟩ := h
  have b0 := Guard.predCode_lt hg
  have b1 := g.pnCode_lt
  have b2 := Opnd.code_lt hd
  have b3 := Opnd.code_lt ha
  have b4 := Opnd.code_lt hb
  have b5 := Opnd.code_lt hc
  have b6 := buf.code_lt
  refine ⟨?_, ?_⟩
  all_goals first
    | (simp only [Fields.Fits, Fields.mkA]; omega)
    | simp [decodeFields, Fields.mkA, decodeC2, need, Guard.ofCode_code hg, Opnd.ofCode_code hd, Opnd.ofCode_code ha,
        Opnd.ofCode_code hb, Opnd.ofCode_code hc, *]

theorem toolCvt (g : Guard) (buf : Buf) (d : Opnd) (a : Opnd) (b : Opnd) (c : Opnd) : Statement (.toolCvt g buf d a b
    c) := by
  intro h x hx
  cases hx
  replace h : (wf4 g d a b c) = true := h
  simp only [wf4, Bool.and_eq_true] at h
  obtain ⟨⟨⟨⟨hg, hd⟩, ha⟩, hb⟩, hc⟩ := h
  have b0 := Guard.predCode_lt hg
  have b1 := g.pnCode_lt
  have b2 := Opnd.code_lt hd
  have b3 := Opnd.code_lt ha
  have b4 := Opnd.code_lt hb
  have b5 := Opnd.code_lt hc
  have b6 := buf.code_lt
  refine ⟨?_, ?_⟩
  all_goals first
    | (simp only [Fields.Fits, Fields.mkA]; omega)
    | simp [decodeFields, Fields.mkA, decodeC2, need, Guard.ofCode_code hg, Opnd.ofCode_code hd, Opnd.ofCode_code ha,
        Opnd.ofCode_code hb, Opnd.ofCode_code hc, *]

theorem toolQuant (g : Guard) (buf : Buf) (d : Opnd) (a : Opnd) (b : Opnd) (c : Opnd) : Statement (.toolQuant g buf d
    a b c) := by
  intro h x hx
  cases hx
  replace h : (wf4 g d a b c) = true := h
  simp only [wf4, Bool.and_eq_true] at h
  obtain ⟨⟨⟨⟨hg, hd⟩, ha⟩, hb⟩, hc⟩ := h
  have b0 := Guard.predCode_lt hg
  have b1 := g.pnCode_lt
  have b2 := Opnd.code_lt hd
  have b3 := Opnd.code_lt ha
  have b4 := Opnd.code_lt hb
  have b5 := Opnd.code_lt hc
  have b6 := buf.code_lt
  refine ⟨?_, ?_⟩
  all_goals first
    | (simp only [Fields.Fits, Fields.mkA]; omega)
    | simp [decodeFields, Fields.mkA, decodeC2, need, Guard.ofCode_code hg, Opnd.ofCode_code hd, Opnd.ofCode_code ha,
        Opnd.ofCode_code hb, Opnd.ofCode_code hc, *]

theorem toolZero (g : Guard) (buf : Buf) (d : Opnd) (a : Opnd) (b : Opnd) (c : Opnd) : Statement (.toolZero g buf d a
    b c) := by
  intro h x hx
  cases hx
  replace h : (wf4 g d a b c) = true := h
  simp only [wf4, Bool.and_eq_true] at h
  obtain ⟨⟨⟨⟨hg, hd⟩, ha⟩, hb⟩, hc⟩ := h
  have b0 := Guard.predCode_lt hg
  have b1 := g.pnCode_lt
  have b2 := Opnd.code_lt hd
  have b3 := Opnd.code_lt ha
  have b4 := Opnd.code_lt hb
  have b5 := Opnd.code_lt hc
  have b6 := buf.code_lt
  refine ⟨?_, ?_⟩
  all_goals first
    | (simp only [Fields.Fits, Fields.mkA]; omega)
    | simp [decodeFields, Fields.mkA, decodeC2, need, Guard.ofCode_code hg, Opnd.ofCode_code hd, Opnd.ofCode_code ha,
        Opnd.ofCode_code hb, Opnd.ofCode_code hc, *]

theorem toolRsum (g : Guard) (buf : Buf) (d : Opnd) (a : Opnd) (b : Opnd) (c : Opnd) : Statement (.toolRsum g buf d a
    b c) := by
  intro h x hx
  cases hx
  replace h : (wf4 g d a b c) = true := h
  simp only [wf4, Bool.and_eq_true] at h
  obtain ⟨⟨⟨⟨hg, hd⟩, ha⟩, hb⟩, hc⟩ := h
  have b0 := Guard.predCode_lt hg
  have b1 := g.pnCode_lt
  have b2 := Opnd.code_lt hd
  have b3 := Opnd.code_lt ha
  have b4 := Opnd.code_lt hb
  have b5 := Opnd.code_lt hc
  have b6 := buf.code_lt
  refine ⟨?_, ?_⟩
  all_goals first
    | (simp only [Fields.Fits, Fields.mkA]; omega)
    | simp [decodeFields, Fields.mkA, decodeC2, need, Guard.ofCode_code hg, Opnd.ofCode_code hd, Opnd.ofCode_code ha,
        Opnd.ofCode_code hb, Opnd.ofCode_code hc, *]

theorem chaseLink (g : Guard) (d : Opnd) (a : Opnd) (b : Opnd) (c : Opnd) : Statement (.chaseLink g d a b c) := by
  intro h x hx
  cases hx
  replace h : (wf4 g d a b c) = true := h
  simp only [wf4, Bool.and_eq_true] at h
  obtain ⟨⟨⟨⟨hg, hd⟩, ha⟩, hb⟩, hc⟩ := h
  have b0 := Guard.predCode_lt hg
  have b1 := g.pnCode_lt
  have b2 := Opnd.code_lt hd
  have b3 := Opnd.code_lt ha
  have b4 := Opnd.code_lt hb
  have b5 := Opnd.code_lt hc
  refine ⟨?_, ?_⟩
  all_goals first
    | (simp only [Fields.Fits, Fields.mkA]; omega)
    | simp [decodeFields, Fields.mkA, decodeC2, need, Guard.ofCode_code hg, Opnd.ofCode_code hd, Opnd.ofCode_code ha,
        Opnd.ofCode_code hb, Opnd.ofCode_code hc, *]

theorem chaseIndex (g : Guard) (d : Opnd) (a : Opnd) (b : Opnd) (c : Opnd) : Statement (.chaseIndex g d a b c) := by
  intro h x hx
  cases hx
  replace h : (wf4 g d a b c) = true := h
  simp only [wf4, Bool.and_eq_true] at h
  obtain ⟨⟨⟨⟨hg, hd⟩, ha⟩, hb⟩, hc⟩ := h
  have b0 := Guard.predCode_lt hg
  have b1 := g.pnCode_lt
  have b2 := Opnd.code_lt hd
  have b3 := Opnd.code_lt ha
  have b4 := Opnd.code_lt hb
  have b5 := Opnd.code_lt hc
  refine ⟨?_, ?_⟩
  all_goals first
    | (simp only [Fields.Fits, Fields.mkA]; omega)
    | simp [decodeFields, Fields.mkA, decodeC2, need, Guard.ofCode_code hg, Opnd.ofCode_code hd, Opnd.ofCode_code ha,
        Opnd.ofCode_code hb, Opnd.ofCode_code hc, *]

theorem chaseSample (g : Guard) (d : Opnd) (a : Opnd) (b : Opnd) (c : Opnd) : Statement (.chaseSample g d a b c) := by
  intro h x hx
  cases hx
  replace h : (wf4 g d a b c) = true := h
  simp only [wf4, Bool.and_eq_true] at h
  obtain ⟨⟨⟨⟨hg, hd⟩, ha⟩, hb⟩, hc⟩ := h
  have b0 := Guard.predCode_lt hg
  have b1 := g.pnCode_lt
  have b2 := Opnd.code_lt hd
  have b3 := Opnd.code_lt ha
  have b4 := Opnd.code_lt hb
  have b5 := Opnd.code_lt hc
  refine ⟨?_, ?_⟩
  all_goals first
    | (simp only [Fields.Fits, Fields.mkA]; omega)
    | simp [decodeFields, Fields.mkA, decodeC2, need, Guard.ofCode_code hg, Opnd.ofCode_code hd, Opnd.ofCode_code ha,
        Opnd.ofCode_code hb, Opnd.ofCode_code hc, *]

theorem l1cfg (g : Guard) (n : Nat) : Statement (.l1cfg g n) := by
  intro h x hx
  cases hx
  replace h : (g.wf && decide (n ≤ 12)) = true := h
  simp only [Bool.and_eq_true, decide_eq_true_eq] at h
  obtain ⟨hg, e1⟩ := h
  have b0 := Guard.predCode_lt hg
  have b1 := g.pnCode_lt
  refine ⟨?_, ?_⟩
  all_goals first
    | (simp only [Fields.Fits, Fields.mkA, Fields.mkI]; omega)
    | simp [decodeFields, Fields.mkA, Fields.mkI, decodeC2, need, Guard.ofCode_code hg, *]

theorem l1cfgQ (g : Guard) (d : Opnd) : Statement (.l1cfgQ g d) := by
  intro h x hx
  cases hx
  replace h : (wf1 g d) = true := h
  simp only [wf1, Bool.and_eq_true] at h
  obtain ⟨hg, hd⟩ := h
  have b0 := Guard.predCode_lt hg
  have b1 := g.pnCode_lt
  have b2 := Opnd.code_lt hd
  have q1 : imm22 0 0 = 0 := rfl
  refine ⟨?_, ?_⟩
  all_goals first
    | (simp only [Fields.Fits, Fields.mkA, Fields.mkI]; omega)
    | simp [decodeFields, Fields.mkA, Fields.mkI, decodeC2, need, Guard.ofCode_code hg, Opnd.ofCode_code hd, *]

theorem waitc_key (g : Guard) (ld st tl n : Nat) (hg : g.wf = true) (h1 : n < 4194304) (h2 : n % 64 = 0)
    (h3 : n / 65536 = ld) (h4 : n / 1024 % 64 = st) (h5 : n / 64 % 16 = tl) :
    (Fields.mkI g 2 0x4D 0 0 0 n).Fits ∧ decodeFields (Fields.mkI g 2 0x4D 0 0 0 n) 0 = some (.waitc g ld st tl) := by
  have b0 := Guard.predCode_lt hg
  have b1 := g.pnCode_lt
  refine ⟨?_, ?_⟩
  · simp only [Fields.Fits, Fields.mkA, Fields.mkI]; omega
  · simp [decodeFields, Fields.mkA, Fields.mkI, decodeC2, need, imm22_parts, Guard.ofCode_code hg, *]

theorem waitc (g : Guard) (nld nst ntl : Nat) : Statement (.waitc g nld nst ntl) := by
  intro h x hx
  replace h : (g.wf && decide (nld < 64) && decide (nst < 64) && decide (ntl < 16)) = true := h
  simp only [Bool.and_eq_true, decide_eq_true_eq] at h
  obtain ⟨⟨⟨hg, e1⟩, e2⟩, e3⟩ := h
  have := waitc_key g nld nst ntl (nld * 65536 + nst * 1024 + ntl * 64) hg (by omega) (by omega) (by omega) (by omega)
      (by omega)
  replace hx : some (Fields.mkI g 2 0x4D 0 0 0 (nld * 65536 + nst * 1024 + ntl * 64)) = some x := hx
  exact Option.some.inj hx ▸ this

theorem cinvD (g : Guard) : Statement (.cinvD g) := by
  intro h x hx
  cases hx
  replace h : (g.wf) = true := h
  have hg := h
  have b0 := Guard.predCode_lt hg
  have b1 := g.pnCode_lt
  refine ⟨?_, ?_⟩
  all_goals first
    | (simp only [Fields.Fits, Fields.mkA]; omega)
    | simp [decodeFields, Fields.mkA, decodeC2, need, Guard.ofCode_code hg, *]

theorem cinvI (g : Guard) : Statement (.cinvI g) := by
  intro h x hx
  cases hx
  replace h : (g.wf) = true := h
  have hg := h
  have b0 := Guard.predCode_lt hg
  have b1 := g.pnCode_lt
  refine ⟨?_, ?_⟩
  all_goals first
    | (simp only [Fields.Fits, Fields.mkA]; omega)
    | simp [decodeFields, Fields.mkA, decodeC2, need, Guard.ofCode_code hg, *]

theorem cflush (g : Guard) (a : Opnd) (b : Opnd) : Statement (.cflush g a b) := by
  intro h x hx
  cases hx
  replace h : (wf2 g a b) = true := h
  simp only [wf2, Bool.and_eq_true] at h
  obtain ⟨⟨hg, ha⟩, hb⟩ := h
  have b0 := Guard.predCode_lt hg
  have b1 := g.pnCode_lt
  have b2 := Opnd.code_lt ha
  have b3 := Opnd.code_lt hb
  refine ⟨?_, ?_⟩
  all_goals first
    | (simp only [Fields.Fits, Fields.mkA]; omega)
    | simp [decodeFields, Fields.mkA, decodeC2, need, Guard.ofCode_code hg, Opnd.ofCode_code ha, Opnd.ofCode_code hb,
        *]

theorem tbind (g : Guard) (th : Nat) (d : Opnd) : Statement (.tbind g th d) := by
  intro h x hx
  cases hx
  replace h : (wf1 g d && decide (th < 32)) = true := h
  simp only [wf1, Bool.and_eq_true, decide_eq_true_eq] at h
  obtain ⟨⟨hg, hd⟩, e1⟩ := h
  have b0 := Guard.predCode_lt hg
  have b1 := g.pnCode_lt
  have b2 := Opnd.code_lt hd
  have hf : CmdFrame.none.wf = true := by decide
  have hm := CmdFrame.m3_lt CmdFrame.none; have hss := CmdFrame.ssCode_lt hf; have hbc := CmdFrame.barCode_lt hf
  have hw := (CmdFrame.none).wm.isLt
  have hfx := CmdFrame.ofCode_code hf th (by omega)
  have hm1 : (0 + 8 * CmdFrame.none.m3) / 8 = CmdFrame.none.m3 := by omega
  have hm2 : (0 + 8 * CmdFrame.none.m3) % 4 = 0 := by omega
  have hm3 : (0 + 8 * CmdFrame.none.m3) / 4 % 2 = 0 := by omega
  have hl : localOk (0 + 8 * CmdFrame.none.m3) CmdFrame.none = true := by decide
  have hx1 : (CmdFrame.none.barCode % 32 * 64 + th) % 64 = th := by omega
  simp only [Nat.add_zero, Nat.zero_add] at *
  refine ⟨?_, ?_⟩
  all_goals first
    | (simp only [Fields.Fits, Fields.mkA, Fields.mkE]; omega)
    | simp [decodeFields, Fields.mkA, Fields.mkE, decodeC3, need, Guard.ofCode_code hg, Opnd.ofCode_code hd, *]

theorem ldst (g : Guard) (arr : Nat) (f : CmdFrame) (d : Opnd) : Statement (.ldst g arr f d) := by
  intro h x hx
  cases hx
  replace h : (wf1 g d && decide (arr < 4) && f.wf) = true := h
  simp only [wf1, Bool.and_eq_true, decide_eq_true_eq] at h
  obtain ⟨⟨⟨hg, hd⟩, e1⟩, hf⟩ := h
  have b0 := Guard.predCode_lt hg
  have b1 := g.pnCode_lt
  have b2 := Opnd.code_lt hd
  have hm := CmdFrame.m3_lt f; have hss := CmdFrame.ssCode_lt hf; have hbc := CmdFrame.barCode_lt hf
  have hw := (f).wm.isLt
  have hfx := CmdFrame.ofCode_code hf 0 (by omega)
  have hm1 : (arr + 8 * f.m3) / 8 = f.m3 := by omega
  have hm2 : (arr + 8 * f.m3) % 4 = arr := by omega
  have hm3 : (arr + 8 * f.m3) / 4 % 2 = 0 := by omega
  have hx1 : (f.barCode % 32 * 64 + 0) % 64 = 0 := by omega
  simp only [Nat.add_zero, Nat.zero_add] at *
  refine ⟨?_, ?_⟩
  all_goals first
    | (simp only [Fields.Fits, Fields.mkA, Fields.mkE]; omega)
    | simp [decodeFields, Fields.mkA, Fields.mkE, decodeC3, need, Guard.ofCode_code hg, Opnd.ofCode_code hd, *]

theorem cbtload (g : Guard) (tbl : Nat) (f : CmdFrame) (d : Opnd) : Statement (.cbtload g tbl f d) := by
  intro h x hx
  cases hx
  replace h : (wf1 g d && decide (tbl < 16) && f.wf) = true := h
  simp only [wf1, Bool.and_eq_true, decide_eq_true_eq] at h
  obtain ⟨⟨⟨hg, hd⟩, e1⟩, hf⟩ := h
  have b0 := Guard.predCode_lt hg
  have b1 := g.pnCode_lt
  have b2 := Opnd.code_lt hd
  have hm := CmdFrame.m3_lt f; have hss := CmdFrame.ssCode_lt hf; have hbc := CmdFrame.barCode_lt hf
  have hw := (f).wm.isLt
  have hfx := CmdFrame.ofCode_code hf tbl (by omega)
  have hm1 : (0 + 8 * f.m3) / 8 = f.m3 := by omega
  have hm2 : (0 + 8 * f.m3) % 4 = 0 := by omega
  have hm3 : (0 + 8 * f.m3) / 4 % 2 = 0 := by omega
  have hx1 : (f.barCode % 32 * 64 + tbl) % 64 = tbl := by omega
  simp only [Nat.add_zero, Nat.zero_add] at *
  refine ⟨?_, ?_⟩
  all_goals first
    | (simp only [Fields.Fits, Fields.mkA, Fields.mkE]; omega)
    | simp [decodeFields, Fields.mkA, Fields.mkE, decodeC3, need, Guard.ofCode_code hg, Opnd.ofCode_code hd, *]

theorem mswap (g : Guard) (arr : Nat) (f : CmdFrame) : Statement (.mswap g arr f) := by
  intro h x hx
  cases hx
  replace h : (g.wf && decide (arr < 4) && f.wf) = true := h
  simp only [Bool.and_eq_true, decide_eq_true_eq] at h
  obtain ⟨⟨hg, e1⟩, hf⟩ := h
  have b0 := Guard.predCode_lt hg
  have b1 := g.pnCode_lt
  have hm := CmdFrame.m3_lt f; have hss := CmdFrame.ssCode_lt hf; have hbc := CmdFrame.barCode_lt hf
  have hw := (f).wm.isLt
  have hfx := CmdFrame.ofCode_code hf 0 (by omega)
  have hm1 : (arr + 8 * f.m3) / 8 = f.m3 := by omega
  have hm2 : (arr + 8 * f.m3) % 4 = arr := by omega
  have hm3 : (arr + 8 * f.m3) / 4 % 2 = 0 := by omega
  have hx1 : (f.barCode % 32 * 64 + 0) % 64 = 0 := by omega
  simp only [Nat.add_zero, Nat.zero_add] at *
  refine ⟨?_, ?_⟩
  all_goals first
    | (simp only [Fields.Fits, Fields.mkA, Fields.mkE]; omega)
    | simp [decodeFields, Fields.mkA, Fields.mkE, decodeC3, need, Guard.ofCode_code hg, *]

theorem mstream (g : Guard) (arr : Nat) (f : CmdFrame) (d : Opnd) : Statement (.mstream g arr f d) := by
  intro h x hx
  cases hx
  replace h : (wf1 g d && decide (arr < 4) && f.wf) = true := h
  simp only [wf1, Bool.and_eq_true, decide_eq_true_eq] at h
  obtain ⟨⟨⟨hg, hd⟩, e1⟩, hf⟩ := h
  have b0 := Guard.predCode_lt hg
  have b1 := g.pnCode_lt
  have b2 := Opnd.code_lt hd
  have hm := CmdFrame.m3_lt f; have hss := CmdFrame.ssCode_lt hf; have hbc := CmdFrame.barCode_lt hf
  have hw := (f).wm.isLt
  have hfx := CmdFrame.ofCode_code hf 0 (by omega)
  have hm1 : (arr + 8 * f.m3) / 8 = f.m3 := by omega
  have hm2 : (arr + 8 * f.m3) % 4 = arr := by omega
  have hm3 : (arr + 8 * f.m3) / 4 % 2 = 0 := by omega
  have hx1 : (f.barCode % 32 * 64 + 0) % 64 = 0 := by omega
  simp only [Nat.add_zero, Nat.zero_add] at *
  refine ⟨?_, ?_⟩
  all_goals first
    | (simp only [Fields.Fits, Fields.mkA, Fields.mkE]; omega)
    | simp [decodeFields, Fields.mkA, Fields.mkE, decodeC3, need, Guard.ofCode_code hg, Opnd.ofCode_code hd, *]

theorem mop (g : Guard) (f : CmdFrame) (d : Opnd) : Statement (.mop g f d) := by
  intro h x hx
  cases hx
  replace h : (wf1 g d && f.wf) = true := h
  simp only [wf1, Bool.and_eq_true] at h
  obtain ⟨⟨hg, hd⟩, hf⟩ := h
  have b0 := Guard.predCode_lt hg
  have b1 := g.pnCode_lt
  have b2 := Opnd.code_lt hd
  have hm := CmdFrame.m3_lt f; have hss := CmdFrame.ssCode_lt hf; have hbc := CmdFrame.barCode_lt hf
  have hw := (f).wm.isLt
  have hfx := CmdFrame.ofCode_code hf 0 (by omega)
  have hm1 : (0 + 8 * f.m3) / 8 = f.m3 := by omega
  have hm2 : (0 + 8 * f.m3) % 4 = 0 := by omega
  have hm3 : (0 + 8 * f.m3) / 4 % 2 = 0 := by omega
  have hx1 : (f.barCode % 32 * 64 + 0) % 64 = 0 := by omega
  simp only [Nat.add_zero, Nat.zero_add] at *
  refine ⟨?_, ?_⟩
  all_goals first
    | (simp only [Fields.Fits, Fields.mkA, Fields.mkE]; omega)
    | simp [decodeFields, Fields.mkA, Fields.mkE, decodeC3, need, Guard.ofCode_code hg, Opnd.ofCode_code hd, *]

theorem mzero (g : Guard) (f : CmdFrame) (d : Opnd) : Statement (.mzero g f d) := by
  intro h x hx
  cases hx
  replace h : (wf1 g d && f.wf) = true := h
  simp only [wf1, Bool.and_eq_true] at h
  obtain ⟨⟨hg, hd⟩, hf⟩ := h
  have b0 := Guard.predCode_lt hg
  have b1 := g.pnCode_lt
  have b2 := Opnd.code_lt hd
  have hm := CmdFrame.m3_lt f; have hss := CmdFrame.ssCode_lt hf; have hbc := CmdFrame.barCode_lt hf
  have hw := (f).wm.isLt
  have hfx := CmdFrame.ofCode_code hf 0 (by omega)
  have hm1 : (0 + 8 * f.m3) / 8 = f.m3 := by omega
  have hm2 : (0 + 8 * f.m3) % 4 = 0 := by omega
  have hm3 : (0 + 8 * f.m3) / 4 % 2 = 0 := by omega
  have hx1 : (f.barCode % 32 * 64 + 0) % 64 = 0 := by omega
  simp only [Nat.add_zero, Nat.zero_add] at *
  refine ⟨?_, ?_⟩
  all_goals first
    | (simp only [Fields.Fits, Fields.mkA, Fields.mkE]; omega)
    | simp [decodeFields, Fields.mkA, Fields.mkE, decodeC3, need, Guard.ofCode_code hg, Opnd.ofCode_code hd, *]

theorem chainCfg (g : Guard) (f : CmdFrame) (d : Opnd) : Statement (.chainCfg g f d) := by
  intro h x hx
  cases hx
  replace h : (wf1 g d && f.wf) = true := h
  simp only [wf1, Bool.and_eq_true] at h
  obtain ⟨⟨hg, hd⟩, hf⟩ := h
  have b0 := Guard.predCode_lt hg
  have b1 := g.pnCode_lt
  have b2 := Opnd.code_lt hd
  have hm := CmdFrame.m3_lt f; have hss := CmdFrame.ssCode_lt hf; have hbc := CmdFrame.barCode_lt hf
  have hw := (f).wm.isLt
  have hfx := CmdFrame.ofCode_code hf 0 (by omega)
  have hm1 : (0 + 8 * f.m3) / 8 = f.m3 := by omega
  have hm2 : (0 + 8 * f.m3) % 4 = 0 := by omega
  have hm3 : (0 + 8 * f.m3) / 4 % 2 = 0 := by omega
  have hx1 : (f.barCode % 32 * 64 + 0) % 64 = 0 := by omega
  simp only [Nat.add_zero, Nat.zero_add] at *
  refine ⟨?_, ?_⟩
  all_goals first
    | (simp only [Fields.Fits, Fields.mkA, Fields.mkE]; omega)
    | simp [decodeFields, Fields.mkA, Fields.mkE, decodeC3, need, Guard.ofCode_code hg, Opnd.ofCode_code hd, *]

theorem chainStep (g : Guard) (f : CmdFrame) (d : Opnd) : Statement (.chainStep g f d) := by
  intro h x hx
  cases hx
  replace h : (wf1 g d && f.wf) = true := h
  simp only [wf1, Bool.and_eq_true] at h
  obtain ⟨⟨hg, hd⟩, hf⟩ := h
  have b0 := Guard.predCode_lt hg
  have b1 := g.pnCode_lt
  have b2 := Opnd.code_lt hd
  have hm := CmdFrame.m3_lt f; have hss := CmdFrame.ssCode_lt hf; have hbc := CmdFrame.barCode_lt hf
  have hw := (f).wm.isLt
  have hfx := CmdFrame.ofCode_code hf 0 (by omega)
  have hm1 : (0 + 8 * f.m3) / 8 = f.m3 := by omega
  have hm2 : (0 + 8 * f.m3) % 4 = 0 := by omega
  have hm3 : (0 + 8 * f.m3) / 4 % 2 = 0 := by omega
  have hx1 : (f.barCode % 32 * 64 + 0) % 64 = 0 := by omega
  simp only [Nat.add_zero, Nat.zero_add] at *
  refine ⟨?_, ?_⟩
  all_goals first
    | (simp only [Fields.Fits, Fields.mkA, Fields.mkE]; omega)
    | simp [decodeFields, Fields.mkA, Fields.mkE, decodeC3, need, Guard.ofCode_code hg, Opnd.ofCode_code hd, *]

theorem chainRun (g : Guard) (f : CmdFrame) (d : Opnd) : Statement (.chainRun g f d) := by
  intro h x hx
  cases hx
  replace h : (wf1 g d && f.wf) = true := h
  simp only [wf1, Bool.and_eq_true] at h
  obtain ⟨⟨hg, hd⟩, hf⟩ := h
  have b0 := Guard.predCode_lt hg
  have b1 := g.pnCode_lt
  have b2 := Opnd.code_lt hd
  have hm := CmdFrame.m3_lt f; have hss := CmdFrame.ssCode_lt hf; have hbc := CmdFrame.barCode_lt hf
  have hw := (f).wm.isLt
  have hfx := CmdFrame.ofCode_code hf 0 (by omega)
  have hm1 : (0 + 8 * f.m3) / 8 = f.m3 := by omega
  have hm2 : (0 + 8 * f.m3) % 4 = 0 := by omega
  have hm3 : (0 + 8 * f.m3) / 4 % 2 = 0 := by omega
  have hx1 : (f.barCode % 32 * 64 + 0) % 64 = 0 := by omega
  simp only [Nat.add_zero, Nat.zero_add] at *
  refine ⟨?_, ?_⟩
  all_goals first
    | (simp only [Fields.Fits, Fields.mkA, Fields.mkE]; omega)
    | simp [decodeFields, Fields.mkA, Fields.mkE, decodeC3, need, Guard.ofCode_code hg, Opnd.ofCode_code hd, *]

theorem bdSet (g : Guard) (n : Nat) (d : Opnd) : Statement (.bdSet g n d) := by
  intro h x hx
  cases hx
  replace h : (wf1 g d && decide (n < 16)) = true := h
  simp only [wf1, Bool.and_eq_true, decide_eq_true_eq] at h
  obtain ⟨⟨hg, hd⟩, e1⟩ := h
  have b0 := Guard.predCode_lt hg
  have b1 := g.pnCode_lt
  have b2 := Opnd.code_lt hd
  have hf : CmdFrame.none.wf = true := by decide
  have hm := CmdFrame.m3_lt CmdFrame.none; have hss := CmdFrame.ssCode_lt hf; have hbc := CmdFrame.barCode_lt hf
  have hw := (CmdFrame.none).wm.isLt
  have hfx := CmdFrame.ofCode_code hf n (by omega)
  have hm1 : (0 + 8 * CmdFrame.none.m3) / 8 = CmdFrame.none.m3 := by omega
  have hm2 : (0 + 8 * CmdFrame.none.m3) % 4 = 0 := by omega
  have hm3 : (0 + 8 * CmdFrame.none.m3) / 4 % 2 = 0 := by omega
  have hl : localOk (0 + 8 * CmdFrame.none.m3) CmdFrame.none = true := by decide
  have hx1 : (CmdFrame.none.barCode % 32 * 64 + n) % 64 = n := by omega
  simp only [Nat.add_zero, Nat.zero_add] at *
  refine ⟨?_, ?_⟩
  all_goals first
    | (simp only [Fields.Fits, Fields.mkA, Fields.mkE]; omega)
    | simp [decodeFields, Fields.mkA, Fields.mkE, decodeC3, need, Guard.ofCode_code hg, Opnd.ofCode_code hd, *]

theorem bdGet (g : Guard) (n : Nat) (d : Opnd) : Statement (.bdGet g n d) := by
  intro h x hx
  cases hx
  replace h : (wf1 g d && decide (n < 16)) = true := h
  simp only [wf1, Bool.and_eq_true, decide_eq_true_eq] at h
  obtain ⟨⟨hg, hd⟩, e1⟩ := h
  have b0 := Guard.predCode_lt hg
  have b1 := g.pnCode_lt
  have b2 := Opnd.code_lt hd
  have hf : CmdFrame.none.wf = true := by decide
  have hm := CmdFrame.m3_lt CmdFrame.none; have hss := CmdFrame.ssCode_lt hf; have hbc := CmdFrame.barCode_lt hf
  have hw := (CmdFrame.none).wm.isLt
  have hfx := CmdFrame.ofCode_code hf n (by omega)
  have hm1 : (0 + 8 * CmdFrame.none.m3) / 8 = CmdFrame.none.m3 := by omega
  have hm2 : (0 + 8 * CmdFrame.none.m3) % 4 = 0 := by omega
  have hm3 : (0 + 8 * CmdFrame.none.m3) / 4 % 2 = 0 := by omega
  have hl : localOk (0 + 8 * CmdFrame.none.m3) CmdFrame.none = true := by decide
  have hx1 : (CmdFrame.none.barCode % 32 * 64 + n) % 64 = n := by omega
  simp only [Nat.add_zero, Nat.zero_add] at *
  refine ⟨?_, ?_⟩
  all_goals first
    | (simp only [Fields.Fits, Fields.mkA, Fields.mkE]; omega)
    | simp [decodeFields, Fields.mkA, Fields.mkE, decodeC3, need, Guard.ofCode_code hg, Opnd.ofCode_code hd, *]

theorem dsrd (g : Guard) (d : Opnd) : Statement (.dsrd g d) := by
  intro h x hx
  cases hx
  replace h : (wf1 g d) = true := h
  simp only [wf1, Bool.and_eq_true] at h
  obtain ⟨hg, hd⟩ := h
  have b0 := Guard.predCode_lt hg
  have b1 := g.pnCode_lt
  have b2 := Opnd.code_lt hd
  have hf : CmdFrame.none.wf = true := by decide
  have hm := CmdFrame.m3_lt CmdFrame.none; have hss := CmdFrame.ssCode_lt hf; have hbc := CmdFrame.barCode_lt hf
  have hw := (CmdFrame.none).wm.isLt
  have hfx := CmdFrame.ofCode_code hf 0 (by omega)
  have hm1 : (0 + 8 * CmdFrame.none.m3) / 8 = CmdFrame.none.m3 := by omega
  have hm2 : (0 + 8 * CmdFrame.none.m3) % 4 = 0 := by omega
  have hm3 : (0 + 8 * CmdFrame.none.m3) / 4 % 2 = 0 := by omega
  have hl : localOk (0 + 8 * CmdFrame.none.m3) CmdFrame.none = true := by decide
  have hx1 : (CmdFrame.none.barCode % 32 * 64 + 0) % 64 = 0 := by omega
  simp only [Nat.add_zero, Nat.zero_add] at *
  refine ⟨?_, ?_⟩
  all_goals first
    | (simp only [Fields.Fits, Fields.mkA, Fields.mkE]; omega)
    | simp [decodeFields, Fields.mkA, Fields.mkE, decodeC3, need, Guard.ofCode_code hg, Opnd.ofCode_code hd, *]

theorem setNew (g : Guard) (d : Opnd) : Statement (.setNew g d) := by
  intro h x hx
  cases hx
  replace h : (wf1 g d) = true := h
  simp only [wf1, Bool.and_eq_true] at h
  obtain ⟨hg, hd⟩ := h
  have b0 := Guard.predCode_lt hg
  have b1 := g.pnCode_lt
  have b2 := Opnd.code_lt hd
  refine ⟨?_, ?_⟩
  all_goals first
    | (simp only [Fields.Fits, Fields.mkA]; omega)
    | simp [decodeFields, Fields.mkA, decodeC4, need, Guard.ofCode_code hg, Opnd.ofCode_code hd, *]

theorem setFree (g : Guard) (a : Opnd) : Statement (.setFree g a) := by
  intro h x hx
  cases hx
  replace h : (wf1 g a) = true := h
  simp only [wf1, Bool.and_eq_true] at h
  obtain ⟨hg, ha⟩ := h
  have b0 := Guard.predCode_lt hg
  have b1 := g.pnCode_lt
  have b2 := Opnd.code_lt ha
  refine ⟨?_, ?_⟩
  all_goals first
    | (simp only [Fields.Fits, Fields.mkA]; omega)
    | simp [decodeFields, Fields.mkA, decodeC4, need, Guard.ofCode_code hg, Opnd.ofCode_code ha, *]

theorem setIns (g : Guard) (wr : Bool) (d : Opnd) (a : Opnd) (b : Opnd) : Statement (.setIns g wr d a b) := by
  intro h x hx
  cases hx
  replace h : (wf3 g d a b && (wr || decide (d = .v 0))) = true := h
  simp only [wf3, Bool.and_eq_true, decide_eq_true_eq] at h
  obtain ⟨⟨⟨⟨hg, hd⟩, ha⟩, hb⟩, e1⟩ := h
  have b0 := Guard.predCode_lt hg
  have b1 := g.pnCode_lt
  have b2 := Opnd.code_lt hd
  have b3 := Opnd.code_lt ha
  have b4 := Opnd.code_lt hb
  simp only [Bool.or_eq_true, decide_eq_true_eq] at e1
  have hv : ∀ o : Opnd, o = .v 0 → o.code = 0 := by rintro _ rfl; rfl
  have e1a : wr = false → d.code = 0 := by rintro rfl; exact hv d (by simpa using e1)
  have e1z : wr = false → Opnd.ofCode 0 = d := by rintro rfl; have := e1a rfl; rw [← this, Opnd.ofCode_code hd]
  clear e1
  cases wr <;> refine ⟨?_, ?_⟩
  all_goals first
    | (simp only [Fields.Fits, Fields.mkA, reduceIte, Bool.false_eq_true]; omega)
    | simp [decodeFields, Fields.mkA, decodeC4, need, Guard.ofCode_code hg, Opnd.ofCode_code hd, Opnd.ofCode_code ha,
        Opnd.ofCode_code hb, *]

theorem setDel (g : Guard) (wr : Bool) (d : Opnd) (a : Opnd) (b : Opnd) : Statement (.setDel g wr d a b) := by
  intro h x hx
  cases hx
  replace h : (wf3 g d a b && (wr || decide (d = .v 0))) = true := h
  simp only [wf3, Bool.and_eq_true, decide_eq_true_eq] at h
  obtain ⟨⟨⟨⟨hg, hd⟩, ha⟩, hb⟩, e1⟩ := h
  have b0 := Guard.predCode_lt hg
  have b1 := g.pnCode_lt
  have b2 := Opnd.code_lt hd
  have b3 := Opnd.code_lt ha
  have b4 := Opnd.code_lt hb
  simp only [Bool.or_eq_true, decide_eq_true_eq] at e1
  have hv : ∀ o : Opnd, o = .v 0 → o.code = 0 := by rintro _ rfl; rfl
  have e1a : wr = false → d.code = 0 := by rintro rfl; exact hv d (by simpa using e1)
  have e1z : wr = false → Opnd.ofCode 0 = d := by rintro rfl; have := e1a rfl; rw [← this, Opnd.ofCode_code hd]
  clear e1
  cases wr <;> refine ⟨?_, ?_⟩
  all_goals first
    | (simp only [Fields.Fits, Fields.mkA, reduceIte, Bool.false_eq_true]; omega)
    | simp [decodeFields, Fields.mkA, decodeC4, need, Guard.ofCode_code hg, Opnd.ofCode_code hd, Opnd.ofCode_code ha,
        Opnd.ofCode_code hb, *]

theorem setHas (g : Guard) (d : Opnd) (a : Opnd) (b : Opnd) : Statement (.setHas g d a b) := by
  intro h x hx
  cases hx
  replace h : (wf3 g d a b) = true := h
  simp only [wf3, Bool.and_eq_true] at h
  obtain ⟨⟨⟨hg, hd⟩, ha⟩, hb⟩ := h
  have b0 := Guard.predCode_lt hg
  have b1 := g.pnCode_lt
  have b2 := Opnd.code_lt hd
  have b3 := Opnd.code_lt ha
  have b4 := Opnd.code_lt hb
  refine ⟨?_, ?_⟩
  all_goals first
    | (simp only [Fields.Fits, Fields.mkA]; omega)
    | simp [decodeFields, Fields.mkA, decodeC4, need, Guard.ofCode_code hg, Opnd.ofCode_code hd, Opnd.ofCode_code ha,
        Opnd.ofCode_code hb, *]

theorem setCard (g : Guard) (d : Opnd) (a : Opnd) : Statement (.setCard g d a) := by
  intro h x hx
  cases hx
  replace h : (wf2 g d a) = true := h
  simp only [wf2, Bool.and_eq_true] at h
  obtain ⟨⟨hg, hd⟩, ha⟩ := h
  have b0 := Guard.predCode_lt hg
  have b1 := g.pnCode_lt
  have b2 := Opnd.code_lt hd
  have b3 := Opnd.code_lt ha
  refine ⟨?_, ?_⟩
  all_goals first
    | (simp only [Fields.Fits, Fields.mkA]; omega)
    | simp [decodeFields, Fields.mkA, decodeC4, need, Guard.ofCode_code hg, Opnd.ofCode_code hd, Opnd.ofCode_code ha,
        *]

theorem setOr (g : Guard) (a : Opnd) (b : Opnd) (c : Opnd) : Statement (.setOr g a b c) := by
  intro h x hx
  cases hx
  replace h : (wf3 g a b c) = true := h
  simp only [wf3, Bool.and_eq_true] at h
  obtain ⟨⟨⟨hg, ha⟩, hb⟩, hc⟩ := h
  have b0 := Guard.predCode_lt hg
  have b1 := g.pnCode_lt
  have b2 := Opnd.code_lt ha
  have b3 := Opnd.code_lt hb
  have b4 := Opnd.code_lt hc
  refine ⟨?_, ?_⟩
  all_goals first
    | (simp only [Fields.Fits, Fields.mkA]; omega)
    | simp [decodeFields, Fields.mkA, decodeC4, need, Guard.ofCode_code hg, Opnd.ofCode_code ha, Opnd.ofCode_code hb,
        Opnd.ofCode_code hc, *]

theorem setAnd (g : Guard) (a : Opnd) (b : Opnd) (c : Opnd) : Statement (.setAnd g a b c) := by
  intro h x hx
  cases hx
  replace h : (wf3 g a b c) = true := h
  simp only [wf3, Bool.and_eq_true] at h
  obtain ⟨⟨⟨hg, ha⟩, hb⟩, hc⟩ := h
  have b0 := Guard.predCode_lt hg
  have b1 := g.pnCode_lt
  have b2 := Opnd.code_lt ha
  have b3 := Opnd.code_lt hb
  have b4 := Opnd.code_lt hc
  refine ⟨?_, ?_⟩
  all_goals first
    | (simp only [Fields.Fits, Fields.mkA]; omega)
    | simp [decodeFields, Fields.mkA, decodeC4, need, Guard.ofCode_code hg, Opnd.ofCode_code ha, Opnd.ofCode_code hb,
        Opnd.ofCode_code hc, *]

theorem setSub (g : Guard) (a : Opnd) (b : Opnd) (c : Opnd) : Statement (.setSub g a b c) := by
  intro h x hx
  cases hx
  replace h : (wf3 g a b c) = true := h
  simp only [wf3, Bool.and_eq_true] at h
  obtain ⟨⟨⟨hg, ha⟩, hb⟩, hc⟩ := h
  have b0 := Guard.predCode_lt hg
  have b1 := g.pnCode_lt
  have b2 := Opnd.code_lt ha
  have b3 := Opnd.code_lt hb
  have b4 := Opnd.code_lt hc
  refine ⟨?_, ?_⟩
  all_goals first
    | (simp only [Fields.Fits, Fields.mkA]; omega)
    | simp [decodeFields, Fields.mkA, decodeC4, need, Guard.ofCode_code hg, Opnd.ofCode_code ha, Opnd.ofCode_code hb,
        Opnd.ofCode_code hc, *]

theorem setIn (g : Guard) (a : Opnd) (b : Opnd) (c : Opnd) : Statement (.setIn g a b c) := by
  intro h x hx
  cases hx
  replace h : (wf3 g a b c) = true := h
  simp only [wf3, Bool.and_eq_true] at h
  obtain ⟨⟨⟨hg, ha⟩, hb⟩, hc⟩ := h
  have b0 := Guard.predCode_lt hg
  have b1 := g.pnCode_lt
  have b2 := Opnd.code_lt ha
  have b3 := Opnd.code_lt hb
  have b4 := Opnd.code_lt hc
  refine ⟨?_, ?_⟩
  all_goals first
    | (simp only [Fields.Fits, Fields.mkA]; omega)
    | simp [decodeFields, Fields.mkA, decodeC4, need, Guard.ofCode_code hg, Opnd.ofCode_code ha, Opnd.ofCode_code hb,
        Opnd.ofCode_code hc, *]

theorem setOut (g : Guard) (d : Opnd) (a : Opnd) (b : Opnd) (c : Opnd) : Statement (.setOut g d a b c) := by
  intro h x hx
  cases hx
  replace h : (wf4 g d a b c) = true := h
  simp only [wf4, Bool.and_eq_true] at h
  obtain ⟨⟨⟨⟨hg, hd⟩, ha⟩, hb⟩, hc⟩ := h
  have b0 := Guard.predCode_lt hg
  have b1 := g.pnCode_lt
  have b2 := Opnd.code_lt hd
  have b3 := Opnd.code_lt ha
  have b4 := Opnd.code_lt hb
  have b5 := Opnd.code_lt hc
  refine ⟨?_, ?_⟩
  all_goals first
    | (simp only [Fields.Fits, Fields.mkA]; omega)
    | simp [decodeFields, Fields.mkA, decodeC4, need, Guard.ofCode_code hg, Opnd.ofCode_code hd, Opnd.ofCode_code ha,
        Opnd.ofCode_code hb, Opnd.ofCode_code hc, *]

theorem setIter (g : Guard) (d : Opnd) (a : Opnd) (c : Opnd) : Statement (.setIter g d a c) := by
  intro h x hx
  cases hx
  replace h : (wf3 g d a c) = true := h
  simp only [wf3, Bool.and_eq_true] at h
  obtain ⟨⟨⟨hg, hd⟩, ha⟩, hc⟩ := h
  have b0 := Guard.predCode_lt hg
  have b1 := g.pnCode_lt
  have b2 := Opnd.code_lt hd
  have b3 := Opnd.code_lt ha
  have b4 := Opnd.code_lt hc
  refine ⟨?_, ?_⟩
  all_goals first
    | (simp only [Fields.Fits, Fields.mkA]; omega)
    | simp [decodeFields, Fields.mkA, decodeC4, need, Guard.ofCode_code hg, Opnd.ofCode_code hd, Opnd.ofCode_code ha,
        Opnd.ofCode_code hc, *]

theorem setHint (g : Guard) (rep : Rep) (a : Opnd) : Statement (.setHint g rep a) := by
  intro h x hx
  cases hx
  replace h : (wf1 g a) = true := h
  simp only [wf1, Bool.and_eq_true] at h
  obtain ⟨hg, ha⟩ := h
  have b0 := Guard.predCode_lt hg
  have b1 := g.pnCode_lt
  have b2 := Opnd.code_lt ha
  have b3 := rep.code_lt
  have q1 : ¬ rep.code = 8 := by cases rep <;> decide
  refine ⟨?_, ?_⟩
  all_goals first
    | (simp only [Fields.Fits, Fields.mkA]; omega)
    | simp [decodeFields, Fields.mkA, decodeC4, need, Guard.ofCode_code hg, Opnd.ofCode_code ha, *]

theorem setHintNone (g : Guard) (a : Opnd) : Statement (.setHintNone g a) := by
  intro h x hx
  cases hx
  replace h : (wf1 g a) = true := h
  simp only [wf1, Bool.and_eq_true] at h
  obtain ⟨hg, ha⟩ := h
  have b0 := Guard.predCode_lt hg
  have b1 := g.pnCode_lt
  have b2 := Opnd.code_lt ha
  refine ⟨?_, ?_⟩
  all_goals first
    | (simp only [Fields.Fits, Fields.mkA]; omega)
    | simp [decodeFields, Fields.mkA, decodeC4, need, Guard.ofCode_code hg, Opnd.ofCode_code ha, *]

theorem setCost (g : Guard) (n : Nat) (d : Opnd) : Statement (.setCost g n d) := by
  intro h x hx
  cases hx
  replace h : (wf1 g d && decide (n < 6)) = true := h
  simp only [wf1, Bool.and_eq_true, decide_eq_true_eq] at h
  obtain ⟨⟨hg, hd⟩, e1⟩ := h
  have b0 := Guard.predCode_lt hg
  have b1 := g.pnCode_lt
  have b2 := Opnd.code_lt hd
  refine ⟨?_, ?_⟩
  all_goals first
    | (simp only [Fields.Fits, Fields.mkA]; omega)
    | simp [decodeFields, Fields.mkA, decodeC4, need, Guard.ofCode_code hg, Opnd.ofCode_code hd, *]

theorem barInit (g : Guard) (hb : Nat) (a : Opnd) : Statement (.barInit g hb a) := by
  intro h x hx
  cases hx
  replace h : (wf1 g a && decide (hb < 64)) = true := h
  simp only [wf1, Bool.and_eq_true, decide_eq_true_eq] at h
  obtain ⟨⟨hg, ha⟩, e1⟩ := h
  have b0 := Guard.predCode_lt hg
  have b1 := g.pnCode_lt
  have b2 := Opnd.code_lt ha
  refine ⟨?_, ?_⟩
  all_goals first
    | (simp only [Fields.Fits, Fields.mkA, Fields.mkI]; omega)
    | simp [decodeFields, Fields.mkA, Fields.mkI, decodeC5, need, Guard.ofCode_code hg, Opnd.ofCode_code ha, *]

theorem barArrive (g : Guard) (hb : Nat) : Statement (.barArrive g hb) := by
  intro h x hx
  cases hx
  replace h : (g.wf && decide (hb < 64)) = true := h
  simp only [Bool.and_eq_true, decide_eq_true_eq] at h
  obtain ⟨hg, e1⟩ := h
  have b0 := Guard.predCode_lt hg
  have b1 := g.pnCode_lt
  refine ⟨?_, ?_⟩
  all_goals first
    | (simp only [Fields.Fits, Fields.mkA, Fields.mkI]; omega)
    | simp [decodeFields, Fields.mkA, Fields.mkI, decodeC5, need, Guard.ofCode_code hg, *]

theorem barWait (g : Guard) (hb : Nat) : Statement (.barWait g hb) := by
  intro h x hx
  cases hx
  replace h : (g.wf && decide (hb < 64)) = true := h
  simp only [Bool.and_eq_true, decide_eq_true_eq] at h
  obtain ⟨hg, e1⟩ := h
  have b0 := Guard.predCode_lt hg
  have b1 := g.pnCode_lt
  refine ⟨?_, ?_⟩
  all_goals first
    | (simp only [Fields.Fits, Fields.mkA, Fields.mkI]; omega)
    | simp [decodeFields, Fields.mkA, Fields.mkI, decodeC5, need, Guard.ofCode_code hg, *]

theorem barStatus (g : Guard) (hb : Nat) (d : Opnd) : Statement (.barStatus g hb d) := by
  intro h x hx
  cases hx
  replace h : (wf1 g d && decide (hb < 64)) = true := h
  simp only [wf1, Bool.and_eq_true, decide_eq_true_eq] at h
  obtain ⟨⟨hg, hd⟩, e1⟩ := h
  have b0 := Guard.predCode_lt hg
  have b1 := g.pnCode_lt
  have b2 := Opnd.code_lt hd
  refine ⟨?_, ?_⟩
  all_goals first
    | (simp only [Fields.Fits, Fields.mkA, Fields.mkI]; omega)
    | simp [decodeFields, Fields.mkA, Fields.mkI, decodeC5, need, Guard.ofCode_code hg, Opnd.ofCode_code hd, *]

theorem qstate (g : Guard) : Statement (.qstate g) := by
  intro h x hx
  cases hx
  replace h : (g.wf) = true := h
  have hg := h
  have b0 := Guard.predCode_lt hg
  have b1 := g.pnCode_lt
  refine ⟨?_, ?_⟩
  all_goals first
    | (simp only [Fields.Fits, Fields.mkA]; omega)
    | simp [decodeFields, Fields.mkA, decodeC5, need, Guard.ofCode_code hg, *]

theorem gstart (g : Guard) (d : Opnd) : Statement (.gstart g d) := by
  intro h x hx
  cases hx
  replace h : (wf1 g d) = true := h
  simp only [wf1, Bool.and_eq_true] at h
  obtain ⟨hg, hd⟩ := h
  have b0 := Guard.predCode_lt hg
  have b1 := g.pnCode_lt
  have b2 := Opnd.code_lt hd
  refine ⟨?_, ?_⟩
  all_goals first
    | (simp only [Fields.Fits, Fields.mkA]; omega)
    | simp [decodeFields, Fields.mkA, decodeC5, need, Guard.ofCode_code hg, Opnd.ofCode_code hd, *]

theorem gwait (g : Guard) (a : Opnd) : Statement (.gwait g a) := by
  intro h x hx
  cases hx
  replace h : (wf1 g a) = true := h
  simp only [wf1, Bool.and_eq_true] at h
  obtain ⟨hg, ha⟩ := h
  have b0 := Guard.predCode_lt hg
  have b1 := g.pnCode_lt
  have b2 := Opnd.code_lt ha
  refine ⟨?_, ?_⟩
  all_goals first
    | (simp only [Fields.Fits, Fields.mkA]; omega)
    | simp [decodeFields, Fields.mkA, decodeC5, need, Guard.ofCode_code hg, Opnd.ofCode_code ha, *]

theorem fdefer (g : Guard) (a : Opnd) (b : Opnd) (c : Opnd) : Statement (.fdefer g a b c) := by
  intro h x hx
  cases hx
  replace h : (wf3 g a b c) = true := h
  simp only [wf3, Bool.and_eq_true] at h
  obtain ⟨⟨⟨hg, ha⟩, hb⟩, hc⟩ := h
  have b0 := Guard.predCode_lt hg
  have b1 := g.pnCode_lt
  have b2 := Opnd.code_lt ha
  have b3 := Opnd.code_lt hb
  have b4 := Opnd.code_lt hc
  refine ⟨?_, ?_⟩
  all_goals first
    | (simp only [Fields.Fits, Fields.mkA]; omega)
    | simp [decodeFields, Fields.mkA, decodeC5, need, Guard.ofCode_code hg, Opnd.ofCode_code ha, Opnd.ofCode_code hb,
        Opnd.ofCode_code hc, *]

theorem trap (g : Guard) (code : BitVec 16) : Statement (.trap g code) := by
  intro h x hx
  cases hx
  replace h : (g.wf) = true := h
  have hg := h
  have b0 := Guard.predCode_lt hg
  have b1 := g.pnCode_lt
  have q0 : code.toNat < 65536 := code.isLt
  refine ⟨?_, ?_⟩
  all_goals first
    | (simp only [Fields.Fits, Fields.mkA, Fields.mkI]; omega)
    | simp [decodeFields, Fields.mkA, Fields.mkI, decodeC5, need, Guard.ofCode_code hg, *]

theorem tret (g : Guard) : Statement (.tret g) := by
  intro h x hx
  cases hx
  replace h : (g.wf) = true := h
  have hg := h
  have b0 := Guard.predCode_lt hg
  have b1 := g.pnCode_lt
  refine ⟨?_, ?_⟩
  all_goals first
    | (simp only [Fields.Fits, Fields.mkA]; omega)
    | simp [decodeFields, Fields.mkA, decodeC5, need, Guard.ofCode_code hg, *]

theorem rngOpen (g : Guard) (label : BitVec 16) : Statement (.rngOpen g label) := by
  intro h x hx
  cases hx
  replace h : (g.wf) = true := h
  have hg := h
  have b0 := Guard.predCode_lt hg
  have b1 := g.pnCode_lt
  have q0 : label.toNat < 65536 := label.isLt
  refine ⟨?_, ?_⟩
  all_goals first
    | (simp only [Fields.Fits, Fields.mkA, Fields.mkI]; omega)
    | simp [decodeFields, Fields.mkA, Fields.mkI, decodeC5, need, Guard.ofCode_code hg, *]

theorem rngClose (g : Guard) : Statement (.rngClose g) := by
  intro h x hx
  cases hx
  replace h : (g.wf) = true := h
  have hg := h
  have b0 := Guard.predCode_lt hg
  have b1 := g.pnCode_lt
  refine ⟨?_, ?_⟩
  all_goals first
    | (simp only [Fields.Fits, Fields.mkA]; omega)
    | simp [decodeFields, Fields.mkA, decodeC5, need, Guard.ofCode_code hg, *]

theorem capq (g : Guard) (d : Opnd) (a : Opnd) : Statement (.capq g d a) := by
  intro h x hx
  cases hx
  replace h : (wf2 g d a) = true := h
  simp only [wf2, Bool.and_eq_true] at h
  obtain ⟨⟨hg, hd⟩, ha⟩ := h
  have b0 := Guard.predCode_lt hg
  have b1 := g.pnCode_lt
  have b2 := Opnd.code_lt hd
  have b3 := Opnd.code_lt ha
  refine ⟨?_, ?_⟩
  all_goals first
    | (simp only [Fields.Fits, Fields.mkA]; omega)
    | simp [decodeFields, Fields.mkA, decodeC5, need, Guard.ofCode_code hg, Opnd.ofCode_code hd, Opnd.ofCode_code ha,
        *]

theorem tmrd (g : Guard) (d : Opnd) : Statement (.tmrd g d) := by
  intro h x hx
  cases hx
  replace h : (wf1 g d) = true := h
  simp only [wf1, Bool.and_eq_true] at h
  obtain ⟨hg, hd⟩ := h
  have b0 := Guard.predCode_lt hg
  have b1 := g.pnCode_lt
  have b2 := Opnd.code_lt hd
  refine ⟨?_, ?_⟩
  all_goals first
    | (simp only [Fields.Fits, Fields.mkA]; omega)
    | simp [decodeFields, Fields.mkA, decodeC5, need, Guard.ofCode_code hg, Opnd.ofCode_code hd, *]

theorem unassignedWord (w0 : DWord) (w1 : DWord) : Statement (.unassignedWord w0 w1) := by
  intro _ x hx
  exact nomatch hx

theorem storeDrain (agent : Nat) (op : Nat) (lanes : Lanes) : Statement (.storeDrain agent op lanes) := by
  intro _ x hx
  exact nomatch hx

theorem storePerform (agent : Nat) (op : Nat) (lanes : Lanes) : Statement (.storePerform agent op lanes) := by
  intro _ x hx
  exact nomatch hx

theorem storeAcknowledge (agent : Nat) (op : Nat) (sc : Scope) : Statement (.storeAcknowledge agent op sc) := by
  intro _ x hx
  exact nomatch hx

theorem releaseProceed (agent : Nat) (op : Nat) : Statement (.releaseProceed agent op) := by
  intro _ x hx
  exact nomatch hx

theorem atomicPerform (agent : Nat) (op : Nat) (lanes : Lanes) : Statement (.atomicPerform agent op lanes) := by
  intro _ x hx
  exact nomatch hx

theorem loadReturn (agent : Nat) (op : Nat) (lanes : Lanes) : Statement (.loadReturn agent op lanes) := by
  intro _ x hx
  exact nomatch hx

theorem bufferAccessPerform (agent : Nat) (op : Nat) (lanes : Lanes) : Statement (.bufferAccessPerform agent op lanes)
    := by
  intro _ x hx
  exact nomatch hx

theorem pageWalk (agent : Nat) (op : Nat) (lane : Nat) : Statement (.pageWalk agent op lane) := by
  intro _ x hx
  exact nomatch hx

theorem l1Fill (core : Nat) (line : Nat) (way : Nat) : Statement (.l1Fill core line way) := by
  intro _ x hx
  exact nomatch hx

theorem l2Fill (ix : Nat) (victim : Option Nat) : Statement (.l2Fill ix victim) := by
  intro _ x hx
  exact nomatch hx

theorem cxlOwnership (line : Nat) : Statement (.cxlOwnership line) := by
  intro _ x hx
  exact nomatch hx

theorem hbmRequestService (stack : Nat) (issuable : List Nat) : Statement (.hbmRequestService stack issuable) := by
  intro _ x hx
  exact nomatch hx

theorem deadlineMiss (req : Nat) : Statement (.deadlineMiss req) := by
  intro _ x hx
  exact nomatch hx

theorem engineLineRelease (core : Nat) (cmd : Nat) (line : Nat) : Statement (.engineLineRelease core cmd line) := by
  intro _ x hx
  exact nomatch hx

theorem chaseHop (agent : Nat) (op : Nat) (lane : Nat) : Statement (.chaseHop agent op lane) := by
  intro _ x hx
  exact nomatch hx

theorem l1Conversion (core : Nat) : Statement (.l1Conversion core) := by
  intro _ x hx
  exact nomatch hx

theorem copyEngineStart (core : Nat) : Statement (.copyEngineStart core) := by
  intro _ x hx
  exact nomatch hx

theorem copyChunk (core : Nat) (cmd : Nat) : Statement (.copyChunk core cmd) := by
  intro _ x hx
  exact nomatch hx

theorem toolChunk (core : Nat) (cmd : Nat) : Statement (.toolChunk core cmd) := by
  intro _ x hx
  exact nomatch hx

theorem commandStart (core : Nat) (cmd : Nat) : Statement (.commandStart core cmd) := by
  intro _ x hx
  exact nomatch hx

theorem chainStepExecute (core : Nat) (cmd : Nat) (bad : Bool) : Statement (.chainStepExecute core cmd bad) := by
  intro _ x hx
  exact nomatch hx

theorem commandEnd (core : Nat) (cmd : Nat) (bad : BitVec 64) : Statement (.commandEnd core cmd bad) := by
  intro _ x hx
  exact nomatch hx

theorem setEngineOperation (agent : Nat) (op : Nat) : Statement (.setEngineOperation agent op) := by
  intro _ x hx
  exact nomatch hx

theorem setFreeReturn (die : Nat) (ix : Nat) : Statement (.setFreeReturn die ix) := by
  intro _ x hx
  exact nomatch hx

theorem quiescentPoint (agent : Nat) : Statement (.quiescentPoint agent) := by
  intro _ x hx
  exact nomatch hx

theorem gstartTarget (agent : Nat) : Statement (.gstartTarget agent) := by
  intro _ x hx
  exact nomatch hx

theorem trackerReport (tenant : Nat) (die : Nat) : Statement (.trackerReport tenant die) := by
  intro _ x hx
  exact nomatch hx

theorem cinchPush (die : Nat) (ix : Nat) : Statement (.cinchPush die ix) := by
  intro _ x hx
  exact nomatch hx

theorem gracestall (tenant : Nat) (target : Word) : Statement (.gracestall tenant target) := by
  intro _ x hx
  exact nomatch hx

theorem barrierArrival (gang : Nat) (pos : Nat) : Statement (.barrierArrival gang pos) := by
  intro _ x hx
  exact nomatch hx

theorem flipBroadcast (gang : Nat) (pos : Nat) (hb : Nat) : Statement (.flipBroadcast gang pos hb) := by
  intro _ x hx
  exact nomatch hx

theorem parkWake (agent : Nat) (grp : Nat) : Statement (.parkWake agent grp) := by
  intro _ x hx
  exact nomatch hx

theorem parkTimeout (agent : Nat) (grp : Nat) : Statement (.parkTimeout agent grp) := by
  intro _ x hx
  exact nomatch hx

theorem timer (agent : Nat) : Statement (.timer agent) := by
  intro _ x hx
  exact nomatch hx

theorem userTrapEntry (agent : Nat) : Statement (.userTrapEntry agent) := by
  intro _ x hx
  exact nomatch hx

theorem warpSwap (core : Nat) (part : Nat) (outSlot : Nat) (inSlot : Nat) : Statement (.warpSwap core part outSlot
    inSlot) := by
  intro _ x hx
  exact nomatch hx

theorem growGrant (agent : Nat) : Statement (.growGrant agent) := by
  intro _ x hx
  exact nomatch hx

theorem waitcRelease (agent : Nat) : Statement (.waitcRelease agent) := by
  intro _ x hx
  exact nomatch hx

theorem taskStart (core : Nat) : Statement (.taskStart core) := by
  intro _ x hx
  exact nomatch hx

theorem continuationResume (agent : Nat) : Statement (.continuationResume agent) := by
  intro _ x hx
  exact nomatch hx

theorem taskPushAppend (agent : Nat) : Statement (.taskPushAppend agent) := by
  intro _ x hx
  exact nomatch hx

theorem launchCheck (tenant : Nat) (die : Nat) (prio : Nat) : Statement (.launchCheck tenant die prio) := by
  intro _ x hx
  exact nomatch hx

theorem waitWordRead (tenant : Nat) (die : Nat) (prio : Nat) : Statement (.waitWordRead tenant die prio) := by
  intro _ x hx
  exact nomatch hx

theorem admissionTake (die : Nat) : Statement (.admissionTake die) := by
  intro _ x hx
  exact nomatch hx

theorem reservationReply (die : Nat) (unit : Nat) : Statement (.reservationReply die unit) := by
  intro _ x hx
  exact nomatch hx

theorem backoffExpiry (die : Nat) (unit : Nat) : Statement (.backoffExpiry die unit) := by
  intro _ x hx
  exact nomatch hx

theorem completionWordWrite (ix : Nat) : Statement (.completionWordWrite ix) := by
  intro _ x hx
  exact nomatch hx

theorem yieldDeadline (gang : Nat) : Statement (.yieldDeadline gang) := by
  intro _ x hx
  exact nomatch hx

theorem forcedSaveLimit (gang : Nat) : Statement (.forcedSaveLimit gang) := by
  intro _ x hx
  exact nomatch hx

theorem gangSave (gang : Nat) : Statement (.gangSave gang) := by
  intro _ x hx
  exact nomatch hx

theorem gangRestore (die : Nat) (unit : Nat) : Statement (.gangRestore die unit) := by
  intro _ x hx
  exact nomatch hx

theorem contextResetComplete (tenant : Nat) : Statement (.contextResetComplete tenant) := by
  intro _ x hx
  exact nomatch hx

theorem faultRecord (tenant : Nat) : Statement (.faultRecord tenant) := by
  intro _ x hx
  exact nomatch hx

theorem tlbInvComplete (tenant : Nat) : Statement (.tlbInvComplete tenant) := by
  intro _ x hx
  exact nomatch hx

theorem loadComplete (tenant : Nat) : Statement (.loadComplete tenant) := by
  intro _ x hx
  exact nomatch hx

theorem sliRatioDone (stack : Nat) : Statement (.sliRatioDone stack) := by
  intro _ x hx
  exact nomatch hx

theorem icacheFill (core : Nat) (part : Nat) (line : Nat) (drop : Option Nat) : Statement (.icacheFill core part line
    drop) := by
  intro _ x hx
  exact nomatch hx

theorem parkWatchDrop (agent : Nat) (grp : Nat) : Statement (.parkWatchDrop agent grp) := by
  intro _ x hx
  exact nomatch hx

theorem queueWindowWrite (tenant : Nat) (off : Nat) (bytes : List Byte) : Statement (.queueWindowWrite tenant off
    bytes) := by
  intro _ x hx
  exact nomatch hx

theorem preemptRequest (tenant : Nat) : Statement (.preemptRequest tenant) := by
  intro _ x hx
  exact nomatch hx

theorem saveSpill (die : Nat) : Statement (.saveSpill die) := by
  intro _ x hx
  exact nomatch hx

theorem contextResume (tenant : Nat) : Statement (.contextResume tenant) := by
  intro _ x hx
  exact nomatch hx

theorem contextReset (tenant : Nat) : Statement (.contextReset tenant) := by
  intro _ x hx
  exact nomatch hx

theorem contextEnable (tenant : Nat) : Statement (.contextEnable tenant) := by
  intro _ x hx
  exact nomatch hx

theorem contextDisable (tenant : Nat) : Statement (.contextDisable tenant) := by
  intro _ x hx
  exact nomatch hx

theorem retry (tenant : Nat) (who : AgentName) : Statement (.retry tenant who) := by
  intro _ x hx
  exact nomatch hx

theorem skip (tenant : Nat) (who : AgentName) : Statement (.skip tenant who) := by
  intro _ x hx
  exact nomatch hx

theorem resumeReset (tenant : Nat) (who : AgentName) : Statement (.resumeReset tenant who) := by
  intro _ x hx
  exact nomatch hx

theorem tlbInv (tenant : Nat) (va : Nat) (size : Nat) : Statement (.tlbInv tenant va size) := by
  intro _ x hx
  exact nomatch hx

theorem loadStart (tenant : Nat) (value : DWord) : Statement (.loadStart tenant value) := by
  intro _ x hx
  exact nomatch hx

theorem fuseCmd (value : DWord) : Statement (.fuseCmd value) := by
  intro _ x hx
  exact nomatch hx

theorem fuseBlowDone : Statement .fuseBlowDone := by
  intro _ x hx
  exact nomatch hx

theorem attestationStart : Statement .attestationStart := by
  intro _ x hx
  exact nomatch hx

theorem attestationReport : Statement .attestationReport := by
  intro _ x hx
  exact nomatch hx

theorem sliCfgWrite (stack : Nat) (value : DWord) : Statement (.sliCfgWrite stack value) := by
  intro _ x hx
  exact nomatch hx

theorem powerLimiterStep (die : Nat) (mhz : Nat) : Statement (.powerLimiterStep die mhz) := by
  intro _ x hx
  exact nomatch hx

theorem registerWrite (block : Option Nat) (off : Nat) (width : Nat) (value : DWord) : Statement (.registerWrite block
    off width value) := by
  intro _ x hx
  exact nomatch hx

theorem hostMemAccess (pa : Nat) (acc : PeerAcc) : Statement (.hostMemAccess pa acc) := by
  intro _ x hx
  exact nomatch hx

theorem peerAccess (dev : Nat) (pa : Nat) (acc : PeerAcc) : Statement (.peerAccess dev pa acc) := by
  intro _ x hx
  exact nomatch hx

theorem linkDeliveryFailure (agent : Nat) (op : Nat) (lane : Nat) : Statement (.linkDeliveryFailure agent op lane) :=
    by
  intro _ x hx
  exact nomatch hx

theorem softError (site : ErrSite) (double : Bool) : Statement (.softError site double) := by
  intro _ x hx
  exact nomatch hx

theorem moduleTraining (module_ : Nat) (trained : Bool) : Statement (.moduleTraining module_ trained) := by
  intro _ x hx
  exact nomatch hx

theorem deviceReset (images : List FwImage) : Statement (.deviceReset images) := by
  intro _ x hx
  exact nomatch hx

theorem cxlCacheOwnershipLoss (line : Nat) : Statement (.cxlCacheOwnershipLoss line) := by
  intro _ x hx
  exact nomatch hx

theorem linkPortServiceChange (port : Nat) (up : Bool) : Statement (.linkPortServiceChange port up) := by
  intro _ x hx
  exact nomatch hx

theorem powerStateChange (block : Nat) (level : Nat) : Statement (.powerStateChange block level) := by
  intro _ x hx
  exact nomatch hx

end Laws.RoundTrip

end Sys2Proof
end

