-- ==== Sys2Proof/Laws/Steps.lean ====
section
/-! SUPPORT. What the shared operations of the part's steps leave: an agent changed and nothing else, the bookkeeping of the
home slices, results delivered to the registers that wait. -/

namespace Sys2Proof.Claim

open Sys2Proof.Machine

theorem AgentBecomes.mod {s : State} {a : Nat} {x : Agent} (h : s.agent? a = some x) (f : Agent → Agent) :
    AgentBecomes s (s.modAgent a f) a (f x) :=
  ⟨rfl, by simp only [State.agent?, State.modAgent, kget_kmod_same] at *; simp [h],
   fun k hk => by simp only [State.agent?, State.modAgent, kget_kmod, if_neg (Ne.symm hk)]⟩

theorem AgentBecomes.set (s : State) (a : Nat) (x : Agent) : AgentBecomes s (s.setAgent a x) a x :=
  ⟨rfl, by simp only [State.agent?, State.setAgent, kget_kput_same],
   fun k hk => by simp only [State.agent?, State.setAgent, kget_kput_other _ _ (Ne.symm hk)]⟩

/-- A step that leaves alone what another does, over the same agents. -/
theorem AgentBecomes.bytes {s t : State} {a : Nat} {x : Agent} (h : AgentBecomes s t a x) : SameBytes s t := by
  obtain ⟨h, -⟩ := h; intro k; rw [h]; rfl

theorem AgentBecomes.trans {s t u : State} {a : Nat} {x y : Agent} (h : AgentBecomes s t a x) (k : AgentBecomes t u a y) :
    AgentBecomes s u a y := by
  obtain ⟨h1, -, h3⟩ := h; obtain ⟨k1, k2, k3⟩ := k
  exact ⟨by rw [k1, h1], k2, fun j hj => (k3 j hj).trans (h3 j hj)⟩

theorem AgentBecomes.agent {s t : State} {a : Nat} {x : Agent} (h : AgentBecomes s t a x) : t.agent? a = some x := h.2.1

theorem AgentBecomes.congr {s t : State} {a : Nat} {x y : Agent} (h : AgentBecomes s t a x) (e : x = y) :
    AgentBecomes s t a y := e ▸ h

/-! ## The home slices -/

theorem SameButHomes.rfl' (s : State) : SameButHomes s s := ⟨s.l2, s.hbm, s.sent, rfl⟩

theorem SameButHomes.trans {s t u : State} (h : SameButHomes s t) (k : SameButHomes t u) : SameButHomes s u := by
  obtain ⟨_, _, _, rfl⟩ := h; obtain ⟨a, b, c, rfl⟩ := k; exact ⟨a, b, c, rfl⟩

theorem SameButHomes.hbmAsk (s : State) (o : Origin) (line : Nat) (mask : BitVec 8) (w al co : Bool) :
    SameButHomes s (s.hbmAsk o line mask w al co) := by
  unfold State.hbmAsk; split
  · exact .rfl' s
  · exact ⟨_, _, _, rfl⟩

theorem SameButHomes.foldl {α : Type} (f : State → α → State) (hf : ∀ s a, SameButHomes s (f s a)) (l : List α)
    (s : State) : SameButHomes s (l.foldl f s) := by
  induction l generalizing s with
  | nil => exact .rfl' s
  | cons a t ih => exact (hf s a).trans (ih _)

theorem SameButHomes.evictL2 (s : State) (k : Nat) : SameButHomes s (s.evictL2 k) := by
  unfold State.evictL2; split
  · exact .rfl' s
  · split
    · exact ⟨_, _, _, rfl⟩
    · exact (SameButHomes.hbmAsk ..).trans ⟨_, _, _, rfl⟩

/-- Making room in a set changes the L2, the requests to the stacks and their count alone. -/
theorem SameButHomes.l2Room (s : State) (k : Nat) (v : Option Nat) : SameButHomes s (s.l2Room k v) := by
  unfold State.l2Room; simp only []
  split
  · exact .evictL2 ..
  · split
    · exact .evictL2 ..
    · exact .rfl' s

theorem SameButHomes.homeReads (s : State) (o : Origin) (die : Nat) (acc : List (Xlat × Nat)) :
    SameButHomes s (s.homeReads o die acc) := by
  refine .foldl _ (fun s k => ?_) _ _
  simp only []
  split
  · exact .rfl' s
  · split
    · exact .rfl' s
    · split
      · split
        · exact (SameButHomes.l2Room ..).trans ⟨_, _, _, rfl⟩
        · exact .rfl' s
      · exact .hbmAsk ..

theorem SameButHomes.homeWrite1 (s : State) (o : Origin) (die : Nat) (x : Xlat) (t w : BitVec 8) :
    SameButHomes s (s.homeWrite1 o die x t w) := by
  unfold State.homeWrite1; simp only []
  split
  · exact .rfl' s
  · split
    · exact ((SameButHomes.hbmAsk ..).trans (.l2Room ..)).trans ⟨_, _, _, rfl⟩
    · refine SameButHomes.trans ?_ (.hbmAsk ..)
      split
      · exact ⟨_, _, _, rfl⟩
      · exact .rfl' s

theorem SameButHomes.homeWrites (s : State) (o : Origin) (die : Nat) (xs : List Xlat) (cells : List (Nat × Byte)) :
    SameButHomes s (s.homeWrites o die xs cells) := by
  refine .foldl _ (fun s k => ?_) _ _
  split
  · exact .rfl' s
  · exact .homeWrite1 ..

/-- The requests of a walk change nothing else either (R91, R102). -/
theorem SameButHomes.dieWalkAsks (s : State) (req die t : Nat) (va : DWord) : SameButHomes s (s.dieWalkAsks req die t va) := by
  unfold State.dieWalkAsks; split
  · exact .rfl' s
  · exact .foldl _ (fun _ _ => .homeReads ..) _ _

theorem SameButHomes.walkAsks (s : State) (req core t : Nat) (va : DWord) : SameButHomes s (s.walkAsks req core t va) := by
  unfold State.walkAsks; split
  · exact .rfl' s
  · exact .dieWalkAsks ..

theorem SameButHomes.bytes {s t : State} (h : SameButHomes s t) : SameBytes s t := by
  obtain ⟨_, _, _, rfl⟩ := h; intro k; rfl

theorem SameButHomes.agents {s t : State} (h : SameButHomes s t) : t.agents = s.agents := by
  obtain ⟨_, _, _, rfl⟩ := h; rfl

theorem SameButHomes.cores {s t : State} (h : SameButHomes s t) : t.cores = s.cores := by
  obtain ⟨_, _, _, rfl⟩ := h; rfl

end Sys2Proof.Claim

namespace Sys2Proof.Machine

open Sys2Proof.Claim

/-! ## Translation -/

theorem State.walked_only (s : State) (c : Nat) (w : Want) (v : Nat) (k : Walk) :
    ∃ cs ds, (s.walked c w v k).1 = { s with cores := cs, dies := ds } := by
  cases k <;> exact ⟨_, _, rfl⟩

/-- A translation changes TLBs alone. -/
theorem State.translate_only (s : State) (c t : Nat) (va : DWord) (w : Want) :
    ∃ cs ds, (s.translate c t va w).1 = { s with cores := cs, dies := ds } := by
  unfold State.translate
  split
  · exact ⟨_, _, rfl⟩
  · split
    · exact ⟨_, _, rfl⟩
    · split
      · exact ⟨_, _, rfl⟩
      · exact State.walked_only ..

theorem State.translateDie_only (s : State) (d t : Nat) (va : DWord) (w : Want) :
    ∃ ds, (s.translateDie d t va w).1 = { s with dies := ds } := by
  unfold State.translateDie
  split
  · exact ⟨_, rfl⟩
  · split
    · exact ⟨_, rfl⟩
    · cases walk s t d va.toNat <;> exact ⟨_, rfl⟩

theorem State.translate_agents (s : State) (c t : Nat) (va : DWord) (w : Want) :
    (s.translate c t va w).1.agents = s.agents := by
  obtain ⟨_, _, h⟩ := State.translate_only s c t va w; rw [h]

/-- A translation that the core's L1 TLB holds (R91). -/
theorem State.translate_hit {s : State} {c t : Nat} {va : DWord} (w : Want) (h : va.toNat < 144115188075855872)
    {e : TlbEntry} (he : tlbFind (s.core c).tlb t va.toNat = some e) :
    s.translate c t va w = (s, e.permit w va.toNat) := by
  unfold State.translate; rw [if_neg (by omega), he]

/-! ## An instruction in flight -/

theorem State.op?_spec {s : State} {a id : Nat} {x : Agent} {p : Place} {o : MemOp} (h : s.op? a id = some (x, p, o)) :
    s.agent? a = some x ∧ x.place = some p ∧ x.flight.ops.find? (fun q => q.id == id) = some o ∧ o.id = id := by
  unfold State.op? at h
  split at h
  · cases h
  · next y hy =>
    split at h
    · next q r hq hr =>
      cases h
      have := List.find?_some hr
      exact ⟨hy, hq, hr, by simpa using this⟩
    · cases h

/-- A change that keeps the numbers leaves the instruction, changed, in its place. -/
theorem find?_map_id (l : List MemOp) (id : Nat) (f : MemOp → MemOp) (hf : ∀ q, (f q).id = q.id) :
    (l.map fun q => if q.id = id then f q else q).find? (fun q => q.id == id) =
      (l.find? fun q => q.id == id).map f := by
  induction l with
  | nil => rfl
  | cons q t ih =>
    by_cases h : q.id = id
    · simp [List.find?, h, hf]
    · have : (q.id == id) = false := by simpa using h
      simp [List.find?, h, ih, this]

theorem State.op?_mod {s : State} {a id : Nat} {x : Agent} {p : Place} {o : MemOp} (h : s.op? a id = some (x, p, o))
    (f : MemOp → MemOp) (hf : ∀ q, (f q).id = q.id) :
    (s.modOp a id f).op? a id = some (x.mapFlight (Flight.modOp id f), p, f o) := by
  obtain ⟨hx, hp, ho, -⟩ := State.op?_spec h
  have : (s.modOp a id f).agent? a = some (x.mapFlight (Flight.modOp id f)) :=
    (AgentBecomes.mod hx (Agent.mapFlight (Flight.modOp id f))).agent
  have h2 : (x.mapFlight (Flight.modOp id f)).flight.ops.find? (fun q => q.id == id) = some (f o) := by
    rw [show (x.mapFlight (Flight.modOp id f)).flight.ops = x.flight.ops.map fun q => if q.id = id then f q else q from rfl,
      find?_map_id _ _ _ hf, ho]; rfl
  have h3 : (x.mapFlight (Flight.modOp id f)).place = some p := hp
  unfold State.op?
  simp only [this, h2, h3]

/-- Only the agents count where an instruction is looked up. -/
theorem State.op?_congr {s t : State} (h : t.agents = s.agents) (a id : Nat) : t.op? a id = s.op? a id := by
  unfold State.op? State.agent?; rw [h]

/-! ## Rings -/

/-- A record to a ring changes memory, with its marks, and its tenant. -/
theorem State.ringPut_only (s : State) (b : Bool) (t : Nat) (r : List Byte) :
    ∃ m k ts, s.ringPut b t r = { s with mem := m, memMark := k, tenants := ts } := by
  unfold State.ringPut; dsimp only
  cases b <;> simp only [if_true, if_false, Bool.false_eq_true] <;> split
  all_goals first
    | exact ⟨_, _, _, rfl⟩
    | split <;> exact ⟨_, _, _, rfl⟩

theorem State.sampleOf_only (s : State) (x : Agent) (n : Nat) (pc : DWord) (m : Lanes) (ls : List (Nat × Nat)) :
    ∃ mem k ts f, s.sampleOf x n pc m ls = { s with mem := mem, memMark := k, tenants := ts, free := f } := by
  unfold State.sampleOf; dsimp only; split
  · exact ⟨_, _, _, _, rfl⟩
  · generalize layBytes _ = r
    obtain ⟨a, b, c, h⟩ := State.ringPut_only s true x.ident.tenant r
    rw [h]; exact ⟨_, _, _, _, rfl⟩

theorem State.sampleOp_only (s : State) (x : Agent) (o : MemOp) :
    ∃ mem k ts f, s.sampleOp x o = { s with mem := mem, memMark := k, tenants := ts, free := f } := by
  unfold State.sampleOp; split
  · exact State.sampleOf_only ..
  · exact ⟨_, _, _, _, rfl⟩

theorem State.sampleOp_none (s : State) (x : Agent) {o : MemOp} (h : o.sampled = false) : s.sampleOp x o = s := by
  unfold State.sampleOp; rw [h]; rfl

theorem State.trace_only (s : State) (c : CmdName) (ev : TraceEv) (st : Nat) :
    ∃ mem k ts, s.trace c ev st = { s with mem := mem, memMark := k, tenants := ts } := by
  unfold State.trace; dsimp only; split
  · generalize List.map _ _ = r
    obtain ⟨m, k, ts, h⟩ := State.ringPut_only s false c.issuer.tenant r
    rw [h]; split <;> exact ⟨_, _, _, rfl⟩
  · exact ⟨_, _, _, rfl⟩

/-! ## Results for the registers that wait -/

theorem Agent.giveV_flight (id n : Nat) (m : Lanes) (f : Nat → Word) (k : Lanes) (x : Agent) :
    (x.giveV id n m f k).flight = x.flight := by unfold Agent.giveV; split <;> rfl

theorem Agent.giveS_flight (id n : Nat) (w : Word) (k : Bool) (x : Agent) : (x.giveS id n w k).flight = x.flight := by
  unfold Agent.giveS; split <;> rfl

theorem Agent.giveV_only (id n : Nat) (m : Lanes) (f : Nat → Word) (k : Lanes) (x : Agent) :
    ∃ r, x.giveV id n m f k = { x with regs := r } ∧ r.alloc = x.regs.alloc ∧ r.s = x.regs.s ∧ r.sMark = x.regs.sMark ∧
      r.p = x.regs.p ∧
      (∀ j l, l < 32 → r.vlane j l =
        if m.getLsbD l = true ∧ j = n ∧ x.flight.waits (.v n) id = true then f l else x.regs.vlane j l) ∧
      (∀ j l, (kgetD 0#32 r.vMark j).getLsbD l =
        if m.getLsbD l = true ∧ j = n ∧ x.flight.waits (.v n) id = true then k.getLsbD l
        else (kgetD 0#32 x.regs.vMark j).getLsbD l) := by
  unfold Agent.giveV
  by_cases h : x.flight.waits (.v n) id = true
  · refine ⟨x.regs.setV n m f k, by rw [if_pos h]; rfl, rfl, rfl, rfl, rfl, fun j l hl => ?_, fun j l => ?_⟩
    · rw [Regs.vlane_setV _ _ _ _ _ _ _ hl]; simp only [h, and_true, eq_comm (a := n) (b := j), and_comm (a := m.getLsbD l = true)]
    · rw [Regs.vMark_setV]; simp only [h, and_true, eq_comm (a := n) (b := j), and_comm (a := m.getLsbD l = true)]
  · exact ⟨x.regs, by rw [if_neg h], rfl, rfl, rfl, rfl, fun j l _ => by simp [h], fun j l => by simp [h]⟩

theorem Agent.giveS_only (id n : Nat) (w : Word) (k : Bool) (x : Agent) :
    ∃ r, x.giveS id n w k = { x with regs := r } ∧ r.alloc = x.regs.alloc ∧ r.v = x.regs.v ∧ r.vMark = x.regs.vMark ∧
      r.p = x.regs.p ∧
      (∀ j, r.sreg j = if j = n ∧ x.flight.waits (.s n) id = true then w else x.regs.sreg j) ∧
      (∀ j, j < 256 → r.sMark.getLsbD j =
        if j = n ∧ x.flight.waits (.s n) id = true then k else x.regs.sMark.getLsbD j) := by
  unfold Agent.giveS
  by_cases h : x.flight.waits (.s n) id = true
  · refine ⟨x.regs.setS n w k, by rw [if_pos h]; rfl, rfl, rfl, rfl, rfl, fun j => ?_, fun j hj => ?_⟩
    · rw [Regs.sreg_setS]; simp [h, eq_comm]
    · show (setBit x.regs.sMark n k).getLsbD j = _
      rw [getLsbD_setBit _ _ _ _ hj]; simp [h, eq_comm]
  · exact ⟨x.regs, by rw [if_neg h], rfl, rfl, rfl, rfl, fun j => by simp [h], fun j _ => by simp [h]⟩

/-- What both vector deliveries write. -/
theorem Delivered_vec (id n : Nat) (wide : Bool) (m k : Lanes) (val : Nat → DWord) (sv : DWord) (x : Agent) :
    Delivered id (some (.v n)) wide m k val sv x
      ((if wide then (x.giveV id n m (fun i => (val i).setWidth 32) k).giveV id (n + 1) m
          (fun i => (val i >>> 32).setWidth 32) k
        else x.giveV id n m (fun i => (val i).setWidth 32) k).unpend id) := by
  obtain ⟨r, h, h1, h2, h3, h4, h5, h6⟩ := Agent.giveV_only id n m (fun i => (val i).setWidth 32) k x
  rw [h]
  cases wide with
  | false =>
    refine ⟨⟨fun j l hl => ?_, fun j l => ?_, h2, h3⟩, h1, h4, rfl, rfl, rfl, rfl, rfl, rfl, rfl⟩
    · show r.vlane j l = _
      rw [h5 _ _ hl]; simp
    · show (kgetD 0#32 r.vMark j).getLsbD l = _
      rw [h6]; simp
  | true =>
    obtain ⟨q, g, g1, g2, g3, g4, g5, g6⟩ := Agent.giveV_only id (n + 1) m (fun i => (val i >>> 32).setWidth 32) k
      { x with regs := r }
    simp only [if_true, g]
    refine ⟨⟨fun j l hl => ?_, fun j l => ?_, g2.trans h2, g3.trans h3⟩, g1.trans h1, g4.trans h4, rfl, rfl, rfl, rfl,
      rfl, rfl, rfl⟩
    · show q.vlane j l = _
      rw [g5 _ _ hl, h5 _ _ hl]
      by_cases e1 : j = n
      · subst e1; simp
      · by_cases e2 : j = n + 1
        · subst e2; simp
        · simp [e1, e2]
    · show (kgetD 0#32 q.vMark j).getLsbD l = _
      rw [g6, h6]
      by_cases e1 : j = n
      · subst e1; simp
      · by_cases e2 : j = n + 1
        · subst e2; simp
        · simp [e1, e2]

/-- What both scalar deliveries write, where a lane has performed. -/
theorem Delivered_scal (id n : Nat) (wide : Bool) (m k : Lanes) (val : Nat → DWord) (sv : DWord) (x : Agent)
    (hm : m ≠ 0#32) :
    Delivered id (some (.s n)) wide m k val sv x
      ((if wide then (x.giveS id n (sv.setWidth 32) (k != 0#32)).giveS id (n + 1) ((sv >>> 32).setWidth 32) (k != 0#32)
        else x.giveS id n (sv.setWidth 32) (k != 0#32)).unpend id) := by
  obtain ⟨r, h, h1, h2, h3, h4, h5, h6⟩ := Agent.giveS_only id n (sv.setWidth 32) (k != 0#32) x
  have hk : (k != 0#32) = decide (k ≠ 0#32) := by by_cases h : k = 0#32 <;> simp [h]
  rw [h]
  cases wide with
  | false =>
    refine ⟨⟨fun j => ?_, fun j hj => ?_, h2, h3⟩, h1, h4, rfl, rfl, rfl, rfl, rfl, rfl, rfl⟩
    · show r.sreg j = _
      rw [h5]; simp [hm]
    · show r.sMark.getLsbD j = _
      rw [h6 _ hj, hk]; simp [hm]
  | true =>
    obtain ⟨q, g, g1, g2, g3, g4, g5, g6⟩ := Agent.giveS_only id (n + 1) ((sv >>> 32).setWidth 32) (k != 0#32)
      { x with regs := r }
    simp only [if_true, g]
    refine ⟨⟨fun j => ?_, fun j hj => ?_, g2.trans h2, g3.trans h3⟩, g1.trans h1, g4.trans h4, rfl, rfl, rfl, rfl,
      rfl, rfl, rfl⟩
    · show q.sreg j = _
      rw [g5, h5]
      by_cases e1 : j = n
      · subst e1; simp [hm]
      · by_cases e2 : j = n + 1
        · subst e2; simp [hm]
        · simp [e1, e2]
    · show q.sMark.getLsbD j = _
      rw [g6 _ hj, h6 _ hj, hk]
      by_cases e1 : j = n
      · subst e1; simp [hm]
      · by_cases e2 : j = n + 1
        · subst e2; simp [hm]
        · simp [e1, e2]

/-- Where no lane has performed a scalar destination stays. -/
theorem Delivered_none_scal (id n : Nat) (wide : Bool) (k : Lanes) (val : Nat → DWord) (sv : DWord) (x : Agent) :
    Delivered id (some (.s n)) wide 0#32 k val sv x (x.unpend id) :=
  ⟨⟨fun j => by simp [Agent.unpend, Agent.mapFlight], fun j _ => by simp [Agent.unpend, Agent.mapFlight], rfl, rfl⟩,
    rfl, rfl, rfl, rfl, rfl, rfl, rfl, rfl, rfl⟩

/-- The destination of a memory instruction after `MemOp.deliver`. -/
theorem Delivered_op (o : MemOp) (free : DWord) (x : Agent) :
    Delivered o.id o.dst (o.width == 8) (doneLanes o) (laneMarks o) (laneValues o)
      (if o.openDst then free else laneValues o (lowLane (doneLanes o))) x (o.deliver free x) := by
  generalize hsv : (if o.openDst then free else laneValues o (lowLane (doneLanes o))) = sv
  have e : o.deliver free x =
      (match o.dst with
        | some (.v n) =>
          if o.width = 8 then (x.giveV o.id n (doneLanes o) (fun i => (laneValues o i).setWidth 32) (laneMarks o)).giveV o.id
            (n + 1) (doneLanes o) (fun i => (laneValues o i >>> 32).setWidth 32) (laneMarks o)
          else x.giveV o.id n (doneLanes o) (fun i => (laneValues o i).setWidth 32) (laneMarks o)
        | some (.s n) =>
          if doneLanes o = 0#32 then x
          else if o.width = 8 then
            (x.giveS o.id n (sv.setWidth 32) (laneMarks o != 0#32)).giveS o.id (n + 1)
              ((sv >>> 32).setWidth 32) (laneMarks o != 0#32)
          else x.giveS o.id n (sv.setWidth 32) (laneMarks o != 0#32)
        | _ => x).unpend o.id := by
    subst hsv; rfl
  rw [e]
  rcases o.dst with _ | ⟨n⟩ | n | n | n | n | n
  · exact ⟨rfl, rfl, rfl, rfl, rfl, rfl, rfl, rfl, rfl, rfl⟩
  · simpa using Delivered_vec o.id n (o.width == 8) (doneLanes o) (laneMarks o) (laneValues o) sv x
  · exact ⟨rfl, rfl, rfl, rfl, rfl, rfl, rfl, rfl, rfl, rfl⟩
  · by_cases hm : doneLanes o = 0#32
    · simp only [hm, if_true]; exact Delivered_none_scal ..
    · simpa [hm] using Delivered_scal o.id n (o.width == 8) (doneLanes o) (laneMarks o) (laneValues o) sv x hm
  all_goals exact ⟨rfl, rfl, rfl, rfl, rfl, rfl, rfl, rfl, rfl, rfl⟩

/-! ## The end of a read -/

theorem State.completeRead_open {s : State} {a id core : Nat} {x p o} (h : s.op? a id = some (x, p, o)) (hu : o.undone = true) :
    s.completeRead a id core = s := by unfold State.completeRead; simp only [h, hu, if_true]

/-- What is delivered does not hang on the rest of the agent's work in flight. -/
theorem Delivered_congr (x : Agent) (fl : Flight) (o : MemOp) (sv : DWord) (h : fl.pend = x.flight.pend) (y : Agent)
    (k : Delivered o.id o.dst (o.width == 8) (doneLanes o) (laneMarks o) (laneValues o) sv { x with flight := fl } y) :
    Delivered o.id o.dst (o.width == 8) (doneLanes o) (laneMarks o) (laneValues o) sv x y := by
  have hw : ∀ r, ({ x with flight := fl } : Agent).flight.waits r o.id = x.flight.waits r o.id := by
    intro r; unfold Flight.waits; rw [show ({ x with flight := fl } : Agent).flight.pend = x.flight.pend from h]
  unfold Delivered at k ⊢
  simp only [hw] at k
  rw [show ({ x with flight := fl } : Agent).flight.pend = x.flight.pend from h] at k
  exact k

/-- An instruction with a result that has performed in every lane. -/
theorem State.completeRead_done {s : State} {a id core : Nat} {x p o} (h : s.op? a id = some (x, p, o)) (hu : o.undone = false) :
    ∃ y, (s.completeRead a id core).agent? a = some y ∧
      Delivered id o.dst (o.width == 8) (doneLanes o) (laneMarks o) (laneValues o) (scalarValue s o) x y ∧
      (∀ k, k ≠ a → (s.completeRead a id core).agent? k = s.agent? k) ∧
      (o.sampled = false → SameBytes s (s.completeRead a id core)) ∧
      (o.acquiresWide = true → ((s.completeRead a id core).core core).l1 = []) := by
  obtain ⟨hx, hp, ho, hid⟩ := State.op?_spec h
  subst hid
  have hd := Delivered_op o (Config.freeDWord s.free) x
  generalize hz : (o.deliver (Config.freeDWord s.free) x).mapFlight (Flight.modOp o.id fun q => { q with written := true }) = z
  generalize hs0 : (if o.openDst then s.tick else s) = s0
  have h0 : ∃ f, s0 = { s with free := f } := by subst hs0; split <;> exact ⟨_, rfl⟩
  have e : s.completeRead a o.id core =
      ((if o.acquiresWide then (s0.setAgent a z).invalL1 core else s0.setAgent a z).sampleOp x o).tidy a := by
    subst hz hs0; unfold State.completeRead; simp only [h, hu]; rfl
  rw [e]
  have hB := AgentBecomes.set s0 a z
  generalize hs2 : (if o.acquiresWide then (s0.setAgent a z).invalL1 core else s0.setAgent a z) = s2
  have h2a : s2.agents = (s0.setAgent a z).agents := by subst hs2; split <;> rfl
  have h0a : ∀ k, s0.agent? k = s.agent? k := by obtain ⟨f, rfl⟩ := h0; intro k; rfl
  have h0b : SameBytes s s0 := by obtain ⟨f, rfl⟩ := h0; intro k; rfl
  obtain ⟨m1, m2, m3, m4, hs⟩ := State.sampleOp_only s2 x o
  have h3a : (s2.sampleOp x o).agent? a = some z := by
    rw [hs]; unfold State.agent?; simp only [h2a]; exact hB.agent
  have hT := AgentBecomes.mod h3a (Agent.mapFlight Flight.tidy)
  refine ⟨_, hT.agent, ?_, ?_, ?_, ?_⟩
  · subst hz; exact hd
  · intro k hk
    refine (hT.2.2 k hk).trans ?_; rw [hs]; unfold State.agent?; simp only [h2a]; exact (hB.2.2 k hk).trans (h0a k)
  · intro hn k
    refine (hT.bytes k).trans ?_; rw [State.sampleOp_none _ _ hn]
    refine Eq.trans ?_ (h0b k)
    subst hs2; split <;> rfl
  · intro hw
    have hc : ((s2.sampleOp x o).tidy a).core core = s2.core core := by rw [hs]; rfl
    rw [hc]; subst hs2; rw [if_pos hw]; unfold State.invalL1; simp

/-! ## Buffers -/

/-- Two states differ at most in their gangs and their cores, which hold the buffers. -/
def InBufs (s t : State) : Prop := ∃ gs cs, t = { s with gangs := gs, cores := cs }

theorem InBufs.refl (s : State) : InBufs s s := ⟨_, _, rfl⟩

theorem InBufs.trans {s t u : State} (h : InBufs s t) (k : InBufs t u) : InBufs s u := by
  obtain ⟨_, _, rfl⟩ := h; obtain ⟨a, b, rfl⟩ := k; exact ⟨a, b, rfl⟩

theorem InBufs.foldl {α : Type} (f : State → α → State) (hf : ∀ s a, InBufs s (f s a)) (l : List α) (s : State) :
    InBufs s (l.foldl f s) := by
  induction l generalizing s with
  | nil => exact ⟨_, _, rfl⟩
  | cons a t ih => exact (hf s a).trans (ih _)

theorem InBufs.put (s : State) (p : BufAt) (off : Nat) (b : Byte) : InBufs s (s.bufPut1 p off b) := by
  unfold State.bufPut1; split <;> exact ⟨_, _, rfl⟩

theorem InBufs.mark (s : State) (p : BufAt) (r : Nat) (b : Bool) : InBufs s (s.setBufMark p r b) := by
  unfold State.setBufMark; dsimp only; split <;> exact ⟨_, _, rfl⟩

/-- A write to a buffer touches no byte of memory and no agent. -/
theorem InBufs.write (s : State) (p : BufAt) (cells : List (Nat × Byte)) : InBufs s (s.bufWrite p cells) :=
  .trans (.foldl _ (fun _ _ => .put ..) _ _) (.foldl _ (fun _ _ => .mark ..) _ _)

theorem InBufs.markRows (s : State) (p : BufAt) (off len : Nat) : InBufs s (s.bufMarkRows p off len) :=
  .foldl _ (fun _ _ => .mark ..) _ _

theorem InBufs.agents {s t : State} (h : InBufs s t) : t.agents = s.agents := by obtain ⟨_, _, rfl⟩ := h; rfl
theorem InBufs.mem {s t : State} (h : InBufs s t) : t.mem = s.mem := by obtain ⟨_, _, rfl⟩ := h; rfl

/-- The lanes of a buffer load, their values and their marks, as its destination takes them. -/
def bufLanes (o : BufOp) : Lanes := maskOf fun i => o.lanes.any fun l => l.lane == i
def bufValues (o : BufOp) (i : Nat) : DWord :=
  ((o.lanes.find? fun l => l.lane == i).map fun l => LdKind.extend o.k l.val.toNat).getD 0#64
def bufMarks (o : BufOp) : Lanes := maskOf fun i => o.lanes.any fun l => l.lane == i && l.mark

/-- The destination of a buffer load after `BufOp.deliver`. -/
theorem Delivered_buf (o : BufOp) (x : Agent) (hm : bufLanes o ≠ 0#32) :
    Delivered o.id o.dst (o.width == 8) (bufLanes o) (bufMarks o) (bufValues o) (bufValues o (lowLane (bufLanes o))) x
      (o.deliver x) := by
  have e : o.deliver x =
      (match o.dst with
        | some (.v n) =>
          if o.width = 8 then (x.giveV o.id n (bufLanes o) (fun i => (bufValues o i).setWidth 32) (bufMarks o)).giveV o.id
            (n + 1) (bufLanes o) (fun i => (bufValues o i >>> 32).setWidth 32) (bufMarks o)
          else x.giveV o.id n (bufLanes o) (fun i => (bufValues o i).setWidth 32) (bufMarks o)
        | some (.s n) =>
          if o.width = 8 then
            (x.giveS o.id n ((bufValues o (lowLane (bufLanes o))).setWidth 32) (bufMarks o != 0#32)).giveS o.id (n + 1)
              ((bufValues o (lowLane (bufLanes o)) >>> 32).setWidth 32) (bufMarks o != 0#32)
          else x.giveS o.id n ((bufValues o (lowLane (bufLanes o))).setWidth 32) (bufMarks o != 0#32)
        | _ => x).unpend o.id := rfl
  rw [e]
  rcases o.dst with _ | ⟨n⟩ | n | n | n | n | n
  · exact ⟨rfl, rfl, rfl, rfl, rfl, rfl, rfl, rfl, rfl, rfl⟩
  · simpa using Delivered_vec o.id n (o.width == 8) (bufLanes o) (bufMarks o) (bufValues o) _ x
  · exact ⟨rfl, rfl, rfl, rfl, rfl, rfl, rfl, rfl, rfl, rfl⟩
  · simpa using Delivered_scal o.id n (o.width == 8) (bufLanes o) (bufMarks o) (bufValues o) _ x hm
  all_goals exact ⟨rfl, rfl, rfl, rfl, rfl, rfl, rfl, rfl, rfl, rfl⟩

theorem find?_map_buf (l : List BufOp) (id : Nat) (f : BufOp → BufOp) (hf : ∀ q, (f q).id = q.id) :
    (l.map fun q => if q.id = id then f q else q).find? (fun q => q.id == id) =
      (l.find? fun q => q.id == id).map f := by
  induction l with
  | nil => rfl
  | cons q t ih =>
    by_cases h : q.id = id
    · simp [List.find?, h, hf]
    · have : (q.id == id) = false := by simpa using h
      simp [List.find?, h, ih, this]
theorem filter_map_buf (l : List BufOp) (id : Nat) (f : BufOp → BufOp) (hf : ∀ q, (f q).id = q.id) :
    (l.map fun q => if q.id = id then f q else q).filter (fun q => q.id != id) = l.filter fun q => q.id != id := by
  induction l with
  | nil => rfl
  | cons q t ih =>
    by_cases h : q.id = id
    · simp [List.filter, h, hf, ih]
    · have : (q.id != id) = true := by simpa using h
      simp [List.filter, h, ih, this]

/-! ## Bytes -/

theorem kget_map_key {V : Type} (f : Nat → V → V) (m : KMap V) (k : Nat) :
    kget (m.map fun e => (e.1, f e.1 e.2)) k = (kget m k).map (f k) := by
  induction m with
  | nil => rfl
  | cons e t ih =>
    obtain ⟨k', v⟩ := e
    by_cases h : k' = k
    · subst h; simp [kget]
    · simp [kget, h, ih]

theorem kget_kmap_fn {V : Type} (f : V → V) (m : KMap V) (k : Nat) : kget (kmap f m) k = (kget m k).map f :=
  kget_kmap f m k

theorem leBytes_length (n v : Nat) : (leBytes n v).length = n := by
  induction n generalizing v with
  | zero => rfl
  | succ n ih => simp [leBytes, ih]
theorem leBytes_getD (n v i : Nat) (h : i < n) : (leBytes n v).getD i 0#8 = BitVec.ofNat 8 (v / 256 ^ i) := by
  induction n generalizing v i with
  | zero => omega
  | succ n ih =>
    cases i with
    | zero => simp only [leBytes, List.getD_cons_zero, Nat.pow_zero, Nat.div_one]; apply BitVec.eq_of_toNat_eq; simp
    | succ i =>
      have := ih (v / 256) i (by omega)
      simp only [leBytes, List.getD_cons_succ, this, Nat.pow_succ', Nat.div_div_eq_div_mul]

theorem mem_cells {o : MemOp} {ls : List LaneOp} {e : Nat × Byte} (h : e ∈ o.cells ls) : ∃ l ∈ ls, l.key ≤ e.1 ∧ e.1 < l.key + o.width := by
  unfold MemOp.cells at h
  rw [List.mem_flatMap] at h
  obtain ⟨l, hl, he⟩ := h
  refine ⟨l, hl, ?_⟩
  have : ∀ (bs : List Byte) k, e ∈ cellsAt k bs → k ≤ e.1 ∧ e.1 < k + bs.length := by
    intro bs
    induction bs with
    | nil => intro k h; simp [cellsAt] at h
    | cons b t ih =>
      intro k h
      simp only [cellsAt, List.mem_cons] at h
      rcases h with rfl | h
      · simp
      · have := ih _ h; simp only [List.length_cons]; omega
  have := this _ _ he
  rwa [leBytes_length] at this

theorem leVal_byte (bs : List Byte) (i : Nat) (h : i < bs.length) : leVal bs / 256 ^ i % 256 = (bs.getD i 0#8).toNat := by
  induction bs generalizing i with
  | nil => simp at h
  | cons b t ih =>
    have hb : b.toNat < 256 := by have := b.isLt; omega
    cases i with
    | zero => simp [leVal]; omega
    | succ i =>
      have := ih i (by simpa using h)
      simp only [leVal, Nat.pow_succ', ← Nat.div_div_eq_div_mul]
      rw [show (b.toNat + 256 * leVal t) / 256 = leVal t by omega]; simpa using this
theorem leVal_lt (bs : List Byte) : leVal bs < 256 ^ bs.length := by
  induction bs with
  | nil => simp [leVal]
  | cons b t ih =>
    have hb : b.toNat < 256 := by have := b.isLt; omega
    simp only [leVal, List.length_cons, Nat.pow_succ']; omega

/-! ## Messages of a gang -/

theorem State.gang?_modGang_if (s : State) (g h : Nat) (f : Gang → Gang) : (s.modGang g f).gang? h = if g = h then (s.gang? h).map f else s.gang? h := by
  unfold State.gang? State.modGang; simp [kget_kmod]
theorem bufPut1_msgs (s : State) (b : BufAt) (off : Nat) (v : Byte) (g : Nat) : ((s.bufPut1 b off v).gang? g).map Gang.msgs = (s.gang? g).map Gang.msgs := by
  unfold State.bufPut1; split
  · rfl
  · rw [State.gang?_modGang_if]; split
    · cases s.gang? g <;> rfl
    · rfl
theorem setBufMark_msgs (s : State) (b : BufAt) (r : Nat) (v : Bool) (g : Nat) : ((s.setBufMark b r v).gang? g).map Gang.msgs = (s.gang? g).map Gang.msgs := by
  unfold State.setBufMark; dsimp only; split
  · rfl
  · rw [State.gang?_modGang_if]; split
    · cases s.gang? g <;> rfl
    · rfl
theorem foldl_msgs {α : Type} (f : State → α → State) (g : Nat) (hf : ∀ s a, ((f s a).gang? g).map Gang.msgs = (s.gang? g).map Gang.msgs) (l : List α) (s : State) : ((l.foldl f s).gang? g).map Gang.msgs = (s.gang? g).map Gang.msgs := by
  induction l generalizing s with
  | nil => rfl
  | cons a t ih => exact (ih _).trans (hf s a)
theorem bufWrite_msgs (s : State) (b : BufAt) (cells) (g : Nat) : ((s.bufWrite b cells).gang? g).map Gang.msgs = (s.gang? g).map Gang.msgs :=
  (foldl_msgs _ g (fun _ _ => setBufMark_msgs ..) _ _).trans (foldl_msgs _ g (fun _ _ => bufPut1_msgs ..) _ _)
theorem bufMarkRows_msgs (s : State) (b : BufAt) (o l g : Nat) : ((s.bufMarkRows b o l).gang? g).map Gang.msgs = (s.gang? g).map Gang.msgs :=
  foldl_msgs _ g (fun _ _ => setBufMark_msgs ..) _ _
theorem sendReturns_spec (g w : Nat) (cores : List (Nat × Nat)) (ls : List LaneOp) (s : State) :
    (sendReturns g w cores ls s).agents = s.agents ∧ (sendReturns g w cores ls s).mem = s.mem ∧
    ((sendReturns g w cores ls s).gang? g).map Gang.msgs =
      (s.gang? g).map fun y => y.msgs ++ ls.map fun l => (tgtPos l.target, tgtBar l.target, BarMsg.arrive) := by
  induction ls generalizing s with
  | nil => simp [sendReturns]
  | cons l t ih =>
    simp only [sendReturns]
    generalize hb : (⟨g, tgtPos l.target, ((cores.find? fun e => e.1 == tgtPos l.target).map fun e => e.2).getD 0, .abuf⟩ : BufAt) = b
    have hbg : b.gang = g := by subst hb; rfl
    have k1 := InBufs.write s b (cellsAt (tgtOff l.target) (leBytes w l.val.toNat))
    generalize h1 : s.bufWrite b (cellsAt (tgtOff l.target) (leBytes w l.val.toNat)) = s1 at *
    have m1 : (s1.gang? g).map Gang.msgs = (s.gang? g).map Gang.msgs := by
      subst h1; exact bufWrite_msgs ..
    have k2 : InBufs s1 (if l.mark then s1.bufMarkRows b (tgtOff l.target) w else s1) := by
      split
      · exact .markRows ..
      · exact .refl _
    have m2 : ((if l.mark then s1.bufMarkRows b (tgtOff l.target) w else s1).gang? g).map Gang.msgs = (s1.gang? g).map Gang.msgs := by
      split
      · exact bufMarkRows_msgs ..
      · rfl
    generalize (if l.mark then s1.bufMarkRows b (tgtOff l.target) w else s1) = s2 at *
    obtain ⟨i1, i2, i3⟩ := ih (s2.barSend g (tgtPos l.target) (tgtBar l.target) .arrive)
    refine ⟨i1.trans ((k2.agents).trans k1.agents), i2.trans (k2.mem.trans k1.mem), i3.trans ?_⟩
    have : (s2.barSend g (tgtPos l.target) (tgtBar l.target) .arrive).gang? g = (s2.gang? g).map fun y => { y with msgs := y.msgs ++ [(tgtPos l.target, tgtBar l.target, .arrive)] } := by
      unfold State.barSend State.gang? State.modGang; simp
    rw [this]
    have m3 := m2.trans m1
    cases h2 : s2.gang? g <;> cases h : s.gang? g <;> simp [h2, h] at m3 ⊢
    rw [m3]

end Sys2Proof.Machine
end

