-- ==== Sys2Proof/Machine/IrRun.lean ====
section
/-! DEFINITION. What a valid Brosedin IR function does (R343, R344): each operation has the effect of the LZA instruction it
names, for one thread or, within a convergence region, for all its participants as one head run. The threads' values stand beside
the machine; while an operation executes, an agent's registers hold those that it reads and defines. The part's own steps may
come between the begin of an operation and its end. The part itself runs native code (R345): this says what an IR means
(log 21). -/

namespace Sys2Proof.Machine

/-- A convergence region that the warp has come to: its `conv.enter`, its participants, those of them that have reached it, and
whether all have, so that it is open. -/
structure IrRegion where
  site : Nat × Nat
  parts : Lanes
  reached : Lanes
  inside : Bool
  deriving DecidableEq, Repr

/-- The value that a thread holds under a name, with its poison mark. -/
structure IrVal where
  name : Opnd
  lane : Nat
  bits : DWord
  mark : Bool
  deriving DecidableEq, Repr

/-- The threads of a warp: the agent that executes their operations, the place of each, those that have exited, the regions,
innermost first, their values, newest first, and the threads whose operation has begun and has not ended. -/
structure IrWarp where
  agent : Nat
  spots : List (Nat × Nat)
  exited : Lanes
  regions : List IrRegion
  vals : List IrVal
  busy : Option Lanes
  deriving DecidableEq, Repr

/-- The threads of a warp at the start of a function, with the values of its first block's parameters. -/
def IrWarp.start (agent : Nat) (live : Lanes) (vals : List IrVal) : IrWarp :=
  { agent := agent, spots := List.replicate 32 (0, 0), exited := ~~~live, regions := [], vals := vals, busy := none }

def IrWarp.spot (w : IrWarp) (l : Nat) : Nat × Nat := w.spots.getD l (0, 0)

/-- Threads of the mask go to a place. -/
def IrWarp.goTo (w : IrWarp) (m : Lanes) (p : Nat × Nat) : IrWarp :=
  { w with spots := (w.spots.zipIdx).map fun e => if m.getLsbD e.2 then p else e.1 }

/-- Threads of the mask go on to the next statement, each from its own place. -/
def IrWarp.goOn (w : IrWarp) (m : Lanes) : IrWarp :=
  { w with spots := (w.spots.zipIdx).map fun e => if m.getLsbD e.2 then (e.1.1, e.1.2 + 1) else e.1 }

/-! ## Regions (R344) -/

/-- Every participant has reached the region or exited. -/
def IrRegion.opens (exited : Lanes) (r : IrRegion) : Bool := r.parts &&& ~~~r.reached &&& ~~~exited == 0#32

/-- The statement at which a thread stands. -/
def IrWarp.at (f : IrFunc) (w : IrWarp) (l : Nat) : Option IrStmt :=
  (f.blocks[(w.spot l).1]?).bind fun k => k.body[(w.spot l).2]?

/-- The lowest place, in the order of the function, at which a thread of the mask stands. -/
def IrWarp.lowest (w : IrWarp) (m : Lanes) : Option (Nat × Nat) :=
  ((lanesOf m).map w.spot).foldl (fun b p =>
    match b with
    | none => some p
    | some q => if decide (p.1 < q.1) || (p.1 == q.1 && decide (p.2 < q.2)) then some p else some q) none

/-- The threads that execute what a thread stands at. Within an open region its participants execute as one head run, those at
the lowest place (R30), and leave it together; elsewhere the thread executes alone. None where it may not go on: it has reached a
region that is not open, or others come first. -/
def IrWarp.group (f : IrFunc) (w : IrWarp) (l : Nat) : Option Lanes :=
  if w.exited.getLsbD l then none
  else
    match w.regions with
    | r :: _ =>
      if r.inside then
        let m := r.parts &&& ~~~w.exited
        let on := maskOf fun i => m.getLsbD i && w.at f i != some .leave
        if on = 0#32 then some m
        else if on.getLsbD l && w.lowest on == some (w.spot l) then
          some (maskOf fun i => on.getLsbD i && w.spot i == w.spot l)
        else none
      else if r.reached.getLsbD l then none
      else some (1#32 <<< l)
    | [] => some (1#32 <<< l)

/-- The innermost region opens once no participant is missing: they go on inside it. -/
def IrWarp.open (w : IrWarp) : IrWarp :=
  match w.regions with
  | r :: t =>
    if !r.inside && r.opens w.exited then
      ({ w with regions := { r with inside := true } :: t }).goTo (r.parts &&& ~~~w.exited) (r.site.1, r.site.2 + 1)
    else w
  | [] => w

/-- These threads reach a `conv.enter`. The participants are the threads that have not exited when the first reaches it, within a
region those of its participants that have not; a thread that stands at another `conv.enter` has not reached it and holds the
others. -/
def IrWarp.enter (w : IrWarp) (m : Lanes) (at_ : Nat × Nat) : Option IrWarp :=
  match w.regions with
  | r :: t =>
    if r.inside then
      some ({ w with regions := ⟨at_, r.parts &&& ~~~w.exited, m, false⟩ :: r :: t }).open
    else if r.site = at_ then some ({ w with regions := { r with reached := r.reached ||| m } :: t }).open
    else none
  | [] => some ({ w with regions := [⟨at_, ~~~w.exited, m, false⟩] }).open

/-- A thread that exits is missed by no region. -/
def IrWarp.leaves (w : IrWarp) (m : Lanes) : IrWarp := ({ w with exited := w.exited ||| m }).open

/-! ## Values (R342, R343) -/

/-- The value of a thread under a name; one that has no value is 0. -/
def IrWarp.val (w : IrWarp) (o : Opnd) (l : Nat) : IrVal :=
  (w.vals.find? fun v => v.name == o && v.lane == l).getD ⟨o, l, 0#64, false⟩

/-- Values taken in place of those of the same names. -/
def IrWarp.gives (w : IrWarp) (vs : List IrVal) : IrWarp :=
  { w with vals := vs ++ w.vals.filter fun v => !vs.any fun u => u.name == v.name && u.lane == v.lane }

/-- A value of a thread put into a register. -/
def Regs.putVal (r : Regs) (o : Opnd) (wide : Bool) (v : IrVal) : Regs :=
  let m := 1#32 <<< v.lane
  match o with
  | .v n => r.setV64 n wide m (fun _ => v.bits) (if v.mark then m else 0#32)
  | .s n => r.setS64 n wide v.bits v.mark
  | .p n => r.setP n m fun _ => v.bits.getLsbD 0
  | _ => r

/-- The value of a thread in a register. -/
def Regs.takeVal (r : Regs) (o : Opnd) (wide : Bool) (name : Opnd) (l : Nat) : IrVal :=
  match o with
  | .v n => ⟨name, l, if wide then r.vpair n l else (r.vlane n l).setWidth 64,
      (kgetD 0#32 r.vMark n).getLsbD l || (wide && (kgetD 0#32 r.vMark (n + 1)).getLsbD l)⟩
  | .s n => ⟨name, l, if wide then r.spair n else (r.sreg n).setWidth 64, r.sMark.getLsbD n || (wide && r.sMark.getLsbD (n + 1))⟩
  | .p n => ⟨name, l, if (r.pred n).getLsbD l then 1#64 else 0#64, false⟩
  | _ => ⟨name, l, 0#64, false⟩

/-- What a block's parameter of a type receives from a value, a constant or an identity (R148 to R150). -/
def IrWarp.arg (w : IrWarp) (s : State) (t : IrTy) (o : Opnd) (l : Nat) : DWord × Bool :=
  match o, t with
  | .k n, .flt g => (kFlt g n, false)
  | .k n, _ => (if IrTy.wide t then kInt n else kInt n &&& 0xFFFFFFFF#64, false)
  | .ident n, _ => (((s.agent? w.agent).map fun x => (Ctx.ident ⟨s, w.agent, x, 0#64, 0#32, 0#32⟩ n l).setWidth 64).getD 0#64, false)
  | o, _ => ((w.val o l).bits, (w.val o l).mark)

/-- Threads go on to a block with values for its parameters, taken all at once. -/
def irJump (f : IrFunc) (w : IrWarp) (m : Lanes) (b : Nat) (args : List Opnd) (s : State) : IrWarp :=
  let ps := ((f.blocks[b]?).map IrBlock.params).getD []
  (w.gives ((args.zip ps).flatMap fun e => (lanesOf m).map fun l =>
    ⟨e.2.1, l, (w.arg s e.2.2 e.1 l).1, (w.arg s e.2.2 e.1 l).2⟩)).goTo m (b, 0)

/-! ## Operations (R343) -/

/-- The types of what an operation reads take a pair. -/
def irWide (ts : List IrTy) : Bool := ts.any IrTy.wide

/-- The agent's lanes of a mask are its head run, about to execute an instruction. -/
def State.headed (s : State) (a : Nat) (m : Lanes) : State :=
  { s.modAgent a (Agent.mapCtl fun _ => Ctl.start m 0#64) with cur := some a }

/-- The agent's registers hold what the operation reads for these threads. Its results are free values until it writes them. -/
def irLoad (w : IrWarp) (m : Lanes) (i : Instr) (s : State) : State :=
  (s.modAgent w.agent (Agent.mapRegs fun r =>
    let r0 := (irOuts i).foldl (fun r e => (lanesOf m).foldl (fun r l =>
      r.putVal e.1 (irWide e.2) ⟨e.1, l, Config.freeDWord s.free, false⟩) r) { r with alloc := max r.alloc 64 }
    (irIns i).foldl (fun r e => (lanesOf m).foldl (fun r l => r.putVal e.2.1 (irWide e.2.2) { w.val e.1 l with lane := l }) r) r0)).tick

/-- An operation begins on the threads of a mask: what the instruction that it names does for them. -/
def irBegin (w : IrWarp) (m : Lanes) (i : Instr) (s : State) : Option (IrWarp × State) :=
  match exec (irPlaced i) (s.headed w.agent m) with
  | .next t => some ({ w with busy := some m }, t)
  | _ => none

/-- The agent stands after an instruction of these lanes: it waits for nothing, has stopped for no fault, and no register that
the instruction writes waits for its result. -/
def Agent.irDone (x : Agent) (m : Lanes) (i : Instr) : Bool :=
  ((lanesOf m).all fun l => x.ctl.pc l == BitVec.ofNat 64 (irPlaced i).size) && x.ctl.parked &&& m == 0#32 &&
    x.ctl.hold == .none && x.ctl.stop == none && (irOuts i).all fun e => x.flight.pend.all fun p => p.1 != e.1

/-- The agent has not issued the instruction: it waited at issue, or a fault has been mended. -/
def Agent.irAgain (x : Agent) (m : Lanes) : Bool :=
  ((lanesOf m).all fun l => x.ctl.pc l == 0#64) && x.ctl.parked &&& m == 0#32 && x.ctl.hold == .none && x.ctl.stop == none

/-- The operation's results become values of the threads, which go on. -/
def irEnd (w : IrWarp) (m : Lanes) (i : Instr) (res : List (Opnd × IrTy)) (x : Agent) : IrWarp :=
  (({ w with busy := none } : IrWarp).gives ((res.zip (irOuts i)).flatMap fun e => (lanesOf m).map fun l =>
    x.regs.takeVal e.2.1 (IrTy.wide e.1.2) e.1.1 l)).goOn m

/-- What the threads that stand with thread l do next (R343, R344); none where they may not go on, and while an operation waits
for a step of the part or has stopped for a fault. -/
def irStep (f : IrFunc) (w : IrWarp) (l : Nat) (s : State) : Option (IrWarp × State) :=
  match w.busy with
  | some m =>
    match w.at f (lowLane m), s.agent? w.agent with
    | some (.op i res), some x =>
      if x.irDone m i then some (irEnd w m i res x, s)
      else if x.irAgain m then irBegin w m i s
      else none
    | _, _ => none
  | none =>
    match w.group f l, f.blocks[(w.spot l).1]? with
    | some m, some k =>
      match k.body[(w.spot l).2]? with
      | some (.op i _) => irBegin w m i (irLoad w m i s)
      | some .enter => (w.enter m (w.spot l)).map fun v => (v, s)
      | some .leave => some (({ w with regions := w.regions.drop 1 }).goOn m, s)
      | none =>
        match k.last with
        | .jump b args => some (irJump f w m b args s, s)
        | .branch q vote b bs c cs =>
          let on := maskOf fun i => m.getLsbD i && (w.val q i).bits.getLsbD 0
          let yes := match vote with
            | none => on
            | some .any => if on = 0#32 then 0#32 else m
            | some .all => if on = m then m else 0#32
            | some .none => if on = 0#32 then m else 0#32
          some (irJump f (irJump f w yes b bs s) (m &&& ~~~yes) c cs s, s)
        | .ends => some (w.leaves m, s)
    | _, _ => none

/-- Thread t of a kernel's gang goes on, in lane t mod 32 of warp t div 32 (R343). -/
def irRun (f : IrFunc) (ws : List IrWarp) (t : Nat) (s : State) : Option (List IrWarp × State) :=
  (ws[(irThread t).1]?).bind fun w => (irStep f w (irThread t).2 s).map fun r => (ws.set (irThread t).1 r.1, r.2)

end Sys2Proof.Machine
end

