-- ==== Sys2Proof/Tests/Slice0.lean ====
section
/-! SUPPORT. Tests: the checks of well-formedness refuse what breaks them, words decode as the manual's encodings have it,
single steps answer what the manual's rules give, and for every hypothesis of a statement a state and operands that meet
it. -/

namespace Sys2Proof.Tests

open Sys2Proof Sys2Proof.Machine Sys2Proof.Claim

set_option Elab.async false

/-! ## Terms that are no instruction -/

def g0 : Guard := ⟨none, false⟩

theorem test_wf_vector_number : (Instr.vmov g0 .n32 (.v 1536) (.v 0)).wf = false := by decide
theorem test_wf_scalar_number : (Instr.smov g0 .n32 (.s 256) (.s 0)).wf = false := by decide
theorem test_wf_constant_number : (Instr.smov g0 .n32 (.s 0) (.k 64)).wf = false := by decide
theorem test_wf_predicate_number : (Instr.vsel g0 .n32 (.v 0) (.v 0) (.v 0) (.p 24)).wf = false := by decide
theorem test_wf_identity_number : (Instr.smov g0 .n32 (.s 0) (.ident 8)).wf = false := by decide
theorem test_wf_reserved_code : (Instr.smov g0 .n32 (.s 0) (.reserved 1887)).wf = false := by decide
theorem test_wf_guard_predicate : (Instr.nop ⟨some 24, false⟩).wf = false := by decide
theorem test_wf_guard_negated_without_predicate : (Instr.nop ⟨none, true⟩).wf = false := by decide
theorem test_wf_branch_offset : (Instr.bra g0 2097152).wf = false := by decide
theorem test_wf_byte_offset : (Instr.ipref g0 (.s 0) (-1025)).wf = false := by decide
theorem test_wf_call_offset : (Instr.callDirect g0 0 2147483648 0).wf = false := by decide
theorem test_wf_call_saves : (Instr.callDirect g0 257 0 0).wf = false := by decide
theorem test_wf_service_class : (Instr.pref g0 (.s 0) ⟨4, false⟩ 0).wf = false := by decide
theorem test_wf_frame_slot : (Instr.mzero g0 ⟨0#16, some 16, none⟩ (.s 0)).wf = false := by decide
theorem test_wf_frame_barrier : (Instr.mzero g0 ⟨0#16, none, some 64⟩ (.s 0)).wf = false := by decide
theorem test_wf_conversion_same_type : (Instr.vcvt g0 (.int .n8) (.int .n8) .rne (.v 0) (.v 1)).wf = false := by decide
theorem test_wf_conversion_rounding : (Instr.vcvt g0 (.flt .f64) (.flt .f32) .rtz (.v 0) (.v 1)).wf = false := by decide
theorem test_wf_integer_condition : (Instr.vcmpT g0 .n32 .uno (.p 0) (.v 0) (.v 1)).wf = false := by decide
theorem test_wf_move_type : (Instr.vperm g0 .n8 (.v 0) (.v 1) (.v 2)).wf = false := by decide
theorem test_wf_pack_type : (Instr.vpack g0 .n32 (.v 0) (.v 1) (.v 2) (.v 3)).wf = false := by decide
theorem test_wf_system_register : (Instr.srd g0 4096 (.s 0)).wf = false := by decide
theorem test_wf_park_needs_a_condition : (Instr.park g0 false false false (.v 0) 0 (.v 0)).wf = false := by decide
theorem test_wf_park_unused_field : (Instr.park g0 false true false (.v 1) 0 (.v 0)).wf = false := by decide
theorem test_wf_allotment : (Instr.grow g0 33).wf = false := by decide
theorem test_wf_priority : (Instr.taskPush g0 4 (.s 0)).wf = false := by decide
theorem test_wf_load_order : (Instr.ld g0 .w32 .rel .core (.v 0) (.s 0) ⟨0, false⟩ 0).wf = false := by decide
theorem test_wf_store_order : (Instr.st g0 .w32 .acq .core (.v 0) (.s 0) ⟨0, false⟩ 0).wf = false := by decide
theorem test_wf_relaxed_scope : (Instr.ld g0 .w32 .relaxed .die (.v 0) (.s 0) ⟨0, false⟩ 0).wf = false := by decide
theorem test_wf_float_atomic : (Instr.atom g0 .min .f32 .relaxed .core (.v 0) (.s 0) (.v 1)).wf = false := by decide
theorem test_wf_reduction : (Instr.red g0 .xchg .n32 .relaxed .core (.s 0) (.v 1)).wf = false := by decide
theorem test_wf_reduction_order : (Instr.red g0 .add .n32 .acq .core (.s 0) (.v 1)).wf = false := by decide
theorem test_wf_fence_order : (Instr.fence g0 .relaxed .core).wf = false := by decide
theorem test_wf_ways : (Instr.l1cfg g0 13).wf = false := by decide
theorem test_wf_wait_counts : (Instr.waitc g0 64 0 0).wf = false ∧ (Instr.waitc g0 0 0 16).wf = false := by decide
theorem test_wf_handle : (Instr.tbind g0 32 (.s 0)).wf = false := by decide
theorem test_wf_array : (Instr.mswap g0 4 CmdFrame.none).wf = false := by decide
theorem test_wf_table : (Instr.cbtload g0 16 CmdFrame.none (.s 0)).wf = false := by decide
theorem test_wf_bond_register : (Instr.bdSet g0 16 (.s 0)).wf = false := by decide
theorem test_wf_set_unused_destination : (Instr.setIns g0 false (.v 1) (.s 0) (.v 0)).wf = false := by decide
theorem test_wf_cost_counter : (Instr.setCost g0 6 (.s 0)).wf = false := by decide
theorem test_wf_barrier : (Instr.barWait g0 64).wf = false := by decide
theorem test_wf_step_is_no_word : (Instr.timer 0).wf = false := by decide

/-! ## Words, each cut out of the encoding tables by hand -/

/-- R161: `vli v5, 0x3F800000`. -/
theorem test_decode_vli :
    decodeWords (word0 0b110 0b0000010 0 31 0 5 0 0 0) 0x3F800000 = .vli g0 (.v 5) 0x3F800000#32 := by decide
/-- R154: `vcvt` f16 from n8, upwards. -/
theorem test_decode_vcvt :
    decodeWords (word0 0b000 0b0111100 8 31 0 1 2 0 0b00000110000) 0 = .vcvt g0 (.flt .f16) (.int .n8) .rup (.v 1) (.v 2) := by
  decide
/-- R154: the same types on both sides are no word. -/
theorem test_decode_vcvt_same :
    decodeWords (word0 0b000 0b0111100 8 31 0 1 2 0 8) 0 = .unassignedWord (word0 0b000 0b0111100 8 31 0 1 2 0 8) 0 := by decide
/-- R155: `srd` of register 6 and `park` with all three conditions. -/
theorem test_decode_srd : decodeWords (word0 0b001 0b0111000 0 31 0 1603 0 0 6) 0 = .srd g0 6 (.s 3) := by decide
theorem test_decode_park :
    decodeWords (word0 0b001 0b1001010 7 31 0 0 1602 5 1606) 0 = .park g0 true true true (.s 2) 5 (.s 6) := by decide
/-- R157: `stb` to ABUF at −1, `copy.out` from CBUF, a walk of mode 2, `waitc`. -/
theorem test_decode_stb :
    decodeWords (word0 0b010 0b0011001 0 31 0 4 1600 0 0b11111111111) 0 = .stb g0 .w16 .abuf (.v 4) (.s 0) (-1) := by decide
theorem test_decode_copy_out :
    decodeWords (word0 0b010 0b0111010 0b1101 31 0 1600 1602 1603 1604) 0 =
      .copyOut g0 true ⟨1, true⟩ (.s 0) (.s 2) (.s 3) (.s 4) := by decide
theorem test_decode_chase :
    decodeWords (word0 0b010 0b1001000 2 31 0 6 8 1600 10) 0 = .chaseSample g0 (.v 6) (.v 8) (.s 0) (.v 10) := by decide
theorem test_decode_waitc :
    decodeWords (word0 0b010 0b1001101 0 31 0 0 0 0b00001000001 0b10101000000) 0 = .waitc g0 2 3 5 := by decide
/-- R158: `tbind` of handle 17, `chain.run` for warp 3 with slot 1. -/
theorem test_decode_tbind :
    decodeWords (word0 0b011 0b0000000 0 31 0 1603 0 0b00000111110 0b00000010001) 0 = .tbind g0 17 (.s 3) := by decide
theorem test_decode_chain_run :
    decodeWords (word0 0b011 0b0001010 0 31 0 1603 0 0b01000000010 0) 0 =
      .chainRun g0 ⟨8#16, some 1, none⟩ (.s 3) := by decide
/-- R159: `set.hint` of HASH and of none, `set.cost` of counter 5. -/
theorem test_decode_set_hint : decodeWords (word0 0b100 0b0001100 3 31 0 0 1601 0 0) 0 = .setHint g0 .hash (.s 1) := by decide
theorem test_decode_set_hint_none : decodeWords (word0 0b100 0b0001100 8 31 0 0 1601 0 0) 0 = .setHintNone g0 (.s 1) := by decide
/-- R160: `trap 0x8001`, `fdefer`. -/
theorem test_decode_trap : decodeWords (word0 0b101 0b0010000 0 31 0 0 0 0b00000010000 1) 0 = .trap g0 0x8001#16 := by decide
theorem test_decode_fdefer :
    decodeWords (word0 0b101 0b0001011 0 31 0 0 1600 1602 1603) 0 = .fdefer g0 (.s 0) (.s 2) (.s 3) := by decide
/-- The bytes of a class-6 word are sixteen, of any other eight; fewer give no instruction. -/
theorem test_decode_truncated :
    decodeBytes (wordBytes (word0 0b110 0b0000010 0 31 0 5 0 0 0)) = .error .truncated := by rfl
theorem test_decode_table_word : decodeTableWord 64 0x33C3E00000000000 = some (.nop g0) := by decide


/-! ## States for the witnesses -/

/-- The state after an outcome; the reset state where there is none. -/
def after (o : Out) : State :=
  match o with
  | .next s => s
  | _ => State.reset

/-- A warp of 32 lanes on core 0, its page mapped, about to issue. -/
def s0 : State := State.reset.placeWarp 64 0

/-- The warp and its gang. -/
def me : Nat := 2
def myGang : Nat := 1

/-- The warp with other registers, other control state, other anything. -/
def my (f : Agent → Agent) (s : State) : State := s.modAgent me f

/-- Scalars set. -/
def sets (l : List (Nat × Nat)) (s : State) : State :=
  my (Agent.mapRegs fun r => l.foldl (fun r e => r.setS e.1 (BitVec.ofNat 32 e.2) false) r) s

/-- Words put into ABUF. -/
def inAbuf (off : Nat) (ws : List Nat) (s : State) : State :=
  s.bufWrite ⟨myGang, 0, 0, .abuf⟩ (cellsAt off (ws.flatMap (leBytes 4)))

/-- Words put into memory. -/
def inMem (key : Nat) (ws : List Nat) (s : State) : State := s.write (cellsAt key (ws.flatMap (leBytes 4)))

/-- The warp with registers that most instructions can run on: s2 is 1, s4 is 64, s6 is 2, s8 the address 0x2000, s14 to s22
offsets of blocks in ABUF, p1 all ones. -/
def s1 : State :=
  sets [(2, 1), (4, 64), (6, 2), (8, 0x2000), (12, 4096), (14, 0x100), (16, 0x120), (18, 0x140), (20, 0x160), (22, 0x180)]
    (my (Agent.mapRegs fun r => r.setP 1 0xFFFFFFFF#32 fun _ => true) s0)

/-- The instruction stands in the surroundings of an issue that meet the test. -/
def Issues (i : Instr) (s : State) (p : Form → Ctx → Bool) : Prop :=
  ∃ F c, formOf i = some F ∧ Ctx.of s F.g = some c ∧ p F c = true

def issuesB (i : Instr) (s : State) (p : Form → Ctx → Bool) : Bool :=
  match formOf i with
  | none => false
  | some F =>
    match Ctx.of s F.g with
    | none => false
    | some c => p F c

theorem issues_of {i : Instr} {s : State} {p : Form → Ctx → Bool} (h : issuesB i s p = true) : Issues i s p := by
  unfold issuesB at h
  split at h
  · exact absurd h (by simp)
  · next F hF =>
    split at h
    · exact absurd h (by simp)
    · next c hc => exact ⟨F, c, hF, hc, h⟩

/-- The surroundings in which an instruction runs, where it does. -/
def runOf (s : State) (F : Form) : Option Ctx :=
  match Ctx.of s F.g with
  | none => none
  | some c0 =>
    if checkUses c0.ag.regs.alloc F.us = none ∧ F.pre c0 = none ∧ pending c0.ag.flight (guardUses F.g ++ F.us) = false ∧
        c0.act ≠ 0#32 ∧ poisonLanes c0.ag.regs c0.act F.us = 0#32 ∧ F.post (c0.acquireTokens F.us) = none then
      some (c0.acquireTokens F.us)
    else none

/-- The instruction runs, in surroundings that meet the test. -/
def Meets (i : Instr) (s : State) (p : Form → Ctx → Bool) : Prop :=
  ∃ F c, formOf i = some F ∧ Runs s F c ∧ p F c = true

def meetsB (i : Instr) (s : State) (p : Form → Ctx → Bool) : Bool :=
  match formOf i with
  | none => false
  | some F =>
    match runOf s F with
    | none => false
    | some c => p F c

theorem meets_of {i : Instr} {s : State} {p : Form → Ctx → Bool} (h : meetsB i s p = true) : Meets i s p := by
  unfold meetsB at h
  split at h
  · exact absurd h (by simp)
  · next F hF =>
    split at h
    · exact absurd h (by simp)
    · next c hc =>
      refine ⟨F, c, hF, ?_, h⟩
      unfold runOf at hc
      split at hc
      · exact absurd hc (by simp)
      · next c0 h0 =>
        split at hc
        · next hs =>
          obtain ⟨a1, a2, a3, a4, a5, a6⟩ := hs
          cases hc
          exact ⟨c0, h0, a1, a2, a3, a4, a5, rfl, a6⟩
        · exact absurd hc (by simp)

theorem all_meet {l : List Instr} {s : State} {p : Instr → Form → Ctx → Bool}
    (h : (l.all fun i => meetsB i s (p i)) = true) : ∀ i ∈ l, Meets i s (p i) := fun i hi =>
  meets_of (List.all_eq_true.1 h i hi)

/-! ## Witnesses: what holds of every instruction word -/

theorem witness_odd_register :
    Issues (.vmov g0 .n64 (.v 1) (.v 2)) s1 fun F _ => F.us.any fun u => u.odd := issues_of (by decide +kernel)
theorem witness_code_not_accepted :
    Issues (.vmov g0 .n32 (.s 1) (.v 2)) s1 fun F _ => F.us.all (fun u => !u.odd) && F.us.any fun u => !u.acc.ok u.op :=
  issues_of (by decide +kernel)

/-- The warp with 32 vector registers. -/
def sSmall : State := my (Agent.mapRegs fun r => { r with alloc := 32 }) s1

theorem witness_register_beyond_allotment :
    Issues (.vmov g0 .n32 (.v 32) (.v 2)) sSmall fun F c =>
      F.us.all (fun u => !u.odd) && F.us.all (fun u => u.acc.ok u.op) && F.us.any fun u => u.beyond c.ag.regs.alloc :=
  issues_of (by decide +kernel)
theorem witness_own_check_first :
    Issues (.grow g0 32) s1 fun F c => checkUses c.ag.regs.alloc F.us == none && (F.pre c).isSome := issues_of (by decide +kernel)
theorem witness_own_check_of_values :
    Issues (.jmp g0 (.s 2)) s1 fun F c => checkUses c.ag.regs.alloc F.us == none && F.pre c == none &&
      !pending c.ag.flight (guardUses F.g ++ F.us) && c.act != 0#32 && poisonLanes c.ag.regs c.act F.us == 0#32 &&
      (F.post (c.acquireTokens F.us)).isSome := issues_of (by decide +kernel)

/-- A load to v4 is in flight. -/
def sLoad : State := after (exec (.ld g0 .w32 .relaxed .core (.v 4) (.s 8) ⟨0, false⟩ 0) s1)

theorem witness_pending_register :
    Issues (.vmov g0 .n32 (.v 5) (.v 4)) sLoad fun F c => checkUses c.ag.regs.alloc F.us == none && F.pre c == none &&
      pending c.ag.flight (guardUses F.g ++ F.us) := issues_of (by decide +kernel)
theorem witness_guarded_off :
    Issues (.vmov ⟨some 1, true⟩ .n32 (.v 5) (.v 4)) s1 fun F c => checkUses c.ag.regs.alloc F.us == none && F.pre c == none &&
      !pending c.ag.flight (guardUses F.g ++ F.us) && c.act == 0#32 := issues_of (by decide +kernel)

/-- Lane 31 of v4 is marked. -/
def sMarked : State := my (Agent.mapRegs fun r => r.setV 4 0x80000000#32 (fun _ => 0#32) 0x80000000#32) s1

theorem witness_marked_register :
    Issues (.vmov g0 .n32 (.v 5) (.v 4)) sMarked fun F c => checkUses c.ag.regs.alloc F.us == none && F.pre c == none &&
      !pending c.ag.flight (guardUses F.g ++ F.us) && c.act != 0#32 && poisonLanes c.ag.regs c.act F.us != 0#32 :=
  issues_of (by decide +kernel)

/-- s6 is a token not yet read. -/
def sToken : State := my (Agent.mapFlight fun f => { f with tokens := [6] }) s1

theorem witness_token_read :
    Meets (.smov g0 .n32 (.s 5) (.s 6)) sToken fun F _ => F.us.any fun u => u.regList.contains (.s 6) :=
  meets_of (by decide +kernel)
theorem witness_token_not_read :
    Meets (.smov g0 .n32 (.s 5) (.s 2)) sToken fun F _ => F.us.all fun u => !u.regList.contains (.s 6) :=
  meets_of (by decide +kernel)
theorem witness_unassigned_word : (Ctx.of s0 ⟨none, false⟩).isSome = true := by decide +kernel

/-! ## Witnesses: results -/

/-- One vector instruction of each kind. -/
def vectors : List Instr :=
  let d := Opnd.v 2; let a := Opnd.v 4; let b := Opnd.v 6; let c := Opnd.v 8
  [.vaddF g0 .f32 .rne d a b, .vsubF g0 .f64 .rtz d a b, .vmulF g0 .bf16 .dyn d a b, .vfmaF g0 .f16 .rdn d a b c,
   .vminF g0 .f32 d a b, .vmaxF g0 .f64 d a b, .vaddminF g0 .f32 .rne d a b c, .vmaxaddF g0 .f32 .rup d a b c,
   .vrndi g0 .f32 .rne d a, .vldexp g0 .f32 .rne d a b, .vgetexp g0 .f32 d a, .vnegF g0 .f64 d a, .vabsF g0 .f16 d a,
   .vrcp g0 .rne d a, .vrsqrt g0 .rne d a, .vfexp2 g0 .rne d a, .vlog2 g0 .rne d a,
   .vcvt g0 (.flt .f32) (.int .i64) .rup d a, .vdp4F16 g0 .rne d a b c, .vdp4Bf16 g0 .rne d a b c, .vdp4I8 g0 d a b c,
   .vcbxCb3 g0 d a b c, .vcbxCb4 g0 d a b c, .vaddT g0 .n32 d a b, .vsubT g0 .i64 d a b, .vmulT g0 .n8 d a b,
   .vmulhi g0 .n64 d a b, .vmad g0 .i16 d a b c, .vminT g0 .i32 d a b, .vmaxT g0 .n16 d a b, .vabsT g0 .i32 d a,
   .vnegT g0 .n32 d a, .vaddminT g0 .n32 d a b c, .vmaxaddT g0 .n32 d a b c] ++
  [.vand g0 .n32 d a (.ident 0), .vor g0 .n64 d a b, .vxor g0 .n32 d a (.k 3), .vnot g0 .n32 d a, .vshl g0 .n32 d a b,
   .vshr g0 .i32 d a (.s 2), .vpopc g0 .n32 d a, .vclz g0 .n32 d a, .vbfe g0 .n32 d a b c, .vbfi g0 .n32 d a b c,
   .vsel g0 .n32 d a b (.p 1), .vmov g0 .n64 d a, .vshup g0 .n32 d a (.s 2) c, .vshdn g0 .n64 d a (.s 2) c,
   .vperm g0 .n32 d a b, .vbcast g0 .n32 d a (.s 6), .vredaddF g0 .f32 .rne d a, .vscanIncF g0 .f64 .rne d a,
   .vscanExcF g0 .f16 .rne d a, .vredaddT g0 .n32 d a, .vscanIncT g0 .n32 d a, .vscanExcT g0 .i64 d a,
   .vpack g0 .i8 d a b c, .vunpack g0 .n16 d a b c, .lput g0 .n32 d (.s 2) (.s 6), .vli g0 d 7#32]

theorem witness_vector_results : ∀ i ∈ vectors, Meets i s1 fun _ c => (vecOut i c).isSome := all_meet (by decide +kernel)

theorem witness_compares : ∀ i ∈ [Instr.vcmpF g0 .f64 .uno (.p 3) (.v 4) (.v 6), .vcmpT g0 .n8 .ge (.p 23) (.v 4) (.s 2)],
    Meets i s1 fun _ c => (predOut i c).isSome := all_meet (by decide +kernel)

/-- One scalar instruction of each kind. -/
def scalars : List Instr :=
  let d := Opnd.s 30; let a := Opnd.s 2; let b := Opnd.s 4; let c := Opnd.s 6
  [.saddF g0 .f32 .rne d a b, .ssubF g0 .f64 .rtz d a b, .smulF g0 .bf16 .dyn d a b, .sfma g0 .f16 .rdn d a b c,
   .sminF g0 .f32 d a b, .smaxF g0 .f64 d a b, .scmpF g0 .f32 .lt d a b, .scvt g0 (.int .n8) (.flt .f32) .rtz d a,
   .saddT g0 .n32 d a b, .ssubT g0 .i64 d a b, .smulT g0 .n8 d a b, .smulhi g0 .n64 d a b, .smad g0 .i16 d a b c,
   .sminT g0 .i32 d a b, .smaxT g0 .n16 d a b, .sabs g0 .i32 d a, .sneg g0 .n32 d a, .scmpT g0 .n32 .le d a b,
   .sand g0 .n32 d a b, .sor g0 .n64 d a b, .sxor g0 .n32 d a (.k 3), .snot g0 .n32 d a, .sshl g0 .n32 d a b,
   .sshr g0 .i32 d a b, .spopc g0 .n32 d a, .sclz g0 .n32 d a, .sbfe g0 .n32 d a b c, .sbfi g0 .n32 d a b c,
   .ssel g0 .n32 d a b (.p 1), .smov g0 .n64 d a, .lget g0 .n32 d (.v 4) (.s 2), .sli g0 d 7#32, .sli64 g0 d 7#64] ++
  [.srd g0 0 d, .l1cfgQ g0 d, .bdGet g0 15 d, .dsrd g0 d, .setCost g0 5 d, .barStatus g0 63 d, .capq g0 d (.s 2), .tmrd g0 d]

theorem witness_scalar_results : ∀ i ∈ scalars, Meets i s1 fun _ c => (scaOut i c).isSome := all_meet (by decide +kernel)

/-! ## Witnesses: control -/

theorem witness_branches : ∀ i ∈ [Instr.bra g0 (-1), .braAny g0 (.p 1) 4, .braAll g0 (.p 1) 4, .braNone g0 (.p 2) 4,
    .braZ g0 (.s 0) 4, .braNz g0 (.s 2) 4, .jmp g0 (.s 8)],
    Meets i s1 fun _ c => (jumpOf i c).any fun e => e.1 == c.act := all_meet (by decide +kernel)
theorem witness_branch_not_taken : Meets (.braNz g0 (.s 0) 4) s1 fun _ c => (jumpOf (.braNz g0 (.s 0) 4) c).any fun e => e.1 == 0#32 :=
  meets_of (by decide +kernel)

/-- A table and headers lie in the line at the PC: word 0x48455A4C is the magic, budget 1. -/
def sCode : State :=
  let s := inMem 0x10000 [0, 0, 0, 0, 1, 0, 0x48455A4C, 0, 0, 0, 0, 0, 48, 0, 0x48455A4C, 0] s1
  s.icacheFill 0 0 0x200 none (BitVec.ofNat 1024 (s.lineBits 0x10000 128))

theorem mapped_of {s : State} {core t : Nat} {va : DWord} {w : Want} {x : Xlat} (h1 : va.toNat < 144115188075855872)
    (h2 : ((tlbFind (s.core core).tlb t va.toNat).map fun e => e.permit w va.toNat) = some (.ok x)) : Mapped s core t va w x := by
  refine ⟨h1, ?_⟩
  cases h : tlbFind (s.core core).tlb t va.toNat with
  | none => rw [h] at h2; exact absurd h2 (by simp)
  | some e => rw [h] at h2; exact ⟨e, rfl, by simpa using h2⟩

theorem cached_of {s : State} {core part key n v : Nat}
    (h : ((kget (s.core core).icache (iKey part (key / 128))).map fun l => l.toNat / 2 ^ (8 * (key % 128)) % 2 ^ (8 * n)) = some v) :
    Cached s core part key n v := by
  cases h' : kget (s.core core).icache (iKey part (key / 128)) with
  | none => rw [h'] at h; exact absurd h (by simp)
  | some l => rw [h'] at h; exact ⟨l, h', by simpa using h⟩

/-- The location that the placed page gives an address of it. -/
def home (n : Nat) : Xlat := { key := n, tier := 1, cached := true, coded := false }

theorem witness_branch_table :
    Meets (.brx g0 (.s 0) 0) sCode (fun _ _ => true) ∧ TableAt sCode ⟨0, 0, 0⟩ 0 0x10010#64 1 :=
  ⟨meets_of (by decide +kernel), home 0x10010, mapped_of (by decide) (by decide +kernel), cached_of (by decide +kernel)⟩
theorem witness_header : HeaderAt sCode ⟨0, 0, 0⟩ 0 0x10020#64 1 :=
  ⟨1, 0x48455A4C, ⟨home 0x10010, home 0x10018, mapped_of (by decide) (by decide +kernel), mapped_of (by decide) (by decide +kernel),
    cached_of (by decide +kernel), cached_of (by decide +kernel)⟩, by decide, by decide, by decide, by decide⟩
theorem witness_header_largest_budget : HeaderAt sCode ⟨0, 0, 0⟩ 0 0x10040#64 48 :=
  ⟨48, 0x48455A4C, ⟨home 0x10030, home 0x10038, mapped_of (by decide) (by decide +kernel), mapped_of (by decide) (by decide +kernel),
    cached_of (by decide +kernel), cached_of (by decide +kernel)⟩, by decide, by decide, by decide, by decide⟩
theorem witness_call : Meets (.callDirect g0 256 4 8) sCode (fun _ c => c.pc == 0x10000#64 && c.act == 0xFFFFFFFF#32 &&
    decide (c.st.slabUsed c.ag.ident.root + (1 + (256 - 32 + 63) / 64 + (if ~~~c.ag.ctl.ended &&& ~~~c.act = 0#32 then 0 else 1))
      ≤ c.ag.slab) && !callWaits c.ag.flight 256 && decide (c.key < c.st.nextKey)) := meets_of (by decide +kernel)
-- a table beyond the addresses that exist faults at lane 0; so does one on a page that may not be fetched
theorem witness_branch_table_faults :
    Meets (.brx g0 (.s 0) (-16384)) sCode (fun _ c => c.act.getLsbD 0 && c.pc + BitVec.ofInt 64 (8 * -16384) + 4#64 * (c.rd32 (.s 0) 0).setWidth 64 ==
      0xFFFFFFFFFFFF0000#64) ∧ Unmapped sCode 0 0 0xFFFFFFFFFFFF0000#64 .fetch 2 :=
  ⟨meets_of (by decide +kernel), .inl (by decide)⟩

/-! ### Lanes and agents that end, park, yield and wait -/

/-- The warp with lanes 16 to 31 ended. -/
def sHalf : State := my (Agent.mapCtl fun c => { c with ended := 0xFFFF0000#32 }) s1

/-- The warp as a task of caller 9, whose record 5 stands there. -/
def sTask : State :=
  let r : ContRec := ⟨5, 1, 9, 0#64, 0, [], 0#256, [], 1#32, 0#32, [], 2, 1, 0#32⟩
  let y := placedAgent myGang
  (my (fun x => { x with task := true, ident := { x.ident with caller := 9, record := 5 } }) s1).setAgent 9 { y with recs := [r] }

theorem witness_exit_leaves_lanes : Meets (.exit ⟨some 0, true⟩) (my (Agent.mapRegs fun r => r.setP 0 1#32 fun _ => true) s1)
    (fun _ c => c.ag.ctl.ended ||| c.act != 0xFFFFFFFF#32) := meets_of (by decide +kernel)
theorem witness_exit_ends_the_warp : Meets (.exit g0) sHalf (fun _ c => c.ag.ctl.ended ||| c.act == 0xFFFFFFFF#32) :=
  meets_of (by decide +kernel)
theorem witness_ret_ends_the_task : Meets (.ret g0) sTask (fun _ c => c.ag.ctl.ended ||| c.act == 0xFFFFFFFF#32 && c.ag.task &&
    c.ag.ident.caller != c.key && (c.st.agent? c.ag.ident.caller).isSome) := meets_of (by decide +kernel)

/-- The page of the warp is a peer's. -/
def sPeer : State := s1.modCore 0 fun c => { c with tlb := c.tlb.map fun e => { e with tier := 3 } }

theorem witness_park_line : Meets (.park g0 true true true (.s 8) 63 (.s 2)) s1 (fun _ c => c.rd true (.s 8) 0 == 0x2000#64) ∧
    Mapped s1 0 0 0x2000#64 .read (home 0x2000) := ⟨meets_of (by decide +kernel), mapped_of (by decide) (by decide +kernel)⟩
theorem witness_park_without_line : Meets (.park g0 false false true (.v 0) 0 (.s 2)) s1 (fun _ _ => true) :=
  meets_of (by decide +kernel)
theorem witness_park_peer : Meets (.park g0 true false false (.s 8) 0 (.v 0)) sPeer (fun _ c => c.rd true (.s 8) 0 == 0x2000#64) ∧
    Mapped sPeer 0 0 0x2000#64 .read { home 0x2000 with key := peerKey 0 0x2000, tier := 3 } :=
  ⟨meets_of (by decide +kernel), mapped_of (by decide) (by decide +kernel)⟩

theorem witness_yield : Meets (.yield g0) s1 (fun _ c => !c.ag.sys.yreq) := meets_of (by decide +kernel)
theorem witness_yield_asked :
    Meets (.yield g0) (my (Agent.mapSys fun y => { y with yreq := true }) s1) (fun _ c => c.ag.sys.yreq) :=
  meets_of (by decide +kernel)

theorem witness_waiting : ∀ i ∈ [Instr.grow ⟨none, false⟩ 32, .waitc g0 63 0 15, .fence g0 .ar .system, .qstate g0, .gwait g0 (.s 2),
    .fdefer g0 (.s 8) (.s 4) (.s 0), .taskPush g0 3 (.s 4), .barWait g0 63, .setFree g0 (.s 2)],
    Meets i ((my (Agent.mapRegs fun r => { r with alloc := 1504 }) s1).modTenant 0 fun t =>
      (t.setReg 0x28 0x100#64).setReg 0x48 1#64) (fun _ c => (holdOf i c).isSome) := all_meet (by decide +kernel)

/-! ### System registers, barriers, traps -/

theorem witness_system_registers : ∀ i ∈ [Instr.swr g0 0 (.s 2), .swr g0 1 (.s 2), .swr g0 8 (.s 2), .swr g0 9 (.s 2), .swr g0 0xC (.s 2),
    .swr g0 0xD (.s 2), .swr g0 0x10 (.s 2), .swr g0 5 (.s 2), .rngOpen g0 1#16, .rngClose g0],
    Meets i s1 (fun _ c => (sysOut i c).isSome) := all_meet (by decide +kernel)

theorem witness_barriers_send : ∀ i ∈ [Instr.barArrive g0 63, .barInit g0 0 (.s 4)],
    Meets i s1 (fun _ c => (c.st.gang? c.ag.ident.gang).isSome) := all_meet (by decide +kernel)
/-- Barrier 7 has completed a phase that the warp has not waited for. -/
def sFlipped : State :=
  s1.modGang myGang fun g => { g with bars := kput g.bars 7 { expect := 1, arrived := 0, phase := 1, acc := 0#32, status := 5#32 } }
theorem witness_barrier_passed : Meets (.barWait g0 7) sFlipped (fun _ c => (c.st.gang? c.ag.ident.gang).any fun g =>
    (g.barrier 7).phase != g.warpMark 7 c.ag.ident.widx) := meets_of (by decide +kernel)
theorem witness_gstart : Meets (.gstart g0 (.s 3)) s1 (fun _ _ => true) := meets_of (by decide +kernel)

/-- The warp with a handler at its PC, and one with a handler that cannot be fetched. -/
def sHandler : State := my (Agent.mapSys fun y => { y with thandler := 0x10000#64 }) s1
def sNoHandler : State := my (Agent.mapSys fun y => { y with thandler := 0x200000000000000#64 }) s1
theorem witness_trap : Meets (.trap g0 0xFFFF#16) sHandler (fun _ c => c.ag.sys.thandler == 0x10000#64) ∧
    Mapped sHandler 0 0 0x10000#64 .fetch (home 0x10000) := ⟨meets_of (by decide +kernel), mapped_of (by decide) (by decide +kernel)⟩
theorem witness_trap_without_handler : Meets (.trap g0 0#16) s1 (fun _ c => c.ag.sys.thandler == 0#64) := meets_of (by decide +kernel)
theorem witness_trap_handler_not_fetched : Meets (.trap g0 0#16) sNoHandler (fun _ c => !(c.st.fetchable c.ag c.ag.sys.thandler).2) :=
  meets_of (by decide +kernel)
/-- The warp in its handler. -/
def sInHandler : State := after (exec (.trap g0 3#16) sHandler)
theorem witness_tret : Meets (.tret g0) sInHandler (fun _ c => c.ag.sys.frame.isSome) := meets_of (by decide +kernel)

/-! ## Witnesses: memory, engines and sets at issue -/

/-- As many requests as a core holds: 128 walks of a warp are under way. -/
def sFull : State :=
  let o := ((after (exec (.chaseLink g0 (.v 4) (.v 8) (.s 8) (.s 2)) s1)).agent? me).map fun x => x.flight.chases
  my (Agent.mapFlight fun f => { f with chases := (List.range 128).flatMap fun _ => o.getD [] }) s1

theorem witness_prefetch_no_room : ∀ i ∈ [Instr.pref g0 (.s 8) ⟨0, false⟩ 0, .ipref g0 (.s 8) 0],
    Meets i sFull (fun _ c => decide (c.st.requestsHeld c.ag.core ≥ 4096)) := all_meet (by decide +kernel)
theorem witness_local : ∀ i ∈ [Instr.nop g0, .bdSet g0 15 (.s 2), .shrink g0 1504, .shrink g0 32], Meets i s1 (fun _ _ => true) :=
  all_meet (by decide +kernel)
theorem witness_flush_of_nothing : Meets (.cflush g0 (.s 8) (.s 0)) s1 (fun _ c => c.one32 (.s 0) == 0#32) := meets_of (by decide +kernel)

/-- A tile of 8 rows and columns of f32 at 0x2000, and blocks of commands, as words. -/
def tileBlock : List Nat := [0x2000, 0, 32, 0, 0x10008, 0, 0, 0]
def s2 : State :=
  inAbuf 0x180 [0x10000, 0, 1, 0, 1024, 0, 0, 0] <|                 -- chain.cfg of mode 0
  inAbuf 0x160 [0, 64, 0, 0, 0, 0, 0, 0] <|                          -- mzero
  inAbuf 0x140 [0, 0, 0x010001, 128, 0, 0, 0, 0] <|                   -- mstream
  inAbuf 0x120 [0, 0, 0, 0, 0, 0, 0, 0] <|                           -- ldst
  inAbuf 0x100 tileBlock s1

theorem witness_tbind : Meets (.tbind g0 31 (.s 14)) s2 (fun _ c => stbCount c.ag.flight == 0 && !c.st.cmdsFull c.ag.core &&
    decide (Claim.TileFields (c.blockWord (c.one32 (.s 14)).toNat))) := meets_of (by decide +kernel)
theorem witness_tbind_bad_block : Meets (.tbind g0 31 (.s 16)) s2 (fun _ c => stbCount c.ag.flight == 0 &&
    !decide (Claim.TileFields (c.blockWord (c.one32 (.s 16)).toNat))) := meets_of (by decide +kernel)

/-- One memory instruction of each kind. -/
def memories : List Instr :=
  let q : Qual := ⟨3, true⟩
  [.ld g0 .w64 .acq .system (.v 4) (.s 8) q 8, .ld g0 .n8 .relaxed .core (.s 4) (.s 8) q 1, .st g0 .w32 .rel .device (.v 4) (.s 8) q 4,
   .gath g0 .i16 (.v 4) (.s 8) (.v 6) 2, .scat g0 .w64 (.v 4) (.s 8) (.v 6) (-8), .atom g0 .cas .n32 .ar .device (.s 30) (.s 8) (.s 4),
   .red g0 .add .f32 .rel .core (.s 8) (.v 4), .redRet g0 .max .i64 .relaxed .die (.s 0) (.s 8) (.s 4), .cflush g0 (.s 8) (.s 4)]

theorem witness_memory : ∀ i ∈ memories, Meets i s1 (fun _ c => (memForm i c).any fun m => logFree c.ag.flight == some 0 &&
    c.st.roomFor c.ag.core c.ag.ident.tenant (distinct (m.lanes.map fun l => l.2.1.toNat / 256)) (m.lanes.map fun l => l.2.1)) := all_meet (by decide +kernel)
/-- The operand log of the warp is full: 16 loads wait for their pages. -/
def sLogFull : State :=
  let o := ((sLoad.agent? me).map fun x => x.flight.ops).getD []
  my (Agent.mapFlight fun f => { f with ops := (List.range 16).flatMap fun i => o.map fun p => { p with id := 100 + i, logIx := some i } }) s1
theorem witness_memory_log_full : Meets (.ld g0 .w32 .relaxed .core (.v 8) (.s 8) ⟨0, false⟩ 0) sLogFull
    (fun _ c => (logFree c.ag.flight).isNone) := meets_of (by decide +kernel)

theorem witness_buffers : ∀ i ∈ [Instr.ldb g0 .w64 .wbuf (.v 4) (.s 0) 1016, .stb g0 .w8 .abuf (.v 4) (.s 0) 0],
    Meets i s1 (fun _ c => (bufForm i c).any fun m => decide ((if m.store then stbCount c.ag.flight else ldbCount c.ag.flight) < 63)) :=
  all_meet (by decide +kernel)
/-- 63 buffer stores of the warp are outstanding. -/
def sStores : State :=
  let o := (after (exec (.stb g0 .w8 .abuf (.v 4) (.s 0) 0) s1)).agent? me
  my (Agent.mapFlight fun f => { f with bufOps := (List.range 63).flatMap fun _ => (o.map fun x => x.flight.bufOps).getD [] }) s1
theorem witness_buffer_full : Meets (.stb g0 .w8 .abuf (.v 4) (.s 0) 0) sStores (fun _ c => stbCount c.ag.flight == 63) :=
  meets_of (by decide +kernel)

theorem witness_walks : ∀ i ∈ [Instr.chaseLink g0 (.v 4) (.v 8) (.s 8) (.s 2), .chaseIndex g0 (.v 4) (.v 8) (.s 8) (.s 2),
    .chaseSample g0 (.v 4) (.v 8) (.s 8) (.s 2)],
    Meets i s1 (fun _ c => (walkOf i).isSome && decide (c.st.requestsHeld c.ag.core + (lanesOf c.act).length ≤ 4096)) :=
  all_meet (by decide +kernel)

/-- A conversion of the L1 is under way. -/
def sConverting : State := s1.modCore 0 fun c => { c with converting := true, waysAsked := 12 }
theorem witness_cache_control : ∀ i ∈ [Instr.cinvD g0, .cinvI g0, .l1cfg g0 12, .l1cfg g0 0, .pref g0 (.s 8) ⟨0, false⟩ 0, .ipref g0 (.s 8) (-1024)],
    Meets i s1 (fun _ c => !(c.st.core c.ag.core).converting) := all_meet (by decide +kernel)
theorem witness_conversion_under_way : Meets (.l1cfg g0 0) sConverting (fun _ c => (c.st.core c.ag.core).converting) :=
  meets_of (by decide +kernel)
theorem witness_prefetch_out_of_range : ∀ i ∈ [Instr.pref g0 (.s 8) ⟨0, false⟩ 0, .ipref g0 (.s 8) 0], Meets i (sets [(9, 0x2000000)] s1)
    (fun _ c => decide (144115188075855872 ≤ (c.rd true (.s 8) 0 + BitVec.ofInt 64 0).toNat)) := all_meet (by decide +kernel)

theorem witness_copies : ∀ i ∈ [Instr.copyAbuf g0 ⟨0, false⟩ (.s 0) (.s 8) (.s 12) (.s 40), .copyWbuf g0 ⟨0, false⟩ (.s 0) (.s 8) (.s 12) (.s 40),
    .copyOut g0 true ⟨0, false⟩ (.s 8) (.s 0) (.s 12) (.s 40), .copyMc g0 ⟨0, false⟩ (.s 0) (.s 8) (.s 12) (.s 40)],
    Meets i s1 (fun _ c => (copyOf i c).isSome && decide (c.st.copiesHeld c.ag.core < 64)) := all_meet (by decide +kernel)
def quantBlock : List Nat := [0x5000A, 0, 0x2000, 0, 0, 0, 0, 0]
/-- A descriptor of `copy.q` at 0x1A0, named by the second register of a pair. -/
def sQuant : State := sets [(24, 4096), (25, 0x1A0)] (inAbuf 0x1A0 quantBlock s1)
theorem witness_copy_quant : Meets (.copyQ g0 ⟨0, false⟩ (.s 0) (.s 8) (.s 24) (.s 40)) sQuant
    (fun _ c => (copyOf (.copyQ g0 ⟨0, false⟩ (.s 0) (.s 8) (.s 24) (.s 40)) c).isSome) := meets_of (by decide +kernel)
/-- 64 copies are held. -/
def sCopies : State :=
  s1.modCore 0 fun c => { c with copies := (List.range 64).flatMap fun _ =>
    ((after (exec (.copyAbuf g0 ⟨0, false⟩ (.s 0) (.s 8) (.s 12) (.s 40)) s1)).core 0).copies }
theorem witness_copies_full : Meets (.copyAbuf g0 ⟨0, false⟩ (.s 0) (.s 8) (.s 12) (.s 40)) sCopies
    (fun _ c => decide (64 ≤ c.st.copiesHeld c.ag.core)) := meets_of (by decide +kernel)

theorem witness_tools : ∀ i ∈ [Instr.toolXpose g0 .abuf (.s 0) (.s 12) (.s 6) (.s 40), .toolZero g0 .cbuf (.s 0) (.s 12) (.s 0) (.s 40),
    .toolRsum g0 .abuf (.s 0) (.s 12) (.s 4) (.s 40), .toolCvt g0 .abuf (.s 0) (.s 12) (.s 44) (.s 40)],
    Meets i (sets [(44, 0x8A)] s1) (fun _ c => (toolOf i c).isSome && decide (c.st.toolCount c.key c.ag.core < 15)) := all_meet (by decide +kernel)
theorem witness_tool_quant : Meets (.toolQuant g0 .abuf (.s 0) (.s 12) (.s 25) (.s 40)) sQuant
    (fun _ c => (toolOf (.toolQuant g0 .abuf (.s 0) (.s 12) (.s 25) (.s 40)) c).isSome) := meets_of (by decide +kernel)
/-- 15 tooling commands of the warp are outstanding. -/
def sTools : State :=
  s1.modCore 0 fun c => { c with tools := (List.range 15).flatMap fun _ =>
    ((after (exec (.toolZero g0 .cbuf (.s 0) (.s 12) (.s 0) (.s 40)) s1)).core 0).tools }
theorem witness_tools_full : Meets (.toolZero g0 .cbuf (.s 0) (.s 12) (.s 0) (.s 40)) sTools
    (fun _ c => decide (15 ≤ c.st.toolCount c.key c.ag.core)) := meets_of (by decide +kernel)

/-- Handle 0 is bound to the tile of the block at 0x100, and a chain context has been accepted. -/
def s3 : State := after (exec (.chainCfg g0 CmdFrame.none (.s 22)) (after (exec (.tbind g0 0 (.s 14)) s2)))
def slot15 : CmdFrame := ⟨0x8001#16, some 15, some 63⟩
theorem witness_commands : ∀ i ∈ [Instr.ldst g0 3 slot15 (.s 16), .mswap g0 3 slot15, .mstream g0 0 CmdFrame.none (.s 18),
    .mzero g0 slot15 (.s 20), .cbtload g0 15 slot15 (.s 16), .chainCfg g0 slot15 (.s 22), .chainStep g0 CmdFrame.none (.s 0),
    .chainRun g0 slot15 (.s 0)], Meets i s3 (fun _ c => (cmdOf i c).isSome && (c.st.gang? c.ag.ident.gang).isSome &&
      !c.st.cmdsFull c.ag.core) := all_meet (by decide +kernel)
theorem witness_mop : Meets (.mop g0 slot15 (.s 26)) (sets [(26, 0x1C0)] (inAbuf 0x1C0 [0, 0, 0, 0x00400001, 0x00010001, 0, 0, 0] s3))
    (fun _ c => (cmdOf (.mop g0 slot15 (.s 26)) c).isSome) := meets_of (by decide +kernel)

/-- The tenant has a set window 0 with 16 entries and a latigo quota. -/
def sSets : State := s1.modTenant 0 fun t => ((t.setReg 0x28 0x100#64).setReg 0x50 0x200000000000#64).setReg 0x48 1#64
theorem witness_sets : ∀ i ∈ [Instr.setNew g0 (.s 30), .setFree g0 (.s 2), .setIns g0 true (.p 2) (.s 2) (.v 4), .setDel g0 false (.v 0) (.s 6) (.s 2),
    .setHas g0 (.p 2) (.s 2) (.v 4), .setCard g0 (.s 30) (.s 2), .setOr g0 (.s 2) (.s 6) (.s 2), .setAnd g0 (.s 2) (.s 6) (.s 2),
    .setSub g0 (.s 2) (.s 6) (.s 2), .setIn g0 (.s 2) (.s 8) (.s 4), .setOut g0 (.s 30) (.s 2) (.s 8) (.s 4),
    .setIter g0 (.v 4) (.s 2) (.s 6), .setHint g0 .runs (.s 2), .setHintNone g0 (.s 2)],
    Meets i sSets (fun _ c => (setOf i c).isSome) := all_meet (by decide +kernel)
theorem witness_cost_waits : Meets (.setCost g0 0 (.s 31)) (after (exec (.setNew g0 (.s 30)) sSets))
    (fun _ c => !c.ag.flight.setOps.isEmpty) := meets_of (by decide +kernel)

/-- A buffer store of the warp is outstanding. -/
def sOneStore : State := after (exec (.stb g0 .w8 .abuf (.v 4) (.s 0) 0) s3)
theorem witness_block_waits : ∀ i ∈ [Instr.ldst g0 0 slot15 (.s 16), .mstream g0 0 slot15 (.s 18), .mzero g0 slot15 (.s 20),
    .cbtload g0 0 slot15 (.s 16), .chainCfg g0 slot15 (.s 22), .toolQuant g0 .abuf (.s 0) (.s 12) (.s 16) (.s 40),
    .copyQ g0 ⟨0, false⟩ (.s 0) (.s 8) (.s 12) (.s 40)],
    Meets i sOneStore (fun _ c => stbCount c.ag.flight != 0) := all_meet (by decide +kernel)
/-- The core holds 64 commands. -/
def sCmdsFull : State :=
  s3.modCore 0 fun c => { c with cmds := (List.range 64).flatMap fun _ =>
    ((after (exec (.mzero g0 CmdFrame.none (.s 20)) s3)).core 0).cmds }
theorem witness_commands_full : ∀ i ∈ [Instr.mswap g0 3 slot15, .chainRun g0 slot15 (.s 0), .mzero g0 slot15 (.s 20)],
    Meets i sCmdsFull (fun _ c => c.st.cmdsFull c.ag.core && (cmdOf i c).isSome && (c.st.gang? c.ag.ident.gang).isSome) :=
  all_meet (by decide +kernel)
theorem witness_tbind_full : Meets (.tbind g0 31 (.s 14)) sCmdsFull (fun _ c => c.st.cmdsFull c.ag.core && stbCount c.ag.flight == 0 &&
    decide (Claim.TileFields (c.blockWord (c.one32 (.s 14)).toNat))) := meets_of (by decide +kernel)
theorem witness_walk_waits : Meets (.chaseLink g0 (.v 4) (.v 8) (.s 8) (.s 2)) sFull
    (fun _ c => decide (4096 < c.st.requestsHeld c.ag.core + ((lanesOf c.act).filter fun l => c.rd32 (.s 2) l != 0#32).length)) :=
  meets_of (by decide +kernel)

/-- A block whose fields break a rule: `mzero` of no bytes. -/
theorem witness_block_fields : ∃ F c, formOf (.mzero g0 slot15 (.s 14)) = some F ∧ Runs (inAbuf 0x104 [0] s3) F c ∧ stbCount c.ag.flight = 0 ∧
    ¬ Claim.BlockFields (.mzero g0 slot15 (.s 14)) c (c.blockWord (c.one32 (.s 14)).toNat) := by
  have h : Meets (.mzero g0 slot15 (.s 14)) (inAbuf 0x104 [0] s3)
      fun _ c => stbCount c.ag.flight == 0 && c.blockWord (c.one32 (.s 14)).toNat 1 == 0 := meets_of (by decide +kernel)
  obtain ⟨F, c, h1, h2, h3⟩ := h
  simp only [Bool.and_eq_true, beq_iff_eq] at h3
  exact ⟨F, c, h1, h2, h3.1, fun k => k.2.2.2.1 h3.2⟩
/-- One whose range passes the grant of CBUF. -/
theorem witness_block_range : ∃ F c, formOf (.mzero g0 slot15 (.s 14)) = some F ∧ Runs (inAbuf 0x100 [32, 0x40000, 0, 0, 0, 0, 0, 0] s3) F c ∧
    stbCount c.ag.flight = 0 ∧ Claim.BlockFields (.mzero g0 slot15 (.s 14)) c (c.blockWord (c.one32 (.s 14)).toNat) ∧
    Claim.blockRanges (.mzero g0 slot15 (.s 14)) c (c.blockWord (c.one32 (.s 14)).toNat) = [] ++ [(32, 0x40000, c.header.grant .cbuf)] ∧
    c.header.grant .cbuf < 32 + 0x40000 := by
  have h : Meets (.mzero g0 slot15 (.s 14)) (inAbuf 0x100 [32, 0x40000, 0, 0, 0, 0, 0, 0] s3)
      fun _ c => stbCount c.ag.flight == 0 && decide (c.header.grant .cbuf < 32 + 0x40000) &&
        (List.range 8).map (c.blockWord (c.one32 (.s 14)).toNat) == [32, 0x40000, 0, 0, 0, 0, 0, 0] := meets_of (by decide +kernel)
  obtain ⟨F, c, h1, h2, h3⟩ := h
  simp only [Bool.and_eq_true, beq_iff_eq, decide_eq_true_eq] at h3
  obtain ⟨⟨h3, h4⟩, h5⟩ := h3
  generalize hw : c.blockWord (c.one32 (.s 14)).toNat = w at *
  simp only [List.range, List.range.loop, List.map, List.cons.injEq] at h5
  obtain ⟨w0, w1, w2, w3, w4, w5, w6, w7, -⟩ := h5
  refine ⟨F, c, h1, h2, h3, ?_, ?_, h4⟩ <;> simp only [hw]
  · simp only [Claim.BlockFields, w0, w1, w2, w3, w4, w5, w6, w7]; decide
  · simp only [Claim.blockRanges, w0, w1]; rfl
theorem witness_descriptor_bad : Meets (.toolQuant g0 .abuf (.s 0) (.s 12) (.s 14) (.s 40)) s3 (fun _ c => stbCount c.ag.flight == 0 &&
    !decide (Claim.DescriptorFields (c.blockWord (c.one32 (.s 14)).toNat))) := meets_of (by decide +kernel)
theorem witness_copy_descriptor_bad : Meets (.copyQ g0 ⟨0, false⟩ (.s 0) (.s 8) (.s 24) (.s 40)) (sets [(24, 4096), (25, 0x100)] s3)
    (fun _ c => stbCount c.ag.flight == 0 && !decide (Claim.DescriptorFields (c.blockWord (c.rd32 (.s 25) 0).toNat))) := meets_of (by decide +kernel)
-- the destination of the copy starts beyond ABUF and its converted ways
theorem witness_copy_descriptor_range : Meets (.copyQ g0 ⟨0, false⟩ (.s 28) (.s 8) (.s 24) (.s 40)) (sets [(28, 0x100000)] sQuant)
    (fun _ c => stbCount c.ag.flight == 0 && decide (Claim.DescriptorFields (c.blockWord (c.rd32 (.s 25) 0).toNat)) &&
      !rangeOk c.header c.ways .abuf (c.one32 (.s 28)).toNat ((c.one32 (.s 24)).toNat / 4)) := meets_of (by decide +kernel)

/-- The slab holds no record. -/
def sNoSlab : State := my (fun x => { x with slab := 0 }) sCode
theorem headers_at : HeaderAt sNoSlab ⟨0, 0, 0⟩ 0 0x10020#64 1 ∧ HeaderAt sNoSlab ⟨0, 0, 0⟩ 0 0x10040#64 48 :=
  ⟨⟨1, 0x48455A4C, ⟨home 0x10010, home 0x10018, mapped_of (by decide) (by decide +kernel), mapped_of (by decide) (by decide +kernel),
      cached_of (by decide +kernel), cached_of (by decide +kernel)⟩, by decide, by decide, by decide, by decide⟩,
    ⟨48, 0x48455A4C, ⟨home 0x10030, home 0x10038, mapped_of (by decide) (by decide +kernel), mapped_of (by decide) (by decide +kernel),
      cached_of (by decide +kernel), cached_of (by decide +kernel)⟩, by decide, by decide, by decide, by decide⟩⟩
theorem witness_slab : Meets (.callDirect g0 0 4 8) sNoSlab (fun _ c => c.pc == 0x10000#64 && c.ag.slab == 0) ∧
    HeaderAt sNoSlab ⟨0, 0, 0⟩ 0 0x10020#64 1 ∧ HeaderAt sNoSlab ⟨0, 0, 0⟩ 0 0x10040#64 48 := ⟨meets_of (by decide +kernel), headers_at⟩
-- the words before 0x10010 are no header
theorem witness_no_header : Meets (.callDirect g0 0 2 8) sCode (fun _ c => c.pc == 0x10000#64) ∧
    HeaderWords sCode ⟨0, 0, 0⟩ 0 0x10010#64 0 0 ∧ ∀ b, ¬ HeaderValid 0 0 b :=
  ⟨meets_of (by decide +kernel), ⟨home 0x10000, home 0x10008, mapped_of (by decide) (by decide +kernel), mapped_of (by decide) (by decide +kernel),
    cached_of (by decide +kernel), cached_of (by decide +kernel)⟩, fun _ h => absurd h.1 (by decide)⟩
-- a target beyond the addresses that exist
theorem witness_header_unmapped : Meets (.callDirect g0 0 (-16384) 8) sCode (fun _ c => c.rel (-16384) == 0xFFFFFFFFFFFF0000#64 + 0x10000#64 - 0x10000#64) ∧
    Unmapped sCode 0 0 (0xFFFFFFFFFFFF0000#64 - 16#64) .fetch 2 := ⟨meets_of (by decide +kernel), .inl (by decide)⟩

/-! ## Witnesses: steps of the memory system -/

/-- Steps and instructions one after the other. -/
def run (l : List Instr) (s : State) : State := l.foldl (fun s i => after (exec i s)) s

def every : Lanes := 0xFFFFFFFF#32
def qual0 : Qual := ⟨0, false⟩

/-- What the statements ask of a walk of the page of lane l: the lanes found, with the outcome of the translation. -/
def walkOutcome (s : State) (id lane : Nat) : Option (MemOp × LaneOp × XRes) :=
  match s.op? me id with
  | none => none
  | some (x, p, o) =>
    match o.lanes.find? (fun l => l.lane == lane && l.st.isFresh) with
    | none => none
    | some l0 =>
      let r := s.translateFor (reqOf p) p.core x.ident.tenant l0.va (if o.isLoad || o.isFlush then .read else .write)
      let size := 2 ^ s.pageBits p.core x.ident.tenant l0.va
      if o.waiting || !s.missEntry x p o l0.va then none
      else (o.lanes.find? fun l => l.st.isFresh && decide (l.va.toNat / size = l0.va.toNat / size)).map fun f => (o, f, r.2)

/-- The number of the first instruction that the warp leaves in flight. -/
def first : Nat := Flight.start.nextOp

theorem witness_page_walk : ((walkOutcome sLoad first 31).any fun e => !e.1.isCoreAtomic &&
    match e.2.2 with | .ok _ => true | _ => false) = true := by decide +kernel
/-- A load of an address that no page maps. -/
def sLost : State := run [.ld g0 .w32 .relaxed .core (.v 4) (.s 8) qual0 0] (sets [(9, 1)] s1)
theorem witness_page_walk_fault : ((walkOutcome sLost first 0).any fun e => match e.2.2 with | .fault _ => true | _ => false) = true := by
  decide +kernel
/-- A second fault of a stopped warp: a load of two pages, neither mapped. -/
def sLostTwice : State := run [.gath g0 .w32 (.v 4) (.s 8) (.v 6) 0, .pageWalk me first 0]
  (my (Agent.mapRegs fun r => r.setV 6 2#32 (fun _ => 0x10000#32) 0#32) (sets [(9, 1)] s1))
theorem witness_page_walk_second_fault : ((walkOutcome sLostTwice first 1).any fun e => match e.2.2 with | .fault _ => true | _ => false) = true ∧
    ((sLostTwice.agent? me).any fun x => x.ctl.stop.isSome) = true := by decide +kernel
/-- A `core`-scope atomic of a page that the L1 does not cache. -/
def sUncached : State := run [.atom g0 .add .n32 .relaxed .core (.s 30) (.s 8) (.s 2)]
  (s1.modCore 0 fun c => { c with tlb := c.tlb.map fun e => { e with cached := false } })
theorem witness_page_walk_atomic : ((walkOutcome sUncached first 0).any fun e => e.1.isCoreAtomic &&
    match e.2.2 with | .ok t => !t.inL1 | _ => false) = true := by decide +kernel

/-- A load that a restore has given back takes its entries; two of one page wait for the older to do so first. -/
def sLoadBack : State := my (Agent.mapFlight fun f => { f with ops := f.ops.map fun o => { o with waiting := true } }) sLoad
def sLoadsBack : State := my (Agent.mapFlight fun f => { f with ops := f.ops ++ f.ops.map fun o => { o with id := o.id + 1 } }) sLoadBack
theorem witness_page_walk_takes_entries : ((sLoadBack.op? me first).any fun e => e.2.2.waiting && sLoadBack.takesEntries e.1 e.2.1 e.2.2 &&
      e.2.2.lanes.any fun l => l.lane == 31 && l.st.isFresh) = true ∧
    ((sLoadsBack.op? me (first + 1)).any fun e => e.2.2.waiting && !sLoadsBack.takesEntries e.1 e.2.1 e.2.2 &&
      e.2.2.lanes.any fun l => l.lane == 31 && l.st.isFresh) = true := by decide +kernel
/-- 1,024 misses of one address, each of another tenant, outstanding on the core beside a load whose page has left the TLB. -/
def misses : List PageName := (List.range 1024).map fun k => (k + 1, 16, 0)
def sNoMiss : State :=
  my (Agent.mapFlight fun f => { f with ops := f.ops.flatMap fun o =>
    [{ o with missed := [] }, { o with id := 100, missed := misses, lanes := [freshLane 0 0#64 0#64 0#64 0#32] }] }) sLost
theorem eraseDups_of_nodup {α : Type} [BEq α] [LawfulBEq α] : ∀ {l : List α}, l.Nodup → l.eraseDups = l
  | [], _ => rfl
  | a :: l, h => by
    have h2 := List.nodup_cons.mp h
    rw [List.eraseDups_cons, List.filter_eq_self.mpr, eraseDups_of_nodup h2.2]
    intro b hb
    simp only [Bool.not_eq_true', beq_eq_false_iff_ne]
    rintro rfl
    exact h2.1 hb
theorem misses_many : ¬ (((0, 16, 65536) :: misses).eraseDups.length ≤ 1024) := by
  have h : ((0, 16, 65536) :: misses).Nodup := by
    refine List.nodup_cons.mpr ⟨by simp [misses], ?_⟩
    exact List.Nodup.map (fun a b h => by simpa using h) List.nodup_range
  rw [eraseDups_of_nodup h]; simp [misses]
theorem witness_page_walk_no_miss_entry : ((sNoMiss.op? me first).any fun e => !e.2.2.waiting && e.2.2.lanes.any fun l =>
    l.lane == 0 && l.st.isFresh && e.2.2.missed.isEmpty && (sNoMiss.pageOf 0 0 l.va).isNone &&
    sNoMiss.pageName 0 0 l.va == (0, 16, 65536)) = true ∧ ¬ (((0, 16, 65536) :: sNoMiss.pagesMissed 0).eraseDups.length ≤ 1024) := by
  refine ⟨by decide +kernel, ?_⟩
  have h : ((sNoMiss.agents.filter fun e => e.2.core == 0 && e.2.place.isSome).flatMap fun e =>
    e.2.flight.ops.flatMap MemOp.pages) = misses := by decide +kernel
  have h2 : sNoMiss.pagesMissed 0 = misses := by
    unfold State.pagesMissed
    rw [h]
    exact eraseDups_of_nodup (List.Nodup.map (fun a b h => by simpa using h) List.nodup_range)
  rw [h2]; exact misses_many

theorem witness_translate_out_of_range : 144115188075855872 ≤ (144115188075855872#64).toNat := by decide
theorem witness_translate_l1 : (tlbFind (s0.core 0).tlb 0 144).isSome = true ∧ (144115188075855871#64).toNat < 144115188075855872 := by
  decide +kernel
/-- The same with the entry in the die's TLB alone, and with page tables: a root at 0x200000 whose entry 0 leads on to a leaf
of 1 GiB, and whose entry 1 is not valid. -/
def sL2Tlb : State := (s0.modCore 0 fun c => { c with tlb := [] }).modDie 0 fun d => { d with tlb := [placedEntry] }
theorem witness_translate_l2 : (tlbFind (sL2Tlb.core 0).tlb 0 144).isNone = true ∧ (tlbFind (sL2Tlb.die 0).tlb 0 144).isSome = true := by
  decide +kernel
def sTables : State :=
  inMem 0x210000 [0x1F, 0] <| inMem 0x200000 [0x210001, 0] <|
    ((s0.modCore 0 fun c => { c with tlb := [] }).modTenant 0 fun t => t.setReg 0x10 0x200000#64)
theorem witness_translate_walk : (tlbFind (sTables.core 0).tlb 0 144).isNone = true ∧ (tlbFind (sTables.die 0).tlb 0 144).isNone = true ∧
    (match walk sTables 0 0 144 with | .leaf e => e.bits == 30 | _ => false) = true := by decide +kernel
theorem witness_translate_walk_fault : (match walk sTables 0 0 0x100000000000000 with | .fault c => c == 1 | _ => false) = true := by decide +kernel

/-- What the statement asks of lanes of a load. -/
def loadReady (s : State) (id : Nat) (m : Lanes) : Bool :=
  match s.op? me id with
  | none => false
  | some (x, p, o) => o.isLoad && o.allAt m LaneSt.isReady &&
      o.closed m (fun l k => k.st.isReady && o.readsHome l && o.readsHome k) &&
      o.lanes.all fun l => !m.getLsbD l.lane || (!loadWaits x.flight o l && (s.source p.core o l).isSome)

def sLoaded : State := run [.pageWalk me first 0] sLoad
/-- The same load of a page that the L1 does not cache, and of one whose lines the L1 has. -/
def sHome : State := run [.ld g0 .w32 .relaxed .core (.v 4) (.s 8) qual0 0, .pageWalk me first 0]
  (s1.modCore 0 fun c => { c with tlb := c.tlb.map fun e => { e with cached := false } })
def sCachedLoad : State := run [.l1Fill 0 128 0, .l1Fill 0 129 0] sLoaded
theorem witness_load_one_line : loadReady sHome first every = true ∧ loadReady sCachedLoad first 1#32 = true := by decide +kernel
theorem witness_load_all_lanes : loadReady sHome first every = true ∧ loadReady sCachedLoad first every = true := by decide +kernel
/-- A scalar load of 64 bits that acquires. -/
def sAcquire : State :=
  run [.ld g0 .w64 .acq .system (.s 30) (.s 8) qual0 0, .pageWalk me first 0] s1
theorem witness_load_acquires : loadReady sAcquire first 1#32 = true ∧
    ((sAcquire.op? me first).any fun e => e.2.2.acquiresWide) = true := by decide +kernel

/-- A load behind a store to the same bytes, both translated. -/
def sForward : State := run [.st g0 .w32 .relaxed .core (.v 6) (.s 8) qual0 0, .ld g0 .w32 .relaxed .core (.v 4) (.s 8) qual0 0,
  .pageWalk me first 0, .pageWalk me (first + 1) 0] s1
theorem witness_loaded_forwarded : ((sForward.op? me (first + 1)).any fun e => e.2.2.lanes.any fun l =>
    (forwarded e.1.flight e.2.2.id (l.key + 3)).isSome) = true := by decide +kernel
theorem witness_loaded_memory : ((sHome.op? me first).any fun e => e.2.2.lanes.any fun l =>
    (forwarded e.1.flight e.2.2.id l.key).isNone && (match sHome.source 0 e.2.2 l with | some none => true | _ => false)) = true := by
  decide +kernel
def sMarkedLoad : State := sHome.markGranule (0x2000 / 32)
theorem witness_loaded_mark : ((sMarkedLoad.op? me first).any fun e => e.2.2.lanes.any fun l =>
    nhas sMarkedLoad.memMark (l.key / 32) && (match sMarkedLoad.source 0 e.2.2 l with | some none => true | _ => false)) = true := by
  decide +kernel
theorem witness_loaded_l1 : ((sCachedLoad.op? me first).any fun e => e.2.2.lanes.any fun l =>
    (forwarded e.1.flight e.2.2.id l.key).isNone && (match sCachedLoad.source 0 e.2.2 l with | some (some _) => true | _ => false)) = true := by
  decide +kernel

/-- A load that is sampled: every 1st of its class; its tenant's ring has 16 slots. -/
def sSampled : State := run [.ld g0 .w32 .relaxed .core (.v 4) (.s 8) qual0 0, .pageWalk me first 0]
  (my (Agent.mapSys fun y => { y with samp := 0x100001#32 })
    (s1.modCore 0 fun c => { c with tlb := c.tlb.map fun e => { e with cached := false } }))
theorem witness_load_sampled : loadReady sSampled first every = true ∧ ((sSampled.op? me first).any fun e => e.2.2.sampled) = true := by
  decide +kernel
/-- Sampling with a label that the tenant's filter admits, whatever it is. -/
def sLabelled : State := my (Agent.mapSys fun y => { y with labels := [(Config.captureFilter 0).1] })
  (s1.modTenant 0 fun t => (t.setReg 0xB8 4#64).setReg 0xB0 0x200000#64)
theorem witness_sample : ∃ x, sLabelled.agent? me = some x ∧ x.ident.tenant = 0 ∧
    BitVec.ofNat 16 (((x.sys.labels.head?).map BitVec.toNat).getD 0) &&& (Config.captureFilter 0).2 =
      (Config.captureFilter 0).1 &&& (Config.captureFilter 0).2 ∧
    ((sLabelled.tenant 0).reg 0xB8).toNat % 32 = 4 ∧ ((sLabelled.tenant 0).sampIx + 1) % 2 ^ 4 ≠
      ((sLabelled.tenant 0).reg 0xB8).toNat / 256 % 256 * 2 ^ 4 / 256 :=
  ⟨_, rfl, rfl, by show BitVec.ofNat 16 (Config.captureFilter 0).1.toNat &&& _ = _; simp, by decide +kernel, by decide +kernel⟩

/-- What the statement asks of lanes of a buffer access. -/
def bufReady (s : State) (id : Nat) (m : Lanes) (p : BufOp → Bool) : Bool :=
  match s.agent? me with
  | none => false
  | some x =>
    match x.flight.bufOps.find? (fun q => q.id == id) with
    | none => false
    | some o => x.place.isSome && p o && (o.lanes.any fun l => m.getLsbD l.lane) &&
        o.lanes.all fun l => !m.getLsbD l.lane || (!l.done && !bufWaits x.flight o l &&
          o.lanes.all fun k => k.done || k.off / 32 != l.off / 32 || m.getLsbD k.lane)
theorem witness_buffer_store : bufReady (run [.stb g0 .w64 .abuf (.v 4) (.s 0) 0] s1) first 15#32 (fun o => o.store) = true ∧
    bufReady (run [.stb g0 .w64 .abuf (.v 4) (.s 0) 0] s1) first every (fun o => o.store) = true := by decide +kernel
theorem witness_buffer_load : bufReady (run [.ldb g0 .w64 .cbuf (.v 4) (.s 0) 0] s1) first every (fun o => !o.store) = true ∧
    bufReady (run [.ldb g0 .i8 .wbuf (.s 30) (.s 0) 0] s1) first 1#32 (fun o => !o.store && o.lanes.any fun l => l.lane == 0) = true := by
  decide +kernel

def sStore : State := run [.st g0 .w32 .rel .device (.v 6) (.s 8) qual0 0, .pageWalk me first 0, .releaseProceed me first] s1
theorem witness_store_drains : ((sStore.op? me first).any fun e => e.2.2.isPlainStore && e.2.2.allAt every LaneSt.isReady &&
    e.2.2.closed every (fun _ k => k.st.isReady) && e.2.2.lanes.all fun l => !drainWaits e.1.flight e.2.2 l) = true := by decide +kernel
def sDrained : State := run [.storeDrain me first every] sStore
theorem witness_store_performs : ((sDrained.op? me first).any fun e => !e.2.2.isFlush && e.2.2.allAt every LaneSt.isDrained &&
    e.2.2.closed every (fun l k => k.st.isDrained && l.stamp == k.stamp) && e.2.2.lanes.all fun l =>
      !sDrained.earlierSent e.2.1.core e.2.2.width l && !sDrained.ownedLine (.issued e.2.2.issued) l.key) = true := by decide +kernel
def sScalarStore : State := run [.st g0 .w64 .relaxed .core (.s 4) (.s 8) qual0 0, .pageWalk me first 0, .storeDrain me first 1#32] s1
theorem witness_store_performs_one : ((sScalarStore.op? me first).any fun e => e.2.2.allAt 1#32 LaneSt.isDrained &&
    (e.2.2.lanes.filter fun l => (1#32).getLsbD l.lane).length == 1) = true := by decide +kernel
def sPerformed : State := run [.storePerform me first every] sDrained
theorem witness_store_acknowledged : ∀ sc ∈ [Scope.die, Scope.device, Scope.system], ((sPerformed.op? me first).any fun e =>
    e.2.2.isStore && !e.2.2.acked sc && e.2.2.rest == 0 && e.2.2.lanes.all fun l => sPerformed.laneAcked (e.2.1.core / 40) sc l) = true := by
  decide +kernel

/-- A store that is sampled, performed. -/
def sSampledStore : State := run [.st g0 .w32 .relaxed .core (.v 6) (.s 8) qual0 0, .pageWalk me first 0, .storeDrain me first every,
    .storePerform me first every, .storeAcknowledge me first .die, .storeAcknowledge me first .device]
  (my (Agent.mapSys fun y => { y with samp := 0x200001#32 }) s1)
theorem witness_store_sampled : ((sSampledStore.op? me first).any fun e => e.2.2.sampled && !e.2.2.returns && e.2.2.isStore &&
    !e.2.2.acked .system && e.2.2.rest == 0 && (e.2.2.ack .system).finished &&
    e.2.2.lanes.all fun l => sSampledStore.laneAcked (e.2.1.core / 40) .system l) = true := by decide +kernel
/-- An atomic of `device` scope, translated. -/
def sWideAtom : State := run [.atom g0 .cas .n64 .relaxed .device (.v 30) (.s 8) (.v 4), .pageWalk me first 0] s1
theorem witness_atomic_sent : ((sWideAtom.op? me first).any fun e => e.2.2.isAtomic && !e.2.2.isCoreAtomic &&
    e.2.2.allAt every LaneSt.isReady && e.2.2.closed every (fun _ k => k.st.isReady) && e.2.2.lanes.all fun l => !atomWaits e.1.flight e.2.2 l) = true := by decide +kernel

/-! ### Releases -/

/-- The warp stands at its place and is not stopped. -/
def mine (s : State) (p : State → Agent → Bool) : Bool :=
  match s.agent? me with
  | none => false
  | some x => x.place.isSome && x.ctl.stop.isNone && p s x

theorem witness_release_of_store :
    mine (run [.st g0 .w32 .rel .device (.v 6) (.s 8) qual0 0, .pageWalk me first 0] s1) (fun s x => x.flight.ops.any fun o =>
      o.id == first && first != 0 && !o.released && s.releaseReady x o.scope first) = true := by decide +kernel
theorem witness_release_of_gstart : mine (run [.gstart g0 (.s 30)] s1) (fun s x => (x.flight.ops.find? fun q => q.id == first).isNone &&
    x.flight.gstarts.any (fun g => g.1 == first && !g.2.2) && s.releaseReady x .device first) = true := by decide +kernel
theorem witness_release_of_fence : mine (run [.fence g0 .ar .system] s1) (fun s x => x.ctl.hold == .fence .ar .system &&
    s.releaseReady x .system x.flight.nextOp && x.flight.loadsWritten) = true := by decide +kernel
theorem witness_release_of_fdefer : mine (run [.fdefer g0 (.s 8) (.s 4) (.s 0)] sSets) (fun s x => x.ctl.hold == .fdefer 0x2000#64 64#32 0#32 false false &&
    s.releaseReady x .device x.flight.nextOp) = true := by decide +kernel
theorem witness_fdefer_enters : mine (run [.fdefer g0 (.s 8) (.s 4) (.s 0), .releaseProceed me 0] sSets) (fun s x =>
    x.ctl.hold == .fdefer 0x2000#64 64#32 0#32 true false && s.latigoRoom 0 0) = true := by decide +kernel
/-- The same with a quota of 0: the warp waits for an entry, and lanes that were parked wait for it too. -/
def sNoRoom : State :=
  run [.fdefer g0 (.s 8) (.s 4) (.s 0), .releaseProceed me 0] (sSets.modTenant 0 fun t => t.setReg 0x50 0#64)
theorem witness_fdefer_waits : mine sNoRoom (fun s x =>
    x.ctl.hold == .fdefer 0x2000#64 64#32 0#32 true false && !s.latigoRoom 0 0) = true := by decide +kernel
theorem witness_fdefer_enters_late : mine ((run [.releaseProceed me 0] sNoRoom).modTenant 0 fun t => t.setReg 0x50 0x100000000#64)
    (fun s x => x.ctl.hold == .fdefer 0x2000#64 64#32 0#32 true true && s.latigoRoom 0 0) = true := by decide +kernel
/-- `set.free` met a quota of 0, which has since been raised. -/
def sFreeWaits : State :=
  (run [.setFree g0 (.s 2)] (s1.modTenant 0 fun t => t.setReg 0x28 0x100#64)).modTenant 0 fun t => t.setReg 0x50 0x100000000#64
theorem witness_set_free_goes_on : mine sFreeWaits (fun s x => x.ctl.hold == .setFree && s.latigoRoom 0 0) = true := by decide +kernel

/-! ### Atomics -/

def atomReady (s : State) (id : Nat) (m : Lanes) (q : MemOp → Bool) : Bool :=
  match s.op? me id with
  | none => false
  | some (x, p, o) => o.atomic.isSome && o.allAt m LaneSt.toDo && o.closed m (fun l k => k.st.toDo && l.st == k.st && l.stamp == k.stamp) && !o.sampled && q o &&
      (o.lanes.all fun l => !m.getLsbD l.lane || !atomWaits x.flight o l) &&
      (if o.isCoreAtomic then o.lanes.all fun l => !m.getLsbD l.lane || ((kget (s.core p.core).l1 (l.key / 64)).isSome &&
          !s.drainedOn (fun y => y.core == p.core) (l.key / 64))
        else o.lanes.all fun l => !m.getLsbD l.lane || !s.atomHeld p.core o l)
theorem witness_atomic_l1 : atomReady (run [.atom g0 .add .n32 .relaxed .core (.s 30) (.s 8) (.s 2), .pageWalk me first 0, .l1Fill 0 128 3] s1)
    first 1#32 (fun o => o.isCoreAtomic) = true := by decide +kernel
theorem witness_atomic_home : atomReady (run [.atom g0 .cas .n64 .relaxed .device (.v 30) (.s 8) (.v 4), .pageWalk me first 0] s1)
    first every (fun o => !o.isCoreAtomic) = true ∧
    atomReady (run [.storeDrain me first every] sWideAtom) first every (fun o => !o.isCoreAtomic) = true := by decide +kernel
/-- One reduction without an answer, and one of the targets of several lanes of which the lower has performed. -/
theorem witness_reduction : atomReady (run [.red g0 .add .f32 .relaxed .device (.s 8) (.v 4), .pageWalk me first 0] s1)
    first every (fun o => match o.kind with | .red .. => true | _ => false) = true := by decide +kernel
theorem witness_red_ret : atomReady (run [.redRet g0 .xor .n64 .relaxed .die (.s 0) (.s 8) (.v 4), .pageWalk me first 0] s1)
    first every (fun o => match o.kind with | .redRet .. => true | _ => false) = true := by decide +kernel

/-! ## Witnesses: caches, channels and walks -/

theorem witness_l1_fill : (sLoaded.wantsLine 0 128).isSome = true ∧ (kget (sLoaded.core 0).l1 128).isNone = true ∧
    15 < (sLoaded.core 0).cacheWays ∧ ((sLoaded.wantsLine 0 128).any fun e =>
      !sLoaded.lineHeld 0 (.issued e.2.issued) 128 && !sLoaded.lineHeld 0 (.issued e.2.issued) 129) = true := by decide +kernel
/-- A store of the core to the line has not performed. -/
def sLineHeld : State := run [.st g0 .w32 .relaxed .core (.v 6) (.s 8) qual0 0, .ld g0 .w32 .relaxed .core (.v 4) (.s 8) qual0 0,
  .pageWalk me first 0, .pageWalk me (first + 1) 0, .storeDrain me first every] s1
theorem witness_l1_fill_held : ((sLineHeld.wantsLine 0 128).any fun e => sLineHeld.lineHeld 0 (.issued e.2.issued) 128) = true := by
  decide +kernel
/-- The warp's line has left the instruction cache. -/
def sNoCode : State := s0.modCore 0 fun c => { c with icache := [] }
/-- An engine owns the line of the code. -/
def sCodeOwned : State := run [.copyOut g0 false qual0 (.s 28) (.s 0) (.s 4) (.s 40)] (sets [(28, 0x10000)] s1) |>.modCore 0 fun c => { c with icache := [] }
theorem witness_icache_fill : ((sNoCode.wantsCode 0 0 0x200).any fun e => !sNoCode.codeHeld e.1 e.2.2.key && !sNoCode.loses e.2.2) = true ∧
    ((sCodeOwned.wantsCode 0 0 0x200).any fun e => sCodeOwned.codeHeld e.1 e.2.2.key) = true := by decide +kernel
theorem witness_l2_fill : ({ s0 with fills := [(7, 0x80#8, false)] } : State).fills[0]? = some (7, 0x80#8, false) := by decide +kernel
/-- A host line in the L2 of die 0. -/
def sHostLine : State := { s0 with l2 := [(2 ^ 80, L2Line.absent)] }
def req0 : HbmReq := ⟨1, 0, 0, 1#8, 0, some 0, 5, false, false, false, true, false, false⟩
def sHbm : State := { s0 with hbm := [req0, { req0 with id := 2, write := true, lu := true, deadline := none }], time := 10 }
/-- A store to host memory of a page that the L2 does not cache is on its way. -/
def sHostStore : State := run [.st g0 .w32 .relaxed .core (.v 6) (.s 8) qual0 0, .pageWalk me first 0, .storeDrain me first every]
  (s1.modCore 0 fun c => { c with tlb := c.tlb.map fun e => { e with tier := 2, cached := false } })
theorem witness_ownership : (kget sHostLine.l2 (2 ^ 80)).any (fun l => !l.owned) = true ∧ hostLine (2 ^ 80) = some (0, 0) ∧
    (kget sHostStore.l2 (hostKey 0x2000 / 256 + 2 ^ 80)).isNone = true ∧ sHostStore.wantsHost (hostKey 0x2000 / 256 + 2 ^ 80) = true ∧
    (hostLine (hostKey 0x2000 / 256 + 2 ^ 80)).isSome = true := by decide +kernel
theorem witness_channel : (kget sHbm.device.sliBusy 0).isNone = true ∧
    (pickReq (sHbm.hbm.filter fun q => q.stack == 0 && [1].contains q.id)).isSome = true ∧
    (pickReq (sHbm.hbm.filter fun q => q.stack == 0 && [2].contains q.id)).isSome = true := by decide +kernel
theorem witness_deadline : (sHbm.hbm.find? fun q => q.req == 5 && q.late sHbm.time).isSome = true := by decide +kernel

/-- A copy out that has written the line it owned. -/
def sWritten : State := (run [.copyOut g0 false qual0 (.s 8) (.s 0) (.s 4) (.s 40)] s1).modCore 0 fun c =>
  { c with copies := c.copies.map fun k => { k with owned := [(0x2000, 0x2040)], written := [(0x2000, 0x2020), (0x2020, 0x2040)] } }
theorem witness_line_release : ((sWritten.copy? 0 1).any fun k =>
    let own := (List.range 8).filter fun i => k.owned.any fun r => decide (r.1 ≤ 32 * 256 + 32 * i) && decide (32 * 256 + 32 * i < r.2)
    own != [] && own == (List.range 8).filter fun i => k.written.any fun r => r.1 == 32 * 256 + 32 * i) = true := by decide +kernel
theorem witness_conversion : (sConverting.core 0).converting = true ∧ (sConverting.core 0).ways ≤ (sConverting.core 0).waysAsked := by decide +kernel
def sUnconverting : State := s1.modCore 0 fun c => { c with converting := true, ways := 12, waysAsked := 0 }
theorem witness_conversion_back : (sUnconverting.core 0).converting = true ∧ sUnconverting.bufAbove 0 0 = false := by decide +kernel

/-- Walks over memory: a pointer at 0x2000 to 0x2040, a null at 0x2040, a marked granule at 0x2060. -/
def sChain : State := (inMem 0x2000 [0x2040] s1).markGranule (0x2060 / 32)
def hopAt (mode p : Nat) (s : State) : Hop :=
  s.hop 0 0 ⟨1, mode, 4, every, 0x2000#64, 0#32, [], [], 0#32, (none, false), false, false, false, 0#64, 0, false⟩ ⟨0, BitVec.ofNat 64 p, 0#32, 4, 0, none⟩
def readAt (p n : Nat) (s : State) : HopRead := s.hopRead 0 0 (BitVec.ofNat 64 p) n n
def translateAt (p : Nat) (s : State) : XRes := (s.translate 0 0 (BitVec.ofNat 64 p) .read).2
/-- A copy out owns the line at 0x2000. -/
def sOwned : State := run [.copyOut g0 false qual0 (.s 8) (.s 0) (.s 4) (.s 40)] sChain

theorem witness_read_misaligned : readAt 0x2004 8 sChain = .stop 6 [] := by decide +kernel
theorem witness_read_faults : translateAt 0x100000000 sChain = .fault 1 ∧ translateAt 0x200000000000000 sChain = .fault 2 := by decide +kernel
theorem witness_read_tier : (match translateAt 0x2000 sPeer with | .ok x => decide (2 ≤ x.tier) | _ => false) = true := by decide +kernel
theorem witness_read_home : (match translateAt 0x2060 sChain with | .ok x => decide (x.tier < 2) && !sChain.reachHeld 0 .any x.key && sChain.marked x.key 8 | _ => false) = true ∧
    (match translateAt 0x2000 sChain with | .ok x => decide (x.tier < 2) && !sChain.reachHeld 0 .any x.key && !sChain.marked x.key 8 | _ => false) = true ∧
    (match translateAt 0x2000 sOwned with | .ok x => decide (x.tier < 2) && sOwned.reachHeld 0 .any x.key | _ => false) = true := by decide +kernel
theorem witness_hop_first_read : (match readAt 0x2060 8 sChain with | .stop 4 _ => true | _ => false) = true ∧ readAt 0x2000 8 sOwned = .wait := by
  decide +kernel
theorem witness_hop_link : (match readAt 0x2000 8 sChain with | .val v _ => v == 0x2040 | _ => false) = true ∧
    (match readAt 0x2040 8 sChain with | .val v _ => v == 0 | _ => false) = true := by decide +kernel
theorem witness_hop_index : (match hopAt 1 0x2000 sChain with | .go q _ => q == 0xA100#64 | _ => false) = true := by decide +kernel
-- a sample: the second read marked, held, 0; the third faulted, held
theorem witness_hop_sample : (match readAt 0x2058 8 sChain with | .val _ _ => true | _ => false) = true ∧
    (match readAt 0x2060 4 sChain with | .stop 4 _ => true | _ => false) = true ∧
    (match readAt 0x1FF8 8 sOwned with | .val _ _ => true | _ => false) = true ∧ readAt 0x2000 4 sOwned = .wait ∧
    (match hopAt 2 0x2000 sChain with | .stop 0 [_, _] => true | _ => false) = true ∧
    (match hopAt 2 0x3000 (inMem 0x3000 [0, 1, 5] sChain) with | .stop 2 [_, _, _] => true | _ => false) = true ∧
    hopAt 2 0x3000 (inMem 0x3000 [0x2000, 0, 5] sOwned) = .wait := by decide +kernel

/-- A walk of every lane from 0x2000, of at most 1 hop. -/
def sWalk : State := run [.chaseLink g0 (.v 4) (.v 8) (.s 8) (.s 2)]
  (my (Agent.mapRegs fun r => r.setV 8 every (fun _ => 0x2000#32) 0#32) (sets [(8, 0), (10, 0)] sChain))
theorem witness_walk_hops : ((sWalk.agent? me).any fun x => x.place.isSome && (x.flight.chases.find? fun q => q.id == first).any fun c =>
    !c.held && !c.waiting && !sWalk.engineBreak x 7 c.seq && sWalk.engineReady x first &&
    (c.lanes.find? fun q => q.lane == 31 && q.status.isNone).any fun l => (match sWalk.hop 0 0 c l with | .go .. => true | _ => false) &&
      c.lanes.all fun q => q.lane != 31 || q == l) = true := by decide +kernel
/-- A breakpoint of the tenant matches every walk. -/
theorem witness_walk_breaks : (((sWalk.modTenant 0 fun t => t.setReg 0x900 (BitVec.ofNat 64 (65536 + 2 ^ 7))).agent? me).any fun x => x.place.isSome &&
    (x.flight.chases.find? fun q => q.id == first).any fun c => !c.held && !c.waiting && !c.released && c.unstarted &&
      (sWalk.modTenant 0 fun t => t.setReg 0x900 (BitVec.ofNat 64 (65536 + 2 ^ 7))).engineBreak x 7 c.seq) = true := by decide +kernel
/-- A walk that a restore has given back takes its entries, and finds no room with a core's 4,096 requests taken. -/
def sWalkBack : State := my (Agent.mapFlight fun f => { f with chases := f.chases.map fun c => { c with waiting := true } }) sWalk
def sWalkFull : State := my (Agent.mapFlight fun f => { f with
  chases := f.chases ++ (List.range 128).flatMap fun i => f.chases.map fun c => { c with id := 100 + i, waiting := false } }) sWalkBack
theorem witness_walk_takes_entries : ((sWalkBack.agent? me).any fun x => (x.flight.chases.find? fun q => q.id == first).any fun c =>
      !c.held && c.waiting && sWalkBack.chaseEntries 0 c) = true ∧
    ((sWalkFull.agent? me).any fun x => (x.flight.chases.find? fun q => q.id == first).any fun c =>
      !c.held && c.waiting && !sWalkFull.chaseEntries 0 c) = true := by decide +kernel
def sWalkLast : State := run [.chaseHop me first 0] (run [.chaseLink ⟨some 3, false⟩ (.v 4) (.v 8) (.s 8) (.s 6)]
  (my (Agent.mapRegs fun r => r.setP 3 1#32 fun _ => true) (my (Agent.mapRegs fun r => r.setV 8 every (fun _ => 0x2000#32) 0#32) (sets [(8, 0), (10, 0)] sChain))))
theorem witness_walk_ends : ((sWalkLast.agent? me).any fun x => (x.flight.chases.find? fun q => q.id == first).any fun c =>
    !c.held && !c.waiting && (c.lanes.find? fun q => q.lane == 0 && q.status.isNone).any fun l => match sWalkLast.hop 0 0 c l with | .stop 0 _ => true | _ => false) = true := by
  decide +kernel

/-! ## Witnesses: steps of the engines -/

/-- A copy of 64 bytes into ABUF waits; with a breakpoint of the tenant that matches every copy; running; cancelled. -/
def sCopyIn : State := run [.copyAbuf g0 qual0 (.s 0) (.s 8) (.s 4) (.s 40)] s1
def breaksAt (kind : Nat) (s : State) : State := s.modTenant 0 fun t => t.setReg 0x900 (BitVec.ofNat 64 (65536 + 2 ^ kind))
def cancelCopies (s : State) : State := s.modCore 0 fun c => { c with copies := c.copies.map fun k => { k with cancel := true } }
def sCopyRuns : State := run [.copyEngineStart 0] sCopyIn
def copyWaits (s : State) (p : Copy → Agent → Bool) : Bool :=
  ((s.core 0).copies.find? fun k => k.engine.isNone && !k.held && !s.saving k.gang).any fun k => (s.agent? k.agent).any fun x =>
    ((List.range 4).find? fun i => !((((s.core 0).copies.filter fun k => k.engine.isSome && !s.saving k.gang).filterMap Copy.engine).contains i)).isSome &&
      p k x
theorem witness_copy_starts : copyWaits sCopyIn (fun k x => !sCopyIn.engineBreak x 0 k.seq && sCopyIn.olderDone k.agent k.after) = true ∧
    Untraced sCopyIn 0 := by unfold Untraced; decide +kernel
theorem witness_copy_is_held : copyWaits (breaksAt 0 sCopyIn) (fun k x => k.chunk == 0 && !k.stopped && !k.released && (breaksAt 0 sCopyIn).engineBreak x 0 k.seq) = true := by
  decide +kernel

def copyMoves (s : State) (w : Want) (p : Copy → State × List Xlat × Pass → Bool) : Bool :=
  (s.copy? 0 1).any fun k => !k.cancel && k.engine.isSome && !k.held && !s.saving k.gang &&
    p k (locate (copyOrigin 0 k.qual (k.engine.getD 0)).req 0 (s.cmdTenant k.gang) 32 w (min 4096 (k.dstBytes - 4096 * k.chunk) / 32) (k.glob + BitVec.ofNat 64 (4096 * k.chunk)) s)
def found (k : Copy) (r : State × List Xlat × Pass) : Bool :=
  match r with
  | (s1, xs, .done) => !xs.isEmpty && xs.all fun a => !s1.reachHeld 0 (match k.kind with | .out _ => .command k.stamp | _ => .issued k.stamp) a.key
  | _ => false
def faulted (r : State × List Xlat × Pass) : Bool :=
  match r with
  | (_, _, .fault _) => true
  | _ => false
theorem witness_copy_cancelled : ((cancelCopies sCopyRuns).copy? 0 1).any Copy.cancel = true := by decide +kernel
def sCopyOutRuns (cbuf : Bool) : State := run [.copyOut g0 cbuf qual0 (.s 8) (.s 0) (.s 4) (.s 40), .copyEngineStart 0] s1
theorem witness_copy_out_moves : ∀ b ∈ [false, true],
    copyMoves (sCopyOutRuns b) .write (fun k r => k.kind == .out b && found k r && !r.1.bankTaken ⟨k.gang, k.pos, 0, if b then .cbuf else .abuf⟩ k.buf 64) = true := by decide +kernel
/-- Copies of pages that are not there. -/
def sCopyLost (i : Instr) : State := run [i, .copyEngineStart 0] (sets [(9, 1)] s1)
theorem witness_copy_out_faults : copyMoves (sCopyLost (.copyOut g0 true qual0 (.s 8) (.s 0) (.s 4) (.s 40))) .write (fun _ r => faulted r) = true := by
  decide +kernel
def copiesIn : List Instr :=
  [.copyAbuf g0 qual0 (.s 0) (.s 8) (.s 4) (.s 40), .copyWbuf g0 qual0 (.s 0) (.s 8) (.s 4) (.s 40), .copyMc g0 qual0 (.s 0) (.s 8) (.s 4) (.s 40)]
theorem witness_copy_in_moves : ∀ i ∈ copiesIn, copyMoves (run [i, .copyEngineStart 0] s1) .read
    (fun k r => found k r && (r.1.copyTargets 0 k).all fun p => !r.1.bankTaken p k.buf 64) = true := by decide +kernel
theorem witness_copy_in_faults : ∀ i ∈ copiesIn, copyMoves (sCopyLost i) .read (fun _ r => faulted r) = true := by decide +kernel
/-- A copy that quantises f32 to i8, in blocks of 32 whose scales stand at 0x2000. -/
def sQuantRuns : State := run [.copyQ g0 qual0 (.s 0) (.s 8) (.s 24) (.s 40), .copyEngineStart 0] (sets [(24, 64)] sQuant)
theorem witness_copy_quantises : ((sQuantRuns.copy? 0 1).any fun k => k.engine.isSome && match k.kind with
    | .quant _ lb _ dt st scl =>
      let n := min 4096 k.dstBytes / typeBytes dt
      let req := (copyOrigin 0 k.qual (k.engine.getD 0)).req
      let r := locate req 0 0 (min 32 (n * typeBytes st)) .read ((n * typeBytes st + 31) / 32) k.glob sQuantRuns
      found k r && match locate req 0 0 1 .read ((n - 1) / 2 ^ lb + 1) scl r.1 with | (_, ys, .done) => !ys.isEmpty | _ => false
    | _ => false) = true := by decide +kernel
/-- The line that a copy reads is owned by a copy out, and so is the one that a later copy out writes. -/
def sCopyHeld (i : Instr) : State := run [.copyOut g0 false qual0 (.s 8) (.s 0) (.s 4) (.s 41), i, .copyEngineStart 0, .copyEngineStart 0] s1 |>.modCore 0
  fun c => { c with copies := c.copies.map fun k => if k.id = 2 then { k with engine := some 1 } else k }
theorem witness_copy_line_owned : ((sCopyHeld (.copyAbuf g0 qual0 (.s 0) (.s 8) (.s 4) (.s 40))).copy? 0 2).any (fun k => k.engine.isSome &&
      (sCopyHeld (.copyAbuf g0 qual0 (.s 0) (.s 8) (.s 4) (.s 40))).reachHeld 0 (.issued k.stamp) 0x2000) = true ∧
    ((sCopyHeld (.copyOut g0 false qual0 (.s 8) (.s 0) (.s 4) (.s 40))).copy? 0 2).any (fun k => k.engine.isSome &&
      (sCopyHeld (.copyOut g0 false qual0 (.s 8) (.s 0) (.s 4) (.s 40))).reachHeld 0 (.command k.stamp) 0x2000) = true := by decide +kernel

/-- Tooling commands of one chunk: zero, row sums, transpose, conversion, quantisation. -/
def toolsOfOneChunk : List Instr := [.toolZero g0 .cbuf (.s 0) (.s 4) (.s 0) (.s 40), .toolRsum g0 .abuf (.s 0) (.s 12) (.s 4) (.s 40),
  .toolXpose g0 .abuf (.s 0) (.s 12) (.s 6) (.s 40), .toolCvt g0 .abuf (.s 0) (.s 4) (.s 44) (.s 40), .toolQuant g0 .abuf (.s 0) (.s 4) (.s 25) (.s 40)]
def sTool (i : Instr) : State := run [i] (sets [(44, 0x8A)] sQuant)
def toolReady (s : State) (p : Tool → Bool) : Bool :=
  (s.tool? 0 1).any fun k => !k.cancel && !k.held && !s.saving k.gang && s.olderDone k.agent k.after && k.chunk == 0 &&
    !s.bankTaken ⟨k.gang, k.pos, 0, k.buf⟩ k.off (min 4096 k.len) && ((s.agent? k.agent).all fun x => !s.engineBreak x 1 k.seq) && p k
theorem witness_tool_chunks : ∀ i ∈ toolsOfOneChunk, toolReady (sTool i) (fun k => decide (k.len ≤ 4096) &&
    match k.kind with
    | .quant lb _ _ st scl => match locate (toolOrigin 0 k.buf).req 0 0 1 .read ((k.len / typeBytes st - 1) / 2 ^ lb + 1) scl (sTool i) with | (_, _, .done) => true | _ => false
    | _ => true) = true := by decide +kernel
def sLongTool : State := run [.toolZero g0 .abuf (.s 0) (.s 12) (.s 0) (.s 40)] (sets [(12, 8192)] s1)
theorem witness_tool_goes_on : toolReady sLongTool (fun k => decide (4096 < k.len)) = true := by decide +kernel
def sBadTool : State := (sTool (.toolRsum g0 .abuf (.s 0) (.s 12) (.s 4) (.s 40))).setBufMark ⟨myGang, 0, 0, .abuf⟩ 0 true
theorem witness_tool_bad_source : toolReady sBadTool (fun k => sBadTool.bufAnyMark ⟨myGang, 0, 0, .abuf⟩ k.off k.len) = true := by decide +kernel
theorem witness_tool_cancelled : (((sTool (.toolZero g0 .cbuf (.s 0) (.s 4) (.s 0) (.s 40))).modCore 0 fun c =>
    { c with tools := c.tools.map fun k => { k with cancel := true } }).tool? 0 1).any Tool.cancel = true := by decide +kernel

theorem witness_tool_is_held : ((breaksAt 1 (sTool (.toolZero g0 .cbuf (.s 0) (.s 4) (.s 0) (.s 40)))).tool? 0 1).any (fun k => k.chunk == 0 &&
    !k.stopped && !k.released && ((breaksAt 1 (sTool (.toolZero g0 .cbuf (.s 0) (.s 4) (.s 0) (.s 40)))).agent? k.agent).any fun x =>
      (breaksAt 1 (sTool (.toolZero g0 .cbuf (.s 0) (.s 4) (.s 0) (.s 40)))).engineBreak x 1 k.seq) = true := by decide +kernel
/-- The scales of a quantisation stand on a page that is not there. -/
def sNoScales : State := run [.toolQuant g0 .abuf (.s 0) (.s 4) (.s 25) (.s 40)] (sets [(25, 0x1A0)] (inAbuf 0x1A0 [0x5000A, 0, 0, 1, 0, 0, 0, 0] s1))
theorem witness_tool_scales_lost : toolReady sNoScales (fun k => match k.kind with
    | .quant lb _ _ st scl => match locate (toolOrigin 0 k.buf).req 0 0 1 .read ((k.len / typeBytes st - 1) / 2 ^ lb + 1) scl sNoScales with
      | (_, _, .fault _) => true | _ => false
    | _ => false) = true := by decide +kernel

/-! ## Witnesses: steps of class-3 commands -/

/-- The commands of the blocks of s3, and one that has started. -/
def sCmd (l : List Instr) : State := run l s3
def cmdId : Nat := 2
def startable (s : State) (p : Cmd → Agent → Bool) : Bool :=
  (s.cmd? 0 cmdId).any fun k => !k.held && s.mayStart 0 k && !s.bankBusy 0 && !s.linkLost && (s.agent? k.agent).any fun x => p k x
def noBreak (s : State) (k : Cmd) (x : Agent) : Bool := (k.kind.engine).all fun e => k.released || !s.engineBreak x e.1 k.seq
/-- The commands start once the `chain.cfg` before them has. -/
def ready3 : State := run [.commandStart 0 1, .commandEnd 0 1 0#64] s3
def plainCmds : List Instr := [.mswap g0 3 slot15, .mzero g0 slot15 (.s 20), .cbtload g0 15 slot15 (.s 16), .chainStep g0 CmdFrame.none (.s 0),
  .chainRun g0 slot15 (.s 0), .ldst g0 0 CmdFrame.none (.s 16)]
theorem witness_command_starts : ∀ i ∈ plainCmds, startable (run [i] ready3) (noBreak (run [i] ready3)) = true := by decide +kernel
theorem witness_command_is_held : startable (breaksAt 2 (run [.mswap g0 3 slot15] ready3)) (fun k x => !k.released &&
    (k.kind.engine).any fun e => (breaksAt 2 (run [.mswap g0 3 slot15] ready3)).engineBreak x e.1 k.seq) = true := by decide +kernel


/-- Blocks that use handle 0, one of activations in fp16, and handle 1, whose tile no page maps. -/
def sTiles : State :=
  inAbuf 0x2A0 [0, 0, 0x80000001, 0, 0, 0, 0, 0] <|                       -- ldst of handle 1
  inAbuf 0x280 [0, 0, 0x01010001, 128, 0, 0, 0, 0] <|                      -- mstream of fp16
  inAbuf 0x260 [0, 0, 0x00010001, 128, 0x80000001, 0, 0, 0] <|             -- mstream of handle 1
  inAbuf 0x240 [0, 0, 0x00010001, 128, 0x80000000, 0, 0, 0] <|             -- mstream of handle 0
  inAbuf 0x220 [0, 0, 0x80000000, 0, 0, 0, 0, 0] <|                        -- ldst of handle 0
  sets [(50, 0x220), (52, 0x240), (54, 0x260), (56, 0x280), (58, 0x2A0)]
    (run [.tbind g0 1 (.s 60)] (sets [(60, 0x200)] (inAbuf 0x200 [0x2000, 1, 32, 0, 0x10008, 0, 0, 0] ready3)))
def fetches (s : State) (p : Cmd → Option (Tile × Nat × Nat × Nat) → Bool) : Bool :=
  startable s fun k x => noBreak s k x && p k (match k.kind, k.tiles with
    | .ldst _ _ wf (some (_, tr, tc)) _, some t :: _ => some (t, weightBytes wf / 32, tr, tc)
    | .mstream _ _ _ _ _ m astr (some (_, tr, tc)), some t :: _ => some (t, m * astr / 32, tr, tc)
    | _, _ => none)
def tileFound (s : State) (k : Cmd) (e : Option (Tile × Nat × Nat × Nat)) : Bool :=
  e.any fun e => match locate (k.origin 0).req 0 (s.cmdTenant k.gang) 32 .read e.2.1 (e.1.at e.2.2.1 e.2.2.2) s with
    | (s1, xs, .done) => !xs.isEmpty && xs.all fun y => !s1.reachHeld 0 .any y.key | _ => false
def tileOwned (s : State) (k : Cmd) (e : Option (Tile × Nat × Nat × Nat)) : Bool :=
  e.any fun e => match locate (k.origin 0).req 0 (s.cmdTenant k.gang) 32 .read e.2.1 (e.1.at e.2.2.1 e.2.2.2) s with
    | (s1, xs, _) => xs.any fun y => s1.reachHeld 0 .any y.key
def tileLost (s : State) (k : Cmd) (e : Option (Tile × Nat × Nat × Nat)) : Bool :=
  e.any fun e => faulted (locate (k.origin 0).req 0 (s.cmdTenant k.gang) 32 .read e.2.1 (e.1.at e.2.2.1 e.2.2.2) s)
theorem witness_tile_fetched : ∀ i ∈ [Instr.ldst g0 3 slot15 (.s 50), .mstream g0 0 slot15 (.s 52)],
    fetches (run [i] sTiles) (tileFound (run [i] sTiles)) = true := by decide +kernel
/-- A copy out to the tile's line is under way. -/
def owning (at_ : Nat) (s : State) : State := run [.copyOut g0 false qual0 (.s 62) (.s 47) (.s 4) (.s 42)] (sets [(62, at_), (63, 0)] s)
theorem witness_tile_owned : fetches (owning 0x2000 (run [.ldst g0 3 slot15 (.s 50)] sTiles)) (tileOwned (owning 0x2000 (run [.ldst g0 3 slot15 (.s 50)] sTiles))) = true := by
  decide +kernel
theorem witness_tile_lost : fetches (run [.ldst g0 3 slot15 (.s 58)] sTiles) (tileLost (run [.ldst g0 3 slot15 (.s 58)] sTiles)) = true := by decide +kernel
theorem witness_stream_pair : ∀ e ∈ [(52, true), (18, true), (56, false)],
    startable (run [.mstream g0 0 slot15 (.s e.1)] sTiles) (fun k _ => (k.kind.array.any fun arr =>
      ((run [.mstream g0 0 slot15 (.s e.1)] sTiles).gang? k.gang).any fun g =>
        pairOk (match k.kind with | .mstream _ _ _ af .. => af | _ => 9) (g.plane k.pos arr false).fmt == e.2)) = true := by decide +kernel

/-- Configurations of a chain of modes 0, 1 and 2, the last with a capacity of 1 and, after a boundary of two words, too small. -/
def sConfigs : State := inAbuf 0x2E0 [0x10000, 0, 0x20001, 0, 1, 0, 0, 0] <| inAbuf 0x2C0 [0x10000, 0, 0x10001, 64, 2, 0x10002, 0, 0] <|
  sets [(50, 0x2C0), (52, 0x2E0)] ready3
def configures (s : State) (p : Agent → Nat → Nat → Bool) : Bool :=
  startable s fun k x => noBreak s k x && match k.kind with | .chainCfg _ mode _ _ cap _ _ => p x mode cap | _ => false
theorem witness_chain_modes : configures (run [.chainCfg g0 slot15 (.s 22)] sConfigs) (fun _ mode _ => mode == 0) = true ∧
    configures (run [.chainCfg g0 slot15 (.s 50)] sConfigs) (fun _ mode _ => mode == 1) = true ∧
    configures (run [.chainCfg g0 slot15 (.s 52)] sConfigs) (fun x mode cap => mode == 2 && x.eng.chain.any fun c => decide (c.rows * c.cols ≤ cap)) = true := by
  decide +kernel
theorem witness_chain_covf : configures ((run [.chainCfg g0 slot15 (.s 52)] sConfigs).modAgent me (Agent.mapEng fun e =>
    { e with chain := e.chain.map fun c => { c with rows := 2 } })) (fun x mode cap => mode == 2 && x.eng.chain.any fun c => decide (cap < c.rows * c.cols)) = true := by
  decide +kernel

/-- A step of a chain of one record, of which all words are zero, with every dimension 1. -/
def sStep (i : Instr) (s : State) : State := run [.bdSet g0 0 (.s 2), i, .commandStart 0 cmdId] s
def steps (s : State) (p : Cmd → ChainCtx → Gang → Bool) : Bool :=
  (s.cmd? 0 cmdId).any fun k => k.started && !k.halted && !s.saving k.gang && !s.bankBusy 0 && (match k.kind with | .chainStep _ => true | .chainRun .. => true | _ => false) &&
    (s.agent? k.agent).any fun x => x.eng.chain.any fun c => (s.gang? k.gang).any fun g => p k c g
def record (s : State) (k : Cmd) (c : ChainCtx) : Option (State × Nat) :=
  match locate (k.origin 0).req 0 0 16 .read 1 (c.prog + BitVec.ofNat 64 (16 * k.cursor)) s with
  | (s1, [y], .done) => some (s1, y.key)
  | _ => none
def stepOf (s : State) (k : Cmd) (a : Nat) : Option Step := Step.ofWords k.bd (s.le a 4) (s.le (a + 4) 4) (s.le (a + 8) 4) (s.le (a + 12) 4)
def good (s : State) (absorb : Bool) : Bool := steps s fun k c g => decide (k.cursor < c.nsteps) && (record s k c).any fun e => !s.marked e.2 16 &&
  match stepCheck g.header c (stepOf s k e.2) with | .inr t => t.absorb == absorb | _ => false
def stops (s : State) (st : Word) : Bool := steps s fun k c g => decide (k.cursor < c.nsteps) && (record s k c).any fun e => !s.marked e.2 16 &&
  match stepCheck g.header c (stepOf s k e.2) with | .inl x => x == st | _ => false
def chains : List Instr := [.chainStep g0 CmdFrame.none (.s 0), .chainRun g0 slot15 (.s 0)]
theorem witness_chain_steps : ∀ i ∈ chains, good (sStep i ready3) false = true ∧ good (sStep i (inMem 0x10000 [0x10000] ready3)) true = true := by
  decide +kernel
theorem witness_chain_past_end : ∀ i ∈ [Instr.chainStep g0 CmdFrame.none (.s 2), .chainRun g0 slot15 (.s 2)],
    steps (sStep i (sets [(3, 50)] ready3)) (fun k c _ => decide (c.nsteps ≤ k.cursor)) = true := by decide +kernel
theorem witness_chain_mark : ∀ i ∈ chains, steps (sStep i (ready3.markGranule 0x800)) (fun k c _ => decide (k.cursor < c.nsteps) &&
    (record (sStep i (ready3.markGranule 0x800)) k c).any fun e => (sStep i (ready3.markGranule 0x800)).marked e.2 16) = true := by decide +kernel
def sFarRecord (i : Instr) : State := (sStep i ready3).modAgent me (Agent.mapEng fun e =>
  { e with chain := e.chain.map fun c => { c with prog := 0x100000000#64 } })
theorem witness_chain_fault : ∀ i ∈ chains, steps (sFarRecord i) (fun k c _ => decide (k.cursor < c.nsteps) &&
    faulted (locate (k.origin 0).req 0 0 16 .read 1 (c.prog + BitVec.ofNat 64 (16 * k.cursor)) (sFarRecord i))) = true := by decide +kernel
theorem witness_chain_owned : ∀ i ∈ chains, steps (owning 0x10000 (sStep i ready3)) (fun k c _ => decide (k.cursor < c.nsteps) &&
    (record (owning 0x10000 (sStep i ready3)) k c).any fun e => (owning 0x10000 (sStep i ready3)).reachHeld 0 .any e.2) = true := by decide +kernel
/-- A run that a save had stopped. -/
def sStopped : State := (sStep (.chainRun g0 slot15 (.s 0)) ready3).modCmd 0 cmdId fun k => { k with stopped := true }
theorem witness_chain_resumes : steps sStopped (fun k c _ => k.stopped && decide (k.cursor < c.nsteps)) = true ∧ good sStopped false = true := by
  decide +kernel
theorem witness_chain_refused : ∀ i ∈ chains, stops (run [i, .commandStart 0 cmdId] ready3) 0x100#32 = true ∧
    stops ((sStep i ready3).modAgent me (Agent.mapEng fun e => { e with chain := e.chain.map fun c => { c with cap := 0 } })) 0x80#32 = true := by
  decide +kernel

/-- A started command has its effect and completes. -/
def ends (s : State) (p : Cmd → Gang → Bool) : Bool :=
  (s.cmd? 0 cmdId).any fun k => k.started && !k.ended && !s.arrivalWaits k && !s.bankBusy 0 && (s.gang? k.gang).any fun g => p k g
theorem witness_command_ends : ∀ i ∈ [Instr.mswap g0 3 slot15, .mzero g0 slot15 (.s 20), .ldst g0 3 slot15 (.s 16), .mstream g0 0 slot15 (.s 18)],
    ends (run [i, .commandStart 0 cmdId] sTiles) (fun k _ => !k.halted) = true := by decide +kernel
theorem witness_command_heads_its_slot : ∀ i ∈ [Instr.mswap g0 3 slot15, .mzero g0 slot15 (.s 20), .ldst g0 3 slot15 (.s 16), .mstream g0 0 slot15 (.s 18)],
    ends (run [i, .commandStart 0 cmdId] sTiles) (fun k _ => k.frame.ss.isSome && k.frame.bar.isSome &&
      ((run [i, .commandStart 0 cmdId] sTiles).core 0).cmds.filter (fun j => decide (j.id = k.id)) == [k] &&
      ((run [i, .commandStart 0 cmdId] sTiles).core 0).cmds.all fun j => j.frame.ss != k.frame.ss || j.id == k.id) = true := by
  decide +kernel
theorem witness_halted_command_ends : ends (run [.mstream g0 0 slot15 (.s 56), .commandStart 0 cmdId] sTiles) (fun k _ => k.halted) = true := by
  decide +kernel
def sTable : State := run [.cbtload g0 15 slot15 (.s 50), .commandStart 0 cmdId] (sets [(50, 0x2C0)] (inAbuf 0x2C0 [0x2000, 0, 0, 0, 0, 0, 0, 0] ready3))
theorem witness_table_ends : ends sTable (fun k g => !k.halted && match k.kind with
    | .cbtload _ src => (match locate (k.origin 0).req 0 g.tenant 32 .read 1 src sTable with | (s1, [y], .done) => !sTable.marked y.key 32 && !s1.reachHeld 0 .any y.key | _ => false)
    | _ => false) = true := by decide +kernel
def tableReads (s : State) (p : State → Nat → Bool) : Bool := ends s fun k g => !k.halted && match k.kind with
  | .cbtload _ src => (match locate (k.origin 0).req 0 g.tenant 32 .read 1 src s with | (s1, [y], .done) => p s1 y.key | _ => false)
  | _ => false
theorem witness_table_marked : tableReads (sTable.markGranule 0x100) (fun s1 a => s1.marked a 32 && !s1.reachHeld 0 .any a) = true := by decide +kernel
theorem witness_table_owned : tableReads (owning 0x2000 sTable) (fun s1 a => s1.reachHeld 0 .any a) = true := by decide +kernel
theorem witness_table_lost : ends (sTable.modCmd 0 cmdId fun k => { k with kind := .cbtload 15 0x100000000#64 }) (fun k g => !k.halted &&
    faulted (locate (k.origin 0).req 0 g.tenant 32 .read 1 0x100000000#64 (sTable.modCmd 0 cmdId fun k => { k with kind := .cbtload 15 0x100000000#64 }))) = true := by
  decide +kernel
def sMop : State := run [.mop g0 slot15 (.s 26), .commandStart 0 cmdId]
  (sets [(26, 0x1C0)] (inAbuf 0x1C0 [0, 0, 0, 0x00010001, 0x00010001, 0, 0, 0] ready3))
theorem witness_mop_ends : ends sMop (fun k _ => !k.halted && match k.kind, k.tiles with
    | .mop astg wstg coff wf af kl m _ kt _ _ atc atr wtc wtr, some ta :: some tw :: _ =>
      (match sMop.mopRun 0 k astg wstg coff wf af kl m kt ta tw atc atr wtc wtr 0#64 [(0, 0)] with | some (_, .done, _) => true | _ => false) &&
        decide (astg + 2 * m * (64 * actBytes af) ≤ 1048576 ∧ wstg + 2 * weightBytes wf ≤ 1048576)
    | _, _ => false) = true := by decide +kernel
theorem witness_mop_owned : ends (owning 0x2000 sMop) (fun k _ => match k.kind, k.tiles with
    | .mop astg wstg coff wf af kl m _ kt _ _ atc atr wtc wtr, some ta :: some tw :: _ =>
      ((owning 0x2000 sMop).mopRun 0 k astg wstg coff wf af kl m kt ta tw atc atr wtc wtr 0#64 [(0, 0)]).isNone
    | _, _ => false) = true := by decide +kernel

/-! ## Witnesses: steps of the set engines and of deferred returns -/

/-- A set table at 0x8000: entry 2 free, entry 1 the set of 5 and 9, entry 3 dead; a heap of 4096 bytes. -/
def inDev (pa : Nat) (ws : List Nat) (s : State) : State := inMem ((devKey pa).getD 0) ws s
def sTable1 : State :=
  inDev 0x9000 [2, 5, 9] <| inDev 0x8040 [0, 0] <| inDev 0x8020 [0x100, 2, 5, 9, 2, 0x9000, 0, 8] <| inDev 0x8000 [2, 1] <|
    (sets [(24, 3)] sSets).modTenant 0 fun t => { ((t.setReg 0x20 0x8000#64).setReg 0x30 0x9000#64).setReg 0x38 0x2000#64 with heap := [(0xA000, 4096)] }
/-- The first set instruction of the warp that is issued there. -/
def sSet (i : Instr) : State := run [i] sTable1
def performs (s : State) (p : Agent → SetOp → Nat → State → SetRes → Bool) : Bool :=
  (s.agent? me).any fun x => match x.flight.setOps with
    | [] => false
    | o :: _ => x.flight.setTurn o && (!o.movesArray || s.engineReady x o.id) && !s.engineBreak x 6 o.seq && !s.linkLost &&
      match s.setOpRun x.core x.ident.tenant o with
      | (n, .ok (s1, r)) => p x o n s1 r
      | _ => false
def codeIs (s : State) (n : Nat) : Bool := performs s fun _ _ _ _ r => r.code == n
theorem witness_set_performs : codeIs (sSet (.setNew g0 (.s 30))) 0 = true ∧ codeIs (sSet (.setFree g0 (.s 2))) 0 = true ∧
    codeIs (sSet (.setIns g0 true (.p 2) (.s 2) (.v 4))) 0 = true ∧ codeIs (sSet (.setDel g0 false (.p 2) (.s 2) (.v 4))) 0 = true ∧
    codeIs (sSet (.setHas g0 (.p 2) (.s 2) (.v 4))) 0 = true ∧ codeIs (sSet (.setCard g0 (.s 30) (.s 2))) 0 = true ∧
    codeIs (sSet (.setOr g0 (.s 2) (.s 2) (.s 2))) 0 = true ∧ codeIs (sSet (.setIter g0 (.v 4) (.s 2) (.s 0))) 0 = true := by decide +kernel
theorem witness_set_moves : codeIs (sSet (.setIn g0 (.s 2) (.s 8) (.s 0))) 0 = true ∧ codeIs (sSet (.setOut g0 (.s 30) (.s 2) (.s 8) (.s 4))) 0 = true ∧
    codeIs (sSet (.setOut g0 (.s 30) (.s 2) (.s 8) (.s 0))) 6 = true ∧ codeIs (sSet (.setHint g0 .runs (.s 2))) 0 = true ∧
    codeIs (sSet (.setHintNone g0 (.s 2))) 0 = true := by decide +kernel
theorem witness_set_dead : codeIs (sSet (.setHas g0 (.p 2) (.s 24) (.v 4))) 1 = true := by decide +kernel
theorem witness_set_is_held : ((breaksAt 6 (sSet (.setCard g0 (.s 30) (.s 2)))).agent? me).any (fun x => x.flight.setOps.any fun o =>
    x.flight.setTurn o && !o.released && (breaksAt 6 (sSet (.setCard g0 (.s 30) (.s 2)))).engineBreak x 6 o.seq) = true := by decide +kernel
theorem witness_set_destinations_wait : performs (sSet (.setIter g0 (.v 4) (.s 2) (.s 0))) (fun x o _ _ _ =>
    x.flight.waits (.v 4) o.id && x.flight.waits (.s 0) o.id && o.act.getLsbD 31) = true ∧
    performs (sSet (.setHas g0 (.p 2) (.s 2) (.v 4))) (fun x o _ _ _ => x.flight.waits (.p 2) o.id && o.act.getLsbD 0) = true ∧
    performs (sSet (.setNew g0 (.s 30))) (fun x o _ _ _ => x.flight.waits (.s 30) o.id) = true := by decide +kernel
theorem witness_set_is_read : (match sTable1.readSet (.issued 0) 0 1#32 0 with | .ok v => v.members == [5, 9] | _ => false) = true ∧
    (match sTable1.readEntry (.issued 0) 0 1#32 0 with | .ok e => e.n == 2 | _ => false) = true := by decide +kernel
/-- A copy out owns the line of the entries. -/
def sTableOwned (i : Instr) : State := run [i] (owning 0x8000 sTable1)
theorem witness_dead_entry : sTable1.setHeld (.issued 0) 0 (sTable1.handleAddr 0 3#32) 8 = false ∧ sTable1.setMarked 0 (sTable1.handleAddr 0 3#32) 8 = false ∧
    (sTable1.entryAt 0 (sTable1.handleAddr 0 3#32)).live = false := by decide +kernel
def sTableMarked : State := sTable1.markGranule (homeOf 0x8060 / 32)
theorem witness_marked_entry : sTableMarked.setHeld (.issued 0) 0 (sTableMarked.handleAddr 0 3#32) 8 = false ∧
    sTableMarked.setMarked 0 (sTableMarked.handleAddr 0 3#32) 8 = true := by decide +kernel
theorem witness_set_line_owned : ((sTableOwned (.setCard g0 (.s 30) (.s 2))).agent? me).any (fun x => match x.flight.setOps with
    | [] => false
    | o :: _ => match (sTableOwned (.setCard g0 (.s 30) (.s 2))).setOpRun x.core x.ident.tenant o with
      | (_, .held) => true | _ => false) = true := by decide +kernel
theorem witness_algebra_sets : ∀ i ∈ [Instr.setOr g0 (.s 2) (.s 2) (.s 2), .setAnd g0 (.s 2) (.s 2) (.s 2), .setSub g0 (.s 2) (.s 2) (.s 2)],
    performs (sSet i) (fun x o _ _ _ => match (sSet i).readSet (.issued o.stamp) x.ident.tenant o.ha 0, (sSet i).readSet (.issued o.stamp) x.ident.tenant o.hb 8,
      (sSet i).readSet (.issued o.stamp) x.ident.tenant o.hc 16 with | .ok _, .ok _, .ok _ => true | _, _, _ => false) = true := by decide +kernel
-- the heap has no room for a new payload
theorem witness_insert_without_room : performs (run [.setIns g0 true (.p 2) (.s 2) (.v 4)]
    ((my (Agent.mapRegs fun r => r.setV 4 every (fun l => BitVec.ofNat 32 (100000 * l)) 0#32) sTable1).modTenant 0 fun t => { t with heap := [] }))
    (fun x o _ _ r => r.code == 2 && x.flight.waits (.p 2) o.id) = true := by decide +kernel
theorem witness_members_rise : ([] : List Nat).Pairwise (· < ·) ∧ [5, 9].Pairwise (· < ·) := by decide

/-- A freed set, and a freed block of 64 bytes at 0x2000 for pool 0 at 0x3000, whose periods have completed. -/
def sFreed : State := run [.setEngineOperation me first] (sSet (.setFree g0 (.s 2)))
def due (s : State) (p : LatigoEntry → Bool) : Bool := ((s.die 0).latigo[0]?).any fun e => s.latigoDue 0 0 e && p e
theorem witness_set_returns : due sFreed (fun e => match e.kind with
    | .setEntry i _ _ => (sFreed.setKey e.tenant (sFreed.entryAddr e.tenant 0)).isSome && (sFreed.setKey e.tenant (sFreed.entryAddr e.tenant i + 4)).isSome &&
        !sFreed.setHeld .any e.tenant (sFreed.entryAddr e.tenant 0) 8 && !sFreed.setHeld .any e.tenant (sFreed.entryAddr e.tenant i) 8
    | _ => false) = true := by decide +kernel
theorem witness_set_return_held : due (owning 0x8000 sFreed) (fun e => (owning 0x8000 sFreed).setHeld .any e.tenant ((owning 0x8000 sFreed).entryAddr e.tenant 0) 8) = true := by
  decide +kernel
def sBlock (pool : DWord) (hi : Nat) : State :=
  run [.fdefer g0 (.s 8) (.s 4) (.s 0), .releaseProceed me 0, .releaseProceed me 0] (sets [(9, hi)] (sSets.modTenant 0 fun t => t.setReg 0x40 pool))
def isOk (r : State × XRes) : Bool := match r.2 with | .ok _ => true | _ => false
def isFault (r : State × XRes) : Bool := match r.2 with | .fault _ => true | _ => false
def returns (s : State) (p : State × XRes → State × XRes → Bool) : Bool := due s fun e => match e.kind with
  | .block addr _ pool =>
    let req := reqOfEngine 8 0 0 0
    let pva := (s.tenant e.tenant).reg 0x40 + BitVec.ofNat 64 (16 * pool)
    let r := (s.dieWalkAsks req 0 e.tenant addr).translateDie 0 e.tenant addr .write
    p r ((r.1.dieWalkAsks req 0 e.tenant pva).translateDie 0 e.tenant pva .write)
  | _ => false
def leaf (s : State) : State := s.modDie 0 fun d => { d with tlb := [placedEntry] }
def freeOf (s : State) (r : State × XRes) : Bool := match r.2 with | .ok x => !s.reachHeld 0 .any x.key && !s.linkLost | _ => false
theorem witness_block_returns : returns (leaf (sBlock 0x3000#64 0)) (fun a b => freeOf (leaf (sBlock 0x3000#64 0)) a && freeOf (leaf (sBlock 0x3000#64 0)) b) = true := by
  decide +kernel
theorem witness_block_held : returns (owning 0x3000 (leaf (sBlock 0x3000#64 0))) (fun a b => isOk a && isOk b &&
    !freeOf (owning 0x3000 (leaf (sBlock 0x3000#64 0))) b) = true := by decide +kernel
theorem witness_block_discarded : returns (leaf (sBlock 0x3000#64 1)) (fun a _ => isFault a) = true ∧
    returns (leaf (sBlock 0x100003000#64 0)) (fun a b => isOk a && isFault b) = true := by decide +kernel

/-! ## Witnesses: grace periods, barriers, parked lanes -/

def quietly (s : State) (p : Agent → Bool) : Bool := (s.agent? me).any fun x => x.flight.quiet && p x
/-- The grace period numbers of the tenant, and one agent that has ended. -/
def periods (issued done : Word) (s : State) : State := s.modTenant 0 fun t => { t with issued := issued, doneT := done }
def sEnded (h : Hold) : State := my (Agent.mapCtl fun c => { c with hold := h, ended := every }) s1
theorem witness_qstate : quietly (run [.qstate g0] s1) (fun x => (run [.qstate g0] s1).live x && x.ctl.hold == .qstate) = true := by decide +kernel
def sGwait (done : Word) : State := run [.gwait g0 (.s 2)] (periods 1#32 done s1)
def gwaits (d : Word) : Bool := quietly (sGwait d) fun x => (sGwait d).live x && x.ctl.hold == .gwait 1#32
theorem witness_gwait : gwaits 0#32 = true ∧ atOrAfter ((sGwait 0#32).tenant 0).doneT 1#32 = false := by decide +kernel
theorem witness_gwait_done : gwaits 1#32 = true ∧ atOrAfter ((sGwait 1#32).tenant 0).doneT 1#32 = true := by decide +kernel
theorem witness_ends_quietly : quietly (sEnded (.yielded false)) (fun x => x.ctl.hold == .yielded false) = true ∧
    quietly (sEnded (.ended false)) (fun x => x.ctl.hold == .ended false) = true ∧
    quietly (sEnded (.ended true)) (fun x => x.ctl.hold == .ended true && !(sEnded (.ended true)).named me && x.flight.ops == [] && x.flight.gstarts == []) = true := by decide +kernel
def sGstart : State := run [.gstart g0 (.s 30), .releaseProceed me first] s1
theorem witness_gstart_target : (sGstart.agent? me).any (fun x => (x.flight.gstarts.find? fun g => g.2.2).any fun e => e == (first, 30, true) &&
    x.flight.waits (.s 30) first && decide (((sGstart.tenant 0).issued - (sGstart.tenant 0).doneT).toNat < 1073741824)) = true := by decide +kernel
def sAhead : State := my (Agent.mapEng fun e => { e with grace := 1#32 }) (periods 2#32 0#32 s1)
theorem witness_tracker : (sAhead.tenant 0).issued ≠ (sAhead.tenant 0).doneT ∧ keysRise sAhead.agents = true ∧ (sAhead.domain 0).length = 1 ∧
    ∀ x ∈ sAhead.domain 0, atOrAfter x.eng.grace (sAhead.tenant 0).doneT = true ∧ x.eng.grace ≠ (sAhead.tenant 0).doneT := by decide +kernel
def sStalls : State := { s1.modTenant 0 fun t => { t.setReg 0x50 1#64 with stalls := [(1#32, 0)] } with time := 940 }
theorem witness_gracestall : (sStalls.tenant 0).stalls.find? (fun e => e.1 == 1#32) = some (1#32, 0) ∧
    ((sStalls.tenant 0).reg 0x50).toNat % 4294967296 = 1 ∧ 0 + 940 * 1 ≤ sStalls.time := by decide +kernel

/-- Messages that wait: an arrival that completes a phase, one that does not, one with a status, an initialisation. -/
def sMsg (n : Nat) (m : BarMsg) : State :=
  s1.modGang myGang fun g => { g with bars := kput g.bars 63 { expect := n, arrived := 0, phase := 65535, acc := 1#32, status := 0#32 }, msgs := [(0, 63, m)] }
def message (s : State) (p : Gang → BarMsg → Bool) : Bool :=
  (s.gang? myGang).any fun g => (takeFrom 0 g.msgs).any fun e => p g e.1.2
theorem witness_arrivals : ∀ m ∈ [BarMsg.arrive, .orArrive 4#32], ∀ n ∈ [1, 2],
    message (sMsg n m) (fun g k => k == m && ((g.barrier 63).arrived + 1 == (g.barrier 63).expect) == (n == 1)) = true := by decide +kernel
theorem witness_init : message (sMsg 1 (.init 65535)) (fun _ k => k == .init 65535) = true := by decide +kernel
/-- The warp waits at barrier 7, and lanes of it are parked there; a flip is on its way. -/
def sFlip : State := my (Agent.mapCtl fun c => { c with hold := .barWait 7, parked := 1#32, parks :=
  [⟨3, 1#32, none, some 7, none, none, none, false⟩] }) (sFlipped.modGang myGang fun g => { g with flips := [(0, 7)] })
theorem witness_flip : ((sFlip.gang? myGang).any fun g => g.flips.contains (0, 7) && (g.barrier 7).phase != g.warpMark 7 0) = true ∧
    keysRise sFlip.agents = true ∧ ((sFlip.agent? me).any fun x => x.ident.gang == myGang && x.place.isSome && sFlip.posOf x == 0 &&
      x.ident.widx == 0 && x.ctl.hold == .barWait 7 && x.ctl.stop.isNone) = true ∧
    (sFlip.agents.all fun e => e.2.ident.gang != myGang || e.1 == me) = true := by decide +kernel
theorem witness_flip_elsewhere : ((sFlip.agent? me).any fun x => decide (x.ident.gang ≠ 2)) = true := by decide +kernel
/-- Parked on a line with a time-out of 1 µs, woken, and past that time. -/
def sParked : State := run [.park g0 true false true (.s 8) 0 (.s 2)] s1
def sFired : State := { my (Agent.mapCtl fun c => { c with parks := c.parks.map fun k => { k with fired := true } }) sParked with time := 100000 }
theorem witness_parked : ((sFired.agent? me).any fun x => x.place.isSome && sFired.runs x && x.ctl.parks.any fun k =>
    (x.group k.id) == some k && k.fired && k.line.isSome && k.wakeAt.any fun t => decide (t ≤ sFired.time)) = true := by decide +kernel

/-! ## Witnesses: warps, traps and tasks -/

def sTimer : State := { my (Agent.mapSys fun y => { y with tcmp := 0#64 }) s1 with time := 0 }
theorem witness_timer : ((sTimer.agent? me).any fun x => !x.ended && x.sys.tcmp != 0xFFFFFFFFFFFFFFFF#64 && decide (x.sys.tcmp.toNat ≤ sTimer.time) &&
    !x.sys.causes.contains .timer) = true := by decide +kernel
def sCause (l : List Cause) (s : State) : State := my (Agent.mapSys fun y => { y with causes := l }) s
def taken (s : State) (p : Agent → Option Cause → Bool → Bool) : Bool :=
  (s.agent? me).any fun x => s.live x && x.offers && !x.sys.inHandler && (nextCause x.sys.causes).any fun c =>
    p x (some c) ((s.setAgent me { x with sys := { x.sys with causes := x.sys.causes.erase c } }).fetchable x x.sys.thandler).2
theorem witness_cause_taken : taken (sCause [.timer] sHandler) (fun x c f => c == some .timer && x.sys.thandler != 0#64 && f) = true := by
  decide +kernel
theorem witness_cause_order : taken (sCause [.timer, .chainovf true 255] sHandler) (fun x c f => c == some (.chainovf true 255) && x.sys.thandler != 0#64 && f) = true := by decide +kernel
theorem witness_cause_without_handler : taken (sCause [.timer] s1) (fun x c _ => c == some .timer && x.sys.thandler == 0#64) = true ∧
    taken (sCause [.timer] sNoHandler) (fun _ c f => c == some .timer && !f) = true := by decide +kernel

/-- The warp is pending; another, active one of slot 23 waits. -/
def sPending : State := my (fun x => { x with active := false }) s1
def sTwoOf (f : Ctl → Ctl) : State :=
  sPending.setAgent 3 { placedAgent myGang with place := some ⟨0, 0, 23⟩, ctl := f (placedAgent myGang).ctl }
theorem witness_swap_into_room : (sPending.oldestPending 0 0).any (fun e => e.1 == me && e.2.place == some ⟨0, 0, 0⟩ && sPending.agent? me == some e.2 &&
    sPending.activeRoom 0 0) = true := by decide +kernel
/-- The two stand so, and have not been swapped in the last 2 clocks. -/
def swapOf (s : State) (p : Agent → Bool) : Bool :=
  ((s.oldestPending 0 0).any fun e => e.1 == me && e.2.place == some ⟨0, 0, 0⟩ && s.agent? me == some e.2 && decide (e.2.frozen ≤ s.time) && !e.2.overdue) &&
  ((s.inPart 0 0).find? fun e => e.2.active && e.2.place == some ⟨0, 0, 23⟩).any fun e => e.1 == 3 && decide (e.2.frozen ≤ s.time) && p e.2
def later (s : State) : State := { s with time := s.time + 100 }
theorem witness_swap : swapOf (sTwoOf fun c => { c with hold := .barWait 7 }) (fun x => x.ctl.hold == .barWait 7) = true ∧
    swapOf (sTwoOf fun c => { c with parked := every }) (fun x => x.ctl.hold == .none && x.ctl.headRun.isNone) = true := by decide +kernel
theorem witness_swap_after_a_wait :
    swapOf (later (sTwoOf fun c => { c with stall := true, waitSince := some 0 })) (fun x => x.ctl.hold == .none && x.ctl.stall && x.ctl.waitSince == some 0) = true ∧
    swapOf (later (sTwoOf fun c => { c with hold := .waitc 0 0 0, waitSince := some 0 })) (fun x => x.ctl.hold == .waitc 0 0 0 && x.ctl.waitSince == some 0) = true ∧
    0 + 64 < (later sPending).time := by decide +kernel
theorem witness_no_swap : swapOf (sTwoOf id) (fun x => x.ctl.hold == .none && x.ctl.headRun.isSome && x.ctl.waitSince.isNone) = true := by decide +kernel
/-- A warp passed over for longer than the bound, whatever it is. -/
theorem witness_overdue : ∃ x : Agent, x.overdue = true ∧ x.place = some ⟨0, 0, 0⟩ := by
  refine ⟨{ placedAgent myGang with passed := Config.issueBound + 1 }, ?_, rfl⟩
  simp [Agent.overdue]
def sGrow : State := run [.grow g0 32] (my (Agent.mapRegs fun r => { r with alloc := 1504 }) s1)
theorem witness_grow : (sGrow.agent? me).any (fun x => x.ctl.hold == .grow 32 && x.place == some ⟨0, 0, 0⟩ && sGrow.live x && decide (32 ≤ sGrow.freeRegs 0 0) &&
    (sGrow.inPart 0 0).all fun e => e.1 == me || !e.2.grows || !olderAgent e.2 x) = true := by decide +kernel
def sWaitc : State := run [.waitc g0 0 0 0] s1
theorem witness_waitc : (sWaitc.agent? me).any (fun x => x.ctl.hold == .waitc 0 0 0 && sWaitc.live x && ldbCount x.flight == 0 && stbCount x.flight == 0 &&
    sWaitc.toolCount me x.core == 0) = true := by decide +kernel

/-- A call has queued a task; one before it in the queue asks for more registers than there are. -/
def sCalled : State := run [.callDirect g0 256 4 8] sCode
def head (s : State) : Option (Nat × Agent) := (s.taskQueue 0).head?
theorem witness_task_starts : (head sCalled).any (fun e => (sCalled.fitPart 0 e.2.regs.alloc).isSome && sCalled.agent? e.1 == some e.2) = true := by decide +kernel
def sQueue (passed alloc : Nat) : State :=
  match head sCalled with
  | none => sCalled
  | some (_, x) => (sCalled.setAgent 90 { x with passed := passed, regs := { x.regs with alloc := alloc }, ident := { x.ident with born := 0 } }).setAgent 91
      { x with ident := { x.ident with born := 1000 } }
theorem witness_task_passed_over : ∀ n ∈ [0, 63], (match (sQueue n 4096).taskQueue 0 with
    | e :: f :: _ => (e.2.passed == n && ((sQueue n 4096).fitPart 0 e.2.regs.alloc).isNone && ((sQueue n 4096).fitPart 0 f.2.regs.alloc).isSome) ||
        (f.2.passed == n && ((sQueue n 4096).fitPart 0 f.2.regs.alloc).isNone)
    | _ => false) = true := by decide +kernel
theorem witness_task_blocks : ((sQueue 64 4096).taskQueue 0).any (fun e => ((sQueue 64 4096).fitPart 0 e.2.regs.alloc).isNone && decide (64 ≤ e.2.passed)) = true := by
  decide +kernel
def sJoined : State := my (fun x => { x with recs := x.recs.map fun r => { r with join := 0 } }) sCalled
theorem witness_continuation : (sJoined.agent? me).any (fun x => (match x.ctl.hold with
    | .held id => (x.recs.find? fun r => r.id == id).any fun r => r.join == 0 && decide (r.budget * 32 ≤ sJoined.freeRegs 0 0)
    | _ => false) && x.place == some ⟨0, 0, 0⟩ && sJoined.live x) = true := by decide +kernel

/-! ## Witnesses: the dispatcher -/

/-- A record for a gang of one warp, its header at 0x10010, and contexts that serve it. -/
def rec0 : LaunchRec := ⟨0x10020#64, 5#64, 1, true, 0, 1, 1#32, 0#64, 0x2000#64, 0#64, 7#64⟩
def sServe : State :=
  leaf (inMem 0x10010 [1, 0, 0x48455A4C, 0] (s1.modTenant 0 fun t => ((t.setReg 0 1#64).setReg 0x58 0x10000#64)))
def queued (r : LaunchRec) (h : HeadSt) (s : State) : State :=
  s.modTenant 0 fun t => { t with queues := kput t.queues (queueKey 0 3) { recs := [r], head := h, launch := none } }
def block64 : List Byte := List.replicate 64 0#8
theorem witness_append : (sServe.tenant 15).refusesAppends = true ∧ (sServe.tenant 0).refusesAppends = false ∧ 65472 % 64 = 0 ∧ block64.length = 64 ∧
    ((sServe.tenant 0).queue (65472 / 16384) (65472 / 4096 % 4)).recs.length < 256 := by decide +kernel
def sQFull : State := sServe.modTenant 0 fun t => { t with queues := (List.range 16).map fun k =>
  (k, { recs := List.replicate 256 rec0, head := .unchecked, launch := none }) }
theorem witness_append_full : 256 ≤ ((sQFull.tenant 0).queue 3 3).recs.length := by decide +kernel
def sPush (s : State) : State := run [.taskPush g0 3 (.s 4)] s
def pushes (s : State) (p : Agent → Bool) : Bool :=
  (s.agent? me).any fun x => x.ctl.hold == .taskPush 3 64 && s.live x && stbCount x.flight == 0 && p x
theorem witness_task_push : pushes (sPush sServe) (fun x => !((sPush sServe).tenant 0).refusesAppends &&
      decide ((((sPush sServe).tenant 0).queue x.die 3).recs.length < 256)) = true ∧
    pushes (sPush sQFull) (fun x => !((sPush sQFull).tenant 0).refusesAppends && decide (256 ≤ (((sPush sQFull).tenant 0).queue x.die 3).recs.length)) = true ∧
    pushes (sPush s1) (fun _ => ((sPush s1).tenant 0).refusesAppends) = true := by decide +kernel

/-- What the check of a record meets. -/
def checks (r : LaunchRec) : State := queued r .unchecked sServe
def serves (s : State) : Bool := (s.tenant 0).serves && ((s.tenant 0).queue 0 3).recs.length == 1
def readsHeader (s : State) (r : LaunchRec) : Option (Option Header) :=
  match s.dispBytes 0 0 8 .fetch 2 (r.entry - 16#64) with
  | .ok b => some (Header.ofWords (leVal (b.take 4)) (leVal ((b.drop 4).take 4)) (leVal ((b.drop 8).take 4)) (leVal (b.drop 12)))
  | _ => none
def headerIs (r : LaunchRec) (p : Header → Bool) : Bool := serves (checks r) && r.entry.toNat % 8 == 0 && (readsHeader (checks r) r).any fun h => h.any p
theorem witness_entry_misaligned : serves (checks { rec0 with entry := 0x10024#64 }) = true ∧ 0x10024 % 8 ≠ 0 := by decide +kernel
theorem witness_header_unread : (match (checks { rec0 with entry := 0x100010020#64 }).dispBytes 0 0 8 .fetch 2 0x100010010#64 with | .bad false => true | _ => false) = true := by
  decide +kernel
theorem witness_launch_without_header : (readsHeader (checks rec0) { rec0 with entry := 0x20020#64 }) = some none := by decide +kernel
theorem witness_numbers : ∀ r ∈ [{ rec0 with warps := 0 }, { rec0 with warps := 129 }, { rec0 with cores := 3 }, { rec0 with gangs := 0 }],
    headerIs r (fun h => decide (r.warps = 0 ∨ 128 < r.warps ∨ r.cores = 3 ∨ r.gangs = 0 ∨ fitsEmpty h r = false)) = true := by decide +kernel
theorem witness_fits_not : fitsEmpty ⟨0, 0, 0, 48, 0, 0, 0, 0, 0⟩ { rec0 with warps := 128 } = false := by decide +kernel
def shares (r : LaunchRec) : DispRead (Option (List RankShare)) := (checks r).readShares 0 0 r
def sound (r : LaunchRec) : Bool := headerIs r fun h => decide (1 ≤ r.warps ∧ r.warps ≤ 128 ∧ r.cores ≠ 3 ∧ r.gangs ≠ 0) && fitsEmpty h r
theorem witness_group_unread : sound { rec0 with pgt := 0x100000000#64 } = true ∧ (match shares { rec0 with pgt := 0x100000000#64 } with | .bad false => true | _ => false) = true := by
  decide +kernel
theorem witness_group_none : sound { rec0 with pgt := 0x3000#64 } = true ∧ (match shares { rec0 with pgt := 0x3000#64 } with | .ok none => true | _ => false) = true := by
  decide +kernel
theorem witness_launch : sound rec0 = true ∧ sound { rec0 with waita := 0x4000#64 } = true ∧
    (match shares rec0 with | .ok (some l) => l.any fun q => q.count != 0 | _ => false) = true := by decide +kernel
/-- The launch waits for its word, which is so. -/
def sWait (w0 w1 : Nat) : State := inMem 0x4000 [w0, w1] (run [.launchCheck 0 0 3] (checks { rec0 with waita := 0x4000#64 }))
def waitWord (s : State) : Option Nat := match s.dispBytes 0 0 8 .read 1 0x4000#64 with | .ok b => some (leVal b) | _ => none
def waitsFor (s : State) (r : LaunchRec) (p : Launch → Bool) : Bool :=
  (s.tenant 0).serves && ((s.tenant 0).queue 0 3).recs == [r] && ((s.tenant 0).queue 0 3).head == .waiting &&
    (((s.tenant 0).queue 0 3).launch).any fun k => (kget s.launches k).any fun l => l.record == r && p l
theorem witness_wait_word : waitsFor (sWait 1 0) { rec0 with waita := 0x4000#64 } (fun l => l.shares.any fun q => q.count != 0) = true ∧
    waitWord (sWait 1 0) = some 1 ∧ waitWord (sWait 0 0) = some 0 ∧ waitWord (sWait 0 0x2000000) = some (2 * 2 ^ 56) := by decide +kernel
theorem witness_wait_word_unread : waitsFor (run [.launchCheck 0 0 3] (checks { rec0 with waita := 0x4004#64 })) { rec0 with waita := 0x4004#64 } (fun _ => true) = true ∧
    0x4004 % 8 ≠ 0 := by decide +kernel
/-- A group table at 0x3000 of two ranks, rank 1 on this device: of one gang rank 0 takes all. -/
def recGroup : LaunchRec := { rec0 with pgt := 0x3000#64 }
theorem witness_no_gang_here : (match (inMem 0x3000 [2, 0, 0, 0, 0, 7, 1, 0, 1, 0, 1, 0] (checks recGroup)).readShares 0 0 recGroup with
    | .ok (some l) => l.length == 1 && l.all (fun q => q.count == 0 && q.rank == 1) | _ => false) = true := by decide +kernel

/-- The launch is eligible; its gang is taken, and refused where its core's registers are not there. -/
def sEligible : State := run [.launchCheck 0 0 3] (checks rec0)
theorem witness_gang_taken : (List.range 4).find? (fun u => (kget (sEligible.die 0).units u).isNone) = some 0 ∧ (sEligible.die 0).turn = 0 ∧
    sEligible.mayTake 0 0 = true ∧ (sEligible.nextGang 0 0).isSome = true ∧ (∀ k, k < 16 → k ≠ 0 → sEligible.mayTake 0 k = false) := by decide +kernel
theorem witness_turn_used_up : (sEligible.tenant 0).weight ≤ ((sEligible.modDie 0 fun d => { d with taken := 99 }).die 0).taken := by decide +kernel
theorem witness_place_chosen : (sEligible.choosePart 0 []).isSome = true := by decide +kernel
theorem witness_turn_ends : ((s1.modDie 0 fun d => { d with taken := 1 }).die 0).taken ≠ 0 ∧
    (s1.modDie 0 fun d => { d with taken := 1 }).mayTake 0 ((s1.modDie 0 fun d => { d with taken := 1 }).die 0).turn = false := by decide +kernel
def sTaken : State := run [.admissionTake 0] sEligible
def replies (s : State) (p : Admission → Bool) : Bool := (kget (s.die 0).units 0).any p
theorem witness_grant : replies sTaken (fun a => a.replies == [0] && sTaken.coreGrants a 0 && a.restore.isNone && (kget sTaken.launches a.launch).any fun l =>
    (l.shares.find? fun r => r.rank == a.rank).isSome) = true := by decide +kernel
def sRefuse : State := sTaken.modDie 0 fun d => { d with units := d.units.map fun u => (u.1, { u.2 with refused := true }) }
theorem witness_refuse : replies sRefuse (fun a => a.replies == [0] && !sRefuse.coreGrants a 0) = true := by decide +kernel
theorem witness_refuse_first : (sRefuse.die 0).units.all (fun e => e.1 == 0) = true := by decide +kernel
/-- A lower unit has still to answer. -/
def sRefuseLater : State := sRefuse.modDie 0 fun d => { d with units := d.units ++ d.units.map fun u => (1, u.2) }
theorem witness_refuse_waits : (kget (sRefuseLater.die 0).units 1).any (fun a => a.replies == [0] && !sRefuseLater.coreGrants a 0) = true ∧
    (sRefuseLater.die 0).units.any (fun e => decide (e.1 < 1) && e.2.replies != []) = true := by decide +kernel
def sGangOfTwo : State := run [.admissionTake 0] (run [.launchCheck 0 0 3] (checks { rec0 with cores := 1, warps := 2 }))
theorem witness_first_grant : replies sGangOfTwo (fun a => a.replies == [0, 1] && sGangOfTwo.coreGrants a 0) = true := by decide +kernel
def sBackoff : State := { run [.reservationReply 0 0] sRefuse with time := 100000 }
theorem witness_backoff : replies sBackoff (fun a => a.retryAt.any fun t => decide (t ≤ sBackoff.time)) = true := by decide +kernel

/-! ## Witnesses: completions and records -/

def completes (c : Completion) (s : State) : State := { s with completions := [c] }
def done0 : Completion := { tenant := 0, launch := 0, addr := 0x2000#64, status := 255, count := false, irq := true, tag := 7#64, die := 0 }
theorem witness_completion : ∀ c ∈ [done0, { done0 with count := true, launch := 1 }], (completes c sServe).launchStores c.launch = false ∧ c.addr.toNat % 8 = 0 ∧
    isOk ({ completes c sServe with completions := [] }.translateDie 0 0 c.addr .write) = true ∧ sServe.reachHeld 0 .any 0x2000 = false := by decide +kernel
theorem witness_completion_lost : 0x2004 % 8 ≠ 0 ∧
    isFault ({ completes { done0 with addr := 0x100000000#64 } sServe with completions := [] }.translateDie 0 0 0x100000000#64 .write) = true := by decide +kernel
def unwritten (s : State) (p : Unwritten → Bool) : Bool := (s.tenant 0).enabled && !(s.tenant 0).queueFull && (firstUnwritten (s.unwritten 0)).any p &&
  (devKey (((s.tenant 0).reg 0x68).toNat / 64 * 64 + 64 * (((s.tenant 0).reg 0x80).toNat % 2 ^ ebits ((s.tenant 0).reg 0x70).toNat 4 0))).isSome
theorem witness_record_of_a_stop : unwritten (run [.trap g0 0#16] sServe) (fun w => match w with | .stop .. => true | _ => false) = true := by decide +kernel
theorem witness_record_of_a_report : unwritten (run [.completionWordWrite 0] (completes { done0 with addr := 0x2004#64 } sServe))
    (fun w => match w with | .report .. => true | _ => false) = true := by decide +kernel
theorem witness_completion_held : (owning 0x2000 sServe).reachHeld 0 .any 0x2000 = true ∧
    isOk ((owning 0x2000 sServe).translateDie 0 0 done0.addr .write) = true := by decide +kernel
/-- The queue's one slot is taken; its line is owned; a record that an agent has left. -/
def sOneRecord (tail : DWord) : State := (run [.trap g0 0#16] sServe).modTenant 0 fun t => t.setReg 0x80 tail
def fq (s : State) : Bool := (s.tenant 0).enabled && (firstUnwritten (s.unwritten 0)).isSome
theorem witness_fault_queue_full : fq (sOneRecord 1#64) = true ∧
    (((sOneRecord 1#64).tenant 0).reg 0x80 - ((sOneRecord 1#64).tenant 0).reg 0x78).toNat = 2 ^ ebits (((sOneRecord 1#64).tenant 0).reg 0x70).toNat 4 0 := by
  decide +kernel
def sRecordOwned : State := (owning 0x2000 (sOneRecord 0#64)).modTenant 0 fun t => t.setReg 0x68 0x2000#64
theorem witness_fault_queue_owned : fq (run [.trap g0 0#16] sRecordOwned) = true ∧ (devKey 0x2000).any (fun k => sRecordOwned.ownedLine .any k) = true := by
  decide +kernel
theorem witness_record_kept : unwritten (sServe.modTenant 0 fun t => { t with records := [(0, none, block64)] })
    (fun w => match w with | .record .. => true | _ => false) = true := by decide +kernel

/-- An event of a command whose label the tenant's filter admits, whatever it is; tracing with a ring of 16 slots. -/
def event0 : CmdName := ⟨(placedAgent myGang).ident, 0#32, 0, (some (Config.captureFilter 0).1, false), 0⟩
def sTraces (cfg : DWord) : State := sServe.modTenant 0 fun t => ((t.setReg 0 3#64).setReg 0xA8 cfg).setReg 0xA0 0x200000#64
theorem witness_trace : admits 0 (labelOf event0.label) = true ∧ event0.issuer.tenant = 0 ∧ ((sTraces 4#64).tenant 0).reg 0 = 3#64 ∧
    ebits (((sTraces 4#64).tenant 0).reg 0xA8).toNat 4 0 = 4 ∧ ((sTraces 4#64).tenant 0).traceIx = 0 ∧
    ebits (((sTraces 0x1004#64).tenant 0).reg 0xA8).toNat 15 8 * 2 ^ 4 / 256 = 1 ∧ ebits (((sTraces 3#64).tenant 0).reg 0xA8).toNat 4 0 = 3 := by
  refine ⟨?_, rfl, ?_⟩
  · show (BitVec.ofNat 16 (Config.captureFilter 0).1.toNat &&& (Config.captureFilter 0).2 == _) = true
    simp
  · decide +kernel

/-! ## Witnesses: contexts -/

/-- Meanings one after the other. -/
def go (l : List (State → Out)) (s : State) : State := l.foldl (fun s f => after (f s)) s

def sDrain : State := go [execPreemptRequest 0] sServe
def late (s : State) : State := { s with time := 1000000000 }
theorem witness_preempt : (sServe.tenant 0).enabled = true ∧ (sServe.tenant 0).draining = false ∧ (sServe.tenant 0).saved = false ∧
    (sServe.tenant 0).resetting = false ∧ ((sServe.gang? myGang).any fun y => y.tenant == 0 && y.phase == .running) = true := by decide +kernel
theorem witness_preempt_admission : ((kget (sTaken.die 0).units 0).any fun v => v.tenant == 0 && v.restore.isNone && (kget sTaken.launches v.launch).isSome) = true ∧
    (sTaken.tenant 0).enabled = true := by decide +kernel
def inPhase (s : State) (ph : GangPhase) (p : Gang → Bool) : Bool := (s.gang? myGang).any fun y => y.phase == ph && p y
theorem witness_yield_deadline : inPhase (late sDrain) .running (fun y => ((late sDrain).tenant y.tenant).draining && y.deadline.any fun d =>
    decide (d ≤ (late sDrain).time)) = true := by decide +kernel
def sForced : State := late (go [execYieldDeadline myGang] (late sDrain))
theorem witness_forced_limit : inPhase { sForced with time := 2000000000 } .saving (fun y => y.forcedAt.any fun d => decide (d + 50 * 940 ≤ 2000000000)) = true := by
  decide +kernel
def sYielded : State := go [execPreemptRequest 0, execYield g0] sServe
theorem witness_gang_save_begins : inPhase sYielded .running (fun y => (sYielded.tenant y.tenant).draining && sYielded.agents.all fun e => e.2.letsSave) = true := by
  decide +kernel
def sSaving : State := go [execQuiescentPoint me, execGangSave myGang] sYielded
theorem witness_gang_saved : inPhase sSaving .saving (fun y => sSaving.savable myGang y) = true ∧
    ((sSaving.agent? me).any fun x => x.ident.gang == myGang && !x.ended) = true := by decide +kernel
/-- The gang, saved. -/
def sSaved : State := ((sSaving.modAgent me (Agent.saveInto 0#32)).modGang myGang fun g =>
  { g with phase := .saved, savedAt := sSaving.time, deadline := none, forcedAt := none }).drainCheck 0
theorem witness_save_room : ∀ y, sSaving.saveRoom myGang y = true := by
  intro y
  have h : sSaving.inPartition y.die = [] := by
    have k : sSaving.gangs.all (fun e => e.2.phase != .saved) = true := by decide +kernel
    rw [State.inPartition, List.filter_eq_nil_iff]
    intro e he
    have := List.all_eq_true.mp k e he
    simp_all
  simp [State.saveRoom, h, State.recordLines]
theorem witness_spill : inPhase sSaved .saved (fun y => y.die == 0 && !y.spilled && sSaved.gangs == [(myGang, y)]) = true := by decide +kernel

/-- Two gangs of 200 cores with 576 KiB of buffers each, more than a die has: one is saved, the other has to wait for room. -/
def big (ph : GangPhase) : Gang := { placedGang with cores := List.replicate 200 0, header := { placedGang.header with abufk := 256, wbufk := 256, cbufk := 64 }, phase := ph }
def sPartFull : State := { sSaved with gangs := [(myGang, big .saved), (7, big .saving)] }
theorem big_record (s : State) (g : Nat) (ph : GangPhase) : s.recordLines g (big ph) = partitionLines := by
  have h : 98304 ≤ (s.recordBytes g (big ph) + 255) / 256 := by
    simp only [State.recordBytes, big, List.length_replicate]
    omega
  simp only [State.recordLines, partitionLines]
  omega
theorem witness_no_save_room : sPartFull.saveRoom 7 (big .saving) = false ∧ sPartFull.savable 7 (big .saving) = true ∧
    sPartFull.oldestSaved 0 = some (myGang, big .saved) := by
  refine ⟨?_, by decide +kernel, by decide +kernel⟩
  have h : sPartFull.inPartition (big .saving).die = [(myGang, big .saved)] := by decide +kernel
  simp [State.saveRoom, h, big_record, partitionLines]
theorem witness_partition_full : sPartFull.partitionFull 0 = true := by
  have h : (sPartFull.gangs.any fun e => e.1 == 7 && e.2 == big .saving) = true := by decide +kernel
  obtain ⟨e, he, hq⟩ := List.any_eq_true.mp h
  simp only [Bool.and_eq_true, beq_iff_eq] at hq
  refine List.any_eq_true.mpr ⟨e, he, ?_⟩
  rw [hq.1, hq.2, witness_no_save_room.1, witness_no_save_room.2.1]
  decide
theorem witness_nothing_to_drain : (sSaved.gangs.all fun e => decide (e.2.phase ≠ .running ∧ e.2.phase ≠ .saving)) = true := by decide +kernel
theorem witness_resume_saved : (sSaved.tenant 0).saved = true ∧ (sSaved.tenant 0).resetting = false := by decide +kernel
theorem witness_resume_draining : (sDrain.tenant 0).saved = false ∧ (sDrain.tenant 0).draining = true ∧ inPhase sDrain .running (fun _ => true) = true ∧
    (sDrain.agents.all fun e => match e.2.ctl.hold with | .yielded _ => false | _ => true) = true ∧
    (sYielded.agents.any fun e => match e.2.ctl.hold with | .yielded _ => e.2.ident.gang == myGang | _ => false) = true := by decide +kernel
def sBack : State := go [execContextResume 0, execAdmissionTake 0, execReservationReply 0 0] sSaved
theorem witness_restore : replies sBack (fun a => a.restore == some myGang && a.replies.isEmpty && !a.refused && a.retryAt.isNone &&
    (sBack.savedAgents myGang).length == 1 && a.places.length == 1) = true ∧ keysRise sBack.agents = true ∧
    (sBack.savedAgents myGang).all (fun e => (e.2.ctl.stop.bind Stop.deferred).isNone) = true ∧ inPhase sBack .saved (fun _ => true) = true := by decide +kernel

def sGone : State := go [execContextReset 0] sServe
theorem witness_reset : (sServe.tenant 0).enabled = true ∧ (sServe.tenant 0).resetting = false := by decide +kernel
theorem witness_reset_complete : (sGone.tenant 0).resetting = true ∧ (sGone.agents.all fun e => e.2.flight.setOps == [] && e.2.flight.ops == []) = true ∧
    sGone.completions = [] := by decide +kernel
def sized (n : Nat) : State := State.reset.modTenant 15 fun t => (t.setReg 0x70 (BitVec.ofNat 64 n)).setReg 0x38 4096#64
theorem witness_enable : ∀ n ∈ [4, 16], ((sized n).tenant 15).enabled = false ∧ (sized n).device.verified = true ∧ ebits (((sized n).tenant 15).reg 0x70).toNat 4 0 = n := by
  decide +kernel
theorem witness_enable_refused : ebits (((sized 3).tenant 15).reg 0x70).toNat 4 0 < 4 ∧ 16 < ebits (((sized 17).tenant 15).reg 0x70).toNat 4 0 := by decide +kernel
theorem witness_disable : ((go [execContextEnable 15] (sized 4)).tenant 15).enabled = true ∧ (go [execContextEnable 15] (sized 4)).hasWork 15 = false ∧
    sServe.hasWork 0 = true := by decide +kernel

/-! ## Witnesses: answers to stops -/

def who0 : AgentName := .byPlace 0 0 0
def stopped (s : State) (p : Agent → Bool) : Bool := (s.agent? me).any fun x => s.isNamed 0 who0 x && x.ctl.stop.isSome && p x &&
  s.agents.all fun e => !(s.isNamed 0 who0 e.2 && e.2.ctl.stop.isSome) || e == (me, x)
theorem witness_stop_at_an_instruction : stopped (run [.trap g0 0#16] s1) (fun x => x.place.isSome && !x.anyFaulted && x.ctl.headRun.isSome) = true := by decide +kernel
theorem witness_stop_of_an_access : stopped (run [.pageWalk me first 0] sLost) (fun x => x.place.isSome && x.anyFaulted &&
    x.flight.ops.all fun o => !o.isFlush) = true := by decide +kernel
def byId : AgentName := .byIdentity 0 0 0
def sSavedStop : State := (run [.trap g0 0#16] s1).modAgent me fun x => { x with place := none }
theorem witness_stop_of_a_saved_agent : ((sSavedStop.agent? me).any fun x => sSavedStop.isNamed 0 byId x && x.ctl.stop.isSome && x.place.isNone) = true := by
  decide +kernel
def sHeldCopy : State := run [.copyEngineStart 0] (breaksAt 0 sCopyIn)
def sHeldTool : State := run [.toolChunk 0 1] (breaksAt 1 (run [.toolZero g0 .cbuf (.s 0) (.s 4) (.s 0) (.s 40)] s1))
def sHeldCmd : State := run [.commandStart 0 cmdId] (breaksAt 2 (run [.mswap g0 3 slot15] ready3))
theorem witness_held_commands : (match sHeldCopy.target 0 who0 with | .command _ _ (.copy c k) => sHeldCopy.copy? c k.id == some k | _ => false) = true ∧
    (match sHeldTool.target 0 who0 with | .command _ _ (.tool c k) => sHeldTool.tool? c k.id == some k | _ => false) = true ∧
    (match sHeldCmd.target 0 who0 with | .command _ _ (.cmd c k) => sHeldCmd.cmd? c k.id == some k | _ => false) = true := by decide +kernel

/-! ## Witnesses: the loader and the fuses -/

/-- A container of so many bytes with these sections after its header, and the registers of a load of it, to 0x20000. -/
def header (ver nsect svn len : Nat) : List Nat := [0x01425A4C, ver, nsect, 0, 64, 0, svn, 0, 0, 0, len, 0, 0, 0, 0, 0]
def section_ (type off len : Nat) : List Nat := [type + 0x30000, 0, off, 0, len, 0, 0, 0]
def container (len : Nat) (ws : List Nat) (ctl : Nat) : State :=
  (inMem 0x100000 ws sTables).modTenant 0 fun t => { (((((t.setReg 0xC0 0x100000#64).setReg 0xC8 (BitVec.ofNat 64 len)).setReg 0xD0 0x20000#64).setReg 0xD8
    0x300000#64).setReg 0x100 (BitVec.ofNat 64 ctl)) with load := some 0x100000001#64 }
def good1 : List Nat := header 0x20000 1 0 104 ++ section_ 0 96 8 ++ [0x11, 0x22]
def loads (s : State) (p : LzbHeader → List LzbSection → List Byte → Bool) : Bool :=
  let len := ((s.tenant 0).reg 0xC8).toNat
  let b := s.physBytes 0x100000 len
  (s.tenant 0).load.isSome && !s.loadWaits 0 len 1 && (lzbParse b len).any fun e => p e.1 e.2 b
theorem witness_load_start : (1#64).getLsbD 0 = true ∧ (s1.tenant 15).load = none ∧ s1.device.verified = true ∧
    ((go [execLoadStart 15 1#64] s1).tenant 15).load ≠ none ∧ (go [execDeviceReset []] s1).device.verified = false := by decide +kernel
theorem witness_load_malformed : lzbParse ((container 96 good1 0).physBytes 0x100000 96) 96 = none := by decide +kernel
def sCopyOwns : State := run [.copyOut g0 true qual0 (.s 8) (.s 0) (.s 4) (.s 40)] s1
theorem witness_load_waits : (let s : State := container 104 good1 0
    { s with cores := sCopyOwns.cores, agents := sCopyOwns.agents, gangs := sCopyOwns.gangs }.physOwned 0x2000 64) = true := by decide +kernel
theorem witness_load_version : loads (container 104 (header 0x20004 1 0 104 ++ section_ 0 96 8) 0) (fun h _ _ => decide (3 < h.minor)) = true := by decide +kernel
theorem witness_load_old : (let s : State := container 104 good1 0
    loads { s with device := { s.device with fuses := 64 } } fun h _ _ => decide (h.major = 2 ∧ h.minor ≤ 3 ∧ h.svn < 64)) = true := by decide +kernel
def sLoads : State := container 104 good1 0
theorem witness_load_unsigned : loads (container 104 good1 16) (fun h _ b => !((container 104 good1 16).tenant 0).signatureOk b h) = true ∧
    loads sLoads (fun h _ b => (sLoads.tenant 0).signatureOk b h) = true := by decide +kernel
def sNeeds : State := container 112 (header 0x20000 1 0 112 ++ section_ 3 96 16 ++ [0x0100FFFF, 0, 0, 0]) 0
theorem witness_load_capabilities : loads sNeeds (fun _ qs b => !capsMet sNeeds.device (sNeeds.tenant 0) qs b) = true := by decide +kernel
def sPatched : State := container 152 (header 0x20000 2 0 152 ++ section_ 0 128 8 ++ section_ 2 136 16 ++ [0, 0, 8, 0, 1, 0]) 0
def bodies (s : State) (h : LzbHeader) (qs : List LzbSection) (b : List Byte) (p : List (List Byte) → Bool) : Bool :=
  capsMet s.device (s.tenant 0) qs b && (match translated s.device h qs b with | (_, .inr l) => p l | _ => false)
theorem witness_load_relocation : loads sPatched (fun h qs b => bodies sPatched h qs b fun l => !relocsOk qs b l) = true := by decide +kernel
theorem witness_load_pages : loads sLoads (fun h qs b => bodies sLoads h qs b fun l => relocsOk qs b l && (l.map fun e => pagesOf e.length).sum == 1) = true := by
  decide +kernel
theorem witness_load_written : loads sLoads (fun h qs b => bodies sLoads h qs b fun l => (sLoads.writeBodies 0
    (((placeSections l 0x20000).zip l).zipIdx.map fun e => (e.1.1, relocated qs b (placeSections l 0x20000) e.2 e.1.2))).isSome) = true := by decide +kernel
theorem witness_load_not_written : (sLoads.writeBodies 0 [(2 ^ 40, [0#8])]).isNone = true := by decide +kernel
-- a section whose IR no translator takes, or whose kept translation has no signature
def sIr : State := container 104 (header 0x20000 1 0 104 ++ section_ 5 96 8 ++ [0x11, 0x22]) 0
theorem witness_load_ir : loads sIr (fun _ qs b => capsMet sIr.device (sIr.tenant 0) qs b && qs.any fun q => q.type == 5) = true := by decide +kernel
theorem witness_translation_without_a_signature : (⟨0#512, 1, 0, [], []⟩ : Translation).valid = false := rfl
/-- A translation that the device has signed, kept under the digest of its section. -/
theorem witness_translation_kept (svn : Nat) (ir code : List Byte) (h : (Translation.sign (sha512 ir) 1 svn code).valid = true) :
    ∃ d : Device, ∃ e ∈ d.transl, e.digest = sha512 ir ∧ e.version = d.translator ∧ e.valid = true :=
  ⟨{ Device.reset with transl := [Translation.sign (sha512 ir) 1 svn code] }, _, List.mem_cons_self, rfl, rfl, h⟩

/-! ## Witnesses: modules -/

/-- Two blocks: the first adds in a convergence region and branches to itself or on. -/
def irAdd (d a b : Nat) : IrStmt := .op (.vaddT g0 .n32 (.v d) (.v a) (.v b)) [(.v d, .int .n32)]
def irOne (body : List IrStmt) (last : IrEnd) : IrFunc := ⟨true, [⟨[(.v 0, .int .n32)], [], .jump 1 [.v 0]⟩, ⟨[(.v 1, .int .n32)], body, last⟩]⟩
def irGood : IrFunc := irOne [.enter, irAdd 2 1 1, .leave] .ends
theorem witness_module_valid : ∀ b ∈ [0, 1], ∀ k, irGood.blocks[b]? = some k → irGood.once k.params = true ∧ irGood.endOk b k = true ∧
    ∀ n ∈ List.range 3, ∀ q, k.body[n]? = some q → irGood.stmtOk b n q = true := by
  intro b hb k hk
  fin_cases hb <;> (simp [irGood, irOne] at hk; subst hk; decide +kernel)
-- a value that no path has defined, one of another type, one defined twice, a definition of another type, an end in a region, a
-- region left that none entered, a value too few
theorem witness_module_faults : (irOne [irAdd 2 1 9] .ends).stmtOk 1 0 (irAdd 2 1 9) = false ∧
    (let q : IrStmt := .op (.vaddT g0 .n64 (.v 2) (.v 1) (.v 1)) [(.v 2, .int .n64)]
     (irOne [q] .ends).stmtOk 1 0 q = false) ∧
    (irOne [irAdd 1 1 1] .ends).stmtOk 1 0 (irAdd 1 1 1) = false ∧
    (let q : IrStmt := .op (.vaddT g0 .n32 (.v 2) (.v 1) (.v 1)) [(.v 2, .flt .f32)]
     (irOne [q] .ends).stmtOk 1 0 q = false) ∧
    (irOne [.enter] .ends).endOk 1 ⟨[(.v 1, .int .n32)], [.enter], .ends⟩ = false ∧
    (irOne [.leave] .ends).stmtOk 1 0 .leave = false ∧ (irOne [] (.jump 1 [])).endOk 1 ⟨[(.v 1, .int .n32)], [], .jump 1 []⟩ = false := by decide +kernel
theorem witness_regions : irGood.regionsAt 1 1 = some [(1, 0)] ∧ irGood.reached 1 = true ∧
    regionsAfter 1 16 (List.replicate 15 (1, 0)) .enter ≠ none ∧ regionsAfter 1 16 (List.replicate 16 (1, 0)) .enter = none := by decide +kernel
theorem witness_crossing : irCrosses (.barArrive g0 0) = true ∧ (irOne [.enter, .op (.barArrive g0 0) [], .leave] .ends).reached 1 = true ∧
    (irOne [.enter, .op (.barArrive g0 0) [], .leave] .ends).stmtOk 1 1 (.op (.barArrive g0 0) []) = true ∧
    (irOne [.op (.barArrive g0 0) []] .ends).stmtOk 1 0 (.op (.barArrive g0 0) []) = false := by decide +kernel
theorem test_entry_header : Header.ofWords (leVal ((headerBytes fun _ => 0).take 4)) (leVal (((headerBytes fun _ => 0).drop 4).take 4))
    (leVal (((headerBytes fun _ => 0).drop 8).take 4)) (leVal ((headerBytes fun _ => 0).drop 12)) = some ⟨0, 0, 0, 1, 0, 0, 0, 0, 0⟩ := by decide +kernel

theorem witness_fuse : (0x8000000000000001#64).getLsbD 63 = true ∧ (0x8000000000000001#64).toNat % 128 = s1.device.fuses + 1 ∧ s1.device.fuseBusy = false ∧
    (go [execFuseCmd 0x8000000000000001#64] s1).device.fuseBusy = true ∧ (0x8000000000000003#64).toNat % 128 ≠ s1.device.fuses + 1 := by decide +kernel

/-! ## Witnesses: the host, the device, outside accesses -/

def sInv : State := go [execTlbInv 0 0x2000 1] s1
theorem witness_invalidation : (sInv.tenant 0).invs = [(0x2000, 1)] ∧ (sInv.agents.all fun e => e.2.flight.ops.isEmpty) = true := by decide +kernel
theorem witness_lanes_change : kget s1.device.sliBusy 7 = none ∧ kget (go [execSliCfgWrite 7 1#64] s1).device.sliBusy 7 = some 1 := by decide +kernel
theorem witness_power : 939 < s1.device.clock 3 := by decide +kernel
theorem witness_host_line : hostLine (2 ^ 80) = some (0, 0) := by decide +kernel
theorem witness_attestation : (go [execAttestationStart] s1).device.attBusy = true := by decide +kernel
theorem witness_report_place : (s1.device.reg 0x540).toNat / 64 * 64 = 0 := by decide +kernel
theorem witness_register : 0xFFF8 ∉ [0, 0x8, 0x18, 0x88, 0xE0] ∧ 0xFFF8 % 8 = 0 ∧ 0x4FFF8 < 0x50000 := by decide
theorem witness_reset_by_register : (sServe.tenant 0).enabled = true ∧ ((sServe.tenant 0).reg 0).getLsbD 1 = false := by decide +kernel

theorem witness_outside : ∀ acc ∈ [PeerAcc.read 8, .write [1#8, 2#8], .atomic .add .n32 1#64 0#64], (PeerAcc.width acc ≤ 8) ∧
    ∀ i, i < PeerAcc.width acc → devKey (0x2000 + i) = some (0x2000 + i) ∧ sServe.ownedLine .any (0x2000 + i) = false := by decide +kernel
def sWindow : State := { s1 with device := ((s1.device.setReg 0x1000 0x2000#64).setReg 0x1008 0x3000#64).setReg 0x1010 0x8000000000030007#64 }
theorem witness_peer : sWindow.device.admits 7 0x2FF8 (.read 8) = true ∧ sWindow.device.admits 7 0x2FFC (.read 8) = false := by decide +kernel
def sOnLink : State := run [.ld g0 .w32 .relaxed .core (.v 4) (.s 8) qual0 0, .pageWalk me first 0] sPeer
theorem witness_link_load : ((sOnLink.op? me first).any fun e => e.2.2.isLoad && (e.2.2.lanes.find? fun l => l.lane == 31 && l.onLink).isSome &&
    e.2.2.lanes.any fun q => q.lane != 31 && q.st.isReady) = true := by decide +kernel
def sCopyLink : State := run [.copyOut g0 true qual0 (.s 8) (.s 0) (.s 4) (.s 40), .copyEngineStart 0] sPeer
theorem witness_link_copy : (sCopyLink.copy? 0 1).any (fun k => k.agent == me && k.engine.isSome && sCopyLink.copyOnLink 0 k) = true := by decide +kernel
theorem witness_errors : ∀ e ∈ [ErrSite.memory 0, .buffer myGang 0 .abuf 0, .vector me 1535 31, .scalar me 255, .sram (.other 12) 0], (s1.errUnit e).isSome = true := by
  decide +kernel
def sStruck : State := { sCachedLoad with l2 := kput sCachedLoad.l2 64 { L2Line.absent with valid := 0xFF#8 } }.modCore 0 fun c => { c with ways := 1 }
theorem witness_errors_in_caches : ∀ e ∈ [ErrSite.l2 512, .l1 0 256, .ways 0 511, .sram (.icache 0 1) 0, .sram (.dieTlb 3) 0], (sStruck.errUnit e).isSome = true := by
  decide +kernel
theorem witness_no_error_site : s1.errUnit (.l2 512) = none ∧ s1.errUnit (.ways 0 511) = none := by decide +kernel
/-- A completion word on another device. -/
def sFarDone : State := completes done0 ((leaf sServe).modDie 0 fun d => { d with tlb := d.tlb.map fun e => { e with tier := 3 } })
theorem witness_link_completion : (match (sFarDone.translateDie 0 0 done0.addr .write).2 with | .ok x => x.tier == 3 | .fault _ => false) = true ∧
    done0.count = false ∧ done0.irq = true := by decide +kernel

/-! ## Witnesses: registers -/

theorem witness_device_number_held : (∃ e ∈ sServe.tenants, e.2.enabled = true) ∧ (∀ e ∈ State.reset.tenants, e.2.enabled = false) := by decide +kernel
theorem witness_context_control : ((1#64).getLsbD 0 = true ∧ ((sized 3).tenant 15).enabled = false) ∧
    ((sServe.tenant 0).enabled = true ∧ sServe.hasWork 0 = true ∧ (0#64).getLsbD 0 = false) ∧
    ((1#64).getLsbD 0 = (sServe.tenant 0).enabled) ∧ ((0#64).getLsbD 0 = false ∧ (go [execContextEnable 15] (sized 4)).hasWork 15 = false) := by decide +kernel
theorem witness_missed_counters : 0x10000 ≤ 0x4FFF8 ∧ 0x4FFF8 < 0x50000 ∧ 0x4FFF8 % 8 = 0 := by decide

/-! ## Witnesses: decoding, the step, invariants -/

theorem witness_encoded : (Instr.fdefer g0 (.s 8) (.s 4) (.s 0)).wf = true ∧ assigned (Instr.fdefer g0 (.s 8) (.s 4) (.s 0)) ∧
    (Instr.callDirect ⟨some 23, true⟩ 256 (-2147483648) 2147483647).wf = true ∧ assigned (Instr.callDirect ⟨some 23, true⟩ 256 (-2147483648) 2147483647) :=
  ⟨by decide, fun _ _ => by simp, by decide, fun _ _ => by simp⟩
theorem witness_decoded : assigned (decodeWords 0x33C3E00000000000#64 0#64) ∧ ¬ assigned (decodeWords 0xE003E00000000000#64 0#64) := by
  have h : decodeWords 0x33C3E00000000000#64 0#64 = .nop g0 := by decide
  have k : decodeWords 0xE003E00000000000#64 0#64 = .unassignedWord 0xE003E00000000000#64 0#64 := by decide
  rw [h, k]
  exact ⟨fun _ _ => by simp, fun f => f _ _ rfl⟩
theorem witness_unassigned_guard : 24 ≤ (24#5).toNat ∧ (30#5).toNat ≤ 30 := by decide

/-- A warp placed at a `nop`, and the step that runs it. -/
def sNop : State := State.reset.withFetchWord 64 0x33C3E00000000000
def atPc (s : State) (p : Agent → DWord → Bool) : Bool := (s.agent? me).any fun x => s.cur == some me && x.place.isSome &&
  x.ctl.headRun.any fun e => s.canIssue x && s.boundary me x == none && !s.breakAt x e.1 && p x e.1
def fetched (s : State) (t : Nat) (pc : DWord) : Fetch := (s.fetch ⟨0, 0, 0⟩ t pc).2
theorem witness_turn : atPc sNop (fun x pc => !x.timerDue sNop.time && (match fetched sNop x.ident.tenant pc with | .got i => i == .nop g0 | _ => false) &&
    (match exec (.nop g0) sNop with | .next _ => true | _ => false)) = true := by decide +kernel
/-- The same with a TIMER that has just come due, in a handler. -/
def sDue : State := { my (Agent.mapSys fun y => { y with tcmp := 5#64, tcause := 0x40#32 }) sNop with time := 5 }
theorem witness_turn_with_a_timer : (sDue.agent? me).any (fun x => x.timerDue 5 && (x.ctl.headRun.any fun e =>
    let y := { x with sys := { x.sys with causes := x.sys.causes ++ [.timer] } }
    sDue.canIssue y && (sDue.setAgent me y).boundary me y == none && !(sDue.setAgent me y).breakAt y e.1 &&
      (match fetched (sDue.setAgent me y) y.ident.tenant e.1 with | .got i => i == .nop g0 | _ => false))) = true := by decide +kernel
theorem test_pipe_times : [Instr.vrcp g0 .rne (.v 6) (.v 4), .vaddF g0 .f64 .rne (.v 6) (.v 4) (.v 4), .vaddT g0 .n64 (.v 6) (.v 4) (.v 4), .vaddF g0 .f32 .rne (.v 6)
    (.v 4) (.v 4)].map pipeTime = [4, 4, 4, 1] := by decide
theorem witness_turn_at_an_unbacked_line : (match exec (.l1Fill 0 (2 ^ 60) 0) sNop with | .next _ => true | .fault _ => true | .refused _ => true) = true := by
  decide +kernel
theorem witness_fetch : (match sNop.translateFor (reqOf ⟨0, 0, 0⟩) 0 0 (BitVec.ofNat 64 placedPc) .fetch, sNop.translateFor (reqOf ⟨0, 0, 0⟩) 0 0 (BitVec.ofNat 64 placedPc + 8#64) .fetch with
    | (_, .ok x), (_, .ok y) => y.key == x.key + 8 && decide (x.key % 128 + 16 ≤ 128) && (kget (sNop.core 0).icache (iKey 0 (x.key / 128))).any fun l =>
      match decodeBytes ((leBytes 128 l.toNat).drop (x.key % 128)) with | .ok (i, _) => i == .nop g0 | _ => false
    | _, _ => false) = true := by decide +kernel
theorem witness_fetch_leaves_the_state : (sNop.translateFor (reqOf ⟨0, 0, 0⟩) 0 0 (BitVec.ofNat 64 placedPc) .fetch).1 = sNop ∧
    (sNop.translateFor (reqOf ⟨0, 0, 0⟩) 0 0 (BitVec.ofNat 64 placedPc + 8#64) .fetch).1 = sNop := ⟨rfl, rfl⟩
theorem witness_invariants : Memory.wf sNop.mem = true ∧ fusesWf sNop ∧ (match step sNop with | .next _ => true | _ => false) = true := by
  unfold fusesWf; decide +kernel
theorem witness_registers_outside_an_allotment : regsWf sNop := by
  intro e he
  have h : (sNop.agents.all fun e => e.2.regs.v == [] && e.2.regs.vMark == [] && e.2.flight.pend == []) = true := by decide +kernel
  have k := List.all_eq_true.mp h e he
  simp only [Bool.and_eq_true, beq_iff_eq] at k
  refine ⟨fun n l _ => ?_, fun n id hn => ?_⟩
  · simp [Regs.vlane, k.1.1, k.1.2, kgetD, kget]
  · rw [k.2] at hn; cases hn
theorem witness_fuse_busy : fusesWf { State.reset with device := { State.reset.device with fuses := 63, fuseBusy := true } } := by unfold fusesWf; decide
/-- A task whose gang has 64 barriers, and one whose gang has none. -/
def sNoBars : State := sTask.modGang myGang fun g => { g with header := { g.header with bars := 0 } }
theorem witness_task_barriers : ∀ i ∈ [Instr.barInit g0 0 (.s 4), .barArrive g0 0, .barWait g0 0, .barStatus g0 0 (.s 4)], issuesB i sTask (fun F c =>
      checkUses c.ag.regs.alloc F.us == none && c.ag.task && decide (0 < c.header.bars)) = true ∧
    issuesB i sNoBars (fun F c => checkUses c.ag.regs.alloc F.us == none && c.ag.task && decide (c.header.bars ≤ 0)) = true := by decide +kernel

/-! ## Decoding and single steps, with results worked out from the manual

The words and the results of the first group are those of the manual's walk-through of encodings; of DP8, codebooks, scales
and the tree, those of its notes on numbers; of tiers, channels and walks, those of its notes on memory. The others are worked
out by hand from the rules named. -/

theorem test_decode_inline_constant : decodeWords 0x0203E00A01318000 0 = .vmulF g0 .f32 .rne (.v 5) (.v 4) (.k 48) := by decide
theorem test_decode_negated_guard : decodeWords 0x0200300A01318000 0 = .vmulF ⟨some 1, true⟩ .f32 .rne (.v 5) (.v 4) (.k 48) := by decide
theorem test_decode_broadcast : decodeWords 0x0003E00C01724000 0 = .vaddF g0 .f32 .rne (.v 6) (.v 5) (.s 8) := by decide
theorem test_decode_immediate : decodeWords 0xC003ECBA00000000 0xFF = .sli g0 (.s 29) 0xFF#32 ∧
    decodeWords 0xC003ECBA00000000 0x1000000FF = .unassignedWord 0xC003ECBA00000000 0x1000000FF := by decide
theorem test_decode_word_1_as_word_0 : decodeWords 0xFF 0 = .unassignedWord 0xFF 0 := by decide
theorem test_decode_identity_operand : decodeWords 0x1217E00C017AE000 0 = .vaddT g0 .i32 (.v 6) (.v 5) (.ident 4) := by decide

/-- Lane l of a vector register, a scalar register, the code of the stop, after an instruction. -/
def vAt (s : State) (r l : Nat) : Word := ((s.agent? me).map fun x => x.regs.vlane r l).getD 0#32
def sAt (s : State) (r : Nat) : Word := ((s.agent? me).map fun x => x.regs.sreg r).getD 0#32
def pAt (s : State) (r : Nat) : Lanes := ((s.agent? me).map fun x => x.regs.pred r).getD 0#32
def flags (s : State) : Word := ((s.agent? me).map fun x => x.sys.fpflags).getD 0#32
def pcAt (s : State) (l : Nat) : DWord := ((s.agent? me).map fun x => x.ctl.pc l).getD 0#64
def stopCode (s : State) : Option Nat := (s.agent? me).bind fun x => x.ctl.stop.map Stop.code
/-- Vector registers with one value in every lane. -/
def vecs (l : List (Nat × Nat)) : State :=
  my (Agent.mapRegs fun r => l.foldl (fun r e => r.setV e.1 every (fun _ => BitVec.ofNat 32 e.2) 0#32) r) s1
def does (i : Instr) (l : List (Nat × Nat)) : Word := vAt (run [i] (vecs l)) 6 31

-- R150, R152: an identity in a floating operation raises ILLOP, and does so before an allotment is looked at (R35)
theorem test_illop : stopCode (run [decodeWords 0x0003E00C017AE000 0] s1) = some 5 := by decide +kernel
theorem test_regb : stopCode (run [.vmov g0 .n32 (.v 300) (.v 0)] (my (Agent.mapRegs fun r => { r with alloc := 256 }) s1)) = some 6 := by decide +kernel
theorem test_unassigned_word : stopCode (run [.unassignedWord 0xFF 0] s1) = some 4 := by decide +kernel

-- R167: an exact cancelling sum is +0, and -0 under RDN; one rounding in a fused multiply and add; infinity times zero
theorem test_vadd_cancels : does (.vaddF g0 .f32 .rne (.v 6) (.v 4) (.v 5)) [(4, 0x3F800000), (5, 0xBF800000)] = 0#32 ∧
    does (.vaddF g0 .f32 .rdn (.v 6) (.v 4) (.v 5)) [(4, 0x3F800000), (5, 0xBF800000)] = 0x80000000#32 := by decide +kernel
theorem test_vfma_rounds_once :
    does (.vfmaF g0 .f32 .rne (.v 6) (.v 4) (.v 4) (.v 5)) [(4, 0x3F800001), (5, 0xBF800002)] = 0x28800000#32 := by decide +kernel
theorem test_vmul_invalid : does (.vmulF g0 .f32 .rne (.v 6) (.v 4) (.v 5)) [(4, 0x7F800000), (5, 0)] = 0x7FC00000#32 := by decide +kernel
theorem test_overflow_flags : flags (run [.vaddF g0 .f32 .rne (.v 6) (.v 4) (.v 4)] (vecs [(4, 0x7F7FFFFF)])) = 5#32 ∧
    flags (run [.vmulF g0 .f32 .rne (.v 6) (.v 4) (.v 5)] (vecs [(4, 0x7F800000)])) = 16#32 := by decide +kernel
-- R168, R170: -0 lies below +0; negation acts on the sign bit of a NaN too
theorem test_vmin_of_zeros : does (.vminF g0 .f32 (.v 6) (.v 4) (.v 5)) [(4, 0), (5, 0x80000000)] = 0x80000000#32 := by decide +kernel
theorem test_vneg_of_nan : does (.vnegF g0 .f32 (.v 6) (.v 4)) [(4, 0x7FC00001)] = 0xFFC00001#32 := by decide +kernel
-- R171: a NaN is unordered
theorem test_vcmp_of_nan : pAt (run [.vcmpF g0 .f32 .ne (.p 2) (.v 4) (.v 4)] (vecs [(4, 0x7FC00000)])) 2 = every ∧
    pAt (run [.vcmpF g0 .f32 .ge (.p 2) (.v 4) (.v 4)] (vecs [(4, 0x7FC00000)])) 2 = 0#32 := by decide +kernel
-- R172, R68: sums wrap; the high half of a product is signed for i types; the least number is its own magnitude
theorem test_vadd_wraps : does (.vaddT g0 .n32 (.v 6) (.v 4) (.s 2)) [(4, 0xFFFFFFFF)] = 0#32 ∧
    does (.vaddT g0 .i8 (.v 6) (.v 4) (.s 2)) [(4, 0x7F)] = 0xFFFFFF80#32 := by decide +kernel
theorem test_vmulhi : does (.vmulhi g0 .i32 (.v 6) (.v 4) (.s 6)) [(4, 0xFFFFFFFF)] = 0xFFFFFFFF#32 ∧
    does (.vmulhi g0 .n32 (.v 6) (.v 4) (.s 6)) [(4, 0xFFFFFFFF)] = 1#32 := by decide +kernel
theorem test_vabs_of_least : does (.vabsT g0 .i32 (.v 6) (.v 4)) [(4, 0x80000000)] = 0x80000000#32 := by decide +kernel
-- R175 to R177: a shift by the width or more; the count of leading zeros of 0; a signed field
theorem test_vshr_by_width : does (.vshr g0 .i32 (.v 6) (.v 4) (.v 5)) [(4, 0x80000000), (5, 32)] = 0xFFFFFFFF#32 ∧
    does (.vshr g0 .n32 (.v 6) (.v 4) (.v 5)) [(4, 0x80000000), (5, 32)] = 0#32 := by decide +kernel
theorem test_vclz_of_zero : does (.vclz g0 .n16 (.v 6) (.v 4)) [(4, 0xFFFF0000)] = 16#32 := by decide +kernel
theorem test_vbfe : does (.vbfe g0 .i32 (.v 6) (.v 4) (.v 5) (.v 5)) [(4, 0xABCD8234), (5, 8)] = 0xFFFFFF82#32 ∧
    does (.vbfe g0 .n32 (.v 6) (.v 4) (.v 5) (.v 5)) [(4, 0xABCD8234), (5, 8)] = 0x82#32 := by decide +kernel
-- R179: the reciprocal of -0 is -infinity, with DZ
theorem test_vrcp : does (.vrcp g0 .rne (.v 6) (.v 4)) [(4, 0x80000000)] = 0xFF800000#32 := by decide +kernel
-- R72, R186: a conversion that rounds to the even neighbour, 2.5 to 2
theorem test_vcvt : does (.vcvt g0 (.int .i32) (.flt .f32) .rne (.v 6) (.v 4)) [(4, 0x40200000)] = 2#32 ∧
    does (.vcvt g0 (.int .i32) (.flt .f32) .rup (.v 6) (.v 4)) [(4, 0x40200000)] = 3#32 := by decide +kernel
-- R194, R195: a sum over 32 lanes; values saturated into one register
theorem test_vredadd : does (.vredaddT g0 .n32 (.v 6) (.v 4)) [(4, 3)] = 96#32 := by decide +kernel
theorem test_vscan_exclusive : does (.vscanExcT g0 .n32 (.v 6) (.v 4)) [(4, 3)] = 93#32 := by decide +kernel
theorem test_vpack : does (.vpack g0 .i8 (.v 6) (.v 4) (.v 5) (.v 5)) [(4, 1000), (5, 0xFFFFFFFF)] = 0xFFFFFF7F#32 := by decide +kernel
-- R163: the lanes whose guard is 0 keep their values
theorem test_guard : vAt (run [.vmov ⟨some 1, false⟩ .n32 (.v 6) (.v 4)] (my (Agent.mapRegs fun r => r.setP 1 1#32 fun _ => true) (my (Agent.mapRegs fun r =>
    r.setP 1 every fun l => l == 0) (vecs [(4, 5)])))) 6 1 = 0#32 := by decide +kernel
-- R198: lput writes one lane, whether or not its guard is 1 there; the lane's number counts modulo 32
def sLane : State := sets [(50, 33)] (my (Agent.mapRegs fun r => r.setP 0 1#32 fun _ => true) s1)
theorem test_lput : vAt (run [.lput ⟨some 0, false⟩ .n32 (.v 6) (.s 4) (.s 50)] sLane) 6 1 = 64#32 ∧
    vAt (run [.lput ⟨some 0, false⟩ .n32 (.v 6) (.s 4) (.s 50)] sLane) 6 0 = 0#32 := by decide +kernel
-- R203: targets count words from the PC of the branch
theorem test_bra : pcAt (run [.bra g0 (-1)] s1) 31 = 0xFFF8#64 ∧ pcAt (run [.braNz g0 (.s 0) 4] s1) 31 = 0x10008#64 := by decide +kernel
theorem test_sli : sAt (run [.sli g0 (.s 29) 0xFF#32] s1) 29 = 0xFF#32 ∧ pcAt (run [.sli g0 (.s 29) 0xFF#32] s1) 0 = 0x10010#64 := by decide +kernel
-- R37: registers above a smaller allotment are released, and read 0 when they are granted again
theorem test_shrink : ((run [.shrink g0 32] (vecs [(1535, 7)])).agent? me).any (fun x => x.regs.alloc == 1504 && x.regs.vlane 1535 0 == 0#32) = true := by
  decide +kernel
-- R305: no handler, code 10
theorem test_trap : stopCode (run [.trap g0 9#16] s1) = some 10 := by decide +kernel
-- R91: an address that is not a multiple of the width
theorem test_misaligned : stopCode (run [.ld g0 .w64 .relaxed .core (.s 30) (.s 8) qual0 4] s1) = some 3 := by decide +kernel

/-- The 32-bit word of memory at a location. -/
def memAt (s : State) (k : Nat) : Nat := s.le k 4
-- R217, R222: byte order, and lane l of a store at its own address
theorem test_store_performs : memAt (run [.storePerform me first every] sDrained) 0x2000 = 0 ∧
    memAt (run [.storePerform me first 1#32] sScalarStore) 0x2000 = 64 := by decide +kernel
-- R224: an atomic returns the old value and stores the new one
def sAtom : State := run [.atom g0 .add .n32 .relaxed .device (.s 30) (.s 8) (.s 4), .pageWalk me first 0, .atomicPerform me first 1#32] (inMem 0x2000 [7] s1)
theorem test_atomic : sAt sAtom 30 = 7#32 ∧ memAt sAtom 0x2000 = 71 := by decide +kernel
theorem test_load : vAt (run [.loadReturn me first every] (inMem 0x2000 [0x80, 2, 3, 4] sHome)) 4 0 = 0x80#32 := by decide +kernel

-- DP8 bytes, in units of 2^-6, and products (R74)
theorem test_dp8_weights : [0x00#8, 0x06#8, 0x1B#8, 0xF1#8, 0x19#8].map dp8Units = [128, 65, 24, 32, 0] := by decide
theorem test_dp8_products : dp8Product .f32 0x3F800001#64 0x06#8 = 0x3F820001#64 ∧ dp8Product .f32 0x80000000#64 0x1B#8 = 0x80000000#64 ∧
    dp8Product .f32 0x80000000#64 0x19#8 = 0#64 ∧ dp8Product .f32 0x7F800000#64 0x1B#8 = 0x7F800000#64 ∧
    dp8Product .f32 0xFF800000#64 0x19#8 = 0x7FC00000#64 ∧ dp8Product .f32 0x40400000#64 0x19#8 = 0#64 := by decide +kernel
-- CB3 indices (R75)
theorem test_codebook_indices : [9, 10, 11, 20, 21, 22].map (fun i => codeIndex 3 i fun w => [0xC0000000#32, 0x80000001#32, 2#32].getD w 0#32) =
    [0, 7, 0, 0, 5, 0] := by decide
-- scales of 1.5 and of minus infinity (R77)
theorem test_scales : [0x00#8, 0xFD#8, 0x80#8].map (fun x => (applySx8 .f32 .f32 .rne x 0x3FC00000#64).1) = [0x3FC00000#64, 0x3E400000#64, 0#64] ∧
    (applySx8 .f32 .f32 .rne 0x80#8 0xFF800000#64).1 = 0x7FC00000#64 := by decide +kernel
-- the chunk of leaves 1, 2^-24, 2^-24, 0, …: its root is 1, and 2 + 1 = 3 (R80)
theorem test_tree : treeRoot add32 6 ((List.range 64).map fun i => some (if i = 0 then 0x3F800000#64 else if i ≤ 2 then 0x33800000#64 else 0#64)) =
    some 0x3F800000#64 ∧ add32 0x40000000#64 0x3F800000#64 = 0x40400000#64 := by decide +kernel

-- the striped address of the walk-through and the home slices of both parts (R21, R90)
theorem test_interleave : dieLocal (2 ^ 39 + 0x10000) = 0x2000 ∧ homeSlice 0x401234FFC0 = 17 ∧ homeSlice 0x2000 = 1 ∧ homeDie 0x401234FFC0 = 2 := by decide
-- the order in which a channel serves the six requests of the walk-through (R104)
def reqs : List HbmReq := [{ req0 with id := 6, cls := 3, deadline := none }, { req0 with id := 5, cls := 2, deadline := some 19384 },
  { req0 with id := 1, cls := 1, deadline := some 9086 }, { req0 with id := 3, cls := 1, deadline := some 6034 },
  { req0 with id := 2, cls := 1, deadline := some 6024 }, { req0 with id := 4, cls := 0, deadline := some 6136 }]
def served : Nat → List HbmReq → List Nat
  | 0, _ => []
  | n + 1, l => match pickReq l with | none => [] | some r => r.id :: served n (l.filter fun q => q.id != r.id)
theorem test_channel_order : served 6 reqs = [4, 2, 3, 1, 5, 6] := by decide
-- the mixer, and the walk's hop from vertex 12 to vertex 55 (R108, R109)
theorem test_mixer : mixer 0#32 0#32 = 0#32 ∧ mixer 0#32 1#32 = 0x92CA2F0E#32 := by decide
theorem test_sample_hop : (match State.hop (inMem 0x4000 [7, 30, 41, 2, 55] (inMem 0x20C0 [0x4000, 0, 5, 0] s1)) 0 0
      ⟨1, 2, 4, every, 0x2000#64, 0#32, [], [], 0#32, (none, false), false, false, false, 0#64, 0, false⟩ ⟨0, 0x20C0#64, 0#32, 3, 1, none⟩ with
    | .go q _ => q == 0x2370#64 | _ => false) = true := by decide +kernel

-- sets: 5 is a member, 6 is not (R279)
def keyed : State := my (Agent.mapRegs fun r => r.setV 4 every (fun l => if l = 0 then 5#32 else 6#32) 0#32) sTable1
theorem test_set_has : pAt (run [.setHas g0 (.p 2) (.s 2) (.v 4), .setEngineOperation me first] keyed) 2 = 1#32 := by decide +kernel
theorem test_set_card : sAt (run [.setCard g0 (.s 30) (.s 2), .setEngineOperation me first] sTable1) 30 = 2#32 := by decide +kernel
-- R291: the arrival that completes a phase; phases wrap at 2^16
theorem test_barrier_completes : ((run [.barrierArrival myGang 0] (sMsg 1 (.orArrive 4#32))).gang? myGang).any (fun g => (g.barrier 63).phase == 0 &&
    (g.barrier 63).status == 5#32 && g.flips == [(0, 63)]) = true := by decide +kernel
-- R57: the yield deadline of priority 1 is 188,000 clocks from the request
theorem test_yield_deadline : ((go [execPreemptRequest 0] (sServe.modGang myGang fun g => { g with prio := 1 } )).gang? myGang).any (fun g =>
    g.deadline == some (sServe.time + 188000)) = true := by decide +kernel
-- R337: the digest of no bytes, whose last 64 bits FIPS 180-4's algorithm makes 0xA538327AF927DA3E
theorem test_sha512 : (sha512 []).setWidth 64 = 0xA538327AF927DA3E#64 := by decide +kernel
-- R337: a signature of zeros never verifies; the base point lies on the curve
theorem test_signature : verifies 0#512 (List.replicate 132 0#8) (beBytes 66 1 ++ beBytes 66 1) = false ∧
    (curveG.any fun p => onCurve p.1 p.2) = true := by decide +kernel

/-! ## Witnesses: prefetches, words of `nop` -/

theorem witness_prefetch_fills : Meets (.pref g0 (.s 8) ⟨0, false⟩ 0) s1 (fun _ c => decide (c.st.requestsHeld c.ag.core < 4096) &&
      (kget (c.st.core c.ag.core).l1 (0x2000 / 64)).isNone && decide (0 < (c.st.core c.ag.core).cacheWays)) ∧
    Mapped s1 0 0 0x2000#64 .read (home 0x2000) ∧ (home 0x2000).inL1 = true ∧
    (after (exec (.pref g0 (.s 8) ⟨0, false⟩ 0) s1)).lineHeld 0 .any (0x2000 / 64) = false :=
  ⟨meets_of (by decide +kernel), mapped_of (by decide) (by decide +kernel), by decide, by decide +kernel⟩
theorem witness_ipref_fills : Meets (.ipref g0 (.s 8) 0) s1 (fun _ c => decide (c.st.requestsHeld c.ag.core < 4096) &&
      (kget (c.st.core c.place.core).icache (iKey c.place.part (0x2000 / 128))).isNone) ∧
    Mapped s1 0 0 0x2000#64 .fetch (home 0x2000) ∧ (home 0x2000).tier ≠ 3 :=
  ⟨meets_of (by decide +kernel), mapped_of (by decide) (by decide +kernel), by decide⟩
-- a page below 2^57 that no table maps
theorem witness_prefetch_refused : ∀ i ∈ [Instr.pref g0 (.s 8) ⟨0, false⟩ 0, .ipref g0 (.s 8) 0], Meets i (sets [(9, 1)] s1) (fun _ c =>
    let u := withAgent c { c.ag with ctl := { c.ag.ctl with pcs := c.ag.ctl.pcs } }
    [Want.read, Want.fetch].all fun w => match (u.translate c.ag.core c.ag.ident.tenant (c.rd true (.s 8) 0 + BitVec.ofInt 64 0) w).2 with
      | .fault _ => true | _ => false) := all_meet (by decide +kernel)
/-- An engine owns the line that `ipref` asks for. -/
def sIprefHeld : State := owning 0x2000 s1
theorem witness_ipref_waits : ((sIprefHeld.translate 0 0 0x2000#64 .fetch).2 = .ok (home 0x2000)) ∧
    (((after (exec (.ipref g0 (.s 8) 0) sIprefHeld)).agent? me).any fun x => x.ctl.stall) = true := by decide +kernel
theorem test_nop_words : ∀ pred ∈ [0#5, 23#5, 31#5], decodeWords (word0 1 0x4F 0 pred 0 0 0 0 0) 0 =
      .nop ⟨if pred.toNat < 24 then some pred.toNat else none, false⟩ ∧
    decodeWords (word0 1 0x4F 0 pred 0 0 1 0 0) 0 = .unassignedWord (word0 1 0x4F 0 pred 0 0 1 0 0) 0 := by decide
theorem witness_nop_guard : issuesB (.nop ⟨some 1, true⟩) s1 (fun F c => F.g == ⟨some 1, true⟩ && !pending c.ag.flight (guardUses F.g)) = true := by
  decide +kernel

/-! ## Witnesses: which agent issues -/

/-- Two warps of the partition that may issue, to one pipe; the older is the lower. -/
def sPair : State := { s1.setAgent 3 { placedAgent myGang with place := some ⟨0, 0, 1⟩, ident := { (placedAgent myGang).ident with born := 7 } } with
  cur := none, agenda := [] }
theorem witness_issuer : (sPair.nextIssuer.any fun e => e.1 == me) = true ∧ sPair.cur = none ∧ sPair.agenda = [] ∧ sPair.device.sliBusy = [] ∧
    (firstChange sPair (dueSteps sPair)).isNone = true ∧ (sPair.agents.all fun e => sPair.mayIssue e.1 e.2) = true := by decide +kernel
theorem witness_no_issuer : (my (Agent.mapCtl fun c => { c with parked := every }) s1).nextIssuer = none := by decide +kernel
theorem witness_turns_of_the_agenda :
    (let s : State := { sPair with agenda := [.turn me, .turn 3] }
     (s.agent? me).any fun x => { s with agenda := [.turn 3] }.mayIssue me x && { s with agenda := [.turn 3] }.firstForPipe me x) = true ∧
    (let s : State := { sPair with agenda := [.turn 3] }
     (s.agent? 3).any fun x => { s with agenda := [] }.mayIssue 3 x && !{ s with agenda := [] }.firstForPipe 3 x) = true := by decide +kernel
theorem witness_first_for_its_pipe : (match sPair.agent? me, sPair.agent? 3 with
    | some x, some y => sPair.firstForPipe me x && sPair.mayIssue 3 y && x.place.isSome && y.place.isSome && x.ctl.headRun.isSome &&
        (match x.place, x.ctl.headRun, y.place, y.ctl.headRun with
          | some p, some (pc, _), some q, some (qc, _) => q.core == p.core && q.part == p.part && sPair.pipeFor q y qc == sPair.pipeFor p x pc
          | _, _, _, _ => false)
    | _, _ => false) = true := by decide +kernel
def aStop (recorded : Bool) : Stop := ⟨3, 0x10000#64, 0x2001#64, false, false, 0, none, 0, recorded, none⟩
theorem witness_swap_of_a_stopped_warp : swapOf (sTwoOf fun c => { c with stop := some (aStop true) })
      (fun x => x.ctl.stop.isSome) = true ∧
    swapOf (sTwoOf fun c => { c with hold := .fdefer 0#64 0#32 0#32 true true }) (fun x => x.ctl.hold == .fdefer 0#64 0#32 0#32 true true) = true := by
  decide +kernel

/-! ## Witnesses: answers to held walks, set instructions and commands -/

def sHeldWalk : State := run [.chaseHop me first 0] (breaksAt 7 sWalk)
def sHeldSet : State := run [.setEngineOperation me first] (breaksAt 6 (sSet (.setCard g0 (.s 30) (.s 2))))
theorem witness_held_walk : (match sHeldWalk.target 0 who0 with
    | .command a x (.chase o) => sHeldWalk.agent? a == some x && o.held | _ => false) = true := by decide +kernel
theorem witness_held_set : (match sHeldSet.target 0 who0 with
    | .command a x (.setOp o) => sHeldSet.agent? a == some x && o.held | _ => false) = true := by decide +kernel
/-- The command of `sHeldCmd` heads its slot; one without a slot. -/
def sHeldPlain : State := run [.commandStart 0 cmdId] (breaksAt 2 (run [.mswap g0 3 CmdFrame.none] ready3))
theorem witness_skipped_command : (match sHeldCmd.target 0 who0 with
    | .command _ _ (.cmd c k) => k.frame.ss == some 15 && k.frame.bar.isSome && (sHeldCmd.gang? k.gang).isSome &&
        (sHeldCmd.core c).cmds.filter (fun i => decide (i.id = k.id)) == [k] &&
        (sHeldCmd.core c).cmds.all (fun i => i.gang != k.gang || i.pos != k.pos || i.frame.ss != some 15 || i.id == k.id)
    | _ => false) = true ∧
    (match sHeldPlain.target 0 who0 with
      | .command _ _ (.cmd _ k) => k.frame.ss == none && k.kind == .mswap 3
      | _ => false) = true := by decide +kernel

/-! ## Witnesses: sets -/

def opOf (s : State) : Option SetOp := (s.agent? me).bind fun x => x.flight.setOps.head?
/-- `set.new` with a free entry, with none, with the header or the entry marked, and with no room. -/
def newIn (s : State) (p : Nat → Bool) : Bool := (opOf (run [.setNew g0 (.s 30)] s)).any fun o =>
  let u := run [.setNew g0 (.s 30)] s
  let a := u.entryAddr 0 (u.setWord 0 (u.entryAddr 0 0))
  !u.setHeld (.issued o.stamp) 0 (u.entryAddr 0 0) 8 && !u.setHeld (.issued o.stamp) 0 a 8 && p (u.setWord 0 (u.entryAddr 0 0))
theorem witness_set_new : newIn sTable1 (fun f => f == 2) = true ∧ newIn (inDev 0x8000 [0] sTable1) (fun f => f == 0) = true ∧
    (heapTake 32 (sTable1.tenant 0).heap).isSome = true ∧ sTable1.setMarked 0 (sTable1.entryAddr 0 0) 8 = false ∧
    sTable1.setMarked 0 (sTable1.entryAddr 0 2) 8 = false := by decide +kernel
theorem witness_set_new_fails : (sTable1.markGranule (homeOf 0x8000 / 32)).setMarked 0 (sTable1.entryAddr 0 0) 8 = true ∧
    (sTable1.markGranule (homeOf 0x8040 / 32)).setMarked 0 (sTable1.entryAddr 0 2) 8 = true ∧
    newIn (sTable1.markGranule (homeOf 0x8000 / 32)) (fun f => f == 2) = true ∧ newIn (sTable1.markGranule (homeOf 0x8040 / 32)) (fun f => f == 2) = true ∧
    heapTake 32 [] = none ∧ newIn (sTable1.modTenant 0 fun t => { t with heap := [] }) (fun f => f == 2) = true := by decide +kernel
theorem witness_set_free : ∀ s ∈ [sTable1, sTable1.markGranule (homeOf 0x8000 / 32)], (match s.readEntry (.issued 0) 0 1#32 0 with | .ok _ => true | _ => false) = true ∧
    s.setHeld (.issued 0) 0 (s.entryAddr 0 0) 8 = false := by decide +kernel
theorem witness_set_free_marked : (sTable1.markGranule (homeOf 0x8000 / 32)).setMarked 0 (sTable1.entryAddr 0 0) 8 = true := by decide +kernel
/-- Keys at 0x3000 that rise, and some that fall. -/
def keysAt (ws : List Nat) : State := sets [(8, 0x3000), (4, 3)] (inMem 0x3000 ws sTable1)
def arrayIn (i : Instr) (s : State) (p : State → SetOp → SetView → State × List Xlat × Pass → Bool) (w : Want) (n : SetView → Nat) : Bool :=
  (opOf (run [i] s)).any fun o =>
    let u := run [i] s
    match u.readSet (.issued o.stamp) 0 o.ha 0 with
    | .ok v => !u.linkLost && p u o v (locate (setOrigin (homeOf v.addr)).req 0 0 4 w (n v) o.addr (u.askSet 0 v))
    | _ => false
theorem witness_set_in : ∀ e ∈ [([1, 5, 7], true), ([7, 5, 1], false)], arrayIn (.setIn g0 (.s 2) (.s 8) (.s 4)) (keysAt e.1) (fun u o v r =>
    match r with
    | (s1, xs, .done) => xs.all (fun x => !s1.reachHeld (homeDie (homeOf v.addr)) (.issued o.stamp) x.key && !u.marked x.key 4) &&
        nonDecreasing (xs.map fun x => u.le x.key 4) == e.2
    | _ => false) .read (fun _ => 3) = true := by decide +kernel
theorem witness_set_in_faults : arrayIn (.setIn g0 (.s 2) (.s 8) (.s 4)) (sets [(9, 1)] (keysAt [])) (fun _ _ _ r =>
    match r with | (_, [], .fault _) => true | _ => false) .read (fun _ => 3) = true := by decide +kernel
theorem witness_set_out : arrayIn (.setOut g0 (.s 30) (.s 2) (.s 8) (.s 4)) (keysAt []) (fun _ o v r => match r with
    | (s1, xs, .done) => xs.length == 2 && xs.all fun x => !s1.reachHeld (homeDie (homeOf v.addr)) (.command o.stamp) x.key
    | _ => false) .write (fun v => min 3 v.members.length) = true ∧
    arrayIn (.setOut g0 (.s 30) (.s 2) (.s 8) (.s 4)) (sets [(9, 1)] (keysAt [])) (fun _ _ _ r =>
      match r with | (_, _, .fault _) => true | _ => false) .write (fun v => min 3 v.members.length) = true := by decide +kernel
/-- A settle that stays in its block, one that takes a new one, and one with no room. -/
def settled (m : List Nat) (s : State) (p : Option (State × Entry) → Bool) : Bool := match s.readSet (.issued 0) 0 1#32 0 with
  | .ok v => p (s.settle 0 v false .sorted .sorted m [])
  | _ => false
theorem witness_settles : settled [5] sTable1 (fun r => r.any fun e => e.2.cap == 8 && e.2.payload == 0x9000) = true ∧
    settled (List.range 9) sTable1 (fun r => r.any fun e => decide (8 < e.2.cap) && e.2.payload != 0x9000) = true ∧
    settled (List.range 9) (sTable1.modTenant 0 fun t => { t with heap := [] }) (fun r => r.isNone) = true := by decide +kernel

/-! ## Witnesses: accesses that the link loses -/

/-- A store of the warp and a reduction and an atomic on their way to a peer. -/
def onLink (i : Instr) (l : List Instr) : State := run (i :: .pageWalk me first 0 :: l) sPeer
def linkOp (s : State) (p : MemOp → LaneOp → Bool) : Bool :=
  (s.op? me first).any fun e => (e.2.2.lanes.find? fun l => l.lane == 0 && l.onLink).any fun l => p e.2.2 l
theorem witness_link_lanes :
    linkOp (onLink (.st g0 .w32 .relaxed .core (.v 6) (.s 8) qual0 0) [.storeDrain me first every]) (fun o l => o.isPlainStore && l.st.isDrained) = true ∧
    linkOp (onLink (.red g0 .add .n32 .relaxed .device (.s 8) (.v 4)) []) (fun o _ => match o.kind with | .red .. => true | _ => false) = true ∧
    linkOp (onLink (.atom g0 .add .n32 .relaxed .device (.s 30) (.s 8) (.s 2)) []) (fun o _ => (match o.kind with | .atom .. => true | _ => false) && !o.sampled &&
      !(MemOp.mapLanes (fun q => q.lane == 0) (fun q => { q with st := .done }) o).undone) = true ∧ first ≠ 0 ∧ me ≠ 0 := by decide +kernel
def sCopyInLink : State := run [.copyAbuf g0 qual0 (.s 0) (.s 8) (.s 4) (.s 40), .copyEngineStart 0] sPeer
theorem witness_link_copy_in : ((sCopyInLink.copy? 0 1).any fun k => k.agent == me && k.engine.isSome && k.kind == .abuf && sCopyInLink.copyOnLink 0 k &&
    (sCopyInLink.gang? k.gang).isSome) = true := by decide +kernel
/-- The link is to lose the next access of the dispatcher, of a fetch, or of an engine. -/
def losing (s : State) : State := { s with linkLost := true }
theorem witness_link_fetch : (losing sPeer).linkLost = true ∧ (match (sPeer.translate 0 0 0x10000#64 .fetch).2 with | .ok x => x.tier == 3 | _ => false) = true := by
  decide +kernel
theorem witness_link_tile : (match locate (toolOrigin 0 .abuf).req 0 0 32 .read 2 0x2000#64 (losing sPeer) with
    | (s1, xs, .done) => s1.linkLost && xs.length == 2 && xs.all (fun y => y.tier == 3 && !s1.reachHeld 0 .any y.key) && (s1.gang? myGang).isSome
    | _ => false) = true := by decide +kernel
/-- The header of a record lies on another device. -/
def sFarHead : State := losing ((queued rec0 .unchecked sServe).modDie 0 fun d => { d with tlb := d.tlb.map fun e => { e with tier := 3 } })
theorem witness_link_header : (match sFarHead.dispBytes 0 0 8 .fetch 2 (rec0.entry - 16#64) with | .bad true => true | _ => false) = true := by decide +kernel
theorem witness_link_wait_word : (match (losing ((sWait 1 0).modDie 0 fun d => { d with tlb := d.tlb.map fun e => { e with tier := 3 } })).dispBytes 0 0 8 .read 1 0x4000#64 with
    | .bad true => true | _ => false) = true := by decide +kernel
theorem witness_dispatcher_waits : (match (owning 0x10000 (checks rec0)).dispBytes 0 0 8 .fetch 2 (rec0.entry - 16#64) with | .held => true | _ => false) = true ∧
    (match (owning 0x4000 (sWait 1 0)).dispBytes 0 0 8 .read 1 0x4000#64 with | .held => true | _ => false) = true ∧
    (match (owning 0x3000 (checks recGroup)).readShares 0 0 recGroup with | .held => true | _ => false) = true := by decide +kernel

/-! ## Witnesses: stops, ends and firmware -/

/-- The gang is to be saved while a stop of its warp has no record yet. -/
def sStopSaving : State := my (Agent.mapCtl fun c => { c with stop := some (aStop false) }) sSaving
theorem witness_unwritten_stop_saved : inPhase sStopSaving .saving (fun y => sStopSaving.savable myGang y) = true ∧
    ((sStopSaving.agent? me).any fun x => x.place.isSome && x.ctl.stop.any fun p => !p.recorded) = true := by decide +kernel
-- a `gstart` that an agent issued before it ended is on its way
theorem witness_end_waits_for_a_gstart : quietly (my (Agent.mapFlight fun f => { f with gstarts := [(5, 30, false)] }) (sEnded (.ended true)))
    (fun x => x.ctl.hold == .ended true && x.flight.gstarts != []) = true := by decide +kernel
theorem witness_last_use : (let l := sHbm.hbm.filter fun q => q.stack == 0 && [2].contains q.id
    (pickReq l).any fun r => r.lu && (sHbm.hbm.filter fun q => q.id != r.id).any fun q => q.line == r.line) = true ∧
    (let s : State := { sHbm with hbm := [{ req0 with lu := true }] }
     (pickReq s.hbm).any fun r => r.lu && (s.hbm.filter fun q => q.id != r.id).isEmpty) = true := by decide +kernel
/-- Images that a device runs: whatever key is fused, one whose digest it is and whose signature verifies. -/
theorem witness_image_runs (g : FwImage) (h : sha512 g.key = Config.furothKeyDigest) (k : verifies (sha512 g.code) g.sig g.key = true) :
    ∀ i, i < 6 → (List.replicate 6 g)[i]? = some g ∧ sha512 g.key = Config.furothKeyDigest ∧ verifies (sha512 g.code) g.sig g.key = true :=
  fun i hi => ⟨by rw [List.getElem?_replicate, if_pos hi], h, k⟩
theorem witness_image_absent (i : Nat) (g : FwImage) : ([] : List FwImage)[i]? ≠ some g := by simp
theorem witness_not_verified : (go [execDeviceReset []] s1).device.verified = false ∧ ((go [execDeviceReset []] s1).tenant 3).enabled = false := by decide +kernel
theorem witness_unlisted_register : 0x600 % 8 = 0 ∧ 0x550 ≤ 0x600 ∧ 0x600 < 0x1000 ∧ 0x208 % 8 = 0 ∧ 0x200 < 0x208 ∧ 0x208 < 0x300 := by decide
theorem test_register_reads : (go [execPreemptRequest 0] sServe).readReg (some 0) 0x8 8 = 4#64 ∧ sServe.readReg (some 0) 0x8 8 = 1#64 ∧
    sServe.readReg none 0x208 8 = 940#64 ∧ sServe.readReg none 0x208 4 = 0#64 := by decide +kernel


end Sys2Proof.Tests
end

section
/-! PROOF of `WarpsTakeTheirTurns` (O38): the order in which agents go is that of a fold that keeps the first, and each step of a
warp is its operation's answer in each of its cases. -/

namespace Sys2Proof.Machine

open Sys2Proof.Claim

/-! ## Who goes first (R33, R63) -/

theorem goesFirst_iff (x y : Agent) : goesFirst x y = true ↔
    (x.overdue = true ∧ y.overdue = false) ∨ (x.overdue = y.overdue ∧ olderAgent x y = true) := by
  unfold goesFirst
  cases x.overdue <;> cases y.overdue <;> simp

theorem olderAgent_iff (x y : Agent) : olderAgent x y = true ↔ x.ident.born < y.ident.born ∨
    (x.ident.born = y.ident.born ∧ (x.place.map Place.slot).getD 24 < (y.place.map Place.slot).getD 24) := by
  unfold olderAgent
  by_cases h : x.ident.born = y.ident.born <;> simp [h]

theorem olderAgent_trans {x y z : Agent} (h : olderAgent x y = true) (k : olderAgent y z = true) : olderAgent x z = true := by
  rw [olderAgent_iff] at *; omega

theorem olderAgent_cotrans {x z : Agent} (h : olderAgent x z = true) (y : Agent) :
    olderAgent x y = true ∨ olderAgent y z = true := by
  simp only [olderAgent_iff] at *; omega

theorem goesFirst_irrefl (x : Agent) : goesFirst x x = false := by
  rw [Bool.eq_false_iff, Ne, goesFirst_iff, olderAgent_iff]; simp

theorem goesFirst_trans {x y z : Agent} (h : goesFirst x y = true) (k : goesFirst y z = true) : goesFirst x z = true := by
  rw [goesFirst_iff] at *
  rcases h with ⟨hx, hy⟩ | ⟨hxy, ho⟩ <;> rcases k with ⟨ky, kz⟩ | ⟨kyz, ko⟩
  · exact .inl ⟨hx, kz⟩
  · exact .inl ⟨hx, kyz ▸ hy⟩
  · exact .inl ⟨hxy.trans ky, kz⟩
  · exact .inr ⟨hxy.trans kyz, olderAgent_trans ho ko⟩

/-- Of two that are ordered, any third comes after the first or before the second. -/
theorem goesFirst_cotrans {x z : Agent} (h : goesFirst x z = true) (y : Agent) :
    goesFirst x y = true ∨ goesFirst y z = true := by
  simp only [goesFirst_iff] at *
  rcases h with ⟨hx, hz⟩ | ⟨hxz, ho⟩
  · cases hy : y.overdue <;> simp [hx, hz]
  · rw [← hxz]
    rcases olderAgent_cotrans ho y with h | h <;> cases x.overdue <;> cases y.overdue <;> simp [h]

/-- What goes before none is overdue only with it, and then not older. -/
theorem not_goesFirst {x y : Agent} (h : goesFirst x y = false) :
    (x.overdue = true → y.overdue = true) ∧ (x.overdue = y.overdue → olderAgent x y = false) := by
  rw [Bool.eq_false_iff, Ne, goesFirst_iff, not_or] at h
  obtain ⟨h1, h2⟩ := h
  exact ⟨fun hx => by simpa using fun hy => h1 ⟨hx, hy⟩, fun hxy => by simpa using fun ho => h2 ⟨hxy, ho⟩⟩

/-- The one of two that goes first, the earlier one where neither does. -/
def keepFirst (m : Option (Nat × Agent)) (e : Nat × Agent) : Option (Nat × Agent) :=
  match m with
  | none => some e
  | some q => if goesFirst e.2 q.2 then some e else m

/-- A fold over agents that keeps the first ends with one before which none of them goes. -/
theorem foldl_keepFirst_some (l : List (Nat × Agent)) (q r : Nat × Agent) (h : l.foldl keepFirst (some q) = some r) :
    (r = q ∨ r ∈ l) ∧ ∀ e ∈ q :: l, goesFirst e.2 r.2 = false := by
  induction l generalizing q with
  | nil => cases h; exact ⟨.inl rfl, by simpa using goesFirst_irrefl _⟩
  | cons a t ih =>
    simp only [List.foldl_cons, keepFirst] at h
    by_cases ha : goesFirst a.2 q.2 = true
    · rw [if_pos ha] at h
      obtain ⟨hm, hall⟩ := ih a h
      refine ⟨.inr (List.mem_cons.mpr hm), List.forall_mem_cons.mpr ⟨?_, hall⟩⟩
      rw [Bool.eq_false_iff]
      exact fun hq => Bool.eq_false_iff.mp (hall a List.mem_cons_self) (goesFirst_trans ha hq)
    · rw [if_neg ha] at h
      obtain ⟨hm, hall⟩ := ih q h
      obtain ⟨hq, ht⟩ := List.forall_mem_cons.mp hall
      refine ⟨hm.imp_right (List.mem_cons_of_mem _), List.forall_mem_cons.mpr ⟨hq, List.forall_mem_cons.mpr ⟨?_, ht⟩⟩⟩
      rw [Bool.eq_false_iff]
      exact fun hr => (goesFirst_cotrans hr _).elim ha (Bool.eq_false_iff.mp hq)

theorem foldl_keepFirst {l : List (Nat × Agent)} {r : Nat × Agent} (h : l.foldl keepFirst none = some r) :
    r ∈ l ∧ ∀ e ∈ l, goesFirst e.2 r.2 = false := by
  cases l with
  | nil => cases h
  | cons q t =>
    obtain ⟨hm, hall⟩ := foldl_keepFirst_some t q r h
    exact ⟨List.mem_cons.mpr hm, hall⟩

theorem foldl_keepFirst_eq_none {l : List (Nat × Agent)} (h : l.foldl keepFirst none = none) : l = [] := by
  cases l with
  | nil => rfl
  | cons q t =>
    have kept : ∀ (t : List (Nat × Agent)) q, (t.foldl keepFirst (some q)).isSome = true := by
      intro t
      induction t with
      | nil => exact fun _ => rfl
      | cons a t ih => intro q; simp only [List.foldl_cons, keepFirst]; split <;> exact ih _
    have := kept t q
    rw [show t.foldl keepFirst (some q) = none from h] at this; cases this

theorem State.nextIssuer_eq (s : State) :
    s.nextIssuer = (s.agents.filter fun e => s.mayIssue e.1 e.2).foldl keepFirst none := rfl

theorem State.oldestPending_eq (s : State) (core part : Nat) : s.oldestPending core part =
    ((s.inPart core part).filter fun e => !e.2.active && s.readyToGo e.2).foldl keepFirst none := rfl

/-! ## Which agent issues (R11, R33, R63, R166) -/

theorem State.nextIssuer_some {s : State} {a : Nat} {x : Agent} (h : s.nextIssuer = some (a, x)) :
    (a, x) ∈ s.agents ∧ s.mayIssue a x = true ∧ ∀ e ∈ s.agents, s.mayIssue e.1 e.2 = true → goesFirst e.2 x = false := by
  rw [State.nextIssuer_eq] at h
  obtain ⟨hm, hall⟩ := foldl_keepFirst h
  obtain ⟨hmem, hmay⟩ := List.mem_filter.mp hm
  exact ⟨hmem, hmay, fun e he hi => hall e (List.mem_filter.mpr ⟨he, hi⟩)⟩

theorem State.nextIssuer_none {s : State} (h : s.nextIssuer = none) : ∀ e ∈ s.agents, s.mayIssue e.1 e.2 = false := by
  rw [State.nextIssuer_eq] at h
  simpa using List.filter_eq_nil_iff.mp (foldl_keepFirst_eq_none h)

/-- A partition has the pipe of an agent's next instruction left, or that instruction has still to be fetched (R11, R33). -/
def State.pipeLeft (s : State) (p : Place) (x : Agent) (pc : DWord) : Bool :=
  (s.pipeFor p x pc).all fun n =>
    decide (((s.issuedIn p).filter fun e => e.clk == s.time).length < 4) && !(s.issuedIn p).any fun e => e.pipe == n

theorem State.pipeLeft_iff (s : State) (p : Place) (x : Agent) (pc : DWord) :
    s.pipeLeft p x pc = true ↔ ∀ i, (s.fetch p x.ident.tenant pc).2 = .got i →
      (s.clock.filter fun e => e.core == p.core && e.part == p.part && e.clk == s.time).length < 4 ∧
      ∀ e ∈ s.clock, e.core = p.core → e.part = p.part → e.pipe ≠ pipeOf i := by
  unfold State.pipeLeft State.pipeFor State.issuedIn
  cases (s.fetch p x.ident.tenant pc).2 with
  | got i =>
    have hf : (fun e : Issued => e.clk == s.time && (e.core == p.core && e.part == p.part)) =
        fun e => e.core == p.core && e.part == p.part && e.clk == s.time := by
      funext e; rw [Bool.and_comm]
    simp only [List.filter_filter, hf]
    simp
  | miss y => simp
  | fault c v => simp

theorem State.mayIssue_placed {s : State} {a : Nat} {x : Agent} {p : Place} {pc : DWord} {run : Lanes}
    (hp : x.place = some p) (hr : x.ctl.headRun = some (pc, run)) : s.mayIssue a x =
      (x.active && x.ready && s.runs x && decide (x.frozen ≤ s.time) && !s.hasIssued a && s.pipeLeft p x pc) := by
  unfold State.mayIssue State.pipeLeft
  rw [hp, hr]
  dsimp only
  cases s.pipeFor p x pc <;> rfl

theorem State.mayIssue_stands {s : State} {a : Nat} {x : Agent} (h : s.mayIssue a x = true) :
    ∃ p pc run, x.place = some p ∧ x.ctl.headRun = some (pc, run) := by
  unfold State.mayIssue at h
  split at h
  · next hp hr => exact ⟨_, _, _, hp, hr⟩
  · cases h

theorem State.hasIssued_eq_false (s : State) (a : Nat) :
    s.hasIssued a = false ↔ ∀ e ∈ s.clock, e.agent = a → e.clk ≠ s.time := by
  unfold State.hasIssued; simp

theorem State.mayIssue_iff (s : State) (a : Nat) (x : Agent) :
    s.mayIssue a x = true ↔ ∃ p pc run, x.place = some p ∧ x.ctl.headRun = some (pc, run) ∧ x.active = true ∧
      x.offers = true ∧ x.ctl.stall = false ∧ s.runs x = true ∧ x.frozen ≤ s.time ∧
      (∀ e ∈ s.clock, e.agent = a → e.clk ≠ s.time) ∧
      ∀ i, (s.fetch p x.ident.tenant pc).2 = .got i →
        (s.clock.filter fun e => e.core == p.core && e.part == p.part && e.clk == s.time).length < 4 ∧
        ∀ e ∈ s.clock, e.core = p.core → e.part = p.part → e.pipe ≠ pipeOf i := by
  have placed {p : Place} {pc : DWord} {run : Lanes} (hp : x.place = some p) (hr : x.ctl.headRun = some (pc, run)) :
      s.mayIssue a x = true ↔ ((((x.active = true ∧ x.offers = true ∧ x.ctl.stall = false) ∧ s.runs x = true) ∧
        x.frozen ≤ s.time) ∧ ∀ e ∈ s.clock, e.agent = a → e.clk ≠ s.time) ∧ s.pipeLeft p x pc = true := by
    rw [State.mayIssue_placed hp hr, ← State.hasIssued_eq_false]
    simp only [Bool.and_eq_true, Agent.ready, Bool.not_eq_true', decide_eq_true_eq]
  constructor
  · intro h
    obtain ⟨p, pc, run, hp, hr⟩ := State.mayIssue_stands h
    obtain ⟨⟨⟨⟨⟨h1, h2, h3⟩, h4⟩, h5⟩, h6⟩, h7⟩ := (placed hp hr).mp h
    exact ⟨p, pc, run, hp, hr, h1, h2, h3, h4, h5, h6, (State.pipeLeft_iff ..).mp h7⟩
  · rintro ⟨p, pc, run, hp, hr, h1, h2, h3, h4, h5, h6, h7⟩
    exact (placed hp hr).mpr ⟨⟨⟨⟨⟨h1, h2, h3⟩, h4⟩, h5⟩, h6⟩, (State.pipeLeft_iff ..).mpr h7⟩

/-- With nothing else due the issuer takes the next step. -/
theorem step_nextIssuer {s : State} {a : Nat} {x : Agent} (hc : s.cur = none) (ha : s.agenda = [])
    (hd : firstChange s (dueSteps s) = none) (hs : s.device.sliBusy = []) (hn : s.nextIssuer = some (a, x)) :
    step s = s.turn a := by
  unfold step State.proceed sliSteps
  simp only [hc, ha, hd, hs, hn]

theorem step_agenda {s : State} {c : Choice} {rest : List Choice} (hc : s.cur = none) (ha : s.agenda = c :: rest) :
    step s = ({ s with agenda := rest } : State).choose c := by
  unfold step
  split
  · next h => rw [hc] at h; cases h
  · split
    · next h => rw [ha] at h; cases h; rfl
    · next h => rw [ha] at h; cases h

/-- The agent that a choice names takes the next step where it may and is the first for its pipe. -/
theorem State.choose_turn {s : State} {a : Nat} {x : Agent} (hx : s.agent? a = some x) :
    s.choose (.turn a) = if s.mayIssue a x && s.firstForPipe a x then s.turn a else .next s := by
  unfold State.choose
  simp only [hx]

/-- Where an agent is the first for its pipe, none that may issue to that pipe of its partition goes before it. -/
theorem State.firstForPipe_spec {s : State} {a : Nat} {x : Agent} {p : Place} {pc : DWord} {run : Lanes}
    (hp : x.place = some p) (hr : x.ctl.headRun = some (pc, run)) (h : s.firstForPipe a x = true)
    {e : Nat × Agent} (he : e ∈ s.agents) (hea : e.1 ≠ a) (hm : s.mayIssue e.1 e.2 = true) {q : Place} {qc : DWord}
    {qrun : Lanes} (hq : e.2.place = some q) (hqr : e.2.ctl.headRun = some (qc, qrun)) (hcore : q.core = p.core)
    (hpart : q.part = p.part) (hpipe : s.pipeFor q e.2 qc = s.pipeFor p x pc) : goesFirst e.2 x = false := by
  unfold State.firstForPipe at h
  have := List.all_eq_true.mp h e he
  simpa [hea, hm, hp, hr, hq, hqr, hcore, hpart, hpipe] using this

theorem theOldestReadyIssues : TheOldestReadyIssues := by
  refine ⟨State.mayIssue_iff, fun s => ⟨?_, State.nextIssuer_none, ?_, ?_⟩, ?_⟩
  · intro a x h
    obtain ⟨hmem, hmay, hall⟩ := State.nextIssuer_some h
    exact ⟨hmem, hmay, fun e he hi => not_goesFirst (hall e he hi)⟩
  · exact fun hc ha hd hs a x => step_nextIssuer hc ha hd hs
  · intro a x rest hc ha hx
    have hx' : ({ s with agenda := rest } : State).agent? a = some x := hx
    rw [step_agenda hc ha, State.choose_turn hx']
    refine ⟨fun h1 h2 => by rw [h1, h2]; rfl, fun h => ?_⟩
    rcases h with h | h <;> rw [h]
    · rfl
    · rw [Bool.and_false]; rfl
  · exact fun s a x p pc run hp hr h e he hea hm q qc qrun hq hqr h1 h2 h3 =>
      State.firstForPipe_spec hp hr h he hea hm hq hqr h1 h2 h3

/-! ## Warps change places (R34, R63, R313) -/

theorem State.oldestPending_some {s : State} {core part b : Nat} {y : Agent} (h : s.oldestPending core part = some (b, y)) :
    y.active = false ∧ s.readyToGo y = true ∧
      ∀ e ∈ s.inPart core part, e.2.active = false → s.readyToGo e.2 = true → goesFirst e.2 y = false := by
  rw [State.oldestPending_eq] at h
  obtain ⟨hm, hall⟩ := foldl_keepFirst h
  have hy := (List.mem_filter.mp hm).2
  simp only [Bool.and_eq_true, Bool.not_eq_true'] at hy
  exact ⟨hy.1, hy.2, fun e he h1 h2 => hall e (List.mem_filter.mpr ⟨he, by simp [h1, h2]⟩)⟩

/-- A warp that has waited for more than 64 clocks (R34). -/
theorem Agent.waitedLong_iff (now : Nat) (x : Agent) :
    x.waitedLong now = true ↔ ∃ t0, x.ctl.waitSince = some t0 ∧ t0 + 64 < now := by
  unfold Agent.waitedLong
  cases x.ctl.waitSince <;> simp

section Yields
variable {now : Nat} {x : Agent}

theorem Agent.yields_of_stop (h : x.ctl.stop ≠ none) : x.yields now = true := by
  unfold Agent.yields
  rw [Option.isSome_iff_ne_none.mpr h, Bool.true_or]

theorem Agent.yields_of_stall (hh : x.ctl.hold = .none) (hs : x.ctl.stall = true) (hl : x.waitedLong now = true) :
    x.yields now = true := by
  unfold Agent.yields
  simp [hh, hs, hl]

theorem Agent.yields_of_no_lane (hh : x.ctl.hold = .none) (hr : x.ctl.headRun = none) : x.yields now = true := by
  unfold Agent.yields
  simp [hh, hr]

theorem Agent.yields_of_waitc {ld st tl : Nat} (hh : x.ctl.hold = .waitc ld st tl) (hl : x.waitedLong now = true) :
    x.yields now = true := by
  unfold Agent.yields
  simp [hh, hl]

/-- One that neither has stopped nor waited for long stays where it waits for a count, or for no more than its turn. -/
theorem Agent.not_yields (hs : x.ctl.stop = none) (hl : x.waitedLong now = false)
    (hh : (∃ ld st tl, x.ctl.hold = .waitc ld st tl) ∨ (x.ctl.hold = .none ∧ x.ctl.headRun ≠ none)) :
    x.yields now = false := by
  unfold Agent.yields
  rcases hh with ⟨ld, st, tl, hh⟩ | ⟨hh, hr⟩
  · simp [hh, hs, hl]
  · simp [hh, hs, hl, Option.isSome_iff_ne_none.mpr hr]

end Yields

theorem Agent.makesRoom_iff (now : Nat) (x y : Agent) : x.makesRoom now y = true ↔
    x.frozen ≤ now ∧ y.frozen ≤ now ∧ (x.yields now = true ∨ (y.overdue = true ∧ x.overdue = false)) := by
  unfold Agent.makesRoom
  simp [and_assoc]

section Swap
variable {s : State} {core part i j a b : Nat} {x y : Agent}

theorem execWarpSwap_enters (h : s.oldestPending core part = some (b, y)) (hy : y.place = some ⟨core, part, i⟩)
    (hr : s.activeRoom core part = true) :
    exec (.warpSwap core part i i) s = .next (s.setAgent b { y with active := true }) := by
  show execWarpSwap core part i i s = _
  unfold execWarpSwap
  simp [h, hy, hr]

theorem execWarpSwap_pair (h : s.oldestPending core part = some (b, y)) (hy : y.place = some ⟨core, part, i⟩) (hj : j ≠ i)
    (hx : (s.inPart core part).find? (fun e => e.2.active && e.2.place == some ⟨core, part, j⟩) = some (a, x)) :
    exec (.warpSwap core part j i) s = if x.makesRoom s.time y
      then .next ((s.setAgent a (x.swapped s.time false)).setAgent b (y.swapped s.time true)) else .next s := by
  show execWarpSwap core part j i s = _
  unfold execWarpSwap
  simp [h, hy, hj, hx]

/-- The two that change places issue nothing for 2 clocks, and no other agent changes. -/
theorem execWarpSwap_goes (h : s.oldestPending core part = some (b, y)) (hy : y.place = some ⟨core, part, i⟩) (hj : j ≠ i)
    (hx : (s.inPart core part).find? (fun e => e.2.active && e.2.place == some ⟨core, part, j⟩) = some (a, x)) (hab : a ≠ b)
    (hm : x.makesRoom s.time y = true) :
    ∃ u, exec (.warpSwap core part j i) s = .next u ∧ u = { s with agents := u.agents } ∧
      u.agent? a = some { x with active := false, frozen := s.time + 2 } ∧
      u.agent? b = some { y with active := true, frozen := s.time + 2 } ∧
      ∀ k, k ≠ a → k ≠ b → u.agent? k = s.agent? k := by
  refine ⟨_, by rw [execWarpSwap_pair h hy hj hx, if_pos hm], rfl, ?_, ?_, fun k hka hkb => ?_⟩
  · rw [State.agent?_setAgent, if_neg (Ne.symm hab), State.agent?_setAgent, if_pos rfl]; rfl
  · rw [State.agent?_setAgent, if_pos rfl]; rfl
  · rw [State.agent?_setAgent, if_neg (Ne.symm hkb), State.agent?_setAgent, if_neg (Ne.symm hka)]

end Swap

/-! ## Registers and counts that a warp waits for (R36, R214, R242) -/

theorem kgetD_filter_below {V : Type} (d : V) (m : KMap V) (n k : Nat) :
    kgetD d (m.filter fun e => decide (e.1 < n)) k = if k < n then kgetD d m k else d := by
  unfold kgetD
  induction m with
  | nil => simp [kget]
  | cons e t ih =>
    obtain ⟨k', v⟩ := e
    by_cases hn : k' < n <;> by_cases hk : k' = k
    · subst hk; simp [kget, hn]
    · simpa [kget, hn, hk] using ih
    · subst hk; simpa [kget, hn] using ih
    · simpa [kget, hn, hk] using ih

/-- The registers that an allotment gains read 0 and carry no mark; those that it had stay. -/
theorem Regs.vlane_grow (r : Regs) (n k l : Nat) :
    (r.grow n).vlane k l = if k < r.alloc then r.vlane k l else 0#32 := by
  unfold Regs.vlane Regs.grow
  rw [kgetD_filter_below]
  split <;> rfl

theorem Regs.vMark_grow (r : Regs) (n k : Nat) :
    kgetD 0#32 (r.grow n).vMark k = if k < r.alloc then kgetD 0#32 r.vMark k else 0#32 :=
  kgetD_filter_below ..

theorem execGrowGrant_grants {s : State} {a n : Nat} {x : Agent} {p : Place} (hx : s.agent? a = some x)
    (hh : x.ctl.hold = .grow n) (hp : x.place = some p) (hl : s.live x = true)
    (ho : ∀ e ∈ s.inPart p.core p.part, e.1 ≠ a → e.2.grows = true → olderAgent e.2 x = false)
    (hn : n ≤ s.freeRegs p.core p.part) :
    exec (.growGrant a) s = .next (s.setAgent a (x.goOn.mapRegs (Regs.grow n))) := by
  show execGrowGrant a s = _
  have first : ((s.inPart p.core p.part).all fun e => e.1 == a || !e.2.grows || !olderAgent e.2 x) = true := by
    rw [List.all_eq_true]
    intro e he
    by_cases h1 : e.1 = a
    · simp [h1]
    · cases h2 : e.2.grows
      · simp
      · simp [ho e he h1 h2]
  unfold execGrowGrant
  simp [hx, hh, hp, hl, first, hn]

theorem execWaitcRelease_releases {s : State} {a ld st tl : Nat} {x : Agent} (hx : s.agent? a = some x)
    (hh : x.ctl.hold = .waitc ld st tl) (hl : s.live x = true) (h1 : ldbCount x.flight ≤ ld) (h2 : stbCount x.flight ≤ st)
    (h3 : s.toolCount a x.core ≤ tl) : exec (.waitcRelease a) s = .next (s.setAgent a x.goOn) := by
  show execWaitcRelease a s = _
  unfold execWaitcRelease
  simp [hx, hh, hl, h1, h2, h3]

theorem warpsSwapAndGrow : WarpsSwapAndGrow := by
  refine ⟨fun s core part i b y h hy _ => ⟨?_, fun hr => ⟨_, execWarpSwap_enters h hy hr, .set ..⟩, ?_⟩, ?_, ?_⟩
  · obtain ⟨h1, h2, h3⟩ := State.oldestPending_some h
    exact ⟨h1, h2, fun e he h4 h5 => not_goesFirst (h3 e he h4 h5)⟩
  · intro j a x hj hx hab hfx hfy
    have goes (hm : x.yields s.time = true ∨ (y.overdue = true ∧ x.overdue = false)) :=
      execWarpSwap_goes h hy hj hx hab ((Agent.makesRoom_iff ..).mpr ⟨hfx, hfy, hm⟩)
    refine ⟨fun hs => goes (.inl (Agent.yields_of_stop hs)), fun hw => goes (.inl ?_),
      fun hh hr => goes (.inl (Agent.yields_of_no_lane hh hr)),
      fun hh hs hl => goes (.inl (Agent.yields_of_stall hh hs ((Agent.waitedLong_iff ..).mpr hl))),
      fun ld st tl hh hl => goes (.inl (Agent.yields_of_waitc hh ((Agent.waitedLong_iff ..).mpr hl))),
      fun h1 h2 => goes (.inr ⟨h1, h2⟩), fun hh hl hov hs => ?_⟩
    · unfold Agent.yields
      revert hw
      cases x.ctl.hold with
      | fdefer addr len pool released parked => cases parked <;> simp
      | _ => simp
    · have hl' : x.waitedLong s.time = false := by rw [Bool.eq_false_iff, Ne, Agent.waitedLong_iff]; exact hl
      rw [execWarpSwap_pair h hy hj hx, if_neg]
      simp [Agent.makesRoom_iff, Agent.not_yields hs hl' hh, hov]
  · intro s a n x p hx hh hp hl ho hn
    exact ⟨_, _, x.regs.grow n, execGrowGrant_grants hx hh hp hl ho hn, PcsAdvanced.intro _ 8 x.ctl, .set ..,
      fun k l => ⟨Regs.vlane_grow .., Regs.vMark_grow ..⟩⟩
  · intro s a ld st tl x hx hh hl h1 h2 h3
    exact ⟨_, _, execWaitcRelease_releases hx hh hl h1 h2 h3, PcsAdvanced.intro _ 8 x.ctl, .set ..⟩

/-- Settles O38: the agent that issues is the one that a fold over those that may keeps as the first, and so is the warp that
enters the active set; the other steps are their operation's answer. -/
theorem warpsTakeTheirTurns : Obligations.WarpsTakeTheirTurns := ⟨theOldestReadyIssues, warpsSwapAndGrow⟩

end Sys2Proof.Machine
end

section
/-! PROOF of `BufferAccessesPerform` (O22): lanes perform at their banks, and the access leaves once all of them have. -/

namespace Sys2Proof.Claim

open Sys2Proof.Machine

/-- What is delivered hangs on the registers that wait alone, not on the rest of the agent's work in flight. -/
theorem Delivered.of_flight {id : Nat} {d : Option Opnd} {wide : Bool} {m marks : Lanes} {val : Nat → DWord} {sv : DWord}
    {x y : Agent} {fl : Flight} (h : fl.pend = x.flight.pend)
    (k : Delivered id d wide m marks val sv { x with flight := fl } y) : Delivered id d wide m marks val sv x y := by
  have hw : ∀ r, fl.waits r id = x.flight.waits r id := by intro r; unfold Flight.waits; rw [h]
  unfold Delivered at k ⊢
  simp only [hw, h] at k
  exact k

/-- Two states that differ in one agent are one but for their agents. -/
theorem AgentBecomes.rest {s t : State} {a : Nat} {y : Agent} (h : AgentBecomes s t a y) :
    ({ t with agents := s.agents } : State) = s := by
  obtain ⟨h, -⟩ := h; rw [h]

end Sys2Proof.Claim

namespace Sys2Proof.Machine

open Sys2Proof.Claim

/-! ## Results for registers that wait -/

theorem BufOp.deliver_bufOps (o : BufOp) (x : Agent) : (o.deliver x).flight.bufOps = x.flight.bufOps := by
  unfold BufOp.deliver
  simp only [Agent.unpend, Agent.mapFlight]
  split
  · split <;> simp only [Agent.giveV_flight]
  · split <;> simp only [Agent.giveS_flight]
  · rfl

theorem bufLanes_ne_zero {o : BufOp} {l : BufLane} (hl : l ∈ o.lanes) (h : l.lane < 32) : bufLanes o ≠ 0#32 := by
  intro h0
  have : (bufLanes o).getLsbD l.lane = true := by
    unfold bufLanes
    rw [getLsbD_maskOf _ _ h, List.any_eq_true]
    exact ⟨l, hl, by simp⟩
  rw [h0] at this
  simp at this

theorem InBufs.banks {s t : State} (h : InBufs s t) : t.banks = s.banks := by obtain ⟨_, _, rfl⟩ := h; rfl

/-! ## An access whose lanes have performed leaves -/

section Done
variable {s : State} {a id : Nat} {x : Agent} {o : BufOp}

theorem State.bufDone_open (hx : s.agent? a = some x) (ho : x.flight.bufOps.find? (fun q => q.id == id) = some o)
    (hd : o.lanes.all BufLane.done = false) : AgentBecomes s (s.bufDone a id) a x :=
  (AgentBecomes.mod hx _).congr (by simp [ho, hd])

theorem State.bufDone_done (hx : s.agent? a = some x) (ho : x.flight.bufOps.find? (fun q => q.id == id) = some o)
    (hd : o.lanes.all BufLane.done = true) : AgentBecomes s (s.bufDone a id) a
      ((if o.store then x else o.deliver x).mapFlight fun f => { f with bufOps := f.bufOps.filter fun q => q.id != id }) :=
  (AgentBecomes.mod hx _).congr (by simp [ho, hd])

end Done

/-! ## Lanes perform (R17, R132, R225) -/

/-- A lane of the mask as it stands after it has performed at its bank: a store's has put its bytes there, a load's has read
them with their mark. -/
def bufHit (s : State) (b : BufAt) (o : BufOp) (m : Lanes) (l : BufLane) : BufLane :=
  if m.getLsbD l.lane then
    if o.store then { l with done := true }
    else { l with done := true, val := BitVec.ofNat 64 (s.bufLe b l.off o.width), mark := s.bufAnyMark b l.off o.width }
  else l

/-- The same for an access. -/
def BufOp.hit (s : State) (b : BufAt) (o : BufOp) (m : Lanes) (q : BufOp) : BufOp :=
  { q with lanes := q.lanes.map (bufHit s b o m) }

/-- The access of this number of an agent after its lanes of the mask have performed. -/
def Agent.bufMove (s : State) (b : BufAt) (o : BufOp) (m : Lanes) : Agent → Agent := Agent.mapFlight fun f =>
  { f with bufOps := f.bufOps.map fun q => if q.id = o.id then o.hit s b m q else q }

/-- The buffers and the banks of this clock once lanes of an access have performed. -/
def State.bufServed (s : State) (b : BufAt) (o : BufOp) (m : Lanes) : State :=
  let mine := o.lanes.filter fun l => m.getLsbD l.lane
  let s1 := if o.store then s.bufWrite b (mine.flatMap fun l => cellsAt l.off (leBytes o.width l.x.toNat)) else s
  { s1 with banks := s1.banks ++ mine.map fun l => (b.core, bankNo o.buf l.off) }

/-- Lanes that perform leave their agent with the access so far, which leaves when it is complete. -/
theorem execBufferAccessPerform_performs {s : State} {a : Nat} {m : Lanes} {x : Agent} {p : Place} {o : BufOp}
    (hx : s.agent? a = some x) (hp : x.place = some p) (ho : x.flight.bufOps.find? (fun q => q.id == o.id) = some o)
    (hsome : ∃ l ∈ o.lanes, m.getLsbD l.lane = true)
    (hgo : ∀ l ∈ o.lanes, m.getLsbD l.lane = true → l.done = false ∧ bufWaits x.flight o l = false)
    (hrow : ∀ l ∈ o.lanes, ∀ k ∈ o.lanes, m.getLsbD l.lane = true → k.done = false → k.off / 32 = l.off / 32 →
      m.getLsbD k.lane = true) :
    let b : BufAt := ⟨x.ident.gang, s.posOf x, p.core, o.buf⟩
    exec (.bufferAccessPerform a o.id m) s = .next
      (((s.bufServed b o m).modAgent a (Agent.bufMove s b o m)).bufDone a o.id) := by
  have mine_some : (o.lanes.filter fun l => m.getLsbD l.lane).isEmpty = false := by
    obtain ⟨l, hl, hm⟩ := hsome
    rw [List.isEmpty_eq_false_iff]
    exact List.ne_nil_of_mem (List.mem_filter.mpr ⟨hl, hm⟩)
  have mine_open : ((o.lanes.filter fun l => m.getLsbD l.lane).any fun l => l.done) = false := by
    simpa using fun l hl hm => (hgo l hl hm).1
  have mine_go : (o.lanes.filter fun l => m.getLsbD l.lane).any (bufWaits x.flight o) = false := by
    simpa using fun l hl hm => (hgo l hl hm).2
  have rows : o.rows m = true := by
    unfold BufOp.rows
    simp only [List.all_eq_true, Bool.or_eq_true, Bool.not_eq_true', bne_iff_ne]
    intro l hl
    by_cases hm : m.getLsbD l.lane = true
    · refine .inr fun k hk => ?_
      by_cases h1 : k.done = true
      · exact .inl (.inr h1)
      · by_cases h2 : k.off / 32 = l.off / 32
        · exact .inl (.inl (hrow l hl k hk hm (by simpa using h1) h2))
        · exact .inr h2
    · exact .inl (by simpa using hm)
  intro b
  show execBufferAccessPerform a o.id m s = _
  unfold execBufferAccessPerform
  simp only [hx, hp, ho, mine_some, mine_open, mine_go, rows, Bool.not_true, Bool.or_self, Bool.false_eq_true, if_false]
  rfl

section Served
variable (s : State) (b : BufAt) (o : BufOp) (m : Lanes)

theorem State.bufServed_inBufs : ∃ t banks, InBufs s t ∧ s.bufServed b o m = { t with banks := banks } := by
  unfold State.bufServed
  by_cases h : o.store = true
  · simp only [h, if_true]; exact ⟨_, _, .write .., rfl⟩
  · simp only [h]; exact ⟨_, _, .refl s, rfl⟩

@[simp] theorem State.bufServed_agents : (s.bufServed b o m).agents = s.agents := by
  obtain ⟨t, banks, ⟨_, _, rfl⟩, h⟩ := s.bufServed_inBufs b o m
  rw [h]

@[simp] theorem State.bufServed_agent? (a : Nat) : (s.bufServed b o m).agent? a = s.agent? a := by
  unfold State.agent?; rw [State.bufServed_agents]

theorem State.bufServed_bytes : SameBytes s (s.bufServed b o m) := by
  obtain ⟨t, banks, ⟨_, _, rfl⟩, h⟩ := s.bufServed_inBufs b o m
  rw [h]; exact fun _ => rfl

theorem State.bufServed_store (h : o.store = true) : s.bufServed b o m =
    { s.bufWrite b ((o.lanes.filter fun l => m.getLsbD l.lane).flatMap fun l => cellsAt l.off (leBytes o.width l.x.toNat)) with
      banks := s.banks ++ (o.lanes.filter fun l => m.getLsbD l.lane).map fun l => (b.core, bankNo o.buf l.off) } := by
  unfold State.bufServed
  simp only [h, if_true, (InBufs.write ..).banks]

theorem State.bufServed_load (h : o.store = false) : s.bufServed b o m =
    { s with banks := s.banks ++ (o.lanes.filter fun l => m.getLsbD l.lane).map fun l => (b.core, bankNo o.buf l.off) } := by
  unfold State.bufServed
  rw [h]; rfl

end Served

theorem bufHit_lane (s : State) (b : BufAt) (o : BufOp) (m : Lanes) (l : BufLane) : (bufHit s b o m l).lane = l.lane := by
  unfold bufHit
  split
  · split <;> rfl
  · rfl

section Performed
variable {s : State} {a : Nat} {x : Agent} {o : BufOp} (b : BufAt) (m : Lanes)

theorem Agent.bufMove_others : (x.bufMove s b o m).flight.bufOps.filter (fun q => q.id != o.id) =
    x.flight.bufOps.filter fun q => q.id != o.id :=
  filter_map_buf _ _ (o.hit s b m) fun _ => rfl

/-- The agent keeps the access with its lanes moved while one is left; then the access leaves it, with its results. -/
theorem State.bufServed_becomes (hx : s.agent? a = some x) (ho : x.flight.bufOps.find? (fun q => q.id == o.id) = some o) :
    ∃ y, AgentBecomes (s.bufServed b o m) (((s.bufServed b o m).modAgent a (Agent.bufMove s b o m)).bufDone a o.id) a y ∧
      ((∃ l ∈ o.lanes.map (bufHit s b o m), l.done = false) → y = x.bufMove s b o m) ∧
      ((∀ l ∈ o.lanes.map (bufHit s b o m), l.done = true) →
        y = (if o.store then x.bufMove s b o m else (o.hit s b m o).deliver (x.bufMove s b o m)).mapFlight fun f =>
          { f with bufOps := f.bufOps.filter fun q => q.id != o.id }) := by
  have moved : AgentBecomes (s.bufServed b o m) ((s.bufServed b o m).modAgent a (Agent.bufMove s b o m)) a (x.bufMove s b o m) :=
    AgentBecomes.mod (by rw [State.bufServed_agent?, hx]) _
  have found : (x.bufMove s b o m).flight.bufOps.find? (fun q => q.id == o.id) = some (o.hit s b m o) :=
    (find?_map_buf _ _ (o.hit s b m) fun _ => rfl).trans (by rw [ho]; rfl)
  cases hd : (o.hit s b m o).lanes.all BufLane.done with
  | false =>
    refine ⟨_, moved.trans (State.bufDone_open moved.agent found hd), fun _ => rfl, fun h => ?_⟩
    exact absurd (List.all_eq_true.mpr h) (Bool.eq_false_iff.mp hd)
  | true =>
    refine ⟨_, moved.trans (State.bufDone_done moved.agent found hd), fun ⟨l, hl, h⟩ => ?_, fun _ => rfl⟩
    exact absurd (List.all_eq_true.mp hd l hl) (Bool.eq_false_iff.mp h)

end Performed

/-- Settles O22, by the access so far: it stays while a lane is left, and leaves its agent with the results when none is. -/
theorem bufferAccessesPerform : Obligations.BufferAccessesPerform := by
  intro s a id m x p o hx hp ho hsome hgo hrow b read ls banks
  have hid : o.id = id := by simpa using List.find?_some ho
  subst hid
  obtain ⟨y, hy, hopen, hdone⟩ := State.bufServed_becomes b m hx ho
  have hrest := hy.rest
  rw [State.bufServed_agents] at hrest
  refine ⟨_, execBufferAccessPerform_performs hx hp ho hsome hgo hrow, fun k => ?_, fun k hk => ?_, fun h => ?_, fun h => ?_,
    fun h => ?_, fun h => ⟨y, hy.agent, ?_⟩⟩
  · exact (hy.bytes k).trans (s.bufServed_bytes b o m k)
  · exact (hy.2.2 k hk).trans (s.bufServed_agent? b o m k)
  · exact hrest.trans (s.bufServed_store b o m h)
  · exact hrest.trans (s.bufServed_load b o m h)
  · rw [hy.agent, hopen h]; rfl
  · rw [hdone h]
    refine ⟨?_, fun hs => ?_, fun hs => ?_⟩
    · split
      · exact Agent.bufMove_others b m
      · exact (congrArg _ (BufOp.deliver_bufOps ..)).trans (Agent.bufMove_others b m)
    · rw [if_pos hs]; exact ⟨rfl, rfl, rfl⟩
    · obtain ⟨l, hl, hm⟩ := hsome
      have hlanes : bufLanes (o.hit s b m o) ≠ 0#32 :=
        bufLanes_ne_zero (List.mem_map_of_mem hl) (by rw [bufHit_lane]; exact BitVec.lt_of_getLsbD hm)
      rw [if_neg (by simp [hs])]
      exact (Delivered_buf (o.hit s b m o) (x.bufMove s b o m) hlanes).of_flight rfl

end Sys2Proof.Machine
end

section
/-! PROOF of `FillsBringMemory` (O25): what a fill of the L1, of an instruction cache and of the L2 leaves in its cache, and that
it changes nothing else but the bookkeeping of the home slices. -/

namespace Sys2Proof.Claim

open Sys2Proof.Machine

theorem SameButHomes.memMark {s t : State} (h : SameButHomes s t) : t.memMark = s.memMark := by
  obtain ⟨_, _, _, rfl⟩ := h; rfl

theorem SameButHomes.mem {s t : State} (h : SameButHomes s t) : t.mem = s.mem := by
  obtain ⟨_, _, _, rfl⟩ := h; rfl

theorem SameButHomes.fills {s t : State} (h : SameButHomes s t) : t.fills = s.fills := by
  obtain ⟨_, _, _, rfl⟩ := h; rfl

theorem SameButHomes.core {s t : State} (h : SameButHomes s t) (c : Nat) : t.core c = s.core c := by
  unfold State.core; rw [h.cores]

end Sys2Proof.Claim

namespace Sys2Proof.Machine

open Sys2Proof.Claim

/-! ## Bytes of a line -/

theorem State.bytes_length (s : State) (key n : Nat) : (s.bytes key n).length = n := by
  induction n generalizing key with
  | zero => rfl
  | succ n ih => simp [State.bytes, ih]

theorem State.bytes_getD (s : State) (key n i : Nat) (h : i < n) : (s.bytes key n).getD i 0#8 = s.byte (key + i) := by
  induction n generalizing key i with
  | zero => omega
  | succ n ih =>
    cases i with
    | zero => rfl
    | succ i => simp only [State.bytes, List.getD_cons_succ, ih (key + 1) i (by omega)]; congr 1; omega

theorem State.bytes_congr {s t : State} (h : t.mem = s.mem) (key n : Nat) : t.bytes key n = s.bytes key n := by
  induction n generalizing key with
  | zero => rfl
  | succ n ih => simp only [State.bytes, ih, State.byte_congr h]

/-- A byte of a line that holds so many bytes of memory. -/
theorem State.lineBits_byte (s : State) (key n w i : Nat) (hw : 8 * n ≤ w) (hi : i < n) :
    (BitVec.ofNat w (s.lineBits key n) >>> (8 * i)).setWidth 8 = s.byte (key + i) := by
  have hlt : s.lineBits key n < 2 ^ w := by
    calc leVal (s.bytes key n) < 256 ^ (s.bytes key n).length := leVal_lt _
      _ = 2 ^ (8 * n) := by rw [State.bytes_length, Nat.pow_mul]
      _ ≤ 2 ^ w := Nat.pow_le_pow_right (by omega) hw
  apply BitVec.eq_of_toNat_eq
  rw [BitVec.toNat_setWidth, BitVec.toNat_ushiftRight, BitVec.toNat_ofNat, Nat.mod_eq_of_lt hlt, Nat.shiftRight_eq_div_pow,
    Nat.pow_mul, ← State.bytes_getD s key n i hi, ← leVal_byte _ _ (by rwa [State.bytes_length])]
  rfl

/-! ## A line of the L1 (R18, R94) -/

/-- A line as its home holds it. -/
def State.freshLine (s : State) (line way : Nat) : L1Line :=
  { way := way, data := BitVec.ofNat 512 (s.lineBits (line * 64) 64),
    marks := setBit (setBit 0#2 0 (nhas s.memMark (2 * line))) 1 (nhas s.memMark (2 * line + 1)) }

theorem State.freshLine_byte (s : State) (line way i : Nat) (hi : i < 64) :
    (s.freshLine line way).byte (64 * line + i) = s.byte (64 * line + i) := by
  have h64 : (64 * line + i) % 64 = i := by omega
  unfold L1Line.byte State.freshLine
  rw [h64, State.lineBits_byte s _ 64 512 i (by omega) hi, Nat.mul_comm]

theorem State.freshLine_marks (s : State) (line way g : Nat) (hg : g < 2) :
    (s.freshLine line way).marks.getLsbD g = nhas s.memMark (2 * line + g) := by
  unfold State.freshLine
  simp only [getLsbD_setBit _ _ _ _ hg]
  obtain rfl | rfl : g = 0 ∨ g = 1 := by omega
  · rfl
  · rfl

theorem State.freshLine_congr {s t : State} (h : t.mem = s.mem) (hm : t.memMark = s.memMark) (line way : Nat) :
    t.freshLine line way = s.freshLine line way := by
  unfold State.freshLine State.lineBits
  rw [State.bytes_congr h, hm]

theorem kget_foldl_kdel {V : Type} (ls : List Nat) (m : KMap V) (k : Nat) (h : k ∉ ls) :
    kget (ls.foldl kdel m) k = kget m k := by
  induction ls generalizing m with
  | nil => rfl
  | cons a t ih =>
    rw [List.foldl_cons, ih _ fun hk => h (List.mem_cons_of_mem _ hk), kget_kdel, if_neg]
    exact fun ha => h (ha ▸ List.mem_cons_self)

/-- The lines that stand in a way of a set are of that set. -/
theorem Core.linesAt_set {x : Core} {line way n : Nat} (h : n ∈ x.linesAt line way) : l1Set n = l1Set line := by
  unfold Core.linesAt at h
  obtain ⟨e, he, rfl⟩ := List.mem_map.mp h
  have := (List.mem_filter.mp he).2
  simp only [Bool.and_eq_true, beq_iff_eq] at this
  exact this.1

theorem Core.pickWay_lt {x : Core} (h : 0 < x.cacheWays) (line : Nat) : x.pickWay line < x.cacheWays := by
  unfold Core.pickWay
  cases hf : (List.range x.cacheWays).find? fun w => (x.linesAt line w).isEmpty with
  | none => exact h
  | some w => exact List.mem_range.mp (List.mem_of_find?_eq_some hf)

/-- Of the two states only the L1 of a core differs, whose lines have become these. -/
def L1Becomes (s t : State) (core : Nat) (l1 : KMap L1Line) : Prop :=
  (∃ cs, t = { s with cores := cs }) ∧ t.core core = { s.core core with l1 := l1 } ∧ ∀ k, k ≠ core → t.core k = s.core k

theorem L1Becomes.trans {s t u : State} {core : Nat} {l l' : KMap L1Line} (h : L1Becomes s t core l)
    (k : L1Becomes t u core l') : L1Becomes s u core l' := by
  obtain ⟨⟨_, rfl⟩, hc, ho⟩ := h
  obtain ⟨⟨_, rfl⟩, kc, ko⟩ := k
  exact ⟨⟨_, rfl⟩, by rw [kc, hc], fun n hn => (ko n hn).trans (ho n hn)⟩

/-- A fill brings the line as its home holds it, into the way named; lines of other sets stay. -/
theorem State.fillL1_spec {s : State} {core line way : Nat} (h : way < (s.core core).cacheWays) :
    ∃ l1, L1Becomes s (s.fillL1 core line way) core l1 ∧ kget l1 line = some (s.freshLine line way) ∧
      ∀ n, l1Set n ≠ l1Set line → kget l1 n = kget (s.core core).l1 n := by
  refine ⟨kput (((s.core core).linesAt line way).foldl kdel (s.core core).l1) line (s.freshLine line way),
    ⟨⟨(s.fillL1 core line way).cores, ?_⟩, ?_, fun k hk => ?_⟩, kget_kput_same .., fun n hn => ?_⟩
  · unfold State.fillL1
    simp only [h, if_true]
    rfl
  · unfold State.fillL1
    simp only [h, if_true, State.core_setCore]
    rfl
  · unfold State.fillL1
    simp only [h, if_true, State.core_setCore, if_neg (Ne.symm hk)]
  · rw [kget_kput_other _ _ (by rintro rfl; exact hn rfl), kget_foldl_kdel _ _ _ fun hm => hn (Core.linesAt_set hm)]

/-- The way that a fill of this line takes among those of a request: the way named for the line that it is named for. -/
def Core.wayFor (x : Core) (line way n : Nat) : Nat := if n = line then way else x.pickWay n

theorem Core.wayFor_lt {x : Core} {way : Nat} (h : way < x.cacheWays) (line n : Nat) : x.wayFor line way n < x.cacheWays := by
  unfold Core.wayFor
  split
  · exact h
  · exact Core.pickWay_lt (by omega) n

/-- Lines of different sets, filled one after the other, all stand as their home holds them. -/
theorem foldl_fillL1_spec (core line way : Nat) (ls : List Nat)
    (hls : ∀ a ∈ ls, ∀ b ∈ ls, l1Set a = l1Set b → a = b) (s : State) (h : way < (s.core core).cacheWays) :
    ∃ l1, L1Becomes s (ls.foldl (fun r n => r.fillL1 core n ((r.core core).wayFor line way n)) s) core l1 ∧
      (∀ n, (∀ m ∈ ls, l1Set n ≠ l1Set m) → kget l1 n = kget (s.core core).l1 n) ∧
      ∀ n ∈ ls, ∃ w, (n = line → w = way) ∧ kget l1 n = some (s.freshLine n w) := by
  induction ls generalizing s with
  | nil => exact ⟨(s.core core).l1, ⟨⟨_, rfl⟩, rfl, fun _ _ => rfl⟩, fun _ _ => rfl, by simp⟩
  | cons a t ih =>
    obtain ⟨l, hb, ha, ho⟩ := State.fillL1_spec (line := a) (Core.wayFor_lt h line a)
    obtain ⟨⟨_, hs⟩, hc, -⟩ := id hb
    obtain ⟨l', hb', ho', hin⟩ := ih (fun a ha b hb => hls a (List.mem_cons_of_mem _ ha) b (List.mem_cons_of_mem _ hb))
      (s.fillL1 core a ((s.core core).wayFor line way a)) (by rw [hc]; exact h)
    rw [hc] at ho'
    refine ⟨l', L1Becomes.trans hb hb', fun n hn => ?_, fun n hn => ?_⟩
    · rw [ho' n fun m hm => hn m (List.mem_cons_of_mem _ hm), ho n (hn a List.mem_cons_self)]
    · by_cases ht : n ∈ t
      · obtain ⟨w, hw, hk⟩ := hin n ht
        exact ⟨w, hw, by rw [hk, State.freshLine_congr (s := s) (by rw [hs]) (by rw [hs])]⟩
      · obtain rfl : n = a := (List.mem_cons.mp hn).resolve_right ht
        refine ⟨_, fun hl => if_pos hl, (ho' n fun m hm he => ht ?_).trans ha⟩
        rwa [hls n hn m (List.mem_cons_of_mem _ hm) he]

/-! ## L1_FILL (R94, R96) -/

/-- The lines of its 256 bytes that an instruction waits for. -/
def MemOp.wantedLines (o : MemOp) (l1 : KMap L1Line) (line : Nat) : List Nat :=
  ((o.lanes.filter fun l => o.waitsForL1 l1 l && l.key / 256 == line / 4).map fun l => l.key / 64).eraseDups

theorem MemOp.mem_wantedLines (o : MemOp) (l1 : KMap L1Line) (line n : Nat) : n ∈ o.wantedLines l1 line ↔
    n / 4 = line / 4 ∧ ∃ l ∈ o.lanes, o.waitsForL1 l1 l = true ∧ l.key / 64 = n := by
  unfold MemOp.wantedLines
  simp only [List.mem_eraseDups, List.mem_map, List.mem_filter, Bool.and_eq_true, beq_iff_eq]
  constructor
  · rintro ⟨l, ⟨hl, hw, hk⟩, rfl⟩
    exact ⟨by omega, l, hl, hw, rfl⟩
  · rintro ⟨hn, l, hl, hw, rfl⟩
    exact ⟨l, ⟨hl, hw, by omega⟩, rfl⟩

/-- The lines of one request are of different sets. -/
theorem MemOp.wantedLines_sets {o : MemOp} {l1 : KMap L1Line} {line : Nat} :
    ∀ a ∈ o.wantedLines l1 line, ∀ b ∈ o.wantedLines l1 line, l1Set a = l1Set b → a = b := by
  intro a ha b hb h
  have h1 := ((o.mem_wantedLines ..).mp ha).1
  have h2 := ((o.mem_wantedLines ..).mp hb).1
  unfold l1Set at h
  omega

section L1
variable {s : State} {core line way : Nat} {p : Place} {o : MemOp}

theorem execL1Fill_held (hw : s.wantsLine core line = some (p, o))
    (hh : ∃ n ∈ o.wantedLines (s.core core).l1 line, s.lineHeld core (.issued o.issued) n = true) :
    exec (.l1Fill core line way) s = .next s := by
  have held : (o.wantedLines (s.core core).l1 line).any (s.lineHeld core (.issued o.issued)) = true := List.any_eq_true.mpr hh
  show execL1Fill core line way s = _
  unfold execL1Fill
  unfold MemOp.wantedLines at held
  simp only [hw, held, Bool.or_true, if_true]

/-- The lines are asked for at their home, and then filled. -/
theorem execL1Fill_fills (hw : s.wantsLine core line = some (p, o)) (hway : way < (s.core core).cacheWays)
    (hh : ∀ n ∈ o.wantedLines (s.core core).l1 line, s.lineHeld core (.issued o.issued) n = false) :
    ∃ t, SameButHomes s t ∧ exec (.l1Fill core line way) s = .next ((o.wantedLines (s.core core).l1 line).foldl
      (fun r n => r.fillL1 core n ((r.core core).wayFor line way n)) t) := by
  have held : (o.wantedLines (s.core core).l1 line).any (s.lineHeld core (.issued o.issued)) = false := by
    simpa using hh
  let wanted := o.lanes.filter fun l => o.waitsForL1 (s.core core).l1 l && l.key / 256 == line / 4
  refine ⟨_, .homeReads s (loadOrigin p o.qual) (dieOfCore core)
    (wanted.filterMap fun l => l.loc.map fun t => ({ t with key := t.key / 64 * 64 }, 64)), ?_⟩
  show execL1Fill core line way s = _
  unfold execL1Fill
  unfold MemOp.wantedLines at held
  simp only [hw, held, Bool.or_false, ge_iff_le, decide_eq_true_eq, Nat.not_le.mpr hway, if_false]
  rfl

theorem l1Fill_brings (hw : s.wantsLine core line = some (p, o)) (hway : way < (s.core core).cacheWays)
    (hh : ∀ n ∈ o.wantedLines (s.core core).l1 line, s.lineHeld core (.issued o.issued) n = false) :
    ∃ u, exec (.l1Fill core line way) s = .next u ∧ SameBytes s u ∧ u.agents = s.agents ∧
      (∀ k, k ≠ core → u.core k = s.core k) ∧
      ∀ n ∈ o.wantedLines (s.core core).l1 line, ∃ w, (n = line → w = way) ∧
        kget (u.core core).l1 n = some (s.freshLine n w) := by
  obtain ⟨t, hst, he⟩ := execL1Fill_fills hw hway hh
  obtain ⟨l1, ⟨⟨_, hu⟩, hc, ho⟩, -, hin⟩ := foldl_fillL1_spec core line way _ MemOp.wantedLines_sets t
    (by rw [hst.core]; exact hway)
  refine ⟨_, he, fun k => ?_, ?_, fun k hk => (ho k hk).trans (hst.core k), fun n hn => ?_⟩
  · rw [hu]; exact hst.bytes k
  · rw [hu]; exact hst.agents
  · obtain ⟨w, hl, hk⟩ := hin n hn
    exact ⟨w, hl, by rw [hc, ← State.freshLine_congr hst.mem hst.memMark, ← hk]⟩

end L1

/-! ## ICACHE_FILL (R20) -/

theorem State.wantsCode_spec {s : State} {core part line t : Nat} {p : Place} {x : Xlat}
    (h : s.wantsCode core part line = some (p, t, x)) : p.core = core ∧ p.part = part ∧ x.key / 128 = line := by
  unfold State.wantsCode at h
  obtain ⟨e, -, he⟩ := List.exists_of_findSome?_eq_some h
  split at he
  · split at he
    · next hp =>
      split at he
      · split at he
        · next hk =>
          cases he
          simp only [Bool.and_eq_true, beq_iff_eq] at hp
          exact ⟨hp.1, hp.2, by simpa using hk⟩
        · cases he
      · cases he
    · cases he
  · cases he

/-- A line that the link does not lose comes into its partition's cache as memory holds it. -/
theorem State.codeFill_spec (s : State) (p : Place) (t : Nat) (x : Xlat) (drop : Option Nat) (hl : s.loses x = false) :
    SameBytes s (s.codeFill p t x drop) ∧ (s.codeFill p t x drop).agents = s.agents ∧
      (∀ k, k ≠ p.core → (s.codeFill p t x drop).core k = s.core k) ∧
      kget ((s.codeFill p t x drop).core p.core).icache (iKey p.part (x.key / 128)) =
        some (BitVec.ofNat 1024 (s.lineBits (128 * (x.key / 128)) 128)) := by
  unfold State.codeFill
  simp only [hl, Bool.false_eq_true, if_false]
  have hst := SameButHomes.homeReads s ⟨0, 4, reqOf p, false⟩ (dieOfCore p.core)
    [({ x with key := 128 * (x.key / 128) }, 128)]
  generalize s.homeReads _ _ _ = r at hst
  refine ⟨hst.bytes, hst.agents, fun k hk => ?_, ?_⟩
  · unfold State.icacheFill
    rw [State.core_modCore, if_neg (Ne.symm hk)]
    exact hst.core k
  · unfold State.icacheFill
    rw [State.core_modCore, if_pos rfl]
    exact kget_kput_same ..

/-! ## L2_FILL (R97) -/

theorem kget_filter_of_key {V : Type} (p : Nat × V → Bool) (m : KMap V) (k : Nat) (h : ∀ v, p (k, v) = true) :
    kget (m.filter p) k = kget m k := by
  induction m with
  | nil => rfl
  | cons e t ih =>
    obtain ⟨k', v⟩ := e
    by_cases hk : k' = k
    · subst hk; simp [kget, h]
    · by_cases hp : p (k', v) = true
      · simpa [kget, hk, hp] using ih
      · simpa [kget, hk, hp] using ih

theorem hostLine_eq_none {k : Nat} (h : k < 2 ^ 80) : hostLine k = none := if_neg (by omega)

section L2
variable (s : State) {line k : Nat}

theorem State.hbmAsk_l2 (o : Origin) (line : Nat) (mask : BitVec 8) (write alloc coded : Bool) :
    (s.hbmAsk o line mask write alloc coded).l2 = s.l2 := by
  unfold State.hbmAsk
  split <;> rfl

/-- A host line taken into ownership or a line given up leaves every other line of device memory as it stands. -/
theorem State.kget_ownHost (hl : line < 2 ^ 80) (hk : k ≠ line) : kget (s.ownHost k).l2 line = kget s.l2 line := by
  unfold State.ownHost
  rw [kget_kput_other _ _ hk, kget_filter_of_key]
  simp [hostLine_eq_none hl]

theorem State.kget_evictL2 (hl : line < 2 ^ 80) (hk : k ≠ line) : kget (s.evictL2 k).l2 line = kget s.l2 line := by
  unfold State.evictL2
  split
  · rfl
  · split
    · exact (kget_kput_other _ _ hk).trans (s.kget_ownHost hl hk)
    · show kget (kdel s.l2 k) line = _
      rw [kget_kdel, if_neg hk]

/-- Room is made for a line among the other lines of its set. -/
theorem State.kget_l2Room (victim : Option Nat) (hl : line < 2 ^ 80) :
    kget (s.l2Room line victim).l2 line = kget s.l2 line := by
  unfold State.l2Room
  extract_lets ways
  have others : ∀ v ∈ ways, v ≠ line := by
    intro v hv
    obtain ⟨e, he, rfl⟩ := List.mem_map.mp hv
    have := (List.mem_filter.mp he).2
    simp only [Bool.and_eq_true, bne_iff_ne] at this
    exact this.1.2
  split
  · next v hv =>
    obtain ⟨-, hin⟩ := Option.filter_eq_some_iff.mp hv
    exact s.kget_evictL2 hl (others v (by simpa using hin))
  · split
    · next hfull =>
      simp only [Bool.and_eq_true, setWays] at hfull
      cases hw : ways with
      | nil => rw [hw] at hfull; simp at hfull
      | cons v t => exact s.kget_evictL2 hl (others v (by rw [hw]; exact List.mem_cons_self))
    · rfl

end L2

/-- Settles O25: the lines of one request fall into different sets, so that filling one does not drive out another; an L2 line
stays while room for it is made. -/
theorem fillsBringMemory : Obligations.FillsBringMemory := by
  refine ⟨fun s core line way p o hw hway => ?_, fun s core part line drop p t x hw => ?_,
    fun s ix victim line mask coded hf hl => ?_⟩
  · intro wanted
    have mem (n : Nat) : n ∈ o.wantedLines (s.core core).l1 line ↔ wanted n := o.mem_wantedLines ..
    refine ⟨fun ⟨n, hn, hh⟩ => execL1Fill_held hw ⟨n, (mem n).mpr hn, hh⟩, fun hh => ?_⟩
    obtain ⟨u, he, hb, ha, ho, hin⟩ := l1Fill_brings hw hway fun n hn => hh n ((mem n).mp hn)
    refine ⟨u, he, hb, ha, ho, fun n hn => ?_⟩
    obtain ⟨w, hline, hk⟩ := hin n ((mem n).mpr hn)
    exact ⟨_, hk, hline, fun i hi => s.freshLine_byte n w i hi, fun g hg => s.freshLine_marks n w g hg⟩
  · have exec_eq : exec (.icacheFill core part line drop) s =
        if s.codeHeld p x.key then .next s else .next (s.codeFill p t x drop) := by
      show execIcacheFill core part line drop s = _
      unfold execIcacheFill
      simp only [hw]
    rw [exec_eq]
    refine ⟨fun h => if_pos h, fun h hlose => ?_⟩
    obtain ⟨rfl, rfl, rfl⟩ := State.wantsCode_spec hw
    obtain ⟨hb, ha, ho, hk⟩ := s.codeFill_spec p t x drop hlose
    refine ⟨_, _, if_neg (by rw [h]; exact Bool.false_ne_true), hb, ha, ho, hk, fun i hi => ?_⟩
    exact State.lineBits_byte s _ 128 1024 i (by omega) hi
  · have hroom := SameButHomes.l2Room { s with fills := s.fills.eraseIdx ix } line victim
    have hline := State.kget_l2Room { s with fills := s.fills.eraseIdx ix } victim hl
    have exec_eq : exec (.l2Fill ix victim) s = execL2Fill ix victim s := rfl
    rw [exec_eq]
    unfold execL2Fill
    simp only [hf]
    generalize State.l2Room _ line victim = r at hroom hline
    refine ⟨_, _, rfl, hroom.bytes, hroom.agents, hroom.cores, hroom.fills, kget_kput_same .., ?_, ?_⟩
    · rw [hline]; unfold kgetD
      cases kget s.l2 line <;> rfl
    · rw [hline]; unfold kgetD
      cases kget s.l2 line <;> rfl

end Sys2Proof.Machine
end

section
/-! RULES for engine commands (O28): what a pass over global memory, a trace record and a token leave alone. -/

namespace Sys2Proof.Claim

open Sys2Proof.Machine

/-! ## Walks -/

theorem SameButWalks.refl (s : State) : SameButWalks s s := ⟨⟨_, _, _, _, _, rfl⟩, fun _ => rfl, fun _ => rfl⟩

theorem SameButWalks.trans {s t u : State} (h : SameButWalks s t) (k : SameButWalks t u) : SameButWalks s u := by
  obtain ⟨⟨_, _, _, _, _, rfl⟩, hc, hd⟩ := h
  obtain ⟨⟨_, _, _, _, _, rfl⟩, kc, kd⟩ := k
  exact ⟨⟨_, _, _, _, _, rfl⟩, fun n => by rw [kc, hc], fun n => by rw [kd, hd]⟩

theorem SameButHomes.walks {s t : State} (h : SameButHomes s t) : SameButWalks s t := by
  obtain ⟨_, _, _, rfl⟩ := h
  exact ⟨⟨_, _, _, _, _, rfl⟩, fun _ => rfl, fun _ => rfl⟩

/-- An entry kept in a core's L1 TLB. -/
theorem SameButWalks.keepCore (s : State) (core : Nat) (tlb : List TlbEntry) :
    SameButWalks s (s.modCore core fun c => { c with tlb := tlb }) := by
  refine ⟨⟨_, _, _, _, _, rfl⟩, fun k => ?_, fun _ => rfl⟩
  rw [State.core_modCore]
  by_cases h : core = k
  · subst h; rw [if_pos rfl]
  · rw [if_neg h]

/-- An entry kept in a die's L2 TLB. -/
theorem SameButWalks.keepDie (s : State) (die : Nat) (tlb : List TlbEntry) :
    SameButWalks s (s.modDie die fun d => { d with tlb := tlb }) := by
  refine ⟨⟨_, _, _, _, _, rfl⟩, fun _ => rfl, fun k => ?_⟩
  rw [State.die_modDie]
  by_cases h : die = k
  · subst h; rw [if_pos rfl]
  · rw [if_neg h]

theorem SameButWalks.translate (s : State) (core tenant : Nat) (va : DWord) (w : Want) :
    SameButWalks s (s.translate core tenant va w).1 := by
  unfold State.translate
  split
  · exact .refl s
  · split
    · exact .refl s
    · split
      · exact .keepCore ..
      · cases walk s tenant (dieOfCore core) va.toNat with
        | leaf e => exact (SameButWalks.keepCore s core (tlbAdd 512 (s.core core).tlb e)).trans (.keepDie ..)
        | fault code => exact .refl s

section Fields
variable {s t : State} (h : SameButWalks s t)
include h

theorem SameButWalks.mem : t.mem = s.mem := by obtain ⟨⟨_, _, _, _, _, rfl⟩, -⟩ := h; rfl
theorem SameButWalks.memMark : t.memMark = s.memMark := by obtain ⟨⟨_, _, _, _, _, rfl⟩, -⟩ := h; rfl
theorem SameButWalks.agents : t.agents = s.agents := by obtain ⟨⟨_, _, _, _, _, rfl⟩, -⟩ := h; rfl
theorem SameButWalks.gangs : t.gangs = s.gangs := by obtain ⟨⟨_, _, _, _, _, rfl⟩, -⟩ := h; rfl
theorem SameButWalks.tenants : t.tenants = s.tenants := by obtain ⟨⟨_, _, _, _, _, rfl⟩, -⟩ := h; rfl
theorem SameButWalks.banks : t.banks = s.banks := by obtain ⟨⟨_, _, _, _, _, rfl⟩, -⟩ := h; rfl
theorem SameButWalks.core (c : Nat) : t.core c = { s.core c with tlb := (t.core c).tlb } := h.2.1 c
theorem SameButWalks.copies (c : Nat) : (t.core c).copies = (s.core c).copies := by rw [h.core]

end Fields

end Sys2Proof.Claim

namespace Sys2Proof.Machine

open Sys2Proof.Claim

/-- A pass of an engine over global memory leaves what its walks leave (R91, R102). -/
theorem locate_walks (req core tenant k : Nat) (w : Want) (n : Nat) (va : DWord) (s : State) :
    SameButWalks s (locate req core tenant k w n va s).1 := by
  induction n generalizing va s with
  | zero => exact .refl s
  | succ n ih =>
    have first := (SameButHomes.walkAsks s req core tenant va).walks.trans (.translate _ core tenant va w)
    unfold locate
    split
    · next s1 x h => rw [h] at first; exact first.trans (ih ..)
    · next s1 code h => rw [h] at first; exact first

/-! ## Trace records (R324) -/

theorem State.trace_untraced {s : State} {c : CmdName} (h : Untraced s c.issuer.tenant) (ev : TraceEv) (st : Nat) :
    s.trace c ev st = s := by
  unfold Untraced at h
  unfold State.trace
  simp only [h, Bool.false_and, Bool.false_eq_true, if_false]

theorem Untraced.congr {s t : State} {tenant : Nat} (h : Untraced s tenant) (ht : t.tenants = s.tenants) : Untraced t tenant := by
  unfold Untraced State.tenant at h ⊢
  rw [ht]; exact h

section Trace
variable (s : State) (c : CmdName) (ev : TraceEv) (st : Nat)

@[simp] theorem State.trace_agents : (s.trace c ev st).agents = s.agents := by
  obtain ⟨_, _, _, h⟩ := s.trace_only c ev st; rw [h]
@[simp] theorem State.trace_cores : (s.trace c ev st).cores = s.cores := by
  obtain ⟨_, _, _, h⟩ := s.trace_only c ev st; rw [h]
@[simp] theorem State.trace_gangs : (s.trace c ev st).gangs = s.gangs := by
  obtain ⟨_, _, _, h⟩ := s.trace_only c ev st; rw [h]
@[simp] theorem State.trace_core (n : Nat) : (s.trace c ev st).core n = s.core n := by
  unfold State.core; rw [State.trace_cores]

end Trace

/-! ## Sets of numbers -/

theorem nhas_nins (k j : Nat) (l : List Nat) : nhas (nins k l) j = (k == j || nhas l j) := by
  induction l with
  | nil => rfl
  | cons x t ih =>
    unfold nins
    split
    · rfl
    · split
      · next h => subst h; simp [nhas]
      · simp only [nhas, List.any_cons] at ih ⊢
        rw [ih, Bool.or_left_comm]

theorem nhas_ndel (k j : Nat) (l : List Nat) : nhas (ndel k l) j = (k != j && nhas l j) := by
  induction l with
  | nil => simp [ndel, nhas]
  | cons x t ih =>
    simp only [nhas, List.any_cons] at ih ⊢
    unfold ndel
    split
    · next h =>
      subst h
      rw [ih]
      simp only [bne]
      cases x == j <;> rfl
    · next h =>
      rw [List.any_cons, ih]
      by_cases hj : x = j
      · subst hj
        have : (k != x) = true := by simpa using Ne.symm h
        simp [this]
      · have : (x == j) = false := by simpa using hj
        simp [this]

theorem mem_nins (k : Nat) (l : List Nat) : k ∈ nins k l := by
  have := nhas_nins k k l
  simpa [nhas] using this

/-! ## Tokens (R99, R131, R207) -/

/-- A status comes to the token that waits for it, and to no other register. -/
theorem Agent.token_spec (reg after status info : Nat) (glob : Bool) (x : Agent) :
    ∃ y, y = x.token reg after status info glob ∧ y.regs.v = x.regs.v ∧ y.regs.p = x.regs.p ∧ y.ctl = x.ctl ∧
      (∀ k, y.regs.sreg k = if k = reg ∧ x.flight.waits (.s reg) after = true
        then BitVec.ofNat 32 (info * 256 + status) else x.regs.sreg k) ∧
      (x.flight.waits (.s reg) after = true → y.flight.waits (.s reg) after = false ∧
        (glob = true → reg ∈ y.flight.tokens)) := by
  refine ⟨_, rfl, ?_⟩
  by_cases h : x.flight.waits (.s reg) after = true
  · have e : x.token reg after status info glob = { x with
        regs := x.regs.setS reg (BitVec.ofNat 32 (info * 256 + status)) false
        flight := { x.flight with
          pend := x.flight.pend.filter fun e => e != (.s reg, after)
          tokens := if glob then nins reg x.flight.tokens else x.flight.tokens } } := if_pos h
    rw [e]
    refine ⟨rfl, rfl, rfl, fun k => ?_, fun _ => ⟨?_, fun hg => ?_⟩⟩
    · rw [Regs.sreg_setS]; simp [h, eq_comm]
    · unfold Flight.waits; simp
    · rw [hg]; exact mem_nins ..
  · rw [show x.token reg after status info glob = x from if_neg h]
    exact ⟨rfl, rfl, rfl, fun k => by simp [h], fun h' => absurd h' h⟩

theorem TokenGiven.of_agents {s u : State} {a reg after status info : Nat} {glob : Bool}
    (h : u.agents = kmod s.agents a (Agent.token reg after status (min info 16777215) glob)) :
    TokenGiven s u a reg after status info glob := by
  have at_ (k : Nat) : u.agent? k = (s.modAgent a (Agent.token reg after status (min info 16777215) glob)).agent? k := by
    unfold State.agent?; rw [h]; rfl
  refine ⟨fun k hk => by rw [at_, State.agent?_modAgent, if_neg (Ne.symm hk)], fun x hx => ?_⟩
  obtain ⟨y, hy, hrest⟩ := Agent.token_spec reg after status (min info 16777215) glob x
  exact ⟨y, by rw [at_, State.agent?_modAgent, if_pos rfl, hx, hy]; rfl, hrest⟩

/-! ## The end of a copy, and its next chunk (R233, R236) -/

/-- Two states hold the same agents and, but for the one of this number, the same copies on a core. -/
def SameButCopy (s t : State) (core id : Nat) : Prop :=
  t.agents = s.agents ∧ (t.core core).copies.filter (fun j => j.id != id) = (s.core core).copies.filter fun j => j.id != id

section Ends
variable {s t : State} {core : Nat} {k : Copy}

theorem State.core_modAgent (s : State) (a : Nat) (f : Agent → Agent) (c : Nat) : (s.modAgent a f).core c = s.core c := rfl

theorem State.copyEnd_copies (t : State) (core : Nat) (k : Copy) (status info : Nat) :
    ((t.copyEnd core k status info).core core).copies = (t.core core).copies.filter fun j => j.id != k.id := by
  unfold State.copyEnd
  rw [State.trace_core, State.core_modAgent, State.core_modCore, if_pos rfl]

theorem State.copyEnd_agents (t : State) (core : Nat) (k : Copy) (status info : Nat) :
    (t.copyEnd core k status info).agents = kmod t.agents k.agent (Agent.token k.token k.after status (min info 16777215)
      (match k.kind with | .out _ => true | _ => false)) := by
  unfold State.copyEnd
  rw [State.trace_agents]
  rfl

/-- A copy that ends leaves its core, and its status comes to its token. -/
theorem copyEnd_ends (h : SameButCopy s t core k.id) (status info : Nat) :
    CopyEnds s (t.copyEnd core k status info) core k status info := by
  obtain ⟨ha, hc⟩ := h
  have agents := State.copyEnd_agents t core k status info
  rw [ha] at agents
  refine ⟨fun j => ?_, TokenGiven.of_agents agents⟩
  rw [State.copyEnd_copies, hc, List.mem_filter, bne_iff_ne]

/-- What a chunk leaves of its copy: with a bad source it ends, else it goes on. -/
def State.copyStep (t : State) (core : Nat) (k : Copy) (sat : Nat) (bad : Bool) : State :=
  if bad then t.copyEnd core k 3 k.chunk else t.copyNext core k sat

theorem State.copy?_modCopy {id : Nat} (hk : t.copy? core id = some k) (f : Copy → Copy) (hf : ∀ j, (f j).id = j.id) :
    (t.modCopy core id f).copy? core id = some (f k) := by
  unfold State.copy? State.modCopy at *
  rw [State.core_modCore, if_pos rfl]
  revert hk
  generalize (t.core core).copies = l
  induction l with
  | nil => exact fun h => nomatch h
  | cons j l ih =>
    by_cases hj : j.id = id
    · simp [hj, hf]
      rintro rfl; rfl
    · simpa [hj] using ih

theorem copyStep_moves (h : SameButCopy s t core k.id) {j : Copy} (hj : t.copy? core k.id = some j) (hchunk : j.chunk = k.chunk)
    (sat : Nat) (bad : Bool) : CopyMoves s (t.copyStep core k sat bad) core k sat bad := by
  unfold State.copyStep CopyMoves
  cases bad with
  | true => exact copyEnd_ends h 3 k.chunk
  | false =>
    simp only [Bool.false_eq_true, if_false]
    unfold State.copyNext
    by_cases hl : k.dstBytes ≤ (k.chunk + 1) * 4096
    · simp only [ge_iff_le, hl, if_true]
      exact copyEnd_ends h ..
    · simp only [ge_iff_le, hl, if_false]
      refine ⟨h.1, ?_⟩
      rw [State.copy?_modCopy hj (fun j => { j with chunk := j.chunk + 1, sat := k.sat + sat }) fun _ => rfl, Option.map_some,
        hchunk]

/-- A chunk's end touches neither memory nor its marks where the tenant does not trace. -/
theorem copyEnd_mem (h : Untraced t k.issuer.tenant) (status info : Nat) :
    (t.copyEnd core k status info).mem = t.mem ∧ (t.copyEnd core k status info).memMark = t.memMark := by
  unfold State.copyEnd
  rw [State.trace_untraced]
  · exact ⟨rfl, rfl⟩
  · exact Untraced.congr h rfl

theorem copyStep_mem (h : Untraced t k.issuer.tenant) (sat : Nat) (bad : Bool) :
    (t.copyStep core k sat bad).mem = t.mem ∧ (t.copyStep core k sat bad).memMark = t.memMark := by
  unfold State.copyStep State.copyNext
  dsimp only
  split
  · exact copyEnd_mem h ..
  · split
    · exact copyEnd_mem h ..
    · exact ⟨rfl, rfl⟩

end Ends

end Sys2Proof.Machine
end

section
/-! RULES for buffers (O28): what a write and a marking of rows leave in the buffers of the gangs and in the converted ways. -/

namespace Sys2Proof.Machine

open Sys2Proof.Claim

/-- A fold keeps what each of its steps keeps. -/
theorem foldl_keeps {α β σ : Type} (φ : σ → β) (f : σ → α → σ) (hf : ∀ s a, φ (f s a) = φ s) (l : List α)
    (s : σ) : φ (l.foldl f s) = φ s := by
  induction l generalizing s with
  | nil => rfl
  | cons a t ih => exact (ih _).trans (hf s a)

theorem State.gang?_modCore (s : State) (c : Nat) (f : Core → Core) (g : Nat) : (s.modCore c f).gang? g = s.gang? g := rfl

theorem State.core_modGang (s : State) (g : Nat) (f : Gang → Gang) (c : Nat) : (s.modGang g f).core c = s.core c := rfl

section Frame
variable (s : State) (p : BufAt)

theorem State.bufPut1_copies (off : Nat) (b : Byte) (c : Nat) : ((s.bufPut1 p off b).core c).copies = (s.core c).copies := by
  unfold State.bufPut1
  split
  · rw [State.core_modCore]
    split
    · next h => rw [h]
    · rfl
  · rfl

theorem State.setBufMark_copies (r : Nat) (b : Bool) (c : Nat) : ((s.setBufMark p r b).core c).copies = (s.core c).copies := by
  unfold State.setBufMark
  dsimp only
  split
  · rw [State.core_modCore]
    split
    · next h => rw [h]
    · rfl
  · rfl

theorem State.bufWrite_copies (cells : List (Nat × Byte)) (c : Nat) :
    ((s.bufWrite p cells).core c).copies = (s.core c).copies :=
  (foldl_keeps (fun s : State => (s.core c).copies) _ (fun s r => State.setBufMark_copies s p r false c) _ _).trans
    (foldl_keeps (fun s : State => (s.core c).copies) _ (fun s (e : Nat × Byte) => s.bufPut1_copies p e.1 e.2 c) _ _)

theorem State.bufMarkRows_copies (off len c : Nat) : ((s.bufMarkRows p off len).core c).copies = (s.core c).copies :=
  foldl_keeps (fun s : State => (s.core c).copies) _ (fun s r => State.setBufMark_copies s p r true c) _ _

end Frame

/-! ## Bytes of buffers -/

/-- The buffers of all gangs and all converted ways hold the same bytes. -/
def SameBuffers (s t : State) : Prop :=
  (∀ c, (t.core c).wayMem = (s.core c).wayMem) ∧ ∀ g, (t.gang? g).map Gang.buf = (s.gang? g).map Gang.buf

theorem SameBuffers.refl (s : State) : SameBuffers s s := ⟨fun _ => rfl, fun _ => rfl⟩

theorem SameBuffers.trans {s t u : State} (h : SameBuffers s t) (k : SameBuffers t u) : SameBuffers s u :=
  ⟨fun c => (k.1 c).trans (h.1 c), fun g => (k.2 g).trans (h.2 g)⟩

theorem SameBuffers.bufByte {s t : State} (h : SameBuffers s t) (p : BufAt) (off : Nat) : t.bufByte p off = s.bufByte p off := by
  have hg := congrArg (fun b => (b.map fun m => kgetD 0#8 m (p.key off)).getD 0#8) (h.2 p.gang)
  simp only [Option.map_map, Function.comp_def] at hg
  unfold State.bufByte
  rw [h.1, hg]

theorem SameBuffers.setBufMark (s : State) (p : BufAt) (r : Nat) (b : Bool) : SameBuffers s (s.setBufMark p r b) := by
  unfold State.setBufMark
  dsimp only
  split
  · refine ⟨fun c => ?_, fun _ => rfl⟩
    rw [State.core_modCore]
    split
    · next h => rw [h]
    · rfl
  · refine ⟨fun _ => rfl, fun g => ?_⟩
    rw [State.gang?_modGang]
    split
    · rw [Option.map_map]; rfl
    · rfl

theorem SameBuffers.foldl {α : Type} (f : State → α → State) (hf : ∀ s a, SameBuffers s (f s a)) (l : List α)
    (s : State) :    SameBuffers s (l.foldl f s) := by
  induction l generalizing s with
  | nil => exact .refl s
  | cons a t ih => exact (hf s a).trans (ih _)

theorem SameBuffers.markRows (s : State) (p : BufAt) (off len : Nat) : SameBuffers s (s.bufMarkRows p off len) :=
  .foldl _ (fun _ _ => .setBufMark ..) _ _

/-- Where two states hold the same bytes, so do they after the same byte is put. -/
theorem SameBuffers.put {s t : State} (h : SameBuffers s t) (p : BufAt) (off : Nat) (b : Byte) :
    SameBuffers (s.bufPut1 p off b) (t.bufPut1 p off b) := by
  unfold State.bufPut1
  split
  · refine ⟨fun c => ?_, h.2⟩
    simp only [State.core_modCore]
    split
    · rw [h.1]
    · exact h.1 c
  · refine ⟨h.1, fun g => ?_⟩
    simp only [State.gang?_modGang]
    split
    · have := congrArg (Option.map fun m => ksetD 0#8 m (p.key off) b) (h.2 g)
      rw [Option.map_map, Option.map_map] at this
      rw [Option.map_map, Option.map_map]
      exact this
    · exact h.2 g

theorem SameBuffers.write {s t : State} (h : SameBuffers s t) (p : BufAt) (cells : List (Nat × Byte)) :
    SameBuffers (s.bufWrite p cells) (t.bufWrite p cells) := by
  have puts : SameBuffers (cells.foldl (fun s c => s.bufPut1 p c.1 c.2) s) (cells.foldl (fun s c => s.bufPut1 p c.1 c.2) t) := by
    induction cells generalizing s t with
    | nil => exact h
    | cons c l ih => exact ih (h.put p c.1 c.2)
  have marks (s : State) : SameBuffers s ((wholeGranules cells).foldl (fun s r => s.setBufMark p r false) s) :=
    .foldl _ (fun _ _ => .setBufMark ..) _ _
  exact ⟨fun c => ((marks _).1 c).trans ((puts.1 c).trans ((marks _).1 c).symm),
    fun g => ((marks _).2 g).trans ((puts.2 g).trans ((marks _).2 g).symm)⟩

/-! ## Marks of buffers (R317) -/

/-- Where the mark of a row of a buffer is kept: in the converted ways of a core, or with the buffers of a gang. -/
def BufAt.slot (p : BufAt) (row : Nat) : Bool × Nat × Nat :=
  if p.inWay (32 * row) then (true, p.core, row - 8192) else (false, p.gang, p.key (32 * row) / 32)

/-- The mark that is kept there. -/
def State.slotMark (s : State) (σ : Bool × Nat × Nat) : Bool :=
  if σ.1 then nhas (s.core σ.2.1).wayMark σ.2.2 else ((s.gang? σ.2.1).map fun g => nhas g.bufMark σ.2.2).getD false

/-- Marks can be kept there: a gang that there is, or a core. -/
def State.slotThere (s : State) (σ : Bool × Nat × Nat) : Bool := σ.1 || (s.gang? σ.2.1).isSome

theorem State.bufMarked_eq (s : State) (p : BufAt) (row : Nat) : s.bufMarked p row = s.slotMark (p.slot row) := by
  unfold State.bufMarked State.slotMark BufAt.slot
  by_cases h : p.inWay (32 * row) = true <;> simp [h]

theorem State.slotThere_of_mark {s : State} {σ : Bool × Nat × Nat} (h : s.slotMark σ = true) : s.slotThere σ = true := by
  obtain ⟨w, c, n⟩ := σ
  unfold State.slotMark at h
  unfold State.slotThere
  cases w with
  | true => rfl
  | false =>
    cases hg : s.gang? c with
    | none => simp [hg] at h
    | some g => rfl

/-- A mark set or cleared there. -/
def State.setSlot (s : State) (σ : Bool × Nat × Nat) (b : Bool) : State :=
  if σ.1 then s.modCore σ.2.1 fun c => { c with wayMark := if b then nins σ.2.2 c.wayMark else ndel σ.2.2 c.wayMark }
  else s.modGang σ.2.1 fun g => { g with bufMark := if b then nins σ.2.2 g.bufMark else ndel σ.2.2 g.bufMark }

theorem State.setBufMark_eq (s : State) (p : BufAt) (row : Nat) (b : Bool) :
    s.setBufMark p row b = s.setSlot (p.slot row) b := by
  unfold State.setBufMark State.setSlot BufAt.slot
  by_cases h : p.inWay (32 * row) = true <;> simp [h]

/-- Setting a mark sets that one alone. -/
theorem State.slotMark_setSlot (s : State) (τ σ : Bool × Nat × Nat) (b : Bool) :
    (s.setSlot τ b).slotMark σ = if τ = σ ∧ s.slotThere σ = true then b else s.slotMark σ := by
  obtain ⟨w, c, n⟩ := σ
  obtain ⟨v, d, k⟩ := τ
  have set_ (l : List Nat) : nhas (if b then nins k l else ndel k l) n = if k = n then b else nhas l n := by
    by_cases hk : k = n <;> cases b <;> simp [nhas_nins, nhas_ndel, hk]
  unfold State.setSlot State.slotMark State.slotThere
  cases v <;> cases w
  · by_cases hd : d = c <;> cases hg : s.gang? c <;> simp [hd, hg, set_]
  · simp [State.core_modGang]
  · simp [State.gang?_modCore]
  · by_cases hd : d = c <;> simp [hd, set_]

theorem State.slotThere_setSlot (s : State) (τ σ : Bool × Nat × Nat) (b : Bool) :
    (s.setSlot τ b).slotThere σ = s.slotThere σ := by
  unfold State.setSlot State.slotThere
  cases τ.1
  · simp only [Bool.false_eq_true, if_false, State.gang?_modGang]
    split
    · rw [Option.isSome_map]
    · rfl
  · simp [State.gang?_modCore]

section MarkFrame
variable (s : State) (p : BufAt) (σ : Bool × Nat × Nat)

theorem State.slotMark_bufPut1 (off : Nat) (b : Byte) : (s.bufPut1 p off b).slotMark σ = s.slotMark σ := by
  unfold State.bufPut1
  split
  all_goals unfold State.slotMark
  · rw [State.core_modCore, State.gang?_modCore]
    by_cases h : p.core = σ.2.1 <;> simp [h]
  · rw [State.core_modGang, State.gang?_modGang]
    by_cases h : p.gang = σ.2.1 <;> simp [h, Function.comp_def]

theorem State.slotThere_bufPut1 (off : Nat) (b : Byte) : (s.bufPut1 p off b).slotThere σ = s.slotThere σ := by
  unfold State.bufPut1 State.slotThere
  split
  · rw [State.gang?_modCore]
  · rw [State.gang?_modGang]
    by_cases h : p.gang = σ.2.1 <;> simp [h]

theorem State.slotThere_setBufMark (r : Nat) (b : Bool) : (s.setBufMark p r b).slotThere σ = s.slotThere σ := by
  rw [State.setBufMark_eq, State.slotThere_setSlot]

/-- Setting the marks of rows sets those alone. -/
theorem State.slotMark_setRows (rows : List Nat) (b : Bool) :
    (rows.foldl (fun s r => s.setBufMark p r b) s).slotMark σ =
      if σ ∈ rows.map p.slot ∧ s.slotThere σ = true then b else s.slotMark σ := by
  induction rows generalizing s with
  | nil => simp
  | cons r t ih =>
    rw [List.foldl_cons, ih, State.slotThere_setBufMark, State.setBufMark_eq, State.slotMark_setSlot]
    simp only [List.map_cons, List.mem_cons, eq_comm (a := σ)]
    by_cases ht : s.slotThere σ = true
    · by_cases h1 : σ ∈ t.map p.slot <;> simp [h1, ht]
    · simp [ht]

theorem State.slotThere_bufWrite (cells : List (Nat × Byte)) : (s.bufWrite p cells).slotThere σ = s.slotThere σ :=
  (foldl_keeps (fun s : State => s.slotThere σ) _ (fun s r => s.slotThere_setBufMark p σ r false) _ _).trans
    (foldl_keeps (fun s : State => s.slotThere σ) _ (fun s (e : Nat × Byte) => s.slotThere_bufPut1 p σ e.1 e.2) _ _)

theorem State.slotThere_bufMarkRows (off len : Nat) : (s.bufMarkRows p off len).slotThere σ = s.slotThere σ :=
  foldl_keeps (fun s : State => s.slotThere σ) _ (fun s r => s.slotThere_setBufMark p σ r true) _ _

/-- A write clears the marks of the granules that it covers whole, and no other. -/
theorem State.slotMark_bufWrite (cells : List (Nat × Byte)) : (s.bufWrite p cells).slotMark σ =
    if σ ∈ (wholeGranules cells).map p.slot ∧ s.slotThere σ = true then false else s.slotMark σ := by
  have puts := foldl_keeps (fun s : State => s.slotMark σ) _ (fun s (e : Nat × Byte) => s.slotMark_bufPut1 p σ e.1 e.2) cells s
  have there := foldl_keeps (fun s : State => s.slotThere σ) _
    (fun s (e : Nat × Byte) => s.slotThere_bufPut1 p σ e.1 e.2) cells s
  unfold State.bufWrite
  rw [State.slotMark_setRows, there, puts]

/-- The rows that bytes of a buffer touch. -/
def rowsOf (off len : Nat) : List Nat := (List.range ((off + len + 31) / 32 - off / 32)).map fun i => off / 32 + i

theorem mem_rowsOf (off len r : Nat) : r ∈ rowsOf off len ↔ off / 32 ≤ r ∧ r < (off + len + 31) / 32 := by
  unfold rowsOf
  simp only [List.mem_map, List.mem_range]
  exact ⟨by rintro ⟨i, hi, rfl⟩; omega, fun h => ⟨r - off / 32, by omega, by omega⟩⟩

theorem State.slotMark_bufMarkRows (off len : Nat) : (s.bufMarkRows p off len).slotMark σ =
    if σ ∈ (rowsOf off len).map p.slot ∧ s.slotThere σ = true then true else s.slotMark σ :=
  s.slotMark_setRows p σ (rowsOf off len) true

end MarkFrame

theorem mem_cellsAt {key : Nat} {bs : List Byte} {e : Nat × Byte} (h : e ∈ cellsAt key bs) :
    key ≤ e.1 ∧ e.1 < key + bs.length := by
  induction bs generalizing key with
  | nil => cases h
  | cons b t ih =>
    rw [List.length_cons]
    rcases List.mem_cons.mp h with rfl | h
    · simp
    · have := ih h
      omega

/-- A granule that consecutive bytes cover whole is one of the rows that they touch. -/
theorem rows_of_whole {off : Nat} {bs : List Byte} {g : Nat} (h : g ∈ wholeGranules (cellsAt off bs)) :
    g ∈ rowsOf off bs.length := by
  unfold wholeGranules at h
  have hw := (List.mem_filter.mp h).2
  have first := List.all_eq_true.mp hw 0 (by simp)
  obtain ⟨e, he, hk⟩ := List.any_eq_true.mp first
  have := mem_cellsAt he
  rw [mem_rowsOf]
  simp only [beq_iff_eq] at hk
  omega

/-! ## What a chunk brings to its buffers (R234, R236, R317) -/

/-- Bytes written to one buffer, with the marks of a bad source. -/
def State.bring (s : State) (p : BufAt) (off : Nat) (data : List Byte) (bad : Bool) : State :=
  if bad then (s.bufWrite p (cellsAt off data)).bufMarkRows p off data.length else s.bufWrite p (cellsAt off data)

section Bring
variable (s : State) (p : BufAt) (off : Nat) (data : List Byte)

theorem State.bring_inBufs (bad : Bool) : InBufs s (s.bring p off data bad) := by
  unfold State.bring
  split
  · exact (InBufs.write ..).trans (.markRows ..)
  · exact .write ..

theorem State.bring_copies (bad : Bool) (c : Nat) : ((s.bring p off data bad).core c).copies = (s.core c).copies := by
  unfold State.bring
  split
  · rw [State.bufMarkRows_copies, State.bufWrite_copies]
  · rw [State.bufWrite_copies]

theorem SameBuffers.bring {s t : State} (h : SameBuffers s t) (bad : Bool) :
    SameBuffers (s.bufWrite p (cellsAt off data)) (t.bring p off data bad) := by
  unfold State.bring
  split
  · exact (h.write ..).trans (.markRows ..)
  · exact h.write ..

theorem State.slotThere_bring (bad : Bool) (σ : Bool × Nat × Nat) :
    (s.bring p off data bad).slotThere σ = s.slotThere σ := by
  unfold State.bring
  split
  · rw [State.slotThere_bufMarkRows, State.slotThere_bufWrite]
  · rw [State.slotThere_bufWrite]

theorem State.slotMark_bring (σ : Bool × Nat × Nat) : (s.bring p off data true).slotMark σ =
    if σ ∈ (rowsOf off data.length).map p.slot ∧ s.slotThere σ = true then true else s.slotMark σ := by
  unfold State.bring
  rw [if_pos rfl, State.slotMark_bufMarkRows, State.slotThere_bufWrite, State.slotMark_bufWrite]
  by_cases h : σ ∈ (rowsOf off data.length).map p.slot
  · by_cases ht : s.slotThere σ = true <;> simp [h, ht]
  · have : σ ∉ (wholeGranules (cellsAt off data)).map p.slot :=
      fun hw => h (List.map_subset p.slot (fun _ => rows_of_whole) hw)
    simp [h, this]

end Bring

section BringAll
variable (off : Nat) (data : List Byte)

/-- The same to each of the buffers. -/
def State.bringAll (ps : List BufAt) (bad : Bool) (s : State) : State := ps.foldl (fun s p => s.bring p off data bad) s

variable (ps : List BufAt) (s : State)

theorem State.bringAll_inBufs (bad : Bool) : InBufs s (s.bringAll off data ps bad) :=
  .foldl _ (fun s p => s.bring_inBufs p off data bad) _ _

theorem State.bringAll_copies (bad : Bool) (c : Nat) : ((s.bringAll off data ps bad).core c).copies = (s.core c).copies :=
  foldl_keeps (fun s : State => (s.core c).copies) _ (fun s p => s.bring_copies p off data bad c) _ _

theorem State.slotThere_bringAll (bad : Bool) (σ : Bool × Nat × Nat) :
    (s.bringAll off data ps bad).slotThere σ = s.slotThere σ :=
  foldl_keeps (fun s : State => s.slotThere σ) _ (fun s p => s.slotThere_bring p off data bad σ) _ _

theorem SameBuffers.bringAll {s t : State} (h : SameBuffers s t) (bad : Bool) :
    SameBuffers (ps.foldl (fun s p => s.bufWrite p (cellsAt off data)) s) (t.bringAll off data ps bad) := by
  induction ps generalizing s t with
  | nil => exact h
  | cons p l ih => exact ih (h.bring p off data bad)

/-- A bad source marks every row of every buffer that takes bytes of it; what was marked stays marked. -/
theorem State.slotMark_bringAll (σ : Bool × Nat × Nat) : (s.bringAll off data ps true).slotMark σ =
    if (∃ p ∈ ps, σ ∈ (rowsOf off data.length).map p.slot) ∧ s.slotThere σ = true then true else s.slotMark σ := by
  unfold State.bringAll
  induction ps generalizing s with
  | nil => simp
  | cons p l ih =>
    rw [List.foldl_cons, ih, State.slotThere_bring, State.slotMark_bring]
    by_cases ht : s.slotThere σ = true
    · simp only [ht, and_true, List.exists_mem_cons_iff]
      by_cases h1 : σ ∈ (rowsOf off data.length).map p.slot
      · simp only [h1, if_true, true_or]; split <;> rfl
      · simp only [h1, if_false, false_or]
    · simp [ht]

end BringAll

end Sys2Proof.Machine
end

section
/-! PROOF of `CopiesRun` (O28): a copy takes its engine, and each chunk of it is a pass over global memory, then what the pass
brings, then the copy's end or its next chunk. -/

namespace Sys2Proof.Machine

open Sys2Proof.Claim

/-! ## COPY_ENGINE_START (R14, R129, R130, R323) -/

section Start
variable {s : State} {core e : Nat} {k : Copy} {x : Agent}

/-- The engines of a core that its copies run on. -/
def State.busyEngines (s : State) (core : Nat) : List Nat :=
  ((s.core core).copies.filter fun k => k.engine.isSome && !s.saving k.gang).filterMap Copy.engine

/-- The copy that may take an engine next: the first that waits for none that owns a line of it. -/
def State.nextCopy (s : State) (core : Nat) : Option Copy :=
  (s.core core).copies.find? fun k => k.engine.isNone && !k.held && !s.saving k.gang && !s.ownedBefore k.stamp k.owned

/-- The copy on its engine. -/
def State.copyStarted (s : State) (core e : Nat) (k : Copy) : State :=
  (s.modCopy core k.id fun k => { k with engine := some e, stopped := false }).trace
    { k.name core with engine := engineId 0 core e } (if k.unstarted then .start else .resume) 0

/-- The copy held by a breakpoint. -/
def State.copyHeld (s : State) (core e : Nat) (k : Copy) (x : Agent) : State :=
  (s.modCopy core k.id fun k => { k with held := true }).reportHeld x k.seq (engineId 0 core e)

theorem execCopyEngineStart_eq (he : (List.range 4).find? (fun i => !(s.busyEngines core).contains i) = some e)
    (hk : s.nextCopy core = some k) (hx : s.agent? k.agent = some x) :
    exec (.copyEngineStart core) s =
      if k.unstarted && !k.released && s.engineBreak x 0 k.seq then .next (s.copyHeld core e k x)
      else if s.olderDone k.agent k.after then .next (s.copyStarted core e k) else .next s := by
  show execCopyEngineStart core s = _
  unfold State.busyEngines at he
  unfold State.nextCopy at hk
  unfold execCopyEngineStart
  simp only [he, hk, hx]
  rfl

theorem State.modCopy_copies (s : State) (core id : Nat) (f : Copy → Copy) :
    ((s.modCopy core id f).core core).copies = (s.core core).copies.map fun j => if j.id = id then f j else j := by
  unfold State.modCopy
  rw [State.core_modCore, if_pos rfl]

theorem State.core_modCopy_other (s : State) {core n : Nat} (h : n ≠ core) (id : Nat) (f : Copy → Copy) :
    (s.modCopy core id f).core n = s.core n := by
  unfold State.modCopy
  rw [State.core_modCore, if_neg (Ne.symm h)]

/-- A command that a breakpoint holds brings its tenant one report. -/
theorem State.reportHeld_reports (s : State) (x : Agent) (seq : Word) (engine : Nat) : ∃ r,
    ((s.reportHeld x seq engine).tenant x.ident.tenant).reports = (s.tenant x.ident.tenant).reports ++ [r] ∧
      HeldReport s x seq r := by
  unfold State.reportHeld State.report
  rw [State.tenant_modTenant, if_pos rfl]
  exact ⟨_, rfl, rfl, rfl, rfl, rfl, rfl⟩

/-- A copy that a breakpoint holds is reported with its number. -/
theorem copyHeld_spec (s : State) (core e : Nat) (k : Copy) (x : Agent) :
    SameBytes s (s.copyHeld core e k x) ∧ (s.copyHeld core e k x).agents = s.agents ∧
      ((s.copyHeld core e k x).core core).copies =
        (s.core core).copies.map (fun j => if j.id = k.id then { j with held := true } else j) ∧
      ∃ r, ((s.copyHeld core e k x).tenant x.ident.tenant).reports = (s.tenant x.ident.tenant).reports ++ [r] ∧
        r.code = 12 ∧ HeldReport s x k.seq r := by
  obtain ⟨r, hr, held⟩ := State.reportHeld_reports
    (s.modCopy core k.id fun k => { k with held := true }) x k.seq (engineId 0 core e)
  exact ⟨fun _ => rfl, rfl, s.modCopy_copies core k.id _, r, hr, held.1, held⟩

theorem copyStarted_spec (s : State) (core e : Nat) (k : Copy) :
    (Untraced s k.issuer.tenant → SameBytes s (s.copyStarted core e k)) ∧ (s.copyStarted core e k).agents = s.agents ∧
      (∀ n, n ≠ core → (s.copyStarted core e k).core n = s.core n) ∧
      ((s.copyStarted core e k).core core).copies = (s.core core).copies.map (fun j =>
        if j.id = k.id then { j with engine := some e, stopped := false } else j) := by
  unfold State.copyStarted
  refine ⟨fun hu => ?_, State.trace_agents .., fun n hn => ?_, ?_⟩
  · rw [State.trace_untraced]
    · exact fun _ => rfl
    · exact Untraced.congr hu rfl
  · rw [State.trace_core, State.core_modCopy_other _ hn]
  · rw [State.trace_core, State.modCopy_copies]

end Start

theorem copiesTakeAnEngine : CopiesTakeAnEngine := by
  intro s core e k x he hk hx
  have start := execCopyEngineStart_eq he hk hx
  constructor
  · intro hc hs hr hb
    have hun : k.unstarted = true := by unfold Copy.unstarted; simp [hc, hs]
    refine ⟨_, start.trans (if_pos (by simp [hun, hr, hb])), copyHeld_spec ..⟩
  · intro hgo hd
    have hgo' : ¬ (k.unstarted && !k.released && s.engineBreak x 0 k.seq) = true := by
      unfold Copy.unstarted
      rcases hgo with h | h | h | h <;> simp [h]
    exact ⟨_, start.trans ((if_neg hgo').trans (if_pos hd)), copyStarted_spec ..⟩

/-! ## COPY_CHUNK (R233) -/

/-- A copy that runs, for a tenant that does not trace. -/
structure CopyRuns (s : State) (core : Nat) (k : Copy) : Prop where
  there : s.copy? core k.id = some k
  goes : k.cancel = false
  engine : k.engine.isSome = true
  free : k.held = false
  unsaved : s.saving k.gang = false
  untraced : Untraced s k.issuer.tenant

section Chunk
variable {s s1 t u : State} {core : Nat} {k : Copy}

theorem execCopyChunk_cancelled (hk : s.copy? core k.id = some k) (hc : k.cancel = true) :
    exec (.copyChunk core k.id) s = .next (s.copyEnd core k 1 k.chunk) := by
  show execCopyChunk core k.id s = _
  unfold execCopyChunk
  simp only [hk, hc, if_true]

theorem execCopyChunk_out (h : CopyRuns s core k) {cbuf : Bool} (hkind : k.kind = .out cbuf) :
    exec (.copyChunk core k.id) s = copyChunkOut core k ⟨k.gang, k.pos, core, if cbuf then .cbuf else .abuf⟩ s := by
  show execCopyChunk core k.id s = _
  obtain ⟨h1, h2, h3, h4, h5, -⟩ := h
  unfold execCopyChunk
  simp [h1, h2, h4, h5, hkind, Option.isSome_iff_ne_none.mp h3]

theorem execCopyChunk_in (h : CopyRuns s core k) (hkind : ∀ cbuf, k.kind ≠ .out cbuf) :
    exec (.copyChunk core k.id) s = copyChunkIn core k s := by
  show execCopyChunk core k.id s = _
  obtain ⟨h1, h2, h3, h4, h5, -⟩ := h
  unfold execCopyChunk
  simp only [h1, h2, h4, h5, Option.isNone_eq_false_iff.mpr h3, Bool.false_eq_true, if_false, or_self]

/-- What a pass that faults leaves: the copy ends with status 2 after nothing of the chunk. -/
theorem copy_faults (h : CopyRuns s core k) (hw : SameButWalks s s1) :
    CopyEnds s (s1.copyEnd core k 2 k.chunk) core k 2 k.chunk ∧ SameBytes s (s1.copyEnd core k 2 k.chunk) := by
  refine ⟨copyEnd_ends ⟨hw.agents, by rw [hw.copies]⟩ 2 k.chunk, fun a => ?_⟩
  exact State.byte_congr ((copyEnd_mem (Untraced.congr h.untraced hw.tenants) 2 k.chunk).1.trans hw.mem) a

theorem State.copy?_congr (h : (t.core core).copies = (s.core core).copies) (id : Nat) : t.copy? core id = s.copy? core id := by
  unfold State.copy?; rw [h]

theorem State.copyTargets_congr (h : t.gangs = s.gangs) : t.copyTargets core k = s.copyTargets core k := by
  unfold State.copyTargets State.gangCores State.gang?; rw [h]

theorem State.copyTargets_gang {p : BufAt} (h : p ∈ s.copyTargets core k) : p.gang = k.gang := by
  unfold State.copyTargets at h
  split at h
  · obtain ⟨e, -, rfl⟩ := List.mem_map.mp h; rfl
  all_goals obtain rfl := List.mem_singleton.mp h; rfl

/-- Beyond the copies of its core a chunk's end changes no core and no gang. -/
theorem copyEnd_elsewhere (t : State) (core : Nat) (k : Copy) (status info : Nat) :
    (t.copyEnd core k status info).gangs = t.gangs ∧ ∀ c, (t.copyEnd core k status info).core c =
      { t.core c with copies := ((t.copyEnd core k status info).core c).copies } := by
  unfold State.copyEnd
  refine ⟨State.trace_gangs .., fun c => ?_⟩
  rw [State.trace_core, State.core_modAgent, State.core_modCore]
  split
  · next h => rw [h]
  · rfl

theorem copyStep_elsewhere (t : State) (core : Nat) (k : Copy) (sat : Nat) (bad : Bool) :
    (t.copyStep core k sat bad).gangs = t.gangs ∧ ∀ c, (t.copyStep core k sat bad).core c =
      { t.core c with copies := ((t.copyStep core k sat bad).core c).copies } := by
  unfold State.copyStep State.copyNext
  dsimp only
  split
  · exact copyEnd_elsewhere ..
  · split
    · exact copyEnd_elsewhere ..
    · refine ⟨rfl, fun c => ?_⟩
      unfold State.modCopy
      rw [State.core_modCore]
      split
      · next h => rw [h]
      · rfl

theorem copyStep_buffers (t : State) (core : Nat) (k : Copy) (sat : Nat) (bad : Bool) :
    SameBuffers t (t.copyStep core k sat bad) := by
  obtain ⟨hg, hc⟩ := copyStep_elsewhere t core k sat bad
  refine ⟨fun c => by rw [hc], fun g => ?_⟩
  unfold State.gang?
  rw [hg]

theorem copyStep_slotMark (t : State) (core : Nat) (k : Copy) (sat : Nat) (bad : Bool) (σ : Bool × Nat × Nat) :
    (t.copyStep core k sat bad).slotMark σ = t.slotMark σ := by
  obtain ⟨hg, hc⟩ := copyStep_elsewhere t core k sat bad
  unfold State.slotMark State.gang?
  rw [hg, hc]

/-! ## Chunks into buffers (R234, R236) -/

/-- What a chunk into buffers leaves: no byte of memory changes, the copy moves, its buffers hold the bytes, and a bad source
marks the rows written. -/
def ChunkArrives (s s1 u : State) (core : Nat) (k : Copy) (off : Nat) (data : List Byte) (sat : Nat) (bad : Bool) : Prop :=
  SameBytes s u ∧
  ((∀ q o, u.bufByte q o =
      ((s1.copyTargets core k).foldl (fun s p => s.bufWrite p (cellsAt off data)) s1).bufByte q o) ∧
    (bad = true → (s.gang? k.gang).isSome = true → ∀ p ∈ s.copyTargets core k, ∀ i, i < data.length / 32 →
      u.bufMarked p (off / 32 + i) = true)) ∧
  CopyMoves s u core k sat bad

theorem State.copyIntoBufs_eq (t : State) (core : Nat) (k : Copy) (off : Nat) (data : List Byte) (sat : Nat) (bad : Bool) :
    t.copyIntoBufs core k off data sat bad =
      (t.bringAll off data (t.copyTargets core k) bad).copyStep core k sat bad := rfl

theorem State.slotThere_of_gang {p : BufAt} (h : (t.gang? p.gang).isSome = true) (row : Nat) :
    t.slotThere (p.slot row) = true := by
  unfold State.slotThere BufAt.slot
  split
  · rfl
  · exact h

theorem copyIntoBufs_arrives (h : CopyRuns s core k) (hw : SameButWalks s s1) (ht : SameButHomes s1 t) (off : Nat)
    (data : List Byte) (sat : Nat) (bad : Bool) :
    ChunkArrives s s1 (t.copyIntoBufs core k off data sat bad) core k off data sat bad := by
  have hst := hw.trans ht.walks
  unfold ChunkArrives
  rw [State.copyTargets_congr hw.gangs]
  rw [State.copyIntoBufs_eq, State.copyTargets_congr hst.gangs]
  generalize hps : s.copyTargets core k = ps
  have hin := t.bringAll_inBufs off data ps bad
  have hcopies := t.bringAll_copies off data ps bad core
  have huntraced : Untraced (t.bringAll off data ps bad) k.issuer.tenant :=
    Untraced.congr h.untraced (by obtain ⟨_, _, hb⟩ := hin; rw [hb]; exact hst.tenants)
  have hcopies' := hcopies.trans (hst.copies core)
  refine ⟨fun a => ?_, ⟨fun q o => ?_, fun hb hg p hp i hi => ?_⟩, ?_⟩
  · exact State.byte_congr ((copyStep_mem huntraced sat bad).1.trans (hin.mem.trans hst.mem)) a
  · have same : SameBuffers s1 t := by obtain ⟨_, _, _, rfl⟩ := ht; exact .refl _
    rw [(copyStep_buffers ..).bufByte, (SameBuffers.bringAll off data ps same bad).bufByte]
  · subst hb
    have hthere : t.slotThere (p.slot (off / 32 + i)) = true := by
      apply State.slotThere_of_gang
      rw [← hps] at hp
      rw [State.copyTargets_gang hp]
      unfold State.gang?
      rw [hst.gangs]
      exact hg
    have hrow : off / 32 + i ∈ rowsOf off data.length := by rw [mem_rowsOf]; omega
    rw [State.bufMarked_eq, copyStep_slotMark, State.slotMark_bringAll, if_pos]
    exact ⟨⟨p, hp, List.mem_map_of_mem hrow⟩, hthere⟩
  · exact copyStep_moves ⟨hin.agents.trans hst.agents, by rw [hcopies']⟩
      ((State.copy?_congr hcopies' k.id).trans h.there) rfl sat bad

end Chunk

end Sys2Proof.Machine
end

section
/-! PROOF of `CopiesRun` (O28): the chunks of each kind of copy, with what holds them and what ends the copy. -/

namespace Sys2Proof.Machine

open Sys2Proof.Claim

/-! ## The passes of a chunk (R102, R130, R236) -/

/-- The bytes that a chunk brings to its destination. -/
def Copy.chunkLen (k : Copy) : Nat := min 4096 (k.dstBytes - 4096 * k.chunk)

/-- The requester number of the engine that a copy runs on. -/
def Copy.req (core : Nat) (k : Copy) : Nat := (copyOrigin core k.qual (k.engine.getD 0)).req

/-- The pass over the chunk's granules of global memory, as many as it has bytes. -/
def State.chunkPass (s : State) (core : Nat) (k : Copy) (w : Want) : State × List Xlat × Pass :=
  locate (k.req core) core (s.cmdTenant k.gang) 32 w (k.chunkLen / 32) (k.glob + BitVec.ofNat 64 (4096 * k.chunk)) s

/-- The elements of a quantising chunk, the first of them, and the piece of its source (R236). -/
def Copy.elems (k : Copy) (dt : Nat) : Nat := k.chunkLen / typeBytes dt
def Copy.elem0 (k : Copy) (dt : Nat) : Nat := 4096 * k.chunk / typeBytes dt
def Copy.piece (k : Copy) (dt st : Nat) : Nat := min 32 (k.elems dt * typeBytes st)

/-- The pass over the source of a quantising chunk. -/
def State.sourcePass (s : State) (core : Nat) (k : Copy) (dt st : Nat) : State × List Xlat × Pass :=
  locate (k.req core) core (s.cmdTenant k.gang) (k.piece dt st) .read ((k.elems dt * typeBytes st + 31) / 32)
    (k.glob + BitVec.ofNat 64 (k.elem0 dt * typeBytes st)) s

/-- The pass over its scales, of a tenant. -/
def State.scalePass (s1 : State) (core tenant : Nat) (k : Copy) (lb dt : Nat) (scl : DWord) : State × List Xlat × Pass :=
  locate (k.req core) core tenant 1 .read ((k.elem0 dt + k.elems dt - 1) / 2 ^ lb - k.elem0 dt / 2 ^ lb + 1)
    (scl + BitVec.ofNat 64 (k.elem0 dt / 2 ^ lb)) s1

/-- A pass finds a location whose line is held. -/
def State.passHeld (s : State) (core : Nat) (r : Reach) (xs : List Xlat) : Bool :=
  (xs.map Xlat.key).any (s.reachHeld (dieOfCore core) r)

theorem State.passHeld_true {s : State} {core : Nat} {r : Reach} {xs : List Xlat} :
    s.passHeld core r xs = true ↔ ∃ a ∈ xs, s.reachHeld (core / 40) r a.key = true := by
  unfold State.passHeld
  rw [List.any_map, List.any_eq_true]
  rfl

theorem State.passHeld_false {s : State} {core : Nat} {r : Reach} {xs : List Xlat} :
    s.passHeld core r xs = false ↔ ∀ a ∈ xs, s.reachHeld (core / 40) r a.key = false := by
  rw [← Bool.not_eq_true, State.passHeld_true]
  simp

section Kinds
variable {s s1 s2 : State} {core : Nat} {k : Copy} {xs ys : List Xlat} {code : Nat}

/-! ## Chunks out of buffers (R232) -/

section Out
variable {p : BufAt}

/-- The cells that bytes are written to, 32 at each location. -/
def outCells (xs : List Xlat) (data : List Byte) : List (Nat × Byte) :=
  xs.zipIdx.flatMap fun e => cellsAt e.1.key ((data.drop (e.2 * 32)).take 32)

/-- The lines of cells. -/
def cellLines (cells : List (Nat × Byte)) : List Nat := (cells.map fun c => c.1 / 64).eraseDups

/-- The bytes of a chunk out, written by the copy's engine. -/
def State.outBytes (s : State) (core : Nat) (k : Copy) (xs : List Xlat) (data : List Byte) : State :=
  s.engineWriteAt (copyOrigin core k.qual (k.engine.getD 0)) (dieOfCore core) 32 xs data

/-- What a chunk out writes: its bytes, the marks of a bad source, and the granules that the copy has written. -/
def State.outWritten (s : State) (core : Nat) (k : Copy) (xs : List Xlat) (data : List Byte) (bad : Bool) : State :=
  (if bad then (s.outBytes core k xs data).markAll (xs.map Xlat.key) else s.outBytes core k xs data).modCopy core k.id
    fun j => { j with written := j.written ++ (xs.map Xlat.key).map fun a => (a, a + 32) }

theorem State.chunkPass_out {w : Want} (hk : k.dstBytes = k.bytes) : s.chunkPass core k w =
    locate (copyOrigin core k.qual (k.engine.getD 0)).req core (s.cmdTenant k.gang) 32 w
      (min 4096 (k.bytes - 4096 * k.chunk) / 32) (k.glob + BitVec.ofNat 64 (4096 * k.chunk)) s := by
  unfold State.chunkPass Copy.chunkLen
  rw [hk]; rfl

theorem copyChunkOut_fault (hk : k.dstBytes = k.bytes) (hl : s.chunkPass core k .write = (s1, xs, .fault code)) :
    copyChunkOut core k p s = .next (s1.copyEnd core k 2 k.chunk) := by
  rw [State.chunkPass_out hk] at hl
  unfold copyChunkOut
  simp only [hl]

theorem copyChunkOut_held (hk : k.dstBytes = k.bytes) (hl : s.chunkPass core k .write = (s1, xs, .done))
    (hh : s1.passHeld core (.command k.stamp) xs = true) : copyChunkOut core k p s = .next s := by
  rw [State.chunkPass_out hk] at hl
  unfold State.passHeld at hh
  unfold copyChunkOut
  simp only [hl, hh, true_or, if_true]

theorem copyChunkOut_moves (hk : k.dstBytes = k.bytes) (hl : s.chunkPass core k .write = (s1, xs, .done))
    (hh : s1.passHeld core (.command k.stamp) xs = false)
    (hb : s.bankTaken p (k.buf + 4096 * k.chunk) k.chunkLen = false) :
    copyChunkOut core k p s = .next ((s1.outWritten core k xs (s1.bufBytes p (k.buf + 4096 * k.chunk) k.chunkLen)
      (s1.bufAnyMark p (k.buf + 4096 * k.chunk) k.chunkLen)).copyStep core k 0
      (s1.bufAnyMark p (k.buf + 4096 * k.chunk) k.chunkLen)) := by
  rw [State.chunkPass_out hk] at hl
  unfold State.passHeld at hh
  unfold Copy.chunkLen at hb ⊢
  rw [hk] at hb ⊢
  unfold copyChunkOut
  simp only [hl, hh, hb, Bool.false_eq_true, or_self, if_false]
  unfold State.copyStep
  split
  · next h => simp only [h]; rfl
  · next h => simp only [h]; rfl

theorem State.markAll_only (t : State) (keys : List Nat) : ∃ m, t.markAll keys = { t with memMark := m } := by
  unfold State.markAll
  induction keys generalizing t with
  | nil => exact ⟨_, rfl⟩
  | cons a l ih => obtain ⟨m, e⟩ := ih (t.markGranule (a / 32)); exact ⟨m, e⟩

/-- Every location of the pass is marked. -/
theorem State.markAll_marks (t : State) (keys : List Nat) (g : Nat) :
    nhas (t.markAll keys).memMark g = true ↔ nhas t.memMark g = true ∨ ∃ a ∈ keys, a / 32 = g := by
  unfold State.markAll
  induction keys generalizing t with
  | nil => simp
  | cons a l ih =>
    have : nhas (t.markGranule (a / 32)).memMark g = (a / 32 == g || nhas t.memMark g) := nhas_nins ..
    rw [List.foldl_cons, ih, this]
    simp only [Bool.or_eq_true, beq_iff_eq, List.exists_mem_cons_iff]
    tauto

theorem State.wakeLines_agents_congr {s t : State} (h : t.agents = s.agents) (ls : List Nat) :
    (t.wakeLines ls).agents = (s.wakeLines ls).agents := by
  unfold State.wakeLines
  simp only [h]

theorem SameButCopy.modCopy (t : State) (core id : Nat) {f : Copy → Copy} (hf : ∀ j, (f j).id = j.id) :
    SameButCopy t (t.modCopy core id f) core id := by
  refine ⟨rfl, ?_⟩
  rw [State.modCopy_copies]
  induction (t.core core).copies with
  | nil => rfl
  | cons j l ih => by_cases hj : j.id = id <;> simp [hj, hf, ih]

/-- The written state, but for the marks and the copy's own record, is that of the write and its wakes. -/
theorem State.outWritten_only (s : State) (core : Nat) (k : Copy) (xs : List Xlat) (data : List Byte) (bad : Bool) :
    ∃ t, s.outWritten core k xs data bad =
        t.modCopy core k.id (fun j => { j with written := j.written ++ (xs.map Xlat.key).map fun a => (a, a + 32) }) ∧
      (∃ m b, SameButHomes ((s.write (outCells xs data)).wakeLines (cellLines (outCells xs data))) b ∧
        t = { b with memMark := m }) ∧
      (bad = true → ∀ a ∈ xs, nhas t.memMark (a.key / 32) = true) := by
  have homes : SameButHomes ((s.write (outCells xs data)).wakeLines (cellLines (outCells xs data)))
    (s.outBytes core k xs data) := .homeWrites ..
  refine ⟨_, rfl, ?_, ?_⟩
  · cases bad with
    | true =>
      obtain ⟨m, e⟩ := (s.outBytes core k xs data).markAll_only (xs.map Xlat.key)
      exact ⟨m, _, homes, e⟩
    | false => exact ⟨_, _, homes, rfl⟩
  · rintro rfl a ha
    exact (State.markAll_marks ..).mpr (.inr ⟨a.key, List.mem_map_of_mem ha, rfl⟩)

theorem copyOut_moves (h : CopyRuns s core k) (hw : SameButWalks s s1) (data : List Byte) (bad : Bool) :
    let u := (s1.outWritten core k xs data bad).copyStep core k 0 bad
    (∀ a, u.byte a = (s.write (outCells xs data)).byte a) ∧
      (bad = true → ∀ a ∈ xs, nhas u.memMark (a.key / 32) = true) ∧
      CopyMoves (s.wakeLines (cellLines (outCells xs data))) u core k 0 bad := by
  obtain ⟨t, ht, ⟨m, b, hhomes, hb⟩, hmarks⟩ := s1.outWritten_only core k xs data bad
  have walks := hhomes.walks
  have agents : t.agents = (s.wakeLines (cellLines (outCells xs data))).agents := by
    rw [hb]
    exact walks.agents.trans (State.wakeLines_agents_congr hw.agents _)
  have copies : (t.core core).copies = (s.core core).copies := by
    rw [hb]
    exact (walks.copies core).trans (hw.copies core)
  have mem : t.mem = (s.write (outCells xs data)).mem := by
    rw [hb]
    refine walks.mem.trans ?_
    exact congrArg (fun m => memPuts m (outCells xs data)) hw.mem
  have untraced : Untraced t k.issuer.tenant := Untraced.congr h.untraced (by rw [hb]; exact walks.tenants.trans hw.tenants)
  rw [ht]
  obtain ⟨stepMem, stepMark⟩ := copyStep_mem (t := t.modCopy core k.id _) (Untraced.congr untraced rfl) 0 bad
  refine ⟨fun a => State.byte_congr (stepMem.trans mem) a, fun hbad a ha => ?_, ?_⟩
  · rw [stepMark]
    exact hmarks hbad a ha
  · obtain ⟨e, hrest⟩ := SameButCopy.modCopy t core k.id (f := fun j =>
      { j with written := j.written ++ (xs.map Xlat.key).map fun a => (a, a + 32) }) fun _ => rfl
    refine copyStep_moves ⟨e.trans agents, hrest.trans (congrArg _ copies)⟩ (State.copy?_modCopy ?_ _ fun _ => rfl) rfl 0 bad
    exact (State.copy?_congr copies k.id).trans h.there

end Out

/-! ## Chunks into buffers as they are (R233, R234) -/

section Plain

theorem copyChunkIn_fault (hk : k.kind = .abuf ∨ k.kind = .wbuf ∨ k.kind = .mc)
    (hl : s.chunkPass core k .read = (s1, xs, .fault code)) :
    copyChunkIn core k s = .next (s1.copyEnd core k 2 k.chunk) := by
  unfold State.chunkPass Copy.req Copy.chunkLen at hl
  unfold copyChunkIn
  rcases hk with hk | hk | hk <;> simp only [hk, hl]

theorem copyChunkIn_held (hk : k.kind = .abuf ∨ k.kind = .wbuf ∨ k.kind = .mc)
    (hl : s.chunkPass core k .read = (s1, xs, .done)) (hh : s1.passHeld core (.issued k.stamp) xs = true) :
    copyChunkIn core k s = .next s := by
  unfold State.chunkPass Copy.req Copy.chunkLen at hl
  unfold State.passHeld at hh
  unfold copyChunkIn
  rcases hk with hk | hk | hk <;> simp only [hk, hl, hh, true_or, if_true]

/-- A bank that the chunk needs is taken. -/
def State.chunkTaken (s : State) (core : Nat) (k : Copy) : Bool :=
  (s.copyTargets core k).any fun p => s.bankTaken p (k.buf + 4096 * k.chunk) k.chunkLen

theorem State.chunkTaken_false (h : ∀ p ∈ s.copyTargets core k, s.bankTaken p (k.buf + 4096 * k.chunk) k.chunkLen = false) :
    s.chunkTaken core k = false := by
  unfold State.chunkTaken
  rw [List.any_eq_false]
  simpa using h

theorem copyChunkIn_moves (hk : k.kind = .abuf ∨ k.kind = .wbuf ∨ k.kind = .mc)
    (hl : s.chunkPass core k .read = (s1, xs, .done)) (hh : s1.passHeld core (.issued k.stamp) xs = false)
    (hb : s.chunkTaken core k = false) : copyChunkIn core k s =
      .next ((s1.homeReads (copyOrigin core k.qual (k.engine.getD 0)) (dieOfCore core) (xs.map fun x => (x, 32))).copyIntoBufs
        core k (k.buf + 4096 * k.chunk) (s1.gather 32 (xs.map Xlat.key)) 0 (xs.any fun a => s1.marked a.key 32)) := by
  unfold State.chunkPass Copy.req Copy.chunkLen at hl
  unfold State.passHeld at hh
  unfold State.chunkTaken Copy.chunkLen at hb
  unfold copyChunkIn
  rcases hk with hk | hk | hk <;> simp only [hk, hl, hh, hb, Bool.false_eq_true, or_self, if_false, List.any_map] <;> rfl

end Plain

/-! ## Chunks that quantise (R236) -/

section Quant
variable {w : Bool} {lb rm dt st : Nat} {scl : DWord}

theorem copyChunkIn_sourceFault (hk : k.kind = .quant w lb rm dt st scl)
    (hl : s.sourcePass core k dt st = (s1, xs, .fault code)) :
    copyChunkIn core k s = .next (s1.copyEnd core k 2 k.chunk) := by
  unfold State.sourcePass Copy.req Copy.piece Copy.elems Copy.elem0 Copy.chunkLen at hl
  unfold copyChunkIn
  simp only [hk, hl]

theorem copyChunkIn_scaleFault (hk : k.kind = .quant w lb rm dt st scl) (hl : s.sourcePass core k dt st = (s1, xs, .done))
    (hs : s1.scalePass core (s.cmdTenant k.gang) k lb dt scl = (s2, ys, .fault code)) :
    copyChunkIn core k s = .next (s2.copyEnd core k 2 k.chunk) := by
  unfold State.sourcePass Copy.req Copy.piece Copy.elems Copy.elem0 Copy.chunkLen at hl
  unfold State.scalePass Copy.req Copy.elems Copy.elem0 Copy.chunkLen at hs
  unfold copyChunkIn scalesFrom
  simp only [hk, hl, hs]

/-- The elements that a quantising chunk delivers, and how many of them were saturated. -/
def State.quantised (s2 : State) (k : Copy) (lb rm dt st : Nat) (xs ys : List Xlat) : List Byte × Nat :=
  quantRun st dt rm lb (k.elem0 dt) (fun b => (ys.map fun y => s2.byte y.key).getD (b - k.elem0 dt / 2 ^ lb) 0#8)
    (s2.gather (k.piece dt st) (xs.map Xlat.key)) (k.elems dt)

theorem copyChunkIn_quantMoves (hk : k.kind = .quant w lb rm dt st scl) (hl : s.sourcePass core k dt st = (s1, xs, .done))
    (hs : s1.scalePass core (s.cmdTenant k.gang) k lb dt scl = (s2, ys, .done))
    (hh : s2.passHeld core (.issued k.stamp) (xs ++ ys) = false) (hb : s.chunkTaken core k = false) : copyChunkIn core k s =
      .next ((s2.homeReads (copyOrigin core k.qual (k.engine.getD 0)) (dieOfCore core)
          ((xs.map fun x => (x, k.piece dt st)) ++ ys.map fun y => (y, 1))).copyIntoBufs
        core k (k.buf + 4096 * k.chunk) (s2.quantised k lb rm dt st xs ys).1 (s2.quantised k lb rm dt st xs ys).2
        ((ys.any fun y => s2.marked y.key 1) || xs.any fun a => s2.marked a.key (k.piece dt st))) := by
  unfold State.sourcePass Copy.req Copy.piece Copy.elems Copy.elem0 Copy.chunkLen at hl
  unfold State.scalePass Copy.req Copy.elems Copy.elem0 Copy.chunkLen at hs
  unfold State.passHeld at hh
  rw [List.map_append] at hh
  unfold State.chunkTaken Copy.chunkLen at hb
  unfold copyChunkIn scalesFrom
  simp only [hk, hl, hs, hh, hb, Bool.false_eq_true, or_self, if_false, List.any_map]
  rfl

end Quant

/-! ## The claim -/

theorem State.chunkPass_walks {w : Want} {ps : Pass} (hl : s.chunkPass core k w = (s1, xs, ps)) : SameButWalks s s1 := by
  have := locate_walks (k.req core) core (s.cmdTenant k.gang) 32 w (k.chunkLen / 32) (k.glob + BitVec.ofNat 64 (4096 * k.chunk)) s
  unfold State.chunkPass at hl
  rwa [hl] at this

theorem State.sourcePass_walks {dt st : Nat} {ps : Pass} (hl : s.sourcePass core k dt st = (s1, xs, ps)) :
    SameButWalks s s1 := by
  have := locate_walks (k.req core) core (s.cmdTenant k.gang) (k.piece dt st) .read ((k.elems dt * typeBytes st + 31) / 32)
    (k.glob + BitVec.ofNat 64 (k.elem0 dt * typeBytes st)) s
  unfold State.sourcePass at hl
  rwa [hl] at this

theorem State.scalePass_walks {tenant lb dt : Nat} {scl : DWord} {ps : Pass}
    (hl : s1.scalePass core tenant k lb dt scl = (s2, ys, ps)) : SameButWalks s1 s2 := by
  have := locate_walks (k.req core) core tenant 1 .read ((k.elem0 dt + k.elems dt - 1) / 2 ^ lb - k.elem0 dt / 2 ^ lb + 1)
    (scl + BitVec.ofNat 64 (k.elem0 dt / 2 ^ lb)) s1
  unfold State.scalePass at hl
  rwa [hl] at this

/-- A page of the pass that faults ends the copy. -/
theorem chunk_faults (h : CopyRuns s core k) (hw : SameButWalks s s1)
    (he : exec (.copyChunk core k.id) s = .next (s1.copyEnd core k 2 k.chunk)) :
    ∃ u, exec (.copyChunk core k.id) s = .next u ∧ CopyEnds s u core k 2 k.chunk ∧ SameBytes s u :=
  ⟨_, he, copy_faults h hw⟩

theorem State.bankTaken_walks (hw : SameButWalks s s1) (p : BufAt) (off len : Nat) :
    s1.bankTaken p off len = s.bankTaken p off len := by
  unfold State.bankTaken
  rw [hw.banks]

end Kinds

theorem copiesMoveChunks : CopiesMoveChunks := by
  intro s core cmd k hthere tenant req lo len free arrive
  obtain rfl : k.id = cmd := by simpa using List.find?_some hthere
  refine ⟨fun hc => ⟨_, execCopyChunk_cancelled hthere hc, copyEnd_ends ⟨rfl, rfl⟩ .., fun hu a => ?_⟩, ?_⟩
  · exact State.byte_congr (copyEnd_mem hu 1 k.chunk).1 a
  intro hgoes heng hheld hsave huntraced
  have runs : CopyRuns s core k := ⟨hthere, hgoes, heng, hheld, hsave, huntraced⟩
  refine ⟨?_, ?_, ?_⟩
  · intro cbuf s1 xs hkind p
    have hk : k.dstBytes = k.bytes := by unfold Copy.dstBytes; rw [hkind]
    have step := execCopyChunk_out runs hkind
    refine ⟨fun code hl => ?_, fun hl => ⟨?_, ?_⟩⟩
    · exact chunk_faults runs (State.chunkPass_walks hl) (step.trans (copyChunkOut_fault hk hl))
    · exact fun hh => step.trans (copyChunkOut_held hk hl (State.passHeld_true.mpr hh))
    · intro hh hb
      have hw := State.chunkPass_walks hl
      rw [State.bankTaken_walks hw] at hb
      exact ⟨_, step.trans (copyChunkOut_moves hk hl (State.passHeld_false.mpr hh) hb), copyOut_moves runs hw _ _⟩
  · intro s1 xs hkind
    have step := execCopyChunk_in runs (by rcases hkind with h | h | h <;> simp [h])
    refine ⟨fun code hl => ?_, fun hl => ⟨?_, ?_⟩⟩
    · exact chunk_faults runs (State.chunkPass_walks hl) (step.trans (copyChunkIn_fault hkind hl))
    · exact fun hh => step.trans (copyChunkIn_held hkind hl (State.passHeld_true.mpr hh))
    · intro hh hfree
      exact ⟨_, step.trans (copyChunkIn_moves hkind hl (State.passHeld_false.mpr hh) (State.chunkTaken_false hfree)),
        copyIntoBufs_arrives runs (State.chunkPass_walks hl) (.homeReads ..) ..⟩
  · intro w lb rm dt st scl s1 xs hkind n e0 m b0 source scale
    have step := execCopyChunk_in runs (by simp [hkind])
    refine ⟨fun code hl => ?_, fun hl => ⟨?_, ?_⟩⟩
    · exact chunk_faults runs (State.sourcePass_walks hl) (step.trans (copyChunkIn_sourceFault hkind hl))
    · intro s2 ys code hs
      exact chunk_faults runs ((State.sourcePass_walks hl).trans (State.scalePass_walks hs))
        (step.trans (copyChunkIn_scaleFault hkind hl hs))
    · intro s2 ys hs hh hfree
      exact ⟨_, step.trans (copyChunkIn_quantMoves hkind hl hs (State.passHeld_false.mpr hh) (State.chunkTaken_false hfree)),
        copyIntoBufs_arrives runs ((State.sourcePass_walks hl).trans (State.scalePass_walks hs)) (.homeReads ..) ..⟩

/-- Settles O28, by the passes over global memory that begin a chunk: what each leaves alone (`SameButWalks`), and then the
copy's end or its move for each kind of copy. -/
theorem copiesRun : Obligations.CopiesRun := ⟨copiesTakeAnEngine, copiesMoveChunks⟩

end Sys2Proof.Machine
end

section
/-! PROOF. Registers outside the allotment (O55). A continuation that resumes gets the registers of its call's budget (R42), whatever
its agent held before; so a register below the old allotment that still waits for a result need not lie below the new one. -/

namespace Sys2Proof.Machine

open Sys2Proof.Claim

/-- The record of a call that saved nothing, with a budget of no register, all of whose tasks have returned (R38). -/
def idleRecord : ContRec :=
  { id := 0, budget := 0, caller := 0, cont := 0#64, nsave := 0, scalars := [], marks := 0#256, preds := [], lanes := 1#32,
    others := 0#32, pcs := [], join := 0, units := 1, flags := 0#32 }

/-- An agent that waits for its tasks while its register v0, which it holds, waits for a result. -/
def heldWaiting : Agent :=
  { placedAgent 0 with
    ctl := { (placedAgent 0).ctl with hold := .held 0 }
    flight := pendOn [.v 0] 1 Flight.start
    recs := [idleRecord] }

/-- Its continuation is about to resume. -/
def aboutToResume : State := { State.reset with agents := [(0, heldWaiting)], agenda := [.step (.continuationResume 0)] }

/-- The agent once it has resumed: it holds no register, and v0 still waits. -/
def resumedWaiting : Agent :=
  { heldWaiting with
    recs := []
    regs := { alloc := 0, v := [], vMark := [], s := [], sMark := 0#256, p := [] }
    ctl := { (heldWaiting.ctl.move 1#32 fun _ => 0#64) with hold := .none } }

theorem aboutToResume_wf : regsWf aboutToResume := by
  intro e he
  obtain rfl := List.mem_singleton.mp he
  refine ⟨fun k l _ => ⟨rfl, BitVec.getLsbD_zero⟩, fun n id hn => ?_⟩
  obtain ⟨hv, -⟩ := Prod.mk.inj (List.mem_singleton.mp hn)
  cases hv
  decide

theorem aboutToResume_steps :
    step aboutToResume = .next { State.reset with agents := [(0, resumedWaiting)], agenda := [] } := by rfl

/-- Refutes O55: an agent of 1,536 registers that waits for its tasks while v0 waits for a result resumes with the budget of its
call, 0 registers (R42), and v0 waits still. That no register of a waiting agent is pending (R207) is a premise that the statement
lacks. -/
theorem not_registersOutsideTheAllotmentReadZero : ¬ Obligations.RegistersOutsideTheAllotmentReadZero := by
  unfold Obligations.RegistersOutsideTheAllotmentReadZero
  intro h
  obtain ⟨-, hpend⟩ := h _ _ aboutToResume_wf aboutToResume_steps _ (List.mem_singleton_self _)
  exact absurd (hpend 0 1 (List.mem_singleton_self _)) (by decide)

end Sys2Proof.Machine
end

section
/-! PROOF. Barrier instructions of a task (O58). -/

namespace Sys2Proof.Machine

open Sys2Proof.Claim

/-- The check of a task's barrier instruction: ILLOP from BARS on, below it BARCTX (R44, R289). -/
theorem barCheck_of_task {hb : Nat} {c : Ctx} (h : c.ag.task = true) :
    barCheck hb c = some (flt (if hb < c.header.bars then 7 else 5)) := by
  unfold barCheck barNumber barctx
  by_cases hb' : hb < c.header.bars
  · rw [if_neg (Nat.not_le.mpr hb'), if_pos hb', if_pos h]; rfl
  · rw [if_pos (Nat.le_of_not_lt hb'), if_neg hb']; rfl

/-- An instruction that the barrier check stops has no effect (R152, R313). -/
theorem issueWith_barCheck {s : State} {c : Ctx} {g : Guard} {hb : Nat} {us : List Use} {post : Ctx → Option Flt}
    {eff : Ctx → Out} (hc : Ctx.of s g = some c) (hu : checkUses c.ag.regs.alloc us = none) (ht : c.ag.task = true) :
    issueWith g us 8 (barCheck hb) post eff s = .next (stopped c (flt (if hb < c.header.bars then 7 else 5))) :=
  issueWith_pre (F := ⟨g, us, 8, barCheck hb, post⟩) hc hu (barCheck_of_task ht)

/-- Settles O58: the check of the barrier's number and of the issuer comes before the scoreboard and before every check on operand
values. -/
theorem tasksRaiseBarctx : Obligations.TasksRaiseBarctx := by
  unfold Obligations.TasksRaiseBarctx
  rintro i F s c g hb o (rfl | rfl | rfl | rfl) hF hc hu ht
  · cases hF
    show execBarInit g hb o s = _
    exact issueWith_barCheck hc hu ht
  · cases hF
    show execBarArrive g hb s = _
    exact issueWith_barCheck hc hu ht
  · cases hF
    show execBarWait g hb s = _
    exact issueWith_barCheck hc hu ht
  · cases hF
    show execBarStatus g hb o s = _
    exact issueWith_barCheck hc hu ht

end Sys2Proof.Machine
end

section
/-! PROOF. Calls: headers that the caches hold, the tasks that are queued, the record that the caller keeps (O6). -/

namespace Sys2Proof.Machine

open Sys2Proof.Claim

/-! ## Headers that the caches hold (R20, R28, R206) -/

/-- A translation that the L1 TLB holds makes no request and leaves the state as it is (R91). -/
theorem translateFor_mapped {s : State} {core t : Nat} {va : DWord} {w : Want} {x : Xlat} (req : Nat)
    (h : Mapped s core t va w x) : s.translateFor req core t va w = (s, .ok x) := by
  obtain ⟨hv, e, he, hx⟩ := h
  have page : s.walkAsks req core t va = s := by
    unfold State.walkAsks State.pageOf; rw [he]; rfl
  unfold State.translateFor
  rw [page, State.translate_hit w hv he, hx]

/-- A read of what the instruction cache holds leaves the state as it is (R20). -/
theorem iread_cached {s : State} {p : Place} {x : Xlat} {n v : Nat} (t : Nat) (h : Cached s p.core p.part x.key n v) :
    s.iread p t x n = (s, v) := by
  obtain ⟨line, hl, hv⟩ := h
  unfold State.iread kgetD
  simp only [hl, Option.isSome_some, if_true, Option.getD_some, hv]

/-- Nothing holds the read of a line that the instruction cache has. -/
theorem codeHeld_cached {s : State} {p : Place} {key n v : Nat} (h : Cached s p.core p.part key n v) :
    s.codeHeld p key = false := by
  obtain ⟨line, hl, -⟩ := h
  unfold State.codeHeld
  rw [hl]; rfl

theorem budgetOfWords_valid {lo hi b : Nat} (h : HeaderValid lo hi b) :
    budgetOfWords (lo % 4294967296) (hi % 4294967296) = some b := by
  obtain ⟨hm, hb, h1, h48⟩ := h
  have field : ebits (lo % 4294967296) 5 0 = b := by unfold ebits; omega
  unfold budgetOfWords
  rw [field, if_pos ⟨hm, h1, h48⟩]

/-- A call reads a header that the caches hold without any effect (R206). -/
theorem callHeader_headerAt {s : State} {p : Place} {t : Nat} {va : DWord} {b : Nat} (h : HeaderAt s p t va b) :
    s.callHeader p t va = (s, .ok b) := by
  obtain ⟨lo, hi, ⟨x, y, hx, hy, hlo, hhi⟩, hv⟩ := h
  unfold State.callHeader
  simp only [translateFor_mapped _ hx, codeHeld_cached hlo, iread_cached t hlo, translateFor_mapped _ hy, codeHeld_cached hhi,
    iread_cached t hhi, budgetOfWords_valid hv, Bool.false_eq_true, if_false]

/-- The budget that a call reads at an address. -/
def State.headBudget (s : State) (p : Place) (t : Nat) (va : DWord) : Nat :=
  match s.callHeader p t va with
  | (_, .ok b) => b
  | _ => 0

theorem headBudget_headerAt {s : State} {p : Place} {t : Nat} {va : DWord} {b : Nat} (h : HeaderAt s p t va b) :
    s.headBudget p t va = b := by
  unfold State.headBudget; rw [callHeader_headerAt h]

/-- Headers that are all there give their budgets in order. -/
theorem callHeaders_headersAt {s : State} {p : Place} {t : Nat} (l : List (DWord × Nat))
    (h : ∀ e ∈ l, ∃ b, HeaderAt s p t e.1 b) :
    callHeaders p t l s = (s, .ok (l.map fun e => s.headBudget p t e.1)) := by
  induction l with
  | nil => rfl
  | cons e l ih =>
    obtain ⟨va, lane⟩ := e
    obtain ⟨b, hb⟩ := h (va, lane) (by simp)
    rw [callHeaders, callHeader_headerAt hb]
    simp only [ih fun e he => h e (by simp [he]), List.map_cons, headBudget_headerAt hb]

/-! ## The distinct targets (R39) -/

theorem mem_nins_iff (k j : Nat) (l : List Nat) : j ∈ nins k l ↔ j = k ∨ j ∈ l := by
  have h := nhas_nins k j l
  rw [Bool.eq_iff_iff] at h
  simp only [nhas, List.any_eq_true, Bool.or_eq_true, beq_iff_eq, exists_eq_right] at h
  rw [h, eq_comm]

theorem pairwise_nins (k : Nat) (l : List Nat) (h : l.Pairwise (· < ·)) : (nins k l).Pairwise (· < ·) := by
  induction l with
  | nil => simp [nins]
  | cons x t ih =>
    obtain ⟨hx, ht⟩ := List.pairwise_cons.mp h
    unfold nins
    by_cases hk : k < x
    · rw [if_pos hk]
      exact List.pairwise_cons.mpr ⟨fun y hy => by
        rcases List.mem_cons.mp hy with rfl | hy
        · exact hk
        · exact hk.trans (hx y hy), h⟩
    · rw [if_neg hk]
      by_cases he : k = x
      · rw [if_pos he]; exact h
      · rw [if_neg he]
        refine List.pairwise_cons.mpr ⟨fun y hy => ?_, ih ht⟩
        rcases (mem_nins_iff k y t).mp hy with rfl | hy
        · omega
        · exact hx y hy

theorem foldl_nins (l m : List Nat) (hm : m.Pairwise (· < ·)) :
    (l.foldl (fun m x => nins x m) m).Pairwise (· < ·) ∧
    ∀ j, j ∈ l.foldl (fun m x => nins x m) m ↔ j ∈ l ∨ j ∈ m := by
  induction l generalizing m with
  | nil => exact ⟨hm, by simp⟩
  | cons x t ih =>
    obtain ⟨hp, hj⟩ := ih (nins x m) (pairwise_nins x m hm)
    exact ⟨hp, fun j => by rw [List.foldl_cons, hj, mem_nins_iff, List.mem_cons]; tauto⟩

theorem mem_sortedDistinct (l : List Nat) (j : Nat) : j ∈ sortedDistinct l ↔ j ∈ l := by
  simpa [sortedDistinct] using (foldl_nins l [] .nil).2 j

/-- There are as many distinct numbers as without their repetitions. -/
theorem length_sortedDistinct (l : List Nat) : (sortedDistinct l).length = l.dedup.length := by
  have nodup : (sortedDistinct l).Nodup := (foldl_nins l [] .nil).1.imp Nat.ne_of_lt
  exact ((List.perm_ext_iff_of_nodup nodup l.nodup_dedup).mpr fun j => by
    rw [mem_sortedDistinct, List.mem_dedup]).length_eq

theorem zip_map_append {α β : Type} (f : α → β) (l : List α) (m : List β) :
    l.zip (l.map f ++ m) = l.map fun a => (a, f a) := by
  induction l with
  | nil => rfl
  | cons a l ih => simp [ih]

/-! ## The tasks that a call queues (R39, R40) -/

/-- The agent that stands for a target of a call. -/
abbrev Ctx.taskFor (c : Ctx) (record : Nat) (tgt : Nat → DWord) (t b serial : Nat) : Agent :=
  c.newTask record (maskOf fun l => c.act.getLsbD l && (tgt l).toNat == t) (BitVec.ofNat 64 t) b serial

@[simp] theorem queueTasks_mem (c : Ctx) (r : Nat) (tgt : Nat → DWord) (l : List (Nat × Nat)) (s : State) :
    (queueTasks c r tgt l s).mem = s.mem := by
  induction l generalizing s with
  | nil => rfl
  | cons e l ih => obtain ⟨t, b⟩ := e; exact ih _

/-- Tasks take new keys: the agents that were there stay as they are. -/
theorem queueTasks_old (c : Ctx) (r : Nat) (tgt : Nat → DWord) (l : List (Nat × Nat)) {s : State} {k : Nat}
    (hk : k < s.nextKey) : (queueTasks c r tgt l s).agent? k = s.agent? k := by
  induction l generalizing s with
  | nil => rfl
  | cons e l ih =>
    obtain ⟨t, b⟩ := e
    rw [queueTasks, ih (Nat.lt_succ_of_lt hk)]
    exact kget_kput_other _ _ (Nat.ne_of_gt hk)

/-- Each target has its task under a new key. -/
theorem queueTasks_new (c : Ctx) (r : Nat) (tgt : Nat → DWord) (l : List (Nat × Nat)) (s : State) {t b : Nat}
    (h : (t, b) ∈ l) :
    ∃ k serial, s.nextKey ≤ k ∧ (queueTasks c r tgt l s).agent? k = some (c.taskFor r tgt t b serial) := by
  induction l generalizing s with
  | nil => cases h
  | cons e l ih =>
    obtain ⟨u, d⟩ := e
    rcases List.mem_cons.mp h with h | h
    · cases h
      refine ⟨s.nextKey, s.freeSerial c.ag.ident.root, le_rfl, ?_⟩
      rw [queueTasks, queueTasks_old c r tgt l (Nat.lt_succ_self _)]
      exact kget_kput_same ..
    · obtain ⟨k, serial, hk, hx⟩ := ih _ h
      exact ⟨k, serial, Nat.le_of_succ_le hk, hx⟩

/-- A task stands at its target in the lanes that go there, and its other lanes have ended. -/
theorem taskFor_lanes (c : Ctx) (r : Nat) (tgt : Nat → DWord) (b serial l : Nat) (hl : c.act.getLsbD l = true) :
    (c.taskFor r tgt (tgt l).toNat b serial).ctl.pc l = tgt l ∧
    ∀ j, j < 32 → (c.taskFor r tgt (tgt l).toNat b serial).ctl.ended.getLsbD j =
      !(c.act.getLsbD j && decide (tgt j = tgt l)) := by
  have mask : ∀ j, j < 32 → (maskOf fun j => c.act.getLsbD j && (tgt j).toNat == (tgt l).toNat).getLsbD j =
      (c.act.getLsbD j && decide (tgt j = tgt l)) := fun j hj => by
    rw [getLsbD_maskOf _ _ hj]
    simp only [beq_eq_decide, BitVec.toNat_inj]
  have hl' := BitVec.lt_of_getLsbD hl
  constructor
  · show kgetD 0#64 (setPcs _ _ []) l = tgt l
    rw [kgetD_setPcs, if_pos ((mem_lanesOf ..).mpr (by rw [mask l hl', hl]; simp)), BitVec.ofNat_toNat, BitVec.setWidth_eq]
  · intro j hj
    show (~~~(maskOf _)).getLsbD j = _
    rw [BitVec.getLsbD_not, mask j hj]; simp [hj]

/-! ## The call -/

/-- A call with all its headers, room in the slab and nothing in its record that waits has its effect (R206, R207). -/
theorem callWith_runs {g : Guard} {us : List Use} {nsave : Nat} {tgt : Ctx → Nat → DWord} {cont : Int} {s : State} {c : Ctx}
    {b : Nat → Nat} {bc : Nat}
    (hr : Runs s ⟨g, us, 16, inHandler, fun c => misTarget (lanesOf c.act) (tgt c)⟩ c)
    (ht : ∀ l, c.act.getLsbD l = true → HeaderAt c.st c.place c.ag.ident.tenant (tgt c l) (b l))
    (hc : HeaderAt c.st c.place c.ag.ident.tenant (c.rel cont) bc)
    (hs : c.st.slabUsed c.ag.ident.root + recordUnits nsave (c.ag.ctl.unexited &&& ~~~c.act != 0#32) ≤ c.ag.slab)
    (hw : callWaits c.ag.flight nsave = false) :
    callWith g us nsave tgt cont s = .next (c.callEffect nsave (tgt c) (c.rel cont)
      (sortedDistinct ((lanesOf c.act).map fun l => (tgt c l).toNat))
      ((sortedDistinct ((lanesOf c.act).map fun l => (tgt c l).toNat)).map
        (fun t => c.st.headBudget c.place c.ag.ident.tenant (BitVec.ofNat 64 t)) ++ [bc])) := by
  unfold callWith
  refine (issueWith_runs hr).trans ?_
  dsimp only
  rw [callHeaders_headersAt]
  · simp only [List.map_append, List.map_map, List.map_cons, List.map_nil, headBudget_headerAt hc, Nat.not_lt.mpr hs, if_false, hw,
      Bool.false_eq_true, Function.comp_def]
  · intro e he
    rcases List.mem_append.mp he with he | he
    · obtain ⟨t, hm, rfl⟩ := List.mem_map.mp he
      obtain ⟨l, hl, rfl⟩ := List.mem_map.mp ((mem_sortedDistinct ..).mp hm)
      refine ⟨b l, ?_⟩
      rw [BitVec.ofNat_toNat, BitVec.setWidth_eq]
      exact ht l ((mem_lanesOf ..).mp hl)
    · rw [List.mem_singleton.mp he]; exact ⟨bc, hc⟩

/-- What a call leaves: the caller with its record, and a task for each target (R38 to R40, R207). -/
theorem callEffect_spec {c : Ctx} {nsave : Nat} {tgt : Nat → DWord} {cont : DWord} {b : Nat → Nat} {bc : Nat}
    (ht : ∀ l, c.act.getLsbD l = true → HeaderAt c.st c.place c.ag.ident.tenant (tgt l) (b l)) (hk : c.key < c.st.nextKey) :
    ∃ t x r, c.callEffect nsave tgt cont (sortedDistinct ((lanesOf c.act).map fun l => (tgt l).toNat))
        ((sortedDistinct ((lanesOf c.act).map fun l => (tgt l).toNat)).map
          (fun t => c.st.headBudget c.place c.ag.ident.tenant (BitVec.ofNat 64 t)) ++ [bc]) = t ∧
      SameBytes c.st t ∧ t.agent? c.key = some x ∧
      x.ctl.hold = .held r.id ∧ x.recs = c.ag.recs ++ [r] ∧
      x.regs = { alloc := 0, v := [], vMark := [], s := [], sMark := 0#256, p := [] } ∧
      PcsAdvanced (c.run &&& ~~~c.act) 16 c.ag.ctl.pcs x.ctl.pcs ∧
      r.cont = cont ∧ r.nsave = nsave ∧ r.lanes = c.act ∧ r.preds = c.ag.regs.p ∧
      r.others = ~~~c.ag.ctl.ended &&& ~~~c.act ∧ r.budget = bc ∧ r.caller = c.key ∧ r.flags = 0#32 ∧
      (∀ n, n < nsave → kgetD 0#32 r.scalars n = c.ag.regs.sreg n) ∧
      r.join = (((lanesOf c.act).map fun l => (tgt l).toNat).dedup).length ∧
      (∀ l, c.act.getLsbD l = true → ∃ k y, t.agent? k = some y ∧ k ≠ c.key ∧ y.task = true ∧ y.queued = true ∧
        y.place = none ∧ y.ident.caller = c.key ∧ y.ident.record = r.id ∧ y.ident.root = c.ag.ident.root ∧
        y.regs.s = c.ag.regs.s ∧ y.regs.sMark = c.ag.regs.sMark ∧ y.regs.p = c.ag.regs.p ∧ y.regs.v = [] ∧
        y.regs.alloc = b l * 32 ∧ y.ctl.pc l = tgt l ∧
        (∀ j, j < 32 → y.ctl.ended.getLsbD j = !(c.act.getLsbD j && decide (tgt j = tgt l)))) := by
  unfold Ctx.callEffect
  extract_lets others ctl r old x
  refine ⟨_, x, r, rfl, fun a => ?_, ?_, rfl, rfl, rfl, ?_, rfl, rfl, rfl, rfl, rfl, ?_, rfl, rfl, fun n hn => ?_,
    length_sortedDistinct _, fun l hl => ?_⟩
  · unfold State.byte; rw [queueTasks_mem]; rfl
  · rw [queueTasks_old _ _ _ _ (Nat.lt_succ_of_lt hk)]
    exact kget_kput_same ..
  · show PcsAdvanced _ 16 _ ctl.pcs
    exact PcsAdvanced.intro _ 16 c.ag.ctl
  · simp [r]
  · exact (kgetD_filter_below ..).trans (if_pos hn)
  · have budget := headBudget_headerAt (ht l hl)
    have mem : ((tgt l).toNat, b l) ∈ (sortedDistinct ((lanesOf c.act).map fun l => (tgt l).toNat)).zip
        ((sortedDistinct ((lanesOf c.act).map fun l => (tgt l).toNat)).map
          (fun t => c.st.headBudget c.place c.ag.ident.tenant (BitVec.ofNat 64 t)) ++ [bc]) := by
      rw [zip_map_append]
      exact List.mem_map.mpr ⟨(tgt l).toNat,
        (mem_sortedDistinct ..).mpr (List.mem_map.mpr ⟨l, (mem_lanesOf ..).mpr hl, rfl⟩),
        by rw [BitVec.ofNat_toNat, BitVec.setWidth_eq, budget]⟩
    obtain ⟨k, serial, hn, hx⟩ := queueTasks_new c r.id tgt _
      { c.st.setAgent c.key x with nextKey := c.st.nextKey + 1 } mem
    obtain ⟨hpc, hended⟩ := taskFor_lanes c r.id tgt (b l) serial l hl
    exact ⟨k, _, hx, by dsimp only at hn; omega, rfl, rfl, rfl, rfl, rfl, rfl, rfl, rfl, rfl, rfl, rfl, hpc, hended⟩

/-- Settles O6: the headers are read without effect, and the tasks take keys that no agent has. -/
theorem callQueuesTasks : Obligations.CallQueuesTasks := by
  unfold Obligations.CallQueuesTasks
  intro i F s c nsave tgt cont b bc hF hr hi ht hc hs hw hk
  have slab : c.st.slabUsed c.ag.ident.root + recordUnits nsave (c.ag.ctl.unexited &&& ~~~c.act != 0#32) ≤ c.ag.slab := by
    refine le_trans (le_of_eq ?_) hs
    unfold recordUnits Ctl.unexited
    by_cases ho : ~~~c.ag.ctl.ended &&& ~~~c.act = 0#32
    · simp [ho]
    · simp [ho]
  obtain ⟨t, x, r, he, hb, hrest⟩ := callEffect_spec (nsave := nsave) (cont := c.rel cont) (bc := bc) ht hk
  refine ⟨t, x, r, ?_, fun a => ?_, hrest⟩
  · rw [← he]
    rcases hi with ⟨g, off, rfl, rfl⟩ | ⟨g, a, rfl, rfl⟩
    · cases hF
      show execCallDirect g nsave off cont s = _
      exact callWith_runs (tgt := fun c _ => c.rel off) hr ht hc slab hw
    · cases hF
      show execCallRegister g nsave a cont s = _
      exact callWith_runs (tgt := fun c l => c.rd true a l) hr ht hc slab hw
  · rw [hb a]; unfold State.byte; rw [Runs.mem hr]

end Sys2Proof.Machine
end

section
/-! PROOF. Writes and reads of the register blocks (O49). -/

namespace Sys2Proof.Machine

open Sys2Proof.Claim

/-! ## Registers by their offsets -/

/-- A map with a default of its own for each key: a write changes one key. -/
theorem kgetD_ksetD_at {V : Type} [DecidableEq V] (d : Nat → V) (m : KMap V) (k j : Nat) (v : V) :
    kgetD (d j) (ksetD (d k) m k v) j = if j = k then v else kgetD (d j) m j := by
  by_cases h : j = k
  · subst h; rw [kgetD_ksetD_same, if_pos rfl]
  · rw [if_neg h]
    unfold ksetD kgetD
    split
    · rw [kget_kdel, if_neg (Ne.symm h)]
    · rw [kget_kput_other _ _ (Ne.symm h)]

theorem Device.reg_setReg (d : Device) (off k : Nat) (v : DWord) :
    (d.setReg off v).reg k = if k = off then v else d.reg k :=
  kgetD_ksetD_at (fun off => if off = 0x200 then 2000#64 else 0#64) d.regs off k v

theorem Tenant.reg_setReg (x : Tenant) (off k : Nat) (v : DWord) :
    (x.setReg off v).reg k = if k = off then v else x.reg k :=
  kgetD_ksetD_at tenantResetReg x.regs off k v

/-- A change of a tenant's block changes nothing else. -/
theorem tenantBecomes_modTenant (s : State) (t : Nat) (f : Tenant → Tenant) :
    TenantBecomes s (s.modTenant t f) t (f (s.tenant t)) :=
  ⟨rfl, by simp, fun k hk => by simp [Ne.symm hk]⟩

/-! ## Steps that a register write takes -/

/-- A step that always goes on. -/
def Out.goesOn (o : Out) : Prop := ∃ t, o = .next t

theorem Out.next_or {o : Out} (h : o.goesOn) (s : State) : .next (o.or s) = o := by
  obtain ⟨t, rfl⟩ := h; rfl

theorem goesOn_next (s : State) : Out.goesOn (.next s) := ⟨s, rfl⟩

theorem goesOn_ite {p : Prop} [Decidable p] {o q : Out} (ho : o.goesOn) (hq : q.goesOn) : (if p then o else q).goesOn := by
  by_cases h : p
  · rw [if_pos h]; exact ho
  · rw [if_neg h]; exact hq

theorem execSliCfgWrite_goesOn (i : Nat) (v : DWord) (s : State) : (execSliCfgWrite i v s).goesOn :=
  goesOn_ite (goesOn_next _) (goesOn_ite (goesOn_next _) (goesOn_next _))

theorem execFuseCmd_goesOn (v : DWord) (s : State) : (execFuseCmd v s).goesOn :=
  goesOn_ite (goesOn_next _) (goesOn_next _)

theorem execTlbInv_goesOn (t va size : Nat) (s : State) : (execTlbInv t va size s).goesOn :=
  goesOn_ite (goesOn_next _) (goesOn_next _)

theorem execLoadStart_goesOn (t : Nat) (v : DWord) (s : State) : (execLoadStart t v s).goesOn :=
  goesOn_ite (goesOn_next _) (goesOn_next _)

theorem execContextReset_goesOn (t : Nat) (s : State) : (execContextReset t s).goesOn :=
  goesOn_ite (goesOn_next _) (goesOn_next _)

theorem execPreemptRequest_goesOn (t : Nat) (s : State) : (execPreemptRequest t s).goesOn :=
  goesOn_ite (goesOn_next _) (goesOn_next _)

theorem execContextResume_goesOn (t : Nat) (s : State) : (execContextResume t s).goesOn :=
  goesOn_ite (goesOn_next _) (goesOn_ite (goesOn_next _) (goesOn_ite (goesOn_next _) (goesOn_next _)))

theorem execRetry_goesOn (t : Nat) (who : AgentName) (s : State) : (execRetry t who s).goesOn := by
  unfold execRetry
  cases s.target t who with
  | agent a x p => exact ⟨_, rfl⟩
  | command a x h => exact ⟨_, rfl⟩
  | nothing => exact ⟨_, rfl⟩

theorem execSkip_goesOn (t : Nat) (who : AgentName) (s : State) : (execSkip t who s).goesOn := by
  unfold execSkip
  cases s.target t who with
  | agent a x p => exact ⟨_, rfl⟩
  | command a x h => exact ⟨_, rfl⟩
  | nothing => exact ⟨_, rfl⟩

theorem execResumeReset_goesOn (t : Nat) (who : AgentName) (s : State) : (execResumeReset t who s).goesOn := by
  unfold execResumeReset
  cases s.target t who with
  | agent a x p => exact ⟨_, rfl⟩
  | command a x h => exact ⟨_, rfl⟩
  | nothing => exact ⟨_, rfl⟩

/-! ## The device block (R349) -/

theorem execRegisterWrite_device {off : Nat} (h : off % 8 = 0) (v : DWord) (s : State) :
    execRegisterWrite none off 8 v s = .next (s.writeDevice off v) := by
  unfold execRegisterWrite
  exact if_neg fun hn => hn.elim (fun h8 => h8 rfl) fun h8 => h8 h

/-- What a plain register keeps of a value (R349). -/
theorem device_put (s : State) (off : Nat) (v m : DWord) :
    ∃ d, (.next { s with device := s.device.setReg off (v &&& m) } : Out) = .next { s with device := d } ∧
      d = { s.device with regs := d.regs } ∧ d.reg off = v &&& m ∧ ∀ k, k ≠ off → d.reg k = s.device.reg k :=
  ⟨_, rfl, rfl, by rw [Device.reg_setReg, if_pos rfl], fun k hk => by rw [Device.reg_setReg, if_neg hk]⟩

section Device
variable {s : State} {off : Nat} {v : DWord}

theorem writeDevice_sliCfg {i : Nat} (h : i < 8) : .next (s.writeDevice (0x100 + 8 * i) v) = execSliCfgWrite i v s := by
  unfold State.writeDevice
  have index : (0x100 + 8 * i - 0x100) / 8 = i := by omega
  rw [if_neg (by omega), if_pos (by omega), index, Out.next_or (execSliCfgWrite_goesOn ..)]

theorem writeDevice_fuseCmd : .next (s.writeDevice 0x400 v) = execFuseCmd v s := by
  unfold State.writeDevice
  rw [if_neg (by omega), if_neg (by omega), if_neg (by omega), if_neg (by omega), if_pos rfl,
    Out.next_or (execFuseCmd_goesOn ..)]

/-- The device number stands while a tenant is enabled (R349). -/
theorem writeDevice_number (h : ∃ e ∈ s.tenants, e.2.enabled = true) : s.writeDevice 0x8 v = s := by
  unfold State.writeDevice
  rw [if_pos rfl, if_pos (List.any_eq_true.mpr h)]

/-- The plain registers take the bits that they have (R349). -/
theorem writeDevice_plain {m : DWord}
    (h : (off = 0x8 ∧ (∀ e ∈ s.tenants, e.2.enabled = false) ∧ m = 0xFFFF#64) ∨ (off = 0x200 ∧ m = 0xFFFF#64) ∨
      ((0x300 ≤ off ∧ off < 0x3D0 ∨ 0x500 ≤ off ∧ off < 0x548) ∧ m = 0xFFFFFFFFFFFFFFFF#64) ∨
      (0x1000 ≤ off ∧ off < 0x1800 ∧ m = if off % 32 < 16 then 0xFFFFFFFFFFFFFFFF#64
        else if off % 32 = 16 then 0x800000000003FFFF#64 else 0#64)) :
    s.writeDevice off v = { s with device := s.device.setReg off (v &&& m) } := by
  unfold State.writeDevice
  rcases h with ⟨rfl, hn, rfl⟩ | ⟨rfl, rfl⟩ | ⟨h | h, rfl⟩ | ⟨h1, h2, rfl⟩
  · rw [if_pos rfl, if_neg]
    rw [List.any_eq_true]
    rintro ⟨e, he, h⟩
    rw [hn e he] at h; cases h
  · rw [if_neg (by omega), if_neg (by omega), if_pos rfl]
  · rw [if_neg (by omega), if_neg (by omega), if_neg (by omega), if_pos h]
  · rw [if_neg (by omega), if_neg (by omega), if_neg (by omega), if_neg (by omega), if_neg (by omega), if_pos h]
  · rw [if_neg (by omega), if_neg (by omega), if_neg (by omega), if_neg (by omega), if_neg (by omega), if_neg (by omega),
      if_neg (by omega), if_pos ⟨h1, h2⟩]

/-- A write of `ATT_CTL` clears ERR and starts a report (R349, R360). -/
theorem writeDevice_attestation :
    ∃ d, (.next (s.writeDevice 0x548 v) : Out) = .next { s with device := d } ∧
      d = { s.device with regs := d.regs, attBusy := s.device.attBusy || v.getLsbD 0 } ∧
      d.reg 0x548 = (if v.getLsbD 2 then 0#64 else s.device.reg 0x548) ∧ ∀ k, k ≠ 0x548 → d.reg k = s.device.reg k := by
  have cleared : (s.device.setReg 0x548 0#64).reg 0x548 = 0#64 := by rw [Device.reg_setReg, if_pos rfl]
  have others : ∀ k, k ≠ 0x548 → (s.device.setReg 0x548 0#64).reg k = s.device.reg k := fun k hk => by
    rw [Device.reg_setReg, if_neg hk]
  unfold State.writeDevice
  rw [if_neg (by omega), if_neg (by omega), if_neg (by omega), if_neg (by omega), if_neg (by omega), if_neg (by omega),
    if_pos rfl]
  cases v.getLsbD 2 <;> cases v.getLsbD 0
  · exact ⟨_, rfl, by rw [Bool.or_false], rfl, fun k _ => rfl⟩
  · exact ⟨_, rfl, by rw [Bool.or_true]; rfl, rfl, fun k _ => rfl⟩
  · exact ⟨_, rfl, by rw [Bool.or_false]; rfl, cleared, others⟩
  · exact ⟨_, rfl, by rw [Bool.or_true]; rfl, cleared, others⟩

/-- The counters of missed deadlines are written two at a time (R349). -/
theorem writeDevice_missed (h1 : 0x10000 ≤ off) (h2 : off < 0x50000) :
    ∃ m, (.next (s.writeDevice off v) : Out) = .next { s with device := { s.device with missed := m } } ∧
      ∀ r, kgetD 0#32 m r = if r = (off - 0x10000) / 4 then v.setWidth 32
        else if r = (off - 0x10000) / 4 + 1 then (v >>> 32).setWidth 32 else kgetD 0#32 s.device.missed r := by
  unfold State.writeDevice
  rw [if_neg (by omega), if_neg (by omega), if_neg (by omega), if_neg (by omega), if_neg (by omega), if_neg (by omega),
    if_neg (by omega), if_neg (by omega), if_pos ⟨h1, h2⟩]
  refine ⟨_, rfl, fun r => ?_⟩
  rw [kgetD_ksetD, kgetD_ksetD]
  generalize (off - 0x10000) / 4 = n
  by_cases hr : r = n
  · subst hr; rw [if_neg (by omega), if_pos rfl, if_pos rfl]
  · by_cases hs : r = n + 1
    · subst hs; rw [if_pos rfl, if_neg (by omega), if_pos rfl]
    · rw [if_neg (Ne.symm hs), if_neg (Ne.symm hr), if_neg hr, if_neg hs]

/-- An offset that R349 does not list, or that is only read, takes nothing. -/
theorem writeDevice_unlisted (h1 : off ≠ 0x8) (h2 : off < 0x100 ∨ 0x140 ≤ off) (h3 : off ≠ 0x200)
    (h4 : off < 0x300 ∨ 0x3D0 ≤ off) (h5 : off ≠ 0x400) (h6 : off < 0x500 ∨ 0x550 ≤ off) (h7 : off < 0x1000 ∨ 0x1800 ≤ off)
    (h8 : off < 0x10000 ∨ 0x50000 ≤ off) : s.writeDevice off v = s := by
  unfold State.writeDevice
  rw [if_neg h1, if_neg (by omega), if_neg h3, if_neg (by omega), if_neg h5, if_neg (by omega), if_neg (by omega),
    if_neg (by omega), if_neg (by omega)]

end Device

theorem deviceRegistersAreWritten : Claim.DeviceRegistersAreWritten := by
  intro s off width v
  refine ⟨fun h => if_pos h, fun i hi => ?_, ?_, fun h => ?_, fun m h8 h => ?_, ?_, fun h1 h2 h8 => ?_,
    fun h8 h1 h2 h3 h4 h5 h6 h7 h9 => ?_⟩
  · exact (execRegisterWrite_device (by omega) v s).trans (writeDevice_sliCfg hi)
  · exact (execRegisterWrite_device rfl v s).trans writeDevice_fuseCmd
  · exact (execRegisterWrite_device rfl v s).trans (congrArg _ (writeDevice_number h))
  · show ∃ d, execRegisterWrite none off 8 v s = _ ∧ _
    rw [execRegisterWrite_device h8, writeDevice_plain h]
    exact device_put s off v m
  · show ∃ d, execRegisterWrite none 0x548 8 v s = _ ∧ _
    rw [execRegisterWrite_device rfl]
    exact writeDevice_attestation
  · show ∃ m, execRegisterWrite none off 8 v s = _ ∧ _
    rw [execRegisterWrite_device h8]
    exact writeDevice_missed h1 h2
  · exact (execRegisterWrite_device h8 v s).trans (congrArg _ (writeDevice_unlisted h1 h2 h3 h4 h5 h6 h7 h9))

/-! ## The tenant blocks (R351, R352) -/

theorem execRegisterWrite_tenant {t off : Nat} (ht : t < 16) (ho : off < 65536) (h : off % 8 = 0) (v : DWord) (s : State) :
    execRegisterWrite (some t) off 8 v s = .next (s.writeTenant t off v) := by
  unfold execRegisterWrite
  dsimp only
  rw [if_neg (Nat.not_le.mpr ht), if_neg (Nat.not_le.mpr ho)]
  exact if_neg fun hn => hn.elim (fun h8 => h8 rfl) fun h8 => h8 h

theorem writeTenant_ctxCtl (s : State) (t : Nat) (v : DWord) : s.writeTenant t 0 v = s.writeCtxCtl t v := if_pos rfl

/-- The fault queue's size is one that R351 allows. -/
theorem queueSized_eq_false (x : Tenant) :
    x.queueSized = false ↔ ebits (x.reg 0x70).toNat 4 0 < 4 ∨ 16 < ebits (x.reg 0x70).toNat 4 0 := by
  unfold Tenant.queueSized
  rw [Bool.and_eq_false_iff, decide_eq_false_iff_not, decide_eq_false_iff_not, Nat.not_le, Nat.not_le]

section Control
variable {s : State} {t : Nat} {v : DWord}

/-- A write that would enable a context which cannot come to exist is discarded (R352, R359). -/
theorem writeCtxCtl_cannot (h1 : v.getLsbD 0 = true) (h2 : (s.tenant t).enabled = false)
    (h3 : (s.tenant t).queueSized = false ∨ s.device.verified = false) : s.writeCtxCtl t v = s := by
  have h : (!(s.tenant t).queueSized || !s.device.verified) = true := by
    rcases h3 with h | h <;> simp [h]
  unfold State.writeCtxCtl
  simp only [h1, h2, h, Bool.not_false, Bool.and_self, if_true]

/-- A write that would disable a context which holds work is discarded (R352). -/
theorem writeCtxCtl_mayNot (h1 : v.getLsbD 0 = false) (h2 : (s.tenant t).enabled = true) (h3 : s.hasWork t = true) :
    s.writeCtxCtl t v = s := by
  unfold State.writeCtxCtl
  simp only [h1, h2, h3, Bool.not_true, Bool.not_false, Bool.and_self, Bool.false_and, Bool.false_eq_true,
    if_false, if_true]

/-- EN of a write, where it changes (R352). -/
def State.writeEn (s : State) (t : Nat) (v : DWord) : State :=
  if v.getLsbD 0 && !(s.tenant t).enabled then (execContextEnable t s).or s
  else if !v.getLsbD 0 && (s.tenant t).enabled then (execContextDisable t s).or s
  else s

/-- TRC of a write (R352). -/
def State.writeTrc (s : State) (t : Nat) (v : DWord) : State :=
  s.modTenant t fun y => y.setReg 0 ((y.reg 0 &&& ~~~(2#64)) ||| (v &&& 2#64))

/-- Any other write acts by EN, TRC and the highest of RST, RES and PRE in turn (R352). -/
theorem writeCtxCtl_acts
    (h1 : ¬ (v.getLsbD 0 = true ∧ (s.tenant t).enabled = false ∧
      ((s.tenant t).queueSized = false ∨ s.device.verified = false)))
    (h2 : ¬ (v.getLsbD 0 = false ∧ (s.tenant t).enabled = true ∧ s.hasWork t = true)) :
    .next (s.writeCtxCtl t v) =
      (if v.getLsbD 4 then execContextReset t ((s.writeEn t v).writeTrc t v)
      else if v.getLsbD 3 then execContextResume t ((s.writeEn t v).writeTrc t v)
      else if v.getLsbD 2 then execPreemptRequest t ((s.writeEn t v).writeTrc t v)
      else .next ((s.writeEn t v).writeTrc t v)) := by
  unfold State.writeCtxCtl
  dsimp only
  rw [if_neg, if_neg]
  · show (.next (if v.getLsbD 4 then (execContextReset t ((s.writeEn t v).writeTrc t v)).or ((s.writeEn t v).writeTrc t v)
      else _) : Out) = _
    rw [apply_ite (Host.Outcome.next), Out.next_or (execContextReset_goesOn ..), apply_ite (Host.Outcome.next)]
    congr 2
    · exact Out.next_or (execContextResume_goesOn ..) _
    · rw [apply_ite (Host.Outcome.next)]
      congr 1
      exact Out.next_or (execPreemptRequest_goesOn ..) _
  · simpa [and_assoc] using h2
  · simpa [and_assoc] using h1

end Control

theorem contextControlActs : Claim.ContextControlActs := by
  intro s t v ht
  extract_lets x write size cannot mayNot
  have hw : write = .next (s.writeCtxCtl t v) :=
    (execRegisterWrite_tenant ht (by omega) rfl v s).trans (congrArg _ (writeTenant_ctxCtl ..))
  have hcannot : cannot ↔ v.getLsbD 0 = true ∧ x.enabled = false ∧ (x.queueSized = false ∨ s.device.verified = false) := by
    rw [queueSized_eq_false, or_assoc]
  constructor
  · rintro (h | ⟨h1, h2, h3⟩)
    · obtain ⟨h1, h2, h3⟩ := hcannot.mp h
      rw [hw, writeCtxCtl_cannot h1 h2 h3]
    · rw [hw, writeCtxCtl_mayNot h1 h2 h3]
  · intro h1 h2 s1 hs1
    have en : s.writeEn t v = s1 := by
      unfold State.writeEn
      rcases hs1 with ⟨hv, rfl⟩ | ⟨hv, hx, he⟩ | ⟨hv, hx, he⟩
      · rw [hv]; cases x.enabled <;> rfl
      · have he' : execContextEnable t s = .next s1 := he
        rw [hv, hx, he']; rfl
      · have he' : execContextDisable t s = .next s1 := he
        rw [hv, hx, he']; rfl
    refine ⟨s1.writeTrc t v, _, tenantBecomes_modTenant .., rfl, fun k => Tenant.reg_setReg .., ?_⟩
    rw [hw, writeCtxCtl_acts (fun h => h1 (hcannot.mpr h)) h2, en]
    rfl

/-- The agent that a write of RESUME names (R351). -/
theorem writeResume_acts (s : State) (t : Nat) (v : DWord) :
    let who : AgentName := if v.getLsbD 8
      then .byIdentity ((s.tenant t).reg 0xF0).toNat (ebits v.toNat 39 32) (ebits v.toNat 51 40)
      else .byPlace (ebits v.toNat 31 24) (ebits v.toNat 23 21) (ebits v.toNat 20 16)
    (v.toNat % 4 = 0 → .next (s.writeResume t v) = execRetry t who s) ∧
    (v.toNat % 4 = 1 → .next (s.writeResume t v) = execSkip t who s) ∧
    (v.toNat % 4 = 2 → .next (s.writeResume t v) = execResumeReset t who s) ∧
    (v.toNat % 4 = 3 → s.writeResume t v = s) := by
  unfold State.writeResume
  dsimp only
  refine ⟨fun h => ?_, fun h => ?_, fun h => ?_, fun h => ?_⟩
  · rw [h]; exact Out.next_or (execRetry_goesOn ..) s
  · rw [h]; exact Out.next_or (execSkip_goesOn ..) s
  · rw [h]; exact Out.next_or (execResumeReset_goesOn ..) s
  · rw [h]; rfl

theorem tenantRegistersAreWritten : Claim.TenantRegistersAreWritten := by
  intro s t off width v ht x
  refine ⟨fun ho h => ?_, fun h1 h2 => ?_, ?_, ?_, ?_, ?_, fun ho h8 hn => ?_⟩
  · show execRegisterWrite (some t) off width v s = _
    unfold execRegisterWrite
    dsimp only
    rw [if_neg (Nat.not_le.mpr ht), if_neg (Nat.not_le.mpr ho), if_pos h]
  · show execRegisterWrite (some t) off width v s = _
    unfold execRegisterWrite
    dsimp only
    rw [if_neg (Nat.not_le.mpr ht), if_pos h1, if_pos h2]
    rfl
  · have write : s.writeTenant t 0x8 v = s.modTenant t fun x =>
        { x with linkerr := x.linkerr && !v.getLsbD 9, qerr := x.qerr && !v.getLsbD 8 } := rfl
    exact ⟨_, (execRegisterWrite_tenant ht (by omega) rfl v s).trans (congrArg _ write), tenantBecomes_modTenant ..⟩
  · exact (execRegisterWrite_tenant ht (by omega) rfl v s).trans (Out.next_or (execTlbInv_goesOn ..) s)
  · exact (execRegisterWrite_tenant ht (by omega) rfl v s).trans (Out.next_or (execLoadStart_goesOn ..) s)
  · have write : execRegisterWrite (some t) 0x88 8 v s = .next (s.writeResume t v) :=
      execRegisterWrite_tenant ht (by omega) rfl v s
    obtain ⟨h0, h1, h2, h3⟩ := writeResume_acts s t v
    exact ⟨fun h => write.trans (h0 h), fun h => write.trans (h1 h), fun h => write.trans (h2 h),
      fun h => write.trans (congrArg _ (h3 h))⟩
  · simp only [List.mem_cons, List.not_mem_nil, or_false, not_or] at hn
    obtain ⟨n0, n8, n18, n88, nE0⟩ := hn
    have write : s.writeTenant t off v = s.modTenant t fun x => x.setReg off
        ((x.reg off &&& ~~~(tenantMask off (s.tenant t).enabled)) ||| (v &&& tenantMask off (s.tenant t).enabled)) := by
      unfold State.writeTenant
      rw [if_neg n0, if_neg n8, if_neg n18, if_neg n88, if_neg nE0]
    refine ⟨_, _, (execRegisterWrite_tenant ht ho h8 v s).trans (congrArg _ write), tenantBecomes_modTenant .., rfl,
      fun k hk => ?_, ?_⟩
    · rw [Tenant.reg_setReg, if_neg hk]
    · rw [Tenant.reg_setReg, if_pos rfl]

/-! ## Reads (R348, R349, R352, R355) -/

/-- One status bit of a register. -/
theorem getLsbD_statusBit (c : Bool) (i j : Nat) (hi : i < 64) :
    (if c then 1#64 <<< i else 0#64).getLsbD j = (c && decide (j = i)) := by
  cases c with
  | false => simp
  | true =>
    rw [if_pos rfl, BitVec.getLsbD_shiftLeft, BitVec.getLsbD_one, Bool.true_and]
    by_cases h : j = i
    · subst h; simp [hi]
    · rcases Nat.lt_or_gt_of_ne h with h' | h'
      · simp [h, h']
      · have : ¬ j - i = 0 := by omega
        simp [h, this]

/-- The bits of `CTX_STAT` (R352). -/
theorem getLsbD_ctxStat (s : State) (t j : Nat) :
    (s.ctxStat t).getLsbD j = (
      ((s.tenant t).linkerr && decide (j = 9)) || ((s.tenant t).qerr && decide (j = 8)) ||
      (((s.tenant t).queueFull && s.agentWaits t) && decide (j = 7)) || (!(s.tenant t).invs.isEmpty && decide (j = 6)) ||
      ((s.tenant t).load.isSome && decide (j = 5)) || ((s.tenant t).resetting && decide (j = 4)) ||
      ((s.tenant t).saved && decide (j = 3)) || ((s.tenant t).draining && decide (j = 2)) ||
      (((s.tenant t).enabled && !(s.tenant t).draining && !(s.tenant t).saved && !(s.tenant t).resetting) &&
        decide (j = 0))) := by
  unfold State.ctxStat
  dsimp only
  simp only [BitVec.getLsbD_or, getLsbD_statusBit, Nat.reduceLT]

theorem queueFull_iff (x : Tenant) :
    x.queueFull = true ↔ (x.reg 0x80 - x.reg 0x78).toNat = 2 ^ ((x.reg 0x70).toNat % 32) := by
  unfold Tenant.queueFull ebits
  rw [beq_iff_eq, Nat.pow_zero, Nat.div_one]; rfl

theorem readReg_tenant {t off : Nat} (ht : t < 16) (ho : off < 65536) (h : off % 8 = 0) (s : State) :
    s.readReg (some t) off 8 = s.readTenant t off := by
  unfold State.readReg
  rw [if_neg fun hn => hn.elim (fun h8 => h8 rfl) fun h8 => h8 h]
  exact if_pos ⟨ht, ho⟩

theorem readReg_device {off : Nat} (ho : off < 1048576) (h : off % 8 = 0) (s : State) :
    s.readReg none off 8 = s.readDevice off := by
  unfold State.readReg
  rw [if_neg fun hn => hn.elim (fun h8 => h8 rfl) fun h8 => h8 h]
  exact if_pos ho

theorem registersAreRead : Claim.RegistersAreRead := by
  intro s
  refine ⟨fun block off width h => if_pos h, ?_, ?_, fun d hd => ?_, ?_⟩
  · intro t ht x v
    have hv : v = s.ctxStat t := readReg_tenant ht (by omega) rfl s
    rw [hv]
    refine ⟨?_, ?_, ?_, ?_, ?_, ?_, ?_, ?_, ?_, ?_, fun i hi => ?_, readReg_tenant ht (by omega) rfl s⟩
    · rw [getLsbD_ctxStat]; simp [x, and_assoc]
    · rw [getLsbD_ctxStat]; simp
    · rw [getLsbD_ctxStat]; simp [x]
    · rw [getLsbD_ctxStat]; simp [x]
    · rw [getLsbD_ctxStat]; simp [x]
    · rw [getLsbD_ctxStat]; simp [x]
    · rw [getLsbD_ctxStat]; simp [x]
    · rw [getLsbD_ctxStat, ← queueFull_iff]; simp [x]
    · rw [getLsbD_ctxStat]; simp [x]
    · rw [getLsbD_ctxStat]; simp [x]
    · have differ : ∀ k, k < 10 → decide (i = k) = false := fun k hk => decide_eq_false (by omega)
      rw [getLsbD_ctxStat]
      simp [differ]
  · exact readReg_device (by omega) rfl s
  · rw [readReg_device (by omega) (by omega)]
    have index : (0x208 + 8 * d - 0x208) / 8 = d := by omega
    unfold State.readDevice
    rw [if_neg (by omega), if_neg (by omega), if_pos (by omega), index, Nat.mul_comm]
    rfl
  · exact readReg_device (by omega) rfl s

/-- Settles O49: each register by the branch of the model that its offset takes. -/
theorem registerWrites : Obligations.RegisterWrites :=
  ⟨deviceRegistersAreWritten, contextControlActs, tenantRegistersAreWritten, registersAreRead⟩

end Sys2Proof.Machine
end

section
/-! PROOF. The start of tasks and the resumption of continuations (O39). -/

namespace Sys2Proof.Machine

open Sys2Proof.Claim

/-- Tasks that fit nowhere and may be passed over are (R41). -/
theorem pickTask_append (s : State) (core : Nat) (pre post : List (Nat × Agent)) (skipped : List Nat)
    (h : ∀ e ∈ pre, s.fitPart core e.2.regs.alloc = none ∧ e.2.passed < 64) :
    s.pickTask core (pre ++ post) skipped = s.pickTask core post ((pre.map Prod.fst).reverse ++ skipped) := by
  induction pre generalizing skipped with
  | nil => rfl
  | cons e pre ih =>
    obtain ⟨a, x⟩ := e
    obtain ⟨hfit, hpassed⟩ := h (a, x) (by simp)
    simp only [List.cons_append, State.pickTask, hfit, ge_iff_le, Nat.not_le.mpr hpassed, if_false]
    rw [ih _ fun e he => h e (by simp [he])]
    simp

/-- The tasks passed over, each counted as often as it is named. -/
def State.passOver (s : State) (keys : List Nat) : State :=
  keys.foldl (fun r k => r.modAgent k fun x => { x with passed := x.passed + 1 }) s

theorem passOver_only (s : State) (keys : List Nat) : ∃ as, s.passOver keys = { s with agents := as } := by
  induction keys generalizing s with
  | nil => exact ⟨_, rfl⟩
  | cons k keys ih =>
    obtain ⟨as, h⟩ := ih (s.modAgent k fun x => { x with passed := x.passed + 1 })
    exact ⟨as, h⟩

theorem agent?_passOver (s : State) (keys : List Nat) (k : Nat) :
    (s.passOver keys).agent? k = (s.agent? k).map fun z => { z with passed := z.passed + keys.count k } := by
  induction keys generalizing s with
  | nil => exact Option.map_id'.symm
  | cons j keys ih =>
    show ((s.modAgent j fun x => { x with passed := x.passed + 1 }).passOver keys).agent? k = _
    rw [ih, State.agent?_modAgent]
    by_cases h : j = k
    · subst h
      rw [if_pos rfl, Option.map_map, List.count_cons_self]
      congr 1; funext z
      simp only [Function.comp_apply, Nat.add_assoc, Nat.add_comm 1]
    · rw [if_neg h, List.count_cons_of_ne h]

/-- The task that is picked stands in its place, and the others have been passed over (R40, R41, R61). -/
theorem execTaskStart_starts {s : State} {core a : Nat} {x : Agent} {p : Place} {skipped : List Nat}
    (hp : s.pickTask core (s.taskQueue core) [] = some (a, p, skipped)) (hx : s.agent? a = some x) :
    ∃ u, execTaskStart core s = .next u ∧ u = { s with agents := u.agents, cores := u.cores } ∧
      (u.core core).l1 = [] ∧ (∀ k, k ≠ core → u.core k = s.core k) ∧
      u.agent? a = some { x with
        place := some p, queued := false, active := s.entersActive p.core p.part, ident := { x.ident with born := s.time }
        sys := { x.sys with yreq := false }, passed := 0 } ∧
      ∀ k, k ≠ a → u.agent? k = (s.agent? k).map fun z => { z with passed := z.passed + skipped.count k } := by
  obtain ⟨as, has⟩ := passOver_only s skipped
  have cores (k : Nat) : (s.passOver skipped).core k = s.core k := by rw [has]; rfl
  unfold execTaskStart
  rw [hp]
  dsimp only
  rw [← State.passOver]
  refine ⟨_, rfl, ?_, ?_, fun k hk => ?_, ?_, fun k hk => ?_⟩
  · rw [has]; rfl
  · unfold State.invalL1
    rw [State.core_modCore, if_pos rfl]
  · unfold State.invalL1
    rw [State.core_modCore, if_neg (Ne.symm hk)]
    exact cores k
  · show ((s.passOver skipped).modAgent a _).agent? a = _
    rw [State.agent?_modAgent, if_pos rfl, agent?_passOver, hx]
    rfl
  · show ((s.passOver skipped).modAgent a _).agent? k = _
    rw [State.agent?_modAgent, if_neg (Ne.symm hk), agent?_passOver]

/-- A continuation whose tasks have returned takes its slot again (R42). -/
theorem execContinuationResume_resumes {s : State} {a id : Nat} {x : Agent} {p : Place} {r : ContRec}
    (hx : s.agent? a = some x) (hh : x.ctl.hold = .held id) (hp : x.place = some p)
    (hr : x.recs.find? (fun r => r.id == id) = some r) (hl : s.live x = true) (hj : r.join = 0)
    (hf : r.budget * 32 ≤ s.freeRegs p.core p.part) :
    execContinuationResume a s = .next (s.setAgent a { x with
      recs := x.recs.filter fun q => q.id != id
      regs := { alloc := r.budget * 32, v := [], vMark := [], s := r.scalars, sMark := r.marks, p := r.preds }
      ctl := { (x.ctl.move r.lanes fun _ => r.cont) with hold := .none }
      sys := { x.sys with fpflags := r.flags } }) := by
  unfold execContinuationResume
  simp only [hx, hh, hp, hr, hl, hj, Nat.not_lt.mpr hf, ne_eq, not_true_eq_false, decide_false, Bool.not_true, Bool.or_false,
    Bool.false_eq_true, if_false]

/-- Settles O39: the first task that fits is the one picked, and the record of a call gives its caller back. -/
theorem tasksStartAndContinuationsResume : Obligations.TasksStartAndContinuationsResume := by
  unfold Obligations.TasksStartAndContinuationsResume
  refine ⟨fun s core pre post a x hq hpre hx => ?_, fun s a id x p r hx hh hp hr hl hj hf => ?_⟩
  · have pick := pickTask_append s core pre ((a, x) :: post) [] hpre
    rw [← hq, State.pickTask] at pick
    constructor
    · intro p hfit _
      rw [hfit, List.append_nil] at pick
      obtain ⟨u, he, hu, hl1, hcores, ha, hothers⟩ := execTaskStart_starts pick hx
      exact ⟨u, he, hu, hl1, hcores, ha, fun k hk => by rw [hothers k hk, List.count_reverse]⟩
    · intro hfit hpassed
      simp only [hfit, ge_iff_le, hpassed, if_true] at pick
      show execTaskStart core s = _
      unfold execTaskStart
      rw [pick]
  · refine ⟨_, _, execContinuationResume_resumes hx hh hp hr hl hj hf, fun l => ?_, AgentBecomes.set ..⟩
    refine (Ctl.pc_move x.ctl r.lanes (fun _ => r.cont) l).trans ?_
    rw [BitVec.getLsbD_zero, if_neg Bool.false_ne_true]
    rfl

end Sys2Proof.Machine
end

section
/-! PROOF. Launch records, how they join their queues, and what is checked of the head of a queue (O40). -/

namespace Sys2Proof.Machine

open Sys2Proof.Claim

/-! ## Queues (R45) -/

@[simp] theorem Tenant.queue_setQueue_same (x : Tenant) (die prio : Nat) (q : LaunchQ) :
    (x.setQueue die prio q).queue die prio = q := kgetD_ksetD_same ..

theorem Tenant.queues_setQueue (x : Tenant) (die prio : Nat) (q : LaunchQ) (k : Nat) :
    kgetD LaunchQ.empty (x.setQueue die prio q).queues k =
      if k = queueKey die prio then q else kgetD LaunchQ.empty x.queues k :=
  (kgetD_ksetD ..).trans (by simp only [eq_comm])

theorem enqueue_appended (s : State) (t die prio : Nat) (r : LaunchRec) :
    Appended s (s.enqueue t die prio r) t die prio r := by
  refine ⟨rfl, fun k hk => ?_, _, ?_, fun k => Tenant.queues_setQueue (s.tenant t) die prio _ k⟩
  · unfold State.enqueue; rw [State.tenant_modTenant, if_neg (Ne.symm hk)]
  · unfold State.enqueue; rw [State.tenant_modTenant, if_pos rfl]; rfl

theorem queueError_refused (s : State) (t : Nat) : QueueRefused s (s.queueError t) t := by
  unfold State.queueError QueueRefused
  by_cases h : (s.tenant t).qerr = true
  · rw [if_pos h, if_pos h]; exact ⟨rfl, fun _ _ => rfl, rfl⟩
  · rw [if_neg h, if_neg h]
    refine ⟨rfl, fun k hk => ?_, ?_⟩
    · simp only [State.irq, State.tenant_modTenant, if_neg (Ne.symm hk)]
    · simp only [State.irq, State.tenant_modTenant, if_true]

/-- A waiting agent goes on past its instruction. -/
theorem goOn_becomes {s : State} {a : Nat} {x : Agent} (hx : s.agent? a = some x) :
    ∃ q, PcsAdvanced x.ctl.waitRun 8 x.ctl.pcs q ∧ AgentBecomes s (s.modAgent a Agent.goOn) a { x with
      ctl := { x.ctl with pcs := q, hold := .none, waitRun := 0#32, waitSince := none } } :=
  ⟨_, PcsAdvanced.intro _ 8 x.ctl, AgentBecomes.mod hx _⟩

theorem launchRecordsAreAppended : Claim.LaunchRecordsAreAppended := by
  refine ⟨fun s t off b ht ho => ⟨fun h => ?_, fun h1 h2 h3 h4 => ?_⟩, fun s a prio off x hx hh hl hst => ?_⟩
  · refine ⟨_, ?_, queueError_refused s t⟩
    show execQueueWindowWrite t off b s = _
    unfold execQueueWindowWrite
    dsimp only
    rw [if_neg (by omega), if_pos h]
  · refine ⟨_, ?_, enqueue_appended ..⟩
    show execQueueWindowWrite t off b s = _
    unfold execQueueWindowWrite
    dsimp only
    rw [if_neg (by omega), if_neg]
    rintro (h | h | h | h)
    · rw [h1] at h; cases h
    · exact h h2
    · exact h h3
    · exact absurd h (Nat.not_le.mpr h4)
  · obtain ⟨q, hq, hb⟩ := goOn_becomes hx
    have exec_eq : exec (.taskPushAppend a) s = execTaskPushAppend a s := rfl
    simp only [exec_eq, execTaskPushAppend, hx, hh, hl, hst, Bool.not_true, bne_self_eq_false, Bool.or_self, Bool.false_eq_true,
      if_false]
    refine ⟨fun h => ?_, fun h hn => ?_, fun h hn => ?_⟩
    · exact ⟨_, _, if_pos h, ⟨q, hq, hb⟩, queueError_refused ..⟩
    · rw [h, if_neg Bool.false_ne_true, if_pos hn]
    · rw [h, if_neg Bool.false_ne_true, if_neg (Nat.not_le.mpr hn)]
      exact ⟨_, _, rfl, ⟨q, hq, hb⟩, enqueue_appended ..⟩

/-! ## What leaves the queues of a tenant as they are -/

/-- Memory, agents, completions, other tenants and the queues of this one are as they were. -/
def SameQueues (s u : State) (t : Nat) : Prop :=
  SameBytes s u ∧ u.agents = s.agents ∧ (∀ k, k ≠ t → u.tenant k = s.tenant k) ∧
  (u.tenant t).queues = (s.tenant t).queues ∧ u.completions = s.completions

theorem sameQueues_modTenant (s : State) (t : Nat) (f : Tenant → Tenant) (h : (f (s.tenant t)).queues = (s.tenant t).queues) :
    SameQueues s (s.modTenant t f) t :=
  ⟨fun _ => rfl, rfl, fun k hk => by rw [State.tenant_modTenant, if_neg (Ne.symm hk)],
    by rw [State.tenant_modTenant, if_pos rfl, h], rfl⟩

theorem sameQueues_linkError (s : State) (t : Nat) : SameQueues s (s.linkError t) t := by
  unfold State.linkError
  by_cases h : (s.tenant t).linkerr = true
  · rw [if_pos h]; exact ⟨fun _ => rfl, rfl, fun _ _ => rfl, rfl, rfl⟩
  · rw [if_neg h]
    obtain ⟨b1, a1, k1, q1, c1⟩ := sameQueues_modTenant s t (fun x => { x with linkerr := true }) rfl
    obtain ⟨b2, a2, k2, q2, c2⟩ := sameQueues_modTenant (s.modTenant t fun x => { x with linkerr := true }) t
      (fun x => { x with irqs := x.irqs ++ [3] }) rfl
    exact ⟨fun a => (b2 a).trans (b1 a), a2.trans a1, fun k hk => (k2 k hk).trans (k1 k hk), q2.trans q1, c2.trans c1⟩

theorem sameQueues_readLost (s : State) (t : Nat) (lost : Bool) : SameQueues s (s.readLost t lost) t := by
  cases lost with
  | false => exact ⟨fun _ => rfl, rfl, fun _ _ => rfl, rfl, rfl⟩
  | true => exact sameQueues_linkError { s with linkLost := false, free := s.free + 0 } t

theorem sameQueues_dropLaunch (s : State) (t : Nat) (l : Option Nat) : SameQueues s (s.dropLaunch l) t := by
  cases l with
  | none => exact ⟨fun _ => rfl, rfl, fun _ _ => rfl, rfl, rfl⟩
  | some k => exact ⟨fun _ => rfl, rfl, fun _ _ => rfl, rfl, rfl⟩

theorem linkAnswers_readLost (s : State) (t : Nat) (lost : Bool) : LinkAnswers s (s.readLost t lost) t lost := by
  cases lost with
  | false => exact ⟨rfl, (Bool.and_true _).symm, (List.append_nil _).symm⟩
  | true =>
    show LinkAnswers s (State.linkError { s with linkLost := false, free := s.free + 0 } t) t true
    have same : State.tenant { s with linkLost := false, free := s.free + 0 } t = s.tenant t := rfl
    unfold State.linkError LinkAnswers
    rw [same]
    by_cases h : (s.tenant t).linkerr = true
    · rw [if_pos h]
      exact ⟨h, (Bool.and_false _).symm, by rw [h]; exact (List.append_nil _).symm⟩
    · rw [if_neg h]
      rw [Bool.not_eq_true] at h
      simp only [State.irq, State.tenant_modTenant, if_true, same, h]
      exact ⟨rfl, (Bool.and_false _).symm, rfl⟩

/-! ## The head record leaves its queue (R47 to R49) -/

section Leaves
variable {s s' u u' : State} {t die prio status : Nat} {r : LaunchRec}

theorem headLeaves_before (h : HeadLeaves s' u t die prio r status) (hs : SameQueues s s' t) :
    HeadLeaves s u t die prio r status := by
  obtain ⟨b, a, k, q, o, c⟩ := h
  obtain ⟨b', a', k', q', c'⟩ := hs
  unfold Tenant.queue at q
  rw [q'] at q o
  exact ⟨fun i => (b i).trans (b' i), a.trans a', fun j hj => (k j hj).trans (k' j hj), q, o, by rw [c, c']⟩

theorem headLeaves_after (h : HeadLeaves s u t die prio r status) (hs : SameQueues u u' t) :
    HeadLeaves s u' t die prio r status := by
  obtain ⟨b, a, k, q, o, c⟩ := h
  obtain ⟨b', a', k', q', c'⟩ := hs
  unfold Tenant.queue at q
  rw [← q'] at q o
  exact ⟨fun i => (b' i).trans (b i), a'.trans a, fun j hj => (k' j hj).trans (k j hj), q, o, by rw [c', c]⟩

/-- A status for a completion word changes nothing but what is to be written (R48). -/
theorem complete_only (s : State) (t die : Nat) (r : LaunchRec) (status : Nat) :
    ∃ cs, s.complete t die r status = { s with completions := cs } ∧ cs = s.completions ++
      (if r.done = 0#64 then []
      else [{ tenant := t, launch := 0, addr := r.done, status := status, count := false, irq := r.irq, tag := r.tag,
              die := die }]) := by
  unfold State.complete
  by_cases h : r.done = 0#64
  · rw [if_pos h, if_pos h, List.append_nil]; exact ⟨_, rfl, rfl⟩
  · rw [if_neg h, if_neg h]; exact ⟨_, rfl, rfl⟩

theorem complete_tenant (s : State) (t die : Nat) (r : LaunchRec) (status k : Nat) :
    (s.complete t die r status).tenant k = s.tenant k := by
  obtain ⟨cs, h, -⟩ := complete_only s t die r status
  rw [h]; rfl

theorem complete_linkLost (s : State) (t die : Nat) (r : LaunchRec) (status : Nat) :
    (s.complete t die r status).linkLost = s.linkLost := by
  obtain ⟨cs, h, -⟩ := complete_only s t die r status
  rw [h]

theorem tenant_popHead (s : State) (t die prio : Nat) :
    (s.popHead t die prio).tenant t = (s.tenant t).setQueue die prio
      { recs := ((s.tenant t).queue die prio).recs.drop 1, head := .unchecked, launch := none } := by
  unfold State.popHead; rw [State.tenant_modTenant, if_pos rfl]

/-- The head record leaves with a status for its completion word. -/
theorem headLeaves_complete (s : State) (t die prio : Nat) (r : LaunchRec) (status : Nat) :
    HeadLeaves s ((s.popHead t die prio).complete t die r status) t die prio r status := by
  obtain ⟨cs, h, hcs⟩ := complete_only (s.popHead t die prio) t die r status
  refine ⟨fun a => ?_, ?_, fun k hk => ?_, ?_, fun k hk => ?_, ?_⟩
  · rw [h]; rfl
  · rw [h]; rfl
  · rw [complete_tenant]
    exact (State.tenant_modTenant ..).trans (if_neg (Ne.symm hk))
  · rw [complete_tenant, tenant_popHead, Tenant.queue_setQueue_same]
  · rw [complete_tenant, tenant_popHead, Tenant.queues_setQueue, if_neg hk]
  · rw [h]; exact hcs

/-- A launch that is refused without a report (R47). -/
theorem refuse_refused (s : State) (t die prio : Nat) (r : LaunchRec) :
    HeadLeaves s (s.refuse t die prio r none) t die prio r 2 ∧
    ((s.refuse t die prio r none).tenant t).reports = (s.tenant t).reports := by
  refine ⟨headLeaves_complete .., ?_⟩
  show (((s.popHead t die prio).complete t die r 2).tenant t).reports = _
  rw [complete_tenant, tenant_popHead]
  rfl

/-- A report of code 14 joins the reports of its tenant, and no other part of the state changes (R314). -/
theorem dispReport_reports (s : State) (t : Nat) (a : DWord) (f w : Bool) (tag : DWord) :
    ∃ z, s.dispReport t a f w tag = s.modTenant t (fun x => { x with reports := x.reports ++ [z] }) ∧
      z.code = 14 ∧ z.addr = a ∧ z.fetch = f ∧ z.wr = w ∧ z.tag = tag :=
  ⟨_, rfl, rfl, rfl, rfl, rfl, rfl⟩

/-- What could not be read refuses the launch and is reported (R47, R314, R357). -/
theorem refuse_unread (s : State) (t die prio : Nat) (r : LaunchRec) (lost : Bool) (l : Option Nat) (a : DWord) (f : Bool) :
    ∃ z, HeadLeaves s (((s.readLost t lost).dropLaunch l).refuse t die prio r (some (a, f))) t die prio r 2 ∧
      LinkAnswers s (((s.readLost t lost).dropLaunch l).refuse t die prio r (some (a, f))) t lost ∧
      ((((s.readLost t lost).dropLaunch l).refuse t die prio r (some (a, f))).tenant t).reports =
        (s.tenant t).reports ++ [z] ∧ z.code = 14 ∧ z.addr = a ∧ z.fetch = f ∧ z.tag = r.tag := by
  have lostReports : ((s.readLost t lost).tenant t).reports = (s.tenant t).reports := by
    cases lost with
    | false => rfl
    | true =>
      show ((State.linkError { s with linkLost := false, free := s.free + 0 } t).tenant t).reports = _
      unfold State.linkError
      split
      · rfl
      · simp only [State.irq, State.tenant_modTenant, if_true]; rfl
  have dropped : ((s.readLost t lost).dropLaunch l).tenant t = (s.readLost t lost).tenant t := by cases l <;> rfl
  have lostLink : ((s.readLost t lost).dropLaunch l).linkLost = (s.readLost t lost).linkLost := by cases l <;> rfl
  obtain ⟨link, gone, irqs⟩ := linkAnswers_readLost s t lost
  have leaves := headLeaves_complete ((s.readLost t lost).dropLaunch l) t die prio r 2
  obtain ⟨z, report, code, addr, fetch, -, tag⟩ := dispReport_reports
    ((((s.readLost t lost).dropLaunch l).popHead t die prio).complete t die r 2) t a f false r.tag
  refine ⟨z, ?_, ?_, ?_, code, addr, fetch, tag⟩
  all_goals unfold State.refuse; dsimp only; rw [report]
  · exact headLeaves_after (headLeaves_before (headLeaves_before leaves (sameQueues_dropLaunch ..)) (sameQueues_readLost ..))
      (sameQueues_modTenant _ _ _ rfl)
  · unfold LinkAnswers
    rw [State.tenant_modTenant, if_pos rfl, complete_tenant, tenant_popHead, dropped]
    exact ⟨link, (complete_linkLost ..).trans (lostLink.trans gone), irqs⟩
  · rw [State.tenant_modTenant, if_pos rfl, complete_tenant, tenant_popHead, dropped]
    exact congrArg (· ++ _) lostReports

end Leaves

/-! ## A launch becomes eligible (R49) -/

/-- The counts of the ranks without a gang (log 31). -/
def LaunchRec.emptyCounts (r : LaunchRec) (t die : Nat) (shares : List RankShare) : List Completion :=
  if r.done = 0#64 then []
  else (shares.filter fun q => q.count == 0).map fun _ =>
    { tenant := t, launch := 0, addr := r.done, status := 0, count := true, irq := r.irq, tag := r.tag, die := die }

theorem emptyRanks_only (s : State) (t die : Nat) (r : LaunchRec) (shares : List RankShare) :
    ∃ cs, s.emptyRanks t die r shares = { s with completions := cs } ∧ cs = s.completions ++ r.emptyCounts t die shares := by
  unfold State.emptyRanks LaunchRec.emptyCounts
  by_cases h : r.done = 0#64
  · rw [if_pos h, if_pos h, List.append_nil]; exact ⟨_, rfl, rfl⟩
  · rw [if_neg h, if_neg h]; exact ⟨_, rfl, rfl⟩

theorem all_counts_zero (shares : List RankShare) :
    (shares.all fun q => q.count == 0) = true ↔ ∀ q ∈ shares, q.count = 0 := by
  simp only [List.all_eq_true, beq_iff_eq]

/-- What becomes of a launch that is eligible, and of one of which this device runs no gang (R49, log 31). -/
theorem opens_spec (s : State) (t die prio key : Nat) (l : Launch) :
    SameBytes s (s.opens t die prio key l) ∧ (s.opens t die prio key l).agents = s.agents ∧
    (s.opens t die prio key l).completions = s.completions ++ l.record.emptyCounts t die l.shares ∧
    (∀ k, k ≠ t → (s.opens t die prio key l).tenant k = s.tenant k) ∧
    ((∃ q ∈ l.shares, q.count ≠ 0) →
      ((s.opens t die prio key l).tenant t).queue die prio = { (s.tenant t).queue die prio with head := .eligible } ∧
      (s.opens t die prio key l).launches = s.launches) ∧
    ((∀ q ∈ l.shares, q.count = 0) →
      ((s.opens t die prio key l).tenant t).queue die prio =
        { recs := ((s.tenant t).queue die prio).recs.drop 1, head := .unchecked, launch := none } ∧
      (s.opens t die prio key l).launches = kdel s.launches key) := by
  obtain ⟨cs, h, hcs⟩ := emptyRanks_only s t die l.record l.shares
  unfold State.opens
  rw [h]
  dsimp only
  by_cases hz : (l.shares.all fun q => q.count == 0) = true
  · rw [if_pos hz]
    refine ⟨fun _ => rfl, rfl, hcs, fun k hk => (State.tenant_modTenant ..).trans (if_neg (Ne.symm hk)), fun he => ?_,
      fun _ => ⟨?_, rfl⟩⟩
    · obtain ⟨q, hq, hn⟩ := he
      exact absurd ((all_counts_zero _).mp hz q hq) hn
    · rw [tenant_popHead, Tenant.queue_setQueue_same]; rfl
  · rw [if_neg hz]
    refine ⟨fun _ => rfl, rfl, hcs, fun k hk => (State.tenant_modTenant ..).trans (if_neg (Ne.symm hk)), fun _ => ⟨?_, rfl⟩,
      fun ha => absurd ((all_counts_zero _).mpr ha) hz⟩
    rw [State.tenant_modTenant, if_pos rfl, Tenant.queue_setQueue_same]; rfl

/-- A record that has passed its checks is a launch, which waits for its word or is eligible (R47, R49). -/
theorem accept_spec {s : State} {t die prio : Nat} {r : LaunchRec} {rs : List LaunchRec} (h : Header)
    (shares : List RankShare) (hq : ((s.tenant t).queue die prio).recs = r :: rs) :
    SameBytes s (s.accept t die prio r h shares) ∧ (s.accept t die prio r h shares).agents = s.agents ∧
    (∀ k, k ≠ s.nextKey → kget (s.accept t die prio r h shares).launches k = kget s.launches k) ∧
    (s.accept t die prio r h shares).completions =
      s.completions ++ (if r.waita = 0#64 then r.emptyCounts t die shares else []) ∧
    (r.waita ≠ 0#64 ∨ (∃ q ∈ shares, q.count ≠ 0) →
      ∃ l, kget (s.accept t die prio r h shares).launches s.nextKey = some l ∧ l.tenant = t ∧ l.die = die ∧ l.prio = prio ∧
        l.record = r ∧ l.header = h ∧ l.shares = shares ∧ l.committed = 0 ∧
        ((s.accept t die prio r h shares).tenant t).queue die prio =
          { recs := r :: rs, launch := some s.nextKey, head := if r.waita = 0#64 then .eligible else .waiting }) ∧
    (r.waita = 0#64 → (∀ q ∈ shares, q.count = 0) →
      kget (s.accept t die prio r h shares).launches s.nextKey = none ∧
      ((s.accept t die prio r h shares).tenant t).queue die prio = { recs := rs, launch := none, head := .unchecked }) := by
  unfold State.accept
  extract_lets key l s1
  have launches : s1.launches = kput s.launches s.nextKey l := rfl
  have queue : (s1.tenant t).queue die prio = { recs := r :: rs, launch := some s.nextKey, head := .waiting } := by
    rw [show s1.tenant t = _ from (State.tenant_modTenant ..).trans (if_pos rfl), Tenant.queue_setQueue_same]
    show LaunchQ.mk ((s.tenant t).queue die prio).recs _ _ = _
    rw [hq]
  by_cases hw : r.waita = 0#64
  · rw [if_pos hw, if_pos hw, if_pos hw]
    obtain ⟨hb, ha, hc, -, hsome, hnone⟩ := opens_spec s1 t die prio s.nextKey l
    by_cases hz : ∀ q ∈ shares, q.count = 0
    · obtain ⟨hq1, hl1⟩ := hnone hz
      refine ⟨hb, ha, fun k hk => ?_, hc, fun ho => ?_, fun _ _ => ⟨?_, ?_⟩⟩
      · rw [hl1, launches, kget_kdel, if_neg (Ne.symm hk), kget_kput_other _ _ (Ne.symm hk)]
      · rcases ho with ho | ⟨q, hm, hn⟩
        · exact absurd hw ho
        · exact absurd (hz q hm) hn
      · rw [hl1, kget_kdel, if_pos rfl]
      · rw [hq1, queue]; rfl
    · have he : ∃ q ∈ shares, q.count ≠ 0 := by
        simpa only [not_forall, exists_prop] using hz
      obtain ⟨hq1, hl1⟩ := hsome he
      refine ⟨hb, ha, fun k hk => ?_, hc, fun _ => ⟨l, ?_, rfl, rfl, rfl, rfl, rfl, rfl, rfl, ?_⟩, fun _ ha => absurd ha hz⟩
      · rw [hl1, launches, kget_kput_other _ _ (Ne.symm hk)]
      · rw [hl1, launches, kget_kput_same]
      · rw [hq1, queue]
  · rw [if_neg hw, if_neg hw, if_neg hw]
    refine ⟨fun _ => rfl, rfl, fun k hk => ?_, (List.append_nil _).symm,
      fun _ => ⟨l, ?_, rfl, rfl, rfl, rfl, rfl, rfl, rfl, queue⟩, fun h0 => absurd h0 hw⟩
    · rw [launches, kget_kput_other _ _ (Ne.symm hk)]
    · rw [launches, kget_kput_same]

/-! ## The checks of the head (R47, R49) -/

section Check
variable {s : State} {t die prio : Nat} {r : LaunchRec} {rs : List LaunchRec}
  (hs : (s.tenant t).serves = true) (hr : ((s.tenant t).queue die prio).recs = r :: rs)
include hs hr

section Unchecked
variable (hd : die < 4) (hp : prio < 4) (hh : ((s.tenant t).queue die prio).head = .unchecked)
include hd hp hh

theorem launchCheck_misaligned (he : r.entry.toNat % 8 ≠ 0) :
    execLaunchCheck t die prio s = .next (s.refuse t die prio r none) := by
  unfold execLaunchCheck
  simp only [hs, Nat.not_le.mpr hd, Nat.not_le.mpr hp, hr, hh, he, Bool.not_true, Bool.false_eq_true, false_or,
    if_false, ne_eq, not_false_eq_true, if_true]

variable (he : r.entry.toNat % 8 = 0)
include he

theorem launchCheck_headerHeld (hb : s.dispBytes die t 8 .fetch 2 (r.entry - 16#64) = .held) :
    execLaunchCheck t die prio s = .next s := by
  unfold execLaunchCheck
  simp only [hs, Nat.not_le.mpr hd, Nat.not_le.mpr hp, hr, hh, he, hb, Bool.not_true, Bool.false_eq_true, false_or,
    if_false, ne_eq, not_true_eq_false]

theorem launchCheck_headerBad {lost : Bool} (hb : s.dispBytes die t 8 .fetch 2 (r.entry - 16#64) = .bad lost) :
    execLaunchCheck t die prio s = .next ((s.readLost t lost).refuse t die prio r (some (r.entry - 16#64, true))) := by
  unfold execLaunchCheck
  simp only [hs, Nat.not_le.mpr hd, Nat.not_le.mpr hp, hr, hh, he, hb, Bool.not_true, Bool.false_eq_true, false_or,
    if_false, ne_eq, not_true_eq_false]

variable {b : List Byte} (hb : s.dispBytes die t 8 .fetch 2 (r.entry - 16#64) = .ok b)
include hb

theorem launchCheck_noHeader
    (hw : Header.ofWords (leVal (b.take 4)) (leVal ((b.drop 4).take 4)) (leVal ((b.drop 8).take 4)) (leVal (b.drop 12)) = none) :
    execLaunchCheck t die prio s = .next (s.refuse t die prio r none) := by
  unfold execLaunchCheck
  simp only [hs, Nat.not_le.mpr hd, Nat.not_le.mpr hp, hr, hh, he, hb, hw, Bool.not_true, Bool.false_eq_true, false_or,
    if_false, ne_eq, not_true_eq_false]

variable {h : Header}
  (hw : Header.ofWords (leVal (b.take 4)) (leVal ((b.drop 4).take 4)) (leVal ((b.drop 8).take 4)) (leVal (b.drop 12)) = some h)
include hw

/-- Numbers out of range, or a gang that does not fit, refuse the launch; else its table of ranks is read. -/
theorem launchCheck_header :
    execLaunchCheck t die prio s =
      if r.warps = 0 ∨ r.warps > 128 ∨ r.cores = 3 ∨ r.gangs = 0 ∨ !fitsEmpty h r then .next (s.refuse t die prio r none)
      else
        match s.readShares die t r with
        | .held => .next s
        | .bad lost => .next ((s.readLost t lost).refuse t die prio r (some (r.pgt, false)))
        | .ok none => .next (s.refuse t die prio r none)
        | .ok (some shares) => .next (s.accept t die prio r h shares) := by
  unfold execLaunchCheck
  simp only [hs, Nat.not_le.mpr hd, Nat.not_le.mpr hp, hr, hh, he, hb, hw, Bool.not_true, Bool.false_eq_true, false_or,
    if_false, ne_eq, not_true_eq_false] <;> rfl

end Unchecked

section Waiting
variable (hh : ((s.tenant t).queue die prio).head = .waiting)
include hh

theorem waitWord_misaligned (hw : r.waita.toNat % 8 ≠ 0) :
    execWaitWordRead t die prio s =
      .next (((s.readLost t false).dropLaunch ((s.tenant t).queue die prio).launch).refuse t die prio r
        (some (r.waita, false))) := by
  unfold execWaitWordRead
  simp only [hs, hr, hh, hw, Bool.not_true, Bool.false_eq_true, if_false]

variable (hw : r.waita.toNat % 8 = 0)
include hw

theorem waitWord_held (hb : s.dispBytes die t 8 .read 1 r.waita = .held) : execWaitWordRead t die prio s = .next s := by
  unfold execWaitWordRead
  simp only [hs, hr, hh, hw, hb, Bool.not_true, Bool.false_eq_true, if_false, if_true]

theorem waitWord_bad {lost : Bool} (hb : s.dispBytes die t 8 .read 1 r.waita = .bad lost) :
    execWaitWordRead t die prio s =
      .next (((s.readLost t lost).dropLaunch ((s.tenant t).queue die prio).launch).refuse t die prio r
        (some (r.waita, false))) := by
  unfold execWaitWordRead
  simp only [hs, hr, hh, hw, hb, Bool.not_true, Bool.false_eq_true, if_false, if_true]

variable {b : List Byte} (hb : s.dispBytes die t 8 .read 1 r.waita = .ok b)
include hb

theorem waitWord_status (hv : leVal b / 2 ^ 56 ≠ 0) :
    execWaitWordRead t die prio s =
      .next (((s.dropLaunch ((s.tenant t).queue die prio).launch).popHead t die prio).complete t die r (leVal b / 2 ^ 56)) := by
  unfold execWaitWordRead
  simp only [hs, hr, hh, hw, hb, hv, Bool.not_true, Bool.false_eq_true, if_false, if_true, ne_eq, not_false_eq_true]

theorem waitWord_reached {key : Nat} {l : Launch} (hv : leVal b / 2 ^ 56 = 0) (hc : r.waitv.toNat ≤ leVal b % 2 ^ 48)
    (hk : ((s.tenant t).queue die prio).launch = some key) (hl : kget s.launches key = some l) :
    execWaitWordRead t die prio s = .next (s.opens t die prio key l) := by
  unfold execWaitWordRead
  simp only [hs, hr, hh, hw, hb, hv, hc, hk, hl, Bool.not_true, Bool.false_eq_true, if_false, if_true, ne_eq,
    not_true_eq_false, Option.bind_some]

theorem waitWord_below (hv : leVal b / 2 ^ 56 = 0) (hc : leVal b % 2 ^ 48 < r.waitv.toNat) :
    execWaitWordRead t die prio s = .next s := by
  unfold execWaitWordRead
  simp only [hs, hr, hh, hw, hb, hv, Nat.not_le.mpr hc, Bool.not_true, Bool.false_eq_true, if_false, if_true, ne_eq,
    not_true_eq_false]

end Waiting
end Check

/-! ## The three claims -/

/-- The shares of the ranks follow each other and cover the gangs (R56). -/
theorem shareOf_covers (gangs p die : Nat) (mask : BitVec 40) (hp : 0 < p) :
    (shareOf gangs p 0 die mask).first = 0 ∧ (shareOf gangs p p die mask).first = gangs ∧
    ∀ r, r < p → (shareOf gangs p (r + 1) die mask).first =
      (shareOf gangs p r die mask).first + (shareOf gangs p r die mask).count := by
  have below : gangs % p < p := Nat.mod_lt _ hp
  have whole : p * (gangs / p) + gangs % p = gangs := Nat.div_add_mod ..
  refine ⟨?_, ?_, fun r hr => ?_⟩
  · show 0 * (gangs / p) + min 0 (gangs % p) = 0
    rw [Nat.zero_mul, Nat.zero_min]
  · show p * (gangs / p) + min p (gangs % p) = gangs
    rw [Nat.min_eq_right (Nat.le_of_lt below), whole]
  · show (r + 1) * (gangs / p) + min (r + 1) (gangs % p) =
      r * (gangs / p) + min r (gangs % p) + if r < gangs % p then gangs / p + 1 else gangs / p
    rw [Nat.add_mul, Nat.one_mul]
    by_cases h : r < gangs % p
    · rw [if_pos h]; omega
    · rw [if_neg h]; omega

theorem launchesAreChecked : Claim.LaunchesAreChecked := by
  unfold Claim.LaunchesAreChecked
  extract_lets emptyCounts
  refine ⟨?_, shareOf_covers, ?_⟩
  · intro s t die prio r rs hs hd hp hr hh waits refused unread
    have refused_of (h : execLaunchCheck t die prio s = .next (s.refuse t die prio r none)) : refused :=
      ⟨_, h, refuse_refused ..⟩
    have unread_of {lost : Bool} {a : DWord} {f : Bool}
        (h : execLaunchCheck t die prio s = .next ((s.readLost t lost).refuse t die prio r (some (a, f)))) :
        unread lost a f := by
      obtain ⟨z, hz⟩ := refuse_unread s t die prio r lost none a f
      exact ⟨_, z, h, hz⟩
    refine ⟨fun he => refused_of (launchCheck_misaligned hs hr hd hp hh he), fun he =>
      ⟨launchCheck_headerHeld hs hr hd hp hh he, fun lost hb => unread_of (launchCheck_headerBad hs hr hd hp hh he hb),
        fun b hb => ⟨fun hw => refused_of (launchCheck_noHeader hs hr hd hp hh he hb hw), fun h hw => ?_⟩⟩⟩
    have check := launchCheck_header hs hr hd hp hh he hb hw
    refine ⟨fun hn => ?_, fun h1 h2 h3 h4 h5 => ?_⟩
    · rw [if_pos (by simpa only [Bool.not_eq_true', gt_iff_lt] using hn)] at check
      exact refused_of check
    · rw [if_neg (by
        rintro (h | h | h | h | h)
        · omega
        · omega
        · exact h3 h
        · exact h4 h
        · rw [h5] at h; cases h)] at check
      refine ⟨fun hb => ?_, fun lost hb => ?_, fun hb => ?_, fun shares hb => ?_⟩
      · rw [hb] at check; exact check
      · rw [hb] at check; exact unread_of check
      · rw [hb] at check; exact refused_of check
      · rw [hb] at check
        exact ⟨_, check, accept_spec h shares hr⟩
  · intro s t die prio r rs hs hr hh key l hk hl hrec
    refine ⟨waitWord_held hs hr hh, fun lost hb => ?_, fun hw b hb => ⟨fun hv => ?_, fun hv hc => ?_, fun hv hc =>
      waitWord_below hs hr hh hw hb hv hc⟩⟩
    · obtain ⟨z, hz⟩ := refuse_unread s t die prio r lost ((s.tenant t).queue die prio).launch r.waita false
      rcases hb with ⟨hw, rfl⟩ | ⟨hw, hb⟩
      · exact ⟨_, z, waitWord_misaligned hs hr hh hw, hz⟩
      · exact ⟨_, z, waitWord_bad hs hr hh hw hb, hz⟩
    · refine ⟨_, waitWord_status hs hr hh hw hb hv,
        headLeaves_before (headLeaves_complete ..) (sameQueues_dropLaunch ..), ?_⟩
      obtain ⟨cs, h, -⟩ := complete_only ((s.dropLaunch ((s.tenant t).queue die prio).launch).popHead t die prio) t die r
        (leVal b / 2 ^ 56)
      rw [h, hk]
      exact (kget_kdel ..).trans (if_pos rfl)
    · obtain ⟨ob, oa, oc, ok, osome, onone⟩ := opens_spec s t die prio key l
      rw [hrec] at oc
      refine ⟨_, waitWord_reached hs hr hh hw hb hv hc hk hl, ob, oa, oc, ok, osome, fun hz => ?_⟩
      obtain ⟨hq, hl⟩ := onone hz
      exact ⟨by rw [hq, hr]; rfl, by rw [hl, kget_kdel, if_pos rfl]⟩

/-- Settles O40: appends by the window's cases, and the head of a queue by the branches of its check. -/
theorem launchRecordsAndTheirChecks : Obligations.LaunchRecordsAndTheirChecks :=
  ⟨launchRecordsAreAppended, launchesAreChecked⟩

end Sys2Proof.Machine
end

section
/-! PROOF. Admission of gangs: whose turn it is, what a core is asked, and what a commit leaves (O41). -/

namespace Sys2Proof.Machine

open Sys2Proof.Claim

/-! ## Turns (R50) -/

/-- In a list that rises in a measure, the first that passes is the least that passes. -/
theorem find?_eq_of_least {p : Nat → Bool} {φ : Nat → Nat} {l : List Nat} {t : Nat} (hl : l.Pairwise fun a b => φ a < φ b)
    (ht : t ∈ l) (hp : p t = true) (hmin : ∀ k ∈ l, p k = true → φ t ≤ φ k) : l.find? p = some t := by
  induction l with
  | nil => cases ht
  | cons a l ih =>
    obtain ⟨ha, hl⟩ := List.pairwise_cons.mp hl
    rcases List.mem_cons.mp ht with rfl | ht
    · rw [List.find?_cons_of_pos hp]
    · have skip : ¬ p a = true := fun h => absurd (hmin a (by simp) h) (Nat.not_le.mpr (ha t ht))
      rw [List.find?_cons_of_neg skip]
      exact ih hl ht fun k hk => hmin k (by simp [hk])

/-- The tenants after a turn, in the order of the round (R50). -/
theorem roundOrder (turn : Nat) (h : turn < 16) :
    ((List.range (16 - turn - 1)).map (fun i => turn + 1 + i) ++ List.range (turn + 1)).Pairwise
      (fun a b => (a + 15 - turn) % 16 < (b + 15 - turn) % 16) ∧
    ∀ k, k ∈ (List.range (16 - turn - 1)).map (fun i => turn + 1 + i) ++ List.range (turn + 1) ↔ k < 16 := by
  refine ⟨List.pairwise_append.mpr ⟨?_, ?_, ?_⟩, fun k => ?_⟩
  · rw [List.pairwise_map]
    refine List.pairwise_lt_range.imp_of_mem fun {a b} ha hb hab => ?_
    rw [List.mem_range] at ha hb
    omega
  · refine List.pairwise_lt_range.imp_of_mem fun {a b} ha hb hab => ?_
    rw [List.mem_range] at ha hb
    omega
  · intro a ha b hb
    obtain ⟨i, hi, rfl⟩ := List.mem_map.mp ha
    rw [List.mem_range] at hi hb
    omega
  · rw [List.mem_append, List.mem_map, List.mem_range]
    constructor
    · rintro (⟨i, hi, rfl⟩ | hk)
      · rw [List.mem_range] at hi; omega
      · omega
    · intro hk
      by_cases h' : k < turn + 1
      · exact .inr h'
      · exact .inl ⟨k - (turn + 1), by rw [List.mem_range]; omega, by omega⟩

/-- Whose turn it is: the tenant that has it, while that is not used up, else the next in the round (R50). -/
theorem turn_found {p : Nat → Bool} {turn t : Nat} {unused : Prop} [Decidable unused] (hturn : turn < 16) (ht : t < 16)
    (hp : p t = true) (hnow : unused ∧ p turn = true → t = turn)
    (hnext : ¬ (unused ∧ p turn = true) → ∀ k, k < 16 → p k = true → (t + 15 - turn) % 16 ≤ (k + 15 - turn) % 16) :
    ((if unused then [turn] else []) ++ (List.range (16 - turn - 1)).map (fun i => turn + 1 + i) ++
      List.range (turn + 1)).find? p = some t := by
  obtain ⟨rises, all⟩ := roundOrder turn hturn
  rw [List.append_assoc, List.find?_append]
  by_cases h : unused ∧ p turn = true
  · rw [if_pos h.1, hnow h, List.find?_cons_of_pos h.2]; rfl
  · have none_now : (if unused then [turn] else []).find? p = none := by
      by_cases hu : unused
      · rw [if_pos hu, List.find?_cons_of_neg fun hp => h ⟨hu, hp⟩]; rfl
      · rw [if_neg hu]; rfl
    rw [none_now, Option.none_or]
    exact find?_eq_of_least rises ((all t).mpr ht) hp fun k hk => hnext h k ((all k).mp hk)

/-- What a unit keeps of the gang that it has taken, however its cores answer. -/
theorem reserve_spec (s : State) (die : Nat) (u : Admission) :
    (s.reserve die u).tenant = u.tenant ∧ (s.reserve die u).launch = u.launch ∧ (s.reserve die u).rank = u.rank ∧
    (s.reserve die u).index = u.index ∧ (s.reserve die u).restore = u.restore ∧ (s.reserve die u).k = u.k ∧
    (s.reserve die u).retryAt = none := by
  unfold State.reserve
  dsimp only
  split <;> exact ⟨rfl, rfl, rfl, rfl, rfl, rfl, rfl⟩

theorem gangIsTaken (s : State) (die unit t : Nat) (g : Admission)
    (hu : (List.range 4).find? (fun u => (kget (s.die die).units u).isNone) = some unit) (hturn : (s.die die).turn < 16)
    (ht : t < 16) (hm : s.mayTake die t = true) (hg : s.nextGang die t = some g)
    (hnow : (s.die die).taken < (s.tenant (s.die die).turn).weight ∧ s.mayTake die (s.die die).turn = true →
      t = (s.die die).turn)
    (hnext : ¬ ((s.die die).taken < (s.tenant (s.die die).turn).weight ∧ s.mayTake die (s.die die).turn = true) →
      ∀ k, k < 16 → s.mayTake die k = true → (t + 15 - (s.die die).turn) % 16 ≤ (k + 15 - (s.die die).turn) % 16) :
    ∃ s1 : State, s1 = { s with launches := s1.launches } ∧
      s1.launches = (if g.restore = none then kmod s.launches g.launch (Launch.take g.rank) else s.launches) ∧
      execAdmissionTake die s = .next (s1.modDie die fun d =>
        { d with
          units := kput d.units unit (s1.reserve die g), turn := t
          taken := if t = (s.die die).turn ∧ (s.die die).taken < (s.tenant t).weight then d.taken + 1 else 1 }) := by
  have again : (t == (s.die die).turn && decide ((s.die die).taken < (s.tenant (s.die die).turn).weight)) =
      decide (t = (s.die die).turn ∧ (s.die die).taken < (s.tenant t).weight) := by
    by_cases h : t = (s.die die).turn
    · rw [h]; simp
    · simp [h]
  unfold execAdmissionTake
  simp only [hu, turn_found hturn ht hm hnow hnext, hg, again, decide_eq_true_eq]
  refine ⟨_, ?_, ?_, rfl⟩
  · cases g.restore <;> rfl
  · cases g.restore <;> rfl

/-! ## The partition that is chosen (R51) -/

/-- The better of two partitions, the earlier where they are equal. -/
def bestStep (f : Nat → Nat) (m : Option Nat) (p : Nat) : Option Nat :=
  match m with
  | none => some p
  | some q => if f p > f q then some p else m

theorem foldl_bestStep (f : Nat → Nat) (l : List Nat) (q : Nat) (h : (q :: l).Pairwise (· < ·)) :
    ∃ b, l.foldl (bestStep f) (some q) = some b ∧ b ∈ q :: l ∧ ∀ x ∈ q :: l, f x ≤ f b ∧ (f x = f b → b ≤ x) := by
  induction l generalizing q with
  | nil => exact ⟨q, rfl, by simp, fun x hx => by rw [List.mem_singleton.mp hx]; exact ⟨le_rfl, fun _ => le_rfl⟩⟩
  | cons p l ih =>
    obtain ⟨hq, hl⟩ := List.pairwise_cons.mp h
    obtain ⟨hp, hl'⟩ := List.pairwise_cons.mp hl
    rw [List.foldl_cons]
    by_cases hf : f p > f q
    · rw [show bestStep f (some q) p = some p from if_pos hf]
      obtain ⟨b, hb, hm, hall⟩ := ih p hl
      refine ⟨b, hb, List.mem_cons_of_mem _ hm, fun x hx => ?_⟩
      rcases List.mem_cons.mp hx with rfl | hx
      · have := (hall p (by simp)).1
        exact ⟨by omega, by omega⟩
      · exact hall x hx
    · rw [show bestStep f (some q) p = some q from if_neg hf]
      obtain ⟨b, hb, hm, hall⟩ := ih q (List.pairwise_cons.mpr ⟨fun x hx => hq x (by simp [hx]), hl'⟩)
      obtain ⟨hqb, hbq⟩ := hall q (by simp)
      refine ⟨b, hb, ?_, fun x hx => ?_⟩
      · rcases List.mem_cons.mp hm with rfl | hm
        · simp
        · simp [hm]
      · rcases List.mem_cons.mp hx with rfl | hx
        · exact hall _ (by simp)
        · rcases List.mem_cons.mp hx with rfl | hx
          · have := hq x (by simp)
            exact ⟨by omega, fun he => by have := hbq (by omega); omega⟩
          · exact hall x (by simp [hx])

/-- The partition chosen has a free slot and most free registers, the lowest of these, and there its first slot (R51). -/
theorem choosePart_spec (s : State) (core : Nat) (p : Place) (h : s.choosePart core [] = some p) :
    p.core = core ∧ p.part < 8 ∧ (s.freeSlots core p.part).head? = some p.slot ∧
    ∀ q, q < 8 → s.freeSlots core q ≠ [] → s.freeRegs core q ≤ s.freeRegs core p.part ∧
      (s.freeRegs core q = s.freeRegs core p.part → p.part ≤ q) := by
  have slots (q : Nat) : (s.freeSlots core q).filter (fun i => !(([] : List (Place × Nat)).any fun e =>
      e.1.core == core && e.1.part == q && e.1.slot == i)) = s.freeSlots core q := List.filter_eq_self.mpr fun _ _ => rfl
  have choose : s.choosePart core [] =
      (((List.range 8).filter fun q => !(s.freeSlots core q).isEmpty).foldl (bestStep fun q => s.freeRegs core q) none).map
        fun q => ⟨core, q, (s.freeSlots core q).headD 0⟩ := by
    unfold State.choosePart
    simp only [slots]
    rfl
  rw [choose, Option.map_eq_some_iff] at h
  obtain ⟨b, hb, rfl⟩ := h
  have sorted : ((List.range 8).filter fun q => !(s.freeSlots core q).isEmpty).Pairwise (· < ·) :=
    List.pairwise_lt_range.filter _
  have mem (q : Nat) : q ∈ (List.range 8).filter (fun q => !(s.freeSlots core q).isEmpty) ↔
      q < 8 ∧ s.freeSlots core q ≠ [] := by
    rw [List.mem_filter, List.mem_range, Bool.not_eq_true', List.isEmpty_eq_false_iff]
  generalize (List.range 8).filter (fun q => !(s.freeSlots core q).isEmpty) = l at hb sorted mem
  cases l with
  | nil => cases hb
  | cons q l =>
    obtain ⟨b', hb', hm, hall⟩ := foldl_bestStep (fun q => s.freeRegs core q) l q sorted
    rw [List.foldl_cons, show bestStep (fun q => s.freeRegs core q) none q = some q from rfl, hb'] at hb
    obtain rfl := Option.some.inj hb
    obtain ⟨h8, hne⟩ := (mem b').mp hm
    refine ⟨rfl, h8, ?_, fun x hx hn => hall x ((mem x).mpr ⟨hx, hn⟩)⟩
    obtain ⟨i, t, hi⟩ := List.exists_cons_of_ne_nil hne
    show (s.freeSlots core b').head? = some ((s.freeSlots core b').headD 0)
    rw [hi]; rfl

/-- The turn of a tenant without a gang to be taken is used up, whatever its weight (R50). -/
theorem endTurn_usedUp (s : State) (die : Nat) (h0 : (s.die die).taken ≠ 0) (hm : s.mayTake die (s.die die).turn = false) :
    ((s.endTurn die).die die).turn = (s.die die).turn ∧ ∀ t, (s.tenant t).weight ≤ ((s.endTurn die).die die).taken := by
  have weight (t : Nat) : (s.tenant t).weight ≤ 255 := by
    unfold Tenant.weight
    have : ((s.tenant t).reg 0x58).toNat % 256 < 256 := Nat.mod_lt _ (by decide)
    omega
  by_cases h : (s.die die).taken = 255
  · have stays : s.endTurn die = s := by
      unfold State.endTurn
      rw [if_pos (by rw [h]; rfl)]
    rw [stays]
    exact ⟨rfl, fun t => (weight t).trans_eq h.symm⟩
  · have usedUp : s.endTurn die = s.modDie die fun d => { d with taken := 255 } := by
      unfold State.endTurn
      rw [hm, beq_false_of_ne h0, beq_false_of_ne h]
      rfl
    rw [usedUp, State.die_modDie, if_pos rfl]
    exact ⟨rfl, weight⟩

theorem gangsAreTaken : Claim.GangsAreTaken := by
  refine ⟨?_, endTurn_usedUp, choosePart_spec⟩
  intro s die unit t g hu hturn ht hm hg now far hnow hnext
  obtain ⟨s1, hs1, hl, he⟩ := gangIsTaken s die unit t g hu hturn ht hm hg hnow hnext
  obtain ⟨h1, h2, h3, h4, h5, h6, -⟩ := reserve_spec s1 die g
  have dies (d : Nat) : s1.die d = s.die d := by rw [hs1]; rfl
  refine ⟨_, s1.reserve die g, he, fun a => ?_, ?_, ?_, ?_, ?_, ?_, h1, h2, h3, h4, h5, h6, fun k hk => ?_, fun d hd => ?_, hl⟩
  · show s1.byte a = s.byte a
    rw [hs1]; rfl
  · show s1.agents = s.agents
    rw [hs1]
  · show s1.gangs = s.gangs
    rw [hs1]
  · rw [State.die_modDie, if_pos rfl]
  · rw [State.die_modDie, if_pos rfl, dies]
  · rw [State.die_modDie, if_pos rfl]; exact kget_kput_same ..
  · rw [State.die_modDie, if_pos rfl, ← dies die]; exact kget_kput_other _ _ (Ne.symm hk)
  · rw [State.die_modDie, if_neg (Ne.symm hd), dies]

/-! ## Answers of cores (R52, R53) -/

/-- The change of one unit of a die leaves everything else of the dies. -/
theorem modDie_unit (s : State) (die unit : Nat) (x : Admission) (f : Die → Die) (hf : ∀ d, (f d).units = kput d.units unit x) :
    kget ((s.modDie die f).die die).units unit = some x ∧
    (∀ k, k ≠ unit → kget ((s.modDie die f).die die).units k = kget (s.die die).units k) ∧
    ∀ d, d ≠ die → (s.modDie die f).die d = s.die d := by
  refine ⟨?_, fun k hk => ?_, fun d hd => ?_⟩
  · rw [State.die_modDie, if_pos rfl, hf, kget_kput_same]
  · rw [State.die_modDie, if_pos rfl, hf, kget_kput_other _ _ (Ne.symm hk)]
  · rw [State.die_modDie, if_neg (Ne.symm hd)]

section Reply
variable {s : State} {die unit pos : Nat} {rest : List Nat} {a : Admission} (hu : kget (s.die die).units unit = some a)
  (hr : a.replies = pos :: rest)
include hu hr

theorem reply_refuses (hg : s.coreGrants a pos = false) :
    execReservationReply die unit s = .next (if s.drawWaits die unit then s else s.backOff die unit a) := by
  unfold execReservationReply
  simp only [hu, hr, hg, Bool.not_false, if_true]

theorem reply_grants (hg : s.coreGrants a pos = true) (h : rest ≠ [] ∨ a.restore ≠ none) :
    execReservationReply die unit s =
      .next (s.modDie die fun d => { d with units := kput d.units unit { a with replies := rest } }) := by
  have more : (rest.isEmpty && a.restore.isNone) = false := by
    rcases h with h | h
    · rw [List.isEmpty_eq_false_iff.mpr h, Bool.false_and]
    · obtain ⟨g, hg⟩ := Option.ne_none_iff_exists'.mp h
      rw [hg, Option.isNone_some, Bool.and_false]
  unfold execReservationReply
  simp only [hu, hr, hg, more, Bool.not_true, Bool.false_eq_true, if_false]

theorem reply_commits (hg : s.coreGrants a pos = true) (h1 : rest = []) (h2 : a.restore = none) :
    execReservationReply die unit s = .next (s.commit die unit { a with replies := rest }) := by
  unfold execReservationReply
  simp only [hu, hr, hg, h1, h2, Bool.not_true, Bool.false_eq_true, if_false, List.isEmpty_nil, Option.isNone_none,
    Bool.and_self, if_true]

end Reply

/-- A unit before this one may still refuse in this clock. -/
theorem drawWaits_of_lower {s : State} {die unit n : Nat} {v : Admission} (h : (n, v) ∈ (s.die die).units) (hn : n < unit)
    (hv : v.replies ≠ []) : s.drawWaits die unit = true := by
  unfold State.drawWaits
  refine List.any_eq_true.mpr ⟨(n, v), h, ?_⟩
  rw [decide_eq_true hn, List.isEmpty_eq_false_iff.mpr hv]
  rfl

theorem drawWaits_eq_false {s : State} {die unit : Nat}
    (h : ∀ n v, (n, v) ∈ (s.die die).units →
      (n < unit → v.replies = [] ∧ ∀ t, v.retryAt = some t → s.time < t) ∧ (unit < n → v.refusedAt ≠ some s.time)) :
    s.drawWaits die unit = false := by
  unfold State.drawWaits
  refine List.any_eq_false.mpr fun e he => ?_
  obtain ⟨lower, higher⟩ := h e.1 e.2 he
  rw [Bool.or_eq_true, Bool.and_eq_true, Bool.and_eq_true, Bool.or_eq_true, decide_eq_true_eq, decide_eq_true_eq, beq_iff_eq]
  rintro (⟨hn, hr | ht⟩ | ⟨hn, hr⟩)
  · rw [(lower hn).1] at hr; cases hr
  · cases hx : e.2.retryAt with
    | none => rw [hx] at ht; cases ht
    | some t =>
      have := (lower hn).2 t hx
      rw [hx] at ht
      exact absurd (of_decide_eq_true ht) (Nat.not_le.mpr this)
  · exact higher hn hr

/-! ## Commit (R29, R52, R54) -/

theorem invalL1_foldl (cs : List Nat) (s : State) :
    (∃ cores, cs.foldl (fun r c => r.invalL1 c) s = { s with cores := cores }) ∧
    (∀ c, (s.core c).l1 = [] → ((cs.foldl (fun r c => r.invalL1 c) s).core c).l1 = []) ∧
    ∀ c ∈ cs, ((cs.foldl (fun r c => r.invalL1 c) s).core c).l1 = [] := by
  induction cs generalizing s with
  | nil => exact ⟨⟨_, rfl⟩, fun _ h => h, fun c hc => by cases hc⟩
  | cons a cs ih =>
    obtain ⟨⟨cores, h1⟩, h2, h3⟩ := ih (s.invalL1 a)
    have here (c : Nat) (h : a = c ∨ (s.core c).l1 = []) : ((s.invalL1 a).core c).l1 = [] := by
      unfold State.invalL1
      rw [State.core_modCore]
      by_cases hc : a = c
      · rw [if_pos hc]
      · rw [if_neg hc]; exact h.resolve_left hc
    refine ⟨⟨cores, h1⟩, fun c hc => h2 c (here c (.inr hc)), fun c hc => ?_⟩
    rcases List.mem_cons.mp hc with rfl | hc
    · exact h2 c (here c (.inl rfl))
    · exact h3 c hc

theorem startWarps_only (l : Launch) (r : RankShare) (index gang : Nat) (grace : Word) (ps : List (Place × Nat)) (s : State) :
    ∃ as n, startWarps l r index gang grace ps s = { s with agents := as, nextKey := n } := by
  induction ps generalizing s with
  | nil => exact ⟨_, _, rfl⟩
  | cons e ps ih =>
    obtain ⟨p, i⟩ := e
    exact ih _

theorem startWarps_old (l : Launch) (r : RankShare) (index gang : Nat) (grace : Word) (ps : List (Place × Nat)) {s : State}
    {k : Nat} (hk : k < s.nextKey) : (startWarps l r index gang grace ps s).agent? k = s.agent? k := by
  induction ps generalizing s with
  | nil => rfl
  | cons e ps ih =>
    obtain ⟨p, i⟩ := e
    rw [startWarps, ih (Nat.lt_succ_of_lt hk)]
    exact kget_kput_other _ _ (Nat.ne_of_gt hk)

/-- The warps of a new gang have keys that follow each other, in the order of their places. -/
theorem startWarps_new (l : Launch) (r : RankShare) (index gang : Nat) (grace : Word) (ps : List (Place × Nat)) (s : State)
    {i w : Nat} {p : Place} (h : ps[i]? = some (p, w)) :
    ∃ active, (startWarps l r index gang grace ps s).agent? (s.nextKey + i) =
      some (startWarp l r index gang (s.nextKey + i) w s.time p active grace) := by
  induction ps generalizing s i with
  | nil => cases h
  | cons e ps ih =>
    obtain ⟨q, v⟩ := e
    cases i with
    | zero =>
      cases h
      rw [startWarps, Nat.add_zero, startWarps_old _ _ _ _ _ _ (Nat.lt_succ_self _)]
      exact ⟨_, kget_kput_same ..⟩
    | succ i =>
      have key : s.nextKey + (i + 1) = (s.nextKey + 1) + i := by omega
      rw [startWarps, key]
      exact ih _ h

theorem committed_only (s : State) (k : Nat) :
    ∃ ls ts, s.committed k = { s with launches := ls, tenants := ts } := by
  unfold State.committed
  split
  · exact ⟨_, _, rfl⟩
  · dsimp only
    split
    · exact ⟨_, _, rfl⟩
    · exact ⟨_, _, rfl⟩

/-! ## What a warp starts with (R29) -/

theorem append_words_ofNat (v : Nat) : (BitVec.ofNat 32 (v / 4294967296)) ++ (BitVec.ofNat 32 v) = BitVec.ofNat 64 v := by
  apply BitVec.eq_of_toNat_eq
  rw [BitVec.toNat_append, BitVec.toNat_ofNat, BitVec.toNat_ofNat, BitVec.toNat_ofNat,
    ← Nat.shiftLeft_add_eq_or_of_lt (Nat.mod_lt _ (by decide)), Nat.shiftLeft_eq]
  omega

theorem sreg_startRegs (l : Launch) (r : RankShare) (index k : Nat) :
    (startRegs l r index).sreg k = BitVec.ofNat 32 (
      if k = 0 then l.record.param.toNat else if k = 1 then l.record.param.toNat / 4294967296
      else if k = 2 then r.rank else if k = 3 then r.ranks
      else if k = 4 then index else if k = 5 then index / 4294967296
      else if k = 6 then l.record.gangs else if k = 7 then l.record.gangs / 4294967296 else 0) := by
  unfold startRegs Regs.sreg
  dsimp only
  simp only [kgetD_ksetD, Nat.reduceAdd]
  by_cases h : k < 8
  · interval_cases k <;> rfl
  · have differ (j : Nat) (hj : j < 8) : ¬ j = k ∧ ¬ k = j := ⟨by omega, by omega⟩
    simp only [differ, Nat.reduceLT, if_false]
    rfl

/-- What a warp of a new gang is at its start (R29, R33). -/
theorem startWarp_spec (l : Launch) (r : RankShare) (index gang key widx now : Nat) (p : Place) (active : Bool) (grace : Word) :
    ∃ x, x = startWarp l r index gang key widx now p active grace ∧ x.place = some p ∧
      x.ident.gang = gang ∧ x.ident.widx = widx ∧ x.ident.tenant = l.tenant ∧ x.ident.born = now ∧ x.task = false ∧
      (∀ j, j < 32 → x.ctl.pc j = l.record.entry) ∧ x.ctl.ended = 0#32 ∧ x.ctl.parked = 0#32 ∧
      x.regs.alloc = l.header.budget * 32 ∧ x.regs.spair 0 = l.record.param ∧
      x.regs.sreg 2 = BitVec.ofNat 32 r.rank ∧ x.regs.sreg 3 = BitVec.ofNat 32 r.ranks ∧
      x.regs.spair 4 = BitVec.ofNat 64 index ∧ x.regs.spair 6 = BitVec.ofNat 64 l.record.gangs ∧
      (∀ k, 8 ≤ k → x.regs.sreg k = 0#32) ∧ x.regs.v = [] ∧ x.regs.p = [] ∧ x.sys.fpmode = 0#32 ∧
      x.sys.fpflags = 0#32 ∧ x.sys.thandler = 0#64 ∧ x.sys.tcmp = 0xFFFFFFFFFFFFFFFF#64 ∧ x.eng.grace = grace := by
  have pair (n v : Nat) (hlo : (startRegs l r index).sreg n = BitVec.ofNat 32 v)
      (hhi : (startRegs l r index).sreg (n + 1) = BitVec.ofNat 32 (v / 4294967296)) :
      (startRegs l r index).spair n = BitVec.ofNat 64 v := by
    unfold Regs.spair
    rw [hlo, hhi, append_words_ofNat]
  refine ⟨_, rfl, rfl, rfl, rfl, rfl, rfl, rfl, fun j hj => ?_, ?_, rfl, rfl, ?_, ?_, ?_, ?_, ?_, fun k hk => ?_, rfl, rfl, rfl,
    rfl, rfl, rfl, rfl⟩
  · refine (kgetD_setPcs ..).trans (if_pos ((mem_lanesOf ..).mpr ?_))
    interval_cases j <;> decide
  · show ~~~0xFFFFFFFF#32 = 0#32
    decide
  · refine (pair 0 l.record.param.toNat (sreg_startRegs ..) (sreg_startRegs ..)).trans ?_
    rw [BitVec.ofNat_toNat, BitVec.setWidth_eq]
  · exact sreg_startRegs ..
  · exact sreg_startRegs ..
  · exact pair 4 index (sreg_startRegs ..) (sreg_startRegs ..)
  · exact pair 6 l.record.gangs (sreg_startRegs ..) (sreg_startRegs ..)
  · refine (sreg_startRegs ..).trans ?_
    have differ (j : Nat) (hj : j < 8) : ¬ k = j := by omega
    simp only [differ, Nat.reduceLT, if_false]

/-- What a commit leaves: the gang with nothing in it, the unit free, and the warps in their places (R52, R54, R136). -/
theorem commit_spec {s : State} {die unit : Nat} {a : Admission} {l : Launch} {r : RankShare}
    (hl : kget s.launches a.launch = some l) (hr : l.shares.find? (fun r => r.rank == a.rank) = some r) :
    SameBytes s (s.commit die unit a) ∧ kget ((s.commit die unit a).die die).units unit = none ∧
    (s.commit die unit a).gang? s.nextKey = some (newGang l a die) ∧
    (∀ k, k ≤ s.nextKey → (s.commit die unit a).agent? k = s.agent? k) ∧
    (∀ c ∈ a.cores, ((s.commit die unit a).core c).l1 = []) ∧
    ∀ i p, a.places[i]? = some p → ∃ active, (s.commit die unit a).agent? (s.nextKey + 1 + i) =
      some (startWarp l r a.index s.nextKey (s.nextKey + 1 + i) i s.time p active (s.tenant l.tenant).issued) := by
  have commit_eq : ∃ s1 s2 s3, s.commit die unit a = s3.committed a.launch ∧
      s3 = a.cores.foldl (fun r c => r.invalL1 c) s2 ∧
      s2 = startWarps l r a.index s.nextKey (s.tenant l.tenant).issued a.places.zipIdx s1 ∧
      s1 = { (s.modDie die fun d => { d with units := kdel d.units unit }).setGang s.nextKey (newGang l a die) with
        nextKey := s.nextKey + 1 } := by
    unfold State.commit
    dsimp only
    rw [hl]
    dsimp only
    rw [hr]
    exact ⟨_, _, _, rfl, rfl, rfl, rfl⟩
  obtain ⟨s1, s2, s3, h, h3, h2, h1⟩ := commit_eq
  obtain ⟨ls, ts, hc⟩ := committed_only s3 a.launch
  obtain ⟨⟨cores, hcores⟩, -, hl1⟩ := invalL1_foldl a.cores s2
  obtain ⟨as, n, hs2⟩ := startWarps_only l r a.index s.nextKey (s.tenant l.tenant).issued a.places.zipIdx s1
  rw [← h2] at hs2
  rw [← h3] at hcores hl1
  have agents (k : Nat) : (s.commit die unit a).agent? k = s2.agent? k := by rw [h, hc, hcores]; rfl
  refine ⟨fun b => ?_, ?_, ?_, fun k hk => ?_, fun c hm => ?_, fun i p hp => ?_⟩
  · rw [h, hc, hcores, hs2, h1]; rfl
  · have dies : (s.commit die unit a).die die = (s.modDie die fun d => { d with units := kdel d.units unit }).die die := by
      rw [h, hc, hcores, hs2, h1]; rfl
    rw [dies, State.die_modDie, if_pos rfl]
    exact (kget_kdel ..).trans (if_pos rfl)
  · have gangs : (s.commit die unit a).gang? s.nextKey = s1.gang? s.nextKey := by rw [h, hc, hcores, hs2]; rfl
    rw [gangs, h1]
    exact kget_kput_same ..
  · rw [agents, h2, startWarps_old _ _ _ _ _ _ (by rw [h1]; exact Nat.lt_succ_of_le hk), h1]
    rfl
  · have core : (s.commit die unit a).core c = s3.core c := by rw [h, hc]; rfl
    rw [core]
    exact hl1 c hm
  · have place : a.places.zipIdx[i]? = some (p, i) := by
      rw [List.getElem?_zipIdx, hp, Nat.zero_add]; rfl
    obtain ⟨active, hx⟩ := startWarps_new l r a.index s.nextKey (s.tenant l.tenant).issued a.places.zipIdx s1 place
    refine ⟨active, ?_⟩
    rw [agents, h2]
    rw [h1] at hx ⊢
    exact hx

/-- A unit whose gang was refused, with the end of its wait (R53). -/
def Admission.backedOff (a : Admission) (now jitter : Nat) : Admission :=
  { a with places := [], allots := [], replies := [], refused := false, k := a.k + 1, refusedAt := some now
           retryAt := some (now + 16 * 2 ^ min a.k 6 + jitter) }

theorem coresGrantOrRefuse : Claim.CoresGrantOrRefuse := by
  refine ⟨fun s die unit pos rest a hu hr => ⟨fun hg hlow => ?_, ?_, fun hg h => ?_, fun hg h1 h2 l r hl hf => ?_⟩,
    fun s die unit t a hu ht hle => ?_⟩
  · obtain ⟨n, v, hm, hn, hv⟩ := hlow
    refine (reply_refuses hu hr hg).trans ?_
    rw [drawWaits_of_lower hm hn hv, if_pos rfl]
  · intro hg hnone y
    have back := reply_refuses hu hr hg
    rw [drawWaits_eq_false hnone, if_neg Bool.false_ne_true] at back
    have jitter : (y &&& 0xF#16).toNat = y.toNat % 16 := by
      rw [BitVec.toNat_and]
      exact Nat.and_two_pow_sub_one_eq_mod _ 4
    obtain ⟨hx, hk, hd⟩ := modDie_unit s die unit (a.backedOff s.time (y.toNat % 16))
      (fun d => { d with lfsr := y, units := kput d.units unit (a.backedOff s.time (y.toNat % 16)) }) fun _ => rfl
    refine ⟨_, back.trans ?_, rfl, ?_, hx, hk, hd⟩
    · rw [← jitter]; rfl
    · rw [State.die_modDie, if_pos rfl]
  · obtain ⟨hx, hk, hd⟩ := modDie_unit s die unit { a with replies := rest }
      (fun d => { d with units := kput d.units unit { a with replies := rest } }) fun _ => rfl
    refine ⟨_, reply_grants hu hr hg h, rfl, ?_, hx, hk, hd⟩
    rw [State.die_modDie, if_pos rfl]
  · obtain ⟨hb, hunit, hgang, hold, hl1, hnew⟩ :=
      commit_spec (s := s) (die := die) (unit := unit) (a := { a with replies := rest }) hl hf
    refine ⟨_, _, reply_commits hu hr hg h1 h2, hb, hunit, hgang, rfl, rfl, rfl, rfl, rfl, rfl, rfl, rfl, rfl, rfl, rfl, rfl, rfl,
      rfl, hold, hl1, fun i p hp => ?_⟩
    obtain ⟨active, hx⟩ := hnew i p hp
    obtain ⟨x, he, hspec⟩ := startWarp_spec l r a.index s.nextKey (s.nextKey + 1 + i) i s.time p active (s.tenant l.tenant).issued
    exact ⟨x, by rw [hx, he], hspec⟩
  · obtain ⟨h1, h2, h3, h4, h5, h6, h7⟩ := reserve_spec s die a
    obtain ⟨hx, hk, hd⟩ := modDie_unit s die unit (s.reserve die a)
      (fun d => { d with units := kput d.units unit (s.reserve die a) }) fun _ => rfl
    refine ⟨_, _, ?_, rfl, hx, h7, h6, h1, h2, h3, h4, h5, hk, hd⟩
    show execBackoffExpiry die unit s = _
    unfold execBackoffExpiry
    simp only [hu, ht, Nat.not_lt.mpr hle, if_false]

/-- Settles O41: the turn by the order of the round, and each answer of a core by its case. -/
theorem gangsAreAdmitted : Obligations.GangsAreAdmitted := ⟨gangsAreTaken, coresGrantOrRefuse⟩

end Sys2Proof.Machine
end

section
/-! PROOF. Completion words, fault records and trace records (O42). -/

namespace Sys2Proof.Machine

open Sys2Proof.Claim

/-! ## Writes of the device's own units -/

/-- The cells that a write at these locations fills, in pieces of k bytes. -/
def pieceCells (k : Nat) (xs : List Xlat) (data : List Byte) : List (Nat × Byte) :=
  (xs.zipIdx).flatMap fun e => cellsAt e.1.key ((data.drop (e.2 * k)).take k)

theorem pieceCells_single (k : Nat) (x : Xlat) (data : List Byte) : pieceCells k [x] data = cellsAt x.key (data.take k) := by
  simp [pieceCells]

/-- A write of a unit of the device changes memory, marks, the home slices, and the park groups that it wakes. -/
theorem engineWriteAt_only (s : State) (o : Origin) (die k : Nat) (xs : List Xlat) (data : List Byte) :
    ∃ m l2 hbm sent f, s.engineWriteAt o die k xs data =
      { s with
        mem := (s.write (pieceCells k xs data)).mem, memMark := m, l2 := l2, hbm := hbm, sent := sent
        agents := kmap (Agent.mapParks f) s.agents } := by
  obtain ⟨l2, hbm, sent, h⟩ := SameButHomes.homeWrites ((s.write (pieceCells k xs data)).wakeLines
    (((pieceCells k xs data).map fun c => c.1 / 64).eraseDups)) o die xs (pieceCells k xs data)
  exact ⟨_, l2, hbm, sent, _, h⟩

theorem engineWriteAt_byte (s : State) (o : Origin) (die k : Nat) (xs : List Xlat) (data : List Byte) (a : Nat) :
    (s.engineWriteAt o die k xs data).byte a = (s.write (pieceCells k xs data)).byte a := by
  obtain ⟨_, _, _, _, _, h⟩ := engineWriteAt_only s o die k xs data
  rw [h]; rfl

theorem engineWriteAt_tenants (s : State) (o : Origin) (die k : Nat) (xs : List Xlat) (data : List Byte) :
    (s.engineWriteAt o die k xs data).tenants = s.tenants := by
  obtain ⟨_, _, _, _, _, h⟩ := engineWriteAt_only s o die k xs data
  rw [h]

theorem engineWriteAt_completions (s : State) (o : Origin) (die k : Nat) (xs : List Xlat) (data : List Byte) :
    (s.engineWriteAt o die k xs data).completions = s.completions := by
  obtain ⟨_, _, _, _, _, h⟩ := engineWriteAt_only s o die k xs data
  rw [h]

theorem write_byte_congr {s t : State} (h : t.mem = s.mem) (cells : List (Nat × Byte)) (a : Nat) :
    (t.write cells).byte a = (s.write cells).byte a := by
  rw [State.byte_write, State.byte_write, State.byte_congr h]

/-- A die's translation changes its TLB alone. -/
theorem translateDie_dies {s s1 : State} {d t : Nat} {va : DWord} {w : Want} {r : XRes}
    (h : s.translateDie d t va w = (s1, r)) : ∃ ds, s1 = { s with dies := ds } := by
  have only := State.translateDie_only s d t va w
  rw [h] at only
  exact only

/-! ## Completion words (R48) -/

section Completion
variable {s : State} {ix : Nat} {c : Completion} (hc : s.completions[ix]? = some c)
  (hst : c.count = true → c.launch ≠ 0 → s.launchStores c.launch = false)

include hst in
omit hc in
theorem storesDone : (c.count && c.launch != 0 && s.launchStores c.launch) = false := by
  cases hcount : c.count with
  | false => rfl
  | true =>
    by_cases h0 : c.launch = 0
    · rw [h0]; rfl
    · rw [hst hcount h0, Bool.and_false]

include hc hst

/-- A completion word that cannot be written, or is not aligned, is reported (R48, log 40). -/
theorem completion_fails
    (h : c.addr.toNat % 8 ≠ 0 ∨ ∃ s1 code, State.translateDie { s with completions := s.completions.eraseIdx ix } c.die c.tenant
      c.addr .write = (s1, .fault code)) :
    execCompletionWordWrite ix s =
      .next (State.dispReport { s with completions := s.completions.eraseIdx ix } c.tenant c.addr false true c.tag) := by
  unfold execCompletionWordWrite
  simp only [hc, storesDone hst, Bool.false_eq_true, if_false]
  by_cases ha : c.addr.toNat % 8 = 0
  · obtain ⟨s1, code, ht⟩ := h.resolve_left fun hn => hn ha
    simp only [ha, ht, ne_eq, not_true_eq_false, if_false]
  · rw [if_pos ha]

variable {s1 : State} {x : Xlat} (ha : c.addr.toNat % 8 = 0)
  (ht : State.translateDie { s with completions := s.completions.eraseIdx ix } c.die c.tenant c.addr .write = (s1, .ok x))
include ha ht

theorem completion_held (hh : s.reachHeld c.die .any x.key = true) : execCompletionWordWrite ix s = .next s := by
  unfold execCompletionWordWrite
  simp only [hc, storesDone hst, ha, ht, hh, Bool.false_eq_true, if_false, ne_eq, not_true_eq_false, if_true]

/-- The word is read and written at its home (R48). -/
theorem completion_written (hh : s.reachHeld c.die .any x.key = false) :
    execCompletionWordWrite ix s =
      .next (let s2 := s1.engineWriteAt ⟨1, 64, 0, false⟩ c.die 8 [x] (leBytes 8 (if c.count
          then s.le x.key 8 / 2 ^ 48 * 2 ^ 48 + (s.le x.key 8 + 1) % 2 ^ 48 else s.le x.key 8 ||| c.status * 2 ^ 56))
        if c.irq then s2.irq c.tenant 0 else s2) := by
  have word : s1.le x.key 8 = s.le x.key 8 := by
    obtain ⟨ds, h⟩ := translateDie_dies ht
    unfold State.le
    rw [State.bytes_congr (s := s) (by rw [h])]
  unfold execCompletionWordWrite
  simp only [hc, storesDone hst, ha, ht, hh, word, Bool.false_eq_true, if_false, ne_eq, not_true_eq_false]

end Completion

theorem completionsAreWritten : Claim.CompletionsAreWritten := by
  intro s ix c hc hst s0
  refine ⟨fun s1 x ha ht => ⟨completion_held hc hst ha ht, ?_⟩, fun h => ?_⟩
  · intro hh w v
    obtain ⟨ds, hs1⟩ := translateDie_dies ht
    have data : (leBytes 8 v).take 8 = leBytes 8 v := List.take_of_length_le (by rw [leBytes_length])
    refine ⟨_, completion_written hc hst ha ht hh, fun a => ?_, ?_, ?_⟩
    · have written : (s1.engineWriteAt ⟨1, 64, 0, false⟩ c.die 8 [x] (leBytes 8 v)).byte a =
          (s.write (cellsAt x.key (leBytes 8 v))).byte a := by
        rw [engineWriteAt_byte, pieceCells_single, data]
        exact write_byte_congr (by rw [hs1]) ..
      rw [← written]
      cases c.irq <;> rfl
    · have stay : (s1.engineWriteAt ⟨1, 64, 0, false⟩ c.die 8 [x] (leBytes 8 v)).completions = s.completions.eraseIdx ix := by
        rw [engineWriteAt_completions, hs1]
      rw [← stay]
      cases c.irq <;> rfl
    · have stay : (s1.engineWriteAt ⟨1, 64, 0, false⟩ c.die 8 [x] (leBytes 8 v)).tenant c.tenant = s.tenant c.tenant := by
        unfold State.tenant
        rw [engineWriteAt_tenants, hs1]
      rw [← stay]
      cases c.irq with
      | false => exact (List.append_nil _).symm
      | true =>
        show (State.tenant (State.irq _ c.tenant 0) c.tenant).irqs = _
        unfold State.irq
        rw [State.tenant_modTenant, if_pos rfl]
        rfl
  · obtain ⟨z, hz, code, addr, -, wr, tag⟩ := dispReport_reports s0 c.tenant c.addr false true c.tag
    refine ⟨_, z, completion_fails hc hst h, fun a => ?_, ?_, ?_, code, addr, wr, tag⟩
    · rw [hz]; rfl
    · rw [hz]; rfl
    · rw [hz, State.tenant_modTenant, if_pos rfl]; rfl

/-! ## Fault records (R314, R351) -/

/-- The record met first is one of those not written, and none is older. -/
theorem firstUnwritten_least {l : List Unwritten} {w : Unwritten} (h : firstUnwritten l = some w) :
    w ∈ l ∧ ∀ v ∈ l, w.time ≤ v.time := by
  induction l generalizing w with
  | nil => cases h
  | cons u l ih =>
    unfold firstUnwritten at h
    cases hf : firstUnwritten l with
    | none =>
      rw [hf] at h
      cases h
      have empty : l = [] := by
        cases l with
        | nil => rfl
        | cons a l =>
          unfold firstUnwritten at hf
          split at hf
          · cases hf
          · split at hf <;> cases hf
      rw [empty]
      exact ⟨by simp, fun v hv => by rw [List.mem_singleton.mp hv]⟩
    | some v =>
      obtain ⟨hm, hle⟩ := ih hf
      rw [hf] at h
      dsimp only at h
      by_cases ht : u.time ≤ v.time
      · rw [if_pos ht] at h
        cases h
        refine ⟨by simp, fun x hx => ?_⟩
        rcases List.mem_cons.mp hx with rfl | hx
        · exact le_rfl
        · exact ht.trans (hle x hx)
      · rw [if_neg ht] at h
        cases h
        refine ⟨by simp [hm], fun x hx => ?_⟩
        rcases List.mem_cons.mp hx with rfl | hx
        · omega
        · exact hle x hx

/-- The bytes of a record that waits for a slot (R314). -/
def Unwritten.bytes (s : State) (t : Nat) : Unwritten → List Byte
  | .stop _ x p => s.stopRecord x p
  | .report r => reportRecord t r
  | .record _ _ b => b

/-- A record is no longer to be written. -/
def State.settleRecord (s : State) (t : Nat) : Unwritten → State
  | .stop a _ p => s.modAgent a (Agent.mapCtl (Ctl.recorded p))
  | .report r => s.modTenant t fun y => { y with reports := y.reports.erase r }
  | .record n a b => s.modTenant t fun y => { y with records := y.records.erase (n, a, b) }

section Record
variable {s : State} {t key : Nat} {w : Unwritten} (he : (s.tenant t).enabled = true)
include he

theorem faultRecord_full (hf : (s.tenant t).queueFull = true) : execFaultRecord t s = .next s := by
  unfold execFaultRecord
  simp only [he, hf, Bool.not_true, Bool.false_or, if_true]

variable (hf : (s.tenant t).queueFull = false) (hw : firstUnwritten (s.unwritten t) = some w)
  (hk : devKey (((s.tenant t).reg 0x68).toNat / 64 * 64 +
    64 * (((s.tenant t).reg 0x80).toNat % 2 ^ ebits ((s.tenant t).reg 0x70).toNat 4 0)) = some key)
include hf hw hk

theorem faultRecord_held (ho : s.ownedLine .any key = true) : execFaultRecord t s = .next s := by
  unfold execFaultRecord
  simp only [he, hf, hw, hk, ho, Bool.not_true, Bool.or_self, Bool.false_eq_true, if_false, Option.map_some,
    Option.getD_some, if_true]

/-- The record goes to its slot, and the driver's index and vector 1 tell of it (R314, R354). -/
theorem faultRecord_written (ho : s.ownedLine .any key = false) :
    execFaultRecord t s =
      .next (((((s.settleRecord t w).engineWriteAt ⟨1, 64, 0, false⟩ (homeDie key) 64 [plainXlat key] (w.bytes s t)).modTenant t
        fun y => y.setReg 0x80 (y.reg 0x80 + 1#64))).irq t 1) := by
  unfold execFaultRecord
  simp only [he, hf, hw, hk, ho, Bool.not_true, Bool.or_self, Bool.false_eq_true, if_false, Option.map_some,
    Option.getD_some]
  cases w <;> rfl

end Record

/-- What a record leaves in its tenant when it is written: its place in the reports or the records. -/
theorem settleRecord_tenant (s : State) (t : Nat) (w : Unwritten) :
    ∃ x, (s.settleRecord t w).tenant t = x ∧ x = { s.tenant t with reports := x.reports, records := x.records } ∧
      (∀ r, w = .report r → x.reports = (s.tenant t).reports.erase r) ∧
      (∀ n a b, w = .record n a b → x.records = (s.tenant t).records.erase (n, a, b)) ∧
      (∀ k, k ≠ t → (s.settleRecord t w).tenant k = s.tenant k) ∧ (s.settleRecord t w).mem = s.mem := by
  cases w with
  | stop a x p =>
    exact ⟨_, rfl, rfl, fun r h => (by cases h), fun n a b h => (by cases h), fun _ _ => rfl, rfl⟩
  | report r =>
    refine ⟨_, (State.tenant_modTenant ..).trans (if_pos rfl), rfl, fun r' h => ?_, fun n a b h => (by cases h),
      fun k hk => (State.tenant_modTenant ..).trans (if_neg (Ne.symm hk)), rfl⟩
    cases h; rfl
  | record n a b =>
    refine ⟨_, (State.tenant_modTenant ..).trans (if_pos rfl), rfl, fun r h => (by cases h), fun n' a' b' h => ?_,
      fun k hk => (State.tenant_modTenant ..).trans (if_neg (Ne.symm hk)), rfl⟩
    cases h; rfl

theorem faultsAreRecorded : Claim.FaultsAreRecorded := by
  intro s t key w he hw slots
  have full : (s.tenant t).queueFull = true ↔ ((s.tenant t).reg 0x80 - (s.tenant t).reg 0x78).toNat = slots := beq_iff_eq
  refine ⟨fun hf => faultRecord_full he (full.mpr hf), fun hf hk => ?_⟩
  have notFull : (s.tenant t).queueFull = false := Bool.eq_false_iff.mpr fun h => hf (full.mp h)
  refine ⟨firstUnwritten_least hw, faultRecord_held he notFull hw hk, ?_⟩
  intro ho bytes
  have bytes_eq : w.bytes s t = bytes := by cases w <;> rfl
  obtain ⟨x, hx, hsame, hrep, hrec, hothers, hmem⟩ := settleRecord_tenant s t w
  have write := faultRecord_written he notFull hw hk ho
  rw [bytes_eq] at write
  generalize hs2 : (s.settleRecord t w).engineWriteAt ⟨1, 64, 0, false⟩ (homeDie key) 64 [plainXlat key] bytes = s2 at write
  have tenant (k : Nat) : s2.tenant k = (s.settleRecord t w).tenant k := by
    unfold State.tenant
    rw [← hs2, engineWriteAt_tenants]
  have after : ((((s2.modTenant t fun y => y.setReg 0x80 (y.reg 0x80 + 1#64))).irq t 1).tenant t) =
      { x.setReg 0x80 (x.reg 0x80 + 1#64) with irqs := x.irqs ++ [1] } := by
    unfold State.irq
    rw [State.tenant_modTenant, if_pos rfl, State.tenant_modTenant, if_pos rfl, tenant, hx]
    rfl
  refine ⟨_, write, fun a => ?_, ?_, ?_, fun k hk => ?_, fun a y p hstop hy hp => ?_, fun r hr => ?_, fun n a b hr => ?_⟩
  · show s2.byte a = _
    rw [← hs2, engineWriteAt_byte, pieceCells_single]
    exact write_byte_congr hmem ..
  · rw [after]
    show (x.setReg 0x80 _).reg 0x80 = _
    rw [Tenant.reg_setReg, if_pos rfl, hsame]
    rfl
  · rw [after, hsame]
  · unfold State.irq
    rw [State.tenant_modTenant, if_neg (Ne.symm hk), State.tenant_modTenant, if_neg (Ne.symm hk), tenant, hothers k hk]
  · subst hstop
    obtain ⟨_, _, _, _, f, h⟩ := engineWriteAt_only (s.settleRecord t (.stop a y p)) ⟨1, 64, 0, false⟩ (homeDie key) 64
      [plainXlat key] bytes
    have agent : s2.agent? a = some (Agent.mapParks f (y.mapCtl (Ctl.recorded p))) := by
      rw [← hs2, h]
      show kget (kmap _ (kmod s.agents a _)) a = _
      rw [kget_kmap_fn, kget_kmod_same, show kget s.agents a = some y from hy]
      rfl
    show (s2.agent? a).map _ = _
    rw [agent]
    simp [Agent.mapParks, Agent.mapCtl, Ctl.recorded, hp]
  · rw [after]; exact hrep r hr
  · rw [after]; exact hrec n a b hr

/-! ## Trace records (R324, R351) -/

/-- A write at physical addresses changes the bytes that lie there. -/
theorem devWrite_byte_other (s : State) (pa : Nat) (bs : List Byte) (a : Nat)
    (h : ∀ i, i < bs.length → devKey (pa + i) ≠ some a) : (s.devWrite pa bs).byte a = s.byte a := by
  refine State.byte_write_other _ _ _ fun e he => ?_
  obtain ⟨q, hq, hk⟩ := List.mem_filterMap.mp he
  obtain ⟨k, hkey, rfl⟩ := Option.map_eq_some_iff.mp hk
  have index := List.snd_lt_of_mem_zipIdx hq
  rw [Nat.add_zero] at index
  rintro rfl
  exact h q.2 index hkey

section Trace
variable {s : State} {t : Nat} {rec : List Byte}

/-- A trace ring that is disabled drops the record and counts it (log 22). -/
theorem ringPut_disabled
    (hb : ebits ((s.tenant t).reg 0xA8).toNat 4 0 < 4 ∨ 20 < ebits ((s.tenant t).reg 0xA8).toNat 4 0) :
    s.ringPut false t rec = s.modTenant t fun y => { y with traceDrops := y.traceDrops + 1 } := by
  unfold State.ringPut
  simp only [Bool.false_eq_true, if_false, gt_iff_lt, hb, if_true]

variable (hlo : 4 ≤ ebits ((s.tenant t).reg 0xA8).toNat 4 0) (hhi : ebits ((s.tenant t).reg 0xA8).toNat 4 0 ≤ 20)
include hlo hhi

/-- A full trace ring drops the record, counts it and raises vector 4 (R354). -/
theorem ringPut_full
    (hd : ((s.tenant t).traceIx + 1) % 2 ^ ebits ((s.tenant t).reg 0xA8).toNat 4 0 =
      ebits ((s.tenant t).reg 0xA8).toNat 15 8 * 2 ^ ebits ((s.tenant t).reg 0xA8).toNat 4 0 / 256) :
    s.ringPut false t rec = (s.modTenant t fun y => { y with traceDrops := y.traceDrops + 1 }).irq t 4 := by
  unfold State.ringPut ringDriver
  simp only [Bool.false_eq_true, if_false, gt_iff_lt, Nat.not_lt.mpr hlo, Nat.not_lt.mpr hhi, or_self, hd, if_true]

/-- A trace ring with room takes the record (R324). -/
theorem ringPut_room
    (hd : ((s.tenant t).traceIx + 1) % 2 ^ ebits ((s.tenant t).reg 0xA8).toNat 4 0 ≠
      ebits ((s.tenant t).reg 0xA8).toNat 15 8 * 2 ^ ebits ((s.tenant t).reg 0xA8).toNat 4 0 / 256) :
    s.ringPut false t rec = (s.devWrite (((s.tenant t).reg 0xA0).toNat + rec.length * (s.tenant t).traceIx) rec).modTenant t
      fun y => { y with traceIx := ((s.tenant t).traceIx + 1) % 2 ^ ebits ((s.tenant t).reg 0xA8).toNat 4 0 } := by
  unfold State.ringPut ringDriver
  simp only [Bool.false_eq_true, if_false, gt_iff_lt, Nat.not_lt.mpr hlo, Nat.not_lt.mpr hhi, or_self, hd]

end Trace

/-- The next slot of a ring of more than one slot is another slot. -/
theorem nextSlot_ne {b : Nat} (hb : 4 ≤ b) (ix : Nat) : (ix + 1) % 2 ^ b ≠ ix := by
  have large : 2 ^ 4 ≤ 2 ^ b := Nat.pow_le_pow_right (by decide) hb
  intro h
  have below : ix < 2 ^ b := h ▸ Nat.mod_lt _ (by omega)
  by_cases hs : ix + 1 < 2 ^ b
  · rw [Nat.mod_eq_of_lt hs] at h; omega
  · rw [show ix + 1 = 2 ^ b by omega, Nat.mod_self] at h
    omega

section TraceStep
variable {s : State} {c : CmdName} (ev : TraceEv) (status : Nat) (h1 : ((s.tenant c.issuer.tenant).reg 0).getLsbD 1 = true)
  (h2 : admits c.issuer.tenant (labelOf c.label) = true)
include h1 h2

/-- The bytes of a trace record (log 22). -/
abbrev State.traceBytes (s : State) (c : CmdName) (ev : TraceEv) (status : Nat) : List Byte :=
  (List.range 32).map (Config.traceByte (s.traceRec c ev status).fields)

theorem trace_dropped
    (h : ((s.ringPut false c.issuer.tenant (s.traceBytes c ev status)).tenant c.issuer.tenant).traceIx =
      (s.tenant c.issuer.tenant).traceIx) :
    s.trace c ev status = s.ringPut false c.issuer.tenant (s.traceBytes c ev status) := by
  unfold State.trace
  dsimp only
  rw [h1, h2, Bool.and_self, if_pos rfl, if_pos h]

theorem trace_taken
    (h : ((s.ringPut false c.issuer.tenant (s.traceBytes c ev status)).tenant c.issuer.tenant).traceIx ≠
      (s.tenant c.issuer.tenant).traceIx) :
    s.trace c ev status = (s.ringPut false c.issuer.tenant (s.traceBytes c ev status)).modTenant c.issuer.tenant fun x =>
      { x with traces := kput x.traces (s.tenant c.issuer.tenant).traceIx (s.traceRec c ev status) } := by
  unfold State.trace
  dsimp only
  rw [h1, h2, Bool.and_self, if_pos rfl, if_neg h]

end TraceStep

theorem tracesAreRecorded : Claim.TracesAreRecorded := by
  intro s c ev status t x traces b drops
  refine ⟨fun h => ?_, fun h1 h2 => ⟨fun hb => ?_, fun hlo hhi => ?_⟩⟩
  · have off : (traces.getLsbD 1 && admits t (labelOf c.label)) = false := Bool.and_eq_false_iff.mpr h
    unfold State.trace
    exact if_neg (Bool.eq_false_iff.mp off)
  · have ring := ringPut_disabled (rec := s.traceBytes c ev status) hb
    have after : (s.ringPut false t (s.traceBytes c ev status)).tenant t = { x with traceDrops := x.traceDrops + 1 } := by
      rw [ring, State.tenant_modTenant, if_pos rfl]
    have step := trace_dropped ev status h1 h2 (congrArg Tenant.traceIx after :)
    refine ⟨?_, ?_⟩
    · rw [step, ring]; rfl
    · rw [step]
      refine after.trans ?_
      rw [List.append_nil]
  · intro driver
    refine ⟨fun hd => ?_, fun hd => ?_⟩
    · have ring := ringPut_full (rec := s.traceBytes c ev status) hlo hhi hd
      have after : (s.ringPut false t (s.traceBytes c ev status)).tenant t =
          { x with traceDrops := x.traceDrops + 1, irqs := x.irqs ++ [4] } := by
        rw [ring]
        unfold State.irq
        rw [State.tenant_modTenant, if_pos rfl, State.tenant_modTenant, if_pos rfl]
      have step := trace_dropped ev status h1 h2 (congrArg Tenant.traceIx after :)
      refine ⟨?_, ?_⟩
      · rw [step, ring]; rfl
      · rw [step]; exact after
    · have ring := ringPut_room (rec := s.traceBytes c ev status) hlo hhi hd
      have after : (s.ringPut false t (s.traceBytes c ev status)).tenant t = { x with traceIx := (x.traceIx + 1) % 2 ^ b } := by
        rw [ring, State.tenant_modTenant, if_pos rfl]; rfl
      have step := trace_taken ev status h1 h2 (by rw [after]; exact nextSlot_ne hlo _)
      have length : (s.traceBytes c ev status).length = 32 := by rw [List.length_map, List.length_range]
      refine ⟨_, kput x.traces x.traceIx (s.traceRec c ev status), _, rfl, rfl, rfl, rfl, rfl, rfl, rfl, rfl, rfl, rfl, rfl, rfl,
        ?_, kget_kput_same .., fun k hk => kget_kput_other _ _ (Ne.symm hk), State.trace_agents .., fun a ha => ?_⟩
      · rw [step, State.tenant_modTenant, if_pos rfl, after]
      · have bytes : (s.trace c ev status).byte a =
            (s.devWrite ((x.reg 0xA0).toNat + (s.traceBytes c ev status).length * x.traceIx) (s.traceBytes c ev status)).byte a := by
          rw [step, ring]; rfl
        rw [bytes]
        refine devWrite_byte_other _ _ _ _ fun i hi => ?_
        rw [length] at hi ⊢
        exact ha i hi

/-- Settles O42: the three writers by their cases; a write at a home leaves tenants and stops as they are. -/
theorem completionsAndFaultsAreWritten : Obligations.CompletionsAndFaultsAreWritten :=
  ⟨completionsAreWritten, faultsAreRecorded, tracesAreRecorded⟩

end Sys2Proof.Machine
end

section
/-! PROOF. Contexts that are enabled, disabled and reset (O45). -/

namespace Sys2Proof.Machine

open Sys2Proof.Claim

/-! ## Cores, dies and gangs that all change alike -/

theorem kgetD_kmap {V : Type} (d : V) (f : V → V) (hd : f d = d) (m : KMap V) (k : Nat) :
    kgetD d (kmap f m) k = f (kgetD d m k) := by
  unfold kgetD
  rw [kget_kmap_fn]
  cases kget m k with
  | none => exact hd.symm
  | some v => rfl

/-! ## A reset (R60) -/

/-- Status 1 for each launch that was queued or running (R48, R60). -/
def resetStatus (t : Nat) (l : List (Nat × LaunchRec)) : List Completion :=
  (l.filter fun e => e.2.done != 0#64).map fun e =>
    { tenant := t, launch := 0, addr := e.2.done, status := 1, count := false, irq := e.2.irq, tag := e.2.tag, die := e.1 }

theorem foldl_complete (t : Nat) (l : List (Nat × LaunchRec)) (s : State) :
    l.foldl (fun r e => r.complete t e.1 e.2 1) s = { s with completions := s.completions ++ resetStatus t l } := by
  induction l generalizing s with
  | nil => rw [List.foldl_nil, resetStatus, List.filter_nil, List.map_nil, List.append_nil]
  | cons e l ih =>
    obtain ⟨cs, h, hcs⟩ := complete_only s t e.1 e.2 1
    rw [List.foldl_cons, ih, h, hcs]
    unfold resetStatus
    by_cases hd : e.2.done = 0#64
    · rw [if_pos hd, List.filter_cons_of_neg (by simp [hd]), List.append_nil]
    · rw [if_neg hd, List.filter_cons_of_pos (by simp [hd]), List.map_cons, List.append_assoc]
      rfl

/-- What a reset leaves of an agent of the context (R60, R134, log 44). -/
theorem afterReset_spec (x : Agent) :
    x.afterReset.ctl.ended = 0xFFFFFFFF#32 ∧ x.afterReset.ctl.hold = .ended false ∧ x.afterReset.ctl.stop = none ∧
    x.afterReset.active = false ∧ x.afterReset.regs.alloc = 0 ∧ x.afterReset.eng = x.eng ∧
    x.afterReset.flight.bufOps = [] ∧ x.afterReset.flight.chases = [] ∧ x.afterReset.flight.pend = [] ∧
    x.afterReset.recs = [] ∧
    (∀ o ∈ x.afterReset.flight.ops, ∃ q ∈ x.flight.ops, q.id = o.id ∧ o.returns = false ∧
      o.lanes = q.lanes.filter fun l => l.st.onWay) ∧
    x.afterReset.flight.setOps = x.flight.setOps.map fun o => { o with held := false, released := true } := by
  refine ⟨rfl, rfl, rfl, rfl, rfl, rfl, rfl, rfl, rfl, rfl, fun o ho => ?_, rfl⟩
  obtain ⟨q, hq, rfl⟩ := List.mem_map.mp ho
  exact ⟨q, List.mem_of_mem_filter hq, rfl, rfl, rfl⟩

/-- A reset ends the context, in whatever state it is (R60). -/
theorem resetContext_ends (s : State) (t : Nat) : ContextEnds s (s.resetContext t) t := by
  unfold State.resetContext
  dsimp only
  rw [foldl_complete]
  refine ⟨fun _ => rfl, fun a x hx => ⟨fun hn => ?_, fun ht => ⟨x.afterReset, ?_, afterReset_spec x⟩⟩, fun g y hy => ?_,
    fun c => ?_, fun d => ?_, ?_, ?_, ?_, fun k hk => ?_, rfl⟩
  · unfold State.agent?
    rw [State.modTenant_agents, kget_kmap_fn, show kget s.agents a = some x from hx, Option.map_some, if_neg hn]
  · unfold State.agent?
    rw [State.modTenant_agents, kget_kmap_fn, show kget s.agents a = some x from hx, Option.map_some, if_pos ht]
  · unfold State.gang?
    rw [State.modTenant_gangs, kget_kmap_fn, show kget s.gangs g = some y from hy]
    rfl
  · have core : kgetD Core.reset (kmap (Core.dropTenant (s.ofTenant t)) s.cores) c =
        Core.dropTenant (s.ofTenant t) (s.core c) := kgetD_kmap _ _ rfl ..
    exact ⟨congrArg Core.copies core, congrArg Core.tools core, congrArg Core.cmds core⟩
  · have die : kgetD Die.reset (kmap (Die.dropTenant t) s.dies) d = Die.dropTenant t (s.die d) := kgetD_kmap _ _ rfl ..
    exact congrArg Die.latigo die
  · rw [State.tenant_modTenant, if_pos rfl]
  · rw [State.tenant_modTenant, if_pos rfl]
  · rw [State.tenant_modTenant, if_pos rfl]
  · rw [State.tenant_modTenant, if_neg (Ne.symm hk)]
    rfl

/-! ## The steps (R352) -/

section Steps
variable {s : State} {t : Nat}

theorem execContextReset_resets (he : (s.tenant t).enabled = true) (hr : (s.tenant t).resetting = false) :
    execContextReset t s = .next (s.resetContext t) := by
  unfold execContextReset
  rw [he, hr]
  rfl

/-- Nothing of the context is left to perform or to write. -/
theorem execContextResetComplete_completes (hr : (s.tenant t).resetting = true)
    (ha : ∀ e ∈ s.agents, e.2.ident.tenant = t → e.2.flight.setOps = [] ∧
      ∀ o ∈ e.2.flight.ops, ∀ l ∈ o.lanes, l.st.onWay = false)
    (hc : ∀ c ∈ s.completions, c.tenant ≠ t) :
    execContextResetComplete t s = .next (State.modTenant { s with
      agents := s.agents.filter fun e => e.2.ident.tenant != t
      gangs := s.gangs.filter fun e => e.2.tenant != t
      launches := s.launches.filter fun e => e.2.tenant != t } t fun x => { x with resetting := false }) := by
  unfold execContextResetComplete
  dsimp only
  rw [if_neg]
  rw [hr, Bool.not_true, Bool.false_or, Bool.or_eq_true, List.any_eq_true, List.any_eq_true]
  rintro (⟨e, he, hb⟩ | ⟨c, hm, hb⟩)
  · rw [Bool.and_eq_true, beq_iff_eq, Bool.or_eq_true] at hb
    obtain ⟨ht, hb⟩ := hb
    obtain ⟨hset, hops⟩ := ha e he ht
    rcases hb with hb | hb
    · rw [hset] at hb; cases hb
    · obtain ⟨o, ho, hl⟩ := List.any_eq_true.mp hb
      obtain ⟨l, hl, hway⟩ := List.any_eq_true.mp hl
      rw [hops o ho l hl] at hway
      cases hway
  · exact hc c hm (beq_iff_eq.mp hb)

theorem execContextEnable_enables (ht : t < 16) (he : (s.tenant t).enabled = false) (hs : (s.tenant t).queueSized = true)
    (hv : s.device.verified = true) :
    execContextEnable t s = .next (s.modTenant t (Tenant.enable s.device)) := by
  unfold execContextEnable
  simp only [ge_iff_le, Nat.not_le.mpr ht, he, hs, hv, decide_false, Bool.or_self, Bool.not_true, Bool.false_eq_true, if_false]

theorem execContextEnable_refuses (h : (s.tenant t).queueSized = false ∨ s.device.verified = false) :
    execContextEnable t s = .next s := by
  unfold execContextEnable
  rcases h with h | h
  · simp only [h, Bool.not_false, Bool.or_true, Bool.true_or, if_true]
  · simp only [h, Bool.not_false, Bool.or_true, if_true]

theorem execContextDisable_holds (he : (s.tenant t).enabled = true) (hw : s.hasWork t = true) : execContextDisable t s = .next s := by
  unfold execContextDisable
  rw [he, hw]
  rfl

theorem execContextDisable_disables (he : (s.tenant t).enabled = true) (hw : s.hasWork t = false) :
    execContextDisable t s = .next (s.modTenant t fun x =>
      { x.setReg 0 (x.reg 0 &&& ~~~(1#64)) with saved := false, draining := false }) := by
  unfold execContextDisable
  rw [he, hw]
  rfl

end Steps

/-- Settles O45: each step by its condition; the reset is the one that ends a forced save too. -/
theorem contextsComeAndGo : Obligations.ContextsComeAndGo := by
  unfold Obligations.ContextsComeAndGo
  refine fun s t => ⟨fun he hr => ⟨_, execContextReset_resets he hr, resetContext_ends s t⟩, fun hr ha hc => ?_,
    fun ht he => ⟨fun hv hlo hhi => ?_, fun h => ?_⟩, fun he => ⟨execContextDisable_holds he, fun hw => ?_⟩⟩
  · refine ⟨_, execContextResetComplete_completes hr ha hc, fun _ => rfl, rfl, ?_, fun k hk => ?_, rfl, rfl, rfl⟩
    · rw [State.tenant_modTenant, if_pos rfl]; rfl
    · rw [State.tenant_modTenant, if_neg (Ne.symm hk)]; rfl
  · have sized : (s.tenant t).queueSized = true := by
      unfold Tenant.queueSized
      rw [decide_eq_true hlo, decide_eq_true hhi]; rfl
    exact ⟨_, _, execContextEnable_enables ht he sized hv, tenantBecomes_modTenant .., rfl, fun off => Tenant.reg_setReg ..⟩
  · exact execContextEnable_refuses (h.symm.imp (queueSized_eq_false _).mpr id)
  · exact ⟨_, _, execContextDisable_disables he hw, tenantBecomes_modTenant .., rfl, fun off => Tenant.reg_setReg ..⟩

end Sys2Proof.Machine
end

section
/-! PROOF. Contexts that are resumed, and gangs that take their places again (O44). -/

namespace Sys2Proof.Machine

open Sys2Proof.Claim

/-! ## Resuming a context (R61, R352) -/

/-- `sys.yreq` reads 0 for the agents of the context. -/
theorem clearYreq_agents {s : State} {t a : Nat} {x : Agent} (hx : s.agent? a = some x) :
    kget (kmap (Agent.clearYreq t) s.agents) a =
      some (if x.ident.tenant = t then { x with sys := { x.sys with yreq := false } } else x) := by
  rw [kget_kmap_fn, show kget s.agents a = some x from hx]
  rfl

section Resume
variable {s : State} {t : Nat} (hr : (s.tenant t).resetting = false)
include hr

/-- A saved context is admitted again. -/
theorem contextResume_saved (hs : (s.tenant t).saved = true) :
    execContextResume t s = .next (State.modTenant { s with agents := kmap (Agent.clearYreq t) s.agents } t
      fun x => { x with saved := false }) := by
  unfold execContextResume
  simp only [hr, hs, Bool.false_eq_true, if_false, if_true]

/-- Some agent of the gang has yielded. -/
def State.gangYields (s : State) (g : Nat) : Bool :=
  s.agents.any fun e => e.2.ident.gang == g && (match e.2.ctl.hold with | .yielded _ => true | _ => false)

omit hr in
theorem gangYields_iff (g : Nat) :
    s.gangYields g = true ↔ ∃ e ∈ s.agents, e.2.ident.gang = g ∧ ∃ b, e.2.ctl.hold = .yielded b := by
  unfold State.gangYields
  rw [List.any_eq_true]
  refine exists_congr fun e => and_congr_right fun _ => ?_
  rw [Bool.and_eq_true, beq_iff_eq]
  refine and_congr_right fun _ => ⟨fun h => ?_, fun ⟨b, h⟩ => by rw [h]⟩
  split at h
  · next b hb => exact ⟨b, hb⟩
  · cases h

/-- What a gang is when a drain under way ends. -/
def Gang.undrained (t : Nat) (yields : Bool) (y : Gang) : Gang :=
  if y.tenant = t ∧ y.phase = .running then
    { y with deadline := none, phase := if yields then .saving else .running }
  else y

/-- A drain that is under way ends, but for the gangs with an agent that has yielded. -/
theorem contextResume_draining (hs : (s.tenant t).saved = false) (hd : (s.tenant t).draining = true) :
    execContextResume t s = .next (State.modTenant { s with
      agents := kmap (Agent.clearYreq t) s.agents
      gangs := s.gangs.map fun e => (e.1, Gang.undrained t (s.gangYields e.1) e.2) } t fun x => { x with draining := false }) := by
  unfold execContextResume
  simp only [hr, hs, hd, Bool.false_eq_true, if_false, if_true]
  rfl

end Resume

/-! ## What the parts of a restore leave as it is -/

/-- Keys that rise are all different. -/
theorem keys_nodup {V : Type} (m : KMap V) (h : keysRise m = true) : (m.map Prod.fst).Nodup := by
  have rises : m.Pairwise fun a b => a.1 < b.1 := by
    induction m with
    | nil => exact .nil
    | cons e m ih =>
      rw [keysRise_cons, Bool.and_eq_true] at h
      exact List.pairwise_cons.mpr ⟨fun b hb => of_decide_eq_true (List.all_eq_true.mp h.1 b hb), ih h.2⟩
  exact List.pairwise_map.mpr (rises.imp Nat.ne_of_lt)

theorem map_fst_zip_sublist {α β : Type} (l : List α) (m : List β) : ((l.zip m).map Prod.fst).Sublist l := by
  induction l generalizing m with
  | nil => exact .slnil
  | cons a l ih =>
    cases m with
    | nil => exact List.nil_sublist _
    | cons b m => exact (ih m).cons_cons a

theorem moveCommands_foldl (g : Nat) (l : List ((Nat × Nat) × Nat)) (s : State) :
    ∃ cores, l.foldl (fun r e => r.moveCommands g e.2 e.1.1 e.1.2) s = { s with cores := cores } := by
  induction l generalizing s with
  | nil => exact ⟨_, rfl⟩
  | cons e l ih =>
    obtain ⟨cores, h⟩ := ih (s.moveCommands g e.2 e.1.1 e.1.2)
    exact ⟨cores, h⟩

theorem wayFree_foldl (g : Nat) (cs : List Nat) (s : State) :
    ∃ cores free, cs.foldl (fun r c => r.wayFree g c) s = { s with cores := cores, free := free } := by
  induction cs generalizing s with
  | nil => exact ⟨_, _, rfl⟩
  | cons c cs ih =>
    have one : ∃ cores free, s.wayFree g c = { s with cores := cores, free := free } := by
      unfold State.wayFree
      split
      · exact ⟨_, _, rfl⟩
      · exact ⟨_, _, rfl⟩
    obtain ⟨cores, free, h⟩ := one
    rw [List.foldl_cons, h]
    obtain ⟨cores, free, h⟩ := ih { s with cores := cores, free := free }
    exact ⟨cores, free, h⟩

theorem spillAsks_homes (ls : List (Nat × Nat)) (w : Bool) (s : State) : SameButHomes s (s.spillAsks ls w) := by
  refine .foldl _ (fun r e => ?_) ls s
  split
  · exact .hbmAsk ..
  · exact .rfl' r

/-- Of an agent only what is parked has changed. -/
def Agent.SameButParks (x w : Agent) : Prop :=
  ∃ ps m f, w = { x with ctl := { x.ctl with parks := ps, parked := m }, sys := { x.sys with frame := f } }

theorem Agent.SameButParks.refl (x : Agent) : x.SameButParks x := ⟨_, _, _, rfl⟩

theorem Agent.SameButParks.wake {x w : Agent} (h : x.SameButParks w) (test : ParkGroup → Bool) : x.SameButParks (w.wake test) := by
  obtain ⟨ps, m, f, rfl⟩ := h; exact ⟨_, _, _, rfl⟩

/-- The end of grace periods wakes lanes, and empties L1s (R135, R299). -/
theorem gwaitWake_spec (s : State) (t : Nat) (done : Word) :
    (∃ as cores, s.gwaitWake t done = { s with agents := as, cores := cores }) ∧
    (∀ k x, s.agent? k = some x → ∃ w, (s.gwaitWake t done).agent? k = some w ∧ x.SameButParks w) ∧
    ∀ c, (s.core c).l1 = [] → ((s.gwaitWake t done).core c).l1 = [] := by
  unfold State.gwaitWake
  extract_lets due waits
  generalize hf : (fun (r : State) (e : Nat × Agent) => if waits e.2 then (r.modAgent e.1 (Agent.wake due)).invalL1 e.2.core
    else r) = f
  have one (r : State) (e : Nat × Agent) :
      (∃ as cores, f r e = { r with agents := as, cores := cores }) ∧
      (∀ k w, r.agent? k = some w → (f r e).agent? k = some w ∨ (f r e).agent? k = some (w.wake due)) ∧
      ∀ c, (r.core c).l1 = [] → ((f r e).core c).l1 = [] := by
    rw [← hf]
    dsimp only
    by_cases hw : waits e.2 = true
    · rw [if_pos hw]
      refine ⟨⟨_, _, rfl⟩, fun k w hk => ?_, fun c hc => ?_⟩
      · show (r.modAgent e.1 (Agent.wake due)).agent? k = _ ∨ (r.modAgent e.1 (Agent.wake due)).agent? k = _
        rw [State.agent?_modAgent, hk]
        by_cases h : e.1 = k
        · rw [if_pos h]; exact .inr rfl
        · rw [if_neg h]; exact .inl rfl
      · unfold State.invalL1
        rw [State.core_modCore]
        by_cases h : e.2.core = c
        · rw [if_pos h]
        · rw [if_neg h]; exact hc
    · rw [if_neg hw]
      exact ⟨⟨_, _, rfl⟩, fun k w hk => .inl hk, fun c hc => hc⟩
  clear hf
  generalize s.agents = l
  induction l generalizing s with
  | nil => exact ⟨⟨_, _, rfl⟩, fun k x hk => ⟨x, hk, .refl x⟩, fun c hc => hc⟩
  | cons e l ih =>
    obtain ⟨⟨as, cores, h1⟩, h2, h3⟩ := one s e
    obtain ⟨⟨as', cores', i1⟩, i2, i3⟩ := ih (f s e)
    refine ⟨⟨as', cores', by rw [List.foldl_cons, i1, h1]⟩, fun k x hk => ?_, fun c hc => i3 c (h3 c hc)⟩
    rcases h2 k x hk with h | h
    · exact i2 k x h
    · obtain ⟨w, hw, ps, m, fr, rfl⟩ := i2 k _ h
      exact ⟨_, hw, ps, m, fr, rfl⟩

/-! ## The agents of a restored gang (R61, R316, R321) -/

section Agents
variable {l : List ((Nat × Agent) × Place)}

/-- An agent with no answer written while it was saved takes its place, and no other agent changes. -/
theorem restoreAgents_cons {a : Nat} {x : Agent} {p : Place} (s : State) (hd : x.ctl.stop.bind Stop.deferred = none) :
    restoreAgents (((a, x), p) :: l) s =
      restoreAgents l (s.setAgent a (x.restoreAt s.time p (s.entersActive p.core p.part))) := by
  rw [restoreAgents]
  unfold State.answerDeferred
  rw [hd]

theorem restoreAgents_only (hd : ∀ e ∈ l, e.1.2.ctl.stop.bind Stop.deferred = none) (s : State) :
    ∃ as, restoreAgents l s = { s with agents := as } := by
  induction l generalizing s with
  | nil => exact ⟨_, rfl⟩
  | cons e l ih =>
    obtain ⟨⟨a, x⟩, p⟩ := e
    rw [restoreAgents_cons s (hd ((a, x), p) (by simp))]
    exact ih (fun e he => hd e (by simp [he])) _

theorem restoreAgents_other (hd : ∀ e ∈ l, e.1.2.ctl.stop.bind Stop.deferred = none) {k : Nat}
    (hk : ∀ e ∈ l, e.1.1 ≠ k) (s : State) : (restoreAgents l s).agent? k = s.agent? k := by
  induction l generalizing s with
  | nil => rfl
  | cons e l ih =>
    obtain ⟨⟨a, x⟩, p⟩ := e
    rw [restoreAgents_cons s (hd ((a, x), p) (by simp)), ih (fun e he => hd e (by simp [he])) (fun e he => hk e (by simp [he]))]
    exact kget_kput_other _ _ (hk ((a, x), p) (by simp))

theorem restoreAgents_placed (hd : ∀ e ∈ l, e.1.2.ctl.stop.bind Stop.deferred = none) (hn : (l.map fun e => e.1.1).Nodup)
    {i k : Nat} {x : Agent} {p : Place} (h : l[i]? = some ((k, x), p)) (s : State) :
    ∃ active, (restoreAgents l s).agent? k = some (x.restoreAt s.time p active) := by
  induction l generalizing s i with
  | nil => cases h
  | cons e l ih =>
    obtain ⟨⟨a, y⟩, q⟩ := e
    obtain ⟨ha, hn⟩ := List.nodup_cons.mp hn
    have later : ∀ e ∈ l, e.1.2.ctl.stop.bind Stop.deferred = none := fun e he => hd e (by simp [he])
    rw [restoreAgents_cons s (hd ((a, y), q) (by simp))]
    cases i with
    | zero =>
      cases h
      rw [restoreAgents_other later fun e he hk => ha (List.mem_map.mpr ⟨e, he, hk⟩)]
      exact ⟨_, kget_kput_same ..⟩
    | succ i => exact ih later hn h _

end Agents

/-- What an agent is that takes its place again (R61, R91, R96, R316, R321). -/
theorem restoreAt_spec (now : Nat) (p : Place) (active : Bool) (x : Agent) (hd : x.ctl.stop.bind Stop.deferred = none) :
    ∃ w, w = x.restoreAt now p active ∧ w.place = some p ∧ w.ident = { x.ident with born := now } ∧ w.regs = x.regs ∧
      w.ctl.pcs = x.ctl.pcs ∧ w.ctl.ended = x.ctl.ended ∧ w.sys.yreq = false ∧ w.sys.fpflags = x.sys.fpflags ∧
      w.recs = x.recs ∧ ((∃ b, x.ctl.hold = .yielded b) → w.ctl.hold = .none) ∧
      ((∀ b, x.ctl.hold ≠ .yielded b) → w.ctl.hold = x.ctl.hold) ∧ (x.ctl.stop = none → w.ctl.stop = none) ∧
      ∀ o ∈ w.flight.ops, o.missed = [] ∧ o.waiting = o.open ∧ ∀ l ∈ o.lanes, l.st.isFaulted = false := by
  have keeps : x.skipsParts = false := by unfold Agent.skipsParts; rw [hd, Bool.and_eq_false_iff]; exact .inr rfl
  refine ⟨_, rfl, rfl, rfl, rfl, rfl, rfl, rfl, rfl, rfl, fun ⟨b, hb⟩ => ?_, fun hb => ?_, fun hs => ?_, fun o ho => ?_⟩
  · show (match x.ctl.hold with | .yielded _ => Hold.none | h => h) = _
    rw [hb]
  · show (match x.ctl.hold with | .yielded _ => Hold.none | h => h) = _
    split
    · next b hy => exact absurd hy (hb b)
    · rfl
  · show (x.ctl.stop.bind fun p => if p.logIx.isSome then none else some p) = none
    rw [hs]; rfl
  · have ops : (x.restoreAt now p active).flight = x.flight.retryParts.entersAnew := by
      show (if x.skipsParts then _ else x.flight.retryParts).entersAnew = _
      rw [keeps]; rfl
    rw [ops] at ho
    obtain ⟨q, hq, rfl⟩ := List.mem_map.mp ho
    obtain ⟨o, -, rfl⟩ := List.mem_map.mp hq
    refine ⟨rfl, rfl, fun l hl => ?_⟩
    obtain ⟨l, -, rfl⟩ := List.mem_map.mp hl
    by_cases h : l.st.isFaulted = true
    · rw [if_pos h]; rfl
    · rw [if_neg h]; exact Bool.not_eq_true _ ▸ h

/-! ## The restore (R61, R321) -/

/-- The gang as it runs again on its new cores. -/
def Gang.restoredOn (cores : List Nat) (y : Gang) : Gang :=
  { y with phase := .running, cores := cores, planes := [], tables := [], spilled := false, deadline := none
           forcedAt := none, savedReqs := [] }

/-- What a restore does, part by part: commands move, the gang runs, the agents take their places, the L1s are emptied, the
record is read back, and grace periods that have ended wake their waiters. -/
theorem gangRestore_parts {s : State} {die unit g : Nat} {a : Admission} {y : Gang} (hu : kget (s.die die).units unit = some a)
    (hg : a.restore = some g) (hy : s.gang? g = some y) (hp : y.phase = .saved) (h1 : a.replies = []) (h2 : a.refused = false)
    (h3 : a.retryAt = none) (hd : ∀ e ∈ s.savedAgents g, e.2.ctl.stop.bind Stop.deferred = none) :
    ∃ moved s1 s2 s3, execGangRestore die unit s =
        .next ((s3.spillAsks (if y.spilled then s.spillLines g y else []) false).gwaitWake y.tenant (s.tenant y.tenant).doneT) ∧
      (∃ cores, moved = { (s.modDie die fun d => { d with units := kdel d.units unit }) with cores := cores }) ∧
      (∃ cores free, s1 = { moved.modGang g (Gang.restoredOn a.cores) with cores := cores, free := free }) ∧
      s2 = restoreAgents ((s.savedAgents g).zip a.places) s1 ∧ s3 = a.cores.foldl (fun r c => r.invalL1 c) s2 := by
  have noReset : ((s.savedAgents g).any fun e => (e.2.ctl.stop.bind Stop.deferred) == some 2) = false :=
    List.any_eq_false.mpr fun e he => by rw [hd e he]; decide
  have found : (a.restore.bind fun g => (s.gang? g).map fun y => (g, y)) = some (g, y) := by rw [hg]; simp [hy]
  unfold execGangRestore
  simp only [hu, found, h1, h2, h3, hp, noReset, List.isEmpty_nil, Bool.not_true, Option.isSome_none, Bool.or_self,
    Bool.false_eq_true, ne_eq, not_true_eq_false, if_false, decide_false]
  exact ⟨_, _, _, _, rfl, moveCommands_foldl g _ _, wayFree_foldl g _ _, rfl, rfl⟩

/-- Settles O44: a context resumes by its state; in a restore only the agents of the gang and its cores change. -/
theorem contextsAreResumed : Obligations.ContextsAreResumed := by
  unfold Obligations.ContextsAreResumed
  refine ⟨fun s t hr => ⟨fun hs => ?_, fun hs hd => ?_⟩, ?_⟩
  · refine ⟨_, contextResume_saved hr hs, rfl, ?_, fun k hk => ?_, fun a x hx => clearYreq_agents hx⟩
    · rw [State.tenant_modTenant, if_pos rfl]; rfl
    · rw [State.tenant_modTenant, if_neg (Ne.symm hk)]; rfl
  · refine ⟨_, contextResume_draining hr hs hd, fun _ => rfl, ?_, fun a x hx => clearYreq_agents hx, fun g y hy => ?_⟩
    · rw [State.tenant_modTenant, if_pos rfl]; rfl
    · have gang : kget (s.gangs.map fun e => (e.1, Gang.undrained t (s.gangYields e.1) e.2)) g =
          some (Gang.undrained t (s.gangYields g) y) := by
        rw [kget_map_key (fun k y => Gang.undrained t (s.gangYields k) y), show kget s.gangs g = some y from hy]
        rfl
      refine ⟨fun h => gang.trans ?_, fun ht hp => ⟨fun hn => gang.trans ?_, fun he => gang.trans ?_⟩⟩
      · unfold Gang.undrained
        rw [if_neg fun hc => h.elim (fun h => h hc.1) fun h => h hc.2]
      · have quiet : s.gangYields g = false := by
          rw [← Bool.not_eq_true, gangYields_iff]
          rintro ⟨e, he, hg, b, hb⟩
          exact hn e he hg b hb
        unfold Gang.undrained
        rw [if_pos ⟨ht, hp⟩, quiet, if_neg Bool.false_ne_true, ← hp]
      · unfold Gang.undrained
        rw [if_pos ⟨ht, hp⟩, (gangYields_iff g).mpr he, if_pos rfl]
  · intro s die unit g a y hrise hu hg hy hp h1 h2 h3 hd
    obtain ⟨moved, s1, s2, s3, he, ⟨cores, hmoved⟩, ⟨cores', free, hs1⟩, hs2, hs3⟩ := gangRestore_parts hu hg hy hp h1 h2 h3 hd
    have zipDeferred : ∀ e ∈ (s.savedAgents g).zip a.places, e.1.2.ctl.stop.bind Stop.deferred = none := fun e hm =>
      hd e.1 (List.of_mem_zip hm).1
    have zipNodup : (((s.savedAgents g).zip a.places).map fun e => e.1.1).Nodup := by
      have saved : ((s.savedAgents g).map Prod.fst).Nodup :=
        (keys_nodup s.agents hrise).sublist (List.filter_sublist.map _)
      rw [show (fun e : (Nat × Agent) × Place => e.1.1) = Prod.fst ∘ Prod.fst from rfl, ← List.map_map]
      exact saved.sublist ((map_fst_zip_sublist ..).map _)
    obtain ⟨as, ha⟩ := restoreAgents_only zipDeferred s1
    rw [← hs2] at ha
    obtain ⟨⟨cores3, h3only⟩, -, hl1⟩ := invalL1_foldl a.cores s2
    rw [← hs3] at h3only hl1
    generalize hs4 : s3.spillAsks (if y.spilled then s.spillLines g y else []) false = s4 at he
    obtain ⟨l2, hbm, sent, h4⟩ : SameButHomes s3 s4 := hs4 ▸ spillAsks_homes ..
    obtain ⟨⟨as5, cores5, h5⟩, hwoken, hl15⟩ := gwaitWake_spec s4 y.tenant (s.tenant y.tenant).doneT
    refine ⟨_, y.restoredOn a.cores, he, fun b => ?_, ?_, ?_, rfl, fun c hc => ?_, fun i k x p hx hpl => ?_⟩
    · rw [h5, h4, h3only, ha, hs1, hmoved]; rfl
    · have dies : (s4.gwaitWake y.tenant (s.tenant y.tenant).doneT).die die =
          (s.modDie die fun d => { d with units := kdel d.units unit }).die die := by
        rw [h5, h4, h3only, ha, hs1, hmoved]; rfl
      rw [dies, State.die_modDie, if_pos rfl]
      exact (kget_kdel ..).trans (if_pos rfl)
    · have gangs : (s4.gwaitWake y.tenant (s.tenant y.tenant).doneT).gang? g = (moved.modGang g (Gang.restoredOn a.cores)).gang? g := by
        rw [h5, h4, h3only, ha, hs1]; rfl
      rw [gangs, State.gang?_modGang, if_pos rfl, hmoved]
      show (s.gang? g).map _ = _
      rw [hy]; rfl
    · refine hl15 c ?_
      have core : s4.core c = s3.core c := by rw [h4]; rfl
      rw [core]
      exact hl1 c hc
    · have pair : ((s.savedAgents g).zip a.places)[i]? = some ((k, x), p) := List.getElem?_zip_eq_some.mpr ⟨hx, hpl⟩
      obtain ⟨active, hk⟩ := restoreAgents_placed zipDeferred zipNodup pair s1
      rw [← hs2] at hk
      have time : s1.time = s.time := by rw [hs1, hmoved]; rfl
      have agent : s4.agent? k = some (x.restoreAt s.time p active) := by
        rw [← time, ← hk, h4, h3only]; rfl
      obtain ⟨w, hw, ps, m, f, hww⟩ := hwoken k _ agent
      obtain ⟨v, hv, place, ident, regs, pcs, ended, yreq, flags, recs, yields, holds, stop, ops⟩ :=
        restoreAt_spec s.time p active x (hd (k, x) (List.mem_of_getElem? hx))
      rw [← hv] at hww
      refine ⟨w, hw, ?_⟩
      rw [hww]
      exact ⟨place, ident, regs, pcs, ended, yreq, flags, recs, yields, holds, stop, ops⟩

end Sys2Proof.Machine
end

section
/-! PROOF. Gangs that are saved (O43). A save keeps the records of the stops of its gang's agents by their keys; where a key stands
twice, once with an agent of another gang, that other agent is taken for the gang's. -/

namespace Sys2Proof.Machine

open Sys2Proof.Claim

/-- A stop whose record is not written. -/
def unwrittenStop : Stop :=
  { code := 2, pc := 0#64, addr := 0#64, fetch := false, wr := false, lane := 0, logIx := none, time := 0, recorded := false
    deferred := none }

/-- An agent of gang 6, stopped. -/
def stoppedElsewhere : Agent :=
  { placedAgent 6 with ctl := { (placedAgent 6).ctl with stop := some unwrittenStop } }

/-- Gang 5, whose save is under way. -/
def savingGang : Gang :=
  { tenant := 0, launch := 0, index := 0, die := 0, prio := 0, tag := 0#64, rank := 0, warps := 1
    header := { slab := 0, slots := 0, bars := 0, budget := 1, cbufk := 0, wbufk := 0, abufk := 0, tables := 0, arrays := 0 }
    cores := [0], phase := .saving, buf := [], bufMark := [], bars := [], warpMarks := [], msgs := [], flips := [], slots := []
    planes := [], tables := [], deadline := none, forcedAt := some 0, savedAt := 0, savedReqs := [], spilled := false }

/-- Key 1 stands twice among the agents. -/
def keyTwice : State := { State.reset with agents := [(1, stoppedElsewhere), (1, placedAgent 5)], gangs := [(5, savingGang)] }

theorem keyTwice_saveRoom : keyTwice.saveRoom 5 savingGang = true := by
  unfold State.saveRoom State.recordLines
  have empty : keyTwice.inPartition savingGang.die = [] := rfl
  rw [empty, List.map_nil, List.sum_nil, Nat.zero_add]
  exact decide_eq_true (Nat.min_le_left ..)

/-- The save takes the stop of the agent of gang 6 for one whose record it has kept. -/
theorem keyTwice_saves : ∃ u, exec (.gangSave 5) keyTwice = .next u ∧
    (u.agent? 1).bind (fun x => x.ctl.stop.map Stop.recorded) = some true := by
  have exec_eq : exec (.gangSave 5) keyTwice = execGangSave 5 keyTwice := rfl
  have gang : keyTwice.gang? 5 = some savingGang := rfl
  have phase : savingGang.phase = .saving := rfl
  have savable : keyTwice.savable 5 savingGang = true := rfl
  rw [exec_eq]
  unfold execGangSave
  simp only [gang, phase, savable, keyTwice_saveRoom, Bool.not_true, Bool.false_eq_true, if_false]
  exact ⟨_, rfl, rfl⟩

/-- Refutes O43: with a key that stands twice, the save of gang 5 changes an agent of gang 6. That keys rise is a premise that the
statement lacks here, as it has it for a restore. -/
theorem not_preemptionSavesGangs : ¬ Obligations.PreemptionSavesGangs := by
  unfold Obligations.PreemptionSavesGangs
  rintro ⟨-, h⟩
  unfold Claim.GangsAreSaved at h
  obtain ⟨-, saved, -, -⟩ := h
  obtain ⟨v, hv, -, -, -, -, -, agents⟩ := saved keyTwice 5 savingGang rfl rfl rfl keyTwice_saveRoom
  obtain ⟨u, hu, recorded⟩ := keyTwice_saves
  obtain rfl : v = u := Host.Outcome.next.inj (hv.symm.trans hu)
  obtain ⟨other, -⟩ := agents 1 stoppedElsewhere rfl
  rw [other (by decide)] at recorded
  exact absurd recorded (by decide)

end Sys2Proof.Machine
end

section
/-! RULES for tooling commands (O29): what their end, their next chunk and a write to a buffer leave of the core, the buffers and
memory. -/

namespace Sys2Proof.Machine

open Sys2Proof.Claim

/-! ## The core beside its converted ways -/

/-- A core but for what its converted ways hold. -/
def Core.beside (c : Core) : Core := { c with wayMem := [], wayMark := [] }

section Beside
variable (s : State) (p : BufAt) (c : Nat)

theorem State.bufPut1_beside (off : Nat) (b : Byte) : ((s.bufPut1 p off b).core c).beside = (s.core c).beside := by
  unfold State.bufPut1
  split
  · rw [State.core_modCore]
    split
    · next h => rw [h]; rfl
    · rfl
  · rfl

theorem State.setBufMark_beside (r : Nat) (b : Bool) : ((s.setBufMark p r b).core c).beside = (s.core c).beside := by
  unfold State.setBufMark
  dsimp only
  split
  · rw [State.core_modCore]
    split
    · next h => rw [h]; rfl
    · rfl
  · rfl

theorem State.bufWrite_beside (cells : List (Nat × Byte)) : ((s.bufWrite p cells).core c).beside = (s.core c).beside :=
  (foldl_keeps (fun s : State => (s.core c).beside) _ (fun s r => s.setBufMark_beside p c r false) _ _).trans
    (foldl_keeps (fun s : State => (s.core c).beside) _ (fun s (e : Nat × Byte) => s.bufPut1_beside p c e.1 e.2) _ _)

theorem State.bufMarkRows_beside (off len : Nat) : ((s.bufMarkRows p off len).core c).beside = (s.core c).beside :=
  foldl_keeps (fun s : State => (s.core c).beside) _ (fun s r => s.setBufMark_beside p c r true) _ _

end Beside

/-! ## States that hold the same in their buffers -/

/-- No gang has changed, nor what the converted ways of a core hold. -/
def KeepsBufs (s t : State) : Prop :=
  t.gangs = s.gangs ∧ ∀ c, (t.core c).wayMem = (s.core c).wayMem ∧ (t.core c).wayMark = (s.core c).wayMark

section KeepsBufs
variable {s t : State} (h : KeepsBufs s t)
include h

theorem KeepsBufs.gang? (g : Nat) : t.gang? g = s.gang? g := by unfold State.gang?; rw [h.1]

theorem KeepsBufs.buffers : SameBuffers s t := ⟨fun c => (h.2 c).1, fun g => by rw [h.gang?]⟩

theorem KeepsBufs.slotMark (σ : Bool × Nat × Nat) : t.slotMark σ = s.slotMark σ := by
  unfold State.slotMark
  rw [(h.2 _).2, h.gang?]

theorem KeepsBufs.slotThere (σ : Bool × Nat × Nat) : t.slotThere σ = s.slotThere σ := by
  unfold State.slotThere
  rw [h.gang?]

theorem KeepsBufs.bufMarked (p : BufAt) (row : Nat) : t.bufMarked p row = s.bufMarked p row := by
  rw [State.bufMarked_eq, State.bufMarked_eq, h.slotMark]

/-- So do they after the same write, which clears the same marks. -/
theorem KeepsBufs.bufMarked_write (p : BufAt) (cells : List (Nat × Byte)) (q : BufAt) (row : Nat) :
    (t.bufWrite p cells).bufMarked q row = (s.bufWrite p cells).bufMarked q row := by
  simp only [State.bufMarked_eq, State.slotMark_bufWrite, h.slotMark, h.slotThere]

end KeepsBufs

theorem KeepsBufs.homes {s t : State} (h : SameButHomes s t) : KeepsBufs s t := by
  obtain ⟨_, _, _, rfl⟩ := h
  exact ⟨rfl, fun _ => ⟨rfl, rfl⟩⟩

/-- A change of a core's tooling commands. -/
theorem KeepsBufs.modTools (t : State) (core : Nat) (f : List Tool → List Tool) :
    KeepsBufs t (t.modCore core fun c => { c with tools := f c.tools }) := by
  refine ⟨rfl, fun c => ?_⟩
  rw [State.core_modCore]
  split
  · next h => rw [h]; exact ⟨rfl, rfl⟩
  · exact ⟨rfl, rfl⟩

/-! ## The end of a tooling command, and its next chunk (R238) -/

/-- Two states hold the same agents and, on a core, the same tooling commands. -/
def SameTools (s t : State) (core : Nat) : Prop := t.agents = s.agents ∧ (t.core core).tools = (s.core core).tools

section Ends
variable {s t : State} {core : Nat} {k : Tool}

theorem SameTools.trans {u : State} (h : SameTools s t core) (h' : SameTools t u core) : SameTools s u core :=
  ⟨h'.1.trans h.1, h'.2.trans h.2⟩

theorem SameTools.walks (h : SameButWalks s t) : SameTools s t core := ⟨h.agents, by rw [h.core]⟩

theorem SameTools.write (s : State) (p : BufAt) (cells : List (Nat × Byte)) (core : Nat) :
    SameTools s (s.bufWrite p cells) core :=
  ⟨(InBufs.write ..).agents, (congrArg Core.tools (s.bufWrite_beside p core cells) :)⟩

theorem SameTools.markRows (s : State) (p : BufAt) (off len core : Nat) : SameTools s (s.bufMarkRows p off len) core :=
  ⟨(InBufs.markRows ..).agents, (congrArg Core.tools (s.bufMarkRows_beside p core off len) :)⟩

theorem SameTools.tool? (h : SameTools s t core) (id : Nat) : t.tool? core id = s.tool? core id := by
  unfold State.tool?; rw [h.2]

theorem State.modTool_tools (t : State) (core id : Nat) (f : Tool → Tool) :
    ((t.modTool core id f).core core).tools = (t.core core).tools.map fun j => if j.id = id then f j else j := by
  unfold State.modTool
  rw [State.core_modCore, if_pos rfl]

theorem State.tool?_modTool (t : State) (core id : Nat) (f : Tool → Tool) (hf : ∀ j, (f j).id = j.id) :
    (t.modTool core id f).tool? core id = (t.tool? core id).map f := by
  unfold State.tool?
  rw [State.modTool_tools]
  induction (t.core core).tools with
  | nil => rfl
  | cons j l ih => by_cases hj : j.id = id <;> simp [hj, hf, ih]

/-- A tooling command that ends leaves its core, and its status comes to its token. -/
theorem toolEnd_ends (h : SameTools s t core) (status info : Nat) :
    ToolEnds s (t.toolEnd core k status info) core k status info := by
  obtain ⟨agents, tools⟩ := h
  refine ⟨fun j => ?_, TokenGiven.of_agents ?_⟩
  · unfold State.toolEnd
    rw [State.trace_core, State.core_modAgent, State.core_modCore, if_pos rfl, tools, List.mem_filter, bne_iff_ne]
  · unfold State.toolEnd
    rw [State.trace_agents, ← agents]
    rfl

theorem toolEnd_keepsBufs (t : State) (core : Nat) (k : Tool) (status info : Nat) :
    KeepsBufs t (t.toolEnd core k status info) := by
  obtain ⟨gangs, ways⟩ := KeepsBufs.modTools t core fun l => l.filter fun j => j.id != k.id
  refine ⟨State.trace_gangs .., fun c => ?_⟩
  unfold State.toolEnd
  rw [State.trace_core, State.core_modAgent]
  exact ways c

theorem toolEnd_bytes (h : Untraced t k.issuer.tenant) (core status info : Nat) :
    SameBytes t (t.toolEnd core k status info) := by
  unfold State.toolEnd
  rw [State.trace_untraced]
  · exact fun _ => rfl
  · exact Untraced.congr h rfl

/-- A chunk of a tooling command is done: with a bad source the command ends with status 3, at its last chunk with 0, or 4 and the
count where values were saturated; else the next chunk follows. -/
def ToolMoves (s u : State) (core : Nat) (k : Tool) (sat : Nat) (bad : Bool) : Prop :=
  if bad then ToolEnds s u core k 3 k.chunk
  else if k.len ≤ (k.chunk + 1) * 4096 then ToolEnds s u core k (if k.sat + sat > 0 then 4 else 0) (k.sat + sat)
  else u.agents = s.agents ∧ (u.tool? core k.id).map (fun j => (j.chunk, j.sat)) = some (k.chunk + 1, k.sat + sat)

/-- What a chunk that is done leaves of its command. -/
def State.toolStep (t : State) (core : Nat) (k : Tool) (sat : Nat) (bad : Bool) : State :=
  if bad then t.toolEnd core k 3 k.chunk
  else if (k.chunk + 1) * 4096 ≥ k.len then t.toolEnd core k (if k.sat + sat > 0 then 4 else 0) (k.sat + sat)
  else t.modTool core k.id fun j => { j with chunk := j.chunk + 1, sat := k.sat + sat, stopped := false }

theorem toolStep_moves (h : SameTools s t core) (there : s.tool? core k.id = some k) (sat : Nat) (bad : Bool) :
    ToolMoves s (t.toolStep core k sat bad) core k sat bad := by
  unfold State.toolStep ToolMoves
  cases bad with
  | true => exact toolEnd_ends h 3 k.chunk
  | false =>
    simp only [Bool.false_eq_true, if_false]
    by_cases last : k.len ≤ (k.chunk + 1) * 4096
    · rw [if_pos last, if_pos last]
      exact toolEnd_ends h ..
    · rw [if_neg last, if_neg last, State.tool?_modTool, h.tool?, there]
      · exact ⟨h.1, rfl⟩
      · exact fun _ => rfl

theorem toolStep_keepsBufs (t : State) (core : Nat) (k : Tool) (sat : Nat) (bad : Bool) :
    KeepsBufs t (t.toolStep core k sat bad) := by
  unfold State.toolStep
  split
  · exact toolEnd_keepsBufs ..
  · split
    · exact toolEnd_keepsBufs ..
    · exact KeepsBufs.modTools ..

theorem toolStep_bytes (h : Untraced t k.issuer.tenant) (core sat : Nat) (bad : Bool) :
    SameBytes t (t.toolStep core k sat bad) := by
  unfold State.toolStep
  split
  · exact toolEnd_bytes h core 3 k.chunk
  · split
    · exact toolEnd_bytes h core _ _
    · exact fun _ => rfl

end Ends

end Sys2Proof.Machine
end

section
/-! PROOF of `ToolsRewriteChunks` (O29): a chunk of any kind is one write to its buffer, with the marks of a bad source, and then
the command's end or its next chunk. A quantise first passes over its scales. -/

namespace Sys2Proof.Machine

open Sys2Proof.Claim

/-! ## A chunk -/

/-- The buffer of a tooling command, and the range of it that its chunk covers. These names, `toolScales` and `toolBreaks`
are reducible, so that `simp` finds in the model's step what is known under them. -/
abbrev Tool.place (core : Nat) (k : Tool) : BufAt := ⟨k.gang, k.pos, core, k.buf⟩
abbrev Tool.chunkOff (k : Tool) : Nat := k.off + 4096 * k.chunk
abbrev Tool.chunkLen (k : Tool) : Nat := min 4096 (k.len - 4096 * k.chunk)

/-- What a chunk writes, once its scales have been read (R238). -/
def State.toolCells (s : State) (core : Nat) (k : Tool) (scales : List Byte) : List (Nat × Byte) × Nat × Nat × Nat :=
  Claim.toolCells k scales (s.bufBytes (k.place core) k.chunkOff k.chunkLen)

/-- A granule of the chunk's source is marked; zeroing has no source. -/
def State.toolSourceBad (s : State) (core : Nat) (k : Tool) : Bool :=
  match k.kind with
  | .zero => false
  | _ => s.bufAnyMark (k.place core) k.chunkOff k.chunkLen

/-- The pass over the scales of a quantising chunk. -/
abbrev State.toolScales (s : State) (core : Nat) (k : Tool) (lb st : Nat) (scl : DWord) : State × List Xlat × Pass :=
  locate (toolOrigin core k.buf).req core (s.cmdTenant k.gang) 1 .read
    ((4096 * k.chunk / typeBytes st + k.chunkLen / typeBytes st - 1) / 2 ^ lb - 4096 * k.chunk / typeBytes st / 2 ^ lb + 1)
    (scl + BitVec.ofNat 64 (4096 * k.chunk / typeBytes st / 2 ^ lb)) s

/-- An engine breakpoint meets a command that has not started (R323). -/
abbrev State.toolBreaks (s : State) (k : Tool) : Bool :=
  k.chunk == 0 && !k.stopped && !k.released && ((s.agent? k.agent).map fun x => s.engineBreak x 1 k.seq).getD false

/-- A tooling command that may go on, for a tenant that does not trace. -/
structure ToolRuns (s : State) (core : Nat) (k : Tool) : Prop where
  there : s.tool? core k.id = some k
  goes : k.cancel = false
  free : k.held = false
  unsaved : s.saving k.gang = false
  older : s.olderDone k.agent k.after = true
  untraced : Untraced s k.issuer.tenant

section Chunk
variable {s s1 t : State} {core : Nat} {k : Tool}

theorem ToolRuns.trace (h : ToolRuns s core k) (ev : TraceEv) (st : Nat) : s.trace (k.name core) ev st = s :=
  State.trace_untraced (c := k.name core) h.untraced ev st

theorem State.toolBreaks_true {x : Agent} (hx : s.agent? k.agent = some x) (hc : k.chunk = 0) (hs : k.stopped = false)
    (hr : k.released = false) (hb : s.engineBreak x 1 k.seq = true) : s.toolBreaks k = true := by
  simp [hx, hc, hs, hr, hb]

theorem State.toolBreaks_false (h : k.chunk = 0 → k.stopped = false → k.released = false →
    ∀ x, s.agent? k.agent = some x → s.engineBreak x 1 k.seq = false) : s.toolBreaks k = false := by
  rw [← Bool.not_eq_true]
  intro hb
  simp only [Bool.and_eq_true, beq_iff_eq, Bool.not_eq_true'] at hb
  obtain ⟨⟨⟨hc, hs⟩, hr⟩, hx⟩ := hb
  cases hagent : s.agent? k.agent with
  | none => simp [hagent] at hx
  | some x => simp [hagent, h hc hs hr x hagent] at hx

theorem execToolChunk_cancelled (there : s.tool? core k.id = some k) (hc : k.cancel = true) :
    exec (.toolChunk core k.id) s = .next (s.toolEnd core k 1 k.chunk) := by
  show execToolChunk core k.id s = _
  unfold execToolChunk
  simp only [there, hc, if_true]

/-- The command held by a breakpoint. -/
def State.toolHeld (s : State) (core : Nat) (k : Tool) (x : Agent) : State :=
  (s.modTool core k.id fun j => { j with held := true }).reportHeld x k.seq (engineId 1 core (bufCode k.buf))

theorem execToolChunk_breaks (h : ToolRuns s core k) (hb : s.toolBreaks k = true) {x : Agent}
    (hx : s.agent? k.agent = some x) : exec (.toolChunk core k.id) s = .next (s.toolHeld core k x) := by
  show execToolChunk core k.id s = _
  rw [State.toolBreaks, hx] at hb
  unfold execToolChunk
  simp only [h.there, h.goes, h.free, h.unsaved, h.older, hx, hb, Bool.not_true, Bool.false_eq_true, or_self, if_false, if_true]
  rfl

/-- A tooling command that a breakpoint holds is reported with its number. -/
theorem toolHeld_spec (s : State) (core : Nat) (k : Tool) (x : Agent) :
    SameBytes s (s.toolHeld core k x) ∧ (s.toolHeld core k x).agents = s.agents ∧
      ((s.toolHeld core k x).core core).tools =
        (s.core core).tools.map (fun j => if j.id = k.id then { j with held := true } else j) ∧
      ∃ r, ((s.toolHeld core k x).tenant x.ident.tenant).reports = (s.tenant x.ident.tenant).reports ++ [r] ∧
        HeldReport s x k.seq r :=
  ⟨fun _ => rfl, rfl, s.modTool_tools core k.id _,
    State.reportHeld_reports (s.modTool core k.id fun j => { j with held := true }) x k.seq (engineId 1 core (bufCode k.buf))⟩

/-! ## What each kind of chunk does (R238) -/

/-- A chunk's write, and then the command's end or its next chunk. -/
def State.toolWritten (t : State) (core : Nat) (k : Tool) (r : List (Nat × Byte) × Nat × Nat × Nat) (bad : Bool) : State :=
  t.toolNext core k (k.place core) r.1 r.2.1 r.2.2.1 bad r.2.2.2

section Go
variable (h : ToolRuns s core k) (hb : s.toolBreaks k = false)
  (hfree : s.bankTaken (k.place core) k.chunkOff k.chunkLen = false)
include h hb hfree

/-- A chunk that needs no scales. -/
theorem execToolChunk_plain (hkind : ∀ lb rm dt st scl, k.kind ≠ .quant lb rm dt st scl) (scales : List Byte) :
    exec (.toolChunk core k.id) s =
      .next (s.toolWritten core k (s.toolCells core k scales) (s.toolSourceBad core k)) := by
  show execToolChunk core k.id s = _
  unfold execToolChunk State.toolWritten State.toolCells Claim.toolCells State.toolSourceBad
  simp only [h.there, h.goes, h.free, h.unsaved, h.older, hb, hfree, h.trace, Bool.not_true, Bool.false_eq_true, or_self,
    if_false, ite_self]
  cases hk : k.kind with
  | quant lb rm dt st scl => exact absurd hk (hkind lb rm dt st scl)
  | xpose z => rfl
  | cvt src dst rm => rfl
  | zero => rfl
  | rsum row => rfl

variable {lb rm dt st : Nat} {scl : DWord} {ys : List Xlat} (hkind : k.kind = .quant lb rm dt st scl)
include hkind

theorem execToolChunk_scaleFault {code : Nat} (hs : s.toolScales core k lb st scl = (s1, ys, .fault code)) :
    exec (.toolChunk core k.id) s = .next (s1.toolEnd core k 2 k.chunk) := by
  show execToolChunk core k.id s = _
  unfold execToolChunk scalesFrom
  simp only [h.there, h.goes, h.free, h.unsaved, h.older, hb, hfree, h.trace, hkind, hs, Bool.not_true, Bool.false_eq_true,
    or_self, if_false, ite_self]

/-- A quantising chunk whose scales have been read. -/
theorem execToolChunk_quant (hs : s.toolScales core k lb st scl = (s1, ys, .done)) (hlink : s1.linkLost = false)
    (hheld : ∀ y ∈ ys, s1.reachHeld (core / 40) .any y.key = false) :
    exec (.toolChunk core k.id) s =
      .next ((s1.homeReads (toolOrigin core k.buf) (dieOfCore core) (ys.map fun y => (y, 1))).toolWritten core k
        (s.toolCells core k (ys.map fun y => s1.byte y.key))
        (s.toolSourceBad core k || ys.any fun y => s1.marked y.key 1)) := by
  show execToolChunk core k.id s = _
  have held : (ys.any fun y => s1.reachHeld (dieOfCore core) .any y.key) = false := by
    rw [List.any_eq_false]
    exact fun y hy => by simpa [dieOfCore] using hheld y hy
  have lost : ys.any s1.loses = false := by
    rw [List.any_eq_false]
    unfold State.loses
    simp [hlink]
  unfold execToolChunk scalesFrom
  simp only [h.there, h.goes, h.free, h.unsaved, h.older, hb, hfree, h.trace, hkind, hs, held, lost, Bool.not_true,
    Bool.false_eq_true, or_self, if_false, ite_self]
  unfold State.toolWritten State.toolCells Claim.toolCells State.toolSourceBad
  simp only [hkind]

end Go

/-! ## What a chunk leaves -/

/-- The write of a chunk with the marks of a bad source. -/
def State.toolBring (t : State) (p : BufAt) (cells : List (Nat × Byte)) (off len : Nat) (bad : Bool) : State :=
  if bad then (t.bufWrite p cells).bufMarkRows p off len else t.bufWrite p cells

theorem State.toolWritten_eq (t : State) (core : Nat) (k : Tool) (r : List (Nat × Byte) × Nat × Nat × Nat) (bad : Bool) :
    t.toolWritten core k r bad = (t.toolBring (k.place core) r.1 r.2.1 r.2.2.1 bad).toolStep core k r.2.2.2 bad := by
  unfold State.toolWritten State.toolNext State.toolBring State.toolStep
  cases bad <;> rfl

section Bring
variable (t : State) (p : BufAt) (cells : List (Nat × Byte)) (off len : Nat) (bad : Bool)

theorem State.toolBring_inBufs : InBufs t (t.toolBring p cells off len bad) := by
  unfold State.toolBring
  split
  · exact (InBufs.write ..).trans (.markRows ..)
  · exact .write ..

theorem State.toolBring_tools (core : Nat) : SameTools t (t.toolBring p cells off len bad) core := by
  unfold State.toolBring
  split
  · exact (SameTools.write ..).trans (.markRows ..)
  · exact .write ..

theorem State.toolBring_buffers : SameBuffers (t.bufWrite p cells) (t.toolBring p cells off len bad) := by
  unfold State.toolBring
  split
  · exact .markRows ..
  · exact .refl _

/-- Every row of the range is marked where the source is bad. -/
theorem State.toolBring_marks {row : Nat} (hg : (t.gang? p.gang).isSome = true) (h : row ∈ rowsOf off len) :
    (t.toolBring p cells off len true).bufMarked p row = true := by
  unfold State.toolBring
  rw [if_pos rfl, State.bufMarked_eq, State.slotMark_bufMarkRows, if_pos]
  rw [State.slotThere_bufWrite]
  exact ⟨List.mem_map_of_mem h, State.slotThere_of_gang hg row⟩

end Bring

/-- What a chunk leaves that writes these cells after its pass over the scales: no byte of memory changes, its buffer takes the
cells, a bad source marks the rows of the range, and the command moves. -/
def ChunkRewritten (s s1 u : State) (core : Nat) (k : Tool) (r : List (Nat × Byte) × Nat × Nat × Nat) (bad : Bool) : Prop :=
  SameBytes s u ∧
  (∀ q off, u.bufByte q off = (s1.bufWrite (k.place core) r.1).bufByte q off) ∧
  (bad = true → (s.gang? k.gang).isSome = true → ∀ row, r.2.1 / 32 ≤ row → row < (r.2.1 + r.2.2.1 + 31) / 32 →
    u.bufMarked (k.place core) row = true) ∧
  (bad = false → ∀ q row, u.bufMarked q row = (s1.bufWrite (k.place core) r.1).bufMarked q row) ∧
  ToolMoves s u core k r.2.2.2 bad

theorem toolWritten_rewrites (h : ToolRuns s core k) (hw : SameButWalks s s1) (ht : SameButHomes s1 t)
    (r : List (Nat × Byte) × Nat × Nat × Nat) (bad : Bool) :
    ChunkRewritten s s1 (t.toolWritten core k r bad) core k r bad := by
  have walks := hw.trans ht.walks
  have bring := t.toolBring_inBufs (k.place core) r.1 r.2.1 r.2.2.1 bad
  have keeps := toolStep_keepsBufs (t.toolBring (k.place core) r.1 r.2.1 r.2.2.1 bad) core k r.2.2.2 bad
  rw [State.toolWritten_eq]
  refine ⟨fun a => ?_, fun q o => ?_, fun hbad hg row lo hi => ?_, fun hbad q row => ?_, ?_⟩
  · have untraced : Untraced (t.toolBring (k.place core) r.1 r.2.1 r.2.2.1 bad) k.issuer.tenant :=
      Untraced.congr h.untraced (by obtain ⟨_, _, e⟩ := bring; rw [e]; exact walks.tenants)
    exact (toolStep_bytes untraced core _ _ a).trans (State.byte_congr (bring.mem.trans walks.mem) a)
  · rw [keeps.buffers.bufByte, (State.toolBring_buffers ..).bufByte, ((KeepsBufs.homes ht).buffers.write ..).bufByte]
  · have there : (t.gang? k.gang).isSome = true := by
      unfold State.gang? at hg ⊢
      rw [walks.gangs]
      exact hg
    rw [keeps.bufMarked, hbad]
    exact t.toolBring_marks (k.place core) r.1 r.2.1 r.2.2.1 there ((mem_rowsOf ..).mpr ⟨lo, hi⟩)
  · rw [keeps.bufMarked, hbad]
    exact (KeepsBufs.homes ht).bufMarked_write ..
  · exact toolStep_moves ((SameTools.walks walks).trans (State.toolBring_tools ..)) h.there ..

theorem State.toolScales_walks {lb st : Nat} {scl : DWord} {ys : List Xlat} {ps : Pass}
    (hs : s.toolScales core k lb st scl = (s1, ys, ps)) : SameButWalks s s1 := by
  have pass : (s.toolScales core k lb st scl).1 = s1 := congrArg Prod.fst hs
  rw [← pass]
  exact locate_walks ..

/-- A scale that faults ends the command with status 2 after nothing of the chunk. -/
theorem tool_faults (h : ToolRuns s core k) (hw : SameButWalks s s1) :
    SameBytes s (s1.toolEnd core k 2 k.chunk) ∧ ToolEnds s (s1.toolEnd core k 2 k.chunk) core k 2 k.chunk :=
  ⟨fun a => (toolEnd_bytes (Untraced.congr h.untraced hw.tenants) core 2 k.chunk a).trans (State.byte_congr hw.mem a),
    toolEnd_ends (.walks hw) 2 k.chunk⟩

/-- The chunk's scales have been read, if its kind takes any: their bytes, whether one of them is marked, and the state after the
pass over them. -/
def ScalesRead (s s1 : State) (core : Nat) (k : Tool) (scales : List Byte) (sbad : Bool) : Prop :=
  match k.kind with
  | .quant lb _ _ st scl =>
    ∃ ys, s.toolScales core k lb st scl = (s1, ys, .done) ∧ s.linkLost = false ∧
      (∀ y ∈ ys, s1.reachHeld (core / 40) .any y.key = false) ∧
      scales = (ys.map fun y => s1.byte y.key) ∧ sbad = ys.any fun y => s1.marked y.key 1
  | _ => s1 = s ∧ sbad = false

theorem ScalesRead.plain {scales : List Byte} {sbad : Bool} (h : ScalesRead s s1 core k scales sbad)
    (hkind : ∀ lb rm dt st scl, k.kind ≠ .quant lb rm dt st scl) : s1 = s ∧ sbad = false := by
  unfold ScalesRead at h
  split at h
  · next hk => exact (hkind _ _ _ _ _ hk).elim
  · exact h

theorem ScalesRead.quant {scales : List Byte} {sbad : Bool} (h : ScalesRead s s1 core k scales sbad)
    {lb rm dt st : Nat} {scl : DWord} (hkind : k.kind = .quant lb rm dt st scl) :
    ∃ ys, s.toolScales core k lb st scl = (s1, ys, .done) ∧ s.linkLost = false ∧
      (∀ y ∈ ys, s1.reachHeld (core / 40) .any y.key = false) ∧
      scales = (ys.map fun y => s1.byte y.key) ∧ sbad = ys.any fun y => s1.marked y.key 1 := by
  unfold ScalesRead at h
  rw [hkind] at h
  exact h

/-- A chunk that nothing holds is rewritten, of whatever kind it is. -/
theorem chunk_rewritten (h : ToolRuns s core k) (hb : s.toolBreaks k = false)
    (hfree : s.bankTaken (k.place core) k.chunkOff k.chunkLen = false) {scales : List Byte} {sbad : Bool}
    (hread : ScalesRead s s1 core k scales sbad) :
    ∃ u, exec (.toolChunk core k.id) s = .next u ∧
      ChunkRewritten s s1 u core k (s.toolCells core k scales) (s.toolSourceBad core k || sbad) := by
  by_cases hkind : ∃ lb rm dt st scl, k.kind = .quant lb rm dt st scl
  · obtain ⟨lb, rm, dt, st, scl, hkind⟩ := hkind
    obtain ⟨ys, hs, hlink, hheld, rfl, rfl⟩ := hread.quant hkind
    have hw := State.toolScales_walks hs
    have link : s1.linkLost = false := by
      obtain ⟨⟨_, _, _, _, _, rfl⟩, -⟩ := hw
      exact hlink
    exact ⟨_, execToolChunk_quant h hb hfree hkind hs link hheld, toolWritten_rewrites h hw (.homeReads ..) ..⟩
  · have plain : ∀ lb rm dt st scl, k.kind ≠ .quant lb rm dt st scl :=
      fun lb rm dt st scl hk => hkind ⟨lb, rm, dt, st, scl, hk⟩
    obtain ⟨rfl, rfl⟩ := hread.plain plain
    rw [Bool.or_false]
    exact ⟨_, execToolChunk_plain h hb hfree plain scales, toolWritten_rewrites h (.refl _) (.rfl' _) ..⟩

end Chunk

/-! ## The statement -/

/-- Settles O29: `toolWritten_rewrites` says of every kind of chunk what its write and the command's end or next chunk leave, and
`chunk_rewritten` that each kind is such a write. -/
theorem toolsRewriteChunks : Obligations.ToolsRewriteChunks := by
  unfold Obligations.ToolsRewriteChunks
  intro s core cmd k there untraced
  obtain rfl : k.id = cmd := by simpa using List.find?_some there
  refine ⟨fun hc => ?_, fun goes free unsaved older => ?_⟩
  · exact ⟨_, execToolChunk_cancelled there hc, toolEnd_ends ⟨rfl, rfl⟩ 1 k.chunk, toolEnd_bytes untraced core 1 k.chunk⟩
  have runs : ToolRuns s core k := ⟨there, goes, free, unsaved, older, untraced⟩
  refine ⟨fun x hx hc hs hr hb => ?_, fun unbroken => ?_⟩
  · exact ⟨_, execToolChunk_breaks runs (State.toolBreaks_true hx hc hs hr hb) hx, toolHeld_spec s core k x⟩
  have starts := State.toolBreaks_false unbroken
  intro p lo len src hfree scale
  refine ⟨?_, ?_⟩
  · intro lb rm dt st scl s1 ys code hkind hs
    exact ⟨_, execToolChunk_scaleFault runs starts hfree hkind hs, tool_faults runs (State.toolScales_walks hs)⟩
  · intro scales sbad s1 hread
    exact chunk_rewritten runs starts hfree hread

end Sys2Proof.Machine
end

section
/-! PROOF of `MixerFollowsItsFormula` (O60). -/

namespace Sys2Proof.Machine

open Sys2Proof.Claim

/-- A word combined with itself shifted down, as a natural. -/
theorem toNat_xor_ushiftRight (x : Word) (n : Nat) : (x ^^^ (x >>> n)).toNat = Nat.xor x.toNat (x.toNat / 2 ^ n) := by
  rw [BitVec.toNat_xor, BitVec.toNat_ushiftRight, Nat.shiftRight_eq_div_pow]; rfl

/-- Settles O60: each line of the formula is one operation of the mixer, read as a natural. -/
theorem mixerFollowsItsFormula : Obligations.MixerFollowsItsFormula := by
  intro seed hop
  have hx : (seed ^^^ (hop * 0x9E3779B9#32)).toNat = Nat.xor seed.toNat (hop.toNat * 0x9E3779B9 % 4294967296) := by
    rw [BitVec.toNat_xor, BitVec.toNat_mul]; rfl
  unfold mixer
  rw [toNat_xor_ushiftRight, BitVec.toNat_mul, toNat_xor_ushiftRight, BitVec.toNat_mul, toNat_xor_ushiftRight, hx]
  simp only [BitVec.toNat_ofNat, Nat.reducePow, Nat.reduceMod]

end Sys2Proof.Machine
end

section
/-! PROOF of `MemoryStaysCanonical` (O54): the operations on the state. Each leaves memory as it was or writes it through
`State.write`, which keeps the canonical form. -/

namespace Sys2Proof.Machine

open Sys2Proof.Claim

/-- A fold of updates each of which keeps the canonical form. -/
theorem foldl_wf {α : Type} (f : State → α → State) (hf : ∀ s a, Memory.wf s.mem = true → Memory.wf (f s a).mem = true)
    (l : List α) (s : State) (h : Memory.wf s.mem = true) : Memory.wf (l.foldl f s).mem = true := by
  induction l generalizing s with
  | nil => exact h
  | cons a t ih => exact ih _ (hf s a h)

@[simp] theorem State.devWrite_wf (s : State) (pa : Nat) (bs : List Byte) (h : Memory.wf s.mem = true) :
    Memory.wf (s.devWrite pa bs).mem = true := State.write_wf _ _ h

@[simp] theorem State.takeTrap_mem (s : State) (a : Nat) (c : Cause) (fetchable : Bool) (pc : DWord) :
    (s.takeTrap a c fetchable pc).mem = s.mem := by
  unfold State.takeTrap
  repeat' split
  all_goals simp

@[simp] theorem State.queueError_mem (s : State) (t : Nat) : (s.queueError t).mem = s.mem := by
  unfold State.queueError
  split <;> rfl

@[simp] theorem State.linkError_mem (s : State) (t : Nat) : (s.linkError t).mem = s.mem := by
  unfold State.linkError
  split <;> rfl

@[simp] theorem State.linkGone_mem (s : State) (t n : Nat) : (s.linkGone t n).mem = s.mem := by
  unfold State.linkGone
  simp

@[simp] theorem State.quiesce_mem (s : State) (a : Nat) : (s.quiesce a).mem = s.mem := by
  unfold State.quiesce
  split <;> rfl

@[simp] theorem Ctx.fault_mem (c : Ctx) (f : Flt) : (c.fault f).mem = c.st.mem := rfl

@[simp] theorem Ctx.finish_mem (c : Ctx) (n : Nat) (f : Agent → Agent) : (c.finish n f).mem = c.st.mem := rfl

@[simp] theorem Ctx.wait_mem (c : Ctx) : c.wait.mem = c.st.mem := rfl

@[simp] theorem Ctx.waitOn_mem (c : Ctx) (us : List Use) : (c.waitOn us).mem = c.st.mem := by
  unfold Ctx.waitOn
  split <;> rfl

@[simp] theorem Ctx.putV_mem (c : Ctx) (d : Opnd) (wide : Bool) (f : Nat → FRes) :
    (c.putV d wide f).mem = c.st.mem := rfl

@[simp] theorem Ctx.putS_mem (c : Ctx) (d : Opnd) (wide : Bool) (v : FRes) : (c.putS d wide v).mem = c.st.mem := rfl

@[simp] theorem Ctx.putP_mem (c : Ctx) (d : Opnd) (f : Nat → Bool × FFlags) : (c.putP d f).mem = c.st.mem := rfl

@[simp] theorem State.translate_mem (s : State) (core tenant : Nat) (va : DWord) (w : Want) :
    (s.translate core tenant va w).1.mem = s.mem := by
  obtain ⟨_, _, h⟩ := State.translate_only s core tenant va w; rw [h]

@[simp] theorem State.translateDie_mem (s : State) (die tenant : Nat) (va : DWord) (w : Want) :
    (s.translateDie die tenant va w).1.mem = s.mem := by
  obtain ⟨_, h⟩ := State.translateDie_only s die tenant va w; rw [h]

@[simp] theorem State.hbmAsk_mem (s : State) (o : Origin) (line : Nat) (mask : BitVec 8) (write alloc coded : Bool) :
    (s.hbmAsk o line mask write alloc coded).mem = s.mem := (SameButHomes.hbmAsk ..).mem

@[simp] theorem State.ownHost_mem (s : State) (k : Nat) : (s.ownHost k).mem = s.mem := rfl

@[simp] theorem State.l2Room_mem (s : State) (k : Nat) (victim : Option Nat) :
    (s.l2Room k victim).mem = s.mem := (SameButHomes.l2Room ..).mem

@[simp] theorem State.homeReads_mem (s : State) (o : Origin) (die : Nat) (acc : List (Xlat × Nat)) :
    (s.homeReads o die acc).mem = s.mem := (SameButHomes.homeReads ..).mem

@[simp] theorem State.dieWalkAsks_mem (s : State) (req die tenant : Nat) (va : DWord) :
    (s.dieWalkAsks req die tenant va).mem = s.mem := (SameButHomes.dieWalkAsks ..).mem

@[simp] theorem State.walkAsks_mem (s : State) (req core tenant : Nat) (va : DWord) :
    (s.walkAsks req core tenant va).mem = s.mem := (SameButHomes.walkAsks ..).mem

@[simp] theorem State.homeWrites_mem (s : State) (o : Origin) (die : Nat) (xs : List Xlat) (cells : List (Nat × Byte)) :
    (s.homeWrites o die xs cells).mem = s.mem := (SameButHomes.homeWrites ..).mem

@[simp] theorem State.translateFor_mem (s : State) (req core tenant : Nat) (va : DWord) (w : Want) :
    (s.translateFor req core tenant va w).1.mem = s.mem := by
  unfold State.translateFor
  simp

@[simp] theorem State.icacheFill_mem (s : State) (core part line : Nat) (drop : Option Nat) (bits : BitVec 1024) :
    (s.icacheFill core part line drop bits).mem = s.mem := rfl

@[simp] theorem State.codeFill_mem (s : State) (p : Place) (t : Nat) (x : Xlat) (drop : Option Nat) :
    (s.codeFill p t x drop).mem = s.mem := by
  unfold State.codeFill
  split <;> simp

@[simp] theorem State.iread_mem (s : State) (p : Place) (t : Nat) (x : Xlat) (n : Nat) :
    (s.iread p t x n).1.mem = s.mem := by
  unfold State.iread
  dsimp only
  split <;> simp

@[simp] theorem State.fetchWord_mem (s : State) (p : Place) (tenant : Nat) (va : DWord) :
    (s.fetchWord p tenant va).1.mem = s.mem := by
  have h := s.translateFor_mem (reqOf p) p.core tenant va .fetch
  unfold State.fetchWord
  split
  · next e => rw [e] at h; exact h
  · next e => rw [e] at h; split <;> exact h

@[simp] theorem State.fetch_mem (s : State) (p : Place) (tenant : Nat) (pc : DWord) :
    (s.fetch p tenant pc).1.mem = s.mem := by
  have h := s.fetchWord_mem p tenant pc
  unfold State.fetch
  split
  · next e => rw [e] at h; exact h
  · next s1 w0 e =>
    rw [e] at h
    have h2 := s1.fetchWord_mem p tenant (pc + 8#64)
    split
    · split
      · next e2 => rw [e2] at h2; exact h2.trans h
      · next e2 => rw [e2] at h2; exact h2.trans h
    · exact h

@[simp] theorem State.fetchable_mem (s : State) (x : Agent) (va : DWord) : (s.fetchable x va).1.mem = s.mem := by
  have h := s.translateFor_mem ((x.place.map reqOf).getD 0) x.core x.ident.tenant va .fetch
  unfold State.fetchable
  split
  · next e => rw [e] at h; exact h
  · next e => rw [e] at h; exact h

@[simp] theorem State.trapAgent_mem (s : State) (a : Nat) (x : Agent) (c : Cause) (pc : DWord) :
    (s.trapAgent a x c pc).mem = s.mem := by
  unfold State.trapAgent
  split <;> simp

@[simp] theorem State.callHeader_mem (s : State) (p : Place) (tenant : Nat) (va : DWord) :
    (s.callHeader p tenant va).1.mem = s.mem := by
  have h1 := s.translateFor_mem (reqOf p) p.core tenant (va - 16#64) .fetch
  unfold State.callHeader
  dsimp only
  split
  · next e => rw [e] at h1; exact h1
  · next s1 x e =>
    rw [e] at h1
    have h2 := (s1.iread p tenant x 8).1.translateFor_mem (reqOf p) p.core tenant (va - 8#64) .fetch
    rw [State.iread_mem, h1] at h2
    split
    · exact h1
    · split
      · next e2 => rw [e2] at h2; exact h2
      · next e2 =>
        rw [e2] at h2
        dsimp only at h2
        repeat' split
        all_goals simp [h2]

@[simp] theorem Ctx.launchOp_mem (c : Ctx) (sampBit : Nat) (mk : Nat → Nat → Bool → MemOp) :
    (c.launchOp sampBit mk).mem = c.st.mem := by
  unfold Ctx.launchOp
  split
  · simp
  · dsimp only; split <;> simp

@[simp] theorem Ctx.launchBuf_mem (c : Ctx) (store : Bool) (k : LdKind) (b : Buf) (vector : Bool) (dst : Option Opnd)
    (lanes : List BufLane) :
    (c.launchBuf store k b vector dst lanes).mem = c.st.mem := by
  unfold Ctx.launchBuf
  repeat' split
  all_goals simp

@[simp] theorem Ctx.holdAs_mem (c : Ctx) (h : Hold) : (c.holdAs h).mem = c.st.mem := rfl

@[simp] theorem State.fillL1_mem (s : State) (core line way : Nat) : (s.fillL1 core line way).mem = s.mem := by
  unfold State.fillL1
  dsimp only
  split <;> simp

@[simp] theorem State.cancelAbove_mem (s : State) (core n : Nat) : (s.cancelAbove core n).mem = s.mem := rfl

@[simp] theorem Ctx.jump_mem (c : Ctx) (n : Nat) (m : Lanes) (tgt : Nat → DWord) (f : Agent → Agent) :
    (c.jump n m tgt f).mem = c.st.mem := rfl

@[simp] theorem readTable_mem (p : Place) (tenant : Nat) (addr : Nat → DWord) (ls : List Nat) (s : State) :
    (readTable p tenant addr ls s).1.mem = s.mem := by
  induction ls generalizing s with
  | nil => rfl
  | cons l t ih =>
    have h1 := s.translateFor_mem (reqOf p) p.core tenant (addr l) .fetch
    unfold readTable
    split
    · next e => rw [e] at h1; exact h1
    · next s1 x e =>
      rw [e] at h1
      have h2 := (ih (s1.iread p tenant x 4).1).trans ((State.iread_mem ..).trans h1)
      split
      · exact h1
      · dsimp only
        split
        · next e2 => rw [e2] at h2; exact h2
        · exact h2

@[simp] theorem State.gangEnded_mem (s : State) (g : Nat) : (s.gangEnded g).mem = s.mem := by
  unfold State.gangEnded
  split
  · rfl
  · dsimp only
    split
    · rfl
    · split <;> rfl

@[simp] theorem State.drainCheck_mem (s : State) (t : Nat) : (s.drainCheck t).mem = s.mem := by
  unfold State.drainCheck
  split <;> rfl

@[simp] theorem State.gangCheck_mem (s : State) (g : Nat) : (s.gangCheck g).mem = s.mem := by
  unfold State.gangCheck
  repeat' split
  all_goals simp

@[simp] theorem State.endAgent_mem (s : State) (a : Nat) : (s.endAgent a).mem = s.mem := by
  unfold State.endAgent
  repeat' split
  all_goals simp

@[simp] theorem Ctx.endLanes_mem (c : Ctx) : c.endLanes.mem = c.st.mem := by
  unfold Ctx.endLanes
  dsimp only
  split <;> simp

@[simp] theorem callHeaders_mem (p : Place) (tenant : Nat) (ls : List (DWord × Nat)) (s : State) :
    (callHeaders p tenant ls s).1.mem = s.mem := by
  induction ls generalizing s with
  | nil => rfl
  | cons e t ih =>
    obtain ⟨va, l⟩ := e
    have h1 := s.callHeader_mem p tenant va
    unfold callHeaders
    split
    · next e => rw [e] at h1; exact h1
    · next e => rw [e] at h1; exact h1
    · next e => rw [e] at h1; exact h1
    · next s1 b e =>
      rw [e] at h1
      have h2 := (ih s1).trans h1
      split
      · next e2 => rw [e2] at h2; exact h2
      · exact h2

@[simp] theorem Ctx.callEffect_mem (c : Ctx) (nsave : Nat) (tgt : Nat → DWord) (cont : DWord) (targets budgets : List Nat) :
    (c.callEffect nsave tgt cont targets budgets).mem = c.st.mem := by
  unfold Ctx.callEffect
  simp

@[simp] theorem Ctx.parkLanes_mem (c : Ctx) (line bar clocks : Option Nat) :
    (c.parkLanes line bar clocks).mem = c.st.mem := rfl

@[simp] theorem State.ringPut_wf (s : State) (samp : Bool) (tenant : Nat) (rec : List Byte) (h : Memory.wf s.mem = true) :
    Memory.wf (s.ringPut samp tenant rec).mem = true := by
  unfold State.ringPut
  cases samp <;> dsimp only <;> repeat' split
  all_goals simp [h]

@[simp] theorem State.trace_wf (s : State) (c : CmdName) (ev : TraceEv) (status : Nat) (h : Memory.wf s.mem = true) :
    Memory.wf (s.trace c ev status).mem = true := by
  unfold State.trace
  dsimp only
  split
  · split
    · exact State.ringPut_wf _ _ _ _ h
    · exact State.ringPut_wf _ _ _ _ h
  · exact h

@[simp] theorem State.sampleOf_wf (s : State) (x : Agent) (born : Nat) (pc : DWord) (act : Lanes) (lanes : List
    (Nat × Nat)) (h : Memory.wf s.mem = true) :
    Memory.wf (s.sampleOf x born pc act lanes).mem = true := by
  unfold State.sampleOf
  split <;> simp [h]

@[simp] theorem State.reportHeld_mem (s : State) (x : Agent) (seq : Word) (engine : Nat) :
    (s.reportHeld x seq engine).mem = s.mem := rfl

@[simp] theorem State.setBufMark_mem (s : State) (p : BufAt) (row : Nat) (b : Bool) : (s.setBufMark p row b).mem = s.mem :=
  (InBufs.mark ..).mem

@[simp] theorem State.bufPut1_mem (s : State) (p : BufAt) (off : Nat) (b : Byte) : (s.bufPut1 p off b).mem = s.mem :=
  (InBufs.put ..).mem

@[simp] theorem State.bufWrite_mem (s : State) (p : BufAt) (cells : List (Nat × Byte)) : (s.bufWrite p cells).mem = s.mem :=
  (InBufs.write ..).mem

@[simp] theorem State.bufMarkRows_mem (s : State) (p : BufAt) (off len : Nat) : (s.bufMarkRows p off len).mem = s.mem :=
  (InBufs.markRows ..).mem

@[simp] theorem locate_mem (req core tenant k : Nat) (w : Want) (n : Nat) (va : DWord) (s : State) :
    (locate req core tenant k w n va s).1.mem = s.mem := (locate_walks ..).mem

@[simp] theorem State.engineWriteAt_wf (s : State) (o : Origin) (die k : Nat) (xs : List Xlat) (data : List Byte)
    (h : Memory.wf s.mem = true) : Memory.wf (s.engineWriteAt o die k xs data).mem = true := by
  unfold State.engineWriteAt
  simp [State.write_wf, h]

@[simp] theorem State.markAll_mem (s : State) (keys : List Nat) : (s.markAll keys).mem = s.mem :=
  foldl_keeps State.mem (fun s k => s.markGranule (k / 32)) (fun _ _ => rfl) keys s

@[simp] theorem Ctx.launchCopy_mem (c : Ctx) (kind : CopyKind) (q : Qual) (buf : Nat) (glob : DWord)
    (bytes token : Nat) (out : Bool) :
    (c.launchCopy kind q buf glob bytes token out).mem = c.st.mem := by
  unfold Ctx.launchCopy
  split <;> rfl

@[simp] theorem State.modCopy_mem (s : State) (core id : Nat) (f : Copy → Copy) :
    (s.modCopy core id f).mem = s.mem := rfl

@[simp] theorem State.copyEnd_wf (s : State) (core : Nat) (k : Copy) (status info : Nat) (h : Memory.wf s.mem = true) :
    Memory.wf (s.copyEnd core k status info).mem = true := by
  unfold State.copyEnd
  simp [h]

@[simp] theorem scalesFrom_mem (req core tenant : Nat) (scl : DWord) (b0 n : Nat) (s : State) :
    (scalesFrom req core tenant scl b0 n s).1.mem = s.mem := locate_mem ..

@[simp] theorem State.copyNext_wf (s : State) (core : Nat) (k : Copy) (sat : Nat) (h : Memory.wf s.mem = true) :
    Memory.wf (s.copyNext core k sat).mem = true := by
  unfold State.copyNext
  split <;> simp [h]

@[simp] theorem State.copyIntoBufs_wf (s : State) (core : Nat) (k : Copy) (off : Nat) (data : List Byte) (sat : Nat)
    (bad : Bool)
    (h : Memory.wf s.mem = true) : Memory.wf (s.copyIntoBufs core k off data sat bad).mem = true := by
  unfold State.copyIntoBufs
  cases bad with
  | true => exact State.copyEnd_wf _ _ _ _ _ (by rw [foldl_keeps State.mem _ (fun _ _ => by simp)]; exact h)
  | false => exact State.copyNext_wf _ _ _ _ (by rw [foldl_keeps State.mem _ (fun _ _ => by simp)]; exact h)

@[simp] theorem Ctx.launchTool_mem (c : Ctx) (kind : ToolKind) (b : Buf) (off len token : Nat) :
    (c.launchTool kind b off len token).mem = c.st.mem := by
  unfold Ctx.launchTool
  split <;> rfl

@[simp] theorem State.modTool_mem (s : State) (core id : Nat) (f : Tool → Tool) :
    (s.modTool core id f).mem = s.mem := rfl

@[simp] theorem State.toolEnd_wf (s : State) (core : Nat) (k : Tool) (status info : Nat) (h : Memory.wf s.mem = true) :
    Memory.wf (s.toolEnd core k status info).mem = true := by
  unfold State.toolEnd
  simp [h]

@[simp] theorem State.toolNext_wf (s : State) (core : Nat) (k : Tool) (p : BufAt) (cells : List (Nat × Byte))
    (markOff markLen : Nat) (bad : Bool) (sat : Nat) (h : Memory.wf s.mem = true) :
    Memory.wf (s.toolNext core k p cells markOff markLen bad sat).mem = true := by
  unfold State.toolNext
  repeat' split
  all_goals simp [h]

@[simp] theorem Ctx.accept_mem (c : Ctx) (kind : CmdKind) (fr : CmdFrame) (tiles : List (Option Tile))
    (pend : List Opnd) (f : Agent → Agent) :
    (c.accept kind fr tiles pend f).mem = c.st.mem := by
  unfold Ctx.accept
  repeat' split
  all_goals simp

@[simp] theorem State.modCmd_mem (s : State) (core id : Nat) (f : Cmd → Cmd) : (s.modCmd core id f).mem = s.mem := rfl

@[simp] theorem State.traceCmd_wf (s : State) (core : Nat) (k : Cmd) (ev : TraceEv) (status : Nat)
    (h : Memory.wf s.mem = true) :
    Memory.wf (s.traceCmd core k ev status).mem = true := by
  unfold State.traceCmd
  split <;> simp [h]

@[simp] theorem State.putWords_mem (s : State) (cb : BufAt) (ws : List (Nat × SRes × Bool)) :
    (s.putWords cb ws).mem = s.mem := by
  refine foldl_keeps State.mem _ (fun r e => ?_) _ _
  have h1 := foldl_keeps State.mem (fun s c => s.bufPut1 cb c.1 c.2) (fun _ _ => State.bufPut1_mem ..)
    (cellsAt e.1 (leBytes 4 e.2.1.1.toNat)) r
  dsimp only
  split <;> simp [h1]

theorem State.fetchTile_mem {s u : State} {o : Origin} {tenant : Nat} {p : BufAt} {off len : Nat} {va : DWord} {r : Pass}
    (h : s.fetchTile o tenant p off len va = some (u, r)) : u.mem = s.mem := by
  unfold State.fetchTile at h
  have hl := locate_mem o.req p.core tenant 32 .read (len / 32) va s
  generalize locate o.req p.core tenant 32 .read (len / 32) va s = q at h hl
  obtain ⟨s1, xs, ps⟩ := q
  dsimp only at h hl
  split at h
  · cases h
  · cases h
    rw [foldl_keeps State.mem _ (fun _ _ => by simp), State.bufWrite_mem]
    split <;> simp [hl]

@[simp] theorem State.moveBoundary_mem (s : State) (cb : BufAt) (src dst n : Nat) :
    (s.moveBoundary cb src dst n).mem = s.mem := by
  refine (foldl_keeps State.mem _ (fun r e => ?_) _ _).trans (State.bufWrite_mem ..)
  split <;> simp

@[simp] theorem State.chainConfig_mem (s : State) (core : Nat) (k : Cmd) (prog : DWord) (mode nsteps boff cap bc mb : Nat) :
    (s.chainConfig core k prog mode nsteps boff cap bc mb).mem = s.mem := by
  unfold State.chainConfig
  repeat' split
  all_goals simp

theorem State.startCmd_mem {s u : State} {core : Nat} {k : Cmd} (h : s.startCmd core k = some u) : u.mem = s.mem := by
  unfold State.startCmd at h
  dsimp only at h
  split at h
  · split at h
    · obtain ⟨⟨s1, ps⟩, hf, hu⟩ := Option.map_eq_some_iff.mp h
      rw [← State.fetchTile_mem hf, ← hu]
      cases ps <;> rfl
    · cases h; rfl
  · obtain ⟨⟨s1, ps⟩, hf, hu⟩ := Option.map_eq_some_iff.mp h
    have h1 : s1.mem = s.mem := by
      split at hf
      · exact State.fetchTile_mem hf
      · cases hf; rfl
    rw [← h1, ← hu]
    cases ps with
    | done => dsimp only; split <;> rfl
    | fault _ => rfl
  · cases h; simp
  · cases h; rfl

@[simp] theorem State.writeBoundary_mem (s : State) (cb : BufAt) (boff : Nat) (es : List (SRes × Bool)) (bad : Bool) :
    (s.writeBoundary cb boff es bad).mem = s.mem := by
  refine (foldl_keeps State.mem _ (fun r e => ?_) _ _).trans (State.bufWrite_mem ..)
  split <;> simp

@[simp] theorem State.chainStepDone_mem (s : State) (core : Nat) (k : Cmd) (st : Word) (completed : Bool) (last : Bool) :
    (s.chainStepDone core k st completed last).mem = s.mem := rfl

@[simp] theorem State.takeUp_wf (s : State) (core : Nat) (k : Cmd) (h : Memory.wf s.mem = true) :
    Memory.wf (s.takeUp core k).mem = true := by
  unfold State.takeUp
  split <;> simp [h]

@[simp] theorem State.runStep_mem (s : State) (core : Nat) (k : Cmd) (g : Gang) (c : ChainCtx) (bad : Bool) (w : Nat → Nat) :
    (s.runStep core k g c bad w).mem = s.mem := by
  unfold State.runStep
  split <;> simp

theorem State.mopChunk_mem {s u : State} {core : Nat} {k : Cmd} {astg wstg coff wf af kk m n : Nat} {at_ wt : DWord}
    {bad : BitVec 64} {p : Pass} {w : Word} (h : s.mopChunk core k astg wstg coff wf af kk m n at_ wt bad = some (u, p, w)) :
    u.mem = s.mem := by
  unfold State.mopChunk at h
  dsimp only at h
  split at h
  · next s1 hf =>
    split at h
    · next s2 hg => cases h; rw [State.putWords_mem, State.fetchTile_mem hg, State.fetchTile_mem hf]
    · next s2 _ _ hg => cases h; rw [State.fetchTile_mem hg, State.fetchTile_mem hf]
    · cases h
  · next hf => cases h; exact State.fetchTile_mem hf
  · cases h

theorem State.mopRun_mem {s u : State} {core : Nat} {k : Cmd} {astg wstg coff wf af kl m kt : Nat} {ta tw : Tile}
    {atc atr wtc wtr : Nat} {bad : BitVec 64} {ls : List (Nat × Nat)} {p : Pass} {w : Word}
    (h : s.mopRun core k astg wstg coff wf af kl m kt ta tw atc atr wtc wtr bad ls = some (u, p, w)) : u.mem = s.mem := by
  induction ls generalizing s w with
  | nil => cases h; rfl
  | cons e t ih =>
    obtain ⟨n, c⟩ := e
    unfold State.mopRun at h
    split at h
    · next hc =>
      obtain ⟨⟨s2, p2, w2⟩, hr, hu⟩ := Option.map_eq_some_iff.mp h
      cases hu
      exact (ih hr).trans (State.mopChunk_mem hc)
    · exact State.mopChunk_mem h

@[simp] theorem State.mopLeaves_mem (s : State) (core : Nat) (k : Cmd) (astg alen wstg wlen : Nat) :
    (s.mopLeaves core k astg alen wstg wlen).mem = s.mem := by
  unfold State.mopLeaves
  simp

theorem State.endEffect_mem {s u : State} {core : Nat} {k : Cmd} {bad : BitVec 64} {w : Word}
    (h : s.endEffect core k bad = some (u, w)) : u.mem = s.mem := by
  unfold State.endEffect at h
  dsimp only at h
  split at h
  · split at h <;> cases h <;> rfl
  · next src _ =>
    have hl := locate_mem (k.origin core).req core (s.cmdTenant k.gang) 32 .read 1 src s
    split at h
    · split at h
      · cases h
      · simp only [Option.some.injEq] at h
        split at h
        · cases h; simp
        · split at h <;> cases h <;> simp
    · cases h; exact hl
  · cases h; rfl
  · cases h; simp
  · split at h
    · obtain ⟨⟨s1, ps, st⟩, hf, hu⟩ := Option.map_eq_some_iff.mp h
      rw [← State.mopRun_mem hf]
      cases ps <;> cases hu <;> simp
    · cases h; rfl
  · cases h; simp
  all_goals cases h; rfl

@[simp] theorem State.countCmd_mem (s : State) (core : Nat) (k : Cmd) : (s.countCmd core k).mem = s.mem := by
  unfold State.countCmd
  split <;> rfl

@[simp] theorem State.finishCmd_wf (s : State) (core : Nat) (k : Cmd) (st : Word) (h : Memory.wf s.mem = true) :
    Memory.wf (s.finishCmd core k st).mem = true := by
  unfold State.finishCmd
  repeat' split
  all_goals simp [h]

@[simp] theorem Ctx.launchSet_mem (c : Ctx) (i : Instr) (keys : List (Nat × Word)) (ha hb hc : Word) (addr : DWord)
    (count : Word) (pend : List Opnd) (owned : List (Nat × Nat) := []) :
    (c.launchSet i keys ha hb hc addr count pend owned).mem = c.st.mem := rfl

@[simp] theorem State.setAsks_mem (s : State) (home t pa n : Nat) : (s.setAsks home t pa n).mem = s.mem := by
  unfold State.setAsks
  simp

@[simp] theorem State.putSetWordsAs_wf (s : State) (o : Origin) (die t pa : Nat) (ws : List Nat)
    (h : Memory.wf s.mem = true) :
    Memory.wf (s.putSetWordsAs o die t pa ws).mem = true := by
  unfold State.putSetWordsAs
  simp [h]

@[simp] theorem State.putSetWords_wf (s : State) (home t pa : Nat) (ws : List Nat) (h : Memory.wf s.mem = true) :
    Memory.wf (s.putSetWords home t pa ws).mem = true := by
  unfold State.putSetWords
  simp [h]

@[simp] theorem State.askEntry_mem (s : State) (t : Nat) (h : Word) : (s.askEntry t h).mem = s.mem := by
  unfold State.askEntry
  simp

@[simp] theorem State.askSet_mem (s : State) (t : Nat) (v : SetView) : (s.askSet t v).mem = s.mem := by
  unfold State.askSet
  simp

theorem State.settle_wf {s : State} {t : Nat} {v : SetView} {pinned : Bool} {pinrep r : Rep} {m slots : List Nat} {u : State}
    {e : Entry} (h : Memory.wf s.mem = true) (hs : s.settle t v pinned pinrep r m slots = some (u, e)) :
    Memory.wf u.mem = true := by
  unfold State.settle at hs
  dsimp only at hs
  repeat' split at hs
  all_goals simp only [Option.some.injEq, Prod.mk.injEq, reduceCtorEq] at hs
  all_goals obtain ⟨rfl, -⟩ := hs
  all_goals simp [h]

@[simp] theorem State.mutate_wf (s : State) (t : Nat) (v : SetView) (m ins del : List Nat) (insertion : Bool)
    (bits : List Bool)
    (extra : Nat) (h : Memory.wf s.mem = true) : Memory.wf (s.mutate t v m ins del insertion bits extra).1.mem = true := by
  unfold State.mutate
  dsimp only
  split
  · exact h
  · next e => exact State.settle_wf h e

/-- The state of a set operation that is done. -/
theorem SetStep.ok_fst {p : State × SetRes} {u : State} {r : SetRes} (h : SetStep.ok p = .ok (u, r)) : u = p.1 :=
  (congrArg Prod.fst (SetStep.ok.inj h)).symm

theorem State.setNewOp_wf {s u : State} {q : Reach} {t : Nat} {r : SetRes} (h : Memory.wf s.mem = true)
    (hs : s.setNewOp q t = .ok (u, r)) : Memory.wf u.mem = true := by
  unfold State.setNewOp at hs
  dsimp only at hs
  repeat' split at hs
  · cases hs
  · rw [SetStep.ok_fst hs]; simp [h]
  · rw [SetStep.ok_fst hs]; simp [h]
  · rw [SetStep.ok_fst hs]; simp [h]
  · rw [SetStep.ok_fst hs]; simp [h]
  · rw [SetStep.ok_fst hs]
    simp only [State.modTenant_mem]
    exact State.putSetWords_wf _ _ _ _ _ (State.putSetWords_wf _ _ _ _ _ (by simp [h]))

theorem State.setFreeOp_wf {s u : State} {q : Reach} {t die : Nat} {ha seq : Word} {r : SetRes} (h : Memory.wf s.mem = true)
    (hs : s.setFreeOp q t die ha seq = .ok (u, r)) : Memory.wf u.mem = true := by
  unfold State.setFreeOp at hs
  dsimp only at hs
  repeat' split at hs
  all_goals simp only [SetStep.ok.injEq, Prod.mk.injEq, reduceCtorEq] at hs
  all_goals obtain ⟨rfl, -⟩ := hs
  all_goals simp [h]

theorem State.algebraOp_wf {s u : State} {q : Reach} {t : Nat} {ha hb hc : Word} {f : List Nat → List Nat → List Nat}
    {r : SetRes} (h : Memory.wf s.mem = true) (hs : s.algebraOp q t ha hb hc f = .ok (u, r)) : Memory.wf u.mem = true := by
  unfold State.algebraOp at hs
  split at hs
  · cases hs
  · cases hs; simp [h]
  · split at hs
    · cases hs
    · cases hs; simp [h]
    · dsimp only at hs
      split at hs
      · cases hs
      · cases hs; simp [h]
      · split at hs
        · cases hs; simp [h]
        · next e =>
          simp only [SetStep.ok.injEq, Prod.mk.injEq] at hs
          obtain ⟨rfl, -⟩ := hs
          exact State.settle_wf (by simp [h]) e

theorem State.hintOp_wf {s u : State} {q : Reach} {t : Nat} {ha : Word} {pin : Option Rep} {r : SetRes}
    (h : Memory.wf s.mem = true) (hs : s.hintOp q t ha pin = .ok (u, r)) : Memory.wf u.mem = true := by
  unfold State.hintOp at hs
  split at hs
  · cases hs
  · cases hs; simp [h]
  · dsimp only at hs
    split at hs
    · cases hs; simp [h]
    · next e =>
      simp only [SetStep.ok.injEq, Prod.mk.injEq] at hs
      obtain ⟨rfl, -⟩ := hs
      exact State.settle_wf (by simp [h]) e

theorem State.setInOp_wf {s u : State} {q : Reach} {core t : Nat} {ha : Word} {addr : DWord} {c : Nat} {r : SetRes}
    (h : Memory.wf s.mem = true) (hs : s.setInOp q core t ha addr c = .ok (u, r)) : Memory.wf u.mem = true := by
  unfold State.setInOp at hs
  split at hs
  · cases hs
  · cases hs; simp [h]
  · next v _ =>
    dsimp only at hs
    have hl := locate_mem (setOrigin (homeOf v.addr)).req core t 4 .read c addr (s.askSet t v)
    rw [State.askSet_mem] at hl
    generalize locate (setOrigin (homeOf v.addr)).req core t 4 .read c addr (s.askSet t v) = l at hs hl
    obtain ⟨s0, xs, ps⟩ := l
    dsimp only at hs hl
    have h0 : Memory.wf s0.mem = true := hl ▸ h
    repeat' split at hs
    · cases hs
    all_goals
      rw [SetStep.ok_fst hs]
      simp [h0]

theorem State.setOutOp_wf {s u : State} {q : Reach} {core t : Nat} {ha : Word} {addr : DWord} {c stamp : Nat} {r : SetRes}
    (h : Memory.wf s.mem = true) (hs : s.setOutOp q core t ha addr c stamp = .ok (u, r)) : Memory.wf u.mem = true := by
  unfold State.setOutOp at hs
  split at hs
  · cases hs
  · cases hs; simp [h]
  · next v _ =>
    dsimp only at hs
    have hl := locate_mem (setOrigin (homeOf v.addr)).req core t 4 .write (v.members.take c).length addr (s.askSet t v)
    rw [State.askSet_mem] at hl
    generalize locate (setOrigin (homeOf v.addr)).req core t 4 .write (v.members.take c).length addr (s.askSet t v) = l at hs hl
    obtain ⟨s1, xs, ps⟩ := l
    dsimp only at hs hl
    have h1 : Memory.wf s1.mem = true := hl ▸ h
    repeat' split at hs
    · cases hs
    all_goals
      rw [SetStep.ok_fst hs]
      exact State.engineWriteAt_wf _ _ _ _ _ _ (by simp [h1])

theorem State.setOpRun_wf {s u : State} {core t n : Nat} {o : SetOp} {r : SetRes} (h : Memory.wf s.mem = true)
    (hs : s.setOpRun core t o = (n, .ok (u, r))) : Memory.wf u.mem = true := by
  unfold State.setOpRun at hs
  dsimp only at hs
  split at hs
  · exact State.setNewOp_wf h (congrArg Prod.snd hs)
  · exact State.setFreeOp_wf h (congrArg Prod.snd hs)
  · split at hs
    · cases hs
    all_goals
      rw [SetStep.ok_fst (congrArg Prod.snd hs)]
      simp [h]
  · split at hs
    · cases hs
    all_goals
      rw [SetStep.ok_fst (congrArg Prod.snd hs)]
      simp [h]
  · split at hs
    · cases hs
    all_goals
      rw [SetStep.ok_fst (congrArg Prod.snd hs)]
      simp [h]
  · split at hs
    · cases hs
    all_goals
      rw [SetStep.ok_fst (congrArg Prod.snd hs)]
      simp [h]
  · exact State.algebraOp_wf h (Prod.mk.inj hs).2
  · exact State.algebraOp_wf h (Prod.mk.inj hs).2
  · exact State.algebraOp_wf h (Prod.mk.inj hs).2
  · exact State.setInOp_wf h (congrArg Prod.snd hs)
  · exact State.setOutOp_wf h (congrArg Prod.snd hs)
  · split at hs
    · cases hs
    all_goals
      rw [SetStep.ok_fst (congrArg Prod.snd hs)]
      simp [h]
  · exact State.hintOp_wf h (congrArg Prod.snd hs)
  · exact State.hintOp_wf h (congrArg Prod.snd hs)
  · cases hs; exact h

theorem State.setPerform_wf {s u : State} {agent : Nat} {x : Agent} {o : SetOp} (h : Memory.wf s.mem = true)
    (hs : s.setPerform agent x o = some u) : Memory.wf u.mem = true := by
  unfold State.setPerform at hs
  dsimp only at hs
  split at hs
  · next e => cases hs; simp [State.setOpRun_wf (by simp [h]) e]
  · cases hs
  · cases hs

@[simp] theorem State.barSend_mem (s : State) (g pos hb : Nat) (m : BarMsg) :
    (s.barSend g pos hb m).mem = s.mem := rfl

@[simp] theorem State.modOp_mem (s : State) (a id : Nat) (f : MemOp → MemOp) : (s.modOp a id f).mem = s.mem := rfl

@[simp] theorem State.tidy_mem (s : State) (a : Nat) : (s.tidy a).mem = s.mem := rfl

@[simp] theorem State.partFault_mem (s : State) (a : Nat) (x : Agent) (o : MemOp) (code : Nat) (l : LaneOp) :
    (s.partFault a x o code l).mem = s.mem := by
  unfold State.partFault
  split <;> rfl

@[simp] theorem State.sampleOp_wf (s : State) (x : Agent) (o : MemOp) (h : Memory.wf s.mem = true) :
    Memory.wf (s.sampleOp x o).mem = true := by
  unfold State.sampleOp
  split <;> simp [h]

@[simp] theorem State.completeRead_wf (s : State) (a id core : Nat) (h : Memory.wf s.mem = true) :
    Memory.wf (s.completeRead a id core).mem = true := by
  unfold State.completeRead
  repeat' split
  all_goals simp [h]

@[simp] theorem State.performAt_wf (s : State) (p : Place) (o : MemOp) (ls : List LaneOp) (h : Memory.wf s.mem = true) :
    Memory.wf (s.performAt p o ls).mem = true := by
  unfold State.performAt
  simp [State.write_wf, h]

@[simp] theorem State.flushPage_mem (s : State) (a : Nat) (p : Place) (o : MemOp) (l : LaneOp) (t : Xlat) :
    (s.flushPage a p o l t).mem = s.mem := by
  unfold State.flushPage
  dsimp only
  rw [State.modOp_mem]
  split
  · rw [State.modCore_mem]
    refine foldl_keeps State.mem _ (fun r line => ?_) _ _
    split <;> simp
  · rfl

@[simp] theorem State.holdRelease_mem (s : State) (a : Nat) (x : Agent) : (s.holdRelease a x).mem = s.mem := by
  unfold State.holdRelease
  cases x.ctl.hold with
  | fence o sc => dsimp only; repeat' split
                  all_goals simp
  | fdefer addr len pool released parked => dsimp only; repeat' split
                                            all_goals simp
  | setFree => dsimp only; split <;> simp
  | _ => rfl

@[simp] theorem State.sendBack_mem (s : State) (a id : Nat) : (s.sendBack a id).mem = s.mem := by
  unfold State.sendBack
  repeat' split
  · rfl
  · rfl
  · exact (sendReturns_spec ..).2.1
  · rfl

@[simp] theorem State.afterAtom_wf (s : State) (a : Nat) (p : Place) (o : MemOp) (h : Memory.wf s.mem = true) :
    Memory.wf (s.afterAtom a p o).mem = true := by
  unfold State.afterAtom
  split <;> simp [h]

@[simp] theorem State.bufDone_mem (s : State) (a id : Nat) : (s.bufDone a id).mem = s.mem := rfl

@[simp] theorem State.countMiss_mem (s : State) (req : Nat) : (s.countMiss req).mem = s.mem := rfl

@[simp] theorem State.hopAsks_mem (s : State) (core tenant : Nat) (c : Chase) (rs : List HopAt) :
    (s.hopAsks core tenant c rs).mem = s.mem := by
  unfold State.hopAsks
  rw [State.homeReads_mem]
  exact foldl_keeps State.mem _ (fun _ _ => by simp) _ _

@[simp] theorem State.chaseDone_wf (s : State) (a id : Nat) (h : Memory.wf s.mem = true) :
    Memory.wf (s.chaseDone a id).mem = true := by
  unfold State.chaseDone
  repeat' split
  all_goals simp [h]

@[simp] theorem State.sweepGang_mem (s : State) (g : Nat) : (s.sweepGang g).mem = s.mem := by
  unfold State.sweepGang
  split
  · rfl
  · dsimp only; split <;> rfl

@[simp] theorem State.gwaitWake_mem (s : State) (tenant : Nat) (done : Word) : (s.gwaitWake tenant done).mem = s.mem := by
  refine foldl_keeps State.mem _ (fun r e => ?_) _ _
  split <;> simp

@[simp] theorem State.latigoDrop_mem (s : State) (die ix : Nat) : (s.latigoDrop die ix).mem = s.mem := rfl

@[simp] theorem State.latigoDiscard_mem (s : State) (die ix : Nat) (e : LatigoEntry) (addr : DWord) :
    (s.latigoDiscard die ix e addr).mem = s.mem := rfl

@[simp] theorem State.flipAgent_mem (s : State) (g : Nat) (hb a : Nat) (x : Agent) :
    (s.flipAgent g hb a x).mem = s.mem := by
  unfold State.flipAgent
  repeat' split
  all_goals simp

@[simp] theorem State.takeCause_mem (s : State) (a : Nat) (x : Agent) (c : Cause) :
    (s.takeCause a x c).mem = s.mem := by
  unfold State.takeCause
  simp

@[simp] theorem State.enqueue_mem (s : State) (t die prio : Nat) (r : LaunchRec) :
    (s.enqueue t die prio r).mem = s.mem := rfl

@[simp] theorem State.readLost_mem (s : State) (t : Nat) (lost : Bool) : (s.readLost t lost).mem = s.mem := by
  unfold State.readLost
  split <;> simp

@[simp] theorem State.dispReport_mem (s : State) (t : Nat) (addr : DWord) (fetch wr : Bool) (tag : DWord) :
    (s.dispReport t addr fetch wr tag).mem = s.mem := rfl

@[simp] theorem State.popHead_mem (s : State) (t die prio : Nat) : (s.popHead t die prio).mem = s.mem := rfl

@[simp] theorem State.complete_mem (s : State) (t die : Nat) (r : LaunchRec) (status : Nat) :
    (s.complete t die r status).mem = s.mem := by
  unfold State.complete
  split <;> rfl

@[simp] theorem State.refuse_mem (s : State) (t die prio : Nat) (r : LaunchRec) (unread : Option (DWord × Bool)) :
    (s.refuse t die prio r unread).mem = s.mem := by
  unfold State.refuse
  split <;> simp

@[simp] theorem State.emptyRanks_mem (s : State) (t die : Nat) (r : LaunchRec) (shares : List RankShare) :
    (s.emptyRanks t die r shares).mem = s.mem := by
  unfold State.emptyRanks
  split <;> rfl

@[simp] theorem State.dropLaunch_mem (s : State) (l : Option Nat) : (s.dropLaunch l).mem = s.mem := by
  unfold State.dropLaunch
  split <;> rfl

@[simp] theorem State.opens_mem (s : State) (t die prio key : Nat) (l : Launch) :
    (s.opens t die prio key l).mem = s.mem := by
  unfold State.opens
  split <;> simp

@[simp] theorem State.accept_mem (s : State) (t die prio : Nat) (r : LaunchRec) (h : Header) (shares : List RankShare) :
    (s.accept t die prio r h shares).mem = s.mem := by
  unfold State.accept
  split <;> simp

@[simp] theorem State.endTurn_mem (s : State) (die : Nat) : (s.endTurn die).mem = s.mem := by
  unfold State.endTurn
  split <;> rfl

@[simp] theorem startWarps_mem (l : Launch) (r : RankShare) (index gang : Nat) (grace : Word) (ps : List (Place × Nat))
    (s : State) : (startWarps l r index gang grace ps s).mem = s.mem := by
  induction ps generalizing s with
  | nil => rfl
  | cons p t ih => exact ih _

@[simp] theorem State.committed_mem (s : State) (k : Nat) : (s.committed k).mem = s.mem := by
  unfold State.committed
  split
  · rfl
  · dsimp only; split <;> simp

@[simp] theorem State.commit_mem (s : State) (die unit : Nat) (u : Admission) : (s.commit die unit u).mem = s.mem := by
  unfold State.commit
  dsimp only
  split
  · rfl
  · split
    · rfl
    · rw [State.committed_mem, foldl_keeps State.mem _ (fun _ _ => by simp), startWarps_mem]; rfl

@[simp] theorem State.backOff_mem (s : State) (die unit : Nat) (u : Admission) :
    (s.backOff die unit u).mem = s.mem := rfl

@[simp] theorem State.keepRecords_mem (s : State) (waits : Option Nat) (x : Agent) :
    (s.keepRecords waits x).mem = s.mem := rfl

@[simp] theorem State.settleOps_wf (s : State) (a : Nat) (x : Agent) (h : Memory.wf s.mem = true) :
    Memory.wf (s.settleOps a x).mem = true := by
  unfold State.settleOps
  rw [State.tidy_mem]
  exact foldl_wf _ (fun _ _ hr => by simp [hr]) _ _ (foldl_wf _ (fun _ _ hr => by simp [hr]) _ _ h)

@[simp] theorem State.retryAgent_mem (s : State) (a : Nat) : (s.retryAgent a).mem = s.mem := by
  unfold State.retryAgent
  split <;> rfl

@[simp] theorem State.skipAgent_wf (s : State) (a : Nat) (x : Agent) (h : Memory.wf s.mem = true) :
    Memory.wf (s.skipAgent a x).mem = true := by
  unfold State.skipAgent
  repeat' split
  all_goals simp [h]

@[simp] theorem State.resetContext_mem (s : State) (t : Nat) : (s.resetContext t).mem = s.mem := by
  unfold State.resetContext
  exact foldl_keeps State.mem _ (fun _ _ => by simp) _ _

@[simp] theorem State.spillAsks_mem (s : State) (ls : List (Nat × Nat)) (write : Bool) :
    (s.spillAsks ls write).mem = s.mem := by
  refine foldl_keeps State.mem _ (fun r e => ?_) _ _
  split <;> simp

@[simp] theorem State.spillWrite_wf (s : State) (ls : List (Nat × Nat)) (h : Memory.wf s.mem = true) :
    Memory.wf (s.spillWrite ls).mem = true := foldl_wf _ (fun _ _ hr => by simp [hr]) _ _ h

@[simp] theorem State.spillOldest_wf (s : State) (die : Nat) (h : Memory.wf s.mem = true) :
    Memory.wf (s.spillOldest die).mem = true := by
  unfold State.spillOldest
  split <;> simp [h]

@[simp] theorem State.stopCommands_wf (s : State) (g : Nat) (h : Memory.wf s.mem = true) :
    Memory.wf (s.stopCommands g).mem = true := by
  refine foldl_wf _ (fun r e hr => ?_) _ _ h
  refine foldl_wf _ (fun _ _ hr => by simp [hr]) _ _ ?_
  refine foldl_wf _ (fun _ _ hr => by simp [hr]) _ _ ?_
  exact foldl_wf _ (fun _ _ hr => by simp [hr]) _ _ hr

@[simp] theorem State.keepStops_mem (s : State) (g : Nat) : (s.keepStops g).mem = s.mem :=
  foldl_keeps State.mem _ (fun _ _ => by simp) _ _

@[simp] theorem State.answerDeferred_wf (s : State) (a : Nat) (was : Agent) (h : Memory.wf s.mem = true) :
    Memory.wf (s.answerDeferred a was).mem = true := by
  unfold State.answerDeferred
  repeat' split
  all_goals simp [h]

@[simp] theorem restoreAgents_wf (ps : List ((Nat × Agent) × Place)) (s : State) (h : Memory.wf s.mem = true) :
    Memory.wf (restoreAgents ps s).mem = true := by
  induction ps generalizing s with
  | nil => exact h
  | cons e t ih => exact ih _ (by simp [h])

@[simp] theorem State.wayFree_mem (s : State) (g core : Nat) : (s.wayFree g core).mem = s.mem := by
  unfold State.wayFree
  split <;> rfl

@[simp] theorem State.moveCommands_mem (s : State) (g pos old new : Nat) :
    (s.moveCommands g pos old new).mem = s.mem := rfl

@[simp] theorem State.defer_mem (s : State) (a action : Nat) : (s.defer a action).mem = s.mem := rfl

@[simp] theorem State.releaseHeld_mem (s : State) (a : Nat) (k : Held) : (s.releaseHeld a k).mem = s.mem := by
  cases k <;> rfl

@[simp] theorem State.discardHeld_wf (s : State) (a : Nat) (k : Held) (h : Memory.wf s.mem = true) :
    Memory.wf (s.discardHeld a k).mem = true := by
  cases k with
  | copy core k => simp [State.discardHeld, h]
  | tool core k => simp [State.discardHeld, h]
  | cmd core k => unfold State.discardHeld; dsimp only; split <;> simp [h]
  | setOp o => exact h
  | chase o => exact h

@[simp] theorem State.dropXlats_mem (s : State) (t lo len : Nat) : (s.dropXlats t lo len).mem = s.mem := rfl

@[simp] theorem State.sealCode_wf (s : State) (t va n : Nat) (h : Memory.wf s.mem = true) :
    Memory.wf (s.sealCode t va n).mem = true := by
  induction n generalizing s va with
  | zero => exact h
  | succ n ih =>
    refine ih _ _ ?_
    rw [State.dropXlats_mem]
    split <;> simp [h]

@[simp] theorem State.writeBody_wf (s : State) (xs : List Xlat) (body : List Byte) (h : Memory.wf s.mem = true) :
    Memory.wf (s.writeBody xs body).mem = true := by
  unfold State.writeBody
  simp [h]

theorem State.writeBodies_wf {s u : State} {t : Nat} {bs : List (Nat × List Byte)} (h : Memory.wf s.mem = true)
    (hs : s.writeBodies t bs = some u) : Memory.wf u.mem = true := by
  induction bs generalizing s with
  | nil => cases hs; exact h
  | cons e rest ih =>
    obtain ⟨va, body⟩ := e
    unfold State.writeBodies at hs
    split at hs
    · cases hs
    · exact ih (State.writeBody_wf _ _ _ h) hs

@[simp] theorem State.physWrite_wf (s : State) (pa : Nat) (b : List Byte) (h : Memory.wf s.mem = true) :
    Memory.wf (s.physWrite pa b).mem = true := by
  unfold State.physWrite
  simp [h]

@[simp] theorem State.rangeAgain_mem (s : State) (t lo len : Nat) : (s.rangeAgain t lo len).mem = s.mem := rfl

@[simp] theorem State.loadEnds_mem (s : State) (t code : Nat) : (s.loadEnds t code).mem = s.mem := rfl

@[simp] theorem State.loadPlace_wf (s : State) (t arena : Nat) (qs : List LzbSection) (b : List Byte)
    (bodies : List (List Byte)) (h : Memory.wf s.mem = true) : Memory.wf (s.loadPlace t arena qs b bodies).mem = true := by
  unfold State.loadPlace
  dsimp only
  split
  · simp [h]
  · split
    · simp [h]
    · next s1 e =>
      rw [State.loadEnds_mem]
      exact State.physWrite_wf _ _ _ (foldl_wf _ (fun _ _ hr => by simp [hr]) _ _ (State.writeBodies_wf h e))

@[simp] theorem State.copyLost_wf (s : State) (core : Nat) (k : Copy) (h : Memory.wf s.mem = true) :
    Memory.wf (s.copyLost core k).mem = true := by
  unfold State.copyLost
  split <;> simp [h]

@[simp] theorem State.completionLost_wf (s : State) (ix : Nat) (h : Memory.wf s.mem = true) :
    Memory.wf (s.completionLost ix).mem = true := by
  unfold State.completionLost
  repeat' split
  all_goals simp [h]

@[simp] theorem State.poisonSite_mem (s : State) (e : ErrSite) : (s.poisonSite e).mem = s.mem := by
  cases e with
  | buffer gang pos b row => unfold State.poisonSite; dsimp only; split <;> simp
  | _ => rfl

@[simp] theorem State.nextClock_mem (s : State) : s.nextClock.mem = s.mem :=
  foldl_keeps State.mem _ (fun _ _ => by simp) _ _

@[simp] theorem State.rest_mem (s : State) : s.rest.mem = s.mem := rfl

@[simp] theorem State.issued_mem (s : State) (a : Nat) (p : Place) (i : Instr) : (s.issued a p i).mem = s.mem := by
  unfold State.issued
  split <;> rfl

@[simp] theorem State.atBoundary_mem (s : State) (a : Nat) (x : Agent) : (s.atBoundary a x).mem = s.mem := by
  unfold State.atBoundary
  split <;> rfl

end Sys2Proof.Machine
end

section
/-! PROOF of `MemoryStaysCanonical` (O54): the steps of the part. Each goes on to a state that its operations make of
the one it began in. -/

namespace Sys2Proof.Machine

open Sys2Proof.Claim

/-- The state that an outcome goes on to, where it goes on, has its memory in canonical form. -/
def Canonical (o : Out) : Prop := ∀ t, o = .next t → Memory.wf t.mem = true

@[simp] theorem canonical_next (t : State) : Canonical (.next t) ↔ Memory.wf t.mem = true :=
  ⟨fun h => h t rfl, fun h u e => by cases e; exact h⟩

@[simp] theorem canonical_refused (r : Refusal) : Canonical (.refused r) := fun _ e => by cases e

@[simp] theorem execUnassignedWord_canonical (w0 w1 : DWord) (s : State) (h : Memory.wf s.mem = true) :
    Canonical (execUnassignedWord w0 w1 s) := by
  unfold execUnassignedWord
  split
  · simp
  · next hc => obtain ⟨rfl, -⟩ := Ctx.of_spec hc; simp [h]

@[simp] theorem execCopyEngineStart_canonical (core : Nat) (s : State) (h : Memory.wf s.mem = true) :
    Canonical (execCopyEngineStart core s) := by
  unfold execCopyEngineStart
  dsimp only
  repeat' split
  all_goals simp [h]

@[simp] theorem copyChunkOut_canonical (core : Nat) (k : Copy) (p : BufAt) (s : State) (h : Memory.wf s.mem = true) :
    Canonical (copyChunkOut core k p s) := by
  unfold copyChunkOut
  dsimp only
  repeat' split
  all_goals simp [h]

@[simp] theorem copyChunkIn_canonical (core : Nat) (k : Copy) (s : State) (h : Memory.wf s.mem = true) :
    Canonical (copyChunkIn core k s) := by
  unfold copyChunkIn
  dsimp only
  repeat' split
  all_goals simp [h]

@[simp] theorem execCopyChunk_canonical (core cmd : Nat) (s : State) (h : Memory.wf s.mem = true) :
    Canonical (execCopyChunk core cmd s) := by
  unfold execCopyChunk
  repeat' split
  all_goals simp [h]

@[simp] theorem execEngineLineRelease_canonical (core cmd line : Nat) (s : State) (h : Memory.wf s.mem = true) :
    Canonical (execEngineLineRelease core cmd line s) := by
  unfold execEngineLineRelease
  dsimp only
  repeat' split
  all_goals simp [h]

@[simp] theorem execToolChunk_canonical (core cmd : Nat) (s : State) (h : Memory.wf s.mem = true) :
    Canonical (execToolChunk core cmd s) := by
  unfold execToolChunk
  dsimp only
  repeat' split
  all_goals simp [h]

@[simp] theorem execCommandStart_canonical (core cmd : Nat) (s : State) (h : Memory.wf s.mem = true) :
    Canonical (execCommandStart core cmd s) := by
  have started : ∀ k, Memory.wf (((s.traceCmd core k .start 0).startCmd core k).getD s).mem = true := fun k => by
    cases e : (s.traceCmd core k .start 0).startCmd core k with
    | none => exact h
    | some t => show Memory.wf t.mem = true; rw [State.startCmd_mem e]; simp [h]
  unfold execCommandStart
  dsimp only
  repeat' split
  all_goals simp [h, started]

@[simp] theorem execChainStepExecute_canonical (core cmd : Nat) (bad : Bool) (s : State) (h : Memory.wf s.mem = true) :
    Canonical (execChainStepExecute core cmd bad s) := by
  unfold execChainStepExecute
  dsimp only
  repeat' split
  all_goals simp [h]

@[simp] theorem execCommandEnd_canonical (core cmd : Nat) (bad : BitVec 64) (s : State) (h : Memory.wf s.mem = true) :
    Canonical (execCommandEnd core cmd bad s) := by
  unfold execCommandEnd
  split
  · simp [h]
  · split
    · simp [h]
    · split
      · simp [h]
      · split
        · next e => simp [State.endEffect_mem e, h]
        · simp [h]

@[simp] theorem execSetEngineOperation_canonical (agent op : Nat) (s : State) (h : Memory.wf s.mem = true) :
    Canonical (execSetEngineOperation agent op s) := by
  have performed : ∀ x o, Memory.wf ((s.setPerform agent x o).getD s).mem = true := fun x o => by
    cases e : s.setPerform agent x o with
    | none => exact h
    | some t => exact State.setPerform_wf h e
  unfold execSetEngineOperation
  repeat' split
  all_goals simp [h, performed]

@[simp] theorem execPageWalk_canonical (agent op lane : Nat) (s : State) (h : Memory.wf s.mem = true) :
    Canonical (execPageWalk agent op lane s) := by
  unfold execPageWalk
  split
  · simp [h]
  split
  · simp [h]
  split
  · split <;> simp [h]
  split
  · simp [h]
  extract_lets want page here first
  split
  next s1 r e =>
    have h1 : Memory.wf s1.mem = true := by
      have walked : s1.mem = s.mem := (congrArg (fun q => q.1.mem) e).symm.trans (State.translateFor_mem ..)
      rw [walked]; exact h
    extract_lets leaf fail
    split
    · simp [fail, h1]
    · split <;> simp [fail, h1]

@[simp] theorem execLoadReturn_canonical (agent op : Nat) (lanes : Lanes) (s : State) (h : Memory.wf s.mem = true) :
    Canonical (execLoadReturn agent op lanes s) := by
  unfold execLoadReturn
  dsimp only
  repeat' split
  all_goals simp [h]

@[simp] theorem execStoreDrain_canonical (agent op : Nat) (lanes : Lanes) (s : State) (h : Memory.wf s.mem = true) :
    Canonical (execStoreDrain agent op lanes s) := by
  unfold execStoreDrain
  dsimp only
  repeat' split
  all_goals simp [h]

@[simp] theorem execStorePerform_canonical (agent op : Nat) (lanes : Lanes) (s : State) (h : Memory.wf s.mem = true) :
    Canonical (execStorePerform agent op lanes s) := by
  unfold execStorePerform
  dsimp only
  repeat' split
  all_goals simp [h]

@[simp] theorem execStoreAcknowledge_canonical (agent op : Nat) (sc : Scope) (s : State) (h : Memory.wf s.mem = true) :
    Canonical (execStoreAcknowledge agent op sc s) := by
  unfold execStoreAcknowledge
  dsimp only
  repeat' split
  all_goals simp [h]

@[simp] theorem execReleaseProceed_canonical (agent op : Nat) (s : State) (h : Memory.wf s.mem = true) :
    Canonical (execReleaseProceed agent op s) := by
  unfold execReleaseProceed
  repeat' split
  all_goals simp [h]

@[simp] theorem execAtomicPerform_canonical (agent op : Nat) (lanes : Lanes) (s : State) (h : Memory.wf s.mem = true) :
    Canonical (execAtomicPerform agent op lanes s) := by
  unfold execAtomicPerform
  dsimp only
  repeat' split
  all_goals simp [State.write_wf, h]

@[simp] theorem execBufferAccessPerform_canonical (agent op : Nat) (lanes : Lanes) (s : State) (h : Memory.wf s.mem = true) :
    Canonical (execBufferAccessPerform agent op lanes s) := by
  unfold execBufferAccessPerform
  dsimp only
  repeat' split
  all_goals simp [h]

@[simp] theorem execL1Fill_canonical (core line way : Nat) (s : State) (h : Memory.wf s.mem = true) :
    Canonical (execL1Fill core line way s) := by
  unfold execL1Fill
  dsimp only
  repeat' split
  · simp [h]
  · simp [h]
  · rw [canonical_next, foldl_keeps State.mem _ (fun _ _ => State.fillL1_mem ..)]
    simp [h]

@[simp] theorem execIcacheFill_canonical (core part line : Nat) (drop : Option Nat) (s : State) (h : Memory.wf s.mem = true) :
    Canonical (execIcacheFill core part line drop s) := by
  unfold execIcacheFill
  repeat' split
  all_goals simp [h]

@[simp] theorem execL2Fill_canonical (ix : Nat) (victim : Option Nat) (s : State) (h : Memory.wf s.mem = true) :
    Canonical (execL2Fill ix victim s) := by
  unfold execL2Fill
  repeat' split
  all_goals simp [h]

@[simp] theorem execCxlOwnership_canonical (line : Nat) (s : State) (h : Memory.wf s.mem = true) :
    Canonical (execCxlOwnership line s) := by
  unfold execCxlOwnership
  repeat' split
  all_goals simp [h]

@[simp] theorem execHbmRequestService_canonical (stack : Nat) (issuable : List Nat) (s : State) (h : Memory.wf s.mem = true) :
    Canonical (execHbmRequestService stack issuable s) := by
  unfold execHbmRequestService
  repeat' split
  all_goals simp [h]

@[simp] theorem execDeadlineMiss_canonical (req : Nat) (s : State) (h : Memory.wf s.mem = true) :
    Canonical (execDeadlineMiss req s) := by
  unfold execDeadlineMiss
  repeat' split
  all_goals simp [h]

@[simp] theorem execChaseHop_canonical (agent op lane : Nat) (s : State) (h : Memory.wf s.mem = true) :
    Canonical (execChaseHop agent op lane s) := by
  unfold execChaseHop
  repeat' split
  all_goals simp [h]

@[simp] theorem execL1Conversion_canonical (core : Nat) (s : State) (h : Memory.wf s.mem = true) :
    Canonical (execL1Conversion core s) := by
  unfold execL1Conversion
  dsimp only
  repeat' split
  all_goals simp [h]

@[simp] theorem execQuiescentPoint_canonical (agent : Nat) (s : State) (h : Memory.wf s.mem = true) :
    Canonical (execQuiescentPoint agent s) := by
  unfold execQuiescentPoint
  split
  · simp [h]
  · next x _ =>
    split
    · simp [h]
    · dsimp only
      cases x.ctl.hold with
      | qstate => dsimp only; split <;> simp [h]
      | gwait t => dsimp only; repeat' split
                   all_goals simp [h]
      | yielded quiet => cases quiet <;> simp [h]
      | ended quiet =>
        cases quiet
        · simp [h]
        · dsimp only; split <;> simp [h]
      | _ => simp [h]

@[simp] theorem execGstartTarget_canonical (agent : Nat) (s : State) (h : Memory.wf s.mem = true) :
    Canonical (execGstartTarget agent s) := by
  unfold execGstartTarget
  dsimp only
  repeat' split
  all_goals simp [h]

@[simp] theorem execTrackerReport_canonical (tenant die : Nat) (s : State) (h : Memory.wf s.mem = true) :
    Canonical (execTrackerReport tenant die s) := by
  unfold execTrackerReport
  dsimp only
  repeat' split
  all_goals simp [h]

@[simp] theorem execGracestall_canonical (tenant : Nat) (target : Word) (s : State) (h : Memory.wf s.mem = true) :
    Canonical (execGracestall tenant target s) := by
  unfold execGracestall
  dsimp only
  repeat' split
  all_goals simp [h]

@[simp] theorem execCinchPush_canonical (die ix : Nat) (s : State) (h : Memory.wf s.mem = true) :
    Canonical (execCinchPush die ix s) := by
  unfold execCinchPush
  split
  · simp [h]
  · next e _ =>
    split
    · simp [h]
    · next addr len pool _ =>
      split
      · simp [h]
      · have walked := (s.dieWalkAsks (reqOfEngine 8 die 0 0) die e.tenant addr).translateDie_mem die e.tenant addr .write
        rw [State.dieWalkAsks_mem] at walked
        dsimp only
        split
        · next s1 _ e1 => rw [e1] at walked; simp [show s1.mem = s.mem from walked, h]
        · next s1 b e1 =>
          rw [e1] at walked
          have walked2 := (s1.dieWalkAsks (reqOfEngine 8 die 0 0) die e.tenant
            ((s.tenant e.tenant).reg 0x40 + BitVec.ofNat 64 (16 * pool))).translateDie_mem die e.tenant
            ((s.tenant e.tenant).reg 0x40 + BitVec.ofNat 64 (16 * pool)) .write
          rw [State.dieWalkAsks_mem, show s1.mem = s.mem from walked] at walked2
          split
          · next s2 _ e2 => rw [e2] at walked2; simp [show s2.mem = s.mem from walked2, h]
          · next s2 p e2 =>
            rw [e2] at walked2
            have h2 : Memory.wf s2.mem = true := by rw [show s2.mem = s.mem from walked2]; exact h
            repeat' split
            all_goals simp [h, h2]

@[simp] theorem execSetFreeReturn_canonical (die ix : Nat) (s : State) (h : Memory.wf s.mem = true) :
    Canonical (execSetFreeReturn die ix s) := by
  unfold execSetFreeReturn
  dsimp only
  repeat' split
  all_goals simp [h]

@[simp] theorem execBarrierArrival_canonical (gang pos : Nat) (s : State) (h : Memory.wf s.mem = true) :
    Canonical (execBarrierArrival gang pos s) := by
  unfold execBarrierArrival
  repeat' split
  all_goals simp [h]

@[simp] theorem execFlipBroadcast_canonical (gang pos hb : Nat) (s : State) (h : Memory.wf s.mem = true) :
    Canonical (execFlipBroadcast gang pos hb s) := by
  unfold execFlipBroadcast
  dsimp only
  repeat' split
  · simp [h]
  · simp [h]
  · rw [canonical_next, foldl_keeps State.mem _ (fun _ _ => State.flipAgent_mem ..)]
    exact h

@[simp] theorem parkStep_canonical (agent grp : Nat) (test : ParkGroup → Bool) (s : State) (h : Memory.wf s.mem = true) :
    Canonical (parkStep agent grp test s) := by
  unfold parkStep
  repeat' split
  all_goals simp [h]

@[simp] theorem execParkWake_canonical (agent grp : Nat) (s : State) (h : Memory.wf s.mem = true) :
    Canonical (execParkWake agent grp s) := by
  unfold execParkWake
  simp [h]

@[simp] theorem execParkWatchDrop_canonical (agent grp : Nat) (s : State) (h : Memory.wf s.mem = true) :
    Canonical (execParkWatchDrop agent grp s) := by
  unfold execParkWatchDrop
  simp [h]

@[simp] theorem execParkTimeout_canonical (agent grp : Nat) (s : State) (h : Memory.wf s.mem = true) :
    Canonical (execParkTimeout agent grp s) := by
  unfold execParkTimeout
  simp [h]

@[simp] theorem execTimer_canonical (agent : Nat) (s : State) (h : Memory.wf s.mem = true) :
    Canonical (execTimer agent s) := by
  unfold execTimer
  repeat' split
  all_goals simp [h]

@[simp] theorem execUserTrapEntry_canonical (agent : Nat) (s : State) (h : Memory.wf s.mem = true) :
    Canonical (execUserTrapEntry agent s) := by
  unfold execUserTrapEntry
  repeat' split
  all_goals simp [h]

@[simp] theorem execWarpSwap_canonical (core part outSlot inSlot : Nat) (s : State) (h : Memory.wf s.mem = true) :
    Canonical (execWarpSwap core part outSlot inSlot s) := by
  unfold execWarpSwap
  repeat' split
  all_goals simp [h]

@[simp] theorem execGrowGrant_canonical (agent : Nat) (s : State) (h : Memory.wf s.mem = true) :
    Canonical (execGrowGrant agent s) := by
  unfold execGrowGrant
  dsimp only
  repeat' split
  all_goals simp [h]

@[simp] theorem execWaitcRelease_canonical (agent : Nat) (s : State) (h : Memory.wf s.mem = true) :
    Canonical (execWaitcRelease agent s) := by
  unfold execWaitcRelease
  repeat' split
  all_goals simp [h]

@[simp] theorem execTaskStart_canonical (core : Nat) (s : State) (h : Memory.wf s.mem = true) :
    Canonical (execTaskStart core s) := by
  unfold execTaskStart
  split
  · simp [h]
  · rw [canonical_next, State.invalL1_mem, State.modAgent_mem, foldl_keeps State.mem _ (fun _ _ => State.modAgent_mem ..)]
    exact h

@[simp] theorem execContinuationResume_canonical (agent : Nat) (s : State) (h : Memory.wf s.mem = true) :
    Canonical (execContinuationResume agent s) := by
  unfold execContinuationResume
  repeat' split
  all_goals simp [h]

@[simp] theorem execQueueWindowWrite_canonical (tenant off : Nat) (bytes : List Byte) (s : State)
    (h : Memory.wf s.mem = true) :
    Canonical (execQueueWindowWrite tenant off bytes s) := by
  unfold execQueueWindowWrite
  dsimp only
  repeat' split
  all_goals simp [h]

@[simp] theorem execTaskPushAppend_canonical (agent : Nat) (s : State) (h : Memory.wf s.mem = true) :
    Canonical (execTaskPushAppend agent s) := by
  unfold execTaskPushAppend
  dsimp only
  repeat' split
  all_goals simp [h]

@[simp] theorem execLaunchCheck_canonical (tenant die prio : Nat) (s : State) (h : Memory.wf s.mem = true) :
    Canonical (execLaunchCheck tenant die prio s) := by
  unfold execLaunchCheck
  dsimp only
  repeat' split
  all_goals simp [h]

@[simp] theorem execWaitWordRead_canonical (tenant die prio : Nat) (s : State) (h : Memory.wf s.mem = true) :
    Canonical (execWaitWordRead tenant die prio s) := by
  unfold execWaitWordRead
  dsimp only
  repeat' split
  all_goals simp [h]

@[simp] theorem execAdmissionTake_canonical (die : Nat) (s : State) (h : Memory.wf s.mem = true) :
    Canonical (execAdmissionTake die s) := by
  unfold execAdmissionTake
  dsimp only
  repeat' split
  all_goals simp [h]

@[simp] theorem execReservationReply_canonical (die unit : Nat) (s : State) (h : Memory.wf s.mem = true) :
    Canonical (execReservationReply die unit s) := by
  unfold execReservationReply
  repeat' split
  all_goals simp [h]

@[simp] theorem execBackoffExpiry_canonical (die unit : Nat) (s : State) (h : Memory.wf s.mem = true) :
    Canonical (execBackoffExpiry die unit s) := by
  unfold execBackoffExpiry
  repeat' split
  all_goals simp [h]

@[simp] theorem execCompletionWordWrite_canonical (ix : Nat) (s : State) (h : Memory.wf s.mem = true) :
    Canonical (execCompletionWordWrite ix s) := by
  unfold execCompletionWordWrite
  split
  · simp [h]
  · next c _ =>
    split
    · simp [h]
    · extract_lets s0 failed
      split
      · simp [failed, s0, h]
      · split
        · simp [failed, s0, h]
        · next s1 x e =>
          have walked : s1.mem = s.mem := (congrArg (fun q => q.1.mem) e).symm.trans (s0.translateDie_mem ..)
          have h1 : Memory.wf s1.mem = true := by rw [walked]; exact h
          split
          · simp [h]
          · extract_lets w v s2
            split <;> simp [s2, h1]

@[simp] theorem execContextReset_canonical (tenant : Nat) (s : State) (h : Memory.wf s.mem = true) :
    Canonical (execContextReset tenant s) := by
  unfold execContextReset
  repeat' split
  all_goals simp [h]

@[simp] theorem execContextResetComplete_canonical (tenant : Nat) (s : State) (h : Memory.wf s.mem = true) :
    Canonical (execContextResetComplete tenant s) := by
  unfold execContextResetComplete
  dsimp only
  repeat' split
  all_goals simp [h]

@[simp] theorem execContextEnable_canonical (tenant : Nat) (s : State) (h : Memory.wf s.mem = true) :
    Canonical (execContextEnable tenant s) := by
  unfold execContextEnable
  dsimp only
  repeat' split
  all_goals simp [h]

@[simp] theorem execContextDisable_canonical (tenant : Nat) (s : State) (h : Memory.wf s.mem = true) :
    Canonical (execContextDisable tenant s) := by
  unfold execContextDisable
  repeat' split
  all_goals simp [h]

@[simp] theorem execPreemptRequest_canonical (tenant : Nat) (s : State) (h : Memory.wf s.mem = true) :
    Canonical (execPreemptRequest tenant s) := by
  unfold execPreemptRequest
  dsimp only
  repeat' split
  all_goals simp [h]

@[simp] theorem execYieldDeadline_canonical (gang : Nat) (s : State) (h : Memory.wf s.mem = true) :
    Canonical (execYieldDeadline gang s) := by
  unfold execYieldDeadline
  repeat' split
  all_goals simp [h]

@[simp] theorem execForcedSaveLimit_canonical (gang : Nat) (s : State) (h : Memory.wf s.mem = true) :
    Canonical (execForcedSaveLimit gang s) := by
  unfold execForcedSaveLimit
  repeat' split
  all_goals simp [h]

@[simp] theorem execGangSave_canonical (gang : Nat) (s : State) (h : Memory.wf s.mem = true) :
    Canonical (execGangSave gang s) := by
  unfold execGangSave
  dsimp only
  repeat' split
  all_goals simp [h]

@[simp] theorem execSaveSpill_canonical (die : Nat) (s : State) (h : Memory.wf s.mem = true) :
    Canonical (execSaveSpill die s) := by
  unfold execSaveSpill
  repeat' split
  all_goals simp [h]

@[simp] theorem execContextResume_canonical (tenant : Nat) (s : State) (h : Memory.wf s.mem = true) :
    Canonical (execContextResume tenant s) := by
  unfold execContextResume
  dsimp only
  repeat' split
  all_goals simp [h]

@[simp] theorem execGangRestore_canonical (die unit : Nat) (s : State) (h : Memory.wf s.mem = true) :
    Canonical (execGangRestore die unit s) := by
  have moved : ∀ g cores s0, Memory.wf s0.mem = true → Memory.wf
      (List.foldl (fun (r : State) (e : (Nat × Nat) × Nat) => r.moveCommands g e.2 e.1.1 e.1.2) s0 cores).mem = true :=
    fun g cores s0 h0 => by rw [foldl_keeps State.mem _ (fun _ _ => State.moveCommands_mem ..)]; exact h0
  have freed : ∀ g cores s0, Memory.wf s0.mem = true → Memory.wf
      (List.foldl (fun (r : State) c => r.wayFree g c) s0 cores).mem = true :=
    fun g cores s0 h0 => by rw [foldl_keeps State.mem _ (fun _ _ => State.wayFree_mem ..)]; exact h0
  have emptied : ∀ (cores : List Nat) s0, Memory.wf s0.mem = true → Memory.wf
      (List.foldl (fun (r : State) c => r.invalL1 c) s0 cores).mem = true :=
    fun cores s0 h0 => by rw [foldl_keeps State.mem _ (fun _ _ => State.invalL1_mem ..)]; exact h0
  unfold execGangRestore
  split
  · simp [h]
  · split
    · simp [h]
    · split
      · simp [h]
      · have restored := fun ps g cores s0 h0 => emptied cores _ (restoreAgents_wf ps _ (freed g cores s0 h0))
        rw [canonical_next]
        split
        · rw [State.resetContext_mem, State.spillAsks_mem]
          exact restored _ _ _ _ (moved _ _ _ h)
        · rw [State.gwaitWake_mem, State.spillAsks_mem]
          exact restored _ _ _ _ (moved _ _ _ h)

@[simp] theorem execRetry_canonical (tenant : Nat) (who : AgentName) (s : State) (h : Memory.wf s.mem = true) :
    Canonical (execRetry tenant who s) := by
  unfold execRetry
  repeat' split
  all_goals simp [h]

@[simp] theorem execSkip_canonical (tenant : Nat) (who : AgentName) (s : State) (h : Memory.wf s.mem = true) :
    Canonical (execSkip tenant who s) := by
  unfold execSkip
  repeat' split
  all_goals simp [h]

@[simp] theorem execResumeReset_canonical (tenant : Nat) (who : AgentName) (s : State) (h : Memory.wf s.mem = true) :
    Canonical (execResumeReset tenant who s) := by
  unfold execResumeReset
  repeat' split
  all_goals simp [h]

@[simp] theorem execFaultRecord_canonical (tenant : Nat) (s : State) (h : Memory.wf s.mem = true) :
    Canonical (execFaultRecord tenant s) := by
  unfold execFaultRecord
  dsimp only
  repeat' split
  all_goals simp [h]

@[simp] theorem execLoadStart_canonical (tenant : Nat) (value : DWord) (s : State) (h : Memory.wf s.mem = true) :
    Canonical (execLoadStart tenant value s) := by
  unfold execLoadStart
  repeat' split
  all_goals simp [h]

@[simp] theorem execLoadComplete_canonical (tenant : Nat) (s : State) (h : Memory.wf s.mem = true) :
    Canonical (execLoadComplete tenant s) := by
  unfold execLoadComplete
  dsimp only
  repeat' split
  all_goals simp [h]

@[simp] theorem execFuseCmd_canonical (value : DWord) (s : State) (h : Memory.wf s.mem = true) :
    Canonical (execFuseCmd value s) := by
  unfold execFuseCmd
  repeat' split
  all_goals simp [h]

@[simp] theorem execFuseBlowDone_canonical (s : State) (h : Memory.wf s.mem = true) :
    Canonical (execFuseBlowDone s) := by
  unfold execFuseBlowDone
  repeat' split
  all_goals simp [h]

@[simp] theorem execAttestationStart_canonical (s : State) (h : Memory.wf s.mem = true) :
    Canonical (execAttestationStart s) := by
  unfold execAttestationStart
  simp [h]

@[simp] theorem execAttestationReport_canonical (s : State) (h : Memory.wf s.mem = true) :
    Canonical (execAttestationReport s) := by
  unfold execAttestationReport
  dsimp only
  repeat' split
  all_goals simp [h]

@[simp] theorem execTlbInv_canonical (tenant va size : Nat) (s : State) (h : Memory.wf s.mem = true) :
    Canonical (execTlbInv tenant va size s) := by
  unfold execTlbInv
  repeat' split
  all_goals simp [h]

@[simp] theorem execTlbInvComplete_canonical (tenant : Nat) (s : State) (h : Memory.wf s.mem = true) :
    Canonical (execTlbInvComplete tenant s) := by
  unfold execTlbInvComplete
  dsimp only
  repeat' split
  all_goals simp [h]

@[simp] theorem execSliCfgWrite_canonical (stack : Nat) (value : DWord) (s : State) (h : Memory.wf s.mem = true) :
    Canonical (execSliCfgWrite stack value s) := by
  unfold execSliCfgWrite
  repeat' split
  all_goals simp [h]

@[simp] theorem execSliRatioDone_canonical (stack : Nat) (s : State) (h : Memory.wf s.mem = true) :
    Canonical (execSliRatioDone stack s) := by
  unfold execSliRatioDone
  simp [h]

@[simp] theorem execPowerLimiterStep_canonical (die mhz : Nat) (s : State) (h : Memory.wf s.mem = true) :
    Canonical (execPowerLimiterStep die mhz s) := by
  unfold execPowerLimiterStep
  repeat' split
  all_goals simp [h]

@[simp] theorem execPowerStateChange_canonical (block level : Nat) (s : State) (h : Memory.wf s.mem = true) :
    Canonical (execPowerStateChange block level s) := by
  unfold execPowerStateChange
  repeat' split
  all_goals simp [h]

@[simp] theorem execModuleTraining_canonical (module_ : Nat) (trained : Bool) (s : State) (h : Memory.wf s.mem = true) :
    Canonical (execModuleTraining module_ trained s) := by
  unfold execModuleTraining
  repeat' split
  all_goals simp [h]

@[simp] theorem execLinkPortServiceChange_canonical (port : Nat) (up : Bool) (s : State) (h : Memory.wf s.mem = true) :
    Canonical (execLinkPortServiceChange port up s) := by
  unfold execLinkPortServiceChange
  repeat' split
  all_goals simp [h]

@[simp] theorem execDeviceReset_canonical (images : List FwImage) (s : State) (h : Memory.wf s.mem = true) :
    Canonical (execDeviceReset images s) := by
  unfold execDeviceReset
  repeat' split
  all_goals simp [h]

@[simp] theorem execCxlCacheOwnershipLoss_canonical (line : Nat) (s : State) (h : Memory.wf s.mem = true) :
    Canonical (execCxlCacheOwnershipLoss line s) := by
  unfold execCxlCacheOwnershipLoss
  repeat' split
  all_goals simp [h]

@[simp] theorem State.outsideAccess_canonical (s : State) (pa : Nat) (acc : PeerAcc) (h : Memory.wf s.mem = true) :
    Canonical (State.outsideAccess s pa acc) := by
  unfold State.outsideAccess
  dsimp only
  repeat' split
  all_goals simp [h]

@[simp] theorem execHostMemAccess_canonical (pa : Nat) (acc : PeerAcc) (s : State) (h : Memory.wf s.mem = true) :
    Canonical (execHostMemAccess pa acc s) := by
  unfold execHostMemAccess
  simp [h]

@[simp] theorem execPeerAccess_canonical (dev pa : Nat) (acc : PeerAcc) (s : State) (h : Memory.wf s.mem = true) :
    Canonical (execPeerAccess dev pa acc s) := by
  unfold execPeerAccess
  repeat' split
  all_goals simp [h]

@[simp] theorem execLinkDeliveryFailure_canonical (agent op lane : Nat) (s : State) (h : Memory.wf s.mem = true) :
    Canonical (execLinkDeliveryFailure agent op lane s) := by
  unfold execLinkDeliveryFailure
  repeat' split
  all_goals simp [h]

@[simp] theorem execSoftError_canonical (site : ErrSite) (double : Bool) (s : State) (h : Memory.wf s.mem = true) :
    Canonical (execSoftError site double s) := by
  unfold execSoftError
  repeat' split
  all_goals simp [h]

/-- What an outcome goes on to, with a state to fall back on. -/
@[simp] theorem Out.or_wf {o : Out} {s : State} (ho : Canonical o) (h : Memory.wf s.mem = true) :
    Memory.wf (Out.or o s).mem = true := by
  cases o with
  | next t => exact ho t rfl
  | fault _ => exact h
  | refused _ => exact h

@[simp] theorem State.writeResume_wf (s : State) (t : Nat) (v : DWord) (h : Memory.wf s.mem = true) :
    Memory.wf (s.writeResume t v).mem = true := by
  unfold State.writeResume
  dsimp only
  split
  · exact Out.or_wf (execRetry_canonical _ _ _ h) h
  · exact Out.or_wf (execSkip_canonical _ _ _ h) h
  · exact Out.or_wf (execResumeReset_canonical _ _ _ h) h
  · exact h

@[simp] theorem State.writeCtxCtl_wf (s : State) (t : Nat) (v : DWord) (h : Memory.wf s.mem = true) :
    Memory.wf (s.writeCtxCtl t v).mem = true := by
  have switched : ∀ a b : Bool, Memory.wf (if a = true then Out.or (execContextEnable t s) s
      else if b = true then Out.or (execContextDisable t s) s else s).mem = true := fun a b => by
    split
    · exact Out.or_wf (execContextEnable_canonical _ _ h) h
    · split
      · exact Out.or_wf (execContextDisable_canonical _ _ h) h
      · exact h
  have put : ∀ (u : State) f, Memory.wf u.mem = true → Memory.wf (u.modTenant t f).mem = true := fun _ _ hu => hu
  unfold State.writeCtxCtl
  dsimp only
  split
  · exact h
  · split
    · exact h
    · have h2 := fun a b f => put _ f (switched a b)
      split
      · exact Out.or_wf (execContextReset_canonical _ _ (h2 ..)) (h2 ..)
      · split
        · exact Out.or_wf (execContextResume_canonical _ _ (h2 ..)) (h2 ..)
        · split
          · exact Out.or_wf (execPreemptRequest_canonical _ _ (h2 ..)) (h2 ..)
          · exact h2 ..

@[simp] theorem State.writeTenant_wf (s : State) (t off : Nat) (v : DWord) (h : Memory.wf s.mem = true) :
    Memory.wf (s.writeTenant t off v).mem = true := by
  unfold State.writeTenant
  dsimp only
  repeat' split
  all_goals simp [h]

theorem wf_ite {c : Prop} [Decidable c] {a b : State} (ha : Memory.wf a.mem = true) (hb : Memory.wf b.mem = true) :
    Memory.wf (if c then a else b).mem = true := by
  split
  · exact ha
  · exact hb

@[simp] theorem State.writeDevice_wf (s : State) (off : Nat) (v : DWord) (h : Memory.wf s.mem = true) :
    Memory.wf (s.writeDevice off v).mem = true := by
  unfold State.writeDevice
  extract_lets put s1 r
  have kept : ∀ m, Memory.wf (put m).mem = true := fun _ => h
  have started : Memory.wf s1.mem = true := wf_ite h h
  refine wf_ite (wf_ite h (kept _)) (wf_ite (Out.or_wf (execSliCfgWrite_canonical _ _ _ h) h) ?_)
  refine wf_ite (kept _) (wf_ite (kept _) (wf_ite (Out.or_wf (execFuseCmd_canonical _ _ h) h) (wf_ite (kept _) ?_)))
  refine wf_ite (wf_ite (Out.or_wf (execAttestationStart_canonical _ started) started) started) ?_
  exact wf_ite (kept _) (wf_ite h h)

@[simp] theorem execRegisterWrite_canonical (block : Option Nat) (off width : Nat) (value : DWord) (s : State)
    (h : Memory.wf s.mem = true) : Canonical (execRegisterWrite block off width value s) := by
  unfold execRegisterWrite
  split
  · split
    · exact (canonical_next _).2 h
    · exact (canonical_next _).2 (State.writeDevice_wf _ _ _ h)
  split
  · exact (canonical_next _).2 h
  split
  · split
    · exact execQueueWindowWrite_canonical _ _ _ _ h
    · exact (canonical_next _).2 h
  split
  · exact (canonical_next _).2 h
  · exact (canonical_next _).2 (State.writeTenant_wf _ _ _ _ h)

end Sys2Proof.Machine
end

section
/-! PROOF of `MemoryStaysCanonical` (O54): the instructions, and the step of the machine. Every instruction word is the
frame of `issueWith` around an effect of its own. -/

namespace Sys2Proof.Machine

open Sys2Proof.Claim

/-- An effect that keeps the canonical form of the memory of its surroundings. -/
def KeepsCanonical (eff : Ctx → Out) : Prop := ∀ c : Ctx, Memory.wf c.st.mem = true → Canonical (eff c)

theorem wf_of_eq {α : Type} {p : State × α} {s : State} {r : α} (e : p = (s, r)) (h : Memory.wf p.1.mem = true) :
    Memory.wf s.mem = true := by
  subst e; exact h

theorem exec_issues {i : Instr} {F : Form} (h : formOf i = some F) :
    ∃ eff : Ctx → Out, (∀ s, exec i s = issueWith F.g F.us F.size F.pre F.post eff s) ∧ KeepsCanonical eff := by
  cases i
  case vbfe | vbfi | sbfe | sbfi =>
    cases h
    constructor; constructor
    · intro s
      simp only [exec, execVbfe, execVbfi, execSbfe, execSbfi, vecField, scaField, issue, fieldUses, Bool.and_false,
        Bool.and_true]
      rfl
    · intro c h; simp [h]
  all_goals cases h
  all_goals
    constructor; constructor
    · conv => enter [s, 1]; dsimp only [
        exec, execVaddF, execVsubF, execVmulF, execVfmaF, execVminF, execVmaxF, execVaddminF, execVmaxaddF, execVcmpF,
        execVrndi, execVldexp, execVgetexp, execVnegF, execVabsF, execVrcp, execVrsqrt, execVfexp2, execVlog2,
        execVcvt, execVdp4F16, execVdp4Bf16, execVdp4I8, execVcbxCb3, execVcbxCb4, execVaddT, execVsubT, execVmulT,
        execVmulhi, execVmad, execVminT, execVmaxT, execVabsT, execVnegT, execVaddminT, execVmaxaddT, execVcmpT,
        execVand, execVor, execVxor, execVnot, execVshl, execVshr, execVpopc, execVclz, execVbfe, execVbfi, execVsel,
        execVmov, execVshup, execVshdn, execVperm, execVbcast, execVredaddF, execVscanIncF, execVscanExcF,
        execVredaddT, execVscanIncT, execVscanExcT, execVpack, execVunpack, execSaddF, execSsubF, execSmulF, execSfma,
        execSminF, execSmaxF, execScmpF, execScvt, execSaddT, execSsubT, execSmulT, execSmulhi, execSmad, execSminT,
        execSmaxT, execSabs, execSneg, execScmpT, execSand, execSor, execSxor, execSnot, execSshl, execSshr,
        execSpopc, execSclz, execSbfe, execSbfi, execSsel, execSmov, execLget, execLput, execSrd, execSwr, execBra,
        execBraAny, execBraAll, execBraNone, execBraZ, execBraNz, execJmp, execBrx, execCallDirect, execCallRegister,
        execRet, execExit, execPark, execYield, execGrow, execShrink, execTaskPush, execNop, execSli, execSli64,
        execVli, execLd, execSt, execGath, execScat, execLdb, execStb, execAtom, execRed, execRedRet, execFence,
        execPref, execIpref, execCopyAbuf, execCopyWbuf, execCopyOut, execCopyMc, execCopyQ, execToolXpose,
        execToolCvt, execToolQuant, execToolZero, execToolRsum, execChaseLink, execChaseIndex, execChaseSample,
        execL1cfg, execL1cfgQ, execWaitc, execCinvD, execCinvI, execCflush, execTbind, execLdst, execCbtload,
        execMswap, execMstream, execMop, execMzero, execChainCfg, execChainStep, execChainRun, execBdSet, execBdGet,
        execDsrd, execSetNew, execSetFree, execSetIns, execSetDel, execSetHas, execSetCard, execSetOr, execSetAnd,
        execSetSub, execSetIn, execSetOut, execSetIter, execSetHint, execSetHintNone, execSetCost, execBarInit,
        execBarArrive, execBarWait, execBarStatus, execQstate, execGstart, execGwait, execFdefer, execTrap, execTret,
        execRngOpen, execRngClose, execCapq, execTmrd, issue, vecF1, vecF2, vecF3, vecT1, vecT2, vecT3, vecField,
        scaField, scaF2, scaF3, scaT1, scaT2, scaT3, execChase, branch, callWith, copyIn, toolWith, blockCmd, algebra] 
      exact fun _ => rfl
    · intro c h
      dsimp only
      repeat' split
      all_goals simp [h]
      all_goals exact wf_of_eq (by assumption) (by simp [h])

/-- The frame of an instruction writes no memory: what it leaves is canonical where its effect is. -/
theorem issueWith_canonical {g : Guard} {us : List Use} {size : Nat} {pre post : Ctx → Option Flt} {eff : Ctx → Out}
    {s : State} (keeps : KeepsCanonical eff) (h : Memory.wf s.mem = true) :
    Canonical (issueWith g us size pre post eff s) := by
  unfold issueWith
  split
  · exact canonical_refused _
  · next c hc =>
    have hc : Memory.wf c.st.mem = true := by rw [(Ctx.of_spec hc).1]; exact h
    have ran : Canonical (eff (c.acquireTokens us)) := by
      obtain ⟨-, -, -, -, acquired, -⟩ := c.acquireTokens_spec us
      exact keeps _ (by rw [acquired]; exact hc)
    dsimp only
    repeat' split
    all_goals simp [hc, ran]

theorem exec_canonical (i : Instr) (s : State) (h : Memory.wf s.mem = true) : Canonical (exec i s) := by
  cases hf : formOf i with
  | some F =>
    obtain ⟨eff, runs, keeps⟩ := exec_issues hf
    rw [runs]
    exact issueWith_canonical keeps h
  | none =>
    cases i
    case
    unassignedWord | storeDrain | storePerform | storeAcknowledge | releaseProceed | atomicPerform | loadReturn
      | bufferAccessPerform | pageWalk | l1Fill | l2Fill | icacheFill | cxlOwnership | hbmRequestService |
      deadlineMiss | engineLineRelease | chaseHop | l1Conversion | copyEngineStart | copyChunk | toolChunk |
      commandStart | chainStepExecute | commandEnd | setEngineOperation | setFreeReturn | quiescentPoint |
      gstartTarget | trackerReport | cinchPush | gracestall | barrierArrival | flipBroadcast | parkWake |
      parkWatchDrop | parkTimeout | timer | userTrapEntry | warpSwap | growGrant | waitcRelease | taskStart |
      continuationResume | taskPushAppend | launchCheck | waitWordRead | admissionTake | reservationReply |
      backoffExpiry | completionWordWrite | queueWindowWrite | preemptRequest | yieldDeadline | forcedSaveLimit
      | gangSave | saveSpill | contextResume | gangRestore | contextReset | contextEnable | contextDisable |
      contextResetComplete | retry | skip | resumeReset | faultRecord | tlbInv | tlbInvComplete | loadStart |
      loadComplete | fuseCmd | fuseBlowDone | attestationStart | attestationReport | sliCfgWrite | sliRatioDone
      | powerLimiterStep | registerWrite | hostMemAccess | peerAccess | linkDeliveryFailure | softError |
      moduleTraining | deviceReset | cxlCacheOwnershipLoss | linkPortServiceChange | powerStateChange =>
      simp [exec, h]
    all_goals cases hf


theorem settled_canonical {a : Nat} {p : Place} {i : Instr} {o : Out} (h : Canonical o) : Canonical (settled a p i o) := by
  cases o with
  | next s => exact (canonical_next _).2 (by rw [State.issued_mem]; exact h s rfl)
  | _ => exact h

theorem State.issueNow_canonical (s : State) (a : Nat) (x : Agent) (p : Place) (pc : DWord) (run : Lanes)
    (h : Memory.wf s.mem = true) : Canonical (s.issueNow a x p pc run) := by
  unfold State.issueNow
  split
  · simp [h]
  · have fetched : Memory.wf (s.fetch p x.ident.tenant pc).1.mem = true := by rw [State.fetch_mem]; exact h
    split
    · next s1 i e =>
      rw [e] at fetched
      exact settled_canonical (exec_canonical i _ fetched)
    · next s1 y e =>
      rw [e] at fetched
      split <;> simp [fetched]
    · next s1 code addr e =>
      rw [e] at fetched
      simp [fetched]

theorem State.boundary_mem {s t : State} {a : Nat} {x : Agent} (h : s.boundary a x = some t) : t.mem = s.mem := by
  unfold State.boundary at h
  split at h
  · cases h
  · split at h
    · cases h
    · cases h
      simp

theorem State.turn_canonical (s : State) (a : Nat) (h : Memory.wf s.mem = true) : Canonical (s.turn a) := by
  unfold State.turn
  split
  · simp [h]
  · dsimp only
    split
    · split
      · simp [h]
      · have h1 : ∀ y, Memory.wf (s.atBoundary a y).mem = true := fun y => by rw [State.atBoundary_mem]; exact h
        split
        · next t ht => exact (canonical_next _).2 (by rw [State.rest_mem, State.boundary_mem ht]; exact h1 _)
        · exact State.issueNow_canonical _ _ _ _ _ _ (h1 _)
    · simp [h]

/-- The first step that changes the state is one of the steps that were tried. -/
theorem firstChange_exec {s : State} {o : Out} : ∀ {l : List Instr}, firstChange s l = some o → ∃ i, o = exec i s
  | [], h => by cases h
  | i :: l, h => by
    unfold firstChange at h
    split at h
    · cases h; exact ⟨i, rfl⟩
    · exact firstChange_exec h

theorem firstChange_canonical {s : State} {l : List Instr} {o : Out} (h : Memory.wf s.mem = true)
    (ho : firstChange s l = some o) : Canonical o := by
  obtain ⟨i, rfl⟩ := firstChange_exec ho
  exact exec_canonical i s h

theorem State.endClock_canonical (s : State) (h : Memory.wf s.mem = true) : Canonical s.endClock := by
  unfold State.endClock
  split
  · next o ho => exact firstChange_canonical h ho
  · exact (canonical_next _).2 (by rw [State.nextClock_mem]; exact h)

theorem State.choose_canonical (s : State) (c : Choice) (h : Memory.wf s.mem = true) : Canonical (s.choose c) := by
  have stays : Canonical (.next s) := (canonical_next s).2 h
  cases c with
  | step i =>
    unfold State.choose
    dsimp only
    split
    · exact exec_canonical i s h
    · exact stays
  | turn a =>
    unfold State.choose
    dsimp only
    split
    · split
      · exact s.turn_canonical a h
      · exact stays
    · exact stays
  | clock => exact s.endClock_canonical h

theorem State.proceed_canonical (s : State) (h : Memory.wf s.mem = true) : Canonical s.proceed := by
  unfold State.proceed
  split
  · next o ho => exact firstChange_canonical h ho
  · split
    · exact execSliRatioDone_canonical _ _ h
    · split
      · exact s.turn_canonical _ h
      · exact s.endClock_canonical h

/-- Settles O54: every instruction and every step of the part leaves a canonical memory canonical (`exec_canonical`), and a step
of the machine is a turn, a step of the part, or the next clock. -/
theorem memoryStaysCanonical : Obligations.MemoryStaysCanonical := by
  intro s t h hs
  have steps : Canonical (step s) := by
    unfold step
    split
    · exact s.turn_canonical _ h
    · split
      · exact State.choose_canonical _ _ h
      · exact s.proceed_canonical h
  exact steps t hs

end Sys2Proof.Machine
end

section
/-! PROOF of `IssueWaitsAndSkips` (O2). Every instruction word is the frame of `issueWith` (`exec_issues`), and the frame settles
these cases before it comes to the instruction's effect. -/

namespace Sys2Proof.Machine

open Sys2Proof.Claim

/-- A wait at issue changes the waiting agent alone (R34, R99). -/
theorem Ctx.waitOn_stalls {s : State} {g : Guard} {c : Ctx} (h : Ctx.of s g = some c) (us : List Use) :
    c.waitOn us = stalledFrom c
      (if c.st.onToken c.key c.ag.flight us then some (c.ag.ctl.waitSince.getD c.st.time) else none) := by
  obtain ⟨hst, -, hag, -⟩ := Ctx.of_spec h
  have standing : ∀ x, kget c.st.agents c.key = some x → x = c.ag := fun x hx => by
    rw [hst] at hx; exact Option.some.inj (hx.symm.trans hag)
  unfold Ctx.waitOn stalledFrom
  split
  · unfold State.modAgent
    congr 1
    exact kmod_congr _ _ _ _ fun x hx => by cases standing x hx; rfl
  · rfl

theorem pendingRegisterWaits : Claim.PendingRegisterWaits := by
  intro i F s c hF hc hu hp hw
  obtain ⟨eff, issues, -⟩ := exec_issues hF
  rw [issues, issueWith_pending hc hu hp hw, Ctx.waitOn_stalls hc]

theorem guardedOffOnlyAdvances : Claim.GuardedOffOnlyAdvances := by
  intro i F s c hF hc hu hp hw ha
  obtain ⟨eff, issues, -⟩ := exec_issues hF
  exact ⟨_, PcsAdvanced.intro _ _ c.ag.ctl, by rw [issues, issueWith_off hc hu hp hw ha]; rfl⟩

theorem markedRegisterFaults : Claim.MarkedRegisterFaults := by
  intro i F s c hF hc hu hp hw ha hm
  obtain ⟨eff, issues, -⟩ := exec_issues hF
  rw [issues, issueWith_poison hc hu hp hw ha hm]
  rfl

/-- Settles O2. -/
theorem issueWaitsAndSkips : Obligations.IssueWaitsAndSkips :=
  ⟨pendingRegisterWaits, guardedOffOnlyAdvances, markedRegisterFaults⟩

end Sys2Proof.Machine
end

section
/-! PROOF of `CopiesAndToolsAreAccepted` (O15). Each instruction that runs comes to `launchCopy` or `launchTool` with the fields
that `copyOf` and `toolOf` read, and these accept it where there is room. -/

namespace Sys2Proof.Machine

open Sys2Proof.Claim

/-- An instruction that runs has its effect, whichever it is. -/
theorem Runs.effect {s : State} {F : Form} {c : Ctx} (hr : Runs s F c) (eff : Ctx → Out) :
    issueWith F.g F.us F.size F.pre F.post eff s = eff c := issueWith_runs hr

/-- A copy that runs is offered to its core with the fields that its operands give (R232 to R235). -/
theorem copyOf_launches {i : Instr} {F : Form} {s : State} {c : Ctx} {kind : CopyKind} {q : Qual} {buf : Nat} {glob : DWord}
    {n tok : Nat} {out : Bool} (hF : formOf i = some F) (hr : Runs s F c)
    (hk : copyOf i c = some (kind, q, buf, glob, n, tok, out)) :
    exec i s = .next (c.launchCopy kind q buf glob n tok out) := by
  unfold copyOf at hk
  split at hk
  case h_1 | h_2 | h_3 | h_4 =>
    cases hF
    cases hk
    have run := Runs.effect hr
    dsimp only [exec, execCopyAbuf, execCopyWbuf, execCopyMc, execCopyOut, copyIn] at run ⊢
    exact run _
  case h_5 =>
    cases hF
    have run := Runs.effect hr
    dsimp only [exec, execCopyQ] at run ⊢
    refine (run _).trans ?_
    split at hk
    · cases hk
    · next stores =>
      obtain ⟨e, he, hk⟩ := Option.bind_eq_some_iff.mp hk
      obtain ⟨inside, hk⟩ := Option.ite_none_right_eq_some.mp hk
      cases hk
      simp only [stores, he, inside, Bool.not_true, Bool.false_eq_true, if_false]
  case h_6 => cases hk

/-- A tooling command that runs is offered to its core with the fields that its operands give (R237, R238). -/
theorem toolOf_launches {i : Instr} {F : Form} {s : State} {c : Ctx} {kind : ToolKind} {b : Buf} {off n tok : Nat}
    (hF : formOf i = some F) (hr : Runs s F c) (hk : toolOf i c = some (kind, b, off, n, tok)) :
    exec i s = .next (c.launchTool kind b off n tok) := by
  unfold toolOf at hk
  split at hk
  case h_1 =>
    cases hF
    have run := Runs.effect hr
    dsimp only [exec, execToolXpose, toolWith] at run ⊢
    refine (run _).trans ?_
    split at hk
    · next small => cases hk; simp only [small, if_true]
    · cases hk
  case h_2 =>
    cases hF
    obtain ⟨⟨k, u⟩, he, hk⟩ := Option.map_eq_some_iff.mp hk
    cases hk
    have run := Runs.effect hr
    dsimp only [exec, execToolCvt, toolWith] at run ⊢
    refine (run _).trans ?_
    unfold cvtKind at he
    rw [he]
  case h_3 | h_4 =>
    cases hF
    cases hk
    have run := Runs.effect hr
    dsimp only [exec, execToolZero, execToolRsum, toolWith] at run ⊢
    exact run _
  case h_5 =>
    cases hF
    have run := Runs.effect hr
    dsimp only [exec, execToolQuant] at run ⊢
    refine (run _).trans ?_
    split at hk
    · cases hk
    · next stores =>
      obtain ⟨e, he, hk⟩ := Option.map_eq_some_iff.mp hk
      cases hk
      simp only [stores, he, Bool.false_eq_true, if_false]
  case h_6 => cases hk

/-- A core that holds 64 copies takes no more (R129). -/
theorem Ctx.launchCopy_full {c : Ctx} (h : 64 ≤ c.st.copiesHeld c.ag.core) (kind : CopyKind) (q : Qual) (buf : Nat)
    (glob : DWord) (n tok : Nat) (out : Bool) : c.launchCopy kind q buf glob n tok out = stalled c := by
  unfold Ctx.launchCopy
  rw [if_pos h]
  rfl

/-- An agent with 15 tooling commands outstanding has no more taken (R100). -/
theorem Ctx.launchTool_full {c : Ctx} (h : 15 ≤ c.st.toolCount c.key c.ag.core) (kind : ToolKind) (b : Buf)
    (off n tok : Nat) : c.launchTool kind b off n tok = stalled c := by
  unfold Ctx.launchTool
  rw [if_pos h]
  rfl

theorem copiesAreAccepted : Claim.CopiesAreAccepted := by
  intro i F s c kind q buf glob n tok out hF hr hk
  rw [copyOf_launches hF hr hk]
  refine ⟨fun room => ?_, fun full => by rw [Ctx.launchCopy_full full]⟩
  unfold Ctx.launchCopy
  rw [if_neg (Nat.not_le.mpr room)]
  refine ⟨_, _, _, rfl, rfl, rfl, rfl, rfl, rfl, rfl, rfl, rfl, rfl, rfl, rfl, rfl, rfl, rfl, rfl, rfl, fun inward => ?_, rfl,
    PcsAdvanced.intro _ _ c.ag.ctl, fun a => ?_⟩
  · rw [inward]; rfl
  · exact congrArg (fun m => kgetD 0#8 m a) (Runs.mem hr)

theorem toolingCommandsAreAccepted : Claim.ToolingCommandsAreAccepted := by
  intro i F s c kind b off n tok hF hr hk
  rw [toolOf_launches hF hr hk]
  refine ⟨fun room => ?_, fun full => by rw [Ctx.launchTool_full full]⟩
  unfold Ctx.launchTool
  rw [if_neg (Nat.not_le.mpr room)]
  exact ⟨_, _, _, rfl, rfl, rfl, rfl, rfl, rfl, rfl, rfl, rfl, rfl, rfl, rfl, rfl, rfl, rfl,
    PcsAdvanced.intro _ _ c.ag.ctl, fun a => congrArg (fun m => kgetD 0#8 m a) (Runs.mem hr)⟩

/-- Settles O15. -/
theorem copiesAndToolsAreAccepted : Obligations.CopiesAndToolsAreAccepted :=
  ⟨copiesAreAccepted, toolingCommandsAreAccepted⟩

end Sys2Proof.Machine
end

section
/-! PROOF of `TranslationAsksTheTlbsFirst` (O20). One lemma for each place that a translation may find its leaf in; the leaf that
answers stands first in the L1 TLB and covers the address. -/

namespace Sys2Proof.Machine

open Sys2Proof.Claim

/-! ## Entries that cover an address -/

/-- The entry maps the page of a tenant's address. -/
def TlbEntry.covers (e : TlbEntry) (tenant va : Nat) : Bool := e.tenant == tenant && va / 2 ^ e.bits == e.base

theorem tlbFind_covers {tlb : List TlbEntry} {tenant va : Nat} {e : TlbEntry} (h : tlbFind tlb tenant va = some e) :
    e.covers tenant va = true := by
  have found := List.find?_some h
  exact found

/-- An entry just added is the one found for the addresses it covers. -/
theorem tlbFind_tlbAdd {e : TlbEntry} {tenant va : Nat} (h : e.covers tenant va = true) (n : Nat) (tlb : List TlbEntry) :
    tlbFind (tlbAdd (n + 1) tlb e) tenant va = some e := by
  unfold tlbFind tlbAdd
  rw [List.take_succ_cons]
  exact List.find?_cons_of_pos h

theorem head?_tlbAdd (n : Nat) (tlb : List TlbEntry) (e : TlbEntry) : (tlbAdd (n + 1) tlb e).head? = some e := by
  unfold tlbAdd
  rw [List.take_succ_cons, List.head?_cons]

/-- The leaf that a walk finds maps the page of the address walked for. -/
theorem walkLevel_covers {s : State} {tenant die va : Nat} {e : TlbEntry} :
    ∀ {left table : Nat}, walkLevel s tenant die va left table = .leaf e → e.covers tenant va = true
  | 0, _, h => by cases h
  | left + 1, table, h => by
    unfold walkLevel at h
    dsimp only at h
    split at h
    · cases h
    split at h
    · split at h
      · cases h
      · cases h
        simp [TlbEntry.covers, leafEntry]
    split at h
    · cases h
    · exact walkLevel_covers h

theorem walk_covers {s : State} {tenant die va : Nat} {e : TlbEntry} (h : walk s tenant die va = .leaf e) :
    e.covers tenant va = true :=
  walkLevel_covers h

/-- A permission that is given is the leaf's own location (R92). -/
theorem TlbEntry.permit_ok {e : TlbEntry} {w : Want} {va : Nat} {x : Xlat} (h : e.permit w va = .ok x) : x = e.xlat va := by
  cases w <;> simp only [TlbEntry.permit] at h
  case read => cases h; rfl
  all_goals
    split at h
    · cases h; rfl
    · cases h

/-! ## The three places of a leaf -/

theorem State.core_modDie (s : State) (d : Nat) (f : Die → Die) (c : Nat) : (s.modDie d f).core c = s.core c := rfl

section Places
variable {s : State} {core tenant : Nat} {va : DWord}

/-- R86: an address at or above 2^57. -/
theorem State.translate_beyond (w : Want) (h : 144115188075855872 ≤ va.toNat) :
    s.translate core tenant va w = (s, .fault codeProtection) := by
  unfold State.translate
  rw [if_pos h]

variable (below : va.toNat < 144115188075855872) (l1 : tlbFind (s.core core).tlb tenant va.toNat = none)
include below l1

/-- R91: the L2 TLB answers where the L1 TLB does not, and the entry is kept in the L1 TLB. -/
theorem State.translate_l2 (w : Want) {e : TlbEntry}
    (l2 : tlbFind (s.die (dieOfCore core)).tlb tenant va.toNat = some e) :
    s.translate core tenant va w = (s.modCore core fun c => { c with tlb := tlbAdd 512 c.tlb e }, e.permit w va.toNat) := by
  unfold State.translate
  rw [if_neg (Nat.not_le.mpr below), l1, l2]

/-- R91: a walk answers where neither TLB does. -/
theorem State.translate_walk (w : Want) (l2 : tlbFind (s.die (dieOfCore core)).tlb tenant va.toNat = none) :
    s.translate core tenant va w = s.walked core w va.toNat (walk s tenant (dieOfCore core) va.toNat) := by
  unfold State.translate
  rw [if_neg (Nat.not_le.mpr below), l1, l2]

end Places

/-- The leaf that a walk found stands first in both TLBs (R91). -/
theorem State.walked_head (s : State) (core : Nat) (w : Want) (v : Nat) (e : TlbEntry) :
    ((s.walked core w v (.leaf e)).1.core core).tlb.head? = some e ∧
      ((s.walked core w v (.leaf e)).1.die (dieOfCore core)).tlb.head? = some e := by
  unfold State.walked
  constructor
  · rw [State.core_modDie, State.core_modCore, if_pos rfl]
    exact head?_tlbAdd ..
  · rw [State.die_modDie, if_pos rfl]
    exact head?_tlbAdd ..

/-- After an answer that is no fault the core's L1 TLB holds the leaf that gave it (R91). -/
theorem State.translate_pageOf {s s1 : State} {core tenant : Nat} {va : DWord} {w : Want} {x : Xlat}
    (h : s.translate core tenant va w = (s1, .ok x)) : ∃ e, s1.pageOf core tenant va = some e ∧ x = e.xlat va.toNat := by
  rcases Nat.lt_or_ge va.toNat 144115188075855872 with below | beyond
  · cases l1 : tlbFind (s.core core).tlb tenant va.toNat with
    | some e =>
      obtain ⟨rfl, hx⟩ := Prod.mk.inj ((State.translate_hit w below l1).symm.trans h)
      exact ⟨e, l1, TlbEntry.permit_ok hx⟩
    | none =>
      cases l2 : tlbFind (s.die (dieOfCore core)).tlb tenant va.toNat with
      | some e =>
        obtain ⟨rfl, hx⟩ := Prod.mk.inj ((State.translate_l2 below l1 w l2).symm.trans h)
        refine ⟨e, ?_, TlbEntry.permit_ok hx⟩
        rw [State.pageOf, State.core_modCore, if_pos rfl]
        exact tlbFind_tlbAdd (tlbFind_covers l2) ..
      | none =>
        have h := (State.translate_walk below l1 w l2).symm.trans h
        cases hw : walk s tenant (dieOfCore core) va.toNat with
        | leaf e =>
          rw [hw] at h
          obtain ⟨rfl, hx⟩ := Prod.mk.inj h
          refine ⟨e, ?_, TlbEntry.permit_ok hx⟩
          rw [State.pageOf, State.core_modDie, State.core_modCore, if_pos rfl]
          exact tlbFind_tlbAdd (walk_covers hw) ..
        | fault code => rw [hw] at h; cases h
  · rw [State.translate_beyond w beyond] at h; cases h

/-- Settles O20. -/
theorem translationAsksTheTlbsFirst : Obligations.TranslationAsksTheTlbsFirst := by
  intro s core tenant va w
  refine ⟨State.translate_beyond w, fun s1 x h => State.translate_pageOf h, fun below =>
    ⟨fun e l1 => ?_, fun l1 => ⟨fun e l2 => ?_, fun l2 => ⟨fun e leaf => ?_, fun code fault => ?_⟩⟩⟩⟩
  · exact State.translate_hit w below l1
  · refine ⟨_, State.translate_l2 below l1 w l2, rfl, fun _ => rfl, ?_⟩
    rw [State.core_modCore, if_pos rfl]
    exact head?_tlbAdd ..
  · have answer := State.translate_walk below l1 w l2
    rw [show walk s tenant (dieOfCore core) va.toNat = .leaf e from leaf] at answer
    obtain ⟨l1Head, l2Head⟩ := s.walked_head core w va.toNat e
    exact ⟨_, answer, fun _ => rfl, l1Head, l2Head⟩
  · rw [State.translate_walk below l1 w l2, show walk s tenant (dieOfCore core) va.toNat = .fault code from fault]
    rfl

end Sys2Proof.Machine
end

section
/-! PROOF of `PageWalkResolvesItsPage` (O19). The step is unfolded once, in `execPageWalk_resolves`; what it leaves is one of the
two changes of the agent that the statement names, over a state that differs by the walk alone. -/

namespace Sys2Proof.Machine

open Sys2Proof.Claim

/-! ## What the step comes to -/

/-- The lanes that a walk for the page of `l0` resolves. -/
def waitsForPage (s : State) (core tenant : Nat) (l0 l : LaneOp) : Bool :=
  l.st.isFresh && decide (l.va.toNat / 2 ^ s.pageBits core tenant l0.va = l0.va.toNat / 2 ^ s.pageBits core tenant l0.va)

theorem waitsForPage_eq (s : State) (core tenant : Nat) (l0 : LaneOp) :
    (fun l : LaneOp => l.st.isFresh && PageName.has (s.pageName core tenant l0.va) l.va) = waitsForPage s core tenant l0 := by
  funext l
  unfold waitsForPage PageName.has State.pageName
  rw [Bool.beq_eq_decide_eq]

/-- The lanes of the page keep the code of a fault, and the agent stops (R316). -/
def State.pageFails (s1 : State) (agent op : Nat) (x : Agent) (o : MemOp) (here : LaneOp → Bool) (first : LaneOp) (code : Nat) :
    State :=
  (s1.modOp agent op (MemOp.mapLanes here fun l => { l with st := .faulted code })).partFault agent x o code first

/-- The lanes of the page get their locations. -/
def State.pageFound (s1 : State) (agent op : Nat) (here : LaneOp → Bool) (leaf : Option TlbEntry) (t : Xlat) : State :=
  s1.modOp agent op (MemOp.mapLanes here fun l =>
    { l with st := .ready, loc := some ((leaf.map fun (e : TlbEntry) => e.xlat l.va.toNat).getD t) })

/-- What the step does with the answer of a walk. -/
def State.pageAnswered (s1 : State) (agent op : Nat) (x : Agent) (p : Place) (o : MemOp) (here : LaneOp → Bool)
    (l0 first : LaneOp) : XRes → Out
  | .fault code => .next (s1.pageFails agent op x o here first code)
  | .ok t =>
    if o.isCoreAtomic && !t.inL1 then .next (s1.pageFails agent op x o here first codeProtection)
    else .next (s1.pageFound agent op here (s1.pageOf p.core x.ident.tenant l0.va) t)

section Step
variable {s s1 : State} {agent op lane : Nat} {x : Agent} {p : Place} {o : MemOp} {l0 first : LaneOp} {r : XRes}
variable (ho : s.op? agent op = some (x, p, o))
  (hl : o.lanes.find? (fun l => l.lane == lane && l.st.isFresh) = some l0)
include ho hl

theorem execPageWalk_resolves (hw : o.waiting = false) (hm : s.missEntry x p o l0.va = true)
    (ht : s.translateFor (reqOf p) p.core x.ident.tenant l0.va (if o.isLoad || o.isFlush then Want.read else .write) = (s1, r))
    (hf : o.lanes.find? (waitsForPage s p.core x.ident.tenant l0) = some first) :
    execPageWalk agent op lane s =
      s1.pageAnswered agent op x p o (waitsForPage s p.core x.ident.tenant l0) l0 first r := by
  unfold execPageWalk
  split
  · next e => rw [ho] at e; cases e
  next e =>
    rw [ho] at e
    cases e
    split
    · next e => rw [hl] at e; cases e
    next e =>
      rw [hl] at e
      cases e
      rw [if_neg (by rw [hw]; exact Bool.false_ne_true), if_neg (by rw [hm]; exact Bool.false_ne_true)]
      extract_lets want page here first'
      have hereEq : here = waitsForPage s p.core x.ident.tenant l0 := waitsForPage_eq ..
      have firstEq : first' = first := by rw [show first' = (o.lanes.find? here).getD l0 from rfl, hereEq, hf]; rfl
      split
      next e =>
        cases ht.symm.trans e
        clear_value here first'
        subst hereEq firstEq
        cases r <;> rfl

/-- An instruction that a restore has given back takes its entries, or waits for them (R321). -/
theorem execPageWalk_waits (hw : o.waiting = true) :
    execPageWalk agent op lane s = if s.takesEntries x p o then
      .next (s.modOp agent op fun q =>
        { q with waiting := false, missed := s.missesOf p.core x.ident.tenant q.untranslated })
      else .next s := by
  unfold execPageWalk
  split
  · next e => rw [ho] at e; cases e
  next e =>
    rw [ho] at e
    cases e
    split
    · next e => rw [hl] at e; cases e
    · exact if_pos hw

/-- Without a miss entry the lane waits (R91, R96). -/
theorem execPageWalk_noEntry (hw : o.waiting = false) (hm : s.missEntry x p o l0.va = false) :
    execPageWalk agent op lane s = .next s := by
  unfold execPageWalk
  split
  · rfl
  next e =>
    rw [ho] at e
    cases e
    split
    · rfl
    next e =>
      rw [hl] at e
      cases e
      rw [if_neg (by rw [hw]; exact Bool.false_ne_true), if_pos (by rw [hm]; rfl)]

end Step

/-! ## What becomes of the agent -/

/-- A translation, with the reads of its walk, changes TLBs and the home slices' books alone. -/
theorem SameButWalks.translateFor (s : State) (req core tenant : Nat) (va : DWord) (w : Want) :
    SameButWalks s (s.translateFor req core tenant va w).1 := by
  unfold State.translateFor
  exact (SameButHomes.walkAsks ..).walks.trans (.translate ..)

/-- A part's fault after issue stops an agent that runs, and is kept beside the stop of one that has stopped (R316). -/
theorem State.partFault_spec {s : State} {a : Nat} {x x0 : Agent} (hx : s.agent? a = some x) (same : x.ctl = x0.ctl) (o : MemOp)
    (code : Nat) (l : LaneOp) :
    ∃ y, AgentBecomes s (s.partFault a x0 o code l) a y ∧ y = { x with ctl := y.ctl } ∧
      y.ctl = { x.ctl with stop := y.ctl.stop, more := y.ctl.more } ∧
      (x.ctl.stop = none → y.ctl.more = x.ctl.more ∧ ∃ z, y.ctl.stop = some z ∧ z.code = code ∧ z.addr = l.va ∧
        z.lane = l.lane ∧ z.logIx = o.logIx ∧ z.wr = (o.isStore && !o.isFlush) ∧ z.fetch = false ∧ z.recorded = false) ∧
      (x.ctl.stop ≠ none → y.ctl.stop = x.ctl.stop ∧ ∃ z, y.ctl.more = x.ctl.more ++ [z] ∧ z.code = code ∧
        z.addr = l.va ∧ z.lane = l.lane) := by
  unfold State.partFault
  rw [← same]
  cases stop : x.ctl.stop with
  | none =>
    exact ⟨_, AgentBecomes.mod hx _, rfl, rfl, fun _ => ⟨rfl, _, rfl, rfl, rfl, rfl, rfl, rfl, rfl, rfl⟩, fun h => (h rfl).elim⟩
  | some f =>
    exact ⟨_, AgentBecomes.mod hx _, rfl, rfl, nofun, fun _ => ⟨stop, _, rfl, rfl, rfl, rfl⟩⟩

/-- Settles O19. -/
theorem pageWalkResolvesItsPage : Obligations.PageWalkResolvesItsPage := by
  intro s s1 r a id lane x p o l0 first ho hl
  obtain ⟨hx, -, -, -⟩ := State.op?_spec ho
  refine ⟨fun hw ht => ?_, fun hw ht => ?_, fun hw hm => execPageWalk_noEntry ho hl hw hm, fun hw hm => ?_⟩
  · exact (execPageWalk_waits ho hl hw).trans (if_neg (by rw [ht]; exact Bool.false_ne_true))
  · exact ⟨_, (execPageWalk_waits ho hl hw).trans (if_pos ht), AgentBecomes.mod hx _⟩
  intro want walked size here hf
  have runs := execPageWalk_resolves ho hl hw hm walked hf
  have same : SameButWalks s s1 := by
    have h := SameButWalks.translateFor s (reqOf p) p.core x.ident.tenant l0.va want
    rwa [walked] at h
  have hx1 : s1.agent? a = some x := by unfold State.agent?; rw [same.agents]; exact hx
  refine ⟨same, fun k => congrArg (kgetD 0#8 · k) same.mem, fun t e hr leaf core => ?_, fun code hr => ?_⟩
  · subst hr
    refine ⟨_, runs.trans (if_neg (by rw [core]; exact Bool.false_ne_true)), ?_⟩
    rw [leaf]
    exact AgentBecomes.mod hx1 _
  · have fails : exec (.pageWalk a id lane) s = .next (s1.pageFails a id x o here first code) := by
      obtain rfl | ⟨rfl, core, t, rfl, l1⟩ := hr
      · exact runs
      · exact runs.trans (if_pos (by rw [core, l1]; rfl))
    have moved := AgentBecomes.mod hx1 (Agent.mapFlight (Flight.modOp id (MemOp.mapLanes here fun l => { l with st := .faulted code })))
    obtain ⟨y, becomes, rest, ctl, runsOn, stopped⟩ := State.partFault_spec moved.agent rfl o code first
    exact ⟨_, y, fails, moved.trans becomes, rest, ctl, runsOn, stopped⟩

end Sys2Proof.Machine
end

section
/-! RULES for the returns of `red.ret` (O24): what `sendReturns` leaves of the cores' L1s, of the gangs and of the targets' bytes. -/

namespace Sys2Proof.Machine

open Sys2Proof.Claim

/-! ## Bytes of a buffer after a write inside its grant -/

theorem BufAt.key_succ (p : BufAt) (off : Nat) : p.key (off + 1) = p.key off + 1 := by
  unfold BufAt.key
  exact (Nat.add_assoc ..).symm

theorem BufAt.key_abuf (g pos core off : Nat) : BufAt.key ⟨g, pos, core, .abuf⟩ off = pos * 16777216 + off := by
  simp only [BufAt.key, bufCode, Nat.zero_mul, Nat.add_zero]

section Bytes
variable {p q : BufAt} {k : Nat} (same : p.gang = q.gang) (hq : q.inWay k = false)
include same hq

theorem State.bufByte_bufPut1 {s : State} {off : Nat} (there : (s.gang? p.gang).isSome = true) (hp : p.inWay off = false)
    (b : Byte) : (s.bufPut1 p off b).bufByte q k = if p.key off = q.key k then b else s.bufByte q k := by
  obtain ⟨g, hg⟩ := Option.isSome_iff_exists.mp there
  unfold State.bufPut1 State.bufByte
  rw [if_neg (Bool.eq_false_iff.mp hp), if_neg (Bool.eq_false_iff.mp hq), if_neg (Bool.eq_false_iff.mp hq),
    State.gang?_modGang, if_pos same, ← same, hg]
  exact kgetD_ksetD ..

/-- Consecutive bytes put into a buffer, below its converted ways. -/
theorem State.bufByte_puts {s : State} {off : Nat} {bs : List Byte} (there : (s.gang? p.gang).isSome = true)
    (hp : ∀ i, i < bs.length → p.inWay (off + i) = false) :
    ((cellsAt off bs).foldl (fun s c => s.bufPut1 p c.1 c.2) s).bufByte q k =
      (lastByte (q.key k) (cellsAt (p.key off) bs)).getD (s.bufByte q k) := by
  induction bs generalizing s off with
  | nil => rw [cellsAt, cellsAt, List.foldl_nil, lastByte, Option.getD_none]
  | cons b t ih =>
    have first : p.inWay off = false := by
      have := hp 0 (Nat.succ_pos _)
      rwa [Nat.add_zero] at this
    have there1 : ((s.bufPut1 p off b).gang? p.gang).isSome = true := by
      have := congrArg Option.isSome (bufPut1_msgs s p off b p.gang)
      rwa [Option.isSome_map, Option.isSome_map, there] at this
    rw [cellsAt, List.foldl_cons, ih there1 fun i hi => ?_, State.bufByte_bufPut1 same hq there first]
    · rw [cellsAt, lastByte, BufAt.key_succ]
      cases lastByte (q.key k) (cellsAt (p.key off + 1) t) with
      | some v => rw [Option.some_or, Option.getD_some, Option.getD_some]
      | none => by_cases h : p.key off = q.key k <;> simp [h]
    · rw [Nat.add_assoc, Nat.add_comm 1]
      exact hp (i + 1) (Nat.succ_lt_succ hi)

theorem State.bufByte_bufWrite {s : State} {off : Nat} {bs : List Byte} (there : (s.gang? p.gang).isSome = true)
    (hp : ∀ i, i < bs.length → p.inWay (off + i) = false) :
    (s.bufWrite p (cellsAt off bs)).bufByte q k = (lastByte (q.key k) (cellsAt (p.key off) bs)).getD (s.bufByte q k) := by
  unfold State.bufWrite
  rw [(SameBuffers.foldl _ (fun s r => .setBufMark s p r false) _ _).bufByte, State.bufByte_puts same hq there hp]

end Bytes

/-! ## One return -/

/-- The old value of one lane at its target, with its mark and its arrival (R229). -/
def State.sendReturn (s : State) (g w : Nat) (cores : List (Nat × Nat)) (l : LaneOp) : State :=
  sendReturns g w cores [l] s

theorem sendReturns_cons (g w : Nat) (cores : List (Nat × Nat)) (l : LaneOp) (t : List LaneOp) (s : State) :
    sendReturns g w cores (l :: t) s = sendReturns g w cores t (s.sendReturn g w cores l) := rfl

/-- The buffer that a lane's old value goes to. -/
def returnBuf (g : Nat) (cores : List (Nat × Nat)) (l : LaneOp) : BufAt :=
  ⟨g, tgtPos l.target, ((cores.find? fun e => e.1 == tgtPos l.target).map fun e => e.2).getD 0, .abuf⟩

/-- The bytes of the lane's old value, with the marks of a bad one. -/
def State.putReturn (s : State) (g w : Nat) (cores : List (Nat × Nat)) (l : LaneOp) : State :=
  s.bring (returnBuf g cores l) (tgtOff l.target) (leBytes w l.val.toNat) l.mark

theorem State.sendReturn_eq (s : State) (g w : Nat) (cores : List (Nat × Nat)) (l : LaneOp) :
    s.sendReturn g w cores l = (s.putReturn g w cores l).barSend g (tgtPos l.target) (tgtBar l.target) .arrive := by
  unfold State.putReturn State.bring
  rw [leBytes_length]
  rfl

/-- A byte of an ABUF, below its converted ways, that a return of `w` bytes covers. -/
def coversByte (w tp k : Nat) (l : LaneOp) : Bool :=
  decide (tgtPos l.target = tp ∧ tgtOff l.target ≤ k ∧ k < tgtOff l.target + w)

section Return
variable (s : State) (g w : Nat) (cores : List (Nat × Nat)) (l : LaneOp)

theorem State.sendReturn_l1 (c : Nat) : ((s.sendReturn g w cores l).core c).l1 = (s.core c).l1 := by
  have kept : ((s.putReturn g w cores l).core c).beside = (s.core c).beside := by
    unfold State.putReturn State.bring
    split
    · rw [State.bufMarkRows_beside, State.bufWrite_beside]
    · rw [State.bufWrite_beside]
  rw [State.sendReturn_eq, State.barSend, State.core_modGang]
  have l1 := congrArg Core.l1 kept
  exact l1

theorem State.sendReturn_gang : ((s.sendReturn g w cores l).gang? g).isSome = (s.gang? g).isSome := by
  have spec := (sendReturns_spec g w cores [l] s).2.2
  have := congrArg Option.isSome spec
  rwa [Option.isSome_map, Option.isSome_map] at this

variable {s g w l}

theorem State.sendReturn_byte {tp core k : Nat} (there : (s.gang? g).isSome = true) (room : tgtOff l.target + w ≤ 262144)
    (hk : k < 262144) :
    (s.sendReturn g w cores l).bufByte ⟨g, tp, core, .abuf⟩ k =
      if coversByte w tp k l then BitVec.ofNat 8 (l.val.toNat / 256 ^ (k - tgtOff l.target))
      else s.bufByte ⟨g, tp, core, .abuf⟩ k := by
  have arrival : SameBuffers (s.putReturn g w cores l)
      ((s.putReturn g w cores l).barSend g (tgtPos l.target) (tgtBar l.target) .arrive) := by
    refine ⟨fun _ => rfl, fun h => ?_⟩
    unfold State.barSend
    rw [State.gang?_modGang]
    split
    · rw [Option.map_map]; rfl
    · rfl
  have inside : BufAt.inWay ⟨g, tp, core, .abuf⟩ k = false := by
    unfold BufAt.inWay
    simp [hk]
  rw [State.sendReturn_eq, arrival.bufByte]
  unfold State.putReturn
  rw [(SameBuffers.bring _ _ _ (.refl s) l.mark).bufByte,
    State.bufByte_bufWrite (by rfl) inside there fun i hi => ?_, lastByte_cellsAt]
  · rw [returnBuf, BufAt.key_abuf, BufAt.key_abuf]
    by_cases covered : coversByte w tp k l = true
    · obtain ⟨rfl, lo, hi⟩ := of_decide_eq_true covered
      have short : k - tgtOff l.target < (leBytes w l.val.toNat).length := by rw [leBytes_length]; omega
      rw [if_pos covered, if_pos (by omega), Nat.add_sub_add_left, List.getElem?_eq_getElem short, Option.getD_some,
        ← List.getD_eq_getElem _ 0#8 short, leBytes_getD _ _ _ (by omega)]
    · rw [if_neg covered]
      have outside : ¬ (tgtPos l.target = tp ∧ tgtOff l.target ≤ k ∧ k < tgtOff l.target + w) :=
        fun h => covered (decide_eq_true h)
      split
      · rw [List.getElem?_eq_none (by rw [leBytes_length]; omega)]
        rfl
      · rfl
  · unfold BufAt.inWay
    rw [leBytes_length] at hi
    simp; omega

end Return

/-! ## All returns -/

section Returns
variable {g w : Nat} {cores : List (Nat × Nat)} {ls : List LaneOp} {s : State}

theorem sendReturns_l1 (c : Nat) : ((sendReturns g w cores ls s).core c).l1 = (s.core c).l1 := by
  induction ls generalizing s with
  | nil => rfl
  | cons l t ih => rw [sendReturns_cons, ih, State.sendReturn_l1]

/-- A byte that only returns of one value cover, and some return does, takes it. -/
theorem sendReturns_byte {tp core k : Nat} {v : Byte} (there : (s.gang? g).isSome = true)
    (room : ∀ j ∈ ls, tgtOff j.target + w ≤ 262144) (hk : k < 262144)
    (value : ∀ j ∈ ls, coversByte w tp k j = true → BitVec.ofNat 8 (j.val.toNat / 256 ^ (k - tgtOff j.target)) = v)
    (written : (∃ j ∈ ls, coversByte w tp k j = true) ∨ s.bufByte ⟨g, tp, core, .abuf⟩ k = v) :
    (sendReturns g w cores ls s).bufByte ⟨g, tp, core, .abuf⟩ k = v := by
  induction ls generalizing s with
  | nil => exact written.resolve_left (by rintro ⟨j, hj, -⟩; cases hj)
  | cons l t ih =>
    rw [sendReturns_cons]
    have step := State.sendReturn_byte (cores := cores) (tp := tp) (core := core) there (room l List.mem_cons_self) hk
    refine ih (by rw [State.sendReturn_gang, there]) (fun j hj => room j (List.mem_cons_of_mem _ hj))
      (fun j hj => value j (List.mem_cons_of_mem _ hj)) ?_
    by_cases covered : coversByte w tp k l = true
    · exact .inr (step.trans ((if_pos covered).trans (value l List.mem_cons_self covered)))
    · rcases written with ⟨j, hj, hc⟩ | held
      · rcases List.mem_cons.mp hj with rfl | hj
        · exact (covered hc).elim
        · exact .inl ⟨j, hj, hc⟩
      · exact .inr (step.trans ((if_neg covered).trans held))

end Returns

end Sys2Proof.Machine
end

section
/-! PROOF of `AtomicsPerform` (O24). The step performs its lanes (`State.atomInL1`, `State.atomAtHome`) and then does what follows
for the kind of atomic (`State.afterAtom`); each part has its own lemmas. -/

namespace Sys2Proof.Machine

open Sys2Proof.Claim

/-! ## The performing of lanes -/

/-- The bytes that lanes of an atomic leave at their locations. -/
def atomCells (o : MemOp) (r : List LaneOp) : List (Nat × Byte) := r.flatMap fun l => cellsAt l.key (leBytes o.width l.y.toNat)

section Perform
variable (s : State) (a id : Nat) (m : Lanes) (p : Place) (o : MemOp) (r : List LaneOp)

/-- Lanes of a `core`-scope atomic in the L1 atomic unit. -/
def State.atomInL1 : State :=
  State.modOp { s.modCore p.core (Core.putL1 (atomCells o r)) with sent := s.sent + 1 } a id
    (MemOp.mapLanes (fun l => m.getLsbD l.lane) (atomLane s r o))

/-- What performing at home leaves of memory and the home slices, and of the agents that park on the lines. -/
def State.atomWritten : State :=
  let mine := o.lanes.filter fun l => m.getLsbD l.lane
  let asked := s.homeReads (loadOrigin p o.qual) (dieOfCore p.core) ((mine.filterMap LaneOp.loc).map fun t => (t, o.width))
  ((asked.write (atomCells o r)).wakeLines (((atomCells o r).map fun c => c.1 / 64).eraseDups)).homeWrites
    (loadOrigin p o.qual) (dieOfCore p.core) (mine.filterMap LaneOp.loc) (atomCells o r)

/-- Lanes of another atomic at their home slices. -/
def State.atomAtHome : State :=
  ((s.atomWritten m p o r).modCore p.core fun c =>
    { c with l1 := c.l1.filter fun e => !(atomCells o r).any fun y => y.1 / 64 == e.1 }).modOp a id
      (MemOp.mapLanes (fun l => m.getLsbD l.lane) (atomLane s r o))

end Perform

/-- A test that holds of none of the lanes of a mask. -/
theorem any_among {ls : List LaneOp} {m : Lanes} {f : LaneOp → Bool} (h : ∀ l ∈ ls, m.getLsbD l.lane = true → f l = false) :
    (ls.filter fun l => m.getLsbD l.lane).any f = false := by
  rw [List.any_eq_false]
  intro l hl
  obtain ⟨hl, hm⟩ := List.mem_filter.mp hl
  rw [h l hl hm]
  exact Bool.false_ne_true

section Step
variable {s : State} {a id : Nat} {m : Lanes} {x : Agent} {p : Place} {o : MemOp} {op : AOp} {k : AKind}
variable (ho : s.op? a id = some (x, p, o)) (hk : o.atomic = some (op, k)) (todo : o.allAt m LaneSt.toDo = true)
  (closed : o.closed m (fun l k => k.st.toDo && l.st == k.st && l.stamp == k.stamp) = true)
  (free : ∀ l ∈ o.lanes, m.getLsbD l.lane = true → atomWaits x.flight o l = false)
include ho hk todo closed free

theorem execAtomicPerform_core (core : o.isCoreAtomic = true)
    (held : ∀ l ∈ o.lanes, m.getLsbD l.lane = true → (kget (s.core p.core).l1 (l.key / 64)).isSome = true ∧
      s.drainedOn (fun y => y.core == p.core) (l.key / 64) = false) :
    execAtomicPerform a id m s = .next ((s.atomInL1 a id m p o (atomResults s p o op k m)).afterAtom a p o) := by
  have noWait := any_among free
  have noHold : ((o.lanes.filter fun l => m.getLsbD l.lane).map fun l => l.key / 64).any (fun n =>
      (kget (s.core p.core).l1 n).isNone || s.drainedOn (fun y => y.core == p.core) n) = false := by
    rw [List.any_map]
    refine any_among fun l hl hm => ?_
    obtain ⟨there, clear⟩ := held l hl hm
    obtain ⟨line, there⟩ := Option.isSome_iff_exists.mp there
    simp only [Function.comp_apply, there, clear, Option.isNone_some, Bool.or_self]
  unfold execAtomicPerform atomResults State.atomInL1 atomLane atomCells LaneOp.among
  simp only [ho, hk, todo, closed, noWait, noHold, core, Bool.not_true, Bool.or_self, Bool.false_eq_true, if_false, if_true]
  rfl

theorem execAtomicPerform_home (core : o.isCoreAtomic = false)
    (held : ∀ l ∈ o.lanes, m.getLsbD l.lane = true → s.atomHeld p.core o l = false) :
    execAtomicPerform a id m s = .next ((s.atomAtHome a id m p o (atomResults s p o op k m)).afterAtom a p o) := by
  have noWait := any_among free
  have noHold := any_among held
  unfold execAtomicPerform atomResults State.atomAtHome State.atomWritten atomLane atomCells LaneOp.among
  simp only [ho, hk, todo, closed, noWait, noHold, core, Bool.not_true, Bool.or_self, Bool.false_eq_true, if_false]

end Step

/-- An entry of which the filter keeps none is not found. -/
theorem kget_filter_out {V : Type} (p : Nat × V → Bool) (m : KMap V) (k : Nat) (h : ∀ v, p (k, v) = false) :
    kget (m.filter p) k = none := by
  induction m with
  | nil => rfl
  | cons e t ih =>
    obtain ⟨j, v⟩ := e
    by_cases hj : j = k
    · subst hj
      rw [List.filter_cons_of_neg (by rw [h]; exact Bool.false_ne_true), ih]
    · rw [List.filter_cons]
      split
      · rw [kget, if_neg hj, ih]
      · exact ih

/-- What the performing of lanes leaves, before what follows it: the lanes have their values, lanes parked on a line that was
written are to wake, and no register, gang or tenant has changed. -/
structure LanesPerformed (s u : State) (a id : Nat) (x x1 : Agent) (p : Place) (o1 : MemOp) (moved : List MemOp) : Prop where
  op : u.op? a id = some (x1, p, o1)
  agent : ∃ ctl frame, x1 =
    { x with ctl := ctl, sys := { x.sys with frame := frame }, flight := { x.flight with ops := moved } }
  others : ∀ q, q ≠ a → (u.agent? q).map Agent.regs = (s.agent? q).map Agent.regs
  gangs : u.gangs = s.gangs
  tenants : u.tenants = s.tenants
  free : u.free = s.free

section Performed
variable {s : State} {a id : Nat} {x : Agent} {p : Place} {o : MemOp} (ho : s.op? a id = some (x, p, o)) (m : Lanes)
  (r : List LaneOp)
include ho

theorem State.atomInL1_performed :
    LanesPerformed s (s.atomInL1 a id m p o r) a id x
      (x.mapFlight (Flight.modOp id (MemOp.mapLanes (fun l => m.getLsbD l.lane) (atomLane s r o)))) p
      (MemOp.mapLanes (fun l => m.getLsbD l.lane) (atomLane s r o) o)
      (x.flight.ops.map fun q => if q.id = id then MemOp.mapLanes (fun l => m.getLsbD l.lane) (atomLane s r o) q else q) := by
  have ho1 : State.op? { s.modCore p.core (Core.putL1 (atomCells o r)) with sent := s.sent + 1 } a id = some (x, p, o) :=
    (State.op?_congr rfl a id).trans ho
  obtain ⟨hx, -, -, -⟩ := State.op?_spec ho1
  refine ⟨State.op?_mod ho1 _ fun _ => rfl, ⟨x.ctl, x.sys.frame, rfl⟩, fun q hq => ?_, rfl, rfl, rfl⟩
  obtain ⟨-, -, others⟩ := AgentBecomes.mod hx
    (Agent.mapFlight (Flight.modOp id (MemOp.mapLanes (fun l => m.getLsbD l.lane) (atomLane s r o))))
  exact congrArg (Option.map Agent.regs) (others q hq)

omit ho in
theorem State.atomWritten_only :
    ∃ f : Agent → Agent, (∃ ctl : Agent → Ctl, ∀ y : Agent, f y = { y with ctl := ctl y, sys := { y.sys with frame := (f y).sys.frame } }) ∧
      ∃ l2 hbm sent mark, s.atomWritten m p o r =
        { s with mem := (s.write (atomCells o r)).mem, memMark := mark, agents := kmap f s.agents, l2 := l2, hbm := hbm,
                 sent := sent } := by
  unfold State.atomWritten
  extract_lets mine asked
  obtain ⟨_, _, _, hr⟩ := SameButHomes.homeReads s (loadOrigin p o.qual) (dieOfCore p.core)
    ((mine.filterMap LaneOp.loc).map fun t => (t, o.width))
  obtain ⟨_, _, _, hw⟩ := SameButHomes.homeWrites
    ((asked.write (atomCells o r)).wakeLines (((atomCells o r).map fun c => c.1 / 64).eraseDups))
    (loadOrigin p o.qual) (dieOfCore p.core) (mine.filterMap LaneOp.loc) (atomCells o r)
  rw [hw, show asked = _ from hr]
  exact ⟨_, ⟨_, fun _ => rfl⟩, _, _, _, _, rfl⟩

theorem State.atomAtHome_performed :
    ∃ x1, LanesPerformed s (s.atomAtHome a id m p o r) a id x x1 p
      (MemOp.mapLanes (fun l => m.getLsbD l.lane) (atomLane s r o) o)
      (x.flight.ops.map fun q => if q.id = id then MemOp.mapLanes (fun l => m.getLsbD l.lane) (atomLane s r o) q else q) := by
  obtain ⟨f, ⟨ctl, kept⟩, l2, hbm, sent, mark, hw⟩ := State.atomWritten_only (s := s) (p := p) (o := o) m r
  obtain ⟨hx, hp, hl, -⟩ := State.op?_spec ho
  generalize hv : ((s.atomWritten m p o r).modCore p.core fun c =>
    { c with l1 := c.l1.filter fun e => !(atomCells o r).any fun y => y.1 / 64 == e.1 }) = v
  have agents : ∀ q, v.agent? q = (s.agent? q).map f := fun q => by
    rw [← hv, hw]
    exact kget_kmap ..
  have ho1 : v.op? a id = some (f x, p, o) := by
    have place : (f x).place = some p := by rw [kept]; exact hp
    have found : (f x).flight.ops.find? (fun q => q.id == id) = some o := by rw [kept]; exact hl
    unfold State.op?
    simp only [agents, hx, Option.map_some, place, found]
  have start : (f x).flight = x.flight := by rw [kept]
  obtain ⟨hx1, -, -, -⟩ := State.op?_spec ho1
  have home : s.atomAtHome a id m p o r =
    v.modOp a id (MemOp.mapLanes (fun l => m.getLsbD l.lane) (atomLane s r o)) := by rw [← hv]; rfl
  rw [home]
  refine ⟨_, State.op?_mod ho1 _ fun _ => rfl, ⟨ctl x, (f x).sys.frame, ?_⟩, fun q hq => ?_, ?_, ?_, ?_⟩
  · rw [kept]; rfl
  · obtain ⟨-, -, others⟩ := AgentBecomes.mod hx1
      (Agent.mapFlight (Flight.modOp id (MemOp.mapLanes (fun l => m.getLsbD l.lane) (atomLane s r o))))
    refine (congrArg (Option.map Agent.regs) (others q hq)).trans ?_
    rw [agents, Option.map_map, show Agent.regs ∘ f = Agent.regs from funext fun y => by rw [Function.comp_apply, kept]]
  all_goals
    rw [← hv, hw]
    rfl

/-! ## Memory and the L1 -/

omit ho in
theorem State.atomInL1_lines : LinesTake (atomCells o r) (s.core p.core).l1 ((s.atomInL1 a id m p o r).core p.core).l1 := by
  intro line
  have here : ((s.atomInL1 a id m p o r).core p.core).l1 = (Core.putL1 (atomCells o r) (s.core p.core)).l1 := by
    show ((s.modCore p.core (Core.putL1 (atomCells o r))).core p.core).l1 = _
    rw [State.core_modCore, if_pos rfl]
  have perLine : (Core.putL1 (atomCells o r) (s.core p.core)).l1 = (s.core p.core).l1.map fun e =>
      (e.1, if (atomCells o r).any fun c => c.1 / 64 == e.1 then e.2.put e.1 (atomCells o r) else e.2) := by
    unfold Core.putL1
    refine List.map_congr_left fun e _ => ?_
    split <;> rfl
  rw [here, perLine]
  exact kget_map_key (fun n (e : L1Line) => if (atomCells o r).any fun c => c.1 / 64 == n then e.put n (atomCells o r) else e) ..

omit ho in
/-- The issuing core's copies of the lines written leave (log 16). -/
theorem State.atomAtHome_lines {c : Nat × Byte} (hc : c ∈ atomCells o r) :
    kget ((s.atomAtHome a id m p o r).core p.core).l1 (c.1 / 64) = none := by
  have here : ((s.atomAtHome a id m p o r).core p.core).l1 = ((s.atomWritten m p o r).core p.core).l1.filter fun e =>
      !(atomCells o r).any fun y => y.1 / 64 == e.1 := by
    unfold State.atomAtHome State.modOp
    rw [State.core_modAgent, State.core_modCore, if_pos rfl]
  rw [here]
  refine kget_filter_out _ _ _ fun e => ?_
  rw [Bool.not_eq_false', List.any_eq_true]
  exact ⟨c, hc, beq_self_eq_true _⟩

omit ho in
theorem State.atomAtHome_mem : (s.atomAtHome a id m p o r).mem = (s.write (atomCells o r)).mem := by
  obtain ⟨f, -, l2, hbm, sent, mark, hw⟩ := State.atomWritten_only (s := s) (p := p) (o := o) m r
  show (s.atomWritten m p o r).mem = _
  rw [hw]

end Performed

end Sys2Proof.Machine
end

section
/-! PROOF of `AtomicsPerform` (O24): what follows the performing of lanes, and the statement. -/

namespace Sys2Proof.Machine

open Sys2Proof.Claim

/-! ## Completion of a read -/

/-- Of the agent a sample reads only what no wake changes. -/
theorem State.sampleOf_agent (s : State) (x : Agent) (ctl : Ctl) (frame : Option TrapFrame) (flight : Flight) (born : Nat)
    (pc : DWord) (act : Lanes) (ls : List (Nat × Nat)) :
    s.sampleOf { x with ctl := ctl, sys := { x.sys with frame := frame }, flight := flight } born pc act ls =
      s.sampleOf x born pc act ls := rfl

/-- A read that completes is delivered, an acquire at `die` scope or wider empties the L1, and then comes the sample. -/
theorem State.completeRead_steps {s : State} {a id core : Nat} {x : Agent} {p : Place} {o : MemOp}
    (h : s.op? a id = some (x, p, o)) (hu : o.undone = false) :
    ∃ s2 : State, s.completeRead a id core = (s2.sampleOp x o).tidy a ∧ s2.mem = s.mem ∧ s2.tenants = s.tenants ∧
      s2.gangs = s.gangs ∧ (s2.core core).l1 = if o.acquiresWide then [] else (s.core core).l1 := by
  unfold State.completeRead
  simp only [h, hu, Bool.false_eq_true, if_false]
  refine ⟨_, rfl, ?_⟩
  cases o.openDst <;> cases o.acquiresWide
  case true.true | false.true =>
    refine ⟨rfl, rfl, rfl, ?_⟩
    simp only [if_true]
    unfold State.invalL1
    rw [State.core_modCore, if_pos rfl]
  all_goals exact ⟨rfl, rfl, rfl, rfl⟩

/-! ## The returns of a `red.ret` -/

theorem State.sendBack_eq {u : State} {a id : Nat} {x1 : Agent} {p : Place} {o1 : MemOp} {b1 : AOp} {b2 : AKind}
    (h : u.op? a id = some (x1, p, o1)) (kind : o1.kind = .redRet b1 b2) :
    u.sendBack a id = sendReturns x1.ident.gang o1.width (u.gangCores x1.ident.gang) (backNow o1.lanes)
      (u.modOp a id (MemOp.mapLanes (fun l => (backNow o1.lanes).any fun k => k.lane == l.lane) fun l => { l with back := true })) := by
  obtain ⟨hx, -, hl, -⟩ := State.op?_spec h
  unfold State.sendBack
  simp only [hx, hl, kind]

/-- The lanes whose old values go now are marked as gone. -/
def markBack (o1 : MemOp) : MemOp → MemOp :=
  MemOp.mapLanes (fun l => (backNow o1.lanes).any fun k => k.lane == l.lane) fun l => { l with back := true }

theorem State.sendBack_tidy {u : State} {a id : Nat} {x1 : Agent} {p : Place} {o1 : MemOp} {b1 : AOp} {b2 : AKind}
    (h : u.op? a id = some (x1, p, o1)) (kind : o1.kind = .redRet b1 b2) :
    ((u.sendBack a id).tidy a).agent? a = some ((x1.mapFlight (Flight.modOp id (markBack o1))).mapFlight Flight.tidy) ∧
      ∀ q, q ≠ a → ((u.sendBack a id).tidy a).agent? q = u.agent? q := by
  obtain ⟨hx, -, -, -⟩ := State.op?_spec h
  obtain ⟨-, here, others⟩ := AgentBecomes.mod hx (Agent.mapFlight (Flight.modOp id (markBack o1)))
  have agents : (u.sendBack a id).agents = (u.modOp a id (markBack o1)).agents := by
    rw [State.sendBack_eq h kind]
    exact (sendReturns_spec ..).1
  have same : ∀ q, (u.sendBack a id).agent? q = (u.modOp a id (markBack o1)).agent? q := fun q => congrArg (kget · q) agents
  obtain ⟨-, tidied, rest⟩ := AgentBecomes.mod ((same a).trans here) (Agent.mapFlight Flight.tidy)
  exact ⟨tidied, fun q hq => (rest q hq).trans ((same q).trans (others q hq))⟩

/-! ## What follows the performing of lanes -/

section After
variable {s u : State} {a id : Nat} {x x1 : Agent} {p : Place} {o o1 : MemOp} {moved : List MemOp}
variable (h : LanesPerformed s u a id x x1 p o1 moved) (hid : o.id = id) (hkind : o1.kind = o.kind)
include h hid hkind

/-- No byte of memory changes but by a sample. -/
theorem State.afterAtom_bytes (plain : o1.sampled = false ∨ o1.undone = true) : SameBytes u (u.afterAtom a p o) := by
  subst hid
  unfold State.afterAtom
  split
  · by_cases hu : o1.undone = true
    · rw [State.completeRead_open h.op hu]
      exact fun _ => rfl
    · obtain ⟨-, -, -, -, same, -⟩ := State.completeRead_done (core := p.core) h.op (Bool.eq_false_iff.mpr hu)
      exact same (plain.resolve_right hu)
  · next hk =>
    rw [State.sendBack_eq h.op (hkind.trans hk)]
    obtain ⟨-, mem, -⟩ := sendReturns_spec x1.ident.gang o1.width (u.gangCores x1.ident.gang) (backNow o1.lanes)
      (u.modOp a o.id (MemOp.mapLanes (fun l => (backNow o1.lanes).any fun k => k.lane == l.lane) fun l => { l with back := true }))
    intro k
    exact congrArg (kgetD 0#8 · k) mem
  · exact fun _ => rfl

/-- The L1 stays, but that an acquire at `die` scope or wider leaves it empty. -/
theorem State.afterAtom_l1 : ((u.afterAtom a p o).core p.core).l1 = (u.core p.core).l1 ∨
    o1.acquiresWide = true ∧ ((u.afterAtom a p o).core p.core).l1 = [] := by
  subst hid
  unfold State.afterAtom
  split
  · by_cases hu : o1.undone = true
    · rw [State.completeRead_open h.op hu]
      exact .inl rfl
    · obtain ⟨s2, e, -, -, -, l1⟩ := State.completeRead_steps (core := p.core) h.op (Bool.eq_false_iff.mpr hu)
      obtain ⟨_, _, _, _, sample⟩ := State.sampleOp_only s2 x1 o1
      have kept : ((u.completeRead a o.id p.core).core p.core).l1 = (s2.core p.core).l1 := by
        rw [e, sample]; rfl
      rw [kept, l1]
      cases o1.acquiresWide
      · exact .inl rfl
      · exact .inr ⟨rfl, rfl⟩
  · next hk =>
    rw [State.sendBack_eq h.op (hkind.trans hk)]
    exact .inl (sendReturns_l1 p.core)
  · exact .inl rfl

theorem State.afterAtom_others {q : Nat} (hq : q ≠ a) : (u.afterAtom a p o).agent? q = u.agent? q := by
  subst hid
  obtain ⟨hx, -, -, -⟩ := State.op?_spec h.op
  unfold State.afterAtom
  split
  · by_cases hu : o1.undone = true
    · rw [State.completeRead_open h.op hu]
    · obtain ⟨_, -, -, others, -⟩ := State.completeRead_done (core := p.core) h.op (Bool.eq_false_iff.mpr hu)
      exact others q hq
  · next hk => exact (State.sendBack_tidy h.op (hkind.trans hk)).2 q hq
  · obtain ⟨-, -, others⟩ := AgentBecomes.mod hx (Agent.mapFlight Flight.tidy)
    exact others q hq

omit hkind in
/-- The results of an `atom` that has performed in every lane (R125, R226). -/
theorem State.afterAtom_atom (kind : ∃ b1 b2, o.kind = .atom b1 b2) :
    (o1.undone = true → ∃ y, (u.afterAtom a p o).agent? a = some y ∧ y.regs = x.regs ∧
      y.flight = { x.flight with ops := moved }) ∧
    (o1.undone = false →
      (∃ x1 y, x1.regs = x.regs ∧ x1.flight.pend = x.flight.pend ∧ (u.afterAtom a p o).agent? a = some y ∧
        Delivered id o1.dst (o1.width == 8) (doneLanes o1) (laneMarks o1) (laneValues o1) (scalarValue s o1) x1 y) ∧
      (o1.sampled = true → ∀ v : State, u.mem = v.mem → v.tenants = s.tenants → v.gangs = s.gangs →
        SampleTaken v (u.afterAtom a p o) x o1)) := by
  subst hid
  obtain ⟨b1, b2, kind⟩ := kind
  obtain ⟨hx, -, -, -⟩ := State.op?_spec h.op
  have after : u.afterAtom a p o = u.completeRead a o.id p.core := by unfold State.afterAtom; rw [kind]
  rw [after]
  obtain ⟨ctl, frame, agent⟩ := h.agent
  refine ⟨fun hu => ?_, fun hu => ⟨?_, fun sampled v mem tenants gangs => ?_⟩⟩
  · rw [State.completeRead_open h.op hu]
    exact ⟨x1, hx, by rw [agent], by rw [agent]⟩
  · obtain ⟨y, here, delivered, -⟩ := State.completeRead_done (core := p.core) h.op hu
    have scalar : scalarValue u o1 = scalarValue s o1 := by unfold scalarValue; rw [h.free]
    exact ⟨x1, y, by rw [agent], by rw [agent], here, scalar ▸ delivered⟩
  · obtain ⟨s2, e, mem2, tenants2, gangs2, -⟩ := State.completeRead_steps (core := p.core) h.op hu
    refine ⟨s2, x, mem2.trans mem, tenants2.trans (h.tenants.trans tenants.symm), gangs2.trans (h.gangs.trans gangs.symm),
      rfl, rfl, rfl, ?_⟩
    have sample : s2.sampleOp x1 o1 = s2.sampleOf x o1.born o1.pc o1.act (o1.lanes.map fun l => (l.va.toNat, o1.width)) := by
      unfold State.sampleOp
      rw [if_pos sampled, agent, State.sampleOf_agent]
      rfl
    rw [e, ← sample]
    exact ⟨rfl, rfl⟩

omit hid hkind in
/-- A `red` leaves what it has outstanding in flight. -/
theorem State.afterAtom_red (kind : ∃ b1 b2, o.kind = .red b1 b2) :
    ∃ y, (u.afterAtom a p o).agent? a = some y ∧ y.regs = x.regs ∧
      y.flight = { x.flight with ops := moved.filter fun q => !q.finished } := by
  obtain ⟨b1, b2, kind⟩ := kind
  obtain ⟨hx, -, -, -⟩ := State.op?_spec h.op
  obtain ⟨ctl, frame, agent⟩ := h.agent
  have after : u.afterAtom a p o = u.tidy a := by unfold State.afterAtom; rw [kind]
  rw [after]
  exact ⟨_, (AgentBecomes.mod hx (Agent.mapFlight Flight.tidy)).agent, by rw [agent]; rfl, by rw [agent]; rfl⟩

/-- The old values of a `red.ret` that go now are in their targets, each followed by its arrival (R124, R229). -/
theorem State.afterAtom_redRet {g : Gang} (kind : ∃ b1 b2, o.kind = .redRet b1 b2) (hg : s.gang? x.ident.gang = some g) :
    (∃ y, (u.afterAtom a p o).agent? a = some y ∧ y.regs = x.regs ∧ y.flight = { x.flight with
      ops := (moved.map fun q => if q.id = id then markBack o1 q else q).filter fun q => !q.finished }) ∧
    ((u.afterAtom a p o).gang? x.ident.gang).map Gang.msgs =
      some (g.msgs ++ (backNow o1.lanes).map fun l => (tgtPos l.target, tgtBar l.target, .arrive)) ∧
    ((∀ l ∈ backNow o1.lanes, tgtOff l.target + o1.width ≤ 262144) →
      ∀ l ∈ backNow o1.lanes, (∀ j ∈ backNow o1.lanes, j = l ∨ tgtPos j.target ≠ tgtPos l.target ∨
          tgtOff j.target + o1.width ≤ tgtOff l.target ∨ tgtOff l.target + o1.width ≤ tgtOff j.target) →
        ∀ core i, i < o1.width → (u.afterAtom a p o).bufByte ⟨x.ident.gang, tgtPos l.target, core, .abuf⟩ (tgtOff l.target + i) =
          BitVec.ofNat 8 (l.val.toNat / 256 ^ i)) := by
  subst hid
  obtain ⟨b1, b2, kind⟩ := kind
  obtain ⟨ctl, frame, agent⟩ := h.agent
  have kind1 := hkind.trans kind
  have ident : x1.ident = x.ident := by rw [agent]
  have after : u.afterAtom a p o = (u.sendBack a o.id).tidy a := by unfold State.afterAtom; rw [kind]
  have gang : u.gang? x.ident.gang = some g := by unfold State.gang?; rw [h.gangs]; exact hg
  rw [after]
  refine ⟨⟨_, (State.sendBack_tidy h.op kind1).1, by rw [agent]; rfl, by rw [agent]; rfl⟩, ?_, fun room l hl apart core i hi => ?_⟩
  · show ((u.sendBack a o.id).gang? x.ident.gang).map Gang.msgs = _
    rw [State.sendBack_eq h.op kind1, ident, (sendReturns_spec ..).2.2]
    show (u.gang? x.ident.gang).map _ = _
    rw [gang]
    rfl
  · show (u.sendBack a o.id).bufByte _ _ = _
    rw [State.sendBack_eq h.op kind1, ident]
    have roomHere := room l hl
    refine sendReturns_byte ?_ room (by omega) (fun j hj covers => ?_) (.inl ⟨l, hl, decide_eq_true ⟨rfl, by omega, by omega⟩⟩)
    · show (u.gang? x.ident.gang).isSome = true
      rw [gang]; rfl
    · obtain ⟨pos, lo, hi⟩ := of_decide_eq_true covers
      obtain rfl | other | below | above := apart j hj
      · rw [Nat.add_sub_cancel_left]
      · exact (other pos).elim
      · omega
      · omega

end After

/-! ## The statement -/

/-- The performing of lanes, in the L1 or at home, with what it leaves of memory and the issuing core's L1. -/
structure AtomPerforms (s : State) (a id : Nat) (m : Lanes) (x : Agent) (p : Place) (o : MemOp) (r : List LaneOp) (u : State)
    (x1 : Agent) : Prop where
  runs : exec (.atomicPerform a id m) s = .next (u.afterAtom a p o)
  lanes : LanesPerformed s u a id x x1 p (MemOp.mapLanes (fun l => m.getLsbD l.lane) (atomLane s r o) o)
    (x.flight.ops.map fun q => if q.id = id then MemOp.mapLanes (fun l => m.getLsbD l.lane) (atomLane s r o) q else q)
  memHere : o.isCoreAtomic = true → u.mem = s.mem
  memHome : o.isCoreAtomic = false → u.mem = (s.write (atomCells o r)).mem
  linesHere : o.isCoreAtomic = true → LinesTake (atomCells o r) (s.core p.core).l1 (u.core p.core).l1
  linesHome : o.isCoreAtomic = false → ∀ c ∈ atomCells o r, kget (u.core p.core).l1 (c.1 / 64) = none

theorem atomicPerform_performs {s : State} {a id : Nat} {m : Lanes} {x : Agent} {p : Place} {o : MemOp} {op : AOp} {k : AKind}
    (ho : s.op? a id = some (x, p, o)) (hk : o.atomic = some (op, k)) (todo : o.allAt m LaneSt.toDo = true)
    (closed : o.closed m (fun l k => k.st.toDo && l.st == k.st && l.stamp == k.stamp) = true)
    (free : ∀ l ∈ o.lanes, m.getLsbD l.lane = true → atomWaits x.flight o l = false)
    (held : if o.isCoreAtomic then
      ∀ l ∈ o.lanes, m.getLsbD l.lane = true → (kget (s.core p.core).l1 (l.key / 64)).isSome = true ∧
        s.drainedOn (fun y => y.core == p.core) (l.key / 64) = false
    else ∀ l ∈ o.lanes, m.getLsbD l.lane = true → s.atomHeld p.core o l = false) :
    ∃ u x1, AtomPerforms s a id m x p o (atomResults s p o op k m) u x1 := by
  cases core : o.isCoreAtomic with
  | true =>
    rw [core, if_pos rfl] at held
    exact ⟨_, _, execAtomicPerform_core ho hk todo closed free core held, State.atomInL1_performed ho m _, fun _ => rfl,
      fun h => (nomatch core.symm.trans h), fun _ => State.atomInL1_lines m _, fun h => (nomatch core.symm.trans h)⟩
  | false =>
    rw [core, if_neg Bool.false_ne_true] at held
    obtain ⟨x1, lanes⟩ := State.atomAtHome_performed ho m (atomResults s p o op k m)
    exact ⟨_, x1, execAtomicPerform_home ho hk todo closed free core held, lanes, fun h => (nomatch core.symm.trans h),
      fun _ => State.atomAtHome_mem m _, fun h => (nomatch core.symm.trans h), fun _ _ => State.atomAtHome_lines m _⟩

/-- One lane leaves its new value at its location (R226). -/
theorem atomResults_one {s : State} {p : Place} {o : MemOp} {op : AOp} {k : AKind} {m : Lanes} {l : LaneOp}
    (one : (o.lanes.filter fun l => m.getLsbD l.lane) = [l]) :
    atomCells o (atomResults s p o op k m) = cellsAt l.key (leBytes o.width
      (atomNew op k (match atomResults s p o op k m with | [q] => q.val | _ => 0#64) (atomOperand k l.x)
        (atomOperand k l.y)).toNat) := by
  have act : (if o.single then [l].take 1 else [l]) = [l] := by cases o.single <;> rfl
  unfold atomResults
  rw [one]
  dsimp only
  rw [act]
  unfold atomCells
  rw [atomRun, atomRun, List.flatMap_cons, List.flatMap_nil, List.append_nil]
  rfl

/-- A `core`-scope atomic acquires at `core` scope alone. -/
theorem MemOp.acquiresWide_core {o : MemOp} (core : o.isCoreAtomic = true) : o.acquiresWide = false := by
  unfold MemOp.isCoreAtomic at core
  unfold MemOp.acquiresWide
  rw [Bool.and_eq_true, Bool.not_eq_true'] at core
  rw [core.2, Bool.and_false]

/-- Settles O24: `AtomPerforms` says what the performing of the lanes leaves, the `afterAtom` lemmas what then follows for each kind
of atomic. -/
theorem atomicsPerform : Obligations.AtomicsPerform := by
  intro s a id m x p o op k ho hk todo closed free held
  obtain ⟨u, x1, performs⟩ := atomicPerform_performs ho hk todo closed free held
  obtain ⟨-, -, -, hid⟩ := State.op?_spec ho
  intro r cells mine o1 moved
  have lanes : LanesPerformed s u a id x x1 p o1 moved := performs.lanes
  refine ⟨_, performs.runs, fun plain core => ?_, fun plain core j => ?_, fun core => ?_, fun core c hc => ?_,
    fun l one => atomResults_one one, fun q hq => ?_, fun b1 b2 kind => ?_,
    fun b1 b2 kind => State.afterAtom_red lanes ⟨b1, b2, kind⟩,
    fun b1 b2 g kind hg => State.afterAtom_redRet lanes hid rfl ⟨b1, b2, kind⟩ hg⟩
  · exact fun j => (State.afterAtom_bytes lanes hid rfl plain j).trans (congrArg (kgetD 0#8 · j) (performs.memHere core))
  · exact (State.afterAtom_bytes lanes hid rfl plain j).trans (congrArg (kgetD 0#8 · j) (performs.memHome core))
  · rcases State.afterAtom_l1 lanes hid rfl with l1 | ⟨wide, -⟩
    · rw [l1]
      exact performs.linesHere core
    · rw [show o1.acquiresWide = o.acquiresWide from rfl, MemOp.acquiresWide_core core] at wide
      cases wide
  · rcases State.afterAtom_l1 lanes hid rfl with l1 | ⟨-, l1⟩
    · rw [l1]
      exact performs.linesHome core c hc
    · rw [l1]
      rfl
  · rw [State.afterAtom_others lanes hid rfl hq, lanes.others q hq]
  · obtain ⟨opened, done⟩ := State.afterAtom_atom lanes hid ⟨b1, b2, kind⟩
    refine ⟨opened, fun hu => ?_⟩
    obtain ⟨delivered, sampled⟩ := done hu
    exact ⟨delivered, fun hs core => sampled hs s (performs.memHere core) rfl rfl,
      fun hs core => sampled hs (s.write cells) (performs.memHome core) rfl rfl⟩

end Sys2Proof.Machine
end

section
/-! PROOF of `ChannelsOwnershipAndConversion` (O26): the order of the channel schedulers, and one lemma for each of the five steps. -/

namespace Sys2Proof.Machine

open Sys2Proof.Claim

/-! ## Ownership of host lines (R98) -/

theorem ownershipIsExclusive : Claim.OwnershipIsExclusive := by
  intro s line d h l known host unowned
  have entry : (kget s.l2 line).getD L2Line.absent = l := by
    obtain held | ⟨none, -, rfl⟩ := known
    · rw [held]; rfl
    · rw [none]; rfl
  have wanted : ((kget s.l2 line).isSome || s.wantsHost line) = true := by
    obtain held | ⟨-, wants, -⟩ := known
    · rw [held]; rfl
    · rw [wants, Bool.or_true]
  refine ⟨(s.ownHost line).l2, if_neg ?_, ?_, fun k d2 hk hosted => ?_, fun k other => ?_⟩
  · unfold kgetD
    rw [host, entry, unowned, wanted]
    exact Bool.false_ne_true
  · unfold State.ownHost
    rw [entry]
    exact kget_kput_same ..
  · unfold State.ownHost
    rw [kget_kput_other _ _ (Ne.symm hk)]
    refine kget_filter_out _ _ _ fun v => ?_
    simp [hk, hosted, host]
  · have hk : line ≠ k := fun e => other d (e ▸ host)
    unfold State.ownHost
    rw [kget_kput_other _ _ hk]
    refine kget_filter_of_key _ _ _ fun v => ?_
    cases hosted : hostLine k with
    | none => simp
    | some e =>
      have elsewhere : e.2 ≠ h := fun same => other e.1 (by rw [hosted, ← same])
      simp [host, elsewhere]

/-! ## The order of the channel schedulers (R104) -/

/-- The order of R104: the class, the deadline with none last, the number. -/
theorem HbmReq.before_iff (r q : HbmReq) : r.before q = true ↔ r.cls < q.cls ∨ r.cls = q.cls ∧
    match r.deadline, q.deadline with
    | some a, some b => a < b ∨ a = b ∧ r.id < q.id
    | some _, none => True
    | none, some _ => False
    | none, none => r.id < q.id := by
  unfold HbmReq.before
  by_cases hc : r.cls = q.cls
  · simp only [hc, bne_self_eq_false, Bool.false_eq_true, if_false, Nat.lt_irrefl, false_or, true_and]
    cases r.deadline <;> cases q.deadline <;> simp only [decide_eq_true_eq, Bool.false_eq_true]
    next a b =>
      by_cases hd : a = b
      · simp [hd]
      · simp [hd]
  · have : (r.cls != q.cls) = true := by simpa using hc
    simp [this, hc]

theorem HbmReq.before_irrefl (r : HbmReq) : r.before r = false := by
  rw [Bool.eq_false_iff, Ne, HbmReq.before_iff]
  cases r.deadline <;> simp

theorem HbmReq.before_trans {r q p : HbmReq} (h : r.before q = true) (k : q.before p = true) : r.before p = true := by
  rw [HbmReq.before_iff] at h k ⊢
  obtain h | ⟨hc, h⟩ := h
  · exact .inl (by omega)
  obtain k | ⟨kc, k⟩ := k
  · exact .inl (by omega)
  refine .inr ⟨hc.trans kc, ?_⟩
  cases hr : r.deadline <;> cases hq : q.deadline <;> cases hp : p.deadline <;> simp only [hr, hq, hp] at h k ⊢ <;> omega

/-- The request picked is one of the list that none of the others goes before. -/
theorem pickReq_first {l : List HbmReq} {r : HbmReq} (h : pickReq l = some r) : r ∈ l ∧ ∀ q ∈ l, q.before r = false := by
  induction l generalizing r with
  | nil => cases h
  | cons e t ih =>
    unfold pickReq at h
    split at h
    · next none =>
      cases h
      have empty : t = [] := by
        cases t with
        | nil => rfl
        | cons e2 t2 =>
          unfold pickReq at none
          split at none
          · cases none
          · split at none <;> cases none
      subst empty
      exact ⟨List.mem_cons_self, by simp [HbmReq.before_irrefl]⟩
    · next first picked =>
      obtain ⟨mem, least⟩ := ih picked
      split at h
      · next earlier =>
        cases h
        refine ⟨List.mem_cons_self, fun q hq => ?_⟩
        obtain rfl | hq := List.mem_cons.mp hq
        · exact HbmReq.before_irrefl q
        · rw [Bool.eq_false_iff]
          intro goes
          have := least q hq
          rw [HbmReq.before_trans goes earlier] at this
          cases this
      · next later =>
        cases h
        refine ⟨List.mem_cons_of_mem _ mem, fun q hq => ?_⟩
        obtain rfl | hq := List.mem_cons.mp hq
        · exact Bool.eq_false_iff.mpr later
        · exact least q hq

/-! ## The service of a request (R97, R104, R105, R107) -/

/-- The coding of the granules of a line that a mask names is set, and no other (R107). -/
theorem nhas_codedGranules (line : Nat) (m : BitVec 8) (b : Bool) (coded : List Nat) (g : Nat) :
    nhas ((maskGranules line m).foldl (fun c g => if b then nins g c else ndel g c) coded) g =
      if g / 8 = line ∧ m.getLsbD (g % 8) = true then b else nhas coded g := by
  have fold : ∀ (gs : List Nat) (c : List Nat),
      nhas (gs.foldl (fun c g => if b then nins g c else ndel g c) c) g = if g ∈ gs then b else nhas c g := by
    intro gs
    induction gs with
    | nil => intro c; simp
    | cons e t ih =>
      intro c
      rw [List.foldl_cons, ih]
      by_cases mem : g ∈ t
      · simp [mem]
      · cases b <;> simp [mem, nhas_nins, nhas_ndel, eq_comm (a := g)]
        all_goals by_cases he : e = g <;> simp [he]
  have mem : g ∈ maskGranules line m ↔ g / 8 = line ∧ m.getLsbD (g % 8) = true := by
    unfold maskGranules
    simp only [List.mem_map, List.mem_filter, List.mem_range]
    constructor
    · rintro ⟨i, ⟨hi, set⟩, rfl⟩
      rw [show (8 * line + i) % 8 = i by omega]
      exact ⟨by omega, set⟩
    · rintro ⟨hl, set⟩
      exact ⟨g % 8, ⟨by omega, set⟩, by omega⟩
  rw [fold]
  simp only [mem]

/-- The counter after a missed deadline (R104). -/
theorem State.countMiss_missed (s : State) (req k : Nat) : kgetD 0#32 (s.countMiss req).device.missed k =
    if k = req ∧ kgetD 0#32 s.device.missed req ≠ 0xFFFFFFFF#32 then kgetD 0#32 s.device.missed req + 1#32
    else kgetD 0#32 s.device.missed k := by
  unfold State.countMiss
  dsimp only
  rw [kgetD_ksetD]
  by_cases hk : req = k
  · subst hk
    by_cases top : kgetD 0#32 s.device.missed req = 0xFFFFFFFF#32 <;> simp [top]
  · simp [hk, Ne.symm hk]

theorem channelsServeInOrder : Claim.ChannelsServeInOrder := by
  intro s stack ids r idle picked
  obtain ⟨mem, least⟩ := pickReq_first picked
  obtain ⟨mem, here⟩ := List.mem_filter.mp mem
  obtain ⟨onStack, issuable⟩ : r.stack = stack ∧ r.id ∈ ids := by simpa using here
  refine ⟨mem, onStack, issuable, fun q hq hs hi => least q (List.mem_filter.mpr ⟨hq, by simp [hs, hi]⟩), ?_⟩
  intro rest same
  generalize hs1 : (if r.late s.time = true then s.countMiss r.req else s) = s1
  have s1is : s1 = { s with device := s1.device } := by
    subst hs1
    split <;> rfl
  let heir := if r.lu then (rest.find? same).map HbmReq.id else none
  have runs : exec (.hbmRequestService stack ids) s = .next { s1 with
      hbm := rest.map fun (q : HbmReq) => if some q.id = heir then { q with lu := true } else q
      rows := ksetD 0 s1.rows (Config.bankOf r.line) (if (r.lu && heir.isNone) = true then 0 else Config.rowOf r.line + 1)
      fills := if r.write || !r.alloc then s1.fills else s1.fills ++ [(r.line, r.mask, r.coded)]
      coded := if r.write then (maskGranules r.line r.mask).foldl (fun c g => if r.coded then nins g c else ndel g c) s1.coded
        else s1.coded } := by
    show execHbmRequestService stack ids s = _
    unfold execHbmRequestService
    rw [idle, picked, ← hs1]
    rfl
  refine ⟨_, runs, ?_, ?_, ?_, fun noHeir => ?_, fun q last found => ?_, ?_, fun read => ?_, fun write g => ?_, fun b => ?_, ?_⟩
  · intro k
    rw [s1is]
    rfl
  · rw [s1is]
  · rw [s1is]
  · have : heir = none := by
      obtain h | h := noHeir
      · simp [heir, h]
      · simp [heir, h]
    simp [this]
  · have : heir = some q.id := by simp [heir, last, found]
    simp [this]
  · rw [s1is]
    cases r.write <;> cases r.alloc <;> rfl
  · rw [s1is]
    simp [read]
  · rw [s1is]
    simp only [write, if_true]
    exact nhas_codedGranules ..
  · dsimp only
    rw [kgetD_ksetD, s1is]
    by_cases hb : Config.bankOf r.line = b
    · cases last : r.lu <;> cases found : rest.find? same <;> simp [heir, hb, last, found]
    · simp [hb, Ne.symm hb]
  · rw [← hs1]
    split
    · rw [State.countMiss_missed]
      simp [*]
    · simp [*]

/-! ## Missed deadlines (R104) -/

theorem missedDeadlinesCount : Claim.MissedDeadlinesCount := by
  intro s req r found
  refine ⟨(s.countMiss req).device.missed, ?_, fun k hk => ?_, ?_⟩
  · show execDeadlineMiss req s = _
    unfold execDeadlineMiss
    rw [found]
    rfl
  · rw [State.countMiss_missed, if_neg fun h => hk h.1]
  · rw [State.countMiss_missed]
    by_cases top : kgetD 0#32 s.device.missed req = 0xFFFFFFFF#32 <;> simp [top]

/-! ## Lines given up (R130) -/

/-- The ranges without their part of a line of 256 bytes. -/
theorem mem_rangesWithout (line a : Nat) (l : List (Nat × Nat)) :
    (∃ r ∈ l.flatMap fun r => (if r.1 < line * 256 then [(r.1, min r.2 (line * 256))] else []) ++
        (if line * 256 + 256 < r.2 then [(max r.1 (line * 256 + 256), r.2)] else []), r.1 ≤ a ∧ a < r.2) ↔
      a / 256 ≠ line ∧ ∃ r ∈ l, r.1 ≤ a ∧ a < r.2 := by
  constructor
  · rintro ⟨q, hq, lo, hi⟩
    obtain ⟨r, hr, hq⟩ := List.mem_flatMap.mp hq
    obtain hq | hq := List.mem_append.mp hq
    all_goals
      split at hq
      · cases List.mem_singleton.mp hq
        exact ⟨by omega, r, hr, by omega, by omega⟩
      · cases hq
  · rintro ⟨off, r, hr, lo, hi⟩
    obtain below | above : a < line * 256 ∨ line * 256 + 256 ≤ a := by omega
    · refine ⟨(r.1, min r.2 (line * 256)), List.mem_flatMap.mpr ⟨r, hr, List.mem_append_left _ ?_⟩, lo, by omega⟩
      rw [if_pos (by omega)]
      exact List.mem_singleton_self _
    · refine ⟨(max r.1 (line * 256 + 256), r.2), List.mem_flatMap.mpr ⟨r, hr, List.mem_append_right _ ?_⟩, by omega, hi⟩
      rw [if_pos (by omega)]
      exact List.mem_singleton_self _

theorem writtenLinesAreReleased : Claim.WrittenLinesAreReleased := by
  intro s core cmd line k there owns all
  have runs : exec (.engineLineRelease core cmd line) s = .next (s.modCopy core cmd fun j => { j with
      owned := j.owned.flatMap fun r => (if r.1 < line * 256 then [(r.1, min r.2 (line * 256))] else []) ++
        (if line * 256 + 256 < r.2 then [(max r.1 (line * 256 + 256), r.2)] else [])
      written := j.written.filter fun r => !decide (r.1 / 256 = line) }) := by
    show execEngineLineRelease core cmd line s = _
    unfold execEngineLineRelease
    rw [there]
    refine if_neg ?_
    rw [List.isEmpty_iff, not_or, not_not]
    exact ⟨owns, all⟩
  refine ⟨_, _, runs, rfl, fun n hn => ?_, State.copy?_modCopy there _ fun _ => rfl, rfl, fun a => mem_rangesWithout line a k.owned⟩
  unfold State.modCopy
  rw [State.core_modCore, if_neg (Ne.symm hn)]

/-! ## Conversions (R240) -/

theorem conversionTakesEffect : Claim.ConversionTakesEffect := by
  intro s core converting goes
  have free : ((s.core core).waysAsked < (s.core core).ways &&
      (s.bufAbove core (s.core core).waysAsked || (s.core core).copies.any (fun k => k.cancel) ||
        (s.core core).tools.any (fun k => k.cancel) ||
        s.cores.any fun c => c.2.copies.any fun k => k.cancel && s.multicastTo core k)) = false := by
    obtain grows | ⟨noBuf, noCopy, noTool, noCast⟩ := goes
    · rw [decide_eq_false (Nat.not_lt.mpr grows), Bool.false_and]
    · have copies : (s.core core).copies.any (fun k => k.cancel) = false := List.any_eq_false.mpr fun k hk => by simp [noCopy k hk]
      have tools : (s.core core).tools.any (fun k => k.cancel) = false := List.any_eq_false.mpr fun k hk => by simp [noTool k hk]
      have casts : (s.cores.any fun c => c.2.copies.any fun k => k.cancel && s.multicastTo core k) = false :=
        List.any_eq_false.mpr fun c hc => by
          rw [Bool.not_eq_true, List.any_eq_false]
          intro k hk
          cases cancel : k.cancel
          · simp
          · simp [noCast c hc k hk cancel]
      rw [noBuf, copies, tools, casts, Bool.or_self, Bool.or_self, Bool.or_self, Bool.and_false]
  have runs : exec (.l1Conversion core) s = .next (s.setCore core { s.core core with
      ways := (s.core core).waysAsked
      converting := false
      wayMem := (s.core core).wayMem.filter fun e => decide (e.1 < min (s.core core).waysAsked (s.core core).ways * 16384)
      wayMark := (s.core core).wayMark.filter fun g =>
        decide (32 * g < min (s.core core).waysAsked (s.core core).ways * 16384) }) := by
    show execL1Conversion core s = _
    unfold execL1Conversion
    dsimp only
    rw [if_neg (by rw [converting]; exact Bool.false_ne_true), if_neg (by rw [free]; exact Bool.false_ne_true)]
  refine ⟨_, runs, rfl, fun n hn => ?_, ?_, fun off => ?_⟩
  · rw [State.core_setCore, if_neg (Ne.symm hn)]
  · rw [State.core_setCore, if_pos rfl]
  · rw [State.core_setCore, if_pos rfl]
    exact kgetD_filter_below ..

/-- Settles O26. -/
theorem channelsOwnershipAndConversion : Obligations.ChannelsOwnershipAndConversion :=
  ⟨ownershipIsExclusive, channelsServeInOrder, missedDeadlinesCount, writtenLinesAreReleased, conversionTakesEffect⟩

end Sys2Proof.Machine
end

section
/-! PROOF of `WalkHops` (O27): the reads of a walk, the rule of a hop, and what a hop does to its walk. -/

namespace Sys2Proof.Machine

open Sys2Proof.Claim

/-! ## Reads and hops (R108, R109) -/

theorem walkReads : Claim.WalkReads := by
  intro s core tenant va n align
  refine ⟨fun misaligned => if_pos misaligned, fun aligned => ?_⟩
  have read : s.hopRead core tenant va n align = match (s.translate core tenant va .read).2 with
      | .fault code => .stop (if code = codeTranslation then 2 else 3) [⟨va, none, n⟩]
      | .ok x =>
        if x.tier ≥ 2 then .stop 5 [⟨va, none, n⟩]
        else if s.reachHeld (core / 40) .any x.key then .wait
        else if s.marked x.key n then .stop 4 [⟨va, some x, n⟩]
        else .val (s.le x.key n) ⟨va, some x, n⟩ := if_neg (not_not.mpr aligned)
  refine ⟨fun s1 h => ?_, fun s1 h => ?_, fun s1 x h => ⟨fun far => ?_, fun near held => ?_, fun near free => ?_⟩⟩ <;>
    simp only [read, h]
  · rfl
  · rfl
  · exact if_pos far
  · rw [if_neg (Nat.not_le.mpr near), if_pos held]
  · simp only [if_neg (Nat.not_le.mpr near), free, Bool.false_eq_true, if_false]
    exact ⟨fun marked => if_pos marked, fun clean => if_neg (by rw [clean]; exact Bool.false_ne_true)⟩

section Hop
variable (s : State) (core tenant : Nat) (c : Chase) (l : ChaseLane)

theorem State.hop_link (link : c.mode = 0) : s.hop core tenant c l =
    match s.hopRead core tenant (l.p + c.off.signExtend 64) 8 8 with
    | .stop k r => .stop k r
    | .wait => .wait
    | .val q x => if q = 0 then .stop 0 [x] else .go (BitVec.ofNat 64 q) [x] := by
  unfold State.hop
  rw [link]
  rfl

theorem State.hop_index (index : c.mode = 1) : s.hop core tenant c l =
    match s.hopRead core tenant l.p 4 4 with
    | .stop k r => .stop k r
    | .wait => .wait
    | .val v x => .go (c.base + BitVec.ofNat 64 (4 * v)) [x] := by
  unfold State.hop
  rw [index]
  rfl

theorem State.hop_sample (sample : 2 ≤ c.mode) : s.hop core tenant c l =
    match s.hopRead core tenant l.p 8 8 with
    | .stop k r => .stop k r
    | .wait => .wait
    | .val ptr x =>
      match s.hopRead core tenant (l.p + 8#64) 4 4 with
      | .stop k r => .stop k (x :: r)
      | .wait => .wait
      | .val len y =>
        if len = 0 then .stop 0 [x, y]
        else
          match s.hopRead core tenant
            (BitVec.ofNat 64 (ptr + 4 * ((mixer l.seed (BitVec.ofNat 32 l.hops)).toNat % len))) 4 4 with
          | .stop k r => .stop k (x :: y :: r)
          | .wait => .wait
          | .val v z => .go (c.base + BitVec.ofNat 64 (16 * v)) [x, y, z] := by
  unfold State.hop
  split
  · omega
  · omega
  · rfl

end Hop

theorem hopsFollowTheirRule : Claim.HopsFollowTheirRule := by
  intro s core tenant c l
  obtain link | index | sample : c.mode = 0 ∨ c.mode = 1 ∨ 2 ≤ c.mode := by omega
  · dsimp only
    rw [State.hop_link s core tenant c l link, if_pos link, if_neg (by omega : c.mode ≠ 1)]
    refine ⟨fun k rs h => by rw [h], fun h => by rw [h], fun v x h => ⟨fun _ => by rw [h], fun h1 => by omega, fun h2 => by omega⟩⟩
  · dsimp only
    rw [State.hop_index s core tenant c l index, if_neg (by omega : c.mode ≠ 0), if_pos index]
    refine ⟨fun k rs h => by rw [h], fun h => by rw [h], fun v x h => ⟨fun h0 => by omega, fun _ => by rw [h], fun h2 => by omega⟩⟩
  · dsimp only
    rw [State.hop_sample s core tenant c l sample, if_neg (by omega : c.mode ≠ 0), if_neg (by omega : c.mode ≠ 1)]
    refine ⟨fun k rs h => by rw [h], fun h => by rw [h], fun v x h => ⟨fun h0 => by omega, fun h1 => by omega, fun _ => ?_⟩⟩
    rw [h]
    refine ⟨fun k rs h8 => by simp only [h8], fun h8 => by simp only [h8], fun y h8 => by simp only [h8, if_true],
      fun len y h8 pos => ?_⟩
    simp only [h8, if_neg pos]
    exact ⟨fun k rs he => by rw [he], fun he => by rw [he], fun w z he => by rw [he]⟩

/-! ## The walks of an agent -/

theorem find?_map_chase (l : List Chase) (id : Nat) (f : Chase → Chase) (hf : ∀ q, (f q).id = q.id) :
    (l.map fun q => if q.id = id then f q else q).find? (fun q => q.id == id) =
      (l.find? fun q => q.id == id).map f := by
  induction l with
  | nil => rfl
  | cons q t ih =>
    by_cases h : q.id = id
    · simp [h, hf]
    · simpa [h] using ih

theorem filter_map_chase (l : List Chase) (id : Nat) (f : Chase → Chase) (hf : ∀ q, (f q).id = q.id) :
    ((l.map fun q => if q.id = id then f q else q).filter fun q => q.id != id) = l.filter fun q => q.id != id := by
  induction l with
  | nil => rfl
  | cons q t ih =>
    by_cases h : q.id = id
    · simpa [h, hf] using ih
    · simpa [h] using ih

/-- The requests of a hop leave everything else alone. -/
theorem SameButWalks.hopAsks (s : State) (core tenant : Nat) (c : Chase) (rs : List HopAt) :
    SameButWalks s (s.hopAsks core tenant c rs) := by
  unfold State.hopAsks
  dsimp only
  refine SameButWalks.trans ?_ (SameButHomes.homeReads ..).walks
  induction rs generalizing s with
  | nil => exact .refl s
  | cons r rs ih => exact ((SameButHomes.walkAsks ..).walks.trans (.translate ..)).trans (ih _)

/-- The destinations of a walk that still wait take the addresses and the result words of its lanes (R108). -/
theorem Chase.deliver_spec (c : Chase) (x : Agent) : ∃ r, c.deliver x =
      { x with regs := r, flight := { x.flight with pend := x.flight.pend.filter fun e => e.2 != c.id } } ∧
    ∀ i, i < 32 → c.act.getLsbD i = true → ∀ q, c.lanes.find? (fun q => q.lane == i) = some q →
      (x.flight.waits (.v c.d) c.id = true → r.vlane c.d i = q.p.setWidth 32) ∧
      (x.flight.waits (.v (c.d + 1)) c.id = true → r.vlane (c.d + 1) i = (q.p >>> 32).setWidth 32) ∧
      (x.flight.waits (.v (c.d + 2)) c.id = true → r.vlane (c.d + 2) i = q.word) := by
  let addr := fun i => ((c.lanes.find? fun l => l.lane == i).map ChaseLane.p).getD 0#64
  let word := fun i => ((c.lanes.find? fun l => l.lane == i).map ChaseLane.word).getD 0#32
  obtain ⟨r1, e1, -, -, -, -, w1, -⟩ := Agent.giveV_only c.id c.d c.act (fun i => (addr i).setWidth 32) 0#32 x
  obtain ⟨r2, e2, -, -, -, -, w2, -⟩ :=
    Agent.giveV_only c.id (c.d + 1) c.act (fun i => (addr i >>> 32).setWidth 32) 0#32 { x with regs := r1 }
  obtain ⟨r3, e3, -, -, -, -, w3, -⟩ := Agent.giveV_only c.id (c.d + 2) c.act word 0#32 { x with regs := r2 }
  refine ⟨r3, ?_, fun i hi act q lane => ⟨fun waits => ?_, fun waits => ?_, fun waits => ?_⟩⟩
  · unfold Chase.deliver
    dsimp only [addr, word] at *
    rw [e1, e2, e3]
    rfl
  · rw [w3 _ _ hi, if_neg (by omega)]
    show r2.vlane c.d i = _
    rw [w2 _ _ hi, if_neg (by omega)]
    show r1.vlane c.d i = _
    rw [w1 _ _ hi, if_pos ⟨act, rfl, waits⟩]
    simp only [addr, lane, Option.map_some, Option.getD_some]
  · rw [w3 _ _ hi, if_neg (by omega)]
    show r2.vlane (c.d + 1) i = _
    rw [w2 _ _ hi, if_pos ⟨act, rfl, waits⟩]
    simp only [addr, lane, Option.map_some, Option.getD_some]
  · rw [w3 _ _ hi, if_pos ⟨act, rfl, waits⟩]
    simp only [word, lane, Option.map_some, Option.getD_some]

section Done
variable {s : State} {a id : Nat} {x : Agent} {c : Chase} (hx : s.agent? a = some x)
  (hc : x.flight.chases.find? (fun q => q.id == id) = some c)
include hx hc

theorem State.chaseDone_open (h : ∃ q ∈ c.lanes, q.status = none) : s.chaseDone a id = s := by
  unfold State.chaseDone
  simp only [hx, hc]
  refine if_neg ?_
  obtain ⟨q, hq, going⟩ := h
  intro all
  have := List.all_eq_true.mp all q hq
  rw [going] at this
  cases this

/-- A walk that ends leaves: its agent takes its results, and no other agent changes. -/
theorem State.chaseDone_ended (h : ∀ q ∈ c.lanes, q.status ≠ none) :
    (s.chaseDone a id).agent? a = some ((c.deliver x).mapFlight fun f =>
      { f with chases := f.chases.filter fun q => q.id != id }) ∧
    (∀ k, k ≠ a → (s.chaseDone a id).agent? k = s.agent? k) ∧
    (Untraced s x.ident.tenant → c.sampled = false → (s.chaseDone a id).mem = s.mem) := by
  have ends : (c.lanes.all fun l => l.status.isSome) = true :=
    List.all_eq_true.mpr fun q hq => Option.isSome_iff_ne_none.mpr (h q hq)
  unfold State.chaseDone
  simp only [hx, hc, ends, if_true]
  generalize (c.deliver x).mapFlight _ = y
  have agents : ((if c.sampled then (s.setAgent a y).sampleOf x c.born c.pc c.act c.touched else s.setAgent a y).trace
      (c.name x) .finish 0).agents = (s.setAgent a y).agents := by
    rw [State.trace_agents]
    split
    · obtain ⟨_, _, _, _, only⟩ := State.sampleOf_only (s.setAgent a y) x c.born c.pc c.act c.touched
      rw [only]
    · rfl
  refine ⟨?_, fun k other => ?_, fun untraced plain => ?_⟩
  · unfold State.agent?
    rw [agents]
    exact (AgentBecomes.set s a y).agent
  · unfold State.agent?
    rw [agents]
    exact (AgentBecomes.set s a y).2.2 k other
  · have still : Untraced (s.setAgent a y) (c.name x).issuer.tenant := Untraced.congr untraced rfl
    rw [if_neg (by rw [plain]; exact Bool.false_ne_true), State.trace_untraced still]
    rfl

end Done

/-! ## The steps of a walk (R108, R129, R239, R323) -/

/-- What a hop leaves of its walk: the lane as it stands then, and the reads kept for a sample. -/
def Chase.hopped (reads : List HopAt) (lane : Nat) (f : ChaseLane → ChaseLane) (c : Chase) : Chase :=
  { c.modLane lane f with touched := c.touched ++ hopPieces reads }

theorem walksHop : Claim.WalksHop := by
  intro s a id lane x p c hx hp hc unheld
  refine ⟨fun waiting => ⟨fun full => ?_, fun room => ?_⟩, fun begun => ⟨fun unreleased fresh breaks => ?_, ?_⟩⟩
  · show execChaseHop a id lane s = _
    unfold execChaseHop
    simp only [hx, hp, hc, unheld, waiting, full, Bool.false_eq_true, if_false, if_true]
  · refine ⟨s.modAgent a (Agent.mapFlight (Flight.modChase id fun q => { q with waiting := false })), ?_, AgentBecomes.mod hx _⟩
    show execChaseHop a id lane s = _
    unfold execChaseHop
    simp only [hx, hp, hc, unheld, waiting, room, Bool.false_eq_true, if_false, if_true]
  · have becomes := AgentBecomes.mod hx (Agent.mapFlight (Flight.modChase id fun q => { q with held := true }))
    obtain ⟨r, reports, held⟩ := State.reportHeld_reports
      (s.modAgent a (Agent.mapFlight (Flight.modChase id fun q => { q with held := true }))) x c.seq (c.name x).engine
    refine ⟨(s.modAgent a (Agent.mapFlight (Flight.modChase id fun q => { q with held := true }))).reportHeld x
      c.seq (c.name x).engine, _, ?_, fun _ => rfl, becomes.agent, rfl, becomes.2.2, r, reports, held⟩
    show execChaseHop a id lane s = _
    unfold execChaseHop
    simp only [hx, hp, hc, unheld, begun, unreleased, fresh, breaks, Bool.false_eq_true, if_false, Bool.not_false, Bool.and_true, if_true]
  · intro l free ready found l2 reads hops alone ls
    let s0 := if c.unstarted then s.trace (c.name x) .start 0 else s
    -- Both ways of a hop leave the walk with its lane as l2.
    obtain ⟨f, hf, runs⟩ : ∃ f : ChaseLane → ChaseLane, f l = l2 ∧ exec (.chaseHop a id lane) s =
        .next (((s0.hopAsks p.core x.ident.tenant c reads).modAgent a (Agent.mapFlight (Flight.modChase id
          (Chase.hopped reads lane f)))).chaseDone a id) := by
      have breakless : (!c.released && c.unstarted && s.engineBreak x 7 c.seq) = false := by
        cases hr : c.released <;> cases hu : c.unstarted <;> simp [*]
      have goes : (c.unstarted && !s.engineReady x id) = false := by
        cases hu : c.unstarted <;> simp [ready, hu]
      obtain ⟨k, hop, rfl⟩ | ⟨q, hop, rfl⟩ := hops
      · refine ⟨fun y => { y with status := some k }, rfl, ?_⟩
        show execChaseHop a id lane s = _
        unfold execChaseHop
        simp only [hx, hp, hc, unheld, begun, breakless, goes, found, hop, Bool.false_eq_true, if_false]
        rfl
      · refine ⟨fun y => { y with p := q, hops := y.hops + 1, status := if y.hops + 1 ≥ y.limit then some 1 else none }, rfl, ?_⟩
        show execChaseHop a id lane s = _
        unfold execChaseHop
        simp only [hx, hp, hc, unheld, begun, breakless, goes, found, hop, Bool.false_eq_true, if_false]
        rfl
    have lanes : (c.lanes.map fun q => if q.lane = lane then f q else q) = ls := by
      refine List.map_congr_left fun q hq => ?_
      by_cases h : q.lane = lane
      · rw [if_pos h, if_pos h, alone q hq h, hf]
      · rw [if_neg h, if_neg h]
    have asks := SameButWalks.hopAsks s0 p.core x.ident.tenant c reads
    have agents : (s0.hopAsks p.core x.ident.tenant c reads).agents = s.agents := by
      rw [asks.agents]
      dsimp only [s0]
      split
      · exact State.trace_agents ..
      · rfl
    have quiet : Untraced s x.ident.tenant → (s0.hopAsks p.core x.ident.tenant c reads).mem = s.mem ∧
        Untraced (s0.hopAsks p.core x.ident.tenant c reads) x.ident.tenant := by
      intro untraced
      have same : s0 = s := by
        dsimp only [s0]
        rw [State.trace_untraced (c := c.name x) untraced, ite_self]
      rw [same] at asks ⊢
      exact ⟨asks.mem, Untraced.congr untraced asks.tenants⟩
    generalize s0.hopAsks p.core x.ident.tenant c reads = s1 at runs agents quiet
    have hx1 : s1.agent? a = some x := by
      unfold State.agent?
      rw [agents]
      exact hx
    have becomes := AgentBecomes.mod hx1 (Agent.mapFlight (Flight.modChase id (Chase.hopped reads lane f)))
    have others : ∀ k, k ≠ a →
        (s1.modAgent a (Agent.mapFlight (Flight.modChase id (Chase.hopped reads lane f)))).agent? k = s.agent? k := by
      intro k other
      rw [becomes.2.2 k other]
      unfold State.agent?
      rw [agents]
    have walk : (x.mapFlight (Flight.modChase id (Chase.hopped reads lane f))).flight.chases.find? (fun q => q.id == id) =
        some { c with lanes := ls, touched := c.touched ++ hopPieces reads } := by
      have := find?_map_chase x.flight.chases id (Chase.hopped reads lane f) fun _ => rfl
      rw [hc] at this
      rw [← lanes]
      exact this
    have named : c.id = id := by simpa using List.find?_some hc
    by_cases going : ∃ q ∈ ls, q.status = none
    · rw [State.chaseDone_open becomes.agent walk going] at runs
      refine ⟨_, runs, others, fun untraced _ b => ?_, fun _ => ⟨_, becomes.agent, rfl, rfl, walk⟩, fun ended => ?_⟩
      · exact State.byte_congr (quiet untraced).1 b
      · obtain ⟨q, hq, h⟩ := going
        exact absurd h (ended q hq)
    · have ended : ∀ q ∈ ls, q.status ≠ none := fun q hq h => going ⟨q, hq, h⟩
      obtain ⟨agent, rest, bytes⟩ := State.chaseDone_ended becomes.agent walk ended
      obtain ⟨r, delivered, written⟩ := Chase.deliver_spec { c with lanes := ls, touched := c.touched ++ hopPieces reads }
        (x.mapFlight (Flight.modChase id (Chase.hopped reads lane f)))
      rw [delivered] at agent
      refine ⟨_, runs, fun k other => (rest k other).trans (others k other), fun untraced plain b => ?_,
        fun h => absurd h going, fun _ => ⟨_, agent, rfl, ?_, ?_⟩⟩
      · exact State.byte_congr ((bytes (quiet untraced).2 plain).trans (quiet untraced).1) b
      · exact filter_map_chase x.flight.chases id (Chase.hopped reads lane f) fun _ => rfl
      · subst named
        exact written

/-- Settles O27. -/
theorem walkHops : Obligations.WalkHops := ⟨walkReads, hopsFollowTheirRule, walksHop⟩

end Sys2Proof.Machine
end

section
/-! PROOF of `DeferredReturnsPerform` (O35): the writes of a Cinch, and its two returns. -/

namespace Sys2Proof.Claim

open Sys2Proof.Machine

/-! ## Walks for a Cinch (R91) -/

theorem SameButWalks.translateDie (s : State) (die tenant : Nat) (va : DWord) (w : Want) :
    SameButWalks s (s.translateDie die tenant va w).1 := by
  unfold State.translateDie
  split
  · exact .refl s
  · split
    · exact .refl s
    · cases walk s tenant die va.toNat with
      | leaf e => exact .keepDie ..
      | fault code => exact .refl s

theorem SameButWalks.latigo {s t : State} (h : SameButWalks s t) (d : Nat) : (t.die d).latigo = (s.die d).latigo := by
  rw [h.2.2 d]

theorem SameButWalks.linkLost {s t : State} (h : SameButWalks s t) : t.linkLost = s.linkLost := by
  obtain ⟨⟨_, _, _, _, _, rfl⟩, -⟩ := h
  rfl

end Sys2Proof.Claim

namespace Sys2Proof.Machine

open Sys2Proof.Claim

/-! ## Writes of one piece -/

/-- A write of one piece at a location, over the memory of another state. -/
theorem engineWriteAt_piece_mem {s t : State} (h : t.mem = s.mem) (o : Origin) (die k : Nat) (x : Xlat) {data : List Byte}
    (len : data.length = k) : (t.engineWriteAt o die k [x] data).mem = (s.write (cellsAt x.key data)).mem := by
  obtain ⟨_, _, _, _, _, only⟩ := engineWriteAt_only t o die k [x] data
  rw [only]
  show memPuts t.mem (pieceCells k [x] data) = memPuts s.mem (cellsAt x.key data)
  rw [h, pieceCells_single, List.take_of_length_le (Nat.le_of_eq len)]

theorem engineWriteAt_dies (s : State) (o : Origin) (die k : Nat) (xs : List Xlat) (data : List Byte) :
    (s.engineWriteAt o die k xs data).dies = s.dies := by
  obtain ⟨_, _, _, _, _, only⟩ := engineWriteAt_only s o die k xs data
  rw [only]

/-- A deferred return that has left its queue. -/
theorem State.latigoDrop_latigo {s t : State} {die : Nat} (h : (t.die die).latigo = (s.die die).latigo) (ix : Nat) :
    ((t.latigoDrop die ix).die die).latigo = (s.die die).latigo.eraseIdx ix := by
  unfold State.latigoDrop
  rw [State.die_modDie, if_pos rfl, ← h]

theorem State.latigoDrop_tenant (s : State) (die ix t : Nat) : (s.latigoDrop die ix).tenant t = s.tenant t := rfl

/-! ## Freed sets (R278) -/

theorem State.setKey_congr {s t : State} (h : t.tenants = s.tenants) (tenant pa : Nat) :
    t.setKey tenant pa = s.setKey tenant pa := by
  unfold State.setKey State.setLength State.tenant
  rw [h]

/-- One word of a set, at its location. -/
theorem State.putSetWordsAs_word {s : State} {t pa k : Nat} (h : s.setKey t pa = some k) (o : Origin) (die w : Nat) :
    s.putSetWordsAs o die t pa [w] = s.engineWriteAt o die 4 [plainXlat k] (leBytes 4 w) := by
  unfold State.putSetWordsAs
  simp [h]

theorem setFreeReturns {s : State} {die ix : Nat} {e : LatigoEntry} (queued : (s.die die).latigo[ix]? = some e)
    (due : s.latigoDue die ix e = true) {i payload cap k0 k : Nat} (kind : e.kind = .setEntry i payload cap)
    (free0 : s.setHeld .any e.tenant (s.entryAddr e.tenant 0) 8 = false)
    (free : s.setHeld .any e.tenant (s.entryAddr e.tenant i) 8 = false)
    (key0 : s.setKey e.tenant (s.entryAddr e.tenant 0) = some k0)
    (key : s.setKey e.tenant (s.entryAddr e.tenant i + 4) = some k) :
    ∃ u, exec (.setFreeReturn die ix) s = .next u ∧
      (∀ j, u.byte j = ((s.write (cellsAt k (leBytes 4 (s.le k0 4)))).write (cellsAt k0 (leBytes 4 i))).byte j) ∧
      (u.tenant e.tenant).heap = heapReturn ((s.tenant e.tenant).reg 0x30).toNat ((s.tenant e.tenant).reg 0x38).toNat
        payload (4 * cap) (s.tenant e.tenant).heap ∧
      (u.die die).latigo = (s.die die).latigo.eraseIdx ix := by
  let o : Origin := ⟨1, 64, reqOfEngine 8 die 0 0, false⟩
  let asked := s.homeReads o die ((s.setKeys e.tenant (s.entryAddr e.tenant 0) 1).map fun k => (plainXlat k, 4))
  let chained := asked.engineWriteAt o die 4 [plainXlat k] (leBytes 4 (s.le k0 4))
  let headed := chained.engineWriteAt o die 4 [plainXlat k0] (leBytes 4 i)
  have asks : SameButWalks s asked := (SameButHomes.homeReads ..).walks
  have head : s.setWord e.tenant (s.entryAddr e.tenant 0) = s.le k0 4 := by
    unfold State.setWord
    rw [key0]
  have putNext : asked.putSetWordsAs o die e.tenant (s.entryAddr e.tenant i + 4) [s.le k0 4] = chained :=
    State.putSetWordsAs_word ((State.setKey_congr asks.tenants ..).trans key) ..
  have putHead : chained.putSetWordsAs o die e.tenant (s.entryAddr e.tenant 0) [i] = headed :=
    State.putSetWordsAs_word ((State.setKey_congr ((engineWriteAt_tenants ..).trans asks.tenants) ..).trans key0) ..
  have runs : exec (.setFreeReturn die ix) s = .next ((headed.modTenant e.tenant fun t =>
      { t with heap := heapReturn (t.reg 0x30).toNat (t.reg 0x38).toNat payload (4 * cap) t.heap }).latigoDrop die ix) := by
    rw [← putHead, ← putNext]
    show execSetFreeReturn die ix s = _
    unfold execSetFreeReturn
    simp only [queued, kind, due, free0, free, head, Bool.not_true, Bool.or_self, Bool.false_eq_true, if_false]
    rfl
  have written : headed.mem = ((s.write (cellsAt k (leBytes 4 (s.le k0 4)))).write (cellsAt k0 (leBytes 4 i))).mem :=
    engineWriteAt_piece_mem (engineWriteAt_piece_mem asks.mem o die 4 (plainXlat k) (leBytes_length ..)) o die 4 (plainXlat k0)
      (leBytes_length ..)
  refine ⟨_, runs, fun j => State.byte_congr written j, ?_, State.latigoDrop_latigo ?_ ix⟩
  · have same : headed.tenant e.tenant = s.tenant e.tenant := by
      unfold State.tenant
      rw [engineWriteAt_tenants, engineWriteAt_tenants, asks.tenants]
    rw [State.latigoDrop_tenant, State.tenant_modTenant, if_pos rfl, same]
  · show (headed.die die).latigo = _
    unfold State.die
    rw [engineWriteAt_dies, engineWriteAt_dies]
    exact asks.latigo die

/-! ## Freed blocks (R301) -/

/-- A block that cannot be written is discarded and reported. -/
theorem latigoDiscard_spec {s t : State} (h : SameButWalks s t) (die ix : Nat) (e : LatigoEntry) (addr : DWord) :
    SameBytes s (t.latigoDiscard die ix e addr) ∧
      ((t.latigoDiscard die ix e addr).die die).latigo = (s.die die).latigo.eraseIdx ix ∧
      ∃ r, ((t.latigoDiscard die ix e addr).tenant e.tenant).reports = (s.tenant e.tenant).reports ++ [r] ∧ r.code = 13 ∧
        r.addr = addr ∧ r.seq = e.seq := by
  unfold State.latigoDiscard State.report
  have same : t.tenant e.tenant = s.tenant e.tenant := by
    unfold State.tenant
    rw [h.tenants]
  refine ⟨fun j => State.byte_congr h.mem j, State.latigoDrop_latigo (h.latigo die) ix, ?_⟩
  rw [State.tenant_modTenant, if_pos rfl, State.latigoDrop_tenant, same]
  exact ⟨_, rfl, rfl, rfl, rfl⟩

section Push
variable {s : State} {die ix : Nat} {e : LatigoEntry} {addr : DWord} {len pool : Nat}

/-- A push asks for the walk of an address, and translates it for the Cinch. -/
def State.cinchFinds (s : State) (die tenant : Nat) (va : DWord) : State × XRes :=
  (s.dieWalkAsks (reqOfEngine 8 die 0 0) die tenant va).translateDie die tenant va .write

theorem State.cinchFinds_walks {s s1 : State} {die tenant : Nat} {va : DWord} {r : XRes}
    (h : s.cinchFinds die tenant va = (s1, r)) : SameButWalks s s1 := by
  have walks : SameButWalks s (s.cinchFinds die tenant va).1 :=
    (SameButHomes.dieWalkAsks ..).walks.trans (.translateDie ..)
  rw [h] at walks
  exact walks

/-- Where a pool stands in its tenant's table. -/
def State.poolAt (s : State) (tenant pool : Nat) : DWord := (s.tenant tenant).reg 0x40 + BitVec.ofNat 64 (16 * pool)

variable (queued : (s.die die).latigo[ix]? = some e) (due : s.latigoDue die ix e = true) (kind : e.kind = .block addr len pool)
include queued due kind

/-- A push in its order: the block's address, the pool's, and then the two writes. -/
theorem execCinchPush_eq : exec (.cinchPush die ix) s =
    match s.cinchFinds die e.tenant addr with
    | (s1, .fault _) => .next (s1.latigoDiscard die ix e addr)
    | (s1, .ok b) =>
      match s1.cinchFinds die e.tenant (s.poolAt e.tenant pool) with
      | (s2, .fault _) => .next (s2.latigoDiscard die ix e addr)
      | (s2, .ok p) =>
        let o : Origin := ⟨1, 64, reqOfEngine 8 die 0 0, false⟩
        if s.reachHeld die .any b.key || s.reachHeld die .any p.key then .next s
        else if s2.loses p then .next ((s2.linkGone e.tenant 0).latigoDrop die ix)
        else
          .next (((if s2.loses b then (s2.homeReads o die [(p, 12)]).linkGone e.tenant 0
            else (s2.homeReads o die [(p, 12)]).engineWriteAt o die 12 [b] (s2.bytes p.key 8 ++ leBytes 4 len)).engineWriteAt o
              die 12 [p] (leBytes 8 addr.toNat ++ leBytes 4 (s2.le (p.key + 8) 4 + 1))).latigoDrop die ix) := by
  show execCinchPush die ix s = _
  unfold execCinchPush State.cinchFinds State.poolAt
  simp only [queued, kind, due, Bool.not_true, Bool.false_eq_true, if_false] <;> rfl

theorem cinchPush_discards {code : Nat}
    (refused : (s.cinchFinds die e.tenant addr).2 = .fault code ∨ ∃ b, (s.cinchFinds die e.tenant addr).2 = .ok b ∧
      ((s.cinchFinds die e.tenant addr).1.cinchFinds die e.tenant (s.poolAt e.tenant pool)).2 = .fault code) :
    ∃ u r, exec (.cinchPush die ix) s = .next u ∧ SameBytes s u ∧
      (u.die die).latigo = (s.die die).latigo.eraseIdx ix ∧
      (u.tenant e.tenant).reports = (s.tenant e.tenant).reports ++ [r] ∧ r.code = 13 ∧ r.addr = addr ∧ r.seq = e.seq := by
  rw [execCinchPush_eq queued due kind]
  rcases found1 : s.cinchFinds die e.tenant addr with ⟨s1, res1⟩
  have walks1 := State.cinchFinds_walks found1
  rw [found1] at refused
  obtain h | ⟨b, h1, h2⟩ := refused
  · obtain rfl : res1 = _ := h
    obtain ⟨bytes, latigo, r, report⟩ := latigoDiscard_spec walks1 die ix e addr
    exact ⟨_, r, rfl, bytes, latigo, report⟩
  · obtain rfl : res1 = _ := h1
    rcases found2 : s1.cinchFinds die e.tenant (s.poolAt e.tenant pool) with ⟨s2, res2⟩
    have walks2 := State.cinchFinds_walks found2
    rw [found2] at h2
    obtain rfl : res2 = _ := h2
    obtain ⟨bytes, latigo, r, report⟩ := latigoDiscard_spec (walks1.trans walks2) die ix e addr
    exact ⟨_, r, by simp only [found2], bytes, latigo, report⟩

section Found
variable {b p : Xlat} (block : (s.cinchFinds die e.tenant addr).2 = .ok b)
  (head : ((s.cinchFinds die e.tenant addr).1.cinchFinds die e.tenant (s.poolAt e.tenant pool)).2 = .ok p)
include block head

theorem cinchPush_held (held : s.reachHeld die .any b.key = true ∨ s.reachHeld die .any p.key = true) :
    exec (.cinchPush die ix) s = .next s := by
  obtain ⟨s1, found1⟩ : ∃ s1, s.cinchFinds die e.tenant addr = (s1, .ok b) := ⟨_, Prod.ext rfl block⟩
  rw [found1] at head
  obtain ⟨s2, found2⟩ : ∃ s2, s1.cinchFinds die e.tenant (s.poolAt e.tenant pool) = (s2, .ok p) := ⟨_, Prod.ext rfl head⟩
  rw [execCinchPush_eq queued due kind]
  simp only [found1, found2]
  exact if_pos (by rw [Bool.or_eq_true]; exact held)

theorem cinchPush_writes (freeBlock : s.reachHeld die .any b.key = false) (freePool : s.reachHeld die .any p.key = false)
    (linked : s.linkLost = false) :
    ∃ u, exec (.cinchPush die ix) s = .next u ∧
      (∀ j, u.byte j = ((s.write (cellsAt b.key (s.bytes p.key 8 ++ leBytes 4 len))).write
        (cellsAt p.key (leBytes 8 addr.toNat ++ leBytes 4 (s.le (p.key + 8) 4 + 1)))).byte j) ∧
      (u.die die).latigo = (s.die die).latigo.eraseIdx ix := by
  obtain ⟨s1, found1⟩ : ∃ s1, s.cinchFinds die e.tenant addr = (s1, .ok b) := ⟨_, Prod.ext rfl block⟩
  rw [found1] at head
  obtain ⟨s2, found2⟩ : ∃ s2, s1.cinchFinds die e.tenant (s.poolAt e.tenant pool) = (s2, .ok p) := ⟨_, Prod.ext rfl head⟩
  have walks := (State.cinchFinds_walks found1).trans (State.cinchFinds_walks found2)
  have kept : ∀ x, s2.loses x = false := fun x => by
    unfold State.loses
    rw [walks.linkLost, linked, Bool.false_and]
  have bytes : s2.bytes p.key 8 = s.bytes p.key 8 := State.bytes_congr walks.mem ..
  have count : s2.le (p.key + 8) 4 = s.le (p.key + 8) 4 := congrArg leVal (State.bytes_congr walks.mem ..)
  have asks := walks.trans (SameButHomes.homeReads s2 ⟨1, 64, reqOfEngine 8 die 0 0, false⟩ die [(p, 12)]).walks
  have first := engineWriteAt_piece_mem asks.mem ⟨1, 64, reqOfEngine 8 die 0 0, false⟩ die 12 b
    (data := s.bytes p.key 8 ++ leBytes 4 len) (by rw [List.length_append, State.bytes_length, leBytes_length])
  have second := engineWriteAt_piece_mem first ⟨1, 64, reqOfEngine 8 die 0 0, false⟩ die 12 p
    (data := leBytes 8 addr.toNat ++ leBytes 4 (s.le (p.key + 8) 4 + 1))
    (by rw [List.length_append, leBytes_length, leBytes_length])
  have runs := execCinchPush_eq queued due kind
  simp only [found1, found2, freeBlock, freePool, kept, bytes, count, Bool.or_self, Bool.false_eq_true, if_false] at runs
  refine ⟨_, runs, fun j => State.byte_congr second j, State.latigoDrop_latigo ?_ ix⟩
  unfold State.die
  rw [engineWriteAt_dies, engineWriteAt_dies]
  exact asks.latigo die

end Found
end Push

/-- Settles O35. -/
theorem deferredReturnsPerform : Obligations.DeferredReturnsPerform := by
  intro s die ix e queued due
  refine ⟨fun i payload cap kind => ⟨fun held => ?_, fun free0 free k0 k key0 key => ?_⟩, fun addr len pool kind =>
    ⟨fun b p block head => ⟨?_, ?_⟩, fun code refused => ?_⟩⟩
  · show execSetFreeReturn die ix s = _
    unfold execSetFreeReturn
    simp only [queued, kind, due, Bool.not_true, Bool.false_eq_true, if_false]
    exact if_pos (by rw [Bool.or_eq_true]; exact held)
  · exact setFreeReturns queued due kind free0 free key0 key
  · exact cinchPush_held queued due kind block head
  · exact cinchPush_writes queued due kind block head
  · exact cinchPush_discards queued due kind refused

end Sys2Proof.Machine
end


section
/-! PROOF of `TokenReadAcquires` (O3): what the first read of a token leaves, and a read of none. -/

namespace Sys2Proof.Machine

open Sys2Proof.Claim

/-- One of the uses names scalar register n. -/
def usesScalar (us : List Use) (n : Nat) : Bool := us.any fun u => u.regList.any fun r => r == .s n

theorem usesScalar_iff (us : List Use) (n : Nat) : usesScalar us n = true ↔ ∃ u ∈ us, Opnd.s n ∈ u.regList := by
  simp only [usesScalar, List.any_eq_true, beq_iff_eq, exists_eq_right]

/-- Whether a token is among the registers named decides whether anything is acquired (R131). -/
theorem Ctx.acquireTokens_eq (c : Ctx) (us : List Use) :
    c.acquireTokens us =
      if c.ag.flight.tokens.any (usesScalar us) then
        let ag := c.ag.mapFlight fun f => { f with tokens := f.tokens.filter fun n => !usesScalar us n }
        { c with ag := ag, st := (c.st.setAgent c.key ag).invalL1 ag.core }
      else c := by
  have hit : (us.any fun u => u.regList.any fun r => c.ag.flight.tokens.any fun t => r == .s t) =
      c.ag.flight.tokens.any (usesScalar us) := by
    rw [Bool.eq_iff_iff]
    simp only [List.any_eq_true, usesScalar, beq_iff_eq]
    constructor
    · rintro ⟨u, hu, r, hr, n, hn, rfl⟩
      exact ⟨n, hn, u, hu, _, hr, rfl⟩
    · rintro ⟨n, hn, u, hu, r, hr, rfl⟩
      exact ⟨u, hu, _, hr, n, hn, rfl⟩
  unfold Ctx.acquireTokens
  rw [hit]
  rfl

section Tokens
variable (c : Ctx) (us : List Use)

/-- The registers read are tokens no more (R131). -/
theorem Ctx.acquireTokens_tokens (n : Nat) : n ∈ (c.acquireTokens us).ag.flight.tokens ↔
    n ∈ c.ag.flight.tokens ∧ ¬ ∃ u ∈ us, Opnd.s n ∈ u.regList := by
  rw [c.acquireTokens_eq us, ← usesScalar_iff, Bool.not_eq_true]
  split
  · show n ∈ c.ag.flight.tokens.filter (fun n => !usesScalar us n) ↔ _
    rw [List.mem_filter, Bool.not_eq_true']
  · next none =>
    rw [Bool.not_eq_true, List.any_eq_false] at none
    exact ⟨fun hn => ⟨hn, Bool.eq_false_iff.mpr (none n hn)⟩, And.left⟩

/-- A read of a token empties the L1 of the agent's core (R131). -/
theorem Ctx.acquireTokens_l1 (h : ∃ n ∈ c.ag.flight.tokens, ∃ u ∈ us, Opnd.s n ∈ u.regList) :
    ((c.acquireTokens us).st.core (c.acquireTokens us).ag.core).l1 = [] := by
  obtain ⟨n, hn, hu⟩ := h
  rw [c.acquireTokens_eq us, if_pos (List.any_eq_true.mpr ⟨n, hn, (usesScalar_iff us n).mpr hu⟩)]
  unfold State.invalL1
  simp only [State.core_modCore, if_true]

/-- A read of no token changes nothing. -/
theorem Ctx.acquireTokens_none (h : ∀ n ∈ c.ag.flight.tokens, ∀ u ∈ us, Opnd.s n ∉ u.regList) : c.acquireTokens us = c := by
  rw [c.acquireTokens_eq us, if_neg]
  rw [Bool.not_eq_true, List.any_eq_false]
  intro n hn hit
  obtain ⟨u, hu, named⟩ := (usesScalar_iff us n).mp hit
  exact h n hn u hu named

/-- No other core changes. -/
theorem Ctx.acquireTokens_core {k : Nat} (h : k ≠ (c.acquireTokens us).ag.core) :
    (c.acquireTokens us).st.core k = c.st.core k := by
  rcases c.acquireTokens_cases us with e | ⟨f, e⟩
  · rw [e]
  · rw [e] at h ⊢
    exact (State.core_modCore ..).trans (if_neg (Ne.symm h))

end Tokens

/-- Settles O3: the surroundings of an instruction that runs are those of its issue after the acquire of its tokens. -/
theorem tokenReadAcquires : Obligations.TokenReadAcquires := by
  rintro i F s c - ⟨c0, issues, -, -, -, -, -, rfl, -⟩
  obtain ⟨-, -, run, act, mem, -, f, ag⟩ := c0.acquireTokens_spec F.us
  obtain ⟨rfl, -⟩ := Ctx.of_spec issues
  exact ⟨c0, issues, c0.acquireTokens_tokens F.us, c0.acquireTokens_l1 F.us,
    fun none => by rw [c0.acquireTokens_none F.us none], fun k hk => c0.acquireTokens_core F.us hk, State.byte_congr mem,
    by rw [ag], by rw [ag], by rw [ag], act, run⟩

end Sys2Proof.Machine
end

section
/-! PROOF of `LoadsReturn` (O21): the lanes of a load that read, the bytes that they read, and the record of a sampled one. -/

namespace Sys2Proof.Machine

open Sys2Proof.Claim

/-! ## The lanes that read (R116 to R119, R221, R223) -/

/-- The state in which lanes of a load hold what they read, and their reads stand at the home slices. -/
def State.loadRead (s : State) (a id : Nat) (m : Lanes) (x : Agent) (p : Place) (o : MemOp) : State :=
  let home := (o.lanes.filter fun l => m.getLsbD l.lane).filterMap fun l =>
    if ((s.source p.core o l).getD none).isNone then l.loc.map fun t => (t, o.width) else none
  (s.modOp a id (MemOp.mapLanes (fun l => m.getLsbD l.lane) (loadLane s x p o))).homeReads (loadOrigin p o.qual)
    (dieOfCore p.core) home

section Load
variable {s : State} {a id : Nat} {m : Lanes} {x : Agent} {p : Place} {o : MemOp} (ho : s.op? a id = some (x, p, o))
include ho

theorem execLoadReturn_reads (load : o.isLoad = true) (ready : o.allAt m LaneSt.isReady = true)
    (closed : o.closed m (fun l k => k.st.isReady && o.readsHome l && o.readsHome k) = true)
    (free : ∀ l ∈ o.lanes, m.getLsbD l.lane = true → loadWaits x.flight o l = false ∧ (s.source p.core o l).isSome = true) :
    execLoadReturn a id m s = .next ((s.loadRead a id m x p o).completeRead a id p.core) := by
  have noWait : (o.lanes.filter fun l => m.getLsbD l.lane).any (loadWaits x.flight o) = false :=
    any_among fun l hl hm => (free l hl hm).1
  have sourced : (o.lanes.filter fun l => m.getLsbD l.lane).any (fun l => (s.source p.core o l).isNone) = false :=
    any_among fun l hl hm => by rw [← Option.not_isSome, (free l hl hm).2, Bool.not_true]
  unfold execLoadReturn State.loadRead loadLane LaneOp.among
  simp only [ho, load, ready, closed, noWait, sourced, Bool.not_true, Bool.or_self, Bool.false_eq_true, if_false]

theorem State.loadRead_op : (s.loadRead a id m x p o).op? a id =
    some (lanesMoved x id m (loadLane s x p o), p, MemOp.mapLanes (fun l => m.getLsbD l.lane) (loadLane s x p o) o) :=
  (State.op?_congr (SameButHomes.homeReads ..).agents a id).trans
    (State.op?_mod ho (MemOp.mapLanes (fun l => m.getLsbD l.lane) (loadLane s x p o)) fun _ => rfl)

/-- Only the load's lanes and the bookkeeping of the home slices change. -/
theorem State.loadRead_becomes : ∃ t, AgentBecomes s t a (lanesMoved x id m (loadLane s x p o)) ∧
    SameButHomes t (s.loadRead a id m x p o) := by
  obtain ⟨hx, -⟩ := State.op?_spec ho
  exact ⟨_, AgentBecomes.mod hx (Agent.mapFlight (Flight.modOp id (MemOp.mapLanes (fun l => m.getLsbD l.lane)
    (loadLane s x p o)))), .homeReads ..⟩

end Load

/-- A completed read of a sampled instruction writes its record (R325). -/
theorem State.completeRead_sampleTaken {s u : State} {a id core : Nat} {x x1 : Agent} {p : Place} {o : MemOp}
    (h : u.op? a id = some (x1, p, o)) (hu : o.undone = false) (sampled : o.sampled = true) (mem : u.mem = s.mem)
    (tenants : u.tenants = s.tenants) (gangs : u.gangs = s.gangs) (ident : x1.ident = x.ident) (place : x1.place = x.place)
    (sys : x1.sys = x.sys) : SampleTaken s (u.completeRead a id core) x o := by
  obtain ⟨s2, e, mem2, tenants2, gangs2, -⟩ := State.completeRead_steps (core := core) h hu
  refine ⟨s2, x1, mem2.trans mem, tenants2.trans tenants, gangs2.trans gangs, ident, place, sys, ?_⟩
  have sample : s2.sampleOp x1 o = s2.sampleOf x1 o.born o.pc o.act (o.lanes.map fun l => (l.va.toNat, o.width)) := by
    unfold State.sampleOp
    rw [if_pos sampled]
    rfl
  rw [e, ← sample]
  exact ⟨rfl, rfl⟩

/-- R96, R116 to R119, R221, R223, R325. -/
theorem loadsReturn_lanes : Claim.LoadsReturn := by
  intro s a id m x p o ho load ready closed free
  obtain ⟨t, ⟨rest, here, others⟩, homes⟩ := State.loadRead_becomes (m := m) ho
  have read := State.loadRead_op (m := m) ho
  have same : ∀ k, (s.loadRead a id m x p o).agent? k = t.agent? k := fun k => congrArg (kget · k) homes.agents
  have bytes : SameBytes s (s.loadRead a id m x p o) := fun k => (homes.bytes k).trans (by rw [rest]; rfl)
  obtain ⟨l2, hbm, sent, homes⟩ := homes
  refine ⟨_, execLoadReturn_reads ho load ready closed free, ?_⟩
  cases hu : (MemOp.mapLanes (fun l => m.getLsbD l.lane) (loadLane s x p o) o).undone with
  | true =>
    rw [State.completeRead_open read hu]
    refine ⟨fun _ => bytes, fun k hk => (same k).trans (others k hk), ?_⟩
    intro o1
    refine ⟨fun _ => ⟨⟨l2, hbm, sent, ?_⟩, (same a).trans here⟩, fun hd => (nomatch hu.symm.trans hd)⟩
    rw [homes, rest]
  | false =>
    obtain ⟨y, done, delivered, apart, plain, wide⟩ := State.completeRead_done (core := p.core) read hu
    refine ⟨fun hs k => (plain hs k).trans (bytes k), fun k hk => (apart k hk).trans ((same k).trans (others k hk)), ?_⟩
    intro o1
    refine ⟨fun hd => (nomatch hu.symm.trans hd), fun _ => ⟨y, done, ?_, wide, fun sampled => ?_⟩⟩
    · have value : scalarValue (s.loadRead a id m x p o) = scalarValue s := by
        unfold scalarValue
        rw [homes, rest]
      rw [value] at delivered
      exact Delivered.of_flight rfl delivered
    · exact State.completeRead_sampleTaken read hu sampled (by rw [homes, rest]) (by rw [homes, rest]) (by rw [homes, rest])
        rfl rfl rfl

/-! ## The bytes of a lane (R69, R94, R118, R317) -/

/-- The byte that a lane of a load reads at its i-th location, and whether it is marked. -/
def State.laneByte (s : State) (f : Flight) (o : MemOp) (l : LaneOp) (src : Option L1Line) (i : Nat) : Byte × Bool :=
  match forwarded f o.id (l.key + i) with
  | some b => (b, false)
  | none =>
    match src with
    | some y => (y.byte (l.key + i), y.marks.getLsbD ((l.key + i) % 64 / 32))
    | none => (s.byte (l.key + i), nhas s.memMark ((l.key + i) / 32))

theorem State.readLane_eq (s : State) (f : Flight) (o : MemOp) (l : LaneOp) (src : Option L1Line) :
    s.readLane f o l src =
      (BitVec.ofNat 64 (leVal ((List.range o.width).map fun i => (s.laneByte f o l src i).1)),
       (List.range o.width).any fun i => (s.laneByte f o l src i).2) := by
  have e : s.readLane f o l src =
      (BitVec.ofNat 64 (leVal (((List.range o.width).map (s.laneByte f o l src)).map fun e => e.1)),
       ((List.range o.width).map (s.laneByte f o l src)).any fun e => e.2) := rfl
  rw [e, List.map_map, List.any_map]
  rfl

/-- A doubleword of up to eight little-endian bytes, byte by byte (R69). -/
theorem ofNat_leVal_byte {bs : List Byte} (h : bs.length ≤ 8) {i : Nat} (hi : i < bs.length) :
    ((BitVec.ofNat 64 (leVal bs)) >>> (8 * i)).setWidth 8 = bs.getD i 0#8 := by
  have fits : leVal bs < 2 ^ 64 := lt_of_lt_of_le (leVal_lt bs) (Nat.pow_le_pow_right (by decide : 0 < 256) h)
  apply BitVec.eq_of_toNat_eq
  rw [BitVec.toNat_setWidth, BitVec.toNat_ushiftRight, BitVec.toNat_ofNat, Nat.mod_eq_of_lt fits, Nat.shiftRight_eq_div_pow,
    Nat.pow_mul]
  exact leVal_byte bs i hi

theorem loadLane_byte (s : State) (x : Agent) (p : Place) (o : MemOp) (l : LaneOp) {i : Nat} (hi : i < o.width)
    (hw : o.width ≤ 8) : ((loadLane s x p o l).val >>> (8 * i)).setWidth 8 =
      (s.laneByte x.flight o l ((s.source p.core o l).getD none) i).1 := by
  unfold loadLane
  rw [State.readLane_eq, ofNat_leVal_byte (by simpa using hw) (by simpa using hi)]
  simp [hi]

/-- R69, R94, R118, R317. -/
theorem loadedBytes : LoadedBytes := by
  intro s x p o l i hi hw
  rw [loadLane_byte s x p o l hi hw]
  refine ⟨fun b hb => ?_, fun hb => ⟨fun y hy => ?_, fun hs => ⟨?_, fun marked => ?_⟩⟩⟩
  · simp only [State.laneByte, hb]
  · simp only [State.laneByte, hb, hy, Option.getD_some]
  · simp only [State.laneByte, hb, hs, Option.getD_some]
  · unfold loadLane
    rw [State.readLane_eq, List.any_eq_true]
    exact ⟨i, List.mem_range.mpr hi, by simp only [State.laneByte, hb, hs, Option.getD_some, marked]⟩

/-! ## The record of a sample (R325, R351) -/

theorem leVal_leBytes (n v : Nat) : leVal (leBytes n v) = v % 256 ^ n := by
  induction n generalizing v with
  | zero => simp [leBytes, leVal, Nat.mod_one]
  | succ n ih =>
    have low : (BitVec.ofNat 8 (v % 256)).toNat = v % 256 := Nat.mod_mod v 256
    rw [leBytes, leVal, ih, low, Nat.pow_succ', Nat.mod_mul]

/-- A value laid down as its low and its high part. -/
theorem leBytes_add (m n v : Nat) : leBytes (m + n) v = leBytes m v ++ leBytes n (v / 256 ^ m) := by
  induction m generalizing v with
  | zero => simp [leBytes]
  | succ m ih => rw [Nat.succ_add, leBytes, leBytes, ih, List.cons_append, Nat.pow_succ', Nat.div_div_eq_div_mul]

theorem layBytes_length (l : List (Nat × Nat)) : (layBytes l).length = (l.map Prod.snd).sum := by
  induction l with
  | nil => rfl
  | cons e t ih => obtain ⟨v, n⟩ := e; rw [layBytes, List.length_append, leBytes_length, ih, List.map_cons, List.sum_cons]

theorem layBytes_append (k l : List (Nat × Nat)) : layBytes (k ++ l) = layBytes k ++ layBytes l := by
  induction k with
  | nil => rfl
  | cons e t ih => obtain ⟨v, n⟩ := e; rw [List.cons_append, layBytes, layBytes, ih, List.append_assoc]

/-- A field of a record, as a number: what was laid down there. -/
theorem field_layBytes {l : List (Nat × Nat)} {i v n : Nat} (h : l[i]? = some (v, n)) :
    Claim.field (layBytes l) ((l.map Prod.snd).take i).sum n = v % 256 ^ n := by
  obtain ⟨hi, here⟩ := List.getElem?_eq_some_iff.mp h
  have parts : layBytes l = layBytes (l.take i) ++ (leBytes n v ++ layBytes (l.drop (i + 1))) := by
    conv_lhs => rw [← List.take_append_drop i l, List.drop_eq_getElem_cons hi, here]
    rw [layBytes_append, layBytes]
  unfold Claim.field
  rw [parts, ← List.map_take, List.drop_left' (layBytes_length _), List.take_left' (leBytes_length n v), leVal_leBytes]

/-- The fields of a sample, with what depends on timing as given; the label and its flag share a word. -/
def State.sampleFields (s : State) (x : Agent) (born : Nat) (pc : DWord) (act : Lanes) (ls : List (Nat × Nat))
    (f : Nat → Nat) : List (Nat × Nat) :=
  [(born, 8), (pc.toNat, 8), (whereWord x.ident.tenant x.place, 4), (bit x.sys.lovf * 65536 + x.sys.topLabel, 2),
    ((bit x.sys.lovf * 65536 + x.sys.topLabel) / 256 ^ 2, 2), (act.toNat, 4), (sectorsOf ls, 2), (linesOf ls, 2), (f 0, 4),
    (f 1, 4), (f 2, 4), (f 3, 4), (f 4 % 192, 1), (0, 3), (f 5, 4), (s.gangIndex x, 8)]

/-- The i-th field of a sample stands at its offset. -/
theorem field_sample {s : State} {x : Agent} {born : Nat} {pc : DWord} {act : Lanes} {ls : List (Nat × Nat)} {f : Nat → Nat}
    (i : Nat) {off v n m : Nat} (h : (s.sampleFields x born pc act ls f)[i]? = some (v, n))
    (before : (([8, 8, 4, 2, 2, 4, 2, 2, 4, 4, 4, 4, 1, 3, 4, 8] : List Nat).take i).sum = off) (size : 256 ^ n = m) :
    Claim.field (layBytes (s.sampleFields x born pc act ls f)) off n = v % m := by
  rw [← before, ← size]
  exact field_layBytes h

/-- A sample that the filter admits is the record of these fields, put to the sample ring. -/
theorem State.sampleOf_records {s : State} {x : Agent} (h : admits x.ident.tenant x.sys.topLabel = true) (born : Nat) (pc : DWord)
    (act : Lanes) (ls : List (Nat × Nat)) :
    s.sampleOf x born pc act ls = { s.ringPut true x.ident.tenant
      (layBytes (s.sampleFields x born pc act ls fun i => (Config.freeWord (s.free + i)).toNat)) with free := s.free + 6 } := by
  unfold State.sampleOf State.sampleFields
  simp only [h, Bool.not_true, Bool.false_eq_true, if_false, layBytes,
    leBytes_add 2 2 (bit x.sys.lovf * 65536 + x.sys.topLabel), List.append_assoc]

/-- A record to an enabled sample ring with room is written at the ring's index, which goes on by one (R351). -/
theorem State.ringPut_sample {s : State} {tenant : Nat} {rec : List Byte} (lo : 4 ≤ ebits ((s.tenant tenant).reg 0xB8).toNat 4 0)
    (hi : ebits ((s.tenant tenant).reg 0xB8).toNat 4 0 ≤ 20)
    (room : ((s.tenant tenant).sampIx + 1) % 2 ^ ebits ((s.tenant tenant).reg 0xB8).toNat 4 0 ≠
      ringDriver ((s.tenant tenant).reg 0xB8).toNat (ebits ((s.tenant tenant).reg 0xB8).toNat 4 0)) :
    s.ringPut true tenant rec =
      (s.devWrite (((s.tenant tenant).reg 0xB0).toNat + rec.length * (s.tenant tenant).sampIx) rec).modTenant tenant fun y =>
        { y with sampIx := ((s.tenant tenant).sampIx + 1) % 2 ^ ebits ((s.tenant tenant).reg 0xB8).toNat 4 0 } := by
  have on : ¬ (ebits ((s.tenant tenant).reg 0xB8).toNat 4 0 < 4 ∨ ebits ((s.tenant tenant).reg 0xB8).toNat 4 0 > 20) := by omega
  unfold State.ringPut
  simp only [if_true, if_neg on, if_neg room]

/-- R325, R351. -/
theorem samplesAreRecorded : SamplesAreRecorded := by
  intro s x born pc act ls t b label admitted lo hi room
  have width : b = ebits (t.reg 0xB8).toNat 4 0 := by
    show (t.reg 0xB8).toNat % 32 = (t.reg 0xB8).toNat / 2 ^ 0 % 32
    rw [pow_zero, Nat.div_one]
  have driver : (t.reg 0xB8).toNat / 256 % 256 * 2 ^ b / 256 = ringDriver (t.reg 0xB8).toNat (ebits (t.reg 0xB8).toNat 4 0) := by
    rw [← width]; rfl
  rw [driver, width] at room
  rw [width] at lo hi
  have small : x.sys.topLabel < 65536 := by
    unfold Sys.topLabel
    cases x.sys.labels.head? with
    | none => decide
    | some w => exact w.isLt
  have flag : bit x.sys.lovf < 65536 := by unfold bit; split <;> decide
  generalize hrec : layBytes (s.sampleFields x born pc act ls fun i => (Config.freeWord (s.free + i)).toNat) = rec
  have size : rec.length = 64 := by rw [← hrec, layBytes_length]; simp [State.sampleFields]
  have put := State.ringPut_sample (rec := rec) lo hi room
  rw [size] at put
  refine ⟨rec, _, ?_, rfl, size, ?_⟩
  · rw [State.sampleOf_records (beq_iff_eq.mpr admitted), hrec, put, width]
  rw [← hrec]
  refine ⟨field_sample 0 rfl rfl rfl, (field_sample 1 rfl rfl rfl).trans (Nat.mod_eq_of_lt pc.isLt), field_sample 2 rfl rfl rfl,
    (field_sample (m := 65536) 3 rfl rfl rfl).trans ?_, (field_sample (m := 65536) 4 rfl rfl rfl).trans ?_,
    (field_sample 5 rfl rfl rfl).trans (Nat.mod_eq_of_lt act.isLt), field_sample 6 rfl rfl rfl, field_sample 7 rfl rfl rfl,
    lt_of_le_of_lt (le_of_eq (field_sample (m := 256) 12 rfl rfl rfl)) ?_, field_sample 13 rfl rfl rfl, field_sample 15 rfl rfl rfl⟩
  · show _ = x.sys.topLabel
    omega
  · show (bit x.sys.lovf * 65536 + x.sys.topLabel) / 65536 % 65536 = bit x.sys.lovf
    omega
  · omega

/-- Settles O21: the lanes by what is left of the load (`State.completeRead`), the bytes one by one, the sample by the fields of
its record. -/
theorem loadsReturn : Obligations.LoadsReturn := ⟨loadsReturn_lanes, loadedBytes, samplesAreRecorded⟩

end Sys2Proof.Machine
end

section
/-! PROOF of `StoresAndReleasesProceed` (O23): stores and atomics leave their queue, stores perform at their homes and are
acknowledged. -/

namespace Sys2Proof.Machine

open Sys2Proof.Claim

/-! ## Lanes leave the queue (R115 to R118, R120) -/

theorem MemOp.isAtomic_of_store {o : MemOp} (h : o.isPlainStore = true) : o.isAtomic = false := by
  unfold MemOp.isAtomic
  rw [h, Bool.or_true, Bool.true_or, Bool.not_true]

/-- The lines of an L1 that hold the bytes take them (R18, R94). -/
theorem Core.putL1_lines (cells : List (Nat × Byte)) (c : Core) : LinesTake cells c.l1 (c.putL1 cells).l1 := by
  have perLine : (c.putL1 cells).l1 = c.l1.map fun e =>
      (e.1, if cells.any fun k => k.1 / 64 == e.1 then e.2.put e.1 cells else e.2) := by
    unfold Core.putL1
    refine List.map_congr_left fun e _ => ?_
    split <;> rfl
  intro line
  rw [perLine]
  exact kget_map_key (fun n (e : L1Line) => if cells.any fun k => k.1 / 64 == n then e.put n cells else e) ..

/-- What lanes of a plain store write are their operands. -/
theorem MemOp.cells_of_store {o : MemOp} (h : o.isPlainStore = true) (ls : List LaneOp) :
    o.cells ls = ls.flatMap fun l => cellsAt l.key (leBytes o.width l.x.toNat) := by
  unfold MemOp.cells MemOp.out
  simp only [h, if_true]

section Step
variable {s : State} {a id : Nat} {m : Lanes} {x : Agent} {p : Place} {o : MemOp} (ho : s.op? a id = some (x, p, o))
include ho

/-- A change of the lanes of a mask changes their agent alone. -/
theorem AgentBecomes.lanes (f : LaneOp → LaneOp) :
    AgentBecomes s (s.modOp a id (MemOp.mapLanes (fun l => m.getLsbD l.lane) f)) a (lanesMoved x id m f) := by
  obtain ⟨hx, -⟩ := State.op?_spec ho
  exact AgentBecomes.mod hx (Agent.mapFlight (Flight.modOp id (MemOp.mapLanes (fun l => m.getLsbD l.lane) f)))

theorem execStoreDrain_drains (plain : o.isPlainStore = true) (ready : o.allAt m LaneSt.isReady = true)
    (closed : o.closed m (fun _ k => k.st.isReady) = true)
    (free : ∀ l ∈ o.lanes, m.getLsbD l.lane = true → drainWaits x.flight o l = false) :
    execStoreDrain a id m s = .next (State.modOp
      { s.modCore p.core (Core.putL1 (o.cells ((o.lanes.filter fun l => m.getLsbD l.lane).filter LaneOp.inL1))) with
        sent := s.sent + 1 } a id
      (MemOp.mapLanes (fun l => m.getLsbD l.lane) fun l => { l with st := .drained, stamp := s.sent })) := by
  have noWait := any_among free
  have noAtomic := MemOp.isAtomic_of_store plain
  unfold execStoreDrain LaneOp.among
  simp only [ho, plain, noAtomic, ready, closed, noWait, Bool.not_true, Bool.false_and, Bool.or_self, Bool.false_eq_true, if_false]
  rfl

theorem execStoreDrain_sends (atomic : o.isAtomic = true) (wide : o.isCoreAtomic = false)
    (ready : o.allAt m LaneSt.isReady = true) (closed : o.closed m (fun _ k => k.st.isReady) = true)
    (free : ∀ l ∈ o.lanes, m.getLsbD l.lane = true → atomWaits x.flight o l = false) :
    execStoreDrain a id m s = .next (State.modOp { s with sent := s.sent + 1 } a id
      (MemOp.mapLanes (fun l => m.getLsbD l.lane) fun l => { l with st := .sent, stamp := s.sent })) := by
  have noWait := any_among free
  unfold execStoreDrain LaneOp.among
  simp only [ho, atomic, wide, ready, closed, noWait, Bool.not_true, Bool.not_false, Bool.and_true, Bool.or_self,
    Bool.false_eq_true, if_false, if_true]

/-! ## Lanes perform at their homes (R31, R115, R117, R120, R130) -/

theorem execStorePerform_performs (plain : o.isFlush = false) (drained : o.allAt m LaneSt.isDrained = true)
    (closed : o.closed m (fun l k => k.st.isDrained && l.stamp == k.stamp) = true)
    (free : ∀ l ∈ o.lanes, m.getLsbD l.lane = true →
      s.earlierSent p.core o.width l = false ∧ s.ownedLine (.issued o.issued) l.key = false) :
    execStorePerform a id m s = .next (((s.performAt p o (o.lanes.filter fun l => m.getLsbD l.lane)).modOp a id
      (MemOp.mapLanes (fun l => m.getLsbD l.lane) fun l => { l with st := .done })).tidy a) := by
  have first : (o.lanes.filter fun l => m.getLsbD l.lane).any (s.earlierSent p.core o.width) = false :=
    any_among fun l hl hm => (free l hl hm).1
  have unowned : (o.lanes.filter fun l => m.getLsbD l.lane).any (fun l => s.ownedLine (.issued o.issued) l.key) = false :=
    any_among fun l hl hm => (free l hl hm).2
  unfold execStorePerform LaneOp.among
  simp only [ho, plain, drained, closed, first, unowned, Bool.not_true, Bool.or_self, Bool.false_eq_true, if_false]

/-! ## Acknowledgements (R120) -/

/-- The state once an instruction has left the count of a scope, before it leaves its agent's work in flight; one that has nothing
outstanding then has its sample. -/
def State.acked (s : State) (a id : Nat) (sc : Scope) (x : Agent) (o : MemOp) : State :=
  if !o.returns && (o.ack sc).finished then (s.modOp a id (MemOp.ack sc)).sampleOp x o else s.modOp a id (MemOp.ack sc)

theorem execStoreAcknowledge_acks {sc : Scope} (store : o.isStore = true) (first : o.acked sc = false) (rest : o.rest = 0)
    (acked : ∀ l ∈ o.lanes, s.laneAcked (p.core / 40) sc l = true) :
    execStoreAcknowledge a id sc s = .next ((s.acked a id sc x o).tidy a) := by
  have all : o.lanes.all (s.laneAcked (dieOfCore p.core) sc) = true := List.all_eq_true.mpr acked
  unfold execStoreAcknowledge State.acked
  simp only [ho, store, first, rest, all, Bool.not_true, Bool.or_self, ne_eq, not_true_eq_false, decide_false,
    Bool.false_eq_true, if_false]

end Step

theorem State.acked_agents (s : State) (a id : Nat) (sc : Scope) (x : Agent) (o : MemOp) :
    (s.acked a id sc x o).agents = (s.modOp a id (MemOp.ack sc)).agents := by
  unfold State.acked
  split
  · obtain ⟨_, _, _, _, h⟩ := State.sampleOp_only (s.modOp a id (MemOp.ack sc)) x o
    rw [h]
  · rfl

/-! ## The claims -/

/-- R115 to R118. -/
theorem storesDrain : StoresDrain := by
  intro s a id m x p o ho plain ready closed free
  let cells := o.cells ((o.lanes.filter fun l => m.getLsbD l.lane).filter LaneOp.inL1)
  let s1 : State := { s.modCore p.core (Core.putL1 cells) with sent := s.sent + 1 }
  have ho1 : s1.op? a id = some (x, p, o) := (State.op?_congr rfl a id).trans ho
  refine ⟨_, s1.cores, execStoreDrain_drains ho plain ready closed free, AgentBecomes.lanes ho1 _, fun _ => rfl, fun k hk => ?_,
    (Core.putL1 cells (s.core p.core)).l1, ?_, ?_⟩
  · exact (State.core_modCore ..).trans (if_neg (Ne.symm hk))
  · exact (State.core_modCore ..).trans (if_pos rfl)
  · have these : cells = (o.lanes.filter fun l => m.getLsbD l.lane && l.inL1).flatMap fun l =>
        cellsAt l.key (leBytes o.width l.x.toNat) := by
      show o.cells _ = _
      rw [MemOp.cells_of_store plain, List.filter_filter]
      simp only [Bool.and_comm]
    rw [← these]
    exact Core.putL1_lines cells (s.core p.core)

/-- R120. -/
theorem atomicsAreSent : AtomicsAreSent := by
  intro s a id m x p o ho atomic wide ready closed free
  have ho1 : State.op? { s with sent := s.sent + 1 } a id = some (x, p, o) := (State.op?_congr rfl a id).trans ho
  exact ⟨_, execStoreDrain_sends ho atomic wide ready closed free, AgentBecomes.lanes ho1 _⟩

/-- R31, R115, R117, R120, R130. -/
theorem storesPerform : StoresPerform := by
  intro s a id m x p o ho plain drained closed free cells
  obtain ⟨l2, hbm, sent, homes⟩ := SameButHomes.homeWrites ((s.write cells).wakeLines ((cells.map fun c => c.1 / 64).eraseDups))
    (storeOrigin p o.qual) (dieOfCore p.core) ((o.lanes.filter fun l => m.getLsbD l.lane).filterMap LaneOp.loc) cells
  have written : ∀ k, (((s.performAt p o (o.lanes.filter fun l => m.getLsbD l.lane)).modOp a id
      (MemOp.mapLanes (fun l => m.getLsbD l.lane) fun l => { l with st := .done })).tidy a).byte k = (s.write cells).byte k := by
    intro k
    show (State.homeWrites ..).byte k = _
    rw [homes]
    rfl
  refine ⟨_, execStorePerform_performs ho plain drained closed free, ⟨l2, hbm, sent, ?_⟩, fun k hk => ?_, fun k out => ?_,
    fun l one i hi => ?_⟩
  · show ({ State.homeWrites .. with agents := _ } : State) = _
    rw [homes]
  · unfold State.tidy State.modOp
    rw [State.agent?_modAgent, if_neg (Ne.symm hk), State.agent?_modAgent, if_neg (Ne.symm hk)]
    show (State.homeWrites ..).agent? k = _
    rw [homes]
    rfl
  · rw [written, State.byte_write_other]
    intro e he key
    obtain ⟨l, hl, lo, hi⟩ := mem_cells he
    obtain ⟨hl, hm⟩ := List.mem_filter.mp hl
    exact out l hl hm (key ▸ ⟨lo, hi⟩)
  · have bytes : cells = cellsAt l.key (leBytes o.width (o.out l).toNat) := by
      show o.cells (o.lanes.filter fun l => m.getLsbD l.lane) = _
      rw [one]
      exact List.append_nil _
    rw [written, bytes, State.byte_write_cellsAt, leBytes_length, if_pos (by omega), Nat.add_sub_cancel_left, leBytes_getD _ _ _ hi]

/-- R120, R325. -/
theorem storesAreAcknowledged : StoresAreAcknowledged := by
  intro s a id sc x p o ho store first rest acked
  obtain ⟨hx, -⟩ := State.op?_spec ho
  obtain ⟨-, here, others⟩ := AgentBecomes.mod hx (Agent.mapFlight (Flight.modOp id (MemOp.ack sc)))
  have same : ∀ k, (s.acked a id sc x o).agent? k = (s.modOp a id (MemOp.ack sc)).agent? k :=
    fun k => congrArg (kget · k) (s.acked_agents a id sc x o)
  obtain ⟨-, tidied, apart⟩ := AgentBecomes.mod ((same a).trans here) (Agent.mapFlight Flight.tidy)
  refine ⟨_, execStoreAcknowledge_acks ho store first rest acked, fun plain => ?_, fun sampled silent last => ?_, tidied,
    fun k hk => (apart k hk).trans ((same k).trans (others k hk))⟩
  · intro k
    show (s.acked a id sc x o).byte k = _
    unfold State.acked
    split
    · next last =>
      rw [Bool.and_eq_true, Bool.not_eq_true'] at last
      obtain ⟨silent, last⟩ := last
      have plain : o.sampled = false := by
        rcases plain with h | h | h
        · exact h
        · exact nomatch h.symm.trans silent
        · exact nomatch h.symm.trans last
      rw [State.sampleOp_none _ _ plain]
      rfl
    · rfl
  · refine ⟨s.modOp a id (MemOp.ack sc), x, rfl, rfl, rfl, rfl, rfl, rfl, ?_⟩
    have sample : s.acked a id sc x o = (s.modOp a id (MemOp.ack sc)).sampleOf x o.born o.pc o.act
        (o.lanes.map fun l => (l.va.toNat, o.width)) := by
      unfold State.acked State.sampleOp
      rw [silent, last, Bool.not_false, Bool.and_self, if_pos rfl, if_pos sampled]
      rfl
    rw [← sample]
    exact ⟨rfl, rfl⟩

end Sys2Proof.Machine
end

section
/-! PROOF of `StoresAndReleasesProceed` (O23): what a release ends, and the statement. -/

namespace Sys2Proof.Machine

open Sys2Proof.Claim

section Release
variable {s : State} {a : Nat} {x : Agent} {p : Place} (hx : s.agent? a = some x) (hp : x.place = some p)

include hp in
theorem Agent.core_of_place : x.core = p.core := by
  unfold Agent.core
  rw [hp]
  rfl

/-! ## Of an instruction in flight (R121, R298) -/

include hx hp

/-- A memory instruction whose release is ready may perform. -/
theorem execReleaseProceed_op {id : Nat} {o : MemOp} (ho : x.flight.ops.find? (fun q => q.id == id) = some o) (h0 : id ≠ 0)
    (held : o.released = false) (ready : s.releaseReady x o.scope id = true) :
    execReleaseProceed a id s = .next (s.modOp a id fun q => { q with released := true }) := by
  unfold execReleaseProceed
  simp only [hx, hp, ho, if_neg h0, held, ready, Option.isNone_some, Bool.not_false, Bool.and_self, Bool.false_eq_true,
    if_false, if_true]

/-- A `gstart` whose release is ready may go on. -/
theorem execReleaseProceed_gstart {id : Nat} (h0 : id ≠ 0) (none : x.flight.ops.find? (fun q => q.id == id) = none)
    (there : ∃ g ∈ x.flight.gstarts, g.1 = id ∧ g.2.2 = false) (ready : s.releaseReady x .device id = true) :
    execReleaseProceed a id s = .next (s.modAgent a (Agent.mapFlight fun f =>
      { f with gstarts := f.gstarts.map fun g => if g.1 = id then (g.1, g.2.1, true) else g })) := by
  have waits : x.flight.gstarts.any (fun g => g.1 == id && !g.2.2) = true := by
    obtain ⟨g, hg, rfl, first⟩ := there
    exact List.any_eq_true.mpr ⟨g, hg, by rw [beq_self_eq_true, first]; rfl⟩
  unfold execReleaseProceed
  simp only [hx, hp, none, if_neg h0, waits, ready, Option.isNone_some, Bool.and_self, Bool.false_eq_true, if_false, if_true]

/-! ## Of what the agent waits in (R230, R278, R300) -/

theorem execReleaseProceed_hold (live : x.ctl.stop = none) : execReleaseProceed a 0 s = .next (s.holdRelease a x) := by
  unfold execReleaseProceed
  simp only [hx, hp, live, Option.isNone_some, Option.isSome_none, Bool.false_eq_true, if_false, if_true]

end Release

section Hold
variable {s : State} {a : Nat} {x : Agent}

theorem State.holdRelease_fence {o : Order} {sc : Scope} (hold : x.ctl.hold = .fence o sc)
    (rel : Order.isRel o = true → s.releaseReady x sc x.flight.nextOp = true)
    (acq : Order.isAcq o = true → x.flight.loadsWritten = true) :
    s.holdRelease a x =
      if Order.isAcq o && Scope.wide sc then (s.setAgent a x.goOn).invalL1 x.core else s.setAgent a x.goOn := by
  have done : ((Order.isRel o && !s.releaseReady x sc x.flight.nextOp) || (Order.isAcq o && !x.flight.loadsWritten)) = false := by
    rw [Bool.or_eq_false_iff]
    constructor
    · cases hr : Order.isRel o
      · rfl
      · rw [rel hr]; rfl
    · cases ha : Order.isAcq o
      · rfl
      · rw [acq ha]; rfl
  unfold State.holdRelease
  simp only [hold, done, Bool.false_eq_true, if_false]

variable {addr : DWord} {len pool : Word} {b : Bool}

theorem State.holdRelease_fdefer_release (hold : x.ctl.hold = .fdefer addr len pool false b)
    (ready : s.releaseReady x .device x.flight.nextOp = true) :
    s.holdRelease a x = s.setAgent a (x.mapCtl fun c => { c with hold := .fdefer addr len pool true false }) := by
  unfold State.holdRelease
  simp only [hold, ready, Bool.not_false, if_true]

theorem State.holdRelease_fdefer_full (hold : x.ctl.hold = .fdefer addr len pool true b)
    (full : s.latigoRoom x.die x.ident.tenant = false) :
    s.holdRelease a x = s.setAgent a (x.mapCtl fun c => { c with hold := .fdefer addr len pool true true }) := by
  unfold State.holdRelease
  simp only [hold, full, Bool.not_true, Bool.false_eq_true, if_false]

theorem State.holdRelease_fdefer_enters (hold : x.ctl.hold = .fdefer addr len pool true b)
    (room : s.latigoRoom x.die x.ident.tenant = true) :
    s.holdRelease a x = (s.setAgent a (if b then x.goOn.unparkAll else x.goOn)).modDie x.die fun d =>
      { d with latigo := d.latigo ++ [{ tenant := x.ident.tenant, target := (s.tenant x.ident.tenant).issued,
                                        kind := .block addr len.toNat pool.toNat, seq := x.eng.seq }] } := by
  unfold State.holdRelease
  simp only [hold, room, Bool.not_true, Bool.false_eq_true, if_false, if_true]

theorem State.holdRelease_setFree (hold : x.ctl.hold = .setFree) (room : s.latigoRoom x.die x.ident.tenant = true) :
    s.holdRelease a x =
      s.setAgent a (x.mapCtl fun c => { c with hold := .none, waitRun := 0#32, waitSince := none }).unparkAll := by
  unfold State.holdRelease
  simp only [hold, room, if_true]

end Hold

/-- R121, R230, R275, R278, R298, R300. -/
theorem releasesProceed : ReleasesProceed := by
  intro s a x p hx hp
  have core := Agent.core_of_place hp
  have die : x.die = p.core / 40 := congrArg dieOfCore core
  refine ⟨fun id o ho h0 held ready => ⟨_, execReleaseProceed_op hx hp ho h0 held ready,
      AgentBecomes.mod hx (Agent.mapFlight (Flight.modOp id fun q => { q with released := true }))⟩,
    fun id h0 none there ready => ⟨_, execReleaseProceed_gstart hx hp h0 none there ready, AgentBecomes.mod hx _⟩,
    fun live => ?_⟩
  have runs : exec (.releaseProceed a 0) s = .next (s.holdRelease a x) := execReleaseProceed_hold hx hp live
  rw [runs, ← die]
  refine ⟨fun o sc hold rel acq => ?_, fun addr len pool b hold ready => ?_, fun addr len pool b hold full => ?_,
    fun addr len pool b hold room => ?_, fun hold room => ?_⟩
  · rw [State.holdRelease_fence hold rel acq, core]
    refine ⟨_, _, rfl, fun k => ?_, ?_, PcsAdvanced.intro x.ctl.waitRun 8 x.ctl, fun ha wide => ?_⟩
    · split <;> rfl
    · split
      · exact AgentBecomes.set { s with cores := _ } a x.goOn
      · exact AgentBecomes.set s a x.goOn
    · have wide : Scope.wide sc = true := by
        cases sc with
        | core => exact absurd rfl wide
        | die | device | system => rfl
      rw [ha, wide, Bool.and_self, if_pos rfl]
      unfold State.invalL1
      rw [State.core_modCore, if_pos rfl]
  · rw [State.holdRelease_fdefer_release hold ready]
    exact ⟨_, rfl, AgentBecomes.set ..⟩
  · rw [State.holdRelease_fdefer_full hold full]
    exact ⟨_, rfl, AgentBecomes.set ..⟩
  · rw [State.holdRelease_fdefer_enters hold room]
    refine ⟨_, _, rfl, fun _ => rfl, ?_, PcsAdvanced.intro x.ctl.waitRun 8 x.ctl, ?_⟩
    · refine (AgentBecomes.set { s with dies := _ } a _).congr ?_
      cases b <;> rfl
    · rw [State.die_modDie, if_pos rfl]
      rfl
  · rw [State.holdRelease_setFree hold room]
    exact ⟨_, rfl, AgentBecomes.set ..⟩

/-- Settles O23: each step by the equation of its execution under the stated condition, a release by what its agent waits in. -/
theorem storesAndReleasesProceed : Obligations.StoresAndReleasesProceed :=
  ⟨storesDrain, atomicsAreSent, storesPerform, storesAreAcknowledged, releasesProceed⟩

end Sys2Proof.Machine
end

section
/-! PROOF of `QuiescenceAndGracePeriods` (O36): the quiescent point that an agent waits in. -/

namespace Sys2Proof.Machine

open Sys2Proof.Claim

/-- The agent after a quiescent point: its number is ISSUED (R296). -/
def Agent.passes (issued : Word) (x : Agent) : Agent := { x with eng := { x.eng with grace := issued } }

section Quiesce
variable {s : State} {a : Nat} {x : Agent} (hx : s.agent? a = some x)
include hx

theorem State.quiesce_becomes : AgentBecomes s (s.quiesce a) a (x.passes (s.tenant x.ident.tenant).issued) := by
  unfold State.quiesce
  simp only [hx]
  exact AgentBecomes.mod hx _

/-- A quiescent point with a change of its agent. -/
theorem State.quiesce_mod (f : Agent → Agent) :
    AgentBecomes s ((s.quiesce a).modAgent a f) a (f (x.passes (s.tenant x.ident.tenant).issued)) :=
  (State.quiesce_becomes hx).trans (AgentBecomes.mod (State.quiesce_becomes hx).agent f)

/-- One that acquires, as `qstate` and `gwait` do: the L1 is emptied too (R297, R299). -/
theorem State.quiesce_acquires (f : Agent → Agent) :
    SameBytes s (((s.quiesce a).modAgent a f).invalL1 x.core) ∧
    ((((s.quiesce a).modAgent a f).invalL1 x.core).core x.core).l1 = [] ∧
    (((s.quiesce a).modAgent a f).invalL1 x.core).agent? a = some (f (x.passes (s.tenant x.ident.tenant).issued)) := by
  refine ⟨(State.quiesce_mod hx f).bytes, ?_, (State.quiesce_mod hx f).agent⟩
  unfold State.invalL1
  rw [State.core_modCore, if_pos rfl]

variable (quiet : x.flight.quiet = true)
include quiet

theorem execQuiescentPoint_qstate (hold : x.ctl.hold = .qstate) (live : s.live x = true) :
    execQuiescentPoint a s = .next (((s.quiesce a).modAgent a Agent.goOn).invalL1 x.core) := by
  unfold execQuiescentPoint
  simp only [hx, quiet, hold, live, Bool.not_true, Bool.false_eq_true, if_false, if_true]

theorem execQuiescentPoint_gwait {t : Word} (hold : x.ctl.hold = .gwait t) (live : s.live x = true) :
    execQuiescentPoint a s = .next (((s.quiesce a).modAgent a
      (if atOrAfter (s.tenant x.ident.tenant).doneT t then Agent.goOn else Agent.gwaitPark t)).invalL1 x.core) := by
  unfold execQuiescentPoint
  simp only [hx, quiet, hold, live, Bool.not_true, Bool.false_eq_true, if_false]
  split <;> rfl

theorem execQuiescentPoint_yielded (hold : x.ctl.hold = .yielded false) :
    execQuiescentPoint a s =
      .next ((s.quiesce a).modAgent a (Agent.mapCtl fun c => { c with hold := .yielded true })) := by
  unfold execQuiescentPoint
  simp only [hx, quiet, hold, Bool.not_true, Bool.false_eq_true, if_false]

theorem execQuiescentPoint_ended (hold : x.ctl.hold = .ended false) :
    execQuiescentPoint a s =
      .next ((s.quiesce a).modAgent a (Agent.mapCtl fun c => { c with hold := .ended true })) := by
  unfold execQuiescentPoint
  simp only [hx, quiet, hold, Bool.not_true, Bool.false_eq_true, if_false]

/-- An agent whose end has counted leaves once nothing holds it. -/
theorem execQuiescentPoint_over (hold : x.ctl.hold = .ended true) :
    execQuiescentPoint a s =
      if s.named a || !x.flight.ops.isEmpty || !x.flight.gstarts.isEmpty then .next s
      else .next ((s.delAgent a).sweepGang x.ident.gang) := by
  unfold execQuiescentPoint
  simp only [hx, quiet, hold, Bool.not_true, Bool.false_eq_true, if_false]

end Quiesce

theorem State.sweepGang_agents (s : State) (g : Nat) : (s.sweepGang g).agents = s.agents := by
  unfold State.sweepGang
  split
  · rfl
  · extract_lets used over_ others
    split <;> rfl

/-- R134, R296, R297, R299, R209. -/
theorem quiescentPointsPerform : QuiescentPointsPerform := by
  intro s a x hx quiet issued passed
  refine ⟨fun live => ⟨fun hold => ?_, fun t hold => ?_⟩, fun hold => ?_, fun hold => ?_, fun hold unnamed idle none => ?_,
    fun hold kept => ?_⟩
  · obtain ⟨bytes, l1, agent⟩ := State.quiesce_acquires hx Agent.goOn
    exact ⟨_, execQuiescentPoint_qstate hx quiet hold live, bytes, _, PcsAdvanced.intro x.ctl.waitRun 8 x.ctl, l1, agent⟩
  · have runs : exec (.quiescentPoint a) s = _ := execQuiescentPoint_gwait hx quiet hold live
    refine ⟨fun done => ?_, fun short => ?_⟩
    · rw [runs, done, if_pos rfl]
      obtain ⟨bytes, l1, agent⟩ := State.quiesce_acquires hx Agent.goOn
      exact ⟨_, rfl, bytes, _, PcsAdvanced.intro x.ctl.waitRun 8 x.ctl, l1, agent⟩
    · rw [runs, short, if_neg Bool.false_ne_true]
      obtain ⟨bytes, l1, agent⟩ := State.quiesce_acquires hx (Agent.gwaitPark t)
      exact ⟨_, _, _, rfl, bytes, l1, agent, rfl, rfl, PcsAdvanced.intro x.ctl.waitRun 8 x.ctl, rfl, rfl, _, rfl, rfl, rfl, rfl,
        rfl, rfl, rfl⟩
  · exact ⟨_, execQuiescentPoint_yielded hx quiet hold, State.quiesce_mod hx _⟩
  · exact ⟨_, execQuiescentPoint_ended hx quiet hold, State.quiesce_mod hx _⟩
  · have runs : exec (.quiescentPoint a) s = _ := execQuiescentPoint_over hx quiet hold
    have agents : ∀ k, ((s.delAgent a).sweepGang x.ident.gang).agent? k = if a = k then Option.none else s.agent? k := by
      intro k
      unfold State.agent?
      rw [State.sweepGang_agents]
      exact kget_kdel ..
    rw [runs, unnamed, idle, none, if_neg (by decide)]
    exact ⟨_, rfl, State.byte_congr (State.sweepGang_mem ..), (agents a).trans (if_pos rfl),
      fun k hk => (agents k).trans (if_neg (Ne.symm hk))⟩
  · have held : (s.named a || !x.flight.ops.isEmpty || !x.flight.gstarts.isEmpty) = true := by
      rcases kept with named | going
      · rw [named, Bool.true_or, Bool.true_or]
      · rw [List.isEmpty_eq_false_iff.mpr going, Bool.not_false, Bool.or_true]
    exact (execQuiescentPoint_over hx quiet hold).trans (if_pos held)

end Sys2Proof.Machine
end

section
/-! PROOF of `QuiescenceAndGracePeriods` (O36): the targets, the coordinator and the stall check, and the statement. -/

namespace Sys2Proof.Machine

open Sys2Proof.Claim

/-- A tenant's grace domain (R135). -/
theorem State.mem_domain (s : State) (t : Nat) (x : Agent) :
    x ∈ s.domain t ↔ ∃ a, (a, x) ∈ s.agents ∧ x.ident.tenant = t ∧ x.ctl.hold ≠ .ended true := by
  simp only [State.domain, List.mem_map, List.mem_filter, Bool.and_eq_true, beq_iff_eq, bne_iff_ne]
  constructor
  · rintro ⟨⟨a, y⟩, ⟨hy, cond⟩, rfl⟩
    exact ⟨a, hy, cond⟩
  · rintro ⟨a, hx, cond⟩
    exact ⟨(a, x), ⟨hx, cond⟩, rfl⟩

/-! ## Targets (R298) -/

/-- The agent whose `gstart` has its target. -/
def Agent.takesTarget (id n : Nat) (target : Word) (x : Agent) : Agent :=
  ((x.giveS id n target false).unpend id).mapFlight fun f => { f with gstarts := f.gstarts.filter fun h => h.1 != id }

theorem execGstartTarget_gives {s : State} {a id n : Nat} {x : Agent} (hx : s.agent? a = some x)
    (there : x.flight.gstarts.find? (fun g => g.2.2) = some (id, n, true))
    (room : ((s.tenant x.ident.tenant).issued - (s.tenant x.ident.tenant).doneT).toNat < 1073741824) :
    execGstartTarget a s = .next ((s.setAgent a (x.takesTarget id n ((s.tenant x.ident.tenant).issued + 1#32))).modTenant
      x.ident.tenant fun t => { t with issued := (s.tenant x.ident.tenant).issued + 1#32,
                                       stalls := t.stalls ++ [((s.tenant x.ident.tenant).issued + 1#32, s.time)] }) := by
  unfold execGstartTarget
  simp only [hx, there, if_neg (Nat.not_le.mpr room)]
  rfl

theorem Agent.takesTarget_spec (id n : Nat) (target : Word) (x : Agent) :
    (x.flight.waits (.s n) id = true → (x.takesTarget id n target).regs.sreg n = target) ∧
    (x.takesTarget id n target).flight.pend = x.flight.pend.filter (fun e => e.2 != id) ∧
    (x.takesTarget id n target).ctl = x.ctl := by
  obtain ⟨r, given, -, -, -, -, reg, -⟩ := Agent.giveS_only id n target false x
  unfold Agent.takesTarget
  rw [given]
  exact ⟨fun waits => (reg n).trans (if_pos ⟨rfl, waits⟩), rfl, rfl⟩

/-! ## The coordinator (R296) -/

/-- A fold that keeps the least of these values and the one that it starts from. -/
theorem foldl_least {α : Type} (d : α → Word) (l : List α) (m : Word) :
    let r := l.foldl (fun m x => if (d x).toNat < m.toNat then d x else m) m
    (r = m ∨ ∃ x ∈ l, r = d x) ∧ r.toNat ≤ m.toNat ∧ ∀ x ∈ l, r.toNat ≤ (d x).toNat := by
  induction l generalizing m with
  | nil => exact ⟨.inl rfl, le_rfl, fun x hx => nomatch hx⟩
  | cons e t ih =>
    obtain ⟨from_, le, all⟩ := ih (if (d e).toNat < m.toNat then d e else m)
    have less : (if (d e).toNat < m.toNat then d e else m).toNat ≤ m.toNat ∧
        (if (d e).toNat < m.toNat then d e else m).toNat ≤ (d e).toNat := by
      split <;> constructor <;> omega
    refine ⟨?_, le.trans less.1, fun x hx => ?_⟩
    · rcases from_ with h | ⟨x, hx, h⟩
      · rw [List.foldl_cons, h]
        split
        · exact .inr ⟨e, List.mem_cons_self, rfl⟩
        · exact .inl rfl
      · exact .inr ⟨x, List.mem_cons_of_mem _ hx, h⟩
    · rcases List.mem_cons.mp hx with rfl | hx
      · exact le.trans less.2
      · exact all x hx

/-- How far DONE moves where no agent of the domain stands before it: to the least number of the domain, or to ISSUED. -/
theorem leastGrace_spec {done issued : Word} {l : List Agent} (ahead : ∀ x ∈ l, atOrAfter x.eng.grace done = true) :
    (leastGrace done issued l = issued - done ∨ ∃ x ∈ l, leastGrace done issued l = x.eng.grace - done) ∧
    (leastGrace done issued l).toNat ≤ (issued - done).toNat ∧
    ∀ x ∈ l, (leastGrace done issued l).toNat ≤ (x.eng.grace - done).toNat := by
  obtain ⟨from_, le, all⟩ := foldl_least (fun x : Agent => if atOrAfter x.eng.grace done then x.eng.grace - done else 0#32) l
    (issued - done)
  refine ⟨from_.imp_right ?_, le, fun x hx => ?_⟩
  · rintro ⟨x, hx, h⟩
    exact ⟨x, hx, h.trans (if_pos (ahead x hx))⟩
  · exact (all x hx).trans (by rw [if_pos (ahead x hx)])

/-- DONE moved, with the stall checks that its periods end. -/
def State.doneMoves (s : State) (tenant : Nat) (done : Word) : State := s.modTenant tenant fun t =>
  { t with doneT := done, stalls := t.stalls.filter fun e => !atOrAfter done e.1 }

theorem execTrackerReport_moves {s : State} {tenant die : Nat} (hd : die < 4)
    (moves : leastGrace (s.tenant tenant).doneT (s.tenant tenant).issued (s.domain tenant) ≠ 0#32) :
    execTrackerReport tenant die s = .next ((s.doneMoves tenant ((s.tenant tenant).doneT +
      leastGrace (s.tenant tenant).doneT (s.tenant tenant).issued (s.domain tenant))).gwaitWake tenant
        ((s.tenant tenant).doneT + leastGrace (s.tenant tenant).doneT (s.tenant tenant).issued (s.domain tenant))) := by
  unfold execTrackerReport
  exact if_neg (not_or.mpr ⟨by omega, moves⟩)

/-! ## Waking (R135, R299) -/

theorem kget_mem {V : Type} {m : KMap V} {k : Nat} {v : V} (h : kget m k = some v) : (k, v) ∈ m := by
  induction m with
  | nil => cases h
  | cons e t ih =>
    obtain ⟨k', v'⟩ := e
    rw [kget] at h
    split at h
    · next hk => cases h; subst hk; exact List.mem_cons_self
    · exact List.mem_cons_of_mem _ (ih h)

/-- The condition that a `gwait` parked lanes with is met. -/
def ParkGroup.due (done : Word) (g : ParkGroup) : Bool := (g.target.map fun t => atOrAfter done t).getD false

/-- Lanes of an agent go on as DONE moves. -/
def State.goesOn (s : State) (tenant : Nat) (done : Word) (x : Agent) : Bool :=
  x.ident.tenant == tenant && x.place.isSome && s.runs x &&
    (x.ctl.parks.any (ParkGroup.due done) || (x.sys.frame.map fun f => f.parks.any (ParkGroup.due done)).getD false)

/-- What a move of DONE does to one agent. -/
def State.gwaitWake1 (s : State) (tenant : Nat) (done : Word) (r : State) (e : Nat × Agent) : State :=
  if s.goesOn tenant done e.2 then (r.modAgent e.1 (Agent.wake (ParkGroup.due done))).invalL1 e.2.core else r

theorem State.gwaitWake1_agent (s : State) (tenant : Nat) (done : Word) (r : State) (e : Nat × Agent) (k : Nat) :
    (s.gwaitWake1 tenant done r e).agent? k =
      if e.1 = k ∧ s.goesOn tenant done e.2 = true then (r.agent? k).map (Agent.wake (ParkGroup.due done)) else r.agent? k := by
  unfold State.gwaitWake1
  split
  · next h =>
    simp only [h, and_true]
    exact State.agent?_modAgent ..
  · next h => rw [if_neg fun c => h c.2]

section Wake
variable (s : State) (tenant : Nat) (done : Word)

/-- An agent that stands nowhere in the list stays as it is. -/
theorem State.gwaitWake1_foldl_other {k : Nat} {l : List (Nat × Agent)} (h : k ∉ l.map Prod.fst) (r : State) :
    (l.foldl (s.gwaitWake1 tenant done) r).agent? k = r.agent? k := by
  induction l generalizing r with
  | nil => rfl
  | cons e t ih =>
    rw [List.map_cons, List.mem_cons, not_or] at h
    rw [List.foldl_cons, ih h.2, State.gwaitWake1_agent, if_neg fun c => h.1 c.1.symm]

theorem State.gwaitWake1_foldl {k : Nat} {x : Agent} {l : List (Nat × Agent)} (h : (k, x) ∈ l) (once : (l.map Prod.fst).Nodup)
    (r : State) : (l.foldl (s.gwaitWake1 tenant done) r).agent? k =
      if s.goesOn tenant done x = true then (r.agent? k).map (Agent.wake (ParkGroup.due done)) else r.agent? k := by
  induction l generalizing r with
  | nil => cases h
  | cons e t ih =>
    rw [List.map_cons, List.nodup_cons] at once
    rw [List.foldl_cons]
    rcases List.mem_cons.mp h with rfl | h
    · rw [State.gwaitWake1_foldl_other s tenant done once.1, State.gwaitWake1_agent]
      simp only [true_and]
    · have apart : e.1 ≠ k := fun c => once.1 (c ▸ List.mem_map_of_mem h)
      rw [ih h once.2, State.gwaitWake1_agent, if_neg (c := e.1 = k ∧ _) fun c => apart c.1]

/-- What an agent is after a move of DONE. -/
theorem State.gwaitWake_agent (once : keysRise s.agents = true) {a : Nat} {x : Agent} (hx : s.agent? a = some x) :
    (s.gwaitWake tenant done).agent? a =
      some (if s.goesOn tenant done x = true then x.wake (ParkGroup.due done) else x) := by
  have fold : s.gwaitWake tenant done = s.agents.foldl (s.gwaitWake1 tenant done) s := rfl
  rw [fold, State.gwaitWake1_foldl s tenant done (kget_mem hx) (keys_nodup s.agents once), hx]
  split <;> rfl

end Wake

/-- The lanes of groups together. -/
theorem getLsbD_foldl_lanes (gs : List ParkGroup) (m : Lanes) (l : Nat) :
    (gs.foldl (fun m g => m ||| g.lanes) m).getLsbD l = (m.getLsbD l || gs.any fun g => g.lanes.getLsbD l) := by
  induction gs generalizing m with
  | nil => rw [List.foldl_nil, List.any_nil, Bool.or_false]
  | cons g t ih => rw [List.foldl_cons, ih, BitVec.getLsbD_or, List.any_cons, Bool.or_assoc]

/-- The lanes of the groups that meet the test are parked no more. -/
theorem Agent.wake_parked (test : ParkGroup → Bool) (x : Agent) (l : Nat) :
    (x.wake test).ctl.parked.getLsbD l =
      (x.ctl.parked.getLsbD l && !(x.ctl.parks.any fun g => test g && g.lanes.getLsbD l)) := by
  have parked : (x.wake test).ctl.parked =
      x.ctl.parked &&& ~~~((x.ctl.parks.filter test).foldl (fun m g => m ||| g.lanes) 0#32) := rfl
  rw [parked, BitVec.getLsbD_and, BitVec.getLsbD_not, getLsbD_foldl_lanes, BitVec.getLsbD_zero, Bool.false_or, List.any_filter]
  by_cases hl : l < 32
  · rw [decide_eq_true hl, Bool.true_and]
  · rw [BitVec.getLsbD_of_ge _ _ (by omega), Bool.false_and, Bool.false_and]

/-! ## The stall check (R302) -/

/-- The lower of an agent and the one found so far. -/
def lowerRank (m : Option Agent) (x : Agent) : Option Agent :=
  match m with
  | none => some x
  | some y => if x.rank < y.rank then some x else m

theorem foldl_lowerRank (l : List Agent) (y : Agent) :
    ∃ z, l.foldl lowerRank (some y) = some z ∧ (z = y ∨ z ∈ l) ∧ z.rank ≤ y.rank ∧ ∀ x ∈ l, z.rank ≤ x.rank := by
  induction l generalizing y with
  | nil => exact ⟨y, rfl, .inl rfl, le_rfl, fun x hx => nomatch hx⟩
  | cons e t ih =>
    by_cases h : e.rank < y.rank
    · obtain ⟨z, hz, from_, le, all⟩ := ih e
      refine ⟨z, by rw [List.foldl_cons, lowerRank, if_pos h, hz], .inr (List.mem_cons.mpr from_), by omega, fun x hx => ?_⟩
      rcases List.mem_cons.mp hx with rfl | hx
      · exact le
      · exact all x hx
    · obtain ⟨z, hz, from_, le, all⟩ := ih y
      refine ⟨z, by rw [List.foldl_cons, lowerRank, if_neg h, hz], from_.imp_right (List.mem_cons_of_mem _), le, fun x hx => ?_⟩
      rcases List.mem_cons.mp hx with rfl | hx
      · omega
      · exact all x hx

/-- The agent that a stall is reported with: of those of the domain that are short of the target, the lowest. -/
theorem State.laggard_spec (s : State) (t : Nat) (target : Word) :
    (s.laggard t target = none → ∀ x ∈ s.domain t, atOrAfter x.eng.grace target = true) ∧
    (∀ i at_, s.laggard t target = some (i, at_) → ∃ x ∈ s.domain t, x.ident = i ∧ x.place = at_ ∧
      atOrAfter x.eng.grace target = false ∧ ∀ y ∈ s.domain t, atOrAfter y.eng.grace target = false → x.rank ≤ y.rank) := by
  have fold : s.laggard t target = (((s.domain t).filter fun x => !atOrAfter x.eng.grace target).foldl lowerRank none).map
      fun x => (x.ident, x.place) := rfl
  rw [fold]
  have short : ∀ x, x ∈ ((s.domain t).filter fun x => !atOrAfter x.eng.grace target) ↔
      x ∈ s.domain t ∧ atOrAfter x.eng.grace target = false := fun x => by rw [List.mem_filter, Bool.not_eq_true']
  cases hl : (s.domain t).filter fun x => !atOrAfter x.eng.grace target with
  | nil =>
    rw [hl] at short
    refine ⟨fun _ x hx => ?_, fun i at_ h => nomatch h⟩
    by_contra c
    exact nomatch (short x).mpr ⟨hx, Bool.eq_false_iff.mpr c⟩
  | cons e l =>
    rw [hl] at short
    obtain ⟨z, hz, from_, le, all⟩ := foldl_lowerRank l e
    rw [List.foldl_cons, lowerRank, hz]
    refine ⟨fun h => (nomatch h), fun i at_ h => ?_⟩
    obtain ⟨rfl, rfl⟩ := Prod.mk.inj (Option.some.inj h)
    obtain ⟨hd, hs⟩ := (short z).mp (List.mem_cons.mpr from_)
    refine ⟨z, hd, rfl, rfl, hs, fun y hy hys => ?_⟩
    rcases List.mem_cons.mp ((short y).mpr ⟨hy, hys⟩) with rfl | hy
    · exact le
    · exact all y hy

theorem execGracestall_reports {s : State} {tenant t0 : Nat} {target : Word}
    (there : (s.tenant tenant).stalls.find? (fun e => e.1 == target) = some (target, t0))
    (on : ((s.tenant tenant).reg 0x50).toNat % 4294967296 ≠ 0)
    (late : t0 + 940 * (((s.tenant tenant).reg 0x50).toNat % 4294967296) ≤ s.time) :
    execGracestall tenant target s = .next ((s.modTenant tenant fun x =>
      { x with stalls := x.stalls.filter fun y => y.1 != target,
               stallReports := x.stallReports ++ [(target, s.laggard tenant target)] }).irq tenant 2) := by
  unfold execGracestall
  simp only [there]
  exact if_neg (not_or.mpr ⟨on, by omega⟩)

/-- Of an agent whose gang runs, the lanes parked for a target that DONE reaches go on (R299). -/
theorem State.gwaitWake_parked {s : State} {tenant a : Nat} {x : Agent} (done : Word) (once : keysRise s.agents = true)
    (hx : s.agent? a = some x) (ours : x.ident.tenant = tenant) (placed : x.place ≠ none) (runs : s.runs x = true) :
    ∃ y, (s.gwaitWake tenant done).agent? a = some y ∧ ∀ l, y.ctl.parked.getLsbD l =
      (x.ctl.parked.getLsbD l && !(x.ctl.parks.any fun g => ParkGroup.due done g && g.lanes.getLsbD l)) := by
  refine ⟨_, State.gwaitWake_agent s tenant done once hx, fun l => ?_⟩
  split
  · exact Agent.wake_parked (ParkGroup.due done) x l
  · next stays =>
    have none_due : x.ctl.parks.any (fun g => ParkGroup.due done g && g.lanes.getLsbD l) = false := by
      rw [List.any_eq_false]
      intro g hg due
      rw [Bool.and_eq_true] at due
      refine stays ?_
      unfold State.goesOn
      rw [ours, beq_self_eq_true, Option.isSome_iff_ne_none.mpr placed, runs, List.any_eq_true.mpr ⟨g, hg, due.1⟩]
      rfl
    rw [none_due, Bool.not_false, Bool.and_true]

/-- A report of a tracker moves DONE to the least number of the domain, and lanes go on with it (R296). -/
theorem trackerReport_advances {s : State} {tenant die : Nat} (hd : die < 4)
    (behind : (s.tenant tenant).issued ≠ (s.tenant tenant).doneT)
    (ahead : ∀ x ∈ s.domain tenant, atOrAfter x.eng.grace (s.tenant tenant).doneT = true ∧ x.eng.grace ≠ (s.tenant tenant).doneT) :
    ∃ u m, exec (.trackerReport tenant die) s = .next u ∧ SameBytes s u ∧
      (m = (s.tenant tenant).issued - (s.tenant tenant).doneT ∨
        ∃ x ∈ s.domain tenant, m = x.eng.grace - (s.tenant tenant).doneT) ∧
      m.toNat ≤ ((s.tenant tenant).issued - (s.tenant tenant).doneT).toNat ∧
      (∀ x ∈ s.domain tenant, m.toNat ≤ (x.eng.grace - (s.tenant tenant).doneT).toNat) ∧
      (u.tenant tenant).issued = (s.tenant tenant).issued ∧ (u.tenant tenant).doneT = (s.tenant tenant).doneT + m ∧
      (keysRise s.agents = true → ∀ a x, s.agent? a = some x → x.ident.tenant = tenant → x.place ≠ none → s.runs x = true →
        ∃ y, u.agent? a = some y ∧ ∀ l, y.ctl.parked.getLsbD l = (x.ctl.parked.getLsbD l &&
          !(x.ctl.parks.any fun g => ParkGroup.due ((s.tenant tenant).doneT + m) g && g.lanes.getLsbD l))) := by
  obtain ⟨from_, le, all⟩ := leastGrace_spec (issued := (s.tenant tenant).issued) fun x hx => (ahead x hx).1
  have apart : ∀ {n : Word}, n ≠ (s.tenant tenant).doneT → n - (s.tenant tenant).doneT ≠ 0#32 := fun h c => h <|
    (BitVec.sub_add_cancel _ _).symm.trans (by rw [c, BitVec.zero_add])
  have moves : leastGrace (s.tenant tenant).doneT (s.tenant tenant).issued (s.domain tenant) ≠ 0#32 := by
    rcases from_ with h | ⟨x, hx, h⟩ <;> rw [h]
    · exact apart behind
    · exact apart (ahead x hx).2
  have runs := execTrackerReport_moves hd moves
  generalize leastGrace (s.tenant tenant).doneT (s.tenant tenant).issued (s.domain tenant) = m at *
  obtain ⟨⟨as, cores, woken⟩, -⟩ := gwaitWake_spec (s.doneMoves tenant ((s.tenant tenant).doneT + m)) tenant
    ((s.tenant tenant).doneT + m)
  have tenants : ((s.doneMoves tenant ((s.tenant tenant).doneT + m)).gwaitWake tenant ((s.tenant tenant).doneT + m)).tenant tenant =
      (s.doneMoves tenant ((s.tenant tenant).doneT + m)).tenant tenant := by rw [woken]; rfl
  have moved : (s.doneMoves tenant ((s.tenant tenant).doneT + m)).tenant tenant = _ := (State.tenant_modTenant ..).trans (if_pos rfl)
  refine ⟨_, m, runs, fun k => ?_, from_, le, all, ?_, ?_, fun once a x hx ours placed run =>
    State.gwaitWake_parked (s := s.doneMoves tenant ((s.tenant tenant).doneT + m)) _ once hx ours placed run⟩
  · rw [woken]; rfl
  · rw [tenants, moved]
  · rw [tenants, moved]

/-- R134, R135, R296, R298, R299, R302. -/
theorem gracePeriodsAdvance : GracePeriodsAdvance := by
  refine ⟨State.mem_domain, fun s a id n x hx there room => ?_, fun s tenant die hd behind ahead => ?_, ?_⟩
  · obtain ⟨reg, pend, ctl⟩ := x.takesTarget_spec id n ((s.tenant x.ident.tenant).issued + 1#32)
    obtain ⟨-, agent, others⟩ := AgentBecomes.set s a (x.takesTarget id n ((s.tenant x.ident.tenant).issued + 1#32))
    refine ⟨_, _, execGstartTarget_gives hx there room, fun _ => rfl, agent, others, ?_, ?_, ?_, reg, pend, ctl⟩
    · rw [State.tenant_modTenant, if_pos rfl]
    · rw [State.tenant_modTenant, if_pos rfl]
      rfl
    · rw [State.tenant_modTenant, if_pos rfl]
      rfl
  · obtain ⟨u, m, runs, bytes, from_, le, all, issued, done, woken⟩ := trackerReport_advances hd behind ahead
    have back : ∀ n : Word, (s.tenant tenant).doneT + (n - (s.tenant tenant).doneT) = n := fun n => by
      rw [BitVec.add_comm, BitVec.sub_add_cancel]
    have past : ((s.tenant tenant).doneT + m - (s.tenant tenant).doneT).toNat = m.toNat := by
      rw [BitVec.add_comm, BitVec.add_sub_cancel]
    refine ⟨u, runs, bytes, issued, ?_⟩
    dsimp only
    rw [done, past]
    refine ⟨from_.imp (fun h => ?_) ?_, le, all, woken⟩
    · rw [h, back]
    · rintro ⟨x, hx, h⟩
      exact ⟨x, hx, by rw [h, back]⟩
  · intro s tenant target t0 there l on late
    obtain ⟨none_short, lowest⟩ := s.laggard_spec tenant target
    refine ⟨_, _, execGracestall_reports there on late, fun _ => rfl, rfl, ?_, ?_, ?_, none_short, lowest⟩
    all_goals
      unfold State.irq
      rw [State.tenant_modTenant, if_pos rfl, State.tenant_modTenant, if_pos rfl]
    exact fun e he => bne_iff_ne.mp (List.mem_filter.mp he).2

/-- Settles O36: the points by what the agent waits in, the periods by the least number of the domain and the lowest agent short of
a target. -/
theorem quiescenceAndGracePeriods : Obligations.QuiescenceAndGracePeriods := ⟨quiescentPointsPerform, gracePeriodsAdvance⟩

end Sys2Proof.Machine
end

section
/-! PROOF. Set instructions at their engine (O33). -/

namespace Sys2Proof.Machine

open Sys2Proof.Claim

/-! ## What an operation leaves of agents and tenants -/

/-- What a set operation leaves of an agent: its registers, its engines, its work in flight, its place in the program. -/
def Agent.work (x : Agent) : Regs × Eng × Flight × KMap DWord × Lanes × Hold × Word :=
  (x.regs, x.eng, x.flight, x.ctl.pcs, x.ctl.parked, x.ctl.hold, x.sys.fpflags)

/-- Every agent keeps its work, and every tenant its registers. -/
structure KeepsWork (s t : State) : Prop where
  agents : ∀ k, (t.agent? k).map Agent.work = (s.agent? k).map Agent.work
  regs : ∀ n, (t.tenant n).regs = (s.tenant n).regs

theorem SetStep.ok_state {s u : State} {r r' : SetRes} (h : SetStep.ok (s, r') = .ok (u, r)) : s = u :=
  (Prod.mk.inj (SetStep.ok.inj h)).1

namespace KeepsWork

theorem refl (s : State) : KeepsWork s s := ⟨fun _ => rfl, fun _ => rfl⟩

theorem trans {s t u : State} (h : KeepsWork s t) (g : KeepsWork t u) : KeepsWork s u :=
  ⟨fun k => (g.agents k).trans (h.agents k), fun n => (g.regs n).trans (h.regs n)⟩

/-- A state with the same agents and the same tenants. -/
theorem of_same {s t : State} (ha : t.agents = s.agents) (ht : t.tenants = s.tenants) : KeepsWork s t :=
  ⟨fun k => by unfold State.agent?; rw [ha], fun n => by unfold State.tenant; rw [ht]⟩

theorem of_homes {s t : State} (h : SameButHomes s t) : KeepsWork s t := by
  obtain ⟨_, _, _, rfl⟩ := h
  exact of_same rfl rfl

theorem of_walks {s t : State} (h : SameButWalks s t) : KeepsWork s t := of_same h.agents h.tenants

theorem modTenant (s : State) (n : Nat) {f : Tenant → Tenant} (hf : ∀ x, (f x).regs = x.regs) : KeepsWork s (s.modTenant n f) where
  agents _ := rfl
  regs k := by
    rw [State.tenant_modTenant]
    split
    · next h => rw [hf, h]
    · rfl

theorem modDie (s : State) (d : Nat) (f : Die → Die) : KeepsWork s (s.modDie d f) := of_same rfl rfl

theorem linkError (s : State) (n : Nat) : KeepsWork s (s.linkError n) := by
  unfold State.linkError State.irq
  split
  · exact refl s
  · refine (modTenant s n ?_).trans (modTenant _ n ?_)
    · exact fun _ => rfl
    · exact fun _ => rfl

theorem linkGone (s : State) (n k : Nat) : KeepsWork s (s.linkGone n k) :=
  (of_same rfl rfl : KeepsWork s { s with linkLost := false, free := s.free + k }).trans (linkError ..)

theorem engineWriteAt (s : State) (o : Origin) (die k : Nat) (xs : List Xlat) (data : List Byte) :
    KeepsWork s (s.engineWriteAt o die k xs data) := by
  obtain ⟨_, _, _, _, _, h⟩ := engineWriteAt_only s o die k xs data
  rw [h]
  refine ⟨fun a => ?_, fun _ => rfl⟩
  unfold State.agent?
  rw [kget_kmap_fn, Option.map_map]
  rfl

theorem setAsks (s : State) (home t pa n : Nat) : KeepsWork s (s.setAsks home t pa n) := of_homes (.homeReads ..)

theorem askEntry (s : State) (t : Nat) (h : Word) : KeepsWork s (s.askEntry t h) := setAsks ..

theorem askSet (s : State) (t : Nat) (v : SetView) : KeepsWork s (s.askSet t v) := (setAsks ..).trans (setAsks ..)

theorem putSetWords (s : State) (home t pa : Nat) (ws : List Nat) : KeepsWork s (s.putSetWords home t pa ws) := engineWriteAt ..

/-- A settle writes words, and takes a block from the heap. -/
theorem settle {s u : State} {t : Nat} {v : SetView} {pinned : Bool} {pinrep r : Rep} {m slots : List Nat} {e : Entry}
    (h : s.settle t v pinned pinrep r m slots = some (u, e)) : KeepsWork s u := by
  unfold State.settle at h
  extract_lets n old mended changed ent words need put cap at h
  have puts : ∀ (s : State) pa ws, KeepsWork s (put s pa ws) := fun s pa ws => putSetWords ..
  clear_value put ent cap
  split at h
  · cases h
  · split at h
    · cases h
      exact (puts ..).trans (puts ..)
    · split at h
      · cases h
      · cases h
        refine (puts ..).trans ((modTenant _ t ?_).trans (puts ..))
        exact fun _ => rfl

theorem mutate (s : State) (t : Nat) (v : SetView) (m ins del : List Nat) (insertion : Bool) (bits : List Bool) (extra : Nat) :
    KeepsWork s (s.mutate t v m ins del insertion bits extra).1 := by
  unfold State.mutate
  dsimp only
  split
  · exact refl s
  · next h => exact settle h

/-! ### The operations, each along its branches -/

section Ops
variable {s u : State} {q : Reach} {core t die n : Nat} {ha hb hc seq : Word} {r : SetRes}

theorem setNewOp (h : s.setNewOp q t = .ok (u, r)) : KeepsWork s u := by
  unfold State.setNewOp at h
  dsimp only at h
  repeat' split at h
  · cases h
  · obtain rfl := SetStep.ok_state h; exact setAsks ..
  · obtain rfl := SetStep.ok_state h; exact setAsks ..
  · obtain rfl := SetStep.ok_state h; exact setAsks ..
  · obtain rfl := SetStep.ok_state h; exact setAsks ..
  · obtain rfl := SetStep.ok_state h
    refine trans ?_ (modTenant _ t ?_)
    · refine trans (trans (trans ?_ (putSetWords ..)) (putSetWords ..)) (putSetWords ..)
      exact (setAsks ..).trans (setAsks ..)
    · exact fun _ => rfl

theorem setFreeOp (h : s.setFreeOp q t die ha seq = .ok (u, r)) : KeepsWork s u := by
  unfold State.setFreeOp at h
  dsimp only at h
  have asked := (askEntry s t ha).trans (setAsks _ (homeOf (s.handleAddr t ha)) t (s.entryAddr t 0) 8)
  repeat' split at h
  · cases h
  · obtain rfl := SetStep.ok_state h; exact askEntry ..
  · cases h
  · obtain rfl := SetStep.ok_state h; exact asked
  · obtain rfl := SetStep.ok_state h
    exact ((asked.trans (putSetWords ..)).trans (putSetWords ..)).trans (modDie ..)

theorem algebraOp {f : List Nat → List Nat → List Nat} (h : s.algebraOp q t ha hb hc f = .ok (u, r)) : KeepsWork s u := by
  unfold State.algebraOp at h
  split at h
  · cases h
  · obtain rfl := SetStep.ok_state h; exact askEntry ..
  · split at h
    · cases h
    · obtain rfl := SetStep.ok_state h; exact (askSet ..).trans (askEntry ..)
    · dsimp only at h
      split at h
      · cases h
      · obtain rfl := SetStep.ok_state h; exact (askSet ..).trans <| (askSet ..).trans (askEntry ..)
      · split at h
        · obtain rfl := SetStep.ok_state h; exact (askSet ..).trans <| (askSet ..).trans (askSet ..)
        · next e =>
          obtain rfl := SetStep.ok_state h
          exact (askSet ..).trans <| (askSet ..).trans <| (askSet ..).trans (settle e)

theorem hintOp {pin : Option Rep} (h : s.hintOp q t ha pin = .ok (u, r)) : KeepsWork s u := by
  unfold State.hintOp at h
  split at h
  · cases h
  · obtain rfl := SetStep.ok_state h; exact askEntry ..
  · dsimp only at h
    split at h
    · obtain rfl := SetStep.ok_state h; exact askSet ..
    · next e =>
      obtain rfl := SetStep.ok_state h
      exact (askSet ..).trans (settle e)

/-- What a pass over global memory leaves after the set has been read. -/
theorem located (v : SetView) (req k : Nat) (w : Want) (c : Nat) (addr : DWord) :
    KeepsWork s (locate req core t k w c addr (s.askSet t v)).1 := (askSet ..).trans (of_walks (locate_walks ..))

theorem setInOp {addr : DWord} {c : Nat} (h : s.setInOp q core t ha addr c = .ok (u, r)) : KeepsWork s u := by
  unfold State.setInOp at h
  split at h
  · cases h
  · obtain rfl := SetStep.ok_state h; exact askEntry ..
  · next v _ =>
    dsimp only at h
    have found : KeepsWork s _ := located (core := core) (t := t) v (setOrigin (homeOf v.addr)).req 4 .read c addr
    generalize locate (setOrigin (homeOf v.addr)).req core t 4 .read c addr (s.askSet t v) = l at h found
    obtain ⟨s0, xs, ps⟩ := l
    dsimp only at h found
    have read := found.trans (of_homes (.homeReads s0 (setOrigin (homeOf v.addr)) (dieOfCore core) (xs.map fun x => (x, 4))))
    repeat' split at h
    · cases h
    · obtain rfl := SetStep.ok_state h; exact read
    · obtain rfl := SetStep.ok_state h; exact read.trans (linkGone ..)
    · obtain rfl := SetStep.ok_state h; exact read
    · obtain rfl := SetStep.ok_state h; exact read
    · obtain rfl := SetStep.ok_state h; exact read.trans (mutate ..)

theorem setOutOp {addr : DWord} {c stamp : Nat} (h : s.setOutOp q core t ha addr c stamp = .ok (u, r)) : KeepsWork s u := by
  unfold State.setOutOp at h
  split at h
  · cases h
  · obtain rfl := SetStep.ok_state h; exact askEntry ..
  · next v _ =>
    dsimp only at h
    have found : KeepsWork s _ :=
      located (core := core) (t := t) v (setOrigin (homeOf v.addr)).req 4 .write (v.members.take c).length addr
    generalize locate (setOrigin (homeOf v.addr)).req core t 4 .write (v.members.take c).length addr (s.askSet t v) = l at h found
    obtain ⟨s1, xs, ps⟩ := l
    dsimp only at h found
    have lost : KeepsWork s (if xs.any s1.loses then s1.linkGone t 0 else s1) := by
      split
      · exact found.trans (linkGone ..)
      · exact found
    generalize (if xs.any s1.loses then s1.linkGone t 0 else s1) = s2 at h lost
    repeat' split at h
    · cases h
    · obtain rfl := SetStep.ok_state h; exact lost.trans (engineWriteAt ..)
    · obtain rfl := SetStep.ok_state h; exact lost.trans (engineWriteAt ..)
    · obtain rfl := SetStep.ok_state h; exact lost.trans (engineWriteAt ..)

/-- An operation that reads one set and then goes on to a state. -/
theorem view {f : SetView → State × SetRes} (hf : ∀ v, KeepsWork s (f v).1)
    (h : (match s.readSet q t ha 0 with
      | .held => SetStep.held
      | .fail r => .ok (s.askEntry t ha, r)
      | .ok v => .ok (f v)) = .ok (u, r)) : KeepsWork s u := by
  split at h
  · cases h
  · obtain rfl := SetStep.ok_state h; exact askEntry ..
  · exact SetStep.ok_fst h ▸ hf _

/-- A set operation keeps every agent's work and every tenant's registers. -/
theorem setOpRun {o : SetOp} (h : s.setOpRun core t o = (n, .ok (u, r))) : KeepsWork s u := by
  replace h := congrArg Prod.snd h
  unfold State.setOpRun at h
  dsimp only at h
  split at h
  · exact setNewOp h
  · exact setFreeOp h
  · exact view (fun v => (askSet ..).trans (mutate ..)) h
  · exact view (fun v => (askSet ..).trans (mutate ..)) h
  · exact view (fun v => askSet ..) h
  · dsimp only at h
    split at h
    · cases h
    · obtain rfl := SetStep.ok_state h; exact askEntry ..
    · obtain rfl := SetStep.ok_state h; exact askEntry ..
  · exact algebraOp h
  · exact algebraOp (f := fun a b => keepIn b a) h
  · exact algebraOp (f := fun a b => dropIn b a) h
  · exact setInOp h
  · exact setOutOp h
  · exact view (fun v => askSet ..) h
  · exact hintOp h
  · exact hintOp h
  · obtain rfl := SetStep.ok_state h; exact refl s

end Ops
end KeepsWork
end Sys2Proof.Machine
end

section
/-! PROOF. What a set instruction leaves with its agent, and its turn at the engine (O33). -/

namespace Sys2Proof.Machine

open Sys2Proof.Claim

/-! ## Destinations -/

theorem Agent.giveP_only (id n : Nat) (m : Lanes) (f : Nat → Bool) (x : Agent) :
    ∃ r, x.giveP id n m f = { x with regs := r } ∧
      (x.flight.waits (.p n) id = true → ∀ l, l < 32 → m.getLsbD l = true → (r.pred n).getLsbD l = f l) := by
  unfold Agent.giveP
  split
  · refine ⟨_, rfl, fun _ l hl hm => ?_⟩
    rw [Regs.pred_setP _ _ _ _ _ _ hl, if_pos ⟨rfl, hm⟩]
  · next h => exact ⟨x.regs, rfl, fun w => absurd w h⟩

theorem Regs.vlane_congr {p q : Regs} (h : p.v = q.v) (n l : Nat) : p.vlane n l = q.vlane n l := by
  unfold Regs.vlane
  rw [h]

section Deliver
variable (o : SetOp) (r : SetRes) (x : Agent)

/-- An operation brings its agent registers and tokens, and no register waits for it any more. -/
theorem SetOp.deliver_only : ∃ rs tk, o.deliver r x = { x with
    regs := rs
    flight := { x.flight with pend := x.flight.pend.filter fun e => e.2 != o.id, tokens := tk } } := by
  have scalar : ∀ n, ∃ rs, x.giveS o.id n (BitVec.ofNat 32 r.value) false = { x with regs := rs } := fun n =>
    (x.giveS_only ..).imp fun _ h => h.1
  have pred : ∀ n f, ∃ rs, x.giveP o.id n o.act f = { x with regs := rs } := fun n f => (x.giveP_only ..).imp fun _ h => h.1
  unfold SetOp.deliver
  dsimp only
  split
  · next d _ => obtain ⟨rs, h⟩ := scalar (Opnd.num d); rw [h]; exact ⟨rs, _, rfl⟩
  · next d _ _ _ =>
    split
    · exact ⟨_, _, rfl⟩
    · obtain ⟨rs, h⟩ := pred (Opnd.num d) _; rw [h]; exact ⟨rs, _, rfl⟩
  · next d _ _ _ =>
    split
    · exact ⟨_, _, rfl⟩
    · obtain ⟨rs, h⟩ := pred (Opnd.num d) _; rw [h]; exact ⟨rs, _, rfl⟩
  · next d _ _ _ => obtain ⟨rs, h⟩ := pred (Opnd.num d) _; rw [h]; exact ⟨rs, _, rfl⟩
  · next d _ _ => obtain ⟨rs, h⟩ := scalar (Opnd.num d); rw [h]; exact ⟨rs, _, rfl⟩
  · next d _ _ _ _ =>
    obtain ⟨rs, h⟩ := scalar (Opnd.num d)
    rw [h]
    unfold Agent.mapFlight
    dsimp only
    split
    · exact ⟨rs, _, rfl⟩
    · exact ⟨rs, _, rfl⟩
  · next d _ c _ =>
    obtain ⟨rv, hv, -⟩ := x.giveV_only o.id (Opnd.num d) o.act (iterLane o.act r.members) 0#32
    rw [hv]
    split
    · obtain ⟨rs, hs, -⟩ := Agent.giveS_only o.id (Opnd.num c) (BitVec.ofNat 32 r.value) false { x with regs := rv }
      rw [hs]
      exact ⟨rs, _, rfl⟩
    · exact ⟨rv, _, rfl⟩
  · exact ⟨_, _, rfl⟩

variable {o r x}

/-- A scalar destination takes the value. -/
theorem SetOp.deliver_scalar {d : Opnd} (h : (∃ g, o.instr = .setNew g d) ∨ (∃ g a, o.instr = .setCard g d a) ∨
      ∃ g a b c, o.instr = .setOut g d a b c)
    (hw : x.flight.waits (.s (Opnd.num d)) o.id = true) : (o.deliver r x).regs.sreg (Opnd.num d) = BitVec.ofNat 32 r.value := by
  obtain ⟨rs, hs, -, -, -, -, value, -⟩ := x.giveS_only o.id (Opnd.num d) (BitVec.ofNat 32 r.value) false
  have got := (value (Opnd.num d)).trans (if_pos ⟨rfl, hw⟩)
  unfold SetOp.deliver
  obtain ⟨g, h⟩ | ⟨g, a, h⟩ | ⟨g, a, b, c, h⟩ := h
  all_goals
    rw [h]
    dsimp only
    rw [hs]
    exact got

/-- The predicate of a test, and of a change that found room, takes a bit for each lane. -/
theorem SetOp.deliver_pred {g : Guard} {d a b : Opnd} (h : o.instr = .setHas g d a b ∨
      (r.code ≠ 2 ∧ ∃ w, o.instr = .setIns g w d a b ∨ o.instr = .setDel g w d a b))
    (hw : x.flight.waits (.p (Opnd.num d)) o.id = true) {l : Nat} (hl : l < 32) (act : o.act.getLsbD l = true) :
    ((o.deliver r x).regs.pred (Opnd.num d)).getLsbD l = ((r.code == 0 || r.code == 6) && o.laneBit r.bits l) := by
  obtain ⟨rs, hs, value⟩ := x.giveP_only o.id (Opnd.num d) o.act fun l => (r.code == rcOk || r.code == rcTrunc) && o.laneBit r.bits l
  have got := value hw l hl act
  unfold SetOp.deliver
  obtain h | ⟨room, w, h | h⟩ := h
  · rw [h]
    dsimp only
    rw [hs]
    exact got
  all_goals
    rw [h]
    dsimp only
    rw [if_neg (show r.code ≠ rcHeap from room), hs]
    exact got

/-- A change that the heap has no room for writes no register. -/
theorem SetOp.deliver_heap {g : Guard} {w : Bool} {d a b : Opnd} (h : o.instr = .setIns g w d a b ∨ o.instr = .setDel g w d a b)
    (full : r.code = 2) : (o.deliver r x).regs = x.regs := by
  unfold SetOp.deliver
  obtain h | h := h
  all_goals
    rw [h]
    dsimp only
    rw [if_pos (show r.code = rcHeap from full)]
    rfl

/-- A walk through a set gives each lane its member, and the new cursor. -/
theorem SetOp.deliver_iter {g : Guard} {d a c : Opnd} (h : o.instr = .setIter g d a c) :
    (x.flight.waits (.v (Opnd.num d)) o.id = true → ∀ l, l < 32 → o.act.getLsbD l = true →
      (o.deliver r x).regs.vlane (Opnd.num d) l = iterLane o.act r.members l) ∧
    (x.flight.waits (.s (Opnd.num c)) o.id = true → (r.code == 0 || r.code == 6) = true →
      (o.deliver r x).regs.sreg (Opnd.num c) = BitVec.ofNat 32 r.value) := by
  obtain ⟨rv, hv, -, -, -, -, lanes, -⟩ := x.giveV_only o.id (Opnd.num d) o.act (iterLane o.act r.members) 0#32
  obtain ⟨rs, hs, -, keeps, -, -, value, -⟩ :=
    Agent.giveS_only o.id (Opnd.num c) (BitVec.ofNat 32 r.value) false { x with regs := rv }
  unfold SetOp.deliver
  rw [h]
  dsimp only
  rw [hv]
  refine ⟨fun hw l hl act => ?_, fun hw ok => ?_⟩
  · have got : rv.vlane (Opnd.num d) l = iterLane o.act r.members l := (lanes (Opnd.num d) l hl).trans (if_pos ⟨act, rfl, hw⟩)
    split
    · rw [hs]
      exact (Regs.vlane_congr keeps ..).trans got
    · exact got
  · rw [if_pos (show (r.code == rcOk || r.code == rcTrunc) = true from ok), hs]
    exact (value (Opnd.num c)).trans (if_pos ⟨rfl, hw⟩)

end Deliver

/-! ## Cost counters -/

theorem SetRes.count_spec (n : Nat) (r : SetRes) (clocks : Word) (e : Eng) :
    kgetD 0#32 (r.count n clocks e).cost 0 = kgetD 0#32 e.cost 0 + BitVec.ofNat 32 r.wread ∧
      kgetD 0#32 (r.count n clocks e).cost 1 = kgetD 0#32 e.cost 1 + BitVec.ofNat 32 r.wwrite ∧
      kgetD 0#32 (r.count n clocks e).cost 2 = kgetD 0#32 e.cost 2 + (if r.conv then 1#32 else 0#32) ∧
      kgetD 0#32 (r.count n clocks e).cost 3 = BitVec.ofNat 32 (r.alg + 256 * r.code + 65536 * n) ∧
      kgetD 0#32 (r.count n clocks e).cost 4 = BitVec.ofNat 32 r.reps := by
  unfold SetRes.count
  simp only [kgetD_ksetD, bit]
  refine ⟨rfl, rfl, ?_, rfl, rfl⟩
  cases r.conv <;> rfl

/-! ## The turn at the engine -/

section Turn
variable {s : State} {a : Nat} {x : Agent} {o : SetOp}

/-- A set instruction held by a breakpoint. -/
def Agent.holdSet (op : Nat) (x : Agent) : Agent :=
  x.mapFlight fun f => { f with setOps := f.setOps.map fun q => if q.id = op then { q with held := true } else q }

theorem execSetEngineOperation_turn (hx : s.agent? a = some x) (ho : x.flight.setOps.find? (fun q => q.id == o.id) = some o)
    (turn : x.flight.setTurn o = true) (ready : o.movesArray = true → s.engineReady x o.id = true) :
    exec (.setEngineOperation a o.id) s =
      if !o.released && s.engineBreak x 6 o.seq then
        .next ((s.setAgent a (x.holdSet o.id)).reportHeld x o.seq (s.setName x o).engine)
      else .next ((s.setPerform a x o).getD s) := by
  show execSetEngineOperation a o.id s = _
  unfold execSetEngineOperation
  simp only [hx, ho]
  refine if_neg ?_
  rintro (h | ⟨moves, h⟩)
  · simp [turn] at h
  · simp [ready moves] at h

theorem setName_issuer (s : State) (x : Agent) (o : SetOp) : (s.setName x o).issuer = x.ident := by unfold State.setName; rfl

theorem trace_setName (quiet : Untraced s x.ident.tenant) (ev : TraceEv) (st : Nat) (t : State) :
    s.trace (t.setName x o) ev st = s := State.trace_untraced (by rw [setName_issuer]; exact quiet) _ _

theorem setPerform_held (quiet : Untraced s x.ident.tenant) {n : Nat}
    (run : s.setOpRun x.core x.ident.tenant o = (n, .held)) : s.setPerform a x o = none := by
  have start : s.trace (s.setName x o) .start 0 = s := trace_setName quiet ..
  unfold State.setPerform
  simp only [start, run]

/-- An operation performed: its results come to its agent, which it leaves, with the cost counters. -/
theorem setPerform_done (quiet : Untraced s x.ident.tenant) {n : Nat} {s1 : State} {r : SetRes}
    (run : s.setOpRun x.core x.ident.tenant o = (n, .ok (s1, r))) :
    s.setPerform a x o = some (s1.tick.modAgent a fun y =>
      (o.deliver r (y.dropSet o.id)).mapEng (r.count n (Config.freeWord s.free))) := by
  have start : s.trace (s.setName x o) .start 0 = s := trace_setName quiet ..
  have still : Untraced s1 x.ident.tenant := by
    unfold Untraced Tenant.reg
    rw [(KeepsWork.setOpRun run).regs]
    exact quiet
  unfold State.setPerform
  simp only [start, run]
  refine congrArg some (trace_setName ?_ ..)
  exact Untraced.congr still rfl

end Turn

/-- Settles O33: the operation keeps every agent's work and every tenant's registers; what it answers is delivered to the agent as
it stands after it. -/
theorem setInstructionsPerform : Obligations.SetInstructionsPerform := by
  intro s a x o hx ho turn ready quiet
  have runs := execSetEngineOperation_turn hx ho turn ready
  refine ⟨fun fresh meets => ?_, fun passes n res run => ?_⟩
  · rw [if_pos (by simp [fresh, meets])] at runs
    obtain ⟨r, report, held⟩ := (s.setAgent a (x.holdSet o.id)).reportHeld_reports x o.seq (s.setName x o).engine
    obtain ⟨-, agent, others⟩ := AgentBecomes.set s a (x.holdSet o.id)
    exact ⟨_, runs, fun _ => rfl, others, agent, r, report, held⟩
  rw [if_neg (by rcases passes with h | h <;> simp [h])] at runs
  refine ⟨fun held => ?_, fun s1 r done => ?_⟩
  · rw [setPerform_held quiet (held ▸ run)] at runs
    exact runs
  subst done
  rw [setPerform_done quiet run] at runs
  have keeps := (KeepsWork.setOpRun run).agents
  obtain ⟨z, hz, same⟩ : ∃ z, s1.agent? a = some z ∧ z.work = x.work := by
    have h := keeps a
    rw [hx] at h
    exact Option.map_eq_some_iff.mp h
  obtain ⟨regs, eng, flight, pcs, parked, hold, flags⟩ :
      z.regs = x.regs ∧ z.eng = x.eng ∧ z.flight = x.flight ∧ z.ctl.pcs = x.ctl.pcs ∧ z.ctl.parked = x.ctl.parked ∧
        z.ctl.hold = x.ctl.hold ∧ z.sys.fpflags = x.sys.fpflags := by
    unfold Agent.work at same
    simpa only [Prod.mk.injEq] using same
  obtain ⟨rs, tk, given⟩ := o.deliver_only r (z.dropSet o.id)
  have waits : (z.dropSet o.id).flight.waits = x.flight.waits := by rw [← flight]; rfl
  obtain ⟨c0, c1, c2, c3, c4⟩ := r.count_spec n (Config.freeWord s.free) x.eng
  have deng : ((o.deliver r (z.dropSet o.id)).mapEng (r.count n (Config.freeWord s.free))).eng =
      r.count n (Config.freeWord s.free) x.eng := by rw [given, ← eng]; rfl
  refine ⟨_, (o.deliver r (z.dropSet o.id)).mapEng (r.count n (Config.freeWord s.free)), runs, rfl, fun k hk => ?_, ?_, ?_, ?_, ?_, ?_, ?_,
    ?_, ?_, ?_, ?_, ?_, ?_, fun g d h hw => ?_, fun g d h b hi hw l hl act => ?_, fun g w d h b hi full => ?_, fun g d h c hi => ?_⟩
  · refine (congrArg _ ((State.agent?_modAgent ..).trans (if_neg (Ne.symm hk)))).trans ?_
    have h := congrArg (Option.map fun w => (w.1, w.2.1, w.2.2.1)) (keeps k)
    rwa [Option.map_map, Option.map_map] at h
  · exact (State.agent?_modAgent ..).trans ((if_pos rfl).trans (congrArg _ hz))
  · rw [given]; exact pcs
  · rw [given]; exact parked
  · rw [given]; exact hold
  · rw [given]; exact flags
  · rw [given, ← flight]; rfl
  · rw [given, ← flight]; rfl
  · rw [deng, c0]
  · rw [deng, c1]
  · rw [deng, c2]
  · rw [deng, c3]
  · rw [deng, c4]
  · refine SetOp.deliver_scalar ?_ (by rw [waits]; exact hw)
    obtain h | ⟨a, h⟩ | ⟨a, b, c, h⟩ := h
    · exact .inl ⟨g, h⟩
    · exact .inr (.inl ⟨g, a, h⟩)
    · exact .inr (.inr ⟨g, a, b, c, h⟩)
  · exact SetOp.deliver_pred hi (by rw [waits]; exact hw) hl act
  · exact (SetOp.deliver_heap hi full).trans regs
  · obtain ⟨lanes, cursor⟩ := SetOp.deliver_iter (r := r) (x := z.dropSet o.id) hi
    rw [waits] at lanes cursor
    exact ⟨lanes, cursor⟩

end Sys2Proof.Machine
end

section
/-! RULES for class-3 commands (O30, O31): the command that a step changes, and what a step leaves beside it. -/

namespace Sys2Proof.Machine

open Sys2Proof.Claim

/-! ## A command found by its number -/

theorem State.cmd?_id {s : State} {core id : Nat} {k : Cmd} (h : s.cmd? core id = some k) : k.id = id := by
  have := List.find?_some h
  simpa using this

theorem State.cmd?_congr {s t : State} {core : Nat} (h : (t.core core).cmds = (s.core core).cmds) (id : Nat) :
    t.cmd? core id = s.cmd? core id := by
  unfold State.cmd?
  rw [h]

theorem State.cmd?_modCmd (t : State) (core id : Nat) {f : Cmd → Cmd} (hf : ∀ j, (f j).id = j.id) :
    (t.modCmd core id f).cmd? core id = (t.cmd? core id).map f := by
  unfold State.cmd? State.modCmd
  rw [State.core_modCore, if_pos rfl]
  dsimp only
  induction (t.core core).cmds with
  | nil => rfl
  | cons j l ih => by_cases hj : j.id = id <;> simp [hj, hf, ih]

end Sys2Proof.Machine

namespace Sys2Proof.Claim

open Sys2Proof.Machine

theorem SameButWalks.cmd? {s t : State} (h : SameButWalks s t) (core id : Nat) : t.cmd? core id = s.cmd? core id :=
  State.cmd?_congr (by rw [h.core]) id

theorem SameButWalks.loses {s t : State} (h : SameButWalks s t) (y : Xlat) : t.loses y = s.loses y := by
  unfold State.loses
  rw [h.linkLost]

end Sys2Proof.Claim

namespace Sys2Proof.Machine

open Sys2Proof.Claim

theorem State.cmds_of_beside {s t : State} {core : Nat} (h : (t.core core).beside = (s.core core).beside) :
    (t.core core).cmds = (s.core core).cmds := (congrArg Core.cmds h :)

/-- A change of commands changes no buffer. -/
theorem KeepsBufs.modCmd (t : State) (core id : Nat) (f : Cmd → Cmd) : KeepsBufs t (t.modCmd core id f) := by
  refine ⟨rfl, fun c => ?_⟩
  unfold State.modCmd
  rw [State.core_modCore]
  split
  · next h => rw [h]; exact ⟨rfl, rfl⟩
  · exact ⟨rfl, rfl⟩

theorem KeepsBufs.walks {s t : State} (h : SameButWalks s t) : KeepsBufs s t :=
  ⟨h.gangs, fun c => by rw [h.core]; exact ⟨rfl, rfl⟩⟩

theorem KeepsBufs.trans {s t u : State} (h : KeepsBufs s t) (g : KeepsBufs t u) : KeepsBufs s u :=
  ⟨g.1.trans h.1, fun c => ⟨(g.2 c).1.trans (h.2 c).1, (g.2 c).2.trans (h.2 c).2⟩⟩

section KeepsBufs
variable {s t : State} (h : KeepsBufs s t)
include h

theorem KeepsBufs.bufLe (p : BufAt) (off n : Nat) : t.bufLe p off n = s.bufLe p off n := by
  unfold State.bufLe
  congr 1
  induction n generalizing off with
  | zero => rfl
  | succ n ih => exact congrArg₂ List.cons (h.buffers.bufByte p off) (ih (off + 1))

theorem KeepsBufs.bufAnyMark (p : BufAt) (off n : Nat) : t.bufAnyMark p off n = s.bufAnyMark p off n := by
  unfold State.bufAnyMark
  simp only [h.bufMarked]

end KeepsBufs

theorem State.bytes_same {s t : State} (h : SameBytes s t) (k n : Nat) : t.bytes k n = s.bytes k n := by
  induction n generalizing k with
  | zero => rfl
  | succ n ih => exact congrArg₂ List.cons (h k) (ih (k + 1))

theorem State.le_same {s t : State} (h : SameBytes s t) (k n : Nat) : t.le k n = s.le k n := by
  unfold State.le
  rw [State.bytes_same h]

theorem State.marked_congr {s t : State} (h : t.memMark = s.memMark) (k n : Nat) : t.marked k n = s.marked k n := by
  unfold State.marked
  rw [h]

theorem State.traceCmd_untraced {s : State} {k : Cmd} (quiet : Untraced s k.issuer.tenant) (core : Nat) (ev : TraceEv) (st : Nat) :
    s.traceCmd core k ev st = s := by
  unfold State.traceCmd Cmd.name
  cases k.kind.engine with
  | none => rfl
  | some e =>
    refine State.trace_untraced ?_ ev st
    exact quiet

/-! ## Where a command stands -/

/-- No byte and no agent has changed, and the command of this number is `j`. -/
structure CmdStands (s t : State) (core id : Nat) (j : Cmd) : Prop where
  bytes : SameBytes s t
  agents : t.agents = s.agents
  cmd : t.cmd? core id = some j

namespace CmdStands
variable {s t u : State} {core id : Nat} {j : Cmd}

theorem refl (h : s.cmd? core id = some j) : CmdStands s s core id j := ⟨fun _ => rfl, rfl, h⟩

theorem walks (h : CmdStands s t core id j) (hw : SameButWalks t u) : CmdStands s u core id j :=
  ⟨fun a => (State.byte_congr hw.mem a).trans (h.bytes a), hw.agents.trans h.agents, (hw.cmd? ..).trans h.cmd⟩

theorem modCmd (h : CmdStands s t core id j) {f : Cmd → Cmd} (hf : ∀ j, (f j).id = j.id) :
    CmdStands s (t.modCmd core id f) core id (f j) :=
  ⟨h.bytes, h.agents, (State.cmd?_modCmd t core id hf).trans (congrArg (Option.map f) h.cmd)⟩

/-- Buffers of a gang, and marks of them, are beside the commands of a core. -/
theorem inBufs (h : CmdStands s t core id j) (hb : InBufs t u) (beside : (u.core core).beside = (t.core core).beside) :
    CmdStands s u core id j :=
  ⟨fun a => (State.byte_congr hb.mem a).trans (h.bytes a), hb.agents.trans h.agents,
    (State.cmd?_congr (State.cmds_of_beside beside) id).trans h.cmd⟩

end CmdStands
end Sys2Proof.Machine
end

section
/-! PROOF of `ChainStepsContract` (O31): a step is taken up, its record is fetched, and the record halts the command or is carried
out. -/

namespace Sys2Proof.Machine

open Sys2Proof.Claim

/-- A chain command that may take a step. -/
structure ChainRuns (s : State) (core : Nat) (k : Cmd) (c : ChainCtx) (g : Gang) : Prop where
  there : s.cmd? core k.id = some k
  steps : k.kind.runsSteps = true
  started : k.started = true
  goes : k.halted = false
  unsaved : s.saving k.gang = true → k.kind.isStep = true
  free : s.bankBusy core = false
  untraced : Untraced s k.issuer.tenant
  chain : (s.agent? k.agent).bind (fun x => x.eng.chain) = some c
  gang : s.gang? k.gang = some g

section Step
variable {s : State} {core : Nat} {k : Cmd} {c : ChainCtx} {g : Gang} {bad : Bool}

/-- Nothing keeps the command from its step. -/
theorem ChainRuns.may (h : ChainRuns s core k c g) : ¬ ((!k.kind.runsSteps) = true ∨ (!k.started) = true ∨ k.halted = true ∨
    (s.saving k.gang = true ∧ (!k.kind.isStep) = true) ∨ s.bankBusy core = true) := by
  obtain ⟨-, steps, started, goes, unsaved, free, -, -, -⟩ := h
  rintro (h | h | h | ⟨h, h'⟩ | h)
  · simp [steps] at h
  · simp [started] at h
  · simp [goes] at h
  · simp [unsaved h] at h'
  · simp [free] at h

/-- The state in which a command takes up its step: a run that was stopped is so no more. -/
def State.resumed (s : State) (core : Nat) (k : Cmd) : State :=
  if k.stopped then s.modCmd core k.id (fun j => { j with stopped := false }) else s

def Cmd.resumed (k : Cmd) : Cmd := { k with stopped := false }

theorem State.takeUp_resumed (quiet : Untraced s k.issuer.tenant) : s.takeUp core k = s.resumed core k := by
  unfold State.takeUp State.resumed
  rw [State.traceCmd_untraced quiet]

theorem State.resumed_stands (there : s.cmd? core k.id = some k) : CmdStands s (s.resumed core k) core k.id k.resumed := by
  unfold State.resumed
  split
  · exact (CmdStands.refl there).modCmd fun _ => rfl
  · next h =>
    have same : k.resumed = k := by
      unfold Cmd.resumed
      rw [← Bool.not_eq_true _ |>.mp h]
    rw [same]
    exact .refl there

/-- The pass over the record that the command stands at. -/
def State.recordPass (s : State) (core : Nat) (k : Cmd) (c : ChainCtx) (g : Gang) : State × List Xlat × Pass :=
  locate (k.origin core).req core g.tenant 16 .read 1 (c.prog + BitVec.ofNat 64 (16 * k.cursor)) (s.resumed core k)

theorem State.recordPass_walks {s1 : State} {xs : List Xlat} {r : Pass} (h : s.recordPass core k c g = (s1, xs, r)) :
    SameButWalks (s.resumed core k) s1 := by
  have walks := locate_walks (k.origin core).req core g.tenant 16 .read 1 (c.prog + BitVec.ofNat 64 (16 * k.cursor)) (s.resumed core k)
  unfold State.recordPass at h
  rwa [h] at walks

theorem execChainStepExecute_past (h : ChainRuns s core k c g) (past : c.nsteps ≤ k.cursor) :
    exec (.chainStepExecute core k.id bad) s =
      .next ((s.resumed core k).chainStepDone core k (if k.kind.isStep then stStep else 0#32) false true) := by
  have may := h.may
  obtain ⟨there, -, -, -, -, -, quiet, chain, gang⟩ := h
  show execChainStepExecute core k.id bad s = _
  unfold execChainStepExecute
  simp only [there, chain, gang, State.takeUp_resumed quiet]
  rw [if_neg may, if_pos past]

/-- What a step does once its record's place has been sought. -/
def State.chainStepAt (s : State) (core : Nat) (k : Cmd) (c : ChainCtx) (g : Gang) (bad : Bool) (s1 : State) : List Xlat → Pass → State
  | x :: _, .done =>
    if s1.reachHeld (core / 40) .any x.key then s
    else
      let s2 := s1.homeReads (k.origin core) (dieOfCore core) [(x, 16)]
      if s1.loses x then (s2.linkGone g.tenant 0).chainStepDone core k stEcc false true
      else if s1.marked x.key 16 then s2.chainStepDone core k stEcc false true
      else s2.runStep core k g c bad fun i => s1.le (x.key + 4 * i) 4
  | _, _ => s1.chainStepDone core k stFault false true

theorem execChainStepExecute_at (h : ChainRuns s core k c g) (before : k.cursor < c.nsteps) {s1 : State} {xs : List Xlat} {r : Pass}
    (fetch : s.recordPass core k c g = (s1, xs, r)) :
    exec (.chainStepExecute core k.id bad) s = .next (s.chainStepAt core k c g bad s1 xs r) := by
  have may := h.may
  obtain ⟨there, -, -, -, -, -, quiet, chain, gang⟩ := h
  show execChainStepExecute core k.id bad s = _
  unfold State.recordPass at fetch
  unfold execChainStepExecute
  simp only [there, chain, gang, State.takeUp_resumed quiet, fetch]
  rw [if_neg may, if_neg (Nat.not_le.mpr before)]
  unfold State.chainStepAt
  cases xs with
  | nil => cases r <;> rfl
  | cons y ys =>
    cases r with
    | fault _ => rfl
    | done =>
      dsimp only
      by_cases held : s1.reachHeld (core / 40) .any y.key = true
      · rw [if_pos held]; exact if_pos held
      · rw [if_neg held]; exact if_neg held

/-! ## A step that halts its command -/

/-- The command has halted with these bits, and nothing else has changed. -/
def ChainHalts (s u : State) (core : Nat) (k j : Cmd) (st : Word) : Prop :=
  SameBytes s u ∧ u.agents = s.agents ∧ u.gangs = s.gangs ∧
    u.cmd? core k.id = some { j with halted := true, status := k.status ||| st }

theorem chainStepDone_halts {t : State} {j : Cmd} (h : CmdStands s t core k.id j) (gangs : t.gangs = s.gangs)
    (status : j.status = k.status) (st : Word) : ChainHalts s (t.chainStepDone core k st false true) core k j st := by
  obtain ⟨bytes, agents, cmd⟩ := h.modCmd (f := fun j => { j with
    status := j.status ||| st, cursor := if false then j.cursor + 1 else j.cursor, halted := !false || true }) fun _ => rfl
  refine ⟨bytes, agents, gangs, cmd.trans ?_⟩
  rw [status]
  rfl

/-! ## A step that is carried out -/

theorem writeBoundary_inBufs (s : State) (cb : BufAt) (boff : Nat) (es : List (SRes × Bool)) (bad : Bool) :
    InBufs s (s.writeBoundary cb boff es bad) := by
  refine (InBufs.write ..).trans (.foldl _ (fun t e => ?_) _ _)
  split
  · exact .mark ..
  · exact .refl _

theorem writeBoundary_beside (s : State) (cb : BufAt) (boff : Nat) (es : List (SRes × Bool)) (bad : Bool) (n : Nat) :
    ((s.writeBoundary cb boff es bad).core n).beside = (s.core n).beside := by
  refine (foldl_keeps (fun t : State => (t.core n).beside) _ (fun t e => ?_) _ _).trans (s.bufWrite_beside cb n _)
  split
  · exact State.setBufMark_beside ..
  · rfl

theorem writeBoundary_buffers {s t : State} (h : SameBuffers s t) (cb : BufAt) (boff : Nat) (es : List (SRes × Bool)) (bad : Bool) :
    SameBuffers (s.bufWrite cb (cellsAt boff (es.flatMap fun e => leBytes 4 e.1.1.toNat))) (t.writeBoundary cb boff es bad) := by
  refine (h.write ..).trans (.foldl _ (fun t e => ?_) _ _)
  split
  · exact .setBufMark ..
  · exact .refl _

/-- The step that a record describes. -/
def State.recordStep (s : State) (k : Cmd) (y : Xlat) : Option Step :=
  Step.ofWords k.bd (s.le y.key 4) (s.le (y.key + 4) 4) (s.le (y.key + 8) 4) (s.le (y.key + 12) 4)

theorem KeepsBufs.stepIn {s t : State} (h : KeepsBufs s t) (core : Nat) (k : Cmd) (c : ChainCtx) (st : Step) :
    t.stepIn core k c st = s.stepIn core k c st := by
  unfold State.stepIn
  simp only [h.bufLe, h.bufAnyMark]

section Run
variable {s1 : State} (same : SameBytes s s1) (t : State) (bad : Bool) (y : Xlat)
include same

theorem runStep_stops {st : Word} (h : stepCheck g.header c (s.recordStep k y) = .inl st) :
    t.runStep core k g c bad (fun i => s1.le (y.key + 4 * i) 4) =
      (t.modCmd core k.id fun j => { j with kidx := s.le y.key 4 % 65536 }).chainStepDone core k st false true := by
  unfold State.recordStep at h
  unfold State.runStep
  simp only [State.le_same same, ebits, Nat.mul_zero, Nat.mul_one, Nat.add_zero, Nat.pow_zero, Nat.div_one, Nat.reduceMul,
    Nat.reduceAdd, Nat.reduceSub, Nat.reducePow, h]

theorem runStep_goes {st : Step} (h : stepCheck g.header c (s.recordStep k y) = .inr st) :
    t.runStep core k g c bad (fun i => s1.le (y.key + 4 * i) 4) =
      (((t.modCmd core k.id fun j => { j with kidx := s.le y.key 4 % 65536 }).writeBoundary ⟨k.gang, k.pos, core, .cbuf⟩ c.boff
        (stepOut c st (t.stepIn core k c st)) bad).modAgent k.agent (Agent.mapEng fun e => { e with
          chain := some { c with rows := if st.absorb then c.rows else c.rows * st.n, cols := st.bOut } })).chainStepDone core k
          ((stepOut c st (t.stepIn core k c st)).foldl (fun m e => m ||| e.1.2 ||| (if e.2 then stEcc else 0#32))
            (if bad then stRes else 0#32)) true (k.kind.isStep || k.cursor + 1 ≥ c.nsteps) := by
  unfold State.recordStep at h
  unfold State.runStep
  simp only [State.le_same same, ebits, Nat.mul_zero, Nat.mul_one, Nat.add_zero, Nat.pow_zero, Nat.div_one, Nat.reduceMul,
    Nat.reduceAdd, Nat.reduceSub, Nat.reducePow, h]

end Run

/-- A step whose record stands: the new boundary is in its buffer, the context has its size, and the step is counted. -/
def ChainContracts (s u s1 : State) (core : Nat) (k : Cmd) (x : Agent) (c : ChainCtx) (bad : Bool) (kidx : Nat) (st : Step) : Prop :=
  let es := stepOut c st (s1.stepIn core k c st)
  SameBytes s u ∧
    (∀ q off, u.bufByte q off = (s1.bufWrite ⟨k.gang, k.pos, core, .cbuf⟩
      (cellsAt c.boff (es.flatMap fun e => leBytes 4 e.1.1.toNat))).bufByte q off) ∧
    (∀ n, n ≠ k.agent → u.agent? n = s.agent? n) ∧
    u.agent? k.agent = some { x with eng := { x.eng with chain := some { c with
      rows := if st.absorb then c.rows else c.rows * st.n, cols := st.bOut } } } ∧
    ∃ j, u.cmd? core k.id = some j ∧ j.cursor = k.cursor + 1 ∧ j.kidx = kidx ∧
      j.halted = (k.kind.isStep || decide (c.nsteps ≤ k.cursor + 1)) ∧
      (bad = false → (∀ e ∈ es, e.1.2 = 0#32 ∧ e.2 = false) → j.status = k.status)

/-- Results without a status bit and without a bad leaf bring none. -/
theorem statuses_none (es : List (SRes × Bool)) (clean : ∀ e ∈ es, e.1.2 = 0#32 ∧ e.2 = false) :
    es.foldl (fun m e => m ||| e.1.2 ||| (if e.2 then stEcc else 0#32)) 0#32 = 0#32 := by
  induction es with
  | nil => rfl
  | cons e l ih =>
    obtain ⟨st, leaf⟩ := clean e (List.mem_cons_self ..)
    rw [List.foldl_cons, st, leaf]
    exact ih fun e he => clean e (List.mem_cons_of_mem _ he)

/-- A step carried out: `s1` is the state after its record's place was sought, `t` the one after its record was asked for. -/
theorem contract_spec {s1 t : State} {x : Agent} {j : Cmd} (hx : s.agent? k.agent = some x)
    (stands : CmdStands s t core k.id j) (bufs : KeepsBufs s1 t) (cursor : j.cursor = k.cursor) (status : j.status = k.status)
    (bad : Bool) (kidx : Nat) (st : Step) {u : State} (hu : u =
      (((t.modCmd core k.id fun j => { j with kidx := kidx }).writeBoundary ⟨k.gang, k.pos, core, .cbuf⟩ c.boff
        (stepOut c st (s1.stepIn core k c st)) bad).modAgent k.agent (Agent.mapEng fun e => { e with
          chain := some { c with rows := if st.absorb then c.rows else c.rows * st.n, cols := st.bOut } })).chainStepDone core k
          ((stepOut c st (s1.stepIn core k c st)).foldl (fun m e => m ||| e.1.2 ||| (if e.2 then stEcc else 0#32))
            (if bad then stRes else 0#32)) true
          (k.kind.isStep || k.cursor + 1 ≥ c.nsteps)) :
    ChainContracts s u s1 core k x c bad kidx st := by
  unfold ChainContracts
  generalize stepOut c st (s1.stepIn core k c st) = es at *
  have numbered := stands.modCmd (f := fun j => { j with kidx := kidx }) fun _ => rfl
  have written := numbered.inBufs (writeBoundary_inBufs _ ⟨k.gang, k.pos, core, .cbuf⟩ c.boff es bad)
    (writeBoundary_beside ..)
  have boundary := writeBoundary_buffers (bufs.trans (.modCmd t core k.id fun j => { j with kidx := kidx })).buffers
    ⟨k.gang, k.pos, core, .cbuf⟩ c.boff es bad
  generalize (t.modCmd core k.id fun j => { j with kidx := kidx }).writeBoundary ⟨k.gang, k.pos, core, .cbuf⟩ c.boff es bad = v at *
  obtain ⟨bytes, agents, cmd⟩ := written
  have there : v.agent? k.agent = some x := (congrArg (kget · k.agent) agents).trans hx
  subst hu
  refine ⟨bytes, fun q off => ?_, fun n hn => ?_, ?_, ?_⟩
  · exact ((KeepsBufs.modCmd ..).buffers.bufByte q off).trans (boundary.bufByte q off)
  · exact (State.agent?_modAgent ..).trans ((if_neg (Ne.symm hn)).trans (congrArg (kget · n) agents))
  · exact (State.agent?_modAgent ..).trans ((if_pos rfl).trans (congrArg _ there))
  · refine ⟨_, (State.cmd?_modCmd _ core k.id ?_).trans (congrArg _ cmd), congrArg (· + 1) cursor, rfl, rfl, fun good clean => ?_⟩
    · exact fun _ => rfl
    · have none := statuses_none es clean
      subst good
      exact (congrArg₂ (· ||| ·) status none).trans BitVec.or_zero

/-- The single step of the statement is the model's. -/
theorem runsSteps_of (h : k.kind.isStep = true ∨ ∃ f r, k.kind = .chainRun f r) : k.kind.runsSteps = true := by
  rcases h with h | ⟨f, r, h⟩
  · unfold CmdKind.isStep at h
    unfold CmdKind.runsSteps
    split at h
    · next e => rw [e]
    · cases h
  · rw [h]; rfl

/-- The step taken, by how far the command is and what its record's place holds. -/
theorem chainStep_spec (h : ChainRuns s core k c g) {x : Agent} (hx : s.agent? k.agent = some x) (bad : Bool) :
    let halts := fun (j : Cmd) (st : Word) => ∃ u, exec (.chainStepExecute core k.id bad) s = .next u ∧ ChainHalts s u core k j st
    (c.nsteps ≤ k.cursor → halts k.resumed (if k.kind.isStep then 0x100#32 else 0#32)) ∧
    (k.cursor < c.nsteps →
      (∀ s1 xs code, s.recordPass core k c g = (s1, xs, .fault code) → halts k.resumed 0x20#32) ∧
      (∀ s1 y, s.recordPass core k c g = (s1, [y], .done) →
        (s1.reachHeld (core / 40) .any y.key = true → exec (.chainStepExecute core k.id bad) s = .next s) ∧
        (s1.reachHeld (core / 40) .any y.key = false → s.loses y = false → s.marked y.key 16 = true → halts k.resumed 0x001#32) ∧
        (s1.reachHeld (core / 40) .any y.key = false → s.loses y = false → s.marked y.key 16 = false →
          (∀ st, stepCheck g.header c (s.recordStep k y) = .inl st →
            halts { k.resumed with kidx := s.le y.key 4 % 65536 } st) ∧
          (∀ t, stepCheck g.header c (s.recordStep k y) = .inr t →
            ∃ u, exec (.chainStepExecute core k.id bad) s = .next u ∧
              ChainContracts s u s1 core k x c bad (s.le y.key 4 % 65536) t)))) := by
  have taken := s.resumed_stands h.there
  have unmarked : (s.resumed core k).memMark = s.memMark ∧ (s.resumed core k).linkLost = s.linkLost ∧
      (s.resumed core k).gangs = s.gangs := by
    unfold State.resumed
    split <;> exact ⟨rfl, rfl, rfl⟩
  obtain ⟨mark, lost, gangs⟩ := unmarked
  refine ⟨fun past => ⟨_, execChainStepExecute_past h past, chainStepDone_halts taken gangs rfl _⟩, fun before => ⟨?_, ?_⟩⟩
  · intro s1 xs code fetch
    have walks := State.recordPass_walks fetch
    have runs := execChainStepExecute_at (bad := bad) h before fetch
    have fails : s.chainStepAt core k c g bad s1 xs (.fault code) = s1.chainStepDone core k stFault false true := by
      unfold State.chainStepAt
      cases xs <;> rfl
    rw [fails] at runs
    exact ⟨_, runs, chainStepDone_halts (taken.walks walks) (walks.gangs.trans gangs) rfl _⟩
  · intro s1 y fetch
    have walks := State.recordPass_walks fetch
    have runs := execChainStepExecute_at (bad := bad) h before fetch
    have asked := SameButHomes.homeReads s1 (k.origin core) (dieOfCore core) [(y, 16)]
    have there := (taken.walks walks).walks asked.walks
    have stay := asked.walks.gangs.trans (walks.gangs.trans gangs)
    have loses : s1.loses y = s.loses y := by
      unfold State.loses
      rw [walks.linkLost, lost]
    have marked : s1.marked y.key 16 = s.marked y.key 16 := State.marked_congr (walks.memMark.trans mark) ..
    have same : SameBytes s s1 := (taken.walks walks).bytes
    unfold State.chainStepAt at runs
    dsimp only at runs
    refine ⟨fun held => ?_, fun free kept ecc => ?_, fun free kept clean => ⟨fun st stops => ?_, fun t goes => ?_⟩⟩
    · rwa [if_pos held] at runs
    · rw [free, loses, kept, marked, ecc] at runs
      exact ⟨_, runs, chainStepDone_halts there stay rfl _⟩
    · rw [free, loses, kept, marked, clean, runStep_stops same _ _ _ stops] at runs
      refine ⟨_, runs, chainStepDone_halts (j := { k.resumed with kidx := s.le y.key 4 % 65536 })
        (there.modCmd (f := fun j => { j with kidx := s.le y.key 4 % 65536 }) ?_) stay rfl _⟩
      exact fun _ => rfl
    · rw [free, loses, kept, marked, clean, runStep_goes same _ _ _ goes] at runs
      refine ⟨_, runs, contract_spec hx there (KeepsBufs.homes asked) rfl rfl bad _ t ?_⟩
      rw [(KeepsBufs.homes asked).stepIn]
      rfl

end Step

/-- Settles O31: the pass over the record finds it held, faulted, marked or readable, and a record that is read either stops the
command or is contracted. -/
theorem chainStepsContract : Obligations.ChainStepsContract := by
  intro s core cmd bad k x c g hk single kind started goes unsaved free quiet hx chain gang
  obtain rfl := State.cmd?_id hk
  have isStep : single = k.kind.isStep := rfl
  have runs : ChainRuns s core k c g := ⟨hk, runsSteps_of kind, started, goes, unsaved, free, quiet, by rw [hx]; exact chain, gang⟩
  exact chainStep_spec runs hx bad

end Sys2Proof.Machine
end

section
/-! PROOF. The fetch of a tile, and how a class-3 command starts (O30). -/

namespace Sys2Proof.Machine

open Sys2Proof.Claim

/-! ## What a fetch leaves beside its buffer -/

section Frame
variable (s : State) (p : BufAt)

theorem State.bufPut1_planes (off : Nat) (b : Byte) (g : Nat) :
    ((s.bufPut1 p off b).gang? g).map Gang.planes = (s.gang? g).map Gang.planes := by
  unfold State.bufPut1
  split
  · rfl
  · rw [State.gang?_modGang]
    split
    · rw [Option.map_map]; rfl
    · rfl

theorem State.setBufMark_planes (r : Nat) (b : Bool) (g : Nat) :
    ((s.setBufMark p r b).gang? g).map Gang.planes = (s.gang? g).map Gang.planes := by
  unfold State.setBufMark
  dsimp only
  split
  · rfl
  · rw [State.gang?_modGang]
    split
    · rw [Option.map_map]; rfl
    · rfl

theorem State.bufWrite_planes (cells : List (Nat × Byte)) (g : Nat) :
    ((s.bufWrite p cells).gang? g).map Gang.planes = (s.gang? g).map Gang.planes :=
  (foldl_keeps (fun s : State => (s.gang? g).map Gang.planes) _ (fun s r => s.setBufMark_planes p r false g) _ _).trans
    (foldl_keeps (fun s : State => (s.gang? g).map Gang.planes) _ (fun s (e : Nat × Byte) => s.bufPut1_planes p e.1 e.2 g) _ _)

end Frame

/-! ## Marks set row by row -/

/-- One mark for each entry of a list, from a row of a buffer on. -/
def State.markEach {α : Type} (s : State) (p : BufAt) (base : Nat) (f : α → Bool) (l : List α) (n : Nat) : State :=
  (l.zipIdx n).foldl (fun s e => s.setBufMark p (base + e.2) (f e.1)) s

/-- Rows of one buffer keep their marks in places of their own. -/
theorem BufAt.slot_inj (p : BufAt) {a b : Nat} (h : p.slot a = p.slot b) : a = b := by
  unfold BufAt.slot BufAt.inWay BufAt.key at h
  by_cases ha : (p.buf == .abuf && decide (262144 ≤ 32 * a)) = true <;>
    by_cases hb : (p.buf == .abuf && decide (262144 ≤ 32 * b)) = true <;>
    simp only [ha, hb, if_true, if_false, Prod.mk.injEq, true_and, reduceCtorEq, false_and, Bool.false_eq_true] at h
  · simp only [Bool.and_eq_true, decide_eq_true_eq] at ha hb
    omega
  · omega

section MarkEach
variable {α : Type} (p : BufAt) (base : Nat) (f : α → Bool)

theorem State.markEach_below (l : List α) (n : Nat) (s : State) {row : Nat} (h : row < base + n) :
    (s.markEach p base f l n).slotMark (p.slot row) = s.slotMark (p.slot row) := by
  induction l generalizing n s with
  | nil => rfl
  | cons a t ih =>
    refine (ih (n + 1) _ (by omega)).trans ?_
    dsimp only
    rw [State.setBufMark_eq, State.slotMark_setSlot, if_neg]
    exact fun c => absurd (p.slot_inj c.1) (by show base + n ≠ row; omega)

theorem State.markEach_at (l : List α) (n : Nat) (s : State) {i : Nat} {a : α} (h : l[i]? = some a)
    (there : ∀ σ, s.slotThere (p.slot σ) = true) : (s.markEach p base f l n).slotMark (p.slot (base + n + i)) = f a := by
  induction l generalizing n s i with
  | nil => cases h
  | cons b t ih =>
    cases i with
    | zero =>
      refine (State.markEach_below p base f t (n + 1) _ (by omega)).trans ?_
      dsimp only
      rw [State.setBufMark_eq, State.slotMark_setSlot, if_pos ⟨rfl, there _⟩, Option.some.inj h]
    | succ i =>
      have rest := ih (n + 1) (s.setBufMark p (base + n) (f b)) h fun σ => by rw [State.slotThere_setBufMark]; exact there σ
      rwa [show base + (n + 1) + i = base + n + (i + 1) by omega] at rest

end MarkEach

/-! ## The fetch of a tile -/

/-- A tile has come to a buffer: `s1` is the state after its rows were sought. -/
structure TileFetched (s s1 t : State) (core id : Nat) (j : Cmd) (p : BufAt) (off : Nat) (xs : List Xlat) : Prop where
  stands : CmdStands s t core id j
  bytes : ∀ q o, t.bufByte q o = (s1.bufWrite p (cellsAt off (s1.gather 32 (xs.map Xlat.key)))).bufByte q o
  marks : (s.gang? p.gang).isSome = true → ∀ (i : Nat) (a : Xlat), xs[i]? = some a →
    t.bufMarked p (off / 32 + i) = s.marked a.key 32
  planes : ∀ g, (t.gang? g).map Gang.planes = (s.gang? g).map Gang.planes

section Fetch
variable {s s1 : State} {o : Origin} {tenant off len core : Nat} {p : BufAt} {va : DWord} {xs : List Xlat} {r : Pass}

theorem fetchTile_held (at_ : p.core = core) (pass : locate o.req core tenant 32 .read (len / 32) va s = (s1, xs, r))
    (held : ∃ y ∈ xs, s1.reachHeld (core / 40) .any y.key = true) : s.fetchTile o tenant p off len va = none := by
  subst at_
  have any : (xs.map Xlat.key).any (s1.reachHeld (dieOfCore p.core) .any) = true := State.passHeld_true.mpr held
  unfold State.fetchTile
  simp only [pass, any, if_true]

theorem gather_kept (kept : ∀ y, s1.loses y = false) (n : Nat) : ((xs.zipIdx n).flatMap fun e =>
      if s1.loses e.1 then freeBytes (s1.free + 32 * e.2) 32 else s1.bytes e.1.key 32) = s1.gather 32 (xs.map Xlat.key) := by
  simp only [kept, Bool.false_eq_true, if_false]
  unfold State.gather
  induction xs generalizing n with
  | nil => rfl
  | cons y l ih => exact congrArg (s1.bytes y.key 32 ++ ·) (ih (n + 1))

theorem fetchTile_found (at_ : p.core = core) (pass : locate o.req core tenant 32 .read (len / 32) va s = (s1, xs, r))
    (lost : s.linkLost = false) (free : ∀ y ∈ xs, s1.reachHeld (core / 40) .any y.key = false) {id : Nat} {j : Cmd}
    (there : s.cmd? core id = some j) :
    ∃ t, s.fetchTile o tenant p off len va = some (t, r) ∧ TileFetched s s1 t core id j p off xs := by
  subst at_
  have walks : SameButWalks s s1 := by
    have w := locate_walks o.req p.core tenant 32 .read (len / 32) va s
    rwa [pass] at w
  have any : (xs.map Xlat.key).any (s1.reachHeld (dieOfCore p.core) .any) = false := State.passHeld_false.mpr free
  have kept : ∀ y, s1.loses y = false := fun y => by
    rw [walks.loses]
    unfold State.loses
    rw [lost]
    rfl
  have none : xs.any s1.loses = false := by
    rw [List.any_eq_false]
    exact fun y _ => by rw [kept]; decide
  have asked := SameButHomes.homeReads s1 o (dieOfCore p.core) (xs.map fun x => (x, 32))
  generalize ht : s1.homeReads o (dieOfCore p.core) (xs.map fun x => (x, 32)) = t at asked
  have bufs : KeepsBufs s1 t := .homes asked
  refine ⟨(t.bufWrite p (cellsAt off (s1.gather 32 (xs.map Xlat.key)))).markEach p (off / 32)
    (fun y => s1.loses y || s1.marked y.key 32) xs 0, ?_, ?_, fun q o => ?_, fun hg i a ha => ?_, fun g => ?_⟩
  · unfold State.fetchTile State.markEach
    simp only [pass, any, none, ht, Bool.false_eq_true, if_false, gather_kept kept]
  · refine ((CmdStands.refl there).walks (walks.trans asked.walks)).inBufs ((InBufs.write ..).trans (.foldl _ (fun t e => ?_) _ _)) ?_
    · exact .mark ..
    · exact (foldl_keeps (fun t : State => (t.core p.core).beside) _ (fun t e => t.setBufMark_beside p p.core _ _) _ _).trans
        (t.bufWrite_beside p p.core _)
  · exact ((SameBuffers.foldl _ (fun _ _ => .setBufMark ..) _ _).bufByte q o).trans ((bufs.buffers.write ..).bufByte q o)
  · have kept_gang : ∀ row, (t.bufWrite p (cellsAt off (s1.gather 32 (xs.map Xlat.key)))).slotThere (p.slot row) = true := fun row => by
      rw [State.slotThere_bufWrite, bufs.slotThere]
      refine State.slotThere_of_gang ?_ row
      rw [(KeepsBufs.walks walks).gang?]
      exact hg
    have marked := State.markEach_at p (off / 32) (fun y => s1.loses y || s1.marked y.key 32) xs 0
      (t.bufWrite p (cellsAt off (s1.gather 32 (xs.map Xlat.key)))) ha kept_gang
    rw [State.bufMarked_eq]
    refine marked.trans ?_
    rw [kept, Bool.false_or]
    exact State.marked_congr walks.memMark ..
  · refine (foldl_keeps (fun s : State => (s.gang? g).map Gang.planes) _ (fun s e => s.setBufMark_planes p _ _ g) _ _).trans ?_
    rw [State.bufWrite_planes, bufs.gang?, (KeepsBufs.walks walks).gang?]

end Fetch
end Sys2Proof.Machine
end

section
/-! PROOF of `CommandsStart` (O30): a command that may start is held by a breakpoint, or starts by what its kind does first. -/

namespace Sys2Proof.Machine

open Sys2Proof.Claim

/-! ## A command that may start -/

/-- A command that may start, for a tenant that does not trace. -/
structure CmdReady (s : State) (core : Nat) (k : Cmd) (x : Agent) : Prop where
  there : s.cmd? core k.id = some k
  fresh : k.held = false
  may : s.mayStart core k = true
  free : s.bankBusy core = false
  issuer : s.agent? k.agent = some x
  untraced : Untraced s k.issuer.tenant

section Start
variable {s : State} {core : Nat} {k : Cmd} {x : Agent}

theorem execCommandStart_breaks (h : CmdReady s core k x) {e : Nat × Nat} (he : k.kind.engine = some e) (fresh : k.released = false)
    (meets : s.engineBreak x e.1 k.seq = true) : exec (.commandStart core k.id) s =
      .next ((s.modCmd core k.id fun j => { j with held := true }).reportHeld x k.seq (engineId e.1 core e.2)) := by
  obtain ⟨there, held, may, free, issuer, quiet⟩ := h
  show execCommandStart core k.id s = _
  unfold execCommandStart
  simp [there, held, may, free, issuer, he, fresh, meets]

theorem execCommandStart_goes (h : CmdReady s core k x)
    (go : ∀ e, k.kind.engine = some e → k.released = true ∨ s.engineBreak x e.1 k.seq = false) :
    exec (.commandStart core k.id) s = .next ((s.startCmd core k).getD s) := by
  obtain ⟨there, held, may, free, issuer, quiet⟩ := h
  show execCommandStart core k.id s = _
  unfold execCommandStart
  simp only [there, held, may, free, issuer, State.traceCmd_untraced quiet]
  rw [if_neg (by decide)]
  cases he : k.kind.engine with
  | none => rfl
  | some e =>
    have passes : (!k.released && s.engineBreak x e.1 k.seq) = false := by
      rcases go e he with h | h <;> simp [h]
    dsimp only
    rw [if_neg (by rw [passes]; decide)]

theorem CmdStands.run {t : State} (h : CmdStands s t core k.id k) :
    CmdStands s (t.modCmd core k.id fun j => { j with started := true }) core k.id { k with started := true } :=
  h.modCmd fun _ => rfl

theorem CmdStands.stop {t : State} (h : CmdStands s t core k.id k) (b : Word) :
    CmdStands s (t.modCmd core k.id (Cmd.stopWith b)) core k.id { k with started := true, halted := true, status := k.status ||| b } :=
  h.modCmd fun _ => rfl

theorem CmdStands.became {t : State} {id : Nat} {j : Cmd} (h : CmdStands s t core id j) :
    SameBytes s t ∧ t.agents = s.agents ∧ t.cmd? core id = some j := ⟨h.bytes, h.agents, h.cmd⟩

/-! ## What each kind does first -/

theorem startCmd_plain (hl : ∀ a w f use t, k.kind ≠ .ldst a w f use t) (hm : ∀ a b c d e f g use, k.kind ≠ .mstream a b c d e f g use)
    (hc : ∀ a b c d e f g, k.kind ≠ .chainCfg a b c d e f g) :
    s.startCmd core k = some (s.modCmd core k.id fun j => { j with started := true }) := by
  unfold State.startCmd
  cases hk : k.kind with
  | ldst a w f use t => exact (hl _ _ _ _ _ hk).elim
  | mstream a b c d e f g use => exact (hm _ _ _ _ _ _ _ _ hk).elim
  | chainCfg a b c d e f g => exact (hc _ _ _ _ _ _ _ hk).elim
  | cbtload _ _ => rfl
  | mswap _ => rfl
  | mop _ _ _ _ _ _ _ _ _ _ _ _ _ _ _ => rfl
  | mzero _ _ => rfl
  | chainStep _ => rfl
  | chainRun _ _ => rfl

/-- The pass over the rows of a tile. -/
def State.tilePass (s : State) (core : Nat) (k : Cmd) (len : Nat) (va : DWord) : State × List Xlat × Pass :=
  locate (k.origin core).req core (s.cmdTenant k.gang) 32 .read (len / 32) va s

/-- The fetch of a tile into a buffer of the command's place. -/
def State.fetchFor (s : State) (core : Nat) (k : Cmd) (b : Buf) (off len : Nat) (va : DWord) : Option (State × Pass) :=
  s.fetchTile (k.origin core) (s.cmdTenant k.gang) ⟨k.gang, k.pos, core, b⟩ off len va

section Ldst
variable {a woff wf : Nat} {tbl : BitVec 128}

theorem startCmd_ldst_resident (hk : k.kind = .ldst a woff wf none tbl) :
    s.startCmd core k = some (s.modCmd core k.id fun j => { j with started := true }) := by
  unfold State.startCmd
  rw [hk]

variable {th tr tc : Nat} {t : Tile} {ts : List (Option Tile)} (hk : k.kind = .ldst a woff wf (some (th, tr, tc)) tbl)
  (tiles : k.tiles = some t :: ts)
include hk tiles

theorem startCmd_ldst_held (hf : s.fetchFor core k .wbuf woff (weightBytes wf) (t.at tr tc) = none) : s.startCmd core k = none := by
  unfold State.fetchFor at hf
  unfold State.startCmd
  simp only [hk, tiles, hf, Option.map_none]

theorem startCmd_ldst_fetched {u : State} (hf : s.fetchFor core k .wbuf woff (weightBytes wf) (t.at tr tc) = some (u, .done)) :
    s.startCmd core k = some (u.modCmd core k.id fun j => { j with started := true }) := by
  unfold State.fetchFor at hf
  unfold State.startCmd
  simp only [hk, tiles, hf, Option.map_some]

theorem startCmd_ldst_fault {u : State} {code : Nat}
    (hf : s.fetchFor core k .wbuf woff (weightBytes wf) (t.at tr tc) = some (u, .fault code)) :
    s.startCmd core k = some (u.modCmd core k.id (Cmd.stopWith stFault)) := by
  unfold State.fetchFor at hf
  unfold State.startCmd
  simp only [hk, tiles, hf, Option.map_some]

end Ldst

section Mstream
variable {arr aoff coff af kk m astr : Nat} {g : Gang}

/-- The format of a plane where the planes of its gang are known. -/
theorem planeFmt_of {t : State} (h : (t.gang? k.gang).map Gang.planes = some g.planes) :
    ((t.gang? k.gang).map fun g => (g.plane k.pos arr false).fmt).getD 0 = (g.plane k.pos arr false).fmt := by
  obtain ⟨g', hg, same⟩ := Option.map_eq_some_iff.mp h
  rw [hg]
  unfold Gang.plane
  rw [Option.map_some, same]
  rfl

/-- A stream whose pair of formats is legal starts; another halts. -/
def State.streamStart (t : State) (core : Nat) (k : Cmd) (legal : Bool) : State :=
  if legal then t.modCmd core k.id fun j => { j with started := true } else t.modCmd core k.id (Cmd.stopWith stPair)

theorem startCmd_mstream_resident (hk : k.kind = .mstream arr aoff coff af kk m astr none) (hg : s.gang? k.gang = some g) :
    s.startCmd core k = some (s.streamStart core k (pairOk af (g.plane k.pos arr false).fmt)) := by
  unfold State.startCmd
  simp only [hk, Option.map_some, planeFmt_of (t := s) (g := g) (by rw [hg]; rfl)]
  rfl

variable {th tr tc : Nat} {t : Tile} {ts : List (Option Tile)} (hk : k.kind = .mstream arr aoff coff af kk m astr (some (th, tr, tc)))
  (tiles : k.tiles = some t :: ts)
include hk tiles

theorem startCmd_mstream_fetched {u : State} (hf : s.fetchFor core k .abuf aoff (m * astr) (t.at tr tc) = some (u, .done))
    (planes : (u.gang? k.gang).map Gang.planes = some g.planes) :
    s.startCmd core k = some (u.streamStart core k (pairOk af (g.plane k.pos arr false).fmt)) := by
  unfold State.fetchFor at hf
  unfold State.startCmd
  simp only [hk, tiles, hf, Option.map_some, planeFmt_of planes]
  rfl

theorem startCmd_mstream_fault {u : State} {code : Nat}
    (hf : s.fetchFor core k .abuf aoff (m * astr) (t.at tr tc) = some (u, .fault code)) :
    s.startCmd core k = some (u.modCmd core k.id (Cmd.stopWith stFault)) := by
  unfold State.fetchFor at hf
  unfold State.startCmd
  simp only [hk, tiles, hf, Option.map_some]

end Mstream

/-- A fetch whose rows are found and free. -/
theorem fetchFor_found {b : Buf} {off len : Nat} {va : DWord} {s1 : State} {xs : List Xlat} {r : Pass}
    (there : s.cmd? core k.id = some k) (lost : s.linkLost = false) (pass : s.tilePass core k len va = (s1, xs, r))
    (free : ∀ y ∈ xs, s1.reachHeld (core / 40) .any y.key = false) :
    ∃ t, s.fetchFor core k b off len va = some (t, r) ∧ TileFetched s s1 t core k.id k ⟨k.gang, k.pos, core, b⟩ off xs :=
  fetchTile_found (o := k.origin core) (tenant := s.cmdTenant k.gang) (p := ⟨k.gang, k.pos, core, b⟩) rfl pass lost free there

theorem fetchFor_held {b : Buf} {off len : Nat} {va : DWord} {s1 : State} {xs : List Xlat} {r : Pass}
    (pass : s.tilePass core k len va = (s1, xs, r)) (held : ∃ y ∈ xs, s1.reachHeld (core / 40) .any y.key = true) :
    s.fetchFor core k b off len va = none := fetchTile_held rfl pass held

/-- What a fetch brings stays as the command then starts or halts. -/
theorem TileFetched.modCmd {s1 t : State} {p : BufAt} {off : Nat} {xs : List Xlat} (h : TileFetched s s1 t core k.id k p off xs)
    (f : Cmd → Cmd) :
    (∀ q o, (t.modCmd core k.id f).bufByte q o =
        (s1.bufWrite p (cellsAt off (s1.gather 32 (xs.map Xlat.key)))).bufByte q o) ∧
      ((s.gang? p.gang).isSome = true → ∀ (i : Nat) (a : Xlat), xs[i]? = some a →
        (t.modCmd core k.id f).bufMarked p (off / 32 + i) = s.marked a.key 32) :=
  ⟨fun q o => ((KeepsBufs.modCmd ..).buffers.bufByte q o).trans (h.bytes q o),
    fun hg i a ha => ((KeepsBufs.modCmd ..).bufMarked ..).trans (h.marks hg i a ha)⟩

theorem CmdStands.stream {t : State} (h : CmdStands s t core k.id k) (legal : Bool) : CmdStands s (t.streamStart core k legal) core k.id
    (if legal then { k with started := true } else { k with started := true, halted := true, status := k.status ||| 0x40#32 }) := by
  cases legal with
  | true => exact h.run
  | false => exact h.stop stPair

end Start

/-- R120, R129, R130, R248, R249, R256, R258, R262, R323. -/
theorem commandsStart_claim : Sys2Proof.Claim.CommandsStart := by
  intro s core cmd k x hk held may free hx quiet go became tile fetched fault
  obtain rfl := State.cmd?_id hk
  have ready : CmdReady s core k x := ⟨hk, held, may, free, hx, quiet⟩
  have stands := CmdStands.refl hk
  refine ⟨fun e he fresh meets => ?_, fun passes => ?_⟩
  · obtain ⟨r, report, named⟩ := (s.modCmd core k.id fun j => { j with held := true }).reportHeld_reports x k.seq
      (engineId e.1 core e.2)
    have marked : CmdStands s (s.modCmd core k.id fun j => { j with held := true }) core k.id { k with held := true } :=
      stands.modCmd fun _ => rfl
    exact ⟨_, execCommandStart_breaks ready he fresh meets, marked.became, r, report, named⟩
  have runs := execCommandStart_goes ready passes
  have starts : ∀ {u}, s.startCmd core k = some u → exec (.commandStart core k.id) s = .next u := fun h => by
    rw [runs, h]
    rfl
  refine ⟨fun hl hm hc => ⟨_, starts (startCmd_plain hl hm hc), stands.run.became, rfl⟩, ?_, ?_, ?_⟩
  · intro a woff wf use tbl kind
    refine ⟨fun none => ?_, fun th tr tc t ts s1 xs some_ tiles lost => ⟨fun pass free => ?_, fun code pass free => ?_, fun r pass held => ?_⟩⟩
    · subst none
      exact ⟨_, starts (startCmd_ldst_resident kind), stands.run.became, rfl⟩
    all_goals subst some_
    · obtain ⟨u, hf, got⟩ := fetchFor_found (b := .wbuf) (off := woff) hk lost pass free
      exact ⟨_, starts (startCmd_ldst_fetched kind tiles hf), got.stands.run.became, got.modCmd _⟩
    · obtain ⟨u, hf, got⟩ := fetchFor_found (b := .wbuf) (off := woff) hk lost pass free
      exact ⟨_, starts (startCmd_ldst_fault kind tiles hf), (got.stands.stop stFault).became⟩
    · rw [runs, startCmd_ldst_held kind tiles (fetchFor_held pass held)]
      rfl
  · intro arr aoff coff af kk m astr kind g hg
    have started := starts (startCmd_mstream_resident kind hg)
    refine ⟨fun legal => ?_, fun wrong => ?_⟩
    · rw [legal] at started
      exact ⟨_, started, stands.run.became, rfl⟩
    · rw [wrong] at started
      exact ⟨_, started, (stands.stop stPair).became, rfl⟩
  · intro arr aoff coff af kk m astr th tr tc t ts s1 xs g kind tiles hg lost free
    refine ⟨fun pass => ?_, fun code pass => ?_⟩
    · obtain ⟨u, hf, got⟩ := fetchFor_found (b := .abuf) (off := aoff) hk lost pass free
      have planes : (u.gang? k.gang).map Gang.planes = some g.planes := by rw [got.planes, hg]; rfl
      refine ⟨_, starts (startCmd_mstream_fetched kind tiles hf planes), ?_, (got.stands.stream _).became⟩
      unfold State.streamStart
      split
      · exact got.modCmd _
      · exact got.modCmd _
    · obtain ⟨u, hf, got⟩ := fetchFor_found (b := .abuf) (off := aoff) hk lost pass free
      exact ⟨_, starts (startCmd_mstream_fault kind tiles hf), (got.stands.stop stFault).became⟩

/-! ## `chain.cfg` (R267) -/

section Config
variable {s : State} {core : Nat} {k : Cmd} {x : Agent} {prog : DWord} {nsteps boff cap bc mb : Nat}

/-- The context set, and nothing left to do. -/
def State.setContext (t : State) (core : Nat) (k : Cmd) (c : ChainCtx) : State :=
  (t.modAgent k.agent (Agent.mapEng fun e => { e with chain := some c })).modCmd core k.id (Cmd.stopWith 0#32)

theorem startCmd_chainCfg {mode : Nat} (hk : k.kind = .chainCfg prog mode nsteps boff cap bc mb) :
    s.startCmd core k = some (s.chainConfig core k prog mode nsteps boff cap bc mb) := by
  unfold State.startCmd
  rw [hk]

theorem chainConfig_zero : s.chainConfig core k prog 0 nsteps boff cap bc mb =
    (s.bufWrite ⟨k.gang, k.pos, core, .cbuf⟩ (cellsAt boff (leBytes 4 0x3F800000))).setContext core k ⟨prog, nsteps, boff, cap, 1, 1⟩ := by
  unfold State.chainConfig
  rfl

theorem chainConfig_one : s.chainConfig core k prog 1 nsteps boff cap bc mb = s.setContext core k ⟨prog, nsteps, boff, cap, mb, bc⟩ := by
  unfold State.chainConfig
  rfl

theorem chainConfig_move {mode : Nat} (hm : 2 ≤ mode) {c : ChainCtx} (hx : s.agent? k.agent = some x) (hc : x.eng.chain = some c) :
    s.chainConfig core k prog mode nsteps boff cap bc mb =
      if c.rows * c.cols > cap then s.modCmd core k.id (Cmd.stopWith stCovf)
      else (s.moveBoundary ⟨k.gang, k.pos, core, .cbuf⟩ c.boff boff (c.rows * c.cols)).setContext core k
        ⟨prog, nsteps, boff, cap, c.rows, c.cols⟩ := by
  obtain ⟨n, rfl⟩ := Nat.exists_eq_add_of_le' hm
  unfold State.chainConfig
  rw [hx, Option.bind_some, hc]
  rfl

/-- What a context set leaves, where nothing but buffers had changed before. -/
theorem setContext_spec {t : State} (h : CmdStands s t core k.id k) (hx : s.agent? k.agent = some x) (c : ChainCtx) :
    (SameBytes s (t.setContext core k c) ∧ (t.setContext core k c).cmd? core k.id =
        some { k with started := true, halted := true, status := k.status ||| 0#32 } ∧
      (∀ n, n ≠ k.agent → (t.setContext core k c).agent? n = s.agent? n) ∧
      (t.setContext core k c).agent? k.agent = some { x with eng := { x.eng with chain := some c } }) ∧
    (t.setContext core k c).gangs = t.gangs ∧ ∀ q off, (t.setContext core k c).bufByte q off = t.bufByte q off := by
  obtain ⟨bytes, agents, cmd⟩ := h
  have there : t.agent? k.agent = some x := (congrArg (kget · k.agent) agents).trans hx
  refine ⟨⟨bytes, ?_, fun n hn => ?_, ?_⟩, rfl, (KeepsBufs.modCmd ..).buffers.bufByte⟩
  · refine (State.cmd?_modCmd _ core k.id ?_).trans (congrArg _ cmd)
    exact fun _ => rfl
  · exact (State.agent?_modAgent ..).trans ((if_neg (Ne.symm hn)).trans (congrArg (kget · n) agents))
  · exact (State.agent?_modAgent ..).trans ((if_pos rfl).trans (congrArg _ there))

theorem CmdStands.written (there : s.cmd? core k.id = some k) (p : BufAt) (cells : List (Nat × Byte)) :
    CmdStands s (s.bufWrite p cells) core k.id k := (CmdStands.refl there).inBufs (InBufs.write ..) (s.bufWrite_beside p core cells)

/-- A boundary moved: its bytes are written, and marks set after them. -/
theorem moveBoundary_spec (there : s.cmd? core k.id = some k) (p : BufAt) (src dst n : Nat) :
    CmdStands s (s.moveBoundary p src dst n) core k.id k ∧
      ∀ q off, (s.moveBoundary p src dst n).bufByte q off = (s.bufWrite p (cellsAt dst (s.bufBytes p src (4 * n)))).bufByte q off := by
  unfold State.moveBoundary
  refine ⟨(CmdStands.written there ..).inBufs (.foldl _ (fun t e => ?_) _ _)
    (foldl_keeps (fun t : State => (t.core core).beside) _ (fun t e => ?_) _ _),
    (SameBuffers.foldl _ (fun t e => ?_) _ _).bufByte⟩
  · split
    · exact .mark ..
    · exact .refl _
  · split
    · exact State.setBufMark_beside ..
    · rfl
  · split
    · exact .setBufMark ..
    · exact .refl _

end Config

/-- R267. -/
theorem chainConfigSetsTheContext : Sys2Proof.Claim.ChainConfigSetsTheContext := by
  intro s core cmd k x prog mode nsteps boff cap bc mb hk held may free hx quiet kind passes cb context
  obtain rfl := State.cmd?_id hk
  have ready : CmdReady s core k x := ⟨hk, held, may, free, hx, quiet⟩
  have engine : k.kind.engine = some (5, 0) := by rw [kind]; rfl
  have runs := execCommandStart_goes ready fun e he => by
    obtain rfl := Option.some.inj (engine.symm.trans he)
    exact passes
  rw [startCmd_chainCfg kind] at runs
  refine ⟨?_, ?_, fun moves c hc => ⟨fun large => ?_, fun fits => ?_⟩⟩
  · rintro rfl
    rw [chainConfig_zero] at runs
    obtain ⟨set, -, buf⟩ := setContext_spec (CmdStands.written hk cb (cellsAt boff (leBytes 4 0x3F800000))) hx
      ⟨prog, nsteps, boff, cap, 1, 1⟩
    exact ⟨_, runs, set, buf⟩
  · rintro rfl
    rw [chainConfig_one] at runs
    obtain ⟨set, gangs, -⟩ := setContext_spec (CmdStands.refl hk) hx ⟨prog, nsteps, boff, cap, mb, bc⟩
    exact ⟨_, runs, set, gangs⟩
  · rw [chainConfig_move moves hx hc, if_pos large] at runs
    obtain ⟨bytes, agents, cmd⟩ := (CmdStands.refl hk).stop stCovf
    exact ⟨_, runs, bytes, agents, rfl, cmd⟩
  · rw [chainConfig_move moves hx hc, if_neg (Nat.not_lt.mpr fits)] at runs
    obtain ⟨stands, moved⟩ := moveBoundary_spec hk cb c.boff boff (c.rows * c.cols)
    obtain ⟨set, -, buf⟩ := setContext_spec stands hx ⟨prog, nsteps, boff, cap, c.rows, c.cols⟩
    exact ⟨_, runs, set, fun q off => (buf q off).trans (moved q off)⟩

/-- Settles O30: what a kind of command does first, and the three modes of a context. -/
theorem commandsStart : Obligations.CommandsStart := ⟨commandsStart_claim, chainConfigSetsTheContext⟩

end Sys2Proof.Machine
end

section
/-! PROOF of `OutsideAccessesPerform` (O50): an access of the host or of a peer is a read, or one
write byte by byte, at its home. -/

namespace Sys2Proof.Machine

open Sys2Proof.Claim

/-! ## The locations of an access -/

/-- The locations of so many bytes from an address on, with what the access holds for each. -/
def outsideCells (pa n : Nat) (b : List Byte) : List (Nat × Byte) :=
  (List.range n).filterMap fun i => (devKey (pa + i)).map fun k => (k, b.getD i 0#8)

/-- A write in pieces of one byte. -/
theorem pieceCells_bytes (keys : List Nat) (data : List Byte) (h : data.length = keys.length) (n : Nat) (before : List Byte)
    (hn : before.length = n) : ((keys.map plainXlat).zipIdx n).flatMap (fun e => cellsAt e.1.key
      (((before ++ data).drop (e.2 * 1)).take 1)) = keys.zip data := by
  induction keys generalizing data n before with
  | nil => rfl
  | cons k t ih =>
    cases data with
    | nil => cases h
    | cons b l =>
      have here : ((before ++ b :: l).drop (n * 1)).take 1 = [b] := by
        rw [Nat.mul_one, ← hn, List.drop_left]
        rfl
      have rest := ih l (Nat.succ.inj h) (n + 1) (before ++ [b]) (by rw [List.length_append, hn]; rfl)
      rw [List.append_assoc, List.singleton_append] at rest
      rw [List.map_cons, List.zipIdx_cons, List.flatMap_cons, rest, here]
      rfl

/-- The addresses that stand for memory, and the bytes that go to them. -/
theorem outside_zip (f : Nat → Option Nat) (as : List Nat) (b : List Byte) (h : b.length = as.length) :
    (as.filterMap f).length = ((as.zip b).filterMap fun e => (f e.1).map fun _ => e.2).length ∧
      (as.filterMap f).zip ((as.zip b).filterMap fun e => (f e.1).map fun _ => e.2) =
        (as.zip b).filterMap fun e => (f e.1).map fun k => (k, e.2) := by
  induction as generalizing b with
  | nil => exact ⟨rfl, rfl⟩
  | cons a t ih =>
    cases b with
    | nil => cases h
    | cons x l =>
      obtain ⟨len, zip⟩ := ih l (Nat.succ.inj h)
      rw [List.zip_cons_cons]
      cases hf : f a with
      | none =>
        simp only [List.filterMap_cons, hf, Option.map_none]
        exact ⟨len, zip⟩
      | some k =>
        simp only [List.filterMap_cons, hf, Option.map_some, List.zip_cons_cons, List.length_cons]
        exact ⟨congrArg (· + 1) len, congrArg ((k, x) :: ·) zip⟩

theorem outsideKey_device {pa : Nat} (h : pa < 18446744073709551616) : outsideKey pa = devKey pa := if_neg (Nat.not_le.mpr h)

section Outside
variable {s : State} {pa : Nat} {acc : PeerAcc}

/-- The addresses of an access. -/
def accAddrs (pa : Nat) (acc : PeerAcc) : List Nat := (List.range (PeerAcc.width acc)).map fun i => pa + i

theorem accKeys_device (fits : pa + PeerAcc.width acc ≤ 18446744073709551616) :
    (accAddrs pa acc).filterMap outsideKey = (accAddrs pa acc).filterMap devKey := by
  refine List.filterMap_congr fun a ha => ?_
  obtain ⟨i, hi, rfl⟩ := List.mem_map.mp ha
  exact outsideKey_device (lt_of_lt_of_le (Nat.add_lt_add_left (List.mem_range.mp hi) pa) fits)

/-- One location of an access lies in a line that an engine owns. -/
def State.outsideHeld (s : State) (pa : Nat) (acc : PeerAcc) : Bool :=
  ((accAddrs pa acc).filterMap outsideKey).any (s.ownedLine .any)

theorem State.outsideHeld_iff (fits : pa + PeerAcc.width acc ≤ 18446744073709551616) : s.outsideHeld pa acc = true ↔
    ∃ i k, i < PeerAcc.width acc ∧ devKey (pa + i) = some k ∧ s.ownedLine .any k = true := by
  unfold State.outsideHeld
  rw [accKeys_device fits, List.any_eq_true]
  constructor
  · rintro ⟨k, hk, owned⟩
    obtain ⟨a, ha, at_⟩ := List.mem_filterMap.mp hk
    obtain ⟨i, hi, rfl⟩ := List.mem_map.mp ha
    exact ⟨i, k, List.mem_range.mp hi, at_, owned⟩
  · rintro ⟨i, k, hi, at_, owned⟩
    exact ⟨k, List.mem_filterMap.mpr ⟨pa + i, List.mem_map_of_mem (List.mem_range.mpr hi), at_⟩, owned⟩

/-- The origin of accesses from outside, and the die of the first location. -/
def outsideOrigin : Origin := ⟨1, 64, 0, false⟩
def accDie (pa : Nat) (acc : PeerAcc) : Nat := homeDie (((accAddrs pa acc).filterMap outsideKey).headD 0) % 4

/-- Bytes written at the locations of an access. -/
def State.outsidePut (s : State) (pa : Nat) (acc : PeerAcc) (b : List Byte) : State :=
  s.engineWriteAt outsideOrigin (accDie pa acc) 1 (((accAddrs pa acc).filterMap outsideKey).map plainXlat)
    (((accAddrs pa acc).zip b).filterMap fun e => (outsideKey e.1).map fun _ => e.2)

theorem State.outsidePut_byte (fits : pa + PeerAcc.width acc ≤ 18446744073709551616) {b : List Byte}
    (hb : b.length = PeerAcc.width acc) (a : Nat) :
    (s.outsidePut pa acc b).byte a = (s.write (outsideCells pa (PeerAcc.width acc) b)).byte a := by
  have cells : pieceCells 1 (((accAddrs pa acc).filterMap outsideKey).map plainXlat)
      (((accAddrs pa acc).zip b).filterMap fun e => (outsideKey e.1).map fun _ => e.2) = outsideCells pa (PeerAcc.width acc) b := by
    obtain ⟨len, zip⟩ := outside_zip outsideKey (accAddrs pa acc) b (by unfold accAddrs; simpa using hb)
    refine (pieceCells_bytes _ _ len.symm 0 [] rfl).trans (zip.trans ?_)
    have pairs : (accAddrs pa acc).zip b = (List.range (PeerAcc.width acc)).map fun i => (pa + i, b.getD i 0#8) := by
      unfold accAddrs
      refine List.ext_getElem (by simp [hb]) fun i h1 h2 => ?_
      have hi : i < b.length := (List.length_zip ▸ h1).trans_le (Nat.min_le_right ..)
      rw [List.getElem_zip, List.getElem_map, List.getElem_map, List.getElem_range, List.getD_eq_getElem _ _ hi]
    rw [pairs, List.filterMap_map]
    refine List.filterMap_congr fun i hi => ?_
    rw [Function.comp_apply, outsideKey_device (lt_of_lt_of_le (Nat.add_lt_add_left (List.mem_range.mp hi) pa) fits)]
  unfold State.outsidePut
  rw [engineWriteAt_byte, cells]

/-! ## The access (R128, R347) -/

theorem outsideAccess_held (held : s.outsideHeld pa acc = true) : exec (.hostMemAccess pa acc) s = .next s := by
  show s.outsideAccess pa acc = _
  unfold State.outsideAccess
  exact if_pos held

theorem outsideAccess_free (free : s.outsideHeld pa acc = false) : exec (.hostMemAccess pa acc) s = .next (match acc with
    | .read _ => s.homeReads outsideOrigin (accDie pa acc) (((accAddrs pa acc).filterMap outsideKey).map fun k => (plainXlat k, 1))
    | .write b => s.outsidePut pa acc b
    | .atomic op k x y => s.outsidePut pa acc (leBytes (AKind.bytes k) (atomNew op k
        (BitVec.ofNat 64 (leVal ((accAddrs pa acc).map s.outsideByte))) (atomOperand k x) (atomOperand k y)).toNat)) := by
  show s.outsideAccess pa acc = _
  unfold State.outsideAccess
  refine (if_neg (Bool.eq_false_iff.mp free)).trans ?_
  cases acc with
  | read _ => rfl
  | write _ => rfl
  | atomic _ _ _ _ => rfl

end Outside

/-- R128, R317, R347, R356, R357, R362. -/
theorem outsideAccessesPerform : Sys2Proof.Claim.OutsideAccessesPerform := by
  refine ⟨fun s pa acc fits => ?_, fun s dev pa acc => ⟨fun below admitted => ?_, fun refused => ?_⟩⟩
  · intro cells held
    refine ⟨fun h => outsideAccess_held ((State.outsideHeld_iff fits).mpr h), fun h => ?_⟩
    have runs := outsideAccess_free (Bool.eq_false_iff.mpr fun c => h ((State.outsideHeld_iff fits).mp c))
    refine ⟨?_, ?_, ?_⟩
    · rintro n rfl
      have asked := SameButHomes.homeReads s outsideOrigin (accDie pa (.read n))
        (((accAddrs pa (.read n)).filterMap outsideKey).map fun k => (plainXlat k, 1))
      exact ⟨_, runs, asked.bytes, asked.agents⟩
    · rintro b rfl
      exact ⟨_, runs, State.outsidePut_byte fits rfl⟩
    · rintro op k x y rfl
      intro old
      have old_ : (accAddrs pa (.atomic op k x y)).map s.outsideByte =
          (List.range (AKind.bytes k)).map fun i => s.outsideByte (pa + i) := List.map_map ..
      rw [old_] at runs
      exact ⟨_, runs, State.outsidePut_byte fits (leBytes_length ..)⟩
  · show execPeerAccess dev pa acc s = _
    unfold execPeerAccess
    rw [admitted, decide_eq_true below]
    rfl
  · show execPeerAccess dev pa acc s = _
    unfold execPeerAccess
    refine if_neg ?_
    rw [Bool.and_eq_true, decide_eq_true_eq]
    rintro ⟨below, admitted⟩
    rcases refused with h | h
    · omega
    · rw [h] at admitted; cases admitted

end Sys2Proof.Machine
end

section
/-! PROOF of `LostAccessesEnd` (O50): what becomes of a lane, a copy, a fetch or a completion word that the link loses. -/

namespace Sys2Proof.Machine

open Sys2Proof.Claim

/-! ## LINKERR (R357) -/

section LinkError
variable (s : State) (t : Nat)

theorem State.linkError_only : ∃ ts, s.linkError t = { s with tenants := ts } := by
  unfold State.linkError
  split
  · exact ⟨_, rfl⟩
  · exact ⟨_, rfl⟩

theorem State.linkError_linkerr : ((s.linkError t).tenant t).linkerr = true := by
  unfold State.linkError
  split
  · assumption
  · unfold State.irq
    rw [State.tenant_modTenant, if_pos rfl, State.tenant_modTenant, if_pos rfl]

theorem State.linkError_agents : (s.linkError t).agents = s.agents := by
  obtain ⟨_, h⟩ := s.linkError_only t
  rw [h]

theorem State.linkError_bytes : SameBytes s (s.linkError t) := by
  obtain ⟨_, h⟩ := s.linkError_only t
  rw [h]
  exact fun _ => rfl

theorem State.linkError_keepsBufs : KeepsBufs s (s.linkError t) := by
  obtain ⟨_, h⟩ := s.linkError_only t
  rw [h]
  exact ⟨rfl, fun _ => ⟨rfl, rfl⟩⟩

theorem State.linkGone_only (n : Nat) : ∃ ts, s.linkGone t n = { s with linkLost := false, free := s.free + n, tenants := ts } :=
  State.linkError_only { s with linkLost := false, free := s.free + n } t

theorem State.linkGone_linkerr (n : Nat) : ((s.linkGone t n).tenant t).linkerr = true := State.linkError_linkerr ..

end LinkError

/-- A copy's end is seen in its core and its agents, which an error of the link leaves. -/
theorem copyEnds_linkError {s u : State} {core : Nat} {k : Copy} {status info : Nat} (h : CopyEnds s u core k status info) (t : Nat) :
    CopyEnds s (u.linkError t) core k status info := by
  obtain ⟨_, e⟩ := u.linkError_only t
  rw [e]
  exact h

/-! ## Lanes of a load, a store or an atomic -/

/-- A lane that the link has lost: it is over, with a free value that is marked. -/
def lostLane (s : State) (l : LaneOp) : LaneOp := { l with st := .done, val := Config.freeDWord s.free, mark := true }

/-- The lanes of a number become what the lost one is. -/
def loseLane (s : State) (lane : Nat) (l : LaneOp) : MemOp → MemOp := MemOp.mapLanes (fun q => q.lane == lane) fun _ => lostLane s l

section Lanes
variable {s : State} {a id lane : Nat} {x : Agent} {p : Place} {o : MemOp} {l : LaneOp}
variable (ho : s.op? a id = some (x, p, o))
include ho

/-- The state in which the lane is lost, before what follows. -/
theorem State.laneLost_performed : LanesPerformed s.tick (s.tick.modOp a id (loseLane s lane l)) a id x
    (x.mapFlight (Flight.modOp id (loseLane s lane l))) p (loseLane s lane l o)
    (x.flight.ops.map fun q => if q.id = id then loseLane s lane l q else q) := by
  have there : s.tick.op? a id = some (x, p, o) := (State.op?_congr rfl a id).trans ho
  obtain ⟨hx, -, -, -⟩ := State.op?_spec there
  obtain ⟨-, -, others⟩ := AgentBecomes.mod hx (Agent.mapFlight (Flight.modOp id (loseLane s lane l)))
  exact ⟨State.op?_mod there _ fun _ => rfl, ⟨x.ctl, x.sys.frame, rfl⟩, fun q hq => congrArg (Option.map Agent.regs) (others q hq),
    rfl, rfl, rfl⟩

theorem execLinkDeliveryFailure_lane (hid : id ≠ 0) (ha : a ≠ 0)
    (hl : o.lanes.find? (fun l => l.lane == lane && l.onLink) = some l) (sent : o.isPlainStore = true → l.st.isDrained = true) :
    exec (.linkDeliveryFailure a id lane) s = .next ((if o.isAtomic then (s.tick.modOp a id (loseLane s lane l)).afterAtom a p o
      else if o.isLoad then (s.tick.modOp a id (loseLane s lane l)).completeRead a id p.core
      else (s.tick.modOp a id (loseLane s lane l)).tidy a).linkError x.ident.tenant) := by
  obtain ⟨hx, -, -, -⟩ := State.op?_spec ho
  have goes : (o.isPlainStore && !l.st.isDrained) = false := by
    cases h : o.isPlainStore with
    | false => rfl
    | true => rw [sent h]; rfl
  show execLinkDeliveryFailure a id lane s = _
  unfold execLinkDeliveryFailure
  simp only [hx, ho, hl, if_neg ha, if_neg hid, goes, Bool.false_eq_true, if_false]
  rfl

/-- A lost lane of a load or of an `atom`: its instruction completes where no lane is left. -/
theorem lostRead_spec (hid : id ≠ 0) (ha : a ≠ 0) (hl : o.lanes.find? (fun l => l.lane == lane && l.onLink) = some l)
    (reads : o.isLoad = true ∨ ∃ b1 b2, o.kind = .atom b1 b2) :
    ∃ u y, exec (.linkDeliveryFailure a id lane) s = .next u ∧ (o.sampled = false → SameBytes s u) ∧ u.agent? a = some y ∧
      (u.tenant x.ident.tenant).linkerr = true ∧ ((loseLane s lane l o).undone = true → y.regs = x.regs ∧
        y.flight.ops = x.flight.ops.map fun q => if q.id = id then loseLane s lane l q else q) ∧
      ((loseLane s lane l o).undone = false →
        Delivered id o.dst (o.width == 8) (doneLanes (loseLane s lane l o)) (laneMarks (loseLane s lane l o))
          (laneValues (loseLane s lane l o)) (scalarValue { s with free := s.free + 1 } (loseLane s lane l o)) x y) := by
  obtain ⟨-, -, -, number⟩ := State.op?_spec ho
  have performed := State.laneLost_performed (lane := lane) (l := l) ho
  obtain ⟨hx1, -, -, -⟩ := State.op?_spec performed.op
  have notStore : o.isPlainStore = false := by
    rcases reads with h | ⟨b1, b2, h⟩
    · unfold MemOp.isLoad at h
      unfold MemOp.isPlainStore
      split at h
      · next e => rw [e]
      · cases h
    · unfold MemOp.isPlainStore; rw [h]
  have runs := execLinkDeliveryFailure_lane ho hid ha hl fun h => by rw [notStore] at h; cases h
  have completes : (if o.isAtomic then (s.tick.modOp a id (loseLane s lane l)).afterAtom a p o
      else if o.isLoad then (s.tick.modOp a id (loseLane s lane l)).completeRead a id p.core
      else (s.tick.modOp a id (loseLane s lane l)).tidy a) =
        (s.tick.modOp a id (loseLane s lane l)).completeRead a id p.core := by
    rcases reads with h | ⟨b1, b2, h⟩
    · have : o.isAtomic = false := by unfold MemOp.isAtomic; rw [h]; rfl
      rw [this, h]
      rfl
    · have : o.isAtomic = true := by unfold MemOp.isAtomic MemOp.isLoad MemOp.isPlainStore MemOp.isFlush; rw [h]; rfl
      rw [this, if_pos rfl]
      unfold State.afterAtom
      rw [h, number]
  rw [completes] at runs
  have agents : ∀ v : State, (v.linkError x.ident.tenant).agent? a = v.agent? a := fun v =>
    congrArg (kget · a) (v.linkError_agents x.ident.tenant)
  cases hu : (loseLane s lane l o).undone with
  | true =>
    rw [State.completeRead_open performed.op hu] at runs
    exact ⟨_, _, runs, fun _ k => State.linkError_bytes _ _ k, (agents _).trans hx1, State.linkError_linkerr .., fun _ => ⟨rfl, rfl⟩,
      fun c => (nomatch c)⟩
  | false =>
    obtain ⟨y, here, delivered, -, plain, -⟩ := State.completeRead_done (core := p.core) performed.op hu
    refine ⟨_, y, runs, fun quiet k => ?_, (agents _).trans here, State.linkError_linkerr .., fun c => (nomatch c), fun _ => ?_⟩
    · exact (State.linkError_bytes _ _ k).trans (plain quiet k)
    · exact Delivered.of_flight rfl delivered

/-- A lost lane of a store or of a non-returning reduction is dropped. -/
theorem lostWrite_spec (hid : id ≠ 0) (ha : a ≠ 0) (hl : o.lanes.find? (fun l => l.lane == lane && l.onLink) = some l)
    (writes : (o.isPlainStore = true ∧ l.st.isDrained = true) ∨ ∃ b1 b2, o.kind = .red b1 b2) :
    ∃ u y, exec (.linkDeliveryFailure a id lane) s = .next u ∧ SameBytes s u ∧ u.agent? a = some y ∧
      (u.tenant x.ident.tenant).linkerr = true ∧ y.regs = x.regs ∧ y.ctl = x.ctl ∧
      y.flight.ops = (x.flight.ops.map fun q => if q.id = id then loseLane s lane l q else q).filter (fun q => !q.finished) ∧
      ∀ die sc, u.laneAcked die sc (lostLane s l) = true := by
  have performed := State.laneLost_performed (lane := lane) (l := l) ho
  obtain ⟨hx1, -, -, -⟩ := State.op?_spec performed.op
  have sent : o.isPlainStore = true → l.st.isDrained = true := fun h => by
    rcases writes with ⟨-, h⟩ | ⟨b1, b2, k⟩
    · exact h
    · unfold MemOp.isPlainStore at h; rw [k] at h; cases h
  have runs := execLinkDeliveryFailure_lane ho hid ha hl sent
  have tidies : (if o.isAtomic then (s.tick.modOp a id (loseLane s lane l)).afterAtom a p o
      else if o.isLoad then (s.tick.modOp a id (loseLane s lane l)).completeRead a id p.core
      else (s.tick.modOp a id (loseLane s lane l)).tidy a) = (s.tick.modOp a id (loseLane s lane l)).tidy a := by
    rcases writes with ⟨h, -⟩ | ⟨b1, b2, h⟩
    · have load : o.isLoad = false := by
        unfold MemOp.isPlainStore at h
        unfold MemOp.isLoad
        split at h
        · next e => rw [e]
        · cases h
      have atomic : o.isAtomic = false := by unfold MemOp.isAtomic; rw [h, load]; rfl
      rw [atomic, load]
      rfl
    · have : o.isAtomic = true := by unfold MemOp.isAtomic MemOp.isLoad MemOp.isPlainStore MemOp.isFlush; rw [h]; rfl
      rw [this, if_pos rfl]
      unfold State.afterAtom
      rw [h]
  rw [tidies] at runs
  have here := (AgentBecomes.mod hx1 (Agent.mapFlight Flight.tidy)).agent
  have peer : l.loc.map (fun x => x.tier == 3) = some true := by
    have found := List.find?_some hl
    unfold LaneOp.onLink at found
    simp only [Bool.and_eq_true] at found
    obtain ⟨-, tier, -⟩ := found
    cases loc : l.loc with
    | none => rw [loc] at tier; cases tier
    | some y => rw [loc] at tier; exact congrArg some tier
  refine ⟨_, _, runs, fun k => State.linkError_bytes _ _ k, (congrArg (kget · a) (State.linkError_agents ..)).trans here,
    State.linkError_linkerr .., rfl, rfl, rfl, fun die sc => ?_⟩
  obtain ⟨y, loc, tier⟩ := Option.map_eq_some_iff.mp peer
  have other : (y.tier != 2) = true := by
    rw [beq_iff_eq.mp tier]
    rfl
  unfold State.laneAcked lostLane
  cases sc with
  | core => rfl
  | die => rfl
  | device => rfl
  | system =>
    simp only [loc, other]
    rfl

end Lanes

/-! ## Copies -/

section Copies
variable {s : State} {a cmd : Nat} {x : Agent} {k : Copy}

theorem execLinkDeliveryFailure_copy (ha : a ≠ 0) (hx : s.agent? a = some x) (hk : s.copy? x.core cmd = some k) (mine : k.agent = a)
    (runs : k.engine ≠ none) (onLink : s.copyOnLink x.core k = true) :
    exec (.linkDeliveryFailure a 0 cmd) s = .next ((s.copyLost x.core k).linkError x.ident.tenant) := by
  show execLinkDeliveryFailure a 0 cmd s = _
  unfold execLinkDeliveryFailure
  have engine : k.engine.isNone = false := Option.isNone_eq_false_iff.mpr (Option.isSome_iff_ne_none.mpr runs)
  simp only [hx, hk, if_neg ha, mine, engine, onLink, bne_self_eq_false, Bool.not_true, Bool.or_self, Bool.false_eq_true, if_false,
    if_true]

theorem copyLost_out {core : Nat} {cbuf : Bool} (kind : k.kind = .out cbuf) : CopyEnds s (s.copyLost core k) core k 3 k.chunk := by
  unfold State.copyLost
  rw [kind]
  exact copyEnd_ends ⟨rfl, rfl⟩ 3 k.chunk

theorem freeBytes_length (n f : Nat) : (freeBytes f n).length = n := by
  induction n with
  | zero => rfl
  | succ n ih => exact congrArg (· + 1) ih

/-- A chunk into buffers that the link loses leaves poison there. -/
theorem copyLost_in {core : Nat} (kind : ∀ cbuf, k.kind ≠ .out cbuf) : CopyEnds s (s.copyLost core k) core k 3 k.chunk ∧
    ((s.gang? k.gang).isSome = true → ∀ p ∈ s.copyTargets core k, ∀ i, i < min 4096 (k.dstBytes - 4096 * k.chunk) / 32 →
      (s.copyLost core k).bufMarked p ((k.buf + 4096 * k.chunk) / 32 + i) = true) := by
  have lost : s.copyLost core k = State.copyIntoBufs { s with free := s.free + min 4096 (k.dstBytes - 4096 * k.chunk) } core k
      (k.buf + 4096 * k.chunk) (freeBytes s.free (min 4096 (k.dstBytes - 4096 * k.chunk))) 0 true := by
    unfold State.copyLost
    split
    · next h => exact absurd h (kind _)
    · rfl
  rw [lost, State.copyIntoBufs_eq]
  generalize ht : ({ s with free := s.free + min 4096 (k.dstBytes - 4096 * k.chunk) } : State) = t
  have agents : t.agents = s.agents := by rw [← ht]
  have cores : t.cores = s.cores := by rw [← ht]
  have gangs : t.gangs = s.gangs := by rw [← ht]
  have copies : (t.core core).copies = (s.core core).copies := by unfold State.core; rw [cores]
  rw [State.copyTargets_congr gangs]
  generalize hd : freeBytes s.free (min 4096 (k.dstBytes - 4096 * k.chunk)) = data
  have len : data.length = min 4096 (k.dstBytes - 4096 * k.chunk) := by rw [← hd, freeBytes_length]
  constructor
  · unfold State.copyStep
    rw [if_pos rfl]
    refine copyEnd_ends ⟨(State.bringAll_inBufs ..).agents.trans agents, ?_⟩ 3 k.chunk
    rw [State.bringAll_copies, copies]
  · intro there p hp i hi
    rw [State.bufMarked_eq, copyStep_slotMark, State.slotMark_bringAll, if_pos]
    refine ⟨⟨p, hp, List.mem_map_of_mem ?_⟩, State.slotThere_of_gang ?_ _⟩
    · rw [mem_rowsOf, len]
      omega
    · rw [State.copyTargets_gang hp]
      unfold State.gang?
      rw [gangs]
      exact there

end Copies

/-! ## Fetches of instructions and of tiles -/

theorem State.loses_peer {s : State} (lost : s.linkLost = true) (x : Xlat) : s.loses x = (x.tier == 3) := by
  unfold State.loses
  rw [lost, Bool.true_and]

theorem mem_foldl_insert {α : Type} [BEq α] [LawfulBEq α] (gs l : List α) (x : α) :
    x ∈ gs.foldl (fun l g => l.insert g) l ↔ x ∈ l ∨ x ∈ gs := by
  induction gs generalizing l with
  | nil => simp
  | cons g t ih => rw [List.foldl_cons, ih, List.mem_insert_iff, List.mem_cons]; tauto

/-- A line of instructions that the link loses comes as poison. -/
theorem codeFill_lost {s : State} (p : Place) (t : Nat) {x : Xlat} (drop : Option Nat) (lost : s.linkLost = true) (peer : x.tier = 3) :
    let u := s.codeFill p t x drop
    SameBytes s u ∧ u.agents = s.agents ∧ u.linkLost = false ∧ (u.tenant t).linkerr = true ∧
      (kget (u.core p.core).icache (iKey p.part (x.key / 128))).isSome = true ∧
      ∀ i, i < 4 → (Sram.icache p.core p.part, 4 * (x.key / 128) + i) ∈ u.device.sramMarks := by
  have loses : s.loses x = true := by rw [State.loses_peer lost, peer]; rfl
  unfold State.codeFill
  rw [if_pos loses]
  generalize hf : s.icacheFill p.core p.part (x.key / 128) drop (BitVec.ofNat 1024 (leVal (freeBytes s.free 128))) = v
  have held : (kget (v.core p.core).icache (iKey p.part (x.key / 128))).isSome = true := by
    rw [← hf]
    unfold State.icacheFill
    rw [State.core_modCore, if_pos rfl, kget_kput_same]
    rfl
  have bytes : SameBytes s v := by rw [← hf]; exact fun _ => rfl
  have agents : v.agents = s.agents := by rw [← hf]; rfl
  have linkerr := v.linkGone_linkerr t 128
  obtain ⟨ts, gone⟩ := v.linkGone_only t 128
  rw [gone] at linkerr ⊢
  refine ⟨bytes, agents, rfl, linkerr, held, fun i hi => ?_⟩
  exact (mem_foldl_insert ..).mpr (.inr (List.mem_map_of_mem (List.mem_range.mpr hi)))

/-- A tile of which the link loses rows comes with poison in their place. -/
theorem fetchTile_lost {s s1 : State} {o : Origin} {tenant off len : Nat} {p : BufAt} {va : DWord} {xs : List Xlat} {r : Pass}
    (pass : locate o.req p.core tenant 32 .read (len / 32) va s = (s1, xs, r))
    (free : ∀ y ∈ xs, s1.reachHeld (dieOfCore p.core) .any y.key = false) (lost : s1.linkLost = true) (peer : ∃ y ∈ xs, y.tier = 3) :
    ∃ u, s.fetchTile o tenant p off len va = some (u, r) ∧ SameBytes s1 u ∧ u.agents = s1.agents ∧ u.linkLost = false ∧
      (u.tenant tenant).linkerr = true ∧ ((s1.gang? p.gang).isSome = true → ∀ (i : Nat) (y : Xlat), xs[i]? = some y →
        u.bufMarked p (off / 32 + i) = (y.tier == 3 || s1.marked y.key 32)) := by
  have held : (xs.map Xlat.key).any (s1.reachHeld (dieOfCore p.core) .any) = false := State.passHeld_false.mpr free
  have any : xs.any s1.loses = true := by
    obtain ⟨y, hy, tier⟩ := peer
    exact List.any_eq_true.mpr ⟨y, hy, by rw [State.loses_peer lost, tier]; rfl⟩
  have asked := SameButHomes.homeReads s1 o (dieOfCore p.core) (xs.map fun x => (x, 32))
  generalize ht : s1.homeReads o (dieOfCore p.core) (xs.map fun x => (x, 32)) = t at asked
  have linkerr := t.linkGone_linkerr tenant len
  obtain ⟨ts, gone⟩ := t.linkGone_only tenant len
  generalize hd : (xs.zipIdx.flatMap fun e =>
    if s1.loses e.1 then freeBytes (s1.free + 32 * e.2) 32 else s1.bytes e.1.key 32) = data
  have brings : InBufs (t.linkGone tenant len) (((t.linkGone tenant len).bufWrite p (cellsAt off data)).markEach p (off / 32)
      (fun y => s1.loses y || s1.marked y.key 32) xs 0) := by
    refine (InBufs.write ..).trans (.foldl _ (fun t e => ?_) _ _)
    exact .mark ..
  have bufs : KeepsBufs s1 (t.linkGone tenant len) := by
    obtain ⟨gangs, ways⟩ := KeepsBufs.homes asked
    rw [gone]
    exact ⟨gangs, ways⟩
  refine ⟨((t.linkGone tenant len).bufWrite p (cellsAt off data)).markEach p (off / 32)
    (fun y => s1.loses y || s1.marked y.key 32) xs 0, ?_, fun k => ?_, ?_, ?_, ?_, fun there i y hy => ?_⟩
  · unfold State.fetchTile State.markEach
    simp only [pass, held, any, ht, hd, Bool.false_eq_true, if_false, if_true]
  · refine (State.byte_congr brings.mem k).trans ?_
    rw [gone]
    exact asked.bytes k
  · rw [brings.agents, gone]
    exact asked.agents
  · obtain ⟨_, _, e⟩ := brings
    rw [e, gone]
  · obtain ⟨_, _, e⟩ := brings
    rw [e]
    exact linkerr
  · have kept : ∀ row, ((t.linkGone tenant len).bufWrite p (cellsAt off data)).slotThere (p.slot row) = true := fun row => by
      rw [State.slotThere_bufWrite, bufs.slotThere]
      exact State.slotThere_of_gang there row
    rw [State.bufMarked_eq]
    refine (State.markEach_at p (off / 32) (fun y => s1.loses y || s1.marked y.key 32) xs 0 _ hy kept).trans ?_
    rw [State.loses_peer lost]

/-! ## Completion words -/

/-- A completion word of a page of a peer that the link loses counts as written. -/
theorem completion_lost {s : State} {lane : Nat} {c : Completion} {x : Xlat} (hc : s.completions[lane]? = some c)
    (aligned : c.addr.toNat % 8 = 0) (place : (s.translateDie c.die c.tenant c.addr .write).2 = .ok x) (peer : x.tier = 3)
    (last : c.count = true → c.launch ≠ 0 → s.launchStores c.launch = false) :
    ∃ u, exec (.linkDeliveryFailure 0 0 lane) s = .next u ∧ SameBytes s u ∧ u.agents = s.agents ∧
      u.completions = s.completions.eraseIdx lane ∧ (u.tenant c.tenant).linkerr = true ∧
      (c.irq = true → 0 ∈ (u.tenant c.tenant).irqs) := by
  have noStores : (c.count && c.launch != 0 && s.launchStores c.launch) = false := by
    by_cases h : c.count = true ∧ c.launch ≠ 0
    · rw [last h.1 h.2, Bool.and_false]
    · have : (c.count && c.launch != 0) = false := by
        rw [← Bool.not_eq_true, Bool.and_eq_true, bne_iff_ne]
        exact h
      rw [this, Bool.false_and]
  have runs : exec (.linkDeliveryFailure 0 0 lane) s = .next (s.completionLost lane) := rfl
  have counts : s.completionLost lane = if c.irq
      then (State.linkError { s with completions := s.completions.eraseIdx lane } c.tenant).irq c.tenant 0
      else State.linkError { s with completions := s.completions.eraseIdx lane } c.tenant := by
    unfold State.completionLost
    simp only [hc, place]
    exact if_pos ⟨peer, aligned, by rw [noStores]; rfl⟩
  generalize hv : ({ s with completions := s.completions.eraseIdx lane } : State) = v at counts
  have linkerr := v.linkError_linkerr c.tenant
  have bytes : SameBytes s (v.linkError c.tenant) := fun k => (v.linkError_bytes c.tenant k).trans (by rw [← hv]; rfl)
  have agents : (v.linkError c.tenant).agents = s.agents := (v.linkError_agents c.tenant).trans (by rw [← hv])
  have completions : (v.linkError c.tenant).completions = s.completions.eraseIdx lane := by
    obtain ⟨_, e⟩ := v.linkError_only c.tenant
    rw [e, ← hv]
  rw [counts] at runs
  cases irq : c.irq with
  | false =>
    rw [irq] at runs
    exact ⟨_, runs, bytes, agents, completions, linkerr, fun h => (nomatch h)⟩
  | true =>
    rw [irq, if_pos rfl] at runs
    have raised : ((v.linkError c.tenant).irq c.tenant 0).tenant c.tenant = _ := (State.tenant_modTenant ..).trans (if_pos rfl)
    refine ⟨_, runs, bytes, agents, completions, ?_, fun _ => ?_⟩
    · rw [raised]; exact linkerr
    · rw [raised]; exact List.mem_append_right _ (List.mem_singleton.mpr rfl)

/-- R120, R317, R356, R357. -/
theorem lostAccessesEnd : Sys2Proof.Claim.LostAccessesEnd := by
  refine ⟨fun s a id lane x p o l hid ha ho hl => ?_, fun s a cmd x k ha hx hk mine runs kind onLink => ?_, fun s id lane hid => ?_,
    fun s p t x drop lost peer => codeFill_lost p t drop lost peer,
    fun s s1 o tenant p off len va xs ps pass free lost peer => fetchTile_lost pass free lost peer,
    fun s a cmd x k cbuf ha hx hk mine runs kind onLink => ?_,
    fun s lane c x hc aligned place peer last => completion_lost hc aligned place peer last⟩
  · intro lost o1 moved
    exact ⟨lostRead_spec ho hid ha hl, lostWrite_spec ho hid ha hl⟩
  · obtain ⟨ends, marks⟩ := copyLost_in (s := s) (core := x.core) kind
    refine ⟨_, execLinkDeliveryFailure_copy ha hx hk mine runs onLink, copyEnds_linkError ends _, State.linkError_linkerr ..,
      fun there p hp i hi => ?_⟩
    rw [(State.linkError_keepsBufs ..).bufMarked]
    exact marks there p hp i hi
  · show execLinkDeliveryFailure 0 id lane s = _
    unfold execLinkDeliveryFailure
    rw [if_pos rfl, if_neg hid]
  · exact ⟨_, execLinkDeliveryFailure_copy ha hx hk mine runs onLink, copyEnds_linkError (copyLost_out kind) _, State.linkError_linkerr ..⟩

end Sys2Proof.Machine
end

section
/-! PROOF of `SoftErrorsAreCounted` (O50): the counter of the unit that is struck, and the mark of a double-bit error. -/

namespace Sys2Proof.Machine

open Sys2Proof.Claim

/-! ## The counters (R349, R362) -/

/-- The register that counts errors of a unit. -/
def errReg (double : Bool) (n : Nat) : Nat := (if double then 0x308 else 0x300) + 16 * n

/-- The error counted; the counter saturates. -/
def State.countError (s : State) (double : Bool) (n : Nat) : State :=
  let v := s.device.reg (errReg double n)
  { s with device := s.device.setReg (errReg double n) (if v = 0xFFFFFFFFFFFFFFFF#64 then v else v + 1#64) }

section Count
variable {s : State} {site : ErrSite} {n : Nat}

theorem execSoftError_nowhere (h : s.errUnit site = none) (double : Bool) : exec (.softError site double) s = .next s := by
  show execSoftError site double s = _
  unfold execSoftError
  rw [h]

theorem execSoftError_counts (h : s.errUnit site = some n) (double : Bool) : exec (.softError site double) s =
    .next (if double then (s.countError double n).poisonSite site else s.countError double n) := by
  show execSoftError site double s = _
  unfold execSoftError
  rw [h]
  rfl

theorem State.countError_reg (s : State) (double : Bool) (n k : Nat) : (s.countError double n).device.reg k =
    if k = errReg double n then
      if s.device.reg (errReg double n) = 0xFFFFFFFFFFFFFFFF#64 then 0xFFFFFFFFFFFFFFFF#64 else s.device.reg (errReg double n) + 1#64
    else s.device.reg k := by
  unfold State.countError
  rw [Device.reg_setReg]
  split
  · split
    · next h => exact h
    · rfl
  · rfl

end Count

/-! ## What a mark leaves alone -/

section Poison
variable (s : State) (site : ErrSite)

theorem State.poisonSite_bytes : SameBytes s (s.poisonSite site) := by
  cases site with
  | buffer gang pos b row =>
    unfold State.poisonSite
    dsimp only
    split
    · exact State.byte_congr (InBufs.mark ..).mem
    · exact fun _ => rfl
  | memory _ => exact fun _ => rfl
  | l2 _ => exact fun _ => rfl
  | l1 _ _ => exact fun _ => rfl
  | ways _ _ => exact fun _ => rfl
  | vector _ _ _ => exact fun _ => rfl
  | scalar _ _ => exact fun _ => rfl
  | sram _ _ => exact fun _ => rfl

theorem State.poisonSite_deviceRegs : (s.poisonSite site).device.regs = s.device.regs := by
  cases site with
  | buffer gang pos b row =>
    unfold State.poisonSite
    dsimp only
    split
    · obtain ⟨_, _, h⟩ := InBufs.mark s ⟨gang, pos, _, b⟩ row true
      rw [h]
    · rfl
  | memory _ => rfl
  | l2 _ => rfl
  | l1 _ _ => rfl
  | ways _ _ => rfl
  | vector _ _ _ => rfl
  | scalar _ _ => rfl
  | sram _ _ => rfl

/-! ## The marks (R317, R362) -/

theorem State.poisonSite_memory (g k : Nat) : nhas (s.poisonSite (.memory g)).memMark k = (nhas s.memMark k || k == g) := by
  refine (nhas_nins g k s.memMark).trans ?_
  rw [Bool.or_comm, Bool.beq_comm]

theorem State.poisonSite_l2 {g : Nat} (device : hostLine (g / 8) = none) (k : Nat) :
    nhas (s.poisonSite (.l2 g)).memMark k = (nhas s.memMark k || k == g) := by
  have here : 8 * l2Source (g / 8) + g % 8 = g := by
    unfold l2Source
    rw [device]
    exact Nat.div_add_mod g 8
  refine (nhas_nins _ k s.memMark).trans ?_
  rw [here, Bool.or_comm, Bool.beq_comm]

variable {s}

theorem State.poisonSite_l1 {core g n : Nat} (there : s.errUnit (.l1 core g) = some n) :
    ∃ l, kget ((s.poisonSite (.l1 core g)).core core).l1 (g / 2) = some l ∧ l.marks.getLsbD (g % 2) = true := by
  have held : (kget (s.core core).l1 (g / 2)).isSome = true := by
    unfold State.errUnit at there
    dsimp only at there
    split at there
    · assumption
    · cases there
  obtain ⟨l, hl⟩ := Option.isSome_iff_exists.mp held
  refine ⟨{ l with marks := setBit l.marks (g % 2) true }, ?_, ?_⟩
  · unfold State.poisonSite
    rw [State.core_modCore, if_pos rfl]
    exact (kget_kmod_same ..).trans (congrArg _ hl)
  · exact (getLsbD_setBit _ _ _ _ (Nat.mod_lt g (by decide))).trans (if_pos rfl)

theorem State.poisonSite_buffer {gang pos row : Nat} {b : Buf} {y : Gang} {core : Nat} (hg : s.gang? gang = some y)
    (hc : y.cores[pos]? = some core) : (s.poisonSite (.buffer gang pos b row)).bufMarked ⟨gang, pos, core, b⟩ row = true := by
  unfold State.poisonSite
  simp only [hg, Option.bind_some, hc]
  rw [State.bufMarked_eq, State.setBufMark_eq, State.slotMark_setSlot, if_pos]
  refine ⟨rfl, State.slotThere_of_gang ?_ row⟩
  rw [hg]
  rfl

theorem State.poisonSite_ways (core g : Nat) : nhas ((s.poisonSite (.ways core g)).core core).wayMark g = true := by
  unfold State.poisonSite
  rw [State.core_modCore, if_pos rfl]
  exact (nhas_nins ..).trans (by rw [beq_self_eq_true, Bool.true_or])

theorem State.poisonSite_sram (a : Sram) (g : Nat) : (a, g) ∈ (s.poisonSite (.sram a g)).device.sramMarks := by
  unfold State.poisonSite
  dsimp only
  split
  · next h => exact List.contains_iff_mem.mp h
  · exact List.mem_cons_self ..

theorem State.poisonSite_scalar {a reg : Nat} {x : Agent} (hx : s.agent? a = some x) (hr : reg < 256) :
    ∃ y, (s.poisonSite (.scalar a reg)).agent? a = some y ∧
      (∀ k, k < 256 → y.regs.sMark.getLsbD k = (x.regs.sMark.getLsbD k || k == reg)) ∧ y.regs.s = x.regs.s := by
  refine ⟨_, (AgentBecomes.mod hx _).agent, fun k hk => ?_, ?_⟩
  all_goals rw [Agent.mapRegs_regs, if_pos hr]
  refine (getLsbD_setBit _ _ _ _ hk).trans ?_
  split
  · next h => rw [h, beq_self_eq_true, Bool.or_true]
  · next h => rw [beq_false_of_ne (Ne.symm h), Bool.or_false]

theorem State.poisonSite_vector {a reg lane : Nat} {x : Agent} (hx : s.agent? a = some x) (hr : reg < x.regs.alloc) (hl : lane < 32) :
    ∃ y, (s.poisonSite (.vector a reg lane)).agent? a = some y ∧ y.regs.v = x.regs.v ∧
      ∀ k j, (kgetD 0#32 y.regs.vMark k).getLsbD j = ((kgetD 0#32 x.regs.vMark k).getLsbD j || (k == reg && j == lane)) := by
  refine ⟨_, (AgentBecomes.mod hx _).agent, ?_, fun k j => ?_⟩
  all_goals rw [Agent.mapRegs_regs, if_pos ⟨hr, hl⟩]
  rw [kgetD_ksetD]
  by_cases hk : reg = k
  · subst hk
    rw [if_pos rfl, beq_self_eq_true, Bool.true_and]
    by_cases hj : j < 32
    · refine (getLsbD_setBit _ _ _ _ hj).trans ?_
      split
      · next h => rw [h, beq_self_eq_true, Bool.or_true]
      · next h => rw [beq_false_of_ne (Ne.symm h), Bool.or_false]
    · have apart : j ≠ lane := by omega
      rw [BitVec.getLsbD_of_ge _ _ (Nat.not_lt.mp hj), BitVec.getLsbD_of_ge _ _ (Nat.not_lt.mp hj), beq_false_of_ne apart]
      rfl
  · rw [if_neg hk, beq_false_of_ne (Ne.symm hk), Bool.false_and, Bool.or_false]

end Poison

/-- R317, R362. -/
theorem softErrorsAreCounted : Sys2Proof.Claim.SoftErrorsAreCounted := by
  refine ⟨fun s site double h => execSoftError_nowhere h double, fun s site n double h => ?_⟩
  have runs := execSoftError_counts h double
  have counted := s.countError_reg double n
  cases double with
  | false =>
    refine ⟨_, runs, fun _ => rfl, (counted _).trans (if_pos rfl), fun k hk => (counted k).trans (if_neg hk), fun _ => ⟨rfl, rfl, rfl⟩,
      fun c => (nomatch c)⟩
  | true =>
    have regs : ∀ k, ((s.countError true n).poisonSite site).device.reg k = (s.countError true n).device.reg k := fun k => by
      unfold Device.reg
      rw [State.poisonSite_deviceRegs]
    refine ⟨_, runs, fun k => State.poisonSite_bytes (s.countError true n) site k, (regs _).trans ((counted _).trans (if_pos rfl)),
      fun k hk => (regs k).trans ((counted k).trans (if_neg hk)), fun c => (nomatch c), fun _ => ⟨?_, ?_, ?_, ?_, ?_, ?_, ?_, ?_⟩⟩
    · rintro g rfl k
      exact State.poisonSite_memory (s.countError true n) g k
    · rintro g rfl device k
      exact State.poisonSite_l2 (s.countError true n) device k
    · rintro core g rfl
      exact State.poisonSite_l1 (s := s.countError true n) h
    · rintro gang pos b row rfl y core hg hc
      exact State.poisonSite_buffer (s := s.countError true n) hg hc
    · rintro core g rfl
      exact State.poisonSite_ways ..
    · rintro a g rfl
      exact State.poisonSite_sram ..
    · rintro a reg x rfl hx hr
      exact State.poisonSite_scalar (s := s.countError true n) hx hr
    · rintro a reg lane x rfl hx hr hl
      exact State.poisonSite_vector (s := s.countError true n) hx hr hl

/-- Settles O50: accesses from outside byte by byte, what the link loses by what it was, and the counters and marks of errors. -/
theorem outsideAccessesAndErrors : Obligations.OutsideAccessesAndErrors :=
  ⟨outsideAccessesPerform, lostAccessesEnd, softErrorsAreCounted⟩

end Sys2Proof.Machine
end

section
/-! RULES for the decoder (O52): what the code of a field is read as has that code, and is well-formed. -/

namespace Sys2Proof

@[simp] theorem Opnd.code_ofCode (n : Nat) : (Opnd.ofCode n).code = n := by
  unfold Opnd.ofCode
  repeat' split
  all_goals simp only [Opnd.code]
  all_goals omega

theorem Opnd.wf_ofCode {n : Nat} (h : n < 2048) : (Opnd.ofCode n).wf = true := by
  unfold Opnd.ofCode
  repeat' split
  all_goals simp only [Opnd.wf, Bool.and_eq_true, decide_eq_true_eq]
  all_goals omega

theorem Rm.ofCode_eq_some {n : Nat} {r : Rm} : Rm.ofCode n = some r ↔ n = r.code :=
  ⟨fun h => by unfold Rm.ofCode at h; split at h <;> cases h <;> rfl, fun h => by rw [h, Rm.ofCode_code]⟩

theorem CC.ofCode_eq_some {n : Nat} {r : CC} : CC.ofCode n = some r ↔ n = r.code :=
  ⟨fun h => by unfold CC.ofCode at h; split at h <;> cases h <;> rfl, fun h => by rw [h, CC.ofCode_code]⟩

theorem ITy.ofCode_eq_some {n : Nat} {r : ITy} : ITy.ofCode n = some r ↔ n = r.code :=
  ⟨fun h => by unfold ITy.ofCode at h; split at h <;> cases h <;> rfl, fun h => by rw [h, ITy.ofCode_code]⟩

theorem Buf.ofCode_eq_some {n : Nat} {r : Buf} : Buf.ofCode n = some r ↔ n = r.code :=
  ⟨fun h => by unfold Buf.ofCode at h; split at h <;> cases h <;> rfl, fun h => by rw [h, Buf.ofCode_code]⟩

theorem Rep.ofCode_eq_some {n : Nat} {r : Rep} : Rep.ofCode n = some r ↔ n = r.code :=
  ⟨fun h => by unfold Rep.ofCode at h; split at h <;> cases h <;> rfl, fun h => by rw [h, Rep.ofCode_code]⟩

theorem AOp.ofCode_eq_some {n : Nat} {r : AOp} : AOp.ofCode n = some r ↔ n = r.code :=
  ⟨fun h => by unfold AOp.ofCode at h; split at h <;> cases h <;> rfl, fun h => by rw [h]; cases r <;> rfl⟩

theorem AKind.ofCode_eq_some {n : Nat} {r : AKind} : AKind.ofCode n = some r ↔ n = r.code :=
  ⟨fun h => by unfold AKind.ofCode at h; split at h <;> cases h <;> rfl, fun h => by rw [h]; cases r <;> rfl⟩

theorem Ty.ofCode_eq_some {n : Nat} {r : Ty} : Ty.ofCode n = some r ↔ n = r.code := by
  refine ⟨fun h => ?_, fun h => by rw [h, Ty.ofCode_code]⟩
  unfold Ty.ofCode at h
  split at h
  case h_5 =>
    obtain ⟨t, ht, rfl⟩ := Option.map_eq_some_iff.mp h
    exact ITy.ofCode_eq_some.mp ht
  all_goals cases h; rfl

theorem FTy.op_ofOp : ∀ {n : Nat}, n < 4 → (FTy.ofOp n).op = n
  | 0, _ | 1, _ | 2, _ | 3, _ => rfl

theorem LdKind.code_ofCode : ∀ {n : Nat}, n < 6 → (LdKind.ofCode n).code = n
  | 0, _ | 1, _ | 2, _ | 3, _ | 4, _ | 5, _ => rfl

theorem StWidth.code_ofCode : ∀ {n : Nat}, n < 4 → (StWidth.ofCode n).code = n
  | 0, _ | 1, _ | 2, _ | 3, _ => rfl

theorem LdKind.op_ofCode {first op : Nat} (low : ¬ op < first) (high : op < first + 6) :
    first + (LdKind.ofCode (op - first)).code = op := by
  rw [LdKind.code_ofCode (by omega)]; omega

theorem StWidth.op_ofCode {first op : Nat} (low : ¬ op < first) (high : op < first + 4) :
    first + (StWidth.ofCode (op - first)).code = op := by
  rw [StWidth.code_ofCode (by omega)]; omega

theorem Scope.code_ofCode : ∀ {n : Nat}, n < 4 → (Scope.ofCode n).code = n
  | 0, _ | 1, _ | 2, _ | 3, _ => rfl

theorem Order.code_ofCode : ∀ {n : Nat}, n < 4 → (Order.ofCode n).code = n
  | 0, _ | 1, _ | 2, _ | 3, _ => rfl

theorem orderM_ofCode {m : Nat} (h : m < 16) : orderM (.ofCode (m / 4)) (.ofCode (m % 4)) = m := by
  unfold orderM
  rw [Order.code_ofCode (by omega), Scope.code_ofCode (Nat.mod_lt _ (by decide)), Nat.div_add_mod']

theorem Guard.ofCode_spec {pred pn : Nat} {g : Guard} (h : Guard.ofCode pred pn = some g) (hpn : pn < 2) :
    g.wf = true ∧ g.predCode = pred ∧ g.pnCode = pn := by
  unfold Guard.ofCode at h
  split at h
  · next hp =>
    cases h
    refine ⟨decide_eq_true hp, rfl, ?_⟩
    obtain rfl | rfl : pn = 0 ∨ pn = 1 := by omega
    all_goals rfl
  · split at h
    · next hp =>
      cases h
      obtain ⟨rfl, rfl⟩ := (Bool.and_eq_true _ _).mp hp |>.imp beq_iff_eq.mp beq_iff_eq.mp
      exact ⟨rfl, rfl, rfl⟩
    · cases h

theorem Qual.ofCode_spec {b : Nat} {q : Qual} (h : Qual.ofCode b = some q) : q.wf = true ∧ q.code = b := by
  unfold Qual.ofCode at h
  split at h
  · next hb =>
    cases h
    refine ⟨decide_eq_true (Nat.mod_lt _ (by decide)), ?_⟩
    obtain hq | hq : b / 4 = 0 ∨ b / 4 = 1 := by omega
    all_goals simp [Qual.code, hq]; omega
  · cases h

theorem copyQual_wf (m : Nat) : (copyQual m).wf = true := decide_eq_true (Nat.mod_lt _ (by decide))

theorem copyQual_codes (m : Nat) : (copyQual m).code = m % 8 := by
  unfold copyQual Qual.code
  obtain hq | hq : m / 4 % 2 = 0 ∨ m / 4 % 2 = 1 := by omega
  all_goals simp [hq]; omega

theorem signedCode_signedOf {h n : Nat} (hn : n < 2 * h) : signedCode h (signedOf h n) = n := by
  unfold signedOf signedCode
  split
  · rw [Int.emod_eq_of_lt (by omega) (by omega)]; rfl
  · rw [Int.sub_emod_right, Int.emod_eq_of_lt (by omega) (by omega)]; rfl

theorem signedOf_range {h n : Nat} (hn : n < 2 * h) : -(h : Int) ≤ signedOf h n ∧ signedOf h n < h := by
  unfold signedOf
  split <;> omega

theorem immWf_signedOf {n : Nat} (hn : n < 4194304) : immWf (signedOf 2097152 n) = true := by
  obtain ⟨low, high⟩ := signedOf_range (h := 2097152) hn
  exact (Bool.and_eq_true _ _).mpr ⟨decide_eq_true low, decide_eq_true high⟩

theorem offWf_signedOf {n : Nat} (hn : n < 2048) : offWf (signedOf 1024 n) = true := by
  obtain ⟨low, high⟩ := signedOf_range (h := 1024) hn
  exact (Bool.and_eq_true _ _).mpr ⟨decide_eq_true low, decide_eq_true high⟩

theorem callWf_signedOf {n : Nat} (hn : n < 4294967296) : callWf (signedOf 2147483648 n) = true := by
  obtain ⟨low, high⟩ := signedOf_range (h := 2147483648) hn
  exact (Bool.and_eq_true _ _).mpr ⟨decide_eq_true low, decide_eq_true high⟩

theorem need_eq_some {ok : Bool} {i j : Instr} : need ok i = some j ↔ ok = true ∧ i = j := by
  unfold need
  cases ok <;> simp

end Sys2Proof
end

section
/-! RULES for the decoder (O52): of every row that a decoder of a class has, that the instruction it reads is well-formed and
encodes to the fields that it was read from. The cases `h_1`, `h_2`, … of a split are the decoder's rows, in its own order. -/

namespace Sys2Proof

/-- The instruction is a word of the architecture, and these are its encoding: the fields of its word 0, and its word 1 where it
has one. -/
structure Instr.EncodesAs (i : Instr) (f : Fields) (w1 : Option DWord) : Prop where
  wf : i.wf = true
  fields : encodeFields i = some f
  second : encodeSecond i = w1

section Rows
variable {g : Guard} {f : FTy} {i : Instr} {grp op m d a b c : Nat}

theorem wf1_ofCode (hg : g.wf = true) (hd : d < 2048) : wf1 g (.ofCode d) = true := by
  rw [wf1, hg, Opnd.wf_ofCode hd]; rfl
theorem wf2_ofCode (hg : g.wf = true) (hd : d < 2048) (ha : a < 2048) : wf2 g (.ofCode d) (.ofCode a) = true := by
  rw [wf2, hg, Opnd.wf_ofCode hd, Opnd.wf_ofCode ha]; rfl
theorem wf3_ofCode (hg : g.wf = true) (hd : d < 2048) (ha : a < 2048) (hb : b < 2048) :
    wf3 g (.ofCode d) (.ofCode a) (.ofCode b) = true := by
  rw [wf3, hg, Opnd.wf_ofCode hd, Opnd.wf_ofCode ha, Opnd.wf_ofCode hb]; rfl
theorem wf4_ofCode (hg : g.wf = true) (hd : d < 2048) (ha : a < 2048) (hb : b < 2048) (hc : c < 2048) :
    wf4 g (.ofCode d) (.ofCode a) (.ofCode b) (.ofCode c) = true := by
  rw [wf4, hg, Opnd.wf_ofCode hd, Opnd.wf_ofCode ha, Opnd.wf_ofCode hb, Opnd.wf_ofCode hc]; rfl

/-! ## Classes 0 and 1 -/

/-- The floating rows of class 0 (R154). -/
theorem decodeV4_encodes (hg : g.wf = true) (hd : d < 2048) (ha : a < 2048) (hb : b < 2048) (hc : c < 2048)
    (h : decodeV4 g f grp m d a b c = some i) : i.EncodesAs (.mkA g 0 (4 * grp + f.op) m d a b c) none := by
  unfold decodeV4 at h
  split at h
  all_goals simp only [Option.bind_eq_some_iff, need_eq_some, Bool.and_eq_true, beq_iff_eq, Option.some.injEq,
    Rm.ofCode_eq_some, CC.ofCode_eq_some, and_assoc] at h
  case h_1 | h_2 | h_3 | h_11 =>
    obtain ⟨r, rfl, rfl, rfl⟩ := h
    exact ⟨wf3_ofCode hg hd ha hb, congrArg some (by simp), rfl⟩
  case h_4 | h_7 | h_8 =>
    obtain ⟨r, rfl, rfl⟩ := h
    exact ⟨wf4_ofCode hg hd ha hb hc, congrArg some (by simp), rfl⟩
  case h_5 | h_6 =>
    obtain ⟨rfl, rfl, rfl⟩ := h
    exact ⟨wf3_ofCode hg hd ha hb, congrArg some (by simp), rfl⟩
  case h_9 =>
    obtain ⟨cc, rfl, rfl, rfl⟩ := h
    exact ⟨wf3_ofCode hg hd ha hb, congrArg some (by simp), rfl⟩
  case h_10 | h_15 | h_16 | h_17 =>
    obtain ⟨r, rfl, rfl, rfl, rfl⟩ := h
    exact ⟨wf2_ofCode hg hd ha, congrArg some (by simp), rfl⟩
  case h_12 | h_13 | h_14 =>
    obtain ⟨rfl, rfl, rfl, rfl⟩ := h
    exact ⟨wf2_ofCode hg hd ha, congrArg some (by simp), rfl⟩
  case h_18 => cases h

/-- The integer rows of class 0 (R154). -/
theorem decodeVI_encodes {t : ITy} (hg : g.wf = true) (hd : d < 2048) (ha : a < 2048) (hb : b < 2048) (hc : c < 2048)
    (h : decodeVI g t op d a b c = some i) : i.EncodesAs (.mkA g 0 op t.code d a b c) none := by
  unfold decodeVI at h
  split at h
  all_goals simp only [Option.bind_eq_some_iff, need_eq_some, Bool.and_eq_true, beq_iff_eq, Option.some.injEq,
    CC.ofCode_eq_some, and_assoc] at h
  case h_1 | h_2 | h_3 | h_4 | h_6 | h_7 | h_13 | h_14 | h_15 | h_17 | h_18 =>
    obtain ⟨rfl, rfl⟩ := h
    exact ⟨wf3_ofCode hg hd ha hb, congrArg some (by simp), rfl⟩
  case h_5 | h_10 | h_11 | h_21 | h_22 | h_23 =>
    subst h
    exact ⟨wf4_ofCode hg hd ha hb hc, congrArg some (by simp), rfl⟩
  case h_8 | h_9 | h_16 | h_19 | h_20 | h_24 | h_29 | h_30 | h_31 =>
    obtain ⟨rfl, rfl, rfl⟩ := h
    exact ⟨wf2_ofCode hg hd ha, congrArg some (by simp), rfl⟩
  case h_12 =>
    obtain ⟨cc, rfl, isInt, rfl⟩ := h
    exact ⟨Bool.and_intro (wf3_ofCode hg hd ha hb) isInt, congrArg some (by simp), rfl⟩
  case h_25 | h_26 | h_32 | h_33 =>
    obtain ⟨accepted, rfl⟩ := h
    exact ⟨Bool.and_intro (wf4_ofCode hg hd ha hb hc) accepted, congrArg some (by simp), rfl⟩
  case h_27 | h_28 =>
    obtain ⟨accepted, rfl, rfl⟩ := h
    exact ⟨Bool.and_intro (wf3_ofCode hg hd ha hb) accepted, congrArg some (by simp), rfl⟩
  case h_34 => cases h

/-- What a conversion's fields are (R154). -/
theorem decodeCvt_spec {k : Ty → Ty → Rm → Instr} (h : decodeCvt m b c k = some i) :
    ∃ td ts rm, m = td.code ∧ b = 0 ∧ c = cvtC ts rm ∧ cvtWf td ts rm = true ∧ i = k td ts rm := by
  unfold decodeCvt at h
  simp only [Option.bind_eq_some_iff, need_eq_some, Bool.and_eq_true, beq_iff_eq, Ty.ofCode_eq_some, Rm.ofCode_eq_some] at h
  obtain ⟨td, hm, ts, src, rm, mode, ⟨hb, accepted⟩, rfl⟩ := h
  exact ⟨td, ts, rm, hm, hb, by unfold cvtC; omega, accepted, rfl⟩

/-- Class 0 (R154). -/
theorem decodeC0_encodes (hg : g.wf = true) (hd : d < 2048) (ha : a < 2048) (hb : b < 2048) (hc : c < 2048)
    (h : decodeC0 g op m d a b c = some i) : i.EncodesAs (.mkA g 0 op m d a b c) none := by
  unfold decodeC0 at h
  dsimp only at h
  split at h
  · have row := decodeV4_encodes hg hd ha hb hc h
    rwa [FTy.op_ofOp (Nat.mod_lt _ (by decide)), Nat.div_add_mod] at row
  split at h
  case h_5 =>
    obtain ⟨td, ts, rm, rfl, rfl, rfl, accepted, rfl⟩ := decodeCvt_spec h
    exact ⟨Bool.and_intro (wf2_ofCode hg hd ha) accepted, congrArg some (by simp), rfl⟩
  case h_11 =>
    obtain ⟨t, ht, row⟩ := Option.bind_eq_some_iff.mp h
    cases ITy.ofCode_eq_some.mp ht
    exact decodeVI_encodes hg hd ha hb hc row
  all_goals simp only [Option.bind_eq_some_iff, need_eq_some, Bool.and_eq_true, beq_iff_eq, Option.some.injEq,
    Rm.ofCode_eq_some, and_assoc] at h
  case h_1 | h_2 | h_3 | h_4 =>
    obtain ⟨r, rfl, rfl, rfl, rfl⟩ := h
    exact ⟨wf2_ofCode hg hd ha, congrArg some (by simp), rfl⟩
  case h_6 | h_7 =>
    obtain ⟨r, rfl, rfl⟩ := h
    exact ⟨wf4_ofCode hg hd ha hb hc, congrArg some (by simp), rfl⟩
  case h_8 | h_9 | h_10 =>
    obtain ⟨rfl, rfl⟩ := h
    exact ⟨wf4_ofCode hg hd ha hb hc, congrArg some (by simp), rfl⟩

/-- The floating rows of class 1 (R155). -/
theorem decodeS4_encodes (hg : g.wf = true) (hd : d < 2048) (ha : a < 2048) (hb : b < 2048) (hc : c < 2048)
    (h : decodeS4 g f grp m d a b c = some i) : i.EncodesAs (.mkA g 1 (4 * grp + f.op) m d a b c) none := by
  unfold decodeS4 at h
  split at h
  all_goals simp only [Option.bind_eq_some_iff, need_eq_some, Bool.and_eq_true, beq_iff_eq, Option.some.injEq,
    Rm.ofCode_eq_some, CC.ofCode_eq_some, and_assoc] at h
  case h_1 | h_2 | h_3 =>
    obtain ⟨r, rfl, rfl, rfl⟩ := h
    exact ⟨wf3_ofCode hg hd ha hb, congrArg some (by simp), rfl⟩
  case h_4 =>
    obtain ⟨r, rfl, rfl⟩ := h
    exact ⟨wf4_ofCode hg hd ha hb hc, congrArg some (by simp), rfl⟩
  case h_5 | h_6 =>
    obtain ⟨rfl, rfl, rfl⟩ := h
    exact ⟨wf3_ofCode hg hd ha hb, congrArg some (by simp), rfl⟩
  case h_7 =>
    obtain ⟨cc, rfl, rfl, rfl⟩ := h
    exact ⟨wf3_ofCode hg hd ha hb, congrArg some (by simp), rfl⟩
  case h_8 => cases h

/-- The integer rows of class 1 (R155). -/
theorem decodeSI_encodes {t : ITy} (hg : g.wf = true) (hd : d < 2048) (ha : a < 2048) (hb : b < 2048) (hc : c < 2048)
    (h : decodeSI g t op d a b c = some i) : i.EncodesAs (.mkA g 1 op t.code d a b c) none := by
  unfold decodeSI at h
  split at h
  all_goals simp only [Option.bind_eq_some_iff, need_eq_some, Bool.and_eq_true, beq_iff_eq, Option.some.injEq,
    CC.ofCode_eq_some, and_assoc] at h
  case h_1 | h_2 | h_3 | h_4 | h_6 | h_7 | h_11 | h_12 | h_13 | h_15 | h_16 =>
    obtain ⟨rfl, rfl⟩ := h
    exact ⟨wf3_ofCode hg hd ha hb, congrArg some (by simp), rfl⟩
  case h_5 | h_19 | h_20 | h_21 =>
    subst h
    exact ⟨wf4_ofCode hg hd ha hb hc, congrArg some (by simp), rfl⟩
  case h_8 | h_9 | h_14 | h_17 | h_18 | h_22 =>
    obtain ⟨rfl, rfl, rfl⟩ := h
    exact ⟨wf2_ofCode hg hd ha, congrArg some (by simp), rfl⟩
  case h_10 =>
    obtain ⟨cc, rfl, isInt, rfl⟩ := h
    exact ⟨Bool.and_intro (wf3_ofCode hg hd ha hb) isInt, congrArg some (by simp), rfl⟩
  case h_23 | h_24 =>
    obtain ⟨accepted, rfl, rfl⟩ := h
    exact ⟨Bool.and_intro (wf3_ofCode hg hd ha hb) accepted, congrArg some (by simp), rfl⟩
  case h_25 => cases h

theorem imm22_lt (hb : b < 2048) (hc : c < 2048) : imm22 b c < 4194304 := by unfold imm22; omega

theorem Fields.mkI_imm22 {cls : Nat} (hc : c < 2048) : Fields.mkI g cls op m d a (imm22 b c) = .mkA g cls op m d a b c := by
  have high : imm22 b c / 2048 = b := by unfold imm22; omega
  have low : imm22 b c % 2048 = c := by unfold imm22; omega
  rw [Fields.mkI, high, low]

/-- The conditions of `park`, put together again. -/
theorem park_mod : ∀ {m : Nat}, m < 8 →
    (if m % 2 == 1 then 1 else 0) + (if m / 2 % 2 == 1 then 2 else 0) + (if m / 4 == 1 then 4 else 0) = m := by
  decide

/-- A `park` has a condition at least (R155). -/
theorem park_conditions : ∀ {m : Nat}, m < 8 → m ≠ 0 → (m % 2 == 1 || m / 2 % 2 == 1 || m / 4 == 1) = true := by
  decide

/-- The control rows of class 1 (R155). -/
theorem decodeCtl_encodes (hg : g.wf = true) (hd : d < 2048) (ha : a < 2048) (hb : b < 2048) (hc : c < 2048)
    (h : decodeCtl g op m d a b c = some i) : i.EncodesAs (.mkA g 1 op m d a b c) none := by
  have himm := imm22_lt hb hc
  have offset : signedCode 2097152 (signedOf 2097152 (imm22 b c)) = imm22 b c := signedCode_signedOf himm
  unfold decodeCtl at h
  dsimp only at h
  split at h
  all_goals simp only [need_eq_some, Bool.and_eq_true, Bool.or_eq_true, beq_iff_eq, bne_iff_ne, decide_eq_true_eq, and_assoc,
    reduceCtorEq] at h
  case h_1 =>
    obtain ⟨rfl, rfl, small, rfl⟩ := h
    exact ⟨Bool.and_intro (wf1_ofCode hg hd) (decide_eq_true small), congrArg some (by simp [Fields.mkI_imm22 hc]), rfl⟩
  case h_2 =>
    obtain ⟨rfl, rfl, small, rfl⟩ := h
    exact ⟨Bool.and_intro (wf1_ofCode hg ha) (decide_eq_true small), congrArg some (by simp [Fields.mkI_imm22 hc]), rfl⟩
  case h_3 =>
    obtain ⟨rfl, rfl, rfl, rfl⟩ := h
    exact ⟨Bool.and_intro hg (immWf_signedOf himm), congrArg some (by simp [offset, Fields.mkI_imm22 hc]), rfl⟩
  case h_4 | h_5 | h_6 | h_7 | h_8 | h_10 =>
    obtain ⟨rfl, rfl, rfl⟩ := h
    exact ⟨Bool.and_intro (wf1_ofCode hg ha) (immWf_signedOf himm),
      congrArg some (by simp [offset, Fields.mkI_imm22 hc]), rfl⟩
  case h_9 =>
    obtain ⟨rfl, rfl, rfl, rfl, rfl⟩ := h
    exact ⟨wf1_ofCode hg ha, congrArg some (by simp), rfl⟩
  case h_11 | h_12 | h_14 | h_18 =>
    obtain ⟨rfl, rfl, rfl, rfl, rfl, rfl⟩ := h
    exact ⟨hg, rfl, rfl⟩
  case h_13 =>
    obtain ⟨nonzero, small, rfl, hb64, line, bar, tmo, rfl⟩ := h
    have lineUse : (m % 2 == 1 || decide (Opnd.ofCode a = .v 0)) = true :=
      (Bool.or_eq_true _ _).mpr (line.imp beq_iff_eq.mpr fun unused => by rw [unused]; rfl)
    have barUse : (m / 2 % 2 == 1 || decide (b = 0)) = true :=
      (Bool.or_eq_true _ _).mpr (bar.imp beq_iff_eq.mpr decide_eq_true)
    have tmoUse : (m / 4 == 1 || decide (Opnd.ofCode c = .v 0)) = true :=
      (Bool.or_eq_true _ _).mpr (tmo.imp beq_iff_eq.mpr fun unused => by rw [unused]; rfl)
    refine ⟨?_, congrArg some (by simp only [park_mod small, Opnd.code_ofCode]), rfl⟩
    exact Bool.and_intro (Bool.and_intro (Bool.and_intro (Bool.and_intro (Bool.and_intro (wf2_ofCode hg ha hc)
      (decide_eq_true hb64)) (park_conditions small nonzero)) lineUse) barUse) tmoUse
  case h_15 | h_16 =>
    obtain ⟨rfl, rfl, rfl, allot, rfl⟩ := h
    exact ⟨Bool.and_intro hg allot, congrArg some (by simp [Fields.mkI_imm22 hc]), rfl⟩
  case h_17 =>
    obtain ⟨small, rfl, rfl, rfl, rfl⟩ := h
    exact ⟨Bool.and_intro (wf1_ofCode hg ha) (decide_eq_true small), congrArg some (by simp), rfl⟩

/-- Class 1 (R155). -/
theorem decodeC1_encodes (hg : g.wf = true) (hd : d < 2048) (ha : a < 2048) (hb : b < 2048) (hc : c < 2048)
    (h : decodeC1 g op m d a b c = some i) : i.EncodesAs (.mkA g 1 op m d a b c) none := by
  unfold decodeC1 at h
  split at h
  · have row := decodeS4_encodes hg hd ha hb hc h
    rwa [FTy.op_ofOp (Nat.mod_lt _ (by decide)), Nat.div_add_mod] at row
  split at h
  · next conversion =>
    subst conversion
    obtain ⟨td, ts, rm, rfl, rfl, rfl, accepted, rfl⟩ := decodeCvt_spec h
    exact ⟨Bool.and_intro (wf2_ofCode hg hd ha) accepted, congrArg some (by simp), rfl⟩
  split at h
  · obtain ⟨t, ht, row⟩ := Option.bind_eq_some_iff.mp h
    cases ITy.ofCode_eq_some.mp ht
    exact decodeSI_encodes hg hd ha hb hc row
  · exact decodeCtl_encodes hg hd ha hb hc h

/-! ## Class 2 -/

/-- What an atomic's field c is (R156). -/
theorem decodeAtom_spec {ok : AOp → AKind → Bool} {k : AOp → AKind → Instr} (h : decodeAtom c ok k = some i) :
    ∃ x kind, c = atomC x kind ∧ ok x kind = true ∧ i = k x kind := by
  unfold decodeAtom at h
  simp only [Option.bind_eq_some_iff, need_eq_some, AOp.ofCode_eq_some, AKind.ofCode_eq_some] at h
  obtain ⟨x, hx, kind, hk, accepted, rfl⟩ := h
  exact ⟨x, kind, by unfold atomC; omega, accepted, rfl⟩

/-- Loads, stores, gathers and scatters of class 2 (R157). -/
theorem decodeMem_encodes (hg : g.wf = true) (hm : m < 16) (hd : d < 2048) (ha : a < 2048) (hb : b < 2048) (hc : c < 2048)
    (h : decodeMem g op m d a b c = some i) : i.EncodesAs (.mkA g 2 op m d a b c) none := by
  have order := orderM_ofCode hm
  have offset : signedCode 1024 (signedOf 1024 c) = c := signedCode_signedOf hc
  have inRange := offWf_signedOf hc
  unfold decodeMem at h
  dsimp only at h
  by_cases hop : op < 6
  · rw [if_pos hop] at h
    obtain ⟨q, hq, row⟩ := Option.bind_eq_some_iff.mp h
    obtain ⟨accepted, rfl⟩ := need_eq_some.mp row
    obtain ⟨qwf, rfl⟩ := Qual.ofCode_spec hq
    exact ⟨Bool.and_intro (Bool.and_intro (Bool.and_intro (wf2_ofCode hg hd ha) accepted) qwf) inRange,
      congrArg some (by simp only [Opnd.code_ofCode, Nat.zero_add, order, offset, LdKind.code_ofCode hop]), rfl⟩
  rw [if_neg hop] at h
  obtain ⟨low8, h⟩ := Option.ite_none_left_eq_some.mp h
  by_cases hop : op < 12
  · rw [if_pos hop] at h
    obtain ⟨q, hq, row⟩ := Option.bind_eq_some_iff.mp h
    obtain ⟨accepted, rfl⟩ := need_eq_some.mp row
    obtain ⟨qwf, rfl⟩ := Qual.ofCode_spec hq
    exact ⟨Bool.and_intro (Bool.and_intro (Bool.and_intro (wf2_ofCode hg hd ha) accepted) qwf) inRange,
      congrArg some (by simp [order, offset, StWidth.op_ofCode low8 hop]), rfl⟩
  rw [if_neg hop] at h
  obtain ⟨low16, h⟩ := Option.ite_none_left_eq_some.mp h
  by_cases hop : op < 22
  · rw [if_pos hop] at h
    obtain ⟨bf, hbf, row⟩ := Option.bind_eq_some_iff.mp h
    obtain ⟨unused, rfl⟩ := need_eq_some.mp row
    cases beq_iff_eq.mp unused
    cases Buf.ofCode_eq_some.mp hbf
    exact ⟨Bool.and_intro (wf2_ofCode hg hd ha) inRange, congrArg some (by simp [offset, LdKind.op_ofCode low16 hop]), rfl⟩
  rw [if_neg hop] at h
  obtain ⟨low24, h⟩ := Option.ite_none_left_eq_some.mp h
  by_cases hop : op < 28
  · rw [if_pos hop] at h
    obtain ⟨bf, hbf, row⟩ := Option.bind_eq_some_iff.mp h
    obtain ⟨unused, rfl⟩ := need_eq_some.mp row
    cases beq_iff_eq.mp unused
    cases Buf.ofCode_eq_some.mp hbf
    exact ⟨Bool.and_intro (wf2_ofCode hg hd ha) inRange, congrArg some (by simp [offset, StWidth.op_ofCode low24 hop]), rfl⟩
  rw [if_neg hop] at h
  obtain ⟨low32, h⟩ := Option.ite_none_left_eq_some.mp h
  by_cases hop : op < 38
  · rw [if_pos hop] at h
    obtain ⟨unused, rfl⟩ := need_eq_some.mp h
    cases beq_iff_eq.mp unused
    exact ⟨Bool.and_intro (wf3_ofCode hg hd ha hb) inRange, congrArg some (by simp [offset, LdKind.op_ofCode low32 hop]), rfl⟩
  rw [if_neg hop] at h
  obtain ⟨low40, h⟩ := Option.ite_none_left_eq_some.mp h
  by_cases hop : op < 44
  · rw [if_pos hop] at h
    obtain ⟨unused, rfl⟩ := need_eq_some.mp h
    cases beq_iff_eq.mp unused
    exact ⟨Bool.and_intro (wf3_ofCode hg hd ha hb) inRange, congrArg some (by simp [offset, StWidth.op_ofCode low40 hop]), rfl⟩
  · rw [if_neg hop] at h
    cases h

theorem waitc_counts {n : Nat} (h : n % 64 = 0) : n / 65536 * 65536 + n / 1024 % 64 * 1024 + n / 64 % 16 * 64 = n := by omega

/-- The other rows of class 2 (R157). -/
theorem decodeC2_encodes (hg : g.wf = true) (hm : m < 16) (hd : d < 2048) (ha : a < 2048) (hb : b < 2048) (hc : c < 2048)
    (h : decodeC2 g op m d a b c = some i) : i.EncodesAs (.mkA g 2 op m d a b c) none := by
  have himm := imm22_lt hb hc
  have order := orderM_ofCode hm
  have offset : signedCode 1024 (signedOf 1024 c) = c := signedCode_signedOf hc
  have inRange := offWf_signedOf hc
  unfold decodeC2 at h
  dsimp only at h
  split at h
  · exact decodeMem_encodes hg hm hd ha hb hc h
  split at h
  case h_1 =>
    obtain ⟨x, kind, rfl, accepted, rfl⟩ := decodeAtom_spec h
    exact ⟨Bool.and_intro (wf3_ofCode hg hd ha hb) accepted, congrArg some (by simp [order]), rfl⟩
  case h_2 =>
    obtain ⟨x, kind, rfl, accepted, rfl⟩ := decodeAtom_spec h
    simp only [Bool.and_eq_true, beq_iff_eq] at accepted
    obtain ⟨⟨accepted, ordered⟩, rfl⟩ := accepted
    exact ⟨Bool.and_intro (Bool.and_intro (wf2_ofCode hg ha hb) accepted) ordered, congrArg some (by simp [order]), rfl⟩
  case h_3 =>
    obtain ⟨x, kind, rfl, accepted, rfl⟩ := decodeAtom_spec h
    obtain ⟨accepted, ordered⟩ := (Bool.and_eq_true _ _).mp accepted
    exact ⟨Bool.and_intro (Bool.and_intro (wf3_ofCode hg hd ha hb) accepted) ordered, congrArg some (by simp [order]), rfl⟩
  case h_17 =>
    split at h
    case h_4 => cases h
    all_goals
      cases h
      exact ⟨wf4_ofCode hg hd ha hb hc, congrArg some (by simp), rfl⟩
  case h_18 =>
    split at h
    case h_3 => cases h
    all_goals simp only [need_eq_some, Bool.and_eq_true, beq_iff_eq, decide_eq_true_eq, and_assoc] at h
    case h_1 =>
      obtain ⟨rfl, rfl, small, rfl⟩ := h
      exact ⟨Bool.and_intro hg (decide_eq_true small), congrArg some (Fields.mkI_imm22 hc), rfl⟩
    case h_2 =>
      obtain ⟨rfl, zero, rfl⟩ := h
      exact ⟨wf1_ofCode hg hd, congrArg some (by rw [← zero, Fields.mkI_imm22 hc, Opnd.code_ofCode]), rfl⟩
  case h_20 =>
    split at h
    case h_3 => cases h
    all_goals
      simp only [need_eq_some, Bool.and_eq_true, beq_iff_eq, and_assoc] at h
      obtain ⟨rfl, rfl, rfl, rfl, rfl⟩ := h
      exact ⟨hg, rfl, rfl⟩
  all_goals simp only [Option.bind_eq_some_iff, need_eq_some, Bool.and_eq_true, beq_iff_eq, bne_iff_ne, decide_eq_true_eq,
    Option.some.injEq, Buf.ofCode_eq_some, and_assoc, reduceCtorEq] at h
  case h_4 =>
    obtain ⟨ordered, rfl, rfl, rfl, rfl, rfl⟩ := h
    exact ⟨Bool.and_intro hg (decide_eq_true ordered), congrArg some (by simp [order]), rfl⟩
  case h_5 =>
    obtain ⟨q, hq, rfl, rfl, rfl⟩ := h
    obtain ⟨qwf, rfl⟩ := Qual.ofCode_spec hq
    exact ⟨Bool.and_intro (Bool.and_intro (wf1_ofCode hg ha) qwf) inRange, congrArg some (by simp [offset]), rfl⟩
  case h_6 =>
    obtain ⟨rfl, rfl, rfl, rfl⟩ := h
    exact ⟨Bool.and_intro (wf1_ofCode hg ha) inRange, congrArg some (by simp [offset]), rfl⟩
  case h_7 | h_8 | h_10 | h_11 =>
    obtain ⟨small, rfl⟩ := h
    have qual := (copyQual_codes m).trans (Nat.mod_eq_of_lt small)
    exact ⟨Bool.and_intro (wf4_ofCode hg hd ha hb hc) (copyQual_wf m), congrArg some (by simp [qual]), rfl⟩
  case h_9 =>
    subst h
    have out : m % 8 + (if m / 8 = 1 then 8 else 0) = m := by split <;> omega
    exact ⟨Bool.and_intro (wf4_ofCode hg hd ha hb hc) (copyQual_wf m), congrArg some (by simp [copyQual_codes, out]), rfl⟩
  case h_12 | h_13 | h_14 | h_15 | h_16 =>
    obtain ⟨bf, rfl, rfl⟩ := h
    exact ⟨wf4_ofCode hg hd ha hb hc, congrArg some (by simp), rfl⟩
  case h_19 =>
    obtain ⟨rfl, rfl, rfl, aligned, rfl⟩ := h
    have counts : imm22 b c / 65536 < 64 ∧ imm22 b c / 1024 % 64 < 64 ∧ imm22 b c / 64 % 16 < 16 := by omega
    obtain ⟨loads, stores, tools⟩ := counts
    exact ⟨Bool.and_intro (Bool.and_intro (Bool.and_intro hg (decide_eq_true loads)) (decide_eq_true stores))
      (decide_eq_true tools), congrArg some (by rw [waitc_counts aligned, Fields.mkI_imm22 hc]), rfl⟩
  case h_21 =>
    obtain ⟨rfl, rfl, rfl, rfl⟩ := h
    exact ⟨wf2_ofCode hg ha hb, congrArg some (by simp), rfl⟩

/-! ## Classes 3 to 6 -/

/-- What the frame of a command says of its fields (R143). -/
theorem CmdFrame.ofCode_spec {fr : CmdFrame} {m3 : Nat} (hm : m3 < 2) (ha : a < 2048) (hb : b < 2048) (hc : c < 2048)
    (h : CmdFrame.ofCode m3 a b c = some fr) :
    fr.wf = true ∧ fr.m3 = m3 ∧ fr.wm.toNat = a * 32 + b / 64 ∧ fr.ssCode = b / 2 % 32 ∧ fr.barCode = b % 2 * 32 + c / 64 := by
  have mask : (BitVec.ofNat 16 (a * 32 + b / 64)).toNat = a * 32 + b / 64 := by
    rw [BitVec.toNat_ofNat]; exact Nat.mod_eq_of_lt (by omega)
  have barrier : b % 2 * 32 + c / 64 < 64 := by omega
  unfold CmdFrame.ofCode at h
  dsimp only at h
  split at h
  · next slot =>
    split at h
    · next one =>
      cases h
      exact ⟨Bool.and_intro (decide_eq_true slot) (decide_eq_true barrier), one.symm, mask, rfl, rfl⟩
    · next one =>
      obtain ⟨noBar, h⟩ := Option.ite_none_right_eq_some.mp h
      cases h
      obtain rfl : m3 = 0 := by omega
      exact ⟨Bool.and_intro (decide_eq_true slot) rfl, rfl, mask, rfl, noBar.symm⟩
  · obtain ⟨noSlot, h⟩ := Option.ite_none_right_eq_some.mp h
    split at h
    · next one =>
      cases h
      exact ⟨decide_eq_true barrier, one.symm, mask, noSlot.symm, rfl⟩
    · next one =>
      obtain ⟨noBar, h⟩ := Option.ite_none_right_eq_some.mp h
      cases h
      obtain rfl : m3 = 0 := by omega
      exact ⟨rfl, rfl, mask, noSlot.symm, noBar.symm⟩

/-- A command's fields, put together again from its frame (R143). -/
theorem Fields.mkE_ofCode {fr : CmdFrame} (hm : m < 16) (ha : a < 2048) (hb : b < 2048) (hc : c < 2048) (hm4 : m / 4 % 2 ≠ 1)
    (h : CmdFrame.ofCode (m / 8) a b c = some fr) : Fields.mkE g op (m % 4) fr d (c % 64) = .mkA g 3 op m d a b c := by
  obtain ⟨-, hm3, hwm, hss, hbar⟩ := CmdFrame.ofCode_spec (by omega) ha hb hc h
  unfold Fields.mkE
  rw [hm3, hwm, hss, hbar]
  congr 1 <;> omega

/-- The frame of a local row is the empty one (R158). -/
theorem localOk_frame {fr : CmdFrame} (ha : a < 2048) (hb : b < 2048) (hc : c < 2048)
    (h : CmdFrame.ofCode (m / 8) a b c = some fr) (ok : localOk m fr = true) : m = 0 ∧ fr = .none := by
  simp only [localOk, Bool.and_eq_true, beq_iff_eq] at ok
  obtain ⟨⟨rfl, hwm⟩, hss⟩ := ok
  obtain ⟨-, hm3, -⟩ := CmdFrame.ofCode_spec (by decide) ha hb hc h
  obtain ⟨wm, ss, bar⟩ := fr
  cases hwm
  cases hss
  cases bar
  · exact ⟨rfl, rfl⟩
  · cases hm3

/-- Class 3 (R158). -/
theorem decodeC3_encodes (hg : g.wf = true) (hm : m < 16) (hd : d < 2048) (ha : a < 2048) (hb : b < 2048) (hc : c < 2048)
    (h : decodeC3 g op m d a b c = some i) : i.EncodesAs (.mkA g 3 op m d a b c) none := by
  unfold decodeC3 at h
  obtain ⟨fr, hfr, h⟩ := Option.bind_eq_some_iff.mp h
  obtain ⟨hm4, h⟩ := Option.ite_none_left_eq_some.mp h
  have fields : ∀ o e, Fields.mkE g o (m % 4) fr e (c % 64) = .mkA g 3 o m e a b c :=
    fun _ _ => Fields.mkE_ofCode hm ha hb hc hm4 hfr
  obtain ⟨frame, -⟩ := CmdFrame.ofCode_spec (by omega) ha hb hc hfr
  have arr : m % 4 < 4 := Nat.mod_lt _ (by decide)
  split at h
  all_goals simp only [need_eq_some, Bool.and_eq_true, beq_iff_eq, decide_eq_true_eq, and_assoc, reduceCtorEq] at h
  case h_1 | h_11 | h_12 =>
    obtain ⟨ok, small, rfl⟩ := h
    obtain ⟨rfl, rfl⟩ := localOk_frame ha hb hc hfr ok
    exact ⟨Bool.and_intro (wf1_ofCode hg hd) (decide_eq_true small),
      congrArg some (by rw [Opnd.code_ofCode]; exact fields _ _), rfl⟩
  case h_2 | h_5 =>
    obtain ⟨zero, rfl⟩ := h
    exact ⟨Bool.and_intro (Bool.and_intro (wf1_ofCode hg hd) (decide_eq_true arr)) frame,
      congrArg some (by rw [Opnd.code_ofCode, ← fields, zero]), rfl⟩
  case h_3 =>
    obtain ⟨zero, small, rfl⟩ := h
    exact ⟨Bool.and_intro (Bool.and_intro (wf1_ofCode hg hd) (decide_eq_true small)) frame,
      congrArg some (by rw [Opnd.code_ofCode, ← fields, zero]), rfl⟩
  case h_4 =>
    obtain ⟨zero, rfl, rfl⟩ := h
    exact ⟨Bool.and_intro (Bool.and_intro hg (decide_eq_true arr)) frame, congrArg some (by rw [← fields, zero]), rfl⟩
  case h_6 | h_7 | h_8 | h_9 | h_10 =>
    obtain ⟨array, zero, rfl⟩ := h
    exact ⟨Bool.and_intro (wf1_ofCode hg hd) frame, congrArg some (by rw [Opnd.code_ofCode, ← fields, zero, array]), rfl⟩
  case h_13 =>
    obtain ⟨ok, zero, rfl⟩ := h
    obtain ⟨rfl, rfl⟩ := localOk_frame ha hb hc hfr ok
    exact ⟨wf1_ofCode hg hd, congrArg some (by rw [Opnd.code_ofCode, ← fields, zero]), rfl⟩

/-- Class 4 (R159). -/
theorem decodeC4_encodes (hg : g.wf = true) (hd : d < 2048) (ha : a < 2048) (hb : b < 2048) (hc : c < 2048)
    (h : decodeC4 g op m d a b c = some i) : i.EncodesAs (.mkA g 4 op m d a b c) none := by
  unfold decodeC4 at h
  dsimp only at h
  split at h
  case h_13 =>
    split at h
    · next unnamed =>
      subst unnamed
      simp only [need_eq_some, Bool.and_eq_true, beq_iff_eq, and_assoc] at h
      obtain ⟨rfl, rfl, rfl, rfl⟩ := h
      exact ⟨wf1_ofCode hg ha, congrArg some (by simp), rfl⟩
    · simp only [Option.bind_eq_some_iff, need_eq_some, Bool.and_eq_true, beq_iff_eq, Rep.ofCode_eq_some, and_assoc] at h
      obtain ⟨r, rfl, rfl, rfl, rfl, rfl⟩ := h
      exact ⟨wf1_ofCode hg ha, congrArg some (by simp), rfl⟩
  all_goals simp only [need_eq_some, Bool.and_eq_true, Bool.or_eq_true, beq_iff_eq, decide_eq_true_eq, and_assoc,
    reduceCtorEq] at h
  case h_1 =>
    obtain ⟨rfl, rfl, rfl, rfl, rfl⟩ := h
    exact ⟨wf1_ofCode hg hd, congrArg some (by simp), rfl⟩
  case h_2 =>
    obtain ⟨rfl, rfl, rfl, rfl, rfl⟩ := h
    exact ⟨wf1_ofCode hg ha, congrArg some (by simp), rfl⟩
  case h_3 | h_4 =>
    obtain ⟨small, rfl, result, rfl⟩ := h
    obtain rfl | rfl : m = 0 ∨ m = 1 := by omega
    · obtain rfl := result.resolve_left (by decide)
      exact ⟨Bool.and_intro (wf3_ofCode hg hd ha hb) rfl, congrArg some (by simp), rfl⟩
    · exact ⟨Bool.and_intro (wf3_ofCode hg hd ha hb) rfl, congrArg some (by simp), rfl⟩
  case h_5 =>
    obtain ⟨rfl, rfl, rfl⟩ := h
    exact ⟨wf3_ofCode hg hd ha hb, congrArg some (by simp), rfl⟩
  case h_6 =>
    obtain ⟨rfl, rfl, rfl, rfl⟩ := h
    exact ⟨wf2_ofCode hg hd ha, congrArg some (by simp), rfl⟩
  case h_7 | h_8 | h_9 | h_10 =>
    obtain ⟨rfl, rfl, rfl⟩ := h
    exact ⟨wf3_ofCode hg ha hb hc, congrArg some (by simp), rfl⟩
  case h_11 =>
    obtain ⟨rfl, rfl⟩ := h
    exact ⟨wf4_ofCode hg hd ha hb hc, congrArg some (by simp), rfl⟩
  case h_12 =>
    obtain ⟨rfl, rfl, rfl⟩ := h
    exact ⟨wf3_ofCode hg hd ha hc, congrArg some (by simp), rfl⟩
  case h_14 =>
    obtain ⟨small, rfl, rfl, rfl, rfl⟩ := h
    exact ⟨Bool.and_intro (wf1_ofCode hg hd) (decide_eq_true small), congrArg some (by simp), rfl⟩

/-- Class 5 (R160). -/
theorem decodeC5_encodes (hg : g.wf = true) (hd : d < 2048) (ha : a < 2048) (hb : b < 2048) (hc : c < 2048)
    (h : decodeC5 g op m d a b c = some i) : i.EncodesAs (.mkA g 5 op m d a b c) none := by
  unfold decodeC5 at h
  dsimp only at h
  obtain ⟨hm, row⟩ := Option.ite_none_left_eq_some.mp h
  obtain rfl := not_not.mp hm
  clear h hm
  split at row
  all_goals simp only [need_eq_some, Bool.and_eq_true, beq_iff_eq, decide_eq_true_eq, and_assoc, reduceCtorEq] at row
  case h_1 =>
    obtain ⟨rfl, small, rfl⟩ := row
    exact ⟨Bool.and_intro (wf1_ofCode hg ha) (decide_eq_true small),
      congrArg some (by rw [Fields.mkI_imm22 hc, Opnd.code_ofCode]), rfl⟩
  case h_2 | h_3 =>
    obtain ⟨rfl, rfl, small, rfl⟩ := row
    exact ⟨Bool.and_intro hg (decide_eq_true small), congrArg some (Fields.mkI_imm22 hc), rfl⟩
  case h_4 =>
    obtain ⟨rfl, small, rfl⟩ := row
    exact ⟨Bool.and_intro (wf1_ofCode hg hd) (decide_eq_true small),
      congrArg some (by rw [Fields.mkI_imm22 hc, Opnd.code_ofCode]), rfl⟩
  case h_5 | h_10 | h_12 =>
    obtain ⟨rfl, rfl, rfl, rfl, rfl⟩ := row
    exact ⟨hg, rfl, rfl⟩
  case h_6 | h_14 =>
    obtain ⟨rfl, rfl, rfl, rfl⟩ := row
    exact ⟨wf1_ofCode hg hd, congrArg some (by simp), rfl⟩
  case h_7 =>
    obtain ⟨rfl, rfl, rfl, rfl⟩ := row
    exact ⟨wf1_ofCode hg ha, congrArg some (by simp), rfl⟩
  case h_8 =>
    obtain ⟨rfl, rfl⟩ := row
    exact ⟨wf3_ofCode hg ha hb hc, congrArg some (by simp), rfl⟩
  case h_9 | h_11 =>
    obtain ⟨rfl, rfl, small, rfl⟩ := row
    have code : (BitVec.ofNat 16 (imm22 b c)).toNat = imm22 b c := Nat.mod_eq_of_lt small
    exact ⟨hg, congrArg some (by rw [code, Fields.mkI_imm22 hc]), rfl⟩
  case h_13 =>
    obtain ⟨rfl, rfl, rfl⟩ := row
    exact ⟨wf2_ofCode hg hd ha, congrArg some (by simp), rfl⟩

theorem setWidth_ofNat {n : Nat} (h : n < 4294967296) : (BitVec.ofNat 32 n).setWidth 64 = BitVec.ofNat 64 n := by
  apply BitVec.eq_of_toNat_eq
  rw [BitVec.toNat_setWidth, BitVec.toNat_ofNat, BitVec.toNat_ofNat, Nat.mod_eq_of_lt h]

/-- Class 6 (R161). -/
theorem decodeC6_encodes {w1 : Nat} (hg : g.wf = true) (hd : d < 2048) (ha : a < 2048) (hw : w1 < 18446744073709551616)
    (h : decodeC6 g op m d a b c w1 = some i) : i.EncodesAs (.mkA g 6 op m d a b c) (some (BitVec.ofNat 64 w1)) := by
  unfold decodeC6 at h
  dsimp only at h
  obtain ⟨unused, row⟩ := Option.ite_none_left_eq_some.mp h
  clear h
  simp only [not_or, not_not] at unused
  obtain ⟨rfl, rfl, rfl⟩ := unused
  have high : w1 / 4294967296 < 4294967296 := by omega
  have low : w1 % 4294967296 < 4294967296 := Nat.mod_lt _ (by decide)
  have word : w1 / 4294967296 = 0 → w1 % 4294967296 = w1 := fun short => by omega
  split at row
  all_goals simp only [need_eq_some, Bool.and_eq_true, beq_iff_eq, decide_eq_true_eq, and_assoc, reduceCtorEq] at row
  case h_1 | h_3 =>
    obtain ⟨rfl, short, rfl⟩ := row
    exact ⟨wf1_ofCode hg hd, congrArg some (by simp), congrArg some (by rw [word short]; exact setWidth_ofNat (by omega))⟩
  case h_2 =>
    obtain ⟨rfl, rfl⟩ := row
    exact ⟨wf1_ofCode hg hd, congrArg some (by simp), rfl⟩
  case h_4 =>
    obtain ⟨rfl, small, rfl⟩ := row
    exact ⟨Bool.and_intro (Bool.and_intro (Bool.and_intro hg (decide_eq_true small)) (callWf_signedOf high))
      (callWf_signedOf low), rfl, congrArg some (by rw [signedCode_signedOf high, signedCode_signedOf low, Nat.div_add_mod'])⟩
  case h_5 =>
    obtain ⟨short, small, rfl⟩ := row
    exact ⟨Bool.and_intro (Bool.and_intro (wf1_ofCode hg ha) (decide_eq_true small)) (callWf_signedOf low),
      congrArg some (by simp), congrArg some (by rw [signedCode_signedOf low, word short])⟩

/-! ## All classes -/

/-- What the fields of a word decode to is well-formed, and encodes to them. -/
theorem decodeFields_encodes {x : Fields} {w1 : Nat} (fits : x.Fits) (hw : w1 < 18446744073709551616)
    (h : decodeFields x w1 = some i) :
    i.EncodesAs x (if x.cls == 6 then some (BitVec.ofNat 64 w1) else none) := by
  obtain ⟨cls, op, m, pred, pn, d, a, b, c⟩ := x
  obtain ⟨-, -, hm, -, hpn, hd, ha, hb, hc⟩ := fits
  obtain ⟨g, hguard, row⟩ := Option.bind_eq_some_iff.mp h
  obtain ⟨hg, rfl, rfl⟩ := Guard.ofCode_spec hguard hpn
  clear h
  dsimp only at row
  split at row
  case h_1 => exact decodeC0_encodes hg hd ha hb hc row
  case h_2 => exact decodeC1_encodes hg hd ha hb hc row
  case h_3 => exact decodeC2_encodes hg hm hd ha hb hc row
  case h_4 => exact decodeC3_encodes hg hm hd ha hb hc row
  case h_5 => exact decodeC4_encodes hg hd ha hb hc row
  case h_6 => exact decodeC5_encodes hg hd ha hb hc row
  case h_7 => exact decodeC6_encodes hg hd ha hw row
  case h_8 => cases row

end Rows

end Sys2Proof
end

section
/-! PROOF of `DecodeAndEncodeAgree` (O52). A word is its fields (`Fields.ofNat_toNat`, `Fields.toNat_ofNat`); the decoder reads an
instruction back from its fields (`Laws.RoundTrip`), and what it reads encodes to the fields read (`decodeFields_encodes`). -/

namespace Sys2Proof

/-! ## Words that decode -/

/-- The fields of a word lie within their bits (R141, R143). -/
theorem Fields.fits_ofNat {n : Nat} : (Fields.ofNat n).Fits := by
  refine ⟨?_, ?_, ?_, ?_, ?_, ?_, ?_, ?_, ?_⟩
  all_goals exact Nat.mod_lt _ (by decide)

theorem Fields.toNat_ofNat {n : Nat} (h : n < 18446744073709551616) : (Fields.ofNat n).toNat = n := by
  have split : ∀ p q, n / (p * q) * (p * q) + n / p % q * p = n / p * p := fun p q => by
    rw [← Nat.div_div_eq_div_mul, Nat.mul_comm p q, ← Nat.mul_assoc, ← Nat.add_mul, Nat.div_add_mod']
  have b := split 2048 2048
  have a := split 4194304 2048
  have d := split 8589934592 2048
  have pn := split 17592186044416 2
  have pred := split 35184372088832 32
  have mod := split 1125899906842624 16
  have op := split 18014398509481984 128
  have c := Nat.div_add_mod' n 2048
  have top : n / 2305843009213693952 % 8 = n / 2305843009213693952 := Nat.mod_eq_of_lt (Nat.div_lt_of_lt_mul h)
  simp only [Nat.reduceMul] at b a d pn pred mod op
  unfold Fields.ofNat Fields.toNat
  dsimp only
  rw [top, op, mod, pred, pn, d, a, b, c]

/-- The encoding of an instruction that has fields: its word 0, and its word 1 where it has one. -/
theorem encode_of_fields {i : Instr} {x : Fields} (h : encodeFields i = some x) :
    encode i = BitVec.ofNat 64 x.toNat :: (encodeSecond i).toList := by
  unfold encode
  split
  · cases h
  · rw [h]
    cases encodeSecond i <;> rfl

theorem size_of_fields {i : Instr} {x : Fields} (h : encodeFields i = some x) :
    i.size = if (encodeSecond i).isSome then 16 else 8 := by
  unfold Instr.size
  split
  · cases h
  · rfl

theorem decodedEncodes : Claim.DecodedEncodes := by
  intro w0 w1
  cases h : decodeFields (Fields.ofNat w0.toNat) w1.toNat with
  | none =>
    have word : decodeWords w0 w1 = .unassignedWord w0 w1 := by rw [decodeWords, h]; rfl
    rw [word]
    exact ⟨fun assigned => absurd rfl (assigned w0 w1), fun _ => rfl⟩
  | some i =>
    have word : decodeWords w0 w1 = i := by rw [decodeWords, h]; rfl
    obtain ⟨wf, fields, second⟩ := decodeFields_encodes Fields.fits_ofNat w1.isLt h
    rw [word]
    refine ⟨fun _ => ⟨wf, ?_⟩, fun unassigned => absurd ?_ unassigned⟩
    · rw [encode_of_fields fields, second, Fields.toNat_ofNat w0.isLt, BitVec.ofNat_toNat, BitVec.ofNat_toNat,
        BitVec.setWidth_eq, BitVec.setWidth_eq]
      unfold takesSecondWord
      split <;> rfl
    · rintro u v rfl
      cases fields

/-! ## Encoded instructions -/

namespace Laws.RoundTrip

/-- The decoder reads every instruction back from its fields. -/
theorem statement (i : Instr) : Statement i :=
  @Instr.casesOn Statement i
    vaddF vsubF vmulF vfmaF vminF vmaxF vaddminF vmaxaddF vcmpF vrndi vldexp vgetexp vnegF vabsF vrcp vrsqrt vfexp2
    vlog2 vcvt vdp4F16 vdp4Bf16 vdp4I8 vcbxCb3 vcbxCb4 vaddT vsubT vmulT vmulhi vmad vminT vmaxT vabsT vnegT vaddminT
    vmaxaddT vcmpT vand vor vxor vnot vshl vshr vpopc vclz vbfe vbfi vsel vmov vshup vshdn vperm vbcast vredaddF
    vscanIncF vscanExcF vredaddT vscanIncT vscanExcT vpack vunpack saddF ssubF smulF sfma sminF smaxF scmpF scvt saddT
    ssubT smulT smulhi smad sminT smaxT sabs sneg scmpT sand sor sxor snot sshl sshr spopc sclz sbfe sbfi ssel smov
    lget lput srd swr bra braAny braAll braNone braZ braNz jmp brx callDirect callRegister ret exit park yield grow
    shrink taskPush nop sli sli64 vli ld st gath scat ldb stb atom red redRet fence pref ipref copyAbuf copyWbuf
    copyOut copyMc copyQ toolXpose toolCvt toolQuant toolZero toolRsum chaseLink chaseIndex chaseSample l1cfg l1cfgQ
    waitc cinvD cinvI cflush tbind ldst cbtload mswap mstream mop mzero chainCfg chainStep chainRun bdSet bdGet dsrd
    setNew setFree setIns setDel setHas setCard setOr setAnd setSub setIn setOut setIter setHint setHintNone setCost
    barInit barArrive barWait barStatus qstate gstart gwait fdefer trap tret rngOpen rngClose capq tmrd unassignedWord
    storeDrain storePerform storeAcknowledge releaseProceed atomicPerform loadReturn bufferAccessPerform pageWalk
    l1Fill l2Fill cxlOwnership hbmRequestService deadlineMiss engineLineRelease chaseHop l1Conversion copyEngineStart
    copyChunk toolChunk commandStart chainStepExecute commandEnd setEngineOperation setFreeReturn quiescentPoint
    gstartTarget trackerReport cinchPush gracestall barrierArrival flipBroadcast parkWake parkTimeout timer
    userTrapEntry warpSwap growGrant waitcRelease taskStart continuationResume taskPushAppend launchCheck waitWordRead
    admissionTake reservationReply backoffExpiry completionWordWrite yieldDeadline forcedSaveLimit gangSave
    gangRestore contextResetComplete faultRecord tlbInvComplete loadComplete sliRatioDone icacheFill parkWatchDrop
    queueWindowWrite preemptRequest saveSpill contextResume contextReset contextEnable contextDisable retry skip
    resumeReset tlbInv loadStart fuseCmd fuseBlowDone attestationStart attestationReport sliCfgWrite powerLimiterStep
    registerWrite hostMemAccess peerAccess linkDeliveryFailure softError moduleTraining deviceReset
    cxlCacheOwnershipLoss linkPortServiceChange powerStateChange

end Laws.RoundTrip

/-- Every well-formed instruction has fields, other than an unassigned word; a step that no word starts is not well-formed. -/
theorem encodeFields_of_wf {i : Instr} (h : i.wf = true) (assigned : Claim.assigned i) : ∃ x, encodeFields i = some x := by
  cases i
  case unassignedWord w0 w1 => exact absurd rfl (assigned w0 w1)
  all_goals first | exact ⟨_, rfl⟩ | cases h

/-- The instructions with a second word are those of class 6 (R140). -/
theorem encodeSecond_isSome {i : Instr} {x : Fields} (h : encodeFields i = some x) :
    (encodeSecond i).isSome = (x.cls == 6) := by
  cases i
  all_goals cases h
  all_goals rfl

/-- Bits put before others, as a natural. -/
theorem toNat_append_mul {m n : Nat} (x : BitVec m) (y : BitVec n) : (x ++ y).toNat = x.toNat * 2 ^ n + y.toNat := by
  rw [BitVec.toNat_append, ← Nat.shiftLeft_add_eq_or_of_lt y.isLt, Nat.shiftLeft_eq]

/-- The word at the front of bytes laid down least significant first (R140). -/
theorem takeWord_leBytes (v : Nat) (rest : List Byte) :
    takeWord (Machine.leBytes 8 v ++ rest) = some (BitVec.ofNat 64 v, rest) := by
  refine congrArg some (Prod.ext (BitVec.eq_of_toNat_eq ?_) rfl)
  simp only [toNat_append_mul, BitVec.toNat_ofNat, Nat.reducePow]
  omega

theorem wordBytes_eq (w : DWord) : wordBytes w = Machine.leBytes 8 w.toNat := by
  have byte : ∀ k, w.extractLsb' k 8 = BitVec.ofNat 8 (w.toNat / 2 ^ k) := fun k => by
    apply BitVec.eq_of_toNat_eq
    rw [BitVec.extractLsb'_toNat, Nat.shiftRight_eq_div_pow, BitVec.toNat_ofNat]
  have reduced : ∀ n, BitVec.ofNat 8 (n % 256) = BitVec.ofNat 8 n := fun n => by
    apply BitVec.eq_of_toNat_eq
    simp
  simp only [wordBytes, byte, Machine.leBytes, reduced, Nat.div_div_eq_div_mul, Nat.reducePow, Nat.reduceMul, Nat.div_one]

theorem takeWord_wordBytes (w : DWord) (rest : List Byte) : takeWord (wordBytes w ++ rest) = some (w, rest) := by
  rw [wordBytes_eq, takeWord_leBytes, BitVec.ofNat_toNat, BitVec.setWidth_eq]

/-- The bytes of a word that is an instruction by itself. -/
theorem decodeBytes_oneWord {w0 : DWord} (h : takesSecondWord w0 = false) (rest : List Byte) :
    decodeBytes (wordBytes w0 ++ rest) = .ok (decodeWords w0 0#64, rest) := by
  simp only [decodeBytes, takeWord_wordBytes, h, Bool.false_eq_true, if_false]

/-- The bytes of a word with the word that it takes after it (R140). -/
theorem decodeBytes_twoWords {w0 : DWord} (h : takesSecondWord w0 = true) (w1 : DWord) (rest : List Byte) :
    decodeBytes (wordBytes w0 ++ (wordBytes w1 ++ rest)) = .ok (decodeWords w0 w1, rest) := by
  simp only [decodeBytes, takeWord_wordBytes, h, if_true]

theorem encodedDecodes : Claim.EncodedDecodes := by
  intro i wf assigned
  obtain ⟨x, hx⟩ := encodeFields_of_wf wf assigned
  obtain ⟨fits, reads⟩ := Laws.RoundTrip.statement i wf x hx
  have word : (BitVec.ofNat 64 x.toNat).toNat = x.toNat := by
    rw [BitVec.toNat_ofNat]; exact Nat.mod_eq_of_lt (Fields.toNat_lt x fits)
  have second : takesSecondWord (BitVec.ofNat 64 x.toNat) = (encodeSecond i).isSome := by
    rw [takesSecondWord, word, Fields.ofNat_toNat x fits, encodeSecond_isSome hx]
  have decodes : decodeWords (BitVec.ofNat 64 x.toNat) ((encodeSecond i).getD 0#64) = i := by
    rw [decodeWords, word, Fields.ofNat_toNat x fits, reads]; rfl
  rw [encode_of_fields hx, size_of_fields hx]
  cases hs : encodeSecond i with
  | none =>
    rw [hs] at second decodes
    refine ⟨rfl, fun rest => (decodeBytes_oneWord second rest).trans ?_⟩
    exact congrArg (fun i => Except.ok (i, rest)) decodes
  | some w1 =>
    rw [hs] at second decodes
    refine ⟨rfl, fun rest => (decodeBytes_twoWords second w1 rest).trans ?_⟩
    exact congrArg (fun i => Except.ok (i, rest)) decodes

/-- Settles O52: an instruction's fields decode to it, and the fields of a word that decodes are those of its instruction. -/
theorem decodeAndEncodeAgree : Obligations.DecodeAndEncodeAgree := ⟨encodedDecodes, decodedEncodes⟩

end Sys2Proof
end

section
/-! PROOF of `IssueChecks` (O1). Every instruction word is the frame of `issueWith`, which makes its checks in the order of R152
before it comes to the instruction's effect. -/

namespace Sys2Proof.Machine

open Sys2Proof.Claim

/-! ## The order of the checks of the fields (R152) -/

/-- A register number that its field does not admit is ILL, whatever else is wrong. -/
theorem checkUses_odd {alloc : Nat} {us : List Use} (h : ∃ u ∈ us, u.odd = true) : checkUses alloc us = some 4 := by
  rw [checkUses, if_pos (List.any_eq_true.mpr h)]; rfl

theorem not_any_odd {us : List Use} (h : ∀ u ∈ us, u.odd = false) : ¬ us.any Use.odd = true := by
  rw [Bool.not_eq_true, List.any_eq_false]
  exact fun u hu => by rw [h u hu]; decide

/-- Of admitted register numbers, a code that its field does not accept is ILLOP. -/
theorem checkUses_notAccepted {alloc : Nat} {us : List Use} (even : ∀ u ∈ us, u.odd = false)
    (h : ∃ u ∈ us, u.acc.ok u.op = false) : checkUses alloc us = some 5 := by
  obtain ⟨u, hu, refused⟩ := h
  rw [checkUses, if_neg (not_any_odd even), if_pos (List.any_eq_true.mpr ⟨u, hu, by rw [refused]; rfl⟩)]; rfl

/-- Of fields that are otherwise right, a vector register at or above the allotment is REGB (R35). -/
theorem checkUses_beyond {alloc : Nat} {us : List Use} (even : ∀ u ∈ us, u.odd = false)
    (accepted : ∀ u ∈ us, u.acc.ok u.op = true) (h : ∃ u ∈ us, u.beyond alloc = true) : checkUses alloc us = some 6 := by
  have noneRefused : ¬ us.any (fun u => !u.acc.ok u.op) = true := by
    rw [Bool.not_eq_true, List.any_eq_false]
    exact fun u hu => by rw [accepted u hu]; decide
  rw [checkUses, if_neg (not_any_odd even), if_neg noneRefused, if_pos (List.any_eq_true.mpr h)]; rfl

/-! ## The claims -/

theorem illegalFieldsFaultInOrder : Claim.IllegalFieldsFaultInOrder := by
  intro i F s c hF hc
  obtain ⟨eff, issues, -⟩ := exec_issues hF
  refine ⟨fun odd => ?_, fun even refused => ?_, fun even accepted beyond => ?_⟩
  · rw [issues, issueWith_illegal hc (checkUses_odd odd)]; rfl
  · rw [issues, issueWith_illegal hc (checkUses_notAccepted even refused)]; rfl
  · rw [issues, issueWith_illegal hc (checkUses_beyond even accepted beyond)]; rfl

theorem ownChecksFaultPrecisely : Claim.OwnChecksFaultPrecisely := by
  intro i F s c f hF hc hu
  obtain ⟨eff, issues, -⟩ := exec_issues hF
  refine ⟨fun hp => ?_, fun hp hw ha hm hq => ?_⟩
  · rw [issues, issueWith_pre hc hu hp]; rfl
  · rw [issues, issueWith_post hc hu hp hw ha hm hq]; rfl

theorem unassignedWordIsIllegal : Claim.UnassignedWordIsIllegal := by
  intro w0 w1 s c hc
  obtain ⟨hst, -⟩ := Ctx.of_spec hc
  have hmem : c.st.mem = s.mem := congrArg State.mem hst
  refine ⟨?_, fun a => congrArg (fun m => kgetD 0#8 m a) hmem⟩
  show execUnassignedWord w0 w1 s = _
  rw [execUnassignedWord, hc]
  rfl

/-- Settles O1: the frame `issueWith` makes the checks in their order, and each stops the agent by `Ctx.fault`. -/
theorem issueChecks : Obligations.IssueChecks :=
  ⟨illegalFieldsFaultInOrder, ownChecksFaultPrecisely, unassignedWordIsIllegal⟩

end Sys2Proof.Machine
end

section
/-! PROOF of `DecodingIsRight` (O51): the words written out decode by evaluation; a word of any fields, whose class or guard is
not assigned, by the fields that it is cut into. -/

namespace Sys2Proof

open Sys2Proof.Claim

/-- A word is cut into the fields it is put together from (R141, R143). -/
theorem ofNat_word0 (cls : BitVec 3) (op : BitVec 7) (mod : BitVec 4) (pred : BitVec 5) (pn : BitVec 1) (d a b c : BitVec 11) :
    Fields.ofNat (word0 cls op mod pred pn d a b c).toNat =
      ⟨cls.toNat, op.toNat, mod.toNat, pred.toNat, pn.toNat, d.toNat, a.toNat, b.toNat, c.toNat⟩ := by
  have word : (word0 cls op mod pred pn d a b c).toNat =
      Fields.toNat ⟨cls.toNat, op.toNat, mod.toNat, pred.toNat, pn.toNat, d.toNat, a.toNat, b.toNat, c.toNat⟩ := by
    unfold word0 Fields.toNat
    simp only [toNat_append_mul]
    omega
  rw [word]
  exact Fields.ofNat_toNat _ ⟨cls.isLt, op.isLt, mod.isLt, pred.isLt, pn.isLt, d.isLt, a.isLt, b.isLt, c.isLt⟩

/-- A guard code between 24 and 30, or none that is negated, is no guard (R141, R145). -/
theorem Guard.ofCode_none {pred pn : Nat} (h : (24 ≤ pred ∧ pred ≤ 30) ∨ (pred = 31 ∧ pn = 1)) :
    Guard.ofCode pred pn = none := by
  unfold Guard.ofCode
  rw [if_neg (by omega), if_neg]
  rw [Bool.and_eq_true, beq_iff_eq, beq_iff_eq]
  omega

/-- A word without a guard is an unassigned one, and so is a word of a class that is not assigned (R142, R153). -/
theorem decodeFields_none {x : Fields} {w1 : Nat} (h : x.cls = 7 ∨ Guard.ofCode x.pred x.pn = none) :
    decodeFields x w1 = none := by
  unfold decodeFields
  rcases h with cls | guard
  · rw [cls]
    cases Guard.ofCode x.pred x.pn <;> rfl
  · rw [guard]
    rfl

/-- Settles O51: by evaluation, and for the unassigned words by `decodeFields_none`. -/
theorem decodingIsRight : Obligations.DecodingIsRight := by
  refine ⟨by decide, by decide, by decide, by decide, by decide, by decide, by decide, by decide, by decide, by decide, ?_⟩
  intro cls op mod pred pn d a b c w1 h
  have none : decodeFields (Fields.ofNat (word0 cls op mod pred pn d a b c).toNat) w1.toNat = none := by
    rw [ofNat_word0]
    refine decodeFields_none (h.imp (congrArg BitVec.toNat) fun guard => Guard.ofCode_none (guard.imp_right ?_))
    exact fun negated => ⟨congrArg BitVec.toNat negated.1, congrArg BitVec.toNat negated.2⟩
  rw [decodeWords, none]
  rfl

end Sys2Proof
end

section
/-! PROOF of `StepRunsTheDecodedInstruction` (O53): the words that a fetch reads are those at the front of the line's bytes, and a
turn that nothing stops is the instruction and its end. -/

namespace Sys2Proof.Machine

open Sys2Proof.Claim

/-- The bytes of a value from the k-th on. -/
theorem leBytes_drop {k n : Nat} (h : k ≤ n) (v : Nat) : (leBytes n v).drop k = leBytes (n - k) (v / 256 ^ k) := by
  obtain ⟨m, rfl⟩ := Nat.exists_eq_add_of_le h
  rw [leBytes_add, List.drop_left' (leBytes_length k v), Nat.add_sub_cancel_left]

/-- What the bytes of a value decode to: its low word, and the word after it where that is the second of an instruction. -/
theorem decodeBytes_leBytes (n v : Nat) : decodeBytes (leBytes (16 + n) v) =
    if takesSecondWord (BitVec.ofNat 64 v) then
      .ok (decodeWords (BitVec.ofNat 64 v) (BitVec.ofNat 64 (v / 256 ^ 8)), leBytes n (v / 256 ^ 8 / 256 ^ 8))
    else .ok (decodeWords (BitVec.ofNat 64 v) 0#64, leBytes (8 + n) (v / 256 ^ 8)) := by
  have words : leBytes (16 + n) v = leBytes 8 v ++ leBytes (8 + n) (v / 256 ^ 8) := by
    rw [← leBytes_add, ← Nat.add_assoc]
  rw [words, decodeBytes, takeWord_leBytes]
  dsimp only
  rw [leBytes_add 8 n, takeWord_leBytes]

section Fetch
variable {s : State} {p : Place} {t : Nat} {pc : DWord} {x y : Xlat} {line : BitVec 1024}

/-- A word whose line the partition's instruction cache holds (R20, R140). -/
theorem State.fetchWord_held (hx : s.translateFor (reqOf p) p.core t pc .fetch = (s, .ok x))
    (held : kget (s.core p.core).icache (iKey p.part (x.key / 128)) = some line) :
    s.fetchWord p t pc = (s, .inl (BitVec.ofNat 64 (line.toNat / 256 ^ (x.key % 128)))) := by
  have bytes : 2 ^ (8 * (x.key % 128)) = 256 ^ (x.key % 128) := Nat.pow_mul 2 8 _
  rw [State.fetchWord, hx]
  dsimp only
  rw [held, bytes]

end Fetch

theorem fetchReadsTheBytes : Claim.FetchReadsTheBytes := by
  intro s p t pc x y line i rest hx hy next inLine held decodes
  have sameLine : y.key / 128 = x.key / 128 := by omega
  have after : y.key % 128 = x.key % 128 + 8 := by omega
  have word0 := State.fetchWord_held hx held
  have word1 := State.fetchWord_held hy (sameLine ▸ held)
  rw [after, Nat.pow_add, ← Nat.div_div_eq_div_mul] at word1
  have laid : (leBytes 128 line.toNat).drop (x.key % 128) =
      leBytes (16 + (112 - x.key % 128)) (line.toNat / 256 ^ (x.key % 128)) := by
    rw [leBytes_drop (by omega)]
    congr 1
    omega
  rw [laid, decodeBytes_leBytes] at decodes
  rw [State.fetch, word0]
  dsimp only
  split at decodes
  · next second =>
    cases decodes
    rw [if_pos second, word1]
  · next second =>
    cases decodes
    rw [if_neg second]

/-- The end of a turn: an instruction that waits at issue leaves no trace in the clock (R33, R166). -/
theorem State.issued_eq (t : State) (a : Nat) (p : Place) (i : Instr) :
    t.issued a p i = if ((t.agent? a).map fun z => z.ctl.stall) = some true then t.rest
        else { t.modAgent a (Agent.mapCtl Ctl.waitOver) with
          cur := none
          clock := t.clock ++ [{ agent := a, core := p.core, part := p.part, pipe := pipeOf i, clk := t.time,
                                 till := t.time + pipeTime i - 1 }] } := by
  have waits : (((t.agent? a).map fun z => z.ctl.stall).getD false = true) =
      (((t.agent? a).map fun z => z.ctl.stall) = some true) := by
    cases (t.agent? a).map fun z => z.ctl.stall <;> simp
  unfold State.issued
  simp only [waits]

/-- A TIMER that is due has become pending in the state where the agent stands at its boundary (R307). -/
theorem State.atBoundary_eq (s : State) (a : Nat) (y : Agent) :
    s.atBoundary a y = if y.timerDue s.time then s.setAgent a (y.atBoundary s.time) else s := by
  unfold State.atBoundary Agent.atBoundary
  split <;> rfl

/-- A turn in which nothing stops the agent runs the instruction that it fetches. -/
theorem State.turn_issues {s s1 : State} {a : Nat} {y : Agent} {p : Place} {pc : DWord} {run : Lanes} {i : Instr}
    (hy : s.agent? a = some y) (hp : (y.atBoundary s.time).place = some p)
    (hrun : (y.atBoundary s.time).ctl.headRun = some (pc, run)) (issues : s.canIssue (y.atBoundary s.time) = true)
    (noCause : (s.atBoundary a y).boundary a (y.atBoundary s.time) = none)
    (noBreak : (s.atBoundary a y).breakAt (y.atBoundary s.time) pc = false)
    (fetched : (s.atBoundary a y).fetch p (y.atBoundary s.time).ident.tenant pc = (s1, .got i)) :
    s.turn a = settled a p i (exec i { s1 with cur := some a }) := by
  unfold State.turn
  simp only [hy, hp, hrun, issues, Bool.not_true, Bool.false_eq_true, if_false, noCause]
  unfold State.issueNow
  simp only [noBreak, Bool.false_eq_true, if_false, fetched]

theorem turnRunsTheInstruction : Claim.TurnRunsTheInstruction := by
  intro s s1 a y p pc run i hcur hy due x s0 hp hrun issues noCause noBreak fetched
  have turn : step s = settled a p i (exec i { s1 with cur := some a }) := by
    rw [step, hcur]
    have boundary : s.atBoundary a y = s0 := s.atBoundary_eq a y
    rw [← boundary] at noCause noBreak fetched
    exact State.turn_issues hy hp hrun issues noCause noBreak fetched
  refine ⟨fun t ht => ?_, fun f hf => ?_, fun r hr => ?_⟩
  · rw [turn, ht]
    exact congrArg Host.Outcome.next (State.issued_eq t a p i)
  · rw [turn, hf]; rfl
  · rw [turn, hr]; rfl

/-- Settles O53: a fetch from held lines decodes the bytes there, and a turn runs what it fetches. -/
theorem stepRunsTheDecodedInstruction : Obligations.StepRunsTheDecodedInstruction :=
  ⟨fetchReadsTheBytes, turnRunsTheInstruction⟩

end Sys2Proof.Machine
end
